-- ==== Sys2Proof/Word.lean ====
section
/-! DEFINITION. The word types of the block and the sparse table that every keyed store uses.
Bit 0 is the least significant bit of every register, field, word and packet (R2). -/

namespace Sys2Proof

/-- One byte. -/
abbrev Byte := BitVec 8

/-- One 64-bit register or memory word; every register of the block is 64 bits wide (R480). -/
abbrev Word := BitVec 64

/-- Bytes, first byte first. -/
abbrev Bytes := List Byte

/-- A sparse store: keys in strictly rising order, and no entry equal to the value an unlisted key
reads as, so that equal stores are equal lists. -/
abbrev Tab (α : Type) := List (Nat × α)

/-- An unsigned number in nanoseconds, ticks or another count that the block holds exactly. -/
abbrev Count := Nat

end Sys2Proof
end

