-- ==== Sys2Proof/OperandTypes.lean ====
section
/-! DEFINITION. The operands of the commands: what the outside world hands the block with a command.
Where a command reads external memory, samples a sensor or meets a physical upset, what it finds is an
operand, since the outside world decides it. Log entry 3. -/

namespace Sys2Proof

/-- A command slot or window: VI0 to VI63, and 64 for the operator window (R234, R254). -/
abbrev Win := Fin 65
/-- An Arcade, and the Piazza segment above it (R16). -/
abbrev Arc := Fin 16
/-- A phase source PS0 to PS15. -/
abbrev Src := Fin 16
/-- A control stream CS0 to CS255. -/
abbrev Cs := Fin 256
/-- An index of the event table (R41). -/
abbrev EvIdx := Fin 4096
/-- A session SC0 to SC16383 (R205). -/
abbrev Sc := Fin 16384

/-- What FC firmware has stored in FC SRAM since the command before: offset and bytes (log entry 19). -/
abbrev SramStores := List (BitVec 19 × Bytes)

/-- What M0 to M3 answer to the read a command makes of external memory (R450, R454). -/
structure HostRead where
  bytes  : Bytes
  err    : Bool := false
  poison : Bool := false
deriving DecidableEq, Repr

/-- What an error-correcting code finds in a word (R98, R99). -/
inductive Ecc where
  | ce | ue
deriving DecidableEq, Repr

/-- An error that a code finds in a control structure which a firing reads (R369): in the session's context, or a correctable
one in another structure of that list, by its unit (R387). What is uncorrectable there is the row BLOCK_RESET_REQUEST, FC_CRASH or
QC_CRASH. -/
inductive CtrlUpset where
  | context (e : Ecc)
  | ce (unitKind unit : Nat)
deriving DecidableEq, Repr

/-- A physical upset met by a command that reads a store: a word of ALS, scale side word, Piazza word (byte address),
accumulator entry or parameter store found in error by its code; or a silent error of the array, which
XORs the sum a column adds at a step (R98, R99 and the opening of the chapter "Catching silent errors"). -/
inductive Upset where
  | als (row bank word : Nat) (e : Ecc)
  | side (row bank : Nat) (e : Ecc)
  | piazza (addr : Nat) (e : Ecc)
  | acc (row col : Nat) (e : Ecc)
  | params (e : Ecc)
  | array (step col : Nat) (flip : BitVec 64)
deriving DecidableEq, Repr

/-- An ingress frame as an SI port delivers it: its bytes, how many of its beats were poisoned, whether its beats
broke the framing of R457, its 802.1AS timestamp, and whether its first beat came before the boundary at which its
session's present key was planted (R148, R210, R456, R457). `lane` is a silent error of the second GCM lane, which XORs the
plaintext that it decrypts (R193, R195). -/
structure RawFrame where
  bytes   : Bytes
  lane    : Bytes := []
  early   : Bool := false
  poison  : Nat := 0
  framing : Bool := false
  ts      : BitVec 64 := 0
deriving DecidableEq, Repr

/-- A finding of the built-in self-test of a unit (R106): the spare rows in use by bank of the segment and of the
ALS, the pages of the segment and the rows of the ALS that no spare could replace, and whether the unit is usable at
all. -/
structure SelfTest where
  spares    : List Nat := []
  alsSpares : List Nat := []
  badPages  : List Nat := []
  badRows   : List Nat := []
  pass      : Bool := true
deriving DecidableEq, Repr

/-- One try of the entropy source's start-up test (R343): the first 4,096 raw bits, and whether the known-answer tests pass. -/
structure StartTry where
  raw : Bytes := List.replicate 512 0x55
  kat : Bool := true
deriving DecidableEq, Repr

/-- What the outside and the analogue parts contribute to a boot step (R286): the tries of the entropy source's start-up test (R343)
and the 1,024 raw bits of the block that seeds the DRBG (R345), of each image read from the flash whether the read ended in an error
(R276), the µs from reset release (R296), whether the health ring's header fails, and a fuse word that does not take (R305). -/
structure BootIn where
  startup   : List StartTry := [{}]
  seed      : Bytes := List.replicate 128 0x55
  stuck     : Option (Fin 512) := none
  flashErrs : List Bool := []
  us        : Nat := 0
  ringBad   : Bool := false
deriving DecidableEq, Repr

/-- What the power manager reads at a step boundary (R408, R474): P over the step in 0.1 W, the mean
current of each rail in 0.1 A, the highest sensor in 0.1 °C, pwr_derate, and whether the AVSBus read-back
shows VDD_ARC at its target (R403). -/
structure PowerSense where
  powerDw : Nat
  amps    : List Nat
  tj      : Int
  derate  : BitVec 2
  avsOk   : Bool := true
deriving DecidableEq, Repr

/-- One sample of the rail-sense inputs (R405, R475): the ns since the sample before it, each Arcade domain in mV, the three rails
in mV and in 0.1 A. -/
structure RailSense where
  ns      : Nat
  arcMv   : List Nat
  railMv  : List Nat
  railDa  : List Nat
deriving DecidableEq, Repr

/-- What the Kerb reads in one µs (R405): the sensors in 0.1 °C, the samples of the rails, the earliest first, and the ACLK on the
frequency monitor in MHz. -/
structure KerbSense where
  tj      : List Int
  rails   : List RailSense
  aclkMhz : Nat
deriving DecidableEq, Repr

/-- The two buses a register write arrives on: a T0 byte address with its strobes (R446), an offset of the
FC register space (R498), and the input window of a digest context (R328). -/
inductive RegBus where
  | t0 (addr : BitVec 32) (strb : BitVec 8)
  | fc (off : BitVec 16)
  | deInput (cx : Fin 6)
deriving DecidableEq, Repr

/-- A hardened-configuration field that the voter compares (R373). -/
inductive HcRef where
  | psCfg (n : Src) | psGain (n : Src) | psLim (n : Src)
  | pmPolicy | pmUnitCtrl | pairVi
  | viPolicy (n : Fin 64)
  | event (n : EvIdx) (high : Bool)
  | region (a : Arc) (r : Fin 64)
deriving DecidableEq, Repr

/-- The class-BLOCK events of R388, which request a block reset (R371). -/
inductive BlockEvent where
  | ctrlPoison (unitKind unit : Nat) | hcSplit | fcCrashLoop
deriving DecidableEq, Repr

/-- The head of a recovery UART frame (R293): its seq, and whether sof, length and crc are right. -/
structure UartHead where
  seq   : Byte
  valid : Bool := true
deriving DecidableEq, Repr

/-- The head of a Fumas message (R428): its counter, and whether its GCM tag is the right one. -/
structure LinkHead where
  counter : BitVec 64
  tagOk   : Bool := true
deriving DecidableEq, Repr

/-- A message of PAIR_JOIN's exchange (R428, R430, R365, R366). `synced` ends step 5 with the sessions that the partner could
not take. -/
inductive JoinMsg where
  | version (major mode : Nat) (serial : BitVec 128)
  | nonce (n : BitVec 256)
  | token (bytes : Bytes)
  | certs (deviceKeys : Bytes) (ecdsaCert mldsaCert : Bytes)
  | keyx (ecdh : Bytes) (kem : Bytes)
  | synced (refused : List (Fin 16384))
deriving DecidableEq, Repr

/-- The SPDM request that a SESSION_KEYX command carries (R207, R361), read from its host buffer. -/
inductive KeyxReq where
  | keyExchange (ecdhPub : Bytes) (mlkemEk : Bytes)
  | finish (verifyOk : Bool)
  | endSession
  | other (code : Nat)
deriving DecidableEq, Repr

/-- The path of an SPDM request: a VI's SESSION_KEYX, or the management port (R361, R364). -/
inductive SpdmPath where
  | win (w : Win)
  | mgmt
deriving DecidableEq, Repr

/-- The I3C common command codes the target answers (R467). -/
inductive Ccc where
  | enec (bits : Byte) | disec (bits : Byte) | rstdaa | entdaa (addr : BitVec 7)
  | setdasa (static dyn : BitVec 7) | getpid | getbcr | getdcr | getstatus
  | getmwl | getmrl | setmwl (n : BitVec 16) | setmrl (n : BitVec 16)
deriving DecidableEq, Repr

/-- The MCTP control commands (R468). -/
inductive MctpCtl where
  | setEndpointId (eid : Byte) | getEndpointId | getVersionSupport | getMessageTypes
deriving DecidableEq, Repr

/-- A JTAG debug instruction's action (R312, R469). -/
inductive DebugOp where
  | fcHalt | fcStep | fcRun
  | qcHalt (q : Fin 4) | qcStep (q : Fin 4) | qcRun (q : Fin 4)
  | trace (on : Bool)
  | memRead (addr : BitVec 26) (e : Option Ecc) | memWrite (addr : BitVec 26) (data : Bytes)
  | scan
deriving DecidableEq, Repr

/-- A PLDM message of R391: the supported commands of types 0 and 2 that have no row of their own, and the receiver's response
to an exported event. -/
inductive PldmReq where
  | getTid | getVersion | getTypes | getCommands
  | getPdr (handle : Nat) | getSensorReading (id : Nat) | getStateSensorReadings (id : Nat)
  | eventDone
  | unsupported
deriving DecidableEq, Repr

/-- The straps sampled at the end of a reset (R445). -/
structure Straps where
  traySlot    : BitVec 4 := 0
  fmMedium    : Bool := false
  recoveryReq : Bool := false
  i3cAddr     : BitVec 7 := 0
  jtagMfr     : BitVec 11 := 0
deriving DecidableEq, Repr

/-- What completes a running Forecourt command (R242, R369, R454): whether the write of its reply data got an error response, and the
errors found in the control structures that the command and the firmware that ran it have read. -/
structure DoneIn where
  writeErr : Bool := false
  ctl : List CtrlUpset := []
deriving DecidableEq, Repr

/-- A finding of patrol: a word of the page or row read in error (R104, R107). -/
structure PatrolHit where
  line : Nat
  word : Nat
  ecc  : Ecc
deriving DecidableEq, Repr

/-- A watchdogged lane of the SCL (R374): GCM lanes 0 to 3, receipt lanes 4 and 5. -/
abbrev Lane := Fin 6

/-- Which of a slot's records a lane finishes (R217): the record that the slot's own outcome decides, that of a comparison which
ended as MISMATCH (R195), or the provisional one. -/
inductive RecordKind where
  | computed | mismatch | fallback
deriving DecidableEq, Repr

end Sys2Proof
end

