-- ==== Sys2Proof/Machine/StatePlan.lean ====
section
/-! DEFINITION. The tables of a plan as the Forecourt, the Quarter memories and the parameter stores hold
them after PLAN_LOAD (R111 to R127, R140, R141), and the tile instructions of a program (R128 to R137). -/

namespace Sys2Proof.Machine

/-- A tile instruction, decoded (R128 to R137). Counts are held as the plan encodes them less one added back. -/
inductive TileInstr where
  | nop
  | tile (actFmt wtFmt : Nat) (fan : Nat) (accRow : Nat) (clear : Bool) (actAd : Nat) (steps kpr t0 : Nat)
      (aR aK aG wR wK sK sR : Nat)
  | out (accRow rows odesc dstAd dst dstStride : Nat)
  | seta (ad src : Nat) (add : Bool) (imm : BitVec 32)
  | loop (count : Nat)
  | endl
  | send (accRow rows rdesc part : Nat) (dg : Bool)
  | comb (rdesc : Nat)
  | signal (arcade counter : Nat)
  | wait (counter value timeout : Nat)
  | move (srcAd dstAd lines : Nat)
  | bound
  | tend
deriving DecidableEq, Repr

/-- A BUFFER entry (R115). -/
structure Buffer where
  base : Nat
  pages : Nat
  lsess : Nat
  use : Nat
deriving DecidableEq, Repr

/-- A MODEL entry (R116). -/
structure Model where
  lsess : Nat
  kind : Nat
  actFmt : Nat
  wtFmt : Nat
  firstWeight : Nat
  nWeights : Nat
  kMax : Nat
  macs : Nat
deriving DecidableEq, Repr

/-- A WEIGHT entry (R117). -/
structure Weight where
  digest : BitVec 384
  length : Nat
  model : Nat
  mx : Bool
deriving DecidableEq, Repr

/-- A PLACEMENT entry (R118). -/
structure Placement where
  model : Nat
  arcade : Nat
  firstRow : Nat
  lastRow : Nat
  scratch : Bool
  shared : Bool
  second : Bool
  lsess : Nat
  weight : Nat
deriving DecidableEq, Repr

/-- A SOURCE entry (R119). -/
structure PlanSource where
  source : Nat
  lambda : Nat
  cfg : Word
  gain : Word
  lim : Word
deriving DecidableEq, Repr

/-- A CALENDAR entry (R120). -/
structure Calendar where
  cs : Nat
  phase : Bool
  source : Nat
  timed : Bool
  phaseRelease : Bool
  nOrPitch : Nat
  anchor : Nat
  startDelay : Nat
  release : Nat
  budget : Nat
  standstillPitch : Nat
  model : Nat
  input : Nat
  inputSecond : Nat
  windowBytes : Nat
deriving DecidableEq, Repr

/-- An INTEGRITY entry (R122). -/
structure Integrity where
  target : Nat
  isModel : Bool
  fraction : Nat
  partner : Bool
  checkers : BitVec 16
deriving DecidableEq, Repr

/-- A RECEIPT entry (R123). -/
structure ReceiptEntry where
  target : Nat
  isModel : Bool
  payloadBytes : Nat
  payloadFmt : Nat
  every : Nat
deriving DecidableEq, Repr

/-- An OUTPUT entry with its vectors (R124). -/
structure OutDesc where
  fmt : Nat
  rounding : Nat
  satMode : Bool
  act : Nat
  cols : Nat
  sh : Nat
  arcades : BitVec 16
  lut : Nat
  scale : BitVec 32
  zeroPoint : BitVec 32
  lo : BitVec 32
  hi : BitVec 32
  bias : List (BitVec 32)
  scaleVec : List (BitVec 32)
deriving DecidableEq, Repr

/-- A LUT entry (R125): range, reciprocal width and the coefficients c0, c1, c2 of its segments. -/
structure Lut where
  lo : BitVec 32
  hi : BitVec 32
  wInv : BitVec 32
  arcades : BitVec 16
  coeffs : List (BitVec 32)
deriving DecidableEq, Repr

/-- A REDUCTION entry (R126); `sources` lists the sending Arcade of parts 1 to 15. -/
structure Reduction where
  dest : Nat
  parts : Nat
  recvRow : Nat
  rows : Nat
  digest : Bool
  sources : List Nat
deriving DecidableEq, Repr

/-- A PROGRAM entry (R141). -/
structure Program where
  arcade : Nat
  control : Bool
  accFirst : Nat
  accLast : Nat
  words : List Word
deriving DecidableEq, Repr

/-- A SCHEDULE entry (R140). -/
structure Schedule where
  trigger : Nat
  kind : Nat
  arcade : Nat
  program : Nat
  region : Nat
  ads : List Nat
  lsess : Nat
  ckJob : Bool
deriving DecidableEq, Repr

/-- A REMOTE entry (R438). -/
structure Remote where
  reduction : Nat
  mask : BitVec 16
  destRemote : Bool
deriving DecidableEq, Repr

/-- A NOTIFY entry (R127). -/
structure NotifyEntry where
  phase : Bool
  source : Nat
  offset : Nat
  periodic : Bool
  nOrPitch : Nat
  anchor : Nat
deriving DecidableEq, Repr

/-- A loaded plan: the tables of its container, its measurement and author key digest (R144), and the KiB
its tables take of the plan-table pool (R143). -/
structure Plan where
  arcades : BitVec 16 := 0
  sourceMask : BitVec 16 := 0
  planId : BitVec 128 := 0
  measurement : BitVec 384 := 0
  author : BitVec 384 := 0
  poolKiB : Nat := 0
  /-- where PLAN_LOAD put it: the blocks of the pool, and the half of the program spaces and parameter stores. -/
  pool : List Nat := []
  top : Bool := false
  /-- the keys of the check units and of the collective digests, drawn at the commit (R183, R200). -/
  hKey : BitVec 128 := 0
  hcKey : BitVec 128 := 0
  buffers : List Buffer := []
  models : List Model := []
  weights : List Weight := []
  placements : List Placement := []
  sources : List PlanSource := []
  calendars : List Calendar := []
  integrity : List Integrity := []
  receipts : List ReceiptEntry := []
  outputs : List OutDesc := []
  luts : List Lut := []
  reductions : List Reduction := []
  programs : List Program := []
  schedules : List Schedule := []
  remotes : List Remote := []
  notifies : List NotifyEntry := []
deriving DecidableEq, Repr

/-- The outcome of a whole run: the payload, its flags and its signatures (R193). -/
structure Outcome1 where
  payload : Bytes
  flags : BitVec 3
  sigs : List (BitVec 128)
deriving DecidableEq, Repr

end Sys2Proof.Machine
end

