-- ==== Sys2Proof/Machine/Tab.lean ====
section
/-! DEFINITION. The operations of sparse stores: every keyed store of the block (memories, register arrays,
sessions, streams, Arcades) is read and written through these, so that it stays in one canonical form. -/

namespace Sys2Proof

/-- The value of a store at a key; an unlisted key reads as `d`. -/
def Tab.get {α : Type} (d : α) : Tab α → Nat → α
  | [], _ => d
  | (j, v) :: r, k => if j = k then v else Tab.get d r k

/-- List a value at a key, in the place that the order of the keys gives it. -/
def Tab.insert {α : Type} (k : Nat) (v : α) : Tab α → Tab α
  | [] => [(k, v)]
  | (j, w) :: r => if j = k then (k, v) :: r else if k < j then (k, v) :: (j, w) :: r else (j, w) :: Tab.insert k v r

/-- Remove the entry at a key. -/
def Tab.erase {α : Type} (t : Tab α) (k : Nat) : Tab α := t.filter fun e => decide (e.1 ≠ k)

/-- Write a value at a key; a value equal to `d` removes the entry. -/
def Tab.set {α : Type} [DecidableEq α] (d : α) (t : Tab α) (k : Nat) (v : α) : Tab α :=
  if v = d then t.erase k else t.insert k v

/-- Change the value at a key. -/
def Tab.upd {α : Type} [DecidableEq α] (d : α) (t : Tab α) (k : Nat) (f : α → α) : Tab α :=
  Tab.set d t k (f (Tab.get d t k))

/-- Write consecutive values from a key on. -/
def Tab.setMany {α : Type} [DecidableEq α] (d : α) : Tab α → Nat → List α → Tab α
  | t, _, [] => t
  | t, k, v :: vs => Tab.setMany d (Tab.set d t k v) (k + 1) vs

/-- Read `n` consecutive values from a key on. -/
def Tab.getMany {α : Type} (d : α) (t : Tab α) (k n : Nat) : List α :=
  (List.range n).map fun i => Tab.get d t (k + i)

/-- Remove every entry whose key lies in `lo ≤ key < hi`. -/
def Tab.clear {α : Type} (t : Tab α) (lo hi : Nat) : Tab α :=
  t.filter fun e => decide (e.1 < lo) || decide (hi ≤ e.1)

/-- Every listed key is at least `n`, keys rise strictly, and no entry holds the default. -/
def Tab.wfFrom {α : Type} [DecidableEq α] (d : α) : Nat → Tab α → Bool
  | _, [] => true
  | n, (k, v) :: r => decide (n ≤ k) && decide (v ≠ d) && Tab.wfFrom d (k + 1) r

/-- The canonical form: keys strictly rising and no entry equal to what an unlisted key reads as. -/
def Tab.wf {α : Type} [DecidableEq α] (d : α) (t : Tab α) : Bool := Tab.wfFrom d 0 t

/-- Apply a function to every listed value, where none becomes the default. -/
def Tab.mapListed {α : Type} (t : Tab α) (f : Nat → α → α) : Tab α := t.map fun e => (e.1, f e.1 e.2)

/-- A store without the entries that hold the default, and without those that another entry of their key hides. -/
def Tab.pack {α : Type} [DecidableEq α] (d : α) (t : Tab α) : Tab α :=
  t.filter fun e => decide (e.2 ≠ d) && decide (Tab.get d t e.1 ≠ d)

/-- Apply a function to every listed value; an entry that becomes the default is removed. -/
def Tab.mapVals {α : Type} [DecidableEq α] (d : α) (t : Tab α) (f : Nat → α → α) : Tab α := Tab.pack d (t.mapListed f)

/-- The n bytes of a number, least significant first (R3). -/
def Bytes.ofNat : Nat → Nat → Bytes
  | 0, _ => []
  | n + 1, v => BitVec.ofNat 8 v :: Bytes.ofNat n (v / 256)

/-- The number that bytes spell, least significant first (R3). -/
def Bytes.toNat : Bytes → Nat
  | [] => 0
  | b :: r => b.toNat + 256 * Bytes.toNat r

/-- `n` bytes from offset `o`; a byte past the end reads as zero. -/
def Bytes.slice (b : Bytes) (o n : Nat) : Bytes :=
  let c := (b.drop o).take n
  c ++ List.replicate (n - c.length) 0

/-- The little-endian number of `n` bytes at offset `o` (R3). -/
def Bytes.num (b : Bytes) (o n : Nat) : Nat := Bytes.toNat (Bytes.slice b o n)

/-- The signed little-endian number of `n` bytes at offset `o`. -/
def Bytes.int (b : Bytes) (o n : Nat) : Int :=
  let v := Bytes.num b o n
  if v < 2 ^ (8 * n - 1) then (v : Int) else (v : Int) - 2 ^ (8 * n)

/-- The bytes of a bit vector, most significant first: the order a standard gives hash outputs, tags and
nonces (R3). -/
def Bytes.big {w : Nat} (v : BitVec w) : Bytes := (Bytes.ofNat (w / 8) v.toNat).reverse

@[simp] theorem Bytes.ofNat_length : ∀ n v, (Bytes.ofNat n v).length = n
  | 0, _ => rfl
  | n + 1, v => by simp [Bytes.ofNat, Bytes.ofNat_length n]

@[simp] theorem Bytes.big_length {w : Nat} (v : BitVec w) : (Bytes.big v).length = w / 8 := by simp [Bytes.big]

/-- The number that bytes spell, most significant first. -/
def Bytes.bigNat (b : Bytes) : Nat := Bytes.toNat b.reverse

/-- Bits [hi:lo] of a number. -/
def Bits.get (v lo n : Nat) : Nat := v / 2 ^ lo % 2 ^ n

/-- Bit `i` of a number. -/
def Bits.bit (v i : Nat) : Bool := v / 2 ^ i % 2 == 1

/-- A number with bits [lo + n - 1:lo] replaced. -/
def Bits.put (v lo n x : Nat) : Nat := v - Bits.get v lo n * 2 ^ lo + (x % 2 ^ n) * 2 ^ lo

/-- The lowest of the `n` numbers from `lo` on that passes a test. -/
def lowestWith (p : Nat → Bool) : Nat → Nat → Option Nat
  | 0, _ => none
  | n + 1, lo => if p lo then some lo else lowestWith p n (lo + 1)

/-- Split a list in pieces of `n`; the last may be shorter. The first argument bounds the number of pieces. -/
def Bytes.chunks {α : Type} (n : Nat) : Nat → List α → List (List α)
  | 0, _ => []
  | _, [] => []
  | m + 1, b => b.take n :: Bytes.chunks n m (b.drop n)

end Sys2Proof
end

