-- ==== Sys2Proof/Syntax.lean ====
section
/-! DEFINITION. The commands and events of the block, one constructor per row of spec/opcode_table.json,
with the operands of each row. The rule of a row is the one its table entry names. -/

namespace Sys2Proof

inductive Instr where
  -- host opcodes of R249; each acts on the packet that slot `w` had accepted
  | viOpen (w : Win)
  | viClose (w : Win)
  | sessionOpen (w : Win)
  | sessionKeyx (w : Win) (hdr : HostRead) (req : KeyxReq)
  | sessionClose (w : Win)
  | leaseTake (w : Win)
  | leaseDrop (w : Win)
  | planLoad (w : Win) (img : HostRead)
  | weightsLoad (w : Win) (img : HostRead)
  | measure (w : Win) (u : List Upset)
  | streamBind (w : Win)
  | stageWrite (w : Win)
  | stageCheck (w : Win)
  | stageCommitAt (w : Win)
  | jobSubmit (w : Win) (inputs : List HostRead)
  | jobCheckpoint (w : Win) (writeErr : Bool) (u : List Upset)
  | jobResume (w : Win) (blob : HostRead) (inputs : List HostRead)
  | abort (w : Win)
  | resultAck (w : Win)
  | integritySet (w : Win)
  | evidenceGet (w : Win)
  | receiptCheckpoint (w : Win)
  | fwInfo (w : Win)
  | fwStage (w : Win) (img : HostRead) (flashErr : Bool)
  | errlogRead (w : Win)
  | keyDestroy (w : Win) (stuck : Option (Fin 512))
  | lifecycleRequest (w : Win) (tok : HostRead) (stuck : Option (Fin 512))
  | debugUnlock (w : Win) (tok : HostRead)
  | pairJoin (w : Win)
  | provisionOwner (w : Win) (tok : HostRead) (stuck : Option (Fin 512))
  | revoke (w : Win) (tok : HostRead) (stuck : Option (Fin 512))
  | provisionFleet (w : Win) (tok : HostRead) (stuck : Option (Fin 512))
  -- command slot and registers
  | post (w : Win)
  | flush (w : Win)
  | paramAppend (w : Win) (data : Word) (strb : BitVec 8)
  | ckptFreeWrite (w : Win) (data : Word)
  | registerWrite (bus : RegBus) (data : Word)
  -- digest and public-key engines
  | deOpen (cx : Fin 6) (ctrl : Word) (stores : SramStores) (slot : Option (Fin 64))
  | deFinal (cx : Fin 6) (fault : Bool)
  | deExport (cx : Fin 6)
  | deImport (cx : Fin 6) (stores : SramStores)
  | deFree (cx : Fin 6)
  | pkeSubmit (off : BitVec 19) (stores : SramStores)
  | pkeJobStart (slot : Option (Fin 64)) (stores : SramStores)
  | pkeYieldPoint
  | pkeJobEnd (fault : Bool)
  -- watchdogs and locks
  | fcWdogKick
  | qcWdogKick (q : Fin 4)
  | romLock
  | bl1Lock
  -- phase time
  | ptuTick
  | phaseSample (src : Src) (word : Word) (parityOk : Bool)
  | sourceTimeout (src : Src)
  | coastLimitExpiry (src : Src)
  | dtStrobe (ns : Word) (valid : Bool)
  | dtInputTimeout
  -- firings of the event table
  | commit (e : EvIdx)
  | inputClose (e : EvIdx) (ctl : List CtrlUpset)
  | slotStart (e : EvIdx) (ctl : List CtrlUpset) (u : List Upset)
  | release (e : EvIdx) (ctl : List CtrlUpset) (recUe : Bool)
  | checkWindow (e : EvIdx)
  | notify (e : EvIdx)
  | epochBoundary
  | dispatchTick
  | powerStepBoundary (p : PowerSense)
  -- streams, records, checkpoints, messages
  | ingressFrame (port : Fin 4) (f : RawFrame)
  | inputWrite (cs : Cs)
  | recordReady (cs : Cs) (k : RecordKind) (ue : Bool)
  | recordLeaves (cs : Cs)
  | heldRecordLeaves (cs : Cs)
  | checkpointWrite (writeErr : Bool)
  | jobRecordWrite (job : Fin 1024) (writeErr : Bool)
  | msgSend (ready : Bool)
  -- tile instructions, at the word the sequencer of Arcade `a` stands at
  | nop (a : Arc)
  | tile (a : Arc) (u : List Upset)
  | out (a : Arc) (u : List Upset)
  | seta (a : Arc)
  | loop (a : Arc)
  | endl (a : Arc)
  | send (a : Arc) (u : List Upset)
  | comb (a : Arc) (u : List Upset)
  | signal (a : Arc)
  | wait (a : Arc)
  | move (a : Arc) (u : List Upset)
  | bound (a : Arc)
  | tend (a : Arc) (u : List Upset)
  | partArrival (a : Arc) (rdesc : Fin 256) (part : Fin 16)
  | waitTimeout (a : Arc)
  | combTimeout (a : Arc)
  | sessionFaultAbort (sc : Sc)
  | queuedSlotStart (a : Arc)
  | bulkResume (a : Arc)
  -- integrity
  | captureDone (a : Arc) (u : List Upset)
  | checkStart (a : Arc)
  | checkComplete (a : Arc) (u : List Upset)
  | refereeComplete (a : Arc) (u : List Upset)
  | repeatComplete (a : Arc) (u : List Upset)
  | dualCompare (cs : Cs) (u : List Upset)
  | dualRefereeComplete (cs : Cs) (u : List Upset)
  | shadowRunComplete (a : Arc) (u : List Upset)
  -- stores
  | zeroiseDone (unit : Arc) (als : Bool)
  | patrol (unit : Arc) (als : Bool) (hits : List PatrolHit)
  | omapScrub (slice : Arc) (entry : Fin 4096) (e : Option Ecc)
  -- faults and recovery
  | fcWdogExpiry
  | qcWdogExpiry (q : Fin 4)
  | laneWdogExpiry (l : Lane)
  | fcCrash (trap : BitVec 32)
  | qcCrash (q : Fin 4) (trap : BitVec 32) (codeUe : Bool)
  | fcRestartDone (upset : Option (BitVec 19 × Byte)) (errs : List Bool)
  | qcReattach (q : Fin 4) (flashErr : Bool)
  | qcDetachExpiry (q : Fin 4)
  | qcActivate (q : Fin 4) (flashErr : Bool)
  | blockResetRequest (e : BlockEvent)
  | por (s : Straps)
  | sysRst
  | bootStepDone (b : BootIn)
  | fwAck (ok : Bool) (errs : List Bool)
  | firewallTimeout (errs : List Bool)
  -- recovery UART
  | hello
  | speed (h : UartHead) (code : Byte)
  | loadBegin (h : UartHead) (component dest : Byte) (length : BitVec 32)
  | data (h : UartHead) (offset : BitVec 32) (bytes : Bytes)
  | loadEnd (h : UartHead) (flashErr : Bool) (stuck : Option (Fin 512))
  | activate (h : UartHead) (slot : Byte)
  | reboot (h : UartHead)
  -- lifecycle, fuses, random numbers, key register
  | lifecyclePortRequest (target : BitVec 4) (value : Bytes) (stuck : Option (Fin 512))
  | fusePortWrite (word : Fin 512) (bits : BitVec 32) (stuck : Option (Fin 512))
  | trngBlock (raw : Bytes)
  | drbgReseed
  | kregTimeout
  -- power
  | kerbSample (k : KerbSense)
  | planeReturn (tests : List SelfTest)
  | domainGood (d : Fin 38)
  | readmissionStart (unit : Arc)
  | pwrWarn
  | pwrWarnClear
  -- Fumas link
  | flitReceived (flit : Bytes)
  | nak (ack : BitVec 16)
  | linkDown
  | idle
  | notice (h : LinkHead) (code : Byte)
  | ctx (h : LinkHead) (sc : Sc) (st : BitVec 3) (conf : Bool) (vi : Fin 64) (keyxGen : BitVec 16)
  | key (h : LinkHead) (sc : Sc) (epoch : BitVec 52) (value : BitVec 256)
  | resv (h : LinkHead) (sc : Sc) (origin : BitVec 16) (seq rseq : Word)
  | foldMsg (h : LinkHead) (sc : Sc) (rseq : Word) (tag : BitVec 128) (time : Word) (void : Bool)
  | cmp (h : LinkHead) (cs : Cs) (seq : Word) (payload : Bytes) (flags : BitVec 3) (sigs : List (BitVec 128)) (hdr : Option (Word × Word × BitVec 6))
  | sig (h : LinkHead) (sc : Sc) (span : Word) (s : BitVec 128)
  | part (h : LinkHead) (rdesc : Fin 256) (p : Fin 16) (rows : List Bytes) (digest : BitVec 128)
  | state (h : LinkHead) (sc : Sc) (buffer : BitVec 16) (lines : List Bytes)
  | cut (h : LinkHead) (sc : Sc) (ckptNo rseqHigh : Word)
  | join (h : LinkHead) (m : JoinMsg)
  | partnerLost
  -- management port
  | getVersion (p : SpdmPath)
  | getCapabilities (p : SpdmPath)
  | negotiateAlgorithms (p : SpdmPath)
  | getDigests (p : SpdmPath)
  | getCertificate (p : SpdmPath) (slot : Fin 8) (offset length : BitVec 16)
  | challenge (p : SpdmPath) (slot : Fin 8) (nonce : BitVec 256)
  | getMeasurements (p : SpdmPath) (index : Byte) (signed : Bool) (nonce : BitVec 256)
  | setCertificate (p : SpdmPath) (slot : Fin 8) (pfx : Bytes)
  | getCsr (p : SpdmPath) (slot : Fin 8)
  | pldmRequest (r : PldmReq)
  | setEventReceiver (eid : Byte)
  | pollForPlatformEventMessage
  | platformEventTimeout
  | mctpControl (c : MctpCtl)
  | i3cCcc (c : Ccc)
  | healthAreaRewrite
  | signatureWindowEnd
  -- the rest of the table
  | commandComplete (w : Win) (d : DoneIn)
  | supplyRemoved
  | porNLow
  | aliveFault
  | jtagDebugAccess (d : DebugOp)
  | selfTestDone (unit : Arc) (t : SelfTest)
  | planIntervalCheckpoint (job : Fin 1024) (writeErr : Bool) (u : List Upset)
  | checkpointWaitExpiry
  | hcCopyDisagreement (r : HcRef) (c0 c1 c2 : Word)
  | lcChallengeRead
deriving DecidableEq, Repr

end Sys2Proof
end

