-- ==== Sys2Proof/Decode.lean ====
section
/-! DEFINITION. The command a word of the opcode table spells: no row of the table gives bits (log entry 7). And
the words of a tile program, which the block's sequencers decode (R128 to R137). -/

namespace Sys2Proof

/-- The command that an instruction word spells by the table's bits: none, since no row has bits. -/
def decodeTableWord (_nbits _w : Nat) : Option Instr := none

namespace Machine

/-- Field [lo + n - 1:lo] of a word. -/
def wordField (w : Word) (lo n : Nat) : Nat := Bits.get w.toNat lo n

/-- TILE from its two words (R129). -/
def decodeTile (w0 w1 : Word) : Option TileInstr :=
  let act := wordField w0 54 4
  let fan := wordField w0 47 3
  let ad := wordField w0 35 4
  let steps := wordField w0 24 11 + 1
  let kpr := wordField w0 13 11 + 1
  if 4 < fan ∨ steps % kpr ≠ 0 ∨ (4 ≤ act ∧ act ≤ 7 ∧ ad = 15) then none
  else some (.tile act (wordField w0 50 4) fan (wordField w0 40 7) (wordField w0 39 1 == 1) ad steps kpr
    (wordField w0 0 13) (wordField w1 52 12) (wordField w1 40 12) (wordField w1 32 8) (wordField w1 19 13)
    (wordField w1 16 3) (wordField w1 8 8) (wordField w1 0 8))

/-- The tile instruction at the front of a program's words, and its length in words; none for a reserved opcode, a
non-zero reserved field, or a field outside its range (R128 to R137). -/
def decodeWords : List Word → Option (TileInstr × Nat)
  | [] => none
  | w :: rest =>
    let f := wordField w
    let zero (lo n : Nat) (x : TileInstr) : Option (TileInstr × Nat) := if f lo n = 0 then some (x, 1) else none
    match f 58 6 with
    | 0x00 => zero 0 58 .nop
    | 0x01 => match rest with
      | w1 :: _ => (decodeTile w w1).map fun x => (x, 2)
      | [] => none
    | 0x02 => if f 30 2 = 3 then none
        else zero 0 18 (.out (f 51 7) (f 44 7 + 1) (f 36 8) (f 32 4) (f 30 2) (f 18 12))
    | 0x03 => zero 32 17 (.seta (f 54 4) (f 50 4) (f 49 1 == 1) (BitVec.ofNat 32 (f 0 32)))
    | 0x04 => zero 0 46 (.loop (f 46 12 + 1))
    | 0x05 => zero 0 58 .endl
    | 0x06 => if f 32 4 = 0 then none
        else zero 0 31 (.send (f 51 7) (f 44 7 + 1) (f 36 8) (f 32 4) (f 31 1 == 1))
    | 0x07 => if f 44 14 = 0 then zero 0 36 (.comb (f 36 8)) else none
    | 0x08 => zero 0 50 (.signal (f 54 4) (f 50 4))
    | 0x09 => if f 42 12 = 0 ∨ f 26 16 = 0 then none
        else zero 0 26 (.wait (f 54 4) (f 42 12) (f 26 16))
    | 0x0A => zero 0 38 (.move (f 54 4) (f 50 4) (f 38 12 + 1))
    | 0x0B => zero 0 58 .bound
    | 0x0F => zero 0 58 .tend
    | _ => none

end Machine

end Sys2Proof
end

