-- ==== Sys2Proof/Config.lean ====
section
/-! DEFINITION. What an implementation fixes and what the manual leaves open: constants without a body,
so that no proof can rest on a value of theirs. Log entries 1 and 2.

The cryptographic functions are those of the published standards the manual relies on (the table
"Published standards relied on" of 00_scope.md); the manual does not repeat their definitions, so the
model holds them as functions of their inputs and nothing more. -/

namespace Sys2Proof.Config

/-- SHA-256, SHA-384 and SHA-512 of a message (FIPS 180-4). -/
opaque sha256 : Bytes → BitVec 256
opaque sha384 : Bytes → BitVec 384
opaque sha512 : Bytes → BitVec 512
/-- The compression function of SHA-256 from its initial value, over one 64-byte block (R220). -/
opaque sha256Compress : BitVec 512 → BitVec 256
/-- SHA3-256, SHA3-384, SHA3-512, SHAKE128 and SHAKE256, by the function code of R333 (3 to 7), to the
given number of output bytes (FIPS 202). -/
opaque keccak : Nat → Bytes → Nat → Bytes
/-- The digest engine's cores by the function code of R333: the initial chaining state, the state after one more whole
block, and the first n bytes of the output of a state (R326, R327; FIPS 180-4, FIPS 202). -/
opaque deInit : Nat → Bytes
opaque deBlock : Nat → Bytes → Bytes → Bytes
opaque deOutput : Nat → Bytes → Nat → Bytes
/-- HMAC over the SHA-2 function of the code of R333 (0 to 2), key then message (FIPS 198-1). -/
opaque hmac : Nat → Bytes → Bytes → Bytes
/-- One AES-256 block encryption, key then block (FIPS 197). -/
opaque aes256 : BitVec 256 → BitVec 128 → BitVec 128
/-- Whether an ECDSA P-384 signature (key, message, signature) verifies (FIPS 186-5). -/
opaque ecdsaVerify : Bytes → Bytes → Bytes → Bool
/-- An ECDSA P-384 signature: private key, message (FIPS 186-5). -/
opaque ecdsaSign : Bytes → Bytes → Bytes
/-- Whether a point of P-384 (x then y) lies on the curve and is not all zero. -/
opaque p384OnCurve : Bytes → Bool
/-- The public key of a P-384 private key, and the ECDH shared x-coordinate of a private and a public key. -/
opaque p384Public : Bytes → Bytes
opaque p384Ecdh : Bytes → Bytes → Bytes
/-- Whether an ML-DSA signature verifies, by the level 65 or 87: key, message, signature (FIPS 204). -/
opaque mldsaVerify : Nat → Bytes → Bytes → Bytes → Bool
/-- An ML-DSA signature by level: seed, message, 32 bytes of randomness; and the attempts it took (R338). -/
opaque mldsaSign : Nat → Bytes → Bytes → Bytes → Bytes
opaque mldsaAttempts : Nat → Bytes → Bytes → Bytes → Nat
/-- The ML-DSA public key of a seed, by level. -/
opaque mldsaPublic : Nat → Bytes → Bytes
/-- ML-KEM-1024: encapsulation key of d and z; ciphertext and shared secret of an encapsulation with
randomness; shared secret of a decapsulation (FIPS 203). -/
opaque mlkemPublic : Bytes → Bytes
opaque mlkemCipher : Bytes → Bytes → Bytes
opaque mlkemSecret : Bytes → Bytes → Bytes
opaque mlkemDecaps : Bytes → Bytes → Bytes
/-- An X.509 certificate or request in the form of R358: the public key, what it carries and is signed over, and the signature; the
manual does not lay out the encoding. -/
opaque certBytes : Bytes → Bytes → Bytes → Bytes
/-- The public key of the last certificate of a chain (R359). -/
opaque chainLeaf : Bytes → Bytes
/-- The SPDM response body of a request, where the message layout is the DMTF standard's: the request
code, the request and the block's measured content. -/
opaque spdmBody : Nat → Bytes → Bytes → Bytes
/-- The SPDM transcript of a connection through a message: its code, and what the transcript before it and the message hold; the
layout of the earlier messages is the DMTF standard's. -/
opaque spdmTranscript : Nat → Bytes → Bytes
/-- Where the checkpoints of a session that a block took over from its partner are written, by session and ckpt_no: the manual gives
the standby no ring (R439, R487). -/
opaque takenRing : Nat → Nat → BitVec 64
/-- What the I3C target answers to a common command, by its code: the MIPI standard and the chip fix it. -/
opaque i3cBody : Nat → Bytes → Bytes
/-- The PLDM and MCTP response body of a request, where the message layout is the DMTF standard's. -/
opaque pldmBody : Nat → Bytes → Bytes → Bytes
/-- The fixed permutation of R316 over 256 bits, as exchanges of two bits in turn, and the constant that is XORed; the netlist fixes
them. -/
opaque scrambleSwaps : List (Fin 256 × Fin 256)
opaque scrambleXor : BitVec 256
/-- TEST_ROOT of R314: a constant of the key manager's netlist. -/
opaque testRoot : BitVec 256
/-- The digest in the netlist that the RAW_UNLOCK value is checked against (R301). -/
opaque rawUnlockDigest : BitVec 384
/-- The offset in FCLK of a job's n-th yield point from its start, by operation and word count: the manual gives those of ECDSA_SIGN
alone (R339). -/
opaque yieldOffset : Nat → Nat → Nat → Nat
/-- The value a byte or word takes where the manual leaves it undefined: the n-th such value. -/
opaque freeValue : Nat → BitVec 64
/-- The next value of the register that positions are drawn from with an empty reserve: its taps are not given (R177). -/
opaque lfsrNext : BitVec 64 → BitVec 64
/-- What a LUT activation gives where the index comes out below 0 (R71, R76): lo, hi, the reciprocal width, the
coefficients and z. -/
opaque lutBelow : BitVec 32 → BitVec 32 → BitVec 32 → List (BitVec 32) → BitVec 32 → BitVec 32
/-- What an accumulator entry of one kind, integer or FP32, reads as where the other kind is added to it (R83, R76). -/
opaque otherKind : BitVec 64 → BitVec 64
/-- The stall cycles that a session has met, by session, VI_PERF register and tick (R110, R488): the model keeps no ACLK. -/
opaque stallCount : Nat → Nat → Nat → BitVec 64
/-- Version word of the boot ROM (R265). -/
opaque romVersion : BitVec 64
/-- Major version of the pair protocol (R430). -/
opaque pairVersionMajor : Nat
/-- The transcript that the pair key is salted with (R366), and the key of the collective digests of a pair key (R438). -/
opaque pairTranscript : Bytes → Bytes → Bytes
opaque pairCollective : BitVec 256 → BitVec 128
/-- Whether a certificate verifies under a DeviceID key, by the level 0 for ECDSA and 65 for ML-DSA: key, certificate; and the
public key that it certifies. -/
opaque certVerify : Nat → Bytes → Bytes → Bool
opaque certKey : Bytes → Bytes

end Sys2Proof.Config
end

