-- ==== Sys2Proof/Machine/Formats.lean ====
section
/-! DEFINITION. The number formats, the inner sums of the array, FP32 arithmetic and the output stage
(R50 to R75). A floating-point value is held exactly, as a signed integer times a power of two. -/

namespace Sys2Proof.Machine

/-- An exact floating-point value: NaN, a signed infinity, or ± m × 2^e with the sign of a zero kept. -/
inductive FVal where
  | nan
  | inf (neg : Bool)
  | fin (neg : Bool) (m : Nat) (e : Int)
deriving DecidableEq, Repr

/-- A floating-point format (R54): mantissa bits, exponent bits, bias, the code of the largest finite value,
whether it has infinities and NaNs, and its canonical NaN (R55). -/
structure FFmt where
  mant : Nat
  expo : Nat
  bias : Nat
  maxCode : Nat
  hasInf : Bool
  hasNan : Bool
  nanCode : Nat
deriving DecidableEq, Repr

def fE4M3 : FFmt := { mant := 3, expo := 4, bias := 7, maxCode := 0x7E, hasInf := false, hasNan := true, nanCode := 0x7F }
def fE5M2 : FFmt := { mant := 2, expo := 5, bias := 15, maxCode := 0x7B, hasInf := true, hasNan := true, nanCode := 0x7E }
def fE2M1 : FFmt := { mant := 1, expo := 2, bias := 1, maxCode := 0x7, hasInf := false, hasNan := false, nanCode := 0 }
def fBF16 : FFmt := { mant := 7, expo := 8, bias := 127, maxCode := 0x7F7F, hasInf := true, hasNan := true, nanCode := 0x7FC0 }
def fFP16 : FFmt := { mant := 10, expo := 5, bias := 15, maxCode := 0x7BFF, hasInf := true, hasNan := true, nanCode := 0x7E00 }
def fFP32 : FFmt := { mant := 23, expo := 8, bias := 127, maxCode := 0x7F7FFFFF, hasInf := true, hasNan := true, nanCode := 0x7FC00000 }

/-- The exponent of the least subnormal. -/
def FFmt.emin (f : FFmt) : Int := 1 - (f.bias : Int) - f.mant

/-- The width of a format in bits. -/
def FFmt.width (f : FFmt) : Nat := 1 + f.expo + f.mant

/-- The value of a code (R54). -/
def FFmt.decode (f : FFmt) (v : Nat) : FVal :=
  let neg := Bits.bit v (f.expo + f.mant)
  let e := Bits.get v f.mant f.expo
  let m := Bits.get v 0 f.mant
  if f.hasInf && e = 2 ^ f.expo - 1 then (if m = 0 then .inf neg else .nan)
  else if f.hasNan && !f.hasInf && e = 2 ^ f.expo - 1 && m = 2 ^ f.mant - 1 then .nan
  else if e = 0 then .fin neg m f.emin
  else .fin neg (2 ^ f.mant + m) (f.emin + e - 1)

/-- The rounding modes of R68, by their code. -/
inductive Round where
  | rne | rtz | rhaz | rdn
deriving DecidableEq, Repr

def Round.ofCode (c : Nat) : Round := if c = 0 then .rne else if c = 1 then .rtz else if c = 2 then .rhaz else .rdn

/-- m / 2^sh rounded to an integer, for a magnitude with a sign (R68). -/
def roundShift (r : Round) (neg : Bool) (m sh : Nat) : Nat :=
  let q := m / 2 ^ sh
  let rem := m % 2 ^ sh
  if rem = 0 then q
  else
    let half := 2 ^ sh
    match r with
    | .rtz => q
    | .rdn => if neg then q + 1 else q
    | .rne => if 2 * rem < half then q else if half < 2 * rem then q + 1 else q + q % 2
    | .rhaz => if 2 * rem < half then q else q + 1

/-- An integer quotient by a power of two, rounded (R69). -/
def roundInt (r : Round) (v : Int) (sh : Nat) : Int :=
  if v < 0 then -(roundShift r true v.natAbs sh : Int) else (roundShift r false v.natAbs sh : Int)

/-- What becomes of an overflow, of an infinity and of NaN (R73): mode 1 saturates, mode 0 does not. -/
structure Conv where
  code : Nat
  sat : Bool := false
deriving DecidableEq, Repr

/-- Convert an exact value to a floating-point format with a rounding mode and a saturation mode (R73). E2M1,
which has no NaN, writes a NaN as zero (the scale byte carries it, R74). R73's table does not list E2M1: the model's
choice is that its infinities become ±6 and count as saturated (DESIGN CHOICE, log entry 91). -/
def FFmt.convert (f : FFmt) (r : Round) (satMode : Bool) (v : FVal) : Conv :=
  let sign (neg : Bool) : Nat := if neg then 2 ^ (f.width - 1) else 0
  match v with
  | .nan => { code := f.nanCode }
  | .inf neg =>
    if f.hasInf then { code := sign neg + f.maxCode + 1 }
    else if satMode || !f.hasNan then { code := sign neg + f.maxCode, sat := true }
    else { code := f.nanCode }
  | .fin neg m e =>
    if m = 0 then { code := sign neg }
    else
      let top : Int := (Nat.log2 m : Int) + e
      let q : Int := max (top - f.mant) f.emin
      let n := if q ≤ e then m * 2 ^ (e - q).toNat else roundShift r neg m (q - e).toNat
      let code := (q - f.emin).toNat * 2 ^ f.mant + n
      if code ≤ f.maxCode then { code := sign neg + code }
      else
        let inward := r == .rtz || (r == .rdn && !neg)
        if inward || satMode || !f.hasNan then { code := sign neg + f.maxCode, sat := true }
        else if f.hasInf then { code := sign neg + f.maxCode + 1, sat := true }
        else { code := f.nanCode }

/-- FP32 words. -/
abbrev F32 := BitVec 32

def F32.val (x : F32) : FVal := fFP32.decode x.toNat
/-- The nearest FP32, ties to even, with gradual underflow and overflow to an infinity; NaN is canonical. -/
def F32.round (v : FVal) : F32 := BitVec.ofNat 32 (fFP32.convert .rne false v).code

/-- An exact integer times a power of two as a value; zero is +0 (R60). -/
def FVal.ofInt (v : Int) (e : Int) : FVal := .fin (decide (v < 0)) v.natAbs e

/-- The signed integer of a finite value in units of 2^e, where e does not exceed the value's exponent. -/
def scaledInt (neg : Bool) (m : Nat) (x e : Int) : Int :=
  let n : Int := (m * 2 ^ (x - e).toNat : Nat)
  if neg then -n else n

/-- The exact sum of two values, by the rules of IEEE 754 under round to nearest even (R64). -/
def FVal.add : FVal → FVal → FVal
  | .nan, _ => .nan
  | _, .nan => .nan
  | .inf a, .inf b => if a = b then .inf a else .nan
  | .inf a, .fin .. => .inf a
  | .fin .., .inf b => .inf b
  | .fin a m x, .fin b n y =>
    if m = 0 ∧ n = 0 then .fin (a && b) 0 0
    else
      let e := min x y
      FVal.ofInt (scaledInt a m x e + scaledInt b n y e) e

/-- The exact product of two values. -/
def FVal.mul : FVal → FVal → FVal
  | .nan, _ => .nan
  | _, .nan => .nan
  | .inf a, .inf b => .inf (a != b)
  | .inf a, .fin b n _ => if n = 0 then .nan else .inf (a != b)
  | .fin a m _, .inf b => if m = 0 then .nan else .inf (a != b)
  | .fin a m x, .fin b n y => .fin (a != b) (m * n) (x + y)

def FVal.neg : FVal → FVal
  | .nan => .nan
  | .inf a => .inf (!a)
  | .fin a m x => .fin (!a) m x

/-- a < b; false where either is NaN. -/
def FVal.lt : FVal → FVal → Bool
  | .nan, _ => false
  | _, .nan => false
  | .inf a, .inf b => a && !b
  | .inf a, .fin .. => a
  | .fin .., .inf b => !b
  | .fin a m x, .fin b n y => let e := min x y; decide (scaledInt a m x e < scaledInt b n y e)

def F32.add (a b : F32) : F32 := F32.round (a.val.add b.val)
def F32.mul (a b : F32) : F32 := F32.round (a.val.mul b.val)
def F32.sub (a b : F32) : F32 := F32.round (a.val.add b.val.neg)
def F32.nan : F32 := 0x7FC00000
def F32.isNan (a : F32) : Bool := a.val == .nan
def F32.isInf (a : F32) : Bool := match a.val with
  | .inf _ => true
  | _ => false
def F32.max (a b : F32) : F32 := if a.val.lt b.val then b else a
def F32.min (a b : F32) : F32 := if b.val.lt a.val then b else a

/-! The array (R58 to R66). -/

/-- The modes of R58. -/
inductive Mode where
  | int8 | int8x4 | int4 | fp8 | mxfp8 | mxfp4 | mxint8 | bf16 | fp16
deriving DecidableEq, Repr

/-- The mode of an operand pairing, by the format codes of R50; none where R58 has no such pairing. -/
def Mode.ofPair (a w : Nat) : Option Mode :=
  match a, w with
  | 0, 0 => some .int8
  | 0, 1 => some .int8x4
  | 1, 1 => some .int4
  | 2, 2 | 2, 3 | 3, 2 => some .fp8
  | 4, 4 | 4, 5 | 5, 4 => some .mxfp8
  | 6, 6 => some .mxfp4
  | 7, 7 => some .mxint8
  | 8, 8 => some .bf16
  | 9, 9 => some .fp16
  | _, _ => none

def Mode.isInt : Mode → Bool
  | .int8 | .int8x4 | .int4 => true
  | _ => false

def Mode.isMx : Mode → Bool
  | .mxfp8 | .mxfp4 | .mxint8 => true
  | _ => false

/-- The mode reads half a bank row of weights: the 4 KiB modes of R80. -/
def Mode.half : Mode → Bool
  | .int8x4 | .bf16 | .fp16 => true
  | _ => false

/-- Logical columns of the array (R58, R79). -/
def Mode.columns : Mode → Nat
  | .bf16 | .fp16 => 64
  | _ => 128

/-- Blocks of a K-group (R58); 0 where there are no blocks. -/
def Mode.blocks : Mode → Nat
  | .mxfp8 | .mxint8 => 2
  | .mxfp4 => 4
  | _ => 0

/-- Elements of a K-group (R58). -/
def Mode.kgroup : Mode → Nat
  | .int4 | .mxfp4 => 128
  | .bf16 | .fp16 => 32
  | _ => 64

/-- Element i of packed data, by the width of its format (R52). -/
def element (width : Nat) (b : Bytes) (i : Nat) : Nat :=
  if width = 4 then Bits.get (b.getD (i / 2) 0).toNat (4 * (i % 2)) 4
  else Bytes.num b (i * (width / 8)) (width / 8)

/-- The two's-complement value of a field of n bits. -/
def signed (n v : Nat) : Int := if v < 2 ^ (n - 1) then v else (v : Int) - 2 ^ n

/-- The floating-point format of an operand code. -/
def operandFmt (code : Nat) : FFmt :=
  if code = 2 || code = 4 then fE4M3 else if code = 3 || code = 5 then fE5M2 else if code = 6 then fE2M1
  else if code = 8 then fBF16 else if code = 9 then fFP16 else fFP32

/-- The width of an element of a format code (R50). -/
def codeWidth (code : Nat) : Nat :=
  if code = 1 || code = 6 then 4 else if code = 8 || code = 9 || code = 0xB then 16
  else if code = 0xA || code = 0xC || code = 0xE then 32 else if code = 0xD then 64 else 8

/-- The exact value of an operand element; an MXINT8 element carries its 2⁻⁶ (R56). -/
def operandVal (code : Nat) (v : Nat) : FVal :=
  if code = 0 then FVal.ofInt (signed 8 v) 0
  else if code = 1 then FVal.ofInt (signed 4 v) 0
  else if code = 7 then FVal.ofInt (signed 8 v) (-6)
  else (operandFmt code).decode v

/-- Elements lo to lo + n − 1 of packed data. -/
def operands (code : Nat) (b : Bytes) (lo n : Nat) : List FVal :=
  (List.range n).map fun i => operandVal code (element (codeWidth code) b (lo + i))

/-- An integer K-group's exact sum (R58). -/
def intSum (actCode wtCode : Nat) (act wt : Bytes) (n : Nat) : Int :=
  (List.range n).foldl (fun acc i =>
    acc + signed (codeWidth actCode) (element (codeWidth actCode) act i)
        * signed (codeWidth wtCode) (element (codeWidth wtCode) wt i)) 0

/-- The inner accumulator with its flags (R59, R60), in units of 2⁻³². -/
structure Inner where
  sum : Int := 0
  nan : Bool := false
  pos : Bool := false
  neg : Bool := false
deriving DecidableEq, Repr

def Inner.add (a : Inner) (p : FVal) : Inner :=
  match p with
  | .nan => { a with nan := true }
  | .inf true => { a with neg := true }
  | .inf false => { a with pos := true }
  | .fin n m e => { a with sum := a.sum + scaledInt n m e (-32) }

/-- The resolved inner sum (R60). -/
def Inner.resolve (a : Inner) : FVal :=
  if a.nan || (a.pos && a.neg) then .nan else if a.pos then .inf false else if a.neg then .inf true
  else FVal.ofInt a.sum (-32)

/-- The exact inner sum of a K-group or a block (R59). -/
def innerSum (as ws : List FVal) : FVal :=
  ((as.zip ws).foldl (fun acc p => acc.add (p.1.mul p.2)) ({} : Inner)).resolve

/-- Multiply by a power of two, exactly. -/
def FVal.scale : FVal → Int → FVal
  | .fin n m e, k => .fin n m (e + k)
  | v, _ => v

/-- The scaled sum of an MX block (R61). -/
def mxScale (v : FVal) (xa xw : Nat) : FVal :=
  if xa = 0xFF || xw = 0xFF then .nan else v.scale ((xa : Int) + xw - 254)

/-- One level of the pairwise tree (R63). -/
def pairAdd : List F32 → List F32
  | a :: b :: r => F32.add a b :: pairAdd r
  | r => r

/-- The five levels of the tree over 32 products (R63). -/
def treeSum (p : List F32) : F32 := (pairAdd (pairAdd (pairAdd (pairAdd (pairAdd p))))).headD 0

/-- What a column adds at one step: an exact integer, or FP32 values in their order (R61 to R65). -/
inductive Sum where
  | int (v : Int)
  | float (vs : List F32)
deriving DecidableEq, Repr

/-- The sum of a column at one step, from its activation vector, weights, activation scales and weight scales. -/
def columnSum (m : Mode) (actCode wtCode : Nat) (act wt : Bytes) (xa xw : List Nat) : Sum :=
  match m with
  | .int8 | .int8x4 | .int4 => .int (intSum actCode wtCode act wt m.kgroup)
  | .fp8 => .float [F32.round (innerSum (operands actCode act 0 64) (operands wtCode wt 0 64))]
  | .mxfp8 | .mxfp4 | .mxint8 =>
    .float ((List.range m.blocks).map fun h =>
      F32.round (mxScale (innerSum (operands actCode act (32 * h) 32) (operands wtCode wt (32 * h) 32))
        (xa.getD h 0) (xw.getD h 0)))
  | .bf16 | .fp16 =>
    .float [treeSum (((operands actCode act 0 32).zip (operands wtCode wt 0 32)).map fun p =>
      F32.round (p.1.mul p.2))]

/-- An accumulator entry (R83): bit 63 tells an FP32 accumulator in [31:0] from a 48-bit integer in [47:0]
(the manual does not lay the entry out; log entry 11). -/
abbrev AccEntry := BitVec 64

def AccEntry.isFloat (a : AccEntry) : Bool := a.getLsbD 63
def AccEntry.ofInt (v : Int) : AccEntry := (BitVec.ofInt 48 v).setWidth 64
def AccEntry.ofFloat (x : F32) : AccEntry := BitVec.ofNat 64 (2 ^ 63 + x.toNat)
def AccEntry.int (a : AccEntry) : Int := (a.setWidth 48).toInt
def AccEntry.float (a : AccEntry) : F32 := a.setWidth 32

/-- Add a column's sum into an entry (R64). An entry of the other kind reads as a free value that depends on the entry
alone, so that equal runs stay bit-identical (R76; log entry 2). -/
def AccEntry.accumulate (a : AccEntry) (x : Sum) : AccEntry :=
  match x with
  | .int v => AccEntry.ofInt ((if a.isFloat then AccEntry.int (Config.otherKind a) else a.int) + v)
  | .float vs => AccEntry.ofFloat (vs.foldl F32.add (if a.isFloat then a.float else AccEntry.float (Config.otherKind a)))

/-- A silent error of the array flips bits of a column's sum. -/
def Sum.flip (x : Sum) (f : BitVec 64) : Sum :=
  match x with
  | .int v => .int ((BitVec.ofInt 48 v) ^^^ f.setWidth 48).toInt
  | .float (v :: r) => .float ((v ^^^ f.setWidth 32) :: r)
  | .float [] => .float []

/-! The combination of split reductions (R53, R67). -/

/-- An accumulator entry as it travels: ACC48 sign-extended in 64 bits, or FP32. -/
def AccEntry.wire (a : AccEntry) : BitVec 64 :=
  if a.isFloat then a.float.setWidth 64 else BitVec.ofInt 64 a.int

/-- An ACC48 container whose upper bits do not copy bit 47 is poisoned data (R53). -/
def acc48Ok (v : BitVec 64) : Bool := v == BitVec.ofInt 64 (v.setWidth 48).toInt

/-- 128 marks in 16 bytes: bit j of the mask is entry j's. -/
def maskBytes (l : List Bool) : Bytes :=
  (List.range 16).map fun i => BitVec.ofNat 8 ((List.range 8).foldl (fun n j => n + if l.getD (8 * i + j) false then 2 ^ j else 0) 0)
def readMask (b : Bytes) : List Bool := (List.range 128).map fun j => (b.getD (j / 8) 0).getLsbD (j % 8)

/-- A row of a part as it is read, by its bytes: ACC48 containers of 8 bytes, each with the check of its upper bits, or
FP32 words of 4; then the mask of its poisoned entries (log entry 31). Answers the entries, and which of them are poisoned data (R53,
R67, R100). -/
def readPartRow (b : Bytes) : List AccEntry × List Bool :=
  if b.length = 528 then ((List.range 128).map fun i => AccEntry.ofFloat (BitVec.ofNat 32 (Bytes.num b (4 * i) 4)), readMask (b.drop 512))
  else
    let vs : List (BitVec 64) := (List.range 128).map fun i => BitVec.ofNat 64 (Bytes.num b (8 * i) 8)
    (vs.map fun v => AccEntry.ofInt (v.setWidth 48).toInt, (vs.zip (readMask (b.drop 1024))).map fun x => !acc48Ok x.1 || x.2)

/-- total + partial (R67). -/
def AccEntry.combine (a b : AccEntry) : AccEntry :=
  a.accumulate (if b.isFloat then .float [b.float] else .int b.int)

/-! The output stage (R68 to R75). -/

/-- The flags of R75: nan, inf, sat. -/
structure Flags where
  nan : Bool := false
  inf : Bool := false
  sat : Bool := false
deriving DecidableEq, Repr

def Flags.or (a b : Flags) : Flags := { nan := a.nan || b.nan, inf := a.inf || b.inf, sat := a.sat || b.sat }
/-- The flags as bits: nan at 0, inf at 1, sat at 2. -/
def Flags.bits (a : Flags) : BitVec 3 :=
  (if a.nan then 1 else 0) ||| (if a.inf then 2 else 0) ||| (if a.sat then 4 else 0)

/-- Saturation to a signed width (R51, R69). -/
def satInt (n : Nat) (v : Int) : Int := max (-(2 ^ (n - 1))) (min (2 ^ (n - 1) - 1) v)

/-- The format codes that the integer path can write: INT8, INT4, INT32, Q1.15, Q1.31. -/
def isIntOut (fmt : Nat) : Bool := fmt = 0 || fmt = 1 || fmt = 0xE || fmt = 0xB || fmt = 0xC
def isMxOut (fmt : Nat) : Bool := 4 ≤ fmt && fmt ≤ 7

/-- Activation of R69 and R70: 0 IDENTITY, 1 RELU, 2 CLAMP, on integers. -/
def actInt (act : Nat) (lo hi z : Int) : Int :=
  if act = 1 then max z 0 else if act = 2 then min (max z lo) hi else z

/-- RELU and CLAMP on FP32; a NaN input gives NaN (R70). R70 does not say what CLAMP gives for a z that equals a bound of the other
sign of zero, which the model leaves as it is, nor for a NaN bound, which it ignores (DESIGN CHOICE, log entry 104). -/
def actFloat (act : Nat) (lo hi z : F32) : F32 :=
  if z.isNan then F32.nan
  else if act = 1 then (if (F32.val 0).lt z.val then z else 0)
  else if act = 2 then F32.min (F32.max z lo) hi
  else z

/-- The integer path of an accumulator (R69): the code written, and whether step 4 saturated. -/
def intPath (r : Round) (acc bias m : Int) (sh act : Nat) (lo hi zp : Int) (width : Nat) : Int × Bool :=
  let y := satInt 48 (acc + bias)
  let z := satInt 48 (roundInt r (y * m) sh)
  let v := actInt act lo hi z + zp
  (satInt width v, decide (satInt width v ≠ v))

/-- floor of a finite value, as an integer. -/
def FVal.floor : FVal → Option Int
  | .fin n m e => if 0 ≤ e then some (scaledInt n m e 0) else some (scaledInt n m e e / 2 ^ (-e).toNat)
  | _ => none

/-- The segment index of u (R71): min(floor(u), 255), which is 255 for +∞ and below 0 for −∞. A NaN gives the result NaN
whatever the segment; the model reads segment 255 for it (DESIGN CHOICE, log entry 91). -/
def lutIndex : FVal → Int
  | .nan => 255
  | .inf neg => if neg then -1 else 255
  | v => match v.floor with
    | some k => min k 255
    | none => 255

/-- A LUT activation (R71), `cs` the coefficients c0, c1, c2 of the segments in order. An index below 0, which a plan's
reciprocal width can bring about, has a free result, a function of the operands (R76; log entry 2). -/
def lutEval (lo hi wInv : F32) (cs : List F32) (z : F32) : F32 :=
  if z.isNan then F32.nan
  else
    let x := F32.min (F32.max z lo) hi
    let u := F32.mul (F32.sub x lo) wInv
    let i := lutIndex u.val
    let coeff (k : Nat) : F32 := cs.getD k 0
    if i < 0 then Config.lutBelow lo hi wInv cs z
    else
      let f := F32.round (u.val.add (FVal.ofInt i 0).neg)
      let k := i.toNat
      F32.add (coeff (3 * k)) (F32.mul f (F32.add (coeff (3 * k + 1)) (F32.mul f (coeff (3 * k + 2)))))

/-- Conversion of a value to an integer format (R72); the Q formats multiply by a power of two first. R75 has `sat` where
step 4 saturated a value: the model counts an infinity written as a limit as saturated (DESIGN CHOICE, log entry 91). -/
def toIntFmt (r : Round) (fmt : Nat) (v : FVal) : Int × Flags :=
  let width := codeWidth fmt
  let k : Int := if fmt = 0xB then 15 else if fmt = 0xC then 31 else 0
  match v.scale k with
  | .nan => (0, { nan := true })
  | .inf n => (if n then -(2 ^ (width - 1)) else 2 ^ (width - 1) - 1, { inf := true, sat := true })
  | .fin n m e =>
    let q : Int := if 0 ≤ e then scaledInt n m e 0
      else roundInt r (scaledInt n m e e) (-e).toNat
    (satInt width q, { sat := decide (satInt width q ≠ q) })

/-- Conversion of a value to the code of an output format other than MX (R72, R73), with its flags (R75). -/
def convertOut (r : Round) (satMode : Bool) (fmt : Nat) (v : FVal) : Nat × Flags :=
  if isIntOut fmt then
    let (q, f) := toIntFmt r fmt v
    ((q % 2 ^ codeWidth fmt).toNat, f)
  else
    let c := (operandFmt fmt).convert r satMode v
    (c.code, { nan := v == .nan, inf := (match v with | .inf _ => true | _ => false), sat := c.sat })

/-- floor(log₂) of a finite value's magnitude, where it is not zero. -/
def FVal.logTwo : FVal → Option Int
  | .fin _ m e => if m = 0 then none else some ((Nat.log2 m : Int) + e)
  | _ => none

/-- The shared scale of an MX block (R74). A block whose elements are all infinities of one sign has no finite
element and so no A: the model takes x = 0x00 for it, as for A = 0 (DESIGN CHOICE, log entry 91). -/
def mxShared (fmt : Nat) (vs : List FVal) : Nat :=
  if vs.contains .nan || (vs.contains (.inf true) && vs.contains (.inf false)) then 0xFF
  else
    match (vs.filterMap FVal.logTwo).foldl (fun (a : Option Int) x => some (match a with | none => x | some y => max x y)) none with
    | none => 0
    | some l =>
      let emax : Int := if fmt = 4 then 8 else if fmt = 5 then 15 else if fmt = 6 then 2 else 0
      (max 0 (min 254 (l - emax + 127))).toNat

/-- An MX block: its element codes, its scale and its flags (R74, R75). -/
def mxBlock (r : Round) (fmt : Nat) (vs : List FVal) : List Nat × Nat × Flags :=
  let x := mxShared fmt vs
  let inf := vs.any fun v => match v with
    | .inf _ => true
    | _ => false
  if x = 0xFF then (vs.map fun _ => 0, x, { nan := true, inf := inf })
  else
    let one (v : FVal) : Nat × Bool :=
      if fmt = 7 then
        let (q, f) := toIntFmt r 0 (v.scale (133 - (x : Int)))
        ((q % 256).toNat, f.sat)
      else
        let c := (operandFmt fmt).convert r true (v.scale (127 - (x : Int)))
        (c.code, c.sat)
    let cs := vs.map one
    (cs.map (·.1), x, { nan := false, inf := inf, sat := cs.any (·.2) })

/-- Pack element codes into bytes by their width (R52). -/
def packCodes (width : Nat) : List Nat → Bytes
  | [] => []
  | [a] => if width = 4 then [BitVec.ofNat 8 a] else Bytes.ofNat (width / 8) a
  | a :: b :: r =>
    if width = 4 then BitVec.ofNat 8 (a % 16 + 16 * b) :: packCodes width r
    else Bytes.ofNat (width / 8) a ++ packCodes width (b :: r)

end Sys2Proof.Machine
end

