-- ==== Sys2Proof/Machine/Crypto.lean ====
section
/-! DEFINITION. The constructions the manual builds over the published functions: multiplication in GF(2^128),
span signatures and record hashes (R183, R220), receipt keys and tags (R211, R220), AES-256-GCM and its nonces (R212), HKDF and the
derived key pairs (R317), and CRC-32. -/

namespace Sys2Proof.Machine

/-- A 16-byte block of SP 800-38D: byte 0 first, its most significant bit the coefficient of x⁰. -/
abbrev Block := BitVec 128

/-- The block of 16 bytes; missing bytes are zero. -/
def Block.ofBytes (b : Bytes) : Block := BitVec.ofNat 128 (Bytes.bigNat (Bytes.slice b 0 16))

/-- Multiplication in the GF(2^128) field of SP 800-38D, bit by bit from the coefficient of x⁰. -/
def gfMulLoop : Nat → Block → Block → Block → Block
  | 0, _, z, _ => z
  | n + 1, x, z, v =>
    gfMulLoop n (x <<< 1) (if x.msb then z ^^^ v else z)
      (if v.getLsbD 0 then (v >>> 1) ^^^ (0xE1#128 <<< 120) else v >>> 1)

def gfMul (x y : Block) : Block := gfMulLoop 128 x 0 y

/-- S = (S XOR X) × H over the blocks (R183, R220). -/
def polyHash (h : Block) (s : Block) (xs : List Block) : Block := xs.foldl (fun s x => gfMul (s ^^^ x) h) s

/-- The blocks of data padded with zeros to whole 16-byte blocks (R183). -/
def blocksOf (b : Bytes) : List Block := (Bytes.chunks 16 b.length b).map Block.ofBytes

/-- The finished hash: XOR with the number of blocks, most significant byte first (R183, R220). -/
def polyFinish (s : Block) (n : Nat) : Block := s ^^^ BitVec.ofNat 128 n

/-- Q_n of R211. -/
def qBlock (n : Nat) : Block := BitVec.ofNat 128 n

/-- The receipt key and the record hash key of a session data key (R211). -/
def receiptKey (kd : BitVec 256) : Bytes := Bytes.big (Config.aes256 kd (qBlock 1)) ++ Bytes.big (Config.aes256 kd (qBlock 2))
def recordHashKey (kd : BitVec 256) : Block := Config.aes256 kd (qBlock 3)

/-- A record header as the receipt tag and the GCM tag cover it: bytes 32 to 39 and flag bit 10 as zero (R212,
R220). The flags stand in bytes 4 and 5. -/
def maskHeader (h : Bytes) : Bytes :=
  h.take 5 ++ [h.getD 5 0 &&& 0xFB] ++ (h.drop 6).take 26 ++ List.replicate 8 0 ++ h.drop 40

/-- The receipt tag (R220). -/
def receiptTag (kd : BitVec 256) (header plain : Bytes) (rseq session planGen keyxGen : Nat) : Block :=
  let xs := blocksOf (maskHeader header ++ plain)
  let r := polyFinish (polyHash (recordHashKey kd) 0 xs) xs.length
  let b := receiptKey kd ++ Bytes.big r ++ Bytes.ofNat 8 rseq ++ Bytes.ofNat 2 session ++ Bytes.ofNat 2 planGen
    ++ Bytes.ofNat 2 keyxGen ++ [0, 0]
  let d := Config.sha256Compress (BitVec.ofNat 512 (Bytes.bigNat b))
  BitVec.ofNat 128 (d.toNat / 2 ^ 128)

/-- The nonce of R212: dir, zero, origin and counter, the last two most significant byte first. -/
def gcmNonce (dir origin counter : Nat) : BitVec 96 :=
  BitVec.ofNat 96 (dir * 2 ^ 88 + origin % 2 ^ 16 * 2 ^ 64 + counter % 2 ^ 64)

/-- The keystream of SP 800-38D from the counter after the one that masks the tag; applied again it takes itself off. -/
def gcmStream (key : BitVec 256) (nonce : BitVec 96) (b : Bytes) : Bytes :=
  b.mapIdx fun i x => x ^^^ (Bytes.big (Config.aes256 key (nonce ++ BitVec.ofNat 32 (2 + i / 16)))).getD (i % 16) 0

/-- The tag of SP 800-38D over the additional data and the ciphertext, with their lengths in bits. -/
def gcmTag (key : BitVec 256) (nonce : BitVec 96) (aad cipher : Bytes) : Block :=
  polyHash (Config.aes256 key 0) 0
      (blocksOf aad ++ blocksOf cipher ++ [BitVec.ofNat 128 (8 * aad.length * 2 ^ 64 + 8 * cipher.length)])
    ^^^ Config.aes256 key (nonce ++ 1#32)

/-- Seal: ciphertext then tag (R212). -/
def gcmSeal (key : BitVec 256) (nonce : BitVec 96) (aad plain : Bytes) : Bytes × Bytes :=
  let c := gcmStream key nonce plain
  (c, Bytes.big (gcmTag key nonce aad c))

/-- Open: the plaintext where the tag verifies (R212). -/
def gcmUnseal (key : BitVec 256) (nonce : BitVec 96) (aad cipher tag : Bytes) : Option Bytes :=
  if Bytes.big (gcmTag key nonce aad cipher) = tag then some (gcmStream key nonce cipher) else none

@[simp] theorem gcmStream_length (key : BitVec 256) (nonce : BitVec 96) (b : Bytes) : (gcmStream key nonce b).length = b.length := by
  simp [gcmStream]

/-- HKDF with SHA-384: extract, and expand to n bytes (R208, R317). The first argument of the loop bounds it. -/
def hkdfExtract (salt ikm : Bytes) : Bytes := Config.hmac 1 salt ikm
def hkdfLoop (prk info : Bytes) : Nat → Nat → Bytes → Bytes
  | 0, _, _ => []
  | n + 1, i, prev =>
    let t := Config.hmac 1 prk (prev ++ info ++ [BitVec.ofNat 8 i])
    t ++ hkdfLoop prk info n (i + 1) t
def hkdfExpand (prk info : Bytes) (n : Nat) : Bytes := (hkdfLoop prk info (n / 48 + 1) 1 []).take n

/-- The bytes of an ASCII string. -/
def ascii (t : String) : Bytes := t.toList.map fun c => BitVec.ofNat 8 c.toNat

/-- The order of the P-384 group (FIPS 186-5). -/
def p384Order : Nat :=
  0xFFFFFFFFFFFFFFFFFFFFFFFFFFFFFFFFFFFFFFFFFFFFFFFFC7634D81F4372DDF581A0DB248B0A77AECEC196ACCC52973

/-- The key pairs drawn from a PRK or CDI (R317): the private scalar by FIPS 186-5 A.2.1, and the ML-DSA seed. -/
def ecdsaPrivate (p : Bytes) (lc : Nat) : Bytes :=
  let c := Bytes.bigNat (hkdfExpand p (ascii "ecdsa p384" ++ [BitVec.ofNat 8 lc]) 56)
  (Bytes.ofNat 48 (c % (p384Order - 1) + 1)).reverse
def mldsaSeed (p : Bytes) (lc : Nat) : Bytes := hkdfExpand p (ascii "mldsa65" ++ [BitVec.ofNat 8 lc]) 32

/-- The public keys, and the digest of an identity over both (R352). -/
def ecdsaPublicOf (p : Bytes) (lc : Nat) : Bytes := Config.p384Public (ecdsaPrivate p lc)
def mldsaPublicOf (p : Bytes) (lc : Nat) : Bytes := Config.mldsaPublic 65 (mldsaSeed p lc)
def identityDigest (p : Bytes) (lc : Nat) : BitVec 384 := Config.sha384 (ecdsaPublicOf p lc ++ mldsaPublicOf p lc)

/-- The state code that the FleetID keys are drawn with: MANUF, in which the fleet seed is made, so that FleetID survives the move to OWNED
(R317; log entry 113). -/
def fleetLc : Nat := 3

/-- Sign a digest with both keys of a CDI: ECDSA, then ML-DSA-65 (R224, R354). -/
def signBoth (p : Bytes) (lc : Nat) (m rnd : Bytes) : Bytes × Bytes :=
  (Config.ecdsaSign (ecdsaPrivate p lc) m, Config.mldsaSign 65 (mldsaSeed p lc) m rnd)

/-- CRC-32 of IEEE 802.3, one bit and one byte at a time. -/
def crcBit (c : BitVec 32) : BitVec 32 := if c.getLsbD 0 then (c >>> 1) ^^^ 0xEDB88320#32 else c >>> 1
def crcByte (c : BitVec 32) (b : Byte) : BitVec 32 :=
  let x := c ^^^ b.setWidth 32
  crcBit (crcBit (crcBit (crcBit (crcBit (crcBit (crcBit (crcBit x)))))))
def crc32 (b : Bytes) : BitVec 32 := (b.foldl crcByte 0xFFFFFFFF#32) ^^^ 0xFFFFFFFF#32

end Sys2Proof.Machine
end

