-- ==== Sys2Proof/Machine/StateCompute.lean ====
section
/-! DEFINITION. The state of the Arcades, their Local Stores, sequencers and check units, and of the Piazza
with its Ownership Map and scrub engines (chapters 04, 05 and 07). -/

namespace Sys2Proof.Machine

/-- States of an ALS region, coded as in R86. -/
inductive RegionState where
  | empty | loading | measured | broken | retained | scrubbing
deriving DecidableEq, Repr

/-- An ALS region descriptor (R86); `digest` is what its contents measured (R88, R90), `weight` and
`placement` the entries of the committed plan it stands for. -/
structure Region where
  firstRow : Nat := 0
  lastRow : Nat := 0
  session : Nat := 0
  vi : Nat := 0
  world : Nat := 0
  conf : Bool := false
  scratch : Bool := false
  shared : Bool := false
  state : RegionState := .empty
  second : Bool := false
  valid : Bool := false
  model : Nat := 0
  weight : Nat := 0
  digest : BitVec 384 := 0
  /-- the window whose running plan it stands in (R118); none once it is to be freed. -/
  plan : Option Nat := none
deriving DecidableEq, Repr

/-- What a program waits for (R134, R135): a counter of its Arcade, with the WAIT's timeout in units of 1,024 ACLK, or the
parts of a reduction; and the device time at which the instruction issued. -/
inductive Waiting where
  | counter (c value timeout since : Nat)
  | parts (rdesc since : Nat)
deriving DecidableEq, Repr

/-- What a program runs for (R140, R182, R187, R195, R199): a run of a stream's slot, a job's step, or a check,
held only while a span is run a second time. -/
inductive RunRole where
  | slot (cs seq : Nat)
  | shadow (cs seq : Nat)
  | job (j : Nat)
  | check
deriving DecidableEq, Repr

/-- A program on a tile sequencer (R81, R82, R128, R137), with the plan it runs under (R146). `valid` lists the
accumulator rows that are not void; `startAds`, `startPc` and `startLoops` are the context at the present span's
start (R181). `sigAcc` and `sigBlocks` form the signature of every write of the span, `otherAcc` and
`otherBlocks` that of its writes other than to the record (R183, R193); `sigs` are the latter of the spans that
have ended. -/
structure Prog where
  role : RunRole
  win : Nat
  session : Nat
  plan : Plan
  /-- the commit of its plan: the plan's counters and arrival marks are its own (R135, R146). -/
  gen : Nat := 0
  /-- the run count of its slot or of its job's step (R200). -/
  count : Nat := 0
  schedule : Nat
  program : Nat
  pc : Nat := 0
  loops : List (Nat × Nat) := []
  ads : List (BitVec 32) := []
  baseRow : Nat := 0
  valid : List Nat := []
  waiting : Option Waiting := none
  flags : BitVec 3 := 0
  payload : Tab Byte := []
  poisoned : Bool := false
  /-- the span at which the program stands has not been issued. -/
  atBoundary : Bool := true
  startPc : Nat := 0
  startAds : List (BitVec 32) := []
  startLoops : List (Nat × Nat) := []
  sigAcc : BitVec 128 := 0
  sigBlocks : Nat := 0
  otherAcc : BitVec 128 := 0
  otherBlocks : Nat := 0
  sigs : List (BitVec 128) := []
  /-- instance number of the present span, the last one before the plan's commit (R204), and whether it was selected (R177,
  R181). -/
  inst : Nat := 0
  instBase : Nat := 0
  selected : Bool := false
  /-- the program is to end at its next span boundary (R203, R262). -/
  ending : Bool := false
deriving DecidableEq, Repr

/-- A reduction part on its way to a combining Arcade (R134, R438): its rows, which entries of them are poisoned, its digest,
and the Arcade and the work of the program that sent it; none where the partner did. -/
structure InPart where
  gen : Nat := 0
  rdesc : Nat
  part : Nat
  row : Nat
  rows : List (List (BitVec 64))
  digest : BitVec 128
  poison : List (List Bool) := []
  source : Option (Nat × RunRole) := none
deriving DecidableEq, Repr

/-- A queued start (R82): the program of a slot that became due while a control program ran. -/
structure Start where
  prog : Prog
deriving DecidableEq, Repr

/-- Where a check stands (R181, R183, R187). -/
inductive CheckStage where
  | capturing | queued | running | refereeing | repeating
deriving DecidableEq, Repr

/-- A check of a selected span instance (R181 to R187), held at its primary: the context of the span, the
stage, the signatures, and who is to rerun it. `endTime` is the device time at which the primary run ended. -/
structure Check where
  /-- 16 for the partner block (R437). -/
  checker : Nat
  referee : Option Nat := none
  session : Nat
  win : Nat
  plan : Plan
  schedule : Nat
  origin : Nat
  isJob : Bool
  gen : Nat := 0
  pc : Nat
  loops : List (Nat × Nat)
  ads : List (BitVec 32)
  instCount : Nat
  instBase : Nat := 0
  stage : CheckStage := .capturing
  endTime : Option Nat := none
  spansSince : Nat := 0
  primarySig : Option (BitVec 128) := none
  checkerSig : Option (BitVec 128) := none
  refereeSig : Option (BitVec 128) := none
  /-- the outcome that awaits its repeat: the attributed Arcade and the majority's signature (R187). -/
  repeatOf : Option (Nat × BitVec 128) := none
  /-- the session's last released rseq, and the device time, when the mismatch held it (R202, R204). -/
  heldLast : Nat := 0
  detect : Nat := 0
deriving DecidableEq, Repr

/-- Shadow work of an Arcade in PROBATION (R199): a check whose footprint it has captured too, or the slot of a dual-run
stream with the outcome of its own program; and the outcome that the check or the majority established. `icTime` is the slot's
INPUT_CLOSE. -/
structure Shadow where
  check : Option (Nat × Check) := none
  slot : Option (Nat × Nat) := none
  icTime : Nat := 0
  mine : Option Outcome1 := none
  want : Option Outcome1 := none
deriving DecidableEq, Repr

/-- Integrity states of an Arcade, coded as in ARC_INTEG_STATUS (R188, R192). -/
inductive IntegState where
  | inService | suspect | probation | retired | off
deriving DecidableEq, Repr

/-- A zeroise order of a scrub engine (R103): pages of the segment, or rows of the ALS, whether they return
to the free pool (or the region is freed), and whether it is an emergency order. -/
structure ZOrder where
  items : List Nat
  /-- rows of the ALS whose descriptor a commit has freed (R118): first and last. -/
  rows : List (Nat × Nat) := []
  /-- regions that a commit of a window's plan has dropped, as they were: the programs that still run with the plan before use
  them, and the order waits for these programs (R146). -/
  keep : List Region := []
  win : Nat := 64
  toPool : Bool
  emergency : Bool := false
  started : Bool := false
deriving DecidableEq, Repr

/-- A sampling group under way (R175, R177): its size, the position drawn, the eligible spans issued, and the fractions in
force when it began, with the commit of the plan they belong to. -/
structure Group where
  size : Nat := 0
  pos : Nat := 0
  count : Nat := 0
  fractions : List (Nat × Bool × Nat) := []
  gen : Nat := 0
deriving DecidableEq, Repr

/-- An Arcade (R16, R78 to R90, R124, R135, R177, R188 to R192). `als`, `side` are bytes by address;
`alsPoison` and `sidePoison` list the poisoned words; `acc` holds accumulator entries by row × 128 +
column, `accPoison` the poisoned ones; `parts` are the arrival marks of reduction parts. Counters and marks
are those of one commit of a plan each: a program whose slot fired before a commit goes on with its own (R146). -/
structure Arcade where
  als : Tab Byte := []
  side : Tab Byte := []
  alsPoison : Tab Bool := []
  sidePoison : Tab Bool := []
  regions : Tab Region := []
  acc : Tab (BitVec 64) := []
  accPoison : Tab Bool := []
  sy : Tab Nat := []
  parts : Tab Bool := []
  partDigest : Tab (BitVec 128) := []
  inFlight : List InPart := []
  running : Option Prog := none
  /-- bulk programs that are suspended or wait for the Arcade, the next to run first (R82; log entry 13). -/
  bulk : List Prog := []
  queue : List Start := []
  checks : List Check := []
  /-- checks queued on this Arcade as a checker: primary and instance number, oldest first (R178, R179). -/
  checkQueue : List (Nat × Nat) := []
  lastChecker : Nat := 0
  shadowWork : List Shadow := []
  /-- the check that this Arcade is running as a checker: primary and instance number (R179). -/
  checking : Option (Nat × Nat) := none
  /-- by session: the last span that ended here, the last whose check passed, the last selected for a job's
  checkpoint (R201). -/
  spanEnd : Tab Nat := []
  passInst : Tab Nat := []
  forced : Tab Nat := []
  /-- the present sampling group of a session (R177). -/
  groups : Tab Group := []
  /-- the drawn positions in reserve, the next first; the last 64 reserve bits used, then the register that they seed (R177). -/
  reserve : List (BitVec 8) := []
  lfsr : BitVec 64 := 0
  instCount : Nat := 0
  /-- spans issued before the commit of the present plan (R204). -/
  instBase : Nat := 0
  /-- the parameter store: output descriptors and LUTs, the staged plan's beside the running one's (R124, R125, R142). -/
  params : Tab Byte := []
  /-- records formed from spans here since the last whose check passed: the session, the record's last span, its rseq (R202). Of a
  session with no check outstanding here the least rseq is enough. -/
  formed : List (Nat × Nat × Nat) := []
  integ : IntegState := .off
  planeState : IntegState := .off
  boost : Bool := false
  slowed : Bool := false
  transients : BitVec 8 := 0
  trial : Nat := 0
  checksDone : BitVec 16 := 0
  mismatches : Nat := 0
  lastTransient : Option Nat := none
  engine : List ZOrder := []
  patrolRow : Nat := 0
  badRows : List Nat := []
  /-- spare rows in use, by bank. -/
  spares : Tab Nat := []
  spareMarks : List Nat := []
  ceLast : List Nat := []
deriving DecidableEq, Repr

/-- Scrub states of an Ownership Map entry, coded as in R94. -/
inductive Scrub where
  | clean | dirty | scrubbing | retired
deriving DecidableEq, Repr

/-- An Ownership Map entry (R94). The field `scrub` counts from the zeroise of the segment at its self-test: until
then every entry that is not RETIRED reads DIRTY, its reset value. -/
structure OmapEntry where
  session : BitVec 14 := 0
  vi : BitVec 6 := 0
  world : BitVec 2 := 0
  conf : BitVec 2 := 0
  poison : Bool := false
  scrub : Scrub := .clean
  valid : Bool := false
deriving DecidableEq, Repr

/-- States of a segment, coded as in PZ_SEG_STATUS (R109). -/
inductive SegState where
  | off | test | inService | retired
deriving DecidableEq, Repr

/-- A Piazza segment's status, scrub engine and patrol (R103 to R109). `ceLast` are the lines that gave a
corrected error in the last patrol pass, `uePass` those that gave an uncorrectable one in the present pass. -/
structure Segment where
  state : SegState := .off
  /-- the whole-unit zeroise that follows the self-test has ended (R106). -/
  zeroised : Bool := false
  /-- spare rows in use, by bank. -/
  spares : Tab Nat := []
  retired : Nat := 0
  ce : BitVec 16 := 0
  ue : Nat := 0
  engine : List ZOrder := []
  patrolPage : Nat := 0
  spareMarks : List Nat := []
  ceLast : List Nat := []
  uePass : List Nat := []
deriving DecidableEq, Repr

/-- The Piazza: data bytes by the 26-bit address of R91, poisoned 64-bit words by address div 8, the
Ownership Map by global page number, the segments, and PZ_OMAP_SEL (R491). -/
structure Piazza where
  mem : Tab Byte := []
  poison : Tab Bool := []
  omap : Tab OmapEntry := []
  segs : Tab Segment := []
  omapSel : BitVec 7 := 0
deriving DecidableEq, Repr

end Sys2Proof.Machine
end

