-- ==== Sys2Proof/Machine/StatePtu.lean ====
section
/-! DEFINITION. The state of the Phase Timebase Unit: phase sources, device time, the event table and the
firings of the present tick (R18 to R49). A structure's defaults are its reset values. -/

namespace Sys2Proof.Machine

/-- States of a phase source, coded as in PTU_PS_STATUS (R24, R30). -/
inductive SrcState where
  | off | acquiring | tracking | degraded | stopped | coasting | lost
deriving DecidableEq, Repr

/-- One phase source (R19, R24, R25, R26, R30, R34). `cfg`, `gain` and `lim` are the committed values of
PTU_PS_CFG, PTU_PS_GAIN and PTU_PS_LIM. `theta` and `tau` are 32.32.32; `omega` has 32 fraction bits and
`alpha` 56. Ticks count from reset. -/
structure Source where
  cfg : Word := 0x8000_0023_04E2_6440
  gain : Word := 0xDBE7_1EBC_BECE_E000
  lim : Word := 0x0000_0003_0100_0000
  theta : BitVec 96 := 0
  omega : BitVec 64 := 0
  alpha : BitVec 64 := 0
  tau : BitVec 96 := 0
  state : SrcState := .off
  /-- |residual| of the last 8 accepted samples in 2⁻⁵⁶ pc, latest first; a sample that sets the phase has none (R24, R26, R34). -/
  residuals : List (Option Nat) := []
  samples : BitVec 32 := 0
  /-- idx of the last sample taken: recorded, and not acted on (R21). -/
  index : Bool := false
  /-- consecutive good samples (R30). -/
  good : Nat := 0
  /-- accepted samples since ACQUIRING was entered, 0 to 2; 2 means that filtering has begun (R26). -/
  acquired : Nat := 0
  /-- sample tick and unwrapped position (in 2⁻³² pc) of the first accepted sample (R26). -/
  firstTick : Int := 0
  firstPos : Int := 0
  /-- tick of the last accepted sample's arrival, for R22 and the timeouts of R30; an outlier is none (R34). -/
  lastAccepted : Option Nat := none
  enteredTick : Nat := 0
  /-- the run of consecutive agreeing outliers: its length, the last one's tick and position (R34). -/
  outRun : Nat := 0
  outTick : Int := 0
  outPos : Int := 0
  /-- phase of the last accepted sample, and the travel there (R31, R33). -/
  lastPhase : BitVec 64 := 0
  lastTravel : BitVec 64 := 0
  /-- device time at which the source last left DEGRADED or TRACKING (R49). -/
  leftAt : Nat := 0
deriving DecidableEq, Repr

/-- Kinds of event entry, in the firing order of R45, coded as in R41. -/
inductive EvKind where
  | commit | inputClose | slotStart | release | checkWindow | notify
deriving DecidableEq, Repr

/-- An entry of the event table (R41). `armed` holds the device-time instants that stand armed for single
slots of a stream, each with the seq of its slot, oldest first: those of a rel entry (R41, R156), and those of
the timed slots of R49; `owner` is the window whose plan or
command made the entry. -/
structure Event where
  instant : BitVec 64 := 0
  nMinus1 : BitVec 16 := 0
  k : BitVec 16 := 0
  target : BitVec 12 := 0
  source : BitVec 4 := 0
  device : Bool := false
  kind : EvKind := .commit
  rel : Bool := false
  periodic : Bool := false
  late : Bool := false
  valid : Bool := false
  armed : List (BitVec 64 × Nat) := []
  owner : Nat := 0
  /-- INPUT_CLOSE: the instant of the last timed firing of the present standstill (R49). -/
  lastTimed : Option Nat := none
  /-- the instant was reached when the entry was armed, or while it could not fire, so that its firing is
  flagged late (R32, R40). -/
  heldLate : Bool := false
deriving DecidableEq, Repr

/-- A firing: the entry, its kind, its flags, the slot a rel entry's instant belongs to, and the instant's
slot flags for a timed slot (R31, R34, R40, R46, R49). -/
structure Firing where
  idx : Nat
  kind : EvKind
  late : Bool := false
  jump : Bool := false
  timed : Bool := false
  slot : Nat := 0
  /-- the state of the source at the firing tick, for a phase calendar's stream (R31, R49). -/
  state : Option SrcState := none
  /-- the tick in which the firing first became due (R46). -/
  due : Nat := 0
  /-- a timed INPUT_CLOSE: the instant of the timed firing before it (R45, R49). -/
  lastTimed : Option Nat := none
deriving DecidableEq, Repr

/-- States of device time (R36). -/
inductive DtState where
  | free | locked | holdover
deriving DecidableEq, Repr

structure Ptu where
  tick : Nat := 0
  /-- device time in ns with 32 fraction bits (R36). -/
  dt : BitVec 96 := 0
  /-- the step of device time in ns with 32 fraction bits, 2.5 ns at reset. -/
  step : BitVec 64 := 0x2_8000_0000
  dtState : DtState := .free
  inputValid : Bool := false
  everValid : Bool := false
  /-- device time has been LOCKED since reset (R37). -/
  everLocked : Bool := false
  /-- consecutive comparisons within 10 ns (R36). -/
  close : Nat := 0
  offset : BitVec 32 := 0
  /-- tick of the last strobe (R462). -/
  strobeTick : Nat := 0
  /-- a device-time entry has been armed since reset (R37). -/
  dtArmed : Bool := false
  sources : Tab Source := []
  events : Tab Event := []
  /-- firings due and not yet fired: first those of this tick (at most 64), then the deferred (R46). -/
  firing : List Firing := []
  deferred : List Firing := []
  /-- firings of this tick that have been taken, of the 64 of R46. -/
  fired : Nat := 0
  /-- RELEASE firings since reset: their order (R45, R158). -/
  releases : Nat := 0
  late : BitVec 32 := 0
  /-- this tick passed a multiple of 4,096 ns, 1,000 ns, 1,000,000 ns and its row has not yet acted (R38). -/
  atEpoch : Bool := false
  atDispatch : Bool := false
  atStep : Bool := false
  /-- this tick is a dispatch tick: it passed a multiple of 1,000 ns (R234), whether or not its row has acted. -/
  dispatch : Bool := false
deriving DecidableEq, Repr

end Sys2Proof.Machine
end

