-- ==== Sys2Proof/Machine/StateHost.lean ====
section
/-! DEFINITION. The state of the host side: windows and command slots, leases, staging banks, plans,
sessions, receipts, streams, jobs, ports (chapters 05, 06, 08, 09 and 18). -/

namespace Sys2Proof.Machine

/-- States of a command slot, coded as in VI_CMD_STATUS (R235, R237). -/
inductive SlotState where
  | idle | posted | closed | running
deriving DecidableEq, Repr

/-- An accepted command: its opcode value of R249, its packet fields in G2 form (R239, R240), its
parameters, and the epoch, the device time and the phases of its acceptance. -/
structure Cmd where
  opcode : Nat
  tag : BitVec 16
  session : Nat
  inl : Bytes
  params : Bytes
  g1 : Bool
  epoch : Nat
  time : Nat
  /-- the measure of each phase source at the tick of acceptance, for a relative descriptor (R39, R40). -/
  phases : List (BitVec 64) := []
deriving DecidableEq, Repr

/-- The content of a reply entry (R242). -/
structure Reply where
  status : Nat
  detail : Nat := 0
  epoch : Nat := 0
  value : Nat := 0
  index : Nat := 0
deriving DecidableEq, Repr

/-- What a running Forecourt command has changed that ending it takes back (R263): the regions that it loaded; a job's checkpoint
before it, with the records written since; or the component that it staged in a slot, and the boot record's flags before. -/
inductive Undo where
  | nothing
  | regions (ks : List (Nat × Nat))
  | ckpt (job : Nat) (old : Option (List (Nat × Bytes × Bool) × Nat × Nat)) (since kept : Nat)
  | staged (component : Nat) (slot : Bool) (active trial : Bool) (tries : Nat)
deriving DecidableEq, Repr

/-- A window's command slot (R235 to R238, R242). `closed` is the state SEALED. `behind` is the ABORT posted
(false) or sealed (true) behind the running command. `result` is the reply that awaits its writing. -/
structure CmdSlot where
  pkt : Bytes := List.replicate 64 0
  state : SlotState := .idle
  params : Bytes := []
  /-- bytes appended since the last acceptance or flush, counted past the 512 that are kept (R238). -/
  appended : Nat := 0
  behind : Option Bool := none
  behindPkt : Bytes := []
  postRefused : Bool := false
  lateWrite : Bool := false
  postRefusedCnt : BitVec 8 := 0
  lateWriteCnt : BitVec 8 := 0
  replyHead : BitVec 4 := 0
  replyCount : BitVec 16 := 0
  replies : Tab Bytes := []
  running : Option Cmd := none
  abortCmd : Option Cmd := none
  result : Option Reply := none
  /-- the running Forecourt command has begun, so its effects are to be undone if it is ended (R263). -/
  begun : Bool := false
  undo : Undo := .nothing
deriving DecidableEq, Repr

/-- A VI window or the operator window (R233, R247, R261, R395, R486, R487). -/
structure Window where
  slot : CmdSlot := {}
  isOpen : Bool := false
  gen : Nat := 0
  msgMajor : Nat := 0
  msgMinor : Nat := 0
  vector : BitVec 16 := 0
  driver : Word := 0
  lastStatus : Nat := 0
  lastDetail : Nat := 0
  lastEpoch : Nat := 0
  errRecord : Bool := false
  errSession : Bool := false
  errDegraded : Bool := false
  errRecordCnt : BitVec 8 := 0
  errSessionCnt : BitVec 8 := 0
  errDegradedCnt : BitVec 8 := 0
  lastRec : BitVec 32 := 0
  /-- a flag of VI_ERR_STATUS was set since the last dispatch tick (R395). -/
  errNotice : Bool := false
  sessSel : BitVec 14 := 0
  freeBad : Bool := false
  freeBadCnt : BitVec 8 := 0
deriving DecidableEq, Repr

/-- Leasable resources: the layout of VI_LEASE_RES, and the mask of streams (R254). -/
structure Res where
  bits : BitVec 64 := 0
  cs : BitVec 256 := 0
deriving DecidableEq, Repr

/-- A lease or grant: `last` none means until dropped (R255). -/
structure Lease where
  win : Nat
  res : Res
  first : Nat
  last : Option Nat
deriving DecidableEq, Repr

/-- A LEASE_TAKE held until its arbitration (R255). -/
structure HeldTake where
  win : Nat
  res : Res
  first : Nat
  last : Option Nat
deriving DecidableEq, Repr

/-- A request for evidence whose claims are taken at its claim tick (R355): the window, the session or none for a BLOCK token, the
audience, the nonce, the dispatch tick in which the Forecourt began it, and, once they are taken, the token up to its claims digest;
`left` says that the session had left OPEN and KEYED by then. -/
structure ClaimReq where
  win : Nat
  sess : Option Nat
  audience : Nat
  nonce : Bytes
  begun : Nat
  token : Option Bytes := none
  left : Bool := false
deriving DecidableEq, Repr

/-- The Roundabout: leases, held requests, drops by epoch, the queue of accepted Forecourt commands in
acceptance order (R250), the slot its next scan begins after (R234), the requests for evidence in progress (R355). -/
structure Roundabout where
  leases : List Lease := []
  held : List HeldTake := []
  drops : List (Nat × Nat × Res) := []
  fcQueue : List Nat := []
  scanAfter : Nat := 64
  claims : List ClaimReq := []
deriving DecidableEq, Repr

/-- A stream binding item of STREAM_BIND (R249, R499). -/
structure BindItem where
  cs : Nat
  session : Nat
  lsess : Nat
  slot : Nat
  fallback : Nat
  si : Nat
  se : Nat
  unbind : Bool
deriving DecidableEq, Repr

/-- An item of a staging bank (R259). -/
inductive BankItem where
  | write (offset : Nat) (value : Word)
  | plan (p : Plan)
  | bind (b : BindItem)
  | integ (target : Nat) (isModel : Bool) (fraction : Nat)
deriving DecidableEq, Repr

/-- A staging bank: its items in staging order, and the COMMIT entry that is armed for it (R259, R260). -/
structure Bank where
  items : List BankItem := []
  armed : Option Nat := none
  /-- device time of the armed instant where it is known, for the epoch an ST_BUSY reply names. -/
  armedEpoch : Nat := 0
deriving DecidableEq, Repr

/-- What a committed plan of a window stands on: the plan, the ALS descriptor each PLACEMENT entry became,
the sessions its logical sessions are bound to (R251), the event entries made for it, the commit time. -/
structure ViPlan where
  running : Option Plan := none
  regions : List (Nat × Nat) := []
  lsess : Tab Nat := []
  events : List Nat := []
  committedAt : Nat := 0
  /-- pages and regions assigned at the commit whose logical session was not bound then: logical session and page, or
  logical session, Arcade and descriptor (R96, R118, R251). -/
  waitPages : List (Nat × Nat) := []
  waitRegions : List (Nat × Nat × Nat) := []
  /-- committed fractions that INTEGRITY_SET gave: target, model?, fraction (R175, R249). -/
  fractions : List (Nat × Bool × Nat) := []
  /-- Arcades of a Quarter that failed since the plan was committed: streams stay off them until the next commit (R377). -/
  lostArcs : BitVec 16 := 0
deriving DecidableEq, Repr

/-- States of a session, coded as in R205. -/
inductive SessState where
  | free | opened | keyed | closing | faulted
deriving DecidableEq, Repr

/-- The pair role of a session (R421, R422). -/
inductive PairRole where
  | unpaired | home | standby
deriving DecidableEq, Repr

/-- A key exchange in progress (R207, R208): the requester's shares, the block's secrets, which stay in the PKE, and the SPDM
transcript so far. -/
structure KeyxWork where
  ecdhPub : Bytes
  mlkemEk : Bytes
  ephemeral : Bytes
  kemRandom : Bytes
  transcript : Bytes
  /-- KEY has gone to the standby, which has acknowledged it once it has acknowledged this flit (R434). -/
  keySent : Bool := false
  keySeq : Option (BitVec 16) := none
deriving DecidableEq, Repr

/-- A session context (R205), with its checkpoint ring (R206, R487), its open range's void ranges and
plan entries (R222, R224), its fault handling (R370), counters (R488) and pair role (R421). -/
structure Session where
  state : SessState := .free
  conf : Bool := false
  vi : Nat := 0
  operator : Bool := false
  keyxGen : BitVec 16 := 0
  /-- key generation of the open range (R210, R224). -/
  rangeKeyx : BitVec 16 := 0
  planGen : BitVec 16 := 0
  rseqNext : BitVec 64 := 0
  inHw : BitVec 64 := 0
  chunkHw : BitVec 64 := 0
  cutLast : BitVec 64 := 0
  releasedOpen : BitVec 32 := 0
  voidedOpen : BitVec 32 := 0
  acc : BitVec 128 := 0
  voids : List (Nat × Nat) := []
  openPlans : List (Nat × BitVec 384) := []
  ringBase : Nat := 0
  ringEntries : Nat := 0
  ringVector : BitVec 16 := 0
  written : BitVec 32 := 0
  freed : BitVec 32 := 0
  ckptNo : Nat := 0
  jobCkptNo : Nat := 0
  /-- device time in ns before which a checkpoint write that met an error is not retried (R454). -/
  ckptRetryAt : Nat := 0
  /-- a first checkpoint after a Forecourt restart carries the restart flag (R222). -/
  restartFlag : Bool := false
  keyx : Option KeyxWork := none
  /-- a key that the home of a pair session sent, and the epoch from whose boundary on it is planted (R428, R434). -/
  plantKey : Option (BitVec 256) := none
  plantFrom : Nat := 0
  /-- the previous keys, oldest first, each kept until every rseq reserved under it is settled, with the first rseq that was no longer
  reserved under it; and the epoch of the boundary that planted the present one (R210). -/
  oldKeys : List (BitVec 256 × Nat) := []
  plantEpoch : Nat := 0
  /-- device time of a SESSION_FAULT whose abort is still to come (R370). -/
  faultAt : Option Nat := none
  /-- the cut a CLOSING session awaits has been taken. -/
  closeCut : Bool := false
  perf : Tab Nat := []
  intErrors : Nat := 0
  pair : PairRole := .unpaired
  rseqReservedMax : Nat := 0
  rseqFoldedMax : Nat := 0
  /-- the last record released (R202). -/
  lastReleased : Nat := 0
  /-- step 5 of a join could not synchronise it: it stays unpaired for its life (R430). -/
  alone : Bool := false
deriving DecidableEq, Repr

/-- Kinds of checkpoint cut, coded as in R222. -/
inductive CutKind where
  | command | auto | plans | rekey | close | abort | failover
deriving DecidableEq, Repr

/-- A cut record of the SCL's queue (R222, R224), with its nonce and the window whose RECEIPT_CHECKPOINT
waits for it. -/
structure Cut where
  session : Nat
  kind : CutKind
  keyxGen : BitVec 16
  prevCut : BitVec 64
  cut : BitVec 64
  rseqHigh : BitVec 64
  released : BitVec 32
  voided : BitVec 32
  acc : BitVec 128
  nonce : BitVec 256 := 0
  voids : List (Nat × Nat)
  plans : List (Nat × BitVec 384)
  flags : BitVec 8
  evidence : BitVec 384
  waiter : Option Nat := none
deriving DecidableEq, Repr

/-- Input classes of a window, coded as in R160. -/
inductive InClass where
  | good | none | short | long | authFail | malformed
deriving DecidableEq, Repr

/-- A good frame: its counter, user_tag and plaintext (R148, R152). -/
structure GoodFrame where
  plaintext : Bytes
  /-- what the other GCM lane decrypted (R193). -/
  second : Bytes
  userTag : Bytes
deriving DecidableEq, Repr

/-- A stream's sample window (R151, R152, R160). -/
structure SampleWin where
  frame : Option GoodFrame := none
  /-- class of the first SHORT or LONG frame. -/
  failed : Option InClass := none
  sawAuth : Bool := false
  sawMalformed : Bool := false
deriving DecidableEq, Repr

/-- The outcome of one program of a slot or of a job's step (R193): the Arcade, which run it belongs to (0 the
primary's, 1 the second residency's, 2 the referee's), the record bytes, the flags of R75 (nan, inf, sat) and the
signatures of the other writes of its spans. -/
structure RunOut where
  arcade : Nat
  group : Nat
  payload : Tab Byte
  flags : BitVec 3
  sigs : List (BitVec 128)
  /-- the instance number of its last span (R202). -/
  inst : Nat := 0
deriving DecidableEq, Repr

/-- Where a dual-run slot stands (R193, R195). -/
inductive DualState where
  | single | waiting | equal | referee | majority (a : Nat) | mismatch
deriving DecidableEq, Repr

/-- A formed record: header, payload as released, receipt tag, GCM tag (empty if not encrypted), plaintext
payload, its status and whether it is ready (R160, R217). `since` is the device time from which a lane has held it (R374). -/
structure Record where
  header : Bytes
  payload : Bytes
  tag : BitVec 128
  gcm : Bytes
  plain : Bytes
  status : Nat
  ready : Bool := false
  since : Nat := 0
deriving DecidableEq, Repr

/-- A slot from its INPUT_CLOSE until its record has left (R154, R156, R160, R161). -/
structure SlotRun where
  seq : Nat
  rseq : Nat
  icTime : Word
  icPhase : Word
  flags : BitVec 16
  input : InClass
  userTag : Bytes
  /-- what the plan in force gives the slot's record, at its INPUT_CLOSE and again at its SLOT_START: the generation,
  payload_bytes, the format, and byte 6 of the header (R123, R146, R160, R220). -/
  planGen : BitVec 16 := 0
  len : Nat := 16
  fmt : Nat := 0
  source : Nat := 0
  keyxGen : BitVec 16 := 0
  missing : Bool := false
  /-- its SLOT_START has fired, and its programs have started. -/
  fired : Bool := false
  started : Bool := false
  overrun : Bool := false
  late : Bool := false
  fault : Bool := false
  /-- Arcades the slot's programs run on, each with its run: 0 the primary's, 1 the other run's, 2 the third's. -/
  runners : List (Nat × Nat) := []
  timed : Bool := false
  runs : List RunOut := []
  dual : DualState := .single
  /-- device time at which its runs were found to differ (R204). -/
  detect : Nat := 0
  computed : Option Record := none
  mismatch : Option Record := none
  fallback : Option Record := none
  /-- RELEASE has fired: the tick from which the record may leave, and the decided kind. -/
  released : Option (Nat × RecordKind) := none
  /-- the number of its RELEASE firing (R45, R158). -/
  order : Nat := 0
  /-- the home has folded or voided its rseq: the standby that takes over does not again (R219, R433). -/
  folded : Bool := false
  /-- the record did not leave at its release instant (R156, R158). -/
  held : Bool := false
  /-- the record has left; the slot stays until its comparison is settled or the next slot starts (R195). -/
  left : Bool := false
deriving DecidableEq, Repr

/-- A control stream's binding and run-time state (R149 to R168, R499). -/
structure Stream where
  bound : Bool := false
  win : Nat := 0
  session : Nat := 0
  lsess : Nat := 0
  slot : Nat := 0
  fallback : Nat := 0
  si : Nat := 0
  se : Nat := 0
  seq : Nat := 0
  lastCounter : BitVec 64 := 0
  /-- the last counter under the session's old key (R210). -/
  oldCounter : BitVec 64 := 0
  lastOk : Option Bytes := none
  window : SampleWin := {}
  /-- the window that opens at an INPUT_CLOSE of this tick which has not yet been taken (R151). -/
  nextWindow : SampleWin := {}
  /-- completed good frames that wait in the ingress buffer for the RELEASE of the slots before theirs, each with the
  seq of its slot, oldest first (R153). -/
  waiting : List (Nat × GoodFrame) := []
  slots : List SlotRun := []
  /-- last phase INPUT_CLOSE in device time (R49). -/
  lastPhaseIc : Option Nat := none
  /-- device time at which the binding took effect (R49). -/
  boundAt : Nat := 0
  /-- seq of the timed slot whose RELEASE has not fired (R49). -/
  timedSlot : Option Nat := none
  shed : Bool := false
  tainted : Bool := false
  /-- the Arcade attributed in a slot, with the slot's seq, the time of its INPUT_CLOSE and that of the detection: slots run on all
  three; and whether the repeat is still to come (R196, R204). -/
  triple : Option (Nat × Nat × Nat × Nat) := none
  repeatDue : Bool := false
  covered : Bool := false
  /-- the partner's run that CMP brought, by slot seq (R436). -/
  partner : Option (Nat × Outcome1) := none
  /-- reservations of the home, by slot seq (R433). -/
  resv : List (Nat × Nat) := []
deriving DecidableEq, Repr

/-- A result slot of a window (R164, R165). -/
structure ResultSlot where
  ready : Bool := false
  bound : Bool := false
  unacked : Nat := 0
  overwritten : BitVec 8 := 0
  seqLo : BitVec 32 := 0
  latest : Nat := 0
  acked : BitVec 64 := 0
  missing : BitVec 16 := 0
  late : BitVec 16 := 0
  auth : BitVec 16 := 0
  dup : BitVec 16 := 0
  record : Bytes := []
deriving DecidableEq, Repr

/-- Counters of an SI port, its video attribute follows the lease, and the bytes its ingress buffer holds
(R153, R489). -/
structure SiPort where
  unattributed : BitVec 16 := 0
  malformed : BitVec 16 := 0
  poisoned : BitVec 16 := 0
  tsSkew : BitVec 16 := 0
deriving DecidableEq, Repr

/-- An SE port: counters, and the tick until which it sends the record it is sending (R158, R459, R489). -/
structure SePort where
  records : BitVec 32 := 0
  held : BitVec 16 := 0
  aborted : BitVec 16 := 0
  busyUntil : Nat := 0
  sending : Option Nat := none
deriving DecidableEq, Repr

/-- A job's record that is formed and not yet written (R169, R219, R220): its payload and arithmetic flags, the device time at which it
was formed, its seq and its rseq, the generations that its result ran under and that its rseq was reserved under, and whether it
repeats a record (R171). -/
structure JobRec where
  payload : Bytes
  flags : BitVec 3
  formed : Nat
  seq : Nat
  rseq : Nat
  planGen : BitVec 16
  keyxGen : BitVec 16
  redo : Bool
deriving DecidableEq, Repr

/-- A bulk job (R169 to R171, R201, R253, R410). `ready` are the records formed and not yet written. -/
structure Job where
  active : Bool := false
  win : Nat := 0
  session : Nat := 0
  lsess : Nat := 0
  entry : Nat := 0
  priority : Nat := 0
  ringBase : Nat := 0
  ringEntries : Nat := 0
  vector : BitVec 16 := 0
  coalesce : Nat := 0
  unsignalled : Nat := 0
  buffers : List (Nat × Nat) := []
  seq : Nat := 0
  acked : Nat := 0
  ready : List JobRec := []
  shed : Bool := false
  /-- records still to be emitted with the redo flag (R171), and the job waits for its programs to end (R203). -/
  redo : Nat := 0
  /-- records written since the checkpoint or the last restart, and records formed before the checkpoint and not yet
  written. -/
  since : Nat := 0
  kept : Nat := 0
  restarting : Bool := false
  /-- Arcades of the job's programs, and the programs of the present step that have ended. -/
  runners : List Nat := []
  runs : List RunOut := []
  /-- steps begun (R200), and the plan generation of the present one (R220). -/
  steps : Nat := 0
  stepGen : BitVec 16 := 0
  /-- the job's state at its last checkpoint or at its start, that a restart restores: Piazza lines with their poison, seq of the
  last record formed, next rseq (R100, R203). -/
  ckpt : Option (List (Nat × Bytes × Bool) × Nat × Nat) := none
  restarts : Nat := 0
  /-- a checkpoint is wanted: the next span of each program is selected, and the programs wait after it (R201). -/
  ckptSelect : Bool := false
  /-- the status with which the last job of this number ended (R191, R262, R370). -/
  ended : Nat := 0
deriving DecidableEq, Repr

end Sys2Proof.Machine
end

