-- ==== Sys2Proof/Machine/StateRack.lean ====
section
/-! DEFINITION. The state of the health unit, the power manager, the Fumas link and the message sideband
(chapters 14 to 17). -/

namespace Sys2Proof.Machine

/-- A record of the health ring: the fields of the Keluvia section of R387; the CPER frame around them is
fixed by R385 and R386. Absent fields hold the values R387 gives them. -/
structure HRec where
  recNo : Nat := 0
  cls : Nat := 0
  unitKind : Nat := 0
  unit : Nat := 255
  world : Nat := 255
  vi : Nat := 255
  flags : BitVec 8 := 0
  event : Nat := 0
  session : Nat := 0xFFFF
  origin : Nat := 0xFFFF
  count : Nat := 1
  detectTime : Nat := 0
  firstTime : Nat := 0
  location : Nat := 0
  bootId : BitVec 128 := 0
  aclkMhz : Nat := 0
  railMv : Nat := 0
  tj : Int := 0
  detail : Bytes := []
  exported : Bool := false
deriving DecidableEq, Repr

/-- States of a Quarter controller, coded as in HL_QC_STATUS (R396). -/
inductive QcState where
  | running | restarting | detached | failed
deriving DecidableEq, Repr

/-- A Quarter controller (R374 to R377, R396): times in ns of device time. -/
structure Qc where
  state : QcState := .running
  crashes : Nat := 0
  lastKick : Nat := 0
  reattached : Option Nat := none
deriving DecidableEq, Repr

/-- A failure signature (R390). -/
structure Sig where
  event : Nat
  unitKind : Nat
  unit : Nat
  cls : Nat
  count : Nat
  first : Nat
  last : Nat
  aclkMhz : Nat
  railMv : Nat
  tj : Int
  location : Nat
  opSeconds : Nat
deriving DecidableEq, Repr

/-- The health unit (R368 to R396). `area` fields are the persistent health area of R389 as its last
rewrite left it; `dirty` says that a rewrite is due. -/
structure Health where
  ring : List HRec := []
  /-- the number of the next record: 0 until the boot ROM has built the ring (R381, R394). -/
  nextRec : Nat := 0
  resets : Nat := 0
  cause : Nat := 0
  causeUnit : Nat := 255
  causeEvent : Nat := 0
  /-- unit kind of the reset's record, and device time in s when it was requested (R372). -/
  resetUnitKind : Nat := 0
  resetTime : Nat := 0
  corrected : Bool := false
  session : Bool := false
  integrity : Bool := false
  unit : Bool := false
  fc : Bool := false
  lost : Bool := false
  correctedCnt : BitVec 8 := 0
  sessionCnt : BitVec 8 := 0
  integrityCnt : BitVec 8 := 0
  unitCnt : BitVec 8 := 0
  fcCnt : BitVec 8 := 0
  lostCnt : BitVec 8 := 0
  /-- reports of device time that the health unit has taken: R388 gives them no event, so they form no record (R37). -/
  lfsrReports : Nat := 0
  /-- fuse operations whose failure the health unit was told of (R305; R388 gives no event for it). -/
  fuseReports : Nat := 0
  /-- comparator faults that the health unit was told of (R331; R388 gives no event for them). -/
  compareReports : Nat := 0
  /-- Kerb events that the power manager has reported (R406; R388 gives no event for them). -/
  kerbReports : Nat := 0
  clockReports : Nat := 0
  qc : Tab Qc := []
  fcRestarting : Bool := false
  fcKick : Nat := 0
  fcCrashes : Nat := 0
  fcCrashTimes : List Nat := []
  /-- start of the present 60 s window by event code, unit kind and unit (R382). -/
  windows : List (Nat × Nat × Nat × Nat) := []
  buckets : List Sig := []
  sigs : List Sig := []
  newSigs : Bool := false
  /-- device time at which the present window of the signatures began (R390). -/
  windowAt : Nat := 0
  /-- operating seconds in READY up to this boot, and device time at which this boot came to READY (R389). -/
  opSeconds : Nat := 0
  readyAt : Option Nat := none
  retiredArc : BitVec 16 := 0
  retiredSeg : BitVec 16 := 0
  omapSlice : Option Nat := none
  omapTime : Nat := 0
  lastBlock : Option HRec := none
  /-- the last BLOCK record that the area held at the boot. -/
  areaBlock : Bytes := []
  areaSeq : Nat := 0
  areaAt : Nat := 0
  dirty : Bool := false
  degraded : Bool := false
deriving DecidableEq, Repr

/-- States of a unit, coded as in PM_UNIT_STATUS (R419). -/
inductive UnitState where
  | off | ramping | test | on | waiting
deriving DecidableEq, Repr

/-- A descent action that stands unreversed (R409, R411). -/
inductive Descent where
  | opp
  | jobs (js : List Nat)
  | streams (ss : List Nat)
deriving DecidableEq, Repr

/-- The power manager and the Kerb (R397 to R420). `policy`, `unitCtrl`, `kerbCfg` are the committed
registers; `active` is the PM_POLICY in force since its step boundary (R495); `warm`, `hot` and `critical` say that a Tj
reached 93.0 °C, 95.0 °C and 105.0 °C in the present step; `viol` holds for each timed limit of the Kerb whose condition holds the ns since its
first sample, plus 1. -/
structure Power where
  opp : Nat := 0
  rising : Bool := false
  policy : Word := 0x0000_0000_000A_59BE
  active : Word := 0x0000_0000_000A_59BE
  unitCtrl : Word := 0xFFFF
  kerbCfg : Word := 0x0960
  kerbFlags : BitVec 8 := 0
  kerbCounts : Tab (BitVec 8) := []
  viol : Tab Nat := []
  thermTrip : Bool := false
  descents : List Descent := []
  /-- steps running over which the conditions of R411 have held, since the last ascent action. -/
  calmSteps : Nat := 0
  /-- steps since a Kerb flag was last set, up to 255, and whether one was set in the present step. -/
  kerbSteps : Nat := 255
  kerbHit : Bool := false
  /-- VDD_ARC as last requested, in mV. -/
  requested : Nat := 630
  /-- tick of the last step boundary. -/
  stepTick : Option Nat := none
  derate : BitVec 2 := 0
  overCap : Bool := false
  hot : Bool := false
  warm : Bool := false
  critical : Bool := false
  planeOff : Bool := false
  coolSince : Option Nat := none
  /-- the plane is coming back: its domains ramp since a step boundary. -/
  returning : Bool := false
  powerDw : Nat := 0
  tj : Int := 0
  /-- the thermal sensors as the Kerb last sampled them, in 0.1 °C. -/
  sensors : List Int := []
  units : Tab UnitState := []
  ramping : Option Nat := none
  /-- further powered domains: PD32 to PD37. -/
  domains : BitVec 38 := 0
  readmit : List Nat := []
deriving DecidableEq, Repr

/-- States of the Fumas link, coded as in FM_STATUS (R441). -/
inductive FmState where
  | off | training | attesting | syncing | joined | linkDown | partnerLost
deriving DecidableEq, Repr

/-- A flit of the replay buffer: seq and bytes (R427). -/
structure Flit where
  seq : BitVec 16
  bytes : Bytes
deriving DecidableEq, Repr

/-- A fragment of a message that waits for credit: channel, frag byte and payload (R426, R427). -/
structure Fragment where
  chan : Nat
  frag : Byte
  payload : Bytes
deriving DecidableEq, Repr

/-- The Fumas link and pair state (R421 to R441). `credits` are the sender's per channel, 64 at the start; `owed` are
the credits to return per channel; `rx` collects the fragments of the message under way per channel. -/
structure Fumas where
  state : FmState := .off
  mode : Nat := 0
  wantMode : Nat := 0
  pairVi : Word := 0
  lower : Bool := false
  lastDetail : Byte := 0
  unpaired : Nat := 0
  nakFlag : Bool := false
  linkDownFlag : Bool := false
  lostFlag : Bool := false
  authFlag : Bool := false
  aliveFlag : Bool := false
  nakCnt : BitVec 8 := 0
  linkDownCnt : BitVec 8 := 0
  lostCnt : BitVec 8 := 0
  authCnt : BitVec 8 := 0
  aliveCnt : BitVec 8 := 0
  txSeq : BitVec 16 := 0
  rxSeq : BitVec 16 := 0xFFFF
  replay : List Flit := []
  credits : Tab Nat := []
  owed : Tab Nat := []
  waiting : List Fragment := []
  /-- flits sent since the last BULK flit. -/
  sinceBulk : Nat := 0
  naks : Nat := 0
  /-- device time in ns of the last good flit received, and of the last flit sent (R427, R439). -/
  goodAt : Nat := 0
  sentAt : Nat := 0
  nakSeq : BitVec 16 := 0
  rx : Tab Bytes := []
  txCounter : BitVec 64 := 0
  rxCounter : BitVec 64 := 0
  /-- the keys of the two directions (R428), and the key of the collective digests over the link (R438). -/
  txKey : Option (BitVec 256) := none
  rxKey : Option (BitVec 256) := none
  collectiveKey : BitVec 128 := 0
  joinWin : Option Nat := none
  /-- device time in ns at which the present step of the join began (R430), and whether the partner's PAIR_JOIN has come. -/
  stepAt : Nat := 0
  partnerHere : Bool := false
  expectDigest : Bytes := []
  nonce : BitVec 256 := 0
  /-- what the partner has sent: its serial and mode, its token, its DeviceID keys and alias certificates. -/
  partnerSerial : BitVec 128 := 0
  partnerMode : Nat := 0
  partnerToken : Bytes := []
  partnerCerts : Option (Bytes × Bytes × Bytes) := none
  partnerDigest : Bytes := []
  /-- both checks of R365 have passed here; the private shares of R366, and the pair key. -/
  attested : Bool := false
  ephemeral : Bytes := []
  kemSeed : Bytes := []
  pairKey : Option (BitVec 256) := none
  pairSlot : Option Nat := none
  lostPartner : Bool := false
deriving DecidableEq, Repr

end Sys2Proof.Machine
end

