-- ==== Sys2Proof/Machine/StateSec.lean ====
section
/-! DEFINITION. The state of the Forecourt: boot, images, lifecycle and fuses, keys, the digest and
public-key engines, the random number generator, measurements (chapters 10 to 13). -/

namespace Sys2Proof.Machine

/-- Stages of FC_BOOT_STATUS (R296), in the order of their codes. -/
inductive Stage where
  | hardware | rom | bl1 | fcInit | qcLoad | subsys | identity | ready | recovery | halted | serial
deriving DecidableEq, Repr

/-- The fields of a checked KSI header that later steps use (R274). -/
structure Ksi where
  component : Nat
  keyClass : Nat
  keyIndex : Nat
  svn : Nat
  advance : Bool
  states : BitVec 16
  versionWord : BitVec 64
  payloadBytes : Nat
  innerBytes : Nat
  loadAddress : Nat
  entry : Nat
  payloadDigest : BitVec 384
  measurement : BitVec 384
  /-- the area it was taken from (0 slot A, 1 slot B, 2 recovery area, 3 user partition, 4 UART) and the
  offset of its container in the flash. -/
  area : Nat := 0
  offset : Nat := 0
deriving DecidableEq, Repr

/-- A firewall request that awaits its acknowledgement (R288, R471). -/
structure FwReq where
  grant : Bool
  base : Nat
  pages : Nat
  line : Nat
  /-- device time of the request in ns (R472). -/
  asked : Nat := 0
deriving DecidableEq, Repr

/-- Where the loading of subsystem and data images stands (R288 to R291): the images still to try, first
the current one; whether it is the fallback; a closed region. -/
structure LoadWork where
  line : Option Nat
  image : Ksi
  fallback : Option Ksi
  onFallback : Bool := false
  isClosed : Bool := false
deriving DecidableEq, Repr

/-- The boot state of the block (R271 to R297, R347 to R350). `step` is the boot step in progress, 1 to 11;
12 when READY is reached, 0 when nothing boots. -/
structure Boot where
  step : Nat := 1
  stage : Stage := .hardware
  unverified : Bool := false
  runningSlot : Bool := false
  active : Bool := false
  trial : Bool := false
  tries : Nat := 0
  bl1Fallback : Bool := false
  fcFallback : Bool := false
  serial : Bool := false
  /-- randomness of the boot's alias certificates (R358). -/
  certRnd : Bytes := []
  recovery : Bool := false
  failCode : BitVec 8 := 0
  failComponent : BitVec 8 := 0
  readyUs : BitVec 32 := 0
  held : BitVec 32 := 0xFFFF_FFFF
  failed : BitVec 32 := 0
  /-- device time in ns before which no unit ramps in step 7: the tray delay (R401). -/
  trayUntil : Nat := 0
  bl1Image : Option Ksi := none
  fcImage : Option Ksi := none
  /-- the image that each Quarter controller was last released on (R267, R377). -/
  qcImage : Tab (Option Ksi) := []
  bl1Failed : Bool := false
  loads : List LoadWork := []
  /-- anti-rollback counters that the booted images ask to raise: counter and svn (R279). -/
  advances : List (Nat × Nat) := []
  fwReq : Option FwReq := none
  /-- regions the firewall has granted or closed: line code, base, pages, granted. -/
  fwRegions : List (Nat × Nat × Nat × Bool) := []
  romLock : Bool := false
  bl1Lock : Bool := false
  bootId : BitVec 128 := 0
  /-- QC images running and staged, by Quarter (R265, R267). -/
  qcRunning : Tab (BitVec 64) := []
  qcStaged : Tab (Option Ksi) := []
  mr : Tab (BitVec 384) := []
  mrLock : Bool := false
  bootLog : List Bytes := []
  runtimeLog : List Bytes := []
  runtimeTrunc : Bool := false
  runtimeEvents : Nat := 0
deriving DecidableEq, Repr

/-- The lifecycle controller and debug gate (R298 to R302, R312, R313, R323, R324). States are coded as in
R298. -/
structure Lifecycle where
  state : Nat := 0
  decoded : Bool := false
  resumed : Bool := false
  record : Nat := 0
  pendingRecord : Option Nat := none
  grant : BitVec 5 := 0
  openScopes : BitVec 5 := 0
  testRoot : Bool := false
  udsBank : Bool := false
  identityFault : Bool := false
  fleet : Bool := false
  challenge : BitVec 128 := 0
  /-- device time of the last LC_CHALLENGE0 read, and a renewal that it withheld (R324). -/
  challengeRead : Option Nat := none
  renewHeld : Bool := false
  portBlocked : Bool := false
  /-- the end of the wait for the ABORT checkpoints, and the cause of the reset that follows (R302, R313). -/
  resetWait : Option (Nat × Nat) := none
  fcHalted : Bool := false
  qcHalted : BitVec 4 := 0
  trace : Bool := false
deriving DecidableEq, Repr

/-- A key slot: its descriptor in the layout of KM_KS_ATTR and its two shares (R316, R318, R319). -/
structure KeySlot where
  attr : Word := 0
  share0 : BitVec 512 := 0
  share1 : BitVec 512 := 0
  /-- uses since the shares were drawn. -/
  uses : Nat := 0
deriving DecidableEq, Repr

/-- An SKA entry: the planted session key XORed with the keystream of the mask key, and its plant count (R208, R316). -/
structure SkaEntry where
  key : Option (BitVec 256) := none
  plants : Nat := 0
deriving DecidableEq, Repr

/-- A load of KREG (R321): the key, its length in bytes, the descriptor that comes with it, the source slot or 0x3F, the
source unit of the job, the digest context whose result it is, the session that a K_d is to be planted for, and the opening that the
key is loaded for: the context and DE_CTXn_CTRL. -/
structure KregLoad where
  key : BitVec 512
  bytes : Nat
  attr : Word
  slot : Option (Fin 64) := none
  user : Byte
  cx : Option Nat := none
  sess : Option Nat := none
  opens : Option (Nat × Word) := none
deriving DecidableEq, Repr

/-- The key manager (R316 to R322) with the DICE secrets of R317, empty where no layer was derived. `rootCode`
is the root of R352: 0 UDS, 1 TEST_ROOT, 2 MANUF root. -/
structure Keys where
  rootCode : Nat := 0
  prkDev : Bytes := []
  prkFleet : Bytes := []
  cdi0 : Bytes := []
  cdi1 : Bytes := []
  cdiA : Bytes := []
  slots : Tab KeySlot := []
  ska : Tab SkaEntry := []
  maskKey : BitVec 256 := 0
  kreg : Option KregLoad := none
  /-- loads that wait until KREG is empty, oldest first. -/
  kregWaiting : List KregLoad := []
  kregWaits : Byte := 0
  kregAt : Nat := 0
  kmInput : Bytes := []
deriving DecidableEq, Repr

/-- States of a digest context, coded as in DE_CTXn_STATUS (R333). -/
inductive DeState where
  | free | opened | finals | done | error
deriving DecidableEq, Repr

/-- A digest context (R327 to R333). `chain` is the chaining state after the whole blocks absorbed, `buf` what came after
them, `outer` the outer chaining state of an HMAC context, `keySlot` the slot its key came from;
`core` is 0 S256, 1 S512a, 2 S512b, 3 K0, 4 K1. -/
structure DeCtx where
  /-- DE_CTXn_CTRL as it was last written, and as the present opening took it. -/
  reg : Word := 0
  ctrl : Word := 0
  state : DeState := .free
  isMatch : Bool := false
  matchN : Bool := false
  secret : Bool := false
  error : Byte := 0
  bytes : BitVec 48 := 0
  chain : Bytes := []
  buf : Bytes := []
  outer : Bytes := []
  keyAttr : Word := 0
  keySlot : Option (Fin 64) := none
  result : Bytes := []
  expect : Tab Word := []
  core : Nat := 0
deriving DecidableEq, Repr

/-- A PKE job (R335 to R340). -/
structure PkeJob where
  op : Nat
  len : Nat
  flags : Byte
  slot : Nat
  tag : BitVec 32
  msgBytes : Nat
  /-- FC SRAM offsets of the public inputs, the modulus last. -/
  inOff : List Nat := []
  outOff : Nat := 0
  win : Option Nat := none
  ins : List Bytes := []
  secretIn : Bytes := []
  /-- a refusal that the start of the job met (R320, R345). -/
  refused : Nat := 0
  yields : Nat := 0
  /-- yield points that the job has passed. -/
  points : Nat := 0
  region : Nat := 0
  /-- the slot its secret input came from. -/
  keySlot : Option (Fin 64) := none
deriving DecidableEq, Repr

/-- The public-key engine (R334 to R341). -/
structure Pke where
  queue : List PkeJob := []
  run : Option PkeJob := none
  suspended : Option PkeJob := none
  /-- operand memory of the regions PR0 and PR1, in use by a job. -/
  region0 : Bytes := []
  region1 : Bytes := []
  /-- the first queued job is to run in place of the suspended one (R339). -/
  preempt : Bool := false
  submitFull : Bool := false
  submitFullCnt : BitVec 8 := 0
  lastStatus : Nat := 0
  valid : Bool := false
  validN : Bool := false
  attempts : Nat := 0
  lastTag : BitVec 16 := 0
deriving DecidableEq, Repr

/-- States of the TRNG, coded as in FC_TRNG_STATUS (R344, R346). -/
inductive TrngState where
  | startup | ok | degraded | failed
deriving DecidableEq, Repr

/-- The random number generator and the CTR_DRBG (R342 to R346). `key` and `v` are the DRBG's working state, `block` the conditioned
block at hand for a reseed, `run` and `last` the run of equal raw bits that the repetition count test has met so far. -/
structure Trng where
  state : TrngState := .startup
  rctFail : Bool := false
  aptFail : Bool := false
  rctCnt : BitVec 8 := 0
  aptCnt : BitVec 8 := 0
  reseeds : BitVec 16 := 0
  passes : Nat := 0
  failTimes : List Nat := []
  requests : Nat := 0
  reseedAt : Nat := 0
  block : Option (BitVec 384) := none
  reseedDue : Bool := false
  key : BitVec 256 := 0
  v : BitVec 128 := 0
  run : Nat := 0
  last : Bool := false
deriving DecidableEq, Repr

/-- A recovery UART load in progress (R294). -/
structure UartLoad where
  component : Nat
  dest : Nat
  length : Nat
  bytes : Bytes
deriving DecidableEq, Repr

/-- The recovery UART (R293 to R295). `loader` is 0 boot ROM, 1 BL1, 2 recovery loader. -/
structure Uart where
  baud : Nat := 115200
  lastSeq : Option Byte := none
  lastStatus : List Nat := []
  heard : Bool := false
  /-- device time in ns of the last HELLO. -/
  helloAt : Option Nat := none
  loader : Nat := 0
  load : Option UartLoad := none
deriving DecidableEq, Repr

/-- An SPDM connection context (R361, R362, R364): 0 fresh, 1 version, 2 capabilities, 3 algorithms negotiated; and the transcript. -/
structure SpdmCtx where
  phase : Nat := 0
  transcript : Bytes := []
deriving DecidableEq, Repr

/-- The management port: I3C target, MCTP endpoint, PLDM export and SPDM contexts (R364, R391, R467, R468). -/
structure Mgmt where
  i3cAddr : BitVec 7 := 0
  i3cEvents : Byte := 0
  mwl : BitVec 16 := 0
  mrl : BitVec 16 := 0
  eid : Option Byte := none
  spdm : Tab SpdmCtx := []
  receiver : Option Byte := none
  /-- next rec_no to export; the message outstanding, by rec_no or 0 for a signature, its bytes, its sendings and when the last was; whether
  the rest is held for polling. -/
  nextRec : Nat := 1
  outstanding : Option Nat := none
  message : Bytes := []
  sends : Nat := 0
  sentAt : Nat := 0
  holding : Bool := false
  /-- failure signatures that await export, oldest first. -/
  sigQueue : List Sig := []
deriving DecidableEq, Repr

end Sys2Proof.Machine
end

