-- ==== Sys2Proof/Machine/State.lean ====
section
/-! DEFINITION. The state of the block, the reasons a command could stop, and the state right after reset. -/

namespace Sys2Proof.Machine

/-- What leaves the block, in the order it leaves: the outputs at its ports (chapter "Ports and integration").
The log of outputs is the model's own field (log entry 4). -/
inductive Out where
  /-- one message of the sideband: VI and vector (R473). -/
  | msg (vi vector : Nat)
  /-- a write burst on a master port: the port, the master identifier, the address, the bytes, and the beats that carry
  poison (R450 to R454). -/
  | hostWrite (port : Nat) (id : BitVec 16) (addr : Nat) (bytes : Bytes) (poison : List Nat)
  /-- a read burst on a master port: its beats. What the chip answers is an operand of the command that reads. -/
  | hostRead (port : Nat) (id : BitVec 16) (addr beats : Nat)
  /-- a record whose first beat leaves an SE port, at a tick, with sek_cs and sek_held (R458, R459). -/
  | record (port cs tick : Nat) (held : Bool) (bytes : Bytes)
  /-- a record ended early by a reset, poisoned (R459). -/
  | recordCut (port : Nat)
  /-- bytes on the recovery UART (R293, R294). -/
  | uart (bytes : Bytes)
  /-- the body of a response on the management port (R361, R391, R467, R468). -/
  | mgmt (bytes : Bytes)
  /-- an error on the management port: the code answered (R361, R391). -/
  | mgmtErr (code : Nat)
  /-- an in-band interrupt of the I3C target, with its mandatory byte 0xAE (R467). -/
  | ibi
  /-- an I3C common command answered with these bytes, or not acknowledged (R467). -/
  | i3c (ack : Bool) (bytes : Bytes)
  /-- what a JTAG access answers (R312, R469). -/
  | jtag (ok : Bool) (bytes : Bytes)
  /-- a request on the firewall sideband (R471). -/
  | firewall (grant : Bool) (base pages line : Nat)
  /-- a flit on the Fumas link (R427). -/
  | flit (bytes : Bytes)
  /-- reply data for which the manual names no buffer: the FleetID public keys (R311), by window. -/
  | reply (w : Nat) (bytes : Bytes)
  /-- a request of VDD_ARC on the AVSBus, in mV (R402, R403). -/
  | avs (mv : Nat)
  /-- a response payload that a SESSION_KEYX or an EVIDENCE_GET command writes is a hostWrite;
  a T0 access that ends with an error response (R447, R448). -/
  | busError
  /-- xspi_reset_n held low for 10 µs (R463), and a command on the boot-flash port: opcode, address, data (R464). -/
  | xspiReset
  | xspi (op : Byte) (addr : Nat) (bytes : Bytes)
deriving DecidableEq, Repr

/-- The reasons a command could stop the machine. The manual says of every command and event what the block
does; no meaning raises one. Safe. -/
inductive Fault where
  /-- Raised by no command. Safe: the machine would stop where the block goes on. -/
  | none
deriving DecidableEq, Repr

/-- The refusals. -/
inductive Refusal where
  /-- Raised by an arm of exec whose command has no meaning in the model. Safe: nothing is claimed of it. -/
  | notModelled (mnemonic : String)
deriving DecidableEq, Repr

/-- The supply, the resets and the pins at the edge of the block (R397, R443 to R445, R470). `halted` is the
halt of R413 after a power-loss warning. -/
structure Top where
  supply : Bool := true
  porLow : Bool := false
  halted : Bool := false
  /-- blk_rst_active: 1 from a reset until the end of boot step 1 (R444). -/
  blkRst : Bool := true
  straps : Straps := {}
deriving DecidableEq, Repr

/-- The state of the block. A field's default is its value at reset. -/
structure State where
  /-- the commands that wait, first in, first out (the model's own). -/
  pending : List Instr := []
  /-- what has left the block, latest first (the model's own, log entry 4). -/
  out : List Out := []
  /-- how many free values have been taken (the model's own, log entry 2). -/
  free : Nat := 0
  top : Top := {}
  ptu : Ptu := {}
  /-- windows VI0 to VI63, and the operator window at 64. -/
  win : Tab Window := []
  rb : Roundabout := {}
  /-- committed RB_VI_POLICYn, by n (R493). -/
  policy : Tab Word := []
  banks : Tab Bank := []
  plans : Tab ViPlan := []
  sess : Tab Session := []
  /-- the queue of cut records (R222). -/
  cuts : List Cut := []
  /-- cuts triggered in this tick, taken after its folds: session, kind, nonce, waiting window (R222). -/
  cutDue : List (Nat × CutKind × BitVec 256 × Option Nat) := []
  /-- cuts deferred because the queue was full: session, kind, nonce, waiting window (R222). -/
  cutWait : List (Nat × CutKind × BitVec 256 × Option Nat) := []
  streams : Tab Stream := []
  /-- result slots, at 64 × window + slot (R164). -/
  results : Tab ResultSlot := []
  si : Tab SiPort := []
  se : Tab SePort := []
  jobs : Tab Job := []
  arc : Tab Arcade := []
  pz : Piazza := {}
  health : Health := {}
  boot : Boot := {}
  /-- the boot flash: an erased byte is 0xFF, so the store holds the complement of a byte (log entry 5). -/
  flash : Tab Byte := []
  fuses : Tab (BitVec 32) := []
  lc : Lifecycle := {}
  keys : Keys := {}
  de : Tab DeCtx := []
  pke : Pke := {}
  trng : Trng := {}
  uart : Uart := {}
  mgmt : Mgmt := {}
  pm : Power := {}
  fm : Fumas := {}
  /-- messages pending on the sideband, oldest first (R244, R473). -/
  msgs : List (Nat × Nat) := []
  fcSram : Tab Byte := []
  /-- QC memory of Quarter q at byte 2^18 × q + offset. -/
  qcMem : Tab Byte := []
deriving DecidableEq, Repr

/-- The block right after reset: por_n has just deasserted, the straps are sampled, and boot step 1 is in
progress (R286, R444). -/
def State.reset : State := {}

end Sys2Proof.Machine
end

