-- ==== Sys2Proof/Machine/Ops.lean ====
section
/-! DEFINITION. The shared operations of the machine: the outcome of a command, time, outputs, free values,
messages, replies, health records and the DEVICE_DEGRADED bit. -/

namespace Sys2Proof.Machine

/-- The block runs: it has its supply, por_n is high, and no power-loss halt stands (R397, R413, R444). -/
def State.live (s : State) : Bool := s.top.supply && !s.top.porLow && !s.top.halted

/-- Device time in whole ns (R6, R36). -/
def State.now (s : State) : Nat := s.ptu.dt.toNat / 2 ^ 32

/-- The epoch number: device_time[63:12] (R38). -/
def State.epoch (s : State) : Nat := s.now / 4096

/-- Append an output. -/
def State.emit (s : State) (o : Out) : State := { s with out := o :: s.out }

/-! Master identifiers (R10, R232): world in [15:14], VI in [13:8], source unit in [7:0]. -/

def masterId (world vi unit : Nat) : BitVec 16 := BitVec.ofNat 16 (world % 4 * 2 ^ 14 + vi % 64 * 2 ^ 8 + unit % 256)

/-- A source unit that R232 lists; every Bollard refuses another. -/
def unitListed (u : Nat) : Bool :=
  u == 0 || (decide (0x10 ≤ u) && decide (u < 0x26)) || (decide (0x28 ≤ u) && decide (u < 0x2C))
    || (decide (0x40 ≤ u) && decide (u < 0x45)) || [0x30, 0x50, 0x60].contains u

/-- The world and VI of a window: 64 is the operator's. -/
def windowWorld (w : Nat) : Nat × Nat := if w < 64 then (2, w) else (1, 0)

/-! Transfers on the master ports M0 to M3 (R450 to R453). -/

/-- The bursts of a transfer: none crosses a 4 KiB boundary, and so none has more than 64 beats (R451). The first argument bounds
their number. -/
def bursts : Nat → Nat → Nat → List (Nat × Nat)
  | 0, _, _ => []
  | k + 1, addr, n =>
    if n = 0 then []
    else
      let m := min n (4096 - addr % 4096)
      (addr, m) :: bursts k (addr + m) (n - m)

/-- The port of a burst: address bits [13:12] (R451). -/
def hostPort (addr : Nat) : Nat := addr / 4096 % 4

/-- The beats of 64 bytes of a burst. -/
def burstBeats (addr n : Nat) : Nat := (addr % 64 + n + 63) / 64

/-- The data movers write to external memory with the world and VI for which they act (R232, R452). `bad` are the byte ranges
that come from poisoned lines; a beat with such a byte is poisoned (R454). -/
def State.hostWrite (s : State) (wv : Nat × Nat) (addr : Nat) (b : Bytes) (bad : List (Nat × Nat) := []) : State :=
  (bursts (b.length / 4096 + 2) addr b.length).foldl (fun s x =>
    let o := x.1 - addr
    let beat (k : Nat) : Nat × Nat := (o + 64 * k - min (o + 64 * k) (x.1 % 64), o + 64 * k + 64 - x.1 % 64)
    let poisoned (k : Nat) : Bool := bad.any fun r => decide (r.1 < (beat k).2) && decide ((beat k).1 < r.1 + r.2)
    s.emit (.hostWrite (hostPort x.1) (masterId wv.1 wv.2 (0x28 + hostPort x.1)) x.1 (Bytes.slice b o x.2)
      ((List.range (burstBeats x.1 x.2)).filter poisoned))) s

/-- The data movers read from external memory (R232, R451, R452). -/
def State.hostRead (s : State) (wv : Nat × Nat) (addr n : Nat) : State :=
  (bursts (n / 4096 + 2) addr n).foldl (fun s x =>
    s.emit (.hostRead (hostPort x.1) (masterId wv.1 wv.2 (0x28 + hostPort x.1)) x.1 (burstBeats x.1 x.2))) s

/-- The next free value, and the state that has taken it (log entry 2). -/
def State.freeNext (s : State) : BitVec 64 × State := (Config.freeValue s.free, { s with free := s.free + 1 })

/-- CTR_DRBG_Update of SP 800-90A with AES-256 (R345): the key and V after the provided data. -/
def drbgUpdate (k : BitVec 256) (v : BitVec 128) (data : BitVec 384) : BitVec 256 × BitVec 128 :=
  let x : BitVec 384 := (Config.aes256 k (v + 1) ++ Config.aes256 k (v + 2) ++ Config.aes256 k (v + 3)) ^^^ data
  ((x >>> 128).setWidth 256, x.setWidth 128)

/-- The DRBG after an instantiation or a reseed with seed material (R345): no derivation function. -/
def Trng.seed (t : Trng) (material : BitVec 384) : Trng :=
  let u := drbgUpdate t.key t.v material
  { t with key := u.1, v := u.2 }

/-- A request to the CTR_DRBG and the state that has made it (R345): 64 bytes, the first most significant, which is below the limit of
64 KiB (log entry 2). -/
def State.draw (s : State) : BitVec 512 × State :=
  let t := s.trng
  let out : BitVec 512 := Config.aes256 t.key (t.v + 1) ++ Config.aes256 t.key (t.v + 2) ++ Config.aes256 t.key (t.v + 3)
    ++ Config.aes256 t.key (t.v + 4)
  (out, { s with trng := { Trng.seed { t with v := t.v + 4 } 0 with requests := t.requests + 1 } })

/-- The DRBG serves no request (R345): the source has failed, or the reseed that fell due 400 ms or 4,096 requests after the
last one has not come. -/
def State.drbgBlocked (s : State) : Bool :=
  s.trng.state == .failed
    || (s.trng.state != .startup && (decide (4096 ≤ s.trng.requests) || decide (s.trng.reseedAt + 400000000 ≤ s.now)))

/-- The window of a slot. -/
def State.window (s : State) (w : Nat) : Window := Tab.get {} s.win w

/-- Change a window. -/
def State.onWin (s : State) (w : Nat) (f : Window → Window) : State := { s with win := Tab.upd {} s.win w f }

/-- A session context. -/
def State.session (s : State) (n : Nat) : Session := Tab.get {} s.sess n

def State.onSess (s : State) (n : Nat) (f : Session → Session) : State := { s with sess := Tab.upd {} s.sess n f }

def State.stream (s : State) (n : Nat) : Stream := Tab.get {} s.streams n

def State.onStream (s : State) (n : Nat) (f : Stream → Stream) : State :=
  { s with streams := Tab.upd {} s.streams n f }

def State.arcade (s : State) (n : Nat) : Arcade := Tab.get {} s.arc n

def State.onArc (s : State) (n : Nat) (f : Arcade → Arcade) : State := { s with arc := Tab.upd {} s.arc n f }

def State.job (s : State) (n : Nat) : Job := Tab.get {} s.jobs n

def State.onJob (s : State) (n : Nat) (f : Job → Job) : State := { s with jobs := Tab.upd {} s.jobs n f }

def State.plan (s : State) (w : Nat) : ViPlan := Tab.get {} s.plans w

def State.onPlan (s : State) (w : Nat) (f : ViPlan → ViPlan) : State := { s with plans := Tab.upd {} s.plans w f }

def State.bank (s : State) (w : Nat) : Bank := Tab.get {} s.banks w

def State.onBank (s : State) (w : Nat) (f : Bank → Bank) : State := { s with banks := Tab.upd {} s.banks w f }

def State.segment (s : State) (n : Nat) : Segment := Tab.get {} s.pz.segs n

def State.onSeg (s : State) (n : Nat) (f : Segment → Segment) : State :=
  { s with pz := { s.pz with segs := Tab.upd {} s.pz.segs n f } }

def State.source (s : State) (n : Nat) : Source := Tab.get {} s.ptu.sources n

def State.onSource (s : State) (n : Nat) (f : Source → Source) : State :=
  { s with ptu := { s.ptu with sources := Tab.upd {} s.ptu.sources n f } }

def State.event (s : State) (n : Nat) : Event := Tab.get {} s.ptu.events n

def State.onEvent (s : State) (n : Nat) (f : Event → Event) : State :=
  { s with ptu := { s.ptu with events := Tab.upd {} s.ptu.events n f } }

def State.qcOf (s : State) (q : Nat) : Qc := Tab.get {} s.health.qc q

def State.onQc (s : State) (q : Nat) (f : Qc → Qc) : State :=
  { s with health := { s.health with qc := Tab.upd {} s.health.qc q f } }

/-- RB_VI_POLICYn at reset: frac_max is 5 (R493). -/
def policyReset : Word := 0x2800

/-- The committed RB_VI_POLICYn, and its fields (R493). -/
def State.policyOf (s : State) (n : Nat) : Nat := (Tab.get policyReset s.policy n).toNat
def polEnable (p : Nat) : Bool := Bits.bit p 0
def polLane (p : Nat) : Nat := min 64 (Bits.get p 1 7)
def polFracMin (p : Nat) : Nat := Bits.get p 8 3
def polFracMax (p : Nat) : Nat := Bits.get p 11 3
def polQuota (p : Nat) : Nat := min 16384 (Bits.get p 16 15)
def polPool (p : Nat) : Nat := Bits.get p 31 8

/-- A message becomes pending; one equal in VI and vector to a pending one merges with it (R473). -/
def State.message (s : State) (vi vector : Nat) : State :=
  let m := (vi, vector % 2 ^ 16)
  if m ∈ s.msgs then s else { s with msgs := s.msgs ++ [m] }

/-- The message of a window: the vector that its VI_OPEN gave, plus an offset, where a VI_OPEN gave one (R244). -/
def State.viMessage (s : State) (w offset : Nat) : State :=
  let win := s.window w
  if win.isOpen then s.message w (win.vector.toNat + offset) else s

/-- The bytes of a reply entry (R242). -/
def Reply.bytes (r : Reply) (tag : BitVec 16) (opcode seq : Nat) : Bytes :=
  Bytes.ofNat 2 tag.toNat ++ Bytes.ofNat 2 opcode ++ Bytes.ofNat 1 r.status ++ Bytes.ofNat 1 r.detail
    ++ Bytes.ofNat 2 seq ++ Bytes.ofNat 8 r.epoch ++ Bytes.ofNat 8 r.value ++ Bytes.ofNat 4 r.index
    ++ List.replicate 4 0

/-- Write a reply entry at reply_head, advance it, and send the window's message (R242, R244). The reply of a VI_CLOSE
uses the vector that the VI had. -/
def State.writeReply (s : State) (w : Nat) (tag : BitVec 16) (opcode : Nat) (r : Reply) : State :=
  let c := (s.window w).slot
  let count := c.replyCount + 1
  let e := r.bytes tag opcode count.toNat
  let s := s.onWin w fun win => { win with slot := { c with
    replies := Tab.set [] c.replies c.replyHead.toNat e
    replyHead := c.replyHead + 1
    replyCount := count } }
  if opcode = 2 then s.message w (s.window w).vector.toNat else s.viMessage w 0

/-- Status codes of R243. -/
def stOk : Nat := 0
def stBusy : Nat := 1
def stNotOwner : Nat := 2
def stLenShort : Nat := 3
def stLenLong : Nat := 4
def stVersion : Nat := 5
def stInputRange : Nat := 6
def stNotOnCurve : Nat := 7
def stDenied : Nat := 8
def stAborted : Nat := 9
def stFault : Nat := 10

/-- The operating points of R402: ACLK in MHz and domain target in mV. -/
def oppTable : List (Nat × Nat) :=
  [(900, 600), (1000, 620), (1100, 645), (1200, 665), (1300, 690), (1400, 710), (1500, 735), (1600, 755),
   (1700, 780), (1800, 800)]

def oppMhz (n : Nat) : Nat := (oppTable.getD n (900, 600)).1
def oppMv (n : Nat) : Nat := (oppTable.getD n (900, 600)).2

/-- ACLK of an Arcade in MHz: 7 of every 8 while the gate of R189 is applied. -/
def State.aclkMhz (s : State) (a : Nat) : Nat :=
  if (s.arcade a).slowed then oppMhz s.pm.opp * 7 / 8 else oppMhz s.pm.opp

/-- The rail of a unit in mV: the domain target of an Arcade with its boost (R402, R404), 750 of the fixed
rails (R398). -/
def State.railMv (s : State) (unitKind unit : Nat) : Nat :=
  if unitKind = 1 then oppMv s.pm.opp + (if (s.arcade unit).boost then 25 else 0) else 750

/-- The class of an event code of R388. -/
def eventClass (code : Nat) : Nat := code / 256

/-- Events that give at most one record per unit in each 60 s (R382). -/
def coalesces (code : Nat) : Bool := eventClass code == 1 || code == 4 || code == 5 || code == 6

/-- Events whose record says that it set DEVICE_DEGRADED (R387, R393). -/
def setsDegraded (code : Nat) : Bool :=
  [0x0401, 0x0402, 0x0403, 0x0405, 0x0406, 0x0409, 0x0501].contains code

/-- The flag of HL_ERR_STATUS for a class is set and counted (R380, R394). -/
def Health.flag (h : Health) (cls : Nat) : Health :=
  if cls = 1 then { h with corrected := true, correctedCnt := h.correctedCnt + 1 }
  else if cls = 2 then { h with session := true, sessionCnt := h.sessionCnt + 1 }
  else if cls = 3 then { h with integrity := true, integrityCnt := h.integrityCnt + 1 }
  else if cls = 4 then { h with unit := true, unitCnt := h.unitCnt + 1 }
  else if cls = 5 then { h with fc := true, fcCnt := h.fcCnt + 1 }
  else h

/-- Count an occurrence into its bucket of the present window (R390). -/
def Health.bucket (h : Health) (r : HRec) (ops : Nat) : Health :=
  if r.cls = 2 || (r.cls = 3 && r.unit = 255) then h
  else
    let same (u : Nat) (b : Sig) : Bool := b.event == r.event && b.unitKind == r.unitKind && b.unit == u
    let u := if h.buckets.any (same r.unit) || h.buckets.length < 64 then r.unit else 255
    let bump (b : Sig) : Sig :=
      if same u b then
        { b with count := b.count + 1, last := r.detectTime, tj := max b.tj r.tj, aclkMhz := r.aclkMhz, railMv := r.railMv,
                 location := r.location }
      else b
    if h.buckets.any (same u) then { h with buckets := h.buckets.map bump }
    else { h with buckets := h.buckets ++
      [{ event := r.event, unitKind := r.unitKind, unit := u, cls := r.cls, count := 1, first := r.detectTime,
         last := r.detectTime, aclkMhz := r.aclkMhz, railMv := r.railMv, tj := r.tj, location := r.location,
         opSeconds := ops }] }

/-- The held record that a new record replaces in a full ring (R382): the oldest INFO or CORRECTED record,
else the oldest that is not a BLOCK record awaiting export, else for a BLOCK record the oldest. -/
def Health.victim (h : Health) (cls : Nat) : Option HRec :=
  match h.ring.find? (fun r => r.cls ≤ 1) with
  | some r => some r
  | none =>
    match h.ring.find? (fun r => !(r.cls == 6 && !r.exported)) with
    | some r => some r
    | none => if cls = 6 then h.ring.head? else none

/-- A record of the same instant whose source comes after another's (R382). The first record of a boot stays the first. -/
def HRec.follows (x r : HRec) : Bool :=
  x.detectTime == r.detectTime && !x.exported && x.event != 1
    && (decide (r.unitKind < x.unitKind) || (r.unitKind == x.unitKind && decide (r.unit < x.unit)))

/-- Write a record, whose number is the next, behind those held: of one instant in ascending order of the source's unit code and
index (R382). The events of one PTU tick are taken as those of one FCLK (DESIGN CHOICE, log entry 109). -/
def writeRecord (r : HRec) : List HRec → List HRec
  | [] => [r]
  | x :: l =>
    if (x :: l).all fun y => y.follows r then
      { r with recNo := x.recNo } :: (x :: l).map fun y => { y with recNo := y.recNo + 1 }
    else x :: writeRecord r l

/-- The number that a record gets. -/
def recordNo (r : HRec) : List HRec → Nat
  | [] => r.recNo
  | x :: l => if (x :: l).all fun y => y.follows r then x.recNo else recordNo r l

/-- Write a record into the ring, replacing or dropping as R382 orders. Answers the record's number, if
it was written. -/
def Health.insert (h : Health) (r : HRec) : Health × Option Nat :=
  let r := { r with recNo := h.nextRec }
  let lost (h : Health) : Health := { h with lost := true, lostCnt := h.lostCnt + 1 }
  if h.ring.length < 127 then ({ h with ring := writeRecord r h.ring, nextRec := h.nextRec + 1 }, some (recordNo r h.ring))
  else
    match h.victim r.cls with
    | some v =>
      let ring := h.ring.filter fun x => x.recNo != v.recNo
      (lost { h with ring := writeRecord r ring, nextRec := h.nextRec + 1 }, some (recordNo r ring))
    | none => (lost h, none)

/-- A further occurrence of a record of the present 60 s: counted in the record while it is held and not exported; the
record then tells of the latest detection, and keeps the first in first_time (R382, R387; log entry 86). -/
def Health.again (h : Health) (r : HRec) : Health :=
  let same (x : HRec) : Bool :=
    x.event == r.event && x.unitKind == r.unitKind && x.unit == r.unit && !x.exported
      && h.ring.all (fun y => !(y.event == r.event && y.unitKind == r.unitKind && y.unit == r.unit) || y.recNo ≤ x.recNo)
  { h with ring := h.ring.map fun x =>
      if same x then
        { x with count := min (x.count + 1) 65535, flags := x.flags ||| 0x10, detectTime := r.detectTime, aclkMhz := r.aclkMhz
                 railMv := r.railMv, tj := r.tj }
      else x }

/-- A record visible to a window was written (R395). -/
def Window.recordWritten (w : Window) (no : Nat) : Window :=
  { w with errRecord := true, errRecordCnt := w.errRecordCnt + 1, lastRec := BitVec.ofNat 32 (max w.lastRec.toNat no), errNotice := true }

/-- The record of an event as the health unit forms it: its class, time, flags and conditions (R368, R387). -/
def State.stamp (s : State) (r : HRec) : HRec :=
  let cls := eventClass r.event
  let conf := r.session != 0xFFFF && (s.session r.session).conf
  let fl : BitVec 8 := (if cls = 6 then 2 else 0) ||| (if setsDegraded r.event then 4 else 0) ||| (if conf then 8 else 0)
  { r with
    cls := cls, detectTime := s.now, firstTime := s.now, bootId := s.boot.bootId
    aclkMhz := if r.unitKind = 1 then s.aclkMhz r.unit else oppMhz s.pm.opp
    railMv := s.railMv r.unitKind r.unit, tj := s.pm.tj, flags := r.flags ||| fl }

/-- Operating seconds in READY (R389). -/
def Health.operating (h : Health) (now : Nat) : Nat :=
  h.opSeconds + (match h.readyAt with
    | some t => (now - t) / 1000000000
    | none => 0)

/-- The health unit takes a record: its flag and bucket, and its place in the ring unless it joins the record of the present
60 s (R382, R390, R394). Answers the number of a record written. -/
def Health.log (h : Health) (r : HRec) : Health × Option Nat :=
  let key (w : Nat × Nat × Nat × Nat) : Bool := w.1 == r.event && w.2.1 == r.unitKind && w.2.2.1 == r.unit
  let h := (h.flag r.cls).bucket r (h.operating r.detectTime)
  if !coalesces r.event then h.insert r
  else if h.windows.any fun w => key w && r.detectTime < w.2.2.2 + 60000000000 then (h.again r, none)
  else Health.insert { h with windows := h.windows.filter (fun w => !key w) ++ [(r.event, r.unitKind, r.unit, r.detectTime)] } r

/-- A record that was written shows in the operator window, and in its VI's where its class is SESSION or INTEGRITY
(R383, R395). `next` was the number of the next record; those that come after the new one have moved up by one. -/
def noted (next : Nat) (win : Tab Window) (r : HRec) : Option Nat → Tab Window
  | none => win
  | some no =>
    let win := if no < next then Tab.mapListed win fun _ w =>
        if no ≤ w.lastRec.toNat && w.lastRec.toNat < next then { w with lastRec := w.lastRec + 1 } else w
      else win
    let win := Tab.upd {} win 64 fun w => w.recordWritten no
    if (r.cls == 2 || r.cls == 3) && r.vi < 64 then Tab.upd {} win r.vi fun w => w.recordWritten no else win

/-- The health unit forms the record of an event and takes it (R368, R382, R383, R387, R394, R395). -/
def State.report (s : State) (r : HRec) : State :=
  let x := s.health.log (s.stamp r)
  { s with health := x.1, win := noted s.health.nextRec s.win (s.stamp r) x.2 }

/-- The Arcade's Quarter controller is FAILED, or DETACHED and awaits its reload (R377, R396): the Arcade starts no program. -/
def State.quarterOut (s : State) (a : Nat) : Bool := (s.qcOf (a / 4)).state == .failed || (s.qcOf (a / 4)).state == .detached

/-- An Arcade on which no program of a job starts: its Quarter is out, it is RETIRED, or the plane is down (R191, R377, R407). -/
def State.noPrograms (s : State) (a : Nat) : Bool := s.quarterOut a || (s.arcade a).integ == .retired || s.pm.planeOff

/-- An Arcade that sets DEVICE_DEGRADED (R393). -/
def IntegState.degrades (i : IntegState) : Bool := i == .suspect || i == .probation || i == .retired

/-- DEVICE_DEGRADED as its conditions stand (R393). -/
def State.degradedNow (s : State) : Bool :=
  (List.range 16).any (fun a => (s.arcade a).integ.degrades)
    || (List.range 16).any (fun a => (s.segment a).state == .retired)
    || (List.range 4).any (fun q => (s.qcOf q).state != .running)
    || s.health.fcRestarting
    || s.trng.state == .degraded || s.trng.state == .failed
    || s.fm.lostPartner

/-- Where DEVICE_DEGRADED has changed, every open window is told (R393, R395). -/
def State.syncDegraded (s : State) : State :=
  if s.degradedNow = s.health.degraded then s
  else { s with
    health := { s.health with degraded := s.degradedNow }
    win := Tab.mapListed s.win fun _ w =>
      if w.isOpen then { w with errDegraded := true, errDegradedCnt := w.errDegradedCnt + 1, errNotice := true } else w }

/-- How a command ends: DEVICE_DEGRADED follows its conditions (R393), and the queue is as the command found it. -/
def State.settle (before after : State) : State := { after.syncDegraded with pending := before.pending }

/-- A command's outcome: its effect where the block runs and the command's condition holds, and otherwise no
change (log entry 8). -/
def act (g : Bool) (f : State → State) (s : State) : Host.Outcome State Fault Refusal :=
  .next (if s.live && g then s.settle (f s) else s)

/-- The same for the rows that concern the supply and the resets, which act on a halted block too. -/
def actPower (g : Bool) (f : State → State) (s : State) : Host.Outcome State Fault Refusal :=
  .next (if g then s.settle (f s) else s)

end Sys2Proof.Machine
end

