-- ==== Sys2Proof/Machine/FlashAreas.lean ====
section
/-! DEFINITION. Reads of the fuses (R306, R307), the boot flash with its boot record and the directories of its areas (R271 to R273,
R463, R464), the header of a KSI container (R274), and writes to FC SRAM (R285). -/

namespace Sys2Proof.Machine

/-! Fuses. -/

/-- Fuse words of class ROM-only: the UDS banks (R306, R307). -/
def romOnly (w : Nat) : Bool := decide (56 ≤ w) && decide (w < 92)

/-- What a read of a fuse word returns: after the ROM lock nobody reads the ROM-only words (R284, R307). -/
def State.fuse (s : State) (w : Nat) : BitVec 32 := if s.boot.romLock && romOnly w then 0 else Tab.get 0 s.fuses w

/-- The bytes of n fuse words from word w (R306). -/
def State.fuseBytes (s : State) (w n : Nat) : Bytes :=
  ((List.range n).map fun i => Bytes.ofNat 4 (s.fuse (w + i)).toNat).flatten

/-- What a read of a byte of the boot ROM returns: zero after the ROM lock (R284). -/
def State.romRead (s : State) (b : Byte) : Byte := if s.boot.romLock then 0 else b

/-! The flash. -/

/-- A command on the boot-flash port (R464): its opcode, address and data. -/
def State.xspi (s : State) (op addr : Nat) (b : Bytes) : State := s.emit (.xspi (BitVec.ofNat 8 op) addr b)

/-- Write enable, the command, and the status poll after it (R464). -/
def State.xspiChange (s : State) (op addr : Nat) (b : Bytes) : State := ((s.xspi 0x06 0 []).xspi op addr b).xspi 0x05 0 []

/-- The pages of 256 bytes that a write of n bytes programs, each with its part of the bytes (R464). -/
def flashPages (addr : Nat) (b : Bytes) : List (Nat × Bytes) :=
  (List.range ((addr + b.length + 255) / 256 - addr / 256)).map fun i =>
    let lo := max addr ((addr / 256 + i) * 256)
    let hi := min (addr + b.length) ((addr / 256 + i + 1) * 256)
    (lo, Bytes.slice b (lo - addr) (hi - lo))

/-- The size of an erase block (R465). -/
def State.eraseBlock (s : State) : Nat := [0x10000, 0x20000, 0x40000, 0x10000].getD (Bits.get (s.fuse 52).toNat 21 2) 0x10000

/-- A read of n bytes (R464). -/
def State.xspiRead (s : State) (addr _n : Nat) : State := s.xspi 0xEE addr []

def State.flashRead (s : State) (addr n : Nat) : Bytes := (Tab.getMany 0 s.flash addr n).map fun b => ~~~b

/-- A write: its bytes are programmed page by page (R464). -/
def State.flashWrite (s : State) (addr : Nat) (b : Bytes) : State :=
  let s := (flashPages addr b).foldl (fun (s : State) p => s.xspiChange 0x12 p.1 p.2) s
  { s with flash := Tab.setMany 0 s.flash addr (b.map fun x => ~~~x) }

/-- An erase, block by block (R464, R465). -/
def State.flashErase (s : State) (lo hi : Nat) : State :=
  let n := s.eraseBlock
  let s := (List.range ((hi + n - 1) / n - lo / n)).foldl (fun (s : State) i => s.xspiChange 0xDC ((lo / n + i) * n) []) s
  { s with flash := Tab.clear s.flash lo hi }

/-- The flash is reset at boot step 3, and told to enter octal DDR mode where fuse word 52 names the command (R463 to R465). -/
def State.xspiStart (s : State) : State :=
  let w := (s.fuse 52).toNat
  let s := s.emit .xspiReset
  if Bits.get w 0 8 = 0 then s
  else (if Bits.bit w 27 then s.xspi 0x06 0 [] else s).xspi (Bits.get w 0 8) 0 [BitVec.ofNat 8 (Bits.get w 8 8)]

def recoveryBase : Nat := 0x0001_0000
def slotBase (slot : Bool) : Nat := if slot then 0x0500_0000 else 0x0100_0000
def slotEnd (slot : Bool) : Nat := slotBase slot + 0x0400_0000
def userBase : Nat := 0x0900_0000

/-- A word of a byte string, with its four bytes taken as zero, hashes to the CRC it holds (R272, R273). -/
def crcOkAt (b : Bytes) (o n : Nat) : Bool := Bytes.num b o 4 == (crc32 (Bytes.slice b 0 n)).toNat

/-- Choose between two copies by validity and sequence number (R272): copy 0 or 1. -/
def chooseCopy (v0 v1 : Bool) (q0 q1 : Nat) : Option Nat :=
  if v0 && v1 then some (if q0 < q1 then 1 else 0) else if v0 then some 0 else if v1 then some 1 else none

/-- The boot record: the copy in use, its sequence number, the active slot, trial and tries (R272). -/
structure BootRec where
  copy : Option Nat := none
  seq : Nat := 0
  active : Bool := false
  trial : Bool := false
  tries : Nat := 0
deriving DecidableEq, Repr

def bootRecValid (b : Bytes) : Bool := Bytes.num b 0 4 == 0x4B42_5243 && crcOkAt b 60 60

def State.bootRecord (s : State) : BootRec :=
  let c (i : Nat) : Bytes := s.flashRead (0x1000 * i) 64
  match chooseCopy (bootRecValid (c 0)) (bootRecValid (c 1)) (Bytes.num (c 0) 4 4) (Bytes.num (c 1) 4 4) with
  | none => {}
  | some i => { copy := some i, seq := Bytes.num (c i) 4 4, active := Bytes.num (c i) 8 1 == 1, trial := Bytes.num (c i) 9 1 == 1
                tries := Bytes.num (c i) 10 1 }

/-- The copy that a writer overwrites: the one not in use (R272). -/
def spareCopy (c : Option Nat) : Nat := if c = some 0 then 1 else 0

/-- Write the boot record (R272). -/
def State.writeBootRecord (s : State) (active trial : Bool) (tries : Nat) : State :=
  let r := s.bootRecord
  let body := Bytes.ofNat 4 0x4B42_5243 ++ Bytes.ofNat 4 (r.seq + 1)
    ++ [if active then 1 else 0, if trial then 1 else 0, BitVec.ofNat 8 tries] ++ List.replicate 49 0
  let s := s.flashWrite (0x1000 * spareCopy r.copy) (body ++ Bytes.ofNat 4 (crc32 body).toNat)
  { s with boot := { s.boot with active := active, trial := trial, tries := tries } }

/-- A directory entry (R273); the offset counts from the area's start. -/
structure DirEntry where
  component : Nat
  stageSeq : Nat
  offset : Nat
  length : Nat
deriving DecidableEq, Repr

/-- A directory copy with its CRC field taken as zero (R273). -/
def dirZero (b : Bytes) : Bytes := b.take 12 ++ [0, 0, 0, 0] ++ b.drop 16
def dirValid (b : Bytes) : Bool :=
  Bytes.num b 0 4 == 0x4B53_4C54 && decide (Bytes.num b 4 2 ≤ 64) && Bytes.num b 12 4 == (crc32 (dirZero b)).toNat

def dirEntries (b : Bytes) : List DirEntry :=
  (List.range (Bytes.num b 4 2)).map fun i =>
    let o := 64 + 32 * i
    { component := Bytes.num b o 1, stageSeq := Bytes.num b (o + 4) 4, offset := Bytes.num b (o + 8) 4, length := Bytes.num b (o + 12) 4 }

/-- The directory of an area: the copy in use, its sequence number and its entries; empty where neither copy is valid. -/
def State.directory (s : State) (base : Nat) : Option Nat × Nat × List DirEntry :=
  let c (i : Nat) : Bytes := s.flashRead (base + 0x1000 * i) 4096
  match chooseCopy (dirValid (c 0)) (dirValid (c 1)) (Bytes.num (c 0) 8 4) (Bytes.num (c 1) 8 4) with
  | none => (none, 0, [])
  | some i => (some i, Bytes.num (c i) 8 4, dirEntries (c i))

def DirEntry.bytes (e : DirEntry) : Bytes :=
  [BitVec.ofNat 8 e.component, 0, 0, 0] ++ Bytes.ofNat 4 e.stageSeq ++ Bytes.ofNat 4 e.offset ++ Bytes.ofNat 4 e.length
    ++ List.replicate 16 0

/-- Write a directory (R273). -/
def State.writeDirectory (s : State) (base : Nat) (es : List DirEntry) : State :=
  let (c, q, _) := s.directory base
  let head := Bytes.ofNat 4 0x4B53_4C54 ++ Bytes.ofNat 2 es.length ++ [0, 0] ++ Bytes.ofNat 4 (q + 1)
  let rest := List.replicate 48 0 ++ (es.map DirEntry.bytes).flatten
  let b := Bytes.slice (head ++ [0, 0, 0, 0] ++ rest) 0 4096
  s.flashWrite (base + 0x1000 * spareCopy c) (Bytes.slice (head ++ Bytes.ofNat 4 (crc32 b).toNat ++ rest) 0 4096)

/-- The greatest stage_seq in either slot. -/
def State.topSeq (s : State) : Nat :=
  (((s.directory (slotBase false)).2.2 ++ (s.directory (slotBase true)).2.2).map (·.stageSeq)).foldl max 0

/-- The slot's entries without a component. -/
def State.unlist (s : State) (slot : Bool) (component : Nat) : State :=
  let es := (s.directory (slotBase slot)).2.2
  if es.any fun e => e.component == component then
    s.writeDirectory (slotBase slot) (es.filter fun e => e.component != component)
  else s

/-- The image staged for every Quarter, none where a staging has failed or was ended (R266, R267). -/
def State.setQcStaged (s : State) (k : Option Ksi) : State :=
  { s with boot := { s.boot with qcStaged := (List.range 4).foldl (fun t q => Tab.set none t q k) s.boot.qcStaged } }

/-! The KSI container (R274, R275). -/

def ksiHead : Nat := 7680

/-- The header of a container. -/
def parseKsi (b : Bytes) : Ksi :=
  let u := Bytes.num b
  { component := u 8 1, keyClass := u 9 1, keyIndex := u 10 1, svn := u 12 1, advance := Bits.bit (u 13 1) 0
    states := BitVec.ofNat 16 (u 14 2), versionWord := BitVec.ofNat 64 (u 16 8), payloadBytes := u 24 4, innerBytes := u 28 4
    loadAddress := u 32 8, entry := u 40 4, payloadDigest := BitVec.ofNat 384 (Bytes.bigNat (Bytes.slice b 48 48))
    measurement := Config.sha384 (Bytes.slice b 0 256) }

/-- The payload of a container. -/
def ksiPayload (k : Ksi) (b : Bytes) : Bytes := Bytes.slice b ksiHead k.payloadBytes

/-- Components of R277: the largest payload, and the anti-rollback counter. -/
def componentLimit (c : Nat) : Option (Nat × Nat) :=
  if c = 0xF0 then some (0x10000, 0)
  else if c = 0xF1 then some (0x50000, 0)
  else if c = 0 then some (0x50000, 1)
  else if c = 1 then some (0xA000, 2)
  else if c ≤ 33 ∨ c = 0xF2 then some (0x200_0000, 3)
  else none

/-- The load region of a component (R277). -/
def loadOk (k : Ksi) : Bool :=
  let lo := k.loadAddress
  let hi := k.loadAddress + k.payloadBytes
  if k.component = 0xF0 then decide (0x70000 ≤ lo) && decide (hi ≤ 0x80000)
  else if k.component = 0xF1 ∨ k.component = 0 then decide (hi ≤ 0x50000)
  else if k.component = 1 then decide (hi ≤ 0xC000)
  else lo % 4096 == 0 && decide (hi ≤ 2 ^ 52)

/-- Where an image goes in the memory it runs from, and how many bytes of it: its load_address where that is in the component's load
region, else the start of the region, cut at its end (R277, R282; log entry 23). -/
def Ksi.place (k : Ksi) (want : Nat) : Nat × Nat :=
  let size := ((componentLimit want).getD (0, 0)).1
  if k.component = want ∧ loadOk k ∧ k.payloadBytes ≤ size then (k.loadAddress, k.payloadBytes)
  else (if want = 0xF0 then 0x70000 else 0, min k.payloadBytes size)

/-! Writes to FC SRAM. -/

/-- The code region of the FC runtime, closed to writes by the BL1 lock (R285): from its first byte up to the end. -/
def State.codeRegion (s : State) : Option (Nat × Nat) :=
  if s.boot.bl1Lock then s.boot.fcImage.map fun k => ((k.place 0).1, (k.place 0).1 + (k.place 0).2) else none

/-- A byte of FC SRAM takes a write of the FC core or of an engine: not in the closed code region (R285), nor in the health ring,
which only the health unit writes (R381). -/
def State.sramTakes (s : State) (a : Nat) : Bool :=
  !(decide (0x60000 ≤ a) && decide (a < 0x70000)) && match s.codeRegion with
    | none => true
    | some (lo, hi) => !(decide (lo ≤ a) && decide (a < hi))

/-- A write to FC SRAM: bytes that take none are refused. -/
def State.sramWrite (s : State) (addr : Nat) (b : Bytes) : State :=
  { s with fcSram := (b.mapIdx fun i x => (addr + i, x)).foldl (fun (m : Tab Byte) (x : Nat × Byte) =>
      if s.sramTakes x.1 then Tab.set 0 m x.1 x.2 else m) s.fcSram }

/-- The FC core may fetch an instruction in the boot ROM, at no address after the ROM lock (R284), or at an address of FC SRAM: not in
BL1's load region after its lock (R285). -/
def State.mayFetch (s : State) (rom : Bool) (addr : Nat) : Bool :=
  if rom then !s.boot.romLock else !(s.boot.bl1Lock && decide (0x70000 ≤ addr) && decide (addr < 0x80000))

end Sys2Proof.Machine
end

