-- ==== Sys2Proof/Machine/DigestCore.lean ====
section
/-! DEFINITION. Key descriptors (R319) and the contexts of the digest engine (R326 to R330, R333). -/

namespace Sys2Proof.Machine

/-! Descriptors (R319). -/

def attrKind (a : Word) : Nat := Bits.get a.toNat 0 4

/-- A descriptor: kind, worlds, users, states, debug_ok, source, fixed. -/
def attrOf (kind worlds users states : Nat) (debug : Bool) (source : Nat) (fixed : Bool) : Word :=
  BitVec.ofNat 64 (kind + worlds * 2 ^ 4 + users * 2 ^ 8 + states * 2 ^ 16 + (if debug then 2 ^ 23 else 0) + source * 2 ^ 32
    + (if fixed then 2 ^ 34 else 0))

/-- A key as the bits of a slot, and its bytes. -/
def keyBits (b : Bytes) : BitVec 512 := BitVec.ofNat 512 (Bytes.toNat b)
def keyBytes (k : BitVec 512) (n : Nat) : Bytes := Bytes.ofNat n k.toNat

/-- n bytes from an offset are zero. -/
def allZero (b : Bytes) (o n : Nat) : Bool := (Bytes.slice b o n).all fun x => x == 0

/-- Block length and full output length of a function (R326, R333); an extendable output has no full length. -/
def deBlockLen (f : Nat) : Nat := [64, 128, 128, 136, 104, 72, 168, 136].getD f 64
def deOutLen (f : Nat) : Nat := [32, 48, 64, 32, 48, 64, 0, 0].getD f 0

/-- The padding of FIPS 180-4 for a message of n bytes, and of FIPS 202 with the function's suffix (R328). -/
def dePad (f n : Nat) : Bytes :=
  let b := deBlockLen f
  if f ≤ 2 then
    let l := if f = 0 then 8 else 16
    [0x80] ++ List.replicate ((2 * b - (n + 1 + l) % b) % b) 0 ++ (Bytes.ofNat l (8 * n)).reverse
  else
    let k := b - n % b
    let suffix : Byte := if 6 ≤ f then 0x1F else 0x06
    if k = 1 then [suffix ||| 0x80] else [suffix] ++ List.replicate (k - 2) 0 ++ [0x80]

/-- Absorb whole blocks. -/
def deAbsorb (f : Nat) (chain : Bytes) (b : Bytes) : Bytes :=
  (Bytes.chunks (deBlockLen f) b.length b).foldl (fun c x => Config.deBlock f c x) chain

/-- The digest of a whole message, padded in hardware. -/
def deDigest (f : Nat) (b : Bytes) : Bytes :=
  Config.deOutput f (deAbsorb f (Config.deInit f) (b ++ dePad f b.length)) (deOutLen f)

/-- K0 of FIPS 198-1. -/
def hmacKey (f : Nat) (key : Bytes) : Bytes :=
  let b := deBlockLen f
  Bytes.slice (if b < key.length then deDigest f key else key) 0 b

/-! Fields of DE_CTXn_CTRL (R333). -/

def ctrlFunc (c : Word) : Nat := Bits.get c.toNat 0 4
def ctrlHmac (c : Word) : Bool := c.getLsbD 4
def ctrlKreg (c : Word) : Bool := c.getLsbD 5
def ctrlSecretMsg (c : Word) : Bool := c.getLsbD 6
def ctrlDest (c : Word) : Nat := Bits.get c.toNat 8 2
def ctrlOut (c : Word) : Nat := Bits.get c.toNat 16 8
def ctrlAddr (c : Word) : Nat := Bits.get c.toNat 32 19

/-- The bits of DE_CTXn_CTRL that hold a value. -/
def ctrlKept (c : Word) : Word := c &&& 0x0007_FFFF_00FF_037F

def State.ctx (s : State) (n : Nat) : DeCtx := Tab.get {} s.de n
def State.onCtx (s : State) (n : Nat) (f : DeCtx → DeCtx) : State := { s with de := Tab.upd {} s.de n f }

/-- The core of a context (R327). -/
def State.deCore (s : State) (n f : Nat) : Nat :=
  let bound (k : Nat) : Nat := (s.de.filter fun e => e.1 != n && e.2.state != .free && e.2.core == k).length
  if f = 0 then 0 else if f ≤ 2 then (if bound 2 < bound 1 then 2 else 1) else 3

/-- The descriptor of a result in KREG whose key was public (R330). -/
def publicAttr : Word := attrOf 0 1 0x0F 0x7F false 1 false

/-- The result may go where dest says (R330). -/
def destOk (ctrl : Word) (isSecret : Bool) (keyKind : Nat) : Bool :=
  let n := ctrlOut ctrl
  match ctrlDest ctrl with
  | 0 => !isSecret || keyKind == 3
  | 1 => true
  | 2 => n == 32 || n == 48
  | _ => false

/-- A result of the context that waits for KREG is given up, and so is an opening: the context is freed or opened again. -/
def State.dropLoads (s : State) (n : Nat) : State :=
  { s with keys := { s.keys with kregWaiting := s.keys.kregWaiting.filter fun l => l.cx != some n && l.opens.all fun x => x.1 != n } }

/-- The context that goes with a region of the public-key engine: CX6 or CX7, on core K1 (R327). -/
def regionCtx (region : Nat) : Nat := 6 + region

/-- A context ends in ERROR. -/
def State.deError (s : State) (n code : Nat) (ctrl : Word) : State :=
  let old := s.ctx n
  s.onCtx n fun _ => { reg := ctrl, ctrl := ctrl, state := .error, error := BitVec.ofNat 8 code, expect := old.expect }

/-- The context is open: an HMAC context has absorbed K0 XOR ipad and holds the state after K0 XOR opad (R329). A message of the key
manager's buffer is absorbed at once, up to its last whole block. -/
def State.deOpened (s : State) (n : Nat) (ctrl : Word) (key : Option Bytes) (attr : Word) (slot : Option (Fin 64)) : State :=
  let f := ctrlFunc ctrl
  let old := s.ctx n
  let mixed (k : Bytes) (p : Byte) : Bytes := Config.deBlock f (Config.deInit f) ((hmacKey f k).map fun b => b ^^^ p)
  let start := match key with
    | some k => mixed k 0x36
    | none => Config.deInit f
  let msg := if ctrlSecretMsg ctrl then s.keys.kmInput else []
  let whole := msg.length / deBlockLen f * deBlockLen f
  let c : DeCtx := {
    reg := ctrl, ctrl := ctrl, state := .opened, isMatch := false, matchN := false
    secret := (ctrlHmac ctrl && ctrlKreg ctrl) || ctrlSecretMsg ctrl
    chain := deAbsorb f start (msg.take whole)
    outer := match key with
      | some k => mixed k 0x5C
      | none => []
    buf := msg.drop whole, bytes := BitVec.ofNat 48 msg.length
    keyAttr := attr, keySlot := slot, core := s.deCore n f, expect := old.expect }
  s.onCtx n fun _ => c

/-- An opening whose key KREG holds (R329, R330). -/
def State.deOpenKeyed (s : State) (n : Nat) (ctrl : Word) (l : KregLoad) : State :=
  if !destOk ctrl true (attrKind l.attr) then s.deError n 2 ctrl
  else s.deOpened n ctrl (some (keyBytes l.key l.bytes)) l.attr l.slot

end Sys2Proof.Machine
end

