-- ==== Sys2Proof/Machine/Kreg.lean ====
section
/-! DEFINITION. The key slots and their uses (R316, R318 to R320), and KREG (R321). -/

namespace Sys2Proof.Machine

/-! KREG (R321). -/

/-- KREG takes a load; a context whose result it is, and that still waits in FINAL, is DONE. -/
def State.takeKreg (s : State) (l : KregLoad) : State :=
  let s := { s with keys := { s.keys with kreg := some l, kregAt := s.now } }
  match l.cx with
  | some c => s.onCtx c fun x => if x.state == .finals then { x with state := .done } else x
  | none => s

/-- The number of a load's source slot in KM_KREG_STATUS: 0x3F for the PKE or DE path. -/
def KregLoad.slotCode (l : KregLoad) : Nat := match l.slot with
  | some n => n.val
  | none => 0x3F

/-- Every key is locked (R281, R314, R320). -/
def State.keysLocked (s : State) : Bool := s.boot.unverified || s.lc.identityFault

/-- The health unit logs a refused use (R320). -/
def State.logRefusedUse (s : State) (slot : Nat) : State := s.report { event := 0x0202, unitKind := 9, location := slot }

/-- The length in bytes of a key of a kind. -/
def kindBytes (k : Nat) : Nat := if k = 3 ∨ k = 4 then 48 else if k = 7 then 64 else 32

/-- A use by a unit of the FC world is refused (R320): `user` is the unit's bit. The VI in a master identifier of the FC world is 0
(R232). -/
def State.useRefused (s : State) (a : Word) (user : Nat) : Bool :=
  let v := a.toNat
  attrKind a == 0 || !Bits.bit v 4 || !Bits.bit v (8 + user) || !Bits.bit v (16 + s.lc.state)
    || (!Bits.bit v 23 && s.lc.openScopes != 0) || (Bits.bit v 25 && Bits.get v 26 6 != 0) || s.keysLocked

/-! Slots: two shares, r and key XOR r (R316). -/

def State.slot (s : State) (n : Nat) : KeySlot := Tab.get {} s.keys.slots n

def State.onKeySlot (s : State) (n : Nat) (f : KeySlot → KeySlot) : State :=
  { s with keys := { s.keys with slots := Tab.upd {} s.keys.slots n f } }

def KeySlot.key (k : KeySlot) : BitVec 512 := k.share0 ^^^ k.share1

/-- Write a key: r is drawn at every write. -/
def State.writeSlot (s : State) (n : Nat) (b : Bytes) (f : Word → Word) : State :=
  let (r, s) := s.draw
  s.onKeySlot n fun k => { attr := f k.attr, share0 := r, share1 := keyBits b ^^^ r }

/-- A use of a slot: r is drawn anew at every 1,024 uses, as soon as the DRBG serves. -/
def State.useSlot (s : State) (n : Nat) : State :=
  let k := s.slot n
  if 1023 ≤ k.uses && !s.drbgBlocked then
    let (r, s) := s.draw
    s.onKeySlot n fun k => { k with share0 := r, share1 := k.key ^^^ r, uses := 0 }
  else s.onKeySlot n fun k => { k with uses := k.uses + 1 }

/-- The alias keys, KS4 and KS5, are refused to the public-key engine, which signs with them (R318, R320). -/
def State.aliasRefused (s : State) : Bool := s.useRefused (s.slot 4).attr 1 || s.useRefused (s.slot 5).attr 1

/-- A signature with both alias keys uses both slots (R316). -/
def State.useAlias (s : State) : State := (s.useSlot 4).useSlot 5

/-! Loads. -/

/-- A load waits until KREG is empty. KREG takes none while every key is locked (R281). -/
def State.loadKreg (s : State) (l : KregLoad) : State :=
  if s.keysLocked then s.logRefusedUse l.slotCode
  else if s.keys.kreg.isSome then
    { s with keys := { s.keys with kregWaiting := s.keys.kregWaiting ++ [l], kregWaits := s.keys.kregWaits + 1 } }
  else s.takeKreg l

/-- The loads that wait, oldest first, take place: one for an opening hands its key over, and KREG is empty again (R329). -/
def State.nextLoad : List KregLoad → State → State
  | [], s => { s with keys := { s.keys with kreg := none, kregWaiting := [] } }
  | l :: r, s =>
    match l.opens with
    | some x => State.nextLoad r (s.deOpenKeyed x.1 x.2 l)
    | none => State.takeKreg { s with keys := { s.keys with kregWaiting := r } } l

/-- KREG is emptied by overwrite, and the oldest load that waits takes place. -/
def State.emptyKreg (s : State) : State := s.nextLoad s.keys.kregWaiting

/-- KREG and what waits for it are emptied: at a crash and in every zeroisation. -/
def State.wipeKreg (s : State) : State := { s with keys := { s.keys with kreg := none, kregWaiting := [], kmInput := [] } }

end Sys2Proof.Machine
end

