-- ==== Sys2Proof/Machine/Claims.lean ====
section
/-! DEFINITION. The claims of the evidence token and their digest (R351 to R356), and the fuse fields they quote. -/

namespace Sys2Proof.Machine

/-- The device serial (R306, R492). -/
def State.serial (s : State) : Bytes := s.fuseBytes 48 4

/-- Bits set in a word. -/
def popCount (n : Nat) (v : Nat) : Nat := ((List.range n).filter fun i => Bits.bit v i).length

/-- The value of an anti-rollback counter: the bits blown of its 255 (R279). -/
def State.counterValue (s : State) (n : Nat) : Nat :=
  ((List.range 8).map fun i => popCount (if i = 7 then 31 else 32) (s.fuse (256 + 8 * n + i)).toNat).sum

/-- The four counter values as bytes (R317, R352). -/
def State.counterBytes (s : State) : Bytes := (List.range 4).map fun n => BitVec.ofNat 8 (s.counterValue n)

/-- A fraction code of a stream or a model: that of a list that INTEGRITY_SET has set, else the plan's, raised to the VI's
lowest (R122, R175, R494). -/
def State.fractionIn (s : State) (fr : List (Nat × Bool × Nat)) (w target : Nat) (isModel : Bool) : Nat :=
  let vp := s.plan w
  let base :=
    match fr.find? fun f => f.1 == target && f.2.1 == isModel with
    | some f => f.2.2
    | none =>
      match vp.running with
      | some p =>
        (match p.integrity.find? fun e => e.target == target && e.isModel == isModel with
        | some e => e.fraction
        | none => 0)
      | none => 0
  if w < 64 && base ≠ 0 then max base (polFracMin (s.policyOf w)) else base

/-- The committed fraction code of a stream or a model. -/
def State.fractionOf (s : State) (w target : Nat) (isModel : Bool) : Nat := s.fractionIn (s.plan w).fractions w target isModel

/-- The session that a logical session of a window's plan is bound to, until the session leaves KEYED (R251). -/
def State.lsessOf (s : State) (w l : Nat) : Option Nat :=
  match Tab.get 0 (s.plan w).lsess l with
  | 0 => none
  | n + 1 => if (s.session n).state == .keyed then some n else none

/-- The window a session belongs to: its VI, or the operator window. -/
def Session.window (x : Session) : Nat := if x.operator then 64 else x.vi

/-- The committed fractions of a session's streams and models (R353). -/
def State.sessFractions (s : State) (sc : Nat) : List Nat :=
  let w := (s.session sc).window
  let ss := s.streams.filterMap fun e =>
    if e.2.bound && e.2.session == sc then some (s.fractionOf e.2.win e.1 false) else none
  match (s.plan w).running with
  | none => ss
  | some p => ss ++ (p.models.mapIdx fun i m => (i, m)).filterMap fun x =>
      if s.lsessOf w x.2.lsess = some sc then some (s.fractionOf w x.1 true) else none

def SessState.code : SessState → Nat
  | .free => 0 | .opened => 1 | .keyed => 2 | .closing => 3 | .faulted => 4

def DtState.code : DtState → Nat
  | .free => 0 | .locked => 1 | .holdover => 2

def IntegState.code : IntegState → Nat
  | .inService => 0 | .suspect => 1 | .probation => 2 | .retired => 3 | .off => 4

def FmState.code : FmState → Nat
  | .off => 0 | .training => 1 | .attesting => 2 | .syncing => 3 | .joined => 4 | .linkDown => 5 | .partnerLost => 6

/-- Every region made for a WEIGHT entry and bound to the session is MEASURED (R353); a WEIGHT entry with no
such region reads 0 (log entry 12). -/
def State.weightMeasured (s : State) (w sc i : Nat) : Bool :=
  let vp := s.plan w
  match vp.running with
  | none => false
  | some p =>
    let rs := ((p.placements.zip vp.regions).filter fun x => !x.1.scratch && x.1.weight == i).map fun x =>
      Tab.get {} (s.arcade x.2.1).regions x.2.2
    let mine := rs.filter fun r => r.world != 0 && r.session == sc
    !mine.isEmpty && mine.all fun r => r.state == .measured

/-- A mask of sixteen bits. -/
def mask16 (f : Nat → Bool) : Nat := ((List.range 16).map fun i => if f i then 2 ^ i else 0).sum

/-- Bytes 96 to 607: the static block claims (R352). -/
def State.blockStatic (s : State) : Bytes :=
  s.serial ++ [BitVec.ofNat 8 s.lc.state, BitVec.ofNat 8 s.keys.rootCode, s.lc.openScopes.setWidth 8,
    BitVec.ofNat 8 ((if s.boot.unverified then 1 else 0) + (if s.boot.bl1Fallback then 2 else 0)
      + (if s.boot.fcFallback then 4 else 0) + (if s.boot.serial then 8 else 0) + (if s.boot.recovery then 16 else 0)
      + (if s.lc.fleet then 32 else 0))]
    ++ s.counterBytes ++ List.replicate 8 0
    ++ ((List.range 8).map fun n => Bytes.big (Tab.get 0 s.boot.mr n)).flatten
    ++ Bytes.big (identityDigest s.keys.prkDev s.lc.state)
    ++ (if s.keys.prkFleet.isEmpty then List.replicate 48 0 else Bytes.big (identityDigest s.keys.prkFleet fleetLc))

/-- Bytes 608 to 703: the rest of the block claims; a tenant's token hides the retired units (R352, R356). -/
def State.blockDynamic (s : State) (tenant : Bool) : Bytes :=
  let joined := s.fm.state == .joined
  Bytes.ofNat 4 s.health.fcCrashes
    ++ (List.range 4).map (fun q => BitVec.ofNat 8 (min 255 (s.qcOf q).crashes))
    ++ [BitVec.ofNat 8 ((if s.degradedNow then 1 else 0) + (if s.trng.state == .ok then 0 else 2)
          + (if joined then 4 else 0) + (if s.fm.lostPartner then 8 else 0)),
        BitVec.ofNat 8 s.fm.mode, BitVec.ofNat 8 s.ptu.dtState.code, 0]
    ++ Bytes.ofNat 2 (if tenant then 0 else mask16 fun a => (s.arcade a).integ == .retired)
    ++ Bytes.ofNat 2 (if tenant then 0 else mask16 fun a => (s.segment a).state == .retired)
    ++ Bytes.ofNat 8 s.boot.runtimeEvents ++ List.replicate 24 0
    ++ Bytes.slice (if joined then s.fm.partnerDigest else []) 0 48

/-- Bytes 704 to 1,023: the static session claims (R353). -/
def State.sessionStatic (s : State) (sc : Nat) : Bytes :=
  let x := s.session sc
  let w := x.window
  let fs := s.sessFractions sc
  let p := (s.plan w).running
  Bytes.ofNat 2 sc
    ++ [BitVec.ofNat 8 x.vi, if x.operator then 1 else 2, if x.conf then 1 else 0, BitVec.ofNat 8 x.state.code,
        BitVec.ofNat 8 (fs.foldl min (fs.headD 0)), BitVec.ofNat 8 (fs.foldl max 0)]
    ++ Bytes.ofNat 2 x.keyxGen.toNat ++ Bytes.ofNat 2 x.planGen.toNat ++ List.replicate 4 0
    ++ (match p with
      | some p => Bytes.big p.measurement ++ Bytes.big p.author
      | none => List.replicate 96 0)
    ++ (List.range 128).map (fun b => BitVec.ofNat 8 (((List.range 8).map fun i =>
        if s.weightMeasured w sc (8 * b + i) then 2 ^ i else 0).sum))
    ++ Bytes.big (Config.sha384 (if x.operator then [] else Bytes.ofNat 8 (s.policyOf x.vi)))
    ++ List.replicate 32 0

/-- Bytes 1,024 to 1,087: the rest of the session claims (R353). -/
def State.sessionDynamic (s : State) (sc : Nat) : Bytes :=
  let x := s.session sc
  Bytes.ofNat 8 x.rseqNext.toNat ++ Bytes.ofNat 8 (Tab.get 0 x.perf 8) ++ Bytes.ofNat 8 (Tab.get 0 x.perf 9)
    ++ Bytes.ofNat 8 (Tab.get 0 x.perf 10) ++ Bytes.ofNat 8 x.intErrors ++ Bytes.ofNat 8 x.ckptNo
    ++ List.replicate 16 0

/-- The claims digests (R354). -/
def State.blockDigest (s : State) : BitVec 384 := Config.sha384 s.blockStatic
def State.sessionDigest (s : State) (sc : Nat) : BitVec 384 := Config.sha384 (s.blockStatic ++ s.sessionStatic sc)

/-- The length of a token (R351). -/
def tokenBytes (sess : Option Nat) : Nat := if sess.isSome then 4544 else 4160

/-- An evidence token up to its claims digest (R351 to R354): its kind, its audience code, the requester's window and the nonce. -/
def State.tokenClaims (s : State) (sess : Option Nat) (audience vi : Nat) (nonce : Bytes) : Bytes :=
  let head := Bytes.ofNat 4 0x4B455654 ++ Bytes.ofNat 2 0x0200
    ++ [if sess.isSome then 1 else 0, BitVec.ofNat 8 audience] ++ Bytes.ofNat 4 (tokenBytes sess)
    ++ Bytes.ofNat 2 (sess.getD 0xFFFF) ++ [BitVec.ofNat 8 vi, 0] ++ Bytes.big s.boot.bootId
    ++ Bytes.ofNat 8 s.now ++ List.replicate 24 0 ++ Bytes.slice nonce 0 32
  let claims := s.blockStatic ++ s.blockDynamic (audience == 1) ++ (match sess with
    | none => []
    | some sc => s.sessionStatic sc ++ s.sessionDynamic sc)
  let cd := match sess with
    | none => s.blockDigest
    | some sc => s.sessionDigest sc
  head ++ claims ++ Bytes.big cd

/-- The token with both signatures (R354); 32 bytes of randomness hedge the second. -/
def State.signToken (s : State) (sess : Option Nat) (body rnd : Bytes) : Bytes :=
  let sg := signBoth s.keys.cdiA s.lc.state (Bytes.big (Config.sha384 body)) rnd
  Bytes.slice (body ++ Bytes.slice sg.1 0 96 ++ Bytes.slice sg.2 0 3309) 0 (tokenBytes sess)

/-- The claims of a request are taken, unless its session has left OPEN and KEYED (R355). -/
def State.takeClaim (s : State) (q : ClaimReq) : ClaimReq :=
  let here : Bool := match q.sess with
    | none => true
    | some sc => (s.session sc).state == .opened || (s.session sc).state == .keyed
  if here then { q with token := some (s.tokenClaims q.sess q.audience (if q.win = 64 then 0 else q.win) q.nonce) } else { q with left := true }

/-- The claims that a dispatch tick takes as it ends, after its firings, extensions and commits (R348, R355): those of the requests that
the Forecourt began before it. -/
def State.takeClaims (s : State) : State :=
  { s with rb := { s.rb with claims := s.rb.claims.map fun (q : ClaimReq) =>
      if s.ptu.dispatch && q.token.isNone && !q.left && decide (q.begun < s.ptu.tick) then s.takeClaim q else q } }

end Sys2Proof.Machine
end

