-- ==== Sys2Proof/Machine/Link.lean ====
section
/-! DEFINITION. The sending side of the Fumas link: flits, credits, the replay buffer and messages (R426 to R428). -/

namespace Sys2Proof.Machine

/-- Channels of R426. -/
def chanCtrl : Nat := 0
def chanCmp : Nat := 1
def chanBulk : Nat := 2

/-- The bytes of a flit (R426): `ret` are the credits returned for channel `retChan`. -/
def flitBytes (kind chan retChan ret seq ack : Nat) (frag : Byte) (payload : Bytes) : Bytes :=
  let b := [BitVec.ofNat 8 kind, BitVec.ofNat 8 (chan + 4 * retChan + 16 * ret)] ++ Bytes.ofNat 2 seq
    ++ Bytes.ofNat 2 ack ++ [frag, 0] ++ Bytes.slice payload 0 52
  b ++ Bytes.ofNat 4 (crc32 b).toNat

/-- The channel whose credits go back next, and how many, at most 15 (R426, R427). -/
def Fumas.owing (f : Fumas) : Nat × Nat :=
  match (List.range 3).find? fun c => Tab.get 0 f.owed c != 0 with
  | some c => (c, min 15 (Tab.get 0 f.owed c))
  | none => (0, 0)

/-- The credits of a channel: each receiver buffers 64 flits per channel (R427). -/
def Fumas.credit (f : Fumas) (c : Nat) : Nat := Tab.get 64 f.credits c

/-- The fragment that is sent next (R427): CTRL before CMP before BULK, but a BULK flit at least every sixteenth. -/
def Fumas.next (f : Fumas) : Option Fragment :=
  let head (c : Nat) : Option Fragment := if f.credit c = 0 then none else f.waiting.find? fun x => x.chan == c
  let order := if 15 ≤ f.sinceBulk then [2, 0, 1] else [0, 1, 2]
  (order.filterMap head).head?

/-- Flit numbers wrap: `a` comes after `b`. -/
def seqAfter (a b : BitVec 16) : Bool := decide (0 < (a - b).toNat) && decide ((a - b).toNat < 32768)

/-- Send one flit that takes a sequence number: it enters the replay buffer (R427). -/
def State.sendFlit (s : State) (kind chan : Nat) (frag : Byte) (payload : Bytes) : State :=
  let f := s.fm
  let (rc, n) := f.owing
  let b := flitBytes kind chan rc n f.txSeq.toNat f.rxSeq.toNat frag payload
  State.emit { s with fm := { f with
    txSeq := f.txSeq + 1, sentAt := s.now
    replay := f.replay ++ [{ seq := f.txSeq, bytes := b }]
    owed := Tab.set 0 f.owed rc (Tab.get 0 f.owed rc - n) } } (.flit b)

/-- Send the waiting fragments for which there is credit and room in the replay buffer of 256 flits (R427). The first
argument bounds their number. -/
def State.pumpLink : Nat → State → State
  | 0, s => s
  | n + 1, s =>
    let f := s.fm
    if 256 ≤ f.replay.length then s
    else
      match f.next with
      | none => s
      | some x =>
        let f := { f with
          waiting := f.waiting.erase x
          credits := Tab.set 64 f.credits x.chan (f.credit x.chan - 1)
          sinceBulk := if x.chan = 2 then 0 else f.sinceBulk + 1 }
        State.pumpLink n (State.sendFlit { s with fm := f } 0x01 x.chan x.frag x.payload)

/-- The fragments of a message (R426). -/
def fragments (chan : Nat) (msg : Bytes) : List Fragment :=
  let cs := Bytes.chunks 52 msg.length msg
  cs.mapIdx fun i b => { chan := chan, payload := b
                         frag := BitVec.ofNat 8 ((if i = 0 then 1 else 0) + (if i + 1 = cs.length then 2 else 0)
                           + 4 * (b.length - 1)) }

/-- The head of a message (R428). -/
def messageHead (type length : Nat) (counter : BitVec 64) : Bytes :=
  Bytes.ofNat 2 type ++ [0, 0] ++ Bytes.ofNat 4 length ++ Bytes.ofNat 8 counter.toNat

/-- The link carries messages: it is being joined or is joined (R430). -/
def Fumas.linked (f : Fumas) : Bool :=
  f.state == .training || f.state == .attesting || f.state == .syncing || f.state == .joined

/-- Send a message: encrypted under the sender's key once there is one, in clear before (R428). -/
def State.sendMessage (s : State) (type chan : Nat) (body : Bytes) : State :=
  if !s.fm.linked then s
  else
    let counter := s.fm.txCounter + 1
    let head := messageHead type body.length counter
    let msg := match s.fm.txKey with
      | some k =>
        let (c, t) := gcmSeal k (gcmNonce 5 0 counter.toNat) head body
        head ++ c ++ t
      | none => head ++ body ++ List.replicate 16 0
    let fs := fragments chan msg
    State.pumpLink (s.fm.waiting.length + fs.length)
      { s with fm := { s.fm with txCounter := counter, waiting := s.fm.waiting ++ fs } }

/-- The block is joined in mode 1 or 2 (R421). -/
def State.joined (s : State) : Bool :=
  s.fm.state == .joined && (s.fm.mode == 1 || s.fm.mode == 2)

/-- The sessions of the pair are mirrored: while joined, and while step 5 of a join synchronises them (R430). -/
def State.paired (s : State) : Bool := s.joined || (s.fm.state == .syncing && (s.fm.mode == 1 || s.fm.mode == 2))

/-- The link after a leave, a loss or a join that failed: nothing of the pair stays but the registers that report (R431,
R432, R441). -/
def Fumas.unjoined (f : Fumas) (st : FmState) : Fumas :=
  { state := st, pairVi := f.pairVi, lastDetail := f.lastDetail, unpaired := f.unpaired
    nakFlag := f.nakFlag, linkDownFlag := f.linkDownFlag, lostFlag := f.lostFlag, authFlag := f.authFlag
    aliveFlag := f.aliveFlag, nakCnt := f.nakCnt, linkDownCnt := f.linkDownCnt, lostCnt := f.lostCnt
    authCnt := f.authCnt, aliveCnt := f.aliveCnt, lostPartner := f.lostPartner }

/-- PD36 goes down, and the link with it. -/
def State.linkOff (s : State) (st : FmState) : State :=
  { s with fm := s.fm.unjoined st, pm := { s.pm with domains := s.pm.domains &&& ~~~(BitVec.ofNat 38 (2 ^ 36)) } }

/-- Sessions of a VI are pair sessions (R421, R441). -/
def State.pairVi (s : State) (vi : Nat) : Bool := decide (vi < 64) && s.fm.pairVi.getLsbD vi

/-- This block is the home of a pair session, or its standby (R422). -/
def State.isHome (s : State) (sc : Nat) : Bool := s.paired && (s.session sc).pair == .home
def State.isStandby (s : State) (sc : Nat) : Bool := s.paired && (s.session sc).pair == .standby

/-- A session checked in lockstep (R421, R437). -/
def State.lockstep (s : State) (sc : Nat) : Bool := s.joined && s.fm.mode == 2 && (s.session sc).pair != .unpaired

/-- Messages of R428 about a pair session; the end of a session is told by either block (R424). -/
def State.sendCtx (s : State) (sc : Nat) : State :=
  if s.paired && (s.session sc).pair != .unpaired then
    let x := s.session sc
    s.sendMessage 0x0002 chanCtrl (Bytes.ofNat 2 sc ++ [BitVec.ofNat 8 x.state.code, if x.conf then 1 else 0,
      BitVec.ofNat 8 x.vi] ++ Bytes.ofNat 2 x.keyxGen.toNat)
  else s

/-- RESV: the origin is the stream, or 0xFFFF for the record of a job (log entry 29). -/
def State.sendResv (s : State) (sc origin seq rseq : Nat) : State :=
  if s.isHome sc then
    s.sendMessage 0x0004 chanCtrl (Bytes.ofNat 2 sc ++ Bytes.ofNat 2 origin ++ Bytes.ofNat 8 seq ++ Bytes.ofNat 8 rseq)
  else s

def State.sendFold (s : State) (sc rseq : Nat) (tag : BitVec 128) (time : Nat) (void : Bool) : State :=
  if s.isHome sc then
    s.sendMessage 0x0005 chanCtrl (Bytes.ofNat 2 sc ++ Bytes.ofNat 8 rseq ++ Bytes.big tag ++ Bytes.ofNat 8 time
      ++ [if void then 1 else 0])
  else s

def State.sendCut (s : State) (sc ckptNo rseqHigh : Nat) : State :=
  if s.isHome sc then
    s.sendMessage 0x000A chanCtrl (Bytes.ofNat 2 sc ++ Bytes.ofNat 8 ckptNo ++ Bytes.ofNat 8 rseqHigh)
  else s

def State.sendCmp (s : State) (cs seq : Nat) (payload : Bytes) (flags : BitVec 3) (sigs : List (BitVec 128))
    (phase time hdr : Nat) : State :=
  s.sendMessage 0x0006 chanCmp ([BitVec.ofNat 8 cs] ++ Bytes.ofNat 8 seq ++ Bytes.ofNat 2 payload.length ++ payload
    ++ [BitVec.ofNat 8 flags.toNat] ++ Bytes.ofNat 2 sigs.length ++ (sigs.map Bytes.big).flatten
    ++ Bytes.ofNat 8 phase ++ Bytes.ofNat 8 time ++ [BitVec.ofNat 8 hdr])

def State.sendSig (s : State) (sc inst : Nat) (sig : BitVec 128) : State :=
  s.sendMessage 0x0007 chanCmp (Bytes.ofNat 2 sc ++ Bytes.ofNat 8 inst ++ Bytes.big sig)

def State.sendPartMsg (s : State) (rdesc part : Nat) (rows : List Bytes) (digest : BitVec 128) : State :=
  s.sendMessage 0x0008 chanBulk (Bytes.ofNat 2 rdesc ++ [BitVec.ofNat 8 part, BitVec.ofNat 8 rows.length]
    ++ rows.flatten ++ Bytes.big digest)

/-- STATE: each line with whether it is poisoned (R100; log entry 31). -/
def State.sendStateLines (s : State) (sc buffer : Nat) (lines : List (Bytes × Bool)) : State :=
  s.sendMessage 0x0009 chanBulk (Bytes.ofNat 2 sc ++ Bytes.ofNat 2 buffer ++ (lines.map fun x => x.1 ++ [if x.2 then 1 else 0]).flatten)

def State.sendNotice (s : State) (code : Nat) : State := s.sendMessage 0x0001 chanCtrl [BitVec.ofNat 8 code]

end Sys2Proof.Machine
end

