-- ==== Sys2Proof/Machine/Chain.lean ====
section
/-! DEFINITION. The receipt chain of a session: reserved rseqs, folds, voids and checkpoint cuts (R219 to R225). -/

namespace Sys2Proof.Machine

/-- A performance counter of a session advances (R488). -/
def State.perf (s : State) (sc n k : Nat) : State :=
  s.onSess sc fun x => { x with perf := Tab.upd 0 x.perf n fun v => (v + k) % 2 ^ 64 }

/-- The keystream of an SKA entry (R316): two blocks under the mask key, the counter the entry's index and its plant count (the
places of both in the counter block: log entry 98). -/
def Keys.mask (k : Keys) (sc plants : Nat) : BitVec 256 :=
  let block (i : Nat) : BitVec 128 := Config.aes256 k.maskKey (BitVec.ofNat 128 (sc * 2 ^ 64 + plants * 2 + i))
  block 0 ++ block 1

/-- Plant a key in an SKA entry, masked (R208, R316). -/
def Keys.plant (k : Keys) (sc : Nat) (v : BitVec 256) : Keys :=
  let n := (Tab.get {} k.ska sc).plants + 1
  { k with ska := Tab.set {} k.ska sc { key := some (v ^^^ k.mask sc n), plants := n } }

/-- The key of the SKA entry of a session (R208). -/
def State.sessionKey (s : State) (sc : Nat) : Option (BitVec 256) :=
  let e := Tab.get {} s.keys.ska sc
  e.key.map fun v => v ^^^ s.keys.mask sc e.plants

/-- The old key of a session that an rseq was reserved under (R210). -/
def oldKeyOf (ks : List (BitVec 256 × Nat)) (rseq : Nat) : Option (BitVec 256 × Nat) := ks.find? fun k => decide (rseq < k.2)

/-- The key a record's rseq was reserved under (R210). -/
def State.keyFor (s : State) (sc rseq : Nat) : Option (BitVec 256) :=
  match oldKeyOf (s.session sc).oldKeys rseq with
  | some k => some k.1
  | none => s.sessionKey sc

/-- Reserve the session's next rseq (R219). -/
def State.reserve (s : State) (sc : Nat) : Nat × State :=
  ((s.session sc).rseqNext.toNat, s.onSess sc fun x => { x with rseqNext := x.rseqNext + 1 })

/-- checkpoint_every of the streams and models of a session (R123, R222). -/
def State.checkpointEvery (s : State) (sc : Nat) : List Nat :=
  let w := (s.session sc).window
  match (s.plan w).running with
  | none => []
  | some p => p.receipts.filterMap fun r =>
      let mine := if r.isModel then
          (match p.models[r.target]? with
          | some m => s.lsessOf w m.lsess = some sc
          | none => false)
        else (s.stream r.target).bound && (s.stream r.target).session == sc
      if mine && r.every ≠ 0 then some r.every else none

/-- The rseqs reserved and neither released nor voided (R210, R224). -/
def State.inFlightRseqs (s : State) (sc : Nat) : List Nat :=
  (s.streams.map fun e => if e.2.session == sc then (e.2.slots.filter fun x => !x.left).map (·.rseq) else []).flatten
    ++ (s.jobs.map fun e => if e.2.active && e.2.session == sc then e.2.ready.map (·.rseq) else []).flatten

/-- An old key is cleared when every rseq reserved under it is settled (R210), the last one not in the epoch whose boundary planted
the new one, in which frames that began before the boundary still end (log entry 98). -/
def State.settleKeys (s : State) (sc : Nat) : State :=
  let ks := (s.session sc).oldKeys
  let open0 := s.inFlightRseqs sc
  let fresh := decide (s.epoch ≤ (s.session sc).plantEpoch)
  s.onSess sc fun x => { x with oldKeys := ks.filter fun k =>
    (open0.any fun r => oldKeyOf ks r == some k) || (fresh && ks.getLast? == some k) }

def CutKind.code : CutKind → Nat
  | .command => 1 | .auto => 2 | .plans => 3 | .rekey => 4 | .close => 5 | .abort => 6 | .failover => 7

/-- Kinds whose cut goes ahead of other deferred cuts (R222), and which list their voids as R224 lays down. -/
def CutKind.final : CutKind → Bool
  | .close | .abort | .failover => true
  | _ => false

/-- Insert a void range in ascending order of its first rseq. -/
def insertVoid (v : Nat × Nat) : List (Nat × Nat) → List (Nat × Nat)
  | [] => [v]
  | w :: r => if v.1 ≤ w.1 then v :: w :: r else w :: insertVoid v r

/-- Record a voided rseq, joined to a range that it continues (R221). -/
def addVoid (n : Nat) : List (Nat × Nat) → List (Nat × Nat)
  | [] => [(n, n)]
  | (a, b) :: r =>
    if b + 1 = n then (match r with
      | (c, d) :: r' => if n + 1 = c then (a, d) :: r' else (a, n) :: r
      | [] => [(a, n)])
    else if n + 1 = a then (n, b) :: r
    else if n < a then (n, n) :: (a, b) :: r
    else (a, b) :: addVoid n r

/-- The sequence numbers of void ranges (R224). -/
def voidCount (v : List (Nat × Nat)) : Nat := (v.map fun r => r.2 + 1 - r.1).sum

/-- The cut record that closes a session's open range at this tick (R222, R224). -/
def State.cutRecord (s : State) (sc : Nat) (k : CutKind) (nonce : BitVec 256) (waiter : Option Nat) : Cut :=
  let x := s.session sc
  let every := k.final && decide (8 < x.voids.length)
  let listed := if every then [] else x.voids.take 8
  let flags : Nat := (if x.conf then 1 else 0) + (if every then 2 else 0) + (if k == .failover then 4 else 0)
    + (if x.restartFlag then 8 else 0)
  { session := sc, kind := k, keyxGen := x.rangeKeyx, prevCut := x.cutLast, cut := BitVec.ofNat 64 s.now
    rseqHigh := x.rseqNext - 1, released := x.releasedOpen
    voided := if every then x.voidedOpen else BitVec.ofNat 32 (voidCount listed)
    acc := x.acc, nonce := nonce, voids := listed, plans := x.openPlans, flags := BitVec.ofNat 8 flags
    evidence := s.sessionDigest sc, waiter := waiter }

/-- The open range restarts, with the void ranges that the cut could not list (R222, R224). -/
def Session.reopen (x : Session) (k : CutKind) (now : Nat) : Session :=
  let carry := if k.final then [] else x.voids.drop 8
  { x with cutLast := BitVec.ofNat 64 now, releasedOpen := 0, voidedOpen := BitVec.ofNat 32 (voidCount carry)
           acc := 0, voids := carry, openPlans := x.openPlans.reverse.take 1, restartFlag := false
           rangeKeyx := x.keyxGen
           closeCut := x.closeCut || k == .close || k == .abort }

/-- Take a cut now; with the queue of 1,024 full it is deferred, and a CLOSE, ABORT or FAILOVER cut waits at the head
of the deferral (R222). -/
def State.takeCut (s : State) (sc : Nat) (k : CutKind) (nonce : BitVec 256) (waiter : Option Nat) : State :=
  if s.cuts.length < 1024 then
    let c := s.cutRecord sc k nonce waiter
    let s := { s with cuts := s.cuts ++ [c] }
    let s := s.onSess sc fun x => x.reopen k s.now
    s.sendCut sc ((s.session sc).ckptNo + 1) c.rseqHigh.toNat
  else if k.final then { s with cutWait := (sc, k, nonce, waiter) :: s.cutWait }
  else { s with cutWait := s.cutWait ++ [(sc, k, nonce, waiter)] }

/-- The cuts that a test selects of those triggered in this tick are taken (R222). -/
def State.takeDueCuts (s : State) (sel : Nat → Bool) : State :=
  (s.cutDue.filter fun c => sel c.1).foldl (fun s c => s.takeCut c.1 c.2.1 c.2.2.1 c.2.2.2)
    { s with cutDue := s.cutDue.filter fun c => !sel c.1 }

/-- A trigger of R222: the cut is taken at this tick, after every fold of the tick. A CLOSE or ABORT cut, after which no record of
the session is released in the tick, is taken at once. A standby takes no cut of its own (R433). -/
def State.cut (s : State) (sc : Nat) (k : CutKind) (nonce : BitVec 256 := 0) (waiter : Option Nat := none) : State :=
  if s.isStandby sc then s
  else if k == .close || k == .abort then State.takeCut (s.takeDueCuts fun n => n == sc) sc k nonce waiter
  else { s with cutDue := s.cutDue ++ [(sc, k, nonce, waiter)] }

/-- Room in the queue takes the deferred cut at the head (R222). -/
def State.takeDeferred (s : State) : State :=
  match s.cutWait with
  | [] => s
  | c :: r => if s.cuts.length < 1024 then State.takeCut { s with cutWait := r } c.1 c.2.1 c.2.2.1 c.2.2.2 else s

/-- A cut of this kind is already triggered, and not yet taken (R222). -/
def State.cutPending (s : State) (sc : Nat) (k : CutKind) : Bool :=
  s.cutDue.any (fun c => c.1 == sc && c.2.1 == k) || s.cutWait.any fun c => c.1 == sc && c.2.1 == k

/-- Final cuts of a session that are deferred are given up (R206): an ABORT cut is taken in their place. -/
def State.dropFinal (s : State) (sc : Nat) : State :=
  { s with cutWait := s.cutWait.filter fun c => !(c.1 == sc && c.2.1 == .close) }

/-- Fold a released record: acc XOR T, one more released; the range is cut where it has reached a checkpoint_every
(R221, R222). The home tells the standby, which keeps its acc as the home's (R433). -/
def State.fold (s : State) (sc rseq : Nat) (tag : BitVec 128) (time : Nat) : State :=
  let s := s.perf sc 11 1
  if s.isStandby sc then s
  else
    let s := s.onSess sc fun x => { x with acc := x.acc ^^^ tag, releasedOpen := x.releasedOpen + 1, lastReleased := max x.lastReleased rseq }
    let s := s.sendFold sc rseq tag time false
    let n := (s.session sc).releasedOpen.toNat
    let full := decide (2 ^ 31 ≤ n) || (s.checkpointEvery sc).any fun e => decide (e ≤ n)
    if full && !s.cutPending sc .auto then s.cut sc .auto else s

/-- Void an rseq that is never released (R221); the eighth void range cuts the range (R222). A standby
keeps the home's account (R433). -/
def State.void (s : State) (sc rseq : Nat) : State :=
  if s.isStandby sc then s else
  let before := (s.session sc).voids.length
  let s := s.onSess sc fun x => { x with voidedOpen := x.voidedOpen + 1, voids := addVoid rseq x.voids }
  let s := s.perf sc 12 1
  let s := s.sendFold sc rseq 0 0 true
  let after := (s.session sc).voids.length
  if before < after && 8 ≤ after && (s.session sc).state != .closing && !s.cutPending sc .plans then s.cut sc .plans else s

/-- A plan generation enters the open range of a session; the fourth cuts the range (R222). -/
def State.planEnters (s : State) (sc : Nat) (measurement : BitVec 384) : State :=
  let s := s.onSess sc fun x => { x with planGen := x.planGen + 1 }
  let s := s.onSess sc fun x => { x with openPlans := x.openPlans ++ [(x.planGen.toNat, measurement)] }
  if (s.session sc).openPlans.length == 4 then s.cut sc .plans else s

end Sys2Proof.Machine
end

