-- ==== Sys2Proof/Machine/Ptu.lean ====
section
/-! DEFINITION. The Town Clock: the extrapolation and correction of a phase source (R18 to R35), device time
(R36, R37), and the evaluation of the event table (R38 to R49). -/

namespace Sys2Proof.Machine

/-! Fields of the committed source registers, as they act (R24). -/

def Source.enabled (c : Source) : Bool := Bits.bit c.cfg.toNat 0
def Source.travel (c : Source) : Bool := Bits.bit c.cfg.toNat 1
def cfgTimeout (cfg : Word) : Nat := max 2 (Bits.get cfg.toNat 4 4)
def cfgCoastUs (cfg : Word) : Nat := min 200 (Bits.get cfg.toNat 8 8)
/-- The nominal interval in ticks. -/
def cfgInterval (cfg : Word) : Nat := min 40000 (max 40 (Bits.get cfg.toNat 16 16)) * 10
def cfgVmin (cfg : Word) : Nat := Bits.get cfg.toNat 32 16
def cfgVmax (cfg : Word) : Nat := Bits.get cfg.toNat 48 16
def Source.jumpThreshold (c : Source) : Nat := Bits.get c.lim.toNat 0 32
def Source.jumpConfirm (c : Source) : Nat := max 1 (Bits.get c.lim.toNat 32 3)

/-- The value of a two's-complement field of a source. -/
def Source.omegaInt (c : Source) : Int := c.omega.toInt
def Source.alphaInt (c : Source) : Int := c.alpha.toInt

/-- Upper 64 bits of θ and τ (R19). -/
def Source.phase (c : Source) : BitVec 64 := (c.theta >>> 32).setWidth 64
def Source.travelled (c : Source) : BitVec 64 := (c.tau >>> 32).setWidth 64

/-- What the source's event entries are compared against (R33, R40). -/
def Source.measure (c : Source) : BitVec 64 := if c.travel then c.travelled else c.phase

/-- The measure of every phase source at this tick (R39). -/
def State.phases (s : State) : List (BitVec 64) := (List.range 16).map fun n => (s.source n).measure

/-- One tick of extrapolation, its updates in the order of R25: τ grows by the ω of after the tick. -/
def Source.advance (c : Source) : Source :=
  if c.state == .off then c
  else
    let omega := BitVec.ofInt 64 (c.omegaInt + c.alphaInt / 2 ^ 24)
    { c with
      theta := BitVec.ofInt 96 (c.theta.toNat + c.omegaInt)
      omega := omega
      tau := if c.travel then c.tau + BitVec.ofNat 96 omega.toInt.natAbs else c.tau }

/-- n ticks of extrapolation. -/
def Source.advances (c : Source) : Nat → Source
  | 0 => c
  | n + 1 => (c.advance).advances n

/-- The firing lead of a RELEASE: 16 ticks (R29). -/
def releaseLeadTicks : Nat := 16
def releaseLeadNs : Nat := 40

/-- A phase instant is reached (R40). -/
def reachedPhase (here inst : BitVec 64) : Bool := decide ((here - inst).toNat < 2 ^ 63)

/-- The two groups of kinds of R31. -/
def EvKind.isStream : EvKind → Bool
  | .inputClose | .slotStart | .release => true
  | _ => false

def EvKind.code : EvKind → Nat
  | .commit => 0 | .inputClose => 1 | .slotStart => 2 | .release => 3 | .checkWindow => 4 | .notify => 5

def SrcState.code : SrcState → Nat
  | .off => 0 | .acquiring => 1 | .tracking => 2 | .degraded => 3 | .stopped => 4 | .coasting => 5 | .lost => 6

/-- A standstill: the states of R31 in which a stream's entries do not fire. -/
def SrcState.standstill : SrcState → Bool
  | .acquiring | .stopped | .lost | .off => true
  | _ => false

/-- The committed calendar of a stream, in the running plan of the window that bound it (R121). -/
def State.calendarOf (s : State) (cs : Nat) : Option Calendar :=
  match (s.plan (s.stream cs).win).running with
  | some p => p.calendars.find? fun c => c.cs == cs
  | none => none

/-- The instant of a grid of N per cycle: its offset within the cycle (R43). -/
def gridOffset (k n : Nat) : Nat := k * 2 ^ 32 / n

/-- A periodic entry advances after a firing (R43). -/
def Event.advance (e : Event) : Event :=
  if e.device then
    { e with instant := e.instant + BitVec.ofNat 64 (e.nMinus1.toNat + 2 ^ 16 * e.k.toNat) }
  else
    let n := e.nMinus1.toNat + 1
    let o := e.instant - BitVec.ofNat 64 (gridOffset e.k.toNat n)
    let k := e.k.toNat + 1
    if k = n then { e with k := 0, instant := o + BitVec.ofNat 64 (2 ^ 32) }
    else { e with k := BitVec.ofNat 16 k, instant := o + BitVec.ofNat 64 (gridOffset k n) }

/-- A periodic phase entry as it was before it advanced. -/
def Event.retreat (e : Event) : Event :=
  let n := e.nMinus1.toNat + 1
  let o := e.instant - BitVec.ofNat 64 (gridOffset e.k.toNat n)
  if e.k = 0 then { e with k := BitVec.ofNat 16 (n - 1), instant := o + BitVec.ofNat 64 (gridOffset (n - 1) n) - BitVec.ofNat 64 (2 ^ 32) }
  else { e with k := e.k - 1, instant := o + BitVec.ofNat 64 (gridOffset (e.k.toNat - 1) n) }

/-- Realignment of a periodic phase entry to its first instant after a phase (R44). -/
def Event.realign (e : Event) (here : BitVec 64) : Event :=
  let n := e.nMinus1.toNat + 1
  let o := e.instant - BitVec.ofNat 64 (gridOffset e.k.toNat n)
  let x := (here - o).toInt
  let j := x / 2 ^ 32
  let r := (x % 2 ^ 32).toNat
  let k := ((r + 1) * n + 2 ^ 32 - 1) / 2 ^ 32
  let base := o + BitVec.ofInt 64 (j * 2 ^ 32)
  if k = n then { e with k := 0, instant := base + BitVec.ofNat 64 (2 ^ 32), heldLate := false }
  else { e with k := BitVec.ofNat 16 k, instant := base + BitVec.ofNat 64 (gridOffset k n), heldLate := false }

/-- Device time, with a lead in ns, is at or past an instant in ns (R29, R40). -/
def Ptu.reachedTime (p : Ptu) (lead inst : Nat) : Bool := decide (inst * 2 ^ 32 ≤ p.dt.toNat + lead * 2 ^ 32)

/-- The entry's own instant is reached: in device time or in phase, a RELEASE 40 ns ahead (R29, R40). A kind of
the second column of R31 is compared with the last accepted sample while the source is ACQUIRING or STOPPED. -/
def Ptu.reached (p : Ptu) (e : Event) : Bool :=
  if e.device then p.reachedTime (if e.kind == .release then releaseLeadNs else 0) e.instant.toNat
  else
    let c := Tab.get {} p.sources e.source.toNat
    if !e.kind.isStream && (c.state == .acquiring || c.state == .stopped) then
      c.lastAccepted.isSome && reachedPhase (if c.travel then c.lastTravel else c.lastPhase) e.instant
    else
      reachedPhase (if e.kind == .release then (c.advances releaseLeadTicks).measure else c.measure) e.instant

/-- The entry's own instant was reached at the tick before this one. A phase RELEASE is looked at one tick short of its lead;
any other phase instant counts as reached before (R40, R45; log entry 41). -/
def Ptu.reachedBefore (p : Ptu) (e : Event) : Bool :=
  if e.device then Ptu.reached { p with dt := p.dt - p.step.setWidth 96 } e
  else if e.kind == .release then
    reachedPhase ((Tab.get {} p.sources e.source.toNat).advances (releaseLeadTicks - 1)).measure e.instant
  else p.reached e

/-- The entry's source runs backward in FORWARD mode (R32). -/
def Ptu.reversed (p : Ptu) (e : Event) : Bool :=
  let c := Tab.get {} p.sources e.source.toNat
  !e.device && !c.travel && decide (c.omegaInt < 0)

/-- The source's state and direction let a phase entry of this kind fire (R31, R32). -/
def Ptu.mayFire (p : Ptu) (e : Event) : Bool :=
  if e.device then true
  else
    let c := Tab.get {} p.sources e.source.toNat
    !p.reversed e &&
      (if e.kind.isStream then !c.state.standstill else !(c.state == .lost || c.state == .off))

/-- The device time in ns of the next timed INPUT_CLOSE of a stream under TIMED in its standstill, given the instant of the
last one (R49). -/
def State.timedNext (s : State) (cs : Nat) (last : Option Nat) : Option Nat :=
  match s.calendarOf cs with
  | none => none
  | some cal =>
    let st := s.stream cs
    let src := s.source cal.source
    if cal.timed && cal.phase && src.state.standstill && st.bound then
      some (match last with
        | some t => t + cal.standstillPitch
        | none =>
          match st.lastPhaseIc with
          | some t => t + cal.standstillPitch
          | none => max src.leftAt st.boundAt + cal.standstillPitch)
    else none

/-- The state of the source of a stream's phase calendar, which its firings carry (R31, R49). -/
def State.firingState (s : State) (e : Event) : Option SrcState :=
  if e.kind.isStream then
    match s.calendarOf e.target.toNat with
    | some c => if c.phase then some (s.source c.source).state else none
    | none => none
  else none

/-- The timed INPUT_CLOSE of an entry that is due at this tick: its instant, which is this tick's where the standstill found
it past (R49). -/
def State.timedDue (s : State) (e : Event) : Option Nat :=
  if e.valid && e.kind == .inputClose && !e.device then
    match s.timedNext e.target.toNat e.lastTimed with
    | some t =>
      if !s.ptu.reachedTime 0 t then none
      else if e.lastTimed.isNone && t * 2 ^ 32 + s.ptu.step.toNat ≤ s.ptu.dt.toNat then some s.now
      else some t
    | none => none
  else none

/-- The firings of one entry at this tick, and the entry after them (R31, R40, R41, R43, R46, R49). Where `late` is set every
one of them is flagged late, as those that a step of device time passes (R37). -/
def State.evalEntry (s : State) (late : Bool) (idx : Nat) (e : Event) : Event × List Firing :=
  let p := s.ptu
  let lead := if e.kind == .release then releaseLeadNs else 0
  let f0 : Firing := { idx := idx, kind := e.kind, late := late, state := s.firingState e }
  let slots := (e.armed.filter fun a => p.reachedTime lead a.1.toNat).map fun a => { f0 with slot := a.2, timed := !e.rel }
  let due := s.timedDue e
  let timed := due.toList.map fun _ => { f0 with timed := true, lastTimed := e.lastTimed }
  let e1 := { e with
    armed := e.armed.filter fun a => !p.reachedTime lead a.1.toNat
    lastTimed := if due.isSome then due else e.lastTimed
    late := if slots.isEmpty && timed.isEmpty then e.late else late }
  let blocked := e.kind.isStream && !e.device && (s.stream e.target.toNat).timedSlot.isSome
  if e.valid && !e.rel && p.reached e then
    if p.mayFire e && !blocked then
      let f : Firing := { f0 with late := e.heldLate || late }
      let e2 : Event := { e1 with late := f.late, heldLate := false }
      let e3 : Event := if e.periodic then e2.advance else { e2 with valid := false }
      ({ e3 with heldLate := e.periodic && p.reached e3 }, slots ++ timed ++ [f])
    else ({ e1 with heldLate := e1.heldLate || p.reversed e }, slots ++ timed)
  else (e1, slots ++ timed)

/-- The order of firings (R45, R46): by the tick in which they became due, and within a tick by kind, then by index. -/
def Firing.before (f g : Firing) : Bool :=
  if f.due ≠ g.due then decide (f.due < g.due)
  else f.kind.code < g.kind.code || (f.kind.code == g.kind.code && f.idx ≤ g.idx)

def Firing.insert (f : Firing) : List Firing → List Firing
  | [] => [f]
  | g :: r => if g.before f then g :: Firing.insert f r else f :: g :: r

/-- At most 64 firings in one tick: those beyond go to the following ticks, with late set in the firing and in its entry
(R41, R46). -/
def Ptu.cap (p : Ptu) : Ptu :=
  let n := 64 - p.fired
  let rest := (p.firing.drop n).map fun f => { f with late := true }
  { p with firing := p.firing.take n, deferred := rest.foldl (fun acc f => Firing.insert f acc) p.deferred
           events := rest.foldl (fun es f => Tab.upd {} es f.idx fun e => { e with late := true }) p.events
           late := p.late + BitVec.ofNat 32 (((p.firing.drop n).filter fun f => !f.late).length) }

/-- Firings become due in this tick, in the order of R45. -/
def Ptu.enqueue (p : Ptu) (fs : List Firing) : Ptu :=
  Ptu.cap { p with firing := fs.foldl (fun acc f => Firing.insert { f with due := p.tick } acc) p.firing
                   late := p.late + BitVec.ofNat 32 (fs.filter fun f => f.late).length }

/-- Evaluate the entries of the event table that a test selects, at this tick (R38, R40, R45, R46). -/
def State.evaluate (s : State) (sel : Nat → Bool) (late : Bool := false) : State :=
  let r := s.ptu.events.map fun e => if sel e.1 then let x := s.evalEntry late e.1 e.2; ((e.1, x.1), x.2) else (e, [])
  let events := (r.map (·.1)).filter fun e => e.2 != {}
  { s with ptu := Ptu.enqueue { s.ptu with events := events } (r.map (·.2)).flatten }

/-- Forget the firings of this tick of the entries that a test selects (R45). -/
def State.unfire (s : State) (sel : Nat → Bool) : State :=
  { s with ptu := { s.ptu with firing := s.ptu.firing.filter fun f => !sel f.idx
                               deferred := s.ptu.deferred.filter fun f => !sel f.idx } }

/-- Arm an entry, whose firing is flagged late where its instant is already reached (R40). A first device-time
entry is remembered (R37). -/
def State.arm (s : State) (idx : Nat) (e : Event) (reached : Bool) : State :=
  let e := { e with heldLate := !e.rel && reached }
  { s with ptu := { s.ptu with
      events := Tab.set {} s.ptu.events idx e
      dtArmed := s.ptu.dtArmed || e.device } }

/-- The lowest entry that is free, and has no firing that waits (the manual leaves the choice open; log entry 9). -/
def State.freeEntry (s : State) : Option Nat :=
  lowestWith (fun i => !(s.event i).valid && !(s.ptu.firing ++ s.ptu.deferred).any fun f => f.idx == i) 4096 0

/-- The tick passes a multiple of m ns (R38). -/
def passes (before after : BitVec 96) (m : Nat) : Bool :=
  decide (before.toNat / (m * 2 ^ 32) < after.toNat / (m * 2 ^ 32))

/-- Device time moves to a value: the boundaries that the tick then passes are noted (R38). -/
def Ptu.moveTime (p : Ptu) (dt : BitVec 96) : Ptu :=
  { p with dt := dt
           atEpoch := p.atEpoch || passes p.dt dt 4096
           atDispatch := p.atDispatch || passes p.dt dt 1000
           dispatch := p.dispatch || passes p.dt dt 1000
           atStep := p.atStep || passes p.dt dt 1000000 }

/-- Everything that the present tick has still to do is done: its firings and its boundaries. -/
def Ptu.settled (p : Ptu) : Bool := p.firing.isEmpty && !p.atEpoch && !p.atDispatch && !p.atStep

/-- The record that a slot releases, by its kind (R156). -/
def SlotRun.record (x : SlotRun) (k : RecordKind) : Option Record :=
  match k with
  | .computed => x.computed
  | .mismatch => x.mismatch
  | .fallback => x.fallback

/-- The released record of a stream that is ready to leave, with its slot and its instant. -/
def State.leaving (s : State) (cs : Nat) : Option (SlotRun × Record × Nat) :=
  (s.stream cs).slots.findSome? fun x =>
    if x.left then none
    else
      match x.released with
      | none => none
      | some (t, k) => match x.record k with
        | some r => if r.ready then some (x, r, t) else none
        | none => none

def State.sePort (s : State) (k : Nat) : SePort := Tab.get {} s.se k

/-- The port of a stream is free at this tick; a stream without an egress port always finds it so (R158). -/
def State.portFree (s : State) (cs : Nat) : Bool :=
  let k := (s.stream cs).se
  decide (4 ≤ k) || decide ((s.sePort k).busyUntil ≤ s.ptu.tick)

/-- A record whose release instant has come is ready and finds its port free: it leaves in this tick (R11, R158, R166). -/
def State.recordDue (s : State) : Bool :=
  s.streams.any fun e => match s.leaving e.1 with
    | some (_, _, t) => decide (t ≤ s.ptu.tick) && s.portFree e.1
    | none => false

/-- The present tick has nothing left to do: its firings, its boundaries and its records are done. -/
def State.tickDone (s : State) : Bool := s.ptu.settled && !s.recordDue

/-- A slot whose record has not left at its release instant: the port is still sending, or the record is not formed, the two
cases of R11 (R156, R158). -/
def SlotRun.passInstant (x : SlotRun) (tick : Nat) : SlotRun :=
  match x.released with
  | some (t, _) => if !x.left && decide (t ≤ tick) then { x with held := true } else x
  | none => x

/-- One tick (R18): every source is extrapolated, device time advances, the event table is evaluated. The
firings put off from earlier ticks come first (R46). The cuts of the tick that ends are taken before (R222), and the records
that did not leave at their instant are held (R158), and the claims due in the tick are taken (R355). -/
def State.tick (s : State) : State :=
  let s := (s.takeDueCuts fun _ => true).takeClaims
  let p := s.ptu
  let s := { s with streams := Tab.mapVals {} s.streams fun _ (st : Stream) =>
    { st with slots := st.slots.map fun (x : SlotRun) => x.passInstant p.tick } }
  let p := { p with tick := p.tick + 1
                    sources := Tab.mapVals {} p.sources fun _ c => c.advance
                    fired := 0
                    dispatch := false
                    firing := p.deferred, deferred := [] }
  let p := p.moveTime (p.dt + p.step.setWidth 96)
  let p := { p with firing := p.firing.map fun (f : Firing) => { f with state := s.firingState (Tab.get {} p.events f.idx) } }
  State.evaluate { s with ptu := p.cap } fun _ => true

/-- PTU_TICK (R18). -/
def execPtuTick (s : State) : Host.Outcome State Fault Refusal :=
  act s.tickDone State.tick s

/-- Report an event of a phase source (R22, R30, R388). -/
def State.reportSource (s : State) (n event : Nat) (detail : Bytes) : State :=
  s.report { event := event, unitKind := 7, unit := n, detail := detail }

/-- The periodic phase entries of a stream are realigned (R44, R49). -/
def State.realignStream (s : State) (cs : Nat) : State :=
  let f (e : Event) : Event :=
    if e.valid && !e.device && e.periodic && e.kind.isStream && e.target.toNat == cs then
      e.realign (s.source e.source.toNat).measure
    else e
  { s with ptu := { s.ptu with events := Tab.mapVals {} s.ptu.events fun _ e => f e } }

/-- Phase slots resume when a source comes back from standstill: entries of a stream with no timed slot in
flight are realigned at once, the others when that slot's RELEASE has fired (R49). A sample window opens (R151). -/
def State.resumeStreams (s : State) (src : Nat) : State :=
  (s.streams.map (·.1)).foldl (fun s cs =>
    match s.calendarOf cs with
    | some cal =>
      if cal.phase && cal.source == src then
        let s := { s with ptu := { s.ptu with events := Tab.mapVals {} s.ptu.events fun _ (e : Event) =>
          if e.kind == EvKind.inputClose && e.target.toNat == cs then { e with lastTimed := none } else e } }
        let s := s.onStream cs fun st => { st with
          window := {}, nextWindow := {}, waiting := st.waiting.filter fun g => decide (g.1 ≤ st.seq) }
        if (s.stream cs).timedSlot.isNone then s.realignStream cs else s
      else s
    | none => s) s

/-- A source changes state (R30): the tick of entry, the run of good samples begins again, α is 0 in STOPPED,
and the health unit hears of it. -/
def State.setSource (s : State) (n : Nat) (st : SrcState) : State :=
  let c := s.source n
  if c.state == st then s
  else
    let left := (c.state == .tracking || c.state == .degraded) && !(st == .tracking || st == .degraded)
    let back := c.state.standstill && !st.standstill
    let s := s.onSource n fun c => { c with
      state := st, enteredTick := s.ptu.tick, good := 0
      alpha := if st == .stopped then 0 else c.alpha
      leftAt := if left then s.now else c.leftAt }
    let s := if st == .lost then s.reportSource n 3 []
      else s.reportSource n 5 [BitVec.ofNat 8 c.state.code, BitVec.ofNat 8 st.code]
    if back then s.resumeStreams n else s

/-- Signed remainder modulo 2^n. -/
def wrapInt (x : Int) (n : Nat) : Int := (x + 2 ^ (n - 1)) % 2 ^ n - 2 ^ (n - 1)

/-- A sample, with its delay d in ticks, and the residual e and the unwrapped position in units of 2⁻⁵⁶ pc and
in pc (R23, R25). -/
structure Fix where
  d : Nat
  e : Int
  m : Int
deriving DecidableEq, Repr

/-- latch_age in ticks, rounded to the nearest (R22). -/
def latchTicks (age : Nat) : Nat := (2 * age + 2) / 5

/-- The prediction and the residual of a sample (R23, R25): pred is held exactly in units of 2⁻⁵⁶ pc. -/
def Source.fix (c : Source) (pos d : Nat) : Fix :=
  let pred : Int := (c.theta.toNat : Int) * 2 ^ 24 - c.omegaInt * d * 2 ^ 24 + c.alphaInt * (d * (d + 1) / 2 : Nat)
  let e := wrapInt ((pos : Int) * 2 ^ 56 - pred) 88
  { d := d, e := e, m := (pred + e) / 2 ^ 56 }

/-- The gains as mantissa and exponent: K = m × 2^(63 − e) × 2⁻⁸¹ (R24). -/
def gainScaled (m e : Nat) : Nat := m * 2 ^ (63 - e)
def Source.k1 (c : Source) : Nat := Bits.get c.gain.toNat 0 16 * 2 ^ 65
def Source.k2 (c : Source) : Nat := gainScaled (Bits.get c.gain.toNat 22 18) (Bits.get c.gain.toNat 16 6)
def Source.k3 (c : Source) : Nat := gainScaled (Bits.get c.gain.toNat 46 18) (Bits.get c.gain.toNat 40 6)

/-- The correction of R25, every product exact in units of 2⁻¹³⁷ and each state value truncated once (R20). -/
def Source.correct (c : Source) (f : Fix) : Source :=
  let d : Int := f.d
  let tri : Int := (f.d * (f.d - 1) / 2 : Nat)
  let th := (c.theta.toNat : Int) * 2 ^ 105 + f.e * c.k1 + f.e * c.k2 * d + f.e * c.k3 * tri
  let om := c.omegaInt * 2 ^ 105 + f.e * c.k2 + f.e * c.k3 * d
  let al := c.alphaInt * 2 ^ 81 + f.e * c.k3
  { c with
    theta := BitVec.ofInt 96 (th / 2 ^ 105)
    omega := BitVec.ofInt 64 (om / 2 ^ 105)
    alpha := if c.state == .stopped then 0 else BitVec.ofInt 64 (al / 2 ^ 81) }

/-- err in whole ns: |e|, given in 2⁻⁵⁶ pc, over |ω| at 2.5 ns a tick, at most 255, and 255 where ω is 0 (R25). -/
def Source.errNs (c : Source) (e : Nat) : Nat :=
  if c.omegaInt = 0 then 255 else min 255 (e * 5 / (c.omegaInt.natAbs * 2 ^ 24 * 2))

/-- err_ns as it reads: the largest |residual| over the last 8 accepted samples, at the current speed (R24). -/
def Source.errRead (c : Source) : Nat :=
  match c.residuals.filterMap id with
  | [] => 0
  | r => c.errNs (r.foldl max 0)

/-- |ω| compared with a speed in pc/ns: |ω| in 2⁻³² pc per tick of 2.5 ns. -/
def Source.slower (c : Source) (v : Nat) : Bool := decide (2 * c.omegaInt.natAbs < v * 5 * 2 ^ 32)
def Source.faster (c : Source) (v : Nat) : Bool := decide (v * 5 * 2 ^ 32 < 2 * c.omegaInt.natAbs)
/-- |ω| ≥ 1.25 × v. -/
def Source.clearlyMoving (c : Source) (v : Nat) : Bool := decide (v * 25 * 2 ^ 32 ≤ 8 * c.omegaInt.natAbs)

/-- What every accepted sample leaves behind: its arrival, its count, its residual where it has one, its phase, and the travel at the sample, which is
the travel now less the way from the sample's phase to the present one (log entry 39). -/
def Source.accepted (c : Source) (tick : Nat) (m : Int) (residual : Option Nat := none) : Source :=
  let way := (wrapInt ((c.theta.toNat : Int) - m * 2 ^ 32) 96).natAbs
  { c with lastAccepted := some tick, samples := c.samples + 1
           lastPhase := BitVec.ofInt 64 m, residuals := (residual :: c.residuals).take 8
           lastTravel := ((c.tau - BitVec.ofNat 96 way) >>> 32).setWidth 64, outRun := 0 }

/-- The state that a filtered sample moves its source to (R30). -/
def Source.after (c : Source) (err good : Nat) : SrcState :=
  let vmin := cfgVmin c.cfg
  let vmax := cfgVmax c.cfg
  match c.state with
  | .acquiring => if 8 ≤ good then .tracking else .acquiring
  | .tracking => if c.slower vmin then .stopped else if 15 < err || c.faster vmax then .degraded else .tracking
  | .degraded => if c.slower vmin then .stopped else if 8 ≤ good then .tracking else .degraded
  | .stopped => if c.clearlyMoving vmin then .degraded else .stopped
  | .coasting => .degraded
  | st => st

/-- A filtered sample (R25, R30). -/
def State.filterSample (s : State) (n : Nat) (f : Fix) : State :=
  let c := ((s.source n).correct f).accepted s.ptu.tick f.m (some f.e.natAbs)
  let err := c.errNs f.e.natAbs
  let isGood := err ≤ 15 && !c.slower (cfgVmin c.cfg) && !c.faster (cfgVmax c.cfg)
  let good := if isGood then c.good + 1 else 0
  let s := s.onSource n fun _ => { c with good := good }
  s.setSource n (c.after err good)

/-- The instant lies after `old` and at or before `new` (R34, R35). -/
def between (old new inst : BitVec 64) : Bool :=
  decide ((inst - old).toNat ≠ 0) && decide ((inst - old).toNat ≤ (new - old).toNat)

/-- Fire once every phase entry of a source that a test selects and whose instant was passed, realign the
periodic ones against the source's new measure, and end the others (R34, R35). Each firing carries its source's state (R31). Two
choices of the model (log entry 39): a forward jump of a source with ω < 0 fires the entries all the same, by R34 and not by R32; and
it fires a stream's INPUT_CLOSE although a timed slot of the stream is in flight, by R34 and not by R49. -/
def State.firePassed (s : State) (n : Nat) (old new : BitVec 64) (sel : Event → Bool) (mark : Firing → Firing) : State :=
  let mine (e : Event) : Bool := e.valid && !e.device && !e.rel && e.source.toNat == n
  let hit (e : Event) : Bool := mine e && sel e && between old new e.instant
  let fs := (s.ptu.events.filter fun e => hit e.2).map fun e => mark { idx := e.1, kind := e.2.kind, state := s.firingState e.2 }
  let wasLate (e : Event) : Bool := if hit e then (mark { idx := 0, kind := e.kind }).late else e.late
  let events := Tab.mapVals {} s.ptu.events fun _ e =>
    if mine e && e.periodic then { e.realign new with late := wasLate e }
    else if hit e then { e with valid := false, late := wasLate e } else e
  { s with ptu := Ptu.enqueue { s.ptu with events := events } fs }

/-- A confirmed jump (R34): θ at the last outlier projected to the present tick, α 0, ω kept, DEGRADED; the
entries between the old and the new phase fire once, flagged as a jump. Two choices of the model (log entry 39): where the
jump ends a standstill, the stream entries are realigned first (R49), so that step 4 fires none of them; and the residual of
the sample that completes the jump does not enter err_ns. -/
def State.jump (s : State) (n : Nat) (f : Fix) : State :=
  let c := s.source n
  let theta := BitVec.ofInt 96 (f.m * 2 ^ 32 + c.omegaInt * f.d)
  let stepBy := wrapInt ((theta.toNat : Int) - c.theta.toNat) 96
  let tau := if c.travel then c.tau + BitVec.ofNat 96 stepBy.natAbs else c.tau
  let c1 := ({ c with theta := theta, alpha := 0, tau := tau, good := 0 } : Source).accepted s.ptu.tick f.m
  let s := (s.onSource n fun _ => c1).setSource n .degraded
  let forward := c.travel || decide (0 < stepBy)
  s.firePassed n c.measure c1.measure (fun _ => forward) fun x => { x with jump := true }

/-- An outlier: counted, and after jump_confirm agreeing ones a jump (R34). -/
def State.outlier (s : State) (n : Nat) (f : Fix) : State :=
  let c := s.source n
  let t : Int := (s.ptu.tick : Int) - f.d
  let apart := wrapInt ((f.m - c.outPos) * 2 ^ 32 - c.omegaInt * (t - c.outTick)) 96
  let agrees := decide (0 < c.outRun) && decide (apart.natAbs ≤ c.jumpThreshold * 2 ^ 32)
  let run := if agrees then c.outRun + 1 else 1
  if c.jumpConfirm ≤ run then s.jump n f
  else s.onSource n fun c => { c with
    samples := c.samples + 1, good := 0, outRun := run, outTick := t, outPos := f.m }

/-- The first accepted sample of ACQUIRING: θ is set, ω and α are 0. After OFF the revolution count is 0; after
LOST R35 chooses it, adds the step to τ in TRAVEL mode and fires the one-shot entries of the lost span. -/
def State.firstSample (s : State) (n pos : Nat) (d : Nat) : State :=
  let c := s.source n
  let t : Int := (s.ptu.tick : Int) - d
  if c.state == .lost then
    let last := c.phase
    let ahead := wrapInt ((pos : Int) - (last.toNat % 2 ^ 32 : Nat)) 32
    let up := ((pos : Int) * 2 ^ 32 - ((c.theta.toNat % 2 ^ 64 : Nat) : Int)) % 2 ^ 64
    let m : Int := if c.travel then (last.toNat : Int) + ahead
      else ((c.theta.toNat : Int) + up) / 2 ^ 32
    let theta := BitVec.ofInt 96 (m * 2 ^ 32)
    let stepBy := wrapInt ((theta.toNat : Int) - c.theta.toNat) 96
    let tau := if c.travel then c.tau + BitVec.ofNat 96 stepBy.natAbs else c.tau
    let c1 := ({ c with theta := theta, omega := 0, alpha := 0, tau := tau, acquired := 1
                        firstTick := t, firstPos := m } : Source).accepted s.ptu.tick m
    let s := (s.onSource n fun _ => c1).setSource n .acquiring
    s.firePassed n c.measure c1.measure (fun e => !e.periodic && !e.kind.isStream) fun x => { x with late := true }
  else
    s.onSource n fun c => ({ c with
      theta := BitVec.ofNat 96 (pos * 2 ^ 32), omega := 0, alpha := 0, acquired := 1
      firstTick := t, firstPos := pos } : Source).accepted s.ptu.tick pos

/-- The second accepted sample of ACQUIRING sets ω to the difference quotient, or is discarded where its sample
time is less than 400 ticks after the first's (R26). The quotient is held exact in the projection of θ (R20). -/
def State.secondSample (s : State) (n pos : Nat) (d : Nat) : State :=
  let c := s.source n
  let dt : Int := (s.ptu.tick : Int) - d - c.firstTick
  if dt < 400 then s.reportSource n 4 [2]
  else
    let f := c.fix pos d
    let way := wrapInt (f.m - c.firstPos) 64 * 2 ^ 32
    s.onSource n fun c => ({ c with
      omega := BitVec.ofInt 64 (way / dt), alpha := 0, acquired := 2
      theta := BitVec.ofInt 96 (f.m * 2 ^ 32 + way * d / dt) } : Source).accepted s.ptu.tick f.m

/-- A sample that is not discarded (R25, R26, R34, R35). -/
def State.takeSample (s : State) (n pos : Nat) (d : Nat) : State :=
  let c := s.source n
  if c.state == .lost || c.acquired == 0 then s.firstSample n pos d
  else if c.acquired == 1 then s.secondSample n pos d
  else
    let f := c.fix pos d
    if c.jumpThreshold * 2 ^ 56 < f.e.natAbs then s.outlier n f else s.filterSample n f

/-- PHASE_SAMPLE (R21, R22, R25): a word with valid 0 or bad parity, or within 1 µs of the last accepted one, is
discarded and reported; a source that is OFF takes no sample. -/
def execPhaseSample (src : Src) (word : Word) (parityOk : Bool) (s : State) : Host.Outcome State Fault Refusal :=
  act (!((s.source src.val).state == .off)) (fun s =>
    let c := s.source src.val
    let soon := match c.lastAccepted with
      | some t => decide (s.ptu.tick ≤ t + 400)
      | none => false
    if !parityOk || !Bits.bit word.toNat 49 then s.reportSource src.val 4 [0]
    else if soon then s.reportSource src.val 4 [1]
    else
      let t := s.takeSample src.val (Bits.get word.toNat 0 32) (latchTicks (Bits.get word.toNat 32 16))
      if (t.source src.val).samples == c.samples then t
      else t.onSource src.val fun c => { c with index := Bits.bit word.toNat 48 }) s

/-- The tick from which a source's timeout runs (R30). -/
def Source.since (c : Source) : Nat := max (c.lastAccepted.getD 0) c.enteredTick

/-- No accepted sample for timeout × interval (R30). -/
def State.sourceSilent (s : State) (n : Nat) : Bool :=
  let c := s.source n
  decide (c.since + cfgTimeout c.cfg * cfgInterval c.cfg ≤ s.ptu.tick)

/-- SOURCE_TIMEOUT (R30): TRACKING and DEGRADED go to COASTING, ACQUIRING and STOPPED to LOST. -/
def execSourceTimeout (src : Src) (s : State) : Host.Outcome State Fault Refusal :=
  act (s.sourceSilent src.val) (fun s =>
    match (s.source src.val).state with
    | .tracking | .degraded => s.setSource src.val .coasting
    | .acquiring | .stopped => s.setSource src.val .lost
    | _ => s) s

/-- COAST_LIMIT_EXPIRY (R30): a source that has coasted for longer than coast_limit is LOST. -/
def execCoastLimitExpiry (src : Src) (s : State) : Host.Outcome State Fault Refusal :=
  let c := s.source src.val
  act (c.state == .coasting && decide (c.enteredTick + cfgCoastUs c.cfg * 400 < s.ptu.tick))
    (fun s => s.setSource src.val .lost) s

/-- The largest change of the step: 200 ppm of 2.5 ns in units of 2⁻³² ns (R36). -/
def slewMax : Nat := 2147483
def nominalStep : Nat := 0x2_8000_0000

/-- The step that a comparison leaves: within 200 ppm of 2.5 ns, toward the input. How far within that bound is
left open: a free value (log entry 10). -/
def slewStep (offset : Int) (free : BitVec 64) : BitVec 64 :=
  let a := free.toNat % (slewMax + 1)
  if offset < 0 then BitVec.ofNat 64 (nominalStep + a)
  else if 0 < offset then BitVec.ofNat 64 (nominalStep - a)
  else BitVec.ofNat 64 nominalStep

/-- Counter less input in ns, saturated to 32 bits (R490). -/
def dtOffset (dt : BitVec 96) (ns : Word) : Int :=
  min 2147483647 (max (-2147483648) (((dt.toNat : Int) - (ns.toNat : Int) * 2 ^ 32) / 2 ^ 32))

/-- A comparison of device time with a valid input (R36, R37). An offset of more than 1 ms after the first lock is reported;
R388 gives the report no event (log entry 90). -/
def State.compareTime (s : State) (ns : Word) : State :=
  let p := s.ptu
  let exact : Int := (p.dt.toNat : Int) - (ns.toNat : Int) * 2 ^ 32
  let near := decide (exact.natAbs ≤ 10 * 2 ^ 32)
  let close := if near then p.close + 1 else 0
  let (v, s) := s.freeNext
  let reports := s.health.clockReports + if p.everLocked && decide (1000000 * 2 ^ 32 < exact.natAbs) then 1 else 0
  { s with
    health := { s.health with clockReports := reports }
    ptu := { p with
      close := close
      everLocked := p.everLocked || decide (16 ≤ close)
      dtState := if 16 ≤ close then .locked else p.dtState
      offset := BitVec.ofInt 32 (dtOffset p.dt ns)
      step := slewStep exact v } }

/-- The one forward step of device time, at the first valid input that is ahead of the counter: the
device-time entries that it passes fire at once, flagged late (R37). The instants of timed slots, which stand in phase entries, are
no device-time entries: those that the step passes fire at the next tick, not flagged late (the model's choice: log entry 90). -/
def State.stepTime (s : State) (ns : Word) : State :=
  let s := { s with ptu := s.ptu.moveTime (BitVec.ofNat 96 (ns.toNat * 2 ^ 32)) }
  s.evaluate (fun i => (s.event i).device) true

/-- The device-time input becomes invalid: a LOCKED counter enters HOLDOVER and keeps its step (R36, R462). -/
def Ptu.inputLost (p : Ptu) : Ptu :=
  { p with inputValid := false, close := 0
           dtState := if p.dtState == .locked then .holdover else p.dtState }

/-- DT_STROBE (R36, R37, R462). -/
def execDtStrobe (ns : Word) (valid : Bool) (s : State) : Host.Outcome State Fault Refusal :=
  act true (fun s =>
    let s := { s with ptu := { s.ptu with strobeTick := s.ptu.tick } }
    if !valid then { s with ptu := s.ptu.inputLost }
    else
      let first := !s.ptu.everValid
      let s := { s with ptu := { s.ptu with inputValid := true, everValid := true } }
      let s := if !first then s
        else if s.ptu.dt.toNat < ns.toNat * 2 ^ 32 then s.stepTime ns
        else if ns.toNat * 2 ^ 32 < s.ptu.dt.toNat then
          { s with health := { s.health with clockReports := s.health.clockReports + 1 } }
        else s
      s.compareTime ns) s

/-- DT_INPUT_TIMEOUT (R462): no strobe for 3 µs. -/
def execDtInputTimeout (s : State) : Host.Outcome State Fault Refusal :=
  act (s.ptu.inputValid && decide (s.ptu.strobeTick + 1200 ≤ s.ptu.tick))
    (fun s => { s with ptu := s.ptu.inputLost }) s

/-- The bits of PTU_PS_CFG and PTU_PS_LIM that are not reserved (R4, R24). -/
def psCfgMask : Word := 0xFFFF_FFFF_FFFF_FFF3
def psLimMask : Word := 0x7_FFFF_FFFF

/-- The firings that wait of a source's phase entries do not fire, since a commit turns the source OFF (R31, R45): the entries stand
as before. -/
def State.silence (s : State) (n : Nat) : State :=
  let mine (f : Firing) : Bool := let e := s.event f.idx; !e.device && e.source.toNat == n && !f.timed
  let back := (s.ptu.firing ++ s.ptu.deferred).filter mine
  { s with ptu := { s.ptu with
      firing := s.ptu.firing.filter fun f => !mine f
      deferred := s.ptu.deferred.filter fun f => !mine f
      events := back.foldl (fun es f => Tab.upd {} es f.idx fun e =>
        if !e.periodic then { e with valid := true } else if f.jump then e else e.retreat) s.ptu.events } }

/-- A source at the commit of its registers (R4, R24, R26): enable 0 discards its state, enable 1 from OFF
enters ACQUIRING. -/
def State.configSource (s : State) (n : Nat) (cfg gain lim : Word) : State :=
  let cfg := cfg &&& psCfgMask
  let lim := lim &&& psLimMask
  let c := s.source n
  let c1 : Source := { c with cfg := cfg, gain := gain, lim := lim }
  if !c1.enabled then
    let s := (s.setSource n .off).silence n
    s.onSource n fun c => { cfg := cfg, gain := gain, lim := lim, leftAt := c.leftAt }
  else
    let s := s.onSource n fun _ => c1
    if c.state == .off then s.setSource n .acquiring else s

/-- Take the firing at the head of this tick's list, where it is this entry's and of this kind. -/
def State.firingOf (s : State) (idx : Nat) (k : EvKind) : Option Firing :=
  match s.ptu.firing with
  | f :: _ => if f.idx = idx && f.kind == k then some f else none
  | [] => none

def State.takeFiring (s : State) : State :=
  { s with ptu := { s.ptu with firing := s.ptu.firing.drop 1, fired := s.ptu.fired + 1 } }

/-- A row of the event table acts on the head of this tick's firings. -/
def actFiring (idx : Nat) (k : EvKind) (f : Firing → State → State) (s : State) : Host.Outcome State Fault Refusal :=
  match s.firingOf idx k with
  | some x => act true (fun s => f x s.takeFiring) s
  | none => act false id s

def State.onResult (s : State) (cs : Nat) (f : ResultSlot → ResultSlot) : State :=
  let st := s.stream cs
  { s with results := Tab.upd {} s.results (64 * st.win + st.slot) f }

/-- The stream's INPUT_CLOSE fires in this tick and has not yet been taken: a frame that completes now belongs to the next
window (R151). -/
def State.closing (s : State) (cs : Nat) : Bool :=
  s.ptu.firing.any fun f => f.kind == .inputClose && (s.event f.idx).target.toNat == cs

/-- CHECK of a NOTIFY target: VI in [11:5], offset in [4:0] (R42). -/
def notifyTarget (t : BitVec 12) : Nat × Nat := (t.toNat / 32, t.toNat % 32)

/-- NOTIFY (R42): a message of the VI's vector plus 8 plus the offset. -/
def execNotify (e : EvIdx) (s : State) : Host.Outcome State Fault Refusal :=
  actFiring e.val .notify (fun f s =>
    let t := notifyTarget (s.event f.idx).target
    s.viMessage t.1 (8 + t.2)) s

end Sys2Proof.Machine
end

