-- ==== Sys2Proof/Machine/Receipts.lean ====
section
/-! DEFINITION. The start of a SESSION_FAULT (R370), and the forming of result records (R160, R161, R212, R217,
R220). -/

namespace Sys2Proof.Machine

/-- The start of a SESSION_FAULT (R370): the event is recorded, the session opens no new slot and issues no new
span, and the fault's device time is held for its abort. -/
def State.sessionFault (s : State) (sc : Nat) (r : HRec) : State :=
  let x := s.session sc
  let s := s.report { r with session := sc, vi := if x.operator then 255 else x.vi, world := if x.operator then 1 else 2 }
  if x.state == .free || x.state == .closing || x.faultAt.isSome then s
  else
    let s := s.onSess sc fun x => { x with state := .faulted, faultAt := some s.now }
    s.onWin x.window fun w => { w with errSession := true, errSessionCnt := w.errSessionCnt + 1, errNotice := true }

/-- The record header of R160. -/
def recordHeader (origin status fallback kind input flags source fmt seq phase inputTime rseq bytes : Nat)
    (userTag : Bytes) : Bytes :=
  Bytes.ofNat 2 origin ++ [BitVec.ofNat 8 (status + 16 * fallback + 64 * kind), BitVec.ofNat 8 input]
    ++ Bytes.ofNat 2 flags ++ [BitVec.ofNat 8 source, BitVec.ofNat 8 fmt] ++ Bytes.ofNat 8 seq ++ Bytes.ofNat 8 phase
    ++ Bytes.ofNat 8 inputTime ++ List.replicate 8 0 ++ Bytes.ofNat 8 rseq ++ Bytes.ofNat 2 bytes ++ [0, 0]
    ++ Bytes.slice userTag 0 12

/-- Receipt and encrypt a record (R212, R220). A session without a key, which no bound stream has, takes a zero
key. -/
def State.sealRecord (s : State) (sc rseq planGen keyxGen status : Nat) (header plain : Bytes) (encrypted : Bool) :
    Record :=
  let kd := (s.keyFor sc rseq).getD 0
  let tag := receiptTag kd header plain rseq sc planGen keyxGen
  if encrypted then
    let (c, g) := gcmSeal kd (gcmNonce 2 0 rseq) (maskHeader header ++ Bytes.big tag) plain
    { header := header, payload := c, tag := tag, gcm := g, plain := plain, status := status, since := s.now }
  else { header := header, payload := plain, tag := tag, gcm := [], plain := plain, status := status, since := s.now }

/-- The bytes of a record as it leaves: release_time and release_held are settled at release (R160, R220). -/
def Record.released (r : Record) (time : Nat) (held : Bool) : Bytes :=
  let h := r.header
  let flags := if held then h.getD 5 0 ||| 4 else h.getD 5 0
  h.take 5 ++ [flags] ++ (h.drop 6).take 26 ++ Bytes.ofNat 8 time ++ h.drop 40 ++ r.payload ++ Bytes.big r.tag ++ r.gcm

def InClass.code : InClass → Nat
  | .good => 0 | .none => 1 | .short => 2 | .long => 3 | .authFail => 4 | .malformed => 5

/-- Status codes of R160. -/
def rsOk : Nat := 0
def rsMissing : Nat := 1
def rsNotReady : Nat := 2
def rsOverrun : Nat := 3
def rsMismatch : Nat := 4
def rsFault : Nat := 5

/-- The RECEIPT entry of a stream in its plan (R123). -/
def Plan.receiptOf (p : Plan) (target : Nat) (isModel : Bool) : Option ReceiptEntry :=
  p.receipts.find? fun r => r.target == target && r.isModel == isModel

/-- Resources of two sets, and of the first without the second. -/
def Res.or (a b : Res) : Res := { bits := a.bits ||| b.bits, cs := a.cs ||| b.cs }
def Res.and (a b : Res) : Res := { bits := a.bits &&& b.bits, cs := a.cs &&& b.cs }
def Res.minus (a b : Res) : Res := { bits := a.bits &&& ~~~b.bits, cs := a.cs &&& ~~~b.cs }

/-- A lease covers an epoch (R255). -/
def Lease.covers (l : Lease) (e : Nat) : Bool := decide (l.first ≤ e) && (match l.last with
  | some n => decide (e ≤ n)
  | none => true)

/-- The leases of a window in an epoch, joined (R254). -/
def Roundabout.heldAt (rb : Roundabout) (w e : Nat) : Res :=
  rb.leases.foldl (fun a l => if l.win == w && l.covers e then a.or l.res else a) {}

/-- The resources that a window holds in the current epoch. -/
def State.held (s : State) (w : Nat) : Res := s.rb.heldAt w s.epoch

/-- An SE port is held with the video attribute (R172, R254). -/
def State.seVideo (s : State) (w se : Nat) : Bool := decide (se < 4) && (s.held w).bits.getLsbD (28 + se)
def State.siVideo (s : State) (w si : Nat) : Bool := decide (si < 4) && (s.held w).bits.getLsbD (24 + si)

/-- The payload length and format of a stream's records (R123). -/
def State.payloadOf (s : State) (cs : Nat) : Nat × Nat :=
  match (s.plan (s.stream cs).win).running with
  | none => (16, 0)
  | some p => match p.receiptOf cs false with
    | some r => (r.payloadBytes, r.payloadFmt)
    | none => (16, 0)

/-- What the plan in force gives a slot's record (R123, R146, R160, R220). -/
def State.formSlot (s : State) (cs : Nat) (x : SlotRun) : SlotRun :=
  { x with
    planGen := (s.session (s.stream cs).session).planGen
    len := (s.payloadOf cs).1, fmt := (s.payloadOf cs).2
    source := match s.calendarOf cs with
      | some c => if c.phase then c.source + 16 else 0
      | none => 0 }

/-- The fallback payload of a stream, of n bytes (R155). -/
def State.fallbackPayload (s : State) (cs n : Nat) : Bytes :=
  let st := s.stream cs
  Bytes.slice (if st.fallback = 0 then st.lastOk.getD [] else []) 0 n

/-- Form a record of a slot (R160, R161, R217): computed, or with the fallback payload and no arithmetic flags. -/
def State.slotRecord (s : State) (cs : Nat) (x : SlotRun) (status : Nat) (computed : Option (Bytes × BitVec 3))
    (compared : Bool) : Record :=
  let st := s.stream cs
  let flags := x.flags.toNat + (if compared then 512 else 0) + (match computed with
    | some c => c.2.toNat
    | none => 0)
  let payload := match computed with
    | some c => Bytes.slice c.1 0 x.len
    | none => s.fallbackPayload cs x.len
  let fb := if computed.isSome then 0 else if st.fallback = 0 then 1 else 2
  let h := recordHeader cs status fb 0 x.input.code flags x.source x.fmt x.seq x.icPhase.toNat x.icTime.toNat x.rseq x.len
    x.userTag
  s.sealRecord st.session x.rseq x.planGen.toNat x.keyxGen.toNat status h payload (!s.seVideo st.win st.se || (s.session st.session).conf)

/-- Change a slot of a stream. -/
def State.onSlot (s : State) (cs seq : Nat) (f : SlotRun → SlotRun) : State :=
  s.onStream cs fun st => { st with slots := st.slots.map fun x => if x.seq = seq then f x else x }

def State.slotOf (s : State) (cs seq : Nat) : Option SlotRun := (s.stream cs).slots.find? fun x => x.seq == seq

/-- Begin to form a slot's provisional record (R217). -/
def State.formFallback (s : State) (cs seq status : Nat) : State :=
  match s.slotOf cs seq with
  | none => s
  | some x => s.onSlot cs seq fun y => { y with fallback := some (s.slotRecord cs x status none false) }

/-- Begin to form a slot's computed record (R160). -/
def State.formComputed (s : State) (cs seq : Nat) (payload : Bytes) (flags : BitVec 3) (compared : Bool) : State :=
  match s.slotOf cs seq with
  | none => s
  | some x => s.onSlot cs seq fun y =>
      { y with computed := some (s.slotRecord cs x rsOk (some (payload, flags)) compared) }

/-- Begin to form the record of a comparison that ended as MISMATCH (R195, R217), where the slot's RELEASE has not fired: it stands
beside the provisional one until it is ready. -/
def State.formMismatch (s : State) (cs seq : Nat) : State :=
  match s.slotOf cs seq with
  | none => s
  | some x => if x.released.isSome then s
    else s.onSlot cs seq fun y => { y with mismatch := some (s.slotRecord cs x rsMismatch none false) }

/-- Begin to form the record of a decided status with the fallback payload: MISSING_INPUT, FAULT (R217). A slot whose RELEASE has
fired keeps the record that it releases (R156). -/
def State.formDecided (s : State) (cs seq status : Nat) : State :=
  match s.slotOf cs seq with
  | none => s
  | some x => if x.released.isSome then s else s.onSlot cs seq fun y => { y with computed := some (s.slotRecord cs x status none false) }

/-- The slot's program faulted: it releases FAULT (R156, R217, R370). -/
def State.slotFault (s : State) (cs seq : Nat) : State :=
  (s.onSlot cs seq fun y => { y with fault := true }).formDecided cs seq rsFault

end Sys2Proof.Machine
end

