-- ==== Sys2Proof/Machine/Access.lean ====
section
/-! DEFINITION. The stores and their Bollards: the Piazza with the Ownership Map (R91 to R101), the Arcade Local
Store with its regions (R84 to R90), poison and the errors that a code finds (R98 to R101), and the orders of the
scrub engines (R96, R103). -/

namespace Sys2Proof.Machine

/-- The page of a Piazza address (R91). -/
def pageOf (addr : Nat) : Nat := addr % 2 ^ 26 / 1024

/-- The segment of a Piazza address (R91). -/
def segOf (addr : Nat) : Nat := addr / 2 ^ 22 % 16

/-- An Ownership Map entry as it reads: DIRTY until its segment is zeroised after the self-test, and SCRUBBING while the order of that
zeroise runs (R94, R103, R106). -/
def State.omapOf (s : State) (page : Nat) : OmapEntry :=
  let e := Tab.get {} s.pz.omap page
  let g := s.segment (page / 4096 % 16)
  if g.zeroised || e.scrub == .retired then e else { e with scrub := if g.engine.isEmpty then .dirty else .scrubbing }

def State.onOmap (s : State) (page : Nat) (f : OmapEntry → OmapEntry) : State :=
  { s with pz := { s.pz with omap := Tab.upd {} s.pz.omap page f } }

/-- The Ownership Map lets a master reach a page (R10, R95, R232): an identifier of a listed unit, and for a master of a tenant's
or the operator's world the session that it acts for. A conf of 3 is FC_PRIVATE as 2 is (R94). -/
def State.pageAllows (s : State) (id : BitVec 16) (sc addr : Nat) : Bool :=
  let e := s.omapOf (pageOf addr)
  let world := id.toNat / 2 ^ 14
  addr < 2 ^ 26 && unitListed (id.toNat % 256) && e.valid && (e.scrub == .clean || e.scrub == .dirty)
    && (if world = 0 then e.conf != 1
      else if world = 3 then e.conf == 0
      else e.world.toNat == world && e.session.toNat == sc && (world == 1 || e.vi.toNat == id.toNat / 2 ^ 8 % 64))

/-- The world of a session's context (R205): none while it is FREE. -/
def Session.world (x : Session) : Nat := if x.state == .free then 0 else if x.operator then 1 else 2

/-- The world and VI that a unit carries when it acts for a session (R232). -/
def State.sessionWorld (s : State) (sc : Nat) : Nat × Nat :=
  let x := s.session sc
  (x.world, if x.operator then 0 else x.vi)

/-- The page may be read or written by a source unit that acts for a session (R95). -/
def State.pageOk (s : State) (unit sc addr : Nat) : Bool :=
  s.pageAllows (masterId (s.sessionWorld sc).1 (s.sessionWorld sc).2 unit) sc addr

/-- A refused access of a unit that acts for a session outside any program or command: the target does not act on it, and the
session takes a fault, as a program's refused access brings one (R95; log entry 96). -/
def State.accessRefused (s : State) (sc addr : Nat) : State :=
  s.sessionFault sc { event := 0x0202, unitKind := 2, unit := addr / 2 ^ 22 % 16, location := addr }

/-- A line of the Piazza and whether any of its words is poisoned (R98). -/
def Piazza.line (p : Piazza) (addr : Nat) : Bytes × Bool :=
  let a := addr / 64 * 64
  (Tab.getMany 0 p.mem a 64, (Tab.getMany false p.poison (a / 8) 8).any id)

/-- A write makes a CLEAN page DIRTY (R95), and marks the page where a line is poisoned (R94). -/
def Piazza.touch (p : Piazza) (addr : Nat) (poison : Bool) : Piazza :=
  { p with omap := Tab.upd {} p.omap (pageOf addr) fun e =>
      { e with scrub := if e.scrub == .clean then .dirty else e.scrub, poison := e.poison || poison } }

/-- Write a whole line, poisoned or good (R100, R101). -/
def Piazza.writeLine (p : Piazza) (addr : Nat) (b : Bytes) (poison : Bool) : Piazza :=
  let a := addr / 64 * 64
  Piazza.touch { p with mem := Tab.setMany 0 p.mem a (Bytes.slice b 0 64)
                        poison := Tab.setMany false p.poison (a / 8) (List.replicate 8 poison) } addr poison

/-- Write bytes from an address on; a word written whole loses its poison, and one written in part keeps it
(R101). -/
def Piazza.writeBytes (p : Piazza) (addr : Nat) (b : Bytes) : Piazza :=
  let words := (List.range (b.length / 8 + 2)).map fun i => addr / 8 + i
  let whole := words.filter fun w => decide (addr ≤ 8 * w) && decide (8 * w + 8 ≤ addr + b.length)
  let pages := (List.range (b.length / 1024 + 2)).map fun i => addr / 1024 + i
  let p := { p with mem := Tab.setMany 0 p.mem addr b
                    poison := whole.foldl (fun t w => Tab.set false t w false) p.poison }
  (pages.filter fun g => decide (g * 1024 < addr + b.length) && !b.isEmpty).foldl (fun p g => p.touch (g * 1024) false) p

/-- A page is all zero and free of poison (R103). -/
def Piazza.zeroPage (p : Piazza) (page : Nat) : Piazza :=
  { p with mem := Tab.clear p.mem (page * 1024) (page * 1024 + 1024)
           poison := Tab.clear p.poison (page * 128) (page * 128 + 128)
           omap := Tab.upd {} p.omap page fun e => { e with poison := false } }

/-- The ALS byte address of a bank's data word (R84). -/
def alsAddr (row bank : Nat) : Nat := row % 256 * 8192 + bank % 128 * 64

/-- A bank's data word with whether it is poisoned, and its side word with the same (R84, R98). -/
def Arcade.bankWord (c : Arcade) (row bank : Nat) : (Bytes × Bool) × (Bytes × Bool) :=
  let a := alsAddr row bank
  let w := row % 256 * 128 + bank % 128
  ((Tab.getMany 0 c.als a 64, (Tab.getMany false c.alsPoison (a / 8) 8).any id),
    (Tab.getMany 0 c.side (4 * w) 4, Tab.get false c.sidePoison w))

/-- Write a line of the ALS, poisoned or good (R100). -/
def Arcade.writeAls (c : Arcade) (addr : Nat) (b : Bytes) (poison : Bool) : Arcade :=
  let a := addr / 64 * 64
  { c with als := Tab.setMany 0 c.als a (Bytes.slice b 0 64)
           alsPoison := Tab.setMany false c.alsPoison (a / 8) (List.replicate 8 poison) }

/-- Rows lo to hi of the ALS are zero and good (R103). -/
def Arcade.zeroRows (c : Arcade) (lo hi : Nat) : Arcade :=
  { c with als := Tab.clear c.als (lo * 8192) ((hi + 1) * 8192)
           alsPoison := Tab.clear c.alsPoison (lo * 1024) ((hi + 1) * 1024)
           side := Tab.clear c.side (lo * 512) ((hi + 1) * 512)
           sidePoison := Tab.clear c.sidePoison (lo * 128) ((hi + 1) * 128) }

/-- The valid region that holds a row, with its descriptor index (R86). -/
def Arcade.regionAt (c : Arcade) (row : Nat) : Option (Nat × Region) :=
  c.regions.find? fun e => e.2.valid && decide (e.2.firstRow ≤ row) && decide (row ≤ e.2.lastRow)

/-- The region's owner matches the session (R87): world and VI, and the session unless it is shared. -/
def State.regionMine (s : State) (sc : Nat) (r : Region) (sharing : Bool) : Bool :=
  let x := s.session sc
  (if x.operator then r.world == 1 else r.world == 2 && r.vi == x.vi) && (r.session == sc || (sharing && r.shared))

/-- A sequencer may read a row in the weight role (R87). -/
def State.rowReadable (s : State) (a sc row : Nat) : Bool :=
  match (s.arcade a).regionAt row with
  | none => false
  | some (_, r) =>
    (if r.scratch then r.state == .empty else r.state == .measured) && s.regionMine sc r (!r.scratch)

/-- A program runs with a plan that a commit has replaced (R146). -/
def State.oldPlan (s : State) (w gen : Nat) : Bool := gen != (s.plan w).committedAt

/-- The region that a program's plan had on a row, where a commit has dropped it and the program still runs (R146). -/
def State.keptRegion (s : State) (a : Nat) (p : Prog) (row : Nat) : Option Region :=
  if s.oldPlan p.win p.gen then
    (s.arcade a).engine.findSome? fun o =>
      if o.win = p.win then o.keep.find? fun r => decide (r.firstRow ≤ row) && decide (row ≤ r.lastRow) else none
  else none

/-- The output stage may write a row: a SCRATCH region of the session (R87). -/
def State.rowWritable (s : State) (a sc row : Nat) : Bool :=
  match (s.arcade a).regionAt row with
  | none => false
  | some (_, r) => r.scratch && r.state == .empty && s.regionMine sc r false

/-- A program may read a row in the weight role, or its output stage may write it (R87, R146). -/
def State.progReads (s : State) (a : Nat) (p : Prog) (row : Nat) : Bool :=
  s.rowReadable a p.session row || (s.keptRegion a p row).any fun r =>
    (if r.scratch then r.state == .empty else r.state == .measured) && s.regionMine p.session r (!r.scratch)

def State.progWrites (s : State) (a : Nat) (p : Prog) (row : Nat) : Bool :=
  s.rowWritable a p.session row || (s.keptRegion a p row).any fun r => r.scratch && r.state == .empty && s.regionMine p.session r false

/-! The accumulator bank (R83): entry row × 128 + column. -/

def Arcade.accRow (c : Arcade) (row : Nat) : List AccEntry := Tab.getMany 0 c.acc (row * 128) 128
def Arcade.setAccRow (c : Arcade) (row : Nat) (v : List AccEntry) : Arcade :=
  { c with acc := Tab.setMany 0 c.acc (row * 128) v }
def Arcade.accPoisoned (c : Arcade) (row col : Nat) : Bool := Tab.get false c.accPoison (row * 128 + col)
/-- The 128 entries of a row are poisoned as a list says; past its end they are good. -/
def Arcade.setAccPoison (c : Arcade) (row : Nat) (p : List Bool) : Arcade :=
  { c with accPoison := Tab.setMany false c.accPoison (row * 128) ((List.range 128).map fun j => p.getD j false) }
/-- Which entries of a row are poisoned. -/
def Arcade.accRowPoison (c : Arcade) (row : Nat) : List Bool := Tab.getMany false c.accPoison (row * 128) 128

/-- The owner fields of a record about a Piazza address (R99). -/
def State.pageOwner (s : State) (addr : Nat) (r : HRec) : HRec :=
  let e := s.omapOf (pageOf addr)
  if e.valid then { r with session := e.session.toNat, vi := if e.world = 2 then e.vi.toNat else 255
                           world := e.world.toNat, location := addr }
  else { r with location := addr }

/-- The owner fields of a record about an ALS row (R99); the location of R387. -/
def State.rowOwner (s : State) (a row bank : Nat) (r : HRec) : HRec :=
  let loc := a * 2 ^ 60 + alsAddr row bank
  match (s.arcade a).regionAt row with
  | some (_, g) => { r with session := g.session, vi := if g.world = 2 then g.vi else 255, world := g.world, location := loc }
  | none => { r with location := loc }

/-- An error that a code found in a word of the Piazza (R98, R99, R107 to R109). -/
def State.piazzaError (s : State) (addr : Nat) (e : Ecc) : State :=
  let n := segOf addr
  match e with
  | .ce => (s.onSeg n fun g => { g with ce := g.ce + 1 }).report (s.pageOwner addr { event := 0x0101, unitKind := 2, unit := n })
  | .ue =>
    let s := { s with pz := { s.pz with poison := Tab.set false s.pz.poison (addr / 8) true
                                        omap := Tab.upd {} s.pz.omap (pageOf addr) fun x => { x with poison := true } } }
    let line := addr / 64 % 65536
    (s.onSeg n fun g => { g with ue := min (g.ue + 1) 65535
                                 spareMarks := if g.spareMarks.contains line then g.spareMarks else g.spareMarks ++ [line]
                                 uePass := if g.uePass.contains line then g.uePass else g.uePass ++ [line] }).report
      (s.pageOwner addr { event := 0x0007, unitKind := 2, unit := n })

/-- An error that a code found in an ALS data word or side word (R98, R99). -/
def State.alsError (s : State) (a row bank word : Nat) (side : Bool) (e : Ecc) : State :=
  let r : HRec := { event := if e == .ce then 0x0102 else 0x0008, unitKind := 1, unit := a }
  let s := match e with
    | .ce => s
    | .ue => s.onArc a fun c =>
        let c := if c.spareMarks.contains (row % 256 * 128 + bank % 128) then c
          else { c with spareMarks := c.spareMarks ++ [row % 256 * 128 + bank % 128] }
        if side then { c with sidePoison := Tab.set false c.sidePoison (row % 256 * 128 + bank % 128) true }
        else { c with alsPoison := Tab.set false c.alsPoison (alsAddr row bank / 8 + word % 8) true }
  s.report (s.rowOwner a row bank r)

/-- An error in an accumulator entry (R98, R99). R387 lays out no location for one: the model puts the Arcade in [63:60] and
row × 128 + column below (DESIGN CHOICE, log entry 91). -/
def State.accError (s : State) (a sc row col : Nat) (e : Ecc) : State :=
  let x := s.session sc
  let r : HRec := { event := if e == .ce then 0x0103 else 0x0009, unitKind := 1, unit := a, session := sc
                    vi := if x.operator then 255 else x.vi, world := if x.operator then 1 else 2
                    location := a * 2 ^ 60 + row * 128 + col }
  let s := match e with
    | .ce => s
    | .ue => s.onArc a fun c => { c with accPoison := Tab.set false c.accPoison (row * 128 + col) true }
  s.report r

/-! Scrub engines (R96, R103). -/

/-- The free pool (R96): valid = 0 and CLEAN. -/
def State.pageFree (s : State) (page : Nat) : Bool :=
  let e := s.omapOf page
  !e.valid && e.scrub == .clean

/-- Order the zeroise of pages: their entries move to SCRUBBING at once, and the engine of each segment takes
its part of the order (R96, R103). RETIRED pages stay so, and those SCRUBBING are under an order already. -/
def State.zeroisePages (s : State) (pages : List Nat) (toPool emergency : Bool) : State :=
  let pages := pages.filter fun g => (s.omapOf g).scrub != .retired && (s.omapOf g).scrub != .scrubbing
  let s := pages.foldl (fun s g => s.onOmap g fun e => { e with scrub := .scrubbing }) s
  (List.range 16).foldl (fun s n =>
    let mine := pages.filter fun g => g / 4096 = n
    if mine.isEmpty then s
    else s.onSeg n fun g => { g with engine := g.engine ++ [{ items := mine, toPool := toPool, emergency := emergency }] }) s

/-- Order the zeroise of a region: it is SCRUBBING, and the engine of the ALS takes the order; with `free` it ends
invalid and EMPTY, otherwise valid and EMPTY (R86, R90, R103). -/
def State.zeroiseRegion (s : State) (a r : Nat) (free emergency : Bool) : State :=
  s.onArc a fun c => { c with
    regions := Tab.upd {} c.regions r fun g => { g with state := .scrubbing, plan := if free then none else g.plan }
    engine := c.engine ++ [{ items := [r], toPool := free, emergency := emergency }] }

/-- The pages of a session (R96). -/
def State.pagesOf (s : State) (sc : Nat) : List Nat :=
  s.pz.omap.filterMap fun e => if e.2.valid && e.2.world != 0 && e.2.session.toNat == sc then some e.1 else none

/-- The valid regions of every Arcade that a test selects: Arcade and descriptor index. -/
def State.regionsWhere (s : State) (f : Region → Bool) : List (Nat × Nat) :=
  (s.arc.map fun e => (e.2.regions.filter fun r => r.2.valid && f r.2).map fun r => (e.1, r.1)).flatten

/-- A region bound to a session (R86). -/
def Region.ownedBy (r : Region) (sc : Nat) : Bool := r.world != 0 && r.session == sc && r.state != .retained

/-- A region under a zeroise order that would keep it is freed at the end of that order instead (R90, R103). -/
def Arcade.freeItem (c : Arcade) (d : Nat) : Arcade :=
  { c with
    regions := Tab.upd {} c.regions d fun g => { g with plan := none }
    engine := (c.engine.map fun o =>
      if o.items.contains d && !o.toPool then
        (if o.items == [d] && o.rows.isEmpty then [] else [{ o with items := o.items.erase d }]) ++ [{ o with items := [d], rows := [], toPool := true }]
      else [o]).flatten }

/-- The regions of a session that closes or is aborted (R90). A plain WEIGHTS region is RETAINED for its VI; one that is
being zeroised has nothing to keep, and is freed (log entry 15). -/
def State.releaseRegions (s : State) (sc : Nat) : State :=
  (s.regionsWhere fun r => r.ownedBy sc && r.state != .retained).foldl (fun s x =>
    let r := Tab.get {} (s.arcade x.1).regions x.2
    if r.state == .scrubbing then s.onArc x.1 fun c => c.freeItem x.2
    else if r.scratch || r.conf then s.zeroiseRegion x.1 x.2 true false
    else s.onArc x.1 fun c => { c with regions := Tab.upd {} c.regions x.2 fun g => { g with state := .retained, session := 0 } }) s

/-- The RETAINED regions of a VI on the Arcades of a mask are zeroised (R90, R258). -/
def State.dropRetained (s : State) (w mask : Nat) : State :=
  (s.regionsWhere fun r => r.state == .retained && r.world == (if w = 64 then 1 else 2) && (w == 64 || r.vi == w)).foldl
    (fun s x => if Bits.bit mask x.1 then s.zeroiseRegion x.1 x.2 true false else s) s

end Sys2Proof.Machine
end

