-- ==== Sys2Proof/Machine/Reset.lean ====
section
/-! DEFINITION. What the scrub engines leave when an order ends (R103, R107), the emergency zeroise, the records cut
short at the egress ports (R459), and the block reset (R371, R444). -/

namespace Sys2Proof.Machine

/-- Bank and bank row of a line of a segment (R91): a marked row is named by the number of its line. -/
def bankOfLine (line : Nat) : Nat := line % 16

/-- The rows of a page that are marked for sparing take a spare where their bank has one of its 64 left (R106, R107).
Answers the segment and the marked rows that no spare could replace. -/
def Segment.spareRows (g : Segment) (page : Nat) : Segment × List Nat :=
  let mine := g.spareMarks.filter fun l => l / 16 = page % 4096
  mine.foldl (fun x l =>
    let used := Tab.get 0 x.1.spares (bankOfLine l)
    if used < 64 then
      ({ x.1 with spares := Tab.set 0 x.1.spares (bankOfLine l) (used + 1)
                  spareMarks := x.1.spareMarks.filter fun m => m != l }, x.2)
    else (x.1, x.2 ++ [l])) (g, [])

/-- A page is retired: it leaves the pool for good until the next self-test (R106, R107). -/
def State.retirePage (s : State) (page : Nat) : State :=
  let n := page / 4096
  let s := s.onOmap page fun _ => { scrub := .retired }
  let s := s.onSeg n fun g => { g with retired := min (g.retired + 1) 4095 }
  s.report { event := 0x0404, unitKind := 2, unit := n, location := page * 1024 }

/-- The zeroise of a page ends: it is CLEAN and returns to the free pool, or stays with its owner; its marked rows are
spared, and where no spare remains a released page is RETIRED (R103, R107). -/
def State.pageDone (s : State) (toPool : Bool) (page : Nat) : State :=
  if (s.omapOf page).scrub == .retired then s
  else
    let n := page / 4096
    let s := { s with pz := s.pz.zeroPage page }
    let (g, left) := (s.segment n).spareRows page
    let s := s.onSeg n fun _ => g
    if toPool then
      if left.isEmpty then s.onOmap page fun _ => {} else s.retirePage page
    else s.onOmap page fun e => { e with scrub := .clean, poison := false }

/-- The rows of the ALS that are marked for sparing, of the 4 spare rows of each bank (R106, R107): a row that cannot
be spared leaves region placement. A marked row is named by row × 128 + bank. -/
def Arcade.spareRows (c : Arcade) (lo hi : Nat) : Arcade :=
  let mine := c.spareMarks.filter fun l => decide (lo ≤ l / 128) && decide (l / 128 ≤ hi)
  mine.foldl (fun c l =>
    let used := Tab.get 0 c.spares (l % 128)
    let c := { c with spareMarks := c.spareMarks.filter fun m => m != l }
    if used < 4 then { c with spares := Tab.set 0 c.spares (l % 128) (used + 1) }
    else { c with badRows := c.badRows ++ [l / 128] }) c

/-- An ALS row that no spare could replace is reported (R106), as PAGE_RETIRED of the Arcade, whose row of R388 names R106
(DEDUCED, log entry 94). -/
def State.rowReport (s : State) (a row : Nat) : State :=
  s.report { event := 0x0404, unitKind := 1, unit := a, location := a * 2 ^ 60 + alsAddr row 0 }

/-- The zeroise of a region ends: its rows are zero, and it is EMPTY, and no longer valid where the order frees it
(R86, R90, R103). -/
def Arcade.regionDone (c : Arcade) (free : Bool) (r : Nat) : Arcade :=
  let g := Tab.get {} c.regions r
  let c := (c.zeroRows g.firstRow g.lastRow).spareRows g.firstRow g.lastRow
  { c with regions := Tab.set {} c.regions r (if free then {} else { g with state := .empty, digest := 0 }) }

/-- A scrub engine ends its first order (R103). -/
def State.endPagesOrder (s : State) (o : ZOrder) : State := o.items.foldl (fun s p => s.pageDone o.toPool p) s

def State.endRegionsOrder (s : State) (a : Nat) (o : ZOrder) : State :=
  let was := (s.arcade a).badRows
  let s := s.onArc a fun c =>
    let c := o.rows.foldl (fun (c : Arcade) r => (c.zeroRows r.1 r.2).spareRows r.1 r.2) c
    o.items.foldl (fun c r => c.regionDone o.toPool r) c
  ((s.arcade a).badRows.drop was.length).foldl (fun s r => s.rowReport a r) s

/-- An emergency order of a segment and the ALS beneath it zeroises the whole unit; the orders it pre-empts complete
with it, and every other page and region keeps its owner (R103). -/
def State.zeroiseUnit (s : State) (n : Nat) : State :=
  let pageOrders := (s.segment n).engine
  let alsOrders := (s.arcade n).engine
  let s := { s with pz := { s.pz with
    mem := Tab.clear s.pz.mem (n * 2 ^ 22) ((n + 1) * 2 ^ 22)
    poison := Tab.clear s.pz.poison (n * 2 ^ 19) ((n + 1) * 2 ^ 19)
    omap := Tab.mapVals {} s.pz.omap fun p (e : OmapEntry) =>
      if p / 4096 = n && e.scrub != Scrub.retired then { e with scrub := .clean, poison := false } else e } }
  let s := pageOrders.foldl (fun s o => s.endPagesOrder o) s
  let s := s.onSeg n fun g => { g with engine := [] }
  let s := alsOrders.foldl (fun s o => s.endRegionsOrder n o) s
  s.onArc n fun c => { c with
    als := [], side := [], alsPoison := [], sidePoison := [], engine := []
    regions := Tab.mapVals {} c.regions fun _ (g : Region) => { g with state := .empty, digest := 0 } }

def State.zeroiseAll (s : State) : State := (List.range 16).foldl (fun s n => s.zeroiseUnit n) s

/-- An SE port ends the record in progress at its next beat, with sek_abort (R459, R489). -/
def State.cutRecords (s : State) : State :=
  (List.range 4).foldl (fun s k =>
    let p := Tab.get {} s.se k
    if p.sending.isSome && decide (s.ptu.tick < p.busyUntil) then
      State.emit { s with se := Tab.set {} s.se k { p with sending := none, busyUntil := 0, aborted := p.aborted + 1 } }
        (.recordCut k)
    else s) s

/-- The block at the start of a boot (R286): every register at its reset value; the fuses, the boot flash, the straps
and the model's own fields stay as they are. The debug grant is in PD33 and stays until its power is lost (R313), and
so does the health ring through a block reset (R381). -/
def State.freshBoot (s : State) (health : Health) (grant : BitVec 5) : State :=
  { State.reset with
    pending := s.pending, out := s.out, free := s.free
    trng := {}
    top := { straps := s.top.straps }
    flash := s.flash, fuses := s.fuses
    lc := { grant := grant }
    health := health }

/-- What the health ring and the cause register hold after a block reset (R371, R381, R396). -/
def Health.afterReset (h : Health) (cause unit event : Nat) : Health :=
  { ring := h.ring, nextRec := h.nextRec, lastBlock := h.lastBlock
    resets := min (h.resets + 1) (2 ^ 32 - 1), cause := cause, causeUnit := unit, causeEvent := event
    resetUnitKind := h.resetUnitKind, resetTime := h.resetTime }

/-- The reset itself: the block boots from step 1, with what the health unit keeps. therm_trip_n stays low until por_n
(R474). -/
def State.restart (s : State) (cause unit event kind : Nat) (last : Option HRec) : State :=
  let t := s.freshBoot (Health.afterReset
    { s.health with lastBlock := last, resetUnitKind := kind, resetTime := s.now / 1000000000 } cause unit event) s.lc.grant
  { t with pm := { t.pm with thermTrip := s.pm.thermTrip } }

/-- A block reset (R371): a FAIL notice leaves (R429), the records in progress are cut, the emergency zeroise runs, the record of the event is
written, and the block boots from step 1. -/
def State.blockReset (s : State) (cause unit event : Nat) (r : Option HRec) : State :=
  let s := (s.sendNotice 1).cutRecords.zeroiseAll
  let s := match r with
    | some r => s.report r
    | none => s
  let h := s.health
  let kind := match r with
    | some r => r.unitKind
    | none => 0
  let last := match r with
    | some _ => h.ring.getLast?
    | none => h.lastBlock
  s.restart cause unit event kind last

/-- A reset that the block makes itself after a transition or an unlock (R302, R313). -/
def State.selfReset (s : State) (cause : Nat) : State := s.blockReset cause 0xFF 0 none

end Sys2Proof.Machine
end

