-- ==== Sys2Proof/Machine/TileExec.lean ====
section
/-! DEFINITION. What one tile instruction does (R128 to R139): the array steps of TILE, the drains of OUT, the parts
of a split reduction, the copies of MOVE, with the checks of the Bollards, poison (R100), void rows (R128) and the
span signature (R183). -/

namespace Sys2Proof.Machine

/-- A run of an instruction: the state and program after it, the event of R388 that ends the program (0 none), and
whether it waits. -/
structure Ran where
  s : State
  p : Prog
  stop : Nat := 0
  wait : Bool := false

/-- The fields of TILE (R129). -/
structure TileOp where
  act : Nat
  wt : Nat
  fan : Nat
  accRow : Nat
  clear : Bool
  ad : Nat
  steps : Nat
  kpr : Nat
  t0 : Nat
  aR : Nat
  aK : Nat
  aG : Nat
  wR : Nat
  wK : Nat
  sK : Nat
  sR : Nat
deriving DecidableEq, Repr

/-- The activation fan b (R79). -/
def TileOp.b (t : TileOp) : Nat := 2 ^ t.fan

/-- Accumulator row of step i (R130). -/
def TileOp.row (t : TileOp) (i : Nat) : Nat := t.accRow + i / t.kpr

/-- Weight sub-tile of step i (R130). -/
def TileOp.subtile (t : TileOp) (i : Nat) : Nat := t.t0 + i / t.kpr * t.wR + i % t.kpr * t.wK

/-- Byte address of the activation line of group g at step i, from the base that the register holds (R130). -/
def TileOp.line (t : TileOp) (base i g : Nat) : Nat :=
  64 * (base / 64 + i / t.kpr * t.aR + i % t.kpr * t.aK + g * t.aG)

/-- Byte address of the scale line of step i (R130). -/
def TileOp.scaleLine (t : TileOp) (base i : Nat) : Nat := 64 * (base / 64 + i / t.kpr * t.sR + i % t.kpr * t.sK)

/-- Sub-tiles per row (R131). -/
def TileOp.subsPerRow (t : TileOp) (m : Mode) : Nat := if m.half then 2 * t.b else t.b

/-- The bank that logical output j of a group reads of sub-tile v of its row (R131). -/
def TileOp.bank (t : TileOp) (m : Mode) (v j : Nat) : Nat :=
  if m == .int8x4 then v * (64 / t.b) + j / 2
  else if m.half then v * (64 / t.b) + j
  else v * (128 / t.b) + j

/-- The Piazza lines that step i reads: one for each group, and the scale line of MX (R80, R130). -/
def TileOp.reads (t : TileOp) (m : Mode) (ads : Nat → Nat) (i : Nat) : List Nat :=
  ((List.range t.b).map fun g => t.line (ads t.ad) i g) ++ (if m.isMx then [t.scaleLine (ads (t.ad + 1)) i] else [])

/-- The value of an address register (R128). -/
def Prog.address (p : Prog) (k : Nat) : Nat := (p.ads.getD k 0).toNat

/-- The zero of an entry of the kind that a mode adds into (R83). -/
def Mode.zero (m : Mode) : AccEntry := if m.isInt then AccEntry.ofInt 0 else AccEntry.ofFloat 0

/-- What column j adds at a step, and whether an operand was poisoned (R100, R130, R131). `vecs` are the activation lines by
group and `sc` the scale line; scales and side words are operands of the MX modes alone. -/
def Arcade.column (c : Arcade) (t : TileOp) (m : Mode) (row v : Nat) (vecs : List (Bytes × Bool)) (sc : Bytes × Bool)
    (j : Nat) : Sum × Bool :=
  let size := m.columns / t.b
  let g := j / size
  let ((data, poison), (side, sidePoison)) := c.bankWord row (t.bank m v (j % size))
  let wt := if m == .int8x4 then (data.drop (32 * (j % size % 2))).take 32 else data
  let act := vecs.getD g ([], false)
  let xa := (List.range m.blocks).map fun h => (sc.1.getD (m.blocks * g + h) 0).toNat
  let xw := (List.range m.blocks).map fun h => (side.getD h 0).toNat
  (columnSum m t.act t.wt act.1 wt xa xw, act.2 || poison || (m.isMx && (sidePoison || sc.2)))

/-- One array step (R130): every column adds its K-group; a poisoned operand of any column poisons every entry that the step
adds into (R100). A clearing step starts all 128 entries of the row from zero, good (R83, R129). The 64 logical columns of BF16 and
FP16 add into entries 0 to 63 (R58 does not say which; DESIGN CHOICE, log entry 91). `flips` are silent errors of the array
at this step. -/
def State.tileStep (s : State) (a : Nat) (p : Prog) (t : TileOp) (m : Mode) (flips : List (Nat × BitVec 64))
    (i : Nat) : Ran :=
  let row := t.row i
  let clear := t.clear && i % t.kpr == 0
  let wrow := p.baseRow + t.subtile i / t.subsPerRow m
  let lines := t.reads m p.address i
  if lines.any (fun x => segOf x != a || !s.pageOk (0x10 + a) p.session x) || !s.progReads a p wrow then
    { s := s, p := p, stop := 0x0202 }
  else if !clear && !p.valid.contains row then { s := s, p := p, stop := 0x0203 }
  else
    let c := s.arcade a
    let vecs := (lines.take t.b).map s.pz.line
    let sc := match lines.drop t.b with
      | x :: _ => s.pz.line x
      | [] => ([], false)
    let cols := (List.range m.columns).map fun j =>
      let x := c.column t m wrow (t.subtile i % t.subsPerRow m) vecs sc j
      (match flips.find? fun f => f.1 == j with
      | some f => x.1.flip f.2
      | none => x.1, x.2)
    let old := if clear then List.replicate 128 (m.zero) else c.accRow row
    let new := cols.mapIdx fun j x => (old.getD j 0).accumulate x.1
    let was := if clear then [] else c.accRowPoison row
    let bad := cols.any fun x => x.2
    let poison := cols.mapIdx fun j _ => bad || was.getD j false
    let c := (c.setAccRow row (new ++ old.drop m.columns)).setAccPoison row (poison ++ was.drop m.columns)
    let s := s.onArc a fun _ => c
    { s := s.perf p.session 0 1
      p := { p with valid := if p.valid.contains row then p.valid else row :: p.valid
                    poisoned := p.poisoned || poison.any id } }

/-- The steps of a TILE in ascending order, until one ends the program (R65, R130). -/
def State.tileSteps (s : State) (a : Nat) (p : Prog) (t : TileOp) (m : Mode) (u : List Upset) : Ran :=
  (List.range t.steps).foldl (fun x i =>
    if x.stop ≠ 0 then x
    else x.s.tileStep a x.p t m (u.filterMap fun e => match e with
      | .array st col f => if st = i then some (col, f) else none
      | _ => none) i) { s := s, p := p }

/-! The output stage (R69 to R75, R132). -/

/-- What a column writes: an integer with its saturation, or a value for step 4 of the float path. -/
inductive OutVal where
  | int (q : Int) (sat : Bool)
  | val (v : FVal)
deriving DecidableEq, Repr

/-- Steps 1 to 3 of the output stage for one entry, and step 4 of the integer path (R69, R70, R71). -/
def OutDesc.value (d : OutDesc) (l : Option Lut) (e : AccEntry) (c : Nat) : OutVal :=
  let bias := d.bias.getD c 0
  let scale := d.scaleVec.getD c d.scale
  if !e.isFloat && isIntOut d.fmt && d.act != 3 then
    let (q, sat) := intPath (Round.ofCode d.rounding) e.int bias.toInt scale.toInt d.sh d.act d.lo.toInt d.hi.toInt
      d.zeroPoint.toInt (codeWidth d.fmt)
    .int q sat
  else
    let y : F32 := if e.isFloat then F32.add e.float bias else F32.round (FVal.ofInt (satInt 48 (e.int + bias.toInt)) 0)
    let z := F32.mul y scale
    .val (F32.val (match l with
      | some l => if d.act = 3 then lutEval l.lo l.hi l.wInv l.coeffs z else actFloat d.act d.lo d.hi z
      | none => actFloat d.act d.lo d.hi z))

/-- The code of a value in a format that is not MX, with its flags (R69, R72, R73, R75). -/
def OutDesc.code (d : OutDesc) : OutVal → Nat × Flags
  | .int q sat => ((q % 2 ^ codeWidth d.fmt).toNat, { sat := sat })
  | .val v => convertOut (Round.ofCode d.rounding) d.satMode d.fmt v

def OutVal.exact : OutVal → FVal
  | .int q _ => FVal.ofInt q 0
  | .val v => v

/-- A drained row: its element bytes, its MX scale bytes and its flags (R74, R75, R132). -/
def OutDesc.row (d : OutDesc) (l : Option Lut) (es : List AccEntry) : Bytes × Bytes × Flags :=
  let vs := (es.take d.cols).mapIdx fun c e => d.value l e c
  if isMxOut d.fmt then
    let bs := (Bytes.chunks 32 4 (vs.map OutVal.exact)).map fun b => mxBlock (Round.ofCode d.rounding) d.fmt b
    (packCodes (codeWidth d.fmt) (bs.map (·.1)).flatten, bs.map fun b => BitVec.ofNat 8 b.2.1,
      bs.foldl (fun f b => f.or b.2.2) {})
  else
    let cs := vs.map d.code
    (packCodes (codeWidth d.fmt) (cs.map (·.1)), [], cs.foldl (fun f c => f.or c.2) {})

/-- Pad with zeros to a multiple of n bytes. -/
def padTo (n : Nat) (b : Bytes) : Bytes := Bytes.slice b 0 ((b.length + n - 1) / n * n)

/-! The span signature (R183). -/

/-- The buffer that a schedule entry binds at index k (R140). -/
def Plan.bound (p : Plan) (x : Schedule) (k : Nat) : Option Buffer :=
  match x.ads[k]? with
  | some i => p.buffers[i]?
  | none => none

def Buffer.holds (b : Buffer) (addr : Nat) : Bool := decide (b.base ≤ addr) && decide (addr < b.base + b.pages * 1024)

def Plan.scheduleAt (p : Plan) (n : Nat) : Option Schedule := p.schedules[n]?

/-- The binding index of the buffer that holds an address, and the offset in it; 0xFF where none does. -/
def Plan.bindingOf (p : Plan) (sch addr : Nat) : Nat × Nat :=
  match p.scheduleAt sch with
  | none => (0xFF, addr)
  | some x =>
    match (List.range 4).find? fun k => match p.bound x k with
      | some b => b.holds addr
      | none => false with
    | some k => match p.bound x k with
      | some b => (k, addr - b.base)
      | none => (0xFF, addr)
    | none => (0xFF, addr)

/-- The descriptor block of a write (R183). -/
def sigBlock (kind binding flags offset length : Nat) : Bytes :=
  [BitVec.ofNat 8 kind, BitVec.ofNat 8 binding, BitVec.ofNat 8 flags, 0] ++ Bytes.ofNat 4 offset
    ++ Bytes.ofNat 4 length ++ List.replicate 4 0

/-- A write enters the signature of its span; one that is not to the record also enters the signature that a dual run
compares (R183, R193). -/
def Prog.sign (p : Prog) (kind binding flags offset : Nat) (data : Bytes) : Prog :=
  let xs := blocksOf (sigBlock kind binding flags offset data.length ++ data)
  let p := { p with sigAcc := polyHash p.plan.hKey p.sigAcc xs, sigBlocks := p.sigBlocks + xs.length }
  if kind = 2 then p
  else { p with otherAcc := polyHash p.plan.hKey p.otherAcc xs, otherBlocks := p.otherBlocks + xs.length }

def Prog.signature (p : Prog) : BitVec 128 := polyFinish p.sigAcc p.sigBlocks

/-! OUT (R132). -/

/-- The lines of a PIAZZA or ALS_SCRATCH row with the address of each: the elements, then the scale bytes. A destination that is no
multiple of 64 stands for its line (R132 gives no rule; DESIGN CHOICE, log entry 104). -/
def outLines (addr : Nat) (data scales : Bytes) : List (Nat × Bytes) :=
  let ls := Bytes.chunks 64 data.length (padTo 64 data)
  let ls := if scales.isEmpty then ls else ls ++ [padTo 64 scales]
  ls.mapIdx fun k b => (addr / 64 * 64 + 64 * k, b)

/-- Write a drained row to its destination (R132, R100). A check writes to the Piazza and nowhere else (R182). Answers
none where a Bollard refuses the access (R87, R95). -/
def State.outRow (s : State) (a : Nat) (p : Prog) (dst addr : Nat) (data scales : Bytes) (flags : Nat)
    (poison : Bool) : Option (State × Prog) :=
  let lines := outLines addr data scales
  let whole := (lines.map (·.2)).flatten
  if dst = 0 then
    if lines.all fun x => segOf x.1 == a && s.pageOk (0x10 + a) p.session x.1 then
      let (k, o) := p.plan.bindingOf p.schedule addr
      let s := { s with pz := lines.foldl (fun z x => z.writeLine x.1 x.2 poison) s.pz }
      some (s, p.sign 0 k flags o whole)
    else none
  else if dst = 1 then
    if p.role == .check then some (s, p.sign 1 0xFF flags addr whole)
    else if lines.all fun x => decide (x.1 < 2 ^ 21) && s.progWrites a p (x.1 / 8192) then
      some (s.onArc a fun c => lines.foldl (fun c x => c.writeAls x.1 x.2 poison) c, p.sign 1 0xFF flags addr whole)
    else none
  else
    let whole := padTo 16 data
    let q := p.sign 2 0xFF flags addr whole
    if p.role == .check then some (s, q)
    else some (s, { q with payload := Tab.setMany 0 q.payload addr whole })

/-- The scale row of an MX row in a record follows its elements (log entry 89). -/
def recordBytes (data scales : Bytes) : Bytes := data ++ scales

/-- Drain row n of an OUT (R132): a void row ends the program (R128), a poisoned entry poisons its destination (R100).
The flags of a row gather into the slot's (R75). -/
def State.drainRow (s : State) (a : Nat) (p : Prog) (accRow odesc dstAd dst stride n : Nat) : Ran :=
  match p.plan.outputs[odesc]? with
  | none => { s := s, p := p, stop := 0x0202 }
  | some d =>
    let c := s.arcade a
    let row := accRow + n
    if !p.valid.contains row then { s := s, p := p, stop := 0x0203 }
    else
      let poison := (List.range d.cols).any fun j => c.accPoisoned row j
      let (data, scales, fl) := d.row p.plan.luts[d.lut]? (c.accRow row)
      let unit := if dst = 2 then 16 else 64
      let addr := p.address dstAd + n * stride * unit
      let data := if dst = 2 then recordBytes data scales else data
      let flags := fl.bits
      match s.outRow a { p with flags := p.flags ||| flags, poisoned := p.poisoned || poison } dst addr data
          (if dst = 2 then [] else scales) flags.toNat poison with
      | some (s, p) => { s := s, p := p }
      | none => { s := s, p := p, stop := 0x0202 }

/-- Run a list of row numbers through a row's action, until one ends the program. -/
def runRows (n : Nat) (f : State → Prog → Nat → Ran) (s : State) (p : Prog) : Ran :=
  (List.range n).foldl (fun x i => if x.stop ≠ 0 then x else f x.s x.p i) { s := s, p := p }

/-! Split reductions (R134, R200). -/

/-- The bytes of an entry as a part carries it: ACC48 in 64 bits, or FP32 (R53, R67). -/
def AccEntry.bytes (e : AccEntry) : Bytes := if e.isFloat then Bytes.ofNat 4 e.float.toNat else Bytes.ofNat 8 e.wire.toNat

/-- A row of a part on the link: its entries, and the mask of those that are poisoned (R100; log entry 31). -/
def partRowBytes (es : List AccEntry) (poison : List Bool) : Bytes := (es.map AccEntry.bytes).flatten ++ maskBytes poison

/-- The digest of a part (R200): its descriptor block holds the reduction index, the part and the run count. -/
def collectiveDigest (key : BitVec 128) (rdesc part count : Nat) (rows : List (List AccEntry)) : BitVec 128 :=
  let d := Bytes.ofNat 4 rdesc ++ Bytes.ofNat 4 part ++ Bytes.ofNat 8 count
  let xs := blocksOf (d ++ ((rows.map fun r => (r.map AccEntry.bytes).flatten).flatten))
  polyFinish (polyHash key 0 xs) xs.length

/-- The REMOTE entry of a reduction (R438). -/
def Plan.remoteOf (p : Plan) (r : Nat) : Option Remote := p.remotes.find? fun x => x.reduction == r

/-- Part `q` of a reduction comes from the partner, or its total stands there (R438). -/
def Plan.partRemote (p : Plan) (r q : Nat) : Bool :=
  match p.remoteOf r with
  | some x => x.mask.getLsbD q
  | none => false
def Plan.destRemote (p : Plan) (r : Nat) : Bool :=
  match p.remoteOf r with
  | some x => x.destRemote
  | none => false

/-- A part leaves for the Arcade that combines, or over the link (R134, R438). A check sends nothing (R182). -/
def State.sendPart (s : State) (a : Nat) (p : Prog) (accRow rows rdesc part : Nat) (dg : Bool) : Ran :=
  match p.plan.reductions[rdesc]? with
  | none => { s := s, p := p, stop := 0x0202 }
  | some r =>
    let nums := (List.range rows).map fun i => accRow + i
    if nums.any fun x => !p.valid.contains x then { s := s, p := p, stop := 0x0203 }
    else
      let c := s.arcade a
      let data := nums.map c.accRow
      let poison := nums.map c.accRowPoison
      let bad := poison.any fun x => x.any id
      let first := r.recvRow + part * r.rows
      let far := p.plan.destRemote rdesc
      let key := if far then s.fm.collectiveKey else p.plan.hcKey
      let bytes := (data.map fun x => (x.map AccEntry.bytes).flatten).flatten
      let p := { p.sign 3 part 0 first bytes with poisoned := p.poisoned || bad }
      let part1 : InPart := { gen := p.gen, rdesc := rdesc, part := part, row := first, rows := data, source := some (a, p.role)
                              digest := if dg then collectiveDigest key rdesc part p.count data else 0
                              poison := poison }
      if p.role == .check then { s := s, p := p }
      else if far then
        { s := s.sendPartMsg rdesc part ((data.zip poison).map fun x => partRowBytes x.1 x.2) part1.digest, p := p }
      else { s := s.onArc r.dest fun c => { c with inFlight := c.inFlight ++ [part1] }, p := p }

/-- The key of an arrival mark: the commit of the plan, the reduction and the part (R134, R146). -/
def partKey (gen rdesc part : Nat) : Nat := (gen * 256 + rdesc) * 16 + part

/-- The key of a counter: the commit of the plan and the number (R135, R146). -/
def syKey (gen k : Nat) : Nat := gen * 16 + k

/-- Every part but part 0 has arrived (R134). -/
def Arcade.allArrived (c : Arcade) (gen rdesc parts : Nat) : Bool :=
  (List.range (parts - 1)).all fun k => Tab.get false c.parts (partKey gen rdesc (k + 1))

/-- Fold parts 1 to n − 1 into row x of part 0, in index order (R67, R134). Where part 0's row is void, its entries are what they were
left (DESIGN CHOICE, log entry 104). -/
def Arcade.foldRow (c : Arcade) (r : Reduction) (x : Nat) : Arcade :=
  let at0 := r.recvRow + x
  let parts := (List.range (r.parts - 1)).map fun k => r.recvRow + (k + 1) * r.rows + x
  let total := parts.foldl (fun acc y =>
    (acc.zip (c.accRow y)).map fun e => AccEntry.combine e.1 e.2) (c.accRow at0)
  let poison := (List.range 128).map fun j => (at0 :: parts).any fun y => c.accPoisoned y j
  (c.setAccRow at0 total).setAccPoison at0 poison

/-- A part whose digest differs from that recomputed over its rows (R200). -/
def Arcade.badPart (c : Arcade) (p : Prog) (link : BitVec 128) (rdesc : Nat) (r : Reduction) : Bool :=
  r.digest && (List.range (r.parts - 1)).any fun k =>
    let key := if p.plan.partRemote rdesc (k + 1) then link else p.plan.hcKey
    let rows := (List.range r.rows).map fun i => c.accRow (r.recvRow + (k + 1) * r.rows + i)
    Tab.get 0 c.partDigest (partKey p.gen rdesc (k + 1)) != collectiveDigest key rdesc (k + 1) p.count rows

/-- The parts of a reduction are folded, and their arrival marks cleared (R134). -/
def State.combine (s : State) (a : Nat) (p : Prog) (rdesc : Nat) (r : Reduction) : Ran :=
  let c := s.arcade a
  let c := (List.range r.rows).foldl (fun c x => c.foldRow r x) c
  let c := (List.range (r.parts - 1)).foldl (fun c k => { c with
    parts := Tab.set false c.parts (partKey p.gen rdesc (k + 1)) false
    partDigest := Tab.set 0 c.partDigest (partKey p.gen rdesc (k + 1)) 0 }) c
  let rows := (List.range r.rows).map fun x => r.recvRow + x
  let poison := rows.any fun x => (c.accRowPoison x).any id
  { s := s.onArc a fun _ => c
    p := { p with valid := rows ++ p.valid.filter (fun x => !rows.contains x), waiting := none
                  poisoned := p.poisoned || poison } }

/-! SIGNAL, WAIT, MOVE (R135, R136). -/

/-- Add 1 to a counter of an Arcade; it saturates at 4,095 and reports the overflow (R135). -/
def State.signal (s : State) (gen a k : Nat) : State :=
  let v := Tab.get 0 (s.arcade a).sy (syKey gen k)
  if v < 4095 then s.onArc a fun c => { c with sy := Tab.set 0 c.sy (syKey gen k) (v + 1) }
  else s.report { event := 0x0006, unitKind := 1, unit := a, detail := [BitVec.ofNat 8 k] }

/-- Copy line n of a MOVE (R136); poison travels with it (R100). An address that is no multiple of 64 stands for its line (DESIGN
CHOICE, log entry 104). -/
def State.moveLine (s : State) (a : Nat) (p : Prog) (src dst n : Nat) : Ran :=
  let x := p.address src / 64 * 64 + 64 * n
  let y := p.address dst / 64 * 64 + 64 * n
  if s.pageOk (0x10 + a) p.session x && s.pageOk (0x10 + a) p.session y then
    let (b, poison) := s.pz.line x
    let (k, o) := p.plan.bindingOf p.schedule y
    { s := { s with pz := s.pz.writeLine y b poison }
      p := { p.sign 0 k 0 o b with poisoned := p.poisoned || poison } }
  else { s := s, p := p, stop := 0x0202 }

/-- The errors that the codes found as an instruction ran (R98, R99, R369). -/
def State.applyUpset (s : State) (a sc : Nat) : Upset → State
  | .als row bank word e => s.alsError a row bank word false e
  | .side row bank e => s.alsError a row bank 0 true e
  | .piazza addr e => s.piazzaError addr e
  | .acc row col e => s.accError a sc row col e
  | .params .ce => s.report { event := 0x0103, unitKind := 1, unit := a }
  | .params .ue => s
  | .array .. => s

def State.applyUpsets (s : State) (a sc : Nat) (u : List Upset) : State := u.foldl (fun s x => s.applyUpset a sc x) s

/-- A parameter store was read in error beyond correction (R369). -/
def paramsLost (u : List Upset) : Bool := u.any fun x => x == .params .ue

/-- The device time at which the instruction that a program waits at issued: now, where it has only just been reached. -/
def Prog.since (p : Prog) (now : Nat) : Nat :=
  match p.waiting with
  | some (.counter _ _ _ t) | some (.parts _ t) => t
  | none => now

/-- Move past an instruction of n words. -/
def Ran.pass (x : Ran) (n : Nat) : Ran :=
  if x.stop ≠ 0 then x
  else if x.p.poisoned then { x with stop := 0x0201 }
  else { x with p := { x.p with pc := x.p.pc + n } }

/-- One instruction other than BOUND and END, of n words (R129 to R136). On a checker SIGNAL and WAIT do nothing
(R182). -/
def State.runInstr (s : State) (a : Nat) (p : Prog) (i : TileInstr) (n : Nat) (u : List Upset) : Ran :=
  match i with
  | .nop | .bound | .tend => Ran.pass { s := s, p := p } n
  | .tile act wt fan accRow clear ad steps kpr t0 aR aK aG wR wK sK sR =>
    match Mode.ofPair act wt with
    | none => { s := s, p := p, stop := 0x0202 }
    | some m => (s.tileSteps a p { act := act, wt := wt, fan := fan, accRow := accRow, clear := clear, ad := ad
                                   steps := steps, kpr := kpr, t0 := t0, aR := aR, aK := aK, aG := aG, wR := wR
                                   wK := wK, sK := sK, sR := sR } m u).pass n
  | .out accRow rows odesc dstAd dst stride =>
    (runRows rows (fun s p k => s.drainRow a p accRow odesc dstAd dst stride k) s p).pass n
  | .seta ad src add imm =>
    let v := if add then p.ads.getD src 0 + imm else imm
    Ran.pass { s := s, p := { p with ads := p.ads.set ad v } } n
  | .loop count => Ran.pass { s := s, p := { p with loops := (p.pc + n, count) :: p.loops } } n
  | .endl =>
    match p.loops with
    | (start, left) :: r =>
      if 1 < left then { s := s, p := { p with pc := start, loops := (start, left - 1) :: r } }
      else Ran.pass { s := s, p := { p with loops := r } } n
    | [] => Ran.pass { s := s, p := p } n
  | .send accRow rows rdesc part dg => (s.sendPart a p accRow rows rdesc part dg).pass n
  | .comb rdesc =>
    match p.plan.reductions[rdesc]? with
    | none => { s := s, p := p, stop := 0x0202 }
    | some r =>
      if !(s.arcade a).allArrived p.gen rdesc r.parts then { s := s, p := { p with waiting := some (.parts rdesc (p.since s.now)) }, wait := true }
      else if (s.arcade a).badPart p s.fm.collectiveKey rdesc r then { s := s, p := p, stop := 0x0301 }
      else (s.combine a p rdesc r).pass n
  | .signal arcade counter =>
    Ran.pass { s := if p.role == .check then s else s.signal p.gen arcade counter, p := p } n
  | .wait counter value timeout =>
    if p.role == .check then Ran.pass { s := s, p := p } n
    else
      let v := Tab.get 0 (s.arcade a).sy (syKey p.gen counter)
      if value ≤ v then
        Ran.pass { s := s.onArc a fun c => { c with sy := Tab.set 0 c.sy (syKey p.gen counter) (v - value) }
                   p := { p with waiting := none } } n
      else { s := s, p := { p with waiting := some (.counter counter value timeout (p.since s.now)) }, wait := true }
  | .move src dst lines => (runRows lines (fun s p k => s.moveLine a p src dst k) s p).pass n

/-- The instruction at which a program stands, and its words. -/
def Prog.instr (p : Prog) : Option (TileInstr × Nat) :=
  match p.plan.programs[p.program]? with
  | some x => decodeWords (x.words.drop p.pc)
  | none => none

end Sys2Proof.Machine
end

