-- ==== Sys2Proof/Machine/Spans.lean ====
section
/-! DEFINITION. Spans: the lines a span reads and writes (R180), eligibility and selection (R176, R177), the choice of
a checker (R178), the holds of R181, R184, R187 and R370, the issue and the end of a span (R181, R183), and the start
and end of programs (R82, R137, R140). -/

namespace Sys2Proof.Machine

/-- A walk through a span without its data: the lines read before the span writes them, each with the address register at
the span's start that its address is an offset from (`roots`; 16 where SETA set the address itself), the lines written,
whether it holds COMB or MOVE or reads an ALS SCRATCH region, and its ACLK (R176, R180). -/
structure Walk where
  pc : Nat
  ads : List (BitVec 32)
  roots : List Nat := List.range 16
  loops : List (Nat × Nat)
  reads : List (Nat × Nat) := []
  writes : List Nat := []
  special : Bool := false
  cycles : Nat := 0

def Walk.address (w : Walk) (k : Nat) : Nat := (w.ads.getD k 0).toNat

/-- The register at the span's start that a register's value is an offset from. -/
def Walk.root (w : Walk) (k : Nat) : Nat := w.roots.getD k 16

def addOnce {α : Type} [BEq α] (l : List α) (x : α) : List α := if l.contains x then l else x :: l

def Walk.read (w : Walk) (root x : Nat) : Walk :=
  if w.writes.contains x then w else { w with reads := addOnce w.reads (root, x) }
def Walk.write (w : Walk) (x : Nat) : Walk := { w with writes := addOnce w.writes x }

/-- The lines that row n of an OUT to the Piazza writes (R132). -/
def OutDesc.lines (d : OutDesc) (addr : Nat) : List Nat :=
  let n := (d.cols * codeWidth d.fmt + 511) / 512 + (if isMxOut d.fmt then 1 else 0)
  (List.range n).map fun k => addr / 64 * 64 + 64 * k

/-- One instruction of a walk, of n words. -/
def Walk.instr (w : Walk) (c : Arcade) (p : Prog) (i : TileInstr) (n : Nat) : Walk :=
  let go (w : Walk) : Walk := { w with pc := w.pc + n }
  match i with
  | .tile act wt fan accRow clear ad steps kpr t0 aR aK aG wR wK sK sR =>
    match Mode.ofPair act wt with
    | none => go w
    | some m =>
      let t : TileOp := { act := act, wt := wt, fan := fan, accRow := accRow, clear := clear, ad := ad, steps := steps
                          kpr := kpr, t0 := t0, aR := aR, aK := aK, aG := aG, wR := wR, wK := wK, sK := sK, sR := sR }
      let w := (List.range steps).foldl (fun w k =>
        ((t.reads m w.address k).mapIdx fun g x => (if g < t.b then ad else ad + 1, x)).foldl
          (fun w r => w.read (w.root r.1) r.2) w) w
      let scratch := (List.range steps).any fun k =>
        match c.regionAt (p.baseRow + t.subtile k / t.subsPerRow m) with
        | some (_, r) => r.scratch
        | none => false
      go { w with cycles := w.cycles + steps, special := w.special || scratch }
  | .out _ rows odesc dstAd dst stride =>
    match p.plan.outputs[odesc]? with
    | none => go w
    | some d =>
      let w := if dst = 0 then
          (List.range rows).foldl (fun w k => (d.lines (w.address dstAd + k * stride * 64)).foldl Walk.write w) w
        else w
      go { w with cycles := w.cycles + rows * (if d.act = 3 then 4 else 1) }
  | .seta ad src add imm => go { w with
      ads := w.ads.set ad (if add then w.ads.getD src 0 + imm else imm), roots := w.roots.set ad (if add then w.root src else 16) }
  | .loop count => go { w with loops := (w.pc + n, count) :: w.loops }
  | .endl =>
    match w.loops with
    | (start, left) :: r =>
      if 1 < left then { w with pc := start, loops := (start, left - 1) :: r } else go { w with loops := r }
    | [] => go w
  | .comb _ => go { w with special := true }
  | .move src dst lines =>
    let at0 (k : Nat) : List Nat := (List.range lines).map fun n => w.address k / 64 * 64 + 64 * n
    let w := (at0 src).foldl (fun w x => w.read (w.root src) x) w
    go { (at0 dst).foldl Walk.write w with special := true }
  | _ => go w

/-- The longest run of a program (R133). -/
def runLimit : Nat := 2 ^ 20

/-- Walk to the end of the span; the first argument bounds the instructions. -/
def walkSpan (c : Arcade) (p : Prog) (words : List Word) : Nat → Walk → Walk
  | 0, w => w
  | n + 1, w =>
    match decodeWords (words.drop w.pc) with
    | none | some (.bound, _) | some (.tend, _) => w
    | some (i, k) => walkSpan c p words n (w.instr c p i k)

def Prog.words (p : Prog) : List Word :=
  match p.plan.programs[p.program]? with
  | some x => x.words
  | none => []

/-- The walk of the span at which a program stands. -/
def State.walk (s : State) (a : Nat) (p : Prog) : Walk :=
  walkSpan (s.arcade a) p p.words runLimit { pc := p.pc, ads := p.ads, loops := p.loops }

/-- Insert into an ascending list. -/
def insertAsc (x : Nat) : List Nat → List Nat
  | [] => [x]
  | y :: r => if x ≤ y then x :: y :: r else y :: insertAsc x r

def sortAsc (l : List Nat) : List Nat := l.foldr insertAsc []

/-- The runs of consecutive lines in an ascending list. -/
def lineRuns : List Nat → Nat
  | [] => 0
  | [_] => 1
  | x :: y :: r => (if y = x + 64 then 0 else 1) + lineRuns (y :: r)

/-- The lines of a walk's footprint, each once, in ascending order (R180). -/
def Walk.lines (w : Walk) : List Nat := sortAsc ((w.reads.map (·.2)).foldl addOnce [])

/-- The line intervals of a footprint: each is of offsets from one register's value at the span's start (R180). -/
def Walk.intervals (w : Walk) : Nat :=
  ((List.range 17).map fun k => lineRuns (sortAsc ((w.reads.filter fun r => r.1 == k).map (·.2)))).sum

/-- A span is eligible for sampling (R176). -/
def Walk.eligible (w : Walk) : Bool :=
  !w.special && decide (w.cycles ≤ 16384) && decide (w.intervals ≤ 8) && decide (w.lines.length ≤ 1024)

/-! The governing fraction (R174, R175, R189). -/

/-- The MODEL index of a program's region (R118, R140). -/
def Plan.modelOf (p : Plan) (sch : Nat) : Option Nat :=
  match p.scheduleAt sch with
  | some x => (p.placements[x.region]?).map (·.model)
  | none => none

/-- A stream has a fraction of its own: an INTEGRITY entry, or a setting of INTEGRITY_SET (R122, R175). -/
def Plan.streamHasFraction (p : Plan) (fr : List (Nat × Bool × Nat)) (cs : Nat) : Bool :=
  p.integrity.any (fun e => e.target == cs && !e.isModel) || fr.any fun f => f.1 == cs && !f.2.1

/-- The model of a stream's calendar (R120). -/
def Plan.calendarModel (p : Plan) (cs : Nat) : Option Nat := (p.calendars.find? fun c => c.cs == cs).map (·.model)

/-- The INTEGRITY target whose fraction governs a program: its stream, or a model (R122, R175). -/
def Prog.governs (p : Prog) (fr : List (Nat × Bool × Nat)) : Option (Nat × Bool) :=
  match p.role with
  | .slot cs _ | .shadow cs _ =>
    if p.plan.streamHasFraction fr cs then some (cs, false) else (p.plan.calendarModel cs).map fun m => (m, true)
  | .job _ | .check => (p.plan.modelOf p.schedule).map fun m => (m, true)

/-- The INTEGRITY entry of a stream or a model. -/
def Plan.integrityOf (p : Plan) (t : Nat) (isModel : Bool) : Option Integrity :=
  p.integrity.find? fun e => e.target == t && e.isModel == isModel

/-- The INTEGRITY entry that governs a stream: its own, else that of its calendar's model (R122, R178). INTEGRITY_SET changes
a fraction and no entry. -/
def Plan.streamEntry (p : Plan) (cs : Nat) : Option Integrity :=
  (p.integrityOf cs false).or ((p.calendarModel cs).bind fun m => p.integrityOf m true)

/-- The checkers mask of the governing INTEGRITY entry (R178). -/
def Prog.checkerMask (p : Prog) : BitVec 16 :=
  let e := match p.role with
    | .slot cs _ | .shadow cs _ => p.plan.streamEntry cs
    | .job _ | .check => (p.plan.modelOf p.schedule).bind fun m => p.plan.integrityOf m true
  match e with
  | some e => e.checkers
  | none => 0

/-- The fraction code at which a program's spans are sampled on an Arcade; a stream at 1/1 runs dual instead (R174),
a SUSPECT Arcade's sampled work is checked at 1/4 at least (R189), a lockstep session's at 1/1 (R198). `fr` are the
fractions that INTEGRITY_SET has set. -/
def State.sampleCode (s : State) (a : Nat) (p : Prog) (fr : List (Nat × Bool × Nat)) : Nat :=
  let f := match p.governs fr with
    | some (t, m) => let f := s.fractionIn fr p.win t m; if !m && f = 5 then 0 else f
    | none => 0
  if s.isHome p.session && s.lockstep p.session then 5
  else if (s.arcade a).integ == .suspect && 1 ≤ f then max f 4 else f

/-- Instances in a sampling group of a fraction code (R174, R177). -/
def groupSize (code : Nat) : Nat :=
  if code = 1 then 256 else if code = 2 then 64 else if code = 3 then 16 else if code = 4 then 4 else 1

/-- The Forecourt runs its firmware: the block is READY, no restart is under way, and its core is not halted by debug (R286,
R312, R378). -/
def State.fcUp (s : State) : Bool := s.boot.step == 12 && !s.health.fcRestarting && !s.lc.fcHalted

/-- The 64 positions of 8 bits that one output of the CTR_DRBG holds. -/
def positionsOf (r : BitVec 512) : List (BitVec 8) := (List.range 64).map fun i => BitVec.ofNat 8 (r.toNat / 2 ^ (8 * i))

/-- The Forecourt refills the reserve of an Arcade's check unit to 512 positions of 8 bits (R177); the first argument
bounds the outputs that it takes. -/
def State.refill (a : Nat) : Nat → State → State
  | 0, s => s
  | n + 1, s =>
    let k := (s.arcade a).reserve.length
    if 512 ≤ k then s
    else
      let (r, s) := s.draw
      State.refill a n (s.onArc a fun c => { c with reserve := c.reserve ++ (positionsOf r).take (512 - k) })

/-- Draw a position of a group of n (R177): from the reserve, which the Forecourt refills while it runs; with the reserve
empty, from the register that the last 64 reserve bits seeded, and the fallback is reported to the health unit (R388 has no
event for it; log entry 93). -/
def State.drawPosition (s : State) (a n : Nat) : Nat × State :=
  let s := if s.fcUp && !s.drbgBlocked then State.refill a 8 s else s
  match (s.arcade a).reserve with
  | v :: r => (v.toNat % n, s.onArc a fun c => { c with reserve := r, lfsr := (c.lfsr <<< 8) ||| v.setWidth 64 })
  | [] =>
    let v := Config.lfsrNext (s.arcade a).lfsr
    let s := { s with health := { s.health with lfsrReports := s.health.lfsrReports + 1 } }
    (v.toNat % n, s.onArc a fun c => { c with lfsr := v })

/-- The sampling group of a session under way on an Arcade, and the fractions that govern its next span: those at the
group's beginning, and with no group under way the present ones (R175). -/
def State.groupOf (s : State) (a : Nat) (p : Prog) : Group := Tab.get {} (s.arcade a).groups p.session
def State.groupFractions (s : State) (a : Nat) (p : Prog) : List (Nat × Bool × Nat) :=
  let g := s.groupOf a p
  let vp := s.plan p.win
  if g.size ≠ 0 && g.gen = vp.committedAt then g.fractions else vp.fractions

/-- One eligible span instance of a session: whether it is the one its group selects (R177). A group keeps the size
and the fractions it began with (R175). -/
def State.sample (s : State) (a : Nat) (p : Prog) (code : Nat) : Bool × State :=
  let g := s.groupOf a p
  let (g, s) :=
    if g.size = 0 then
      let (k, s) := s.drawPosition a (groupSize code)
      (({ size := groupSize code, pos := k, fractions := (s.plan p.win).fractions, gen := (s.plan p.win).committedAt } : Group), s)
    else (g, s)
  let g' : Group := if g.size ≤ g.count + 1 then {} else { g with count := g.count + 1 }
  (g.pos == g.count, s.onArc a fun c => { c with groups := Tab.set {} c.groups p.session g' })

/-- Two PROGRAM entries are one program where their words are the same: each is placed on one Arcade (R140, R141; log
entry 88). -/
def Plan.sameProgram (p : Plan) (i j : Nat) : Bool := (p.programs[i]?).map (·.words) == (p.programs[j]?).map (·.words)

/-- The CHECKER entry of an Arcade for the work of a schedule entry (R140, R141). -/
def Plan.checkerEntry (p : Plan) (sch arcade : Nat) : Option Nat :=
  match p.scheduleAt sch with
  | none => none
  | some x => p.schedules.findIdx? fun y =>
      y.kind == 3 && y.trigger == x.trigger && y.ckJob == (x.kind == 2) && p.sameProgram y.program x.program
        && y.arcade == arcade

/-- An Arcade may check the work of a schedule entry: the conditions of R178 but that on the Quarter; one of a FAILED Quarter starts no
program (R377). -/
def State.mayCheck (s : State) (p : Prog) (exclude : List Nat) (c : Nat) : Bool :=
  let x := s.arcade c
  p.checkerMask.getLsbD c && (p.plan.checkerEntry p.schedule c).isSome && (x.integ == .inService || x.integ == .suspect)
    && !s.quarterOut c && decide (x.checkQueue.length < 64) && !exclude.contains c

/-- The first Arcade in round-robin order after the last checker used that meets the conditions: in a Quarter outside the
given ones where there is one, else in another Quarter than A's, else in any (R178, R187). -/
def State.checkerFor (s : State) (a : Nat) (p : Prog) (exclude quarters : List Nat) : Option Nat :=
  let order := (List.range 16).map fun i => ((s.arcade a).lastChecker + 1 + i) % 16
  let ok := order.filter fun c => s.mayCheck p exclude c
  ((ok.find? fun c => !quarters.contains (c / 4)).or (ok.find? fun c => c / 4 != a / 4)).or ok.head?

/-! Issue (R181) and its holds. -/

/-- A job's programs are held after the span that was selected for its checkpoint (R201). -/
def State.ckptHeld (s : State) (a : Nat) (p : Prog) : Bool :=
  match p.role with
  | .job j =>
    let f := Tab.get 0 (s.arcade a).forced p.session
    (s.job j).ckptSelect && f != 0 && f == Tab.get 0 (s.arcade a).spanEnd p.session
  | _ => false

/-- The context of a check as a program that stands at the start of its span. -/
def Check.prog (k : Check) : Prog :=
  { role := .check, win := k.win, session := k.session, plan := k.plan, gen := k.gen, schedule := k.schedule
    program := match k.plan.scheduleAt k.schedule with
      | some x => x.program
      | none => 0
    baseRow := match k.plan.scheduleAt k.schedule with
      | some x => (match k.plan.placements[x.region]? with
        | some r => r.firstRow
        | none => 0)
      | none => 0
    pc := k.pc, loops := k.loops, ads := k.ads }

/-- The footprint of a check's span (R180), in ascending order. -/
def State.footprint (s : State) (a : Nat) (k : Check) : List Nat := (s.walk a k.prog).lines

def Prog.isControl (p : Prog) : Bool := match p.role with
  | .job _ => false
  | _ => true

/-- The check at the front of a checker's queue has its capture: it runs at the next span boundary, ahead of the next span of
the checker's bulk program (R179). -/
def State.checkDue (s : State) (a : Nat) : Bool :=
  match (s.arcade a).checkQueue with
  | q :: _ => (s.arcade q.1).checks.any fun k => k.instCount == q.2 && k.stage == .queued
  | [] => false

/-- A check's mismatch holds the spans of its session on its primary: until the referee has decided, and where it is the primary that is
outvoted until its repeat has run (R187). -/
def Check.holds (k : Check) (a : Nat) : Bool :=
  k.stage == .refereeing || (k.stage == .repeating && k.repeatOf.any fun r => r.1 == a)

/-- The span at which a program stands may not issue (R179, R181, R184, R187, R199, R201, R370, R410). -/
def State.spanHeld (s : State) (a : Nat) (p : Prog) : Bool :=
  let c := s.arcade a
  let capturing := c.checks.filter fun k => k.stage == .capturing
  (s.session p.session).faultAt.isSome
    || c.checks.any (fun k => k.session == p.session && k.holds a)
    || (!p.isControl && c.checks.any fun k =>
        k.session == p.session && k.endTime.isSome && decide (64 ≤ k.spansSince))
    || (match p.role with
      | .job j => (s.job j).shed || c.checking.isSome || s.checkDue a || c.integ == .probation
      | _ => false)
    || s.ckptHeld a p
    || (!capturing.isEmpty && (let ws := (s.walk a p).writes
        capturing.any fun k => (s.footprint a k).any ws.contains))

/-- A check of the span that a program issues (R181). -/
def Prog.check (p : Prog) (checker : Nat) (referee : Option Nat) : Check :=
  { checker := checker, referee := referee, session := p.session, win := p.win, plan := p.plan, schedule := p.schedule
    origin := match p.role with
      | .slot cs _ | .shadow cs _ => cs
      | .job j => j
      | .check => 0
    isJob := !p.isControl, gen := p.gen, pc := p.pc, loops := p.loops, ads := p.ads, instCount := p.inst, instBase := p.instBase
    stage := if checker = 16 && referee.isNone then .running else .capturing }

/-- A span is selected: its checker is chosen, its context recorded, its capture begun; with no checker it is skipped
(R178, R181). A lockstep session's checker is the partner, with a local referee (R198, R437). -/
def State.selectSpan (s : State) (a : Nat) (p : Prog) (forced : Bool) : State × Prog :=
  let lock := s.isHome p.session && s.lockstep p.session
  match (if lock then some 16 else s.checkerFor a p [a] [a / 4]) with
  | none => (s.perf p.session 10 1, p)
  | some ck =>
    let ref := if lock then s.checkerFor a p [a] [a / 4] else none
    let s := s.onArc a fun c => { c with
      lastChecker := if ck < 16 then ck else c.lastChecker
      forced := if forced then Tab.set 0 c.forced p.session p.inst else c.forced
      checks := c.checks ++ [p.check ck ref] }
    let s := if ck < 16 then s.onArc ck fun c => { c with checkQueue := c.checkQueue ++ [(a, p.inst)] } else s
    (s, { p with selected := true })

/-- The span at which a program stands issues (R176, R177, R181). -/
def State.issueSpan (s : State) (a : Nat) (p : Prog) : State × Prog :=
  let s := s.onArc a fun c => { c with instCount := c.instCount + 1 }
  let p := { p with
    atBoundary := false, startPc := p.pc, startAds := p.ads, startLoops := p.loops, sigAcc := 0, sigBlocks := 0
    otherAcc := 0, otherBlocks := 0, inst := (s.arcade a).instCount, instBase := (s.arcade a).instBase, selected := false }
  match p.role with
  | .shadow .. | .check => (s, p)
  | _ =>
    let code := s.sampleCode a p (s.groupFractions a p)
    if code = 0 then (s, p)
    else if !(s.walk a p).eligible then (s.perf p.session 9 1, p)
    else
      let (hit, s) := s.sample a p code
      let forced := match p.role with
        | .job j => (s.job j).ckptSelect
        | _ => false
      if hit || forced then s.selectSpan a p forced else (s, p)

/-- A record is formed from spans on an Arcade, the last of them `inst` (R202). -/
def State.noteFormed (s : State) (a sc inst rseq : Nat) : State :=
  s.onArc a fun c =>
    if c.formed.any (fun e => e.1 == sc && decide (e.2.2 ≤ rseq)) && !(c.checks.any fun k => k.session == sc) then c
    else { c with formed := c.formed ++ [(sc, inst, rseq)] }

/-- A span ends (R137, R183, R184): its signature is formed, the check that waits for it has it, and the other checks
of the session that are outstanding count the span. A lockstep standby returns its signature (R437). -/
def State.endSpan (s : State) (a : Nat) (p : Prog) : State × Prog :=
  let sig := p.signature
  let now := s.now
  let s := s.onArc a fun c => { c with
    spanEnd := Tab.set 0 c.spanEnd p.session p.inst
    checks := c.checks.map fun k =>
      if k.instCount = p.inst then { k with primarySig := some sig, endTime := some now }
      else if k.session = p.session && k.endTime.isSome then { k with spansSince := k.spansSince + 1 }
      else k }
  let s := if s.isStandby p.session && s.lockstep p.session then s.sendSig p.session p.inst sig else s
  (s, { p with atBoundary := true, valid := [], sigs := p.sigs ++ [polyFinish p.otherAcc p.otherBlocks], selected := false })

/-! Starting programs (R82, R128, R140). -/

/-- The program of a schedule entry of a plan (R128, R140): AD0 to AD3 hold the buffers' bases, AD4 to AD15 zero.
`count` is the run count of its slot or job step (R200). -/
def State.program (s : State) (w : Nat) (plan : Plan) (sch : Nat) (role : RunRole) (count : Nat) : Option Prog :=
  match plan.scheduleAt sch with
  | none => none
  | some x =>
    let base (k : Nat) : BitVec 32 := match plan.bound x k with
      | some b => BitVec.ofNat 32 b.base
      | none => 0
    let row := match plan.placements[x.region]? with
      | some r => r.firstRow
      | none => 0
    (s.lsessOf w x.lsess).map fun sc =>
      { role := role, win := w, session := sc, plan := plan, gen := (s.plan w).committedAt, count := count, schedule := sch
        program := x.program
        ads := (List.range 16).map fun k => if k < 4 then base k else 0
        baseRow := row }

/-- A control program becomes due on an Arcade (R82): it suspends a bulk program, and queues behind a control
program. -/
def Arcade.startControl (c : Arcade) (p : Prog) : Arcade :=
  match c.running with
  | none => if c.queue.isEmpty then { c with running := some p } else { c with queue := c.queue ++ [{ prog := p }] }
  | some r =>
    if r.isControl then { c with queue := c.queue ++ [{ prog := p }] }
    else { c with running := some p, bulk := r :: c.bulk }

/-- A bulk program becomes due: it runs where nothing runs or waits, and otherwise waits its turn (log entry 13). -/
def Arcade.startBulk (c : Arcade) (p : Prog) : Arcade :=
  if c.running.isNone && c.queue.isEmpty && c.bulk.isEmpty then { c with running := some p }
  else { c with bulk := c.bulk ++ [p] }

/-- Remove every program that a test selects from an Arcade (R262, R370). -/
def Arcade.dropPrograms (c : Arcade) (f : Prog → Bool) : Arcade :=
  { c with
    running := match c.running with
      | some p => if f p then none else some p
      | none => none
    bulk := c.bulk.filter fun p => !f p
    queue := c.queue.filter fun x => !f x.prog }

/-- Programs that are to end at their next span boundary (R203, R262): one that stands at a boundary ends now. -/
def Arcade.endPrograms (c : Arcade) (f : Prog → Bool) : Arcade :=
  let c := c.dropPrograms fun p => f p && p.atBoundary
  { c with running := c.running.map fun p => if f p then { p with ending := true } else p
           bulk := c.bulk.map fun p => if f p then { p with ending := true } else p }

end Sys2Proof.Machine
end

