-- ==== Sys2Proof/Machine/Runs.lean ====
section
/-! DEFINITION. What the end of a program means for its slot or its job (R137, R156, R193), the fault of a program
(R87, R100, R139), the end and the restart of jobs (R191, R203, R262). -/

namespace Sys2Proof.Machine

/-- Every Arcade that a slot's group names has ended its program. -/
def SlotRun.groupDone (x : SlotRun) (g : Nat) : Bool :=
  let mine := x.runners.filter fun r => r.2 == g
  !mine.isEmpty && mine.all fun r => x.runs.any fun y => y.arcade == r.1 && y.group == g

/-- The outcome of a list of programs that ran for one slot or step, in order: their record bytes together, their
flags, their signatures (R75, R193). -/
def joinRuns (n : Nat) (rs : List RunOut) : Outcome1 :=
  let t := rs.foldl (fun (t : Tab Byte) r => r.payload.foldl (fun t e => Tab.set 0 t e.1 e.2) t) []
  { payload := Tab.getMany 0 t 0 n, flags := rs.foldl (fun f r => f ||| r.flags) 0, sigs := (rs.map (·.sigs)).flatten }

/-- The outcome of a slot's group, its programs in the order of the schedule. -/
def SlotRun.outcome (x : SlotRun) (n g : Nat) : Outcome1 :=
  joinRuns n ((x.runners.filter fun r => r.2 == g).filterMap fun r => x.runs.find? fun y => y.arcade == r.1 && y.group == g)

/-- The buffers of one use that the schedule entries of a trigger and kind bind (R115, R140). -/
def Plan.boundBuffers (p : Plan) (sch use : Nat) : List (Nat × Buffer) :=
  match p.scheduleAt sch with
  | none => []
  | some x => (List.range 4).filterMap fun k => match p.bound x k with
    | some b => if b.use == use then some (x.ads.getD k 0xFFFF, b) else none
    | none => none

/-- The lines of a buffer with their addresses, and whether they are poisoned. -/
def State.bufferLines (s : State) (b : Buffer) : List (Nat × Bytes × Bool) :=
  (List.range (b.pages * 16)).map fun i => (b.base + 64 * i, s.pz.line (b.base + 64 * i))

/-- A unit that acts for a session may reach every page of a buffer (R95). -/
def State.bufferOk (s : State) (unit sc : Nat) (b : Buffer) : Bool :=
  (List.range b.pages).all fun i => s.pageOk unit sc (b.base + 1024 * i)

/-- Write a buffer's bytes over another buffer of the same size for a session, through the sequencer's unit of the destination's
Arcade; poison travels (R95, R100). -/
def State.copyBuffer (s : State) (sc : Nat) (src dst : Buffer) : State :=
  let unit := 0x10 + segOf dst.base
  if s.bufferOk unit sc src && s.bufferOk unit sc dst then
    (List.range (min src.pages dst.pages * 16)).foldl (fun s i =>
      let (b, poison) := s.pz.line (src.base + 64 * i)
      { s with pz := s.pz.writeLine (dst.base + 64 * i) b poison }) s
  else s.accessRefused sc dst.base

def State.zeroBuffer (s : State) (sc : Nat) (b : Buffer) : State :=
  if s.bufferOk (0x10 + segOf b.base) sc b then
    { s with pz := (List.range (b.pages * 16)).foldl (fun z i => z.writeLine (b.base + 64 * i) [] false) s.pz }
  else s.accessRefused sc b.base

/-- STATE of a buffer for the partner, poisoned lines as such, where the link's unit may read it for the session (R95, R100, R435). -/
def State.sendBuffer (s : State) (sc index : Nat) (b : Buffer) : State :=
  if s.bufferOk 0x50 sc b then s.sendStateLines sc index ((s.bufferLines b).map (·.2)) else s.accessRefused sc b.base

/-- The INTEGRITY entry of a stream sets the partner flag (R122). -/
def State.partnerFlag (s : State) (cs : Nat) : Bool :=
  match (s.plan (s.stream cs).win).running with
  | some p => p.integrity.any fun e => e.target == cs && !e.isModel && e.partner
  | none => false

/-- A stream whose partner run is compared: its session is a pair session of a joined pair (R198, R436). -/
def State.partnerRuns (s : State) (cs : Nat) : Bool :=
  s.joined && s.partnerFlag cs && (s.session (s.stream cs).session).pair != .unpaired

/-- The header bits of a record that the home's CMP carries: flag bits 3 to 8 (R436). -/
def SlotRun.homeBits (x : SlotRun) : Nat := x.flags.toNat / 8 % 64

/-- The local run of a slot has ended: where a partner's run is compared, its outcome goes to the partner (R436); the
STATE buffers of a covered stream go to the standby (R435). -/
def State.tellPartner (s : State) (cs seq : Nat) : State :=
  match s.slotOf cs seq with
  | none => s
  | some x =>
    let st := s.stream cs
    let o := x.outcome x.len 0
    let s := if s.partnerRuns cs then
        s.sendCmp cs seq o.payload o.flags o.sigs x.icPhase.toNat x.icTime.toNat x.homeBits
      else s
    if st.covered && s.isHome st.session then
      match (s.plan st.win).running with
      | none => s
      | some p =>
        let schs := ((List.range p.schedules.length).filter fun i => match p.scheduleAt i with
          | some y => y.kind == 0 && y.trigger == cs
          | none => false)
        (schs.map fun i => p.boundBuffers i 2).flatten.foldl (fun s b =>
          s.sendBuffer st.session b.1 b.2) s
    else s

/-- A program of a slot has ended: its outcome is kept, and where the slot is not compared and all its programs have
ended, the record is formed (R137, R156). -/
def State.slotRunEnded (s : State) (a cs seq : Nat) (p : Prog) : State :=
  match s.slotOf cs seq with
  | none => s
  | some x =>
    match x.runners.find? fun r => r.1 == a with
    | none => s
    | some r =>
      let o : RunOut := { arcade := a, group := r.2, payload := p.payload, flags := p.flags, sigs := p.sigs, inst := p.inst }
      let s := (s.onSlot cs seq fun y => { y with runs := y.runs ++ [o] }).noteFormed a p.session p.inst x.rseq
      match s.slotOf cs seq with
      | none => s
      | some y =>
        if r.2 = 0 && y.groupDone 0 then
          let s := s.tellPartner cs seq
          if y.dual == .single && !y.fault then
            let o := y.outcome y.len 0
            s.formComputed cs seq o.payload o.flags false
          else s
        else s

/-! Jobs. -/

/-- The schedule entries of a job in its window's running plan: index and entry (R140, R253). -/
def State.jobEntries (s : State) (j : Nat) : List (Nat × Schedule) :=
  let x := s.job j
  match (s.plan x.win).running with
  | none => []
  | some p => ((List.range p.schedules.length).filterMap fun i => (p.scheduleAt i).map fun y => (i, y)).filter fun e =>
      e.2.kind == 2 && e.2.trigger == x.entry

/-- Payload bytes and format of a job's records: the RECEIPT entry of its model (R123). -/
def State.jobPayload (s : State) (j : Nat) : Nat × Nat :=
  match (s.plan (s.job j).win).running with
  | none => (16, 0)
  | some p =>
    let m := (s.jobEntries j).filterMap fun e => p.modelOf e.1
    match m.head? with
    | none => (16, 0)
    | some m => match p.receiptOf m true with
      | some r => (r.payloadBytes, r.payloadFmt)
      | none => (16, 0)


/-- The STATE lines of a job, which a checkpoint holds (R115). -/
def State.jobState (s : State) (j : Nat) : List (Nat × Bytes × Bool) :=
  match (s.plan (s.job j).win).running with
  | none => []
  | some p => (((s.jobEntries j).map fun e => p.boundBuffers e.1 2).flatten.map fun b => s.bufferLines b.2).flatten

def Prog.ofJob (p : Prog) (j : Nat) : Bool := p.role == .job j

/-- Programs of a job that are still on an Arcade. -/
def State.jobRuns (s : State) (j : Nat) : Bool :=
  s.arc.any fun e => (match e.2.running with
    | some p => p.ofJob j
    | none => false) || e.2.bulk.any fun p => p.ofJob j

/-- Write lines, with their poison. -/
def Piazza.writeLines (z : Piazza) (lines : List (Nat × Bytes × Bool)) : Piazza :=
  lines.foldl (fun z l => z.writeLine l.1 l.2.1 l.2.2) z

/-- The checks of a job or a session are cancelled: they leave the primaries and the checkers' queues. -/
def State.dropChecks (s : State) (f : Check → Bool) : State :=
  let gone := (s.arc.map fun e => (e.2.checks.filter f).map fun k => (e.1, k.instCount)).flatten
  { s with arc := Tab.mapVals {} s.arc fun _ c => { c with
      checks := c.checks.filter fun k => !f k
      checkQueue := c.checkQueue.filter fun q => !gone.contains q
      checking := match c.checking with
        | some q => if gone.contains q then none else some q
        | none => none } }

/-- A job ends with a status (R191, R262): its programs end at their next span boundary, its checks are cancelled, the records that it has
formed and not written are voided (R221), its number leaves what stands shed (R410), and its message is sent (R169). -/
def State.endJob (s : State) (j status : Nat) : State :=
  let x := s.job j
  if !x.active then s
  else
    let s := { s with arc := Tab.mapVals {} s.arc fun _ c => c.endPrograms fun p => p.ofJob j }
    let s := s.dropChecks fun k => k.isJob && k.origin == j
    let s := x.ready.foldl (fun (s : State) r => s.void x.session r.rseq) s
    let s := s.message (if x.win < 64 then x.win else 64) x.vector.toNat
    let unshed (d : Descent) : Descent := match d with
      | .jobs js => .jobs (js.filter fun k => k != j)
      | d => d
    State.onJob { s with pm := { s.pm with descents := s.pm.descents.map unshed } } j fun _ => { ended := status }

/-- The programs of a job begin a step (R253). Where one of them can start no more on its Arcade, the job ends with ST_FAULT (R191, R377,
R407; log entry 105). -/
def State.startJobStep (s : State) (j : Nat) : State :=
  let x := s.job j
  match (s.plan x.win).running with
  | none => s
  | some plan =>
    let es := s.jobEntries j
    if es.any fun e => s.noPrograms e.2.arcade then s.endJob j stFault
    else
      let n := x.steps + 1
      let gen := (s.session x.session).planGen
      let s := s.onJob j fun x => { x with runners := es.map fun e => e.2.arcade, runs := [], steps := n, stepGen := gen }
      es.foldl (fun s e =>
        match s.program x.win plan e.1 (.job j) n with
        | some p => s.onArc e.2.arcade fun c => c.startBulk p
        | none => s) s

/-- A restart restores the last checkpoint and reruns the job on the same Arcades; the records that follow repeat
those written since the checkpoint (R171, R203). Records formed before it and not yet written stand; those formed since are voided
(R221). -/
def State.restoreJob (s : State) (j : Nat) : State :=
  let x := s.job j
  match x.ckpt with
  | none => s
  | some (lines, _, _) =>
    if lines.all fun l => s.pageOk 0x28 x.session l.1 then
      let s := { s with pz := s.pz.writeLines lines }
      let gone := x.ready.drop x.kept
      let s := gone.foldl (fun (s : State) r => s.void x.session r.rseq) s
      let s := s.onJob j fun x => { x with
        restarting := false, redo := x.redo + x.since + (gone.filter (·.redo)).length, since := 0, ready := x.ready.take x.kept
        restarts := x.restarts + 1 }
      s.startJobStep j
    else s.accessRefused x.session ((lines.headD default).1)

/-- A step of a job has ended: its record is formed, with a seq and an rseq of its own (R219), to be written when the ring has room
(R169, R170), and the next step begins. -/
def State.jobStepEnded (s : State) (j : Nat) : State :=
  let x := s.job j
  let runs := x.runners.filterMap fun a => x.runs.find? fun y => y.arcade == a
  let o := joinRuns (s.jobPayload j).1 runs
  let seq := x.seq + x.ready.length + 1
  let (rseq, s) := s.reserve x.session
  let s := s.sendResv x.session 0xFFFF seq rseq
  let r : JobRec := { payload := o.payload, flags := o.flags, formed := s.now, seq := seq, rseq := rseq, planGen := x.stepGen
                      keyxGen := (s.session x.session).keyxGen, redo := decide (0 < x.redo) }
  let s := runs.foldl (fun (s : State) y => s.noteFormed y.arcade x.session y.inst rseq) s
  let s := s.onJob j fun x => { x with ready := x.ready ++ [r], redo := x.redo - 1 }
  s.startJobStep j

def State.jobRunEnded (s : State) (a j : Nat) (p : Prog) : State :=
  let o : RunOut := { arcade := a, group := 0, payload := p.payload, flags := p.flags, sigs := p.sigs, inst := p.inst }
  let s := s.onJob j fun x => { x with runs := x.runs ++ [o] }
  let x := s.job j
  if x.active && x.runners.all fun r => x.runs.any fun y => y.arcade == r then s.jobStepEnded j else s

/-- The result ring of a job is full (R170). -/
def Job.ringFull (x : Job) : Bool := decide (x.ringEntries ≤ x.seq - x.acked)

/-- A repeat of one of the job's spans is still to run (R187). -/
def State.repeatPending (s : State) (j : Nat) : Bool :=
  s.arc.any fun e => e.2.checks.any fun k => k.isJob && k.origin == j && k.stage == .repeating

/-- The programs of a job that restarts have ended, and its checkpoint is restored (R203). -/
def State.resumeRestart (s : State) (j : Nat) : State :=
  if (s.job j).restarting && !s.jobRuns j && !s.repeatPending j then s.restoreJob j else s

/-- JOB_RESTART (R203): the job's programs end at their next span boundaries, then it reruns from its checkpoint. -/
def State.restartJob (s : State) (j : Nat) : State :=
  if !(s.job j).active then s
  else
    let s := s.onJob j fun x => { x with restarting := true }
    let s := { s with arc := Tab.mapVals {} s.arc fun _ c => c.endPrograms fun p => p.ofJob j }
    s.resumeRestart j

/-- A program that was told to end has ended at its span boundary (R203, R262). -/
def State.programGone (s : State) (p : Prog) : State :=
  match p.role with
  | .job j => s.resumeRestart j
  | _ => s

/-! Faults of a program. -/

/-- The static index of the span that begins at a word: the BOUNDs before it (R204). -/
def spanIndex (words : List Word) (pc : Nat) : Nat :=
  ((words.take pc).filter fun w => wordField w 58 6 == 0x0B).length

/-- The integrity record of R204. -/
structure IntegRec where
  kind : Nat
  verdict : Nat := 0
  unit : Nat := 0xFF
  primary : Nat := 0xFF
  checker : Nat := 0xFF
  referee : Nat := 0xFF
  tainted : Bool := false
  restarted : Bool := false
  ended : Bool := false
  partnerIn : Bool := false
  session : Nat := 0
  origin : Nat := 0xFFFF
  program : Nat := 0
  spanIdx : Nat := 0xFFFF
  inst : Nat := 0
  spanEnd : Nat := 0
  first : Nat := 1
  last : Nat := 0
  disregard : Nat := 1
  /-- the device time of the detection, where it is not that of the writing. -/
  detect : Option Nat := none

def IntegRec.bytes (r : IntegRec) (unitState now : Nat) : Bytes :=
  [BitVec.ofNat 8 r.kind, BitVec.ofNat 8 r.verdict, BitVec.ofNat 8 r.unit, BitVec.ofNat 8 unitState,
    BitVec.ofNat 8 r.primary, BitVec.ofNat 8 r.checker, BitVec.ofNat 8 r.referee,
    BitVec.ofNat 8 ((if r.tainted then 1 else 0) + (if r.restarted then 2 else 0) + (if r.ended then 4 else 0)
      + (if r.partnerIn then 8 else 0))]
    ++ Bytes.ofNat 2 r.session ++ Bytes.ofNat 2 r.origin ++ Bytes.ofNat 2 r.program ++ Bytes.ofNat 2 r.spanIdx
    ++ Bytes.ofNat 8 r.inst ++ Bytes.ofNat 8 r.spanEnd ++ Bytes.ofNat 8 now ++ Bytes.ofNat 8 r.first
    ++ Bytes.ofNat 8 r.last ++ Bytes.ofNat 8 r.disregard

/-- Write an integrity record (R204): visible to the session's VI and the operator. An INPUT_FORK reports the SCL (R195). -/
def State.reportInteg (s : State) (r : IntegRec) : State :=
  let x := s.session r.session
  let st := if r.unit < 16 then (s.arcade r.unit).integ.code else 0xFF
  let s := s.onSess r.session fun x => { x with intErrors := x.intErrors + 1 }
  s.report { event := 0x0301, unitKind := if r.unit < 16 then 1 else if r.kind = 8 then 5 else 0, unit := r.unit, session := r.session
             origin := r.origin, vi := if x.operator then 255 else x.vi, world := if x.operator then 1 else 2
             detail := r.bytes st (r.detect.getD s.now) }

def RunRole.origin : RunRole → Nat
  | .slot cs _ | .shadow cs _ => cs
  | .job j => j
  | .check => 0xFFFF

/-- Checks of a primary are cancelled, at the primary and in their checkers' queues. -/
def State.cancelChecks (s : State) (a : Nat) (f : Check → Bool) : State :=
  let gone := ((s.arcade a).checks.filter f).map fun k => (a, k.instCount)
  let s := s.onArc a fun c => { c with checks := c.checks.filter fun k => !f k }
  { s with arc := Tab.mapVals {} s.arc fun _ (c : Arcade) => { c with
      checkQueue := c.checkQueue.filter fun q => !gone.contains q
      checking := match c.checking with
        | some q => if gone.contains q then none else some q
        | none => none } }

/-- The check of a span that never ends is cancelled. -/
def State.cancelSpan (s : State) (a : Nat) (p : Prog) : State :=
  if p.selected then s.cancelChecks a fun k => k.instCount == p.inst && k.endTime.isNone else s

/-- A running program leaves its Arcade. -/
def State.leaveArcade (s : State) (a : Nat) : State := s.onArc a fun c => { c with running := none }

/-- The stream's plan gives it STATE buffers (R115). -/
def State.hasState (s : State) (cs : Nat) : Bool :=
  match (s.plan (s.stream cs).win).running with
  | none => false
  | some p => (List.range p.schedules.length).any fun i => match p.scheduleAt i with
      | some x => x.kind != 2 && x.trigger == cs && !x.ckJob && !(p.boundBuffers i 2).isEmpty
      | none => false

/-- The last record of a session that has been released (R202). -/
def State.lastReleased (s : State) (sc : Nat) : Nat := (s.session sc).lastReleased

/-- The least of a list. -/
def leastOf : List Nat → Option Nat
  | [] => none
  | x :: r => some (r.foldl min x)

/-- The suspect range of a session's work on a primary that ends with the record `last`, and the first record to disregard (R202 to
R204): from the first record formed from spans there since the last that passed. A job that restarts repeats every record since its
checkpoint: where the range would be empty and such records have been released, it is they (R171; DEDUCED, log entry 106). An empty
range is 1 and 0. -/
def State.suspectRange (s : State) (a sc : Nat) (job : Option Nat) (last : Nat) : Nat × Nat × Nat :=
  let first := leastOf (((s.arcade a).formed.filter fun e => e.1 == sc && decide (e.2.2 ≤ last)).map fun e => e.2.2)
  let again := ((job.bind fun j => (s.job j).ckpt).map fun c => c.2.2).filter fun r => decide (r ≤ last)
  match first, again with
  | some f, some r => (f, last, min f r)
  | some f, none => (f, last, f)
  | none, some r => (r, last, r)
  | none, none => (1, 0, 1)

/-- What follows for a stream whose work is suspect: its state is tainted where it has STATE buffers (R203). -/
def State.taint (s : State) (cs : Nat) : State :=
  if s.hasState cs then s.onStream cs fun st => { st with tainted := true } else s

/-- A collective part failed its digest (R200): the program ends without a session fault; a job restarts, and a stream's
state is tainted (R203). -/
def State.collectiveFail (s : State) (a : Nat) (p : Prog) : State :=
  let s := (s.leaveArcade a).cancelSpan a p
  let job := match p.role with
    | .job j => some j
    | _ => none
  let (first, last, dis) := s.suspectRange a p.session job (s.lastReleased p.session)
  let s := s.reportInteg {
    kind := 5, primary := a, restarted := job.isSome, tainted := job.isNone && s.hasState p.role.origin
    session := p.session, origin := p.role.origin
    program := p.program, spanIdx := spanIndex p.words p.startPc, inst := p.inst - p.instBase, spanEnd := s.now
    first := first, last := last, disregard := dis }
  match p.role with
  | .job j => s.restartJob j
  | .slot cs _ => s.taint cs
  | _ => s

/-- A program ends with SESSION_FAULT (R87, R100, R139, R370): its slot releases FAULT. -/
def State.programFault (s : State) (a : Nat) (p : Prog) (event : Nat) : State :=
  let s := (s.leaveArcade a).cancelSpan a p
  let s := s.sessionFault p.session { event := event, unitKind := 1, unit := a, origin := p.role.origin }
  match p.role with
  | .slot cs seq => s.slotFault cs seq
  | _ => s

/-- What an instruction leaves: the program goes on, waits, or has ended with a fault or a failed digest. -/
def State.afterInstr (a : Nat) (x : Ran) : State :=
  if x.stop = 0x0301 then x.s.collectiveFail a x.p
  else if x.stop ≠ 0 then x.s.programFault a x.p x.stop
  else x.s.onArc a fun c => { c with running := some x.p }

end Sys2Proof.Machine
end

