-- ==== Sys2Proof/Machine/Abort.lean ====
section
/-! DEFINITION. The end of streams and sessions (R90, R168, R206, R221, R262, R370), and the retirement of an Arcade
(R14, R191). -/

namespace Sys2Proof.Machine

/-- Programs and checks that a test selects leave every Arcade at once. -/
def State.dropWork (s : State) (f : Prog → Bool) (g : Check → Bool) : State :=
  let s := { s with arc := Tab.mapVals {} s.arc fun _ c => c.dropPrograms f }
  s.dropChecks g

def RunRole.ofStream (r : RunRole) (cs : Nat) : Bool :=
  match r with
  | .slot n _ | .shadow n _ => n == cs
  | _ => false

/-- A stream's binding ends: its slots in flight are voided, its programs and checks dropped, and its result slot reads
zero (R168, R221, R262). The instants armed for its slots go. -/
def State.endStream (s : State) (cs : Nat) : State :=
  let st := s.stream cs
  if !st.bound then s
  else
    let s := (st.slots.filter fun x => !x.left && !x.folded).foldl (fun s x => s.void st.session x.rseq) s
    let s := s.dropWork (fun p => p.role.ofStream cs) fun k => !k.isJob && k.origin == cs
    let s := { s with
      streams := Tab.set {} s.streams cs {}
      results := Tab.set {} s.results (64 * st.win + st.slot) {}
      ptu := { s.ptu with events := Tab.mapVals {} s.ptu.events fun _ (e : Event) =>
        if e.kind.isStream && e.target.toNat == cs then { e with armed := [] } else e } }
    s.settleKeys st.session

/-- The streams and jobs of a session. -/
def State.streamsOf (s : State) (sc : Nat) : List Nat :=
  s.streams.filterMap fun e => if e.2.bound && e.2.session == sc then some e.1 else none

def State.jobsOf (s : State) (sc : Nat) : List Nat :=
  s.jobs.filterMap fun e => if e.2.active && e.2.session == sc then some e.1 else none

/-- What a session gives back when it is closed or aborted (R90, R96, R262): its pages are zeroised and return to the
pool, its regions are handled under R90, and its SKA entry is overwritten. -/
def State.giveBack (s : State) (sc : Nat) : State :=
  let s := s.zeroisePages (s.pagesOf sc) true false
  let s := s.releaseRegions sc
  let s := s.onSess sc fun x => { x with oldKeys := [] }
  { s with keys := { s.keys with ska := Tab.set {} s.keys.ska sc {} } }

/-- The K_d of a session whose exchange is ended leaves KREG, or no longer waits for it (R209, R321). -/
def State.dropPlant (s : State) (sc : Nat) : State :=
  let s := { s with keys := { s.keys with kregWaiting := s.keys.kregWaiting.filter fun l => l.sess != some sc } }
  if s.keys.kreg.any fun l => l.sess == some sc then s.emptyKreg else s

/-- PKE jobs that a test selects are aborted (R340): those queued are removed, a running or suspended one's region is wiped,
and a suspended job resumes where the running one was aborted. -/
def Pke.abort (p : Pke) (mine : PkeJob → Bool) : Pke :=
  let wiped (r : Nat) : Bool := (p.run.toList ++ p.suspended.toList).any fun j => mine j && j.region == r
  let held := p.suspended.filter fun j => !mine j
  let run := p.run.filter fun j => !mine j
  let back := run.isNone && (p.run.isSome || (p.preempt && p.queue.head?.any mine))
  let gone := (p.queue ++ p.run.toList ++ p.suspended.toList).filter mine
  { p with
    queue := p.queue.filter fun j => !mine j
    run := if back then held else run
    suspended := if back then none else held
    preempt := p.preempt && held.isSome && !back
    region0 := if wiped 0 then [] else p.region0
    region1 := if wiped 1 then [] else p.region1
    lastStatus := if gone.isEmpty then p.lastStatus else stAborted
    lastTag := match gone.getLast? with
      | some j => j.tag.setWidth 16
      | none => p.lastTag }

/-- The jobs that a test selects are aborted, and the digest contexts of their regions freed (R340). -/
def State.abortJobs (s : State) (mine : PkeJob → Bool) : State :=
  let present := (s.pke.run.toList ++ s.pke.suspended.toList).filter mine
  let s := present.foldl (fun (s : State) j => s.onCtx (regionCtx j.region) fun _ => {}) s
  { s with pke := s.pke.abort mine }

/-- The PKE job of a window's running command ends, its operand memory wiped; a key exchange returns to what it was, and its K_d is not
planted (R209, R262). -/
def State.abortPke (s : State) (w : Nat) : State :=
  let s := s.abortJobs fun j => j.win == some w
  match (s.window w).slot.running with
  | some c => if c.opcode = 0x11 then (s.dropPlant c.session).onSess c.session fun x => { x with keyx := none } else s
  | none => s

/-- The key exchanges of a session that are in progress end (R209). -/
def State.abortKeyx (s : State) (sc : Nat) : State :=
  (List.range 65).foldl (fun (s : State) w => match (s.window w).slot.running with
    | some c => if c.opcode = 0x11 && c.session = sc then s.abortPke w else s
    | none => s) s

/-- The session is CLOSING (R206): no key exchange and no fault of it is pending. -/
def Session.closing (x : Session) : Session :=
  { x with state := .closing, keyx := none, plantKey := none, faultAt := none }

/-- What the check units hold of a session goes with it: its number may name another one (R177, R201, R202). -/
def State.forgetSession (s : State) (sc : Nat) : State :=
  { s with arc := Tab.mapVals {} s.arc fun _ (c : Arcade) => { c with
      formed := c.formed.filter fun e => e.1 != sc
      spanEnd := Tab.set 0 c.spanEnd sc 0, passInst := Tab.set 0 c.passInst sc 0, forced := Tab.set 0 c.forced sc 0
      groups := Tab.set {} c.groups sc {} } }

/-- A standby's copy of a session ends (R424, R432): its streams, pages and regions here go, and the context is FREE. -/
def State.endStandby (s : State) (sc : Nat) : State :=
  let s := (s.streamsOf sc).foldl (fun s cs => s.endStream cs) s
  let s := s.dropWork (fun p => p.session == sc) fun k => k.session == sc
  let s := (s.giveBack sc).forgetSession sc
  let w := (s.session sc).window
  { s with
    sess := Tab.set {} s.sess sc {}
    plans := Tab.mapVals {} s.plans fun v (p : ViPlan) =>
      if v = w then { p with lsess := p.lsess.filter fun e => e.2 != sc + 1 } else p }

/-- ABORT of SESSION scope (R262): streams and jobs end, the jobs' programs at their next span boundary, pages and regions are given back, and the ABORT cut is taken.
A session that is CLOSING already takes the ABORT cut in place of its CLOSE cut (R206). On a standby the copy ends, and the
home is told (R424). -/
def State.abortSession (s : State) (sc status : Nat) : State :=
  let x := s.session sc
  if x.state == .free then s
  else if s.isStandby sc then ((s.onSess sc Session.closing).sendCtx sc).endStandby sc
  else
    let s := (s.streamsOf sc).foldl (fun s cs => s.endStream cs) s
    let s := s.abortKeyx sc
    let s := (s.jobsOf sc).foldl (fun s j => s.endJob j status) s
    let s := s.dropWork (fun p => p.session == sc && !p.ending) fun k => k.session == sc
    let s := s.giveBack sc
    let s := (s.onSess sc Session.closing).dropPlant sc
    let s := if x.closeCut || s.cutPending sc .abort then s else (s.dropFinal sc).cut sc .abort
    s.sendCtx sc

/-- The CLOSE cut of a session whose last slot in flight has released (R206, R222): its streams are unbound, and its
pages and regions given back. -/
def State.closeReady (s : State) (sc : Nat) : State :=
  let x := s.session sc
  if x.state == .closing && !x.closeCut && !s.cutPending sc .close && !s.cutPending sc .abort && (s.inFlightRseqs sc).isEmpty then
    let s := (s.streamsOf sc).foldl (fun s cs => s.endStream cs) s
    let s := s.dropWork (fun p => p.session == sc && !p.ending) fun k => k.session == sc
    (s.giveBack sc).cut sc .close
  else s

/-- ABORT of the sessions of a window (R262). -/
def State.sessionsOf (s : State) (w : Nat) : List Nat :=
  s.sess.filterMap fun e => if e.2.state != .free && e.2.window == w then some e.1 else none

/-! Loss and retirement of an Arcade. -/

/-- The jobs that have a program on an Arcade. -/
def State.jobsOn (s : State) (a : Nat) : List Nat :=
  s.jobs.filterMap fun e => if e.2.active && (s.jobEntries e.1).any (fun x => x.2.arcade == a) then some e.1 else none

/-- Every page of a segment is released and every region of the ALS beneath it is freed, their owners cleared, in
release orders (R191). -/
def State.releaseUnit (s : State) (a : Nat) : State :=
  let pages := (List.range 4096).map fun i => a * 4096 + i
  let s := s.zeroisePages pages true false
  (s.arcade a).regions.foldl (fun (s : State) (r : Nat × Region) =>
    if r.2.valid then s.zeroiseRegion a r.1 true false else s) s

/-- An Arcade is RETIRED (R191): its streams move at their next slot (R14), its jobs end with ST_FAULT, its work stops, its stores are released,
and the health area marks it. -/
def State.retireUnit (s : State) (a : Nat) : State :=
  let s := s.onArc a fun c => { c with integ := .retired, trial := 0 }
  let s := (s.jobsOn a).foldl (fun s j => s.endJob j stFault) s
  let s := { s with arc := Tab.upd {} s.arc a fun (c : Arcade) => { c with running := none, bulk := [], queue := [] } }
  let s := s.cancelChecks a fun k => k.endTime.isNone
  let s := s.releaseUnit a
  let s := { s with health := { s.health with
    retiredArc := s.health.retiredArc ||| BitVec.ofNat 16 (2 ^ a), dirty := true } }
  s.report { event := 0x0402, unitKind := 1, unit := a }

/-- A segment leaves service (R108), and its Arcade with it (R191). -/
def State.retireSegment (s : State) (a : Nat) : State :=
  let s := { s with health := { s.health with retiredSeg := s.health.retiredSeg ||| BitVec.ofNat 16 (2 ^ a), dirty := true } }
  let s := (s.onSeg a fun g => { g with state := .retired }).report { event := 0x0403, unitKind := 2, unit := a }
  s.retireUnit a

/-- A segment in service with more than 256 RETIRED pages, or with uncorrectable errors on two lines of one bank in the
present patrol pass, is RETIRED (R108). -/
def State.laneCheck (s : State) (a : Nat) : State :=
  let g := s.segment a
  let lane := g.uePass.any fun l => g.uePass.any fun m => m != l && bankOfLine m == bankOfLine l
  if g.state == .inService && (lane || decide (256 < g.retired)) then s.retireSegment a else s

/-- The segments in which uncorrectable errors were found are tried for R108. -/
def State.laneChecks (s : State) (u : List Upset) : State :=
  u.foldl (fun s x => match x with
    | .piazza addr .ue => s.laneCheck (segOf addr)
    | _ => s) s

/-- The errors that the codes found as a copy, a capture, a checkpoint or the link read the Piazza (R99). -/
def State.piazzaReads (s : State) (u : List Upset) : State := (s.applyUpsets 0 0 u).laneChecks u

end Sys2Proof.Machine
end

