-- ==== Sys2Proof/Machine/Checks.lean ====
section
/-! DEFINITION. Catching silent errors: the capture of a footprint and the run of a span on another Arcade (R180 to
R183), passes, mismatches, referees and repeats (R187 to R191), suspect ranges and their records (R202 to R204), shadow
work (R199), and the entries of a stream's runs (R193 to R198). -/

namespace Sys2Proof.Machine

/-- An address in a buffer that one schedule entry binds, at the same offset in the buffer that another binds at the
same index; other addresses pass unchanged (R182). -/
def Plan.translate (p : Plan) (frm dstE addr : Nat) : Nat :=
  let (k, o) := p.bindingOf frm addr
  match p.scheduleAt dstE with
  | none => addr
  | some x =>
    if k < 4 then (match p.bound x k with
      | some b => b.base + o
      | none => addr)
    else addr

/-- Copy lines, given as the addresses that schedule entry `own` binds, from the buffers of one entry to those of
another, for a session; poison travels (R95, R100, R181). -/
def State.copyLines (s : State) (sc : Nat) (p : Plan) (own frm dstE : Nat) (lines : List Nat) : State :=
  lines.foldl (fun s x =>
    let src := p.translate own frm x
    let dst := p.translate own dstE x
    if src = dst then s
    else if s.pageOk (0x10 + segOf dst) sc src && s.pageOk (0x10 + segOf dst) sc dst then
      let (b, poison) := s.pz.line src
      { s with pz := s.pz.writeLine dst b poison }
    else s.accessRefused sc dst) s

/-- The program that reruns a check's span under a schedule entry (R181, R182). -/
def Check.rerun (k : Check) (sch : Nat) : Prog :=
  let p := k.prog
  { p with
    schedule := sch
    ads := k.ads.map fun a => BitVec.ofNat 32 (k.plan.translate k.schedule sch a.toNat)
    baseRow := match k.plan.scheduleAt sch with
      | some x => (match k.plan.placements[x.region]? with
        | some r => r.firstRow
        | none => 0)
      | none => 0 }

/-- The program that was checked, as the work whose governing entry names the checkers (R178). -/
def Check.owner (k : Check) : Prog := { k.prog with role := if k.isJob then .job k.origin else .slot k.origin 0 }

/-- Run to the end of the span; the first argument bounds the instructions. -/
def runSpanLoop (a : Nat) (u : List Upset) : Nat → Ran → Ran
  | 0, x => x
  | n + 1, x =>
    if x.stop ≠ 0 || x.wait then x
    else
      match x.p.instr with
      | none | some (.bound, _) | some (.tend, _) => x
      | some (i, k) => runSpanLoop a u n (x.s.runInstr a x.p i k u)

/-- The schedule entry of an Arcade for a check: the primary's own, or a CHECKER entry. -/
def Check.entryFor (k : Check) (primary a : Nat) : Nat :=
  if a = primary then k.schedule else (k.plan.checkerEntry k.schedule a).getD k.schedule

/-- Rerun a check's span on an Arcade, and its signature; none where the run ended with a fault, which is a
SESSION_FAULT (R100, R139, R182). -/
def State.runCheck (s : State) (primary a : Nat) (k : Check) (u : List Upset) : State × Option (BitVec 128) :=
  let s := s.applyUpsets a k.session u
  let x := runSpanLoop a u runLimit { s := s, p := k.rerun (k.entryFor primary a) }
  if x.stop ≠ 0 then
    ((x.s.sessionFault k.session { event := x.stop, unitKind := 1, unit := a, origin := k.origin }).laneChecks u, none)
  else (x.s.laneChecks u, some x.p.signature)

/-! Verdicts on units (R188, R189, R191). -/

/-- A check that an Arcade takes part in passes (R188). -/
def State.checkPass (s : State) (c : Nat) : State :=
  let x := s.arcade c
  let s := s.onArc c fun x => { x with checksDone := x.checksDone + 1 }
  if x.integ == .suspect then
    if 10000 ≤ x.trial + 1 then
      s.onArc c fun x => { x with integ := .inService, trial := 0, slowed := false }
    else s.onArc c fun x => { x with trial := x.trial + 1 }
  else s

/-- The local clock gate of a SUSPECT Arcade passes 7 of every 8 ACLK while the rate stays at 0.9 GHz (R189). -/
def State.gateWanted (s : State) : Bool := decide (900 * 8 ≤ oppMhz s.pm.opp * 7)

/-- An Arcade becomes SUSPECT (R188, R189). -/
def State.suspectUnit (s : State) (c : Nat) : State :=
  let s := s.onArc c fun x => { x with integ := .suspect, trial := 0, slowed := s.gateWanted }
  s.report { event := 0x0401, unitKind := 1, unit := c }

/-- A difference in which an Arcade is outvoted (R188). -/
def State.outvoted (s : State) (c : Nat) : State :=
  s.onArc c fun x => { x with checksDone := x.checksDone + 1, mismatches := min (x.mismatches + 1) 65535 }

/-- The repeat of an attribution was transient or permanent (R187, R188). -/
def State.verdict (s : State) (c : Nat) (transient : Bool) : State :=
  let x := s.arcade c
  if transient then
    let again := match x.lastTransient with
      | some t => decide (s.now ≤ t + 3600000000000)
      | none => false
    let s := s.onArc c fun x => { x with
      transients := if x.transients = 255 then 255 else x.transients + 1, lastTransient := some s.now }
    if x.integ == .inService && again then s.suspectUnit c else s
  else if x.integ == .inService then s.suspectUnit c
  else s

/-! Suspect ranges (R202, R203). -/

/-- The record of a check's outcome, with its suspect range and disregard range (R202, R204). `results` says that the primary's
results are suspect: then a job restarts, unless it `ended` with the retirement of one of its Arcades, and a stream's state is
tainted where it has any (R203). -/
def State.checkRecord (s : State) (a : Nat) (k : Check) (kind verdict unit : Nat) (results : Bool) (ended : Bool := false) :
    IntegRec :=
  let job := if k.isJob then some k.origin else none
  let (first, last, dis) := if results then s.suspectRange a k.session job k.heldLast else (1, 0, 1)
  { kind := kind, verdict := verdict, unit := unit, primary := a
    checker := if k.checker < 16 then k.checker else 0xFF, referee := k.referee.getD 0xFF
    tainted := results && !k.isJob && s.hasState k.origin, restarted := results && k.isJob && !ended, ended := ended, partnerIn := k.checker == 16
    session := k.session, origin := k.origin, program := k.prog.program, spanIdx := spanIndex k.prog.words k.pc
    inst := k.instCount - k.instBase, spanEnd := k.endTime.getD 0
    first := first, last := last, disregard := dis, detect := if k.detect = 0 then none else some k.detect }

/-- What follows for the work: a job restarts, a stream with STATE buffers is tainted (R203). -/
def State.reworkOf (s : State) (k : Check) : State :=
  if k.isJob then s.restartJob k.origin else s.taint k.origin

def State.onCheck (s : State) (a inst : Nat) (f : Check → Check) : State :=
  s.onArc a fun c => { c with checks := c.checks.map fun k => if k.instCount = inst then f k else k }

def State.endCheck (s : State) (a inst : Nat) : State := s.cancelChecks a fun k => k.instCount == inst

/-- The outcome that a check established reaches the shadow work of the check (R199); with none, that work is dropped. -/
def State.settleShadow (s : State) (a inst : Nat) (want : Option (BitVec 128)) : State :=
  let mine (x : Shadow) : Bool := match x.check with
    | some (p, k) => p == a && k.instCount == inst
    | none => false
  { s with arc := Tab.mapVals {} s.arc fun _ (c : Arcade) => { c with
      shadowWork := match want with
        | some g => c.shadowWork.map fun x => if mine x then { x with want := some ⟨[], 0, [g]⟩ } else x
        | none => c.shadowWork.filter fun x => !mine x } }

/-- A check ends as passed: its primary's results up to that span stand (R183, R188, R202). -/
def State.passCheck (s : State) (a : Nat) (k : Check) (units : List Nat) : State :=
  let s := units.foldl (fun s c => s.checkPass c) s
  let s := s.onArc a fun c => { c with
    passInst := Tab.set 0 c.passInst k.session (max (Tab.get 0 c.passInst k.session) k.instCount)
    formed := c.formed.filter fun e => !(e.1 == k.session && decide (e.2.1 ≤ k.instCount)) }
  s.perf k.session 8 1

/-- A check without a majority: INCONCLUSIVE (R187). -/
def State.inconclusive (s : State) (a : Nat) (k : Check) : State :=
  let s := (s.perf k.session 8 1).settleShadow a k.instCount none
  let r := s.checkRecord a k 3 0 0xFF true
  ((s.endCheck a k.instCount).reportInteg r).reworkOf k

/-- The two signatures of a check differ: the session issues no further span on the primary, and a referee is taken
(R187). In lockstep the referee was chosen at the selection and has its copy of the footprint already (R437). -/
def State.mismatch (s : State) (a : Nat) (k : Check) : State :=
  let k := { k with heldLast := s.lastReleased k.session, detect := s.now }
  let ref := if k.checker = 16 then k.referee else s.checkerFor a k.owner [a, k.checker] [a / 4, k.checker / 4]
  match ref with
  | none => s.inconclusive a k
  | some r =>
    let s := if k.checker = 16 then s
      else s.copyLines k.session k.plan k.schedule (k.entryFor a k.checker) (k.entryFor a r) (s.footprint a k)
    s.onCheck a k.instCount fun _ => { k with stage := .refereeing, referee := some r }

/-- Compare a check's signatures where both are known (R183). -/
def State.compareSpan (s : State) (a inst : Nat) : State :=
  match (s.arcade a).checks.find? fun k => k.instCount == inst && k.stage == .running with
  | none => s
  | some k =>
    match k.primarySig, k.checkerSig with
    | some x, some y =>
      if x = y then
        let s := s.passCheck a k (if k.checker < 16 then [a, k.checker] else [a])
        (s.settleShadow a inst (some x)).endCheck a inst
      else s.mismatch a k
    | _, _ => s

/-! The runs of a stream's slot (R193 to R198). -/

/-- The schedule entries of a stream of one kind, by index (R140). -/
def Plan.streamEntries (p : Plan) (cs kind : Nat) : List Nat :=
  (List.range p.schedules.length).filter fun i => match p.scheduleAt i with
    | some x => x.kind == kind && x.trigger == cs && !x.ckJob
    | none => false

def Plan.arcadeOf (p : Plan) (sch : Nat) : Nat := match p.scheduleAt sch with
  | some x => x.arcade
  | none => 16

/-- The checkers mask of a stream (R178). -/
def State.streamMask (s : State) (p : Plan) (cs : Nat) : BitVec 16 :=
  match p.streamEntry cs with
  | some e => if s.fractionOf (s.stream cs).win e.target e.isModel = 0 then 0 else e.checkers
  | none => 0

/-- A schedule entry stands on a PLACEMENT entry of a second residency (R118). -/
def Plan.onSecond (p : Plan) (sch : Nat) : Bool :=
  match p.scheduleAt sch with
  | some x => (match p.placements[x.region]? with
    | some y => y.second
    | none => false)
  | none => false

/-- The entries that run a stream's slots at its second residency: the CHECKER entries that stand there, else the
STREAM_SECOND entries (R122, R140; log entry 43). -/
def Plan.secondEntries (p : Plan) (cs : Nat) : List Nat :=
  let r0 := p.streamEntries cs 0
  let moved := p.streamEntries cs 1
  let arcs := moved.map p.arcadeOf
  let via := r0.filterMap fun e => ((List.range 16).filterMap fun a => p.checkerEntry e a).find? fun k =>
    arcs.contains (p.arcadeOf k) || p.onSecond k
  if !via.isEmpty && via.length = r0.length then via else moved

/-- The three lists of entries that can run a stream's slot: the primary's, those of the second residency, and the
referee's, in a Quarter other than theirs where there is one (R140, R193, R194). -/
def State.runEntries (s : State) (p : Plan) (cs : Nat) : List Nat × List Nat × List Nat :=
  let r0 := p.streamEntries cs 0
  let r1 := p.secondEntries cs
  let used := (r0 ++ r1 ++ p.streamEntries cs 1).map p.arcadeOf
  let mask := s.streamMask p cs
  let free := (List.range 16).filter fun a => mask.getLsbD a && !used.contains a
  let order := free.filter (fun a => !(used.map (· / 4)).contains (a / 4)) ++ free
  let ref := r0.filterMap fun e => (order.filterMap fun a => p.checkerEntry e a).head?
  (r0, r1, if ref.length = r0.length then ref else [])

/-- A stream that runs dual (R174, R193). -/
def State.isDual (s : State) (cs : Nat) : Bool := s.fractionOf (s.stream cs).win cs false == 5

/-- The STATE buffers of entries (R115). -/
def Plan.stateOf (p : Plan) (es : List Nat) : List Buffer := ((es.map fun e => p.boundBuffers e 2).flatten).map (·.2)
def Plan.inputOf (p : Plan) (es : List Nat) : List Buffer := ((es.map fun e => p.boundBuffers e 1).flatten).map (·.2)

/-- Copy the buffers of one list over those of another, in order. -/
def State.copyBuffers (s : State) (sc : Nat) (src dst : List Buffer) : State :=
  (src.zip dst).foldl (fun s x => if x.1 = x.2 then s else s.copyBuffer sc x.1 x.2) s

/-- The CHECKER entries of Arcades in PROBATION for a stream (R199, R377). -/
def State.probationEntries (s : State) (p : Plan) (cs : Nat) : List (List Nat) :=
  let mask := s.streamMask p cs
  let r0 := p.streamEntries cs 0
  ((List.range 16).filter fun a => mask.getLsbD a && (s.arcade a).integ == .probation && !s.quarterOut a).filterMap fun a =>
    let es := r0.filterMap fun e => p.checkerEntry e a
    if es.isEmpty then none else some es

/-- A shadow program has ended (R199). -/
def State.shadowEnded (s : State) (a cs seq : Nat) (p : Prog) : State :=
  let n := ((s.slotOf cs seq).map (·.len)).getD (s.payloadOf cs).1
  let o : Outcome1 := { payload := Tab.getMany 0 p.payload 0 n, flags := p.flags, sigs := p.sigs }
  s.onArc a fun c => { c with
    shadowWork := c.shadowWork.map fun x => if x.slot = some (cs, seq) then { x with mine := some o } else x }

/-- The outcome that a slot's comparison established reaches its shadow runs (R199). -/
def State.settleSlotShadow (s : State) (cs seq : Nat) (want : Option Outcome1) : State :=
  let mine (x : Shadow) : Bool := x.slot == some (cs, seq)
  { s with arc := Tab.mapVals {} s.arc fun _ (c : Arcade) => { c with
      shadowWork := match want with
        | some o => c.shadowWork.map fun x => if mine x then { x with want := some o } else x
        | none => c.shadowWork.filter fun x => !mine x } }

end Sys2Proof.Machine
end

