-- ==== Sys2Proof/Machine/TileRows.lean ====
section
/-! DEFINITION. The rows of the tile programs (R128 to R137), of the parts and timeouts of a program (R134, R139), of
queued and suspended programs (R82), and the abort that follows a SESSION_FAULT (R370). A row acts where the sequencer
of the Arcade stands at its instruction. -/

namespace Sys2Proof.Machine

/-- An instruction that issues only after the program's earlier writes are complete (R138). -/
def TileInstr.ordered : TileInstr → Bool
  | .tile .. | .send .. | .move .. | .signal .. | .bound | .tend => true
  | _ => false

/-- A part that a program sent is still on its way (R134, R138). An OUT and a MOVE have written when their row ends. -/
def State.sending (s : State) (a : Nat) (p : Prog) : Bool :=
  s.arc.any fun e => e.2.inFlight.any fun x => x.source == some (a, p.role) && x.gen == p.gen

/-- The sequencer of an Arcade stands at an instruction that a test admits, its span may issue, and the writes that it
follows are complete (R128, R138, R181). -/
def State.tileReady (s : State) (a : Nat) (f : TileInstr → Bool) : Bool :=
  match (s.arcade a).running with
  | none => false
  | some p =>
    match p.instr with
    | none => false
    | some x => f x.1 && !(p.atBoundary && s.spanHeld a p) && !(x.1.ordered && s.sending a p)

/-- Enter the span at which a program stands, where it has not been issued (R181). -/
def State.enterSpan (s : State) (a : Nat) (p : Prog) : State × Prog :=
  if p.atBoundary then s.issueSpan a p else (s, p)

/-- Run the instruction at which the sequencer stands, with the errors that the codes found as it ran. A parameter
store in error beyond correction resets the block (R369). -/
def State.tileRow (s : State) (a : Nat) (u : List Upset) : State :=
  match (s.arcade a).running with
  | none => s
  | some p =>
    match p.instr with
    | none => s
    | some (i, n) =>
      if paramsLost u then s.blockReset 1 a 0x0601 (some { event := 0x0601, unitKind := 1, unit := a })
      else
        let (s, p) := s.enterSpan a p
        (State.afterInstr a ((s.applyUpsets a p.session u).runInstr a p i n u)).laneChecks u

def execNop (a : Arc) (s : State) : Host.Outcome State Fault Refusal :=
  act (s.tileReady a.val fun i => i == .nop) (fun s => s.tileRow a.val []) s

def TileInstr.isTile : TileInstr → Bool
  | .tile .. => true
  | _ => false

def TileInstr.isOut : TileInstr → Bool
  | .out .. => true
  | _ => false

def TileInstr.isSeta : TileInstr → Bool
  | .seta .. => true
  | _ => false

def TileInstr.isLoop : TileInstr → Bool
  | .loop _ => true
  | _ => false

def TileInstr.isSend : TileInstr → Bool
  | .send .. => true
  | _ => false

def TileInstr.isComb : TileInstr → Bool
  | .comb _ => true
  | _ => false

def TileInstr.isSignal : TileInstr → Bool
  | .signal .. => true
  | _ => false

def TileInstr.isWait : TileInstr → Bool
  | .wait .. => true
  | _ => false

def TileInstr.isMove : TileInstr → Bool
  | .move .. => true
  | _ => false

/-- TILE (R129 to R131). -/
def execTile (a : Arc) (u : List Upset) (s : State) : Host.Outcome State Fault Refusal :=
  act (s.tileReady a.val TileInstr.isTile) (fun s => s.tileRow a.val u) s

/-- OUT (R132). -/
def execOut (a : Arc) (u : List Upset) (s : State) : Host.Outcome State Fault Refusal :=
  act (s.tileReady a.val TileInstr.isOut) (fun s => s.tileRow a.val u) s

/-- SETA (R133). -/
def execSeta (a : Arc) (s : State) : Host.Outcome State Fault Refusal :=
  act (s.tileReady a.val TileInstr.isSeta) (fun s => s.tileRow a.val []) s

/-- LOOP (R133). -/
def execLoop (a : Arc) (s : State) : Host.Outcome State Fault Refusal :=
  act (s.tileReady a.val TileInstr.isLoop) (fun s => s.tileRow a.val []) s

/-- ENDL (R133). -/
def execEndl (a : Arc) (s : State) : Host.Outcome State Fault Refusal :=
  act (s.tileReady a.val fun i => i == .endl) (fun s => s.tileRow a.val []) s

/-- SEND (R134). -/
def execSend (a : Arc) (u : List Upset) (s : State) : Host.Outcome State Fault Refusal :=
  act (s.tileReady a.val TileInstr.isSend) (fun s => s.tileRow a.val u) s

/-- COMB (R134): with parts still to arrive, the program waits at it. -/
def execComb (a : Arc) (u : List Upset) (s : State) : Host.Outcome State Fault Refusal :=
  act (s.tileReady a.val TileInstr.isComb) (fun s => s.tileRow a.val u) s

/-- SIGNAL (R135). -/
def execSignal (a : Arc) (s : State) : Host.Outcome State Fault Refusal :=
  act (s.tileReady a.val TileInstr.isSignal) (fun s => s.tileRow a.val []) s

/-- WAIT (R135): below its value, the program waits at it. -/
def execWait (a : Arc) (s : State) : Host.Outcome State Fault Refusal :=
  act (s.tileReady a.val TileInstr.isWait) (fun s => s.tileRow a.val []) s

/-- MOVE (R136). -/
def execMove (a : Arc) (u : List Upset) (s : State) : Host.Outcome State Fault Refusal :=
  act (s.tileReady a.val TileInstr.isMove) (fun s => s.tileRow a.val u) s

/-- BOUND ends a span (R137). A program that was told to end ends here (R203, R262). -/
def State.boundRow (s : State) (a : Nat) : State :=
  match (s.arcade a).running with
  | none => s
  | some p =>
    let (s, p) := s.enterSpan a p
    let (s, p) := s.endSpan a { p with pc := p.pc + 1 }
    let s := State.compareSpan (s.onArc a fun c => { c with running := some p }) a p.inst
    if p.ending then (s.leaveArcade a).programGone p else s

def execBound (a : Arc) (s : State) : Host.Outcome State Fault Refusal :=
  act (s.tileReady a.val fun i => i == .bound) (fun s => s.boundRow a.val) s

/-- A job's programs pause at their next END while a record that the ring has no room for waits (R170). -/
def State.endPaused (s : State) (a : Nat) : Bool :=
  match (s.arcade a).running with
  | some p =>
    (match p.role with
    | .job j => !(s.job j).ready.isEmpty && (s.job j).ringFull
    | _ => false)
  | none => false

/-- END ends the span and the program (R137, R156, R193). -/
def State.endRow (s : State) (a : Nat) : State :=
  match (s.arcade a).running with
  | none => s
  | some p =>
    let (s, p) := s.enterSpan a p
    let (s, p) := s.endSpan a p
    let s := (s.leaveArcade a).compareSpan a p.inst
    match p.role with
    | .slot cs seq => s.slotRunEnded a cs seq p
    | .shadow cs seq => s.shadowEnded a cs seq p
    | .job j => if p.ending then s.programGone p else s.jobRunEnded a j p
    | .check => s

def execTend (a : Arc) (u : List Upset) (s : State) : Host.Outcome State Fault Refusal :=
  act ((s.tileReady a.val fun i => i == .tend) && !s.endPaused a.val) (fun s => (s.piazzaReads u).endRow a.val) s

/-- A part reaches the Arcade that combines it: its rows are written, and its arrival marked (R134). -/
def State.arrive (s : State) (a : Nat) (x : InPart) : State :=
  s.onArc a fun c =>
    let c := (List.range x.rows.length).foldl (fun (c : Arcade) i =>
      (c.setAccRow (x.row + i) (x.rows.getD i [])).setAccPoison (x.row + i) (x.poison.getD i [])) c
    { c with
      inFlight := c.inFlight.erase x
      parts := Tab.set false c.parts (partKey x.gen x.rdesc x.part) true
      partDigest := Tab.set 0 c.partDigest (partKey x.gen x.rdesc x.part) x.digest }

def execPartArrival (a : Arc) (rdesc : Fin 256) (part : Fin 16) (s : State) : Host.Outcome State Fault Refusal :=
  match (s.arcade a.val).inFlight.find? fun x => x.rdesc == rdesc.val && x.part == part.val with
  | some x => act true (fun s => s.arrive a.val x) s
  | none => act false id s

/-- ACLK that have passed on an Arcade since a device time, at its present frequency, reach a limit (R134, R135; log entry
92). -/
def State.aclkPassed (s : State) (a since limit : Nat) : Bool := decide (limit * 1000 ≤ (s.now - since) * s.aclkMhz a)

/-- The program on an Arcade waits at a WAIT that is not satisfied, or at a COMB whose parts have not all arrived, and has
done so for the WAIT's timeout, or for 2²⁶ ACLK (R134, R135). -/
def State.stuckAt (s : State) (a : Nat) (comb : Bool) : Option Prog :=
  let c := s.arcade a
  match c.running with
  | none => none
  | some p =>
    match p.waiting with
    | some (.counter k v n t) =>
      if !comb && Tab.get 0 c.sy (syKey p.gen k) < v && s.aclkPassed a t (1024 * n) then some p else none
    | some (.parts r t) =>
      (match p.plan.reductions[r]? with
      | some d => if comb && !c.allArrived p.gen r d.parts && s.aclkPassed a t (2 ^ 26) then some p else none
      | none => none)
    | none => none

/-- A WAIT reached its timeout (R135, R139). -/
def execWaitTimeout (a : Arc) (s : State) : Host.Outcome State Fault Refusal :=
  match s.stuckAt a.val false with
  | some p => act true (fun s => s.programFault a.val p 0x0203) s
  | none => act false id s

/-- A COMB reached its timeout of 2²⁶ ACLK (R134, R139). -/
def execCombTimeout (a : Arc) (s : State) : Host.Outcome State Fault Refusal :=
  match s.stuckAt a.val true with
  | some p => act true (fun s => s.programFault a.val p 0x0203) s
  | none => act false id s

/-- Every RELEASE of the session's slots has fired. -/
def State.allReleased (s : State) (sc : Nat) : Bool :=
  s.streams.all fun e => !(e.2.session == sc) || e.2.slots.all fun x => x.released.isSome

/-- SESSION_FAULT_ABORT (R370): when every RELEASE of the session's slots has fired, or 100 µs after the fault, the
block acts as ABORT of SESSION scope, and the session's jobs end with ST_FAULT. -/
def execSessionFaultAbort (sc : Sc) (s : State) : Host.Outcome State Fault Refusal :=
  let due := match (s.session sc.val).faultAt with
    | some t => s.allReleased sc.val || decide (t + 100000 ≤ s.now)
    | none => false
  act due (fun s => s.abortSession sc.val stFault) s

/-- QUEUED_SLOT_START (R82): the oldest queued start runs when the control program before it has ended. -/
def execQueuedSlotStart (a : Arc) (s : State) : Host.Outcome State Fault Refusal :=
  let c := s.arcade a.val
  act (c.running.isNone && !c.queue.isEmpty) (fun s => s.onArc a.val fun c =>
    match c.queue with
    | x :: r => { c with running := some x.prog, queue := r }
    | [] => c) s

/-- BULK_RESUME (R82): the bulk program at the front goes on when no control program runs or waits. -/
def execBulkResume (a : Arc) (s : State) : Host.Outcome State Fault Refusal :=
  let c := s.arcade a.val
  act (c.running.isNone && c.queue.isEmpty && !c.bulk.isEmpty) (fun s => s.onArc a.val fun c =>
    match c.bulk with
    | x :: r => { c with running := some x, bulk := r }
    | [] => c) s

end Sys2Proof.Machine
end

