-- ==== Sys2Proof/Machine/IntegrityRows.lean ====
section
/-! DEFINITION. The rows of integrity checking (R177 to R199). -/

namespace Sys2Proof.Machine

/-- CAPTURE_DONE (R181): the footprint is in the checker's buffers, in lockstep in those of the local referee, and in
those of an Arcade in PROBATION that shadows the check (R199). -/
def State.captured (s : State) (a : Nat) (k : Check) : State :=
  let lines := s.footprint a k
  let s := if k.checker < 16 then s.copyLines k.session k.plan k.schedule k.schedule (k.entryFor a k.checker) lines
    else (match k.referee with
      | some r => s.copyLines k.session k.plan k.schedule k.schedule (k.entryFor a r) lines
      | none => s)
  let shadows := (List.range 16).filter fun c =>
    k.owner.checkerMask.getLsbD c && (s.arcade c).integ == .probation && (k.plan.checkerEntry k.schedule c).isSome
  let s := shadows.foldl (fun s c =>
    (s.copyLines k.session k.plan k.schedule k.schedule (k.entryFor a c) lines).onArc c fun x =>
      { x with shadowWork := x.shadowWork ++ [{ check := some (a, k) }] }) s
  if k.checker = 16 then (s.onCheck a k.instCount fun k => { k with stage := .running }).compareSpan a k.instCount
  else s.onCheck a k.instCount fun k => { k with stage := .queued }

def execCaptureDone (a : Arc) (u : List Upset) (s : State) : Host.Outcome State Fault Refusal :=
  match (s.arcade a.val).checks.find? fun k => k.stage == .capturing with
  | some k => act true (fun s => (s.piazzaReads u).captured a.val k) s
  | none => act false id s

/-- An Arcade is free for a check: nothing runs on it, or its bulk program, suspended or not, stands at a span boundary (R179). -/
def Arcade.atCheck (c : Arcade) : Bool :=
  c.queue.isEmpty && (match c.running with
    | none => c.bulk.head?.all fun p => p.atBoundary
    | some p => !p.isControl && p.atBoundary)

/-- No control program holds the Arcade (R179). -/
def Arcade.noControl (c : Arcade) : Bool :=
  c.queue.isEmpty && (match c.running with
    | none => true
    | some p => !p.isControl)

/-- A check that a primary holds, by the instance number of its span. -/
def State.checkOf (s : State) (a inst : Nat) : Option Check := (s.arcade a).checks.find? fun k => k.instCount == inst

/-- An Arcade may run checks (R178): one that is RETIRED runs none, and a check in its queue ends OVERDUE (R185, R191). -/
def Arcade.checks? (c : Arcade) : Bool := c.integ == .inService || c.integ == .suspect

/-- CHECK_START (R179, R377): the oldest check in the checker's queue starts once it is captured. -/
def execCheckStart (a : Arc) (s : State) : Host.Outcome State Fault Refusal :=
  let c := s.arcade a.val
  match c.checkQueue with
  | [] => act false id s
  | q :: r =>
    let queued := match s.checkOf q.1 q.2 with
      | some k => k.stage == .queued
      | none => false
    act (c.checking.isNone && c.atCheck && c.checks? && !s.quarterOut a.val && queued) (fun s =>
      let s := s.onArc a.val fun c => { c with checking := some q, checkQueue := r }
      s.onCheck q.1 q.2 fun k => { k with stage := .running }) s

/-- CHECK_COMPLETE (R182, R183): the checker has run the span; the comparison follows when the primary's signature is
known too. -/
def State.checkRan (s : State) (a : Nat) (q : Nat × Nat) (k : Check) (u : List Upset) : State :=
  if paramsLost u then s.blockReset 1 a 0x0601 (some { event := 0x0601, unitKind := 1, unit := a })
  else
    let s := s.onArc a fun c => { c with checking := none }
    let (s, g) := s.runCheck q.1 a k u
    match g with
    | none => s.endCheck q.1 q.2
    | some g => (s.onCheck q.1 q.2 fun k => { k with checkerSig := some g }).compareSpan q.1 q.2

def execCheckComplete (a : Arc) (u : List Upset) (s : State) : Host.Outcome State Fault Refusal :=
  let c := s.arcade a.val
  match c.checking with
  | none => act false id s
  | some q =>
    match s.checkOf q.1 q.2 with
    | none => act false id s
    | some k => act (c.noControl && c.checks?) (fun s => s.checkRan a.val q k u) s

/-- The check of a primary that stands at a stage. -/
def State.checkAt (s : State) (a : Nat) (st : CheckStage) : Option Check := (s.arcade a).checks.find? fun k => k.stage == st

/-- The referee agrees with the primary: the checker is outvoted, the primary's results stand and the hold is released
(R187). A partner block that is outvoted gets no mark here, and no repeat (R188). -/
def State.blameChecker (s : State) (a r : Nat) (k : Check) (sig : BitVec 128) : State :=
  let s := (s.passCheck a k [a, r]).settleShadow a k.instCount (some sig)
  if 16 ≤ k.checker then
    let rec1 := s.checkRecord a k 2 0 0xFF false
    (s.endCheck a k.instCount).reportInteg rec1
  else
    let s := s.outvoted k.checker
    if (s.arcade k.checker).integ == .suspect then
      let ended := k.isJob && (s.jobsOn k.checker).contains k.origin
      let s := (s.endCheck a k.instCount).retireUnit k.checker
      s.reportInteg (s.checkRecord a k 2 2 k.checker false ended)
    else s.onCheck a k.instCount fun k => { k with stage := .repeating, repeatOf := some (k.checker, sig) }

/-- The referee agrees with the checker: the primary is outvoted, its results since its last passed check are suspect,
and a job restarts (R187, R202, R203). -/
def State.blamePrimary (s : State) (a r : Nat) (k : Check) (sig : BitVec 128) : State :=
  let s := (s.perf k.session 8 1).settleShadow a k.instCount (some sig)
  let s := (if k.checker < 16 then [k.checker, r] else [r]).foldl (fun s c => s.checkPass c) s
  let s := s.outvoted a
  if (s.arcade a).integ == .suspect then
    let rec1 := s.checkRecord a k 1 2 a true k.isJob
    let s := s.endCheck a k.instCount
    let s := if k.isJob then s else s.taint k.origin
    (s.retireUnit a).reportInteg rec1
  else (s.onCheck a k.instCount fun k => { k with stage := .repeating, repeatOf := some (a, sig) }).reworkOf k

/-- An Arcade that has run, or is to run, a span for a check still can (R191, R377). -/
def State.canRun (s : State) (c : Nat) : Bool := (s.arcade c).checks? && !s.quarterOut c

/-- REFEREE_COMPLETE (R187) on a primary. A referee that has left service since is not available. -/
def State.refereeRan (s : State) (a r : Nat) (k : Check) (u : List Upset) : State :=
  if paramsLost u then s.blockReset 1 r 0x0601 (some { event := 0x0601, unitKind := 1, unit := r })
  else
    let (s, g) := s.runCheck a r k u
    let s := s.onCheck a k.instCount fun k => { k with refereeSig := g }
    let k := { k with refereeSig := g }
    match g with
    | none => s.inconclusive a k
    | some g =>
      if k.primarySig = some g then s.blameChecker a r k g
      else if k.checkerSig = some g then s.blamePrimary a r k g
      else s.inconclusive a k

def execRefereeComplete (a : Arc) (u : List Upset) (s : State) : Host.Outcome State Fault Refusal :=
  match s.checkAt a.val .refereeing with
  | none => act false id s
  | some k =>
    match k.referee with
    | none => act false id s
    | some r => act ((s.arcade r).noControl || !s.canRun r) (fun s =>
        if s.canRun r then s.refereeRan a.val r k u else s.inconclusive a.val k) s

/-- A repeat is over, with its verdict (R187, R188, R204). -/
def State.repeatOver (s : State) (a x : Nat) (k : Check) (transient : Bool) : State :=
  let s := (s.endCheck a k.instCount).verdict x transient
  let s := s.reportInteg (s.checkRecord a k (if x = a then 1 else 2) (if transient then 1 else 2) x (x == a))
  if k.isJob && x == a then s.resumeRestart k.origin else s

/-- REPEAT_COMPLETE (R187): the attributed Arcade reruns the span; a repeat that equals the majority was transient. One that cannot run,
since the Arcade has left service, does not equal it (DEDUCED, log entry 107). -/
def State.repeatRan (s : State) (a x : Nat) (sig : BitVec 128) (k : Check) (u : List Upset) : State :=
  if !(s.arcade x).checks? then s.repeatOver a x k false
  else if paramsLost u then s.blockReset 1 x 0x0601 (some { event := 0x0601, unitKind := 1, unit := x })
  else
    let s := if x = a then
        s.copyLines k.session k.plan k.schedule (k.entryFor a (if k.checker < 16 then k.checker else k.referee.getD a)) k.schedule
          (s.footprint a k)
      else s
    let (s, g) := s.runCheck a x k u
    s.repeatOver a x k (g == some sig)

def execRepeatComplete (a : Arc) (u : List Upset) (s : State) : Host.Outcome State Fault Refusal :=
  match s.checkAt a.val .repeating with
  | none => act false id s
  | some k =>
    match k.repeatOf with
    | none => act false id s
    | some (x, sig) => act (!s.quarterOut x && ((s.arcade x).noControl || !(s.arcade x).checks?)) (fun s => s.repeatRan a.val x sig k u) s

/-- CHECK_WINDOW (R185, R186): the checks of a primary whose span ended at least 47,500 ns before and that are not
completed are OVERDUE: cancelled, and handled as a mismatch of the primary that marks no unit. -/
def State.overdue (s : State) (a : Nat) (k : Check) : State :=
  let k := { k with heldLast := s.lastReleased k.session }
  let s := (s.settleShadow a k.instCount none).endCheck a k.instCount
  let r := s.checkRecord a k 4 0 0xFF true
  (s.reportInteg r).reworkOf k

def Check.late (k : Check) (now : Nat) : Bool :=
  (k.stage == .capturing || k.stage == .queued || k.stage == .running) && (match k.endTime with
    | some t => decide (t + 47500 ≤ now)
    | none => false)

def execCheckWindow (e : EvIdx) (s : State) : Host.Outcome State Fault Refusal :=
  actFiring e.val .checkWindow (fun f s =>
    let a := (s.event f.idx).target.toNat % 16
    ((s.arcade a).checks.filter fun k => k.late s.now).foldl (fun s k => s.overdue a k) s) s

/-! Dual-run. -/

/-- The entries that the Arcades of a slot's run stand for. -/
def State.entriesOf (s : State) (p : Plan) (cs : Nat) (x : SlotRun) (g : Nat) : List Nat :=
  let (r0, r1, ref) := s.runEntries p cs
  let all := r0 ++ r1 ++ ref
  (x.runners.filter fun r => r.2 == g).filterMap fun r => all.find? fun e => p.arcadeOf e == r.1

/-- The outcome of a slot's second run: the partner block's, or a local one (R193, R436). -/
def State.otherRun (s : State) (cs : Nat) (x : SlotRun) : Option Outcome1 :=
  let n := x.len
  if x.runners.any fun r => r.2 == 1 then (if x.groupDone 1 then some (x.outcome n 1) else none)
  else (match (s.stream cs).partner with
    | some (q, o) => if q = x.seq && s.partnerRuns cs then some o else none
    | none => none)

def SlotRun.arcs (x : SlotRun) (g : Nat) : List Nat := (x.runners.filter fun r => r.2 == g).map (·.1)

/-- The program of a stream, and its Arcade (R140, R204). -/
def State.streamProgram (s : State) (cs : Nat) : Nat × Nat :=
  match (s.plan (s.stream cs).win).running with
  | some p => (match (p.streamEntries cs 0).head? with
    | some e => (match p.scheduleAt e with
      | some y => (y.program, y.arcade)
      | none => (0, 0xFF))
    | none => (0, 0xFF))
  | none => (0, 0xFF)

/-- The error record of a dual-run slot (R204). -/
def State.slotInteg (s : State) (cs seq time kind verdict unit : Nat) (x : SlotRun) (tainted : Bool) : IntegRec :=
  let one (g : Nat) : Nat := ((x.arcs g).head?).getD 0xFF
  let prog := (s.streamProgram cs).1
  { kind := kind, verdict := verdict, unit := unit, primary := one 0, checker := one 1, referee := one 2
    tainted := tainted, partnerIn := s.partnerRuns cs, session := (s.stream cs).session, origin := cs
    program := prog, inst := seq, spanEnd := time, detect := if x.detect = 0 then none else some x.detect }

/-- A slot is unresolved (R195, step 5): it releases MISMATCH, the STATE buffers of both residencies and of the referee
are zeroed, and the stream's state is tainted where it has any. -/
def State.unresolved (s : State) (cs : Nat) (x : SlotRun) (kind : Nat) : State :=
  match (s.plan (s.stream cs).win).running with
  | none => s
  | some p =>
    let s := if x.dual == .referee then s else s.formMismatch cs x.seq
    let s := s.onSlot cs x.seq fun y => { y with dual := .mismatch, runners := y.runners.filter fun r => r.2 != 2 }
    let (r0, r1, ref) := s.runEntries p cs
    let tainted := s.hasState cs
    let s := (p.stateOf (r0 ++ r1 ++ ref)).foldl (fun s b => s.zeroBuffer (s.stream cs).session b) s
    let s := s.onStream cs fun st => { st with tainted := st.tainted || tainted }
    let s := s.settleSlotShadow cs x.seq none
    s.reportInteg (s.slotInteg cs x.seq x.icTime.toNat kind 0 0xFF x tainted)

/-- The bytes of buffers. -/
def State.contents (s : State) (bs : List Buffer) : List Bytes := (bs.map fun b => (s.bufferLines b).map (·.2.1)).flatten

/-- Start the programs of entries as a group of a slot's runs (R82, R140). -/
def State.startGroup (s : State) (cs seq g : Nat) (p : Plan) (es : List Nat) : State :=
  es.foldl (fun s e =>
    match s.program (s.stream cs).win p e (.slot cs seq) seq with
    | none => s
    | some q =>
      let a := p.arcadeOf e
      (s.onSlot cs seq fun y => { y with runners := y.runners ++ [(a, g)] }).onArc a fun c => c.startControl q) s

/-- An entry can run: its Arcade is in service, its Quarter is not failed, and its region is MEASURED (R197, R199, R377). -/
def State.usable (s : State) (p : Plan) (cs e : Nat) : Bool :=
  let a := p.arcadeOf e
  let i := (s.arcade a).integ
  let vp := s.plan (s.stream cs).win
  (i == .inService || i == .suspect) && !vp.lostArcs.getLsbD a && !s.quarterOut a
    && (match p.scheduleAt e with
      | none => false
      | some x => x.region == 0xFFFF || (match vp.regions[x.region]? with
        | some (arc, d) =>
          let r := Tab.get {} (s.arcade arc).regions d
          r.valid && r.plan == some (s.stream cs).win && r.state == .measured
        | none => false))

def State.allUsable (s : State) (p : Plan) (cs : Nat) (es : List Nat) : Bool := !es.isEmpty && es.all fun e => s.usable p cs e

/-- DUAL_COMPARE (R193 to R195): equal runs give the slot's record; different ones go to the referee. -/
def State.dualEqual (s : State) (cs : Nat) (p : Plan) (x : SlotRun) (o : Outcome1) : State :=
  let three := x.runners.any fun r => r.2 == 2
  let s := s.onSlot cs x.seq fun y => { y with dual := .equal }
  let s := s.formComputed cs x.seq o.payload o.flags true
  let local1 := x.runners.any fun r => r.2 == 1
  let from1 := s.entriesOf p cs x (if local1 then 1 else 0)
  let ref := (s.runEntries p cs).2.2
  let s := if three then s else s.copyBuffers (s.stream cs).session (p.stateOf from1) (p.stateOf ref)
  let s := s.settleSlotShadow cs x.seq (some o)
  if three then s else (x.arcs 0 ++ x.arcs 1).foldl (fun s c => s.checkPass c) s

/-- The two runs of a slot differ (R195): the referee, which in a slot of three runs runs already, reads both INPUT windows and compares
them (R95), and runs the slot on them where they are the same. -/
def State.dualDiffer (s : State) (cs : Nat) (p : Plan) (x : SlotRun) : State :=
  let sc := (s.stream cs).session
  let s := s.onSlot cs x.seq fun y => { y with detect := s.now }
  let x := { x with detect := s.now }
  let ref := (s.runEntries p cs).2.2
  let three := x.runners.any fun r => r.2 == 2
  let in0 := p.inputOf (s.entriesOf p cs x 0)
  let in1 := p.inputOf (s.entriesOf p cs x 1)
  let barred := (in0 ++ in1).find? fun b => !s.bufferOk (0x10 + segOf b.base) sc b
  if !three && (!s.allUsable p cs ref || ref.any fun e => x.runners.any fun r => r.1 == p.arcadeOf e) then s.unresolved cs x 7
  else
    match barred with
    | some b => (s.accessRefused sc b.base).unresolved cs x 7
    | none =>
    if !in1.isEmpty && s.contents in0 != s.contents in1 then s.unresolved cs x 8
    else if three then (s.formMismatch cs x.seq).onSlot cs x.seq fun y => { y with dual := .referee }
    else
      let s := s.copyBuffers sc in0 (p.inputOf ref)
      let s := (s.formMismatch cs x.seq).onSlot cs x.seq fun y => { y with dual := .referee }
      s.startGroup cs x.seq 2 p ref

def execDualCompare (cs : Cs) (u : List Upset) (s : State) : Host.Outcome State Fault Refusal :=
  let ready (x : SlotRun) : Bool := x.dual == .waiting && !x.fault && x.rseq != 0 && x.groupDone 0 && (s.otherRun cs.val x).isSome
  match (s.stream cs.val).slots.find? ready, (s.plan (s.stream cs.val).win).running with
  | some x, some p => act true (fun s =>
      let s := s.piazzaReads u
      let o := x.outcome x.len 0
      if s.otherRun cs.val x = some o then s.dualEqual cs.val p x o else s.dualDiffer cs.val p x) s
  | _, _ => act false id s

/-- The repeat of an earlier attribution is this slot (R196): its error record, and triple runs while the attributed
Arcade is SUSPECT. -/
def State.settleRepeat (s : State) (cs : Nat) (x : SlotRun) (out : Option Nat) : State :=
  match (s.stream cs).triple with
  | none => s
  | some (a0, seq0, ic0, found) =>
    let s := if (s.stream cs).repeatDue then
        let transient := out != some a0
        let s := s.verdict a0 transient
        let s := s.onStream cs fun st => { st with repeatDue := false }
        s.reportInteg (s.slotInteg cs seq0 ic0 6 (if transient then 1 else 2) a0 { x with detect := found } false)
      else s
    if (s.arcade a0).integ == .suspect then s else s.onStream cs fun st => { st with triple := none }

/-- An Arcade is outvoted in a slot (R188, R196): a SUSPECT one retires at once, another is repeated in the next slot. -/
def State.blameRun (s : State) (cs : Nat) (x : SlotRun) (a : Nat) : State :=
  let again := (match (s.stream cs).triple with
    | some (a0, _) => a0 == a
    | none => false) && (s.stream cs).repeatDue
  let was := (s.arcade a).integ
  let s := s.outvoted a
  if again then s
  else if was == .suspect then
    let s := s.retireUnit a
    let s := s.onStream cs fun st => { st with triple := none }
    s.reportInteg (s.slotInteg cs x.seq x.icTime.toNat 6 2 a x false)
  else s.onStream cs fun st => { st with triple := some (a, x.seq, x.icTime.toNat, x.detect), repeatDue := true }

/-- The run of a slot's group that differs from the majority stands for an Arcade: the first, in the order of the schedule, whose own
outcome differs from that of the Arcade in its place. -/
def SlotRun.culprit (x : SlotRun) (g maj : Nat) : Option Nat :=
  let of (g a : Nat) : Option (Tab Byte × BitVec 3 × List (BitVec 128)) :=
    (x.runs.find? fun r => r.group == g && r.arcade == a).map fun r => (r.payload, r.flags, r.sigs)
  match ((x.arcs g).zip (x.arcs maj)).find? fun y => of g y.1 != of maj y.2 with
  | some y => some y.1
  | none => (x.arcs g).head?

/-- DUAL_REFEREE_COMPLETE (R195, R196): the majority of three runs. `out` is the outvoted group, 3 where all agree. -/
def State.majority (s : State) (cs : Nat) (p : Plan) (x : SlotRun) (out : Nat) (o : Outcome1) : State :=
  let x := if x.detect = 0 then { x with detect := s.now } else x
  let maj := if out = 2 then 0 else 2
  let s := ((List.range 3).filter fun g => g ≠ out).foldl (fun s g => (x.arcs g).foldl (fun s c => s.checkPass c) s) s
  let s := if out < 3 then s.copyBuffers (s.stream cs).session (p.stateOf (s.entriesOf p cs x maj)) (p.stateOf (s.entriesOf p cs x out)) else s
  let s := if x.dual == .referee && x.released.isNone then s.formComputed cs x.seq o.payload o.flags true else s
  let s := s.settleSlotShadow cs x.seq (some o)
  let who := if out < 3 then x.culprit out maj else none
  let s := s.onSlot cs x.seq fun y => { y with
    runners := y.runners.filter fun r => r.2 != 2
    dual := if y.dual == .referee then .majority (who.getD 16) else y.dual }
  let due := (s.stream cs).repeatDue
  let prior := (s.stream cs).triple.map (·.1)
  let s := if due then s.settleRepeat cs x who else s
  match who with
  | some a => if due && prior == some a then s.outvoted a else s.blameRun cs x a
  | none =>
    let s := if out < 3 then s.reportInteg (s.slotInteg cs x.seq x.icTime.toNat 6 0 0xFF x false) else s
    if due then s else s.settleRepeat cs x none

def State.refereeSlot (s : State) (cs : Nat) (p : Plan) (x : SlotRun) : State :=
  let n := x.len
  let o0 := x.outcome n 0
  let o2 := x.outcome n 2
  if x.dual == .equal then s.majority cs p x (if o2 = o0 then 3 else 2) o0
  else if o2 = o0 then s.majority cs p x 1 o2
  else if s.otherRun cs x = some o2 then s.majority cs p x 0 o2
  else s.unresolved cs x 7

def execDualRefereeComplete (cs : Cs) (u : List Upset) (s : State) : Host.Outcome State Fault Refusal :=
  let ready (x : SlotRun) : Bool := (x.dual == .referee || x.dual == .equal) && !x.fault && x.groupDone 2
  match (s.stream cs.val).slots.find? ready, (s.plan (s.stream cs.val).win).running with
  | some x, some p => act true (fun s => (s.piazzaReads u).refereeSlot cs.val p x) s
  | _, _ => act false id s

/-! Shadow runs of PROBATION (R199). -/

/-- The retired marks of a unit leave the health area (R389, R415). -/
def State.clearMark (s : State) (a : Nat) : State :=
  let m : BitVec 16 := ~~~(BitVec.ofNat 16 (2 ^ a))
  let h := s.health
  { s with health := { h with
      retiredArc := h.retiredArc &&& m, retiredSeg := h.retiredSeg &&& m
      dirty := h.dirty || h.retiredArc.getLsbD a || h.retiredSeg.getLsbD a } }

/-- A shadow run agreed with the established outcome: after 10,000 the Arcade is IN_SERVICE, and its readmission, which is complete, clears
the marks of the health area (R389, R415). -/
def State.shadowPass (s : State) (a : Nat) : State :=
  if 10000 ≤ (s.arcade a).trial + 1 then
    (s.onArc a fun c => { c with integ := .inService, trial := 0, shadowWork := [] }).clearMark a
  else s.onArc a fun c => { c with trial := c.trial + 1 }

/-- A shadow run differed: the Arcade is RETIRED, with a record of kind PROBATION_FAIL, whose ranges are empty (R204). -/
def State.shadowFail (s : State) (a : Nat) (r : IntegRec) : State :=
  let s := (s.onArc a fun c => { c with shadowWork := [] }).retireUnit a
  s.reportInteg { r with kind := 9, unit := a, checker := a, referee := 0xFF, first := 1, last := 0, disregard := 1 }

def State.shadowRan (s : State) (a : Nat) (x : Shadow) (u : List Upset) : State :=
  if paramsLost u then s.blockReset 1 a 0x0601 (some { event := 0x0601, unitKind := 1, unit := a })
  else
    let s := s.onArc a fun c => { c with shadowWork := c.shadowWork.erase x }
    match x.check with
    | some (p, k) =>
      let (s, g) := s.runCheck p a k u
      if x.want = some ⟨[], 0, [g.getD 0]⟩ && g.isSome then s.shadowPass a
      else s.shadowFail a (s.checkRecord p { k with detect := 0 } 9 0 a false)
    | none =>
      match x.slot with
      | some (cs, seq) =>
        if x.mine = x.want then s.shadowPass a
        else
          let (prog, primary) := s.streamProgram cs
          s.shadowFail a { kind := 9, primary := primary, session := (s.stream cs).session, origin := cs, program := prog, inst := seq
                           spanEnd := x.icTime }
      | none => s

def execShadowRunComplete (a : Arc) (u : List Upset) (s : State) : Host.Outcome State Fault Refusal :=
  let c := s.arcade a.val
  match c.shadowWork.find? fun x => x.want.isSome && (x.check.isSome || x.mine.isSome) with
  | some x => act (c.noControl && c.integ == .probation) (fun s => s.shadowRan a.val x u) s
  | none => act false id s

end Sys2Proof.Machine
end

