-- ==== Sys2Proof/Machine/Streams.lean ====
section
/-! DEFINITION. The rows of control streams: ingress frames and sample windows (R148 to R153), the firings of a slot
(R48, R49, R154 to R156, R217), and the records that leave (R158, R166, R221). -/

namespace Sys2Proof.Machine

/-! Ingress. -/

/-- The stream has no slots: under SUSPEND, its source stands still (R49). -/
def State.noSlots (s : State) (cs : Nat) : Bool :=
  match s.calendarOf cs with
  | some c => c.phase && !c.timed && (s.source c.source).state.standstill
  | none => true

/-- The stream's latest slot is in flight, from its INPUT_CLOSE to its RELEASE (R48, R153). -/
def Stream.inFlight (st : Stream) : Bool := st.slots.any fun x => x.released.isNone

/-- Write a good frame to the stream's INPUT buffers (R153), each through a GCM lane of its own from its own decryption, where the
lane may reach their pages for the session (R95, R193). -/
def State.writeInput (s : State) (cs : Nat) (f : GoodFrame) : State :=
  match s.calendarOf cs, (s.plan (s.stream cs).win).running with
  | some c, some p =>
    [(c.input, 0x20, f.plaintext), (c.inputSecond, 0x21, f.second)].foldl (fun s x => match p.buffers[x.1]? with
      | some b =>
        if s.bufferOk x.2.1 (s.stream cs).session b then { s with pz := s.pz.writeBytes b.base (x.2.2.take (b.pages * 1024)) }
        else s.accessRefused (s.stream cs).session b.base
      | none => s) s
  | _, _ => s

def State.onSi (s : State) (k : Nat) (f : SiPort → SiPort) : State := { s with si := Tab.upd {} s.si k f }

/-- The bytes of plaintext that wait in a port's ingress buffer of 32 KiB (R153). -/
def State.ingressUsed (s : State) (k : Nat) : Nat :=
  (s.streams.map fun e => if e.2.si == k then (e.2.waiting.map fun g => g.2.plaintext.length).sum else 0).sum

/-- A frame is attributed to a stream (R149): bound, on its own port, which its VI holds, of the port's type, with
nothing in a reserved byte. -/
def State.attributed (s : State) (k cs : Nat) (b : Bytes) : Bool :=
  let st := s.stream cs
  let type := (b.getD 2 0).toNat
  decide (cs < 256) && st.bound && st.si == k && (s.held st.win).bits.getLsbD (16 + k)
    && (type == 1 && !s.siVideo st.win k || type == 2 && s.siVideo st.win k)
    && b.getD 3 0 == 0 && Bytes.num b 16 4 == 0

/-- The window that a frame completing at this tick belongs to (R151). -/
def State.frameWindow (s : State) (cs : Nat) : SampleWin :=
  if s.closing cs then (s.stream cs).nextWindow else (s.stream cs).window

def State.onFrameWindow (s : State) (cs : Nat) (f : SampleWin → SampleWin) : State :=
  s.onStream cs fun st =>
    if s.closing cs then { st with nextWindow := f st.nextWindow } else { st with window := f st.window }

/-- A frame of class MALFORMED or AUTH_FAIL is discarded and counted; where the stream has no slots, as a duplicate (R152). -/
def State.badFrame (s : State) (k cs : Nat) (auth : Bool) : State :=
  let s := if auth then s else s.onSi k fun p => { p with malformed := p.malformed + 1 }
  if s.noSlots cs then s.onResult cs fun r => { r with dup := r.dup + 1 }
  else
    let s := s.onResult cs fun r => { r with auth := r.auth + 1 }
    s.onFrameWindow cs fun x => { x with sawAuth := x.sawAuth || auth, sawMalformed := x.sawMalformed || !auth }

/-- A good frame (R152, R153): while the stream's slot is in flight it waits in the ingress buffer of its port, and is MALFORMED
where it does not fit. -/
def State.goodFrame (s : State) (cs : Nat) (g : GoodFrame) : State :=
  let st := s.stream cs
  let waits := st.inFlight || s.closing cs
  let seq := st.seq + (if s.closing cs then 2 else 1)
  if s.noSlots cs || (s.frameWindow cs).frame.isSome then s.onResult cs fun r => { r with dup := r.dup + 1 }
  else if waits && decide (32768 < s.ingressUsed st.si + g.plaintext.length) then s.badFrame st.si cs false
  else
    let s := s.perf st.session 13 1
    let s := s.onFrameWindow cs fun x => { x with frame := some g }
    if waits then s.onStream cs fun st => { st with waiting := st.waiting ++ [(seq, g)] } else s.writeInput cs g

/-- Check 2 of R150 for a SAMPLE frame: the GCM tag and the counter (R212, R213). Answers the plaintext, and the
state with the counters raised. -/
def State.openFrame (s : State) (cs : Nat) (f : RawFrame) : Option (Bytes × State) :=
  let st := s.stream cs
  let x := s.session st.session
  let n := Bytes.num f.bytes 4 4
  let counter := Bytes.num f.bytes 8 8
  let old := f.early && !x.oldKeys.isEmpty
  let key := if old then x.oldKeys.getLast?.map (·.1) else s.sessionKey st.session
  let last := if old then st.oldCounter.toNat else st.lastCounter.toNat
  match key with
  | none => none
  | some kd =>
    match gcmUnseal kd (gcmNonce 1 cs counter) (f.bytes.take 32) (Bytes.slice f.bytes 32 n) (Bytes.slice f.bytes (32 + n) 16) with
    | none => none
    | some plain =>
      if counter = 0 || decide (counter ≤ last) then none
      else
        let c := BitVec.ofNat 64 counter
        let s := s.onStream cs fun st => if old then { st with oldCounter := c } else { st with lastCounter := c }
        let s := if old then s
          else s.onSess st.session fun x => { x with inHw := if x.inHw.toNat < counter then c else x.inHw }
        some (plain, s)

/-- A plaintext as the other GCM lane decrypts it, with that lane's silent error (R193). -/
def otherLane (plain lane : Bytes) : Bytes := plain.mapIdx fun i x => x ^^^ lane.getD i 0

/-- A frame whose length is not the calendar's window_bytes marks the window failed (R150, R152). -/
def State.checkLength (s : State) (cs : Nat) (plain second user : Bytes) : State :=
  let want := match s.calendarOf cs with
    | some c => c.windowBytes
    | none => 0
  if plain.length = want then s.goodFrame cs { plaintext := plain, second := second, userTag := user }
  else if s.noSlots cs then s.onResult cs fun r => { r with dup := r.dup + 1 }
  else
    let cls : InClass := if plain.length < want then .short else .long
    s.onFrameWindow cs fun x => { x with failed := some (x.failed.getD cls) }

/-- An attributed frame passes the checks of R150 in order. -/
def State.takeFrame (s : State) (k cs : Nat) (f : RawFrame) : State :=
  let n := Bytes.num f.bytes 4 4
  let sample := f.bytes.getD 2 0 == 1
  let user := Bytes.slice f.bytes 20 12
  if f.poison != 0 || f.framing || f.bytes.length ≠ 32 + n + (if sample then 16 else 0) then s.badFrame k cs false
  else if sample then
    (match s.openFrame cs f with
    | none => s.badFrame k cs true
    | some (plain, s) => s.checkLength cs plain (otherLane plain f.lane) user)
  else s.checkLength cs ((f.bytes.drop 32).take n) ((f.bytes.drop 32).take n) user

/-- INGRESS_FRAME (R148 to R152, R457). -/
def execIngressFrame (port : Fin 4) (f : RawFrame) (s : State) : Host.Outcome State Fault Refusal :=
  act true (fun s =>
    let k := port.val
    let skew := ((f.ts.toNat : Int) - s.now).natAbs
    let s := if decide (1000 < skew) then s.onSi k fun p => { p with tsSkew := p.tsSkew + 1 } else s
    let s := (List.range f.poison).foldl (fun (s : State) _ =>
      (s.onSi k fun p => { p with poisoned := p.poisoned + 1 }).report { event := 0x0408, unitKind := 6, unit := k }) s
    let cs := Bytes.num f.bytes 0 2
    if s.attributed k cs f.bytes then s.takeFrame k cs f
    else s.onSi k fun p => { p with unattributed := p.unattributed + 1 }) s

/-- A good frame that waited is written once the RELEASE before it has fired. -/
def State.drainInput (s : State) (cs : Nat) : State :=
  match (s.stream cs).waiting with
  | g :: _ => (s.writeInput cs g.2).onStream cs fun st => { st with waiting := st.waiting.drop 1 }
  | [] => s

/-- The frames of a slot and of those before it are written, oldest first (R153). -/
def State.drainUpTo (s : State) (cs seq : Nat) : State :=
  ((s.stream cs).waiting.filter fun g => decide (g.1 ≤ seq)).foldl (fun s _ => s.drainInput cs) s

/-- INPUT_WRITE (R153). -/
def execInputWrite (cs : Cs) (s : State) : Host.Outcome State Fault Refusal :=
  let st := s.stream cs.val
  let due := match st.waiting with
    | g :: _ => st.slots.all fun x => x.released.isSome || decide (g.1 ≤ x.seq)
    | [] => false
  act due (fun s => s.drainInput cs.val) s

/-! The firings of a slot. -/

/-- The input class of a window (R160). -/
def SampleWin.cls (w : SampleWin) : InClass :=
  match w.failed with
  | some c => c
  | none => if w.frame.isSome then .good else if w.sawAuth then .authFail else if w.sawMalformed then .malformed else .none

def SampleWin.complete (w : SampleWin) : Bool := w.failed.isNone && w.frame.isSome

/-- Flag bits 3 to 8 that a firing gives its slot (R161): the state of the source is the one that the firing carries. -/
def State.firingFlags (s : State) (cs : Nat) (f : Firing) (close : Bool) : Nat :=
  let st := (if f.state = some .degraded then 8 else 0) + (if f.state = some .coasting then 16 else 0)
  let rev := match s.calendarOf cs with
    | some c => close && c.phase && decide ((s.source c.source).omegaInt < 0)
    | none => false
  st + (if f.jump then 32 else 0) + (if f.late then 64 else 0) + (if close && f.timed then 128 else 0)
    + (if rev then 256 else 0)

/-- The delay in ns that a rel entry adds (R41). -/
def Event.pitch (e : Event) : Nat := e.nMinus1.toNat + 2 ^ 16 * e.k.toNat

/-- Arm the entries of a kind of a stream for a slot, `delay` after this tick; those that are due at once fire in this
tick (R41, R45). -/
def State.armSlot (s : State) (cs seq : Nat) (k : EvKind) (rel : Bool) (delay : Event → Nat) : State :=
  let mine (e : Event) : Bool := e.valid && e.kind == k && e.rel == rel && e.target.toNat == cs
  let idx := (s.ptu.events.filter fun e => mine e.2).map (·.1)
  let s := { s with ptu := { s.ptu with
    events := Tab.mapVals {} s.ptu.events fun _ (e : Event) =>
      if mine e then { e with armed := e.armed ++ [(BitVec.ofNat 64 (s.now + delay e), seq)] } else e
    dtArmed := true } }
  if rel then s.evaluate fun i => idx.contains i else s

/-- ⌈release / v_max⌉ ns of a phase-form release (R49). -/
def State.timedRelease (s : State) (c : Calendar) : Nat :=
  let v := max 1 (cfgVmax (s.source c.source).cfg)
  (c.release + v - 1) / v

/-- The seq and rseq of the slot that opens: a home or unpaired session reserves the rseq; a standby has both from the home,
or 0 until the home's RESV comes (R219, R433; log entry 29). -/
def State.slotRseq (s : State) (cs : Nat) : Nat × Nat × State :=
  let st := s.stream cs
  let sc := st.session
  if s.isStandby sc then
    match st.resv.find? fun r => decide (st.seq < r.1) with
    | some r => (r.1, r.2, s.onStream cs fun st => { st with resv := st.resv.filter fun x => decide (r.1 < x.1) })
    | none => (st.seq + 1, 0, s)
  else
    let (r, s) := s.reserve sc
    (st.seq + 1, r, s.sendResv sc cs (st.seq + 1) r)

/-- The block runs the slots of a stream: a standby runs none but those of a twin-release stream and, in lockstep,
every one (R435 to R437). -/
def State.runsHere (s : State) (cs : Nat) : Bool :=
  let sc := (s.stream cs).session
  !s.isStandby sc || s.partnerRuns cs || s.lockstep sc

/-- A slot opens (R154, R160, R166, R219). -/
def State.openSlot (s : State) (cs : Nat) (f : Firing) : State :=
  let st := s.stream cs
  let x := s.session st.session
  let (seq, rseq, s) := s.slotRseq cs
  let w := st.window
  let phase := match s.calendarOf cs with
    | some c => if c.phase then (s.source c.source).phase else 0
    | none => 0
  let slot : SlotRun := { seq := seq, rseq := rseq, icTime := BitVec.ofNat 64 s.now, icPhase := phase
                          flags := BitVec.ofNat 16 (s.firingFlags cs f true), input := w.cls
                          userTag := match w.frame with
                            | some g => g.userTag
                            | none => List.replicate 12 0
                          keyxGen := x.keyxGen, missing := !w.complete, timed := f.timed }
  let slot := s.formSlot cs slot
  let now := s.now
  let s := s.onStream cs fun st => { st with
    seq := seq, window := st.nextWindow, nextWindow := {}, slots := st.slots ++ [slot]
    lastPhaseIc := if f.timed then st.lastPhaseIc else some now
    timedSlot := if f.timed then some seq else st.timedSlot }
  let s := s.onResult cs fun r => { r with ready := false }
  let s := if slot.missing && rseq ≠ 0 then s.formDecided cs seq rsMissing else s
  let s := if f.timed then
      (match s.calendarOf cs with
      | some c => s.armSlot cs seq .release false fun _ => s.timedRelease c
      | none => s)
    else s
  s.armSlot cs seq .slotStart true Event.pitch

/-- An uncorrectable error in a session's context (R205). -/
def State.contextError (s : State) (sc : Nat) : State := s.sessionFault sc { event := 0x0204 }

/-- The errors that a firing of a session's stream finds in the control structures it reads (R205, R369). -/
def State.ctrlReads (s : State) (sc : Nat) (u : List CtrlUpset) : State :=
  u.foldl (fun (s : State) x => match x with
    | .context .ue => s.contextError sc
    | .context .ce => s.report { event := 0x0105 }
    | .ce k n => s.report { event := 0x0105, unitKind := k, unit := n }) s

/-- An INPUT_CLOSE that opens no slot: it counts, and the result slot is no longer ready (R160, R166). -/
def State.skipSlot (s : State) (cs : Nat) (timed : Bool) : State :=
  let now := s.now
  (s.onStream cs fun st => { st with
    seq := st.seq + 1, window := st.nextWindow, nextWindow := {}
    lastPhaseIc := if timed then st.lastPhaseIc else some now }).onResult cs fun r => { r with ready := false }

/-- INPUT_CLOSE (R154). A stream whose session is not KEYED, or has faulted, opens no slot (R206, R370). -/
def execInputClose (e : EvIdx) (ctl : List CtrlUpset) (s : State) : Host.Outcome State Fault Refusal :=
  actFiring e.val .inputClose (fun f s =>
    let cs := (s.event f.idx).target.toNat
    let st := s.stream cs
    if !st.bound then s
    else
      let s := s.ctrlReads st.session ctl
      let x := s.session st.session
      if x.state == .keyed && x.faultAt.isNone then s.openSlot cs f else s.skipSlot cs f.timed) s

/-- Slots whose record has left and whose comparison is not settled are settled before the next slot starts: a referee's
outcome that is not known leaves the slot unresolved (R195). -/
def State.settleOld (s : State) (cs seq : Nat) : State :=
  let old := (s.stream cs).slots.filter fun x => decide (x.seq < seq) && x.released.isSome
  let s := old.foldl (fun s x => if x.dual == .referee then s.unresolved cs x 7 else s) s
  s.onStream cs fun st => { st with slots := st.slots.filter fun x => !(x.left && decide (x.seq < seq)) }

/-- Start the runs of a slot (R48, R193, R196 to R199). A referee that may run has the window in its own INPUT buffers
(R194). -/
def State.startRuns (s : State) (cs seq : Nat) : State :=
  let st := s.stream cs
  match (s.plan st.win).running with
  | none => s
  | some p =>
    let (r0, r1, ref) := s.runEntries p cs
    let ok (es : List Nat) : Bool := s.allUsable p cs es
    let dual := s.isDual cs
    let partner := s.partnerRuns cs
    let s := s.onSlot cs seq fun x => { x with started := true, dual := if dual then .waiting else .single }
    if !dual then
      let moved := p.streamEntries cs 1
      if ok r0 then s.startGroup cs seq 0 p r0 else if ok moved then s.startGroup cs seq 0 p moved else s
    else
      let order := if s.partnerFlag cs then [r0, ref] else [r0, r1, ref]
      let can := order.filter ok
      let window := if ok r0 || r1.isEmpty then r0 else r1
      let s := if can.contains ref then s.copyBuffers st.session (p.inputOf window) (p.inputOf ref) else s
      let s :=
        if partner then (match can with
          | a :: rest =>
            let s := s.startGroup cs seq 0 p a
            if st.triple.isSome then (match rest with
              | c :: _ => s.startGroup cs seq 2 p c
              | [] => s)
            else s
          | [] => s)
        else
          (match can with
          | a :: b :: rest =>
            let s := (s.startGroup cs seq 0 p a).startGroup cs seq 1 p b
            if st.triple.isSome then (match rest with
              | c :: _ => s.startGroup cs seq 2 p c
              | [] => s)
            else s
          | _ => s)
      let ic := ((s.slotOf cs seq).map (·.icTime.toNat)).getD 0
      (s.probationEntries p cs).foldl (fun s es =>
        let own := can.headD []
        let s := s.copyBuffers st.session (p.inputOf own) (p.inputOf es)
        let s := s.copyBuffers st.session (p.stateOf own) (p.stateOf es)
        es.foldl (fun s e => match s.program st.win p e (.shadow cs seq) seq with
          | none => s
          | some q => s.onArc (p.arcadeOf e) fun c =>
              ({ c with shadowWork := c.shadowWork ++ [{ slot := some (cs, seq), icTime := ic }] } : Arcade).startControl q) s) s

/-- A SLOT_START that is executed, counted as an overrun, or not executed (R48, R156, R217, R370, R410). -/
def State.startSlot (s : State) (cs : Nat) (x : SlotRun) : State :=
  let st := s.stream cs
  let sess := s.session st.session
  let before := st.slots.any fun y => decide (y.seq < x.seq) && y.released.isNone
  let form (s : State) (c : Nat) : State := if x.rseq = 0 then s else s.formFallback cs x.seq c
  if x.released.isSome then s
  else if sess.faultAt.isSome || sess.state == .faulted then s.slotFault cs x.seq
  else if before then
    (s.onSlot cs x.seq fun y => { y with overrun := true }) |> fun s => form s rsOverrun
  else
    let s := (s.settleOld cs x.seq)
    let s := form s rsNotReady
    let s := s.drainUpTo cs x.seq
    if x.missing || st.shed || !s.runsHere cs then s else s.startRuns cs x.seq

/-- SLOT_START (R48). -/
def execSlotStart (e : EvIdx) (ctl : List CtrlUpset) (u : List Upset) (s : State) : Host.Outcome State Fault Refusal :=
  actFiring e.val .slotStart (fun f s =>
    let cs := (s.event f.idx).target.toNat
    let st := s.stream cs
    let s := (if st.bound then s.ctrlReads st.session ctl else s).piazzaReads u
    let s := s.onSlot cs f.slot fun y =>
      let y := if y.missing then y else s.formSlot cs y
      { y with fired := true, flags := y.flags ||| BitVec.ofNat 16 (s.firingFlags cs f false) }
    let s := s.armSlot cs f.slot .release true Event.pitch
    match s.slotOf cs f.slot with
    | some x => s.startSlot cs x
    | none => s) s

/-- The slot that a RELEASE firing belongs to: that of a rel or timed instant, else the oldest not released (R156). -/
def State.releaseSlot (s : State) (cs : Nat) (f : Firing) (rel : Bool) : Option SlotRun :=
  if rel || f.timed then s.slotOf cs f.slot
  else (s.stream cs).slots.find? fun x => x.released.isNone && !x.timed

/-- A slot's RELEASE decides its record (R156, R195, R217): the record of its outcome where it is ready, else that of a MISMATCH,
else the provisional one. The others are cleared. A standby releases only a twin record that compared equal (R435, R436). -/
def State.releaseRow (s : State) (cs : Nat) (x : SlotRun) (recUe : Bool) : State :=
  let sc := (s.stream cs).session
  let ready (r : Option Record) : Bool := (match r with
    | some r => r.ready
    | none => false) && !recUe
  let good := ready x.computed
  let tick := s.ptu.tick + releaseLeadTicks
  let n := s.ptu.releases
  let s := { s with ptu := { s.ptu with releases := n + 1 } }
  if s.isStandby sc then
    if good && x.dual == .equal && s.partnerRuns cs then
      s.onSlot cs x.seq fun y => { y with released := some (tick, .computed), mismatch := none, fallback := none, order := n }
    else s.onSlot cs x.seq fun y =>
      { y with released := some (tick, .fallback), left := true, computed := none, mismatch := none, fallback := none, order := n }
  else if good then
    s.onSlot cs x.seq fun y => { y with released := some (tick, .computed), mismatch := none, fallback := none, order := n }
  else if ready x.mismatch then
    s.onSlot cs x.seq fun y => { y with released := some (tick, .mismatch), computed := none, fallback := none, order := n }
  else
    let s := if x.fallback.isNone then s.formFallback cs x.seq rsNotReady else s
    s.onSlot cs x.seq fun y => { y with released := some (tick, .fallback), computed := none, mismatch := none, order := n }

/-- RELEASE (R156). -/
def execRelease (e : EvIdx) (ctl : List CtrlUpset) (recUe : Bool) (s : State) : Host.Outcome State Fault Refusal :=
  actFiring e.val .release (fun f s =>
    let ev := s.event f.idx
    let cs := ev.target.toNat
    let st := s.stream cs
    let s := if st.bound then s.ctrlReads st.session ctl else s
    match s.releaseSlot cs f ev.rel with
    | none => s
    | some x =>
      if x.released.isSome then s
      else
        let s := s.releaseRow cs x recUe
        if x.timed then
          let s := s.onStream cs fun st => { st with timedSlot := if st.timedSlot = some x.seq then none else st.timedSlot }
          (match s.calendarOf cs with
          | some c => if (s.source c.source).state.standstill || (s.stream cs).timedSlot.isSome then s else s.realignStream cs
          | none => s)
        else s) s

/-! Records. -/

/-- The lanes finish a record of a kind (R193, R217): it is ready, or where a lane found an error or the two lanes
differ, it is not released. -/
def SlotRun.finish (x : SlotRun) (k : RecordKind) (ue : Bool) : SlotRun :=
  let f (r : Option Record) : Option Record := if ue then none else r.map fun r => { r with ready := true }
  match k with
  | .computed => { x with computed := f x.computed }
  | .mismatch => { x with mismatch := f x.mismatch }
  | .fallback => { x with fallback := f x.fallback }

def SlotRun.unready (x : SlotRun) (k : RecordKind) : Bool :=
  match x.record k with
  | some r => !r.ready
  | none => false

/-- RECORD_READY (R217). -/
def execRecordReady (cs : Cs) (k : RecordKind) (ue : Bool) (s : State) : Host.Outcome State Fault Refusal :=
  match (s.stream cs.val).slots.find? fun x => !x.left && x.unready k with
  | some x => act true (fun s => s.onSlot cs.val x.seq fun y => y.finish k ue) s
  | none => act false id s

/-- Ticks that a record of n bytes takes on its port, at 32 bytes in each of the three port_clk of a tick (R458, R459). -/
def portTicks (n : Nat) : Nat := ((n + 31) / 32 + 2) / 3

/-- The result slot takes a record at its release instant (R165, R166). -/
def ResultSlot.take (r : ResultSlot) (bytes : Bytes) (seq status : Nat) : ResultSlot :=
  { r with
    ready := true
    unacked := min 255 (r.unacked + 1)
    overwritten := if r.acked.toNat < r.latest then r.overwritten + 1 else r.overwritten
    seqLo := BitVec.ofNat 32 seq, latest := seq, record := bytes
    missing := if status = rsMissing then r.missing + 1 else r.missing
    late := if status = rsNotReady || status = rsOverrun then r.late + 1 else r.late }

/-- A settled slot is forgotten when its record has left; one whose comparison is open stays (R195). -/
def SlotRun.open (x : SlotRun) : Bool :=
  x.dual == .referee || (x.dual == .waiting && x.runners.any fun r => r.2 == 1) || x.runners.any fun r => r.2 == 2

/-- A record leaves its SE port (R158, R166, R221). -/
def State.leave (s : State) (cs : Nat) (x : SlotRun) (r : Record) (held : Bool) : State :=
  let st := s.stream cs
  let bytes := r.released s.now held
  let s := if st.se < 4 then
      State.emit { s with se := Tab.upd {} s.se st.se fun p => { p with
        records := p.records + 1, held := if held then p.held + 1 else p.held
        busyUntil := s.ptu.tick + portTicks bytes.length, sending := some cs } } (.record st.se cs s.ptu.tick held bytes)
    else s
  let s := s.onResult cs fun y => y.take bytes x.seq r.status
  let s := s.onStream cs fun st => { st with
    lastOk := if r.status = rsOk then some r.plain else st.lastOk
    slots := if x.open then st.slots.map (fun y => if y.seq = x.seq then { y with left := true } else y)
      else st.slots.filter fun y => y.seq != x.seq }
  let s := if x.folded then s.perf st.session 11 1 else s.fold st.session x.rseq r.tag s.now
  (s.settleKeys st.session).closeReady st.session

/-- No record that was released earlier waits, formed, for the same port (R45, R158). -/
def State.portTurn (s : State) (cs : Nat) (x : SlotRun) : Bool :=
  let k := (s.stream cs).se
  decide (4 ≤ k) || s.streams.all fun e => !(e.2.se == k) || match s.leaving e.1 with
    | some (y, _, t) => decide (s.ptu.tick < t) || decide (x.order ≤ y.order)
    | none => true

/-- RECORD_LEAVES (R166): at the release instant, 16 ticks after the RELEASE, with the port free. -/
def execRecordLeaves (cs : Cs) (s : State) : Host.Outcome State Fault Refusal :=
  match s.leaving cs.val with
  | some (x, r, t) =>
    act (s.ptu.tick == t && s.portFree cs.val && s.portTurn cs.val x) (fun s => s.leave cs.val x r false) s
  | none => act false id s

/-- HELD_RECORD_LEAVES (R11, R156, R158): a record that found its port busy at its instant, or was not formed, leaves as soon
as the port is free and the record is formed. -/
def execHeldRecordLeaves (cs : Cs) (s : State) : Host.Outcome State Fault Refusal :=
  match s.leaving cs.val with
  | some (x, r, t) =>
    act (x.held && decide (t < s.ptu.tick) && s.portFree cs.val && s.portTurn cs.val x) (fun s => s.leave cs.val x r true) s
  | none => act false id s

end Sys2Proof.Machine
end

