-- ==== Sys2Proof/Machine/Export.lean ====
section
/-! DEFINITION. Health records and failure signatures as bytes (R385 to R387, R390), and their export on the management port
(R391, R467, R468). -/

namespace Sys2Proof.Machine

/-- CPER severity of a class (R368). -/
def severity (cls : Nat) : Nat := [3, 2, 0, 0, 0, 0, 1].getD cls 3

/-- A GUID in the byte order of a CPER record. -/
def guid (a b c : Nat) (tail : List Nat) : Bytes :=
  Bytes.ofNat 4 a ++ Bytes.ofNat 2 b ++ Bytes.ofNat 2 c ++ tail.map (BitVec.ofNat 8)

def creatorId : Bytes := guid 0x4B4C5643 0x5332 0x4352 [0x80, 1, 0, 0, 0, 0, 0, 1]
def noticeType : Bytes := guid 0x4B4C5643 0x5332 0x4E54 [0x80, 1, 0, 0, 0, 0, 0, 2]
def sectionType : Bytes := guid 0x4B4C5643 0x5332 0x5345 [0x80, 1, 0, 0, 0, 0, 0, 0x14]

/-- The name of a unit (R386). -/
def unitName (kind unit : Nat) : String :=
  match kind with
  | 1 => "A" ++ toString unit
  | 2 => "P" ++ toString unit
  | 3 => "Q" ++ toString unit
  | 4 => "FC"
  | 5 => if unit < 4 then "GCM" ++ toString unit else "RCPT" ++ toString (unit - 4)
  | 6 => if unit < 4 then "SI" ++ toString unit else "SE" ++ toString (unit - 4)
  | 7 => "PS" ++ toString unit
  | 8 => "OMAP" ++ toString unit
  | 9 => "KM"
  | 10 => "FM"
  | 11 => "PM"
  | _ => ""

def fruText (kind unit : Nat) : Bytes :=
  Bytes.slice (ascii (if kind = 0 then "SODJAK-S2" else "SODJAK-S2 " ++ unitName kind unit)) 0 20

/-- A signed value in two bytes. -/
def int16 (v : Int) : Bytes := Bytes.ofNat 2 (BitVec.ofInt 16 v).toNat

/-- The Keluvia section (R387). -/
def HRec.body (r : HRec) : Bytes :=
  Bytes.ofNat 2 0x0200 ++ [BitVec.ofNat 8 r.cls, BitVec.ofNat 8 r.unitKind, BitVec.ofNat 8 r.unit, BitVec.ofNat 8 r.world,
    BitVec.ofNat 8 r.vi, r.flags] ++ Bytes.ofNat 2 r.event ++ Bytes.ofNat 2 r.session ++ Bytes.ofNat 2 r.origin
    ++ Bytes.ofNat 2 r.count ++ Bytes.ofNat 8 r.detectTime ++ Bytes.ofNat 8 r.firstTime ++ Bytes.ofNat 8 r.location
    ++ Bytes.big r.bootId ++ Bytes.ofNat 2 r.aclkMhz ++ Bytes.ofNat 2 r.railMv ++ int16 r.tj ++ List.replicate 66 0
    ++ Bytes.slice r.detail 0 64 ++ List.replicate 64 0

/-- A record of 456 bytes (R385, R386). -/
def State.cper (s : State) (r : HRec) : Bytes :=
  let sev := Bytes.ofNat 4 (severity r.cls)
  ascii "CPER" ++ Bytes.ofNat 2 0x0101 ++ Bytes.ofNat 4 0xFFFF_FFFF ++ Bytes.ofNat 2 1 ++ sev ++ Bytes.ofNat 4 1 ++ Bytes.ofNat 4 456
    ++ List.replicate 8 0 ++ s.serial ++ List.replicate 16 0 ++ creatorId ++ noticeType ++ Bytes.ofNat 8 r.recNo
    ++ List.replicate 24 0
    ++ Bytes.ofNat 4 200 ++ Bytes.ofNat 4 256 ++ Bytes.ofNat 2 0x0101 ++ [3, 0] ++ Bytes.ofNat 4 1 ++ sectionType ++ s.serial ++ sev
    ++ fruText r.unitKind r.unit ++ r.body

/-- The health ring as FC SRAM holds it (R381): 128 entries of 512 bytes, the header in entry 0 and the records held from entry 1 on
(the places of the fields of the header and of the records: log entry 86). -/
def State.ringBytes (s : State) : Bytes :=
  let oldest := match s.health.ring.head? with
    | some r => r.recNo
    | none => s.health.nextRec
  let head := Bytes.ofNat 4 0x4B48_5247 ++ Bytes.ofNat 8 oldest ++ Bytes.ofNat 8 s.health.nextRec
  Bytes.slice (head ++ Bytes.ofNat 4 (crc32 head).toNat) 0 512 ++ (s.health.ring.map fun r => Bytes.slice (s.cper r) 0 512).flatten

/-- What the FC core and its engines read in FC SRAM: the health ring stands at 0x6_0000 to 0x6_FFFF (R381). -/
def State.sramRead (s : State) (addr n : Nat) : Bytes :=
  if addr + n ≤ 0x60000 ∨ 0x70000 ≤ addr then Tab.getMany 0 s.fcSram addr n
  else
    let ring := s.ringBytes
    (List.range n).map fun i =>
      if 0x60000 ≤ addr + i ∧ addr + i < 0x70000 then ring.getD (addr + i - 0x60000) 0 else Tab.get 0 s.fcSram (addr + i)

/-- A signature in 64 bytes (R390). -/
def Sig.toBytes (g : Sig) : Bytes :=
  Bytes.ofNat 2 0x0200 ++ Bytes.ofNat 2 g.event ++ [BitVec.ofNat 8 g.unitKind, BitVec.ofNat 8 g.unit, BitVec.ofNat 8 g.cls, 0]
    ++ Bytes.ofNat 4 g.count ++ Bytes.ofNat 4 60 ++ Bytes.ofNat 8 g.first ++ Bytes.ofNat 8 g.last ++ Bytes.ofNat 2 g.aclkMhz
    ++ Bytes.ofNat 2 g.railMv ++ int16 g.tj ++ [0, 0] ++ Bytes.ofNat 8 g.location ++ Bytes.ofNat 8 g.opSeconds ++ List.replicate 8 0

/-! Export. -/

/-- A packet leaves on the management port; the in-band interrupt signals it where the controller has enabled it. -/
def State.mgmtSend (s : State) (b : Bytes) : State :=
  let s := if s.mgmt.i3cEvents.getLsbD 0 then s.emit .ibi else s
  s.emit (.mgmt b)

/-- The management port serves PLDM and SPDM: from boot step 11 on, while its firmware runs, the target has an address and the endpoint
an identifier (R391, R467, R468). -/
def State.mctpUp (s : State) : Bool :=
  decide (11 ≤ s.boot.step) && !s.health.fcRestarting && !s.lc.fcHalted && s.mgmt.i3cAddr != 0
def State.mgmtUp (s : State) : Bool := s.mctpUp && s.mgmt.eid.isSome

/-- What is exported next: the records in the order of their numbers, then the signatures. A record is named by its number, a
signature by 0. -/
def State.nextExport (s : State) : Option (Nat × Bytes) :=
  match s.health.ring.find? fun r => decide (s.mgmt.nextRec ≤ r.recNo) with
  | some r => some (r.recNo, Config.pldmBody 0x0A [] (s.cper r))
  | none => (s.mgmt.sigQueue.head?).map fun g => (0, Config.pldmBody 0x0A [0xF0] g.toBytes)

/-- An item has been exported. -/
def State.exported (s : State) (n : Nat) : State :=
  if n = 0 then { s with mgmt := { s.mgmt with sigQueue := s.mgmt.sigQueue.drop 1 } }
  else { s with
    mgmt := { s.mgmt with nextRec := n + 1 }
    health := { s.health with ring := s.health.ring.map fun r => if r.recNo = n then { r with exported := true } else r } }

/-- The next event is sent where a receiver is set, none is outstanding, and they are not held for polling (R391). A record is sent
once its number is settled (R382). -/
def State.pumpEvents (s : State) : State :=
  if s.mgmtUp && s.mgmt.receiver.isSome && !s.mgmt.holding && s.mgmt.outstanding.isNone then
    match s.nextExport with
    | none => s
    | some (n, b) =>
      if s.health.ring.any fun r => r.recNo == n && s.now ≤ r.detectTime then s
      else State.mgmtSend { s with mgmt := { s.mgmt with outstanding := some n, message := b, sends := 1, sentAt := s.now } } b
  else s

end Sys2Proof.Machine
end

