-- ==== Sys2Proof/Machine/Slots.lean ====
section
/-! DEFINITION. Command slots, leases and the Roundabout: posting and sealing (R234 to R238), acceptance and its checks
(R239 to R241), replies (R242), leases and their arbitration (R254 to R258), the planting of keys (R208, R210), and the
messages of the sideband (R244, R473). -/

namespace Sys2Proof.Machine

def State.onSlotOf (s : State) (w : Nat) (f : CmdSlot → CmdSlot) : State := s.onWin w fun x => { x with slot := f x.slot }

/-! Opcodes of R249. -/

def roundaboutOps : List Nat := [0x20, 0x21, 0x40, 0x60, 0x61]
def operatorOps : List Nat := [0x81, 0x90, 0x91, 0x92, 0xA0]
def sessionOps : List Nat := [0x11, 0x12, 0x31, 0x33, 0x50, 0x52, 0x70, 0x71]
def g1Ops : List Nat := [0x01, 0x02, 0x10, 0x11, 0x12, 0x20, 0x21, 0x30, 0x31, 0x33, 0x40, 0x41, 0x42, 0x50, 0x60, 0x61,
  0x80, 0x82]
def g2Ops : List Nat := g1Ops ++ [0x32, 0x51, 0x52, 0x62, 0x70, 0x71, 0x81, 0x90, 0x91, 0x92, 0xA0]

/-- The fields of a packet in either generation (R239, R240). A packet of no known generation is read as G2. -/
structure Packet where
  gen : Nat
  opcode : Nat
  tag : BitVec 16
  paramLen : Nat
  session : Nat
  inl : Bytes
  reservedOk : Bool
deriving DecidableEq, Repr

def parsePacket (b : Bytes) : Packet :=
  let gen := (b.getD 0 0).toNat
  let u := Bytes.num b
  if gen = 1 then
    { gen := 1, opcode := u 1 1, tag := BitVec.ofNat 16 (u 2 2), paramLen := u 4 2, session := u 6 2
      inl := Bytes.slice b 8 24 ++ List.replicate 24 0
      reservedOk := sessionOps.contains (u 1 1) || u 6 2 == 0 }
  else
    { gen := gen, opcode := u 2 2, tag := BitVec.ofNat 16 (u 4 2), paramLen := u 8 4, session := u 12 2
      inl := Bytes.slice b 16 48
      reservedOk := u 1 1 == 0 && u 6 2 == 0 && u 14 2 == 0 && (sessionOps.contains (u 2 2) || u 12 2 == 0) }

/-- The inline fields of an opcode, by offset in the G2 packet and length (R249); the fields that R249 gives the operator
alone count in its window only (log entry 62). -/
def inlineFields (operator : Bool) : Nat → List (Nat × Nat)
  | 0x01 => [(16, 4), (24, 8)]
  | 0x02 => if operator then [(16, 1)] else []
  | 0x10 => [(16, 1), (24, 12)]
  | 0x11 => [(16, 24)]
  | 0x20 => [(16, 6), (24, 16)]
  | 0x21 => [(16, 6), (24, 8)]
  | 0x30 => [(16, 12)]
  | 0x31 => [(16, 3), (24, 12)]
  | 0x32 => [(16, 2)]
  | 0x33 => [(16, 8)]
  | 0x42 => [(16, 17)]
  | 0x50 => [(16, 4), (24, 24)]
  | 0x51 => [(16, 2), (24, 12)]
  | 0x52 => [(16, 4), (24, 36)]
  | 0x60 => [(16, 1), (20, 4)]
  | 0x62 => [(16, 4)]
  | 0x70 => [(16, 44)]
  | 0x71 => [(16, 32)]
  | 0x80 => [(16, 12)]
  | 0x81 => [(16, 1), (24, 12)]
  | 0x82 => [(16, 20)] ++ (if operator then [(36, 1)] else [])
  | 0x90 => [(16, 1)]
  | 0x91 => [(16, 1), (24, 12)]
  | 0x92 => [(24, 12)]
  | 0xA0 => [(16, 1)]
  | _ => []

/-- Inline bits that R249 gives no field are zero (R239, R241; log entry 62). -/
def Packet.inlineOk (p : Packet) (operator : Bool) : Bool :=
  let fs := inlineFields operator p.opcode
  (p.inl.mapIdx fun i b => b == 0 || fs.any fun f => decide (f.1 ≤ 16 + i ∧ 16 + i < f.1 + f.2)).all id
  && (p.opcode != 0x10 || Bytes.num p.inl 0 1 < 2)
  && (p.opcode != 0x33 || Bytes.num p.inl 7 1 < 2)
  && (p.opcode != 0x42 || Bytes.num p.inl 16 1 < 2)

/-- The checks of R241 in order: the status and detail of the first failure. -/
def State.checkPacket (s : State) (w : Nat) (p : Packet) (appended : Nat) : Option (Nat × Nat) :=
  let x := s.window w
  if (if x.isOpen then p.gen ≠ x.gen else p.gen ≠ 1 ∧ p.gen ≠ 2) then some (stVersion, 0)
  else if p.gen = 1 ∧ !g1Ops.contains p.opcode then some (stVersion, 0)
  else if !g2Ops.contains p.opcode then some (stDenied, 1)
  else if (!x.isOpen && p.opcode != 1) || (w != 64 && operatorOps.contains p.opcode) then some (stDenied, 2)
  else if (if p.gen = 1 then 256 else 512) < p.paramLen then some (stLenLong, 0)
  else if appended < p.paramLen then some (stLenShort, 0)
  else if p.paramLen + 8 ≤ appended then some (stLenLong, 0)
  else if !(p.reservedOk && p.inlineOk (w == 64)) then some (stDenied, 3)
  else none

/-! Posting. -/

/-- A post that is not taken (R235). -/
def CmdSlot.refusePost (c : CmdSlot) : CmdSlot := { c with postRefused := true, postRefusedCnt := c.postRefusedCnt + 1 }

/-- POST (R235): a packet is posted; behind a running command only an ABORT is taken. A post while one is posted or sealed has no
effect, as in POSTED and SEALED. -/
def CmdSlot.post (c : CmdSlot) : CmdSlot :=
  match c.state with
  | .idle => { c with state := .posted }
  | .posted | .closed => c
  | .running =>
    if (parsePacket c.pkt).opcode ≠ 0x60 then c.refusePost
    else if c.behind.isSome then c
    else { c with behind := some false }

/-- FLUSH (R237): in IDLE or POSTED, the append count is discarded and the slot is IDLE. -/
def CmdSlot.flush (c : CmdSlot) : CmdSlot :=
  match c.state with
  | .idle | .posted => { c with state := .idle, params := [], appended := 0 }
  | _ => c

def CmdSlot.lateWriteNow (c : CmdSlot) : CmdSlot := { c with lateWrite := true, lateWriteCnt := c.lateWriteCnt + 1 }

/-- The bytes of a strobed word; lanes without a strobe are zero (R238). -/
def strobed (data : Word) (strb : BitVec 8) : Bytes :=
  (List.range 8).map fun i => if strb.getLsbD i then (data >>> (8 * i)).setWidth 8 else 0

/-- PARAM_APPEND (R238): eight bytes are appended; those beyond 512 are counted and not kept. -/
def CmdSlot.append (c : CmdSlot) (b : Bytes) : CmdSlot :=
  match c.state with
  | .idle | .posted => { c with params := (c.params ++ b).take 512, appended := c.appended + 8 }
  | _ => c.lateWriteNow

/-- A write of packet bytes (R235). -/
def CmdSlot.writePkt (c : CmdSlot) (off : Nat) (data : Word) (strb : BitVec 8) : CmdSlot :=
  match c.state with
  | .closed => c.lateWriteNow
  | _ => { c with pkt := (List.range 8).foldl (fun (p : Bytes) i =>
      if strb.getLsbD i then p.set (off + i) ((data >>> (8 * i)).setWidth 8) else p) c.pkt }

/-! Before READY a write in a window is ignored (R287). -/

def execPost (w : Win) (s : State) : Host.Outcome State Fault Refusal :=
  act (s.boot.step == 12) (fun s => s.onSlotOf w.val CmdSlot.post) s

def execFlush (w : Win) (s : State) : Host.Outcome State Fault Refusal :=
  act (s.boot.step == 12) (fun s => s.onSlotOf w.val CmdSlot.flush) s

def execParamAppend (w : Win) (data : Word) (strb : BitVec 8) (s : State) : Host.Outcome State Fault Refusal :=
  act (s.boot.step == 12) (fun s => s.onSlotOf w.val fun c => c.append (strobed data strb)) s

/-- A session is visible to a window (R486). -/
def State.visible (s : State) (w sc : Nat) : Bool :=
  let x := s.session sc
  x.state != .free && x.window == w

/-- CKPT_FREE_WRITE (R487): freed moves up to written, and any other value, or a session that is not visible, sets
free_bad. -/
def State.ckptFree (s : State) (w : Nat) (data : Word) : State :=
  let win := s.window w
  let sc := win.sessSel.toNat
  let x := s.session sc
  let v : BitVec 32 := data.setWidth 32
  if s.visible w sc && decide ((v - x.freed).toNat ≤ (x.written - x.freed).toNat) then
    s.onSess sc fun x => { x with freed := v }
  else s.onWin w fun win => { win with freeBad := true, freeBadCnt := win.freeBadCnt + 1 }

def execCkptFreeWrite (w : Win) (data : Word) (s : State) : Host.Outcome State Fault Refusal :=
  act (s.boot.step == 12) (fun s => s.ckptFree w.val data) s

/-! Replies. -/

/-- The slot after a command's reply: the ABORT that follows it keeps it RUNNING, POSTED or SEALED, and otherwise it is
IDLE (R235, R236). -/
def CmdSlot.after (c : CmdSlot) : CmdSlot :=
  if c.running.isSome || c.abortCmd.isSome then c
  else
    match c.behind with
    | some false => { c with state := .posted, behind := none }
    | some true => { c with state := .closed, behind := none, pkt := c.behindPkt }
    | none => { c with state := .idle }

/-- The running command completes: its reply is written (R242). -/
def State.finish (s : State) (w : Nat) (r : Reply) : State :=
  match (s.window w).slot.running with
  | none => s
  | some c =>
    let s := s.onSlotOf w fun x => { x with running := none, result := none, begun := false, undo := .nothing }
    let s := { s with rb := { s.rb with fcQueue := s.rb.fcQueue.erase w } }
    let s := s.writeReply w c.tag c.opcode r
    s.onSlotOf w CmdSlot.after

/-- The result of the running command awaits its reply. -/
def State.result (s : State) (w : Nat) (r : Reply) : State :=
  s.onSlotOf w fun x => { x with result := some r, begun := true }

/-- A running command with no result yet, of an opcode; for a Forecourt opcode it is the head of the queue (R250). -/
def State.rbCmd (s : State) (w op : Nat) : Option Cmd :=
  let c := (s.window w).slot
  match c.running with
  | some x => if x.opcode = op && c.result.isNone && !c.begun then some x else none
  | none => none

def State.fcCmd (s : State) (w op : Nat) : Option Cmd :=
  if s.fcUp && s.rb.fcQueue.head? == some w then s.rbCmd w op else none

/-- A row that executes the running command of a slot. -/
def actCmd (c : Option Cmd) (f : Cmd → State → State) (s : State) : Host.Outcome State Fault Refusal :=
  match c with
  | some x => act true (f x) s
  | none => act false id s

/-- An inline field by its offset in the G2 packet (R249). -/
def Cmd.u (c : Cmd) (off n : Nat) : Nat := Bytes.num c.inl (off - 16) n

/-! Leases. -/

/-- The resources that a window's running plan and bindings use (R258). -/
def State.resourcesUsed (s : State) (w : Nat) : Res :=
  let streams := s.streams.filter fun e => e.2.bound && e.2.win == w
  let ports := streams.foldl (fun (n : BitVec 64) (e : Nat × Stream) =>
    n ||| (if e.2.si < 4 then BitVec.ofNat 64 (2 ^ (16 + e.2.si)) else 0)
      ||| (if e.2.se < 4 then BitVec.ofNat 64 (2 ^ (20 + e.2.se)) else 0)) 0
  let cs := streams.foldl (fun (m : BitVec 256) (e : Nat × Stream) => m ||| BitVec.ofNat 256 (2 ^ e.1)) 0
  match (s.plan w).running with
  | none => { bits := ports, cs := cs }
  | some p => { bits := ports ||| p.arcades.setWidth 64 ||| (p.sourceMask.setWidth 64 <<< 32)
                cs := p.calendars.foldl (fun (m : BitVec 256) c => m ||| BitVec.ofNat 256 (2 ^ c.cs)) cs }

/-- The resources and the stream mask of a lease command (R249, R254). -/
def Cmd.resources (c : Cmd) : Res := { bits := BitVec.ofNat 64 (c.u 16 8), cs := BitVec.ofNat 256 (Bytes.toNat (c.params.take 32)) }

/-- The parameters of a lease command: a CS mask of 0 or 32 bytes; its rows list no status for another length but ST_DENIED (R249). -/
def Cmd.maskStatus (c : Cmd) : Option Nat :=
  if c.params.length = 0 ∨ c.params.length = 32 then none else some stDenied

/-- The video bits name ports of the same request (R254). -/
def Res.videoNamed (r : Res) : Bool := (List.range 8).all fun k => !r.bits.getLsbD (24 + k) || r.bits.getLsbD (16 + k)

/-- The video bits name ports that the request holds, at most one of a kind (R254). -/
def Res.videoOk (r : Res) : Bool :=
  let b := r.bits.toNat
  decide (popCount 4 (Bits.get b 24 4) ≤ 1) && decide (popCount 4 (Bits.get b 28 4) ≤ 1) && r.videoNamed

/-- Resources with the video attribute of every port among them: what goes when they go (R254). -/
def Res.withVideo (r : Res) : Res := { r with bits := r.bits ||| ((r.bits &&& 0x00FF_0000) <<< 8) }

/-- LEASE_TAKE (R255): held until its arbitration. -/
def State.leaseTake (s : State) (w : Nat) (c : Cmd) : State :=
  let r := c.resources
  let earliest := c.epoch + 2
  let first := if c.u 24 8 = 0 then earliest else c.u 24 8
  let last := c.u 32 8
  match c.maskStatus with
  | some st => s.finish w { status := st }
  | none =>
    if !r.videoOk || Bits.get (c.u 16 8) 48 16 ≠ 0 || (last ≠ 0 && decide (last < first)) then
      s.finish w { status := stDenied, detail := if Bits.get (c.u 16 8) 48 16 ≠ 0 then 3 else 0 }
    else if first < earliest then s.finish w { status := stBusy, epoch := earliest }
    else
      let t : HeldTake := { win := w, res := r, first := first, last := if last = 0 then none else some last }
      let s := { s with rb := { s.rb with held := s.rb.held ++ [t] } }
      s.onSlotOf w fun x => { x with begun := true }

def execLeaseTake (w : Win) (s : State) : Host.Outcome State Fault Refusal :=
  actCmd (s.rbCmd w.val 0x20) (fun c s => s.leaseTake w.val c) s

/-- LEASE_DROP (R257, R258): it ends the lease at the boundary that begins the drop epoch. -/
def State.leaseDrop (s : State) (w : Nat) (c : Cmd) : State :=
  let r := c.resources
  let e := if c.u 24 8 = 0 then c.epoch + 1 else c.u 24 8
  let own := (s.rb.heldAt w e).or (s.rb.heldAt w c.epoch)
  match c.maskStatus with
  | some st => s.finish w { status := st }
  | none =>
    if e < c.epoch + 1 then s.finish w { status := stBusy, epoch := c.epoch + 1 }
    else if !r.videoNamed then s.finish w { status := stDenied }
    else if r.minus own ≠ ({} : Res) then s.finish w { status := stNotOwner }
    else if r.and (s.resourcesUsed w) ≠ ({} : Res) then s.finish w { status := stDenied, detail := 6 }
    else
      let s := { s with rb := { s.rb with drops := s.rb.drops ++ [(e, w, r)] } }
      s.onSlotOf w fun x => { x with begun := true }

def execLeaseDrop (w : Win) (s : State) : Host.Outcome State Fault Refusal :=
  actCmd (s.rbCmd w.val 0x21) (fun c s => s.leaseDrop w.val c) s

/-- Two spans of epochs share an epoch. -/
def spansMeet (f1 : Nat) (l1 : Option Nat) (f2 : Nat) (l2 : Option Nat) : Bool :=
  (match l2 with
  | some n => decide (f1 ≤ n)
  | none => true) && (match l1 with
  | some n => decide (f2 ≤ n)
  | none => true)

/-- A lease blocks a request that shares an epoch with it: by a resource of both where another window holds it, or by the video
attribute of a port of the kind, which one port in the block holds; a port that the request itself replaces does not count
(R254, R255). -/
def Lease.blocks (l : Lease) (t : HeldTake) : Bool :=
  let kept := if l.win = t.win then l.res.minus t.res.withVideo else l.res
  let v (lo : Nat) : Bool := Bits.get kept.bits.toNat lo 4 ≠ 0 && Bits.get t.res.bits.toNat lo 4 ≠ 0
  spansMeet l.first l.last t.first t.last && ((l.win != t.win && l.res.and t.res != ({} : Res)) || v 24 || v 28)

/-- Grant a request (R255): what the window holds of it already ends before, and the grant goes on from there. -/
def Roundabout.grant (rb : Roundabout) (t : HeldTake) : Roundabout :=
  let cut (l : Lease) : List Lease :=
    if l.win == t.win && l.res.and t.res != ({} : Res) then
      let keep : Lease := { l with res := l.res.minus t.res.withVideo }
      let ends : Lease := { l with res := l.res.and t.res.withVideo, last := some (match l.last with
        | some n => min n (t.first - 1)
        | none => t.first - 1) }
      (if keep.res = ({} : Res) then [] else [keep]) ++ (if decide (l.first < t.first) then [ends] else [])
    else [l]
  { rb with leases := (rb.leases.map cut).flatten ++ [{ win := t.win, res := t.res, first := t.first, last := t.last }] }

/-- The next eligible epoch of a request that is blocked (R256). -/
def nextEligible (ls : List Lease) : Nat :=
  if ls.any fun l => l.last.isNone then 0 else (ls.foldl (fun m l => max m (l.last.getD 0)) 0) + 1

/-- LEASE_ARBITRATION (R255): the held requests for the next epoch, in ascending VI order. -/
def State.arbitrate (s : State) : State :=
  let e := s.epoch
  (List.range 65).foldl (fun s w =>
    match s.rb.held.find? fun t => t.win == w && decide (t.first ≤ e + 1) with
    | none => s
    | some t =>
      let s := { s with rb := { s.rb with held := s.rb.held.filter fun x => x != t } }
      let bs := s.rb.leases.filter fun l => l.blocks t
      if bs.isEmpty then State.result { s with rb := s.rb.grant t } w { status := stOk, epoch := e }
      else s.result w { status := stBusy, epoch := nextEligible bs }) s

/-- Drops whose epoch has begun leave the leases (R258). -/
def State.applyDrops (s : State) : State :=
  let e := s.epoch
  (s.rb.drops.filter fun d => decide (d.1 ≤ e)).foldl (fun s d =>
    let w := d.2.1
    let r := d.2.2
    let s := { s with rb := { s.rb with
      drops := s.rb.drops.erase d
      leases := (s.rb.leases.map fun (l : Lease) => if l.win == w then { l with res := l.res.minus r.withVideo } else l).filter
        fun (l : Lease) => l.res != ({} : Res) } }
    let s := s.dropRetained w (Bits.get r.bits.toNat 0 16)
    s.result w { status := stOk, epoch := d.1 }) s

/-- The Arcades, ports, phase sources and streams of a stream's binding and calendar. -/
def State.streamUses (s : State) (cs : Nat) (lost : Res) : Bool :=
  let st := s.stream cs
  lost.cs.getLsbD cs || (decide (st.si < 4) && lost.bits.getLsbD (16 + st.si)) || (decide (st.se < 4) && lost.bits.getLsbD (20 + st.se))
    || (match s.calendarOf cs with
      | some c => c.phase && lost.bits.getLsbD (32 + c.source)
      | none => false)
    || (match (s.plan st.win).running with
      | some p => (p.streamEntries cs 0 ++ p.streamEntries cs 1).any fun e => lost.bits.getLsbD (p.arcadeOf e)
      | none => false)

/-- A session has a page, region, stream or job on one of these resources (R258). -/
def State.sessionUses (s : State) (sc : Nat) (lost : Res) : Bool :=
  (s.pagesOf sc).any (fun p => lost.bits.getLsbD (p / 4096 % 16))
    || (s.regionsWhere fun r => r.ownedBy sc).any (fun x => lost.bits.getLsbD (x.1 % 16))
    || (s.streamsOf sc).any (fun cs => s.streamUses cs lost)
    || (s.jobsOf sc).any fun j => (s.jobEntries j).any fun e => lost.bits.getLsbD (e.2.arcade % 16)

/-- Leases that have reached their last epoch (R258): sessions that use what they held are aborted, and RETAINED regions
on the lost Arcades are zeroised. -/
def State.expireLeases (s : State) : State :=
  let e := s.epoch
  let gone := s.rb.leases.filter fun l => match l.last with
    | some n => decide (n < e)
    | none => false
  let s := { s with rb := { s.rb with leases := s.rb.leases.filter fun l => !gone.contains l } }
  (List.range 65).foldl (fun s w =>
    let had := (gone.filter fun l => l.win == w).foldl (fun (a : Res) (l : Lease) => a.or l.res) ({} : Res)
    let lost := had.minus (s.rb.heldAt w e)
    if lost = ({} : Res) then s
    else
      let s := (s.sessionsOf w).foldl (fun s sc => if s.sessionUses sc lost then s.abortSession sc stAborted else s) s
      s.dropRetained w (Bits.get lost.bits.toNat 0 16)) s

/-- The counters of a port restart at zero where a lease on it begins (R484). -/
def State.freshPorts (s : State) : State :=
  let e := s.epoch
  let begun := s.rb.leases.filter fun l => l.first = e && (l.res.minus (s.rb.heldAt l.win (e - 1))) != ({} : Res)
  begun.foldl (fun s l =>
    let new := (l.res.minus (s.rb.heldAt l.win (e - 1))).bits
    (List.range 4).foldl (fun s k =>
      let s := if new.getLsbD (16 + k) then { s with si := Tab.set {} s.si k {} } else s
      if new.getLsbD (20 + k) then
        { s with se := Tab.upd {} s.se k fun p => { p with records := 0, held := 0, aborted := 0 } }
      else s) s) s

/-- The key that waits to be planted for a session: its K_d in KREG, once FINISH_RSP has been sent, or the key that its home sent
(R208, R434). -/
def State.plantable (s : State) (sc : Nat) : Option (BitVec 256) :=
  match s.keys.kreg with
  | some l =>
    if l.sess == some sc then
      if (s.session sc).keyx.any fun k => k.keySent then none else some (l.key.setWidth 256)
    else (s.session sc).plantKey
  | none => (s.session sc).plantKey

/-- The key manager refuses the planting of a session's key (R320). -/
def State.plantRefused (s : State) (sc : Nat) : Bool :=
  match s.keys.kreg with
  | some l => if l.sess == some sc then s.useRefused l.attr 3 else s.keysLocked
  | none => s.keysLocked

/-- KEY_PLANT (R208, R210, R316): the session's new key is planted, masked, and KREG cleared; a session that had one takes a REKEY cut
first, and its counters restart. The open range of a session's first key holds the plan in force, as generation 0 (R205, R224; log
entry 87). A session that is FAULTED or CLOSING by then is planted no key (R206), and none is planted whose use is refused (R320). -/
def State.plant (s : State) (sc : Nat) : State :=
  let x := s.session sc
  match s.plantable sc with
  | none => s
  | some k =>
    let gone (s : State) : State := (s.dropPlant sc).onSess sc fun x => { x with plantKey := none, keyx := none }
    if x.state != .opened && x.state != .keyed then gone s
    else if s.plantRefused sc then gone (s.logRefusedUse 0x3F)
    else
    let again := x.state == .keyed
    let had := if again then s.sessionKey sc else none
    let inForce : BitVec 384 := match (s.plan x.window).running with
      | some p => p.measurement
      | none => 0
    let s := if again then s.cut sc .rekey else s
    let s := { s with keys := s.keys.plant sc k }
    let s := if s.keys.kreg.any fun l => l.sess == some sc then s.emptyKreg else s
    let s := s.onSess sc fun x => { x with
      state := .keyed, keyxGen := x.keyxGen + 1, plantKey := none, keyx := none
      oldKeys := match had with
        | some o => x.oldKeys ++ [(o, x.rseqNext.toNat)]
        | none => []
      plantEpoch := s.epoch
      rangeKeyx := if again then x.rangeKeyx else x.keyxGen + 1
      openPlans := if again then x.openPlans else [(0, inForce)]
      inHw := 0, chunkHw := 0 }
    let s := { s with streams := Tab.mapVals {} s.streams fun _ (st : Stream) =>
      if st.bound && st.session == sc then { st with oldCounter := st.lastCounter, lastCounter := 0 } else st }
    if s.isHome sc then s.sendCtx sc else s

/-- Every key that waits is planted at an epoch boundary: those that homes sent, and each K_d as KREG takes it (R210, R321). -/
def State.plantAll (s : State) : State :=
  let n := s.keys.kregWaiting.length + 1
  let s := (s.sess.map (·.1)).foldl (fun (s : State) sc => if (s.session sc).plantKey.isSome && decide ((s.session sc).plantFrom ≤ s.epoch) then s.plant sc else s) s
  (List.range n).foldl (fun (s : State) _ => match s.keys.kreg with
    | some l => (match l.sess with
      | some sc => s.plant sc
      | none => s)
    | none => s) s

/-- The slots that are POSTED are sealed (R236). Behind a running command the packet must still be an ABORT as the epoch ends
(R235; log entry 98). -/
def CmdSlot.sealNow (c : CmdSlot) : CmdSlot :=
  match c.state with
  | .posted => { c with state := .closed }
  | .running =>
    if c.behind ≠ some false then c
    else if (parsePacket c.pkt).opcode = 0x60 then { c with behind := some true, behindPkt := c.pkt }
    else { c with behind := none }.refusePost
  | _ => c

/-- EPOCH_BOUNDARY (R236, R255, R257, R258, R210). -/
def State.epochRow (s : State) : State :=
  let s := { s with ptu := { s.ptu with atEpoch := false } }
  let s := { s with win := Tab.mapVals {} s.win fun _ (w : Window) => { w with slot := w.slot.sealNow } }
  let s := ((s.applyDrops).expireLeases).freshPorts
  let s := s.arbitrate
  let s := (s.sess.map (·.1)).foldl (fun s sc => s.settleKeys sc) s
  s.plantAll

def execEpochBoundary (s : State) : Host.Outcome State Fault Refusal := act s.ptu.atEpoch State.epochRow s

/-! Dispatch. -/

/-- Accept or refuse the packet of a sealed slot (R235, R236, R241); an ABORT behind another that is accepted is accepted once that one
has ended (log entry 98). Answers whether it was taken up in this tick. -/
def State.accept (s : State) (w : Nat) : Bool × State :=
  let c := (s.window w).slot
  if c.state == .closed then
    let p := parsePacket c.pkt
    if !s.fcUp && !roundaboutOps.contains p.opcode then (false, s)
    else
      match s.checkPacket w p c.appended with
      | some (st, d) =>
        let s := s.onSlotOf w fun x => { x with state := .idle, params := [], appended := 0 }
        (true, s.writeReply w p.tag p.opcode { status := st, detail := d })
      | none =>
        let cmd : Cmd := { opcode := p.opcode, tag := p.tag, session := p.session, inl := p.inl
                           params := c.params.take p.paramLen, g1 := p.gen == 1, epoch := s.epoch, time := s.now
                           phases := s.phases }
        let s := s.onSlotOf w fun x => { x with
          state := .running, params := [], appended := 0, running := some cmd, result := none, begun := false }
        (true, if roundaboutOps.contains p.opcode then s else { s with rb := { s.rb with fcQueue := s.rb.fcQueue ++ [w] } })
  else if c.state == .running && c.behind = some true && c.abortCmd.isNone then
    let p := parsePacket c.behindPkt
    let s := s.onSlotOf w fun x => { x with behind := none }
    match s.checkPacket w p c.appended with
    | some (st, d) => (true, s.writeReply w p.tag p.opcode { status := st, detail := d })
    | none =>
      let cmd : Cmd := { opcode := p.opcode, tag := p.tag, session := p.session, inl := p.inl
                         params := [], g1 := p.gen == 1, epoch := s.epoch, time := s.now, phases := s.phases }
      (true, s.onSlotOf w fun x => { x with abortCmd := some cmd })
  else (false, s)

/-- The scan of a dispatch tick (R234): 65 slots, from the one after the first accepted in the last tick that accepted
any. -/
def State.scan (s : State) : State :=
  let from0 := s.rb.scanAfter + 1
  let r := (List.range 65).foldl (fun (x : Option Nat × State) i =>
    let w := (from0 + i) % 65
    let (took, s) := x.2.accept w
    (if took && x.1.isNone then some w else x.1, s)) (none, s)
  match r.1 with
  | some w => { r.2 with rb := { r.2.rb with scanAfter := w } }
  | none => r.2

/-- The replies of lease commands that have been decided (R255, R258). -/
def State.leaseReplies (s : State) : State :=
  (List.range 65).foldl (fun s w =>
    let c := (s.window w).slot
    match c.running, c.result with
    | some x, some r => if x.opcode = 0x20 || x.opcode = 0x21 then s.finish w r else s
    | _, _ => s) s

/-- Error notices: one message for the flags set since the last dispatch tick (R395). -/
def State.notices (s : State) : State :=
  (List.range 65).foldl (fun s w =>
    if (s.window w).errNotice then (s.viMessage w 2).onWin w fun x => { x with errNotice := false } else s) s

/-- A renewal of the challenge that a read has withheld takes place at the end of that µs (R324). -/
def State.endChallengeRead (s : State) : State :=
  if s.lc.renewHeld then
    let (r, s) := s.draw
    { s with lc := { s.lc with challenge := r.setWidth 128, challengeRead := none, renewHeld := false } }
  else { s with lc := { s.lc with challengeRead := none } }

/-- DISPATCH_TICK (R234). The export of R391 goes on at it too (log entry 33). -/
def execDispatchTick (s : State) : Host.Outcome State Fault Refusal :=
  act (s.ptu.atDispatch && !s.ptu.atEpoch) (fun s =>
    let s := { s with ptu := { s.ptu with atDispatch := false } }
    ((s.leaseReplies).scan).notices.endChallengeRead.pumpEvents) s

/-- MSG_SEND (R473): the oldest pending message leaves when the sideband takes it. -/
def execMsgSend (ready : Bool) (s : State) : Host.Outcome State Fault Refusal :=
  act (ready && !s.msgs.isEmpty) (fun s =>
    match s.msgs with
    | m :: r => State.emit { s with msgs := r } (.msg m.1 m.2)
    | [] => s) s

end Sys2Proof.Machine
end

