-- ==== Sys2Proof/Machine/Sessions.lean ====
section
/-! DEFINITION. VIs and sessions: opening and closing (R206, R245, R482), the key exchange (R207 to R209), checkpoints on
request (R222, R223), evidence (R351), firmware information (R265), ABORT (R262 to R264) and RESULT_ACK (R167). -/

namespace Sys2Proof.Machine

/-! Shared answers. -/

def Reply.ok (v : Nat := 0) : Reply := { status := stOk, value := v }
def Reply.denied (d : Nat := 0) : Reply := { status := stDenied, detail := d }

/-- The message types of R246. -/
def msgFwInfo : Nat := 1
def msgErrlog : Nat := 2
def msgEvidence : Nat := 3
def msgSpdm : Nat := 4
def msgImage : Nat := 5
def msgToken : Nat := 6
def msgPair : Nat := 7

/-- The 8-byte message header (R246). -/
def State.header (s : State) (w type len : Nat) : Bytes :=
  let x := s.window w
  [BitVec.ofNat 8 x.msgMinor, BitVec.ofNat 8 x.msgMajor] ++ Bytes.ofNat 2 type ++ Bytes.ofNat 4 len

/-- A body is defined for the VI's message version (R246). -/
def State.bodyDefined (s : State) (w type : Nat) : Bool :=
  (s.window w).msgMajor == 2 || type == msgFwInfo || type == msgErrlog || type == msgSpdm

/-- A read through M0 to M3 that ended in an error or met a poisoned beat (R454). -/
def State.readFailed (s : State) (r : HostRead) (addr : Nat) : State :=
  if r.poison then s.report { event := 0x0408, unitKind := 0, location := addr } else s

/-- The checks of a request's header (R246): status of the first that fails. -/
def State.requestStatus (s : State) (w type declared : Nat) (b : Bytes) : Option Nat :=
  let x := s.window w
  if (b.getD 1 0).toNat ≠ x.msgMajor || !s.bodyDefined w type then some stVersion
  else if declared < Bytes.num b 4 4 + 8 then some stLenShort
  else if Bytes.num b 4 4 + 8 < declared then some stLenLong
  else if Bytes.num b 2 2 ≠ type then some stDenied
  else none

/-- Write a reply body to a response buffer, and complete with the bytes written; a buffer that is too small refuses
(R249). -/
def State.respond (s : State) (w type addr size : Nat) (body : Bytes) : State :=
  let msg := s.header w type body.length ++ body
  if size < msg.length then s.result w (.denied 4)
  else (s.hostWrite (windowWorld w) addr msg).result w (.ok msg.length)

/-- A session of the window that its standby may not use for this command (R424). -/
def State.standbyRefuses (s : State) (sc : Nat) : Bool := s.isStandby sc

/-! VI_OPEN and VI_CLOSE. -/

/-- VI_OPEN (R245, R482). The operator's window needs no enable. -/
def State.viOpen (s : State) (w : Nat) (c : Cmd) : State :=
  let x := s.window w
  let major := c.u 16 1
  if x.isOpen || (w < 64 && !polEnable (s.policyOf w)) then s.result w (.denied 0)
  else if major ≠ 1 ∧ major ≠ 2 then s.result w { status := stVersion }
  else
    let minor := min (c.u 17 1) (if major = 1 then 4 else 2)
    let fresh : Window := { isOpen := true, gen := if c.g1 then 1 else 2, msgMajor := major, msgMinor := minor
                            vector := BitVec.ofNat 16 (c.u 18 2), driver := BitVec.ofNat 64 (c.u 24 8)
                            slot := { state := .running, running := some c, begun := true, behind := x.slot.behind
                                      behindPkt := x.slot.behindPkt, abortCmd := x.slot.abortCmd } }
    let s := s.onWin w fun _ => fresh
    let s := { s with results := Tab.clear s.results (64 * w) (64 * w + 64) }
    s.result w (.ok (major * 256 + minor))

def execViOpen (w : Win) (s : State) : Host.Outcome State Fault Refusal :=
  actCmd (s.fcCmd w.val 0x01) (fun c s => s.viOpen w.val c) s

/-- The bank of a window is emptied, and its armed commit cancelled (R262). -/
def State.emptyBank (s : State) (w : Nat) : State :=
  let s := match (s.bank w).armed with
    | some i => { s with ptu := { s.ptu with events := Tab.set {} s.ptu.events i {} } }.unfire fun k => k == i
    | none => s
  { s with banks := Tab.set {} s.banks w {} }

/-- A JOB_CHECKPOINT that is ended leaves no checkpoint (R263): the job's is what it was before. Its counter is not taken back, since
no nonce repeats under one key (R212, R214). -/
def State.undoCkpt (s : State) (w : Nat) (c : Cmd) : State :=
  let j := c.u 16 2
  let s := if j < 1024 && (s.job j).active && (s.job j).win == w then s.onJob j fun x => { x with ckptSelect := false } else s
  match (s.window w).slot.undo with
  | .ckpt j old since kept => if (s.job j).active then s.onJob j fun x => { x with ckpt := old, since := since + x.since, kept := kept } else s
  | _ => s

/-- A FW_STAGE that is ended leaves its component's image in the slot invalid, and the active-slot flag as it was (R263). -/
def State.undoStage (s : State) (w : Nat) : State :=
  match (s.window w).slot.undo with
  | .staged component slot active trial tries =>
    let s := s.unlist slot component
    let s := if component = 0 then s.writeBootRecord active trial tries else s
    if component = 1 then s.setQcStaged none else s
  | _ => s

/-- Undo what an unfinished command has done (R263). -/
def State.undo (s : State) (w : Nat) (c : Cmd) (r : Option Reply) : State :=
  if c.opcode = 0xA0 && s.fm.joinWin == some w then s.linkOff .off
  else if c.opcode = 0x51 then s.undoCkpt w c
  else if r.isNone then s
  else if c.opcode = 0x30 then
    s.onBank w fun b => { b with items := b.items.filter fun i => match i with
      | .plan _ => false
      | _ => true }
  else if c.opcode = 0x31 then (match (s.window w).slot.undo with
    | .regions ks => ks.foldl (fun s x => s.zeroiseRegion x.1 x.2 false false) s
    | _ => s)
  else if c.opcode = 0x81 then s.undoStage w
  else if c.opcode = 0x52 then (match r with
    | some x => if x.status = stOk then s.endJob x.value stAborted else s
    | none => s)
  else s

/-- No checkpoint and no claim reports to a window any more: its RECEIPT_CHECKPOINT or EVIDENCE_GET has ended (R223, R263, R269). -/
def State.dropWaiter (s : State) (w : Nat) : State :=
  let keep (x : Option Nat) : Option Nat := if x = some w then none else x
  let due (c : Nat × CutKind × BitVec 256 × Option Nat) : Nat × CutKind × BitVec 256 × Option Nat := (c.1, c.2.1, c.2.2.1, keep c.2.2.2)
  { s with
    cuts := s.cuts.map fun (k : Cut) => { k with waiter := keep k.waiter }
    cutDue := s.cutDue.map due, cutWait := s.cutWait.map due
    rb := { s.rb with claims := s.rb.claims.filter fun q => q.win != w } }

/-- The running command of a window ends with a status (R262, R263, R269). -/
def State.endRunning (s : State) (w status : Nat) : State :=
  let x := (s.window w).slot
  match x.running with
  | none => s
  | some c =>
    let s := ((s.undo w c x.result).abortPke w).dropWaiter w
    let s := { s with rb := { s.rb with
      held := s.rb.held.filter fun t => t.win != w || c.opcode != 0x20
      drops := s.rb.drops.filter fun d => d.2.1 != w || c.opcode != 0x21 } }
    s.finish w { status := status }

/-- ABORT of VI scope (R262). Leases are kept; RETAINED regions are zeroised (R90). -/
def State.abortVi (s : State) (w : Nat) : State :=
  let s := (s.sessionsOf w).foldl (fun s sc => s.abortSession sc stAborted) s
  let s := s.emptyBank w
  s.dropRetained w 0xFFFF

/-- The entries that a window's plan made in the event table. -/
def State.dropEvents (s : State) (w : Nat) : State :=
  let idx := (s.plan w).events
  let s := { s with ptu := { s.ptu with events := idx.foldl (fun t i => Tab.set {} t i {}) s.ptu.events } }
  (s.unfire fun i => idx.contains i).onPlan w fun p => { p with events := [] }

/-- The close of a VI: its sessions as for ABORT of VI scope, its plan and its bank (R90, R206, R262). -/
def State.closeVi (s : State) (n : Nat) : State :=
  let s := (s.abortVi n).dropEvents n
  let s := { s with plans := Tab.set {} s.plans n {} }
  s.onWin n fun x => { x with isOpen := false, gen := 0, msgMajor := 0, msgMinor := 0 }

/-- VI_CLOSE: its own VI from a VI window, any from the operator's (R248, R249). -/
def State.viClose (s : State) (w : Nat) (c : Cmd) : State :=
  let n := if w = 64 then c.u 16 1 else w
  if 64 < n || !(s.window n).isOpen then s.result w (.denied 0)
  else
    let s := if n = w then s else s.endRunning n stAborted
    (s.closeVi n).result w (.ok 0)

def execViClose (w : Win) (s : State) : Host.Outcome State Fault Refusal :=
  actCmd (s.fcCmd w.val 0x02) (fun c s => s.viClose w.val c) s

/-! Sessions. -/

/-- Debug is unlocked (R228, R265). -/
def State.debugOpen (s : State) : Bool := s.lc.grant != 0 || s.lc.openScopes != 0

/-- SESSION_OPEN (R206, R228): the lowest FREE context. -/
def State.sessionOpen (s : State) (w : Nat) (c : Cmd) : State :=
  let conf := Bits.bit (c.u 16 1) 0
  let base := c.u 24 8
  let entries := c.u 32 2
  let lowest := lowestWith fun n => (s.session n).state == .free
  let free := if s.joined && s.pairVi w then (if s.fm.lower then lowest 8192 0 else lowest 8192 8192) else lowest 16384 0
  let full := w < 64 && decide (polQuota (s.policyOf w) ≤ (s.sessionsOf w).length)
  match free with
  | none => s.result w (.denied 0)
  | some n =>
    if full then s.result w (.denied 0)
    else if conf && (s.debugOpen || s.keysLocked || !(s.lc.state = 3 || s.lc.state = 4)) then s.result w (.denied 0)
    else if base % 64 ≠ 0 || entries < 16 || 4096 < entries then s.result w (.denied 0x2A)
    else
      let x : Session := { state := .opened, conf := conf, vi := if w = 64 then 0 else w, operator := w == 64
                           ringBase := base, ringEntries := entries, ringVector := BitVec.ofNat 16 (c.u 34 2), rseqNext := 1
                           pair := if s.joined && s.pairVi w then .home else .unpaired }
      let s := { s with sess := Tab.set {} s.sess n x }
      (s.sendCtx n).result w (.ok n)

def execSessionOpen (w : Win) (s : State) : Host.Outcome State Fault Refusal :=
  actCmd (s.fcCmd w.val 0x10) (fun c s => s.sessionOpen w.val c) s

/-- SESSION_CLOSE (R206): its streams open no new slot, its jobs end, and the CLOSE cut follows its last slot. -/
def State.sessionClose (s : State) (w : Nat) (c : Cmd) : State :=
  let sc := c.session
  let x := s.session sc
  if !s.visible w sc || x.state == .closing then s.result w (.denied 0)
  else if s.standbyRefuses sc then s.result w (.denied 0x29)
  else
    let s := (s.jobsOf sc).foldl (fun s j => s.endJob j stAborted) s
    let s := (s.onSess sc Session.closing).dropPlant sc
    ((s.sendCtx sc).closeReady sc).result w (.ok 0)

def execSessionClose (w : Win) (s : State) : Host.Outcome State Fault Refusal :=
  actCmd (s.fcCmd w.val 0x12) (fun c s => s.sessionClose w.val c) s

/-! The key exchange. -/

/-- The coefficients of an ML-KEM-1024 encapsulation key are below its modulus (R249). -/
def kemInRange (ek : Bytes) : Bool :=
  (List.range 512).all fun i =>
    let v := Bytes.num ek (3 * i) 3
    decide (v % 4096 < 3329) && decide (v / 4096 < 3329)

/-- The field prime of P-384 (FIPS 186-5). -/
def p384Prime : Nat := 2 ^ 384 - 2 ^ 128 - 2 ^ 96 + 2 ^ 32 - 1

/-- The refusal of a public point of P-384: a coordinate out of range, then off the curve (R336, R337). -/
def pointRefusal (q : Bytes) : Nat :=
  if p384Prime ≤ Bytes.bigNat (Bytes.slice q 0 48) || p384Prime ≤ Bytes.bigNat (Bytes.slice q 48 48) then stInputRange
  else if !Config.p384OnCurve q || allZero q 0 96 then stNotOnCurve else 0

/-- The SPDM responder holds no alias keys (R350). -/
def State.noAlias (s : State) : Bool := s.keys.cdiA.isEmpty || s.keysLocked

/-- A response to the request in a SESSION_KEYX command (R207, R361). -/
def State.keyxRespond (s : State) (w : Nat) (c : Cmd) (body : Bytes) : State :=
  s.respond w msgSpdm (c.u 24 8) (c.u 36 4) body

/-- Z_ec and Z_kem, as the PKE hands them to the key manager's input buffer (R208). -/
def KeyxWork.secrets (k : KeyxWork) : Bytes := Config.p384Ecdh k.ephemeral k.ecdhPub ++ Config.mlkemSecret k.mlkemEk k.kemRandom

/-- K_d (R208) of an exchange whose FINISH_RSP has been sent. -/
def KeyxWork.dataKey (k : KeyxWork) (sc gen : Nat) : BitVec 256 :=
  let salt := Bytes.big (Config.sha384 (Config.spdmTranscript 0x65 (k.transcript ++ Config.spdmBody 0xE5 [] [])))
  let prk := hkdfExtract salt k.secrets
  BitVec.ofNat 256 (Bytes.bigNat (hkdfExpand prk (ascii "klv-s2 data" ++ Bytes.ofNat 2 sc ++ Bytes.ofNat 2 gen) 32))

/-- KEY_EXCHANGE_RSP without its ECDSA signature (R207): the block's share, and element 0x0002 with the ML-DSA-65 signature over the
digest of the transcript through the request, the share, the ciphertext, the session and keyx_gen. -/
def State.keyxElements (s : State) (k : KeyxWork) (sc gen : Nat) (rnd : Bytes) : Bytes :=
  let share := Config.p384Public k.ephemeral
  let ids := Config.mlkemCipher k.mlkemEk k.kemRandom ++ Bytes.ofNat 2 sc ++ Bytes.ofNat 2 gen
  let m := Bytes.big (Config.sha384 (k.transcript ++ share ++ ids))
  share ++ ids ++ (signBoth s.keys.cdiA s.lc.state m rnd).2

/-- The ECDSA P-384 signature by the alias key over the transcript through the response's fields before it (R207). -/
def State.keyxSignature (s : State) (transcript body : Bytes) : Bytes :=
  (signBoth s.keys.cdiA s.lc.state (Bytes.big (Config.sha384 (Config.spdmTranscript 0x64 (transcript ++ body)))) []).1

/-- KEY_EXCHANGE (R207): its operands are checked, the block's shares drawn, and the response signed with both alias keys. -/
def State.keyExchange (s : State) (w : Nat) (c : Cmd) (pub ek : Bytes) : State :=
  let sc := c.session
  if s.noAlias then s.keyxRespond w c (Config.spdmBody 0x7F [] [5])
  else if s.drbgBlocked then s.result w (.denied 0x0F)
  else if s.aliasRefused then (s.logRefusedUse 4).result w (.denied 0)
  else if pointRefusal pub ≠ 0 then s.result w { status := pointRefusal pub }
  else if !kemInRange ek then s.result w { status := stInputRange }
  else
    let (a, s) := s.draw
    let (b, s) := s.draw
    let (r, s) := s.draw
    let s := s.useAlias
    let k : KeyxWork := { ecdhPub := pub, mlkemEk := ek, ephemeral := (Bytes.big a).take 48, kemRandom := (Bytes.big b).take 32
                          transcript := Config.spdmTranscript 0xE4 ((Tab.get {} s.mgmt.spdm w).transcript ++ pub ++ ek) }
    let gen := (s.session sc).keyxGen.toNat + 1
    let body := s.keyxElements k sc gen ((Bytes.big r).take 32)
    let rsp := Config.spdmBody 0xE4 (pub ++ ek) (body ++ s.keyxSignature k.transcript body)
    let s := s.onSess sc fun x => { x with keyx := some { k with transcript := Config.spdmTranscript 0x64 (k.transcript ++ rsp) } }
    s.keyxRespond w c rsp

/-- The planted key goes to the standby (R434). -/
def State.sendKey (s : State) (sc : Nat) (k : BitVec 256) : State :=
  if s.isHome sc then
    s.sendMessage 0x0003 chanCtrl (Bytes.ofNat 2 sc ++ Bytes.ofNat 8 (s.epoch + 1) ++ Bytes.big k)
  else s

/-- K_d is formed in KREG, where it waits to be planted (R208, R321). Z_ec and Z_kem have passed through the key manager's input
buffer, which the derivation clears. -/
def State.formKey (s : State) (sc : Nat) (kd : BitVec 256) : State :=
  State.loadKreg { s with keys := { s.keys with kmInput := [] } }
    { key := kd.setWidth 512, bytes := 32, attr := attrOf 2 1 0x08 0x7F true 1 false, user := 0x41, sess := some sc }

/-- The flit that the standby must have acknowledged for KEY: the last sent, where none of its channel waits (R434). -/
def State.keyFlit (s : State) : Option (BitVec 16) :=
  if s.fm.waiting.any fun x => x.chan == chanCtrl then none else some (s.fm.txSeq - 1)

/-- The standby has acknowledged KEY, or there is no standby any more. -/
def State.keyAcked (s : State) (sc : Nat) (k : KeyxWork) : Bool :=
  !s.isHome sc || match k.keySeq with
    | some q => s.fm.replay.all fun f => seqAfter f.seq q
    | none => false

/-- FINISH_RSP (R206, R434): the exchange is over, and the first key of an unpaired session is planted. -/
def State.keyxDone (s : State) (w : Nat) (c : Cmd) : State :=
  let sc := c.session
  let s := (s.onSess sc fun x => { x with keyx := none }).keyxRespond w c (Config.spdmBody 0xE5 [] [])
  let x := s.session sc
  if x.state == .opened && x.pair == .unpaired then s.plant sc else s

/-- A FINISH whose KEY the standby has not acknowledged yet (R434). -/
def State.keyxWait (s : State) (w : Nat) (c : Cmd) (k : KeyxWork) : State :=
  if s.keyAcked c.session k then s.keyxDone w c
  else if k.keySeq.isNone then s.onSess c.session fun x => { x with keyx := some { k with keySeq := s.keyFlit } }
  else s

/-- FINISH (R208): the key is derived. The first key of a session is planted once FINISH_RSP has been sent (R206); a further one,
and any of a pair session, at the next epoch boundary (R210, R434). -/
def State.keyxFinish (s : State) (w : Nat) (c : Cmd) (ok : Bool) : State :=
  let sc := c.session
  match (s.session sc).keyx with
  | none => s.keyxRespond w c (Config.spdmBody 0x7F [] [4])
  | some k =>
    if !ok then (s.onSess sc fun x => { x with keyx := none }).keyxRespond w c (Config.spdmBody 0x7F [] [6])
    else
      let kd := k.dataKey sc ((s.session sc).keyxGen.toNat + 1)
      let s := s.formKey sc kd
      if s.isHome sc then
        let s := s.sendKey sc kd
        s.onSess sc fun x => { x with keyx := some { k with keySent := true, keySeq := s.keyFlit } }
      else s.keyxDone w c

/-- SESSION_KEYX (R206, R207, R209). The SPDM requests that have rows of their own act on the running command. -/
def State.sessionKeyx (s : State) (w : Nat) (c : Cmd) (hdr : HostRead) (req : KeyxReq) : State :=
  let sc := c.session
  let x := s.session sc
  let s := s.hostRead (windowWorld w) (c.u 16 8) (c.u 32 4)
  if hdr.err || hdr.poison then (s.readFailed hdr (c.u 16 8)).result w { status := stFault }
  else
    match s.requestStatus w msgSpdm (c.u 32 4) hdr.bytes with
    | some st => s.result w { status := st }
    | none =>
      if !s.visible w sc || !(x.state == .opened || x.state == .keyed) then s.result w (.denied 0)
      else if s.keysLocked then s.result w (.denied 0)
      else if s.standbyRefuses sc then s.result w (.denied 0x29)
      else if c.u 36 4 < 8192 then s.result w (.denied 4)
      else
        match req with
        | .keyExchange pub ek =>
          if s.noAlias || (Tab.get {} s.mgmt.spdm w).phase = 3 then s.keyExchange w c pub ek else s.keyxRespond w c (Config.spdmBody 0x7F [] [4])
        | .finish ok => s.keyxFinish w c ok
        | .endSession => s.result w (.denied 0)
        | .other _ => s.keyxRespond w c (Config.spdmBody 0x7F [] [7])

def execSessionKeyx (w : Win) (hdr : HostRead) (req : KeyxReq) (s : State) : Host.Outcome State Fault Refusal :=
  actCmd (s.fcCmd w.val 0x11) (fun c s => match (s.session c.session).keyx with
    | some k => if k.keySent then s.keyxWait w.val c k else s.sessionKeyx w.val c hdr req
    | none => s.sessionKeyx w.val c hdr req) s

/-! Checkpoints, evidence and firmware information. -/

/-- RECEIPT_CHECKPOINT (R222, R223): the cut is taken at once, and the command completes when its checkpoint is written. -/
def State.receiptCheckpoint (s : State) (w : Nat) (c : Cmd) : State :=
  let sc := c.session
  let x := s.session sc
  if !s.visible w sc || !(x.state == .keyed || x.state == .faulted) then s.result w (.denied 0)
  else if s.standbyRefuses sc then s.result w (.denied 0x29)
  else
    let nonce := BitVec.ofNat 256 (Bytes.bigNat (Bytes.slice c.inl 0 32))
    let s := s.onSlotOf w fun y => { y with begun := true }
    let s := { s with rb := { s.rb with fcQueue := s.rb.fcQueue.erase w } }
    s.cut sc .command nonce (some w)

def execReceiptCheckpoint (w : Win) (s : State) : Host.Outcome State Fault Refusal :=
  actCmd (s.fcCmd w.val 0x71) (fun c s => s.receiptCheckpoint w.val c) s

/-- EVIDENCE_GET once its claims are taken (R320, R345, R354, R355): the token is signed and written. -/
def State.deliverToken (s : State) (w : Nat) (c : Cmd) (q : ClaimReq) (body : Bytes) : State :=
  let s := { s with rb := { s.rb with claims := s.rb.claims.erase q } }
  if s.drbgBlocked then s.result w (.denied 0x0F)
  else if s.aliasRefused then (s.logRefusedUse 4).result w (.denied 0)
  else
    let (rnd, s) := s.draw
    s.useAlias.respond w msgEvidence (c.u 48 8) (c.u 56 4) (s.signToken q.sess body ((Bytes.big rnd).take 32))

/-- EVIDENCE_GET begins (R345, R350, R351, R355, R357): its claims are taken at the next dispatch tick. -/
def State.evidenceGet (s : State) (w : Nat) (c : Cmd) : State :=
  let sc := c.session
  let block := sc == 0xFFFF
  let sess := if block then none else some sc
  if !s.bodyDefined w msgEvidence then s.result w { status := stVersion }
  else if !block && !(s.visible w sc && ((s.session sc).state == .opened || (s.session sc).state == .keyed)) then
    s.result w (.denied 0)
  else if (Bytes.slice c.inl 0 32).all fun b => b == 0 then s.result w (.denied 0x10)
  else if s.drbgBlocked then s.result w (.denied 0x0F)
  else if s.noAlias then s.result w (.denied 0x11)
  else if c.u 56 4 < tokenBytes sess + 8 then s.result w (.denied 4)
  else
    { s with rb := { s.rb with claims := s.rb.claims ++ [{
        win := w, sess, audience := if w = 64 then 0 else 1, nonce := Bytes.slice c.inl 0 32, begun := s.ptu.tick }] } }

/-- The row of EVIDENCE_GET: it begins the command, or goes on with one whose claim tick is over. -/
def State.evidenceRow (s : State) (w : Nat) (c : Cmd) : State :=
  match s.rb.claims.find? fun q => q.win == w with
  | none => s.evidenceGet w c
  | some q =>
    if q.left then State.result { s with rb := { s.rb with claims := s.rb.claims.erase q } } w (.denied 0)
    else match q.token with
      | some b => s.deliverToken w c q b
      | none => s

def execEvidenceGet (w : Win) (s : State) : Host.Outcome State Fault Refusal :=
  actCmd (s.fcCmd w.val 0x70) (fun c s => s.evidenceRow w.val c) s

/-- The version word of an image, zero where there is none. -/
def versionOf : Option Ksi → BitVec 64
  | some k => k.versionWord
  | none => 0

/-- The FW_INFO body (R265). `other` is the FC version of the other slot. -/
def State.fwInfoBody (s : State) (other : BitVec 64) : Bytes :=
  let q (i : Nat) : Bytes := Bytes.ofNat 4 ((Tab.get 0 s.boot.qcRunning i).toNat % 2 ^ 32)
  let qs (i : Nat) : Bytes := Bytes.ofNat 4 ((versionOf (Tab.get none s.boot.qcStaged i)).toNat % 2 ^ 32)
  Bytes.ofNat 8 Config.romVersion.toNat ++ Bytes.ofNat 8 (versionOf s.boot.bl1Image).toNat
    ++ Bytes.ofNat 8 (versionOf s.boot.fcImage).toNat ++ Bytes.ofNat 8 other.toNat
    ++ [if s.boot.runningSlot then 1 else 0, if s.boot.active then 1 else 0]
    ++ s.counterBytes ++ [BitVec.ofNat 8 s.lc.state]
    ++ [BitVec.ofNat 8 ((if s.boot.unverified then 1 else 0) + (if s.debugOpen then 2 else 0))]
    ++ [6, 4, 2, 0, 0, 0, 0, 0]
    ++ ((List.range 4).map q).flatten ++ ((List.range 4).map qs).flatten
    ++ Bytes.ofNat 4 s.health.fcCrashes ++ (List.range 4).map (fun i => BitVec.ofNat 8 (min 255 (s.qcOf i).crashes))
    ++ List.replicate 40 0

/-! RESULT_ACK. -/

/-- The outcome of one acknowledgement (R167): none where it is refused. -/
def State.ackOne (s : State) (w : Nat) (e : Bytes) : Option State :=
  let origin := Bytes.num e 0 2
  let seq := Bytes.num e 8 8
  if Bytes.num e 3 5 ≠ 0 then none
  else if Bytes.num e 2 1 = 0 then
    let st := s.stream origin
    let k := 64 * st.win + st.slot
    let r := Tab.get {} s.results k
    if !(decide (origin < 256) && st.bound && st.win == w) then none
    else if r.latest < seq then none
    else if seq ≤ r.acked.toNat then some s
    else
      let r2 : ResultSlot := { r with acked := BitVec.ofNat 64 seq, unacked := min 255 (r.latest - seq) }
      some { s with results := Tab.set {} s.results k r2 }
  else if Bytes.num e 2 1 = 1 then
    let j := s.job origin
    if !(decide (origin < 1024) && j.active && j.win == w) then none
    else if j.seq < seq then none
    else if seq ≤ j.acked then some s
    else some (s.onJob origin fun j => { j with acked := seq })
  else none

/-- RESULT_ACK (R167, R249): 1 to 32 entries of 16 bytes; the first that is refused ends the command, and nothing of it
takes effect. -/
def State.resultAck (s : State) (w : Nat) (c : Cmd) : State :=
  let n := c.params.length
  if n = 0 ∨ n % 16 ≠ 0 ∧ n < 512 then s.finish w { status := stLenShort }
  else if n % 16 ≠ 0 then s.finish w { status := stLenLong }
  else
    let es := Bytes.chunks 16 32 c.params
    let r := es.foldl (fun (x : Except Nat State × Nat) e => match x.1 with
      | .error i => (.error i, x.2)
      | .ok t => match t.ackOne w e with
        | some t => (.ok t, x.2 + 1)
        | none => (.error x.2, x.2)) (.ok s, 0)
    match r.1 with
    | .ok t => t.finish w (.ok 0)
    | .error i => s.finish w { status := stDenied, index := i }

def execResultAck (w : Win) (s : State) : Host.Outcome State Fault Refusal :=
  actCmd (s.rbCmd w.val 0x61) (fun c s => s.resultAck w.val c) s

/-! ABORT. -/

/-- The ABORT that a slot has accepted: behind a running command, or running itself. -/
def State.abortOf (s : State) (w : Nat) : Option Cmd :=
  match (s.window w).slot.abortCmd with
  | some c => some c
  | none => s.rbCmd w 0x60

/-- Reply to the ABORT of a slot. -/
def State.finishAbort (s : State) (w : Nat) (c : Cmd) (r : Reply) : State :=
  if (s.window w).slot.abortCmd.isSome then
    let s := s.onSlotOf w fun x => { x with abortCmd := none }
    (s.writeReply w c.tag c.opcode r).onSlotOf w CmdSlot.after
  else s.finish w r

/-- A PKE job of a window's running command: ABORT of COMMAND scope leaves it (R262). -/
def Pke.hasJobOf (p : Pke) (w : Nat) : Bool := (p.queue ++ p.run.toList ++ p.suspended.toList).any fun j => j.win == some w

/-- The opcodes whose work holds PKE jobs: key exchange, evidence, tokens, and the signatures of plans, images and partners (R144, R249, R276,
R339, R365). -/
def pkeOps : List Nat := [0x11, 0x30, 0x70, 0x81, 0x91, 0x92, 0xA0]

/-- The running command of a window is a LIFECYCLE_REQUEST whose intent word is written: it cannot be ended (R263). -/
def State.intentWritten (s : State) (w : Nat) : Bool :=
  s.lc.pendingRecord.isSome && (s.window w).slot.running.any fun r => r.opcode == 0x91

/-- ABORT (R248, R262 to R264): the units ended are those the scope's target names. -/
def State.abortRow (s : State) (w : Nat) (c : Cmd) : State :=
  let scope := c.u 16 1
  let t := c.u 20 4
  let done (s : State) (n : Nat) : State := s.finishAbort w c (.ok n)
  let no (s : State) (d : Nat) : State := s.finishAbort w c (.denied d)
  if scope = 0 then
    let st := s.stream t
    if 255 < t || !st.bound then done s 0
    else if w ≠ 64 && st.win ≠ w then no s 0
    else done (s.endStream t) 1
  else if scope = 1 then
    let j := s.job t
    if 1023 < t || !j.active then done s 0
    else if w ≠ 64 && j.win ≠ w then no s 0
    else done (s.endJob t stAborted) 1
  else if scope = 2 then
    let x := s.session t
    if 16383 < t || x.state == .free then done s 0
    else if w ≠ 64 && !s.visible w t then no s 0
    else done (s.abortSession t stAborted) 1
  else if scope = 3 then
    if 64 < t then done s 0
    else if w ≠ 64 && t ≠ w then no s 0
    else if s.intentWritten t then no s 0
    else
      let k := (s.sessionsOf t).length
      let s := if (s.window t).slot.running.isSome && (t ≠ w || (s.window w).slot.abortCmd.isSome) then s.endRunning t stAborted else s
      done (s.abortVi t) k
  else if scope = 4 then
    match (s.window w).slot.running, (s.window w).slot.abortCmd with
    | some r, some _ =>
      if s.intentWritten w then no s 0
      else if pkeOps.contains r.opcode || s.pke.hasJobOf w then done (s.endRunning w stAborted) 1
      else done s 0
    | _, _ => done s 0
  else if scope = 5 then
    match (s.window w).slot.running, (s.window w).slot.abortCmd with
    | some _, some _ =>
      if s.intentWritten w then no s 0
      else if s.pke.hasJobOf w then done s 0
      else done (s.endRunning w stAborted) 1
    | _, _ => done s 0
  else no s 0

def execAbort (w : Win) (s : State) : Host.Outcome State Fault Refusal :=
  actCmd (s.abortOf w.val) (fun c s => s.abortRow w.val c) s

end Sys2Proof.Machine
end

