-- ==== Sys2Proof/Machine/PlanParse.lean ====
section
/-! DEFINITION. The plan container: its header, its directory and its sections (R111 to R127, R138, R140, R141, R438), and
the tables read from them. A failure is a check code of R145 with an entry. -/

namespace Sys2Proof.Machine

/-- A failed check: its code and the entry it names (R145, R242). -/
abbrev PlanFail := Nat × Nat

/-- The first failure of a list of checks. -/
def firstFail (l : List (Option PlanFail)) : Option PlanFail := l.findSome? id

/-- Check every entry of a table; the first that fails gives its index. -/
def checkEach {α : Type} (code : Nat) (l : List α) (ok : Nat → α → Bool) : Option PlanFail :=
  match (l.mapIdx fun i x => (i, ok i x)).find? fun r => !r.2 with
  | some r => some (code, r.1)
  | none => none


/-- A directory entry (R112). -/
structure Section where
  type : Nat
  flags : Nat
  offset : Nat
  length : Nat
  count : Nat
deriving DecidableEq, Repr

def parseSection (b : Bytes) : Section :=
  { type := Bytes.num b 0 2, flags := Bytes.num b 2 2, offset := Bytes.num b 4 4, length := Bytes.num b 8 4
    count := Bytes.num b 12 4 }

/-- The directory of a container (R111, R112). -/
def planDirectory (b : Bytes) : List Section :=
  (List.range (Bytes.num b 12 2)).map fun i => parseSection (Bytes.slice b (128 + 16 * i) 16)

/-- The bytes of a section by type; empty where the container has none. -/
def sectionBytes (b : Bytes) (type : Nat) : Bytes :=
  match (planDirectory b).find? fun d => d.type == type with
  | some d => Bytes.slice b d.offset d.length
  | none => []

def sectionCount (b : Bytes) (type : Nat) : Nat :=
  match (planDirectory b).find? fun d => d.type == type with
  | some d => d.count
  | none => 0

/-- The entries of a section whose entries have one size. -/
def sectionEntries (b : Bytes) (type size : Nat) : List Bytes :=
  let s := sectionBytes b type
  (List.range (sectionCount b type)).map fun i => Bytes.slice s (size * i) size

/-- The length of an entry of an OUTPUT section (R124) or of a PROGRAM section (R113). -/
def outputLength (b : Bytes) : Nat :=
  let f := Bytes.num b 1 1
  64 + (if Bits.bit f 6 then 512 else 0) + (if Bits.bit f 7 then 512 else 0)
def programLength (b : Bytes) : Nat := 64 + (Bytes.num b 4 4 * 8 + 63) / 64 * 64

/-- Entries of sizes that their heads give; the first argument bounds their number. -/
def varEntries (len : Bytes → Nat) : Nat → Bytes → List Bytes
  | 0, _ => []
  | n + 1, b => Bytes.slice b 0 (len b) :: varEntries len n (b.drop (len b))

def outputEntries (b : Bytes) : List Bytes := varEntries outputLength (min 256 (sectionCount b 9)) (sectionBytes b 9)
def programEntries (b : Bytes) : List Bytes := varEntries programLength (min 256 (sectionCount b 0x0C)) (sectionBytes b 0x0C)

/-! The tables. -/

def readBuffer (b : Bytes) : Buffer :=
  { base := Bytes.num b 0 4, pages := Bytes.num b 4 2, lsess := Bytes.num b 6 1, use := Bytes.num b 7 1 }

def readModel (b : Bytes) : Model :=
  { lsess := Bytes.num b 0 1, kind := Bytes.num b 1 1, actFmt := Bits.get (Bytes.num b 2 1) 0 4
    wtFmt := Bits.get (Bytes.num b 2 1) 4 4, firstWeight := Bytes.num b 4 2, nWeights := Bytes.num b 6 2
    kMax := Bytes.num b 8 4, macs := Bytes.num b 12 4 }

def readWeight (b : Bytes) : Weight :=
  { digest := BitVec.ofNat 384 (Bytes.bigNat (Bytes.slice b 0 48)), length := Bytes.num b 48 4
    model := Bytes.num b 52 2, mx := Bits.bit (Bytes.num b 54 1) 0 }

def readPlacement (b : Bytes) : Placement :=
  { model := Bytes.num b 0 2, arcade := Bytes.num b 2 1, firstRow := Bytes.num b 3 1, lastRow := Bytes.num b 4 1
    scratch := Bytes.num b 5 1 == 1, shared := Bits.bit (Bytes.num b 6 1) 0, second := Bits.bit (Bytes.num b 6 1) 1
    lsess := Bytes.num b 7 1, weight := Bytes.num b 8 2 }

def word64 (b : Bytes) (o : Nat) : Word := BitVec.ofNat 64 (Bytes.num b o 8)
def word32 (b : Bytes) (o : Nat) : BitVec 32 := BitVec.ofNat 32 (Bytes.num b o 4)

def readSource (b : Bytes) : PlanSource :=
  { source := Bytes.num b 0 1, lambda := Bytes.num b 2 2, cfg := word64 b 8, gain := word64 b 16, lim := word64 b 24 }

def readCalendar (b : Bytes) : Calendar :=
  let base := Bytes.num b 2 1
  let fl := Bytes.num b 3 1
  { cs := Bytes.num b 0 2, phase := Bits.get base 0 2 == 2, source := Bits.get base 4 4, timed := Bits.bit fl 0
    phaseRelease := Bits.bit fl 1, nOrPitch := Bytes.num b 4 4, anchor := Bytes.num b 8 4
    startDelay := Bytes.num b 12 4, release := Bytes.num b 16 4, budget := Bytes.num b 20 4
    standstillPitch := Bytes.num b 24 4, model := Bytes.num b 28 2, input := Bytes.num b 30 2
    inputSecond := Bytes.num b 32 2, windowBytes := Bytes.num b 34 2 }

def readIntegrity (b : Bytes) : Integrity :=
  { target := Bytes.num b 0 2, isModel := Bytes.num b 2 1 == 1, fraction := Bytes.num b 3 1
    partner := Bits.bit (Bytes.num b 4 1) 0, checkers := BitVec.ofNat 16 (Bytes.num b 6 2) }

def readReceipt (b : Bytes) : ReceiptEntry :=
  { target := Bytes.num b 0 2, isModel := Bytes.num b 2 1 == 1, payloadBytes := Bytes.num b 4 2
    payloadFmt := Bytes.num b 6 1, every := Bytes.num b 8 4 }

/-- A vector of 128 values of 4 bytes. -/
def readVector (b : Bytes) (o : Nat) : List (BitVec 32) := (List.range 128).map fun i => word32 b (o + 4 * i)

def readOutput (b : Bytes) : OutDesc :=
  let f := Bytes.num b 1 1
  let bias := Bits.bit f 6
  { fmt := Bits.get (Bytes.num b 0 1) 0 4, rounding := Bits.get f 0 2, satMode := Bits.bit f 2, act := Bits.get f 4 2
    cols := Bytes.num b 2 1 + 1, sh := Bytes.num b 3 1, arcades := BitVec.ofNat 16 (Bytes.num b 4 2)
    lut := Bytes.num b 6 2, scale := word32 b 8, zeroPoint := word32 b 12, lo := word32 b 16, hi := word32 b 20
    bias := if bias then readVector b 64 else []
    scaleVec := if Bits.bit f 7 then readVector b (if bias then 576 else 64) else [] }

def readLut (b : Bytes) : Lut :=
  { lo := word32 b 0, hi := word32 b 4, wInv := word32 b 8, arcades := BitVec.ofNat 16 (Bytes.num b 12 2)
    coeffs := (List.range 768).map fun i => word32 b (16 + 4 * i) }

def readReduction (b : Bytes) : Reduction :=
  let parts := Bytes.num b 1 1
  { dest := Bytes.num b 0 1, parts := parts, recvRow := Bytes.num b 2 1, rows := Bytes.num b 3 1
    digest := Bits.bit (Bytes.num b 4 1) 0
    sources := (List.range 15).map fun i => Bits.get (Bytes.num b 8 8) (4 * i) 4 }

def readProgram (b : Bytes) : Program :=
  { arcade := Bytes.num b 0 1, control := Bits.bit (Bytes.num b 1 1) 0, accFirst := Bytes.num b 2 1
    accLast := Bytes.num b 3 1, words := (List.range (min 5633 (Bytes.num b 4 4))).map fun i => word64 b (64 + 8 * i) }

def readSchedule (b : Bytes) : Schedule :=
  { trigger := Bytes.num b 0 2, kind := Bytes.num b 2 1, arcade := Bytes.num b 3 1, program := Bytes.num b 4 2
    region := Bytes.num b 6 2, ads := (List.range 4).map fun i => Bytes.num b (8 + 2 * i) 2
    lsess := Bytes.num b 16 1, ckJob := Bits.bit (Bytes.num b 17 1) 0 }

def readRemote (b : Bytes) : Remote :=
  { reduction := Bytes.num b 0 2, mask := BitVec.ofNat 16 (Bytes.num b 2 2), destRemote := Bits.bit (Bytes.num b 4 1) 0 }

def readNotify (b : Bytes) : NotifyEntry :=
  let base := Bytes.num b 0 1
  { phase := Bits.get base 0 2 == 2, source := Bits.get base 4 4, offset := Bytes.num b 1 1
    periodic := Bits.bit (Bytes.num b 2 1) 0, nOrPitch := Bytes.num b 4 4, anchor := Bytes.num b 8 4 }

/-- Sections whose tables take room in the plan-table pool (R143). -/
def poolTypes : List Nat := [1, 2, 3, 4, 5, 6, 7, 8, 0x0B, 0x0E, 0x0F]

def planPoolKiB (b : Bytes) : Nat :=
  ((((planDirectory b).filter fun d => poolTypes.contains d.type).map (·.length)).sum + 1023) / 1024

/-- The sections that go into the pool, one behind the other (R143). -/
def poolTables (b : Bytes) : Bytes :=
  (((planDirectory b).filter fun d => poolTypes.contains d.type).map fun d => Bytes.slice b d.offset d.length).flatten

/-- The start of the SIGNATURE section (R112, R144). -/
def signatureOffset (b : Bytes) : Nat :=
  match (planDirectory b).getLast? with
  | some d => d.offset
  | none => b.length

/-- The plan that a container holds. -/
def parsePlan (b : Bytes) : Plan :=
  let sg := b.drop (signatureOffset b)
  { arcades := BitVec.ofNat 16 (Bytes.num b 14 2), sourceMask := BitVec.ofNat 16 (Bytes.num b 44 2)
    planId := BitVec.ofNat 128 (Bytes.num b 16 16)
    measurement := Config.sha384 (b.take (signatureOffset b))
    author := Config.sha384 (Bytes.slice sg 4 2048)
    poolKiB := planPoolKiB b
    buffers := (sectionEntries b 1 16).map readBuffer
    models := (sectionEntries b 2 32).map readModel
    weights := (sectionEntries b 3 64).map readWeight
    placements := (sectionEntries b 4 16).map readPlacement
    sources := (sectionEntries b 5 32).map readSource
    calendars := (sectionEntries b 6 64).map readCalendar
    integrity := (sectionEntries b 7 16).map readIntegrity
    receipts := (sectionEntries b 8 16).map readReceipt
    outputs := (outputEntries b).map readOutput
    luts := (sectionEntries b 0x0A 3136).map readLut
    reductions := (sectionEntries b 0x0B 16).map readReduction
    programs := (programEntries b).map readProgram
    schedules := (sectionEntries b 0x0D 32).map readSchedule
    remotes := (sectionEntries b 0x0E 16).map readRemote
    notifies := (sectionEntries b 0x0F 16).map readNotify }

/-- The signatures of a container, of the one scheme that R144 defines, verify over its measurement. -/
def planSigned (b : Bytes) : Bool :=
  let sg := b.drop (signatureOffset b)
  let m := Bytes.big (Config.sha384 (b.take (signatureOffset b)))
  Bytes.num sg 0 2 == 1 && Config.ecdsaVerify (Bytes.slice sg 4 96) m (Bytes.slice sg 2052 96)
    && Config.mldsaVerify 65 (Bytes.slice sg 100 1952) m (Bytes.slice sg 2148 3309)

end Sys2Proof.Machine
end

