-- ==== Sys2Proof/Machine/PlanChecks.lean ====
section
/-! DEFINITION. The plan checks that PLAN_LOAD makes: codes 0x01 to 0x0C of R145. Where several fail, the order is that of
the sections, and then of the codes (log entry 14). -/

namespace Sys2Proof.Machine

/-- Type, entry size (0 where entries vary), least and most entries (R113). -/
def sectionTypes : List (Nat × Nat × Nat × Nat) :=
  [(1, 16, 1, 1024), (2, 32, 1, 1024), (3, 64, 0, 1024), (4, 16, 0, 1024), (5, 32, 0, 16), (6, 64, 0, 256),
   (7, 16, 0, 512), (8, 16, 0, 512), (9, 0, 0, 256), (0x0A, 3136, 0, 16), (0x0B, 16, 0, 256), (0x0C, 0, 1, 256),
   (0x0D, 32, 1, 4096), (0x0E, 16, 0, 256), (0x0F, 16, 0, 64), (0xFFFF, 5504, 1, 1)]

/-- The container's magic (R111). -/
def planMagic (b : Bytes) : Bool := Bytes.num b 0 4 == 0x4B504C4E

/-- The rest of the header (R111, R145). -/
def headerOk (b : Bytes) : Bool :=
  Bytes.num b 6 2 == 128 && decide (2 ≤ Bytes.num b 12 2) && decide (Bytes.num b 12 2 ≤ 32)
    && allZero b 46 82

/-- The end of the entries of a section of varying entries. -/
def varLength (len : Bytes → Nat) (n : Nat) (b : Bytes) : Nat := ((varEntries len n b).map (·.length)).sum

/-- A directory entry agrees with its section (R112, R113). -/
def sectionOk (b : Bytes) (d : Section) : Bool :=
  match sectionTypes.find? fun t => t.1 == d.type with
  | none => true
  | some t =>
    decide (t.2.2.1 ≤ d.count) && decide (d.count ≤ t.2.2.2) && (
      if d.type = 9 then decide (varLength outputLength d.count (Bytes.slice b d.offset d.length) = d.length)
      else if d.type = 0x0C then decide (varLength programLength d.count (Bytes.slice b d.offset d.length) = d.length)
      else decide (d.length = t.2.1 * d.count))

/-- The bytes from an end of the directory or of a section to the next section that holds any are zero (R111). -/
def gapZero (b : Bytes) (p : Nat) : Bool :=
  let next := (((planDirectory b).filter fun d => d.length != 0).map (·.offset)).foldl (fun n o => if p ≤ o then min n o else n) b.length
  allZero b p (next - p)

def directoryEnd (b : Bytes) : Nat := 128 + 16 * Bytes.num b 12 2

/-- A section shares a byte with another. -/
def Section.meets (d e : Section) : Bool := decide (d.offset < e.offset + e.length) && decide (e.offset < d.offset + d.length)

/-- The directory (R111, R112): order, alignment, bounds, zeros between sections, the signature last. -/
def directoryFail (b : Bytes) : Option PlanFail :=
  let ds := planDirectory b
  let types := ds.map (·.type)
  firstFail [
    (if directoryEnd b ≤ b.length then none else some (0x02, 0)),
    checkEach 0x02 ds fun i d =>
      decide (d.offset % 64 = 0) && decide (directoryEnd b ≤ d.offset) && decide (d.offset + d.length ≤ b.length)
        && (i == 0 || decide (types.getD (i - 1) 0 < d.type)) && decide (d.flags < 2)
        && !(ds.take i).any d.meets && sectionOk b d,
    (if gapZero b (directoryEnd b) then none else some (0x02, 0)),
    checkEach 0x02 ds fun _ d => gapZero b (d.offset + d.length),
    (match ds.getLast? with
    | some d => if d.type = 0xFFFF && d.offset + d.length = b.length then none else some (0x02, ds.length - 1)
    | none => some (0x02, 0)),
    (if [1, 2, 0x0C, 0x0D].all types.contains then none else some (0x02, 0)),
    checkEach 0x03 ds fun _ d => sectionTypes.any (fun t => t.1 == d.type) || Bits.bit d.flags 0]

/-! Reserved bytes of table entries (R145): each list names the offsets and lengths that must be zero. -/

def zeroAt (l : List (Nat × Nat)) (b : Bytes) : Bool := l.all fun r => allZero b r.1 r.2

def bitsIn (mask : Nat) (b : Bytes) (o : Nat) : Bool := Bytes.num b o 1 == Nat.land (Bytes.num b o 1) mask

def reservedFail (b : Bytes) : Option PlanFail :=
  let each (type size : Nat) (ok : Bytes → Bool) : Option PlanFail :=
    checkEach 0x07 (sectionEntries b type size) fun _ e => ok e
  firstFail [
    each 1 16 (zeroAt [(8, 8)]),
    each 2 32 (zeroAt [(3, 1), (16, 16)]),
    each 3 64 (fun e => zeroAt [(55, 9)] e && bitsIn 1 e 54),
    each 4 16 (fun e => zeroAt [(10, 6)] e && bitsIn 3 e 6 && decide (Bytes.num e 5 1 ≤ 1)),
    each 5 32 (fun e => zeroAt [(1, 1), (4, 4), (29, 3)] e && bitsIn 0xF3 e 8 && bitsIn 7 e 28),
    each 6 64 (fun e => zeroAt [(36, 28)] e && bitsIn 0xF3 e 2 && bitsIn 3 e 3
      && (Bits.get (Bytes.num e 2 1) 0 2 == 1 || Bits.get (Bytes.num e 2 1) 0 2 == 2)),
    each 7 16 (fun e => zeroAt [(5, 1), (8, 8)] e && bitsIn 1 e 4 && decide (Bytes.num e 2 1 ≤ 1)),
    each 8 16 (fun e => zeroAt [(3, 1), (7, 1), (12, 4)] e && decide (Bytes.num e 2 1 ≤ 1)),
    checkEach 0x07 (outputEntries b) (fun _ e => zeroAt [(24, 40)] e && bitsIn 0x0F e 0 && bitsIn 0xF7 e 1),
    each 0x0A 3136 (zeroAt [(14, 2), (3088, 48)]),
    each 0x0B 16 (fun e => zeroAt [(5, 3)] e && bitsIn 1 e 4 && decide (Bytes.num e 8 8 < 2 ^ 60)),
    checkEach 0x07 (programEntries b) (fun _ e => zeroAt [(8, 56), (64 + 8 * Bytes.num e 4 4, e.length - 64 - 8 * Bytes.num e 4 4)] e
      && bitsIn 1 e 1),
    each 0x0D 32 (fun e => zeroAt [(18, 14)] e && bitsIn (if Bytes.num e 2 1 = 3 then 1 else 0) e 17),
    each 0x0E 16 (fun e => zeroAt [(5, 11)] e && bitsIn 1 e 4),
    each 0x0F 16 (fun e => zeroAt [(3, 1), (12, 4)] e && bitsIn 0xF3 e 0 && bitsIn 1 e 2
      && (Bits.get (Bytes.num e 0 1) 0 2 == 1 || Bits.get (Bytes.num e 0 1) 0 2 == 2)),
    each 0xFFFF 5504 (zeroAt [(2, 2), (5457, 47)])]

/-! Tables. -/

/-- A format code serves as output (R50). -/
def outputFormat (f : Nat) : Bool := decide (f ≤ 0xE) && f != 0xD

/-- An Arcade of the plan's arcades mask. -/
def Plan.hasArc (p : Plan) (a : Nat) : Bool := decide (a < 16) && p.arcades.getLsbD a

def Buffer.first (b : Buffer) : Nat := b.base / 1024

/-- The buffer overlaps one before it. -/
def Plan.overlaps (p : Plan) (i : Nat) (b : Buffer) : Bool :=
  (p.buffers.take i).any fun c => decide (b.first < c.first + c.pages) && decide (c.first < b.first + b.pages)

def Model.mode (m : Model) : Option Mode := Mode.ofPair m.actFmt m.wtFmt

/-- The manual refuses an Arcade outside the arcades mask (R145); that a buffer's segment is the segment of an Arcade, and so
must lie in the mask too, is DEDUCED (log entry 91). -/
def Plan.bufferFail (p : Plan) : Option PlanFail :=
  checkEach 0x07 p.buffers fun i b =>
    decide (b.base % 1024 = 0) && decide (b.base < 2 ^ 26) && decide (1 ≤ b.pages) && decide (b.pages ≤ 4096)
      && decide (b.first % 4096 + b.pages ≤ 4096) && decide (b.lsess < 64) && decide (b.use < 4)
      && p.hasArc (b.first / 4096) && !p.overlaps i b

def Plan.modelFail (p : Plan) : Option PlanFail :=
  firstFail [
    checkEach 0x07 p.models fun _ m =>
      decide (m.lsess < 64) && decide (m.kind < 2) && decide (m.firstWeight + m.nWeights ≤ p.weights.length),
    checkEach 0x04 p.models fun _ m => match m.mode with
      | none => false
      | some k => !k.isMx || decide (m.kMax % 32 = 0),
    checkEach 0x0A p.models fun _ m => match m.mode with
      | some k => !k.isInt || decide (m.kMax ≤ 2 ^ 24)
      | none => true]

def Weight.rowBytes (w : Weight) : Nat := if w.mx then 8704 else 8192

def Plan.weightFail (p : Plan) : Option PlanFail :=
  firstFail [
    checkEach 0x07 p.weights fun i w =>
      decide (0 < w.length) && decide (w.length % w.rowBytes = 0) && (match p.models[w.model]? with
        | some m => decide (m.firstWeight ≤ i) && decide (i < m.firstWeight + m.nWeights)
        | none => false),
    checkEach 0x04 p.weights fun _ w => match p.models[w.model]? with
      | some m => (match m.mode with
        | some k => k.isMx == w.mx
        | none => false)
      | none => false]

def Placement.rows (x : Placement) : Nat := x.lastRow + 1 - x.firstRow

def Plan.placementFail (p : Plan) : Option PlanFail :=
  firstFail [
    checkEach 0x07 p.placements fun _ x =>
      decide (x.model < p.models.length) && p.hasArc x.arcade && decide (x.firstRow ≤ x.lastRow) && decide (x.lsess < 64)
        && (if x.scratch then !x.shared else (match p.weights[x.weight]? with
          | some w => w.model == x.model
          | none => false)),
    checkEach 0x0C p.placements fun i x => decide (((p.placements.take (i + 1)).filter fun y => y.arcade == x.arcade).length ≤ 64),
    checkEach 0x0B p.placements fun _ x => x.scratch || (match p.weights[x.weight]? with
      | some w => w.length == x.rows * w.rowBytes
      | none => true),
    checkEach 0x0B p.placements fun _ x => !x.second || p.placements.any fun y =>
      !y.second && y.scratch == x.scratch && y.model == x.model && (x.scratch || y.weight == x.weight) && y.rows == x.rows
        && y.arcade / 4 != x.arcade / 4]

def Plan.hasSource (p : Plan) (n : Nat) : Bool := decide (n < 16) && p.sourceMask.getLsbD n

/-- The calendar table states no kind for the model it names and does not say that a stream has one calendar at most: the model
takes CONTROL, which R116 sets against BULK, and one entry for a stream, whose one INPUT_CLOSE entry it makes (DESIGN CHOICE,
log entry 91). -/
def Plan.timeFail (p : Plan) : Option PlanFail :=
  firstFail [
    checkEach 0x07 p.sources fun i x => p.hasSource x.source && !(p.sources.take i).any fun y => y.source == x.source,
    checkEach 0x07 p.calendars fun i c =>
      decide (c.cs < 256) && !(p.calendars.take i).any (fun d => d.cs == c.cs)
        && (if c.phase then p.hasSource c.source && decide (c.nOrPitch < 2 ^ 16) else !c.phaseRelease)
        && decide (c.input < p.buffers.length) && (c.inputSecond == 0xFFFF || decide (c.inputSecond < p.buffers.length))
        && (match p.models[c.model]? with
          | some m => m.kind == 0
          | none => false),
    checkEach 0x07 p.notifies fun _ n =>
      decide (n.offset < 32) && (!n.phase || (p.hasSource n.source && decide (n.nOrPitch < 2 ^ 16)))]

/-- The BULK model that a JOB entry runs (R123, R140). -/
def Plan.jobModel (p : Plan) (x : Schedule) : Option Nat :=
  match p.placements[x.region]? with
  | some y => (match p.models[y.model]? with
    | some m => if m.kind = 1 then some y.model else none
    | none => none)
  | none => none

def Plan.targetFail (p : Plan) : Option PlanFail :=
  let known (isModel : Bool) (t : Nat) : Bool := if isModel then decide (t < p.models.length) else decide (t < 256)
  let one (isModel : Bool) (t : Nat) : Bool := (p.receipts.filter fun r => r.isModel == isModel && r.target == t).length == 1
  firstFail [
    checkEach 0x07 p.integrity fun _ e =>
      known e.isModel e.target && decide (e.fraction < 6) && e.checkers &&& ~~~p.arcades == 0,
    checkEach 0x07 p.receipts fun _ r =>
      known r.isModel r.target && decide (16 ≤ r.payloadBytes) && decide (r.payloadBytes ≤ 1024)
        && decide (r.payloadBytes % 16 = 0) && (r.every == 0 || decide (1024 ≤ r.every) && decide (r.every ≤ 2 ^ 24)),
    checkEach 0x04 p.receipts fun _ r => outputFormat r.payloadFmt,
    checkEach 0x07 p.calendars fun _ c => one false c.cs,
    checkEach 0x07 p.schedules fun _ x => x.kind != 2 || (match p.jobModel x with
      | some m => one true m
      | none => true)]

/-- The parameter store of an Arcade holds the descriptors and LUTs placed on it (R125). -/
def Plan.paramBytes (p : Plan) (a : Nat) : Nat :=
  ((p.outputs.filter fun d => d.arcades.getLsbD a).map fun d =>
      64 + (if d.bias.isEmpty then 0 else 512) + (if d.scaleVec.isEmpty then 0 else 512)).sum
    + 3136 * (p.luts.filter fun l => l.arcades.getLsbD a).length

def Plan.outputFail (p : Plan) : Option PlanFail :=
  firstFail [
    checkEach 0x04 p.outputs fun _ d => outputFormat d.fmt && (!isMxOut d.fmt || decide (d.cols % 32 = 0)),
    checkEach 0x07 p.outputs fun _ d =>
      decide (d.cols ≤ 128) && decide (d.sh < 64) && d.arcades &&& ~~~p.arcades == 0
        && (if d.lut = 0xFFFF then d.act != 3 else decide (d.lut < p.luts.length)),
    checkEach 0x07 p.luts fun _ l => l.arcades &&& ~~~p.arcades == 0 && (F32.val l.lo).lt (F32.val l.hi),
    checkEach 0x0C (List.range 16) fun _ a => decide (p.paramBytes a ≤ 32768)]

/-- What the sources nibbles of absent parts hold is not said: zero, as a reserved field (R126, R145; DESIGN CHOICE, log entry
91). -/
def Plan.reductionFail (p : Plan) : Option PlanFail :=
  firstFail [
    checkEach 0x07 p.remotes fun i x =>
      !(p.remotes.take i).any (fun y => y.reduction == x.reduction) && (match p.reductions[x.reduction]? with
        | some r => !x.mask.getLsbD 0 && decide (x.mask.toNat < 2 ^ r.parts)
        | none => false),
    checkEach 0x07 p.reductions fun i r =>
      decide (2 ≤ r.parts) && decide (r.parts ≤ 16) && decide (0 < r.rows) && decide (r.recvRow < 128)
        && (p.destRemote i || p.hasArc r.dest)
        && (List.range 15).all fun k =>
          if k + 1 < r.parts then p.partRemote i (k + 1) || p.hasArc (r.sources.getD k 0) else r.sources.getD k 0 == 0,
    checkEach 0x08 p.reductions fun _ r => decide (r.recvRow + r.parts * r.rows ≤ 128)]

/-! Programs. -/

/-- The instructions of a program in the order of its words, with the word of each; none where one does not decode. The
first argument bounds their number. -/
def decodeAll : Nat → Nat → List Word → Option (List (Nat × TileInstr))
  | 0, _, _ => some []
  | _, _, [] => some []
  | n + 1, pc, ws =>
    match decodeWords ws with
    | none => none
    | some (i, k) => (decodeAll n (pc + k) (ws.drop k)).map fun r => (pc, i) :: r

/-- Loops match and nest to depth 4, and BOUND stands at depth 0 or first in a loop body (R133, R137). The state is the
depth and whether the last instruction was LOOP. -/
def loopsMatch : Nat → Bool → List TileInstr → Bool
  | d, _, [] => d == 0
  | d, first, i :: r =>
    match i with
    | .loop _ => decide (d < 4) && loopsMatch (d + 1) true r
    | .endl => decide (0 < d) && loopsMatch (d - 1) false r
    | .bound => (d == 0 || first) && loopsMatch d false r
    | _ => loopsMatch d false r

/-- A TILE's formats pair in R58, and an MX one has no fan of 16 (R58, R80). -/
def TileInstr.pairs : TileInstr → Bool
  | .tile act wt fan .. => (match Mode.ofPair act wt with
    | some m => !(m.isMx && fan == 4)
    | none => false)
  | _ => true

def Plan.programFail (p : Plan) : Option PlanFail :=
  firstFail [
    checkEach 0x07 p.programs fun _ x => p.hasArc x.arcade,
    checkEach 0x08 p.programs fun i x =>
      decide (x.accFirst ≤ x.accLast) && decide (x.accLast < 128) && !(p.programs.take i).any fun y =>
        y.arcade == x.arcade && decide (x.accFirst ≤ y.accLast) && decide (y.accFirst ≤ x.accLast),
    checkEach 0x0C p.programs fun i x =>
      decide ((((p.programs.take (i + 1)).filter fun y => y.arcade == x.arcade).map fun y => y.words.length).sum ≤ 5632),
    checkEach 0x04 p.programs fun _ x => match decodeAll x.words.length 0 x.words with
      | some l => l.all fun r => r.2.pairs
      | none => true,
    checkEach 0x05 p.programs fun _ x => (decodeAll x.words.length 0 x.words).isSome,
    checkEach 0x06 p.programs fun _ x => match decodeAll x.words.length 0 x.words with
      | some l => loopsMatch 0 false (l.map (·.2))
      | none => true]

/-- The entry whose work a CHECKER entry checks: that of its stream or its job with its program (R141). -/
def Plan.checkedBy (p : Plan) (x : Schedule) : Option Schedule :=
  p.schedules.find? fun y => y.kind == (if x.ckJob then 2 else 0) && y.trigger == x.trigger && p.sameProgram y.program x.program

def Plan.scheduleFail (p : Plan) : Option PlanFail :=
  firstFail [
    checkEach 0x07 p.schedules fun _ x =>
      decide (x.kind < 4) && p.hasArc x.arcade && decide (x.lsess < 64)
        && (match p.programs[x.program]? with
          | some g => g.arcade == x.arcade
          | none => false)
        && (x.region == 0xFFFF || (match p.placements[x.region]? with
          | some y => y.arcade == x.arcade
          | none => false))
        && x.ads.all (fun k => k == 0xFFFF || decide (k < p.buffers.length))
        && (decide (2 ≤ x.kind) || decide (x.trigger < 256)),
    checkEach 0x05 p.schedules fun _ x => x.kind != 3 || (
      if x.ckJob then p.schedules.any fun y => y.kind == 2 && y.trigger == x.trigger
      else p.calendars.any fun c => c.cs == x.trigger),
    checkEach 0x0C p.schedules fun i x => decide (((p.schedules.take (i + 1)).filter fun y => y.arcade == x.arcade).length ≤ 256)]

/-! The evaluation of a program in full (R145). -/

/-- The state of an evaluation: the position, the address registers, the open loops, the accumulator rows that are not void, the
integer K-elements of each output that the entries of a row hold, void or not (R66, R128), and those in the rows that were sent, by
part and row. -/
structure Eval where
  pc : Nat := 0
  ads : List (BitVec 32)
  loops : List (Nat × Nat) := []
  rows : Tab Bool := []
  counts : Tab Nat := []
  sends : Tab Nat := []

/-- A row of a part of a reduction. -/
def sentKey (rdesc part row : Nat) : Nat := (rdesc * 16 + part) * 128 + row

/-- What a schedule entry binds: its Arcade, program, buffers, region, the SCRATCH rows of its Arcade and the payload
bytes of its record. -/
structure Bound where
  arcade : Nat
  prog : Program
  bufs : List Buffer
  region : Option Placement
  scratch : List (Nat × Nat)
  payload : Nat
  sent : Tab Nat := []

/-- The payload length of a schedule entry's record (R123): that of its stream, or of its job's model. -/
def Plan.payloadBytes (p : Plan) (x : Schedule) : Nat :=
  let of (isModel : Bool) (t : Nat) : Nat :=
    match p.receiptOf t isModel with
    | some r => r.payloadBytes
    | none => 0
  let job (y : Schedule) : Nat := match p.placements[y.region]? with
    | some z => of true z.model
    | none => 0
  if x.kind < 2 || (x.kind == 3 && !x.ckJob) then of false x.trigger
  else if x.kind = 2 then job x
  else match p.checkedBy x with
    | some y => job y
    | none => 0

def Plan.boundOf (p : Plan) (x : Schedule) : Option Bound :=
  match p.programs[x.program]? with
  | none => none
  | some g => some {
      arcade := x.arcade, prog := g
      bufs := x.ads.filterMap fun k => p.buffers[k]?
      region := p.placements[x.region]?
      scratch := (p.placements.filter fun y => y.scratch && y.arcade == x.arcade).map fun y => (y.firstRow, y.lastRow)
      payload := p.payloadBytes x }

/-- A line lies in a bound buffer, and in the Arcade's own segment on the direct path (R92, R145). -/
def Bound.line (b : Bound) (own : Bool) (addr : Nat) : Bool :=
  b.bufs.any fun x => x.holds addr && (!own || x.base / 2 ^ 22 == b.arcade)

def Bound.rowsIn (b : Bound) (row n : Nat) : Bool := decide (b.prog.accFirst ≤ row) && decide (row + n ≤ b.prog.accLast + 1)

/-- Rows row to row + n − 1 are not void. -/
def Eval.live (e : Eval) (row n : Nat) : Bool := (List.range n).all fun k => Tab.get false e.rows (row + k)

/-- The integer K-elements in a row's entries. -/
def Eval.count (e : Eval) (row : Nat) : Nat := Tab.get 0 e.counts row

def Eval.address (e : Eval) (k : Nat) : Nat := (e.ads.getD k 0).toNat

/-- A TILE step's row receives n elements: none where the row is void and not cleared (R128). -/
def Eval.accumulate (e : Eval) (row n : Nat) (int clear : Bool) : Option Eval :=
  if clear || Tab.get false e.rows row then
    some { e with rows := Tab.set false e.rows row true
                  counts := Tab.set 0 e.counts row ((if clear then 0 else e.count row) + if int then n else 0) }
  else none

/-- A row holds more integer elements than R66 allows. -/
def Eval.over (e : Eval) (row : Nat) : Bool := decide (2 ^ 24 < e.count row)

/-- The lines that row n of an OUT takes at its destination. -/
def OutDesc.lineCount (d : OutDesc) : Nat := (d.cols * codeWidth d.fmt + 511) / 512 + (if isMxOut d.fmt then 1 else 0)

/-- The bytes of a row in a record (R132, log entry 89). -/
def OutDesc.recordLen (d : OutDesc) : Nat :=
  ((d.cols * codeWidth d.fmt + 7) / 8 + (if isMxOut d.fmt then d.cols / 32 else 0) + 15) / 16 * 16

/-- One TILE of an evaluation: the code of the check it fails, or the state after it. -/
def evalTile (b : Bound) (e : Eval) (t : TileOp) : Except Nat Eval :=
  match Mode.ofPair t.act t.wt with
  | none => .error 0x04
  | some m =>
    if m.isMx && t.fan == 4 then .error 0x04
    else
      match b.region with
      | none => .error 0x09
      | some g =>
        let steps := List.range t.steps
        if !b.rowsIn t.accRow (t.steps / t.kpr) then .error 0x08
        else if !steps.all fun i => (t.reads m e.address i).all (b.line true) then .error 0x09
        else if !steps.all fun i => decide (g.firstRow + t.subtile i / t.subsPerRow m ≤ g.lastRow) then .error 0x09
        else
          let r := steps.foldl (fun (x : Option Eval) i =>
            x.bind fun e => e.accumulate (t.row i) m.kgroup m.isInt (t.clear && decide (i % t.kpr = 0))) (some e)
          match r with
          | none => .error 0x0A
          | some e => if steps.any fun i => e.over (t.row i) then .error 0x0A else .ok e

/-- One OUT of an evaluation (R132). -/
def evalOut (p : Plan) (b : Bound) (e : Eval) (accRow rows odesc dstAd dst stride : Nat) : Except Nat Eval :=
  match p.outputs[odesc]? with
  | none => .error 0x07
  | some d =>
    let base := e.address dstAd
    let ok (n : Nat) : Bool :=
      if dst = 0 then (List.range d.lineCount).all fun k => b.line true (base / 64 * 64 + 64 * (n * stride + k))
      else if dst = 1 then
        let lo := base / 64 * 64 + 64 * n * stride
        let hi := lo + 64 * d.lineCount - 1
        decide (hi < 2 ^ 21) && b.scratch.any fun r => decide (r.1 ≤ lo / 8192) && decide (hi / 8192 ≤ r.2)
      else decide (base + 16 * n * stride + d.recordLen ≤ b.payload)
    if !d.arcades.getLsbD b.arcade then .error 0x07
    else if !b.rowsIn accRow rows then .error 0x08
    else if !e.live accRow rows then .error 0x0A
    else if !(List.range rows).all ok then .error 0x09
    else .ok e

/-- One instruction of an evaluation, of n words. A SEND of another number of rows than its reduction descriptor's is refused with code
0x07, for which the manual gives no rule (DESIGN CHOICE, log entry 104). -/
def evalInstr (p : Plan) (b : Bound) (e : Eval) (i : TileInstr) (n : Nat) : Except Nat Eval :=
  let go (e : Eval) : Except Nat Eval := .ok { e with pc := e.pc + n }
  match i with
  | .nop | .wait .. | .tend => go e
  | .tile act wt fan accRow clear ad steps kpr t0 aR aK aG wR wK sK sR =>
    let t : TileOp := { act := act, wt := wt, fan := fan, accRow := accRow, clear := clear, ad := ad, steps := steps
                        kpr := kpr, t0 := t0, aR := aR, aK := aK, aG := aG, wR := wR, wK := wK, sK := sK, sR := sR }
    (evalTile b e t).bind go
  | .out accRow rows odesc dstAd dst stride => (evalOut p b e accRow rows odesc dstAd dst stride).bind go
  | .seta ad src add imm => go { e with ads := e.ads.set ad (if add then e.ads.getD src 0 + imm else imm) }
  | .loop count => go { e with loops := (e.pc + n, count) :: e.loops }
  | .endl =>
    match e.loops with
    | (start, left) :: r =>
      if 1 < left then .ok { e with pc := start, loops := (start, left - 1) :: r } else go { e with loops := r }
    | [] => .error 0x06
  | .send accRow rows rdesc part dg =>
    match p.reductions[rdesc]? with
    | none => .error 0x07
    | some r =>
      if part < r.parts ∧ !p.partRemote rdesc part ∧ r.sources.getD (part - 1) 0 = b.arcade ∧ dg = r.digest ∧ rows = r.rows then
        if !b.rowsIn accRow rows then .error 0x08
        else if !e.live accRow rows then .error 0x0A
        else
          go { e with sends := (List.range rows).foldl (fun t k =>
            Tab.upd 0 t (sentKey rdesc part k) fun m => max m (e.count (accRow + k))) e.sends }
      else .error 0x07
  | .comb rdesc =>
    match p.reductions[rdesc]? with
    | none => .error 0x07
    | some r =>
      if r.dest ≠ b.arcade || p.destRemote rdesc then .error 0x07
      else if !b.rowsIn r.recvRow (r.parts * r.rows) then .error 0x08
      else
        let total (k : Nat) : Nat := ((List.range r.parts).map fun q => Tab.get 0 b.sent (sentKey rdesc q k)).sum
        let rows := List.range r.rows
        let e := { e with
          counts := rows.foldl (fun t k => Tab.upd 0 t (r.recvRow + k) fun m => m + total k) e.counts
          rows := rows.foldl (fun t k => Tab.set false t (r.recvRow + k) true) e.rows }
        if (List.range r.rows).any fun k => e.over (r.recvRow + k) then .error 0x0A else go e
  | .signal a _ => if p.hasArc a then go e else .error 0x07
  | .move srcAd dstAd lines =>
    let at0 (k : Nat) : Bool := (List.range lines).all fun j => b.line false (e.address k / 64 * 64 + 64 * j)
    if at0 srcAd && at0 dstAd then go e else .error 0x09
  | .bound => go { e with rows := [] }

/-- Evaluate to the END of the run; the first argument bounds the instructions (R133). -/
def evalRun (p : Plan) (b : Bound) : Nat → Eval → Except Nat Eval
  | 0, _ => .error 0x06
  | n + 1, e =>
    match decodeWords (b.prog.words.drop e.pc) with
    | none => .error (if b.prog.words.length ≤ e.pc then 0x06 else 0x05)
    | some (.tend, _) => .ok e
    | some (i, k) => match evalInstr p b e i k with
      | .error c => .error c
      | .ok e => evalRun p b n e

/-- The evaluation of a schedule entry with the addresses it binds (R140, R145), the elements that parts carry given. -/
def Plan.evalEntry (p : Plan) (sent : Tab Nat) (x : Schedule) : Except Nat (Tab Nat) :=
  match p.boundOf x with
  | none => .ok []
  | some b =>
    let ads : List (BitVec 32) := (x.ads.map fun k => match p.buffers[k]? with
      | some y => BitVec.ofNat 32 y.base
      | none => 0) ++ List.replicate 12 0
    (evalRun p { b with sent := sent } runLimit { ads := ads }).map fun e => e.sends

/-- The evaluation of every schedule entry: the first failure, and the elements that the SENDs of all the programs carry. -/
def Plan.evalPass (p : Plan) (sent : Tab Nat) : Option PlanFail × Tab Nat :=
  (p.schedules.mapIdx fun i x => (i, x)).foldl (fun r x =>
    match p.evalEntry sent x.2 with
    | .error c => (r.1.or (some (c, x.1)), r.2)
    | .ok t => (r.1, t.foldl (fun t e => Tab.upd 0 t e.1 (max e.2)) r.2)) (none, [])

/-- The evaluation, repeated until the elements that parts carry from program to program stand. -/
def Plan.evalPasses (p : Plan) : Nat → Tab Nat → Option PlanFail
  | 0, sent => (p.evalPass sent).1
  | n + 1, sent =>
    let r := p.evalPass sent
    if r.2 = sent then r.1 else p.evalPasses n r.2

/-- The evaluation of a plan's programs in full (R145). A reduction that several parts make is limited as a whole (R66). -/
def Plan.evalFail (p : Plan) : Option PlanFail := p.evalPasses (p.reductions.length + 1) []

/-! Residency and checking (R179, R194). -/

/-- The WEIGHT of the region a schedule entry names. -/
def Plan.weightOf (p : Plan) (x : Schedule) : Option Nat :=
  match p.placements[x.region]? with
  | some y => if y.scratch then none else some y.weight
  | none => none

/-- A CHECKER entry of a stream on an Arcade of a mask that stands on its own region of a weight: one on which no primary stands
(DEDUCED, log entry 43). -/
def Plan.checkerAt (p : Plan) (mask : BitVec 16) (w : Option Nat) (f : Schedule → Bool) : Bool :=
  p.schedules.any fun x => x.kind == 3 && mask.getLsbD x.arcade && w.isSome && p.weightOf x == w
    && !(p.schedules.any fun y => y.kind != 3 && y.region == x.region) && f x

/-- The Quarters of a stream's two residencies. -/
def Plan.quartersOf (p : Plan) (cs : Nat) : List Nat :=
  (p.streamEntries cs 0 ++ p.secondEntries cs ++ p.streamEntries cs 1).map fun e => p.arcadeOf e / 4

/-- A referee binds, where its primary binds an INPUT or STATE buffer, one of that use of its own: none that the others bind (R115,
R194). -/
def Plan.ownBuffers (p : Plan) (x y : Schedule) (others : List Schedule) : Bool :=
  (x.ads.zip y.ads).all fun k => match p.buffers[k.1]?, p.buffers[k.2]? with
    | some b, some c => (c.use != 1 && c.use != 2 && b.use != 1 && b.use != 2)
      || (b.use == c.use && others.all fun o => !o.ads.contains k.1)
    | none, some c => c.use != 1 && c.use != 2
    | some b, none => b.use != 1 && b.use != 2
    | none, none => true

/-- A dual-run stream has its second residency, and for each of its programs a referee with buffers of its own (R122, R194; log
entry 43). -/
def Plan.dualOk (p : Plan) (cs : Nat) (mask : BitVec 16) : Bool :=
  let r0 := p.streamEntries cs 0
  let quarters := p.quartersOf cs
  !r0.isEmpty && !(p.secondEntries cs).isEmpty && r0.all fun e =>
    match p.scheduleAt e with
    | none => false
    | some y => p.checkerAt mask (p.weightOf y) fun x =>
        !x.ckJob && x.trigger == cs && p.sameProgram x.program y.program && !quarters.contains (x.arcade / 4)
          && p.ownBuffers x y ((r0 ++ p.secondEntries cs ++ p.streamEntries cs 1).filterMap p.scheduleAt)

def Plan.residencyFail (p : Plan) : Option PlanFail :=
  firstFail [
    checkEach 0x0B p.integrity fun _ e =>
      if e.fraction = 0 then true
      else if e.isModel then
        p.placements.any fun y => y.model == e.target && !y.scratch && p.checkerAt e.checkers (some y.weight) fun _ => true
      else if e.fraction = 5 && !e.partner then p.dualOk e.target e.checkers
      else true,
    checkEach 0x0B p.schedules fun _ x =>
      if x.kind ≠ 3 then true
      else
        match p.checkedBy x with
        | none => true
        | some y => (x.ads.zip y.ads).all fun k =>
            match p.buffers[k.1]?, p.buffers[k.2]? with
            | some a, some b => a.pages == b.pages
            | none, none => true
            | _, _ => false]

/-- The plan checks of PLAN_LOAD (R145), over the container and the plan read from it. -/
def planFail (b : Bytes) (p : Plan) : Option PlanFail :=
  firstFail [
    (if planMagic b && headerOk b then none else some (0x01, 0)), directoryFail b, reservedFail b, p.bufferFail, p.modelFail,
    p.weightFail, p.placementFail, p.timeFail, p.targetFail, p.outputFail, p.reductionFail, p.programFail,
    p.scheduleFail, p.evalFail, p.residencyFail]

end Sys2Proof.Machine
end

