-- ==== Sys2Proof/Machine/Measure.lean ====
section
/-! DEFINITION. Measurement registers and their logs (R347, R348). -/

namespace Sys2Proof.Machine

/-- The 64-byte event of an extension (R348). -/
def logEvent (mr component flags index svn word : Nat) (m : BitVec 384) : Bytes :=
  [BitVec.ofNat 8 mr, BitVec.ofNat 8 component, BitVec.ofNat 8 flags, BitVec.ofNat 8 index, BitVec.ofNat 8 svn, 0, 0, 0]
    ++ Bytes.ofNat 8 word ++ Bytes.big m

/-- Extend a measurement register, and append the event to its log: the boot log of at most 48 events, or the runtime ring
of 256 (R347, R348). MR0 to MR5 stand once they are locked. -/
def Boot.extend (b : Boot) (mr component flags index svn word : Nat) (m : BitVec 384) : Boot :=
  if mr < 6 && b.mrLock then b
  else
    let old := Tab.get 0 b.mr mr
    let e := logEvent mr component flags index svn word m
    let b := { b with mr := Tab.set 0 b.mr mr (Config.sha384 (Bytes.big old ++ Bytes.big m)) }
    if mr < 6 then { b with bootLog := if b.bootLog.length < 48 then b.bootLog ++ [e] else b.bootLog }
    else if b.runtimeLog.length < 256 then { b with runtimeLog := b.runtimeLog ++ [e], runtimeEvents := b.runtimeEvents + 1 }
    else { b with runtimeLog := b.runtimeLog.drop 1 ++ [e], runtimeTrunc := true, runtimeEvents := b.runtimeEvents + 1 }

def State.extendMr (s : State) (mr component flags index svn word : Nat) (m : BitVec 384) : State :=
  { s with boot := s.boot.extend mr component flags index svn word m }

/-- The extension of an image's measurement (R347, R348). -/
def State.extendImage (s : State) (mr index : Nat) (k : Ksi) (fallback failed : Bool) : State :=
  s.extendMr mr k.component ((if fallback then 1 else 0) + (if failed then 2 else 0)) index k.svn k.versionWord.toNat k.measurement

end Sys2Proof.Machine
end

