-- ==== Sys2Proof/Machine/Units.lean ====
section
/-! DEFINITION. Units going down and up (R399, R415, R417, R497), and what a commit of the operator's registers does. -/

namespace Sys2Proof.Machine

def State.onUnit (s : State) (a : Nat) (u : UnitState) : State := { s with pm := { s.pm with units := Tab.set .off s.pm.units a u } }

/-- A unit is zeroised and powered down (R399, R417): its status counters stay, and its stores, descriptors and entries are
lost with its power (R497). `state` is what its Arcade then reads. -/
def State.unitDown (s : State) (a : Nat) (state : IntegState) : State :=
  let s := s.zeroiseUnit a
  let s := { s with arc := Tab.upd {} s.arc a fun (c : Arcade) =>
    { integ := state, transients := c.transients, checksDone := c.checksDone, mismatches := c.mismatches
      instCount := c.instCount, instBase := c.instBase, lfsr := c.lfsr, reserve := c.reserve } }
  let s := { s with pz := { s.pz with
    omap := Tab.clear s.pz.omap (a * 4096) ((a + 1) * 4096)
    segs := Tab.upd {} s.pz.segs a fun (g : Segment) =>
      { state := if g.state == SegState.retired then SegState.retired else SegState.off, retired := g.retired, ce := g.ce, ue := g.ue } } }
  let s := { s with pm := { s.pm with domains := s.pm.domains &&& ~~~(BitVec.ofNat 38 (2 ^ a + 2 ^ (a + 16))) } }
  s.onUnit a .off

/-- A unit that is OFF or RETIRED. -/
def State.unitDead (s : State) (a : Nat) : Bool :=
  let i := (s.arcade a).integ
  i == .off || i == .retired

/-- PM_UNIT_CTRL at its commit (R415, R417): a bit that clears takes its unit down, and a bit that is set anew asks for the
readmission of a unit that is OFF or RETIRED. -/
def State.commitUnits (s : State) (v : Word) : State :=
  let old := s.pm.unitCtrl
  let s := { s with pm := { s.pm with unitCtrl := v } }
  (List.range 16).foldl (fun s a =>
    if old.getLsbD a && !v.getLsbD a then
      let s := { s with pm := { s.pm with
        readmit := s.pm.readmit.filter fun x => x != a, ramping := if s.pm.ramping == some a then none else s.pm.ramping } }
      let s := s.onSeg a fun g => { g with state := .off }
      s.unitDown a .off
    else if !old.getLsbD a && v.getLsbD a && s.unitDead a then
      State.onUnit { s with pm := { s.pm with readmit := s.pm.readmit ++ [a] } } a .waiting
    else s) s

/-- PM_KERB_CFG at its commit (R406, R420, R495): icc_max may only fall, and not once it is locked; then the lock. -/
def kerbCommit (old v : Word) : Word :=
  let o := old.toNat
  let n := v.toNat
  if Bits.bit o 63 then old
  else BitVec.ofNat 64 (min (Bits.get o 0 16) (Bits.get n 0 16) + (if Bits.bit n 63 then 2 ^ 63 else 0))

end Sys2Proof.Machine
end

