-- ==== Sys2Proof/Machine/Staging.lean ====
section
/-! DEFINITION. Staging banks and commits: STAGE_WRITE, PLAN_LOAD, STREAM_BIND, INTEGRITY_SET, STAGE_CHECK,
STAGE_COMMIT_AT and the COMMIT firing (R96, R118, R121, R142, R143, R251, R259 to R261, R494, R495, R499). -/

namespace Sys2Proof.Machine

/-! Registers that may be staged (R495). -/

inductive StageReg where
  | psCfg (n : Nat) | psGain (n : Nat) | psLim (n : Nat)
  | pmPolicy | pmUnitCtrl | pmKerbCfg | fmPairCfg
  | viPolicy (n : Nat)
deriving DecidableEq, Repr

/-- The register at an offset of a window, where it may be staged (R483, R485, R495). -/
def stageReg (off : Nat) : Option StageReg :=
  if 0x2000 ≤ off && off < 0x2400 then
    let n := (off - 0x2000) / 0x40
    match off % 0x40 with
    | 0x00 => some (.psCfg n)
    | 0x08 => some (.psGain n)
    | 0x10 => some (.psLim n)
    | _ => none
  else if off = 0x3100 then some .pmPolicy
  else if off = 0x3108 then some .pmUnitCtrl
  else if off = 0x3130 then some .pmKerbCfg
  else if off = 0x3200 then some .fmPairCfg
  else if 0x3600 ≤ off && off < 0x3800 && off % 8 = 0 then some (.viPolicy ((off - 0x3600) / 8))
  else none

def StageReg.source : StageReg → Option Nat
  | .psCfg n | .psGain n | .psLim n => some n
  | _ => none

/-- The bits of a register that are not reserved (R24, R418, R420, R441, R493, R495). -/
def StageReg.mask : StageReg → Word
  | .psCfg _ => 0xFFFF_FFFF_FFFF_FFF3
  | .psGain _ => 0xFFFF_FFFF_FFFF_FFFF
  | .psLim _ => 0x0000_0007_FFFF_FFFF
  | .pmPolicy => 0x0000_0000_00FF_FFFF
  | .pmUnitCtrl => 0x0000_0000_0000_FFFF
  | .pmKerbCfg => 0x8000_0000_0000_FFFF
  | .fmPairCfg => 0xFFFF_FFFF_FFFF_FFFF
  | .viPolicy _ => 0x0000_007F_FFFF_3FFF

/-- What a window holds by lease or by grant in any epoch from the present one on (R259). -/
def State.holdsEver (s : State) (w : Nat) : Res :=
  s.rb.leases.foldl (fun a l => if l.win == w && (match l.last with
    | some n => decide (s.epoch ≤ n)
    | none => true) then a.or l.res else a) {}

def Res.hasArc (r : Res) (a : Nat) : Bool := decide (a < 16) && r.bits.getLsbD a
def Res.hasSi (r : Res) (k : Nat) : Bool := decide (k < 4) && r.bits.getLsbD (16 + k)
def Res.hasSe (r : Res) (k : Nat) : Bool := decide (k < 4) && r.bits.getLsbD (20 + k)
def Res.seVideo (r : Res) (k : Nat) : Bool := decide (k < 4) && r.bits.getLsbD (28 + k)
def Res.hasPs (r : Res) (n : Nat) : Bool := decide (n < 16) && r.bits.getLsbD (32 + n)
def Res.hasCs (r : Res) (n : Nat) : Bool := decide (n < 256) && r.cs.getLsbD n

/-- Why a window may not stage a register: status and detail (R259, R495). -/
def State.stageRefusal (s : State) (w off value : Nat) : Option (Nat × Nat) :=
  match stageReg off with
  | none => some (stDenied, 0x12)
  | some r =>
    match r.source with
    | some n => if (s.holdsEver w).hasPs n then none else some (stNotOwner, 0)
    | none =>
      if w ≠ 64 then some (stDenied, 0x12)
      else if r = .pmKerbCfg ∧ Bits.get s.pm.kerbCfg.toNat 0 16 < Bits.get value 0 16 then some (stDenied, 0)
      else none

/-! Banks (R259). -/

/-- Two items for the same register, stream or target, or two plans. -/
def BankItem.same : BankItem → BankItem → Bool
  | .write a _, .write b _ => a == b
  | .plan _, .plan _ => true
  | .bind a, .bind b => a.cs == b.cs
  | .integ t m _, .integ u n _ => t == u && m == n
  | _, _ => false

/-- The kind of an item, and how many of the kind a bank holds. -/
def BankItem.kind : BankItem → Nat
  | .write _ _ => 0
  | .plan _ => 1
  | .bind _ => 2
  | .integ _ _ _ => 3
def itemLimit (k : Nat) : Nat := if k = 0 then 1024 else if k = 1 then 1 else 256

def Bank.stage (b : Bank) (i : BankItem) : Bank := { b with items := b.items.filter (fun j => !i.same j) ++ [i] }

def Bank.fits (b : Bank) : Bool :=
  (List.range 4).all fun k => decide ((b.items.filter fun i => i.kind == k).length ≤ itemLimit k)

def Bank.planOf (b : Bank) : Option Plan := b.items.findSome? fun i => match i with
  | .plan p => some p
  | _ => none
def Bank.binds (b : Bank) : List BindItem := b.items.filterMap fun i => match i with
  | .bind x => some x
  | _ => none
def Bank.writes (b : Bank) : List (Nat × Word) := b.items.filterMap fun i => match i with
  | .write o v => some (o, v)
  | _ => none
def Bank.integs (b : Bank) : List (Nat × Bool × Nat) := b.items.filterMap fun i => match i with
  | .integ t m f => some (t, m, f)
  | _ => none

/-- The epoch in which a phase instant is predicted to fall at the source's present velocity (R259); 0 where it is not
known. -/
def State.predictedEpoch (s : State) (e : Event) : Nat :=
  let c := s.source e.source.toNat
  let d := (e.instant - c.measure).toInt
  if d ≤ 0 then s.epoch + 1
  else if c.omegaInt ≤ 0 then 0
  else (s.now + (d * 2 ^ 32 * 5 / (2 * c.omegaInt)).toNat) / 4096

/-- The epoch that ST_BUSY names while a commit is armed (R259). -/
def State.busyEpoch (s : State) (w : Nat) : Option Nat :=
  match (s.bank w).armed with
  | none => none
  | some i =>
    let e := s.event i
    some (if e.device then e.instant.toNat / 4096 + 1 else s.predictedEpoch e)

/-- The reply to a command that would add to a bank whose commit is armed. -/
def busy (e : Nat) : Reply := { status := stBusy, epoch := e }

/-- Stage items, or refuse them where the bank has no room (R259). -/
def State.stageItems (s : State) (w : Nat) (is : List BankItem) : Option State :=
  let b := is.foldl Bank.stage (s.bank w)
  if b.fits then some (s.onBank w fun _ => b) else none

/-- STAGE_WRITE (R259, R495). -/
def State.stageWrite (s : State) (w : Nat) (c : Cmd) : State :=
  let n := c.params.length
  match s.busyEpoch w with
  | some e => s.finish w (busy e)
  | none =>
    if n = 0 ∨ n % 16 ≠ 0 then s.finish w { status := stLenShort }
    else
      let es := Bytes.chunks 16 32 c.params
      let bad := (es.mapIdx fun i e => (i, if Bytes.num e 4 4 ≠ 0 then some (stDenied, 3) else s.stageRefusal w (Bytes.num e 0 4) (Bytes.num e 8 8))).find?
        fun r => r.2.isSome
      match bad with
      | some (i, some (st, d)) => s.finish w { status := st, detail := d, index := i }
      | _ =>
        match s.stageItems w (es.map fun e => .write (Bytes.num e 0 4) (word64 e 8)) with
        | some t => t.finish w (.ok 0)
        | none => s.finish w (.denied 7)

def execStageWrite (w : Win) (s : State) : Host.Outcome State Fault Refusal :=
  actCmd (s.rbCmd w.val 0x40) (fun c s => s.stageWrite w.val c) s

/-! PLAN_LOAD. -/

/-- The KiB of the plan-table pool that the plans of a window take; its staged plan counts (R143). -/
def State.poolUsed (s : State) (w : Nat) (staged : Bool) : Nat :=
  (match (s.plan w).running with
  | some p => p.poolKiB
  | none => 0) + (if staged then (match (s.bank w).planOf with
    | some p => p.poolKiB
    | none => 0) else 0)

/-- The reservation of a VI (R143, R493). -/
def State.poolShare (s : State) (w : Nat) : Nat :=
  if w < 64 && polEnable (s.policyOf w) then polPool (s.policyOf w) else 0

/-- A plan of n KiB fits the window's share of the pool (R143). -/
def State.poolFits (s : State) (w n : Nat) : Bool :=
  let mine := s.poolUsed w false + n
  if s.poolShare w ≠ 0 then decide (mine ≤ s.poolShare w)
  else
    let reserved := ((List.range 64).map s.poolShare).sum
    let others := ((List.range 65).filter fun x => x != w && s.poolShare x == 0).map fun x => s.poolUsed x true
    decide (mine + others.sum + reserved ≤ 128)

/-- A plan's container is checked: the status and check that ends PLAN_LOAD, or none (R114, R142, R145). -/
def containerFail (b : Bytes) (declared : Nat) : Option Reply :=
  let total := Bytes.num b 8 4
  if declared < total then some { status := stLenShort }
  else if total < declared then some { status := stLenLong }
  else if !planMagic b then some (.denied 1)
  else if Bytes.num b 5 1 ≠ 2 || Bytes.num b 40 4 ≠ 0x5302 then some { status := stVersion }
  else if !headerOk b then some (.denied 1)
  else
    match directoryFail b with
    | some f => some { status := stDenied, detail := f.1, index := f.2 }
    | none =>
      if !planSigned b then some (.denied 0)
      else match planFail b (parsePlan b) with
        | some f => some { status := stDenied, detail := f.1, index := f.2 }
        | none => none

/-! Where PLAN_LOAD puts a plan (R141 to R143, R147). The manual gives no places within the pool, the program spaces and the
parameter stores: log entry 95. -/

/-- The 1 KiB blocks of the plan-table pool (R143). -/
def poolBlocks : List Nat :=
  ((List.range 64).map fun i => 0x5_0000 + 1024 * i) ++ (List.range 64).map fun i => 0x7_0000 + 1024 * i

/-- The blocks of the pool that plans take: running ones, and staged ones but for the window's own, which the load
replaces. -/
def State.poolTaken (s : State) (w : Nat) : List Nat :=
  ((List.range 65).map fun x =>
    (match (s.plan x).running with
    | some p => p.pool
    | none => []) ++ (if x = w then [] else match (s.bank x).planOf with
      | some p => p.pool
      | none => [])).flatten

/-- The words of a plan's programs on an Arcade. -/
def Plan.wordsOn (p : Plan) (a : Nat) : Nat := ((p.programs.filter fun y => y.arcade == a).map fun y => y.words.length).sum

/-- The program and schedule space of an Arcade in its Quarter's memory, behind the firmware: 44 KiB of program words and 8 KiB
of schedule entries (R147). -/
def qcSpace (a : Nat) : Nat := 2 ^ 18 * (a / 4 % 4) + 0xC000 + a % 4 * 0xD000
def scheduleSpace (a : Nat) : Nat := qcSpace a + 0xB000

/-- The word address of a program in its Arcade's program space (R141): the running plan's programs and the staged plan's grow
from opposite ends. -/
def Plan.wordAddress (p : Plan) (i : Nat) : Nat :=
  match p.programs[i]? with
  | none => 0
  | some g => (if p.top then 5632 - p.wordsOn g.arcade else 0)
      + (((p.programs.take i).filter fun y => y.arcade == g.arcade).map fun y => y.words.length).sum

/-- The descriptors and LUTs of a container that an Arcade's parameter store holds (R124, R125). -/
def storeBytes (b : Bytes) (a : Nat) : Bytes :=
  ((outputEntries b).filter fun e => (readOutput e).arcades.getLsbD a).flatten
    ++ ((sectionEntries b 0x0A 3136).filter fun e => (readLut e).arcades.getLsbD a).flatten

/-- A schedule entry as the Quarter controller writes it (R141). -/
def State.resolvedEntry (s : State) (w : Nat) (p : Plan) (y : Schedule) : Bytes :=
  let row := match p.placements[y.region]? with
    | some r => r.firstRow
    | none => 0
  let base (k : Nat) : Nat := match p.buffers[k]? with
    | some b => b.base
    | none => 0
  Bytes.ofNat 2 y.trigger ++ [BitVec.ofNat 8 y.kind, BitVec.ofNat 8 y.arcade] ++ Bytes.ofNat 2 (p.wordAddress y.program)
    ++ [BitVec.ofNat 8 row, if y.ckJob then 1 else 0] ++ (y.ads.map fun k => Bytes.ofNat 4 (base k)).flatten
    ++ Bytes.ofNat 2 ((s.lsessOf w y.lsess).getD 0) ++ List.replicate 6 0


/-- The bytes of a plan's schedule entries on an Arcade, and their place in its 8 KiB: two successive plans of a window grow from
opposite ends (R141, R142). -/
def State.scheduleBytes (s : State) (w : Nat) (p : Plan) (a : Nat) : Bytes :=
  ((p.schedules.filter fun y => y.arcade == a).map (s.resolvedEntry w p)).flatten
def Plan.scheduleAddress (p : Plan) (a : Nat) : Nat :=
  scheduleSpace a + if p.top then 0x2000 - 32 * (p.schedules.filter fun y => y.arcade == a).length else 0

/-- The schedule entries of a plan go to the Quarters' memories (R141). -/
def State.putSchedules (s : State) (w : Nat) (p : Plan) : State :=
  { s with qcMem := (List.range 16).foldl (fun m a => Tab.setMany 0 m (p.scheduleAddress a) (s.scheduleBytes w p a)) s.qcMem }

/-- The schedule tables of a window's running plan in the Quarters' memories. -/
def State.writeSchedules (s : State) (w : Nat) : State :=
  match (s.plan w).running with
  | none => s
  | some p => s.putSchedules w p

/-- The sections of a container go to their destinations: the tables to the pool, the programs and the schedule entries to the
Quarters' memories, the descriptors to the parameter stores (R142, R143). -/
def State.placePlan (s : State) (w : Nat) (p : Plan) (b : Bytes) : Plan × State :=
  let taken := s.poolTaken w
  let p := { p with
    pool := (poolBlocks.filter fun x => !taken.contains x).take p.poolKiB
    top := match (s.plan w).running with
      | some q => !q.top
      | none => false }
  let tables := p.pool.zip (Bytes.chunks 1024 p.poolKiB (poolTables b))
  let words := p.programs.mapIdx fun i g => (qcSpace g.arcade + 8 * p.wordAddress i, (g.words.map fun v => Bytes.ofNat 8 v.toNat).flatten)
  let side (a : Nat) : Nat := if p.top then 0x8000 - (storeBytes b a).length else 0
  let t : State := { s with
    fcSram := (tables.foldl (fun (t : State) x => t.sramWrite x.1 x.2) s).fcSram
    qcMem := words.foldl (fun m x => Tab.setMany 0 m x.1 x.2) s.qcMem
    arc := ((List.range 16).filter fun a => p.arcades.getLsbD a).foldl (fun t a =>
      Tab.upd {} t a fun (c : Arcade) => { c with params := Tab.setMany 0 c.params (side a) (storeBytes b a) }) s.arc }
  (p, t.putSchedules w p)
/-- PLAN_LOAD (R142, R143, R146). A container that fails leaves the window without a staged plan. -/
def State.planLoad (s : State) (w : Nat) (c : Cmd) (img : HostRead) : State :=
  let declared := c.u 24 4
  match s.busyEpoch w with
  | some e => s.result w (busy e)
  | none =>
    if 2 ^ 22 < declared then s.result w { status := stLenLong }
    else
    let s := s.hostRead (windowWorld w) (c.u 16 8) declared
    if img.err || img.poison then (s.readFailed img (c.u 16 8)).result w { status := stFault }
    else
      let b := Bytes.slice img.bytes 0 declared
      match containerFail b declared with
      | some r => s.result w r
      | none =>
        let p := parsePlan b
        if !s.poolFits w p.poolKiB then s.result w (.denied 0x1A)
        else
          let (p, t) := s.placePlan w p b
          match t.stageItems w [.plan p] with
          | some t => t.result w (.ok 0)
          | none => s.result w (.denied 7)

def execPlanLoad (w : Win) (img : HostRead) (s : State) : Host.Outcome State Fault Refusal :=
  actCmd (s.fcCmd w.val 0x30) (fun c s => s.planLoad w.val c img) s

/-! Logical sessions (R251). -/

/-- The owner fields of what is bound to a session (R86, R94, R118). -/
def OmapEntry.own (e : OmapEntry) (x : Session) (sc : Nat) : OmapEntry :=
  { e with session := BitVec.ofNat 14 sc, vi := BitVec.ofNat 6 x.vi, world := if x.operator then 1 else 2
           conf := if x.conf then 1 else 0 }
def Region.own (r : Region) (x : Session) (sc : Nat) : Region :=
  { r with session := sc, vi := x.vi, world := if x.operator then 1 else 2, conf := x.conf }

/-- A logical session of a window is bound to a session, with the pages and regions that awaited it; none where it is bound
to another. -/
def State.bindLsess (s : State) (w l sc : Nat) : Option State :=
  match s.lsessOf w l with
  | some n => if n = sc then some s else none
  | none =>
    let x := s.session sc
    let vp := s.plan w
    let s := (vp.waitPages.filter fun p => p.1 == l).foldl (fun s p => s.onOmap p.2 fun e => e.own x sc) s
    let s := (vp.waitRegions.filter fun r => r.1 == l).foldl (fun s r => s.onArc r.2.1 fun c =>
      { c with regions := Tab.upd {} c.regions r.2.2 fun g => g.own x sc }) s
    some ((s.onPlan w fun vp => { vp with
      lsess := Tab.set 0 vp.lsess l (sc + 1)
      waitPages := vp.waitPages.filter fun p => p.1 != l
      waitRegions := vp.waitRegions.filter fun r => r.1 != l }).writeSchedules w)

/-- A KEYED session of the window, which binds (R206). -/
def State.bindable (s : State) (w sc : Nat) : Bool := s.visible w sc && (s.session sc).state == .keyed

/-- STREAM_BIND (R149, R251, R259, R499). -/
def State.streamBind (s : State) (w : Nat) (c : Cmd) : State :=
  let cs := c.u 16 2
  let unbind := Bits.bit (c.u 23 1) 0
  let si := c.u 21 1
  let se := c.u 22 1
  let h := s.holdsEver w
  match s.busyEpoch w with
  | some e => s.result w (busy e)
  | none =>
    if 256 ≤ cs then s.result w (.denied 0)
    else if !s.bindable w c.session then s.result w (.denied 0)
    else if !h.hasCs cs then s.result w { status := stNotOwner }
    else
      let i : BindItem := { cs := cs, session := c.session, lsess := c.u 18 1, slot := c.u 19 1, fallback := c.u 20 1
                            si := si, se := se, unbind := unbind }
      if 64 ≤ i.lsess || (!unbind && (64 ≤ i.slot || 2 ≤ i.fallback || (4 ≤ si && si != 0xFF) || (4 ≤ se && se != 0xFF))) then
        s.result w (.denied 0)
      else if !unbind && !((si == 0xFF || h.hasSi si) && (se == 0xFF || h.hasSe se)) then s.result w { status := stNotOwner }
      else if !unbind && (s.session c.session).conf && h.seVideo se then s.result w (.denied 0)
      else
        match s.bindLsess w i.lsess c.session with
        | none => s.result w (.denied 5)
        | some t => match t.stageItems w [.bind i] with
          | some t => t.result w (.ok 0)
          | none => s.result w (.denied 7)

def execStreamBind (w : Win) (s : State) : Host.Outcome State Fault Refusal :=
  actCmd (s.fcCmd w.val 0x33) (fun c s => s.streamBind w.val c) s

/-- INTEGRITY_SET (R175, R259). -/
def State.integritySet (s : State) (w : Nat) (c : Cmd) : State :=
  let t := c.u 16 2
  let isModel := c.u 18 1 = 1
  let f := c.u 19 1
  let pol := s.policyOf w
  match s.busyEpoch w with
  | some e => s.result w (busy e)
  | none =>
    if 2 ≤ c.u 18 1 || 6 ≤ f || (w < 64 && (f < polFracMin pol || polFracMax pol < f)) then s.result w (.denied 0)
    else if (if isModel then 1024 ≤ t else !(s.holdsEver w).hasCs t) then s.result w (.denied 0)
    else match s.stageItems w [.integ t isModel f] with
      | some s => s.result w (.ok 0)
      | none => s.result w (.denied 7)

def execIntegritySet (w : Win) (s : State) : Host.Outcome State Fault Refusal :=
  actCmd (s.fcCmd w.val 0x62) (fun c s => s.integritySet w.val c) s

/-! The checks of a bank (R145, R259): codes from 0x10. -/

/-- The Arcades, sources, ports and streams that a bank's content acts on (R254). -/
def Bank.needs (b : Bank) : Res :=
  let ps (n : Nat) : BitVec 64 := BitVec.ofNat 64 (2 ^ (32 + n % 16))
  let regs := b.writes.foldl (fun (a : BitVec 64) x => match (stageReg x.1).bind StageReg.source with
    | some n => a ||| ps n
    | none => a) 0
  let bits := b.binds.foldl (fun (a : BitVec 64) x =>
    if x.unbind then a else a ||| (if x.si < 4 then BitVec.ofNat 64 (2 ^ (16 + x.si)) else 0)
      ||| (if x.se < 4 then BitVec.ofNat 64 (2 ^ (20 + x.se)) else 0)) regs
  let cs := b.binds.foldl (fun (a : BitVec 256) x => a ||| BitVec.ofNat 256 (2 ^ (x.cs % 256))) 0
  let cs := b.integs.foldl (fun (a : BitVec 256) x => if x.2.1 then a else a ||| BitVec.ofNat 256 (2 ^ (x.1 % 256))) cs
  match b.planOf with
  | none => { bits := bits, cs := cs }
  | some p =>
    let src := (p.sources.map (·.source) ++ (p.notifies.filter (·.phase)).map (·.source)).foldl (fun (a : BitVec 64) n => a ||| ps n) 0
    { bits := bits ||| p.arcades.setWidth 64 ||| src
      cs := p.calendars.foldl (fun (a : BitVec 256) c => a ||| BitVec.ofNat 256 (2 ^ (c.cs % 256))) cs }

/-- The earliest epoch in which the window's leases and grants cover the bank (R259); the present one where none does. -/
def State.earliestEpoch (s : State) (w : Nat) : Nat :=
  let e := s.epoch
  let need := (s.bank w).needs
  let starts := sortAsc ((s.rb.leases.filter fun l => l.win == w && decide (e < l.first)).map (·.first))
  ((e :: starts).find? fun n => need.minus (s.rb.heldAt w n) == ({} : Res)).getD e

/-- 0x10: a lease that is not held. -/
def Bank.leaseFail (b : Bank) (h : Res) : Option PlanFail :=
  firstFail [
    checkEach 0x10 b.writes fun _ x => match (stageReg x.1).bind StageReg.source with
      | some n => h.hasPs n
      | none => true,
    (match b.planOf with
    | none => none
    | some p => firstFail [
        checkEach 0x10 (List.range 16) fun _ a => !p.arcades.getLsbD a || h.hasArc a,
        checkEach 0x10 p.sources fun _ x => h.hasPs x.source,
        checkEach 0x10 p.notifies fun _ x => !x.phase || h.hasPs x.source,
        checkEach 0x10 p.calendars fun _ x => h.hasCs x.cs]),
    checkEach 0x10 b.binds fun _ x =>
      h.hasCs x.cs && (x.unbind || ((x.si == 0xFF || h.hasSi x.si) && (x.se == 0xFF || h.hasSe x.se))),
    checkEach 0x10 b.integs fun _ x => x.2.1 || h.hasCs x.1]

/-- The pages of a buffer. -/
def Buffer.pageList (b : Buffer) : List Nat := (List.range b.pages).map fun i => b.first + i

/-- The page belongs to a buffer of the same logical session in the running plan, and is still held for it (R96). -/
def State.keepsPage (s : State) (w l page : Nat) : Bool :=
  let vp := s.plan w
  let e := s.omapOf page
  (match vp.running with
  | some p => p.buffers.any fun b => b.lsess == l && decide (b.first ≤ page) && decide (page < b.first + b.pages)
  | none => false) && e.valid && (vp.waitPages.contains (l, page) || (e.world != 0 && (match s.lsessOf w l with
    | some sc => e.session.toNat == sc
    | none => false)))

/-- The fraction of a target once a bank's plan is in force: that which an INTEGRITY_SET of the bank gives it, else the plan's; raised to
the VI's lowest (R122, R175, R494). `fr` are the bank's settings. -/
def State.planFraction (s : State) (w : Nat) (p : Plan) (fr : List (Nat × Bool × Nat)) (t : Nat) (isModel : Bool) : Nat :=
  let f := match fr.find? fun f => f.1 == t && f.2.1 == isModel with
    | some f => f.2.2
    | none => match p.integrity.find? fun e => e.target == t && e.isModel == isModel with
      | some e => e.fraction
      | none => 0
  if w < 64 && f ≠ 0 then max f (polFracMin (s.policyOf w)) else f

/-- A schedule entry is a primary whose work is sampled (R174, R176, R185): at a fraction, or every span in lockstep (R198, R437). -/
def State.sampledEntry (s : State) (w : Nat) (p : Plan) (fr : List (Nat × Bool × Nat)) (x : Schedule) : Bool :=
  (decide (x.kind < 3) && (s.lsessOf w x.lsess).any s.lockstep) ||
  (if x.kind < 2 then
    if p.streamHasFraction fr x.trigger then
      decide (1 ≤ s.planFraction w p fr x.trigger false) && decide (s.planFraction w p fr x.trigger false ≤ 4)
    else match p.calendarModel x.trigger with
      | some m => decide (1 ≤ s.planFraction w p fr m true)
      | none => false
  else if x.kind = 2 then (match p.jobModel x with
    | some m => decide (1 ≤ s.planFraction w p fr m true)
    | none => false)
  else false)

/-- The Arcades of a plan that carry sampled work as primaries (R185). -/
def State.sampledArcades (s : State) (w : Nat) (p : Plan) (fr : List (Nat × Bool × Nat)) : List Nat :=
  (List.range 16).filter fun a => p.schedules.any fun x => x.arcade == a && s.sampledEntry w p fr x

/-- 0x12: the entries that a plan's commit needs in the event table (R41, R121, R127, R185). -/
def State.eventsFit (s : State) (w : Nat) (p : Plan) (fr : List (Nat × Bool × Nat)) : Bool :=
  let used := (s.ptu.events.filter fun e => e.2.valid && !(s.plan w).events.contains e.1).length
  decide (used + 3 * p.calendars.length + p.notifies.length + (s.sampledArcades w p fr).length ≤ 4096)

/-- The configuration of a source as the bank leaves it. -/
def State.cfgAfter (s : State) (b : Bank) (n : Nat) : Word :=
  match b.planOf.bind fun p => p.sources.find? fun x => x.source == n with
  | some x => x.cfg
  | none => match b.writes.find? fun x => x.1 == 0x2000 + 0x40 * n with
    | some x => x.2
    | none => (s.source n).cfg

/-- The source limit of R23. -/
def unwrapOk (cfg : Word) : Bool := decide (cfgVmax cfg * cfgInterval cfg * 5 < 2 * 2 ^ 30)

/-- The limits of a calendar (R47, R157, R218). -/
def calendarOk (c : Calendar) (vmax : Nat) : Bool :=
  (if c.phase then decide ((c.nOrPitch % 2 ^ 16 + 1) * vmax * 10 ^ 9 ≤ 40000 * 2 ^ 32) else decide (25000 ≤ c.nOrPitch))
    && decide (25000 ≤ c.standstillPitch)
    && (if c.phaseRelease then decide (c.budget * vmax ≤ c.release) && decide ((1500 + c.startDelay) * vmax ≤ c.release)
        else decide (c.budget ≤ c.release) && decide (1500 ≤ c.release))

/-- The lines of a stream's STATE buffers (R435). -/
def Plan.stateBytes (p : Plan) (cs : Nat) : Nat :=
  ((p.streamEntries cs 0).map fun e => ((List.range 4).map fun k =>
    match (p.scheduleAt e).bind fun x => p.bound x k with
    | some b => if b.use = 2 then 1024 * b.pages else 0
    | none => 0).sum).sum

/-- The stream is covered, with this block as the home of its session, once a bank has taken effect (R423, R435). -/
def State.coveredAfter (s : State) (w : Nat) (b : Bank) (cs : Nat) : Bool :=
  let sc := match b.binds.find? fun i => i.cs == cs with
    | some i => if i.unbind then none else some i.session
    | none => if (s.stream cs).bound && (s.stream cs).win == w then some (s.stream cs).session else none
  s.joined && sc.any fun n => s.isHome n

/-- 0x13. -/
def State.limitFail (s : State) (w : Nat) (b : Bank) : Option PlanFail :=
  firstFail [
    checkEach 0x13 b.writes fun _ x => match stageReg x.1 with
      | some (.psCfg _) => unwrapOk x.2
      | _ => true,
    (match b.planOf with
    | none => none
    | some p => firstFail [
        checkEach 0x13 p.sources fun _ x => unwrapOk x.cfg,
        checkEach 0x13 p.calendars fun _ c => calendarOk c (cfgVmax (s.cfgAfter b c.source)),
        checkEach 0x13 p.notifies fun _ n => n.phase || !n.periodic || decide (25000 ≤ n.nOrPitch),
        checkEach 0x13 p.receipts fun _ r => r.isModel || decide (r.payloadBytes ≤ 384),
        checkEach 0x13 p.calendars fun _ c => !s.coveredAfter w b c.cs || decide (p.stateBytes c.cs ≤ 4096)]),
    (match b.planOf, (s.plan w).running with
    | none, some p => checkEach 0x13 b.binds fun _ i =>
        !s.coveredAfter w b i.cs || (p.calendarModel i.cs).isNone || decide (p.stateBytes i.cs ≤ 4096)
    | _, _ => none)]

def rowsMeet (a b c d : Nat) : Bool := decide (a ≤ d) && decide (c ≤ b)

/-- A region of the window: made by its plan, or RETAINED for its VI. -/
def Region.ofWindow (r : Region) (w : Nat) : Bool :=
  r.plan == some w || (r.state == .retained && r.world == (if w = 64 then 1 else 2) && (w == 64 || r.vi == w))

/-- A placement of a plan takes rows of a region of an Arcade. -/
def Plan.takesRows (p : Plan) (a : Nat) (r : Region) : Bool :=
  p.placements.any fun y => y.arcade == a && rowsMeet y.firstRow y.lastRow r.firstRow r.lastRow

/-- RETAINED regions of a window on an Arcade that a commit of a plan leaves. -/
def State.keptRegions (s : State) (w : Nat) (p : Plan) (a : Nat) : Nat :=
  ((s.arcade a).regions.filter fun (e : Nat × Region) =>
    e.2.valid && e.2.ofWindow w && e.2.state == .retained && !p.takesRows a e.2).length

/-- 0x14: a region that overlaps another of the plan or a committed region of another window, or more descriptors than
remain: the commit frees those of the window, but for RETAINED ones whose rows it leaves (R86, R118). A placement on a row that left
region placement (R106) is refused with this code too, for which the manual names none (DESIGN CHOICE, log entry 104). -/
def State.regionFail (s : State) (w : Nat) (p : Plan) : Option PlanFail :=
  checkEach 0x14 p.placements fun i x =>
    let others := (s.arcade x.arcade).regions.filter fun (e : Nat × Region) => e.2.valid && !e.2.ofWindow w
    let before := (p.placements.take i).filter fun y => y.arcade == x.arcade
    !(before.any fun y => rowsMeet x.firstRow x.lastRow y.firstRow y.lastRow)
      && !(others.any fun e => rowsMeet x.firstRow x.lastRow e.2.firstRow e.2.lastRow)
      && !((s.arcade x.arcade).badRows.any fun r => decide (x.firstRow ≤ r) && decide (r ≤ x.lastRow))
      && decide (before.length + 1 + others.length + (s.keptRegions w p x.arcade) ≤ 64)

/-- The sessions of a window that count plan generations: those that are or have been KEYED (R205). -/
def State.planSessions (s : State) (w : Nat) : List Nat :=
  (s.sessionsOf w).filter fun sc =>
    let x := s.session sc
    x.state == .keyed || ((x.state == .closing || x.state == .faulted) && x.keyxGen != 0)

/-- 0x16, at a firing only (R375, R378): the Quarters that the bank changes. -/
def State.downFail (s : State) (w : Nat) (b : Bank) : Bool :=
  let arcs : BitVec 16 := (match b.planOf with
    | some p => p.arcades ||| (match (s.plan w).running with
      | some q => q.arcades
      | none => 0)
    | none => 0)
  (List.range 16).any (fun a => arcs.getLsbD a && (s.qcOf (a / 4)).state != .running)
    || (s.health.fcRestarting && (b.planOf.isSome || !b.binds.isEmpty))

/-- 0x17 (R417). -/
def State.powerFail (s : State) (b : Bank) : Option PlanFail :=
  let down (v : Word) : Bool := (List.range 16).any fun a =>
    s.pm.unitCtrl.getLsbD a && !v.getLsbD a && (s.rb.leases.any (fun l => l.res.bits.getLsbD a)
      || s.plans.any fun e => match e.2.running with
        | some p => p.arcades.getLsbD a
        | none => false)
  firstFail [
    checkEach 0x17 b.writes fun _ x => match stageReg x.1 with
      | some .pmUnitCtrl => !down x.2
      | _ => true,
    (match b.planOf with
    | none => none
    | some p => checkEach 0x17 (List.range 16) fun _ a => !p.arcades.getLsbD a || !s.unitDead a)]

/-- The policy of a VI as the bank leaves it. -/
def State.policyAfter (s : State) (b : Bank) (n : Nat) : Nat :=
  match b.writes.find? fun x => x.1 == 0x3600 + 8 * n with
  | some x => (x.2 &&& (StageReg.viPolicy n).mask).toNat
  | none => s.policyOf n

/-- The fractions in force for the streams and models of a VI, before frac_min raises them. -/
def State.fractionsOf (s : State) (w : Nat) : List Nat :=
  let vp := s.plan w
  vp.fractions.map (·.2.2) ++ (match vp.running with
    | some p => (p.integrity.filter fun e => !vp.fractions.any fun f => f.1 == e.target && f.2.1 == e.isModel).map (·.fraction)
    | none => [])

/-- 0x19 (R494). -/
def State.policyFail (s : State) (w : Nat) (b : Bank) : Option PlanFail :=
  if w ≠ 64 then none
  else
    let ps := (List.range 64).map (s.policyAfter b)
    let on := ps.filter polEnable
    firstFail [
      (if (on.map polLane).sum ≤ 64 && (on.map polPool).sum ≤ 128 then none else some (0x19, 0)),
      checkEach 0x19 ps fun n p =>
        (polPool p == 0 || decide (s.poolUsed n true ≤ polPool p)) && decide (polFracMin p ≤ polFracMax p)
          && (s.fractionsOf n).all fun f => decide (f ≤ polFracMax p)]

/-- A stream binding's session must be KEYED when it takes effect (R206), and no confidential session's stream may be bound to a
video SE port (R172, R226). -/
def State.bindFail (s : State) (w : Nat) (b : Bank) (h : Res) : Option PlanFail :=
  checkEach 0 b.binds fun _ x =>
    x.unbind || (s.bindable w x.session && !((s.session x.session).conf && h.seVideo x.se))

/-- The checks of a bank against the leases of an epoch; the first failing code in ascending order (log entry 14). -/
def State.checkBank (s : State) (w epoch : Nat) : Option Reply :=
  let b := s.bank w
  let deny (f : Option PlanFail) : Option Reply := f.map fun f => { status := stDenied, detail := f.1, index := f.2 }
  let plan (f : Plan → Option PlanFail) : Option Reply := deny (b.planOf.bind f)
  [plan fun p => checkEach 0x0C (List.range 16) fun _ a =>
     decide (p.wordsOn a + (match (s.plan w).running with
       | some q => q.wordsOn a
       | none => 0) ≤ 5632),
   (b.leaseFail (s.rb.heldAt w epoch)).map fun f => ({ status := stNotOwner, detail := f.1, index := f.2 } : Reply),
   plan fun p => checkEach 0x11 p.buffers fun _ x => x.pageList.all fun g => s.keepsPage w x.lsess g || s.pageFree g,
   plan fun p => if s.eventsFit w p b.integs then none else some (0x12, 0),
   deny (s.limitFail w b),
   plan fun p => s.regionFail w p,
   plan fun _ => if (s.planSessions w).all fun sc => decide ((s.session sc).openPlans.length < 8) then none else some (0x15, 0),
   deny (s.powerFail b),
   plan fun p => if p.remotes.isEmpty || s.joined then none else some (0x18, 0),
   deny (s.policyFail w b),
   deny (s.bindFail w b (s.rb.heldAt w epoch))].findSome? id

/-- STAGE_CHECK (R259). -/
def State.stageCheck (s : State) (w : Nat) : State :=
  s.result w ((s.checkBank w (s.earliestEpoch w)).getD (.ok 0))

def execStageCheck (w : Win) (s : State) : Host.Outcome State Fault Refusal :=
  actCmd (s.fcCmd w.val 0x41) (fun _ s => s.stageCheck w.val) s

/-- The COMMIT entry of an instant descriptor (R39 to R41); none for a reserved base or a non-zero reserved byte. A relative
one counts from the epoch, the device time or the phase at acceptance. -/
def commitEntry (w : Nat) (d : Bytes) (accepted epoch : Nat) (phases : List (BitVec 64)) : Option Event :=
  let value := Bytes.num d 0 8
  let base := Bits.get (Bytes.num d 8 1) 0 2
  let src := Bits.get (Bytes.num d 8 1) 4 4
  let rel := Bits.bit (Bytes.num d 9 1) 0
  let e : Event := { kind := .commit, target := BitVec.ofNat 12 w, valid := true, owner := w }
  if base = 3 || Bits.get (Bytes.num d 8 1) 2 2 ≠ 0 || Bits.get (Bytes.num d 9 1) 1 7 ≠ 0 || !allZero d 10 6 then none
  else if base = 0 then some { e with device := true, instant := BitVec.ofNat 64 ((value + if rel then epoch else 0) * 4096) }
  else if base = 1 then some { e with device := true, instant := BitVec.ofNat 64 (value + if rel then accepted else 0) }
  else some { e with source := BitVec.ofNat 4 src
                     instant := BitVec.ofNat 64 value + (if rel then phases.getD src 0 else 0) }

/-- The epoch in which a commit falls (R242). -/
def State.commitEpoch (s : State) (e : Event) : Nat :=
  if e.device then max s.epoch (e.instant.toNat / 4096) else s.predictedEpoch e

/-- STAGE_COMMIT_AT (R260). -/
def State.stageCommitAt (s : State) (w : Nat) (c : Cmd) : State :=
  let b := s.bank w
  if Bits.bit (c.u 32 1) 0 then
    match b.armed with
    | some i =>
      let s := State.unfire { s with ptu := { s.ptu with events := Tab.set {} s.ptu.events i {} } } fun k => k == i
      (s.onBank w fun b => { b with armed := none, armedEpoch := 0 }).result w (.ok 0)
    | none => if b.armedEpoch ≠ 0 then s.result w (busy (s.window w).lastEpoch) else s.result w (.ok 0)
  else
    match s.busyEpoch w with
    | some e => s.result w (busy e)
    | none =>
      if b.items.isEmpty then s.result w (.denied 8)
      else
        match commitEntry w (Bytes.slice c.inl 0 16) c.time c.epoch c.phases with
        | none => s.result w (.denied 3)
        | some e =>
          match s.checkBank w (s.earliestEpoch w) with
          | some r => s.result w r
          | none =>
            match s.freeEntry with
            | none => s.result w (.denied 0x12)
            | some i =>
              let n := s.commitEpoch e
              let s := s.onBank w fun b => { b with armed := some i, armedEpoch := n }
              (s.arm i e (s.ptu.reached e)).result w { status := stOk, epoch := n }

def execStageCommitAt (w : Win) (s : State) : Host.Outcome State Fault Refusal :=
  actCmd (s.fcCmd w.val 0x42) (fun c s => s.stageCommitAt w.val c) s

end Sys2Proof.Machine
end

