-- ==== Sys2Proof/Machine/Commit.lean ====
section
/-! DEFINITION. The COMMIT firing: what a bank's items do when they take effect together (R45, R96, R118, R121, R127, R156,
R185, R261, R494, R495, R499). -/

namespace Sys2Proof.Machine

/-! Pages and regions of a plan (R96, R118). -/

/-- The pages of a plan's buffers with their logical sessions. -/
def Plan.pageList (p : Plan) : List (Nat × Nat) := (p.buffers.map fun b => b.pageList.map fun g => (b.lsess, g)).flatten

/-- Assign a page of the free pool to the window's plan (R96). Before its logical session is bound, the page belongs to no
session. -/
def State.assignPage (s : State) (w l page : Nat) : State :=
  let vi := BitVec.ofNat 6 (if w = 64 then 0 else w)
  match s.lsessOf w l with
  | some sc => s.onOmap page fun e => ({ e with valid := true } : OmapEntry).own (s.session sc) sc
  | none => (s.onOmap page fun e => { e with valid := true, vi := vi, world := 0, session := 0, conf := 0 }).onPlan w
      fun vp => { vp with waitPages := vp.waitPages ++ [(l, page)] }

/-- The pages of a plan take the places of the running plan's: those it drops are released (R96). -/
def State.commitPages (s : State) (w : Nat) (p : Plan) : State :=
  let all : List (Nat × Nat) := match (s.plan w).running with
    | some q => q.pageList
    | none => []
  let old := all.filter fun x => s.keepsPage w x.1 x.2
  let new := p.pageList
  let gone := (old.filter fun x => !new.contains x).map (·.2)
  let kept := old.filter fun x => new.contains x
  let s := s.zeroisePages gone true false
  let s := s.onPlan w fun vp => { vp with waitPages := vp.waitPages.filter fun x => kept.contains x }
  (new.filter fun x => !kept.contains x).foldl (fun s x => s.assignPage w x.1 x.2) s

/-- A region that a placement of the new plan finds in place: RETAINED weights on the same rows, with the plan's digest, which a
WEIGHTS_LOAD can bind again (R90; log entry 15). Every other placement's region is new, and EMPTY (R118). -/
def serves (p : Plan) (r : Region) (x : Placement) : Bool :=
  r.state == .retained && r.firstRow == x.firstRow && r.lastRow == x.lastRow && !x.scratch && (match p.weights[x.weight]? with
    | some g => g.digest == r.digest
    | none => false)

/-- The regions of a window: those of its running plan, and its RETAINED ones. -/
def State.windowRegions (s : State) (w : Nat) : List (Nat × Nat) :=
  (s.arc.map fun e => (e.2.regions.filter fun (r : Nat × Region) => r.2.valid && r.2.ofWindow w).map fun r => (e.1, r.1)).flatten

/-- A descriptor is given up at once, and the zeroise of its rows goes on without it. -/
def Arcade.giveUp (c : Arcade) (w d : Nat) : Arcade :=
  let r := Tab.get {} c.regions d
  { c with
    regions := Tab.set {} c.regions d {}
    engine := if r.state == .scrubbing then c.engine.map fun (o : ZOrder) =>
        if o.items.contains d then { o with items := o.items.erase d, rows := o.rows ++ [(r.firstRow, r.lastRow)] } else o
      else c.engine ++ [{ items := [], rows := [(r.firstRow, r.lastRow)], keep := [r], win := w, toPool := true }] }

/-- A region that the new plan drops (R90, R103, R118): RETAINED weights stay so where no new placement takes their rows; any
other region is zeroised and freed, once the programs that run with the plan before have ended (R146). Where a new placement takes its
rows, its descriptor goes at once. -/
def State.dropRegion (s : State) (w : Nat) (p : Plan) (x : Nat × Nat) : State :=
  let r := Tab.get {} (s.arcade x.1).regions x.2
  if p.takesRows x.1 r then s.onArc x.1 fun c => c.giveUp w x.2
  else if r.state == .retained then s
  else if r.state == .scrubbing then s.onArc x.1 fun c => c.freeItem x.2
  else s.onArc x.1 fun c => { c with
    regions := Tab.upd {} c.regions x.2 fun g => { g with state := .scrubbing, plan := none }
    engine := c.engine ++ [{ items := [x.2], keep := [r], win := w, toPool := true }] }

/-- A descriptor for a new region: the lowest that is not in use (the Forecourt chooses; log entry 15), else one whose region
is being zeroised to be freed (R118). -/
def Arcade.freeRegion (c : Arcade) (w : Nat) : Nat × Arcade :=
  let freeing (d : Nat) : Bool := c.engine.any fun o => o.toPool && o.items.contains d
  match (List.range 64).find? fun i => !(Tab.get {} c.regions i).valid with
  | some d => (d, c)
  | none => match (List.range 64).find? freeing with
    | some d => (d, c.giveUp w d)
    | none => (63, c)

/-- Make the region of a placement, EMPTY; where a zeroise of its rows is still to run, it is SCRUBBING until its own
follows (R86, R103, R118). Answers the descriptor. -/
def State.makeRegion (s : State) (w : Nat) (x : Placement) : Nat × State :=
  let a := x.arcade
  let (d, c) := (s.arcade a).freeRegion w
  let s := s.onArc a fun _ => c
  let pending := c.engine.any fun (o : ZOrder) => o.rows.any fun r => rowsMeet x.firstRow x.lastRow r.1 r.2
  let r : Region := { firstRow := x.firstRow, lastRow := x.lastRow, vi := if w = 64 then 0 else w, scratch := x.scratch
                      shared := x.shared, second := x.second, valid := true, model := x.model, weight := x.weight
                      plan := some w }
  let (r, s) := match s.lsessOf w x.lsess with
    | some sc => (r.own (s.session sc) sc, s)
    | none => (r, s.onPlan w fun vp => { vp with waitRegions := vp.waitRegions ++ [(x.lsess, a, d)] })
  let s := s.onArc a fun c => { c with regions := Tab.set {} c.regions d r }
  (d, if pending then s.zeroiseRegion a d false false else s)

/-- The regions of a plan (R118). -/
def State.commitRegions (s : State) (w : Nat) (p : Plan) : State :=
  let own := s.windowRegions w
  let serve (x : Placement) (k : Nat × Nat) : Bool := k.1 == x.arcade && serves p (Tab.get {} (s.arcade k.1).regions k.2) x
  let kept := p.placements.filterMap fun x => own.find? (serve x)
  let s1 := (own.filter fun k => !kept.contains k).foldl (fun s k => s.dropRegion w p k) s
  let s1 := s1.onPlan w fun vp => { vp with waitRegions := vp.waitRegions.filter fun y => kept.contains y.2, regions := [] }
  p.placements.foldl (fun (t : State) x =>
    match own.find? (serve x) with
    | some k =>
      let t := t.onArc k.1 fun c => { c with regions := Tab.upd {} c.regions k.2 fun g =>
        { g with model := x.model, weight := x.weight, shared := x.shared, second := x.second, plan := some w } }
      t.onPlan w fun vp => { vp with regions := vp.regions ++ [k] }
    | none =>
      let (d, t) := t.makeRegion w x
      t.onPlan w fun vp => { vp with regions := vp.regions ++ [(x.arcade, d)] }) s1

/-! Event entries of a plan (R121, R127, R185). -/

/-- Make an entry of the window's plan; a phase entry is realigned (R44, R121, R127). One whose instant was reached at an
earlier tick is flagged late (R40). -/
def State.addEvent (s : State) (w : Nat) (e : Event) : State :=
  match s.freeEntry with
  | none => s
  | some i =>
    let e := { e with valid := true, owner := w }
    let e := if e.device then e else e.realign (s.source e.source.toNat).measure
    (s.arm i e (s.ptu.reachedBefore e)).onPlan w fun vp => { vp with events := vp.events ++ [i] }

/-- A device-time entry with a pitch of 32 bits (R41). -/
def pitched (k : EvKind) (target pitch : Nat) : Event :=
  { kind := k, device := true, target := BitVec.ofNat 12 target, nMinus1 := BitVec.ofNat 16 pitch
    k := BitVec.ofNat 16 (pitch / 2 ^ 16) }

/-- A phase entry of a source, at an offset of the anchor in the present revolution (R121, R127). -/
def State.phased (s : State) (k : EvKind) (target src n anchor offset : Nat) : Event :=
  let rev := (s.source src).measure >>> 32
  { kind := k, target := BitVec.ofNat 12 target, source := BitVec.ofNat 4 src, nMinus1 := BitVec.ofNat 16 n
    instant := (rev <<< 32) + BitVec.ofNat 64 anchor + BitVec.ofNat 64 offset }

/-- The entries of a calendar (R121). -/
def State.calendarEvents (s : State) (c : Calendar) : List Event :=
  let first : Event := if c.phase then { s.phased .inputClose c.cs c.source c.nOrPitch c.anchor 0 with periodic := true }
    else { pitched .inputClose c.cs c.nOrPitch with periodic := true, instant := BitVec.ofNat 64 (s.now + c.anchor) }
  let start : Event := { pitched .slotStart c.cs c.startDelay with rel := true }
  let leave : Event := if c.phaseRelease then
      { s.phased .release c.cs c.source c.nOrPitch c.anchor c.release with periodic := true }
    else { pitched .release c.cs c.release with rel := true }
  [first, start, leave]

/-- The entry of a NOTIFY item (R42, R127). -/
def State.notifyEvent (s : State) (w : Nat) (n : NotifyEntry) : Event :=
  let t := w * 32 + n.offset
  if n.phase then { s.phased .notify t n.source n.nOrPitch n.anchor 0 with periodic := n.periodic }
  else { pitched .notify t n.nOrPitch with periodic := n.periodic, instant := BitVec.ofNat 64 (s.now + n.anchor) }

/-- The CHECK_WINDOW entry of an Arcade (R185). -/
def State.windowEvent (s : State) (a : Nat) : Event :=
  { pitched .checkWindow a 2500 with periodic := true, instant := BitVec.ofNat 64 (s.now + 2500) }

/-- The instants of single slots that an entry holds: those armed, and those whose firing of this tick has not been taken
(R45). -/
def State.slotInstants (s : State) (i : Nat) : List (BitVec 64 × Nat) :=
  ((s.ptu.firing ++ s.ptu.deferred).filter fun f => f.idx == i && f.slot != 0).map (fun f => (BitVec.ofNat 64 s.now, f.slot))
    ++ (s.event i).armed

/-- The instant of an entry's last timed INPUT_CLOSE, one whose firing has not been taken not counted (R45, R49). -/
def State.timedBefore (s : State) (i : Nat) : Option Nat :=
  match (s.ptu.firing ++ s.ptu.deferred).find? fun f => f.idx == i && f.timed && f.kind == .inputClose with
  | some f => f.lastTimed
  | none => (s.event i).lastTimed

/-- What came after an INPUT_CLOSE that a commit has removed belongs to the window that stays open (R45, R151): a good frame waits for
that window's slot, or is a duplicate where the window has one; marks join the window's (R152, R153). -/
def Stream.joinWindows (st : Stream) : Stream :=
  let w := st.window
  let n := st.nextWindow
  { st with
    nextWindow := {}
    window := { frame := w.frame.or n.frame, failed := w.failed.or n.failed
                sawAuth := w.sawAuth || n.sawAuth, sawMalformed := w.sawMalformed || n.sawMalformed }
    waiting := if w.frame.isSome then st.waiting.filter fun g => decide (g.1 ≤ st.seq + 1)
      else st.waiting.map fun g => (min g.1 (st.seq + 1), g.2) }

/-- A stream whose INPUT_CLOSE of this tick a commit has removed. -/
def State.keepWindow (s : State) (cs : Nat) : State :=
  let st := s.stream cs
  if st.nextWindow == {} || s.closing cs then s
  else
    let s := if st.window.frame.isSome && st.nextWindow.frame.isSome then
        (s.onResult cs fun r => { r with dup := r.dup + 1 }).perf st.session 13 (2 ^ 64 - 1)
      else s
    s.onStream cs Stream.joinWindows

/-- The entries of the plan replace those of the running plan; the instants armed for slots in flight stand (R42, R121,
R156). The new entries are evaluated in this tick (R45). -/
def State.commitEvents (s : State) (w : Nat) (p : Plan) (fr : List (Nat × Bool × Nat)) : State :=
  let saved := (s.plan w).events.map fun i => { s.event i with armed := s.slotInstants i, lastTimed := s.timedBefore i }
  let s := s.dropEvents w
  let es := (p.calendars.map s.calendarEvents).flatten ++ (p.notifies.map (s.notifyEvent w))
    ++ ((s.sampledArcades w p fr).map s.windowEvent)
  let s := es.foldl (fun s e => s.addEvent w e) s
  let ours := (s.plan w).events
  let carry (i : Nat) (e : Event) : Event :=
    if ours.contains i && e.kind.isStream then
      let mine := saved.filter fun o => o.kind == e.kind && o.target == e.target
      { e with armed := (mine.map fun (o : Event) => o.armed).flatten, lastTimed := mine.findSome? fun o => o.lastTimed }
    else e
  let s := { s with ptu := { s.ptu with events := Tab.mapVals {} s.ptu.events carry } }
  s.evaluate fun i => ours.contains i && !(s.event i).heldLate

/-! The items. -/

/-- A register write takes effect (R495). -/
def State.commitWrite (s : State) (off : Nat) (v : Word) : State :=
  match stageReg off with
  | none => s
  | some r =>
    let v := v &&& r.mask
    match r with
    | .psCfg n => s.configSource n v (s.source n).gain (s.source n).lim
    | .psGain n => s.onSource n fun c => { c with gain := v }
    | .psLim n => s.onSource n fun c => { c with lim := v }
    | .pmPolicy => { s with pm := { s.pm with policy := v } }
    | .pmUnitCtrl => s.commitUnits v
    | .pmKerbCfg => { s with pm := { s.pm with kerbCfg := kerbCommit s.pm.kerbCfg v } }
    | .fmPairCfg => { s with fm := { s.fm with pairVi := v } }
    | .viPolicy n => { s with policy := Tab.set policyReset s.policy n v }

/-- The VIs that the bank disables while they are open (R494). -/
def State.disabled (s : State) (b : Bank) : List Nat :=
  (List.range 64).filter fun n => (s.window n).isOpen && polEnable (s.policyOf n) && !polEnable (s.policyAfter b n)

/-- The commits of the plans whose programs are on an Arcade or wait for one. -/
def State.gens (s : State) : List Nat :=
  (s.arc.map fun e => (e.2.running.toList ++ e.2.bulk ++ e.2.queue.map (·.prog)).map (·.gen)).flatten

/-- The counters and marks of the plans that no program runs any more leave an Arcade (R135, R146). -/
def Arcade.dropCounters (c : Arcade) (gens : List Nat) : Arcade :=
  { c with
    sy := c.sy.filter fun e => gens.contains (e.1 / 16)
    parts := c.parts.filter fun e => gens.contains (e.1 / 4096)
    partDigest := c.partDigest.filter fun e => gens.contains (e.1 / 4096) }

/-- A plan takes effect (R45, R135, R141, R146, R183, R200, R204, R205). `fr` are the INTEGRITY_SET items of the same bank. -/
def State.commitPlan (s : State) (w : Nat) (p : Plan) (fr : List (Nat × Bool × Nat)) : State :=
  let (h, s) := s.draw
  let (hc, s) := s.draw
  let p := { p with hKey := h.setWidth 128, hcKey := hc.setWidth 128 }
  let s := p.sources.foldl (fun s x => s.configSource x.source x.cfg x.gain x.lim) s
  let s := s.commitPages w p
  let s := s.commitRegions w p
  let s := s.onPlan w fun vp => { vp with running := some p, committedAt := s.now, fractions := [], lostArcs := 0 }
  let s := s.commitEvents w p fr
  let s := { s with arc := Tab.mapVals {} s.arc fun a (c : Arcade) => if p.arcades.getLsbD a then { c.dropCounters s.gens with instBase := c.instCount } else c }
  let s := s.writeSchedules w
  (s.planSessions w).foldl (fun s sc => s.planEnters sc p.measurement) s

/-- A binding item takes effect (R151, R168, R213, R499). -/
def State.commitBind (s : State) (w : Nat) (i : BindItem) : State :=
  let s := s.endStream i.cs
  if i.unbind then s
  else
    let x := s.session i.session
    let s := s.onStream i.cs fun _ =>
      { bound := true, win := w, session := i.session, lsess := i.lsess, slot := i.slot, fallback := i.fallback, si := i.si
        se := i.se, lastCounter := x.inHw, boundAt := s.now }
    { s with results := Tab.set {} s.results (64 * w + i.slot) { bound := true } }

/-- The streams of a window that the pair covers (R423): bound, with a calendar, to a pair session (log entry 16). -/
def State.coverStreams (s : State) (w : Nat) : State :=
  { s with streams := Tab.mapVals {} s.streams fun cs (st : Stream) =>
      if st.bound && st.win == w then
        { st with covered := s.joined && (s.session st.session).pair != .unpaired && (s.calendarOf cs).isSome }
      else st }

/-- A fraction of INTEGRITY_SET takes effect (R175). -/
def State.commitInteg (s : State) (w : Nat) (f : Nat × Bool × Nat) : State :=
  s.onPlan w fun vp => { vp with fractions := (vp.fractions.filter fun g => !(g.1 == f.1 && g.2.1 == f.2.1)) ++ [f] }

/-- Every item of a bank takes effect (R45, R261, R494). -/
def State.applyBank (s : State) (w : Nat) (b : Bank) : State :=
  let closing := s.disabled b
  let s := b.writes.foldl (fun s x => s.commitWrite x.1 x.2) s
  let s := match b.planOf with
    | some p => s.commitPlan w p b.integs
    | none => s
  let s := b.binds.foldl (fun s i => s.commitBind w i) s
  let s := b.integs.foldl (fun s f => s.commitInteg w f) s
  let s := (s.streams.map (·.1)).foldl (fun (s : State) cs => s.keepWindow cs) s
  let s := s.coverStreams w
  let s := if b.integs.isEmpty then s else (s.sessionsOf w).foldl (fun s sc => if s.isHome sc then s.sendCtx sc else s) s
  closing.foldl (fun s n => (s.endRunning n stAborted).closeVi n) s

/-- The bytes of a staged item: the entry of STAGE_WRITE, the plan's measurement, the inline bytes of STREAM_BIND and
INTEGRITY_SET. The manual measures "the bank's items" and gives no bytes for them (log entry 18). -/
def BankItem.bytes : BankItem → Bytes
  | .write o v => Bytes.ofNat 4 o ++ List.replicate 4 0 ++ Bytes.ofNat 8 v.toNat
  | .plan p => Bytes.big p.measurement
  | .bind b => Bytes.ofNat 2 b.cs ++ [BitVec.ofNat 8 b.lsess, BitVec.ofNat 8 b.slot, BitVec.ofNat 8 b.fallback, BitVec.ofNat 8 b.si,
      BitVec.ofNat 8 b.se, if b.unbind then 1 else 0] ++ Bytes.ofNat 2 b.session
  | .integ t m f => Bytes.ofNat 2 t ++ [if m then 1 else 0, BitVec.ofNat 8 f]

/-- A successful commit of the operator's bank extends MR7 (R347). -/
def State.measureCommit (s : State) (w : Nat) (b : Bank) : State :=
  if w = 64 then s.extendMr 7 0xFC 0 0 0 s.now (Config.sha384 (b.items.map BankItem.bytes).flatten) else s

/-- A COMMIT fires (R261): the bank is rechecked, and takes effect whole or not at all; its outcome is recorded and
told (R244). -/
def State.commitRow (s : State) (w : Nat) : State :=
  let b := s.bank w
  let e := s.epoch
  let fail : Option Reply := if s.downFail w b then some { status := stBusy, detail := 0x16 } else s.checkBank w e
  let s := s.onBank w fun b => { b with armed := none, armedEpoch := e }
  let s := match fail with
    | some _ => s
    | none => ((s.onBank w fun b => { b with items := [] }).applyBank w b).measureCommit w b
  let r := fail.getD (.ok 0)
  (s.onWin w fun x => { x with lastStatus := r.status, lastDetail := r.detail, lastEpoch := e }).viMessage w 1

/-- COMMIT (R45, R257, R261): after the lease changes of an epoch boundary at the same tick. The entry leaves the table. -/
def execCommit (e : EvIdx) (s : State) : Host.Outcome State Fault Refusal :=
  if s.ptu.atEpoch then act false id s else actFiring e.val .commit (fun f s =>
    let w := (s.event f.idx).target.toNat
    let s := { s with ptu := { s.ptu with events := Tab.set {} s.ptu.events f.idx {} } }
    if (s.bank w).armed = some f.idx then s.commitRow w else s) s

end Sys2Proof.Machine
end

