-- ==== Sys2Proof/Machine/Weights.lean ====
section
/-! DEFINITION. Weights: WEIGHTS_LOAD (R85, R88 to R90, R117, R251, R252, R454) and MEASURE (R249). -/

namespace Sys2Proof.Machine

/-- Write a weight image into the rows of a region (R117): the data words of every row in ascending order, then the side
words of every row where the image carries them. -/
def Arcade.writeImage (c : Arcade) (r : Region) (mx : Bool) (img : Bytes) : Arcade :=
  let rows := r.lastRow + 1 - r.firstRow
  let c := c.zeroRows r.firstRow r.lastRow
  { c with
    als := Tab.setMany 0 c.als (r.firstRow * 8192) (Bytes.slice img 0 (rows * 8192))
    side := if mx then Tab.setMany 0 c.side (r.firstRow * 512) (Bytes.slice img (rows * 8192) (rows * 512)) else c.side }

/-- The bytes of a region in the order of a weight image (R117). -/
def Arcade.imageOf (c : Arcade) (r : Region) (mx : Bool) : Bytes :=
  let rows := r.lastRow + 1 - r.firstRow
  Tab.getMany 0 c.als (r.firstRow * 8192) (rows * 8192) ++ (if mx then Tab.getMany 0 c.side (r.firstRow * 512) (rows * 512) else [])

/-- Change a region of an Arcade. -/
def State.onRegion (s : State) (k : Nat × Nat) (f : Region → Region) : State :=
  s.onArc k.1 fun c => { c with regions := Tab.upd {} c.regions k.2 f }

def State.regionAt (s : State) (k : Nat × Nat) : Region := Tab.get {} (s.arcade k.1).regions k.2

/-- The regions that committed PLACEMENT entries of a WEIGHT index made (R252). -/
def State.loadRegions (s : State) (w weight : Nat) : List (Nat × Nat) :=
  let vp := s.plan w
  match vp.running with
  | none => []
  | some p => (p.placements.zip vp.regions).filterMap fun x =>
      if !x.1.scratch && x.1.weight == weight then some x.2 else none

/-- The session of a region: that to which the logical session of its placement is bound (R118, R251). -/
def State.regionSession (s : State) (w : Nat) (k : Nat × Nat) : Option Nat :=
  let vp := s.plan w
  match vp.running with
  | none => none
  | some p => ((p.placements.zip vp.regions).find? fun x => x.2 == k).bind fun x => s.lsessOf w x.1.lsess

/-- A region is measured, and belongs to its session (R86, R88, R118). -/
def State.takeRegion (s : State) (w : Nat) (k : Nat × Nat) (digest : BitVec 384) : State :=
  s.onRegion k fun r =>
    let r := match s.regionSession w k with
      | some sc => r.own (s.session sc) sc
      | none => r
    { r with state := .measured, digest := digest }

/-- One region is loaded (R88): it is LOADING, its rows are written, and the digest of the bytes makes it MEASURED, or it is
zeroised and returns to EMPTY. -/
def State.loadRegion (s : State) (w : Nat) (k : Nat × Nat) (g : Weight) (img : Bytes) : State :=
  let s := s.onRegion k fun r => { r with state := .loading }
  let s := s.onArc k.1 fun c => c.writeImage (Tab.get {} c.regions k.2) g.mx img
  if Config.sha384 img = g.digest then s.takeRegion w k g.digest else s.zeroiseRegion k.1 k.2 false false

/-- A region that may be filled: it stands for a placement of the window's plan still (R252), and is not being zeroised or filled. -/
def Region.fillable (r : Region) (w : Nat) : Bool := r.valid && r.plan == some w && r.state != .scrubbing && r.state != .loading

/-- The image is in the block: the regions that do not hold it already are filled and measured; a digest that differs
leaves them zeroised (R88, R90). -/
def State.fillRegions (s : State) (w : Nat) (g : Weight) (ks : List (Nat × Nat)) (img : Bytes) : State :=
  let keeps (k : Nat × Nat) : Bool := (s.regionAt k).state == .retained && (s.regionAt k).digest == g.digest
  let bound := (ks.filter keeps).foldl (fun s k => s.takeRegion w k g.digest) s
  let load := ks.filter fun k => !keeps k
  if load.isEmpty then bound.result w (.ok 0)
  else
    let good := decide (Config.sha384 img = g.digest)
    let s := load.foldl (fun (s : State) k => s.loadRegion w k g img) bound
    let s := s.onSlotOf w fun x => { x with undo := .regions load }
    s.result w (if good then .ok 0 else .denied 0)

/-- WEIGHTS_LOAD. While the plane is off nothing can be loaded (R407; DEDUCED, log entry 105). Nothing is read where every region is RETAINED with the weight's digest (R252). -/
def State.weightsLoad (s : State) (w : Nat) (c : Cmd) (img : HostRead) : State :=
  let sc := c.session
  let weight := c.u 16 2
  let l := c.u 18 1
  let n := c.u 32 4
  let ks := s.loadRegions w weight
  match (s.plan w).running.bind fun p => p.weights[weight]? with
  | none => s.result w (.denied 0)
  | some g =>
    if !s.bindable w sc || ks.isEmpty || 64 ≤ l || s.pm.planeOff then s.result w (.denied 0)
    else
      match s.bindLsess w l sc with
      | none => s.result w (.denied 5)
      | some t =>
        if !(ks.all fun k => (s.held w).hasArc k.1) then s.result w { status := stNotOwner }
        else if n ≠ g.length then s.result w { status := if n < g.length then stLenShort else stLenLong }
        else if !(ks.all fun k => (s.regionAt k).fillable w) then s.result w (.denied 0)
        else if ks.all fun k => (s.regionAt k).state == .retained && (s.regionAt k).digest == g.digest then
          t.fillRegions w g ks []
        else
        if img.err || img.poison then
          (ks.foldl (fun (s : State) k =>
            if (s.regionAt k).state == .retained && (s.regionAt k).digest == g.digest then s else s.zeroiseRegion k.1 k.2 false false)
            ((s.hostRead (windowWorld w) (c.u 24 8) n).readFailed img (c.u 24 8))).result w { status := stFault }
        else (t.hostRead (windowWorld w) (c.u 24 8) n).fillRegions w g ks (Bytes.slice img.bytes 0 n)

def execWeightsLoad (w : Win) (img : HostRead) (s : State) : Host.Outcome State Fault Refusal :=
  actCmd (s.fcCmd w.val 0x31) (fun c s => s.weightsLoad w.val c img) s

/-- A word of a region is poisoned (R98). -/
def Arcade.regionPoisoned (c : Arcade) (r : Region) : Bool :=
  (c.alsPoison.any fun e => decide (r.firstRow * 1024 ≤ e.1 ∧ e.1 < (r.lastRow + 1) * 1024) && e.2)
    || (c.sidePoison.any fun e => decide (r.firstRow * 128 ≤ e.1 ∧ e.1 < (r.lastRow + 1) * 128) && e.2)

/-- MEASURE (R249): a region is digested again; one that differs from the plan's digest is BROKEN, and has no measurement.
A word that the codes cannot correct as it is read is poisoned (R99), and its data is no longer that of the image (log
entry 91). -/
def State.measureRow (s : State) (w : Nat) (c : Cmd) (u : List Upset) : State :=
  let i := c.u 16 2
  let vp := s.plan w
  match vp.running, vp.regions[i]? with
  | some p, some k =>
    (match p.placements[i]?.bind fun x => if x.scratch then none else p.weights[x.weight]? with
    | none => s.result w (.denied 0)
    | some g =>
      let r := s.regionAt k
      if !(s.held w).hasArc k.1 then s.result w { status := stNotOwner }
      else if r.state != .measured || r.plan != some w then s.result w (.denied 0)
      else
        let s := s.applyUpsets k.1 r.session u
        if !(s.arcade k.1).regionPoisoned r && decide (Config.sha384 ((s.arcade k.1).imageOf r g.mx) = g.digest) then s.result w (.ok 0)
        else (s.onRegion k fun r => { r with state := .broken, digest := 0 }).result w { status := stFault })
  | _, _ => s.result w (.denied 0)

def execMeasure (w : Win) (u : List Upset) (s : State) : Host.Outcome State Fault Refusal :=
  actCmd (s.fcCmd w.val 0x32) (fun c s => s.measureRow w.val c u) s

end Sys2Proof.Machine
end

