-- ==== Sys2Proof/Machine/Jobs.lean ====
section
/-! DEFINITION. Bulk jobs: JOB_SUBMIT, JOB_CHECKPOINT and JOB_RESUME (R169, R201, R212, R214, R249, R253, R410), the
writing of job records (R169 to R171) and checkpoints at the plan's intervals (R201). -/

namespace Sys2Proof.Machine

/-! Parameters. -/

/-- The first chunk counter and the buffer entries of a job command (R214, R240, R249); none where the parameters are too
short or not whole entries. -/
def Cmd.jobEntries (c : Cmd) (conf : Bool) : Option (Nat × List Bytes) :=
  let lead := if c.g1 && conf then 8 else 0
  let n := c.params.length
  if n < lead ∨ (n - lead) % 16 ≠ 0 then none
  else some (if c.g1 then Bytes.num c.params 0 lead else c.u 40 8, Bytes.chunks 16 32 (c.params.drop lead))

/-- A result ring: its base aligned to 64 bytes, its entries a power of two from 16 to 65,536 (R169). -/
def ringOk (base entries : Nat) : Bool := base % 64 == 0 && (List.range 13).any fun k => entries == 2 ^ (k + 4)

/-- A buffer entry's first fault: a reserved byte, or no HOST buffer of the plan and the logical session (R115, R249). -/
def Plan.inputFail (p : Plan) (l : Nat) (e : Bytes) : Option Nat :=
  if Bytes.num e 2 6 ≠ 0 then some 3
  else match p.buffers[Bytes.num e 0 2]? with
    | some b => if b.use = 3 ∧ b.lsess = l then none else some 0
    | none => some 0

/-- Why a window's job command is refused before it starts anything (R169, R214, R249, R253, R257, R424). -/
def State.jobRefusal (s : State) (w : Nat) (c : Cmd) : Option Reply :=
  let sc := c.session
  let x := s.session sc
  let l := c.u 18 1
  match (s.plan w).running with
  | none => some (.denied 0)
  | some p =>
    let es := p.schedules.filter fun e => e.kind == 2 && e.trigger == c.u 16 2
    if !s.bindable w sc then some (.denied 0)
    else if s.standbyRefuses sc then some (.denied 0x29)
    else if es.isEmpty || 64 ≤ l || es.any (fun e => e.lsess != l) then some (.denied 0)
    else if es.any fun e => !(s.held w).hasArc e.arcade then some { status := stNotOwner }
    else
      match c.jobEntries x.conf with
      | none => some { status := stLenShort }
      | some (first, ins) =>
        if !ringOk (c.u 24 8) (c.u 32 4) then some (.denied 0x2A)
        else if x.conf && decide (first ≤ x.chunkHw.toNat) then some (.denied 0)
        else
          match (ins.mapIdx fun i e => (i, p.inputFail l e)).find? fun r => r.2.isSome with
          | some (i, d) => some { status := stDenied, detail := d.getD 0, index := i }
          | none => none

/-! Inputs. -/

/-- The sealed chunks of an input (R214): plaintext bytes of each, at most 64 KiB. -/
def chunkSizes (total : Nat) : List Nat :=
  (List.range ((total + 65535) / 65536)).map fun i => min 65536 (total - 65536 * i)

/-- Open the chunks of an input in order, from a chunk counter on: the plaintexts that open, and whether all do. -/
def openChunks (key : BitVec 256) : List Nat → Nat → Bytes → List Bytes × Bool
  | [], _, _ => ([], true)
  | n :: r, counter, b =>
    match gcmUnseal key (gcmNonce 3 0 counter) [] (Bytes.slice b 0 n) (Bytes.slice b n 16) with
    | none => ([], false)
    | some plain =>
      let (rest, ok) := openChunks key r (counter + 1) (b.drop (n + 16))
      (plain :: rest, ok)

/-- Where the inputs of a job end: brought in whole, a read that failed, or a chunk whose tag failed. -/
inductive InputEnd where
  | good | readError | badTag
deriving DecidableEq, Repr

/-- Bring an input into its buffer: whole in the clear, by opened chunks where the session is confidential (R214, R454).
Answers the next chunk counter. -/
def State.bringInput (s : State) (sc : Nat) (b : Buffer) (addr counter : Nat) (r : HostRead) : State × Nat × InputEnd :=
  let x := s.session sc
  let n := b.pages * 1024
  let s := s.hostRead (s.sessionWorld sc) addr (if x.conf then n + 16 * (chunkSizes n).length else n)
  if r.err || r.poison then (s.readFailed r addr, counter, .readError)
  else
    let s := s.perf sc 14 r.bytes.length
    if x.conf then
      let (plain, ok) := openChunks ((s.sessionKey sc).getD 0) (chunkSizes n) counter r.bytes
      let s := { s with pz := s.pz.writeBytes b.base plain.flatten }
      let next := counter + plain.length
      let s := if plain.isEmpty then s else s.onSess sc fun x => { x with chunkHw := BitVec.ofNat 64 (next - 1) }
      (s, next, if ok then .good else .badTag)
    else ({ s with pz := s.pz.writeBytes b.base (Bytes.slice r.bytes 0 n) }, counter, .good)

/-- Bring the inputs in, in the order of the descriptors; the first that fails ends the work. -/
def State.bringInputs (s : State) (sc : Nat) (p : Plan) : List Bytes → List HostRead → Nat → State × InputEnd
  | [], _, _ => (s, .good)
  | e :: es, rs, counter =>
    match p.buffers[Bytes.num e 0 2]? with
    | none => (s, .good)
    | some b =>
      let (s, next, r) := s.bringInput sc b (Bytes.num e 8 8) counter (rs.headD { bytes := [] })
      if r = .good then State.bringInputs s sc p es rs.tail next else (s, r)

/-! Start. -/

/-- The lowest free job number (R253). -/
def State.freeJob (s : State) : Option Nat := lowestWith (fun j => !(s.job j).active) 1024 0

/-- The order of shedding (R13, R253): a lower priority first, and of equal priority the higher job number. -/
def State.shedsBefore (s : State) (a b : Nat) : Bool :=
  decide ((s.job a).priority < (s.job b).priority) || ((s.job a).priority == (s.job b).priority && decide (b < a))

/-- A job submitted while jobs are shed starts shed where it comes before one of them, and is shed with it (R410). -/
def State.shedNew (s : State) (j : Nat) : State :=
  let later (d : Descent) : Bool := match d with
    | .jobs js => js.any fun k => (s.job k).active && (s.job k).shed && s.shedsBefore j k
    | _ => false
  match s.pm.descents.findIdx? later with
  | none => s
  | some i =>
    let put (js : List Nat) : List Nat :=
      js.takeWhile (fun k => !s.shedsBefore j k) ++ [j] ++ js.dropWhile fun k => !s.shedsBefore j k
    let ds := s.pm.descents.mapIdx fun k d => match d with
      | .jobs js => if k = i then Descent.jobs (put js) else d
      | _ => d
    State.onJob { s with pm := { s.pm with descents := ds } } j fun x => { x with shed := true }

/-- The STATE buffers of a schedule trigger's entries, in the order of the schedule. -/
def Plan.stateBuffers (p : Plan) (entry : Nat) : List Buffer :=
  (((List.range p.schedules.length).filter fun i => match p.scheduleAt i with
    | some y => y.kind == 2 && y.trigger == entry
    | none => false).map fun i => (p.boundBuffers i 2).map (·.2)).flatten

/-- The data movers may reach the pages of a job's inputs and of its STATE buffers for the session (R95). -/
def State.jobPagesOk (s : State) (sc : Nat) (p : Plan) (entry : Nat) (ins : List Bytes) : Bool :=
  (ins.all fun e => match p.buffers[Bytes.num e 0 2]? with
    | some b => s.bufferOk 0x28 sc b
    | none => true) && (p.stateBuffers entry).all fun b => s.bufferOk 0x28 sc b

/-- Start a job of a window (R95, R169, R214, R253). `restore` puts a checkpoint's state into the STATE buffers. -/
def State.startJob (s : State) (w : Nat) (c : Cmd) (inputs : List HostRead) (restore : Nat → State → State) : State :=
  let sc := c.session
  match s.bindLsess w (c.u 18 1) sc, s.freeJob, (s.plan w).running with
  | none, _, _ => s.result w (.denied 5)
  | some _, none, _ | some _, _, none => s.result w { status := stBusy }
  | some s, some j, some p =>
    let x : Job := { active := true, win := w, session := sc, lsess := c.u 18 1, entry := c.u 16 2, priority := c.u 19 1
                     ringBase := c.u 24 8, ringEntries := c.u 32 4, vector := BitVec.ofNat 16 (c.u 36 2)
                     coalesce := c.u 38 2 }
    let (first, ins) := (c.jobEntries (s.session sc).conf).getD (0, [])
    if !s.jobPagesOk sc p (c.u 16 2) ins then s.result w (.denied 0)
    else
    let s := (s.onJob j fun _ => x).shedNew j
    let (s, e) := s.bringInputs sc p ins inputs first
    let s := s.result w (.ok j)
    match e with
    | .readError => s.endJob j stFault
    | .badTag =>
      let y := s.session sc
      (s.report { event := 0x0205, unitKind := 0, session := sc, origin := j, vi := if y.operator then 255 else y.vi
                  world := if y.operator then 1 else 2 }).endJob j stFault
    | .good =>
      let s := restore j s
      let s := s.onJob j fun y => { y with ckpt := some (s.jobState j, 0, (s.session sc).rseqNext.toNat) }
      s.startJobStep j

def execJobSubmit (w : Win) (inputs : List HostRead) (s : State) : Host.Outcome State Fault Refusal :=
  actCmd (s.fcCmd w.val 0x50) (fun c s => match s.jobRefusal w.val c with
    | some r => s.result w.val r
    | none => s.startJob w.val c inputs fun _ s => s) s

/-! Checkpoints (R201, R212, R214). The manual lays out no checkpoint of a job: the model's holds the session's job
checkpoint number in 8 bytes and the STATE buffers in the order of the schedule, sealed under R212 where the session is
confidential (log entry 17). -/

/-- The STATE buffers of a job's running plan, by line address. -/
def State.stateAddrs (s : State) (p : Plan) (entry : Nat) : List Nat :=
  (((p.stateBuffers entry).map s.bufferLines).flatten).map (·.1)

/-- The blob of a checkpoint. -/
def State.jobBlob (s : State) (sc n : Nat) (lines : List (Nat × Bytes × Bool)) : Bytes :=
  let plain := (lines.map (·.2.1)).flatten
  let head := Bytes.ofNat 8 n
  if (s.session sc).conf then
    let (c, t) := gcmSeal ((s.sessionKey sc).getD 0) (gcmNonce 4 0 n) [] plain
    head ++ c ++ t
  else head ++ plain

/-- The Arcades of a job's programs. -/
def State.jobArcs (s : State) (j : Nat) : List Nat := (s.jobEntries j).map fun e => e.2.arcade

/-- The job's fraction is not 0 (R201): the model of one of its programs is sampled. -/
def State.jobSampled (s : State) (j : Nat) : Bool :=
  let w := (s.job j).win
  match (s.plan w).running with
  | none => false
  | some p => (s.jobEntries j).any fun e => match p.modelOf e.1 with
      | some m => s.fractionOf w m true != 0
      | none => false

/-- No span of a job is in flight: each of its programs stands at a span boundary. -/
def State.betweenSpans (s : State) (j : Nat) : Bool :=
  s.arc.all fun e => (e.2.running.toList ++ e.2.bulk ++ e.2.queue.map (·.prog)).all fun p => !p.ofJob j || p.atBoundary

/-- A checkpoint may be taken (R201): no span of the job is in flight, no check of the job is outstanding, and on each of its Arcades the span that was
selected for the checkpoint is the last that ended, and it has been checked. -/
def State.ckptReady (s : State) (j : Nat) : Bool :=
  let sc := (s.job j).session
  !s.jobSampled j
    || (s.betweenSpans j && !(s.arc.any fun e => e.2.checks.any fun k => k.isJob && k.origin == j)
        && (s.jobArcs j).all fun a =>
          let c := s.arcade a
          let f := Tab.get 0 c.forced sc
          f != 0 && f == Tab.get 0 c.spanEnd sc && f == Tab.get 0 c.passInst sc)

/-- A checkpoint is wanted of a job: the next span of each of its programs is selected (R201). -/
def State.wantCkpt (s : State) (j : Nat) : State :=
  if (s.job j).ckptSelect then s
  else
    let sc := (s.job j).session
    let s := (s.jobArcs j).foldl (fun (s : State) a => s.onArc a fun c => { c with forced := Tab.set 0 c.forced sc 0 }) s
    s.onJob j fun x => { x with ckptSelect := true }

/-- The byte ranges of a blob that come from poisoned lines. -/
def poisonedRanges (lines : List (Nat × Bytes × Bool)) : List (Nat × Nat) :=
  ((lines.mapIdx fun i l => (8 + 64 * i, 64, l.2.2)).filter fun r => r.2.2).map fun r => (r.1, r.2.1)

/-- The checkpoint is taken and written; the job's programs go on. Beats from poisoned lines are poisoned, and recorded
(R100, R454). -/
def State.takeCkpt (s : State) (j addr : Nat) : State :=
  let x := s.job j
  let y := s.session x.session
  let n := y.jobCkptNo + 1
  let blob := s.jobBlob x.session n (s.jobState j)
  let bad := poisonedRanges (s.jobState j)
  let s := (s.hostWrite (s.sessionWorld x.session) addr blob bad).perf x.session 15 blob.length
  let s := match bad with
    | [] => s
    | r :: _ => s.report { event := 0x0408, unitKind := 0, location := (addr + r.1) / 64 * 64 }
  let s := s.onSess x.session fun y => { y with jobCkptNo := n }
  s.onJob j fun z => { z with
    ckptSelect := false, ckpt := some (s.jobState j, z.seq + z.ready.length, y.rseqNext.toNat), since := 0, kept := z.ready.length }

/-- The data movers may read a job's STATE buffers (R95). -/
def State.jobStateOk (s : State) (j : Nat) : Bool := (s.jobState j).all fun l => s.pageOk 0x28 (s.job j).session l.1

/-- JOB_CHECKPOINT (R201, R249, R454). Until the checkpoint may be taken, the command waits. -/
def State.jobCheckpoint (s : State) (w : Nat) (c : Cmd) (writeErr : Bool) (u : List Upset) : State :=
  let j := c.u 16 2
  let x := s.job j
  if !(decide (j < 1024) && x.active && x.win == w) then s.result w (.denied 0)
  else if c.u 32 4 < (s.jobBlob x.session 0 (s.jobState j)).length then s.result w (.denied 4)
  else if !s.jobStateOk j then s.result w (.denied 0)
  else if !s.ckptReady j then s.wantCkpt j
  else if writeErr then (s.onJob j fun x => { x with ckptSelect := false }).result w { status := stFault }
  else
    let s := s.onSlotOf w fun y => { y with undo := .ckpt j x.ckpt x.since x.kept }
    ((s.piazzaReads u).takeCkpt j (c.u 24 8)).result w (.ok 0)

def execJobCheckpoint (w : Win) (writeErr : Bool) (u : List Upset) (s : State) : Host.Outcome State Fault Refusal :=
  actCmd (s.fcCmd w.val 0x51) (fun c s => s.jobCheckpoint w.val c writeErr u) s

/-- PLAN_INTERVAL_CHECKPOINT (R201). The manual gives no place of the plan that names the address: it is a free value
(log entry 17). -/
def State.intervalCkpt (s : State) (j : Nat) (writeErr : Bool) (u : List Upset) : State :=
  if !s.jobStateOk j then s.accessRefused (s.job j).session 0
  else if !s.ckptReady j then s.wantCkpt j
  else if writeErr then s.onJob j fun x => { x with ckptSelect := false }
  else
    let (a, s) := (s.piazzaReads u).freeNext
    s.takeCkpt j a.toNat

def execPlanIntervalCheckpoint (job : Fin 1024) (writeErr : Bool) (u : List Upset) (s : State) : Host.Outcome State Fault Refusal :=
  act (s.fcUp && (s.job job.val).active) (fun s => s.intervalCkpt job.val writeErr u) s

/-- The state that a checkpoint's blob holds, where its tag verifies (R214). -/
def State.openBlob (s : State) (sc : Nat) (b : Bytes) : Option Bytes :=
  if (s.session sc).conf then
    let body := b.drop 8
    let n := body.length - 16
    gcmUnseal ((s.sessionKey sc).getD 0) (gcmNonce 4 0 (Bytes.num b 0 8)) [] (body.take n) (body.drop n)
  else some (b.drop 8)

/-- Write a checkpoint's state over the STATE buffers of a job. -/
def State.putState (s : State) (addrs : List Nat) (plain : Bytes) : State :=
  let put (z : Piazza) (l : Nat × Bytes) : Piazza := z.writeLine l.1 l.2 false
  { s with pz := (addrs.zip (Bytes.chunks 64 addrs.length plain)).foldl put s.pz }

/-- JOB_RESUME (R214, R249, R454). -/
def State.jobResume (s : State) (w : Nat) (c : Cmd) (blob : HostRead) (inputs : List HostRead) : State :=
  let sc := c.session
  match s.jobRefusal w c, (s.plan w).running with
  | some r, _ => s.result w r
  | none, none => s.result w (.denied 0)
  | none, some p =>
    let addrs := s.stateAddrs p (c.u 16 2)
    let want := 8 + 64 * addrs.length + (if (s.session sc).conf then 16 else 0)
    let n := c.u 56 4
    if n ≠ want then s.result w { status := if n < want then stLenShort else stLenLong }
    else
    let s := s.hostRead (windowWorld w) (c.u 48 8) n
    if blob.err || blob.poison then (s.readFailed blob (c.u 48 8)).result w { status := stFault }
    else
      match s.openBlob sc (Bytes.slice blob.bytes 0 n) with
      | none => s.result w (.denied 0)
      | some plain => State.startJob (s.perf sc 14 n) w c inputs fun _ s => s.putState addrs plain

def execJobResume (w : Win) (blob : HostRead) (inputs : List HostRead) (s : State) : Host.Outcome State Fault Refusal :=
  actCmd (s.fcCmd w.val 0x52) (fun c s => s.jobResume w.val c blob inputs) s

/-! Records (R160, R162, R169 to R171, R212). -/

/-- The bytes of a ring entry (R169). -/
def ringStride (record : Nat) : Nat := (record + 63) / 64 * 64

/-- A message of a job: once its coalescing count of records is reached (R169). -/
def State.jobMessage (s : State) (j : Nat) : State :=
  let x := s.job j
  if x.coalesce ≤ x.unsignalled then
    (s.message x.win x.vector.toNat).onJob j fun x => { x with unsignalled := 0 }
  else s

/-- The record of a job that waits the longest is receipted and written to its ring, the body before the header (R169,
R170); after a restart it carries redo (R171). -/
def State.writeJobRecord (s : State) (j : Nat) (writeErr : Bool) : State :=
  let x := s.job j
  match x.ready with
  | [] => s
  | q :: rest =>
    let sc := x.session
    let (n, fmt) := s.jobPayload j
    let fl := q.flags.toNat + (if q.redo then 2048 else 0)
    let h := recordHeader j rsOk 0 1 0 fl 0 fmt q.seq 0 q.formed q.rseq n []
    let r := s.sealRecord sc q.rseq q.planGen.toNat q.keyxGen.toNat rsOk h (Bytes.slice q.payload 0 n) (s.session sc).conf
    let b := r.released s.now false
    let at0 := x.ringBase + (q.seq - 1) % x.ringEntries * ringStride b.length
    if writeErr then s.endJob j stFault
    else
      let s := (s.hostWrite (s.sessionWorld sc) (at0 + 64) (b.drop 64)).hostWrite (s.sessionWorld sc) at0 (b.take 64)
      let s := (s.fold sc q.rseq r.tag s.now).perf sc 15 b.length
      let s := s.onJob j fun x => { x with seq := q.seq, ready := rest, unsignalled := x.unsignalled + 1
                                           since := if x.kept = 0 then x.since + 1 else x.since, kept := x.kept - 1 }
      (s.jobMessage j).settleKeys sc

/-- JOB_RECORD_WRITE (R169, R170). -/
def execJobRecordWrite (job : Fin 1024) (writeErr : Bool) (s : State) : Host.Outcome State Fault Refusal :=
  act (let x := s.job job.val
       x.active && !x.ready.isEmpty && !x.ringFull && (s.sessionKey x.session).isSome)
    (fun s => s.writeJobRecord job.val writeErr) s

end Sys2Proof.Machine
end

