-- ==== Sys2Proof/Machine/Flash.lean ====
section
/-! DEFINITION. The fuses (R299, R305, R306), the KSI
container (R274, R275) and the checks of an image (R276 to R280). -/

namespace Sys2Proof.Machine

/-! Fuses. -/

/-- Blow bits of a fuse word; blown bits stay (R305). -/
def State.blow (s : State) (w : Nat) (bits : BitVec 32) : State :=
  { s with fuses := Tab.upd 0 s.fuses w fun v => v ||| bits }

/-- The fuse words that a byte string fills from word w on. -/
def fuseWords (w : Nat) (b : Bytes) : List (Nat × BitVec 32) :=
  (Bytes.chunks 4 b.length b).mapIdx fun i c => (w + i, BitVec.ofNat 32 (Bytes.toNat c))

/-- A fuse operation: its words are blown in order (R305). `stuck` is a word whose read-back still lacks a requested bit after
three more tries: which of its bits took is open, the words after it are not blown, and the health unit is informed. The flag says
that every word took. -/
def State.blowList : List (Nat × BitVec 32) → Option (Fin 512) → State → Bool × State
  | [], _, s => (true, s)
  | (w, b) :: r, stuck, s =>
    if (stuck.any fun x => x.val == w) && (b &&& ~~~(Tab.get 0 s.fuses w)) != 0 then
      let (v, s) := s.freeNext
      (false, State.blow { s with health := { s.health with fuseReports := s.health.fuseReports + 1 } } w (b &&& v.setWidth 32))
    else State.blowList r stuck (s.blow w b)

/-- Blow every bit of n words, as an operation of its own for each word: the boot ROM goes on past one that does not take. -/
def State.blowAll (s : State) (w n : Nat) (stuck : Option (Fin 512)) : State :=
  (List.range n).foldl (fun s i => (s.blowList [(w + i, 0xFFFF_FFFF)] stuck).2) s

/-- A lane-repair entry of the fuses (R308). -/
structure LaneRepair where
  segment : Nat
  group : Nat
  lane : Nat
  spare : Nat
deriving DecidableEq, Repr

def parseRepair (w : BitVec 32) : Option LaneRepair :=
  if w.getLsbD 31 && Bits.get w.toNat 19 12 == 0 then
    some { segment := Bits.get w.toNat 0 4, group := Bits.get w.toNat 4 8, lane := Bits.get w.toNat 12 6, spare := Bits.get w.toNat 18 1 }
  else none

/-- The steering that the fuses hold: words 312 to 439 (R105, R306, R308). -/
def State.laneRepairs (s : State) : List LaneRepair := (List.range 128).filterMap fun i => parseRepair (s.fuse (312 + i))

/-- The spare that carries a lane of a group of a segment's bond field, where the lane is steered (R105). -/
def State.laneSpare (s : State) (segment group lane : Nat) : Option Nat :=
  (s.laneRepairs.find? fun r => r.segment == segment && r.group == group && r.lane == lane).map fun r => r.spare

/-- The first fuse word of a digest slot: VK0 to VK3, then OK0 to OK3 (R306). -/
def slotWord (k : Nat) : Nat := 128 + 14 * k

/-- The commit word of a digest slot is written (R306). -/
def State.slotCommitted (s : State) (k : Nat) : Bool := s.fuse (slotWord k + 12) == 0xFFFF_FFFF

/-- No bit of a digest slot is blown. -/
def State.slotBlank (s : State) (k : Nat) : Bool := (List.range 13).all fun i => s.fuse (slotWord k + i) == 0

/-- A slot is revoked: a bit of its revocation word is blown, or digest bits stand with no commit word (R306). -/
def State.slotRevoked (s : State) (k : Nat) : Bool :=
  s.fuse (240 + k) != 0 || (!s.slotCommitted k && !s.slotBlank k)

/-- The digest of a slot. -/
def State.slotDigest (s : State) (k : Nat) : Bytes := s.fuseBytes (slotWord k) 12

/-- No owner key slot is programmed (R277, R301, R311). -/
def State.noOwner (s : State) : Bool := (List.range 4).all fun k => !s.slotCommitted (4 + k)

/-- Raise an anti-rollback counter to a value, in MANUF and OWNED alone (R306): the lowest unblown bits of its thermometer are blown
(R279), until one does not take (R305). -/
def State.raiseCounter (s : State) (n v : Nat) (stuck : Option (Fin 512)) : State :=
  if s.lc.state ≠ 3 ∧ s.lc.state ≠ 4 then s
  else ((List.range 255).foldl (fun (x : Bool × State) i =>
    let w := 256 + 8 * n + i / 32
    if x.1 && x.2.counterValue n < v && !(x.2.fuse w).getLsbD (i % 32) then x.2.blowList [(w, BitVec.ofNat 32 (2 ^ (i % 32)))] stuck
    else x) (true, s)).2

/-! The checks of R276. -/

/-- Check 1 of R276: the form of the header, the component expected, and the sizes; `room` are the container's bytes. -/
def ksiFormOk (b : Bytes) (want room : Nat) : Bool :=
  let u := Bytes.num b
  let k := parseKsi b
  let c := k.component
  u 0 4 == 0x4B53_4947 && u 4 2 == 0x0200 && u 6 2 == 256 && u 44 4 == 0x5302 && u 11 1 == 0 && allZero b 112 144 && allZero b 7667 13
    && Bits.get (u 13 1) 1 7 == 0 && (k.states &&& ~~~0x003A#16) == 0 && decide (u 9 1 ≤ 1) && decide (u 10 1 ≤ 3)
    && (if c = 0 then decide (k.innerBytes ≤ k.payloadBytes) else k.innerBytes == 0)
    && (if c = 0xF2 || (decide (2 ≤ c) && decide (c ≤ 33)) then k.entry == 0 else true)
    && c == want && decide (ksiHead + k.payloadBytes ≤ room) && loadOk k
    && (match componentLimit c with
      | some l => decide (k.payloadBytes ≤ l.1)
      | none => false)

/-- The key class of an image is allowed (R277). -/
def State.classOk (s : State) (k : Ksi) : Bool :=
  let owner := (decide (2 ≤ k.component) && decide (k.component ≤ 33)) || k.component == 0xF2
  if s.lc.state = 1 ∨ s.lc.state = 5 then true
  else if s.lc.state = 4 && owner then k.keyClass == 1 || s.noOwner
  else k.keyClass == 0

/-- The digest slot that a class and an index name. -/
def digestSlot (keyClass keyIndex : Nat) : Nat := 4 * keyClass + keyIndex

/-- The message of R275 and R309: the measurement; and the two public keys and signatures of a signature block at byte 256. -/
def blockSignatures (b : Bytes) (m : BitVec 384) : Bool × Bool :=
  (Config.ecdsaVerify (Bytes.slice b 256 96) (Bytes.big m) (Bytes.slice b 2944 96),
    Config.mldsaVerify 87 (Bytes.slice b 352 2592) (Bytes.big m) (Bytes.slice b 3040 4627))

/-- The key digest of a signature block. -/
def blockKeyDigest (b : Bytes) : Bytes := Bytes.big (Config.sha384 (Bytes.slice b 256 2688))

/-- Checks 1 to 7 of R276: the failure code of the first that fails. -/
def State.headerFail (s : State) (b : Bytes) (want room : Nat) : Option Nat :=
  let k := parseKsi b
  let slot := digestSlot k.keyClass k.keyIndex
  let sg := blockSignatures b k.measurement
  if !ksiFormOk b want room then some 1
  else if !k.states.getLsbD s.lc.state then some 2
  else if !(s.classOk k && s.slotCommitted slot && blockKeyDigest b == s.slotDigest slot) then some 3
  else if s.slotRevoked slot then some 4
  else if !sg.1 then some 5
  else if !sg.2 then some 6
  else if k.svn < s.counterValue ((componentLimit k.component).getD (0, 0)).2 then some 7
  else none

/-- Every check of R276 on a whole container. -/
def State.imageFail (s : State) (b : Bytes) (want room : Nat) : Option Nat :=
  match s.headerFail b want room with
  | some c => some c
  | none => if Config.sha384 (ksiPayload (parseKsi b) b) = (parseKsi b).payloadDigest then none else some 8

/-- A failed check is recorded in FC_BOOT_STATUS (R276). -/
def State.noteFail (s : State) (code component : Nat) : State :=
  { s with boot := { s.boot with failCode := BitVec.ofNat 8 code, failComponent := BitVec.ofNat 8 component } }

/-- In TEST_OPEN and ANALYSIS a failed check does not stop an image (R277). -/
def State.lenient (s : State) : Bool := s.lc.state == 1 || s.lc.state == 5

/-- A candidate image: the area it was found in (0 slot A, 1 slot B, 2 recovery area, 3 user partition, 4 UART), its offset in
the flash, its bytes, and the length its directory gives. -/
structure Candidate where
  area : Nat
  offset : Nat
  bytes : Bytes
  room : Nat
deriving DecidableEq, Repr

def Candidate.ksi (c : Candidate) : Ksi := { parseKsi c.bytes with area := c.area, offset := c.offset }

/-- The container at a place of the flash. -/
def State.candidate (s : State) (area offset length : Nat) : Candidate :=
  { area := area, offset := offset, bytes := s.flashRead offset length, room := length }

/-- The image of a component in a slot (R280). -/
def State.slotImage (s : State) (slot : Bool) (component : Nat) : Option (Nat × Candidate) :=
  match (s.directory (slotBase slot)).2.2.find? fun e => e.component == component with
  | some e => if e.offset + e.length ≤ 0x0400_0000 then
      some (e.stageSeq, s.candidate (if slot then 1 else 0) (slotBase slot + e.offset) e.length) else none
  | none => none

/-- The candidates of component 0, the preferred slot first (R280). -/
def State.fcCandidates (s : State) : List Candidate :=
  let a := s.bootRecord.active
  ([s.slotImage a 0, s.slotImage (!a) 0].filterMap id).map (·.2)

/-- The candidates of a component 1 to 33: the entry with the greater stage_seq first (R280). -/
def State.stagedCandidates (s : State) (component : Nat) : List Candidate :=
  match s.slotImage false component, s.slotImage true component with
  | some a, some b => if a.1 < b.1 then [b.2, a.2] else [a.2, b.2]
  | some a, none => [a.2]
  | none, some b => [b.2]
  | none, none => []

/-- The nested BL1 of a component 0 container: it starts its payload (R273, R275). -/
def Candidate.inner (c : Candidate) : Candidate :=
  let k := c.ksi
  { area := c.area, offset := c.offset + ksiHead, bytes := Bytes.slice (ksiPayload k c.bytes) 0 k.innerBytes, room := k.innerBytes }

/-- The recovery loader in the recovery area (R271). -/
def State.recoveryImage (s : State) : Candidate :=
  let head := parseKsi (s.flashRead recoveryBase 256)
  s.candidate 2 recoveryBase (min 0xFF0000 (ksiHead + head.payloadBytes))

/-- The preload directory's data images, in its order (R280, R291). -/
def State.dataCandidates (s : State) : List Candidate :=
  ((s.directory userBase).2.2.filter fun e => e.component == 0xF2).map fun e => s.candidate 3 (userBase + e.offset) e.length

end Sys2Proof.Machine
end

