-- ==== Sys2Proof/Machine/Stores.lean ====
section
/-! DEFINITION. The scrub engines' rows: self-test (R106, R108, R415, R416), the end of a zeroise order (R103, R107, R191),
patrol (R102, R104, R107, R108) and the scrubber of the Ownership Map (R97). -/

namespace Sys2Proof.Machine

/-- The built-in self-test maps failing rows to spares, and retires the pages and removes the rows that none replaces (R106).
Answers whether the unit may serve: it passed, and no more than 256 pages are RETIRED (R108). -/
def State.selfTest (s : State) (a : Nat) (t : SelfTest) : Bool × State :=
  let tab (l : List Nat) : Tab Nat := (l.mapIdx fun i n => (i, n)).foldl (fun u e => Tab.set 0 u e.1 e.2) []
  let s := { s with pz := { s.pz with omap := Tab.clear s.pz.omap (a * 4096) ((a + 1) * 4096) } }
  let s := s.onSeg a fun g => { g with state := .test, zeroised := false, spares := tab t.spares, retired := 0, engine := []
                                       spareMarks := [], ceLast := [], uePass := [] }
  let s := s.onArc a fun c => { c with
    als := [], side := [], alsPoison := [], sidePoison := [], regions := [], engine := [], spareMarks := [], ceLast := []
    spares := tab t.alsSpares, badRows := t.badRows }
  let s := t.badRows.foldl (fun (s : State) r => s.rowReport a r) s
  let s := t.badPages.foldl (fun (s : State) p => s.retirePage (a * 4096 + p % 4096)) s
  (t.pass && decide ((s.segment a).retired ≤ 256), s)

/-- The whole-unit zeroise after a self-test (R106): every page that is not RETIRED becomes CLEAN, and every row zero. -/
def State.unitZeroised (s : State) (a : Nat) : State :=
  { s with pz := { s.pz with
      mem := Tab.clear s.pz.mem (a * 2 ^ 22) ((a + 1) * 2 ^ 22)
      poison := Tab.clear s.pz.poison (a * 2 ^ 19) ((a + 1) * 2 ^ 19)
      segs := Tab.upd {} s.pz.segs a fun g => { g with zeroised := true } } }

/-- The pages of a segment in ascending order. -/
def segmentPages (a : Nat) : List Nat := (List.range 4096).map fun i => a * 4096 + i

/-- A unit that its self-test leaves unusable is RETIRED, marked and powered down (R108, R190, R399, R416). -/
def State.failUnit (s : State) (a : Nat) : State :=
  let s := (s.onSeg a fun g => { g with state := .retired }).report { event := 0x0403, unitKind := 2, unit := a }
  let s := { s with health := { s.health with
    retiredSeg := s.health.retiredSeg ||| BitVec.ofNat 16 (2 ^ a)
    retiredArc := s.health.retiredArc ||| BitVec.ofNat 16 (2 ^ a), dirty := true } }
  let s := s.report { event := 0x0402, unitKind := 1, unit := a }
  State.unitDown s a .retired

/-- SELF_TEST_DONE of a readmission (R106, R415, R416): the zeroise of the whole unit follows as a release order, its pages
SCRUBBING until it ends (R103); a unit that the test leaves unusable is RETIRED again and goes down. -/
def State.selfTestRow (s : State) (a : Nat) (t : SelfTest) : State :=
  let (ok, s) := s.selfTest a t
  if ok then
    let s := s.onSeg a fun g => { g with engine := [{ items := segmentPages a, toPool := true }] }
    s.onArc a fun c => { c with engine := [{ items := [], rows := [(0, 255)], toPool := true }] }
  else State.failUnit { s with pm := { s.pm with ramping := none } } a

/-- SELF_TEST_DONE in boot step 7 (R106, R401): the unit is tested and zeroised as soon as it is up, and enters IN_SERVICE (R190). -/
def State.bootUnit (s : State) (a : Nat) (t : SelfTest) : State :=
  let (ok, s) := s.selfTest a t
  if ok then
    let s := (s.unitZeroised a).onSeg a fun g => { g with state := .inService }
    let s := s.onArc a fun c => { c with integ := .inService }
    s.onUnit a .on
  else s.failUnit a

/-- SELF_TEST_DONE. -/
def execSelfTestDone (unit : Arc) (t : SelfTest) (s : State) : Host.Outcome State Fault Refusal :=
  let again := s.pm.ramping == some unit.val && (s.segment unit.val).engine.isEmpty
  act (Tab.get UnitState.off s.pm.units unit.val == .test && (again || s.boot.step == 7))
    (fun s => if again then s.selfTestRow unit.val t else s.bootUnit unit.val t) s

/-- What the end of its last order means for a unit: a unit under readmission enters PROBATION (R188, R415), and a RETIRED
one goes down (R399). -/
def State.unitIdle (s : State) (a : Nat) : State :=
  if (s.segment a).engine.isEmpty && (s.arcade a).engine.isEmpty then
    if s.pm.ramping == some a && Tab.get UnitState.off s.pm.units a == .test then
      let s := (s.unitZeroised a).onSeg a fun g => { g with state := .inService }
      let s := s.onArc a fun c => { c with integ := .probation, trial := 0, boost := false, slowed := false }
      State.onUnit { s with pm := { s.pm with ramping := none } } a .on
    else if (s.arcade a).integ == .retired && Tab.get UnitState.off s.pm.units a == .on then s.unitDown a .retired
    else s
  else s

/-- An order that drops regions of a plan waits for the programs on the Arcade, and the checks there, that run with it (R146). -/
def State.orderWaits (s : State) (a : Nat) (o : ZOrder) : Bool :=
  let c := s.arcade a
  let old (w gen : Nat) : Bool := w == o.win && s.oldPlan w gen
  !o.keep.isEmpty
    && ((c.running.toList ++ c.bulk ++ c.queue.map (·.prog)).any (fun p => old p.win p.gen)
      || s.arc.any fun e => e.2.checks.any fun k => (e.1 == a || k.checker == a || k.referee == some a) && old k.win k.gen)

/-- ZEROISE_DONE (R103): the engine's first order is done. -/
def State.zeroiseRow (s : State) (a : Nat) (als : Bool) : State :=
  let s := if als then
      match (s.arcade a).engine with
      | [] => s
      | o :: r => (s.endRegionsOrder a o).onArc a fun c => { c with engine := r }
    else
      match (s.segment a).engine with
      | [] => s
      | o :: r => ((s.endPagesOrder o).onSeg a fun g => { g with engine := r }).laneCheck a
  s.unitIdle a

def execZeroiseDone (unit : Arc) (als : Bool) (s : State) : Host.Outcome State Fault Refusal :=
  act (if als then (s.arcade unit.val).engine.head?.any (fun o => !s.orderWaits unit.val o) else !(s.segment unit.val).engine.isEmpty)
    (fun s => s.zeroiseRow unit.val als) s

/-! Patrol. -/

/-- Lines that gave a corrected error in two consecutive passes are marked (R107): the marks and the lines of the last pass
after a page or row whose lines are `here` gave corrected errors on `hit`. -/
def patrolMarks (marks last hit : List Nat) (here : Nat → Bool) : List Nat × List Nat :=
  (marks ++ (hit.filter fun l => last.contains l && !marks.contains l), (last.filter fun l => !here l) ++ hit)

/-- Patrol of the next page of a segment (R104). -/
def State.patrolSegment (s : State) (a : Nat) (hits : List PatrolHit) : State :=
  let g := s.segment a
  let page := g.patrolPage % 4096
  let line (h : PatrolHit) : Nat := page * 16 + h.line % 16
  let s := if page = 0 then s.onSeg a fun g => { g with uePass := [] } else s
  let s := hits.foldl (fun s h => s.piazzaError (a * 2 ^ 22 + line h * 64 + h.word % 8 * 8) h.ecc) s
  let ce := (hits.filter fun h => h.ecc == .ce).map line
  let s := s.onSeg a fun g =>
    let m := patrolMarks g.spareMarks g.ceLast ce fun l => l / 16 == page
    { g with spareMarks := m.1, ceLast := m.2, patrolPage := (page + 1) % 4096 }
  s.laneCheck a

/-- Patrol of the next row of an ALS (R102, R104): a hit's line is the bank, and word 8 the side word. -/
def State.patrolAls (s : State) (a : Nat) (hits : List PatrolHit) : State :=
  let row := (s.arcade a).patrolRow % 256
  let mark (h : PatrolHit) : Nat := row * 128 + h.line % 128
  let s := hits.foldl (fun s h => s.alsError a row (h.line % 128) (h.word % 9) (h.word % 9 == 8) h.ecc) s
  let ce := (hits.filter fun h => h.ecc == .ce).map mark
  let broken := hits.any fun h => h.ecc == .ue
  s.onArc a fun c =>
    let m := patrolMarks c.spareMarks c.ceLast ce fun l => l / 128 == row
    let hit (r : Region) : Bool := broken && r.valid && !r.scratch && r.state == .measured
      && decide (r.firstRow ≤ row) && decide (row ≤ r.lastRow)
    { c with spareMarks := m.1, ceLast := m.2, patrolRow := (row + 1) % 256
             regions := Tab.mapVals {} c.regions fun _ (r : Region) => if hit r then { r with state := .broken, digest := 0 } else r }

/-- PATROL (R104): it runs on a unit that is powered and zeroised. -/
def execPatrol (unit : Arc) (als : Bool) (hits : List PatrolHit) (s : State) : Host.Outcome State Fault Refusal :=
  act ((s.segment unit.val).state == .inService && (s.segment unit.val).zeroised)
    (fun s => if als then s.patrolAls unit.val hits else s.patrolSegment unit.val hits) s

/-- OMAP_SCRUB (R97, R369): a correctable error is put right and recorded; an uncorrectable one resets the block. R387 lays
out no location for an entry of the map: the model puts its index (DESIGN CHOICE, log entry 91). -/
def execOmapScrub (slice : Arc) (entry : Fin 4096) (e : Option Ecc) (s : State) : Host.Outcome State Fault Refusal :=
  act true (fun s => match e with
    | none => s
    | some .ce => s.report { event := 0x0105, unitKind := 8, unit := slice.val, location := entry.val }
    | some .ue => s.blockReset 1 slice.val 0x0601
        (some { event := 0x0601, unitKind := 8, unit := slice.val, location := entry.val })) s

end Sys2Proof.Machine
end

