-- ==== Sys2Proof/Machine/Keys.lean ====
section
/-! DEFINITION. The key store, the end of KREG's loads and KEY_DESTROY (R316, R318 to R322). -/

namespace Sys2Proof.Machine

/-- Overwrite a slot: both shares are written with DRBG output where the DRBG serves, then with zeros, and the descriptor
takes its reset value (R322, R345). The lock of a slot that KEY_DESTROY overwrites is
cleared with its descriptor, where R319 keeps a set lock until block reset (DESIGN CHOICE; log entry 111). -/
def State.clearSlot (s : State) (n : Nat) : State :=
  let s := if s.drbgBlocked then s else s.draw.2.draw.2
  s.onKeySlot n fun _ => {}

/-! KREG (R321). -/

/-- KREG_TIMEOUT (R321): 2 ms after the load. -/
def execKregTimeout (s : State) : Host.Outcome State Fault Refusal :=
  act (s.keys.kreg.isSome && decide (s.keys.kregAt + 2000000 ≤ s.now)) State.emptyKreg s

/-- A slot as a load of KREG. -/
def State.slotLoad (s : State) (n : Fin 64) (user : Byte) : KregLoad :=
  let k := s.slot n
  { key := k.key, bytes := kindBytes (attrKind k.attr), attr := k.attr, slot := some n, user := user }

/-! KEY_DESTROY. -/

/-- Digest contexts and PKE jobs that use a slot end with ST_ABORTED, their operand memory wiped (R322, R340). -/
def State.endSlotJobs (s : State) (n : Nat) : State :=
  let own (k : Option (Fin 64)) : Bool := k.any fun x => x.val == n
  let s := s.abortJobs fun j => own j.keySlot
  { s with keys := { s.keys with kregWaiting := s.keys.kregWaiting.filter fun l => !own l.slot }
           de := Tab.mapVals {} s.de fun _ (c : DeCtx) => if c.state != .free && own c.keySlot then { reg := c.reg } else c }

/-- The bank of a fused slot: KS6 holds the fleet seed and KS7 the VRS (R306, R318). -/
def fusedBank (n : Nat) : Nat := if n = 6 then 110 else 92

/-- The kill word of a fused slot's bank is blown, then the other bits of the bank; the flag says that the kill word took
(R305, R322). -/
def State.killBank (s : State) (n : Nat) (stuck : Option (Fin 512)) : Bool × State :=
  let kill := s.blowList [(fusedBank n + 17, 0xFFFF_FFFF)] stuck
  if kill.1 then (true, (kill.2.blowList ((List.range 18).map fun i => (fusedBank n + i, 0xFFFF_FFFF)) stuck).2) else kill

/-- The contents of a slot are destroyed (R322). -/
def State.destroySlot (s : State) (n : Nat) : State :=
  let s := if n = 6 then { s with lc := { s.lc with fleet := false }, keys := { s.keys with prkFleet := [] } } else s
  let s := s.endSlotJobs n
  let hit : Bool := s.keys.kreg.any fun l => l.slot.any fun x => x.val == n
  (if hit then s.emptyKreg else s).clearSlot n

def State.keyDestroy (s : State) (w : Nat) (c : Cmd) (stuck : Option (Fin 512)) : State :=
  let n := c.u 16 1
  if n ≤ 5 || 64 ≤ n then s.result w (.denied 0)
  else
    let (ok, s) := if n = 6 ∨ n = 7 then s.killBank n stuck else (true, s)
    if ok then (s.destroySlot n).result w (.ok 0) else s.result w { status := stFault }

def execKeyDestroy (w : Win) (stuck : Option (Fin 512)) (s : State) : Host.Outcome State Fault Refusal :=
  actCmd (s.fcCmd w.val 0x90) (fun c s => s.keyDestroy w.val c stuck) s

/-- A write of KM_KS_ATTRn (R4, R319): the reserved bits, source and fixed stand, and lock fixes the descriptor. -/
def attrWrite (old new : Word) : Word :=
  if old.getLsbD 63 then old else (old &&& 0x7FFF_FFFF_0000_0000) ||| (new &&& 0x8000_0000_FFFF_1FFF)

/-- KM_KS_ATTRn as it reads: `fixed` is set for KS0 to KS5 (R319). -/
def State.attrRead (s : State) (n : Nat) : Nat := (s.slot n).attr.toNat ||| (if n ≤ 5 then 2 ^ 34 else 0)

/-- KM_KREG_STATUS (R321). -/
def State.kregStatus (s : State) : Nat :=
  (match s.keys.kreg with
    | some l => 1 + l.slotCode * 2 ^ 8 + l.user.toNat * 2 ^ 16
    | none => 0)
  + (if s.keysLocked then 2 else 0) + s.keys.kregWaits.toNat * 2 ^ 24

end Sys2Proof.Machine
end

