-- ==== Sys2Proof/Machine/Digest.lean ====
section
/-! DEFINITION. The rows of the digest engine (R326 to R333). A context holds the chaining state of the whole blocks it absorbed; the
engine adds padding only in the outer pass of HMAC and to a message from the key manager's buffer. -/

namespace Sys2Proof.Machine

/-- FC firmware's stores to FC SRAM. -/
def State.fcStores (s : State) (x : SramStores) : State := x.foldl (fun (s : State) e => s.sramWrite e.1.toNat e.2) s

/-- DE_OPEN: a public key stands at addr, in a whole block; `slot` is the slot that firmware has loaded into KREG for the context, none
for KREG as it stands (log entry 19). A load from a slot waits until KREG is empty, and the opening with it (R321). -/
def State.deOpen (s : State) (n : Nat) (word : Word) (slot : Option (Fin 64)) : State :=
  let ctrl := ctrlKept word
  let s := s.dropLoads n
  let f := ctrlFunc ctrl
  let keyed := ctrlHmac ctrl
  if 8 ≤ f || (keyed && 3 ≤ f) then s.deError n 1 ctrl
  else if keyed && ctrlKreg ctrl then
    let load : Option KregLoad := match slot with
      | some k => some { s.slotLoad k 0x41 with opens := some (n, ctrl) }
      | none => s.keys.kreg
    match load with
    | none => (s.logRefusedUse 0x3F).deError n 4 ctrl
    | some l =>
      if s.useRefused l.attr 0 then (s.logRefusedUse l.slotCode).deError n 4 ctrl
      else
        match slot with
        | some k =>
          let s := s.useSlot k.val
          if s.keys.kreg.isSome then s.loadKreg l else s.deOpenKeyed n ctrl l
        | none => if destOk ctrl true (attrKind l.attr) then s.emptyKreg.deOpenKeyed n ctrl l else s.deOpenKeyed n ctrl l
  else if !destOk ctrl (ctrlSecretMsg ctrl) 0 then s.deError n 2 ctrl
  else s.deOpened n ctrl (if keyed then some (s.sramRead (ctrlAddr ctrl) (deBlockLen f)) else none) publicAttr none

def execDeOpen (cx : Fin 6) (ctrl : Word) (stores : SramStores) (slot : Option (Fin 64)) (s : State) : Host.Outcome State Fault Refusal :=
  act (s.boot.step != 0) (fun s => (s.fcStores stores).deOpen cx.val ctrl slot) s

/-- A write of eight bytes into a context's input window (R328): a whole block is absorbed as it fills. -/
def State.deInput (s : State) (n : Nat) (data : Word) : State :=
  let c := s.ctx n
  if c.state != .opened || ctrlSecretMsg c.ctrl then s
  else
    let f := ctrlFunc c.ctrl
    let b := c.buf ++ Bytes.ofNat 8 data.toNat
    let c := { c with bytes := c.bytes + 8 }
    s.onCtx n fun _ => if deBlockLen f ≤ b.length then
        { c with chain := Config.deBlock f c.chain (b.take (deBlockLen f)), buf := b.drop (deBlockLen f) }
      else { c with buf := b }

/-- The result of a context: the inner digest, and the outer pass of HMAC (R329). -/
def DeCtx.digest (c : DeCtx) : Bytes :=
  let f := ctrlFunc c.ctrl
  let n := if ctrlOut c.ctrl = 0 then deOutLen f else ctrlOut c.ctrl
  let keyed := if ctrlHmac c.ctrl then deBlockLen f else 0
  let chain := if ctrlSecretMsg c.ctrl then deAbsorb f c.chain (c.buf ++ dePad f (keyed + c.bytes.toNat)) else c.chain
  if ctrlHmac c.ctrl then
    let inner := Config.deOutput f chain (deOutLen f)
    (Config.deOutput f (deAbsorb f c.outer (inner ++ dePad f (deBlockLen f + inner.length))) (deOutLen f)).take n
  else if 6 ≤ f then Config.deOutput f chain n
  else (Config.deOutput f chain (deOutLen f)).take n

/-- The descriptor of a result in KREG (R330). -/
def resultAttr (a : Word) (n : Nat) : Word :=
  BitVec.ofNat 64 (Bits.put (Bits.put a.toNat 0 4 (if n = 48 then 3 else 1)) 32 2 1)

/-- The first bytes of DE_CTXn_EXPECT0 to 7. -/
def DeCtx.expected (c : DeCtx) (n : Nat) : Bytes :=
  (((List.range 8).map fun i => Bytes.ofNat 8 (Tab.get 0 c.expect i).toNat).flatten).take n

/-- A comparator fault is reported to the health unit (R331). -/
def State.compareFault (s : State) (fault : Bool) : State :=
  if fault then { s with health := { s.health with compareReports := s.health.compareReports + 1 } } else s

/-- The result at the length that out_bytes names. The manual allows 48 bytes into KREG of a function that yields 32, and does not say
what the bytes beyond are: they are free values (log entry 19). -/
def State.resultBytes (s : State) (c : DeCtx) : Bytes × State :=
  let r := c.digest
  if ctrlDest c.ctrl = 2 ∧ r.length < ctrlOut c.ctrl then
    let (a, s) := s.freeNext
    let (b, s) := s.freeNext
    (Bytes.slice (r ++ Bytes.ofNat 8 a.toNat ++ Bytes.ofNat 8 b.toNat) 0 (ctrlOut c.ctrl), s)
  else (r, s)

/-- DE_FINAL (R328 to R331). With every key locked, KREG takes no result (R281). `fault` says that the two comparators of a COMPARE
both reported a match, or both none, as happens in a fault of one: the verdict reads 1, 1. Expected values stand for 64 bytes; how a
longer output compares beyond them is a free value (log entry 19). -/
def State.deFinal (s : State) (n : Nat) (fault : Bool) : State :=
  let c := s.ctx n
  if !ctrlSecretMsg c.ctrl && !c.buf.isEmpty then s.onCtx n fun c => { c with state := .error, error := 3, buf := [], chain := [], outer := [] }
  else
    let (r, s) := s.resultBytes c
    let s := if ctrlSecretMsg c.ctrl then { s with keys := { s.keys with kmInput := [] } } else s
    let c := { c with chain := [], buf := [], outer := [] }
    match ctrlDest c.ctrl with
    | 0 => s.onCtx n fun _ => { c with state := .done, result := r }
    | 1 =>
      let (v, s) := s.freeNext
      let same := r.take 64 == c.expected (min 64 r.length) && (r.length ≤ 64 || v.getLsbD 0)
      (s.compareFault fault).onCtx n fun _ => { c with state := .done, isMatch := same || fault, matchN := !same || fault }
    | _ =>
      if s.keysLocked then (s.logRefusedUse 0x3F).onCtx n fun _ => { c with state := .error, error := 4 }
      else
      let s := s.onCtx n fun _ => { c with state := .finals }
      s.loadKreg { key := keyBits r, bytes := r.length, attr := resultAttr c.keyAttr r.length, user := 0x41, cx := some n }

def execDeFinal (cx : Fin 6) (fault : Bool) (s : State) : Host.Outcome State Fault Refusal :=
  act ((s.ctx cx.val).state == .opened) (fun s => s.deFinal cx.val fault) s

/-! Export and import (R332). -/

/-- KS8 as an AES-256 key. -/
def State.wrapKey (s : State) : BitVec 256 := (s.slot 8).key.setWidth 256

/-- The key manager refuses the use of KS8 (R320): every key is locked, or KEY_DESTROY has emptied the slot. -/
def State.wrapRefused (s : State) : Bool := s.useRefused (s.slot 8).attr 2

/-- KS8 is refused: the context reads error 0x04. -/
def State.wrapError (s : State) (n : Nat) : State := (s.logRefusedUse 8).onCtx n fun c => { c with error := 4 }

/-- The head of a blob, which its tag covers. -/
def DeCtx.blobHead (c : DeCtx) (nonce : BitVec 96) : Bytes :=
  let flags := (if ctrlHmac c.ctrl then 1 else 0) + (if c.secret then 2 else 0) + 4 * ctrlDest c.ctrl
  Bytes.ofNat 4 0x4B44_5358 ++ [BitVec.ofNat 8 (ctrlFunc c.ctrl), BitVec.ofNat 8 flags, 0, 0] ++ Bytes.ofNat 8 c.bytes.toNat
    ++ Bytes.big nonce ++ [0, 0, 0, 0]

/-- DE_EXPORT (R281, R320, R332): an OPEN context at a block boundary. The DRBG gives the nonce; a context that cannot be exported keeps its
state and reads error 0x06. -/
def State.deExport (s : State) (n : Nat) : State :=
  let c := s.ctx n
  if c.state != .opened || !c.buf.isEmpty || s.drbgBlocked then s.onCtx n fun c => { c with error := 6 }
  else if s.wrapRefused then s.wrapError n
  else
    let s := s.useSlot 8
    let (r, s) := s.draw
    let nonce := r.setWidth 96
    let head := c.blobHead nonce
    let body := Bytes.slice c.chain 0 200 ++ Bytes.slice c.outer 0 64 ++ Bytes.ofNat 8 c.keyAttr.toNat
    let (ct, tag) := gcmSeal s.wrapKey nonce head body
    let s := s.sramWrite (ctrlAddr c.reg) (Bytes.slice (head ++ ct ++ tag) 0 320)
    s.onCtx n fun c => { reg := c.reg }

def execDeExport (cx : Fin 6) (s : State) : Host.Outcome State Fault Refusal :=
  act (s.boot.step != 0) (fun s => s.deExport cx.val) s

/-- DE_IMPORT (R281, R320, R332): into a FREE context. The length of a chaining state is that of the function's. -/
def State.deImport (s : State) (n : Nat) : State :=
  let b := s.sramRead (ctrlAddr (s.ctx n).reg) 320
  let head := Bytes.slice b 0 32
  let nonce := BitVec.ofNat 96 (Bytes.bigNat (Bytes.slice b 16 12))
  if s.wrapRefused then s.wrapError n
  else
  let s := s.useSlot 8
  match gcmUnseal s.wrapKey nonce head (Bytes.slice b 32 272) (Bytes.slice b 304 16) with
  | none => s.onCtx n fun c => { c with error := 5 }
  | some p =>
    let f := Bytes.num b 4 1
    let flags := Bytes.num b 5 1
    let old := s.ctx n
    let len := if f = 0 then 32 else if f ≤ 2 then 64 else 200
    let c : DeCtx := {
      ctrl := BitVec.ofNat 64 (f + (if Bits.bit flags 0 then 16 else 0) + Bits.get flags 2 2 * 2 ^ 8
        + Bits.get old.reg.toNat 16 8 * 2 ^ 16 + ctrlAddr old.reg * 2 ^ 32)
      reg := old.reg
      state := .opened, secret := Bits.bit flags 1, bytes := BitVec.ofNat 48 (Bytes.num b 8 8)
      chain := p.take len, outer := if Bits.bit flags 0 then (Bytes.slice p 200 64).take len else []
      keyAttr := BitVec.ofNat 64 (Bytes.num p 264 8), core := s.deCore n f, expect := old.expect }
    s.onCtx n fun _ => c

def execDeImport (cx : Fin 6) (stores : SramStores) (s : State) : Host.Outcome State Fault Refusal :=
  act ((s.ctx cx.val).state == .free) (fun s => (s.fcStores stores).deImport cx.val) s

/-- DE_FREE: the context is wiped and FREE (R333), and what waits for KREG on its behalf is given up. -/
def State.deFree (s : State) (n : Nat) : State := (s.dropLoads n).onCtx n fun c => { reg := c.reg }

def execDeFree (cx : Fin 6) (s : State) : Host.Outcome State Fault Refusal := act true (fun s => s.deFree cx.val) s

/-- DE_CTXn_STATUS (R333). -/
def DeState.code : DeState → Nat
  | .free => 0 | .opened => 1 | .finals => 2 | .done => 3 | .error => 4

def DeCtx.status (c : DeCtx) : Nat :=
  c.state.code + (if c.isMatch then 2 ^ 4 else 0) + (if c.matchN then 2 ^ 5 else 0) + (if c.secret then 2 ^ 6 else 0)
    + c.error.toNat * 2 ^ 8 + c.bytes.toNat * 2 ^ 16

end Sys2Proof.Machine
end

