-- ==== Sys2Proof/Machine/PublicKey.lean ====
section
/-! DEFINITION. The public-key engine (R334 to R341): its operations, their refusals, the queue, yield and the secret
paths. A job is computed when it ends; its fixed time is not modelled. -/

namespace Sys2Proof.Machine

/-! Operations (R336). -/

def bigOps : List Nat := [1, 2, 3, 4, 5]
def pkeOpcodes : List Nat := bigOps ++ [0x10, 0x11, 0x12, 0x13, 0x14, 0x20, 0x21, 0x22, 0x30, 0x31, 0x32, 0x33, 0x34, 0x35]

/-- Operations that need a secret input, those that may draw it, and the length in bytes of the secret input. -/
def secretOps : List Nat := [0x10, 0x11, 0x13, 0x20, 0x22, 0x30, 0x31, 0x33, 0x34]
def drawOps : List Nat := [0x10, 0x20, 0x30, 0x33]
def secretLen (op : Nat) : Nat :=
  if op = 0x10 then 56 else if op = 0x11 ∨ op = 0x13 then 48 else if op = 0x20 ∨ op = 0x22 then 64 else 32

/-- The fixed time in FCLK; a signature is reckoned with the attempts of R338. -/
def tableTime (op w : Nat) : Nat :=
  let m := (w * w + 3) / 4
  match op with
  | 1 | 2 => w + 560
  | 3 => m + 584
  | 4 | 5 => 2 * (64 * w) * (m + 24) + 1540
  | 0x10 => 300000 | 0x11 => 360000 | 0x12 => 600000 | 0x13 => 306000 | 0x14 => 6000
  | 0x20 => 24000 | 0x21 => 30000 | 0x22 => 36000
  | 0x30 => 60000 | 0x31 => 90000 + 6000 * 160 | 0x32 => 60000
  | 0x33 => 90000 | 0x34 => 132000 + 9000 * 128 | 0x35 => 90000
  | _ => 0

/-- Operations with yield points. -/
def yieldOps : List Nat := [4, 5, 0x10, 0x11, 0x12, 0x13, 0x31, 0x34]

/-- b to the power e modulo m, over n bits of e. -/
def powMod (m : Nat) : Nat → Nat → Nat → Nat
  | 0, _, _ => 1 % m
  | n + 1, b, e => powMod m n (b * b % m) (e / 2) * (if e % 2 = 1 then b else 1) % m

/-- What an operation yields: its refusal, public output, secret output, verdict, attempts. -/
structure PkeOut where
  status : Nat := 0
  output : Bytes := []
  secretOut : Bytes := []
  verdict : Option Bool := none
  attempts : Option Nat := none
deriving DecidableEq, Repr

/-- A number operation on integers of 8 w bytes (R334, R336). -/
def bigOp (op w : Nat) (a b m : Nat) : PkeOut :=
  let bad := m % 2 = 0 || m < 2 ^ (64 * (w - 1))
  let out (v : Nat) : PkeOut := { output := Bytes.ofNat (8 * w) v }
  let no : PkeOut := { status := stInputRange, output := List.replicate (8 * w) 0 }
  match op with
  | 1 => if bad || m ≤ a || m ≤ b then no else out ((a + b) % m)
  | 2 => if bad || m ≤ a || m ≤ b then no else out ((a + m - b) % m)
  | 3 => if bad || m ≤ a || m ≤ b then no else out (a * b % m)
  | 4 => if bad || m ≤ a then no else out (powMod m (64 * w) a b)
  | _ => if bad || m ≤ a || a = 0 then no else out (powMod m (64 * w) a (m - 2))

/-- The coefficients of an ML-KEM-1024 encapsulation key are below the modulus. -/
def ekInRange (ek : Bytes) : Bool := kemInRange ek

/-- The result of a job; `rnd` are the 32 bytes of a hedged signature (R338). -/
def PkeJob.compute (j : PkeJob) (rnd : Bytes) : PkeOut :=
  let i (k : Nat) : Bytes := j.ins.getD k []
  let sec := j.secretIn
  let msg := Bytes.slice (i 0) 0 j.msgBytes
  match j.op with
  | 0x10 =>
    let d := (Bytes.ofNat 48 (Bytes.bigNat sec % (p384Order - 1) + 1)).reverse
    { output := Config.p384Public d, secretOut := d }
  | 0x11 => { output := Config.ecdsaSign sec (Bytes.slice (i 0) 0 48) }
  | 0x12 =>
    let q := Bytes.slice (i 0) 0 96
    let rs := Bytes.slice (i 2) 0 96
    let bad (k : Nat) : Bool := let v := Bytes.bigNat (Bytes.slice rs k 48); v == 0 || decide (p384Order ≤ v)
    let st := if bad 0 || bad 48 then stInputRange else pointRefusal q
    if st ≠ 0 then { status := st, verdict := some false }
    else { verdict := some (Config.ecdsaVerify q (Bytes.slice (i 1) 0 48) rs) }
  | 0x13 =>
    let q := Bytes.slice (i 0) 0 96
    let st := pointRefusal q
    if st ≠ 0 then { status := st } else { secretOut := Config.p384Ecdh sec q }
  | 0x14 => { status := pointRefusal (Bytes.slice (i 0) 0 96) }
  | 0x20 => { output := Config.mlkemPublic sec, secretOut := sec }
  | 0x21 =>
    let ek := Bytes.slice (i 0) 0 1568
    if !ekInRange ek then { status := stInputRange, output := List.replicate 1568 0 }
    else { output := Config.mlkemCipher ek rnd, secretOut := Config.mlkemSecret ek rnd }
  | 0x22 => { secretOut := Config.mlkemDecaps sec (Bytes.slice (i 0) 0 1568) }
  | 0x30 => { output := Config.mldsaPublic 65 sec, secretOut := sec }
  | 0x31 => { output := Config.mldsaSign 65 sec msg rnd, attempts := some (Config.mldsaAttempts 65 sec msg rnd) }
  | 0x32 => { verdict := some (Config.mldsaVerify 65 (Bytes.slice (i 0) 0 1952) (Bytes.slice (i 1) 0 j.msgBytes) (Bytes.slice (i 2) 0 3309)) }
  | 0x33 => { output := Config.mldsaPublic 87 sec, secretOut := sec }
  | 0x34 => { output := Config.mldsaSign 87 sec msg rnd, attempts := some (Config.mldsaAttempts 87 sec msg rnd) }
  | 0x35 => { verdict := some (Config.mldsaVerify 87 (Bytes.slice (i 0) 0 2592) (Bytes.slice (i 1) 0 j.msgBytes) (Bytes.slice (i 2) 0 4627)) }
  | op => bigOp op j.len (Bytes.toNat (Bytes.slice (i 0) 0 (8 * j.len))) (Bytes.toNat (Bytes.slice (i 1) 0 (8 * j.len)))
      (Bytes.toNat (Bytes.slice (i 3) 0 (8 * j.len)))

/-- The full length of an operation's public output (R336). -/
def PkeJob.outLen (j : PkeJob) : Nat :=
  match j.op with
  | 0x10 => 96 | 0x11 => 96 | 0x12 => 0 | 0x13 => 0 | 0x14 => 0 | 0x20 => 1568 | 0x21 => 1568 | 0x22 => 0 | 0x30 => 1952 | 0x31 => 3309
  | 0x32 => 0 | 0x33 => 2592 | 0x34 => 4627 | 0x35 => 0
  | _ => 8 * j.len

/-- Operations that draw fresh randomness as they run: hedged signatures and encapsulation. -/
def rndOps : List Nat := [0x21, 0x31, 0x34]

def PkeJob.fromKreg (j : PkeJob) : Bool := j.flags.getLsbD 0
def PkeJob.secretDest (j : PkeJob) : Nat := Bits.get j.flags.toNat 1 2
def PkeJob.ordered (j : PkeJob) : Bool := j.flags.getLsbD 3
def PkeJob.time (j : PkeJob) : Nat := tableTime j.op j.len

/-! Submission (R335). -/

def parsePke (d : Bytes) : PkeJob :=
  let u := Bytes.num d
  { op := u 0 1, len := u 1 1, flags := BitVec.ofNat 8 (u 2 1), slot := u 3 1, tag := BitVec.ofNat 32 (u 4 4), msgBytes := u 28 4
    inOff := [u 8 4, u 12 4, u 16 4, u 20 4], outOff := u 24 4 }

/-- The status and tag of a job that ends (R341). -/
def State.pkeStatus (s : State) (j : PkeJob) (st : Nat) : State :=
  { s with pke := { s.pke with lastStatus := st, lastTag := j.tag.setWidth 16 } }

/-- A descriptor that no operation takes: its opcode is not listed, its word count is out of range, or its secret output names
a fixed slot (R335, R336). -/
def PkeJob.illegal (j : PkeJob) : Bool :=
  !pkeOpcodes.contains j.op || (bigOps.contains j.op && (j.len < 4 || 64 < j.len))
    || (j.secretDest == 2 && (j.slot < 9 || 63 < j.slot))

/-- The window whose command firmware submits for: the PKE serves commands in the order of their acceptance (R209; log
entry 98). -/
def State.pkeOwner (s : State) : Option Nat :=
  s.rb.fcQueue.find? fun w => (s.window w).slot.running.any fun c => pkeOps.contains c.opcode

/-- PKE_SUBMIT: the descriptor is the 64 bytes of FC SRAM at the offset. -/
def State.pkeSubmit (s : State) (off : Nat) : State :=
  let j := { parsePke (s.sramRead off 64) with win := s.pkeOwner }
  if 8 ≤ s.pke.queue.length then
    { s with pke := { s.pke with submitFull := true, submitFullCnt := s.pke.submitFullCnt + 1 } }
  else if j.illegal then s.pkeStatus j stDenied
  else { s with pke := { s.pke with queue := s.pke.queue ++ [j] } }

def execPkeSubmit (off : BitVec 19) (stores : SramStores) (s : State) : Host.Outcome State Fault Refusal :=
  act (s.boot.step != 0) (fun s => (s.fcStores stores).pkeSubmit off.toNat) s

/-! Start (R335, R339). -/

/-- The secret input of a job: its bytes and the slot it came from, or the refusal. -/
def State.secretInput (s : State) (j : PkeJob) (slot : Option (Fin 64)) : Except Nat (Bytes × Option (Fin 64)) × State :=
  if !secretOps.contains j.op then (.ok ([], none), s)
  else if j.fromKreg then
    let load : Option KregLoad := match slot with
      | some k => some (s.slotLoad k 0x42)
      | none => s.keys.kreg
    match load with
    | none => (.error stDenied, s.logRefusedUse 0x3F)
    | some l =>
      if s.useRefused l.attr 1 then (.error stDenied, s.logRefusedUse l.slotCode)
      else
        let t := match slot with
          | some k => s.useSlot k.val
          | none => s.emptyKreg
        (.ok (Bytes.slice (keyBytes l.key l.bytes) 0 (secretLen j.op), l.slot), t)
  else if !drawOps.contains j.op || s.drbgBlocked then (.error stDenied, s)
  else
    let (r, t) := s.draw
    (.ok ((Bytes.big r).take (secretLen j.op), none), t)

/-- The bytes of each public input that an operation takes (R336): in0, in1, in2 and the modulus. -/
def PkeJob.inLens (j : PkeJob) : List Nat :=
  match j.op with
  | 0x11 => [48] | 0x12 => [96, 48, 96] | 0x13 => [96] | 0x14 => [96] | 0x21 => [1568] | 0x22 => [1568]
  | 0x31 => [j.msgBytes] | 0x34 => [j.msgBytes] | 0x32 => [1952, j.msgBytes, 3309] | 0x35 => [2592, j.msgBytes, 4627]
  | op => if bigOps.contains op then [8 * j.len, 8 * j.len, 0, 8 * j.len] else []

/-- PKE_JOB_START: the first queued job takes a free region of 96 KiB, with its inputs as they stand in FC SRAM (R334, R335; log entry
20), and the region's digest context (R327). -/
def State.pkeStart (s : State) (j : PkeJob) (slot : Option (Fin 64)) : State :=
  let s := { s with pke := { s.pke with queue := s.pke.queue.drop 1, preempt := false } }
  if 4096 < j.msgBytes && [0x31, 0x32, 0x34, 0x35].contains j.op then
    State.pkeStatus { s with pke := { s.pke with run := s.pke.suspended, suspended := none } } j stLenLong
  else if slot.isSome && s.keys.kreg.isSome && j.fromKreg && secretOps.contains j.op then
    { s with
      pke := { s.pke with queue := j :: s.pke.queue, preempt := s.pke.suspended.isSome }
      keys := { s.keys with kregWaits := s.keys.kregWaits + 1 } }
  else
    let region := match s.pke.suspended with
      | some x => 1 - x.region
      | none => 0
    let (r, s) := s.secretInput j slot
    let j := match r with
      | .ok x => { j with secretIn := x.1, keySlot := x.2 }
      | .error e => { j with refused := e }
    let j := if (rndOps.contains j.op && s.drbgBlocked) || (s.keysLocked && 2 ≤ j.secretDest)
        || (j.secretDest == 2 && s.drbgBlocked) then { j with refused := stDenied } else j
    let ins := (j.inOff.zip j.inLens).map fun x => s.sramRead x.1 x.2
    let j := { j with ins := ins, region := region }
    let mem := (ins.flatten ++ j.secretIn).take 98304
    let s := s.onCtx (regionCtx region) fun _ => { state := .opened, core := 4 }
    { s with pke := { s.pke with
        run := some j
        region0 := if region = 0 then mem else s.pke.region0
        region1 := if region = 1 then mem else s.pke.region1 } }

def execPkeJobStart (slot : Option (Fin 64)) (stores : SramStores) (s : State) : Host.Outcome State Fault Refusal :=
  match s.pke.run, s.pke.queue with
  | none, j :: _ => act (s.pke.suspended.isNone || s.pke.preempt) (fun s => (s.fcStores stores).pkeStart j slot) s
  | _, _ => act false id s

/-! Yield (R339). -/

/-- How many yield points a job has (R336): between the spans of 32 of the 384 ladder steps, between the words of 64 bits of an exponent,
and between the attempts of a signature, whose number is known when it ends. -/
def PkeJob.yieldPoints (j : PkeJob) : Nat :=
  if j.op = 4 ∨ j.op = 5 then j.len - 1 else if j.op = 0x31 ∨ j.op = 0x34 then 254 else if yieldOps.contains j.op then 11 else 0

/-- The offset of the n-th yield point, from 1, in FCLK from the start: 6,000 + 24,000 n of an ECDSA_SIGN, whose ladder starts at 6,000
(the worked example after R341). -/
def PkeJob.yieldAt (j : PkeJob) (n : Nat) : Nat := if j.op = 0x11 then 6000 + 24000 * n else Config.yieldOffset j.op j.len n

/-- The table time that remains at the yield point that a job reaches next. -/
def PkeJob.remaining (j : PkeJob) : Nat := j.time - j.yieldAt (j.points + 1)

/-- The first queued job that may pass the running one. -/
def Pke.passer (p : Pke) (j : PkeJob) : Option PkeJob :=
  p.queue.find? fun q => decide (4 * q.time < j.remaining) && !(q.ordered && j.ordered)

/-- PKE_YIELD_POINT (R339): the running job reaches its next yield point, and is suspended where it may be. -/
def State.pkeYield (s : State) (j : PkeJob) : State :=
  let past : PkeJob := { j with points := j.points + 1 }
  match (if s.pke.suspended.isNone && decide (j.yields < 8) then s.pke.passer j else none) with
  | none => { s with pke := { s.pke with run := some past } }
  | some q => { s with pke := { s.pke with
      queue := q :: s.pke.queue.erase q, run := none, suspended := some { past with yields := j.yields + 1 }, preempt := true } }

def execPkeYieldPoint (s : State) : Host.Outcome State Fault Refusal :=
  match s.pke.run with
  | some j => act (decide (j.points < j.yieldPoints)) (fun s => s.pkeYield j) s
  | none => act false id s

/-! End (R335, R337, R340). -/

/-- The secret output goes to the key manager's buffer, to a slot or to KREG (R335). -/
def State.secretOutput (s : State) (j : PkeJob) (b : Bytes) : State :=
  if b.isEmpty then s
  else if j.secretDest = 1 then { s with keys := { s.keys with kmInput := s.keys.kmInput ++ b } }
  else if j.secretDest = 2 then
    s.writeSlot j.slot b fun a => BitVec.ofNat 64 (Bits.put a.toNat 32 2 2)
  else if j.secretDest = 3 then
    s.loadKreg { key := keyBits b, bytes := b.length, user := 0x42
                 attr := attrOf (if j.op = 0x10 then 4 else if j.op = 0x20 then 7 else if j.op = 0x30 then 5 else if j.op = 0x33 then 6
                   else if b.length = 48 then 3 else 1) 1 0x0F 0x7F false 2 false }
  else s

/-- PKE_JOB_END: outputs, verdict and status; the region is wiped, and a suspended job resumes before any queued one. `fault` is
a comparator fault of a verification, whose verdict reads 1, 1 (R331, R337). -/
def State.pkeEnd (s : State) (j : PkeJob) (fault : Bool) : State :=
  let (rnd, s) := if rndOps.contains j.op && j.refused = 0 then
      let (r, t) := s.draw
      ((Bytes.big r).take 32, t)
    else ([], s)
  let o := j.compute rnd
  let o : PkeOut := if j.refused = 0 then o
    else { status := j.refused, output := List.replicate j.outLen 0, verdict := o.verdict.map fun _ => false }
  let s := s.sramWrite j.outOff o.output
  let s := s.secretOutput j o.secretOut
  let fault := fault && o.verdict.isSome
  let s := s.compareFault fault
  let s := s.onCtx (regionCtx j.region) fun _ => {}
  let p := s.pke
  { s with pke := { p with
      run := p.suspended, suspended := none
      region0 := if j.region = 0 then [] else p.region0
      region1 := if j.region = 1 then [] else p.region1
      lastStatus := o.status, lastTag := j.tag.setWidth 16
      valid := o.verdict.getD p.valid || fault
      validN := match o.verdict with
        | some v => !v || fault
        | none => p.validN
      attempts := match o.attempts with
        | some a => min 255 a
        | none => p.attempts } }

def execPkeJobEnd (fault : Bool) (s : State) : Host.Outcome State Fault Refusal :=
  match s.pke.run with
  | some j => act true (fun s => s.pkeEnd j fault) s
  | none => act false id s

/-- PKE_STATUS (R341). -/
def Pke.statusWord (p : Pke) : Nat :=
  (if p.run.isSome then 1 else 0) + (if p.suspended.isSome then 2 else 0) + p.queue.length * 4 + (if p.submitFull then 2 ^ 6 else 0)
    + p.lastStatus % 256 * 2 ^ 8 + (if p.valid then 2 ^ 16 else 0) + (if p.validN then 2 ^ 17 else 0)
    + (match p.suspended, p.run with
      | some j, _ => j.yields
      | none, some j => j.yields
      | none, none => 0) % 16 * 2 ^ 24
    + p.submitFullCnt.toNat * 2 ^ 32 + p.attempts % 256 * 2 ^ 40 + p.lastTag.toNat * 2 ^ 48

end Sys2Proof.Machine
end

