-- ==== Sys2Proof/Machine/Random.lean ====
section
/-! DEFINITION. The entropy source's health tests and the reseeds of the CTR_DRBG (R342 to R346). -/

namespace Sys2Proof.Machine

/-- A failed health test (R344): the third within 1 s of device time fails the source until block reset. -/
def State.trngFailure (s : State) (rct : Bool) : State :=
  let t := s.trng
  let times := (t.failTimes.filter fun x => s.now ≤ x + 1000000000) ++ [s.now]
  let t := { t with
    rctFail := t.rctFail || rct, aptFail := t.aptFail || !rct
    rctCnt := if rct then t.rctCnt + 1 else t.rctCnt
    aptCnt := if rct then t.aptCnt else t.aptCnt + 1
    passes := 0, failTimes := times
    state := if t.state == .failed || 3 ≤ times.length then .failed else .degraded }
  State.report { s with trng := t } { event := 0x0409, unitKind := 4, unit := 0 }

/-! The tests run on every raw bit, the least significant bit of a byte first (R343; log entry 110). -/

def rawBits (b : Bytes) : List Bool := b.flatMap fun x => (List.range 8).map x.getLsbD

/-- One bit under the repetition count test: the run that it ends, the bit, and whether the cutoff of 41 has been met. -/
def rctStep (x : Nat × Bool × Bool) (b : Bool) : Nat × Bool × Bool :=
  let run := if x.1 ≠ 0 ∧ b = x.2.1 then x.1 + 1 else 1
  (run, b, x.2.2 || decide (41 ≤ run))

/-- The adaptive proportion test over one window: its first bit stands in it 794 times or more. -/
def aptFails (w : List Bool) : Bool :=
  match w with
  | [] => false
  | b :: _ => decide (794 ≤ (w.filter fun x => x == b).length)

/-- Windows of 1,024 bits. -/
def aptWindows (bits : List Bool) : Bool := (Bytes.chunks 1024 bits.length bits).any aptFails

/-- The start-up test passes: both tests over the first 4,096 raw bits, then the known-answer tests (R343). -/
def startupPasses (t : StartTry) : Bool :=
  let bits := rawBits t.raw
  !(bits.foldl rctStep (0, false, false)).2.2 && !aptWindows bits && t.kat

/-- A conditioned block passed: it is at hand for a reseed, and the 64th in a row ends DEGRADED (R344). -/
def Trng.pass (t : Trng) (block : BitVec 384) : Trng :=
  let t := { t with block := some block }
  if t.state == .degraded then
    if 63 ≤ t.passes then { t with state := .ok, passes := 0 } else { t with passes := t.passes + 1 }
  else t

/-- TRNG_BLOCK (R342 to R344): 1,024 raw bits, one window, are tested and conditioned by SHA-384. A failed test discards the block. -/
def State.trngBlock (s : State) (raw : Bytes) : State :=
  let bits := rawBits raw
  let r := bits.foldl rctStep (s.trng.run, s.trng.last, false)
  let s := { s with trng := { s.trng with run := r.1, last := r.2.1 } }
  let rct := r.2.2
  let apt := aptFails bits
  if !rct && !apt then { s with trng := s.trng.pass (Config.sha384 raw) }
  else
    let s := if rct then s.trngFailure true else s
    if apt then s.trngFailure false else s

def execTrngBlock (raw : Bytes) (s : State) : Host.Outcome State Fault Refusal :=
  act (s.trng.state != .startup) (fun s => s.trngBlock raw) s

/-- A reseed is due after 1,024 requests or 100 ms (R345). -/
def State.reseedDueNow (s : State) : Bool :=
  decide (1024 ≤ s.trng.requests) || decide (s.trng.reseedAt + 100000000 ≤ s.now)

/-- DRBG_RESEED (R345): from a fresh good block; without one the DRBG serves on until it blocks. -/
def State.reseed (s : State) : State :=
  match s.trng.block with
  | some b => { s with trng := { s.trng.seed b with
      requests := 0, reseedAt := s.now, block := none, reseedDue := false, reseeds := s.trng.reseeds + 1 } }
  | none => { s with trng := { s.trng with reseedDue := true } }

def execDrbgReseed (s : State) : Host.Outcome State Fault Refusal :=
  act (s.reseedDueNow && s.trng.state != .startup && s.trng.state != .failed) State.reseed s

def TrngState.code : TrngState → Nat
  | .startup => 0 | .ok => 1 | .degraded => 2 | .failed => 3

/-- FC_TRNG_STATUS (R346). -/
def State.trngStatus (s : State) : Nat :=
  let t := s.trng
  t.state.code + (if t.rctFail then 4 else 0) + (if t.aptFail then 8 else 0) + (if s.drbgBlocked then 16 else 0)
    + t.rctCnt.toNat * 2 ^ 8 + t.aptCnt.toNat * 2 ^ 16 + t.reseeds.toNat * 2 ^ 32

end Sys2Proof.Machine
end

