-- ==== Sys2Proof/Machine/Secrets.lean ====
section
/-! DEFINITION. The lifecycle state in fuses (R298 to R303), the fused secret banks (R315, R316) and the DICE layers (R314,
R317, R318). -/

namespace Sys2Proof.Machine

/-! The lifecycle records. -/

def intentWord (target source record : Nat) : BitVec 32 :=
  BitVec.ofNat 32 (target + source * 2 ^ 4 + record * 2 ^ 8 + 5 * 2 ^ 12 + 0x4C43 * 2 ^ 16)

/-- Codewords by state; RAW has none (R299). -/
def codeword (n : Nat) : BitVec 32 :=
  [0, 0x3C5A96A5, 0xC3A5695A, 0x5A3CA596, 0xA5C35A69, 0x69963CC3, 0x9669C33C].getD n 0

def codewordState (w : BitVec 32) : Option Nat := [1, 2, 3, 4, 5, 6].find? fun n => codeword n == w

/-- States in rising order of restrictiveness (R300). -/
def restriction (n : Nat) : Nat := [4, 0, 5, 2, 3, 1, 6].getD n 6

def moreRestrictive (a b : Nat) : Nat := if restriction a < restriction b then b else a

/-- Blank records (R323). -/
def State.blankRecords (s : State) : Nat :=
  ((List.range 16).filter fun i => s.fuse (3 * i) == 0 && s.fuse (3 * i + 1) == 0 && s.fuse (3 * i + 2) == 0).length

/-- The lowest record that is blank (R302). -/
def State.lowestBlank (s : State) : Option Nat := (List.range 16).find? fun i => s.fuse (3 * i) == 0

/-- Decode one record (R300): the flag says that decoding has stopped. -/
def State.decodeRecord (s : State) (i : Nat) (stuck : Option (Fin 512)) : Bool × State :=
  let w := s.fuse (3 * i)
  let target := Bits.get w.toNat 0 4
  let done := s.fuse (3 * i + 2) == 0xFFFF_FFFF
  if w == 0 then (true, s)
  else if w == 0xFFFF_FFFF then (false, s)
  else if 1 ≤ target && target ≤ 6 && w == intentWord target s.lc.state i then
    if done then
      let n := (codewordState (s.fuse (3 * i + 1))).getD (moreRestrictive s.lc.state target)
      (false, { s with lc := { s.lc with state := n, record := i } })
    else (true, { s with lc := { s.lc with pendingRecord := some i } })
  else (false, s.blowAll (3 * i) 3 stuck)

/-- Decoding, from index 0 upward and from RAW (R300). -/
def State.decodeLifecycle (s : State) (stuck : Option (Fin 512)) : State :=
  let s := { s with lc := { s.lc with state := 0, record := 0, pendingRecord := none } }
  let r := (List.range 16).foldl (fun (x : Bool × State) i => if x.1 then x else x.2.decodeRecord i stuck) (false, s)
  { r.2 with lc := { r.2.lc with decoded := true } }

/-! The wipes (R301, R303). -/

/-- The wipes of a transition: KEYS, SECRETS, USER, RAM (R301). -/
def transitionWipes (source target : Nat) : Bool × Bool × Bool × Bool :=
  if target = 5 ∨ target = 6 then (true, true, true, true)
  else if target = 3 ∨ target = 4 then (true, false, false, true)
  else if source = 0 then (false, false, false, false)
  else (false, false, false, true)

/-- KEYS. The mask key of a boot is drawn after it (R316). -/
def State.wipeKeys (s : State) : State :=
  { s with keys := { s.keys with slots := [], ska := [], maskKey := 0, kreg := none, kregWaiting := [], kmInput := [] } }

def State.wipeUser (s : State) : State := { s with flash := s.flash.filter fun e => decide (e.1 < userBase) }

/-- RAM: FC SRAM with the health ring in it (R381), the QC memories, PKE operand memory, the key store and the session contexts. -/
def State.wipeRam (s : State) : State :=
  { s with
    fcSram := [], qcMem := [], sess := [], pke := { s.pke with region0 := [], region1 := [] }, keys := { s.keys with slots := [] }
    health := { s.health with ring := [], nextRec := 1, resets := 0, cause := 0, causeUnit := 255, causeEvent := 0, lastBlock := none } }

/-- The boot ROM resumes an incomplete transition (R302): the wipes from their beginning, the missing bits of the codeword,
the completion word, and decoding again. -/
def State.resumeTransition (s : State) (stuck : Option (Fin 512)) : State :=
  match s.lc.pendingRecord with
  | none => s
  | some i =>
    let source := s.lc.state
    let target := Bits.get (s.fuse (3 * i)).toNat 0 4
    let (k, f, u, r) := transitionWipes source target
    let s := if k then s.wipeKeys else s
    let s := if f then s.blowAll 56 72 stuck else s
    let s := if u then s.wipeUser else s
    let s := if r then s.wipeRam else s
    let s := (s.blowList [(3 * i + 1, codeword target)] stuck).2
    let s := (s.blowList [(3 * i + 2, 0xFFFF_FFFF)] stuck).2
    let s := s.decodeLifecycle stuck
    { s with lc := { s.lc with resumed := true } }

/-- Every incomplete transition is resumed before an image runs (R300): there are 16 records. One whose completion word does not take
stays incomplete until the next boot. The first argument bounds their number. -/
def State.resumeAll : Nat → Option (Fin 512) → State → State
  | 0, _, s => s
  | n + 1, stuck, s =>
    let t := s.resumeTransition stuck
    if t.lc.pendingRecord == s.lc.pendingRecord then t else State.resumeAll n stuck t

/-! The fused banks: UDS A at 56, UDS B at 74, VRS at 92, fleet seed at 110 (R306, R315). -/

/-- The check value of a bank: bits [31:0] of the digest, whose first byte is the lowest (log entry 21). -/
def bankCheck (u : Bytes) : Nat := Bytes.num (Bytes.big (Config.sha384 (ascii "klv-s2 uds" ++ u))) 0 4

/-- Exchange two bits. -/
def swapBits (v : BitVec 256) (x : Fin 256 × Fin 256) : BitVec 256 :=
  if v.getLsbD x.1.val == v.getLsbD x.2.val then v else v ^^^ (BitVec.ofNat 256 (2 ^ x.1.val) ^^^ BitVec.ofNat 256 (2 ^ x.2.val))

/-- scramble of R316: the fixed permutation, then the XOR; and its inverse. -/
def scramble (v : BitVec 256) : BitVec 256 := Config.scrambleSwaps.foldl swapBits v ^^^ Config.scrambleXor
def unscramble (v : BitVec 256) : BitVec 256 := Config.scrambleSwaps.reverse.foldl swapBits (v ^^^ Config.scrambleXor)

/-- The secret that a bank's shares spell. -/
def State.bankSecret (s : State) (w : Nat) : Bytes :=
  let part (o : Nat) : BitVec 256 := unscramble (BitVec.ofNat 256 (Bytes.toNat (s.fuseBytes (w + o) 8)))
  Bytes.ofNat 32 (part 0 ^^^ part 8).toNat

def State.bankBlank (s : State) (w : Nat) : Bool := (List.range 18).all fun i => s.fuse (w + i) == 0

/-- A bank is usable: no kill word, and its check value is that of its shares (R315). -/
def State.bankUsable (s : State) (w : Nat) : Bool :=
  s.fuse (w + 17) == 0 && !s.bankBlank w && (s.fuse (w + 16)).toNat == bankCheck (s.bankSecret w)

/-- Fill a bank with a value drawn under a mask drawn; a value whose check is zero is drawn again. The first argument
bounds the draws; the flag says that every word took (R305), and that a value was found. -/
def State.fillBank : Nat → Nat → Option (Fin 512) → State → Bool × State
  | 0, _, _, s => (false, s)
  | n + 1, w, stuck, s =>
    let (d, s) := s.draw
    let u : BitVec 256 := d.setWidth 256
    let m : BitVec 256 := (d >>> 256).setWidth 256
    let c := bankCheck (Bytes.ofNat 32 u.toNat)
    if c = 0 then State.fillBank n w stuck s
    else
      s.blowList (fuseWords w (Bytes.ofNat 32 (scramble m).toNat)
        ++ fuseWords (w + 8) (Bytes.ofNat 32 (scramble (u ^^^ m)).toNat) ++ [(w + 16, BitVec.ofNat 32 c)]) stuck

/-- More draws than any bank needs: each gives a check value of zero with probability 2⁻³². -/
def drawTries : Nat := 64

/-- A bank whose kill word KEY_DESTROY has blown is finished by a later boot (R322). -/
def State.finishKills (s : State) (stuck : Option (Fin 512)) : State :=
  [92, 110].foldl (fun (s : State) w => if s.fuse (w + 17) != 0 then s.blowAll w 18 stuck else s) s

/-- The UDS at a boot in OWNED (R315): made in bank A, or in bank B where bank A is spoiled; bank A is voided before
bank B is used. Both banks spoiled leave none. -/
def State.makeUds (s : State) (stuck : Option (Fin 512)) : State :=
  if s.bankUsable 56 then s
  else if s.bankUsable 74 then s.blowAll 56 18 stuck
  else if s.bankBlank 56 then (State.fillBank drawTries 56 stuck s).2
  else if s.bankBlank 74 then (State.fillBank drawTries 74 stuck (s.blowAll 56 18 stuck)).2
  else s

/-- The UDS bank that serves. -/
def State.udsBank (s : State) : Option Nat := if s.bankUsable 56 then some 56 else if s.bankUsable 74 then some 74 else none

/-! The DICE layers. -/

/-- The root (R314): its code (R352) and value; none where no identity may be derived. -/
def State.rootOf (s : State) : Option (Nat × Bytes) :=
  if s.boot.unverified then none
  else if s.lc.state = 1 ∨ s.lc.state = 5 then some (1, Bytes.ofNat 32 Config.testRoot.toNat)
  else if s.lc.state = 3 then
    if s.lc.openScopes != 0 then some (1, Bytes.ofNat 32 Config.testRoot.toNat)
    else if s.bankUsable 92 then some (2, (Config.hmac 1 (s.bankSecret 92) (ascii "klv-s2 manuf")).take 32)
    else none
  else if s.lc.state = 4 then
    match s.udsBank with
    | some w => some (0, s.bankSecret w)
    | none => none
  else none

/-- The fixed slots (R318): what stands in them and the descriptor that the model gives them (log entry 22). -/
def fixedAttr (n : Nat) : Word :=
  if n = 0 then attrOf 1 1 0x05 0x7F true 0 true
  else if n ≤ 3 then attrOf 3 1 0x05 0x7F true 1 true
  else if n = 4 then attrOf 4 1 0x02 0x7F true 1 true
  else if n = 5 then attrOf 5 1 0x02 0x7F true 1 true
  else if n ≤ 7 then attrOf 1 1 0x05 0x7F true 0 false
  else attrOf 8 1 0x04 0x7F true 2 false

def State.fixSlot (s : State) (n : Nat) (b : Bytes) : State := s.writeSlot n b fun _ => fixedAttr n

/-- Step 4 (R317, R318): CDI_0 and PRK_dev from the root and the BL1 measurement. -/
def State.deriveFirst (s : State) (bl1 : BitVec 384) : State :=
  match s.rootOf with
  | none => { s with lc := { s.lc with identityFault := s.lc.identityFault || !s.boot.unverified } }
  | some (code, root) =>
    let cdi := Config.hmac 1 root (ascii "klv-s2 L0" ++ [BitVec.ofNat 8 s.lc.state, s.lc.openScopes.setWidth 8] ++ Bytes.big bl1
      ++ s.counterBytes)
    let prk := hkdfExtract (ascii "klv-s2 devid") root
    let fleet := if s.lc.fleet then hkdfExtract (ascii "klv-s2 fleet") (s.bankSecret 110) else []
    let s := { s with
      lc := { s.lc with testRoot := code == 1, udsBank := s.udsBank == some 74 && code == 0 }
      keys := { s.keys with rootCode := code, cdi0 := cdi, prkDev := prk, prkFleet := fleet } }
    ((((s.fixSlot 0 root).useSlot 0).useSlot 0).fixSlot 1 cdi).fixSlot 2 prk

/-- Step 6: CDI_1. -/
def State.deriveSecond (s : State) (fc : BitVec 384) : State :=
  if s.keys.cdi0.isEmpty || s.keysLocked then s
  else
    let cdi := Config.hmac 1 s.keys.cdi0 (ascii "klv-s2 L1" ++ Bytes.big fc)
    let s := s.useSlot 1
    State.fixSlot { s with keys := { s.keys with cdi1 := cdi } } 3 cdi

/-- Step 10: CDI_A and the alias keys; KS3 is overwritten. -/
def State.deriveAlias (s : State) : State :=
  if s.keys.cdi1.isEmpty || s.keysLocked then s
  else
    let cdi := Config.hmac 1 s.keys.cdi1 (ascii "klv-s2 alias" ++ Bytes.big (Config.sha384 s.boot.bootLog.flatten))
    let s := State.useSlot { s with keys := { s.keys with cdiA := cdi } } 3
    let s := (s.fixSlot 4 (ecdsaPrivate cdi s.lc.state)).fixSlot 5 (mldsaSeed cdi s.lc.state)
    State.clearSlot { s with keys := { s.keys with cdi1 := [] } } 3

/-- The ROM lock and the BL1 lock (R284, R285, R318): the layer's input is overwritten. -/
def State.setRomLock (s : State) : State := State.clearSlot { s with boot := { s.boot with romLock := true } } 0
def State.setBl1Lock (s : State) : State :=
  State.clearSlot { s with boot := { s.boot with bl1Lock := true }, keys := { s.keys with cdi0 := [] } } 1

/-- LC_STATUS (R323). -/
def State.lcStatus (s : State) : Nat :=
  let bits (f : Nat → Bool) : Nat := ((List.range 8).map fun k => if f k then 2 ^ k else 0).sum
  s.lc.state + (if s.lc.resumed then 2 ^ 3 else 0) + s.lc.record * 2 ^ 4 + s.blankRecords * 2 ^ 8
    + (if s.lc.openScopes != 0 then 2 ^ 13 else 0) + (if s.lc.testRoot then 2 ^ 14 else 0) + (if s.lc.udsBank then 2 ^ 15 else 0)
    + (if s.lc.identityFault then 2 ^ 16 else 0) + (if s.lc.fleet then 2 ^ 17 else 0)
    + bits (fun k => s.fuse (240 + k) != 0) * 2 ^ 18 + bits s.slotCommitted * 2 ^ 26

end Sys2Proof.Machine
end

