-- ==== Sys2Proof/Machine/Loading.lean ====
section
/-! DEFINITION. The choice of images (R276, R277, R280 to R283) and the loading of subsystem and data images over the
firewall (R288 to R291, R471, R472). -/

namespace Sys2Proof.Machine

/-- An image that a loader takes: the candidate, its place among the candidates, and whether it failed a check. -/
structure Taken where
  cand : Candidate
  index : Nat
  failed : Bool
deriving DecidableEq, Repr

/-- Copy an image into the memory it runs from (R270): the memories of Quarters, or FC SRAM. -/
def State.copyIn (s : State) (want : Nat) (qs : List Nat) (c : Candidate) : State :=
  let p := c.ksi.place want
  let b := Bytes.slice c.bytes ksiHead p.2
  if want = 1 then { s with qcMem := qs.foldl (fun m q => Tab.setMany 0 m (2 ^ 18 * q + p.1) b) s.qcMem }
  else { s with fcSram := Tab.setMany 0 s.fcSram p.1 b }

/-- Check 8 on every internal copy (R270, R276). -/
def State.copyGood (s : State) (want : Nat) (qs : List Nat) (k : Ksi) : Bool :=
  let p := k.place want
  if want = 1 then qs.all fun q => Config.sha384 (Tab.getMany 0 s.qcMem (2 ^ 18 * q + p.1) p.2) == k.payloadDigest
  else Config.sha384 (Tab.getMany 0 s.fcSram p.1 p.2) == k.payloadDigest

/-- Check an image for the memory it runs from: the header first, then the copy, digested in place (R270, R276). With `force` it is
copied whatever its header says. Answers the failure code. -/
def State.checkImage (s : State) (want : Nat) (qs : List Nat) (force : Bool) (c : Candidate) : Option Nat × State :=
  match s.headerFail c.bytes want c.room with
  | some code => (some code, if force then s.copyIn want qs c else s)
  | none =>
    let s := s.copyIn want qs c
    (if s.copyGood want qs c.ksi then none else some 8, s)

/-- The read of a candidate from the flash (R464). -/
def State.readCandidate (s : State) (c : Candidate) : State := if c.area < 4 then s.xspiRead c.offset c.room else s

/-- An image whose check fails runs nevertheless: any in TEST_OPEN and ANALYSIS (R277), but a BL1 only where it passes check 1 (R281, R282;
log entry 23). -/
def State.runsAnyway (s : State) (want : Nat) (c : Candidate) : Bool :=
  s.lenient && (want != 0xF0 || ksiFormOk c.bytes 0xF0 c.room)

/-- Check candidates in order; the failures are recorded (R276, R283). In TEST_OPEN and ANALYSIS a failed check leads to no
fallback: the image runs (R277; log entry 23). `errs` tells of each candidate whether its read ended in an error. -/
def State.choose (want : Nat) (qs : List Nat) : State → List Bool → Nat → List Candidate → Option Taken × State
  | s, _, _, [] => (none, s)
  | s, errs, i, c :: r =>
    let s := s.readCandidate c
    let runs := s.runsAnyway want c
    match (if errs.headD false then (some 9, s) else s.checkImage want qs runs c) with
    | (none, s) => (some { cand := c, index := i, failed := false }, s)
    | (some code, s) =>
      let s := s.noteFail code want
      if runs && code ≠ 9 then (some { cand := c, index := i, failed := true }, s)
      else State.choose want qs s (errs.drop 1) (i + 1) r

/-- The BL1 that the boot ROM runs (R281): the first that passes every check, else the first that passes check 1. -/
def State.chooseBl1 (s : State) (errs : List Bool) : Option Taken × State :=
  let cs := s.fcCandidates.map Candidate.inner
  match s.choose 0xF0 [] errs 0 cs with
  | (some t, s) => (some t, s)
  | (none, s) =>
    match (cs.mapIdx fun i c => ({ cand := c, index := i, failed := true } : Taken)).find? fun t =>
        ksiFormOk t.cand.bytes 0xF0 t.cand.room && !errs.getD t.index false with
    | some t => (some t, s.copyIn 0xF0 [] t.cand)
    | none => (none, s)

/-- An image that runs after a failed check sets BOOT_UNVERIFIED (R277, R281). -/
def State.markUnverified (s : State) (failed : Bool) : State :=
  { s with boot := { s.boot with unverified := s.boot.unverified || failed } }

/-- An image whose header asks for it raises its counter once READY is reached, where it came from the preferred slot
(R279). -/
def State.askAdvance (s : State) (k : Ksi) (preferred : Bool) : State :=
  match componentLimit k.component with
  | some l => if k.advance && preferred then { s with boot := { s.boot with advances := s.boot.advances ++ [(l.2, k.svn)] } } else s
  | none => s

/-! Step 9. -/

/-- Pages of a load region (R288). -/
def regionPages (k : Ksi) : Nat := (k.payloadBytes + 4095) / 4096

/-- The region overlaps another of this boot: failure code 0x0B. The region that the load itself has closed, in this attempt or the one
before, is no other. -/
def State.regionMeets (s : State) (code : Nat) (isClosed : Bool) (k : Ksi) : Bool :=
  let lo := k.loadAddress / 4096
  let hi := lo + regionPages k
  s.boot.fwRegions.any fun r => !(isClosed && r.1 == code && r.2.1 == lo && r.2.2.1 == regionPages k && !r.2.2.2)
    && decide (r.2.1 < hi) && decide (lo < r.2.1 + r.2.2.1)

/-- The line code of a load: the hold line, or 0x3F for a data image (R471). -/
def LoadWork.code (w : LoadWork) : Nat := w.line.getD 0x3F

/-- Ask the firewall (R471). -/
def State.askFirewall (s : State) (grant : Bool) (w : LoadWork) : State :=
  let base := w.image.loadAddress / 4096
  let pages := regionPages w.image
  let q : FwReq := { grant := grant, base := base, pages := pages, line := w.code, asked := s.now }
  State.emit { s with boot := { s.boot with fwReq := some q } } (.firewall grant base (pages - 1) (if grant then w.code else 0))

/-- The container of a load, read again from the flash. -/
def State.loadBytes (s : State) (k : Ksi) : Bytes := s.flashRead k.offset (ksiHead + k.payloadBytes)

/-- The component that a load is for: its directory entry's (R266, R276). -/
def LoadWork.component (w : LoadWork) : Nat := match w.line with
  | some k => k + 2
  | none => 0xF2

/-- The payload is written into its region and digested on the way (R288 step 3): whether its digest is right. -/
def State.streamPayload (s : State) (k : Ksi) : Bool × State :=
  let b := ksiPayload k (s.loadBytes k)
  (Config.sha384 b == k.payloadDigest, (s.xspiRead (k.offset + ksiHead) k.payloadBytes).hostWrite (0, 0) k.loadAddress b)

/-- Payload, check 8, and the request to grant (R288 steps 3 to 5). Answers the failure code, 0 for none, and the errors of the reads
still to come. -/
def State.fillRegion (s : State) (w : LoadWork) (errs : List Bool) : Nat × List Bool × State :=
  if errs.headD false then (9, errs.drop 1, s.xspiRead (w.image.offset + ksiHead) w.image.payloadBytes)
  else
    let (ok, s) := s.streamPayload w.image
    if ok then (0, errs.drop 1, s.askFirewall true w)
    else if s.lenient then (0, errs.drop 1, ((s.noteFail 8 w.component).markUnverified true).askFirewall true w)
    else (8, errs.drop 1, s)

/-- The request to close the region, unless it stands closed from a failed attempt (R288 step 2, R289). -/
def State.openRegion (s : State) (w : LoadWork) (errs : List Bool) : Nat × List Bool × State :=
  if s.regionMeets w.code w.isClosed w.image then (0x0B, errs, s)
  else if w.isClosed then s.fillRegion w errs
  else (0, errs, s.askFirewall false w)

/-- Start the load at the head (R288 steps 1 and 2): the header is read and checked against the directory's component. `errs` tells
of each read to come whether it ends in an error. -/
def State.startLoad (s : State) (w : LoadWork) (errs : List Bool) : Nat × List Bool × State :=
  let k := w.image
  let s := s.xspiRead k.offset ksiHead
  if errs.headD false then (9, errs.drop 1, s)
  else
    match s.headerFail (s.loadBytes k) w.component (ksiHead + k.payloadBytes) with
    | some c =>
      if s.lenient then ((s.noteFail c w.component).markUnverified true).openRegion w (errs.drop 1)
      else (c, errs.drop 1, s)
    | none => s.openRegion w (errs.drop 1)

/-- A line is given up (R289): it stays held until block reset, and the health unit receives the failure code. -/
def State.holdFailed (s : State) (w : LoadWork) (code : Nat) : State :=
  match w.line with
  | none => s
  | some k =>
    let s := { s with boot := { s.boot with failed := s.boot.failed ||| BitVec.ofNat 32 (2 ^ k) } }
    s.report { event := 0x0002, unitKind := 4, unit := 0, detail := [BitVec.ofNat 8 k, BitVec.ofNat 8 code] }

/-- Proceed with the loads: each failure goes on to the fallback, which must name the same region (R289), or to the next image. The first argument bounds the attempts. -/
def State.runLoads : Nat → List Bool → State → State
  | 0, _, s => s
  | n + 1, errs, s =>
    match s.boot.loads with
    | [] => s
    | w :: r =>
      match s.startLoad w errs with
      | (0, _, s) => s
      | (code, errs, s) =>
        let s := s.noteFail code w.component
        match w.fallback with
        | some f =>
          if !(f.loadAddress == w.image.loadAddress && regionPages f == regionPages w.image) then
            State.runLoads n errs (State.holdFailed { s with boot := { s.boot with loads := r } } w code)
          else
            State.runLoads n errs
              { s with boot := { s.boot with loads := { w with image := f, fallback := none, onFallback := true } :: r } }
        | none => State.runLoads n errs (State.holdFailed { s with boot := { s.boot with loads := r } } w code)

/-- A load that failed once its CLOSE had been asked for (R289). -/
def State.loadFailed (s : State) (w : LoadWork) (r : List LoadWork) (code : Nat) (errs : List Bool) : State :=
  let s := s.noteFail code w.component
  let s := { s with boot := { s.boot with fwReq := none } }
  let s := match w.fallback with
    | some f =>
      if f.loadAddress == w.image.loadAddress && regionPages f == regionPages w.image then
        { s with boot := { s.boot with loads := { w with image := f, fallback := none, onFallback := true } :: r } }
      else State.holdFailed { s with boot := { s.boot with loads := r } } w code
    | none => State.holdFailed { s with boot := { s.boot with loads := r } } w code
  State.runLoads 128 errs s

/-- A region granted: its line is released, and its measurement extends MR3 or MR4 (R288, R291, R347). -/
def State.loadGranted (s : State) (w : LoadWork) (r : List LoadWork) (q : FwReq) (errs : List Bool) : State :=
  let b := s.boot
  let s := { s with boot := { b with
    fwReq := none, loads := r
    fwRegions := (b.fwRegions.filter fun (x : Nat × Nat × Nat × Bool) => !(x.1 == q.line && x.2.1 == q.base)) ++ [(q.line, q.base, q.pages, true)]
    held := match w.line with
      | some k => b.held &&& ~~~(BitVec.ofNat 32 (2 ^ k))
      | none => b.held } }
  let bad := s.lenient && (s.imageFail (s.loadBytes w.image) w.component (ksiHead + w.image.payloadBytes)).isSome
  let s := match w.line with
    | some k => s.extendImage 3 k w.image w.onFallback bad
    | none => s.extendImage 4 0 w.image false bad
  State.runLoads 128 errs (s.askAdvance w.image (w.line.isSome && !w.onFallback))

/-- The firewall's answer (R288, R471, R472); none is the 10 µs without one. -/
def State.firewallAnswer (s : State) (ok : Bool) (errs : List Bool) : State :=
  match s.boot.fwReq, s.boot.loads with
  | some q, w :: r =>
    if !ok then s.loadFailed { w with isClosed := w.isClosed || q.grant } r 0x0A errs
    else if q.grant then s.loadGranted w r q errs
    else
      let w := { w with isClosed := true }
      let s := { s with boot := { s.boot with
        fwReq := none, loads := w :: r, fwRegions := s.boot.fwRegions ++ [(q.line, q.base, q.pages, false)] } }
      match s.fillRegion w errs with
      | (0, _, s) => s
      | (code, errs, s) => s.loadFailed w r code errs
  | _, _ => s

/-- FW_ACK; `errs` are the errors of the flash reads that follow it. -/
def execFwAck (ok : Bool) (errs : List Bool) (s : State) : Host.Outcome State Fault Refusal :=
  act s.boot.fwReq.isSome (fun s => s.firewallAnswer ok errs) s

/-- FIREWALL_TIMEOUT (R472): 10 µs without an acknowledgement. -/
def execFirewallTimeout (errs : List Bool) (s : State) : Host.Outcome State Fault Refusal :=
  act (s.boot.fwReq.any fun q => decide (q.asked + 10000 ≤ s.now)) (fun s => s.firewallAnswer false errs) s

/-- The loads of a boot (R280, R286): the lines in ascending order, then the data images in the order of the directory. -/
def State.allLoads (s : State) : List LoadWork :=
  let lines := (List.range 32).filterMap fun k =>
    match s.stagedCandidates (k + 2) with
    | [] => none
    | c :: r => some ({ line := some k, image := c.ksi, fallback := r.head?.map Candidate.ksi } : LoadWork)
  lines ++ s.dataCandidates.map fun c => ({ line := none, image := c.ksi, fallback := none } : LoadWork)

end Sys2Proof.Machine
end

