-- ==== Sys2Proof/Machine/Records.lean ====
section
/-! DEFINITION. ERRLOG_READ (R383, R384), failure signatures and the health area in flash (R389, R390). -/

namespace Sys2Proof.Machine

/-! ERRLOG_READ. -/

/-- A record that a window sees: at major 1, none of the integrity error records (R246, R383, R384). -/
def State.recordVisible (s : State) (w vi : Nat) (r : HRec) : Bool :=
  (if w < 64 then r.vi == w && (r.cls == 2 || r.cls == 3) else vi == 0xFF || r.vi == vi)
    && (r.cls != 3 || (s.window w).msgMajor == 2)

def State.errlogRead (s : State) (w : Nat) (c : Cmd) : State :=
  let first := c.u 16 8
  let size := c.u 32 4
  let vs := s.health.ring.filter fun r => decide (first ≤ r.recNo) && s.recordVisible w (c.u 36 1) r
  let fit := (size - 40) / 512
  if size < (if vs.isEmpty then 40 else 552) then s.result w (.denied 4)
  else
    let rs := vs.take fit
    let next := match rs.getLast? with
      | some r => r.recNo + 1
      | none => s.health.nextRec
    let heldFrom := (s.health.ring.filter fun r => decide (first ≤ r.recNo)).length
    let gap := decide (heldFrom < s.health.nextRec - max 1 first)
    let oldest := match s.health.ring.head? with
      | some r => r.recNo
      | none => s.health.nextRec
    let body := Bytes.ofNat 8 next ++ Bytes.ofNat 8 oldest ++ Bytes.ofNat 4 rs.length ++ [if gap then 1 else 0] ++ List.replicate 11 0
      ++ (rs.map fun r => Bytes.slice (s.cper r) 0 512).flatten
    let seen (r : HRec) : HRec := if w = 64 && rs.any fun x => x.recNo == r.recNo then { r with exported := true } else r
    State.respond { s with health := { s.health with ring := s.health.ring.map seen } } w msgErrlog (c.u 24 8) size body

def execErrlogRead (w : Win) (s : State) : Host.Outcome State Fault Refusal :=
  actCmd (s.fcCmd w.val 0x82) (fun c s => s.errlogRead w.val c) s

/-! Failure signatures and the health area. -/

def parseSig (b : Bytes) : Sig :=
  let u := Bytes.num b
  { event := u 2 2, unitKind := u 4 1, unit := u 5 1, cls := u 6 1, count := u 8 4, first := u 16 8, last := u 24 8
    aclkMhz := u 32 2, railMv := u 34 2, tj := Bytes.int b 36 2, location := u 40 8, opSeconds := u 48 8 }

/-- The two halves of the area (R389). -/
def areaBase (i : Nat) : Nat := userBase + 0x40000 + 0x40000 * i

/-- A record that the health area holds is flagged so (R387). -/
def HRec.inArea (r : HRec) : HRec := { r with flags := r.flags ||| 1 }

/-- The ring's copy of the BLOCK record that the area holds is flagged with it. -/
def Health.flagArea (h : Health) : List HRec :=
  h.ring.map fun r => if (h.lastBlock.map (·.recNo)) == some r.recNo then r.inArea else r

/-- The bytes of the area as it now stands, its sequence number given. -/
def State.areaBytes (s : State) (seq : Nat) : Bytes :=
  let h := s.health
  let last := match h.lastBlock with
    | some r => s.cper r.inArea
    | none => h.areaBlock
  let rest := Bytes.ofNat 8 (h.operating s.now) ++ Bytes.ofNat 2 h.retiredArc.toNat ++ Bytes.ofNat 2 h.retiredSeg.toNat
    ++ [BitVec.ofNat 8 (h.omapSlice.getD 0xFF), 0, 0, 0] ++ Bytes.ofNat 8 h.omapTime ++ List.replicate 24 0
    ++ Bytes.slice last 0 512 ++ (h.sigs.map Sig.toBytes).flatten
  let body := Bytes.ofNat 4 (16 + rest.length) ++ rest
  Bytes.ofNat 4 0x4B48_4C54 ++ Bytes.ofNat 4 seq ++ Bytes.ofNat 4 (crc32 body).toNat ++ body

/-- A half read from the flash: valid, its sequence number, and its bytes (R272, R389). -/
def State.areaHalf (s : State) (i : Nat) : Bool × Nat × Bytes :=
  let h := s.flashRead (areaBase i) 16
  let used := Bytes.num h 12 4
  let b := s.flashRead (areaBase i) (if used ≤ 0x40000 then used else 16)
  (Bytes.num h 0 4 == 0x4B48_4C54 && decide (576 ≤ used) && decide (used ≤ 0x40000)
    && Bytes.num h 8 4 == (crc32 (b.drop 12)).toNat, Bytes.num h 4 4, b)

/-- The half in use. -/
def State.areaCopy (s : State) : Option Nat :=
  let a := s.areaHalf 0
  let b := s.areaHalf 1
  chooseCopy a.1 b.1 a.2.1 b.2.1

/-- Rewrite the area (R389): the half not in use. -/
def State.writeArea (s : State) : State :=
  let c := s.areaCopy
  let seq := match c with
    | some i => (s.areaHalf i).2.1 + 1
    | none => 1
  let i := spareCopy c
  let s := (s.flashErase (areaBase i) (areaBase i + 0x40000)).flashWrite (areaBase i) (s.areaBytes seq)
  { s with health := { s.health with areaSeq := seq, areaAt := s.now, dirty := false, newSigs := false, ring := s.health.flagArea } }

/-- The FC runtime takes up what the area holds (R389). -/
def State.readArea (s : State) : State :=
  match s.areaCopy with
  | none => s
  | some i =>
    let (_, q, b) := s.areaHalf i
    let u := Bytes.num b
    { s with health := { s.health with
        areaSeq := q
        opSeconds := u 16 8, retiredArc := BitVec.ofNat 16 (u 24 2), retiredSeg := BitVec.ofNat 16 (u 26 2)
        omapSlice := if u 28 1 < 16 then some (u 28 1) else none, omapTime := u 32 8
        areaBlock := Bytes.slice b 64 512
        sigs := (Bytes.chunks 64 4000 (b.drop 576)).map parseSig } }

/-- The Ownership Map reset that led to this boot (R372): a second one of the same slice within 3,600 s retires the slice's
segment and the Arcade beneath it, which is reported (R388), and the reset is recorded. -/
def State.noteOmapReset (s : State) : State :=
  let h := s.health
  if h.cause = 1 && h.resetUnitKind = 8 then
    let t := h.resetTime + h.opSeconds
    let again := h.omapSlice == some h.causeUnit && decide (t ≤ h.omapTime + 3600)
    let s := { s with health := { h with
        omapSlice := some h.causeUnit, omapTime := t, dirty := true
        retiredSeg := if again then h.retiredSeg ||| BitVec.ofNat 16 (2 ^ h.causeUnit) else h.retiredSeg
        retiredArc := if again then h.retiredArc ||| BitVec.ofNat 16 (2 ^ h.causeUnit) else h.retiredArc } }
    if again then (s.report { event := 0x0403, unitKind := 2, unit := h.causeUnit }).report { event := 0x0402, unitKind := 1, unit := h.causeUnit }
    else s
  else s

/-- HEALTH_AREA_REWRITE (R389): when a mark or the slice fields have changed, or once per hour when signatures are new. -/
def execHealthAreaRewrite (s : State) : Host.Outcome State Fault Refusal :=
  act (s.fcUp && (s.health.dirty || (s.health.newSigs && decide (s.health.areaAt + 3600000000000 ≤ s.now)))) State.writeArea s

/-- SIGNATURE_WINDOW_END (R390): every bucket of a 60 s window yields a signature; the area holds the latest 4,000. -/
def State.endWindow (s : State) : State :=
  let h := s.health
  let all := h.sigs ++ h.buckets
  let h := { h with
    windowAt := s.now, sigs := all.drop (all.length - 4000), newSigs := h.newSigs || !h.buckets.isEmpty, buckets := [] }
  { s with health := h, mgmt := { s.mgmt with sigQueue := s.mgmt.sigQueue ++ s.health.buckets } }

def execSignatureWindowEnd (s : State) : Host.Outcome State Fault Refusal :=
  act (s.fcUp && decide (s.health.windowAt + 60000000000 ≤ s.now)) State.endWindow s

end Sys2Proof.Machine
end

