-- ==== Sys2Proof/Machine/Boot.lean ====
section
/-! DEFINITION. Resets and the boot sequence (R281 to R288, R296, R302, R318, R343, R347, R397 to R401, R444, R445). -/

namespace Sys2Proof.Machine

/-! Resets. -/

/-- SYS_RST (R444): an external request for a block reset. -/
def execSysRst (s : State) : Host.Outcome State Fault Refusal := act true (fun s => s.selfReset 7) s

/-- POR_N_LOW (R444): the whole block is held in reset; its outputs end. The health ring and the debug grant keep their
power. It is no block reset that a record tells of, so `resets` does not count it (R396; log entry 58). -/
def State.holdReset (s : State) : State :=
  let s := s.cutRecords
  let s := s.freshBoot { Health.afterReset s.health 0 0xFF 0 with resets := s.health.resets } s.lc.grant
  { s with top := { s.top with porLow := true } }

def execPorNLow (s : State) : Host.Outcome State Fault Refusal := actPower (s.top.supply && !s.top.porLow) State.holdReset s

/-- SUPPLY_REMOVED (R397): nothing but fuses and flash stays. -/
def State.powerOff (s : State) : State :=
  let s := s.freshBoot {} 0
  { s with top := { s.top with supply := false } }

def execSupplyRemoved (s : State) : Host.Outcome State Fault Refusal := actPower s.top.supply State.powerOff s

/-- POR (R444, R445): por_n deasserts with the supply in range; the straps are sampled, and step 1 begins. -/
def execPor (st : Straps) (s : State) : Host.Outcome State Fault Refusal :=
  actPower (s.top.porLow || !s.top.supply) (fun s => { s with top := { s.top with supply := true, porLow := false, straps := st } }) s

/-! Certificates (R358, R359): the prefixes of the two slots lie in the user partition, each a length and its bytes (log
entry 24). -/

def certPlace (k : Nat) : Nat := userBase + 0x2000 + 0x8000 * k

def State.certPrefix (s : State) (k : Nat) : Bytes :=
  let n := Bytes.num (s.flashRead (certPlace k) 4) 0 4
  if n ≤ 0x7000 then s.flashRead (certPlace k + 4) n else []

def State.setCertPrefix (s : State) (k : Nat) (b : Bytes) : State :=
  (s.flashErase (certPlace k) (certPlace k + 0x8000)).flashWrite (certPlace k) (Bytes.ofNat 4 b.length ++ b)

/-- The block's own DeviceID certificates under FleetID, at the first READY in OWNED (R359). -/
def State.ownCertificates (s : State) : State :=
  let n := s.lc.state
  if n = 4 && s.lc.fleet && !s.keys.prkDev.isEmpty && (s.certPrefix 0).isEmpty && (s.certPrefix 1).isEmpty
      && !s.useRefused (s.slot 2).attr 2 && !s.useRefused (s.slot 6).attr 2 then
    let e := ecdsaPublicOf s.keys.prkDev n
    let m := mldsaPublicOf s.keys.prkDev n
    let (r, s) := s.useSlot 6 |>.draw
    let s := s.setCertPrefix 0 (Config.certBytes e e (Config.ecdsaSign (ecdsaPrivate s.keys.prkFleet fleetLc) e))
    s.setCertPrefix 1 (Config.certBytes m m (Config.mldsaSign 65 (mldsaSeed s.keys.prkFleet fleetLc) m ((Bytes.big r).take 32)))
  else s

/-! Steps. -/

def State.atStep (s : State) (n : Nat) (st : Stage) : State := { s with boot := { s.boot with step := n, stage := st } }

/-- Nothing runs until the next reset (R277, R283, R343). -/
def State.haltBoot (s : State) : State := s.atStep 0 .halted

/-- Step 1: PD32 and PD33 up, the fuses sensed and the lifecycle records decoded. -/
def State.bootHardware (s : State) (stuck : Option (Fin 512)) : State :=
  let s := { s with top := { s.top with blkRst := false }, pm := { s.pm with domains := s.pm.domains ||| 0x3_0000_0000 } }
  (s.decodeLifecycle stuck).atStep 2 .rom

/-- HL_RESET_CAUSE (R396). -/
def State.resetCause (s : State) : Nat :=
  let h := s.health
  h.cause + h.causeUnit % 256 * 2 ^ 8 + h.causeEvent % 2 ^ 16 * 2 ^ 16 + h.resets % 2 ^ 32 * 2 ^ 32

/-- The keys of a boot (R316, R318, R324, R351): boot_id, the challenge, the SKA mask key, KS8, and the fused secrets. -/
def State.drawBootKeys (s : State) : State :=
  let (b, s) := s.draw
  let (c, s) := s.draw
  let (m, s) := s.draw
  let (k, s) := s.draw
  let s := { s with
    boot := { s.boot with bootId := b.setWidth 128 }, lc := { s.lc with challenge := c.setWidth 128 }
    keys := { s.keys with maskKey := m.setWidth 256 } }
  let s := s.fixSlot 8 ((Bytes.big k).take 32)
  let fleet := s.bankUsable 110
  let s := { s with lc := { s.lc with fleet := fleet } }
  let s := if fleet then s.fixSlot 6 (s.bankSecret 110) else s
  if s.bankUsable 92 then s.fixSlot 7 (s.bankSecret 92) else s

/-- The scopes that the boot opens (R298, R313). -/
def State.scopesOf (s : State) : BitVec 5 :=
  if s.lc.state = 1 ∨ s.lc.state = 5 then 31 else if s.lc.state = 3 then s.lc.grant &&& 15 else 0

/-- The health ring is built anew (R381): its header fails the check at step 2, which an uncorrectable error also does (R369), or PD33
has lost power, so that no ring is there. -/
def Health.rebuilt (h : Health) : Health := { h with ring := [], nextRec := 1, lastBlock := none, resets := 0, cause := 0, causeUnit := 255, causeEvent := 0 }

/-- Step 2: the ring's header is checked, a pending transition is resumed, the debug grant is read and cleared, the entropy source
tested up to three times, and the DRBG seeded from one conditioned block with the device serial as personalisation (R343, R345). A
transition that stays incomplete lets no image run (R300). -/
def State.bootRom (s : State) (b : BootIn) : State :=
  let s := if b.ringBad || s.health.nextRec == 0 then { s with health := s.health.rebuilt } else s
  let s := State.resumeAll 16 b.stuck s
  let s := { s with lc := { s.lc with openScopes := s.scopesOf, grant := 0 } }
  if !(b.startup.take 3).any startupPasses then s.haltBoot
  else
    let person : BitVec 384 := BitVec.ofNat 384 (Bytes.bigNat (s.serial ++ List.replicate 32 0))
    let s := { s with trng := Trng.seed { state := .ok, reseedAt := s.now } (Config.sha384 b.seed ^^^ person) }
    let s := (s.finishKills b.stuck).drawBootKeys
    let s := s.report { event := 0x0001, detail := Bytes.ofNat 4 (s.resetCause % 2 ^ 32) }
    if s.lc.state = 0 ∨ s.lc.state = 2 ∨ 6 ≤ s.lc.state ∨ s.lc.pendingRecord.isSome then s.haltBoot else s.atStep 3 .rom

/-- Step 4 begins: BL1 is measured and the first layer derived. -/
def State.takeBl1 (s : State) (c : Candidate) (failed : Bool) (stuck : Option (Fin 512)) : State :=
  let k := c.ksi
  let fb := c.area != 4 && (c.area == 1) != s.boot.active
  let s := s.markUnverified failed
  let s := { s with boot := { s.boot with bl1Image := some k, bl1Failed := failed, bl1Fallback := fb, serial := c.area == 4 } }
  let s := if s.lc.state = 4 then s.makeUds stuck else s
  let s := s.deriveFirst k.measurement
  let rom := Bytes.ofNat 8 Config.romVersion.toNat ++ [BitVec.ofNat 8 s.lc.state, s.lc.openScopes.setWidth 8, BitVec.ofNat 8 s.keys.rootCode]
    ++ s.counterBytes
  let s := s.extendMr 0 0xFE 0 0 0 0 (Config.sha384 rom)
  let s := s.extendImage 0 0 k fb failed
  (s.askAdvance k (!fb && c.area != 4)).atStep 4 .rom

/-- The boot ROM, or BL1 after it, receives its image over the UART (R282). -/
def State.serialLoad (s : State) (loader : Nat) : State :=
  State.atStep { s with uart := { s.uart with loader := loader, load := none } } (if loader = 0 then 3 else 5) .serial

/-- Step 3. -/
def State.bootSelect (s : State) (errs : List Bool) (stuck : Option (Fin 512)) : State :=
  let s := ((s.xspiStart.xspiRead 0 64).xspiRead 0x1000 64).xspiRead (slotBase s.bootRecord.active) 0x2000
  let r := s.bootRecord
  let s := { s with boot := { s.boot with active := r.active, trial := r.trial, tries := r.tries } }
  if s.top.straps.recoveryReq then s.serialLoad 0
  else
    match s.chooseBl1 errs with
    | (none, s) => s.serialLoad 0
    | (some t, s) => s.takeBl1 t.cand t.failed stuck

/-- The trial of a new image (R280): a boot on trial counts, and the third without READY turns to the other slot. -/
def State.countTrial (s : State) : State :=
  let b := s.boot
  if !b.trial then s
  else if 3 ≤ b.tries then s.writeBootRecord (!b.active) false 0
  else s.writeBootRecord b.active true (b.tries + 1)

/-- Step 6 begins: the FC runtime is measured and the next layer derived. -/
def State.takeFc (s : State) (t : Taken) : State :=
  let k := t.cand.ksi
  let fb := (t.cand.area == 1) != s.boot.active
  let s := s.markUnverified t.failed
  let s := { s with boot := { s.boot with fcImage := some k, fcFallback := fb, runningSlot := t.cand.area == 1 } }
  let s := s.deriveSecond k.measurement
  ((s.extendImage 1 0 k fb t.failed).askAdvance k (!fb)).atStep 6 .bl1

/-- The recovery loader, in FC SRAM, runs (R283). -/
def State.takeRecovery (s : State) : State :=
  State.atStep { s with boot := { s.boot with recovery := true }, uart := { s.uart with loader := 2, load := none } } 0 .recovery

/-- Step 5 (R277, R280, R283). -/
def State.bootLoader (s : State) (errs : List Bool) : State :=
  let s := s.countTrial
  let n := s.fcCandidates.length
  match s.choose 0 [] errs 0 s.fcCandidates with
  | (some t, s) => s.takeFc t
  | (none, s) =>
    match s.choose 0xF1 [] (errs.drop n) 0 [s.recoveryImage] with
    | (some t, s) => (s.markUnverified t.failed).takeRecovery
    | (none, s) => s.haltBoot

/-- A unit is marked out of service. -/
def State.marked (s : State) (a : Nat) : Bool := s.health.retiredArc.getLsbD a || s.health.retiredSeg.getLsbD a

/-- The units that the health area marks stay out of service (R190, R389). -/
def State.keepRetired (s : State) : State :=
  ((List.range 16).filter fun a => s.marked a).foldl (fun (s : State) a =>
    (s.onSeg a fun g => { g with state := .retired }).onArc a fun c => { c with integ := .retired }) s

/-- Step 7 begins: the FC runtime runs; PD34 and PD35, PD37 where a scope is open (R399), the tray delay (R401), and the health area
(R389, R372). -/
def State.bootRuntime (s : State) : State :=
  let d : BitVec 38 := 0xC_0000_0000 ||| (if s.lc.openScopes != 0 then 0x20_0000_0000 else 0)
  let s := { s with pm := { s.pm with domains := s.pm.domains ||| d }, health := { s.health with fcKick := s.now } }
  let s := { s with boot := { s.boot with trayUntil := s.now + s.top.straps.traySlot.toNat * 20000000 } }
  (s.readArea.noteOmapReset.keepRetired).atStep 7 .fcInit

/-- The domain that ramps next in step 7 (R399, R401): the units in ascending order, the segment of each first. -/
def State.bootDomain (s : State) : Option Nat :=
  ((List.range 16).filter fun a => !s.marked a).findSome? fun a =>
    if !s.pm.domains.getLsbD (16 + a) then some (16 + a) else if !s.pm.domains.getLsbD a then some a else none


/-- A Quarter controller is released on the image in its memory (R270, R286). -/
def State.releaseQc (s : State) (q : Nat) (k : Ksi) : State :=
  State.onQc { s with boot := { s.boot with
      qcRunning := Tab.set 0 s.boot.qcRunning q k.versionWord, qcImage := Tab.set none s.boot.qcImage q (some k) } } q fun c => { c with lastKick := s.now }

/-- Step 8: the QC firmware is copied into the four memories, and each copy digested; without an image that passes, the Quarters are
FAILED. -/
def State.bootQuarters (s : State) (errs : List Bool) : State :=
  let n := (s.stagedCandidates 1).length
  let s := match s.choose 1 [0, 1, 2, 3] errs 0 (s.stagedCandidates 1) with
    | (none, s) => (List.range 4).foldl (fun (s : State) q => s.onQc q fun c => { c with state := .failed }) s
    | (some t, s) =>
      let k := t.cand.ksi
      let s := (s.markUnverified t.failed).askAdvance k (t.index == 0)
      (List.range 4).foldl (fun (s : State) q =>
        (s.extendImage 2 q k (t.index != 0) t.failed).releaseQc q k) s
  let s := s.atStep 9 .subsys
  State.runLoads 128 (errs.drop n) { s with boot := { s.boot with loads := s.allLoads } }

/-- FC_BOOT_STATUS (R296). -/
def Stage.code : Stage → Nat
  | .hardware => 0 | .rom => 1 | .bl1 => 2 | .fcInit => 3 | .qcLoad => 4 | .subsys => 5 | .identity => 6 | .ready => 7
  | .recovery => 8 | .halted => 9 | .serial => 10

def Boot.status (b : Boot) : Nat :=
  let bit (c : Bool) (n : Nat) : Nat := if c then 2 ^ n else 0
  b.stage.code + bit b.unverified 4 + bit b.runningSlot 5 + bit b.active 6 + bit b.trial 7 + bit b.bl1Fallback 8 + bit b.fcFallback 9
    + bit b.serial 10 + bit b.recovery 11 + b.failCode.toNat * 2 ^ 16 + b.failComponent.toNat * 2 ^ 24 + b.readyUs.toNat * 2 ^ 32

/-- Step 10: the configuration is measured, MR0 to MR5 are locked, and the alias keys made (R317, R347). -/
def State.bootIdentity (s : State) : State :=
  let m := Config.sha384 (Bytes.ofNat 4 (s.fuse 52).toNat ++ Bytes.ofNat 2 (Bits.get s.lcStatus 18 16)
    ++ [BitVec.ofNat 8 (Bits.get s.boot.status 8 4)])
  let s := s.extendMr 5 0xFD 0 0 0 0 m
  let (r, s) := s.draw
  let s := { s with boot := { s.boot with mrLock := true, certRnd := (Bytes.big r).take 32 } }
  s.deriveAlias.atStep 11 .identity

/-- Step 11: the counters advance where the boot record is not on trial, the trial of the image that runs is over, and
the block is READY (R279, R280, R286). -/
def State.bootReady (s : State) (us : Nat) (stuck : Option (Fin 512)) : State :=
  let s := if s.boot.trial then s else s.boot.advances.foldl (fun (s : State) x => s.raiseCounter x.1 x.2 stuck) s
  let s := if s.boot.trial && s.boot.runningSlot == s.boot.active then s.writeBootRecord s.boot.active false 0 else s
  let s := s.ownCertificates
  let s := { s with
    boot := { s.boot with readyUs := BitVec.ofNat 32 us }
    health := { s.health with readyAt := some s.now, fcKick := s.now, windowAt := s.now, areaAt := s.now } }
  s.atStep 12 .ready

/-- BOOT_STEP_DONE (R286): the step in progress ends, with what the next begins with. -/
def State.bootStep (s : State) (b : BootIn) : State :=
  match s.boot.step with
  | 1 => s.bootHardware b.stuck
  | 2 => s.bootRom b
  | 3 => s.bootSelect b.flashErrs b.stuck
  | 4 => if s.boot.serial then s.serialLoad 1 else s.atStep 5 .bl1
  | 5 => s.bootLoader b.flashErrs
  | 6 => s.bootRuntime
  | 7 => s.atStep 8 .qcLoad
  | 8 => s.bootQuarters b.flashErrs
  | 9 => s.atStep 10 .identity
  | 10 => s.bootIdentity
  | 11 => s.bootReady b.us b.stuck
  | _ => s

/-- A unit is under its self-test. -/
def State.testing (s : State) : Bool := (List.range 16).any fun a => Tab.get UnitState.off s.pm.units a == .test

/-- What the step in progress still awaits. While the FC runtime restarts, the steps that it runs stand still (R378). -/
def State.stepReady (s : State) : Bool :=
  !s.health.fcRestarting &&
  match s.boot.step with
  | 3 | 5 => s.boot.stage != .serial
  | 4 => s.boot.romLock
  | 6 => s.boot.bl1Lock
  | 7 => s.bootDomain.isNone && !s.testing
  | 9 => s.boot.loads.isEmpty && s.boot.fwReq.isNone
  | n => decide (1 ≤ n) && decide (n ≤ 11)

def execBootStepDone (b : BootIn) (s : State) : Host.Outcome State Fault Refusal := act s.stepReady (fun s => s.bootStep b) s

/-- ROM_LOCK (R284, R318): before the jump to BL1. -/
def execRomLock (s : State) : Host.Outcome State Fault Refusal := act (s.boot.step == 4) State.setRomLock s

/-- BL1_LOCK (R285, R318): before the jump to the FC runtime. -/
def execBl1Lock (s : State) : Host.Outcome State Fault Refusal := act (s.boot.step == 6) State.setBl1Lock s

/-! Domains (R399, R400). -/

def State.domainUp (s : State) (d : Nat) : State := { s with pm := { s.pm with domains := s.pm.domains ||| BitVec.ofNat 38 (2 ^ d) } }

/-- The units that come back with the plane: those that were up when it went down (R190, R407). -/
def State.comesBack (s : State) (a : Nat) : Bool :=
  let i := (s.arcade a).planeState
  !(i == .off || i == .retired)

/-- The domain that ramps next at the return of the plane (R407), as at boot step 7. -/
def State.planeDomain (s : State) : Option Nat :=
  ((List.range 16).filter fun a => s.comesBack a).findSome? fun a =>
    if !s.pm.domains.getLsbD (16 + a) then some (16 + a) else if !s.pm.domains.getLsbD a then some a else none

/-- The domain that ramps: in boot step 7 after the tray delay, at the return of the plane, or of the unit that is being readmitted (R415). -/
def State.rampingDomain (s : State) : Option Nat :=
  if s.boot.step = 7 then if s.boot.trayUntil ≤ s.now then s.bootDomain else none
  else if s.pm.planeOff then if s.pm.returning then s.planeDomain else none
  else
    match s.pm.ramping with
    | some a =>
      if Tab.get UnitState.off s.pm.units a == .ramping then
        some (if s.pm.domains.getLsbD (16 + a) then a else 16 + a)
      else none
    | none => none

/-- DOMAIN_GOOD: the next domain may ramp; a unit whose two domains are good is tested (R401). -/
def execDomainGood (d : Fin 38) (s : State) : Host.Outcome State Fault Refusal :=
  act (s.rampingDomain == some d.val) (fun s =>
    let s := s.domainUp d.val
    if d.val < 16 then s.onUnit d.val .test else s) s

end Sys2Proof.Machine
end

