-- ==== Sys2Proof/Machine/Firmware.lean ====
section
/-! DEFINITION. FW_INFO and FW_STAGE (R265, R266, R292), the activation of Quarter firmware (R267) and the recovery UART
(R293 to R295). -/

namespace Sys2Proof.Machine

/-! FW_INFO. -/

/-- The FC version in the other slot, zero where it is invalid (R265). -/
def State.otherVersion (s : State) : BitVec 64 :=
  match s.slotImage (!s.boot.runningSlot) 0 with
  | some c => if ksiFormOk c.2.bytes 0 c.2.room then c.2.ksi.versionWord else 0
  | none => 0

def State.fwInfo (s : State) (w : Nat) (c : Cmd) : State :=
  let b := s.fwInfoBody s.otherVersion
  s.respond w msgFwInfo (c.u 16 8) (c.u 24 4) (if (s.window w).msgMajor = 2 then b else b.take 64)

def execFwInfo (w : Win) (s : State) : Host.Outcome State Fault Refusal :=
  actCmd (s.fcCmd w.val 0x80) (fun c s => s.fwInfo w.val c) s

/-! Staging (R292). -/

/-- Free space of a slot for n bytes: the lowest 4 KiB boundary behind the directory from which n bytes meet no listed
image (log entry 25). -/
def State.freeSpace (s : State) (slot : Bool) (n : Nat) : Option Nat :=
  let es := (s.directory (slotBase slot)).2.2
  let free (o : Nat) : Bool := decide (o + n ≤ 0x0400_0000) && es.all fun e => decide (e.offset + e.length ≤ o) || decide (o + n ≤ e.offset)
  let up (o : Nat) : Nat := (o + 4095) / 4096 * 4096
  let starts := 0x2000 :: es.map fun e => up (e.offset + e.length)
  (starts.filter fun o => 0x2000 ≤ o && free o).foldl (fun (m : Option Nat) o => match m with
    | none => some o
    | some k => some (min k o)) none

/-- Write an image into a slot: none where there is no room; else the failure code of its checks, 0 for none. A failed check
leaves the component unlisted in the slot (R266). -/
def State.stageImage (s : State) (slot : Bool) (component : Nat) (img : Bytes) : Option (Nat × State) :=
  match s.freeSpace slot img.length with
  | none => none
  | some o =>
    let s := s.flashWrite (slotBase slot + o) img
    match s.imageFail img component img.length with
    | some code => some (code, (s.noteFail code component).unlist slot component)
    | none =>
      let es := (s.directory (slotBase slot)).2.2.filter fun e => e.component != component
      let s := s.writeDirectory (slotBase slot)
        (es ++ [{ component := component, stageSeq := s.topSeq + 1, offset := o, length := img.length }])
      some (0, if component = 0 then s.writeBootRecord slot true 0 else s)

/-- FW_STAGE (R246, R266, R292): into the slot that does not hold the running FC image. A verified QC image is staged for
every Quarter (R267). -/
def State.fwStage (s : State) (w : Nat) (c : Cmd) (img : HostRead) (flashErr : Bool) : State :=
  let component := c.u 16 1
  let s := s.hostRead (windowWorld w) (c.u 24 8) (c.u 32 4)
  if img.err || img.poison then (s.readFailed img (c.u 24 8)).result w { status := stFault }
  else
    match s.requestStatus w msgImage (c.u 32 4) img.bytes with
    | some st => s.result w { status := st }
    | none =>
      if 34 ≤ component then s.result w (.denied 0)
      else if flashErr then s.result w { status := stFault }
      else
        let body := Bytes.slice img.bytes 8 (c.u 32 4 - 8)
        match s.stageImage (!s.boot.runningSlot) component body with
        | none => s.result w (.denied 0)
        | some (0, t) =>
          let t := if component = 1 then t.setQcStaged (some (parseKsi body)) else t
          let t := t.onSlotOf w fun x => { x with
            undo := .staged component (!s.boot.runningSlot) s.boot.active s.boot.trial s.boot.tries }
          t.result w (.ok 0)
        | some (_, t) => (if component = 1 then t.setQcStaged none else t).result w (.denied 0)

def execFwStage (w : Win) (img : HostRead) (flashErr : Bool) (s : State) : Host.Outcome State Fault Refusal :=
  actCmd (s.fcCmd w.val 0x81) (fun c s => s.fwStage w.val c img flashErr) s

/-! The recovery UART. -/

/-- The UART is in use: by the boot ROM or BL1 in serial load, or by the recovery loader (R282, R295). -/
def State.uartOn (s : State) : Bool := s.boot.stage == .serial || s.boot.stage == .recovery

/-- A frame (R293). -/
def uartFrame (type : Nat) (seq : Byte) (payload : Bytes) : Bytes :=
  let b := [BitVec.ofNat 8 type, seq, 0] ++ Bytes.ofNat 2 payload.length ++ payload
  [0xA5] ++ b ++ Bytes.ofNat 4 (crc32 b).toNat

/-- The version word of the loader (R294). -/
def State.loaderVersion (s : State) : Nat :=
  if s.uart.loader = 0 then Config.romVersion.toNat
  else if s.uart.loader = 1 then (versionOf s.boot.bl1Image).toNat
  else (parseKsi (s.flashRead recoveryBase 256)).versionWord.toNat

/-- HELLO, every 500 ms until the first valid frame (R293, R294). -/
def State.sendHello (s : State) : State :=
  State.emit { s with uart := { s.uart with helloAt := some s.now } } (.uart (uartFrame 1 0 ([BitVec.ofNat 8 s.boot.stage.code, BitVec.ofNat 8 s.lc.state, s.boot.failCode, s.boot.failComponent,
    BitVec.ofNat 8 s.uart.loader, 0, 0, 0] ++ Bytes.ofNat 8 s.loaderVersion)))

/-- A HELLO is due. -/
def State.helloDue (s : State) : Bool :=
  match s.uart.helloAt with
  | some t => decide (t + 500000000 ≤ s.now)
  | none => true

def execHello (s : State) : Host.Outcome State Fault Refusal := act (s.uartOn && !s.uart.heard && s.helloDue) State.sendHello s

/-- A STATUS frame (R294), kept for a frame that is sent again. -/
def State.uartStatus (s : State) (seq : Byte) (st : Nat) : State :=
  State.emit { s with uart := { s.uart with lastStatus := [st, 0, 0] } }
    (.uart (uartFrame 2 seq ([BitVec.ofNat 8 st, 0, 0, 0] ++ Bytes.ofNat 4 0)))

/-- A host frame (R293): a damaged one is dropped, and one whose seq is that of the last frame accepted gets the same STATUS.
The first of the pair that a frame's action answers is its status. -/
def State.hostFrame (s : State) (h : UartHead) (f : State → Nat × State) : State :=
  if !h.valid then s
  else if s.uart.lastSeq == some h.seq then s.uartStatus h.seq (s.uart.lastStatus.headD 0)
  else
    let s := { s with uart := { s.uart with heard := true, lastSeq := some h.seq } }
    let (st, s) := f s
    s.uartStatus h.seq st

def execSpeed (h : UartHead) (code : Byte) (s : State) : Host.Outcome State Fault Refusal :=
  act s.uartOn (fun s => s.hostFrame h fun s =>
    match code.toNat with
    | 0 => (stOk, { s with uart := { s.uart with baud := 115200 } })
    | 1 => (stOk, { s with uart := { s.uart with baud := 921600 } })
    | 2 => (stOk, { s with uart := { s.uart with baud := 3000000 } })
    | _ => (stDenied, s)) s

/-- What a loader accepts (R295). -/
def State.loadAccepted (s : State) (component dest : Nat) : Bool :=
  match s.uart.loader with
  | 0 => component == 0xF0 && dest == 0
  | 1 => component == 0xF1 && dest == 0
  | _ => ((component ≤ 33 || component == 0xF2) && (dest == 1 || dest == 2))
      || (component == 0xF1 && dest == 3 && (s.lc.state == 1 || s.lc.state == 3))

def execLoadBegin (h : UartHead) (component dest : Byte) (length : BitVec 32) (s : State) : Host.Outcome State Fault Refusal :=
  act s.uartOn (fun s => s.hostFrame h fun s =>
    if s.loadAccepted component.toNat dest.toNat then
      (stOk, { s with uart := { s.uart with
        load := some { component := component.toNat, dest := dest.toNat, length := length.toNat, bytes := [] } } })
    else (stDenied, s)) s

/-- The load is given up: it must start again from LOAD_BEGIN (R294). -/
def State.dropLoad (s : State) : State := { s with uart := { s.uart with load := none } }

def execData (h : UartHead) (offset : BitVec 32) (bytes : Bytes) (s : State) : Host.Outcome State Fault Refusal :=
  act s.uartOn (fun s => s.hostFrame h fun s =>
    match s.uart.load with
    | none => (stDenied, s)
    | some l =>
      if offset.toNat ≠ l.bytes.length || bytes.isEmpty || 4096 < bytes.length then (stDenied, s.dropLoad)
      else if l.length < l.bytes.length + bytes.length then (stLenLong, s.dropLoad)
      else (stOk, { s with uart := { s.uart with load := some { l with bytes := l.bytes ++ bytes } } })) s

/-- A load that is complete (R282, R292, R294): its status, and the state once the STATUS frame has gone. -/
def State.endLoad (s : State) (l : UartLoad) (flashErr : Bool) (stuck : Option (Fin 512)) : Nat × State :=
  let c : Candidate := { area := 4, offset := 0, bytes := l.bytes, room := l.bytes.length }
  if l.dest = 0 then
    let (fail, s) := s.checkImage l.component [] (l.component = 0xF0) c
    let s := match fail with
      | some code => s.noteFail code l.component
      | none => s
    if l.component = 0xF0 then (stOk, s.takeBl1 c fail.isSome stuck)
    else if fail.isSome then (stDenied, s)
    else (stOk, s.takeRecovery)
  else if flashErr then (stFault, s)
  else if l.dest = 3 then
    let s := s.flashWrite recoveryBase (l.bytes.take 0xFF0000)
    match s.imageFail l.bytes 0xF1 (min l.bytes.length 0xFF0000) with
    | some code => (stDenied, s.noteFail code 0xF1)
    | none => (stOk, s)
  else
    match s.stageImage (l.dest == 2) l.component l.bytes with
    | none => (stDenied, s)
    | some (0, s) => (stOk, s)
    | some (_, s) => (stDenied, s)

def execLoadEnd (h : UartHead) (flashErr : Bool) (stuck : Option (Fin 512)) (s : State) : Host.Outcome State Fault Refusal :=
  act s.uartOn (fun s => s.hostFrame h fun s =>
    match s.uart.load with
    | none => (stDenied, s)
    | some l => if l.bytes.length < l.length then (stLenShort, s.dropLoad) else s.dropLoad.endLoad l flashErr stuck) s

/-- ACTIVATE (R294, R295). -/
def execActivate (h : UartHead) (slot : Byte) (s : State) : Host.Outcome State Fault Refusal :=
  act s.uartOn (fun s => s.hostFrame h fun s =>
    if s.uart.loader = 2 && slot.toNat ≤ 1 then (stOk, s.writeBootRecord (slot == 1) true 0) else (stDenied, s)) s

/-- REBOOT (R294, R295): the block resets itself after the STATUS reply. -/
def State.uartReboot (s : State) (h : UartHead) : State :=
  let fresh := h.valid && s.uart.lastSeq != some h.seq
  let s' := s.hostFrame h fun s => (if s.uart.loader = 2 then stOk else stDenied, s)
  if fresh && s.uart.loader = 2 then s'.selfReset 6 else s'

def execReboot (h : UartHead) (s : State) : Host.Outcome State Fault Refusal := act s.uartOn (fun s => s.uartReboot h) s

end Sys2Proof.Machine
end

