-- ==== Sys2Proof/Machine/Checkpoints.lean ====
section
/-! DEFINITION. The signing and writing of checkpoints (R206, R222 to R224, R487). -/

namespace Sys2Proof.Machine

/-- A checkpoint: bytes 0 to 799, which both signatures cover, and the signatures (R224). A block without alias keys
or one to which they are refused (R320), writes zeros for them (log entries 26 and 111). -/
def State.checkpoint (s : State) (k : Cut) (no : Nat) (rnd : Bytes) : Bytes :=
  let x := s.session k.session
  let range (i : Nat) : Nat × Nat := k.voids.getD i (1, 0)
  let plan (p : Nat × BitVec 384) : Bytes := Bytes.ofNat 2 p.1 ++ List.replicate 14 0 ++ Bytes.big p.2
  let body := Bytes.ofNat 4 0x4B52_4350 ++ Bytes.ofNat 2 0x0200 ++ [BitVec.ofNat 8 k.kind.code, k.flags] ++ Bytes.ofNat 2 k.session
    ++ [BitVec.ofNat 8 x.vi, BitVec.ofNat 8 (k.plans.length + 16 * k.voids.length)] ++ Bytes.ofNat 2 k.keyxGen.toNat ++ [0, 0]
    ++ Bytes.ofNat 8 no ++ Bytes.ofNat 8 k.prevCut.toNat ++ Bytes.ofNat 8 k.cut.toNat ++ Bytes.ofNat 8 k.rseqHigh.toNat
    ++ Bytes.ofNat 8 k.released.toNat ++ Bytes.ofNat 8 k.voided.toNat ++ Bytes.big k.acc ++ Bytes.big k.evidence ++ Bytes.big k.nonce
    ++ ((List.range 8).map fun i => Bytes.ofNat 8 (range i).1 ++ Bytes.ofNat 8 (range i).2).flatten
    ++ Bytes.slice (k.plans.map plan).flatten 0 512
  let sg := if s.noAlias || s.aliasRefused then ([], []) else signBoth s.keys.cdiA s.lc.state (Bytes.big (Config.sha384 body)) rnd
  Bytes.slice (body ++ Bytes.slice sg.1 0 96 ++ Bytes.slice sg.2 0 3309) 0 4224

/-- The checkpoint ring of a session is full (R487). A session that was taken over has no ring here that could be (log entry 99). -/
def Session.ringFull (x : Session) : Bool := x.ringEntries != 0 && (x.written - x.freed).toNat == x.ringEntries

/-- Where a checkpoint is written (R487). -/
def Session.ringAddr (x : Session) (sc no : Nat) : Nat :=
  if x.ringEntries = 0 then (Config.takenRing sc no).toNat else x.ringBase + (no - 1) % x.ringEntries * 4224

/-- The cut whose checkpoint is written next (R223, R454, R487): the first in the queue whose session's ring has room, and no retry
to wait for. -/
def State.nextCut (s : State) : Option Cut :=
  s.cuts.find? fun k => !(s.session k.session).ringFull && decide ((s.session k.session).ckptRetryAt ≤ s.now)

/-- No cut of a session is still to be written. -/
def State.noCuts (s : State) (sc : Nat) : Bool :=
  s.cuts.all (fun k => k.session != sc) && s.cutDue.all (fun c => c.1 != sc) && s.cutWait.all fun c => c.1 != sc

/-- A CLOSING session whose final checkpoint has been written is FREE (R206), and no logical session names it. -/
def State.freeSession (s : State) (sc : Nat) : State :=
  let x := s.session sc
  let t := s.onSess sc fun x => { x with state := .free }
  let t := (t.sendCtx sc).forgetSession sc
  { t with
    sess := Tab.set {} s.sess sc {}
    plans := Tab.mapVals {} s.plans fun w (p : ViPlan) =>
      if w = x.window then { p with lsess := p.lsess.filter fun e => e.2 != sc + 1 } else p }

/-- A checkpoint is in its ring (R223, R487). A RECEIPT_CHECKPOINT whose signature the key manager refused ends with ST_DENIED (R320). -/
def State.checkpointWritten (s : State) (k : Cut) : State :=
  let refused := !s.noAlias && s.aliasRefused
  let sc := k.session
  let x := s.session sc
  let no := x.ckptNo + 1
  let (rnd, s) := s.draw
  let addr := x.ringAddr sc no
  let s := s.hostWrite (s.sessionWorld sc) addr (s.checkpoint k no ((Bytes.big rnd).take 32))
  let s := if refused then s.logRefusedUse 4 else if s.noAlias then s else s.useAlias
  let s := { s with cuts := s.cuts.erase k }
  let s := s.onSess sc fun x => { x with ckptNo := no, written := x.written + 1 }
  let s := s.message x.window x.ringVector.toNat
  let s := match k.waiter with
    | some w => s.result w (if refused then .denied 0 else .ok no)
    | none => s
  let s := s.takeDeferred
  if (k.kind == .close || k.kind == .abort) && x.state == .closing && s.noCuts sc then s.freeSession sc else s

/-- CHECKPOINT_WRITE (R223): with an error response to its write, the checkpoint stays in the queue, and the write is retried after
100 ms (R454; log entry 26). -/
def execCheckpointWrite (writeErr : Bool) (s : State) : Host.Outcome State Fault Refusal :=
  match s.nextCut with
  | some k => act (s.fcUp && !s.drbgBlocked) (fun s =>
      if writeErr then s.onSess k.session fun x => { x with ckptRetryAt := s.now + 100000000 } else s.checkpointWritten k) s
  | none => act false id s

end Sys2Proof.Machine
end

