-- ==== Sys2Proof/Machine/LifecycleRows.lean ====
section
/-! DEFINITION. Tokens (R309 to R311), transitions and unlocks (R301, R302, R313), the JTAG ports (R305, R306, R312, R469), the
challenge (R324). -/

namespace Sys2Proof.Machine

/-! Tokens. -/

/-- The header of a token (R309). -/
structure Token where
  kind : Nat
  target : Nat
  keyClass : Nat
  keyIndex : Nat
  arg : Nat
  order : Nat
  digest : Bytes
deriving DecidableEq, Repr

def parseToken (b : Bytes) : Token :=
  let u := Bytes.num b
  { kind := u 6 1, target := u 7 1, keyClass := u 8 1, keyIndex := u 9 1, arg := u 10 1, order := u 12 4, digest := Bytes.slice b 48 48 }

/-- The header fields of a token are right for its kind and for this block (R309). -/
def State.tokenFields (s : State) (b : Bytes) : Bool :=
  let u := Bytes.num b
  let k := parseToken b
  u 0 4 == 0x4B54_4B4E && u 4 2 == 0x0200 && 1 ≤ k.kind && k.kind ≤ 5 && (k.kind == 1 || k.target == 0) && k.keyClass ≤ 1
    && k.keyIndex ≤ 3 && u 11 1 == 0 && (k.kind == 5 || k.order == 0) && (k.kind == 3 || k.digest.all fun x => x == 0)
    && (if k.kind = 2 then k.arg ≤ 15 else if k.kind = 3 then k.arg ≤ 3 else if k.kind = 4 then k.arg ≤ 7 else k.arg == 0)
    && Bytes.slice b 16 16 == s.serial && Bytes.slice b 32 16 == Bytes.big s.lc.challenge && allZero b 96 160

/-- Transitions that a LIFECYCLE_REQUEST may ask for (R301). -/
def requestable (source target : Nat) : Bool :=
  (source == 3 && (target == 4 || target == 5 || target == 6)) || (source == 4 && (target == 5 || target == 6))
    || (source == 5 && target == 6)

/-- The owner's key class where an owner slot is programmed, and the vendor's before (R301, R311). -/
def State.ownerClass (s : State) : Nat := if s.noOwner then 0 else 1

/-- The transition is allowed, with the records it needs (R301). -/
def State.transitionOk (s : State) (target : Nat) : Bool :=
  requestable s.lc.state target && s.lowestBlank.isSome && (target == 6 || decide (2 ≤ s.blankRecords))

/-- The kind is accepted in this state and from this key class (R311). -/
def State.tokenAllowed (s : State) (k : Token) : Bool :=
  let n := s.lc.state
  match k.kind with
  | 1 => k.keyClass == (if n = 4 then s.ownerClass else 0)
  | 2 => n == 3 && k.keyClass == 0
  | 3 => n == 4 && k.keyClass == s.ownerClass
  | 4 => (n == 3 || n == 4) && k.keyClass == k.arg / 4 && digestSlot k.keyClass k.keyIndex != k.arg
  | _ => n == 3 && k.keyClass == 0

/-- An ECDSA signature of the block's operand range, and a key on the curve: the status of the first fault (R249). -/
def signatureFault (b : Bytes) : Nat :=
  let bad (o : Nat) : Bool := let v := Bytes.bigNat (Bytes.slice b o 48); v == 0 || decide (p384Order ≤ v)
  if bad 2944 || bad 2992 then stInputRange else pointRefusal (Bytes.slice b 256 96)

/-- The checks of R310 on a token of a kind that the command takes: none where it passes. `curve` says whether the command
answers ST_NOT_ON_CURVE (R249); where it does not, such a key is another failure of the signatures. -/
def State.tokenRefusal (s : State) (b : Bytes) (kinds : List Nat) (target : Option Nat) (curve : Bool) : Option Reply :=
  let k := parseToken b
  let slot := digestSlot k.keyClass k.keyIndex
  let m := Config.sha384 (Bytes.slice b 0 256)
  let fault := signatureFault b
  if b.length < 7680 then some { status := stLenShort }
  else if 7680 < b.length then some { status := stLenLong }
  else if !s.tokenFields b || (kinds.contains 1 && k.kind == 1 && target != some k.target) then some (.denied 0x0A)
  else if !kinds.contains k.kind then some (.denied 0x0B)
  else if k.kind = 1 && !s.transitionOk k.target then some (.denied 9)
  else if !s.tokenAllowed k then some (.denied 0x0B)
  else if !s.slotCommitted slot || s.slotRevoked slot || blockKeyDigest b != s.slotDigest slot then some (.denied 0x0C)
  else if fault = stInputRange || (fault = stNotOnCurve && curve) then some { status := fault }
  else if fault ≠ 0 || !((blockSignatures b m).1 && (blockSignatures b m).2) then some (.denied 0x0D)
  else none

/-- The challenge is renewed after every check (R310), or at the end of the µs in which it was read (R324). -/
def State.renewChallenge (s : State) : State :=
  match s.lc.challengeRead with
  | some t => if t / 1000 = s.now / 1000 then { s with lc := { s.lc with renewHeld := true } }
    else let (r, s) := s.draw; { s with lc := { s.lc with challenge := r.setWidth 128 } }
  | none => let (r, s) := s.draw; { s with lc := { s.lc with challenge := r.setWidth 128 } }

/-- A command that carries a token (R246, R310, R345): its body is checked, the challenge renewed, and a token that passes has
its effect. -/
def State.withToken (s : State) (w : Nat) (c : Cmd) (tok : HostRead) (kinds : List Nat) (target : Option Nat) (curve : Bool)
    (f : Token → State → State) : State :=
  let s := s.hostRead (windowWorld w) (c.u 24 8) (c.u 32 4)
  if tok.err || tok.poison then (s.readFailed tok (c.u 24 8)).result w { status := stFault }
  else
    match s.requestStatus w msgToken (c.u 32 4) tok.bytes with
    | some st => s.result w { status := st }
    | none =>
      if s.drbgBlocked then s.result w (.denied 0x0F)
      else
        let b := Bytes.slice tok.bytes 8 (c.u 32 4 - 8)
        match s.tokenRefusal b kinds target curve with
        | some r => s.renewChallenge.result w r
        | none => f (parseToken b) s.renewChallenge

/-- The block ends every session as ABORT of VI scope, and waits up to 50 ms for their checkpoints (R302, R313). -/
def State.endAllSessions (s : State) (cause : Nat) : State :=
  let s := (List.range 65).foldl (fun s w => s.abortVi w) s
  { s with lc := { s.lc with resetWait := some (s.now + 50000000, cause) } }

/-- The intent word is written into the lowest blank record (R302); the flag says that it took (R305). -/
def State.writeIntent (s : State) (target : Nat) (stuck : Option (Fin 512)) : Bool × State :=
  match s.lowestBlank with
  | some i =>
    let (ok, s) := s.blowList [(3 * i, intentWord target s.lc.state i)] stuck
    (ok, if ok then { s with lc := { s.lc with pendingRecord := some i } } else s)
  | none => (true, s)

/-- The reply of a command whose effect is a fuse operation (R305). -/
def State.fuseResult (x : Bool × State) (w : Nat) : State :=
  if x.1 then x.2.result w (.ok 0) else x.2.result w { status := stFault }

/-- The kind of the token that a LIFECYCLE_REQUEST carries. -/
def tokenKind (tok : HostRead) : Nat := if tok.err || tok.poison then 0 else Bytes.num tok.bytes 14 1

/-- LIFECYCLE_REQUEST (R302): with a TRANSITION token; the kinds that have rows of their own act there. -/
def State.lifecycleRequest (s : State) (w : Nat) (c : Cmd) (tok : HostRead) (stuck : Option (Fin 512)) : State :=
  s.withToken w c tok [1] (some (c.u 16 1)) false fun k s =>
    let x := s.writeIntent k.target stuck
    let t := State.fuseResult x w
    if x.1 then t.endAllSessions 4 else t

def execLifecycleRequest (w : Win) (tok : HostRead) (stuck : Option (Fin 512)) (s : State) : Host.Outcome State Fault Refusal :=
  actCmd (if 3 ≤ tokenKind tok && tokenKind tok ≤ 5 then none else s.fcCmd w.val 0x91)
    (fun c s => s.lifecycleRequest w.val c tok stuck) s

/-- A confidential session is in a state other than FREE (R227). -/
def State.confOpen (s : State) : Bool := s.sess.any fun e => e.2.conf && e.2.state != .free

/-- DEBUG_UNLOCK (R227, R313). -/
def State.debugUnlock (s : State) (w : Nat) (c : Cmd) (tok : HostRead) : State :=
  if s.confOpen then s.result w (.denied 0) else s.withToken w c tok [2] none true fun k s =>
    (State.result { s with lc := { s.lc with grant := BitVec.ofNat 5 k.arg } } w (.ok 0)).endAllSessions 5

def execDebugUnlock (w : Win) (tok : HostRead) (s : State) : Host.Outcome State Fault Refusal :=
  actCmd (s.fcCmd w.val 0x92) (fun c s => s.debugUnlock w.val c tok) s

/-- A running LIFECYCLE_REQUEST whose token is of a kind. -/
def State.tokenCmd (s : State) (w : Nat) (tok : HostRead) (kind : Nat) : Option Cmd :=
  if tokenKind tok = kind then s.fcCmd w 0x91 else none

/-- PROVISION_OWNER (R311): the digest, then its commit word. -/
def State.provisionOwner (s : State) (w : Nat) (c : Cmd) (tok : HostRead) (stuck : Option (Fin 512)) : State :=
  s.withToken w c tok [3] none false fun k s =>
    let o := slotWord (4 + k.arg)
    if !s.slotBlank (4 + k.arg) then s.result w (.denied 0x0E)
    else State.fuseResult (s.blowList (fuseWords o k.digest ++ [(o + 12, 0xFFFF_FFFF)]) stuck) w

def execProvisionOwner (w : Win) (tok : HostRead) (stuck : Option (Fin 512)) (s : State) : Host.Outcome State Fault Refusal :=
  actCmd (s.tokenCmd w.val tok 3) (fun c s => s.provisionOwner w.val c tok stuck) s

/-- REVOKE (R311). -/
def State.revokeSlot (s : State) (w : Nat) (c : Cmd) (tok : HostRead) (stuck : Option (Fin 512)) : State :=
  s.withToken w c tok [4] none false fun k s =>
    let left := (List.range 4).any fun i => let n := k.arg / 4 * 4 + i; n != k.arg && s.slotCommitted n && !s.slotRevoked n
    if !left then s.result w (.denied 0x0E) else State.fuseResult (s.blowList [(240 + k.arg, 0xFFFF_FFFF)] stuck) w

def execRevoke (w : Win) (tok : HostRead) (stuck : Option (Fin 512)) (s : State) : Host.Outcome State Fault Refusal :=
  actCmd (s.tokenCmd w.val tok 4) (fun c s => s.revokeSlot w.val c tok stuck) s

/-- PROVISION_FLEET (R311, R315): a bank that is not blank is filled no more. The public keys of FleetID leave with the reply
(log entry 27). -/
def State.provisionFleet (s : State) (w : Nat) (c : Cmd) (tok : HostRead) (stuck : Option (Fin 512)) : State :=
  s.withToken w c tok [5] none false fun _ s =>
    if !s.bankBlank 110 then s.result w (.denied 0x0E)
    else
      let x := State.fillBank drawTries 110 stuck s
      let p := hkdfExtract (ascii "klv-s2 fleet") (x.2.bankSecret 110)
      let keys := ecdsaPublicOf p fleetLc ++ mldsaPublicOf p fleetLc
      State.fuseResult (x.1, if x.1 then x.2.emit (.reply w keys) else x.2) w

def execProvisionFleet (w : Win) (tok : HostRead) (stuck : Option (Fin 512)) (s : State) : Host.Outcome State Fault Refusal :=
  actCmd (s.tokenCmd w.val tok 5) (fun c s => s.provisionFleet w.val c tok stuck) s

/-- The command that the wait follows has its reply, and every checkpoint is written. -/
def State.waitDone (s : State) : Bool :=
  s.cuts.isEmpty && s.cutDue.isEmpty && s.cutWait.isEmpty
    && s.win.all fun e => match e.2.slot.running with
      | some c => !(c.opcode == 0x91 || c.opcode == 0x92)
      | none => true

/-- CHECKPOINT_WAIT_EXPIRY (R302): the wait of 50 ms is over, or there is nothing to wait for. -/
def execCheckpointWaitExpiry (s : State) : Host.Outcome State Fault Refusal :=
  match s.lc.resetWait with
  | some x => act (decide (x.1 ≤ s.now) || s.waitDone) (fun s => s.selfReset x.2) s
  | none => act false id s

/-! The JTAG ports (R301, R312, R469). -/

/-- A transition that the lifecycle port may ask for, and the fuse words of the digest that authorises it; 0 for the digest
in the netlist, 1 for none. -/
def portTransition (source target : Nat) : Option Nat :=
  if source = 0 && target = 1 then some 0
  else if source = 1 && target = 2 then some 1
  else if source = 2 && target = 1 then some 288
  else if (source = 1 ∨ source = 2) && target = 3 then some 300
  else if source ≤ 2 && target = 6 then some 1
  else none

/-- The value presented authorises the transition (R301). -/
def State.portAuthorised (s : State) (how : Nat) (value : Bytes) : Bool :=
  let d := Bytes.big (Config.sha384 (Bytes.slice value 0 32))
  match how with
  | 0 => d == Bytes.big Config.rawUnlockDigest
  | 1 => true
  | w => d == s.fuseBytes w 12

/-- LIFECYCLE_PORT_REQUEST (R301, R302): a transition that is not allowed ends with ST_DENIED, detail 0x09, a failed authorisation blocks
the port until block reset, and an accepted request resets the block at once. An intent word that does not take ends the request with
ST_FAULT (R305). -/
def State.portRequest (s : State) (target : Nat) (value : Bytes) (stuck : Option (Fin 512)) : State :=
  let need := if target = 1 ∨ target = 2 then 5 else if target = 6 then 0 else 2
  let denied : Out := .jtag false [BitVec.ofNat 8 stDenied, 0x09]
  if s.lc.portBlocked then s.emit (.jtag false [])
  else match portTransition s.lc.state target with
  | none => s.emit denied
  | some how =>
    if s.blankRecords < need || s.lowestBlank.isNone then s.emit denied
    else if !s.portAuthorised how value then State.emit { s with lc := { s.lc with portBlocked := true } } (.jtag false [])
    else
      let (ok, s) := s.writeIntent target stuck
      if ok then (s.emit (.jtag true [])).selfReset 4 else s.emit (.jtag false [BitVec.ofNat 8 stFault])

def execLifecyclePortRequest (target : BitVec 4) (value : Bytes) (stuck : Option (Fin 512)) (s : State) : Host.Outcome State Fault Refusal :=
  act s.lc.decoded (fun s => s.portRequest target.toNat value stuck) s

/-- Words that the fuse port may write (R306, R312). -/
def fusePortOk (state w : Nat) : Bool :=
  let every := w ≤ 47 || (240 ≤ w && w ≤ 247)
  let both := every || w == 52 || (128 ≤ w && w ≤ 183) || (312 ≤ w && w ≤ 471)
  if state = 0 then both || (48 ≤ w && w ≤ 51) || (288 ≤ w && w ≤ 311)
  else if state = 1 then both || (92 ≤ w && w ≤ 109)
  else false

/-- FUSE_PORT_WRITE (R305, R312). -/
def State.fusePort (s : State) (w : Nat) (bits : BitVec 32) (stuck : Option (Fin 512)) : State :=
  if !fusePortOk s.lc.state w then s.emit (.jtag false [BitVec.ofNat 8 stDenied])
  else
    let (ok, s) := s.blowList [(w, bits)] stuck
    s.emit (if ok then .jtag true [] else .jtag false [BitVec.ofNat 8 stFault])

def execFusePortWrite (word : Fin 512) (bits : BitVec 32) (stuck : Option (Fin 512)) (s : State) : Host.Outcome State Fault Refusal :=
  act s.lc.decoded (fun s => s.fusePort word.val bits stuck) s

/-- The page of an address may be reached by the DEBUG world (R95). -/
def State.debugPage (s : State) (addr : Nat) : Bool :=
  s.pageAllows (masterId 3 0 0x60) 0 addr

/-- JTAG_DEBUG_ACCESS (R95, R312): the instruction passes where its scope is open. A memory access is of the 64-bit word at
the address. -/
def State.debugAccess (s : State) (d : DebugOp) : State :=
  let no := s.emit (.jtag false [])
  let yes (s : State) (b : Bytes) : State := s.emit (.jtag true b)
  let scope (n : Nat) (t : State) : State := if s.lc.openScopes.getLsbD n then t else no
  match d with
  | .fcHalt => scope 0 (yes { s with lc := { s.lc with fcHalted := true } } [])
  | .fcStep => scope 0 (yes s [])
  | .fcRun => scope 0 (yes { s with lc := { s.lc with fcHalted := false } } [])
  | .qcHalt q => scope 1 (yes { s with lc := { s.lc with qcHalted := s.lc.qcHalted ||| BitVec.ofNat 4 (2 ^ q.val) } } [])
  | .qcStep _ => scope 1 (yes s [])
  | .qcRun q => scope 1 (yes { s with lc := { s.lc with qcHalted := s.lc.qcHalted &&& ~~~(BitVec.ofNat 4 (2 ^ q.val)) } } [])
  | .trace on => scope 2 (yes { s with lc := { s.lc with trace := on } } [])
  | .memRead addr e =>
    let a := addr.toNat / 8 * 8
    let t := match e with
      | some e => s.piazzaReads [.piazza a e]
      | none => s
    scope 3 (if s.debugPage a then yes t (Tab.getMany 0 s.pz.mem a 8) else no)
  | .memWrite addr data =>
    let a := addr.toNat / 8 * 8
    scope 3 (if s.debugPage a then yes { s with pz := s.pz.writeBytes a (Bytes.slice data 0 8) } [] else no)
  | .scan => scope 4 (yes s [])

def execJtagDebugAccess (d : DebugOp) (s : State) : Host.Outcome State Fault Refusal :=
  act (decide (2 ≤ s.boot.step) || s.boot.step == 0) (fun s => s.debugAccess d) s

/-- LC_CHALLENGE_READ (R324). -/
def execLcChallengeRead (s : State) : Host.Outcome State Fault Refusal :=
  act (!s.top.blkRst) (fun s => { s with lc := { s.lc with challengeRead := some s.now } }) s

end Sys2Proof.Machine
end

