-- ==== Sys2Proof/Machine/Faults.lean ====
section
/-! DEFINITION. Watchdogs, crashes and restarts (R267, R269, R285, R373 to R379), and the requests of a block reset (R371). -/

namespace Sys2Proof.Machine

/-! Watchdogs (R374). -/

def execFcWdogKick (s : State) : Host.Outcome State Fault Refusal :=
  act (s.boot.step != 0) (fun s => { s with health := { s.health with fcKick := s.now } }) s

def execQcWdogKick (q : Fin 4) (s : State) : Host.Outcome State Fault Refusal :=
  act ((s.qcOf q.val).state == .running) (fun s => s.onQc q.val fun c => { c with lastKick := s.now }) s

/-- The records that lanes hold (R217, R374): the stream, the slot, the kind and the device time from which each is held. -/
def State.laneItems (s : State) : List (Nat × Nat × RecordKind × Nat) :=
  (s.streams.map fun e => (e.2.slots.map fun x =>
    if x.left then [] else [RecordKind.computed, .mismatch, .fallback].filterMap fun k => match x.record k with
      | some r => if r.ready then none else some (e.1, x.seq, k, r.since)
      | none => none).flatten).flatten

/-- The item that a lane has held for 2 µs: of several the one held the longest. The manual does not say which lane takes which item
(DESIGN CHOICE, log entry 108). -/
def State.laneItem (s : State) : Option (Nat × Nat × RecordKind × Nat) :=
  (s.laneItems.filter fun i => decide (i.2.2.2 + 2000 ≤ s.now)).foldl (fun b i => match b with
    | some o => if i.2.2.2 < o.2.2.2 then some i else b
    | none => some i) none

/-- A record that a lane forms restarts from the beginning. -/
def SlotRun.restart (x : SlotRun) (k : RecordKind) (now : Nat) : SlotRun :=
  let f (r : Option Record) : Option Record := r.map fun r => { r with since := now }
  match k with
  | .computed => { x with computed := f x.computed }
  | .mismatch => { x with mismatch := f x.mismatch }
  | .fallback => { x with fallback := f x.fallback }

/-- LANE_WDOG_EXPIRY: the lane is reset, and its item restarts from the beginning on another one. -/
def execLaneWdogExpiry (l : Lane) (s : State) : Host.Outcome State Fault Refusal :=
  match s.laneItem with
  | some (cs, seq, k, _) => act true (fun s =>
      (s.onSlot cs seq fun y => y.restart k s.now).report { event := 0x0407, unitKind := 5, unit := l.val }) s
  | none => act false id s

/-! The Forecourt (R209, R222, R269, R321, R333, R340, R378, R379). -/

/-- The first checkpoint of each session after a restart carries the restart flag (R222): of its first cut in the queue, or
of the next that it takes. -/
def State.markRestart (s : State) : State :=
  let mark (x : List Nat × List Cut) (k : Cut) : List Nat × List Cut :=
    if x.1.contains k.session then (x.1, x.2 ++ [k]) else (x.1 ++ [k.session], x.2 ++ [{ k with flags := k.flags ||| 8 }])
  let r := s.cuts.foldl mark ([], [])
  { s with
    cuts := r.2
    sess := Tab.mapVals {} s.sess fun n (x : Session) => if x.state == .free || r.1.contains n then x else { x with restartFlag := true } }

/-- The Forecourt core runs the FC runtime: BL1 has started it (R286). -/
def State.fcRuntime (s : State) : Bool := decide (7 ≤ s.boot.step)

/-- What a crash ends at once: KREG, the digest contexts, the public-key jobs, key exchanges and SPDM connections. -/
def State.fcLost (s : State) : State :=
  let s := s.wipeKreg
  let p := s.pke
  { s with
    de := []
    pke := { submitFull := p.submitFull, submitFullCnt := p.submitFullCnt, lastStatus := p.lastStatus, valid := p.valid
             validN := p.validN, attempts := p.attempts, lastTag := p.lastTag }
    mgmt := { s.mgmt with spdm := [] }
    sess := Tab.mapVals {} s.sess fun _ (x : Session) => { x with keyx := none } }

/-- The reserves of the check units as the Forecourt leaves them when it goes down: refilled by it while it ran (R177). -/
def State.refillAll (s : State) : State :=
  if s.fcUp && !s.drbgBlocked then s.arc.foldl (fun (s : State) x => State.refill x.1 8 s) s else s

/-- A Forecourt crash (R378); the fourth within 60 s resets the block (R379). -/
def State.fcCrashed (s : State) (trap : BitVec 32) : State :=
  let s := s.refillAll
  let times := (s.health.fcCrashTimes.filter fun t => s.now ≤ t + 60000000000) ++ [s.now]
  let s := { s with health := { s.health with fcCrashTimes := times, fcRestarting := true } }
  let s := s.report { event := 0x0501, unitKind := 4, unit := 0, detail := Bytes.ofNat 4 trap.toNat }
  if 4 ≤ times.length then s.blockReset 3 0 0x0603 (some { event := 0x0603, unitKind := 4, unit := 0 })
  else s.fcLost

def execFcCrash (trap : BitVec 32) (s : State) : Host.Outcome State Fault Refusal :=
  act (s.fcRuntime && !s.health.fcRestarting) (fun s => s.fcCrashed trap) s

def execFcWdogExpiry (s : State) : Host.Outcome State Fault Refusal :=
  act (s.fcRuntime && !s.health.fcRestarting && decide (s.health.fcKick + 1000000 ≤ s.now)) (fun s => s.fcCrashed 0) s

/-- The Forecourt commands that were running end with ST_FAULT (R269). -/
def State.endForecourt (s : State) : State :=
  (List.range 65).foldl (fun s w =>
    match (s.window w).slot.running with
    | some c =>
      if roundaboutOps.contains c.opcode then s
      else s.endRunning w stFault
    | none => s) s

/-- The Forecourt returns (R285, R378). -/
def State.fcReturned (s : State) : State :=
  let s := { s with
    health := { s.health with fcRestarting := false, fcKick := s.now, fcCrashes := min (s.health.fcCrashes + 1) (2 ^ 32 - 1) }
    lc := { s.lc with fcHalted := false } }
  s.endForecourt.markRestart

/-- The restart of the Forecourt (R285): the code region is digested again. One whose digest differs is copied again from the slot that
it booted from, and checked; an image that fails the check does not run (log entry 28). -/
def State.fcRestart (s : State) (errs : List Bool) : State :=
  match s.boot.fcImage with
  | none => s.fcReturned
  | some k =>
    if s.copyGood 0 [] k then s.fcReturned
    else
      match s.choose 0 [] errs 0 [s.candidate k.area k.offset (ksiHead + k.payloadBytes)] with
      | (some t, s) => (s.markUnverified t.failed).fcReturned
      | (none, s) => s

/-- FC_RESTART_DONE: `upset` is a byte of FC SRAM that an error has changed, and by what; `errs` tells whether the read of the flash
ends in an error. -/
def execFcRestartDone (upset : Option (BitVec 19 × Byte)) (errs : List Bool) (s : State) : Host.Outcome State Fault Refusal :=
  act (s.fcRuntime && s.health.fcRestarting) (fun s => State.fcRestart (match upset with
    | some (a, e) => { s with fcSram := Tab.upd 0 s.fcSram a.toNat fun b => b ^^^ e }
    | none => s) errs) s

/-! Quarter controllers (R375 to R377). -/

/-- The Arcades of a Quarter. -/
def quarterArcs (q : Nat) : List Nat := [4 * q, 4 * q + 1, 4 * q + 2, 4 * q + 3]

/-- A Quarter fails (R377): its Arcades start no further program, streams move off them until their VI's next commit, and
jobs on them end with ST_FAULT. -/
def State.qcFails (s : State) (q : Nat) (st : QcState) : State :=
  let mask : BitVec 16 := BitVec.ofNat 16 (15 * 2 ^ (4 * q))
  let s := s.onQc q fun c => { c with state := st }
  let s := { s with plans := Tab.mapVals {} s.plans fun _ (p : ViPlan) => if p.running.isSome then { p with lostArcs := p.lostArcs ||| mask } else p }
  let s := (quarterArcs q).foldl (fun (s : State) a =>
    ((s.jobsOn a).foldl (fun (s : State) j => s.endJob j stFault) s).onArc a fun c => { c with queue := [] }) s
  s.report { event := 0x0406, unitKind := 3, unit := q }

/-- A crash of a Quarter controller (R376, R377): its data region is zeroised, and it is restarted from its entry. -/
def State.qcCrashed (s : State) (q : Nat) (trap : BitVec 32) (codeUe : Bool) : State :=
  let again := match (s.qcOf q).reattached with
    | some t => decide (s.now ≤ t + 10000000)
    | none => false
  let codeEnd := match Tab.get none s.boot.qcImage q with
    | some k => (k.place 1).1 + (k.place 1).2
    | none => 0
  let s := { s with qcMem := Tab.clear s.qcMem (2 ^ 18 * q + codeEnd) (2 ^ 18 * q + 0xC000) }
  let s := s.report { event := 0x0405, unitKind := 3, unit := q, detail := Bytes.ofNat 4 trap.toNat }
  let s := if codeUe || again then s.qcFails q .failed else s.onQc q fun c => { c with state := .restarting }
  s

/-- A Quarter controller runs. -/
def State.qcRuns (s : State) (q : Nat) : Bool := decide (9 ≤ s.boot.step) && (s.qcOf q).state == .running

def execQcCrash (q : Fin 4) (trap : BitVec 32) (codeUe : Bool) (s : State) : Host.Outcome State Fault Refusal :=
  act (s.qcRuns q.val) (fun s => s.qcCrashed q.val trap codeUe) s

def execQcWdogExpiry (q : Fin 4) (s : State) : Host.Outcome State Fault Refusal :=
  act (s.qcRuns q.val && decide ((s.qcOf q.val).lastKick + 200000 ≤ s.now)) (fun s => s.qcCrashed q.val 0 false) s

/-- QC_DETACH_EXPIRY (R377): 256 epoch boundaries have passed since the last kick. -/
def execQcDetachExpiry (q : Fin 4) (s : State) : Host.Outcome State Fault Refusal :=
  act ((s.qcOf q.val).state == .restarting && decide ((s.qcOf q.val).lastKick / 4096 + 256 ≤ s.epoch))
    (fun s => s.qcFails q.val .detached) s

/-- A Quarter controller reads the committed tables again, and reattaches (R376). -/
def State.qcBack (s : State) (q : Nat) : State :=
  s.onQc q fun c => { c with state := .running, crashes := min 255 (c.crashes + 1), reattached := some s.now, lastKick := s.now }

/-- QC_REATTACH (R376, R377): a FAILED Quarter's image is reloaded from the slot that it booted from, and checked again. -/
def State.qcReattach (s : State) (q : Nat) (flashErr : Bool) : State :=
  if (s.qcOf q).state == .restarting then s.qcBack q
  else
    match Tab.get none s.boot.qcImage q with
    | none => s
    | some k =>
      match s.choose 1 [q] [flashErr] 0 [s.candidate k.area k.offset (ksiHead + k.payloadBytes)] with
      | (some t, s) => (s.markUnverified t.failed).qcBack q
      | (none, s) => s

def execQcReattach (q : Fin 4) (flashErr : Bool) (s : State) : Host.Outcome State Fault Refusal :=
  act ((s.qcOf q.val).state == .restarting || ((s.qcOf q.val).state != .running && s.fcUp)) (fun s => s.qcReattach q.val flashErr) s

/-- A Quarter has drained (R267). -/
def State.drained (s : State) (q : Nat) : Bool :=
  (s.plans.all fun e => match e.2.running with
    | some p => p.schedules.all fun x => x.arcade / 4 != q
    | none => true)
  && (quarterArcs q).all fun a => (s.arcade a).running.isNone && (s.arcade a).bulk.isEmpty && (s.arcade a).queue.isEmpty

/-- QC_ACTIVATE (R267, R347): the staged image is copied and verified in the Quarter's memory, its measurement extends MR6,
and the controller runs it. An image that fails its check is not activated: where its copy stands in the memory already, the controller
is not released (R270; log entry 23). -/
def State.qcActivate (s : State) (q : Nat) (flashErr : Bool) : State :=
  match (s.stagedCandidates 1).head? with
  | none => s
  | some c =>
    let k := c.ksi
    let s := { s with boot := { s.boot with qcStaged := Tab.set none s.boot.qcStaged q none } }
    match s.choose 1 [q] [flashErr] 0 [c] with
    | (some t, s) => ((s.markUnverified t.failed).extendImage 6 q k false t.failed).releaseQc q k
    | (none, s) => if s.copyGood 1 [q] k || s.boot.failCode != 8 then s else s.qcFails q .failed

def execQcActivate (q : Fin 4) (flashErr : Bool) (s : State) : Host.Outcome State Fault Refusal :=
  act (s.fcUp && (Tab.get none s.boot.qcStaged q.val).isSome && s.drained q.val && (s.qcOf q.val).state == .running)
    (fun s => s.qcActivate q.val flashErr) s

/-! Block resets (R369, R371, R373). -/

/-- BLOCK_RESET_REQUEST: an event of class BLOCK. -/
def State.blockEvent (s : State) : BlockEvent → State
  | .ctrlPoison kind unit => s.blockReset 1 unit 0x0601 (some { event := 0x0601, unitKind := kind, unit := unit })
  | .hcSplit => s.blockReset 2 0xFF 0x0602 (some { event := 0x0602 })
  | .fcCrashLoop => s.blockReset 3 0 0x0603 (some { event := 0x0603, unitKind := 4, unit := 0 })

def execBlockResetRequest (e : BlockEvent) (s : State) : Host.Outcome State Fault Refusal := act true (fun s => s.blockEvent e) s

/-- The unit of a hardened field (R387). -/
def hcUnit : HcRef → Nat × Nat
  | .psCfg n | .psGain n | .psLim n => (7, n.val)
  | .pmPolicy | .pmUnitCtrl => (11, 0)
  | .pairVi => (10, 0)
  | .viPolicy _ | .event _ _ => (0, 255)
  | .region a _ => (1, a.val)

/-- The hardened half of an event entry (R41). -/
def Event.hcWord (e : Event) (high : Bool) : Word :=
  if high then
    BitVec.ofNat 64 (e.nMinus1.toNat + 2 ^ 16 * e.k.toNat + 2 ^ 32 * e.target.toNat + 2 ^ 44 * e.source.toNat
      + (if e.device then 2 ^ 48 else 0) + 2 ^ 49 * e.kind.code + (if e.rel then 2 ^ 52 else 0) + (if e.periodic then 2 ^ 53 else 0)
      + (if e.valid then 2 ^ 63 else 0))
  else e.instant

/-- The kind of an event entry by its code; a reserved code leaves the kind that it had (R41). -/
def EvKind.ofCode (n : Nat) (was : EvKind) : EvKind :=
  match n with
  | 0 => .commit | 1 => .inputClose | 2 => .slotStart | 3 => .release | 4 => .checkWindow | 5 => .notify
  | _ => was

def Event.setHcWord (e : Event) (high : Bool) (v : Word) : Event :=
  let f (lo n : Nat) : Nat := Bits.get v.toNat lo n
  if high then { e with
      nMinus1 := BitVec.ofNat 16 (f 0 16), k := BitVec.ofNat 16 (f 16 16), target := BitVec.ofNat 12 (f 32 12)
      source := BitVec.ofNat 4 (f 44 4), device := v.getLsbD 48, kind := EvKind.ofCode (f 49 3) e.kind, rel := v.getLsbD 52
      periodic := v.getLsbD 53, valid := v.getLsbD 63 }
  else { e with instant := v }

/-- The hardened fields of an ALS region descriptor (R86). -/
def Region.hcWord (r : Region) : Word :=
  let b (x : Bool) (n : Nat) : Nat := if x then 2 ^ n else 0
  BitVec.ofNat 64 (r.firstRow + 2 ^ 8 * r.lastRow + 2 ^ 16 * r.session + 2 ^ 30 * r.vi + 2 ^ 36 * r.world + b r.conf 38 + b r.scratch 39
    + b r.shared 40 + b r.second 44 + b r.valid 47 + 2 ^ 48 * r.model)

def Region.setHcWord (r : Region) (v : Word) : Region :=
  let f (lo n : Nat) : Nat := Bits.get v.toNat lo n
  { r with
    firstRow := f 0 8, lastRow := f 8 8, session := f 16 14, vi := f 30 6, world := f 36 2, conf := v.getLsbD 38, scratch := v.getLsbD 39
    shared := v.getLsbD 40, second := v.getLsbD 44, valid := v.getLsbD 47, model := f 48 16 }

/-- The value of a hardened field: the majority of its copies, which every use reads (R373). -/
def State.hcValue (s : State) : HcRef → Word
  | .psCfg n => (s.source n.val).cfg
  | .psGain n => (s.source n.val).gain
  | .psLim n => (s.source n.val).lim
  | .pmPolicy => s.pm.policy
  | .pmUnitCtrl => s.pm.unitCtrl
  | .pairVi => s.fm.pairVi
  | .viPolicy n => s.policyOf n.val
  | .event n high => (s.event n.val).hcWord high
  | .region a r => (Tab.get {} (s.arcade a.val).regions r.val).hcWord

def State.setHc (s : State) (r : HcRef) (v : Word) : State :=
  match r with
  | .psCfg n => s.onSource n.val fun c => { c with cfg := v }
  | .psGain n => s.onSource n.val fun c => { c with gain := v }
  | .psLim n => s.onSource n.val fun c => { c with lim := v }
  | .pmPolicy => { s with pm := { s.pm with policy := v } }
  | .pmUnitCtrl => { s with pm := { s.pm with unitCtrl := v } }
  | .pairVi => { s with fm := { s.fm with pairVi := v } }
  | .viPolicy n => { s with policy := Tab.set policyReset s.policy n.val v }
  | .event n high => s.onEvent n.val fun e => e.setHcWord high v
  | .region a r => s.onRegion (a.val, r.val) fun x => x.setHcWord v

/-- HC_COPY_DISAGREEMENT (R373): the copies that the voter compares. One copy that differs is rewritten from the majority, which every
use reads, so that the field holds the majority; three that differ reset the block. A commit of the same cycle acts after it, and its
value stands. -/
def execHcCopyDisagreement (r : HcRef) (c0 c1 c2 : Word) (s : State) : Host.Outcome State Fault Refusal :=
  act (!(c0 == c1 && c1 == c2)) (fun s =>
    if c0 != c1 && c1 != c2 && c0 != c2 then
      s.blockReset 2 (hcUnit r).2 0x0602 (some { event := 0x0602, unitKind := (hcUnit r).1, unit := (hcUnit r).2 })
    else
      let v := if c0 == c1 || c0 == c2 then c0 else c1
      let s := if s.hcValue r == v then s else s.setHc r v
      s.report { event := 0x0104, unitKind := (hcUnit r).1, unit := (hcUnit r).2 }) s

end Sys2Proof.Machine
end

