-- ==== Sys2Proof/Machine/Power.lean ====
section
/-! DEFINITION. The power manager and the Kerb: the ladder, the trip and the return of the plane, the power-loss warning and
readmission (R13, R398 to R420, R495). -/

namespace Sys2Proof.Machine

/-! The policy (R408, R418): fields of PM_POLICY, and cap_eff in percent of a watt. -/

def capW (p : Word) : Nat := min 190 (max 40 (Bits.get p.toNat 0 8))
def oppMax (p : Word) : Nat := min 9 (Bits.get p.toNat 8 4)
def oppFloor (p : Word) : Nat := min (oppMax p) (Bits.get p.toNat 12 4)
def upDelay (p : Word) : Nat := max 10 (Bits.get p.toNat 16 8)

def deratePercent (d : BitVec 2) : Nat := if d = 0 then 100 else if d = 1 then 75 else if d = 2 then 50 else 30

/-- cap_eff in 0.01 W. -/
def capEff (p : Word) (d : BitVec 2) : Nat := capW p * deratePercent d

def Power.iccMax (p : Power) : Nat := Bits.get p.kerbCfg.toNat 0 16

/-- The flags that sources raise, given their number by flag (R420). -/
def kerbBits (found : List Nat) : BitVec 8 := BitVec.ofNat 8 ((List.range 8).map fun k => if found.getD k 0 = 0 then 0 else 2 ^ k).sum

/-- Flags of PM_KERB_STATUS are set: every look that finds a flag's condition is a set event, whether the flag was 0 or 1, and counts
each source that sets it (R380, R406, R420; DEDUCED, log entry 66). -/
def Power.kerbFlag (p : Power) (found : List Nat) : Power :=
  { p with
    kerbFlags := p.kerbFlags ||| kerbBits found
    kerbCounts := (List.range 8).foldl (fun t k => if found.getD k 0 = 0 then t else Tab.upd 0 t k fun n => n + BitVec.ofNat 8 (found.getD k 0))
      p.kerbCounts
    kerbHit := p.kerbHit || kerbBits found != 0 }

/-- Kerb events: their flags are set and counted, and each is reported to the health unit (R406). -/
def State.kerbEvents (s : State) (found : List Nat) : State :=
  { s with pm := s.pm.kerbFlag found, health := { s.health with kerbReports := s.health.kerbReports + (found.take 8).sum } }

/-! Operating points (R398, R402 to R404). -/

/-- The voltage of VDD_ARC for an operating point: the highest domain target and 30 mV. -/
def State.arcRail (s : State) (opp : Nat) : Nat := oppMv opp + (if s.arc.any fun e => e.2.boost then 25 else 0) + 30

/-- Request VDD_ARC on the AVSBus where it changes. -/
def State.requestRail (s : State) (opp : Nat) : State :=
  let mv := s.arcRail opp
  if mv = s.pm.requested then s else State.emit { s with pm := { s.pm with requested := mv } } (.avs mv)

/-- The operating point changes, and with it the clock gates of SUSPECT Arcades, which are applied only while their rate stays
at 0.9 GHz (R189, R402). -/
def State.setOpp (s : State) (n : Nat) : State :=
  let s := { s with pm := { s.pm with opp := n } }
  { s with arc := Tab.mapVals {} s.arc fun _ (c : Arcade) => if c.integ == .suspect then { c with slowed := s.gateWanted } else c }

/-- The upward step that the last boundary began: ACLK rises where the read-back shows the target, and otherwise the voltage
is returned. -/
def State.finishRise (s : State) (avsOk : Bool) : State :=
  if !s.pm.rising then s
  else
    let s := { s with pm := { s.pm with rising := false } }
    if avsOk then
      let s := s.setOpp (s.pm.opp + 1)
      if s.pm.descents.getLast? = some .opp then { s with pm := { s.pm with descents := s.pm.descents.dropLast } } else s
    else s.requestRail s.pm.opp

/-- PM_POLICY in force from this boundary on; an OPP above its opp_max is lowered in one change (R495). -/
def State.adoptPolicy (s : State) : State :=
  let s := { s with pm := { s.pm with active := s.pm.policy } }
  if oppMax s.pm.active < s.pm.opp then (s.setOpp (oppMax s.pm.active)).requestRail (oppMax s.pm.active) else s

/-! Descent (R253, R409, R410). -/

/-- Put a job into a list that is in shedding order. -/
def State.shedInsert (s : State) (j : Nat) : List Nat → List Nat
  | [] => [j]
  | k :: r => if s.shedsBefore j k then j :: k :: r else k :: State.shedInsert s j r

/-- The jobs that are not shed, in shedding order. -/
def State.unshedJobs (s : State) : List Nat :=
  (s.jobs.filterMap fun e => if e.2.active && !e.2.shed then some e.1 else none).foldr (fun j l => s.shedInsert j l) []

/-- The streams that are not shed, highest number first. -/
def State.unshedStreams (s : State) : List Nat :=
  (s.streams.filterMap fun e => if e.2.bound && !e.2.shed then some e.1 else none).reverse

def State.descended (s : State) (d : Descent) : State := { s with pm := { s.pm with descents := s.pm.descents ++ [d] } }

def State.shedJobs (s : State) (js : List Nat) : State :=
  (js.foldl (fun (s : State) j => s.onJob j fun x => { x with shed := true }) s).descended (.jobs js)

def State.shedStreams (s : State) (ss : List Nat) : State :=
  (ss.foldl (fun (s : State) k => s.onStream k fun x => { x with shed := true }) s).descended (.streams ss)

def State.lowerOpp (s : State) : State := ((s.setOpp (s.pm.opp - 1)).requestRail (s.pm.opp - 1)).descended .opp

/-- The first of descent actions 1 to 3 that applies. -/
def State.descendWork (s : State) : Option State :=
  if oppFloor s.pm.active < s.pm.opp then some s.lowerOpp
  else if !s.unshedJobs.isEmpty then some (s.shedJobs (s.unshedJobs.take 32))
  else if 0 < s.pm.opp then some s.lowerOpp
  else none

/-- A descent action: whether one applied, and the state after it. -/
def State.descend (s : State) : Bool × State :=
  match s.descendWork with
  | some t => (true, t)
  | none => if s.unshedStreams.isEmpty then (false, s) else (true, s.shedStreams (s.unshedStreams.take 32))

/-- Actions 1 to 3 until none of them applies: at most 9 points and the 32 groups of the 1,024 jobs. -/
def State.descendAll : Nat → Bool → State → Bool × State
  | 0, b, s => (b, s)
  | n + 1, b, s =>
    match s.descendWork with
    | some t => State.descendAll n true t
    | none => (b, s)

/-- The actions of a boundary: all of 1 to 3 where a Tj is critical, else one where the step was over-cap, two where a
rail's current was over its limit. -/
def State.descents (s : State) (critical exceeds iOver : Bool) : Bool × State :=
  let (a, s) := if critical then State.descendAll 48 false s else (false, s)
  if a then (a, s)
  else if exceeds then
    let (a, s) := s.descend
    if iOver && a then (a, s.descend.2) else (a, s)
  else (a, s)

/-! Ascent (R411). -/

/-- What is left to reverse of a descent action: nothing of a lowered OPP that stands at opp_max already, and of shed items
those that are still there. -/
def State.leftOf (s : State) : Descent → Option Descent
  | .opp => if s.pm.opp < oppMax s.pm.active then some .opp else none
  | .jobs js =>
    let l := js.filter fun j => (s.job j).active && (s.job j).shed
    if l.isEmpty then none else some (.jobs l)
  | .streams ss =>
    let l := ss.filter fun k => (s.stream k).bound && (s.stream k).shed
    if l.isEmpty then none else some (.streams l)

/-- The descents that are unreversed, latest first. -/
def State.unreversed (s : State) : List Descent → List Descent
  | [] => []
  | d :: r =>
    match s.leftOf d with
    | some e => e :: r
    | none => State.unreversed s r

/-- An upward step: the voltage is requested, and ACLK rises at the next boundary (R403). -/
def State.beginRise (s : State) : State := State.requestRail { s with pm := { s.pm with rising := true } } (s.pm.opp + 1)

/-- The last 32 of a list, and the rest. -/
def last32 (l : List Nat) : List Nat × List Nat := (l.drop (l.length - 32), l.take (l.length - 32))

/-- An ascent action: whether one was taken, and the state after it. -/
def State.ascend (s : State) : Bool × State :=
  let ds := s.unreversed s.pm.descents.reverse
  let keep (r : List Descent) : State := { s with pm := { s.pm with descents := r.reverse } }
  match ds with
  | [] => if s.pm.opp < oppMax s.pm.active then (true, (keep []).beginRise) else (false, keep [])
  | .opp :: _ => (true, (keep ds).beginRise)
  | .jobs js :: r =>
    let (back, left) := last32 js
    let t := keep (if left.isEmpty then r else .jobs left :: r)
    (true, back.foldl (fun (t : State) j => t.onJob j fun x => { x with shed := false }) t)
  | .streams ss :: r =>
    let (back, left) := last32 ss
    let t := keep (if left.isEmpty then r else .streams left :: r)
    (true, back.foldl (fun (t : State) k => t.onStream k fun x => { x with shed := false }) t)

/-! Readmission (R415, R416). -/

/-- A readmission is abandoned: the unit is powered down, and its request waits again. -/
def State.abandonReadmission (s : State) : State :=
  match s.pm.ramping with
  | none => s
  | some a =>
    let s := { s with pm := { s.pm with ramping := none, readmit := s.pm.readmit ++ [a] } }
    let s := s.onSeg a fun g => { g with state := if s.health.retiredSeg.getLsbD a then .retired else .off }
    (s.unitDown a (if s.marked a then .retired else .off)).onUnit a .waiting

/-- Step 1 has ended: P + 12 W is at most 0.9 of cap_eff, no Kerb flag was set in the last up_delay steps, and no other unit
is in steps 2 to 4. -/
def State.mayReadmit (s : State) (a : Nat) : Bool :=
  s.pm.readmit.contains a && s.pm.ramping.isNone && !s.pm.planeOff && s.pm.stepTick == some s.ptu.tick
    && decide ((s.pm.powerDw + 120) * 100 ≤ 9 * capEff s.pm.active s.pm.derate)
    && decide (upDelay s.pm.active ≤ s.pm.kerbSteps) && !s.pm.kerbHit

/-- READMISSION_START: the unit's domains ramp, segment first (R399, R400). -/
def State.startReadmission (s : State) (a : Nat) : State :=
  let s := { s with pm := { s.pm with ramping := some a, readmit := s.pm.readmit.filter fun x => x != a } }
  s.onUnit a .ramping

def execReadmissionStart (unit : Arc) (s : State) : Host.Outcome State Fault Refusal :=
  act (s.mayReadmit unit.val) (fun s => s.startReadmission unit.val) s

/-! The step boundary (R403, R404, R408 to R411). -/

/-- Margin boost of the SUSPECT Arcades, kept until the unit is powered down (R189, R404). -/
def State.boostSuspects (s : State) : State :=
  let s := { s with arc := Tab.mapVals {} s.arc fun _ (c : Arcade) => if c.integ == IntegState.suspect then { c with boost := true } else c }
  s.requestRail (if s.pm.rising then s.pm.opp + 1 else s.pm.opp)

/-- What the boundary keeps of the step that ended (R419). -/
def Power.endStep (p : Power) (x : PowerSense) (tick : Nat) (exceeds calm : Bool) : Power :=
  { p with
    derate := x.derate, overCap := exceeds, hot := false, warm := false, critical := false, powerDw := x.powerDw, tj := x.tj
    calmSteps := if calm then p.calmSteps + 1 else 0
    kerbSteps := if p.kerbHit then 0 else min 255 (p.kerbSteps + 1)
    kerbHit := false, stepTick := some tick }

def State.powerStep (s : State) (x : PowerSense) : State :=
  let s := (s.finishRise x.avsOk).adoptPolicy
  let icc := s.pm.iccMax
  let tops := (x.amps.filter fun a => decide (icc < a)).length
  let iOver := decide (0 < tops)
  let hot := s.pm.hot || decide (950 ≤ x.tj)
  let critical := s.pm.critical || decide (1050 ≤ x.tj)
  let cap := capEff s.pm.active x.derate
  let exceeds := decide (cap < x.powerDw * 10) || hot || iOver
  let s := if iOver then
      let t := s.kerbEvents [0, 0, 0, 0, 0, 0, tops]
      { t with pm := { t.pm with coolSince := none } }
    else s
  let (acted, s) := s.descents critical exceeds iOver
  let calm := decide (x.powerDw * 100 < 9 * cap) && !hot && !s.pm.warm && decide (x.tj < 930)
    && (x.amps.all fun a => decide (a * 10 < 9 * icc)) && !acted
  let s := if exceeds then s.abandonReadmission else s
  let s := { s with pm := s.pm.endStep x s.ptu.tick exceeds calm, ptu := { s.ptu with atStep := false } }
  let s :=
    if s.boot.step = 12 && !s.pm.planeOff && decide (upDelay s.pm.active ≤ s.pm.calmSteps) then
      let (up, t) := s.ascend
      if up then { t with pm := { t.pm with calmSteps := 0 } } else t
    else s
  let cool := match s.pm.coolSince with
    | some t => decide (t + 1000000000 ≤ s.now)
    | none => false
  let s := if s.pm.planeOff && cool && !s.pm.returning then
      ({ s with pm := { s.pm with returning := true, rising := false } }.setOpp 0).requestRail 0
    else s
  s.boostSuspects

/-- POWER_STEP_BOUNDARY (R403): in its tick, after every COMMIT firing. -/
def execPowerStepBoundary (p : PowerSense) (s : State) : Host.Outcome State Fault Refusal :=
  act (s.ptu.atStep && !(s.ptu.firing.any fun f => f.kind == .commit)) (fun s => s.powerStep p) s

/-! The Kerb (R405 to R407). -/

/-- A Kerb trip: programs stop, jobs end, everything is zeroised and the domains go down. Pages keep their owners and regions
their descriptors. -/
def State.kerbTrip (s : State) : State :=
  if s.pm.planeOff then { s with pm := { s.pm with
    domains := s.pm.domains &&& 0x3F_0000_0000, coolSince := none, returning := false } }
  else
    let s := s.abandonReadmission
    let s := (s.jobs.map Prod.fst).foldl (fun s j => s.endJob j stFault) s
    let s := s.dropWork (fun _ => true) fun _ => true
    let s := s.zeroiseAll
    let s := { s with arc := Tab.mapVals {} s.arc fun _ (c : Arcade) =>
      { c with
        planeState := c.integ, integ := .off, boost := false
        acc := [], accPoison := [], params := [], sy := [], parts := [], partDigest := [], inFlight := []
        checkQueue := [], checking := none, shadowWork := [] } }
    let down (g : Segment) : Segment := if g.state == .retired then g else { g with state := .off }
    let s := { s with
      pz := { s.pz with segs := Tab.mapVals {} s.pz.segs fun _ g => down g }
      pm := { s.pm with
        planeOff := true, coolSince := none, returning := false, rising := false
        domains := s.pm.domains &&& 0x3F_0000_0000
        units := Tab.mapVals .off s.pm.units fun _ (u : UnitState) => if u == UnitState.waiting then u else .off } }
    s

/-- The sequence of R413: nothing fires, the notice leaves, records are cut short, every secret is wiped, and the block halts
with its outputs isolated. -/
def State.powerLoss (s : State) : State :=
  let s := (s.sendNotice 1).cutRecords
  let (m, s) := if s.drbgBlocked then (0, s) else s.draw
  let s := { s with keys := { s.keys with maskKey := m.setWidth 256, ska := [] } }
  let s := s.wipeKreg
  let s := { s with
    de := [], pke := {}
    sess := Tab.mapVals {} s.sess fun _ (x : Session) => { x with keyx := none, plantKey := none, oldKeys := [] }
    streams := Tab.mapVals {} s.streams fun _ (x : Stream) => { x with waiting := [], window := {}, nextWindow := {} } }
  let s := s.zeroiseAll
  { s with top := { s.top with halted := true } }

/-- A timed limit is met: its condition has held for n ns. -/
def Power.held (p : Power) (k n : Nat) : Bool := decide (n < Tab.get 0 p.viol k)

/-- The timed conditions of one sample of the rails, by key: VDD_ARC over, each Arcade domain under, VDD_PZ and VDD_SOC out of
range, and each rail's current over 1.15 of its limit. -/
def State.timedLimits (s : State) (k : RailSense) : List (Nat × Bool) :=
  let out (v : Nat) : Bool := decide (v < 690) || decide (810 < v)
  (0, decide (880 < k.railMv.getD 0 0)) ::
  ((List.range 16).map fun a =>
    (1 + a, s.pm.domains.getLsbD a && decide (k.arcMv.getD a (s.railMv 1 a) + 60 < s.railMv 1 a))) ++
  [(17, out (k.railMv.getD 1 750)), (18, out (k.railMv.getD 2 750))] ++
  ((List.range 3).map fun r => (19 + r, decide (115 * s.pm.iccMax < k.railDa.getD r 0 * 100)))

/-- What the limits on the rails find, by flag of PM_KERB_STATUS: the number of sources of each; entry 8 those of flag 4 that are rails
and not Arcade domains. -/
def State.railFound (s : State) (k : RailSense) : List Nat :=
  let p := s.pm
  let count (n : Nat) (f : Nat → Bool) : Nat := ((List.range n).filter f).length
  let low := count 16 fun a => p.held (1 + a) 2000
  let warn := count 2 fun r => p.held (17 + r) 2000
  [0, 0, 0, (count 16 fun a => p.domains.getLsbD a && decide (850 < k.arcMv.getD a 0)) + count 1 (fun _ => p.held 0 2000),
    low + warn, 0, 0, count 3 fun r => p.held (19 + r) 20000, warn]

/-- One sample of the rails (R405, R475): the times of the timed limits go on or begin anew, and what they find is added up. -/
def State.railSample (x : List Nat × State) (k : RailSense) : List Nat × State :=
  let run (t : Tab Nat) (l : Nat × Bool) : Tab Nat :=
    let v := Tab.get 0 x.2.pm.viol l.1
    Tab.set 0 t l.1 (if l.2 then (if v = 0 then 1 else v + k.ns) else 0)
  let s := { x.2 with pm := { x.2.pm with viol := (x.2.timedLimits k).foldl run [] } }
  ((s.railFound k).mapIdx fun i n => x.1.getD i 0 + n, s)

/-- What the sensors and the frequency monitor find, by flag. -/
def kerbFound (k : KerbSense) : List Nat :=
  let hot (n : Int) : Nat := (k.tj.filter fun t => decide (n ≤ t)).length
  [hot 950, hot 1050, hot 1150, 0, 0, if 1900 < k.aclkMhz then 1 else 0]

/-- The highest sensor. -/
def kerbTop (k : KerbSense) : Int := k.tj.foldl max (k.tj.headD 0)

/-- KERB_SAMPLE (R405). -/
def State.kerb (s : State) (k : KerbSense) : State :=
  let s := { s with pm := { s.pm with tj := kerbTop k, sensors := k.tj } }
  let (found, s) := k.rails.foldl State.railSample (kerbFound k, s)
  let n (i : Nat) : Nat := found.getD i 0
  let shut := k.tj.any fun t => decide (1250 ≤ t)
  let cool := (k.tj.all fun t => decide (t < 900)) && kerbBits found == 0
  let s := s.kerbEvents found
  let s := { s with pm := { s.pm with
    hot := s.pm.hot || decide (0 < n 0), warm := s.pm.warm || (k.tj.any fun t => decide (930 ≤ t)), critical := s.pm.critical || decide (0 < n 1), thermTrip := s.pm.thermTrip || shut
    coolSince := if s.pm.planeOff && cool then some (s.pm.coolSince.getD s.now) else none
    returning := s.pm.returning && cool } }
  let trip := decide (0 < n 2 + n 3 + (n 4 - n 8) + n 5 + n 7)
  let s := if trip then s.kerbTrip else if kerbBits found != 0 then s.abandonReadmission else s
  if 0 < n 8 then s.powerLoss else s

def execKerbSample (k : KerbSense) (s : State) : Host.Outcome State Fault Refusal := act true (fun s => s.kerb k) s

/-- A unit at the return of the plane (R106, R190): the self-test and the zeroise as at a boot, with the owners of its pages
and the descriptors of its regions kept; it resumes its integrity state, or is RETIRED where the test fails. -/
def State.returnUnit (s : State) (a : Nat) (t : SelfTest) : State :=
  let was := (s.arcade a).planeState
  if !s.comesBack a then s.onArc a fun c => { c with integ := was, planeState := .off }
  else
    let omap := s.pz.omap
    let regions := (s.arcade a).regions
    let (ok, tested) := s.selfTest a t
    if ok then
      let s := tested
      let keep (m : Tab OmapEntry) (e : Nat × OmapEntry) : Tab OmapEntry :=
        if (Tab.get {} m e.1).scrub == .retired then m else Tab.set {} m e.1 e.2
      let mine := omap.filter fun e => e.1 / 4096 == a
      let s := s.unitZeroised a
      let s := { s with pz := { s.pz with omap := mine.foldl keep s.pz.omap } }
      let s := s.onSeg a fun g => { g with state := .inService }
      let s := s.onArc a fun c => { c with integ := was, planeState := .off, regions := regions }
      s.onUnit a .on
    else State.failUnit (tested.onArc a fun c => { c with planeState := .off }) a

/-- PLANE_RETURN (R407): every domain of the plane that comes back is up. The plane returns at OPP0, as at a boot: the OPP fell to 0
at the step boundary at which its domains began to ramp (R403; DEDUCED, log entry 66). -/
def State.planeBack (s : State) (ts : List SelfTest) : State :=
  let s := (List.range 16).foldl (fun (s : State) a => s.returnUnit a (ts.getD a {})) s
  { s with pm := { s.pm with planeOff := false, coolSince := none, returning := false } }

def execPlaneReturn (tests : List SelfTest) (s : State) : Host.Outcome State Fault Refusal :=
  act (s.pm.planeOff && s.pm.returning && s.planeDomain.isNone) (fun s => s.planeBack tests) s

/-! The power-loss warning (R413, R414). -/

def execPwrWarn (s : State) : Host.Outcome State Fault Refusal := act true State.powerLoss s

/-- PWR_WARN_CLEAR (R414): the warning is over and every rail has stayed in range for 100 ms. -/
def execPwrWarnClear (s : State) : Host.Outcome State Fault Refusal :=
  actPower (s.top.supply && !s.top.porLow && s.top.halted) (fun s => s.restart 7 0xFF 0 0 s.health.lastBlock) s

end Sys2Proof.Machine
end

