-- ==== Sys2Proof/Machine/Pair.lean ====
section
/-! DEFINITION. The Fumas link and the pair of blocks (R365, R366, R421 to R440). -/

namespace Sys2Proof.Machine

/-! The link (R426, R427). -/

/-- A flit without payload takes no sequence number and no credit: it carries the last number sent, the acknowledgement and
the credits owed (log entry 30). -/
def State.sendBare (s : State) (kind : Nat) : State :=
  let f := s.fm
  let (rc, n) := f.owing
  let b := flitBytes kind 0 rc n (f.txSeq - 1).toNat f.rxSeq.toNat 0 []
  State.emit { s with fm := { f with sentAt := s.now, owed := Tab.set 0 f.owed rc (Tab.get 0 f.owed rc - n) } } (.flit b)

/-- Send what there is credit and room for. -/
def State.pump (s : State) : State := s.pumpLink s.fm.waiting.length

def State.nakSeen (s : State) : State := { s with fm := { s.fm with nakFlag := true, nakCnt := s.fm.nakCnt + 1 } }

/-- The acknowledged flits leave the replay buffer, and credits come back. -/
def State.takeAck (s : State) (ack : BitVec 16) (chan credits : Nat) : State :=
  let f := s.fm
  let left := f.replay.filter fun x => seqAfter x.seq ack
  { s with fm := { f with
    replay := left, naks := if left.length < f.replay.length then 0 else f.naks
    credits := Tab.set 64 f.credits chan (min 64 (f.credit chan + credits)) } }

/-- Every flit from ack + 1 is sent again. -/
def State.replayFrom (s : State) (ack : BitVec 16) : State :=
  (s.fm.replay.filter fun x => seqAfter x.seq ack).foldl (fun (s : State) x => s.emit (.flit x.bytes)) s

/-! Leaving, losing and ending a join (R431, R432, R439). -/

def Session.unpair (x : Session) : Session := { x with pair := .unpaired }

/-- Streams are no longer covered, and no partner's run counts. -/
def State.uncover (s : State) : State :=
  { s with streams := Tab.mapVals {} s.streams fun _ (x : Stream) => { x with covered := false, partner := none, resv := [] } }

/-- The pair key's slot is overwritten. -/
def State.dropPairKey (s : State) : State :=
  match s.fm.pairSlot with
  | some n => s.clearSlot n
  | none => s

/-- Sessions that stand in a role. -/
def State.inRole (s : State) (r : PairRole) : List Nat :=
  s.sess.filterMap fun e => if e.2.pair == r && e.2.state != .free then some e.1 else none

/-- What a leave does to each block: standby copies are zeroised, homed sessions stay unpaired, PD36 goes down. -/
def State.leavePair (s : State) (st : FmState) : State :=
  let s := (s.inRole .standby).foldl (fun s sc => s.endStandby sc) s
  let s := { s with sess := Tab.mapVals {} s.sess fun _ x => x.unpair }
  (s.uncover.dropPairKey).linkOff st

/-- A PAIR_JOIN that does not join (R431). -/
def State.joinFails (s : State) (r : Reply) : State :=
  match s.fm.joinWin with
  | none => s
  | some w =>
    let s := { s with fm := { s.fm with lastDetail := BitVec.ofNat 8 r.detail } }
    (s.leavePair .off).result w r

/-- The link is down (R427); a join under way fails with it (R431). While toggles still arrive, as they do after 2 µs of silence that did
not lose the partner (R439), a joined block acts as after a leave, and has lost its partner for DEVICE_DEGRADED (R393). -/
def State.linkFails (s : State) : State :=
  let s := { s with fm := { s.fm with linkDownFlag := true, linkDownCnt := s.fm.linkDownCnt + 1 } }
  if s.fm.state == .joined then State.leavePair { s with fm := { s.fm with lostPartner := true } } .linkDown
  else s.joinFails { status := stFault }

/-- The link is up: trained and not down. -/
def Fumas.up (f : Fumas) : Bool := f.state == .attesting || f.state == .syncing || f.state == .joined

/-- No good flit has arrived for so many ns. -/
def State.silent (s : State) (n : Nat) : Bool := decide (s.fm.goodAt + n ≤ s.now)

/-- LINK_DOWN (R427): 2 µs without a good flit. Sixteen NAKs of one flit take the link down where they are received. -/
def execLinkDown (s : State) : Host.Outcome State Fault Refusal := act (s.fm.up && s.silent 2000) State.linkFails s

/-- NAK (R427): replay from ack + 1; sixteen running of one flit take the link down. -/
def State.nakRow (s : State) (ack : BitVec 16) : State :=
  let s := (s.takeAck ack 0 0).nakSeen
  let n := if s.fm.nakSeq = ack then s.fm.naks + 1 else 1
  let s := { s with fm := { s.fm with naks := n, nakSeq := ack } }
  if 16 ≤ n then s.linkFails else s.replayFrom ack

def execNak (ack : BitVec 16) (s : State) : Host.Outcome State Fault Refusal := act s.fm.up (fun s => s.nakRow ack) s

/-- IDLE (R427): nothing that it may send for 100 ns (log entry 30). -/
def execIdle (s : State) : Host.Outcome State Fault Refusal :=
  act (s.fm.linked && (s.fm.next.isNone || decide (256 ≤ s.fm.replay.length)) && decide (s.fm.sentAt + 100 ≤ s.now)) (fun s => s.sendBare 0) s

/-- The first message of a join (R430, R365): the pair protocol version, the mode asked for, the serial and the nonce. -/
def State.sendJoin (s : State) : State :=
  let (r, s) := s.draw
  let n : BitVec 256 := r.setWidth 256
  State.sendMessage { s with fm := { s.fm with nonce := n } } 0x0010 chanCtrl
    (Bytes.ofNat 2 Config.pairVersionMajor ++ [BitVec.ofNat 8 s.fm.wantMode] ++ s.serial ++ Bytes.big n)

/-- A good flit: the link is trained. -/
def State.linkGood (s : State) : State :=
  if s.fm.state == .training then State.sendJoin { s with fm := { s.fm with state := .attesting, stepAt := s.now } }
  else s

/-- A DATA flit in order: its payload joins the message under way on its channel, and is drained at once, so that its credit
is owed. -/
def State.takeData (s : State) (b : Bytes) : State :=
  let chan := Bytes.num b 1 1 % 4
  let frag := Bytes.num b 6 1
  let f := s.fm
  let sofar := if Bits.bit frag 0 then [] else Tab.get [] f.rx chan
  let msg := sofar ++ Bytes.slice b 8 (min 52 (Bits.get frag 2 6 + 1))
  { s with fm := { f with
    rxSeq := f.rxSeq + 1
    owed := Tab.set 0 f.owed chan (Tab.get 0 f.owed chan + 1)
    rx := Tab.set [] f.rx chan (if Bits.bit frag 1 then [] else msg) } }

/-- FLIT_RECEIVED (R426, R427). -/
def State.flitRow (s : State) (b : Bytes) : State :=
  let kind := Bytes.num b 0 1
  let vc := Bytes.num b 1 1
  let seq : BitVec 16 := BitVec.ofNat 16 (Bytes.num b 2 2)
  let ack : BitVec 16 := BitVec.ofNat 16 (Bytes.num b 4 2)
  let crcOk := b.length == 64 && (crc32 (b.take 60)).toNat == Bytes.num b 60 4 && decide (kind ≤ 3)
  let inOrder := if kind = 1 then seq == s.fm.rxSeq + 1 else seq == s.fm.rxSeq || kind == 3
  if !crcOk then (s.sendBare 2).nakSeen
  else if !inOrder then (s.sendBare 2).nakSeen
  else
    let s := State.takeAck { s with fm := { s.fm with goodAt := s.now } } ack (Bits.get vc 2 2) (Bits.get vc 4 4)
    let s := s.linkGood
    if kind = 1 then (s.takeData b).pump else if kind = 2 then s.nakRow ack else s.pump

def execFlitReceived (flit : Bytes) (s : State) : Host.Outcome State Fault Refusal :=
  act s.fm.linked (fun s => s.flitRow flit) s

/-! Messages (R428). -/

/-- A message whose tag fails, or whose counter does not rise, is discarded. -/
def State.onMessage (s : State) (h : LinkHead) (f : State → State) : State :=
  if h.tagOk && decide (s.fm.rxCounter < h.counter) then f { s with fm := { s.fm with rxCounter := h.counter } }
  else { s with fm := { s.fm with authFlag := true, authCnt := s.fm.authCnt + 1 } }

/-- A row of a message: `open` says that the link carries it now. -/
def actMessage (ready : State → Bool) (h : LinkHead) (f : State → State) (s : State) : Host.Outcome State Fault Refusal :=
  act (ready s) (fun s => s.onMessage h f) s

/-! The loss of the partner (R439). -/

/-- The rseqs above the highest folded that no slot in flight here holds. -/
def State.lostRseqs (s : State) (sc : Nat) : List Nat :=
  let x := s.session sc
  let mine := (s.streams.map fun e =>
    if e.2.session == sc then (e.2.slots.filter fun y => !y.left).map (·.rseq) else []).flatten
  ((List.range (x.rseqReservedMax - x.rseqFoldedMax)).map fun i => x.rseqFoldedMax + 1 + i).filter fun r => !mine.contains r

/-- Slots that opened here without the home's RESV take their rseq now. -/
def State.reserveOpen (s : State) (cs : Nat) : State :=
  ((s.stream cs).slots.filter fun y => y.rseq == 0 && y.released.isNone).foldl (fun (s : State) y =>
    let (r, s) := s.reserve (s.stream cs).session
    let s := s.onSlot cs y.seq fun z => { z with rseq := r }
    if y.missing then s.formDecided cs y.seq rsMissing
    else if y.overrun then s.formFallback cs y.seq rsOverrun
    else if y.fired then s.formFallback cs y.seq rsNotReady
    else s) s

/-- The covered streams of a session run from now on; a slot whose SLOT_START has fired and whose RELEASE has not starts its
program. -/
def State.runCovered (s : State) (sc : Nat) : State :=
  (s.streamsOf sc).foldl (fun (s : State) cs =>
    let st := s.stream cs
    if !st.covered then s.endStream cs
    else if st.shed then s.reserveOpen cs
    else
      let s := s.reserveOpen cs
      ((s.stream cs).slots.filter fun y => y.fired && y.released.isNone && !y.missing && y.runners.isEmpty).foldl
        (fun (s : State) y => s.startRuns cs y.seq) s) s

/-- A session that this block held as standby: it is home now. -/
def State.takeOver (s : State) (sc : Nat) : State :=
  let lost := s.lostRseqs sc
  let s := s.onSess sc fun x => { x.unpair with rseqNext := BitVec.ofNat 64 (x.rseqReservedMax + 1) }
  let s := lost.foldl (fun (s : State) r => s.void sc r) s
  (s.cut sc .failover).runCovered sc

/-- FAILOVER (R439). -/
def State.failover (s : State) : State :=
  let held := s.inRole .standby
  let s := { s with fm := { s.fm with lostFlag := true, lostCnt := s.fm.lostCnt + 1, lostPartner := true } }
  let s := held.foldl (fun (s : State) sc => s.takeOver sc) s
  s.leavePair .partnerLost

/-- PARTNER_LOST (R439): no good flit for 1 µs, and no toggle of fm_alive_in either. -/
def execPartnerLost (s : State) : Host.Outcome State Fault Refusal := act (s.joined && s.silent 1000) State.failover s

/-- ALIVE_FAULT (R439): toggles stop while flits still arrive; nothing else happens. -/
def execAliveFault (s : State) : Host.Outcome State Fault Refusal :=
  act (s.joined && !s.silent 1000) (fun s => { s with fm := { s.fm with aliveFlag := true, aliveCnt := s.fm.aliveCnt + 1 } }) s

/-- NOTICE (R428, R432, R439). -/
def State.noticeRow (s : State) (code : Nat) : State :=
  if code = 1 then (if s.joined then s.failover else s.joinFails { status := stFault })
  else if code = 2 && s.joined then s.leavePair .off
  else s

def execNotice (h : LinkHead) (code : Byte) (s : State) : Host.Outcome State Fault Refusal :=
  actMessage (fun s => s.fm.linked) h (fun s => s.noticeRow code.toNat) s

/-! Mirroring (R424, R433 to R435). -/

/-- CTX: a session of the partner's opens, changes or ends. -/
def State.ctxRow (s : State) (sc : Nat) (st : Nat) (conf : Bool) (vi : Nat) (gen : BitVec 16) : State :=
  let x := s.session sc
  if st = 0 ∨ st = 3 then
    if x.pair == .standby then s.endStandby sc
    else if x.pair == .home && st = 3 && x.state != .closing then s.abortSession sc stAborted
    else s
  else if x.state == .free then
    { s with sess := Tab.set {} s.sess sc { state := .opened, conf := conf, vi := vi, keyxGen := gen, rseqNext := 1, pair := .standby } }
  else if x.pair == .standby then
    s.onSess sc fun x => { x with conf := conf, keyxGen := gen, state := if st = 4 then .faulted else x.state }
  else s

def execCtx (h : LinkHead) (sc : Sc) (st : BitVec 3) (conf : Bool) (vi : Fin 64) (keyxGen : BitVec 16) (s : State) :
    Host.Outcome State Fault Refusal :=
  actMessage State.paired h (fun s => s.ctxRow sc.val st.toNat conf vi.val keyxGen) s

/-- KEY (R428, R434): the standby plants the key at the boundary of its planting epoch. At a synchronisation the home has planted it already,
and its generation is that of the CTX before. -/
def State.keyRow (s : State) (sc epoch : Nat) (value : BitVec 256) : State :=
  if s.isStandby sc then
    s.onSess sc fun x => { x with
      plantKey := some value, plantFrom := epoch
      keyxGen := if s.fm.state == .syncing && x.state == .opened then x.keyxGen - 1 else x.keyxGen }
  else s

def execKey (h : LinkHead) (sc : Sc) (epoch : BitVec 52) (value : BitVec 256) (s : State) : Host.Outcome State Fault Refusal :=
  actMessage State.paired h (fun s => s.keyRow sc.val epoch.toNat value) s

/-- A slot takes the number that the home gives it, with its armed instants and its programs. -/
def State.renumber (s : State) (cs old new : Nat) : State :=
  if old = new then s
  else
    let role (r : RunRole) : RunRole := match r with
      | .slot c q => if c = cs ∧ q = old then .slot c new else r
      | .shadow c q => if c = cs ∧ q = old then .shadow c new else r
      | r => r
    let prog (p : Prog) : Prog := { p with role := role p.role }
    let s := s.onStream cs fun st => { st with
      seq := max st.seq new, slots := st.slots.map fun y => if y.seq = old then { y with seq := new } else y }
    { s with
      ptu := { s.ptu with events := Tab.mapVals {} s.ptu.events fun _ (e : Event) =>
        if e.kind.isStream && e.target.toNat == cs then { e with armed := e.armed.map fun a => if a.2 = old then (a.1, new) else a } else e }
      arc := Tab.mapVals {} s.arc fun _ (c : Arcade) => { c with
        running := c.running.map prog, bulk := c.bulk.map prog, queue := c.queue.map fun q => { prog := prog q.prog } } }

/-- RESV for a stream's slot: the slot that opened here and waits for it, else the next that opens (log entry 29). -/
def State.resvSlot (s : State) (cs seq rseq : Nat) : State :=
  let bare := (s.stream cs).slots.filter fun y => y.rseq == 0 && y.released.isNone
  match (bare.find? fun y => y.seq == seq), bare.head? with
  | some y, _ | none, some y =>
    let s := (s.renumber cs y.seq seq).onSlot cs seq fun z => { z with rseq := rseq }
    if y.missing then s.formDecided cs seq rsMissing
    else if y.overrun then s.formFallback cs seq rsOverrun
    else if y.fired then s.formFallback cs seq rsNotReady
    else s
  | none, none => s.onStream cs fun st => { st with resv := st.resv ++ [(seq, rseq)] }

/-- RESV (R433): the standby records the highest rseq reserved. The position at a synchronisation carries seq 0. -/
def State.resvRow (s : State) (sc origin seq rseq : Nat) : State :=
  if !s.isStandby sc then s
  else
    let at0 := origin == 0xFFFF && seq == 0
    let s := s.onSess sc fun x => { x with
      rseqReservedMax := max x.rseqReservedMax rseq, rseqFoldedMax := if at0 then rseq else x.rseqFoldedMax }
    if decide (origin < 256) && (s.stream origin).bound && (s.stream origin).session == sc then s.resvSlot origin seq rseq else s

def execResv (h : LinkHead) (sc : Sc) (origin : BitVec 16) (seq rseq : Word) (s : State) : Host.Outcome State Fault Refusal :=
  actMessage State.paired h (fun s => s.resvRow sc.val origin.toNat seq.toNat rseq.toNat) s

/-- FOLD (R433): the standby keeps acc, and the count of its open range, as the home's. -/
def State.foldRow (s : State) (sc rseq : Nat) (tag : BitVec 128) (void : Bool) : State :=
  if !s.isStandby sc then s
  else
    let s := { s with streams := Tab.mapVals {} s.streams fun _ (st : Stream) =>
      if st.session == sc then { st with slots := st.slots.map fun (y : SlotRun) => if y.rseq = rseq then { y with folded := true } else y } else st }
    s.onSess sc fun x =>
    let x := { x with rseqFoldedMax := max x.rseqFoldedMax rseq }
    if void then { x with voidedOpen := x.voidedOpen + 1, voids := addVoid rseq x.voids }
    else { x with acc := x.acc ^^^ tag, releasedOpen := x.releasedOpen + 1 }

def execFoldMsg (h : LinkHead) (sc : Sc) (rseq : Word) (tag : BitVec 128) (_time : Word) (void : Bool) (s : State) :
    Host.Outcome State Fault Refusal :=
  actMessage State.paired h (fun s => s.foldRow sc.val rseq.toNat tag void) s

/-- CUT (R428): the home's open range restarts, and so does the standby's copy of it. -/
def State.cutRow (s : State) (sc ckptNo : Nat) : State :=
  if !s.isStandby sc then s
  else s.onSess sc fun x => { x.reopen .auto s.now with ckptNo := ckptNo - 1 }

def execCut (h : LinkHead) (sc : Sc) (ckptNo _rseqHigh : Word) (s : State) : Host.Outcome State Fault Refusal :=
  actMessage State.paired h (fun s => s.cutRow sc.val ckptNo.toNat) s

/-- STATE (R95, R435): the lines go to the standby's buffer of the same index, in its own plan, through the link's unit. -/
def State.stateRow (s : State) (sc buffer : Nat) (lines : List Bytes) : State :=
  match (s.plan (s.session sc).window).running with
  | none => s
  | some p =>
    match p.buffers[buffer]? with
    | none => s
    | some b =>
      if s.isStandby sc && decide (lines.length ≤ b.pages * 16) then
        if !s.bufferOk 0x50 sc b then s.accessRefused sc b.base
        else
        { s with pz := (lines.mapIdx fun i l => (i, l)).foldl (fun z x => z.writeLine (b.base + 64 * x.1) (x.2.take 64) (x.2.getD 64 0 != 0)) s.pz }
      else s

def execState (h : LinkHead) (sc : Sc) (buffer : BitVec 16) (lines : List Bytes) (s : State) : Host.Outcome State Fault Refusal :=
  actMessage State.paired h (fun s => s.stateRow sc.val buffer.toNat lines) s

/-! Results across the pair (R436 to R438). -/

/-- CMP (R436): the partner's run; a standby's slot takes the header values that the home's message carries. -/
def State.cmpRow (s : State) (cs seq : Nat) (o : Outcome1) (hdr : Option (Word × Word × BitVec 6)) : State :=
  if !s.partnerRuns cs then s
  else
    let s := s.onStream cs fun st => { st with partner := some (seq, o) }
    match hdr with
    | some (phase, time, bits) =>
      if s.isStandby (s.stream cs).session then
        s.onSlot cs seq fun y => { y with
          icPhase := phase, icTime := time, flags := (y.flags &&& 0xFE07) ||| (bits.setWidth 16 <<< 3) }
      else s
    | none => s

def execCmp (h : LinkHead) (cs : Cs) (seq : Word) (payload : Bytes) (flags : BitVec 3) (sigs : List (BitVec 128))
    (hdr : Option (Word × Word × BitVec 6)) (s : State) : Host.Outcome State Fault Refusal :=
  actMessage State.joined h (fun s => s.cmpRow cs.val seq.toNat { payload := payload, flags := flags, sigs := sigs } hdr) s

/-- SIG (R437): the standby's signature of a lockstep span reaches the home's check of it. -/
def State.sigRow (s : State) (sc span : Nat) (g : BitVec 128) : State :=
  let mine (k : Check) : Bool := k.session == sc && k.checker == 16 && k.instCount == span && k.checkerSig.isNone
  match (List.range 16).find? fun a => (s.arcade a).checks.any mine with
  | none => s
  | some a => (s.onCheck a span fun k => if mine k then { k with checkerSig := some g } else k).compareSpan a span

def execSig (h : LinkHead) (sc : Sc) (span : Word) (g : BitVec 128) (s : State) : Host.Outcome State Fault Refusal :=
  actMessage State.joined h (fun s => s.sigRow sc.val span.toNat g) s

/-- The window whose plan takes a part from the partner: the message names none, so the first that fits (log entry 31). Answers the
reduction and the commit of the plan. -/
def State.partPlan (s : State) (rdesc p : Nat) : Option (Reduction × Nat) :=
  (List.range 65).findSome? fun w => match (s.plan w).running with
    | some q => if q.partRemote rdesc p && !q.destRemote rdesc then (q.reductions[rdesc]?).map fun r => (r, (s.plan w).committedAt)
      else none
    | none => none

/-- PART (R53, R438): the part is on its way to the Arcade that combines. -/
def State.partRow (s : State) (rdesc p : Nat) (rows : List Bytes) (digest : BitVec 128) : State :=
  match s.partPlan rdesc p with
  | none => s
  | some (r, g) =>
    let got := rows.map readPartRow
    let x : InPart := { gen := g, rdesc := rdesc, part := p, row := r.recvRow + p * r.rows, rows := got.map (·.1)
                        digest := digest, poison := got.map (·.2) }
    s.onArc r.dest fun c => { c with inFlight := c.inFlight ++ [x] }

def execPart (h : LinkHead) (rdesc : Fin 256) (p : Fin 16) (rows : List Bytes) (digest : BitVec 128) (s : State) :
    Host.Outcome State Fault Refusal :=
  actMessage State.joined h (fun s => s.partRow rdesc.val p.val rows digest) s

/-! Joining (R365, R366, R430, R431). -/

/-- This block's DeviceID public keys and their digest (R352). -/
def State.deviceKeys (s : State) : Bytes := ecdsaPublicOf s.keys.prkDev s.lc.state ++ mldsaPublicOf s.keys.prkDev s.lc.state
def State.deviceDigest (s : State) : Bytes := Bytes.big (identityDigest s.keys.prkDev s.lc.state)

/-- What an alias certificate certifies (R358): the key, MR0 to MR5, the lifecycle state and the root. -/
def State.aliasContent (s : State) (key : Bytes) : Bytes :=
  key ++ ((List.range 6).map fun n => Bytes.big (Tab.get 0 s.boot.mr n)).flatten ++ [BitVec.ofNat 8 s.lc.state, BitVec.ofNat 8 s.keys.rootCode]

/-- The alias certificates of the boot, in ECDSA and in ML-DSA form (R358). -/
def State.aliasCert (s : State) (mldsa : Bool) : Bytes :=
  let n := s.lc.state
  if mldsa then
    let k := mldsaPublicOf s.keys.cdiA n
    Config.certBytes k (s.aliasContent k) (Config.mldsaSign 65 (mldsaSeed s.keys.prkDev n) (s.aliasContent k) s.boot.certRnd)
  else
    let k := ecdsaPublicOf s.keys.cdiA n
    Config.certBytes k (s.aliasContent k) (Config.ecdsaSign (ecdsaPrivate s.keys.prkDev n) (s.aliasContent k))

/-- The answer to the partner's nonce: the PARTNER token, and the keys and certificates. A block without alias keys does not
answer (R350). -/
def State.sendAttestation (s : State) (nonce : BitVec 256) : State :=
  if s.noAlias || s.drbgBlocked then s
  else if s.aliasRefused then s.logRefusedUse 4
  else
    let (r, s) := s.draw
    let s := s.useAlias.sendMessage 0x0011 chanCtrl (s.signToken none (s.tokenClaims none 2 0 (Bytes.big nonce)) ((Bytes.big r).take 32))
    s.sendMessage 0x0012 chanCtrl (s.deviceKeys ++ s.aliasCert false ++ s.aliasCert true)

/-- The checks of R365, in order: the detail of the first that fails. -/
def State.partnerFault (s : State) (t keys ecdsa mldsa : Bytes) : Option Nat :=
  let d := Bytes.big (Config.sha384 keys)
  let m := Bytes.big (Config.sha384 (Bytes.slice t 0 752))
  let certs := Config.certVerify 0 (keys.take 96) ecdsa && Config.certVerify 65 (keys.drop 96) mldsa
  let signed := Config.ecdsaVerify (Config.certKey ecdsa) m (Bytes.slice t 752 96)
    && Config.mldsaVerify 65 (Config.certKey mldsa) m (Bytes.slice t 848 3309)
  let mr (n : Nat) : Bool := Bytes.slice t (128 + 48 * n) 48 == Bytes.big (Tab.get 0 s.boot.mr n)
  if !(d == s.fm.expectDigest && Bytes.slice t 512 48 == s.fm.expectDigest) then some 0x20
  else if !(certs && signed && Bytes.slice t 64 32 == Bytes.big s.fm.nonce) then some 0x21
  else if !(Bytes.num t 112 1 == s.lc.state && Bytes.num t 113 1 == s.keys.rootCode) then some 0x22
  else if !(mr 1 && mr 2 && mr 6) then some 0x23
  else if s.fm.partnerMode ≠ s.fm.wantMode then some 0x24
  else none

/-- This block is the lower of the two (R422, R366). -/
def State.isLower (s : State) (theirs : Bytes) : Bool :=
  let a := Bytes.bigNat s.deviceDigest
  let b := Bytes.bigNat theirs
  decide (a < b) || (a == b && decide (Bytes.toNat s.serial < s.fm.partnerSerial.toNat))

/-- The lower block sends its ephemeral key and its ML-KEM key (R366). -/
def State.sendShares (s : State) : State :=
  let (a, s) := s.draw
  let (b, s) := s.draw
  let e := (Bytes.big a).take 48
  let seed := Bytes.big b
  State.sendMessage { s with fm := { s.fm with ephemeral := e, kemSeed := seed } } 0x0013 chanCtrl
    (Config.p384Public e ++ Config.mlkemPublic seed)

/-- The partner's token and certificates are here: they are checked (R365). -/
def State.checkPartner (s : State) : State :=
  match s.fm.partnerCerts with
  | none => s
  | some (keys, ecdsa, mldsa) =>
    if s.fm.partnerToken.isEmpty || s.fm.attested then s
    else
      match s.partnerFault s.fm.partnerToken keys ecdsa mldsa with
      | some d => s.joinFails (.denied d)
      | none =>
        let theirs := Bytes.big (Config.sha384 keys)
        let s := { s with fm := { s.fm with attested := true, partnerDigest := theirs, lower := s.isLower theirs } }
        if s.fm.lower then s.sendShares else s

/-- Sessions that step 5 synchronises (R430): KEYED sessions of a pair VI that this block is home of. -/
def State.toSync (s : State) : List Nat :=
  s.sess.filterMap fun e =>
    if e.2.state == .keyed && !e.2.operator && s.pairVi e.2.vi && !e.2.alone && e.2.pair != .standby then some e.1 else none

/-- STATE of every STATE buffer of the session's streams (R435). -/
def State.sendStates (s : State) (sc : Nat) : State :=
  (s.streamsOf sc).foldl (fun (s : State) cs =>
    match (s.plan (s.stream cs).win).running with
    | none => s
    | some p => ((p.streamEntries cs 0).map fun i => p.boundBuffers i 2).flatten.foldl (fun (s : State) b =>
        s.sendBuffer sc b.1 b.2) s) s

/-- CTX, KEY, the RESV position and STATE of a session. -/
def State.syncSession (s : State) (sc : Nat) : State :=
  let s := s.onSess sc fun x => { x with pair := .home }
  let s := s.sendCtx sc
  let s := match s.sessionKey sc with
    | some k => s.sendKey sc k
    | none => s
  (s.sendResv sc 0xFFFF 0 ((s.session sc).rseqNext.toNat - 1)).sendStates sc

/-- The pair key and the keys of both directions (R366, R428): step 5 begins. -/
def State.agree (s : State) (zec zkem : Bytes) (ours theirs : Bytes) : State :=
  let f := s.fm
  let mine := s.deviceDigest
  let ids := if f.lower then mine ++ f.partnerDigest else f.partnerDigest ++ mine
  let salt := Bytes.big (Config.sha384 (if f.lower then Config.pairTranscript ours theirs else Config.pairTranscript theirs ours))
  let prk := hkdfExtract salt (zec ++ zkem)
  let key := hkdfExpand prk (ascii "klv-s2 pair" ++ ids) 32
  let pair : BitVec 256 := BitVec.ofNat 256 (Bytes.bigNat key)
  let dir (id : Bytes) : BitVec 256 := BitVec.ofNat 256 (Bytes.bigNat (hkdfExpand key (ascii "klv-s2 link" ++ id) 32))
  let slot := (List.range 55).findSome? fun i => if attrKind (s.slot (9 + i)).attr = 0 then some (9 + i) else none
  let s := match slot with
    | some n => s.writeSlot n key fun _ => attrOf 1 1 16 (2 ^ s.lc.state) false 2 false
    | none => s
  let s := { s with fm := { s.fm with
    txKey := some (dir mine), rxKey := some (dir f.partnerDigest), pairKey := some pair, pairSlot := slot
    collectiveKey := Config.pairCollective pair, ephemeral := [], kemSeed := [], state := .syncing, stepAt := s.now, mode := f.wantMode } }
  s.toSync.foldl (fun (s : State) sc => s.syncSession sc) s

/-- The partner's shares (R366): the lower block opens the encapsulation; the other encapsulates and answers. -/
def State.takeShares (s : State) (ecdh kem : Bytes) : State :=
  if !s.fm.attested || s.fm.state != .attesting then s
  else if !Config.p384OnCurve ecdh then s.joinFails { status := stFault }
  else if s.fm.lower then
    s.agree (Config.p384Ecdh s.fm.ephemeral ecdh) (Config.mlkemDecaps s.fm.kemSeed kem)
      (Config.p384Public s.fm.ephemeral ++ Config.mlkemPublic s.fm.kemSeed) (ecdh ++ kem)
  else
    let (a, s) := s.draw
    let (b, s) := s.draw
    let e := (Bytes.big a).take 48
    let rnd := (Bytes.big b).take 32
    let ct := Config.mlkemCipher kem rnd
    let s := s.sendMessage 0x0013 chanCtrl (Config.p384Public e ++ ct)
    s.agree (Config.p384Ecdh e ecdh) (Config.mlkemSecret kem rnd) (Config.p384Public e ++ ct) (ecdh ++ kem)

/-- Step 5 ends: sessions that the partner could not take stay unpaired for their life, and the block is joined (R430, R440;
log entry 32). -/
def State.joinDone (s : State) (refused : List Nat) : State :=
  let out := refused.filter fun sc => (s.session sc).pair == .home
  let s := out.foldl (fun (s : State) sc => s.onSess sc fun x => { x.unpair with alone := true }) s
  let cover (st : Stream) : Stream := if (s.session st.session).pair == .home then { st with covered := st.bound } else st
  let s := { s with
    streams := Tab.mapVals {} s.streams fun _ st => cover st
    fm := { s.fm with state := .joined, unpaired := min 1023 (s.fm.unpaired + out.length), lostPartner := false, joinWin := none } }
  s

def State.joinRow (s : State) : JoinMsg → State
  | .version major mode serial =>
    if major ≠ Config.pairVersionMajor then s.joinFails { status := stVersion }
    else if Bytes.toNat s.serial = serial.toNat then s.joinFails (.denied 0x26)
    else { s with fm := { s.fm with partnerSerial := serial, partnerMode := mode, partnerHere := true, stepAt := s.now } }
  | .nonce n => s.sendAttestation n
  | .token b => State.checkPartner { s with fm := { s.fm with partnerToken := b } }
  | .certs keys ecdsa mldsa => State.checkPartner { s with fm := { s.fm with partnerCerts := some (keys, ecdsa, mldsa) } }
  | .keyx ecdh kem => s.takeShares ecdh kem
  | .synced refused =>
    if s.fm.state == .syncing then
      let w := s.fm.joinWin
      let s := s.joinDone (refused.map (·.val))
      match w with
      | some w => s.result w (.ok 0)
      | none => s
    else s

/-- JOIN (R430): while a PAIR_JOIN runs. -/
def execJoin (h : LinkHead) (m : JoinMsg) (s : State) : Host.Outcome State Fault Refusal :=
  actMessage (fun s => s.fm.joinWin.isSome && (s.fm.state == .attesting || s.fm.state == .syncing)) h (fun s => s.joinRow m) s

/-- PAIR_JOIN (R430 to R432, R249): the command waits outside the queue until it has joined or failed. -/
def State.pairJoin (s : State) (w : Nat) (c : Cmd) : State :=
  let mode := c.u 16 1
  if !s.bodyDefined w msgPair then s.result w { status := stVersion }
  else if c.params.length < 48 then s.result w { status := stLenShort }
  else if 48 < c.params.length then s.result w { status := stLenLong }
  else if s.fm.joinWin.isSome then s.result w { status := stBusy }
  else if mode = 0 then
    (if s.joined then (s.sendNotice 2).leavePair .off else s).result w (.ok 0)
  else if s.joined then
    State.result { s with fm := { s.fm with lastDetail := 0x28 } } w (.denied 0x28)
  else if 2 < mode then s.result w (.denied 0)
  else if s.drbgBlocked then s.result w (.denied 0x0F)
  else
    let s := s.onSlotOf w fun y => { y with begun := true }
    let s := s.domainUp 36
    let f := s.fm.unjoined .training
    let s := { s with
      rb := { s.rb with fcQueue := s.rb.fcQueue.erase w }
      fm := { f with wantMode := mode, joinWin := some w, expectDigest := c.params, goodAt := s.now, stepAt := s.now } }
    s.sendBare 3

def execPairJoin (w : Win) (s : State) : Host.Outcome State Fault Refusal :=
  actCmd (s.fcCmd w.val 0xA0) (fun c s => s.pairJoin w.val c) s

/-- The bound in ns of the present step of a join (R430), and the detail of a PAIR_JOIN that outlasts it (R431): steps 3 and 4
follow each other, and theirs is one. -/
def Fumas.joinBound (f : Fumas) : Nat × Nat :=
  if f.state == .training then (50000000, 0x25)
  else if f.state == .attesting then (if f.partnerHere then (30000000, 0) else (100000000, 0x27))
  else (20000000, 0)

/-- The present step of a join has outlasted its bound. -/
def State.joinOverdue (s : State) : Bool := s.fm.joinWin.isSome && decide (s.fm.stepAt + s.fm.joinBound.1 ≤ s.now)

/-- The errors that a command has found in the control structures it read (R205, R369); a command of no session reads no context. -/
def State.cmdReads (s : State) (sc : Nat) (u : List CtrlUpset) : State :=
  s.ctrlReads sc (if (s.session sc).state == .free then u.filter fun x => match x with
    | .context _ => false
    | .ce _ _ => true else u)

/-- COMMAND_COMPLETE (R242): the reply of a Forecourt command that has its result; an error in the write of its reply
data makes it ST_FAULT (R454). A PAIR_JOIN of which a step outlasts its bound ends with ST_FAULT (R430, R431). -/
def execCommandComplete (w : Win) (d : DoneIn) (s : State) : Host.Outcome State Fault Refusal :=
  let c := (s.window w.val).slot
  let first := !s.rb.fcQueue.contains w.val || s.rb.fcQueue.head? == some w.val
  match c.running, c.result with
  | some x, some r =>
    act (s.fcUp && first && !roundaboutOps.contains x.opcode)
      (fun s => State.finish (s.cmdReads x.session d.ctl) w.val (if d.writeErr then { status := stFault } else r)) s
  | some x, none =>
    act (s.fcUp && x.opcode == 0xA0 && s.joinOverdue)
      (fun s =>
        let d := s.fm.joinBound.2
        State.finish (State.leavePair { s with fm := { s.fm with lastDetail := BitVec.ofNat 8 d } } .off) w.val
          { status := stFault, detail := d }) s
  | none, _ => act false id s

end Sys2Proof.Machine
end

