-- ==== Sys2Proof/Machine/Management.lean ====
section
/-! DEFINITION. The management port: SPDM on both of its paths (R358 to R364), PLDM (R391), MCTP control (R468) and the I3C
target (R467). The message layouts are the DMTF's and the MIPI Alliance's: Config.spdmBody, Config.pldmBody and Config.i3cBody. -/

namespace Sys2Proof.Machine

/-! SPDM. -/

/-- The connection context of a path: one for each VI, and one more for the management port, which the operator's window shares
(R364, log entry 34). -/
def pathKey : SpdmPath → Nat
  | .win w => w.val
  | .mgmt => 64

/-- SPDM error codes (the SPDM standard). -/
def errInvalid : Byte := 1
def errUnexpected : Byte := 4
def errUnspecified : Byte := 5
def errUnsupported : Byte := 7

/-- Answer a request on its path. -/
def State.spdmAnswer (s : State) (p : SpdmPath) (body : Bytes) : State :=
  match p with
  | .mgmt => s.mgmtSend body
  | .win w =>
    match (s.window w.val).slot.running with
    | some c => s.keyxRespond w.val c body
    | none => s

def State.spdmError (s : State) (p : SpdmPath) (code : Byte) : State := s.spdmAnswer p (Config.spdmBody 0x7F [] [code])

/-- The reply of a SESSION_KEYX that may carry no request: the checks of R206, R207 and R424. -/
def State.keyxRefusal (s : State) (w : Nat) (c : Cmd) : Option Reply :=
  let x := s.session c.session
  if !s.visible w c.session || !(x.state == .opened || x.state == .keyed) then some (.denied 0)
  else if s.keysLocked then some (.denied 0)
  else if s.standbyRefuses c.session then some (.denied 0x29)
  else if c.u 36 4 < 8192 then some (.denied 4)
  else none

/-- A row of an SPDM request: on a window's path it is the request that the running SESSION_KEYX carries. -/
def actSpdm (p : SpdmPath) (f : State → State) (s : State) : Host.Outcome State Fault Refusal :=
  match p with
  | .mgmt => act s.mgmtUp f s
  | .win w => actCmd (s.fcCmd w.val 0x11) (fun c s =>
      match s.keyxRefusal w.val c with
      | some r => s.result w.val r
      | none => f s) s

def State.spdmCtx (s : State) (p : SpdmPath) : SpdmCtx := Tab.get {} s.mgmt.spdm (pathKey p)

def State.phase (s : State) (p : SpdmPath) : Nat := (s.spdmCtx p).phase

def State.onSpdm (s : State) (p : SpdmPath) (f : SpdmCtx → SpdmCtx) : State :=
  { s with mgmt := { s.mgmt with spdm := Tab.upd {} s.mgmt.spdm (pathKey p) f } }

def State.setPhase (s : State) (p : SpdmPath) (n : Nat) : State := s.onSpdm p fun x => { x with phase := n }

/-- A response to a request; both extend the transcript of the connection (R362). -/
def State.spdmReply (s : State) (p : SpdmPath) (code : Nat) (req content : Bytes) : State :=
  let rsp := Config.spdmBody code req content
  (s.onSpdm p fun x => { x with transcript := Config.spdmTranscript code (x.transcript ++ req ++ rsp) }).spdmAnswer p rsp

/-- A request that needs a phase of the connection. -/
def State.inPhase (s : State) (p : SpdmPath) (n : Nat) (f : State → State) : State :=
  if s.phase p = n then f s else s.spdmError p errUnexpected

/-- GET_VERSION (R361, R364): the path's own context starts anew. -/
def State.getVersion (s : State) (p : SpdmPath) : State :=
  State.spdmReply (s.onSpdm p fun _ => { phase := 1 }) p 0x84 [] [0x12, 0x13]

def execGetVersion (p : SpdmPath) (s : State) : Host.Outcome State Fault Refusal := actSpdm p (fun s => s.getVersion p) s

/-- The capabilities of R360, and those that it lists as not supported, each by its place there: whether the responder has it. -/
def spdmCaps : List Bool := [true, true, true, true, true, true, true, true, true, true, false, false, false, false, false, false, false]

/-- What GET_CAPABILITIES hands to the message layout (R360): CTExponent, the capabilities, DataTransferSize and MaxSPDMmsgSize. -/
def capsContent : Bytes := [15] ++ spdmCaps.map (fun c => if c then 1 else 0) ++ Bytes.ofNat 4 8192 ++ Bytes.ofNat 4 8192

/-- The algorithms of R360. -/
inductive SpdmAlg where
  | ecdsaP384 | sha384 | secp384r1 | aes256Gcm | dmtf
deriving DecidableEq, Repr

def SpdmAlg.code : SpdmAlg → Byte
  | .ecdsaP384 => 1 | .sha384 => 2 | .secp384r1 => 3 | .aes256Gcm => 4 | .dmtf => 5

/-- What NEGOTIATE_ALGORITHMS selects (R360): BaseAsymAlgo, BaseHashAlgo, MeasurementHashAlgo, DHE, AEAD, MeasurementSpecification. -/
def spdmAlgs : List SpdmAlg := [.ecdsaP384, .sha384, .sha384, .secp384r1, .aes256Gcm, .dmtf]

def State.getCapabilities (s : State) (p : SpdmPath) : State :=
  s.inPhase p 1 fun s => (s.setPhase p 2).spdmReply p 0xE1 [] capsContent

def execGetCapabilities (p : SpdmPath) (s : State) : Host.Outcome State Fault Refusal := actSpdm p (fun s => s.getCapabilities p) s

def State.negotiate (s : State) (p : SpdmPath) : State :=
  s.inPhase p 2 fun s => (s.setPhase p 3).spdmReply p 0xE3 [] (spdmAlgs.map SpdmAlg.code)

def execNegotiateAlgorithms (p : SpdmPath) (s : State) : Host.Outcome State Fault Refusal := actSpdm p (fun s => s.negotiate p) s

/-- The chain of a slot (R359): its prefix, then the alias certificate of the boot. -/
def State.certChain (s : State) (k : Nat) : Bytes := s.certPrefix k ++ (if s.noAlias then [] else s.aliasCert (k == 1))

def State.getDigests (s : State) (p : SpdmPath) : State :=
  s.inPhase p 3 fun s => s.spdmReply p 0x01 []
    (Bytes.big (Config.sha384 (s.certChain 0)) ++ Bytes.big (Config.sha384 (s.certChain 1)))

def execGetDigests (p : SpdmPath) (s : State) : Host.Outcome State Fault Refusal := actSpdm p (fun s => s.getDigests p) s

def State.getCertificate (s : State) (p : SpdmPath) (slot offset length : Nat) : State :=
  s.inPhase p 3 fun s =>
    let c := s.certChain slot
    if 2 ≤ slot || c.length ≤ offset then s.spdmError p errInvalid
    else
      let part := (c.drop offset).take length
      s.spdmReply p 0x02 (Bytes.ofNat 1 slot ++ Bytes.ofNat 2 offset ++ Bytes.ofNat 2 length)
        (Bytes.ofNat 2 (c.length - offset - part.length) ++ part)

def execGetCertificate (p : SpdmPath) (slot : Fin 8) (offset length : BitVec 16) (s : State) : Host.Outcome State Fault Refusal :=
  actSpdm p (fun s => s.getCertificate p slot.val offset.toNat length.toNat) s

/-- The audience of a path (R356): a tenant's token hides the retired units. -/
def pathTenant : SpdmPath → Bool
  | .win w => decide (w.val < 64)
  | .mgmt => false

/-- The content of a measurement index (R363). -/
def State.measurement (s : State) (p : SpdmPath) (i : Nat) : Option Bytes :=
  if 1 ≤ i ∧ i ≤ 8 then some (Bytes.big (Tab.get 0 s.boot.mr (i - 1)))
  else if i = 0x10 then some s.boot.bootLog.flatten
  else if i = 0x11 then some s.boot.runtimeLog.flatten
  else if i = 0x12 then some (s.blockStatic ++ s.blockDynamic (pathTenant p))
  else none

def allIndices : List Nat := [1, 2, 3, 4, 5, 6, 7, 8, 0x10, 0x11, 0x12]

/-- The value types of R363, with the codes of the DMTF's measurement specification (PRESUMED; log entry 34). -/
inductive MeasType where
  | rom | firmware | hardwareConfig | firmwareConfig | raw
deriving DecidableEq, Repr

def MeasType.code : MeasType → Byte
  | .rom => 0 | .firmware => 1 | .hardwareConfig => 2 | .firmwareConfig => 3 | .raw => 0x80

def measType (i : Nat) : MeasType :=
  if i = 1 then .rom else if i = 6 then .hardwareConfig else if i = 8 then .firmwareConfig else if i < 8 then .firmware else .raw

/-- One measurement as the response carries it: its index, its value type, its length and its content (R363). -/
def State.measBlock (s : State) (p : SpdmPath) (i : Nat) : Option Bytes :=
  (s.measurement p i).map fun b => [BitVec.ofNat 8 i, (measType i).code] ++ Bytes.ofNat 4 b.length ++ b

/-- The measurements that an index asks for: 0xFF for all. -/
def State.measured (s : State) (p : SpdmPath) (i : Nat) : Option Bytes :=
  if i = 0xFF then some (allIndices.map fun n => (s.measBlock p n).getD []).flatten else s.measBlock p i

/-- A Keluvia element of OpaqueData (R207, R362): its number, its length and its content (log entry 34). -/
def opaqueElement (n : Nat) (b : Bytes) : Bytes := Bytes.ofNat 2 n ++ Bytes.ofNat 2 b.length ++ b

/-- Nothing can be signed on a path (R320): a SESSION_KEYX ends with ST_DENIED, and the health unit logs the use. -/
def State.spdmRefused (s : State) (p : SpdmPath) (slot : Nat) : State :=
  let s := s.logRefusedUse slot
  match p with
  | .win w => s.result w.val (.denied 0)
  | .mgmt => s.spdmError p errUnspecified

/-- A response that both alias keys sign, over one digest of the connection's transcript; the ML-DSA-65 signature stands in OpaqueData
element 0x0003 (R362), and the requester's nonce is copied into it (R367). Where R350 or R345 lets nothing be signed, it is an error. -/
def State.spdmSigned (s : State) (p : SpdmPath) (code : Nat) (req : Bytes) (nonce : BitVec 256) (content : Bytes) : State :=
  if s.noAlias || s.drbgBlocked then s.spdmError p errUnspecified
  else if s.aliasRefused then s.spdmRefused p 4
  else
    let (a, s) := s.draw
    let (b, s) := s.draw
    let s := s.useAlias
    let body := content ++ Bytes.big nonce ++ (Bytes.big a).take 32
    let m := Bytes.big (Config.sha384 (Config.spdmTranscript code ((s.spdmCtx p).transcript ++ req ++ body)))
    let sg := signBoth s.keys.cdiA s.lc.state m ((Bytes.big b).take 32)
    s.spdmReply p code req (body ++ opaqueElement 3 sg.2 ++ sg.1)

/-- A request that needs a signature while R350 applies receives Unspecified, whatever else is wrong with it (R361). -/
def State.needsAlias (s : State) (p : SpdmPath) (f : State → State) : State :=
  if s.noAlias then s.spdmError p errUnspecified else f s

def State.challenge (s : State) (p : SpdmPath) (slot : Nat) (nonce : BitVec 256) : State :=
  s.needsAlias p fun s => s.inPhase p 3 fun s =>
    if 2 ≤ slot then s.spdmError p errInvalid
    else s.spdmSigned p 0x03 (Bytes.ofNat 1 slot ++ Bytes.big nonce) nonce (Bytes.big (Config.sha384 (s.certChain slot)))

def execChallenge (p : SpdmPath) (slot : Fin 8) (nonce : BitVec 256) (s : State) : Host.Outcome State Fault Refusal :=
  actSpdm p (fun s => s.challenge p slot.val nonce) s

def State.getMeasurements (s : State) (p : SpdmPath) (i : Nat) (signed : Bool) (nonce : BitVec 256) : State :=
  let go (s : State) : State := s.inPhase p 3 fun s =>
    match s.measured p i with
    | none => s.spdmError p errInvalid
    | some b =>
      if signed then s.spdmSigned p 0x60 (Bytes.ofNat 1 i ++ Bytes.big nonce) nonce b
      else s.spdmReply p 0x60 (Bytes.ofNat 1 i) b
  if signed then s.needsAlias p go else go s

def execGetMeasurements (p : SpdmPath) (index : Byte) (signed : Bool) (nonce : BitVec 256) (s : State) :
    Host.Outcome State Fault Refusal :=
  actSpdm p (fun s => s.getMeasurements p index.toNat signed nonce) s

/-- The DeviceID public key of a slot's algorithm (R359). -/
def State.deviceKey (s : State) (slot : Nat) : Bytes :=
  if slot = 0 then ecdsaPublicOf s.keys.prkDev s.lc.state else mldsaPublicOf s.keys.prkDev s.lc.state

/-- SET_CERTIFICATE (R359, R361): from the management path only, in MANUF or OWNED. The leaf of the prefix must certify the DeviceID key
of the slot's algorithm. -/
def State.setCertificate (s : State) (p : SpdmPath) (slot : Nat) (pfx : Bytes) : State :=
  if p != .mgmt then s.spdmError p errUnsupported
  else s.needsAlias p fun s =>
    if !(s.lc.state = 3 || s.lc.state = 4) then s.spdmError p errUnsupported
    else s.inPhase p 3 fun s =>
      if 2 ≤ slot || Config.chainLeaf pfx != s.deviceKey slot || decide (0x7000 < pfx.length) then s.spdmError p errInvalid
      else (s.setCertPrefix slot pfx).spdmReply p 0x6E (Bytes.ofNat 1 slot) []

def execSetCertificate (p : SpdmPath) (slot : Fin 8) (pfx : Bytes) (s : State) : Host.Outcome State Fault Refusal :=
  actSpdm p (fun s => s.setCertificate p slot.val pfx) s

/-- GET_CSR (R359): a request for DeviceID signed by DeviceID. -/
def State.getCsr (s : State) (p : SpdmPath) (slot : Nat) : State :=
  if p != .mgmt then s.spdmError p errUnsupported
  else s.needsAlias p fun s => s.inPhase p 3 fun s =>
    if s.drbgBlocked then s.spdmError p errUnspecified
    else if 2 ≤ slot then s.spdmError p errInvalid
    else if s.useRefused (s.slot 2).attr 2 then s.spdmRefused p 2
    else
      let (r, s) := s.draw
      let s := s.useSlot 2
      let n := s.lc.state
      let k := s.deviceKey slot
      let sg := if slot = 0 then Config.ecdsaSign (ecdsaPrivate s.keys.prkDev n) k
        else Config.mldsaSign 65 (mldsaSeed s.keys.prkDev n) k ((Bytes.big r).take 32)
      s.spdmReply p 0x6D (Bytes.ofNat 1 slot) (Config.certBytes k k sg)

def execGetCsr (p : SpdmPath) (slot : Fin 8) (s : State) : Host.Outcome State Fault Refusal := actSpdm p (fun s => s.getCsr p slot.val) s

/-! PLDM (R391). -/

/-- What the numeric sensors read: the thermal sensors, the block's power, the ACLK of each Arcade. -/
def State.sensorBytes (s : State) : Bytes :=
  ((List.range 24).map fun i => int16 (s.pm.sensors.getD i s.pm.tj)).flatten ++ Bytes.ofNat 2 s.pm.powerDw
    ++ ((List.range 16).map fun a => Bytes.ofNat 2 (s.aclkMhz a)).flatten

/-- What the sensor of the TRNG's state reads: 0 where it is well, 1 DEGRADED, 2 FAILED, 3 before its start-up test has passed (the manual
gives no codes; DESIGN CHOICE, log entry 33). -/
def TrngState.sensor : TrngState → Nat
  | .ok => 0 | .degraded => 1 | .failed => 2 | .startup => 3

/-- What the state sensors read: DEVICE_DEGRADED, the TRNG, the pair, the integrity state of each Arcade. -/
def State.stateSensors (s : State) : Bytes :=
  [if s.degradedNow then 1 else 0, BitVec.ofNat 8 s.trng.state.sensor, BitVec.ofNat 8 s.fm.state.code]
    ++ (List.range 16).map fun a => BitVec.ofNat 8 (s.arcade a).integ.code

def State.pldm (s : State) : PldmReq → State
  | .getTid => s.mgmtSend (Config.pldmBody 0x02 [] [])
  | .getVersion => s.mgmtSend (Config.pldmBody 0x03 [] [])
  | .getTypes => s.mgmtSend (Config.pldmBody 0x04 [] [0, 2])
  | .getCommands => s.mgmtSend (Config.pldmBody 0x05 [] [])
  | .getPdr n => s.mgmtSend (Config.pldmBody 0x51 (Bytes.ofNat 4 n) [])
  | .getSensorReading n => s.mgmtSend (Config.pldmBody 0x11 (Bytes.ofNat 2 n) s.sensorBytes)
  | .getStateSensorReadings n => s.mgmtSend (Config.pldmBody 0x21 (Bytes.ofNat 2 n) s.stateSensors)
  | .eventDone =>
    match s.mgmt.outstanding with
    | none => s
    | some n =>
      let s := s.exported n
      State.pumpEvents { s with mgmt := { s.mgmt with outstanding := none, sends := 0 } }
  | .unsupported => s.emit (.mgmtErr 5)

def execPldmRequest (r : PldmReq) (s : State) : Host.Outcome State Fault Refusal := act s.mgmtUp (fun s => s.pldm r) s

/-- SET_EVENT_RECEIVER: the export begins, or begins again after events were held. -/
def State.setReceiver (s : State) (eid : Byte) : State :=
  let s := s.mgmtSend (Config.pldmBody 0x04 [eid] [])
  State.pumpEvents { s with mgmt := { s.mgmt with receiver := some eid, holding := false, outstanding := none, sends := 0 } }

def execSetEventReceiver (eid : Byte) (s : State) : Host.Outcome State Fault Refusal := act s.mgmtUp (fun s => s.setReceiver eid) s

/-- POLL_FOR_PLATFORM_EVENT_MESSAGE: the next event goes with the answer. -/
def State.pollEvent (s : State) : State :=
  match s.nextExport with
  | none => s.mgmtSend (Config.pldmBody 0x0B [] [])
  | some (n, b) => (s.exported n).mgmtSend (Config.pldmBody 0x0B [] b)

def execPollForPlatformEventMessage (s : State) : Host.Outcome State Fault Refusal :=
  act (s.mgmtUp && s.mgmt.outstanding.isNone) State.pollEvent s

/-- PLATFORM_EVENT_TIMEOUT: the message is sent again, up to three times; then the events are held for polling. -/
def State.eventTimeout (s : State) : State :=
  if s.mgmt.sends < 4 then State.mgmtSend { s with mgmt := { s.mgmt with sends := s.mgmt.sends + 1, sentAt := s.now } } s.mgmt.message
  else { s with mgmt := { s.mgmt with outstanding := none, sends := 0, holding := true } }

def execPlatformEventTimeout (s : State) : Host.Outcome State Fault Refusal :=
  act (s.mgmtUp && s.mgmt.outstanding.isSome && decide (s.mgmt.sentAt + 100000000 ≤ s.now)) State.eventTimeout s

/-! MCTP control (R468) and the I3C target (R467). -/

/-- The message types of the endpoint: control, PLDM, SPDM. -/
def mctpTypes : Bytes := [0, 1, 5]

def State.mctp (s : State) : MctpCtl → State
  | .setEndpointId eid => State.mgmtSend { s with mgmt := { s.mgmt with eid := some eid } } (Config.pldmBody 0x101 [eid] [])
  | .getEndpointId => s.mgmtSend (Config.pldmBody 0x102 [] [s.mgmt.eid.getD 0])
  | .getVersionSupport => s.mgmtSend (Config.pldmBody 0x104 [] [])
  | .getMessageTypes => s.mgmtSend (Config.pldmBody 0x105 [] mctpTypes)

def execMctpControl (c : MctpCtl) (s : State) : Host.Outcome State Fault Refusal := act s.mctpUp (fun s => s.mctp c) s

/-- A common command (R467). The target takes an address only where it has none; SETDASA needs its static address. -/
def State.ccc (s : State) (c : Ccc) : State :=
  let m := s.mgmt
  let answer (s : State) (ok : Bool) (b : Bytes) : State := s.emit (.i3c ok b)
  let here := m.i3cAddr != 0
  let read (n : Nat) (b : Bytes) : State := if here then answer s true (Config.i3cBody n b) else answer s false []
  match c with
  | .enec b => answer { s with mgmt := { m with i3cEvents := m.i3cEvents ||| b } } true []
  | .disec b => answer { s with mgmt := { m with i3cEvents := m.i3cEvents &&& ~~~b } } true []
  | .rstdaa => answer { s with mgmt := { m with i3cAddr := 0 } } true []
  | .entdaa a => if here then answer s false [] else answer { s with mgmt := { m with i3cAddr := a } } true (Config.i3cBody 0x07 [])
  | .setdasa st dyn =>
    if !here && st != 0 && st == s.top.straps.i3cAddr then answer { s with mgmt := { m with i3cAddr := dyn } } true []
    else answer s false []
  | .getpid => read 0x8D []
  | .getbcr => read 0x8E []
  | .getdcr => read 0x8F []
  | .getstatus => read 0x90 [m.i3cEvents]
  | .getmwl => read 0x8B (Bytes.ofNat 2 m.mwl.toNat)
  | .getmrl => read 0x8C (Bytes.ofNat 2 m.mrl.toNat)
  | .setmwl n => if here then answer { s with mgmt := { m with mwl := n } } true [] else answer s false []
  | .setmrl n => if here then answer { s with mgmt := { m with mrl := n } } true [] else answer s false []

/-- I3C_CCC: the target answers from the end of boot step 1. -/
def execI3cCcc (c : Ccc) (s : State) : Host.Outcome State Fault Refusal := act (!s.top.blkRst) (fun s => s.ccc c) s

end Sys2Proof.Machine
end

