-- ==== Sys2Proof/Machine/Registers.lean ====
section
/-! DEFINITION. The registers as the buses see them: writes at T0 and in the FC register space under their access codes
(R7, R230, R233, R448, R480, R481, R498), and what a T0 read of any address returns (chapter "Register reference"). -/

namespace Sys2Proof.Machine

/-! Where a T0 address falls (R230). -/

/-- The window of a T0 address, 64 for the operator window and 65 for the management window, and the offset in it. -/
def t0Place (addr : Nat) : Option (Nat × Nat) :=
  let w := addr / 0x10000
  if w ≤ 65 then some (w, addr % 0x10000) else none

/-! Bits of a register. -/

def bitAt (n : Nat) (b : Bool) : Nat := if b then 2 ^ n else 0

/-- A flag that a write of 1 clears (R7). -/
def w1c (data : Word) (n : Nat) (flag : Bool) : Bool := flag && !data.getLsbD n

/-! T0 writes. -/

/-- VI_CMD_CTRL: post acts before flush where one write sets both (R237, log entry 35). -/
def CmdSlot.ctrl (c : CmdSlot) (data : Word) : CmdSlot :=
  let c := if data.getLsbD 0 then c.post else c
  if data.getLsbD 1 then c.flush else c

/-- Writes of the operator's own registers (R485): the flags of R394, R420 and R441, and PZ_OMAP_SEL. -/
def State.operatorWrite (s : State) (off : Nat) (data : Word) : State :=
  if off = 0x3000 then
    { s with health := { s.health with
      corrected := w1c data 0 s.health.corrected, session := w1c data 1 s.health.session
      integrity := w1c data 2 s.health.integrity, unit := w1c data 3 s.health.unit
      fc := w1c data 4 s.health.fc, lost := w1c data 5 s.health.lost } }
  else if off = 0x3120 then
    { s with pm := { s.pm with kerbFlags := s.pm.kerbFlags &&& ~~~(data.setWidth 8) } }
  else if off = 0x3210 then
    { s with fm := { s.fm with
      nakFlag := w1c data 0 s.fm.nakFlag, linkDownFlag := w1c data 1 s.fm.linkDownFlag
      lostFlag := w1c data 2 s.fm.lostFlag, authFlag := w1c data 3 s.fm.authFlag, aliveFlag := w1c data 4 s.fm.aliveFlag } }
  else if off = 0x6000 then { s with pz := { s.pz with omapSel := data.setWidth 7 } }
  else s

/-- A write in a VI window or the operator window, after READY (R233, R483, R485). A write to an RO, HC or RWL field, or to an
offset with no register, changes nothing (R7, R480, R481). -/
def State.windowWrite (s : State) (w off : Nat) (data : Word) (strb : BitVec 8) : State :=
  if off < 0x40 then s.onSlotOf w fun c => c.writePkt off data strb
  else if off = 0x40 then s.onSlotOf w fun c => c.ctrl data
  else if off = 0x48 then
    s.onSlotOf w fun c => { c with postRefused := w1c data 8 c.postRefused, lateWrite := w1c data 9 c.lateWrite }
  else if off = 0x50 then s.onSlotOf w fun c => c.append (strobed data strb)
  else if off = 0x1000 then
    s.onWin w fun x => { x with
      errRecord := w1c data 0 x.errRecord, errSession := w1c data 1 x.errSession, errDegraded := w1c data 2 x.errDegraded }
  else if off = 0x1008 then s.onWin w fun x => { x with sessSel := data.setWidth 14 }
  else if off = 0x1020 then s.ckptFree w data
  else if off = 0x1028 then s.onWin w fun x => { x with freeBad := w1c data 0 x.freeBad }
  else if w = 64 then s.operatorWrite off data
  else s

/-- A T0 write (R447, R448). -/
def State.t0Write (s : State) (addr : Nat) (data : Word) (strb : BitVec 8) : State :=
  match t0Place (addr / 8 * 8) with
  | none => s.emit .busError
  | some (w, off) =>
    if w = 65 then s.emit .busError
    else if strb != 0xFF && off != 0x50 then s.emit .busError
    else if s.boot.step != 12 then s
    else s.windowWrite w off data strb

/-! Writes in the FC register space (R498). -/

/-- The W1S bits of DE_CTXn_CTRL act in the order of their places (R333). A key comes from FC SRAM, or from KREG as it stands (log entry
19). -/
def State.ctxCtrlWrite (s : State) (n : Nat) (data : Word) : State :=
  let s := s.onCtx n fun c => { c with reg := ctrlKept data }
  let s := if data.getLsbD 10 then s.deOpen n data none else s
  let s := if data.getLsbD 11 && (s.ctx n).state == .opened then s.deFinal n false else s
  let s := if data.getLsbD 12 then s.deExport n else s
  let s := if data.getLsbD 13 && (s.ctx n).state == .free then s.deImport n else s
  if data.getLsbD 14 then s.deFree n else s

/-- A write at an offset of the FC register space. R498 gives 0xC00 to KM_KS_ATTR32 and to KM_KREG_STATUS: a write there goes to the
attribute, since KM_KREG_STATUS is read only (DESIGN CHOICE; log entry 112). -/
def State.fcWrite (s : State) (off : Nat) (data : Word) : State :=
  if off < 0x600 then
    let n := off / 0x100
    let r := off % 0x100
    if r = 0 then s.ctxCtrlWrite n data
    else if 0x50 ≤ r ∧ r < 0x90 then s.onCtx n fun c => { c with expect := Tab.set 0 c.expect ((r - 0x50) / 8) data }
    else s
  else if off = 0x800 then s.pkeSubmit (Bits.get data.toNat 0 19)
  else if off = 0x808 then { s with pke := { s.pke with submitFull := w1c data 6 s.pke.submitFull } }
  else if off = 0x900 then
    { s with trng := { s.trng with rctFail := w1c data 2 s.trng.rctFail, aptFail := w1c data 3 s.trng.aptFail } }
  else if off = 0xA00 then { s with health := { s.health with fcKick := s.now } }
  else if off = 0xA08 then
    let s := if data.getLsbD 0 && s.boot.step == 4 then s.setRomLock else s
    if data.getLsbD 1 && s.boot.step == 6 then s.setBl1Lock else s
  else if 0xB00 ≤ off ∧ off < 0xD00 then
    s.onKeySlot ((off - 0xB00) / 8) fun k => { k with attr := attrWrite k.attr data }
  else s

/-- REGISTER_WRITE (R7): a write on the T0 port, by an FC-world master, or into a context's input window (R328). -/
def State.registerWrite (s : State) (bus : RegBus) (data : Word) : State :=
  match bus with
  | .t0 addr strb => s.t0Write addr.toNat data strb
  | .fc off => s.fcWrite (off.toNat / 8 * 8) data
  | .deInput cx => s.deInput cx.val data

/-- The write is possible: the T0 port answers outside a reset (R448), and the FC register space has a master while
firmware runs. -/
def State.busUp (s : State) (bus : RegBus) : Bool :=
  match bus with
  | .t0 _ _ => !s.top.blkRst
  | _ => s.boot.step != 0

def execRegisterWrite (bus : RegBus) (data : Word) (s : State) : Host.Outcome State Fault Refusal :=
  act (s.busUp bus) (fun s => s.registerWrite bus data) s

/-! T0 reads. No row of the table is a read; these are what each register shows. -/

def SlotState.code : SlotState → Nat
  | .idle => 0 | .posted => 1 | .closed => 2 | .running => 3

/-- VI_CMD_STATUS (R237). -/
def CmdSlot.status (c : CmdSlot) : Nat :=
  c.state.code + bitAt 2 c.behind.isSome + c.replyHead.toNat * 2 ^ 4 + bitAt 8 c.postRefused + bitAt 9 c.lateWrite
    + c.postRefusedCnt.toNat * 2 ^ 16 + c.lateWriteCnt.toNat * 2 ^ 24 + min 1023 c.appended * 2 ^ 32 + c.replyCount.toNat * 2 ^ 48

/-- VI_INFO (R247). -/
def State.viInfo (s : State) (w : Nat) : Nat :=
  let x := s.window w
  (if w < 64 then w else 2 ^ 7) + bitAt 6 x.isOpen + x.gen % 4 * 2 ^ 8 + x.msgMinor % 256 * 2 ^ 16 + x.msgMajor % 256 * 2 ^ 24
    + bitAt 32 s.degradedNow + bitAt 33 s.health.fcRestarting

/-- VI_STAGE_STATUS (R261). -/
def State.stageStatus (s : State) (w : Nat) : Nat :=
  let b := s.bank w
  let x := s.window w
  let isWrite (i : BankItem) : Bool := match i with
    | .write _ _ => true
    | _ => false
  let isPlan (i : BankItem) : Bool := match i with
    | .plan _ => true
    | _ => false
  (if b.items.isEmpty then 0 else if b.armed.isSome then 2 else 1) + bitAt 2 (b.items.any isPlan)
    + x.lastStatus % 256 * 2 ^ 8 + x.lastDetail % 256 * 2 ^ 16 + (b.items.filter isWrite).length * 2 ^ 24
    + x.lastEpoch % 2 ^ 29 * 2 ^ 35

/-- A word of the reply ring (R242). -/
def CmdSlot.replyWord (c : CmdSlot) (off : Nat) : Nat := Bytes.num (Tab.get [] c.replies (off / 32)) (off % 32) 8

/-- VI_ERR_STATUS (R395). -/
def Window.errStatus (x : Window) : Nat :=
  bitAt 0 x.errRecord + bitAt 1 x.errSession + bitAt 2 x.errDegraded + x.errRecordCnt.toNat * 2 ^ 8
    + x.errSessionCnt.toNat * 2 ^ 16 + x.errDegradedCnt.toNat * 2 ^ 24 + x.lastRec.toNat * 2 ^ 32

/-- The effective fraction of a session, the highest of its streams and models (R205; log entry 36). -/
def State.sessFraction (s : State) (sc : Nat) : Nat := (s.sessFractions sc).foldl max 0

/-- VI_SESS_INFO (R486). -/
def State.sessInfo (s : State) (w : Nat) : Nat :=
  let sc := (s.window w).sessSel.toNat
  if s.visible w sc then
    let x := s.session sc
    sc + 2 ^ 14 + x.state.code * 2 ^ 16 + bitAt 19 x.conf + s.sessFraction sc % 8 * 2 ^ 20 + x.keyxGen.toNat * 2 ^ 32
      + x.planGen.toNat * 2 ^ 48
  else 0

/-- Cuts of a session queued and not yet written (R487). -/
def State.cutsQueued (s : State) (sc : Nat) : Nat :=
  min 65535 ((s.cuts.filter fun c => c.session == sc).length + (s.cutWait.filter fun c => c.1 == sc).length)

/-- The checkpoint registers (R487), and the counters of R488, of the selected session. -/
def State.ckptHead (s : State) (w : Nat) : Nat :=
  let sc := (s.window w).sessSel.toNat
  if s.visible w sc then (s.session sc).written.toNat + s.cutsQueued sc * 2 ^ 32 else 0

def State.ckptFreed (s : State) (w : Nat) : Nat :=
  let sc := (s.window w).sessSel.toNat
  if s.visible w sc then (s.session sc).freed.toNat else 0

def State.ckptStatus (s : State) (w : Nat) : Nat :=
  let x := s.window w
  let sc := x.sessSel.toNat
  bitAt 0 x.freeBad + x.freeBadCnt.toNat * 2 ^ 8 + bitAt 16 (s.visible w sc && (s.session sc).ringFull)

/-- A performance counter as it reads (R488). VI_PERF1 to 7 count stall cycles, which the model has no clock for: they are
free (log entry 65). -/
def State.perfOf (s : State) (w n : Nat) : Nat :=
  let sc := (s.window w).sessSel.toNat
  if !s.visible w sc then 0
  else if 1 ≤ n ∧ n ≤ 7 then (Config.stallCount sc n s.ptu.tick).toNat
  else Tab.get 0 (s.session sc).perf n

/-- PTU_PS_STATUS (R24). -/
def Source.statusWord (c : Source) : Nat :=
  c.state.code + bitAt 3 (decide (c.omegaInt < 0)) + bitAt 4 (c.faster (cfgVmax c.cfg)) + c.errRead * 2 ^ 8
    + c.samples.toNat * 2 ^ 32

/-- A register of a phase source (R24, R484). -/
def State.sourceReg (s : State) (w n r : Nat) : Nat :=
  if w = 64 || (s.held w).bits.getLsbD (32 + n) then
    let c := s.source n
    match r with
    | 0x00 => c.cfg.toNat
    | 0x08 => c.gain.toNat
    | 0x10 => c.lim.toNat
    | 0x18 => c.statusWord
    | 0x20 => c.phase.toNat
    | 0x28 => c.travelled.toNat
    | _ => 0
  else 0

/-- The port counters (R484, R489). -/
def State.siCount (s : State) (w k : Nat) : Nat :=
  let p := Tab.get {} s.si k
  if w = 64 || (s.held w).bits.getLsbD (16 + k) then
    p.unattributed.toNat + p.malformed.toNat * 2 ^ 16 + p.poisoned.toNat * 2 ^ 32 + p.tsSkew.toNat * 2 ^ 48
  else 0

def State.seCount (s : State) (w k : Nat) : Nat :=
  let p := s.sePort k
  if w = 64 || (s.held w).bits.getLsbD (20 + k) then p.records.toNat + p.held.toNat * 2 ^ 32 + p.aborted.toNat * 2 ^ 48 else 0

/-- PTU_DT_STATUS and PTU_EVT_LATE (R490). -/
def State.dtStatus (s : State) : Nat := s.ptu.dtState.code + bitAt 2 s.ptu.inputValid + s.ptu.offset.toNat * 2 ^ 32
def State.evtLate (s : State) : Nat := s.ptu.late.toNat + (s.ptu.events.filter fun e => e.2.valid).length * 2 ^ 32

/-- HL_ERR_STATUS, HL_LOG_STATUS and HL_QC_STATUS (R394, R396). -/
def Health.errStatus (h : Health) : Nat :=
  bitAt 0 h.corrected + bitAt 1 h.session + bitAt 2 h.integrity + bitAt 3 h.unit + bitAt 4 h.fc + bitAt 5 h.lost
    + h.correctedCnt.toNat * 2 ^ 8 + h.sessionCnt.toNat * 2 ^ 16 + h.integrityCnt.toNat * 2 ^ 24 + h.unitCnt.toNat * 2 ^ 32
    + h.fcCnt.toNat * 2 ^ 40 + h.lostCnt.toNat * 2 ^ 48

def Health.logStatus (h : Health) : Nat := h.ring.length + h.nextRec % 2 ^ 48 * 2 ^ 16

def QcState.code : QcState → Nat
  | .running => 0 | .restarting => 1 | .detached => 2 | .failed => 3

def State.qcStatus (s : State) : Nat :=
  ((List.range 4).map fun q => ((s.qcOf q).state.code + min 255 (s.qcOf q).crashes * 2 ^ 8) * 2 ^ (16 * q)).sum

/-- PM_STATUS, PM_UNIT_STATUS and PM_KERB_COUNT (R419, R420). -/
def State.pmStatus (s : State) : Nat :=
  let p := s.pm
  p.opp + min 511 (s.jobs.filter fun e => e.2.active && e.2.shed).length * 2 ^ 8
    + (s.streams.filter fun e => e.2.bound && e.2.shed).length * 2 ^ 17 + p.derate.toNat * 2 ^ 26 + bitAt 28 p.overCap
    + bitAt 29 (decide (1050 ≤ p.tj)) + bitAt 30 p.planeOff + p.powerDw % 2 ^ 16 * 2 ^ 32 + (BitVec.ofInt 16 p.tj).toNat * 2 ^ 48

def UnitState.code : UnitState → Nat
  | .off => 0 | .ramping => 1 | .test => 2 | .on => 3 | .waiting => 4

def State.unitStatus (s : State) : Nat :=
  ((List.range 16).map fun a => (Tab.get UnitState.off s.pm.units a).code * 2 ^ (4 * a)).sum

def Power.kerbCount (p : Power) : Nat := ((List.range 8).map fun k => (Tab.get 0 p.kerbCounts k).toNat * 2 ^ (8 * k)).sum

/-- FM_STATUS and FM_LINK_ERR (R441). -/
def State.fmStatus (s : State) : Nat :=
  let f := s.fm
  let open_ := s.streams.filter fun e => e.2.bound && !e.2.covered && (s.session e.2.session).pair == .home
  f.state.code + f.mode % 4 * 2 ^ 3 + bitAt 5 f.lower + bitAt 6 s.top.straps.fmMedium + f.lastDetail.toNat * 2 ^ 8
    + (s.inRole .home).length * 2 ^ 16 + (s.inRole .standby).length * 2 ^ 30 + min 1023 f.unpaired * 2 ^ 44
    + min 255 open_.length * 2 ^ 54

def Fumas.errStatus (f : Fumas) : Nat :=
  bitAt 0 f.nakFlag + bitAt 1 f.linkDownFlag + bitAt 2 f.lostFlag + bitAt 3 f.authFlag + bitAt 4 f.aliveFlag
    + f.nakCnt.toNat * 2 ^ 8 + f.linkDownCnt.toNat * 2 ^ 16 + f.lostCnt.toNat * 2 ^ 24 + f.authCnt.toNat * 2 ^ 32
    + f.aliveCnt.toNat * 2 ^ 40

/-- ARC_INTEG_STATUS (R192). -/
def Arcade.integStatus (c : Arcade) : Nat :=
  c.integ.code + bitAt 3 c.boost + bitAt 4 c.slowed + c.transients.toNat * 2 ^ 8 + min 10000 c.trial * 2 ^ 16
    + c.checksDone.toNat * 2 ^ 32 + min 65535 c.mismatches * 2 ^ 48

/-- PZ_SEG_STATUS (R109). -/
def SegState.code : SegState → Nat
  | .off => 0 | .test => 1 | .inService => 2 | .retired => 3

def Segment.status (g : Segment) : Nat :=
  g.state.code + min 64 ((g.spares.map fun e => e.2).foldl max 0) * 2 ^ 8 + min 4095 g.retired * 2 ^ 16 + g.ce.toNat * 2 ^ 32
    + min 65535 g.ue * 2 ^ 48

/-- An ALS region descriptor (R86). -/
def RegionState.code : RegionState → Nat
  | .empty => 0 | .loading => 1 | .measured => 2 | .broken => 3 | .retained => 4 | .scrubbing => 5

def Region.word (r : Region) : Nat :=
  r.firstRow % 256 + r.lastRow % 256 * 2 ^ 8 + r.session % 2 ^ 14 * 2 ^ 16 + r.vi % 64 * 2 ^ 30 + r.world % 4 * 2 ^ 36
    + bitAt 38 r.conf + bitAt 39 r.scratch + bitAt 40 r.shared + r.state.code * 2 ^ 41 + bitAt 44 r.second + bitAt 47 r.valid
    + r.model % 2 ^ 16 * 2 ^ 48

/-- An Ownership Map entry (R94). -/
def Scrub.code : Scrub → Nat
  | .clean => 0 | .dirty => 1 | .scrubbing => 2 | .retired => 3

def OmapEntry.word (e : OmapEntry) : Nat :=
  e.session.toNat + e.vi.toNat * 2 ^ 14 + e.world.toNat * 2 ^ 20 + e.conf.toNat * 2 ^ 22 + bitAt 24 e.poison
    + e.scrub.code * 2 ^ 25 + bitAt 31 e.valid

/-- The aperture (R491). -/
def State.aperture (s : State) (i : Nat) : Nat :=
  let p := 512 * s.pz.omapSel.toNat + 2 * i
  (s.omapOf p).word + (s.omapOf (p + 1)).word * 2 ^ 32

/-- A result slot (R164, R165). -/
def ResultSlot.read (r : ResultSlot) (off : Nat) : Nat :=
  if off = 0 then
    bitAt 0 r.ready + bitAt 1 r.bound + min 255 r.unacked * 2 ^ 8 + r.overwritten.toNat * 2 ^ 16 + r.seqLo.toNat * 2 ^ 32
  else if off = 8 then r.acked.toNat
  else if off = 0x10 then r.missing.toNat + r.late.toNat * 2 ^ 16 + r.auth.toNat * 2 ^ 32 + r.dup.toNat * 2 ^ 48
  else if 0x20 ≤ off then Bytes.num r.record (off - 0x20) 8
  else 0

/-- The operator's registers (R485). -/
def State.operatorRead (s : State) (off : Nat) : Nat :=
  if off = 0x3000 then s.health.errStatus
  else if off = 0x3008 then s.health.logStatus
  else if off = 0x3010 then s.qcStatus
  else if off = 0x3018 then s.resetCause
  else if off = 0x3100 then s.pm.policy.toNat
  else if off = 0x3108 then s.pm.unitCtrl.toNat
  else if off = 0x3110 then s.pmStatus
  else if off = 0x3118 then s.unitStatus
  else if off = 0x3120 then s.pm.kerbFlags.toNat
  else if off = 0x3128 then s.pm.kerbCount
  else if off = 0x3130 then s.pm.kerbCfg.toNat
  else if off = 0x3200 then s.fm.pairVi.toNat
  else if off = 0x3208 then s.fmStatus
  else if off = 0x3210 then s.fm.errStatus
  else if off = 0x3300 then s.evtLate
  else if 0x3400 ≤ off ∧ off < 0x3480 then (s.arcade ((off - 0x3400) / 8)).integStatus
  else if 0x3480 ≤ off ∧ off < 0x3500 then (s.segment ((off - 0x3480) / 8)).status
  else if 0x3600 ≤ off ∧ off < 0x3800 then s.policyOf ((off - 0x3600) / 8)
  else if 0x3800 ≤ off ∧ off < 0x3A00 then s.attrRead ((off - 0x3800) / 8)
  else if off = 0x3A00 then s.kregStatus
  else if 0x4000 ≤ off ∧ off < 0x6000 then
    (Tab.get {} (s.arcade ((off - 0x4000) / 0x200)).regions (off % 0x200 / 8)).word
  else if off = 0x6000 then s.pz.omapSel.toNat
  else if 0x6800 ≤ off ∧ off < 0x7000 then s.aperture ((off - 0x6800) / 8)
  else 0

/-- A register of a VI window or the operator window (R233, R483). -/
def State.windowRead (s : State) (w off : Nat) : Nat :=
  let x := s.window w
  let c := x.slot
  if off < 0x40 then Bytes.num c.pkt off 8
  else if off = 0x40 then bitAt 0 (c.state != .idle)
  else if off = 0x48 then c.status
  else if off = 0x58 then s.viInfo w
  else if off = 0x60 then s.epoch
  else if off = 0x68 then s.stageStatus w
  else if off = 0x80 then (s.held w).bits.toNat
  else if 0x88 ≤ off ∧ off < 0xA8 then Bits.get (s.held w).cs.toNat (8 * (off - 0x88)) 64
  else if 0x100 ≤ off ∧ off < 0x300 then c.replyWord (off - 0x100)
  else if off = 0x1000 then x.errStatus
  else if off = 0x1008 then x.sessSel.toNat
  else if off = 0x1010 then s.sessInfo w
  else if off = 0x1018 then s.ckptHead w
  else if off = 0x1020 then s.ckptFreed w
  else if off = 0x1028 then s.ckptStatus w
  else if 0x1100 ≤ off ∧ off < 0x1180 then s.perfOf w ((off - 0x1100) / 8)
  else if 0x2000 ≤ off ∧ off < 0x2400 then s.sourceReg w ((off - 0x2000) / 0x40) (off % 0x40)
  else if 0x2480 ≤ off ∧ off < 0x24A0 then s.siCount w ((off - 0x2480) / 8)
  else if 0x24A0 ≤ off ∧ off < 0x24C0 then s.seCount w ((off - 0x24A0) / 8)
  else if off = 0x2500 then s.now
  else if off = 0x2508 then s.dtStatus
  else if 0x8000 ≤ off then (Tab.get {} s.results (64 * w + (off - 0x8000) / 0x200)).read (off % 0x200)
  else if w = 64 then s.operatorRead off
  else 0

/-- FC_MR_STATUS (R349). -/
def Boot.mrStatus (b : Boot) : Nat :=
  bitAt 0 b.mrLock + b.bootLog.length * 2 ^ 8 + b.runtimeEvents % 2 ^ 16 * 2 ^ 16 + bitAt 32 b.runtimeTrunc

/-- The management window (R492): readable from the end of boot step 1. -/
def State.mgmtRead (s : State) (off : Nat) : Nat :=
  if off = 0x00 then 0x0200_0001_5302
  else if off = 0x08 then Bytes.num s.serial 0 8
  else if off = 0x10 then Bytes.num s.serial 8 8
  else if off = 0x18 then s.lcStatus
  else if off = 0x20 then Bytes.num (Bytes.big s.lc.challenge) 0 8
  else if off = 0x28 then Bytes.num (Bytes.big s.lc.challenge) 8 8
  else if off = 0x40 then s.boot.status
  else if off = 0x48 then s.boot.held.toNat + s.boot.failed.toNat * 2 ^ 32
  else if off = 0x80 then s.boot.mrStatus
  else if 0x100 ≤ off ∧ off < 0x280 then
    Bytes.num (Bytes.big (Tab.get 0 s.boot.mr ((off - 0x100) / 0x30))) ((off - 0x100) % 0x30) 8
  else if off = 0x300 then s.health.errStatus
  else if off = 0x308 then s.health.logStatus
  else if off = 0x310 then s.qcStatus
  else if off = 0x318 then s.resetCause
  else if off = 0x400 then s.pmStatus
  else if off = 0x408 then s.unitStatus
  else if off = 0x410 then s.pm.kerbFlags.toNat
  else if off = 0x418 then s.pm.kerbCount
  else if off = 0x500 then s.fmStatus
  else 0

/-- The actions of DE_CTXn_CTRL that are not complete (R7): an opening, or a result, that waits for KREG (R321). -/
def State.ctxWaits (s : State) (n : Nat) : Nat :=
  (if s.keys.kregWaiting.any fun l => l.opens.any fun x => x.1 == n then 2 ^ 10 else 0) + (if (s.ctx n).state == .finals then 2 ^ 11 else 0)

/-- A read at an offset of the FC register space (R7, R498). DE_CTXn_EXPECT reads as it was written; PKE_SUBMIT and FC_WDOG are write
only. A result is read where dest is READ (R330). KM_KREG_STATUS reads at 0xC00, where KM_KS_ATTR32 is only written; it reads in the
operator window (DESIGN CHOICE; log entry 112). -/
def State.fcRead (s : State) (off : Nat) : Nat :=
  if off < 0x600 then
    let c := s.ctx (off / 0x100)
    let r := off % 0x100
    if r = 0 then c.reg.toNat + s.ctxWaits (off / 0x100)
    else if r = 8 then c.status
    else if 0x10 ≤ r ∧ r < 0x50 then (if c.state == .done && ctrlDest c.ctrl == 0 then Bytes.num c.result (r - 0x10) 8 else 0)
    else if 0x50 ≤ r ∧ r < 0x90 then (Tab.get 0 c.expect ((r - 0x50) / 8)).toNat
    else 0
  else if off = 0x808 then s.pke.statusWord
  else if off = 0x900 then s.trngStatus
  else if off = 0xA08 then bitAt 0 s.boot.romLock + bitAt 1 s.boot.bl1Lock
  else if off = 0xC00 then s.kregStatus
  else if 0xB00 ≤ off ∧ off < 0xD00 then s.attrRead ((off - 0xB00) / 8)
  else 0

/-- What a T0 read of an address returns: none for an error response (R448). -/
def State.t0Read (s : State) (addr : Nat) : Option Word :=
  match t0Place (addr / 8 * 8) with
  | none => none
  | some (w, off) =>
    if w = 65 then some (BitVec.ofNat 64 (s.mgmtRead off))
    else if s.boot.step != 12 then some 0
    else some (BitVec.ofNat 64 (s.windowRead w off))

/-- The block toggles fm_alive_out (R429): it can still release a record. The pin's 50 ns period is a matter of time only. -/
def State.aliveOut (s : State) : Bool := s.live && s.boot.step == 12

/-- The word that JTAG IDCODE reads (R469). -/
def State.idcode (s : State) : BitVec 32 := (0x1 : BitVec 4) ++ (0x5302 : BitVec 16) ++ s.top.straps.jtagMfr ++ (1 : BitVec 1)

/-- What a read of the JTAG lifecycle port returns (R312): the state, the device serial and LC_CHALLENGE. -/
def State.lifecyclePortRead (s : State) : Bytes := BitVec.ofNat 8 s.lc.state :: (s.serial ++ Bytes.big s.lc.challenge)

/-- The debug gate passes a JTAG instruction (R312, R469); every other code is BYPASS, and BYPASS passes. -/
def State.jtagPasses (s : State) (code : Nat) : Bool :=
  if code = 0x11 then s.lc.state ≤ 1
  else if 0x20 ≤ code ∧ code ≤ 0x23 then s.lc.openScopes.getLsbD (code - 0x20)
  else if code = 0x30 then s.lc.openScopes.getLsbD 4
  else true

end Sys2Proof.Machine
end

