-- ==== Sys2Proof/Machine/Dispatch.lean ====
section
/-! DEFINITION. One arm per command: the meaning it calls, or a refusal by the row's name. -/

namespace Sys2Proof.Machine

/-- The effect of a command on everything but the queue. -/
def exec (i : Instr) (s : State) : Host.Outcome State Fault Refusal :=
  match i with
  | .viOpen w => Sys2Proof.Machine.execViOpen w s
  | .viClose w => Sys2Proof.Machine.execViClose w s
  | .sessionOpen w => Sys2Proof.Machine.execSessionOpen w s
  | .sessionKeyx w hdr req => Sys2Proof.Machine.execSessionKeyx w hdr req s
  | .sessionClose w => Sys2Proof.Machine.execSessionClose w s
  | .leaseTake w => Sys2Proof.Machine.execLeaseTake w s
  | .leaseDrop w => Sys2Proof.Machine.execLeaseDrop w s
  | .planLoad w img => Sys2Proof.Machine.execPlanLoad w img s
  | .weightsLoad w img => Sys2Proof.Machine.execWeightsLoad w img s
  | .measure w u => Sys2Proof.Machine.execMeasure w u s
  | .streamBind w => Sys2Proof.Machine.execStreamBind w s
  | .stageWrite w => Sys2Proof.Machine.execStageWrite w s
  | .stageCheck w => Sys2Proof.Machine.execStageCheck w s
  | .stageCommitAt w => Sys2Proof.Machine.execStageCommitAt w s
  | .jobSubmit w inputs => Sys2Proof.Machine.execJobSubmit w inputs s
  | .jobCheckpoint w writeErr u => Sys2Proof.Machine.execJobCheckpoint w writeErr u s
  | .jobResume w blob inputs => Sys2Proof.Machine.execJobResume w blob inputs s
  | .abort w => Sys2Proof.Machine.execAbort w s
  | .resultAck w => Sys2Proof.Machine.execResultAck w s
  | .integritySet w => Sys2Proof.Machine.execIntegritySet w s
  | .evidenceGet w => Sys2Proof.Machine.execEvidenceGet w s
  | .receiptCheckpoint w => Sys2Proof.Machine.execReceiptCheckpoint w s
  | .fwInfo w => Sys2Proof.Machine.execFwInfo w s
  | .fwStage w img flashErr => Sys2Proof.Machine.execFwStage w img flashErr s
  | .errlogRead w => Sys2Proof.Machine.execErrlogRead w s
  | .keyDestroy w stuck => Sys2Proof.Machine.execKeyDestroy w stuck s
  | .lifecycleRequest w tok stuck => Sys2Proof.Machine.execLifecycleRequest w tok stuck s
  | .debugUnlock w tok => Sys2Proof.Machine.execDebugUnlock w tok s
  | .pairJoin w => Sys2Proof.Machine.execPairJoin w s
  | .provisionOwner w tok stuck => Sys2Proof.Machine.execProvisionOwner w tok stuck s
  | .revoke w tok stuck => Sys2Proof.Machine.execRevoke w tok stuck s
  | .provisionFleet w tok stuck => Sys2Proof.Machine.execProvisionFleet w tok stuck s
  | .post w => Sys2Proof.Machine.execPost w s
  | .flush w => Sys2Proof.Machine.execFlush w s
  | .paramAppend w data strb => Sys2Proof.Machine.execParamAppend w data strb s
  | .ckptFreeWrite w data => Sys2Proof.Machine.execCkptFreeWrite w data s
  | .registerWrite bus data => Sys2Proof.Machine.execRegisterWrite bus data s
  | .deOpen cx ctrl stores slot => Sys2Proof.Machine.execDeOpen cx ctrl stores slot s
  | .deFinal cx fault => Sys2Proof.Machine.execDeFinal cx fault s
  | .deExport cx => Sys2Proof.Machine.execDeExport cx s
  | .deImport cx stores => Sys2Proof.Machine.execDeImport cx stores s
  | .deFree cx => Sys2Proof.Machine.execDeFree cx s
  | .pkeSubmit off stores => Sys2Proof.Machine.execPkeSubmit off stores s
  | .pkeJobStart slot stores => Sys2Proof.Machine.execPkeJobStart slot stores s
  | .pkeYieldPoint => Sys2Proof.Machine.execPkeYieldPoint s
  | .pkeJobEnd fault => Sys2Proof.Machine.execPkeJobEnd fault s
  | .fcWdogKick => Sys2Proof.Machine.execFcWdogKick s
  | .qcWdogKick q => Sys2Proof.Machine.execQcWdogKick q s
  | .romLock => Sys2Proof.Machine.execRomLock s
  | .bl1Lock => Sys2Proof.Machine.execBl1Lock s
  | .ptuTick => Sys2Proof.Machine.execPtuTick s
  | .phaseSample src word parityOk => Sys2Proof.Machine.execPhaseSample src word parityOk s
  | .sourceTimeout src => Sys2Proof.Machine.execSourceTimeout src s
  | .coastLimitExpiry src => Sys2Proof.Machine.execCoastLimitExpiry src s
  | .dtStrobe ns valid => Sys2Proof.Machine.execDtStrobe ns valid s
  | .dtInputTimeout => Sys2Proof.Machine.execDtInputTimeout s
  | .commit e0 => Sys2Proof.Machine.execCommit e0 s
  | .inputClose e0 ctl => Sys2Proof.Machine.execInputClose e0 ctl s
  | .slotStart e0 ctl u => Sys2Proof.Machine.execSlotStart e0 ctl u s
  | .release e0 ctl recUe => Sys2Proof.Machine.execRelease e0 ctl recUe s
  | .checkWindow e0 => Sys2Proof.Machine.execCheckWindow e0 s
  | .notify e0 => Sys2Proof.Machine.execNotify e0 s
  | .epochBoundary => Sys2Proof.Machine.execEpochBoundary s
  | .dispatchTick => Sys2Proof.Machine.execDispatchTick s
  | .powerStepBoundary p => Sys2Proof.Machine.execPowerStepBoundary p s
  | .ingressFrame port f => Sys2Proof.Machine.execIngressFrame port f s
  | .inputWrite cs => Sys2Proof.Machine.execInputWrite cs s
  | .recordReady cs k ue => Sys2Proof.Machine.execRecordReady cs k ue s
  | .recordLeaves cs => Sys2Proof.Machine.execRecordLeaves cs s
  | .heldRecordLeaves cs => Sys2Proof.Machine.execHeldRecordLeaves cs s
  | .checkpointWrite writeErr => Sys2Proof.Machine.execCheckpointWrite writeErr s
  | .jobRecordWrite job writeErr => Sys2Proof.Machine.execJobRecordWrite job writeErr s
  | .msgSend ready => Sys2Proof.Machine.execMsgSend ready s
  | .nop a => Sys2Proof.Machine.execNop a s
  | .tile a u => Sys2Proof.Machine.execTile a u s
  | .out a u => Sys2Proof.Machine.execOut a u s
  | .seta a => Sys2Proof.Machine.execSeta a s
  | .loop a => Sys2Proof.Machine.execLoop a s
  | .endl a => Sys2Proof.Machine.execEndl a s
  | .send a u => Sys2Proof.Machine.execSend a u s
  | .comb a u => Sys2Proof.Machine.execComb a u s
  | .signal a => Sys2Proof.Machine.execSignal a s
  | .wait a => Sys2Proof.Machine.execWait a s
  | .move a u => Sys2Proof.Machine.execMove a u s
  | .bound a => Sys2Proof.Machine.execBound a s
  | .tend a u => Sys2Proof.Machine.execTend a u s
  | .partArrival a rdesc part => Sys2Proof.Machine.execPartArrival a rdesc part s
  | .waitTimeout a => Sys2Proof.Machine.execWaitTimeout a s
  | .combTimeout a => Sys2Proof.Machine.execCombTimeout a s
  | .sessionFaultAbort sc => Sys2Proof.Machine.execSessionFaultAbort sc s
  | .queuedSlotStart a => Sys2Proof.Machine.execQueuedSlotStart a s
  | .bulkResume a => Sys2Proof.Machine.execBulkResume a s
  | .captureDone a u => Sys2Proof.Machine.execCaptureDone a u s
  | .checkStart a => Sys2Proof.Machine.execCheckStart a s
  | .checkComplete a u => Sys2Proof.Machine.execCheckComplete a u s
  | .refereeComplete a u => Sys2Proof.Machine.execRefereeComplete a u s
  | .repeatComplete a u => Sys2Proof.Machine.execRepeatComplete a u s
  | .dualCompare cs u => Sys2Proof.Machine.execDualCompare cs u s
  | .dualRefereeComplete cs u => Sys2Proof.Machine.execDualRefereeComplete cs u s
  | .shadowRunComplete a u => Sys2Proof.Machine.execShadowRunComplete a u s
  | .zeroiseDone unit als => Sys2Proof.Machine.execZeroiseDone unit als s
  | .patrol unit als hits => Sys2Proof.Machine.execPatrol unit als hits s
  | .omapScrub slice entry e0 => Sys2Proof.Machine.execOmapScrub slice entry e0 s
  | .fcWdogExpiry => Sys2Proof.Machine.execFcWdogExpiry s
  | .qcWdogExpiry q => Sys2Proof.Machine.execQcWdogExpiry q s
  | .laneWdogExpiry l => Sys2Proof.Machine.execLaneWdogExpiry l s
  | .fcCrash trap => Sys2Proof.Machine.execFcCrash trap s
  | .qcCrash q trap codeUe => Sys2Proof.Machine.execQcCrash q trap codeUe s
  | .fcRestartDone upset errs => Sys2Proof.Machine.execFcRestartDone upset errs s
  | .qcReattach q flashErr => Sys2Proof.Machine.execQcReattach q flashErr s
  | .qcDetachExpiry q => Sys2Proof.Machine.execQcDetachExpiry q s
  | .qcActivate q flashErr => Sys2Proof.Machine.execQcActivate q flashErr s
  | .blockResetRequest e0 => Sys2Proof.Machine.execBlockResetRequest e0 s
  | .por s0 => Sys2Proof.Machine.execPor s0 s
  | .sysRst => Sys2Proof.Machine.execSysRst s
  | .bootStepDone b => Sys2Proof.Machine.execBootStepDone b s
  | .fwAck ok errs => Sys2Proof.Machine.execFwAck ok errs s
  | .firewallTimeout errs => Sys2Proof.Machine.execFirewallTimeout errs s
  | .hello => Sys2Proof.Machine.execHello s
  | .speed h code => Sys2Proof.Machine.execSpeed h code s
  | .loadBegin h component dest length => Sys2Proof.Machine.execLoadBegin h component dest length s
  | .data h offset bytes => Sys2Proof.Machine.execData h offset bytes s
  | .loadEnd h flashErr stuck => Sys2Proof.Machine.execLoadEnd h flashErr stuck s
  | .activate h slot => Sys2Proof.Machine.execActivate h slot s
  | .reboot h => Sys2Proof.Machine.execReboot h s
  | .lifecyclePortRequest target value stuck => Sys2Proof.Machine.execLifecyclePortRequest target value stuck s
  | .fusePortWrite word bits stuck => Sys2Proof.Machine.execFusePortWrite word bits stuck s
  | .trngBlock raw => Sys2Proof.Machine.execTrngBlock raw s
  | .drbgReseed => Sys2Proof.Machine.execDrbgReseed s
  | .kregTimeout => Sys2Proof.Machine.execKregTimeout s
  | .kerbSample k => Sys2Proof.Machine.execKerbSample k s
  | .planeReturn tests => Sys2Proof.Machine.execPlaneReturn tests s
  | .domainGood d => Sys2Proof.Machine.execDomainGood d s
  | .readmissionStart unit => Sys2Proof.Machine.execReadmissionStart unit s
  | .pwrWarn => Sys2Proof.Machine.execPwrWarn s
  | .pwrWarnClear => Sys2Proof.Machine.execPwrWarnClear s
  | .flitReceived flit => Sys2Proof.Machine.execFlitReceived flit s
  | .nak ack => Sys2Proof.Machine.execNak ack s
  | .linkDown => Sys2Proof.Machine.execLinkDown s
  | .idle => Sys2Proof.Machine.execIdle s
  | .notice h code => Sys2Proof.Machine.execNotice h code s
  | .ctx h sc st conf vi keyxGen => Sys2Proof.Machine.execCtx h sc st conf vi keyxGen s
  | .key h sc epoch value => Sys2Proof.Machine.execKey h sc epoch value s
  | .resv h sc origin seq rseq => Sys2Proof.Machine.execResv h sc origin seq rseq s
  | .foldMsg h sc rseq tag time void => Sys2Proof.Machine.execFoldMsg h sc rseq tag time void s
  | .cmp h cs seq payload flags sigs hdr => Sys2Proof.Machine.execCmp h cs seq payload flags sigs hdr s
  | .sig h sc span s0 => Sys2Proof.Machine.execSig h sc span s0 s
  | .part h rdesc p rows digest => Sys2Proof.Machine.execPart h rdesc p rows digest s
  | .state h sc buffer lines => Sys2Proof.Machine.execState h sc buffer lines s
  | .cut h sc ckptNo rseqHigh => Sys2Proof.Machine.execCut h sc ckptNo rseqHigh s
  | .join h m => Sys2Proof.Machine.execJoin h m s
  | .partnerLost => Sys2Proof.Machine.execPartnerLost s
  | .getVersion p => Sys2Proof.Machine.execGetVersion p s
  | .getCapabilities p => Sys2Proof.Machine.execGetCapabilities p s
  | .negotiateAlgorithms p => Sys2Proof.Machine.execNegotiateAlgorithms p s
  | .getDigests p => Sys2Proof.Machine.execGetDigests p s
  | .getCertificate p slot offset length => Sys2Proof.Machine.execGetCertificate p slot offset length s
  | .challenge p slot nonce => Sys2Proof.Machine.execChallenge p slot nonce s
  | .getMeasurements p index signed nonce => Sys2Proof.Machine.execGetMeasurements p index signed nonce s
  | .setCertificate p slot pfx => Sys2Proof.Machine.execSetCertificate p slot pfx s
  | .getCsr p slot => Sys2Proof.Machine.execGetCsr p slot s
  | .pldmRequest r => Sys2Proof.Machine.execPldmRequest r s
  | .setEventReceiver eid => Sys2Proof.Machine.execSetEventReceiver eid s
  | .pollForPlatformEventMessage => Sys2Proof.Machine.execPollForPlatformEventMessage s
  | .platformEventTimeout => Sys2Proof.Machine.execPlatformEventTimeout s
  | .mctpControl c => Sys2Proof.Machine.execMctpControl c s
  | .i3cCcc c => Sys2Proof.Machine.execI3cCcc c s
  | .healthAreaRewrite => Sys2Proof.Machine.execHealthAreaRewrite s
  | .signatureWindowEnd => Sys2Proof.Machine.execSignatureWindowEnd s
  | .commandComplete w d => Sys2Proof.Machine.execCommandComplete w d s
  | .supplyRemoved => Sys2Proof.Machine.execSupplyRemoved s
  | .porNLow => Sys2Proof.Machine.execPorNLow s
  | .aliveFault => Sys2Proof.Machine.execAliveFault s
  | .jtagDebugAccess d => Sys2Proof.Machine.execJtagDebugAccess d s
  | .selfTestDone unit t => Sys2Proof.Machine.execSelfTestDone unit t s
  | .planIntervalCheckpoint job writeErr u => Sys2Proof.Machine.execPlanIntervalCheckpoint job writeErr u s
  | .checkpointWaitExpiry => Sys2Proof.Machine.execCheckpointWaitExpiry s
  | .hcCopyDisagreement r c0 c1 c2 => Sys2Proof.Machine.execHcCopyDisagreement r c0 c1 c2 s
  | .lcChallengeRead => Sys2Proof.Machine.execLcChallengeRead s

end Sys2Proof.Machine
end

