-- ==== Sys2Proof/Safety.lean ====
section
/-! DEFINITION. What claims about the machine are stated in: what a step keeps, and where a command completes. -/

namespace Sys2Proof.Machine

/-- DEVICE_DEGRADED, as the block holds it, agrees with the conditions of R393. -/
def State.Synced (s : State) : Prop := s.health.degraded = s.degradedNow

/-- Every memory of the block is in the canonical form: the Piazza, the Local Stores and their side words, the boot flash, the fuses,
the Forecourt's SRAM and the Quarters' memories. -/
def Memory.wf (s : State) : Bool :=
  Tab.wf 0 s.pz.mem && Tab.wf 0 s.flash && Tab.wf 0 s.fuses && Tab.wf 0 s.fcSram && Tab.wf 0 s.qcMem
    && s.arc.all fun e => Tab.wf 0 e.2.als && Tab.wf 0 e.2.side

/-- The command ends in a next state of which `P` holds. -/
def Reaches (c : Instr) (s : State) (P : State → Prop) : Prop := ∃ t, exec c s = .next t ∧ P t

/-- The block runs, and its DEVICE_DEGRADED bit agrees with its conditions (an invariant: Obligations.StepKeepsDegraded). -/
def State.Up (s : State) : Prop := s.live = true ∧ s.Synced

/-- The block is READY besides (R286, R287). -/
def State.Ready (s : State) : Prop := s.Up ∧ s.boot.step = 12

/-- Every other window reads as before, and in this one only the command slot may differ. -/
def State.SlotOnly (s t : State) (w : Nat) : Prop :=
  (∀ v, v ≠ w → t.window v = s.window v) ∧ t.window w = { s.window w with slot := (t.window w).slot }

/-- The command may act while the block is halted: the rows of the supply and of the resets (R397, R413, R443, R444). -/
def actsHalted : Instr → Bool
  | .por _ | .porNLow | .supplyRemoved | .pwrWarnClear => true
  | _ => false

/-- A T0 address: offset `off` of window `w` (R230). -/
def t0Addr (w off : Nat) : BitVec 32 := BitVec.ofNat 32 (w * 0x10000 + off)

/-- The offsets of a window at which a T0 write acts: mailbox registers and flags that a 1 clears (R233, R481, R483, R485). -/
def writable (w off : Nat) : Bool :=
  off < 0x58 || [0x1000, 0x1008, 0x1020, 0x1028].contains off || (w == 64 && [0x3000, 0x3120, 0x3210, 0x6000].contains off)

/-- The running Forecourt command of a window has this result, which awaits its reply (R242). -/
def State.Answers (t : State) (w : Nat) (r : Reply) : Prop := (t.window w).slot.result = some r

/-- The reply entry that a window's ring took last (R242). -/
def State.Replied (t : State) (w : Nat) (tag : BitVec 16) (opcode : Nat) (r : Reply) : Prop :=
  let c := (t.window w).slot
  Tab.get [] c.replies (c.replyHead - 1).toNat = r.bytes tag opcode c.replyCount.toNat

/-- A fresh frame of the recovery UART that ends at once: its number and STATUS are kept, and the STATUS frame goes out (R294). -/
def State.framed (s : State) (h : UartHead) (u : Uart) (st : Nat) : State :=
  { s with
    uart := { u with heard := true, lastSeq := some h.seq, lastStatus := [st, 0, 0] }
    out := .uart (uartFrame 2 h.seq ([BitVec.ofNat 8 st, 0, 0, 0] ++ Bytes.ofNat 4 0)) :: s.out }

/-- What every reset keeps and leaves (R286, R371, R444). -/
def State.ResetFrom (t s : State) : Prop :=
  t.boot = {} ∧ t.sess = [] ∧ t.win = [] ∧ t.arc = [] ∧ t.pz = {} ∧ t.keys = {} ∧ t.flash = s.flash ∧ t.fuses = s.fuses
    ∧ t.pending = s.pending

/-- An SPDM request is taken on a path: the management port serves, or the window's running SESSION_KEYX carries it and is not
refused (R206, R207, R361, R424, R468). -/
def State.Asks (s : State) : SpdmPath → Prop
  | .mgmt => s.mgmtUp = true
  | .win w => ∃ c, s.fcCmd w.val 0x11 = some c ∧ s.keyxRefusal w.val c = none

/-- The head of a message row of the pair, but for those of a join (R428). -/
def pairHead : Instr → Option LinkHead
  | .notice h _ | .ctx h _ _ _ _ _ | .key h _ _ _ | .resv h _ _ _ _ | .foldMsg h _ _ _ _ _ | .cmp h _ _ _ _ _ _ | .sig h _ _ _
  | .part h _ _ _ _ | .state h _ _ _ | .cut h _ _ _ => some h
  | _ => none

end Sys2Proof.Machine
end

