-- ==== Sys2Proof/Certificates/Slice0/Obligations.lean ====
section
/-! DEFINITION. The statements for the provers. -/

open Sys2Proof Sys2Proof.Machine

/-! The machine as a whole. -/

/-- A step with a command in front is that command's effect on the state with the queue's rest; with none waiting the block
idles (log entry 6). -/
def Obligations.StepRunsFront : Prop :=
  (∀ (c : Instr) (rest : List Instr) (s : State), s.pending = c :: rest → step s = exec c { s with pending := rest })
    ∧ ∀ s : State, s.pending = [] → step s = .next s

/-- No command adds to the queue or takes from it. -/
def Obligations.CommandsKeepQueue : Prop :=
  ∀ (c : Instr) (s t : State), exec c s = .next t → t.pending = s.pending

/-- Every command ends in a next state, on every state: none stops the machine. -/
def Obligations.NothingStops : Prop := ∀ (c : Instr) (s : State), ∃ t, exec c s = .next t

/-- The invariant: DEVICE_DEGRADED agrees with its conditions after every step. -/
def Obligations.StepKeepsDegraded : Prop := ∀ s t : State, s.Synced → step s = .next t → t.Synced

def Obligations.ResetIsSynced : Prop := State.reset.Synced

/-- A block without supply, in power-on reset or halted after a power-loss warning acts on no command but those of the supply
and the resets. -/
def Obligations.HaltedBlockIsStill : Prop :=
  ∀ (c : Instr) (s : State), s.live = false → actsHalted c = false → exec c s = .next s

/-! Registers and the command slot. -/

/-- The responses of R448: an error outside the windows, for a write in the management window and for partial strobes; an
ordinary one, with no effect, for a write where no field is writable, for a read of a write-only register, and for any access to
a window before READY. -/
def Obligations.T0Responses : Prop :=
  (∀ (s : State) (a : BitVec 32) (strb : BitVec 8) (d : Word), s.Up → s.top.blkRst = false → 0x42_0000 ≤ a.toNat →
      exec (.registerWrite (.t0 a strb) d) s = .next (s.emit .busError) ∧ s.t0Read a.toNat = none)
    ∧ (∀ (s : State) (off : Nat) (strb : BitVec 8) (d : Word), s.Up → s.top.blkRst = false → off < 0x10000 →
      exec (.registerWrite (.t0 (t0Addr 65 off) strb) d) s = .next (s.emit .busError))
    ∧ (∀ (s : State) (w off : Nat) (strb : BitVec 8) (d : Word), s.Up → s.top.blkRst = false → w ≤ 64 → off < 0x10000 →
      strb ≠ 0xFF → off / 8 ≠ 0x50 / 8 → exec (.registerWrite (.t0 (t0Addr w off) strb) d) s = .next (s.emit .busError))
    ∧ (∀ (s : State) (w off : Nat) (d : Word), s.Ready → s.top.blkRst = false → w ≤ 64 → off < 0x10000 → off % 8 = 0 →
      writable w off = false → exec (.registerWrite (.t0 (t0Addr w off) 0xFF) d) s = .next s)
    ∧ (∀ (s : State) (w : Nat), w ≤ 64 → s.t0Read (w * 0x10000 + 0x50) = some 0)
    ∧ ∀ (s : State) (w off : Nat) (d : Word), s.Up → s.top.blkRst = false → s.boot.step ≠ 12 → w ≤ 64 → off < 0x10000 →
      exec (.registerWrite (.t0 (t0Addr w off) 0xFF) d) s = .next s ∧ s.t0Read (w * 0x10000 + off) = some 0

/-- Before READY the windows of the VIs and of the operator take no write and read as zero, whichever row the write is; the
management window reads its registers. -/
def Obligations.WindowsBeforeReady : Prop :=
  ∀ (s : State) (w : Win) (off : Nat) (strb : BitVec 8) (d : Word), s.boot.step ≠ 12 → off < 0x10000 →
    exec (.post w) s = .next s ∧ exec (.flush w) s = .next s ∧ exec (.paramAppend w d strb) s = .next s
      ∧ exec (.ckptFreeWrite w d) s = .next s
      ∧ (s.Up → exec (.registerWrite (.t0 (t0Addr w.val off) 0xFF) d) s = .next s)
      ∧ s.t0Read (w.val * 0x10000 + off) = some 0
      ∧ s.t0Read (0x41_0000 + off) = some (BitVec.ofNat 64 (s.mgmtRead (off / 8 * 8)))

/-- A flag that a write of 1 clears is cleared by it and by nothing else in the write; its counter stands (R7, R380). -/
def Obligations.FlagsClearByOne : Prop :=
  ∀ (s : State) (d : Word), s.Ready → s.top.blkRst = false →
    (exec (.registerWrite (.t0 (t0Addr 64 0x3000) 0xFF) d) s = .next { s with health := { s.health with
      corrected := s.health.corrected && !d.getLsbD 0, session := s.health.session && !d.getLsbD 1
      integrity := s.health.integrity && !d.getLsbD 2, unit := s.health.unit && !d.getLsbD 3
      fc := s.health.fc && !d.getLsbD 4, lost := s.health.lost && !d.getLsbD 5 } })
    ∧ (exec (.registerWrite (.t0 (t0Addr 64 0x3120) 0xFF) d) s
        = .next { s with pm := { s.pm with kerbFlags := s.pm.kerbFlags &&& ~~~(d.setWidth 8) } })
    ∧ (exec (.registerWrite (.t0 (t0Addr 64 0x3210) 0xFF) d) s = .next { s with fm := { s.fm with
      nakFlag := s.fm.nakFlag && !d.getLsbD 0, linkDownFlag := s.fm.linkDownFlag && !d.getLsbD 1
      lostFlag := s.fm.lostFlag && !d.getLsbD 2, authFlag := s.fm.authFlag && !d.getLsbD 3
      aliveFlag := s.fm.aliveFlag && !d.getLsbD 4 } })
    ∧ ∀ w : Win, Reaches (.registerWrite (.t0 (t0Addr w.val 0x1000) 0xFF) d) s fun t =>
        t = { s with win := t.win } ∧ (∀ v, v ≠ w.val → t.window v = s.window v)
          ∧ t.window w.val = { s.window w.val with
              errRecord := (s.window w.val).errRecord && !d.getLsbD 0, errSession := (s.window w.val).errSession && !d.getLsbD 1
              errDegraded := (s.window w.val).errDegraded && !d.getLsbD 2 }

/-- The selection registers and the packet read back what was written, and nothing else changes (R235, R486, R491). -/
def Obligations.MailboxReadsBack : Prop :=
  (∀ (s : State) (w : Win) (d : Word), s.Ready → s.top.blkRst = false →
      Reaches (.registerWrite (.t0 (t0Addr w.val 0x1008) 0xFF) d) s fun t =>
        t = { s with win := t.win } ∧ (∀ v, v ≠ w.val → t.window v = s.window v)
          ∧ t.t0Read (w.val * 0x10000 + 0x1008) = some (d &&& 0x3FFF))
    ∧ (∀ (s : State) (d : Word), s.Ready → s.top.blkRst = false →
      exec (.registerWrite (.t0 (t0Addr 64 0x6000) 0xFF) d) s = .next { s with pz := { s.pz with omapSel := d.setWidth 7 } })
    ∧ ∀ (s : State) (w : Win) (k : Fin 8) (d : Word), s.Ready → s.top.blkRst = false →
      (s.window w.val).slot.state ≠ .closed → (s.window w.val).slot.pkt.length = 64 →
      Reaches (.registerWrite (.t0 (t0Addr w.val (8 * k.val)) 0xFF) d) s fun t =>
        t = { s with win := t.win } ∧ s.SlotOnly t w.val ∧ t.t0Read (w.val * 0x10000 + 8 * k.val) = some d
          ∧ (∀ j : Fin 8, j ≠ k → t.t0Read (w.val * 0x10000 + 8 * j.val) = s.t0Read (w.val * 0x10000 + 8 * j.val))

/-- The write columns of R235's table: what post does in each state of a slot. -/
def Obligations.PostByState : Prop :=
  ∀ (s : State) (w : Win), s.Ready → Reaches (.post w) s fun t =>
    t = { s with win := t.win } ∧ s.SlotOnly t w.val ∧
    let c := (s.window w.val).slot
    let d := (t.window w.val).slot
    (c.state = .idle → d = { c with state := .posted })
      ∧ (c.state = .posted ∨ c.state = .closed → d = c)
      ∧ (c.state = .running → c.behind = none → c.abortCmd = none →
          ((parsePacket c.pkt).opcode = 0x60 → d = { c with behind := some false })
          ∧ ((parsePacket c.pkt).opcode ≠ 0x60 → d = { c with postRefused := true, postRefusedCnt := c.postRefusedCnt + 1 }))

/-- Parameters are appended eight bytes at a time where the slot is IDLE or POSTED, and a write in another state is dropped and
counted; a flush discards them (R235, R237, R238). -/
def Obligations.ParametersAppendAndFlush : Prop :=
  ∀ (s : State) (w : Win) (d : Word) (strb : BitVec 8), s.Ready →
    (Reaches (.paramAppend w d strb) s fun t =>
      t = { s with win := t.win } ∧ s.SlotOnly t w.val ∧
      let c := (s.window w.val).slot
      let x := (t.window w.val).slot
      (c.state = .idle ∨ c.state = .posted →
        x = { c with params := (c.params ++ strobed d strb).take 512, appended := c.appended + 8 }
          ∧ (strobed d strb).length = 8
          ∧ ∀ i : Fin 8, (strobed d strb)[i.val]? = some (if strb.getLsbD i.val then (d >>> (8 * i.val)).setWidth 8 else 0))
        ∧ (c.state = .closed ∨ c.state = .running → x = { c with lateWrite := true, lateWriteCnt := c.lateWriteCnt + 1 }))
    ∧ Reaches (.flush w) s fun t =>
      t = { s with win := t.win } ∧ s.SlotOnly t w.val ∧
      let c := (s.window w.val).slot
      let x := (t.window w.val).slot
      (c.state = .idle ∨ c.state = .posted → x = { c with state := .idle, params := [], appended := 0 })
        ∧ (c.state = .closed ∨ c.state = .running → x = c)

/-- VI_CKPT_FREE takes a value that lies from freed up to written, for a session that the window sees; any other write is
ignored, raises free_bad and is counted (R486, R487). -/
def Obligations.CheckpointEntriesFreed : Prop :=
  ∀ (s : State) (w : Win) (d : Word), s.Ready →
    let sc := (s.window w.val).sessSel.toNat
    let x := s.session sc
    let v : BitVec 32 := d.setWidth 32
    let taken := x.state ≠ .free ∧ x.window = w.val ∧ (v - x.freed).toNat ≤ (x.written - x.freed).toNat
    Reaches (.ckptFreeWrite w d) s fun t =>
      (taken → t = { s with sess := t.sess } ∧ t.session sc = { x with freed := v }
          ∧ ∀ n, n ≠ sc → t.session n = s.session n)
        ∧ (¬ taken → t = { s with win := t.win } ∧ (∀ u, u ≠ w.val → t.window u = s.window u)
          ∧ t.window w.val = { s.window w.val with freeBad := true, freeBadCnt := (s.window w.val).freeBadCnt + 1 })

/-! The host opcodes of R249. -/

/-- VI_OPEN of a window that is closed and enabled, in a message version that the block speaks: the window opens in the
generation of its packet, every register of the window takes its reset value but for those that the command itself sets, its
result slots read zero, and nothing else changes (R482). -/
def Obligations.ViOpens : Prop :=
  ∀ (s : State) (w : Win) (c : Cmd), s.Up → s.fcCmd w.val 0x01 = some c → (s.window w.val).isOpen = false →
    (w.val < 64 → polEnable (s.policyOf w.val) = true) → (c.u 16 1 = 1 ∨ c.u 16 1 = 2) →
    Reaches (.viOpen w) s fun t =>
      t = { s with win := t.win, results := t.results } ∧ (∀ v, v ≠ w.val → t.window v = s.window v) ∧
      let minor := min (c.u 17 1) (if c.u 16 1 = 1 then 4 else 2)
      let old := (s.window w.val).slot
      t.window w.val = {
          isOpen := true, gen := if c.g1 then 1 else 2, msgMajor := c.u 16 1, msgMinor := minor
          vector := BitVec.ofNat 16 (c.u 18 2), driver := BitVec.ofNat 64 (c.u 24 8)
          slot := { state := .running, running := some c, begun := true, behind := old.behind, behindPkt := old.behindPkt
                    abortCmd := old.abortCmd, result := some (.ok (c.u 16 1 * 256 + minor)) } }
        ∧ (∀ n : Fin 64, Tab.get {} t.results (64 * w.val + n.val) = {})
        ∧ ∀ k, k / 64 ≠ w.val → Tab.get {} t.results k = Tab.get {} s.results k

/-- VI_CLOSE of the window's own VI, or by the operator of any: the VI is closed, with no plan and an empty bank. -/
def Obligations.ViCloses : Prop :=
  ∀ (s : State) (w : Win) (c : Cmd), s.live = true → s.fcCmd w.val 0x02 = some c →
    let n := if w.val = 64 then c.u 16 1 else w.val
    n ≤ 64 → (s.window n).isOpen = true →
    Reaches (.viClose w) s fun t =>
      (t.window n).isOpen = false ∧ (t.window n).gen = 0 ∧ t.plan n = {} ∧ t.bank n = {} ∧ t.Answers w.val (.ok 0)

/-- SESSION_OPEN takes the lowest FREE context, in the state OPEN, with the ring and the owner that the command gives (R206,
R228), and a block outside a pair changes nothing else; SESSION_CLOSE leaves the session CLOSING, with no key exchange and no key to
plant (R206). -/
def Obligations.SessionsOpenAndClose : Prop :=
  (∀ (s : State) (w : Win) (c : Cmd), s.Up → s.fcCmd w.val 0x10 = some c → s.joined = false → s.fm.state = .off →
    (∃ n, n < 16384 ∧ (s.session n).state = .free) →
    (w.val < 64 → (s.sessionsOf w.val).length < polQuota (s.policyOf w.val)) →
    (Bits.bit (c.u 16 1) 0 = true → s.debugOpen = false ∧ s.keysLocked = false ∧ (s.lc.state = 3 ∨ s.lc.state = 4)) →
    c.u 24 8 % 64 = 0 → 16 ≤ c.u 32 2 → c.u 32 2 ≤ 4096 →
    Reaches (.sessionOpen w) s fun t =>
      ∃ n, n < 16384 ∧ (s.session n).state = .free ∧ (∀ m, m < n → (s.session m).state ≠ .free) ∧
        t = { s with win := t.win, sess := t.sess } ∧ s.SlotOnly t w.val ∧ t.Answers w.val (.ok n)
        ∧ (∀ m, m ≠ n → t.session m = s.session m)
        ∧ t.session n = {
            state := .opened, conf := Bits.bit (c.u 16 1) 0, vi := if w.val = 64 then 0 else w.val, operator := w.val == 64
            ringBase := c.u 24 8, ringEntries := c.u 32 2, ringVector := BitVec.ofNat 16 (c.u 34 2), rseqNext := 1 })
    ∧ ∀ (s : State) (w : Win) (c : Cmd), s.live = true → s.fcCmd w.val 0x12 = some c → s.fm.state = .off →
    s.visible w.val c.session = true → (s.session c.session).state ≠ .closing →
    Reaches (.sessionClose w) s fun t =>
      (t.session c.session).state = .closing ∧ (t.session c.session).keyx = none ∧ (t.session c.session).plantKey = none
        ∧ t.Answers w.val (.ok 0)

/-- The key exchange (R207, R208): KEY_EXCHANGE refuses a share that is no point of the curve (R336, R337), and draws the block's
shares for the requester's; a FINISH that verifies plants the derived key of a session that is OPEN, and leaves that of a KEYED one
in KREG to be planted at the next epoch boundary (R210, R321). -/
def Obligations.KeyExchangeGivesKey : Prop :=
  (∀ (s : State) (w : Win) (c : Cmd) (hdr : HostRead) (pub ek : Bytes), s.Up → s.fcCmd w.val 0x11 = some c →
      hdr.err = false → hdr.poison = false → s.requestStatus w.val msgSpdm (c.u 32 4) hdr.bytes = none →
      s.visible w.val c.session = true → ((s.session c.session).state = .opened ∨ (s.session c.session).state = .keyed) →
      s.keysLocked = false → s.standbyRefuses c.session = false → 8192 ≤ c.u 36 4 →
      (Tab.get {} s.mgmt.spdm w.val).phase = 3 → s.noAlias = false → s.drbgBlocked = false → s.aliasRefused = false →
      kemInRange ek = true →
      ((s.session c.session).keyx.all fun k => !k.keySent) = true →
      Reaches (.sessionKeyx w hdr (.keyExchange pub ek)) s fun t =>
        (pointRefusal pub ≠ 0 → t.Answers w.val { status := pointRefusal pub } ∧ t = { s with win := t.win, out := t.out })
        ∧ (pointRefusal pub = 0 →
            t = { s with win := t.win, sess := t.sess, trng := t.trng, out := t.out, keys := { s.keys with slots := t.keys.slots } }
            ∧ (∀ m, m ≠ c.session → t.session m = s.session m)
            ∧ ∃ k : KeyxWork, t.session c.session = { s.session c.session with keyx := some k } ∧ k.ecdhPub = pub ∧ k.mlkemEk = ek
              ∧ k.ephemeral = (Bytes.big s.draw.1).take 48
              ∧ k.kemRandom = (Bytes.big s.draw.2.draw.1).take 32))
    ∧ ∀ (s : State) (w : Win) (c : Cmd) (hdr : HostRead) (k : KeyxWork), s.Up → s.fcCmd w.val 0x11 = some c →
      hdr.err = false → hdr.poison = false → s.requestStatus w.val msgSpdm (c.u 32 4) hdr.bytes = none →
      s.visible w.val c.session = true → s.keysLocked = false → s.keys.kreg = none → s.keys.kregWaiting = [] →
      s.fm.state = .off → 8192 ≤ c.u 36 4 → (s.session c.session).keyx = some k → k.keySent = false → s.lc.state < 7 →
      let x := s.session c.session
      let kd := k.dataKey c.session (x.keyxGen.toNat + 1)
      (x.state = .keyed → Reaches (.sessionKeyx w hdr (.finish true)) s fun t =>
        t = { s with win := t.win, sess := t.sess, out := t.out, keys := t.keys } ∧ (∀ m, m ≠ c.session → t.session m = s.session m)
        ∧ t.session c.session = { x with keyx := none }
        ∧ ∃ l : KregLoad, t.keys = { s.keys with kreg := some l, kregAt := s.now, kmInput := [] } ∧ l.sess = some c.session
          ∧ l.key = kd.setWidth 512)
      ∧ (x.state = .opened → x.pair = .unpaired → Reaches (.sessionKeyx w hdr (.finish true)) s fun t =>
        t = { s with win := t.win, sess := t.sess, out := t.out, keys := t.keys, streams := t.streams }
        ∧ (∀ m, m ≠ c.session → t.session m = s.session m)
        ∧ (t.session c.session).state = .keyed ∧ (t.session c.session).keyxGen = x.keyxGen + 1
        ∧ (t.session c.session).keyx = none ∧ (t.session c.session).plantKey = none ∧ t.keys.kreg = none
        ∧ (t.session c.session).rseqNext = x.rseqNext ∧ t.sessionKey c.session = some kd)

/-- LEASE_TAKE of a well-formed request is held for its arbitration, and LEASE_DROP of resources that the window holds and does
not use is noted for its epoch (R255, R258). -/
def Obligations.LeaseRequestsHeld : Prop :=
  (∀ (s : State) (w : Win) (c : Cmd), s.Up → s.rbCmd w.val 0x20 = some c → c.maskStatus = none → c.resources.videoOk = true →
      Bits.get (c.u 16 8) 48 16 = 0 → (c.u 24 8 = 0 ∨ c.epoch + 2 ≤ c.u 24 8) → c.u 32 8 = 0 →
      Reaches (.leaseTake w) s fun t =>
        t = { s with win := t.win, rb := t.rb } ∧ s.SlotOnly t w.val ∧ (t.window w.val).slot.running = some c
        ∧ t.rb = { s.rb with held := s.rb.held
            ++ [{ win := w.val, res := c.resources, first := if c.u 24 8 = 0 then c.epoch + 2 else c.u 24 8, last := none }] })
    ∧ ∀ (s : State) (w : Win) (c : Cmd), s.Up → s.rbCmd w.val 0x21 = some c → c.maskStatus = none → c.u 24 8 = 0 →
      c.resources.videoNamed = true →
      c.resources.minus ((s.rb.heldAt w.val (c.epoch + 1)).or (s.rb.heldAt w.val c.epoch)) = {} →
      c.resources.and (s.resourcesUsed w.val) = {} →
      Reaches (.leaseDrop w) s fun t =>
        t = { s with win := t.win, rb := t.rb } ∧ s.SlotOnly t w.val
        ∧ t.rb = { s.rb with drops := s.rb.drops ++ [(c.epoch + 1, w.val, c.resources)] }

/-- PLAN_LOAD stages the plan where the container passes its checks, its sections at their places, and otherwise answers the first
check that fails, the bank being as it was (R142, R145, R146). -/
def Obligations.PlanIsStagedOrNamed : Prop :=
  ∀ (s : State) (w : Win) (c : Cmd) (img : HostRead), s.Up → s.fcCmd w.val 0x30 = some c → (s.bank w.val).armed = none →
    c.u 24 4 ≤ 2 ^ 22 → img.err = false → img.poison = false →
    let b := Bytes.slice img.bytes 0 (c.u 24 4)
    Reaches (.planLoad w img) s fun t =>
      t = { s with win := t.win, banks := t.banks, out := t.out, fcSram := t.fcSram, qcMem := t.qcMem, arc := t.arc }
      ∧ s.SlotOnly t w.val
      ∧ (∀ r, containerFail b (c.u 24 4) = some r → t.Answers w.val r ∧ t = { s with win := t.win, out := t.out })
      ∧ (containerFail b (c.u 24 4) = none → s.poolFits w.val (parsePlan b).poolKiB = true → (s.bank w.val).items = [] →
          let placed := s.placePlan w.val (parsePlan b) b
          t.Answers w.val (.ok 0) ∧ (t.bank w.val).items = [.plan placed.1]
            ∧ t.fcSram = placed.2.fcSram ∧ t.qcMem = placed.2.qcMem ∧ t.arc = placed.2.arc)

/-- STAGE_WRITE, INTEGRITY_SET and STREAM_BIND to unbind each put their item last in the window's bank, in place of one for the
same register, target or stream (R259). -/
def Obligations.ItemsAreStaged : Prop :=
  (∀ (s : State) (w : Win) (c : Cmd) (off : Nat) (v : Word), s.Up → s.rbCmd w.val 0x40 = some c →
      (s.bank w.val).armed = none → c.params = Bytes.ofNat 4 off ++ [0, 0, 0, 0] ++ Bytes.ofNat 8 v.toNat → off < 2 ^ 32 →
      s.stageRefusal w.val off v.toNat = none → (s.bank w.val).items.length < 256 → (s.bank w.val).fits = true →
      Reaches (.stageWrite w) s fun t =>
        t = { s with win := t.win, banks := t.banks, rb := t.rb, msgs := t.msgs } ∧
        (t.bank w.val).items = (s.bank w.val).items.filter (fun j => !(BankItem.write off v).same j) ++ [.write off v]
        ∧ t.Replied w.val c.tag c.opcode (.ok 0))
    ∧ (∀ (s : State) (w : Win) (c : Cmd), s.Up → s.fcCmd w.val 0x62 = some c → (s.bank w.val).armed = none →
      c.u 18 1 < 2 → c.u 19 1 < 6 →
      (w.val < 64 → polFracMin (s.policyOf w.val) ≤ c.u 19 1 ∧ c.u 19 1 ≤ polFracMax (s.policyOf w.val)) →
      (c.u 18 1 = 1 → c.u 16 2 < 1024) → (c.u 18 1 = 0 → (s.holdsEver w.val).hasCs (c.u 16 2) = true) →
      (s.bank w.val).items.length < 256 → (s.bank w.val).fits = true →
      Reaches (.integritySet w) s fun t =>
        let i : BankItem := .integ (c.u 16 2) (c.u 18 1 = 1) (c.u 19 1)
        t = { s with win := t.win, banks := t.banks } ∧ s.SlotOnly t w.val ∧ t.Answers w.val (.ok 0)
        ∧ t.bank w.val = { s.bank w.val with items := (s.bank w.val).items.filter (fun j => !i.same j) ++ [i] })
    ∧ ∀ (s : State) (w : Win) (c : Cmd), s.Up → s.fcCmd w.val 0x33 = some c → (s.bank w.val).armed = none →
      c.u 16 2 < 256 → c.u 18 1 < 64 → s.bindable w.val c.session = true → (s.holdsEver w.val).hasCs (c.u 16 2) = true →
      (∀ n, s.lsessOf w.val (c.u 18 1) = some n → n = c.session) →
      Bits.bit (c.u 23 1) 0 = true → (s.bank w.val).items.length < 256 →
      (s.bank w.val).fits = true →
      Reaches (.streamBind w) s fun t =>
        let i : BankItem := .bind { cs := c.u 16 2, session := c.session, lsess := c.u 18 1, slot := c.u 19 1, fallback := c.u 20 1
                                    si := c.u 21 1, se := c.u 22 1, unbind := true }
        t = { s with win := t.win, banks := t.banks, plans := t.plans, pz := t.pz, arc := t.arc, qcMem := t.qcMem }
        ∧ s.SlotOnly t w.val ∧ t.Answers w.val (.ok 0) ∧ t.lsessOf w.val (c.u 18 1) = some c.session
        ∧ (s.lsessOf w.val (c.u 18 1) = some c.session → t = { s with win := t.win, banks := t.banks })
        ∧ t.bank w.val = { s.bank w.val with items := (s.bank w.val).items.filter (fun j => !i.same j) ++ [i] }

/-- STAGE_CHECK changes nothing but its answer; STAGE_COMMIT_AT of a bank that passes the same checks arms one COMMIT entry for
the instant, and leaves the bank's items (R259, R260). -/
def Obligations.CommitIsArmed : Prop :=
  (∀ (s : State) (w : Win) (c : Cmd), s.Up → s.fcCmd w.val 0x41 = some c →
      Reaches (.stageCheck w) s fun t =>
        t = { s with win := t.win } ∧ s.SlotOnly t w.val
        ∧ t.Answers w.val ((s.checkBank w.val (s.earliestEpoch w.val)).getD (.ok 0)))
    ∧ ∀ (s : State) (w : Win) (c : Cmd) (e : Event) (i : Nat), s.Up → s.fcCmd w.val 0x42 = some c → Bits.bit (c.u 32 1) 0 = false →
      (s.bank w.val).armed = none → (s.bank w.val).items ≠ [] →
      commitEntry w.val (Bytes.slice c.inl 0 16) c.time c.epoch c.phases = some e →
      s.checkBank w.val (s.earliestEpoch w.val) = none → s.freeEntry = some i →
      Reaches (.stageCommitAt w) s fun t =>
        t = { s with win := t.win, banks := t.banks, ptu := t.ptu } ∧ s.SlotOnly t w.val
        ∧ t.bank w.val = { s.bank w.val with armed := some i, armedEpoch := s.commitEpoch e }
        ∧ (t.event i).kind = .commit ∧ (t.event i).valid = true ∧ (t.event i).target = BitVec.ofNat 12 w.val
        ∧ (t.event i).instant = e.instant ∧ (∀ j, j ≠ i → t.event j = s.event j)
        ∧ t.Answers w.val { status := stOk, epoch := s.commitEpoch e }

/-- WEIGHTS_LOAD of one region with the weight's length: the region is MEASURED and holds the image where its digest is the
plan's, and otherwise the command is refused (R88, R117). MEASURE of a measured region tells the two cases apart (R249). -/
def Obligations.WeightsAreMeasured : Prop :=
  (∀ (s : State) (w : Win) (c : Cmd) (img : HostRead) (p : Plan) (g : Weight) (k : Nat × Nat), s.Up →
      s.fcCmd w.val 0x31 = some c → (s.plan w.val).running = some p → p.weights[c.u 16 2]? = some g →
      s.bindable w.val c.session = true → c.u 18 1 < 64 → s.loadRegions w.val (c.u 16 2) = [k] →
      s.lsessOf w.val (c.u 18 1) = some c.session → s.regionSession w.val k = some c.session →
      (s.held w.val).hasArc k.1 = true → c.u 32 4 = g.length →
      (s.regionAt k).state = .empty → (s.regionAt k).valid = true → (s.regionAt k).plan = some w.val → s.pm.planeOff = false →
      img.err = false → img.poison = false →
      let b := Bytes.slice img.bytes 0 g.length
      Reaches (.weightsLoad w img) s fun t =>
        (Config.sha384 b = g.digest →
          t = { s with win := t.win, arc := t.arc, out := (s.hostRead (windowWorld w.val) (c.u 24 8) g.length).out }
          ∧ s.SlotOnly t w.val ∧ t.Answers w.val (.ok 0)
          ∧ (t.regionAt k).state = .measured ∧ (t.regionAt k).digest = g.digest ∧ (t.regionAt k).session = c.session
          ∧ (t.arcade k.1).als = ((s.arcade k.1).writeImage (s.regionAt k) g.mx b).als
          ∧ ∀ a, a ≠ k.1 → t.arcade a = s.arcade a)
        ∧ (Config.sha384 b ≠ g.digest → t.Answers w.val (.denied 0)))
    ∧ ∀ (s : State) (w : Win) (c : Cmd) (p : Plan) (x : Placement) (g : Weight) (k : Nat × Nat), s.Up →
      s.fcCmd w.val 0x32 = some c → (s.plan w.val).running = some p → (s.plan w.val).regions[c.u 16 2]? = some k →
      p.placements[c.u 16 2]? = some x → x.scratch = false → p.weights[x.weight]? = some g → (s.held w.val).hasArc k.1 = true →
      (s.regionAt k).state = .measured → (s.regionAt k).plan = some w.val →
      let same := (s.arcade k.1).regionPoisoned (s.regionAt k) = false
        ∧ Config.sha384 ((s.arcade k.1).imageOf (s.regionAt k) g.mx) = g.digest
      Reaches (.measure w []) s fun t =>
        t = { s with win := t.win, arc := t.arc } ∧ s.SlotOnly t w.val
        ∧ (same → t.Answers w.val (.ok 0) ∧ t = { s with win := t.win })
        ∧ (¬ same → t.Answers w.val { status := stFault } ∧ t.regionAt k = { s.regionAt k with state := .broken, digest := 0 })

/-- JOB_SUBMIT and JOB_RESUME that nothing refuses start the lowest free job with the command's ring, vector and priority (R169,
R253); a job whose inputs could not be brought in has ended with ST_FAULT (R454). -/
def Obligations.JobsStart : Prop :=
  (∀ (s : State) (w : Win) (c : Cmd) (p : Plan) (j : Nat), s.live = true → s.fcCmd w.val 0x50 = some c →
      s.jobRefusal w.val c = none → (s.plan w.val).running = some p → s.lsessOf w.val (c.u 18 1) = some c.session →
      s.freeJob = some j → (c.jobEntries (s.session c.session).conf).map (·.2) = some [] → s.pm.descents = [] →
      s.jobPagesOk c.session p (c.u 16 2) [] = true → (∀ e ∈ p.schedules, s.noPrograms e.arcade = false) →
      Reaches (.jobSubmit w []) s fun t =>
        t.Answers w.val (.ok j) ∧ (t.job j).active = true ∧ (t.job j).win = w.val ∧ (t.job j).session = c.session
        ∧ (t.job j).priority = c.u 19 1 ∧ (t.job j).ringBase = c.u 24 8 ∧ (t.job j).ringEntries = c.u 32 4
        ∧ (t.job j).vector = BitVec.ofNat 16 (c.u 36 2) ∧ (t.job j).seq = 0 ∧ (t.job j).shed = false
        ∧ ∀ i, i ≠ j → (t.job i).active = (s.job i).active)
    ∧ ∀ (s : State) (w : Win) (c : Cmd) (p : Plan) (j : Nat) (blob : HostRead), s.live = true → s.fcCmd w.val 0x52 = some c →
      s.jobRefusal w.val c = none → (s.plan w.val).running = some p → s.lsessOf w.val (c.u 18 1) = some c.session →
      s.freeJob = some j → (s.session c.session).conf = false →
      (c.jobEntries false).map (·.2) = some [] → s.pm.descents = [] →
      c.u 56 4 = 8 + 64 * (s.stateAddrs p (c.u 16 2)).length → blob.err = false → blob.poison = false →
      s.jobPagesOk c.session p (c.u 16 2) [] = true → (∀ e ∈ p.schedules, s.noPrograms e.arcade = false) →
      Reaches (.jobResume w blob []) s fun t =>
        t.Answers w.val (.ok j) ∧ (t.job j).active = true ∧ (t.job j).win = w.val ∧ (t.job j).session = c.session

/-- JOB_CHECKPOINT of a job whose programs are checked, and whose STATE the data movers may read, writes the checkpoint and its
number, the beats of poisoned lines poisoned (R201, R212, R454); a checkpoint at the plan's interval does the same at an address that
the manual does not give (log entry 17). -/
def Obligations.JobCheckpointsAreWritten : Prop :=
  (∀ (s : State) (w : Win) (c : Cmd), s.Up → s.fcCmd w.val 0x51 = some c → c.u 16 2 < 1024 → (s.job (c.u 16 2)).active = true →
      (s.job (c.u 16 2)).win = w.val → s.jobStateOk (c.u 16 2) = true → s.ckptReady (c.u 16 2) = true →
      (s.jobBlob (s.job (c.u 16 2)).session 0 (s.jobState (c.u 16 2))).length ≤ c.u 32 4 →
      Reaches (.jobCheckpoint w false []) s fun t =>
        let sc := (s.job (c.u 16 2)).session
        let lines := s.jobState (c.u 16 2)
        let blob := s.jobBlob sc ((s.session sc).jobCkptNo + 1) lines
        t = { s with win := t.win, out := (s.hostWrite (s.sessionWorld sc) (c.u 24 8) blob (poisonedRanges lines)).out
                     sess := t.sess, jobs := t.jobs, health := t.health }
        ∧ (poisonedRanges lines = [] → t.health = s.health)
        ∧ (t.job (c.u 16 2)).ckpt.map (·.1) = some lines
        ∧ t.Answers w.val (.ok 0) ∧ (t.session sc).jobCkptNo = (s.session sc).jobCkptNo + 1
        ∧ (∀ m, m ≠ sc → t.session m = s.session m) ∧ ∀ i, i ≠ c.u 16 2 → t.job i = s.job i)
    ∧ ∀ (s : State) (j : Fin 1024), s.Up → s.fcUp = true → (s.job j.val).active = true → s.jobStateOk j.val = true →
      s.ckptReady j.val = true →
      Reaches (.planIntervalCheckpoint j false []) s fun t =>
        let sc := (s.job j.val).session
        let lines := s.jobState j.val
        let blob := s.jobBlob sc ((s.session sc).jobCkptNo + 1) lines
        t = { s with free := s.free + 1, sess := t.sess, jobs := t.jobs, win := t.win, health := t.health
                     out := (s.hostWrite (s.sessionWorld sc) (Config.freeValue s.free).toNat blob (poisonedRanges lines)).out }
        ∧ (poisonedRanges lines = [] → t.health = s.health ∧ t.win = s.win) ∧ (t.session sc).jobCkptNo = (s.session sc).jobCkptNo + 1 ∧ ∀ i, i ≠ j.val → t.job i = s.job i

/-- ABORT of a bound stream or a session that the window may name: the unit ends, and the reply counts it; of a unit that is not
there, nothing ends (R262). -/
def Obligations.AbortEndsItsUnit : Prop :=
  (∀ (s : State) (w : Win) (c : Cmd), s.live = true → (s.window w.val).slot.abortCmd = none → s.rbCmd w.val 0x60 = some c →
      c.u 16 1 = 0 → c.u 20 4 < 256 → (s.stream (c.u 20 4)).bound = true → (w.val = 64 ∨ (s.stream (c.u 20 4)).win = w.val) →
      Reaches (.abort w) s fun t => t.stream (c.u 20 4) = {} ∧ t.Replied w.val c.tag c.opcode (.ok 1))
    ∧ (∀ (s : State) (w : Win) (c : Cmd), s.live = true → (s.window w.val).slot.abortCmd = none → s.rbCmd w.val 0x60 = some c →
      c.u 16 1 = 2 → c.u 20 4 < 16384 → (s.session (c.u 20 4)).state ≠ .free →
      (w.val = 64 ∨ (s.session (c.u 20 4)).window = w.val) → s.fm.state = .off →
      Reaches (.abort w) s fun t => (t.session (c.u 20 4)).state = .closing ∧ t.Replied w.val c.tag c.opcode (.ok 1))
    ∧ ∀ (s : State) (w : Win) (c : Cmd), s.Up → (s.window w.val).slot.abortCmd = none → s.rbCmd w.val 0x60 = some c →
      ((c.u 16 1 = 0 ∧ (s.stream (c.u 20 4)).bound = false) ∨ (c.u 16 1 = 1 ∧ (s.job (c.u 20 4)).active = false)
        ∨ (c.u 16 1 = 2 ∧ (s.session (c.u 20 4)).state = .free)) →
      Reaches (.abort w) s fun t =>
        t = { s with win := t.win, rb := t.rb, msgs := t.msgs } ∧ t.Replied w.val c.tag c.opcode (.ok 0)

/-- RESULT_ACK of one stream record moves the slot's acknowledgement up to it and touches no other slot (R167). -/
def Obligations.ResultsAreAcknowledged : Prop :=
  ∀ (s : State) (w : Win) (c : Cmd) (o q : Nat), s.Up → s.rbCmd w.val 0x61 = some c → o < 256 → q < 2 ^ 64 →
    c.params = Bytes.ofNat 2 o ++ List.replicate 6 0 ++ Bytes.ofNat 8 q → (s.stream o).bound = true → (s.stream o).win = w.val →
    let k := 64 * (s.stream o).win + (s.stream o).slot
    let r := Tab.get {} s.results k
    r.acked.toNat < q → q ≤ r.latest →
    Reaches (.resultAck w) s fun t =>
      t = { s with win := t.win, rb := t.rb, msgs := t.msgs, results := t.results }
        ∧ Tab.get {} t.results k = { r with acked := BitVec.ofNat 64 q, unacked := min 255 (r.latest - q) }
        ∧ (∀ j, j ≠ k → Tab.get {} t.results j = Tab.get {} s.results j) ∧ t.Replied w.val c.tag c.opcode (.ok 0)

/-- EVIDENCE_GET asks for claims, which a later dispatch tick takes, and then writes the token that they make (R351, R355); FW_INFO and
ERRLOG_READ write their body (R246, R265, R383). Each writes behind a header into a buffer that holds it, and changes nothing else but
what it draws, the uses of the alias keys, and the export mark of a record. -/
def Obligations.BodiesAreWritten : Prop :=
  (∀ (s : State) (w : Win) (c : Cmd), s.Up → s.fcCmd w.val 0x70 = some c → s.bodyDefined w.val msgEvidence = true →
      (c.session ≠ 0xFFFF → s.visible w.val c.session = true
        ∧ ((s.session c.session).state = .opened ∨ (s.session c.session).state = .keyed)) →
      ((Bytes.slice c.inl 0 32).all fun b => b == 0) = false → s.drbgBlocked = false → s.noAlias = false → 4552 ≤ c.u 56 4 →
      (s.rb.claims.find? fun q => q.win == w.val) = none →
      exec (.evidenceGet w) s = .next { s with rb := { s.rb with claims := s.rb.claims ++ [{
        win := w.val, sess := if c.session = 0xFFFF then none else some c.session, audience := if w.val = 64 then 0 else 1
        nonce := Bytes.slice c.inl 0 32, begun := s.ptu.tick }] } })
    ∧ (∀ (s : State) (w : Win) (c : Cmd) (q : ClaimReq) (b : Bytes), s.Up → s.fcCmd w.val 0x70 = some c →
      (s.rb.claims.find? fun q => q.win == w.val) = some q → q.left = false → q.token = some b → s.drbgBlocked = false →
      s.aliasRefused = false → tokenBytes q.sess + 8 ≤ c.u 56 4 →
      Reaches (.evidenceGet w) s fun t =>
        let body := s.signToken q.sess b ((Bytes.big s.draw.1).take 32)
        t = { s.draw.2.useAlias with
          win := t.win, rb := { s.rb with claims := s.rb.claims.erase q }
          out := (s.hostWrite (windowWorld w.val) (c.u 48 8) (s.header w.val msgEvidence (tokenBytes q.sess) ++ body)).out }
        ∧ t.Answers w.val (.ok (tokenBytes q.sess + 8)))
    ∧ (∀ (s : State) (w : Win) (c : Cmd) (q : ClaimReq), s.Up → s.fcCmd w.val 0x70 = some c →
      (s.rb.claims.find? fun q => q.win == w.val) = some q → q.left = true →
      Reaches (.evidenceGet w) s fun t =>
        t = { s with win := t.win, rb := { s.rb with claims := s.rb.claims.erase q } } ∧ t.Answers w.val (.denied 0))
    ∧ (∀ (s : State) (w : Win) (c : Cmd), s.Up → s.fcCmd w.val 0x80 = some c →
      let body := if (s.window w.val).msgMajor = 2 then s.fwInfoBody s.otherVersion else (s.fwInfoBody s.otherVersion).take 64
      let msg := s.header w.val msgFwInfo body.length ++ body
      msg.length ≤ c.u 24 4 →
      Reaches (.fwInfo w) s fun t =>
        t = { s with win := t.win, out := (s.hostWrite (windowWorld w.val) (c.u 16 8) msg).out } ∧ t.Answers w.val (.ok msg.length))
    ∧ ∀ (s : State) (w : Win) (c : Cmd), s.Up → s.fcCmd w.val 0x82 = some c → 552 ≤ c.u 32 4 →
      let seen := (s.health.ring.filter fun r => decide (c.u 16 8 ≤ r.recNo) && s.recordVisible w.val (c.u 36 1) r).take ((c.u 32 4 - 40) / 512)
      Reaches (.errlogRead w) s fun t =>
        t = { s with win := t.win, out := t.out, health := { s.health with ring := t.health.ring } }
        ∧ t.Answers w.val (.ok (40 + 512 * seen.length)) ∧ (w.val < 64 → t.health.ring = s.health.ring)
        ∧ ∃ b, t.out = (s.hostWrite (windowWorld w.val) (c.u 24 8) b).out ∧ b.length = 40 + 512 * seen.length
          ∧ b.drop 40 = (seen.map fun r => Bytes.slice (s.cper r) 0 512).flatten

/-- RECEIPT_CHECKPOINT orders a cut of its session and waits outside the queue; CHECKPOINT_WRITE writes the checkpoint that is
next at its place in the session's ring, and with an error response only puts its retry off (R222, R223, R454, R487). -/
def Obligations.CheckpointsAreCutAndWritten : Prop :=
  (∀ (s : State) (w : Win) (c : Cmd), s.Up → s.fcCmd w.val 0x71 = some c → s.visible w.val c.session = true →
      ((s.session c.session).state = .keyed ∨ (s.session c.session).state = .faulted) → s.fm.state = .off →
      Reaches (.receiptCheckpoint w) s fun t =>
        t = { s with
          win := t.win, rb := { s.rb with fcQueue := s.rb.fcQueue.erase w.val }
          cutDue := s.cutDue ++ [(c.session, .command, BitVec.ofNat 256 (Bytes.bigNat (Bytes.slice c.inl 0 32)), some w.val)] }
        ∧ s.SlotOnly t w.val ∧ (t.window w.val).slot.running = some c)
    ∧ (∀ (s : State) (k : Cut), s.live = true → s.fcUp = true → s.drbgBlocked = false → s.fm.state = .off → s.nextCut = some k →
      k.kind.final = false → (s.noAlias = true ∨ s.aliasRefused = false) →
      Reaches (.checkpointWrite false) s fun t =>
        let x := s.session k.session
        (t.session k.session).ckptNo = x.ckptNo + 1 ∧ (t.session k.session).written = x.written + 1
          ∧ (∀ n, k.waiter = some n → t.Answers n (.ok (x.ckptNo + 1)))
          ∧ t.out = (s.hostWrite (s.sessionWorld k.session) (x.ringAddr k.session (x.ckptNo + 1))
              (s.draw.2.checkpoint k (x.ckptNo + 1) ((Bytes.big s.draw.1).take 32))).out)
    ∧ ∀ (s : State) (k : Cut), s.Up → s.fcUp = true → s.drbgBlocked = false → s.nextCut = some k →
      Reaches (.checkpointWrite true) s fun t =>
        t = { s with sess := t.sess } ∧ t.session k.session = { s.session k.session with ckptRetryAt := s.now + 100000000 }
          ∧ ∀ n, n ≠ k.session → t.session n = s.session n

/-- COMMAND_COMPLETE writes the reply of a Forecourt command that has its result, or of ST_FAULT where its data met an error, and counts the corrected errors in control structures that it found (R369);
MSG_SEND takes the oldest message (R242, R454, R473); NOTIFY sends the message of its window (R42). -/
def Obligations.RepliesAndMessages : Prop :=
  (∀ (s : State) (w : Win) (err : Bool) (c : Cmd) (r : Reply), s.Up → s.fcUp = true → (s.window w.val).slot.running = some c →
      (s.window w.val).slot.result = some r → roundaboutOps.contains c.opcode = false →
      (w.val ∈ s.rb.fcQueue → s.rb.fcQueue.head? = some w.val) →
      let reply := if err then { status := stFault } else r
      (Reaches (.commandComplete w { writeErr := err }) s fun t =>
        t = { s with win := t.win, rb := { s.rb with fcQueue := s.rb.fcQueue.erase w.val }, msgs := t.msgs } ∧ s.SlotOnly t w.val
        ∧ (t.window w.val).slot.running = none ∧ t.Replied w.val c.tag c.opcode reply)
      ∧ ∀ k n, Reaches (.commandComplete w { writeErr := err, ctl := [.ce k n] }) s fun t =>
        t.health.correctedCnt = s.health.correctedCnt + 1 ∧ (t.window w.val).slot.running = none ∧ t.Replied w.val c.tag c.opcode reply)
    ∧ (∀ (s : State) (m : Nat × Nat) (r : List (Nat × Nat)), s.Up → s.msgs = m :: r →
      exec (.msgSend true) s = .next { s with msgs := r, out := .msg m.1 m.2 :: s.out } ∧ exec (.msgSend false) s = .next s)
    ∧ ∀ (s : State) (e : EvIdx) (f : Firing) (fs : List Firing), s.Up → s.ptu.firing = f :: fs → f.idx = e.val → f.kind = .notify →
      Reaches (.notify e) s fun t =>
        let g := (s.event e.val).target.toNat
        t = { s with ptu := { s.ptu with firing := fs, fired := s.ptu.fired + 1 }, msgs := t.msgs }
        ∧ ((s.window (g / 32)).isOpen = true →
            (g / 32, ((s.window (g / 32)).vector.toNat + 8 + g % 32) % 2 ^ 16) ∈ t.msgs)

/-- A token that a check of R310 stops is answered with that check; one that passes has its effect: the intent word and the
wait of 50 ms (R302), the grant (R313), the owner's digest, the revocation, the fleet seed (R311). The fuse words beside are as
they were. An intent word that does not take ends the command with ST_FAULT, and no transition begins (R305). No debug is unlocked
while a confidential session is open (R227). -/
def Obligations.TokensAct : Prop :=
  ∀ (s : State) (w : Win) (c : Cmd) (tok : HostRead), s.live = true → s.fcCmd w.val 0x91 = some c ∨ s.fcCmd w.val 0x92 = some c →
    tok.err = false → tok.poison = false → s.requestStatus w.val msgToken (c.u 32 4) tok.bytes = none → s.drbgBlocked = false →
    let b := Bytes.slice tok.bytes 8 (c.u 32 4 - 8)
    let k := parseToken b
    let stops (i : Instr) (x : Option Reply) : Prop := ∀ r, x = some r → Reaches i s fun t => t.Answers w.val r ∧ t.fuses = s.fuses
    (s.fcCmd w.val 0x91 = some c → (tokenKind tok < 3 ∨ 5 < tokenKind tok) →
      let x := s.tokenRefusal b [1] (some (c.u 16 1)) false
      stops (.lifecycleRequest w tok none) x ∧ (x = none → ∀ i, s.lowestBlank = some i →
        (Reaches (.lifecycleRequest w tok none) s fun t =>
          t.fuse (3 * i) = s.fuse (3 * i) ||| intentWord k.target s.lc.state i ∧ (∀ j, j ≠ 3 * i → t.fuse j = s.fuse j)
            ∧ t.lc.resetWait = some (s.now + 50000000, 4))
        ∧ ∀ f : Fin 512, f.val = 3 * i → intentWord k.target s.lc.state i &&& ~~~(s.fuse (3 * i)) ≠ 0 →
          Reaches (.lifecycleRequest w tok (some f)) s fun t => t.Answers w.val { status := stFault }
            ∧ t.lc.resetWait = s.lc.resetWait ∧ t.lc.pendingRecord = s.lc.pendingRecord ∧ t.sess = s.sess
            ∧ ∀ j, j ≠ 3 * i → t.fuse j = s.fuse j))
    ∧ (s.fcCmd w.val 0x92 = some c → s.confOpen = true → Reaches (.debugUnlock w tok) s fun t =>
        t.Answers w.val (.denied 0) ∧ t.lc = s.lc)
    ∧ (s.fcCmd w.val 0x92 = some c → s.confOpen = false →
      let x := s.tokenRefusal b [2] none true
      stops (.debugUnlock w tok) x ∧ (x = none → Reaches (.debugUnlock w tok) s fun t =>
        t.lc.grant = BitVec.ofNat 5 k.arg ∧ t.fuses = s.fuses ∧ t.lc.resetWait = some (s.now + 50000000, 5)))
    ∧ (s.fcCmd w.val 0x91 = some c → tokenKind tok = 3 →
      let x := s.tokenRefusal b [3] none false
      stops (.provisionOwner w tok none) x ∧ (x = none → s.slotBlank (4 + k.arg) = true →
        Reaches (.provisionOwner w tok none) s fun t =>
          t.Answers w.val (.ok 0) ∧ t.slotCommitted (4 + k.arg) = true
          ∧ ∀ j, j < slotWord (4 + k.arg) ∨ slotWord (4 + k.arg) + 12 < j → t.fuse j = s.fuse j))
    ∧ (s.fcCmd w.val 0x91 = some c → tokenKind tok = 4 →
      let x := s.tokenRefusal b [4] none false
      let left := (List.range 4).any fun i =>
        let n := k.arg / 4 * 4 + i
        n != k.arg && s.slotCommitted n && !s.slotRevoked n
      stops (.revoke w tok none) x ∧ (x = none → left = true → Reaches (.revoke w tok none) s fun t =>
        t.Answers w.val (.ok 0) ∧ t.slotRevoked k.arg = true ∧ ∀ j, j ≠ 240 + k.arg → t.fuse j = s.fuse j))
    ∧ (s.fcCmd w.val 0x91 = some c → tokenKind tok = 5 →
      let x := s.tokenRefusal b [5] none false
      stops (.provisionFleet w tok none) x ∧ (x = none → s.bankBlank 110 = true → Reaches (.provisionFleet w tok none) s fun t =>
        t.Answers w.val (.ok 0) ∧ ∀ j, j < 110 ∨ 127 < j → t.fuse j = s.fuse j))

/-- KEY_DESTROY clears its slot and no other, and blows the kill word of a fused bank; a kill word that does not take ends it with
ST_FAULT, the slot as it was (log entry 102); a fixed slot below 6 is refused. KREG empties 2 ms after its load, and the load that
waits longest takes place (R305, R321, R322). -/
def Obligations.KeysAreDestroyed : Prop :=
  (∀ (s : State) (w : Win) (c : Cmd), s.Up → s.fcCmd w.val 0x90 = some c → 6 ≤ c.u 16 1 → c.u 16 1 < 64 →
      Reaches (.keyDestroy w none) s fun t =>
        t = { s with win := t.win, keys := t.keys, fuses := t.fuses, lc := t.lc, pke := t.pke, de := t.de, trng := t.trng }
        ∧ t.slot (c.u 16 1) = {} ∧ (∀ n, n ≠ c.u 16 1 → t.slot n = s.slot n) ∧ t.Answers w.val (.ok 0)
        ∧ (c.u 16 1 = 6 → t.fuse 127 = 0xFFFF_FFFF) ∧ (c.u 16 1 = 7 → t.fuse 109 = 0xFFFF_FFFF)
        ∧ (8 ≤ c.u 16 1 → t.fuses = s.fuses))
    ∧ (∀ (s : State) (w : Win) (c : Cmd) (f : Fin 512), s.Up → s.fcCmd w.val 0x90 = some c → (c.u 16 1 = 6 ∨ c.u 16 1 = 7) →
      f.val = fusedBank (c.u 16 1) + 17 → s.fuse f.val ≠ 0xFFFF_FFFF → Reaches (.keyDestroy w (some f)) s fun t =>
        t = { s with win := t.win, fuses := t.fuses, health := t.health, free := s.free + 1 } ∧ t.Answers w.val { status := stFault }
          ∧ t.health = { s.health with fuseReports := s.health.fuseReports + 1 } ∧ ∀ j, j ≠ f.val → t.fuse j = s.fuse j)
    ∧ (∀ (s : State) (w : Win) (c : Cmd) (f : Option (Fin 512)), s.Up → s.fcCmd w.val 0x90 = some c → c.u 16 1 ≤ 5 →
      Reaches (.keyDestroy w f) s fun t => t = { s with win := t.win } ∧ t.Answers w.val (.denied 0))
    ∧ ∀ (s : State) (l : KregLoad), s.Up → s.keys.kreg = some l → s.keys.kregAt + 2000000 ≤ s.now →
      (s.keys.kregWaiting = [] → exec .kregTimeout s = .next { s with keys := { s.keys with kreg := none } })
      ∧ (∀ x r, s.keys.kregWaiting = x :: r → x.opens = none → Reaches .kregTimeout s fun t =>
          t = { s with keys := { s.keys with kreg := some x, kregAt := s.now, kregWaiting := r }, de := t.de })
      ∧ ∀ x n ctrl, s.keys.kregWaiting = [x] → x.opens = some (n, ctrl) → Reaches .kregTimeout s fun t =>
          t = { s with keys := { s.keys with kreg := none, kregWaiting := [] }, de := (s.deOpenKeyed n ctrl x).de }

/-- FW_STAGE writes the image into the slot that does not hold the running one and checks it there: a good one is answered ST_OK,
and one for the Quarters is staged for all four; one that fails a check, or that finds no room, is denied; an error of the flash is
ST_FAULT. Nothing but the flash, the boot's own account and what goes out at the ports changes (R266, R267, R292). -/
def Obligations.FirmwareIsStaged : Prop :=
  ∀ (s : State) (w : Win) (c : Cmd) (img : HostRead), s.Up → s.fcCmd w.val 0x81 = some c → img.err = false → img.poison = false →
    s.requestStatus w.val msgImage (c.u 32 4) img.bytes = none → c.u 16 1 < 34 →
    let body := Bytes.slice img.bytes 8 (c.u 32 4 - 8)
    let r := s.hostRead (windowWorld w.val) (c.u 24 8) (c.u 32 4)
    let x := r.stageImage (!s.boot.runningSlot) (c.u 16 1) body
    (∀ u, x = some (0, u) → Reaches (.fwStage w img false) s fun t =>
      t = { s with win := t.win, flash := u.flash, boot := t.boot, out := u.out } ∧ s.SlotOnly t w.val ∧ t.Answers w.val (.ok 0)
        ∧ (c.u 16 1 ≠ 1 → t.boot = u.boot) ∧ (c.u 16 1 = 1 → ∀ q : Fin 4, Tab.get none t.boot.qcStaged q.val = some (parseKsi body)))
    ∧ (∀ k u, x = some (k, u) → k ≠ 0 → Reaches (.fwStage w img false) s fun t =>
      t = { s with win := t.win, flash := u.flash, boot := t.boot, out := u.out } ∧ s.SlotOnly t w.val ∧ t.Answers w.val (.denied 0))
    ∧ (x = none → Reaches (.fwStage w img false) s fun t =>
      t = { s with win := t.win, out := r.out } ∧ s.SlotOnly t w.val ∧ t.Answers w.val (.denied 0))
    ∧ Reaches (.fwStage w img true) s fun t =>
      t = { s with win := t.win, out := r.out } ∧ s.SlotOnly t w.val ∧ t.Answers w.val { status := stFault }

/-- The recovery UART (R293 to R295): HELLO, every 500 ms until a frame comes, names the stage, the state and the failure; a damaged frame is dropped; a fresh one
has its effect and its STATUS. -/
def Obligations.UartFramesAct : Prop :=
  (∀ s : State, s.Up → s.uartOn = true → s.uart.heard = false → s.helloDue = true → Reaches .hello s fun t =>
      ∃ b, t = { s with out := .uart (uartFrame 1 0 b) :: s.out, uart := { s.uart with helloAt := some s.now } } ∧ b.take 4
        = [BitVec.ofNat 8 s.boot.stage.code, BitVec.ofNat 8 s.lc.state, s.boot.failCode, s.boot.failComponent])
    ∧ (∀ (s : State) (h : UartHead) (b c : Byte) (n : BitVec 32) (x : Bytes) (e : Bool), s.Up → h.valid = false →
      exec (.speed h b) s = .next s ∧ exec (.loadBegin h b c n) s = .next s ∧ exec (.data h n x) s = .next s
        ∧ exec (.loadEnd h e none) s = .next s ∧ exec (.activate h b) s = .next s ∧ exec (.reboot h) s = .next s)
    ∧ ∀ (s : State) (h : UartHead), s.Up → s.uartOn = true → h.valid = true → s.uart.lastSeq ≠ some h.seq →
      (exec (.speed h 1) s = .next (s.framed h { s.uart with baud := 921600 } stOk))
      ∧ (∀ c : Byte, 3 ≤ c.toNat → exec (.speed h c) s = .next (s.framed h s.uart stDenied))
      ∧ (∀ (c d : Byte) (n : BitVec 32), exec (.loadBegin h c d n) s = .next
          (if s.loadAccepted c.toNat d.toNat then
            s.framed h { s.uart with
              load := some { component := c.toNat, dest := d.toNat, length := n.toNat, bytes := [] } } stOk
          else s.framed h s.uart stDenied))
      ∧ (∀ (l : UartLoad) (o : BitVec 32) (b : Bytes), s.uart.load = some l →
          (o.toNat = l.bytes.length → 0 < b.length → b.length ≤ 4096 → l.bytes.length + b.length ≤ l.length →
            exec (.data h o b) s = .next (s.framed h { s.uart with load := some { l with bytes := l.bytes ++ b } } stOk))
          ∧ (o.toNat ≠ l.bytes.length → exec (.data h o b) s = .next (s.framed h { s.uart with load := none } stDenied)))
      ∧ (∀ (l : UartLoad) (e : Bool), s.uart.load = some l → l.bytes.length < l.length →
          exec (.loadEnd h e none) s = .next (s.framed h { s.uart with load := none } stLenShort))
      ∧ (∀ l : UartLoad, s.uart.load = some l → l.bytes.length = l.length → (l.dest = 1 ∨ l.dest = 2) →
          let r := { s with uart := { s.uart with heard := true, lastSeq := some h.seq, load := none } }
          Reaches (.loadEnd h false none) s fun t =>
            match r.stageImage (l.dest == 2) l.component l.bytes with
            | none => t = s.framed h { s.uart with load := none } stDenied
            | some (0, u) => t = u.framed h u.uart stOk
            | some (_, u) => t = u.framed h u.uart stDenied)
      ∧ (∀ b : Byte, s.uart.loader = 2 → b.toNat ≤ 1 → Reaches (.activate h b) s fun t =>
          t = (s.writeBootRecord (b == 1) true 0).framed h s.uart stOk
            ∧ t.boot = { s.boot with active := b == 1, trial := true, tries := 0 })
      ∧ (s.uart.loader = 2 → Reaches (.reboot h) s fun t =>
          t.boot = {} ∧ t.health.cause = 6 ∧ t.flash = s.flash ∧ t.fuses = s.fuses ∧ t.sess = [] ∧ t.uart = {})

/-- Digest contexts (R328 to R333): opening, ending into the result register or a comparison, export, import and freeing act on
their own context, a fault of the comparators reads 1, 1, and a misuse ends in the error that R333 codes. How a result of more than
64 bytes compares beyond them is free (log entry 19). Where the use of KS8 is refused (R281, R320) no context is imported, and its
error reads 0x04 (log entry 49). An opening, an import and a freeing give up what waited for KREG for the context. -/
def Obligations.DigestContexts : Prop :=
  (∀ (s : State) (n : Fin 6) (w : Word) (stores : SramStores) (slot : Option (Fin 64)), s.Up → s.boot.step ≠ 0 →
      let c := ctrlKept w
      let r := (s.fcStores stores).dropLoads n.val
      (8 ≤ ctrlFunc c → Reaches (.deOpen n w stores slot) s fun t =>
        t = { r with de := t.de } ∧ (t.ctx n.val).state = .error ∧ (t.ctx n.val).error = 1)
      ∧ (ctrlFunc c < 8 → ctrlHmac c = false → ctrlSecretMsg c = false → destOk c false 0 = true →
        Reaches (.deOpen n w stores slot) s fun t =>
          t = { r with de := t.de } ∧ (∀ m, m ≠ n.val → t.ctx m = s.ctx m) ∧ (t.ctx n.val).state = .opened
          ∧ (t.ctx n.val).ctrl = c ∧ (t.ctx n.val).chain = Config.deInit (ctrlFunc c) ∧ (t.ctx n.val).buf = []
          ∧ (t.ctx n.val).bytes = 0 ∧ (t.ctx n.val).secret = false)
      ∧ (ctrlFunc c < 3 → ctrlHmac c = true → ctrlKreg c = false → ctrlSecretMsg c = false → destOk c false 0 = true →
        Reaches (.deOpen n w stores slot) s fun t =>
          let k0 := hmacKey (ctrlFunc c) (r.sramRead (ctrlAddr c) (deBlockLen (ctrlFunc c)))
          let absorbed (p : Byte) := Config.deBlock (ctrlFunc c) (Config.deInit (ctrlFunc c)) (k0.map fun b => b ^^^ p)
          t = { r with de := t.de } ∧ (t.ctx n.val).state = .opened ∧ (t.ctx n.val).chain = absorbed 0x36
            ∧ (t.ctx n.val).outer = absorbed 0x5C)
      ∧ (ctrlFunc c < 3 → ctrlHmac c = true → ctrlKreg c = true → slot = none → s.keys.kreg = none →
        Reaches (.deOpen n w stores slot) s fun t => (t.ctx n.val).state = .error ∧ (t.ctx n.val).error = 4 ∧ t.keys = r.keys))
    ∧ (∀ (s : State) (n : Fin 6), s.Up → (s.ctx n.val).state = .opened → ctrlSecretMsg (s.ctx n.val).ctrl = false →
      ((s.ctx n.val).buf ≠ [] → ∀ f, Reaches (.deFinal n f) s fun t =>
        t = { s with de := t.de } ∧ (t.ctx n.val).state = .error ∧ (t.ctx n.val).error = 3 ∧ (t.ctx n.val).chain = [])
      ∧ ((s.ctx n.val).buf = [] → ctrlDest (s.ctx n.val).ctrl = 0 → ∀ f, Reaches (.deFinal n f) s fun t =>
        t = { s with de := t.de } ∧ (∀ m, m ≠ n.val → t.ctx m = s.ctx m)
        ∧ t.ctx n.val = { s.ctx n.val with state := .done, result := (s.ctx n.val).digest, chain := [], outer := [] })
      ∧ ((s.ctx n.val).buf = [] → ctrlDest (s.ctx n.val).ctrl = 1 →
        let d := (s.ctx n.val).digest
        let same := d.take 64 == (s.ctx n.val).expected (min 64 d.length)
        (Reaches (.deFinal n false) s fun t => t = { s with de := t.de, free := s.free + 1 } ∧ (∀ m, m ≠ n.val → t.ctx m = s.ctx m)
          ∧ (t.ctx n.val).state = .done ∧ (t.ctx n.val).matchN = !(t.ctx n.val).isMatch
          ∧ (d.length ≤ 64 → (t.ctx n.val).isMatch = same) ∧ (same = false → (t.ctx n.val).isMatch = false))
        ∧ Reaches (.deFinal n true) s fun t =>
          t = { s with de := t.de, free := s.free + 1, health := { s.health with compareReports := s.health.compareReports + 1 } }
          ∧ (t.ctx n.val).isMatch = true ∧ (t.ctx n.val).matchN = true))
    ∧ (∀ (s : State) (n : Fin 6), s.Up → s.boot.step ≠ 0 →
      ((s.ctx n.val).state = .opened → (s.ctx n.val).buf = [] → s.drbgBlocked = false →
        s.wrapRefused = false → Reaches (.deExport n) s fun t =>
          let u := s.useSlot 8
          t = { s with de := t.de, keys := u.keys, trng := u.draw.2.trng, fcSram := t.fcSram }
          ∧ t.ctx n.val = { reg := (s.ctx n.val).reg } ∧ ∀ m, m ≠ n.val → t.ctx m = s.ctx m)
      ∧ ((s.ctx n.val).state ≠ .opened → Reaches (.deExport n) s fun t =>
          t = { s with de := t.de } ∧ t.ctx n.val = { s.ctx n.val with error := 6 }))
    ∧ (∀ (s : State) (n : Fin 6) (stores : SramStores), s.Up → (s.ctx n.val).state = .free →
      let r := s.fcStores stores
      let b := r.sramRead (ctrlAddr (s.ctx n.val).reg) 320
      (s.wrapRefused = true → Reaches (.deImport n stores) s fun t =>
        t.ctx n.val = { s.ctx n.val with error := 4 } ∧ (∀ m, m ≠ n.val → t.ctx m = s.ctx m) ∧ t.keys = s.keys ∧ t.fcSram = r.fcSram)
      ∧ (s.wrapRefused = false → Reaches (.deImport n stores) s fun t =>
        let p := gcmUnseal s.wrapKey (BitVec.ofNat 96 (Bytes.bigNat (Bytes.slice b 16 12))) (Bytes.slice b 0 32) (Bytes.slice b 32 272)
          (Bytes.slice b 304 16)
        t = { r with de := t.de, keys := (r.useSlot 8).keys, trng := (r.useSlot 8).trng } ∧ (∀ m, m ≠ n.val → t.ctx m = s.ctx m)
        ∧ (p = none → t.ctx n.val = { s.ctx n.val with error := 5 })
        ∧ (p.isSome = true → (t.ctx n.val).state = .opened ∧ (t.ctx n.val).bytes = BitVec.ofNat 48 (Bytes.num b 8 8))))
    ∧ ∀ (s : State) (n : Fin 6), s.Up → Reaches (.deFree n) s fun t =>
      t = { s.dropLoads n.val with de := t.de } ∧ t.ctx n.val = { reg := (s.ctx n.val).reg } ∧ ∀ m, m ≠ n.val → t.ctx m = s.ctx m

/-- The public-key engine (R335, R339, R340): a descriptor queues, is refused or meets a full queue; the first job takes a free
region, with its inputs as FC SRAM holds them; a shorter job passes at the job's next yield point; an end leaves status, output, verdict and a wiped region, and the suspended job
resumes; a verdict of a faulty comparator reads 1, 1 (R331). -/
def Obligations.PkeJobs : Prop :=
  (∀ (s : State) (off : BitVec 19) (stores : SramStores), s.Up → s.boot.step ≠ 0 →
      let r := s.fcStores stores
      let d := r.sramRead off.toNat 64
      (8 ≤ s.pke.queue.length → exec (.pkeSubmit off stores) s
        = .next { r with pke := { s.pke with submitFull := true, submitFullCnt := s.pke.submitFullCnt + 1 } })
      ∧ (s.pke.queue.length < 8 → (parsePke d).illegal = false → exec (.pkeSubmit off stores) s
        = .next { r with pke := { s.pke with queue := s.pke.queue ++ [{ parsePke d with win := s.pkeOwner }] } })
      ∧ (s.pke.queue.length < 8 → (parsePke d).illegal = true → exec (.pkeSubmit off stores) s
        = .next { r with pke := { s.pke with lastStatus := stDenied, lastTag := (parsePke d).tag.setWidth 16 } }))
    ∧ (∀ (s : State) (slot : Option (Fin 64)) (stores : SramStores) (j : PkeJob) (q : List PkeJob), s.live = true →
      s.pke.run = none → s.pke.queue = j :: q → (s.pke.suspended = none ∨ s.pke.preempt = true) → j.msgBytes ≤ 4096 →
      (s.keys.kreg = none ∨ slot = none) →
      Reaches (.pkeJobStart slot stores) s fun t => t.pke.queue = q ∧ t.pke.suspended = s.pke.suspended
        ∧ t.fcSram = (s.fcStores stores).fcSram
        ∧ ∃ k, t.pke.run = some k ∧ k.op = j.op ∧ k.tag = j.tag
          ∧ k.ins = ((j.inOff.zip j.inLens).map fun x => (s.fcStores stores).sramRead x.1 x.2)
          ∧ (t.ctx (regionCtx k.region)).state = .opened
          ∧ (∀ x, s.pke.suspended = some x → k.region = 1 - x.region) ∧ (s.pke.suspended = none → k.region = 0)
          ∧ (secretOps.contains j.op = false → k.secretIn = []))
    ∧ (∀ (s : State) (j : PkeJob), s.Up → s.pke.run = some j → j.points < j.yieldPoints →
      (s.pke.suspended ≠ none ∨ 8 ≤ j.yields ∨ s.pke.passer j = none → exec .pkeYieldPoint s
        = .next { s with pke := { s.pke with run := some { j with points := j.points + 1 } } })
      ∧ ∀ k, s.pke.suspended = none → j.yields < 8 → s.pke.passer j = some k → exec .pkeYieldPoint s
        = .next { s with pke := { s.pke with
          queue := k :: s.pke.queue.erase k, run := none, preempt := true
          suspended := some { j with points := j.points + 1, yields := j.yields + 1 } } })
    ∧ (∀ (s : State) (j : PkeJob) (v : Bool), s.Up → s.pke.run = some j → j.refused = 0 → rndOps.contains j.op = false →
      (j.compute []).verdict = some v →
      (Reaches (.pkeJobEnd false) s fun t => t.pke.valid = v ∧ t.pke.validN = !v ∧ t.health.compareReports = s.health.compareReports)
      ∧ Reaches (.pkeJobEnd true) s fun t => t.pke.valid = true ∧ t.pke.validN = true
          ∧ t.health.compareReports = s.health.compareReports + 1)
    ∧ ∀ (s : State) (j : PkeJob) (f : Bool), s.Up → s.pke.run = some j → Reaches (.pkeJobEnd f) s fun t =>
      t.pke.run = s.pke.suspended ∧ t.pke.suspended = none ∧ t.pke.queue = s.pke.queue ∧ t.pke.lastTag = j.tag.setWidth 16
        ∧ (j.region = 0 → t.pke.region0 = []) ∧ (j.refused ≠ 0 → t.pke.lastStatus = j.refused)
        ∧ (bigOps.contains j.op = true → j.refused = 0 →
          t = { s with pke := t.pke, fcSram := (s.sramWrite j.outOff (j.compute []).output).fcSram
                       de := Tab.upd {} s.de (regionCtx j.region) fun _ => {} }
          ∧ t.pke.lastStatus = (j.compute []).status)

/-- PTU_TICK advances the tick, the sources and device time by one, and passes the boundaries (R18, R25, R38); a record that did not
leave at its instant is held (R158). -/
def Obligations.TickAdvances : Prop :=
  ∀ s : State, s.live = true → s.tickDone = true → Reaches .ptuTick s fun t =>
    t.ptu.tick = s.ptu.tick + 1 ∧ t.ptu.dt = s.ptu.dt + s.ptu.step.setWidth 96 ∧ (∀ n, t.source n = (s.source n).advance)
      ∧ t.ptu.atEpoch = passes s.ptu.dt t.ptu.dt 4096 ∧ t.ptu.atDispatch = passes s.ptu.dt t.ptu.dt 1000
      ∧ t.ptu.atStep = passes s.ptu.dt t.ptu.dt 1000000 ∧ t.ptu.fired = 0 ∧ t.ptu.firing.length ≤ 64
      ∧ (∀ cs, t.stream cs = { s.stream cs with slots := (s.stream cs).slots.map fun x => x.passInstant s.ptu.tick })
      ∧ (s.Synced → s.cutDue = [] → s.rb.claims = [] → t = { s with ptu := t.ptu, streams := t.streams })

/-- EPOCH_BOUNDARY seals what is posted (R236); DISPATCH_TICK takes up a sealed packet, or answers the check that refuses it
(R234, R241). -/
def Obligations.SlotsAreSealedAndTaken : Prop :=
  (∀ s : State, s.live = true → s.ptu.atEpoch = true → Reaches .epochBoundary s fun t =>
      t.ptu.atEpoch = false ∧ ∀ w : Win, ((s.window w.val).slot.state = .posted → (t.window w.val).slot.state = .closed)
        ∧ ((s.window w.val).slot.state = .idle → (t.window w.val).slot.state = .idle))
    ∧ ∀ s : State, s.live = true → s.ptu.atDispatch = true → s.ptu.atEpoch = false → Reaches .dispatchTick s fun t =>
      t.ptu = { s.ptu with atDispatch := false } ∧ ∀ w : Win,
      let c := (s.window w.val).slot
      let p := parsePacket c.pkt
      c.state = .closed → c.running = none → c.abortCmd = none → (s.fcUp = true ∨ roundaboutOps.contains p.opcode = true) →
      (∀ st d, s.checkPacket w.val p c.appended = some (st, d) → (t.window w.val).slot.state = .idle
        ∧ t.Replied w.val p.tag p.opcode { status := st, detail := d })
      ∧ (s.checkPacket w.val p c.appended = none → (t.window w.val).slot.state = .running
        ∧ (t.window w.val).slot.running = some { opcode := p.opcode, tag := p.tag, session := p.session, inl := p.inl
                                                 params := c.params.take p.paramLen, g1 := p.gen == 1, epoch := s.epoch
                                                 time := s.now, phases := s.phases })

/-- Samples of a phase source (R21, R22, R25, R26, R34): a bad word, or one within 1 µs of the last, is recorded and discarded; the
first sets the phase, the second the speed, a filtered one leaves θ and ω as the correction gives them, and an outlier that is not
yet confirmed leaves them. Silence takes a source to COASTING or LOST, and coasting for too long
to LOST (R30). Other sources stand. -/
def Obligations.PhaseSources : Prop :=
  (∀ (s : State) (n : Src) (w : Word), s.Up → (s.source n.val).state ≠ .off →
      Reaches (.phaseSample n w false) s fun t => t = s.reportSource n.val 4 [0])
    ∧ (∀ (s : State) (n : Src) (w : Word) (k : Nat), s.Up → (s.source n.val).state ≠ .off → Bits.bit w.toNat 49 = true →
      (s.source n.val).lastAccepted = some k → s.ptu.tick ≤ k + 400 →
      Reaches (.phaseSample n w true) s fun t => t = s.reportSource n.val 4 [1])
    ∧ (∀ (s : State) (n : Src) (w : Word), s.live = true → Bits.bit w.toNat 49 = true → (s.source n.val).lastAccepted = none →
      (s.source n.val).state = .acquiring → (s.source n.val).acquired = 0 → Reaches (.phaseSample n w true) s fun t =>
        (t.source n.val).theta = BitVec.ofNat 96 (Bits.get w.toNat 0 32 * 2 ^ 32) ∧ (t.source n.val).omega = 0
          ∧ (t.source n.val).acquired = 1 ∧ (t.source n.val).samples = (s.source n.val).samples + 1
          ∧ ∀ m, m ≠ n.val → t.source m = s.source m)
    ∧ (∀ (s : State) (n : Src) (w : Word), s.live = true → Bits.bit w.toNat 49 = true →
      (∀ k, (s.source n.val).lastAccepted = some k → k + 400 < s.ptu.tick) → (s.source n.val).acquired = 1 →
      (s.source n.val).state = .acquiring →
      let c := s.source n.val
      let d := latchTicks (Bits.get w.toNat 32 16)
      let span : Int := (s.ptu.tick : Int) - d - c.firstTick
      let way := wrapInt ((c.fix (Bits.get w.toNat 0 32) d).m - c.firstPos) 64 * 2 ^ 32
      400 ≤ span → Reaches (.phaseSample n w true) s fun t =>
        (t.source n.val).omega = BitVec.ofInt 64 (way / span) ∧ (t.source n.val).acquired = 2
          ∧ (t.source n.val).samples = c.samples + 1 ∧ ∀ m, m ≠ n.val → t.source m = s.source m)
    ∧ (∀ (s : State) (n : Src) (w : Word), s.live = true → Bits.bit w.toNat 49 = true →
      (∀ k, (s.source n.val).lastAccepted = some k → k + 400 < s.ptu.tick) → (s.source n.val).acquired = 2 →
      (s.source n.val).state ≠ .off → (s.source n.val).state ≠ .lost → (s.source n.val).outRun = 0 →
      2 ≤ (s.source n.val).jumpConfirm →
      let c := s.source n.val
      c.jumpThreshold * 2 ^ 56 < (c.fix (Bits.get w.toNat 0 32) (latchTicks (Bits.get w.toNat 32 16))).e.natAbs →
      Reaches (.phaseSample n w true) s fun t =>
        (t.source n.val).theta = c.theta ∧ (t.source n.val).omega = c.omega ∧ (t.source n.val).state = c.state
          ∧ (t.source n.val).outRun = 1 ∧ (t.source n.val).samples = c.samples + 1 ∧ ∀ m, m ≠ n.val → t.source m = s.source m)
    ∧ (∀ (s : State) (n : Src) (w : Word), s.live = true → Bits.bit w.toNat 49 = true →
      (∀ k, (s.source n.val).lastAccepted = some k → k + 400 < s.ptu.tick) → (s.source n.val).acquired = 2 →
      (s.source n.val).state ≠ .off → (s.source n.val).state ≠ .lost →
      let c := s.source n.val
      let f := c.fix (Bits.get w.toNat 0 32) (latchTicks (Bits.get w.toNat 32 16))
      f.e.natAbs ≤ c.jumpThreshold * 2 ^ 56 → Reaches (.phaseSample n w true) s fun t =>
        (t.source n.val).theta = (c.correct f).theta ∧ (t.source n.val).omega = (c.correct f).omega
          ∧ (t.source n.val).samples = c.samples + 1 ∧ (t.source n.val).lastAccepted = some s.ptu.tick
          ∧ ∀ m, m ≠ n.val → t.source m = s.source m)
    ∧ (∀ (s : State) (n : Src), s.live = true → s.sourceSilent n.val = true → Reaches (.sourceTimeout n) s fun t =>
      ((s.source n.val).state = .tracking ∨ (s.source n.val).state = .degraded → (t.source n.val).state = .coasting)
        ∧ ((s.source n.val).state = .acquiring ∨ (s.source n.val).state = .stopped → (t.source n.val).state = .lost)
        ∧ (t.source n.val).theta = (s.source n.val).theta ∧ ∀ m, m ≠ n.val → t.source m = s.source m)
    ∧ ∀ (s : State) (n : Src), s.live = true → (s.source n.val).state = .coasting →
      (s.source n.val).enteredTick + cfgCoastUs (s.source n.val).cfg * 400 < s.ptu.tick → Reaches (.coastLimitExpiry n) s fun t =>
        (t.source n.val).state = .lost ∧ (t.source n.val).theta = (s.source n.val).theta ∧ ∀ m, m ≠ n.val → t.source m = s.source m

/-- Device time (R36, R37, R462): a comparison moves the step toward the input by at most 200 ppm, whatever the free value, and
sixteen within 10 ns lock it; the first valid input ahead steps it, and one behind is reported; without input it holds its step. The
reports are counted, since R388 gives them no event (log entry 90). -/
def Obligations.DeviceTimeFollows : Prop :=
  (∀ (s : State) (ns : Word), s.Up →
      exec (.dtStrobe ns false) s = .next { s with ptu := { s.ptu with
        strobeTick := s.ptu.tick, inputValid := false, close := 0
        dtState := if s.ptu.dtState = .locked then .holdover else s.ptu.dtState } })
    ∧ (∀ (s : State) (ns : Word), s.Up → s.ptu.everValid = true → Reaches (.dtStrobe ns true) s fun t =>
      let exact : Int := (s.ptu.dt.toNat : Int) - (ns.toNat : Int) * 2 ^ 32
      t = { s with free := s.free + 1, health := { s.health with clockReports := t.health.clockReports }, ptu := { s.ptu with
              strobeTick := s.ptu.tick, inputValid := true, close := t.ptu.close, dtState := t.ptu.dtState
              everLocked := t.ptu.everLocked, offset := t.ptu.offset, step := t.ptu.step } }
        ∧ t.health.clockReports = s.health.clockReports
            + (if s.ptu.everLocked = true ∧ 1000000 * 2 ^ 32 < exact.natAbs then 1 else 0)
        ∧ t.ptu.everLocked = (s.ptu.everLocked || decide (16 ≤ t.ptu.close))
        ∧ t.ptu.close = (if exact.natAbs ≤ 10 * 2 ^ 32 then s.ptu.close + 1 else 0)
        ∧ t.ptu.dtState = (if 16 ≤ t.ptu.close then .locked else s.ptu.dtState)
        ∧ t.ptu.offset = BitVec.ofInt 32 (dtOffset s.ptu.dt ns)
        ∧ (exact < 0 → 0x2_8000_0000 ≤ t.ptu.step.toNat ∧ t.ptu.step.toNat ≤ 0x2_8000_0000 + 2147483)
        ∧ (0 < exact → t.ptu.step.toNat ≤ 0x2_8000_0000 ∧ 0x2_8000_0000 - 2147483 ≤ t.ptu.step.toNat)
        ∧ (exact = 0 → t.ptu.step.toNat = 0x2_8000_0000))
    ∧ (∀ (s : State) (ns : Word), s.live = true → s.ptu.everValid = false → s.ptu.dt.toNat < ns.toNat * 2 ^ 32 →
      Reaches (.dtStrobe ns true) s fun t => t.ptu.dt = BitVec.ofNat 96 (ns.toNat * 2 ^ 32) ∧ t.ptu.everValid = true
        ∧ t.ptu.tick = s.ptu.tick ∧ t.ptu.sources = s.ptu.sources)
    ∧ (∀ (s : State) (ns : Word), s.live = true → s.ptu.everValid = false → s.ptu.everLocked = false →
      ns.toNat * 2 ^ 32 < s.ptu.dt.toNat → Reaches (.dtStrobe ns true) s fun t =>
        t.ptu.dt = s.ptu.dt ∧ t.ptu.everValid = true ∧ t.health.clockReports = s.health.clockReports + 1)
    ∧ ∀ s : State, s.Up → s.ptu.inputValid = true → s.ptu.strobeTick + 1200 ≤ s.ptu.tick →
      exec .dtInputTimeout s = .next { s with ptu := { s.ptu with
        inputValid := false, close := 0, dtState := if s.ptu.dtState = .locked then .holdover else s.ptu.dtState } }

/-- COMMIT (R45, R257, R261): it waits for the lease changes of an epoch boundary at its tick; its entry leaves the table; a bank that
fails its recheck stands and its outcome is recorded; a bank of one fraction takes effect and is empty. -/
def Obligations.CommitFires : Prop :=
  (∀ (s : State) (e : EvIdx), s.Up → s.ptu.atEpoch = true → exec (.commit e) s = .next s)
    ∧ ∀ (s : State) (e : EvIdx) (f : Firing) (fs : List Firing), s.Up → s.ptu.atEpoch = false → s.ptu.firing = f :: fs →
    f.idx = e.val → f.kind = .commit →
    let w := (s.event e.val).target.toNat
    let r := { s with ptu := { s.ptu with firing := fs, fired := s.ptu.fired + 1, events := Tab.set {} s.ptu.events e.val {} } }
    ((s.bank w).armed ≠ some e.val → exec (.commit e) s = .next r)
    ∧ ((s.bank w).armed = some e.val → r.downFail w (s.bank w) = false → ∀ x, r.checkBank w s.epoch = some x →
      Reaches (.commit e) s fun t =>
        t = { r with win := t.win, banks := t.banks, msgs := t.msgs } ∧ (t.bank w).items = (s.bank w).items ∧ (t.bank w).armed = none
          ∧ (t.window w).lastStatus = x.status ∧ (t.window w).lastDetail = x.detail ∧ (t.window w).lastEpoch = s.epoch)
    ∧ ∀ (k : Nat) (m : Bool) (n : Nat), (s.bank w).armed = some e.val → (s.bank w).items = [.integ k m n] →
      r.downFail w (s.bank w) = false → r.checkBank w s.epoch = none →
      Reaches (.commit e) s fun t => (t.bank w).items = [] ∧ (t.bank w).armed = none ∧ (t.window w).lastStatus = stOk
        ∧ (t.window w).lastEpoch = s.epoch ∧ (k, m, n) ∈ (t.plan w).fractions

/-- INPUT_CLOSE opens the next slot of a KEYED session's stream with its rseq (R154, R219), and of another stream counts and opens
none (R206, R370); SLOT_START of a slot without its input forms its record and starts nothing, counts an overrun where the slot before
has not released, and else starts the slot's programs (R48, R156); RELEASE decides, in this order, between the record that is ready,
that of a MISMATCH and the provisional one (R156, R195). Each takes an uncorrectable error of the session's context as a fault of the
session (R205), and INPUT_CLOSE counts a correctable error of a control structure (R369). -/
def Obligations.SlotsOpenStartAndRelease : Prop :=
  (∀ (s : State) (e : EvIdx) (f : Firing) (fs : List Firing), s.live = true → s.ptu.firing = f :: fs → f.idx = e.val →
      f.kind = .inputClose → s.fm.state = .off →
      let cs := (s.event e.val).target.toNat
      let st := s.stream cs
      let x := s.session st.session
      (st.bound = false → ∀ c, Reaches (.inputClose e c) s fun t => t.streams = s.streams ∧ t.sess = s.sess)
      ∧ (st.bound = true → x.state = .keyed → x.faultAt = none →
        (Reaches (.inputClose e []) s fun t =>
          (t.stream cs).seq = st.seq + 1 ∧ (t.session st.session).rseqNext = x.rseqNext + 1
            ∧ (t.stream cs).window = st.nextWindow ∧ (t.stream cs).nextWindow = {}
            ∧ (t.stream cs).slots.length = st.slots.length + 1
            ∧ ∃ y, (t.stream cs).slots.getLast? = some y ∧ y.seq = st.seq + 1 ∧ y.rseq = x.rseqNext.toNat
              ∧ y.icTime = BitVec.ofNat 64 s.now ∧ y.missing = !st.window.complete ∧ y.timed = f.timed)
        ∧ (∀ k n, Reaches (.inputClose e [.ce k n]) s fun t =>
          t.health.correctedCnt = s.health.correctedCnt + 1 ∧ (t.stream cs).seq = st.seq + 1
            ∧ (t.stream cs).slots.length = st.slots.length + 1)
        ∧ Reaches (.inputClose e [.context .ue]) s fun t =>
          (t.session st.session).state = .faulted ∧ (t.stream cs).seq = st.seq + 1 ∧ (t.stream cs).slots = st.slots)
      ∧ (st.bound = true → x.state ≠ .keyed ∨ x.faultAt ≠ none → Reaches (.inputClose e []) s fun t =>
        (t.stream cs).seq = st.seq + 1 ∧ (t.stream cs).window = st.nextWindow ∧ (t.stream cs).slots = st.slots ∧ t.sess = s.sess))
    ∧ (∀ (s : State) (e : EvIdx) (f : Firing) (fs : List Firing) (y : SlotRun), s.live = true → s.ptu.firing = f :: fs → f.idx = e.val →
      f.kind = .slotStart →
      let cs := (s.event e.val).target.toNat
      let st := s.stream cs
      s.slotOf cs f.slot = some y → y.released = none → (s.session st.session).faultAt = none →
      (s.session st.session).state ≠ .faulted → y.rseq ≠ 0 → (∀ z ∈ st.slots, z.seq = f.slot → z = y) →
      ((st.slots.any fun z => decide (z.seq < f.slot) && z.released.isNone) = true → Reaches (.slotStart e [] []) s fun t =>
        ∃ z, t.slotOf cs f.slot = some z ∧ z.overrun = true ∧ z.fired = true ∧ z.fallback.isSome = true ∧ t.arc = s.arc)
      ∧ (st.slots = [y] → y.missing = true → Reaches (.slotStart e [] []) s fun t =>
        ∃ z, t.slotOf cs f.slot = some z ∧ z.overrun = y.overrun ∧ z.fired = true ∧ z.fallback.isSome = true ∧ t.arc = s.arc)
      ∧ (st.slots = [y] → y.missing = false → st.shed = false → s.fm.state = .off → (s.plan st.win).running ≠ none →
        Reaches (.slotStart e [] []) s fun t =>
          ∃ z, t.slotOf cs f.slot = some z ∧ z.overrun = y.overrun ∧ z.fired = true ∧ z.started = true ∧ z.fallback.isSome = true)
      ∧ (st.bound = true → (s.session st.session).state = .keyed → Reaches (.slotStart e [.context .ue] []) s fun t =>
        (t.session st.session).state = .faulted ∧ t.arc = s.arc
          ∧ ∃ z, t.slotOf cs f.slot = some z ∧ z.fired = true ∧ z.fault = true ∧ z.computed.isSome = true))
    ∧ ∀ (s : State) (e : EvIdx) (f : Firing) (fs : List Firing) (y : SlotRun), s.Up → s.ptu.firing = f :: fs → f.idx = e.val →
      f.kind = .release → s.fm.state = .off →
      let cs := (s.event e.val).target.toNat
      let p := { s.ptu with firing := fs, fired := s.ptu.fired + 1, releases := s.ptu.releases + 1 }
      let at16 := s.ptu.tick + 16
      let n := s.ptu.releases
      let fits (t : State) : Prop := y.timed = false → t = { s with ptu := p, streams := t.streams }
      let unready (r : Option Record) : Prop := ∀ q, r = some q → q.ready = false
      s.releaseSlot cs f (s.event e.val).rel = some y → y.released = none →
      (∀ z ∈ (s.stream cs).slots, z.seq = y.seq → z = y) →
      (∀ r, y.computed = some r → r.ready = true → Reaches (.release e [] false) s fun t => fits t
        ∧ t.slotOf cs y.seq = some { y with released := some (at16, .computed), mismatch := none, fallback := none, order := n })
      ∧ (∀ r, unready y.computed → y.mismatch = some r → r.ready = true → Reaches (.release e [] false) s fun t => fits t
        ∧ t.slotOf cs y.seq = some { y with released := some (at16, .mismatch), computed := none, fallback := none, order := n })
      ∧ (∀ ue, (ue = true ∨ unready y.computed ∧ unready y.mismatch) → Reaches (.release e [] ue) s fun t => fits t
        ∧ ∃ r, t.slotOf cs y.seq = some { y with
            released := some (at16, .fallback), computed := none, mismatch := none, fallback := some r, order := n }
          ∧ ∀ q, y.fallback = some q → r = q)
      ∧ ((s.stream cs).bound = true → (s.session (s.stream cs).session).state = .keyed →
        (s.session (s.stream cs).session).faultAt = none → ∀ ue, Reaches (.release e [.context .ue] ue) s fun t =>
          (t.session (s.stream cs).session).state = .faulted ∧ ∃ z, t.slotOf cs y.seq = some z ∧ z.released.isSome = true)

/-! Frames, records and tile programs. -/

/-- Frames and records (R148 to R153, R158, R165 to R170, R217, R221, R451, R454): a frame that belongs to no stream is counted; one
of a raw stream, and one of a SAMPLE stream that its key opens, fills its window; a waiting frame is written; a finished record is
ready; a record leaves at its instant or is held, is folded into its session and taken by its result slot; a job's record is written
to its ring, the body before the header, or its job ends. -/
def Obligations.RecordsEnterAndLeave : Prop :=
  (∀ (s : State) (k : Fin 4) (f : RawFrame), s.Up → f.poison = 0 → ((f.ts.toNat : Int) - s.now).natAbs ≤ 1000 →
      let cs := Bytes.num f.bytes 0 2
      let n := Bytes.num f.bytes 4 4
      let st := s.stream cs
      (s.attributed k.val cs f.bytes = false → Reaches (.ingressFrame k f) s fun t =>
        t = { s with si := t.si } ∧ (∀ j, j ≠ k.val → Tab.get {} t.si j = Tab.get {} s.si j)
        ∧ Tab.get {} t.si k.val = { Tab.get {} s.si k.val with unattributed := (Tab.get {} s.si k.val).unattributed + 1 })
      ∧ ∀ c : Calendar, s.attributed k.val cs f.bytes = true → f.framing = false →
        s.ingressUsed k.val + n ≤ 32768 → s.noSlots cs = false → s.calendarOf cs = some c → c.windowBytes = n →
        (s.frameWindow cs).frame = none →
        (f.bytes.getD 2 0 = 2 → f.bytes.length = 32 + n →
          let g : GoodFrame := { plaintext := f.bytes.drop 32, second := f.bytes.drop 32, userTag := Bytes.slice f.bytes 20 12 }
          Reaches (.ingressFrame k f) s fun t =>
            t = { s with streams := t.streams, sess := t.sess, pz := t.pz, health := t.health, win := t.win }
            ∧ (t.frameWindow cs).frame = some g ∧ (∀ m, m ≠ cs → t.stream m = s.stream m)
            ∧ (st.inFlight = true ∨ s.closing cs = true → t.pz = s.pz
              ∧ (t.stream cs).waiting = st.waiting ++ [(st.seq + (if s.closing cs then 2 else 1), g)])
            ∧ (st.inFlight = false → s.closing cs = false → (t.stream cs).waiting = st.waiting ∧ t.pz = (s.writeInput cs g).pz))
        ∧ ∀ (plain : Bytes) (u : State), f.bytes.getD 2 0 = 1 → f.bytes.length = 48 + n → s.openFrame cs f = some (plain, u) →
          plain.length = n →
          let g : GoodFrame := { plaintext := plain, second := otherLane plain f.lane, userTag := Bytes.slice f.bytes 20 12 }
          Reaches (.ingressFrame k f) s fun t =>
            t = { s with streams := t.streams, sess := t.sess, pz := t.pz, health := t.health, win := t.win }
            ∧ (t.frameWindow cs).frame = some g ∧ (∀ m, m ≠ cs → t.stream m = s.stream m)
            ∧ (t.stream cs).lastCounter = (u.stream cs).lastCounter ∧ (t.stream cs).oldCounter = (u.stream cs).oldCounter
            ∧ (st.inFlight = true ∨ s.closing cs = true → t.pz = s.pz
              ∧ (t.stream cs).waiting = st.waiting ++ [(st.seq + (if s.closing cs then 2 else 1), g)])
            ∧ (st.inFlight = false → s.closing cs = false → (t.stream cs).waiting = st.waiting ∧ t.pz = (s.writeInput cs g).pz))
    ∧ (∀ (s : State) (cs : Cs) (g : Nat × GoodFrame) (r : List (Nat × GoodFrame)), s.Up → (s.stream cs.val).waiting = g :: r →
      (∀ x ∈ (s.stream cs.val).slots, x.released ≠ none ∨ g.1 ≤ x.seq) → Reaches (.inputWrite cs) s fun t =>
        t = { s with streams := t.streams, pz := t.pz, sess := t.sess, health := t.health, win := t.win }
        ∧ t.pz = (s.writeInput cs.val g.2).pz ∧ t.sess = (s.writeInput cs.val g.2).sess
        ∧ t.stream cs.val = { s.stream cs.val with waiting := r } ∧ ∀ m, m ≠ cs.val → t.stream m = s.stream m)
    ∧ (∀ (s : State) (cs : Cs) (k : RecordKind) (ue : Bool) (x : SlotRun), s.Up →
      ((s.stream cs.val).slots.find? fun y => !y.left && y.unready k) = some x →
      (∀ z ∈ (s.stream cs.val).slots, z.seq = x.seq → z = x) → Reaches (.recordReady cs k ue) s fun t =>
        t = { s with streams := t.streams } ∧ t.slotOf cs.val x.seq = some (x.finish k ue) ∧ ∀ m, m ≠ cs.val → t.stream m = s.stream m)
    ∧ (∀ (s : State) (cs : Cs) (x : SlotRun) (r : Record) (at0 : Nat) (held : Bool), s.Up → s.fm.state = .off →
      s.leaving cs.val = some (x, r, at0) → (if held then at0 < s.ptu.tick ∧ x.held = true else at0 = s.ptu.tick) →
      s.portFree cs.val = true → s.portTurn cs.val x = true → x.folded = false →
      let st := s.stream cs.val
      (s.session st.session).state ≠ .closing →
      Reaches (if held then .heldRecordLeaves cs else .recordLeaves cs) s fun t =>
        let b := r.released s.now held
        t = { s with out := t.out, se := t.se, results := t.results, streams := t.streams, sess := t.sess, cutDue := t.cutDue }
        ∧ (st.se < 4 → t.out = .record st.se cs.val s.ptu.tick held b :: s.out ∧ (t.sePort st.se).records = (s.sePort st.se).records + 1
            ∧ (t.sePort st.se).held = (s.sePort st.se).held + (if held then 1 else 0)
            ∧ (t.sePort st.se).busyUntil = s.ptu.tick + portTicks b.length)
        ∧ (4 ≤ st.se → t.out = s.out ∧ t.se = s.se)
        ∧ Tab.get {} t.results (64 * st.win + st.slot) = (Tab.get {} s.results (64 * st.win + st.slot)).take b x.seq r.status
        ∧ (t.stream cs.val).lastOk = (if r.status = rsOk then some r.plain else st.lastOk)
        ∧ (∀ y ∈ (t.stream cs.val).slots, y.seq = x.seq → y.left = true)
        ∧ (t.session st.session).acc = (s.session st.session).acc ^^^ r.tag
        ∧ (t.session st.session).releasedOpen = (s.session st.session).releasedOpen + 1)
    ∧ ∀ (s : State) (j : Fin 1024) (q : JobRec) (rest : List JobRec), s.Up →
      s.fm.state = .off → (s.job j.val).active = true → (s.job j.val).ready = q :: rest → (s.job j.val).ringFull = false →
      let x := s.job j.val
      (s.sessionKey x.session).isSome = true →
      (Reaches (.jobRecordWrite j false) s fun t =>
        t = { s with out := t.out, sess := t.sess, jobs := t.jobs, cutDue := t.cutDue, msgs := t.msgs }
        ∧ (t.session x.session).rseqNext = (s.session x.session).rseqNext
        ∧ (t.job j.val).seq = q.seq ∧ (t.job j.val).ready = rest ∧ (∀ i, i ≠ j.val → t.job i = s.job i)
        ∧ ∃ r : Record, r.plain = Bytes.slice q.payload 0 (s.jobPayload j.val).1
          ∧ (t.session x.session).acc = (s.session x.session).acc ^^^ r.tag ∧
          let b := r.released s.now false
          let slot := x.ringBase + (q.seq - 1) % x.ringEntries * ringStride b.length
          let wv := s.sessionWorld x.session
          t.out = ((s.hostWrite wv (slot + 64) (b.drop 64)).hostWrite wv slot (b.take 64)).out)
      ∧ Reaches (.jobRecordWrite j true) s fun t => t.out = s.out ∧ t.job j.val = { ended := stFault }

/-- The words of a tile program that compute nothing (R133, R135, R138, R182), in a span that has issued: what each leaves in the
program's registers and in the counters. SIGNAL issues when no part that the program sent is on its way, and reports a counter at its
limit; an unsatisfied WAIT keeps the time at which it issued; on a checker both only pass. -/
def Obligations.TileControlWords : Prop :=
  ∀ (s : State) (a : Arc) (p : Prog) (n : Nat), s.Up → (s.arcade a.val).running = some p → p.atBoundary = false →
    p.poisoned = false →
    let goes (i : Instr) (q : Prog) : Prop := Reaches i s fun t =>
      t = { s with arc := t.arc } ∧ t.arcade a.val = { s.arcade a.val with running := some q } ∧ ∀ b, b ≠ a.val → t.arcade b = s.arcade b
    (p.instr = some (.nop, n) → goes (.nop a) { p with pc := p.pc + n })
    ∧ (∀ (ad src : Nat) (add : Bool) (imm : BitVec 32), p.instr = some (.seta ad src add imm, n) →
        goes (.seta a) { p with ads := p.ads.set ad (if add then p.ads.getD src 0 + imm else imm), pc := p.pc + n })
    ∧ (∀ c : Nat, p.instr = some (.loop c, n) → goes (.loop a) { p with loops := (p.pc + n, c) :: p.loops, pc := p.pc + n })
    ∧ (∀ (start left : Nat) (r : List (Nat × Nat)), p.instr = some (.endl, n) → p.loops = (start, left) :: r →
        (1 < left → goes (.endl a) { p with pc := start, loops := (start, left - 1) :: r })
        ∧ (left ≤ 1 → goes (.endl a) { p with loops := r, pc := p.pc + n }))
    ∧ (∀ b c : Nat, p.instr = some (.signal b c, n) → s.sending a.val p = false →
        let v := Tab.get 0 (s.arcade b).sy (syKey p.gen c)
        (p.role = .check → goes (.signal a) { p with pc := p.pc + n })
        ∧ (p.role ≠ .check → v < 4095 → Reaches (.signal a) s fun t =>
          t = { s with arc := t.arc } ∧ Tab.get 0 (t.arcade b).sy (syKey p.gen c) = v + 1
          ∧ (∀ d e, (d ≠ b ∨ e ≠ syKey p.gen c) → Tab.get 0 (t.arcade d).sy e = Tab.get 0 (s.arcade d).sy e)
          ∧ (t.arcade a.val).running = some { p with pc := p.pc + n })
        ∧ (p.role ≠ .check → 4095 ≤ v → Reaches (.signal a) s fun t =>
          (∀ d e, Tab.get 0 (t.arcade d).sy e = Tab.get 0 (s.arcade d).sy e)
          ∧ (t.arcade a.val).running = some { p with pc := p.pc + n }
          ∧ t.health = (s.report { event := 0x0006, unitKind := 1, unit := b, detail := [BitVec.ofNat 8 c] }).health))
    ∧ ∀ c v tm : Nat, p.instr = some (.wait c v tm, n) →
        (p.role = .check → goes (.wait a) { p with pc := p.pc + n })
        ∧ (p.role ≠ .check → v ≤ Tab.get 0 (s.arcade a.val).sy (syKey p.gen c) → Reaches (.wait a) s fun t =>
          t = { s with arc := t.arc } ∧ Tab.get 0 (t.arcade a.val).sy (syKey p.gen c) = Tab.get 0 (s.arcade a.val).sy (syKey p.gen c) - v
          ∧ (∀ e, e ≠ syKey p.gen c → Tab.get 0 (t.arcade a.val).sy e = Tab.get 0 (s.arcade a.val).sy e)
          ∧ (t.arcade a.val).running = some { p with waiting := none, pc := p.pc + n } ∧ ∀ b, b ≠ a.val → t.arcade b = s.arcade b)
        ∧ (p.role ≠ .check → Tab.get 0 (s.arcade a.val).sy (syKey p.gen c) < v →
          goes (.wait a) { p with waiting := some (.counter c v tm (p.since s.now)) })

/-- The words of a tile program that move or compute data (R130 to R136, R138), on good operands that the session owns, in a span that
has issued and with no part of the program on its way: what is stored, and that every byte beside it stands. -/
def Obligations.TileDataWords : Prop :=
  ∀ (s : State) (a : Arc) (p : Prog) (n : Nat), s.Up → (s.arcade a.val).running = some p → p.atBoundary = false →
    p.poisoned = false → p.role ≠ .check → s.sending a.val p = false → s.pz.poison = [] → (s.arcade a.val).alsPoison = [] →
    (s.arcade a.val).sidePoison = [] → (s.arcade a.val).accPoison = [] →
    let c := s.arcade a.val
    let unit := 0x10 + a.val
    let goes (t : State) (b : Nat) : Prop := ∃ q, (t.arcade b).running = some q ∧ q.pc = p.pc + n ∧ q.ads = p.ads ∧ q.loops = p.loops
    (∀ act wt fan accRow clear ad steps kpr t0 aR aK aG wR wK sK sR m,
      p.instr = some (.tile act wt fan accRow clear ad steps kpr t0 aR aK aG wR wK sK sR, n) → Mode.ofPair act wt = some m →
      let o : TileOp := { act := act, wt := wt, fan := fan, accRow := accRow, clear := clear, ad := ad, steps := steps, kpr := kpr
                          t0 := t0, aR := aR, aK := aK, aG := aG, wR := wR, wK := wK, sK := sK, sR := sR }
      let wrow (i : Nat) : Nat := p.baseRow + o.subtile i / o.subsPerRow m
      let x (i j : Nat) : Machine.Sum :=
        (c.column o m (wrow i) (o.subtile i % o.subsPerRow m) (((o.reads m p.address i).take o.b).map s.pz.line)
          (match (o.reads m p.address i).drop o.b with
            | y :: _ => s.pz.line y
            | [] => ([], false)) j).1
      (∀ i, i < steps → (∀ y ∈ o.reads m p.address i, segOf y = a.val ∧ s.pageOk unit p.session y = true)
        ∧ s.rowReadable a.val p.session (wrow i) = true ∧ (clear = true ∨ o.row i ∈ p.valid)) →
      Reaches (.tile a []) s fun t =>
        t = { s with arc := t.arc, sess := t.sess } ∧ goes t a.val
        ∧ (t.arcade a.val).als = c.als ∧ (t.arcade a.val).side = c.side
        ∧ (∀ row j, j < 128 → (∀ i, i < steps → row ≠ o.row i) →
            Tab.get 0 (t.arcade a.val).acc (row * 128 + j) = Tab.get 0 c.acc (row * 128 + j))
        ∧ ∀ row j, j < 128 → (∃ i, i < steps ∧ row = o.row i) →
            Tab.get 0 (t.arcade a.val).acc (row * 128 + j)
              = (((List.range steps).filter fun i => o.row i == row && decide (j < m.columns)).map fun i => x i j).foldl
                  AccEntry.accumulate (if clear then m.zero else Tab.get 0 c.acc (row * 128 + j)))
    ∧ (∀ accRow rows odesc dstAd dst stride d, p.instr = some (.out accRow rows odesc dstAd dst stride, n) →
      p.plan.outputs[odesc]? = some d → (∀ k, k < rows → accRow + k ∈ p.valid) →
      let row (k : Nat) : Bytes × Bytes × Flags := d.row p.plan.luts[d.lut]? (c.accRow (accRow + k))
      let lines (k : Nat) : List (Nat × Bytes) := outLines (p.address dstAd + k * stride * 64) (row k).1 (row k).2.1
      (dst = 0 → ∀ k, k < rows → ∀ y ∈ lines k, segOf y.1 = a.val ∧ s.pageOk unit p.session y.1 = true) →
      (dst = 1 → ∀ k, k < rows → ∀ y ∈ lines k, y.1 < 2 ^ 21 ∧ s.rowWritable a.val p.session (y.1 / 8192) = true) →
      Reaches (.out a []) s fun t =>
        t = { s with arc := t.arc, pz := t.pz } ∧ goes t a.val ∧ (t.arcade a.val).acc = c.acc
        ∧ (dst ≠ 0 → t.pz = s.pz) ∧ (dst ≠ 1 → (t.arcade a.val).als = c.als)
        ∧ (dst = 0 → ∀ x, (∀ k, k < rows → ∀ y ∈ lines k, x / 64 ≠ y.1 / 64) → Tab.get 0 t.pz.mem x = Tab.get 0 s.pz.mem x)
        ∧ (dst = 1 → ∀ x, (∀ k, k < rows → ∀ y ∈ lines k, x / 64 ≠ y.1 / 64) →
            Tab.get 0 (t.arcade a.val).als x = Tab.get 0 c.als x)
        ∧ (dst = 0 → t.pz = (List.range rows).foldl (fun z k => (lines k).foldl (fun z y => z.writeLine y.1 y.2 false) z) s.pz)
        ∧ (dst = 1 → (t.arcade a.val).als
            = ((List.range rows).foldl (fun z k => (lines k).foldl (fun z y => z.writeAls y.1 y.2 false) z) c).als)
        ∧ ∃ q, (t.arcade a.val).running = some q
          ∧ q.flags = (List.range rows).foldl (fun f k => f ||| (row k).2.2.bits) p.flags
          ∧ q.payload = (if dst = 0 ∨ dst = 1 then p.payload else (List.range rows).foldl (fun z k =>
              Tab.setMany 0 z (p.address dstAd + k * stride * (if dst = 2 then 16 else 64))
                (padTo 16 ((row k).1 ++ if dst = 2 then (row k).2.1 else []))) p.payload))
    ∧ (∀ accRow rows rdesc part dg r, p.instr = some (.send accRow rows rdesc part dg, n) → p.plan.reductions[rdesc]? = some r →
      (∀ k, k < rows → accRow + k ∈ p.valid) →
      let data := (List.range rows).map fun k => c.accRow (accRow + k)
      let digest (key : BitVec 128) : BitVec 128 := if dg then collectiveDigest key rdesc part p.count data else 0
      (p.plan.destRemote rdesc = false → Reaches (.send a []) s fun t =>
        t = { s with arc := t.arc } ∧ goes t a.val
        ∧ (t.arcade r.dest).inFlight = (s.arcade r.dest).inFlight
            ++ [{ gen := p.gen, rdesc := rdesc, part := part, row := r.recvRow + part * r.rows, rows := data
                  source := some (a.val, p.role), poison := (List.range rows).map fun k => c.accRowPoison (accRow + k)
                  digest := digest p.plan.hcKey }]
        ∧ ∀ b, b ≠ r.dest → (t.arcade b).inFlight = (s.arcade b).inFlight)
      ∧ (p.plan.destRemote rdesc = true → Reaches (.send a []) s fun t =>
        let u := s.sendPartMsg rdesc part
          ((List.range rows).map fun k => partRowBytes (c.accRow (accRow + k)) (c.accRowPoison (accRow + k))) (digest s.fm.collectiveKey)
        t = { u with arc := t.arc } ∧ goes t a.val ∧ ∀ b, (t.arcade b).inFlight = (s.arcade b).inFlight))
    ∧ (∀ rdesc r, p.instr = some (.comb rdesc, n) → p.plan.reductions[rdesc]? = some r →
      (c.allArrived p.gen rdesc r.parts = false → Reaches (.comb a []) s fun t =>
        t = { s with arc := t.arc }
        ∧ t.arcade a.val = { c with running := some { p with waiting := some (.parts rdesc (p.since s.now)) } })
      ∧ (c.allArrived p.gen rdesc r.parts = true → c.badPart p s.fm.collectiveKey rdesc r = false → Reaches (.comb a []) s fun t =>
        t = { s with arc := t.arc } ∧ goes t a.val ∧ (t.arcade a.val).als = c.als
        ∧ (∀ k, 1 ≤ k → k < r.parts → Tab.get false (t.arcade a.val).parts (partKey p.gen rdesc k) = false)
        ∧ (t.arcade a.val).acc = ((List.range r.rows).foldl (fun c x => c.foldRow r x) c).acc))
    ∧ ∀ src dst lines, p.instr = some (.move src dst lines, n) →
      let x (k : Nat) : Nat := p.address src / 64 * 64 + 64 * k
      let y (k : Nat) : Nat := p.address dst / 64 * 64 + 64 * k
      (∀ k, k < lines → s.pageOk unit p.session (x k) = true ∧ s.pageOk unit p.session (y k) = true) →
      Reaches (.move a []) s fun t =>
        t = { s with arc := t.arc, pz := t.pz } ∧ goes t a.val ∧ (t.arcade a.val).als = c.als
        ∧ t.pz = (List.range lines).foldl (fun z k => z.writeLine (y k) (z.line (x k)).1 false) s.pz
        ∧ ∀ w, (∀ k, k < lines → w / 64 ≠ y k / 64) → Tab.get 0 t.pz.mem w = Tab.get 0 s.pz.mem w

/-! The ends of programs, checks and stores. -/

/-- The ends of spans and programs (R82, R134, R137, R139, R156, R169, R370): BOUND ends a span and END a program, whose outcome
its slot or job takes; a part arrives; a wait that is over faults the session; queued and suspended programs go on; a faulted
session is aborted. -/
def Obligations.ProgramsEndAndQueue : Prop :=
  (∀ (s : State) (a : Arc) (p : Prog) (n : Nat), s.Up → s.fm.state = .off → (s.arcade a.val).running = some p → p.atBoundary = false →
      p.ending = false → p.instr = some (.bound, n) → s.sending a.val p = false → (∀ k ∈ (s.arcade a.val).checks, k.stage = .capturing) →
      Reaches (.bound a) s fun t =>
        t = { s with arc := t.arc } ∧ (∀ b, b ≠ a.val → t.arcade b = s.arcade b)
        ∧ (t.arcade a.val).running = some { p with
            pc := p.pc + 1, atBoundary := true, valid := [], sigs := p.sigs ++ [polyFinish p.otherAcc p.otherBlocks], selected := false }
        ∧ (t.arcade a.val).checks.length = (s.arcade a.val).checks.length
        ∧ ∀ k ∈ (t.arcade a.val).checks, k.instCount = p.inst → k.primarySig = some p.signature ∧ k.endTime = some s.now)
    ∧ (∀ (s : State) (a : Arc) (p : Prog) (n cs seq g : Nat) (x : SlotRun), s.live = true → s.fm.state = .off →
      (s.arcade a.val).running = some p → p.atBoundary = false → p.instr = some (.tend, n) → p.role = .slot cs seq →
      s.sending a.val p = false → (s.arcade a.val).checks = [] → s.slotOf cs seq = some x → (x.runners.find? fun r => r.1 == a.val) = some (a.val, g) →
      Reaches (.tend a []) s fun t =>
        (t.arcade a.val).running = none ∧ ∃ y, t.slotOf cs seq = some y
        ∧ y.runs = x.runs ++ [{ arcade := a.val, group := g, payload := p.payload, flags := p.flags, inst := p.inst
                                sigs := p.sigs ++ [polyFinish p.otherAcc p.otherBlocks] }]
        ∧ (g = 0 → x.runners = [(a.val, 0)] → x.dual = .single → x.fault = false →
            ∃ r, y.computed = some r ∧ r.status = rsOk ∧ r.ready = false))
    ∧ (∀ (s : State) (a : Arc) (p : Prog) (n j : Nat), s.live = true → s.fm.state = .off → (s.arcade a.val).running = some p →
      p.atBoundary = false → p.ending = false → p.instr = some (.tend, n) → p.role = .job j → s.sending a.val p = false →
      (s.arcade a.val).checks = [] → (s.job j).active = true → (s.job j).ready = [] → (s.job j).runners = [a.val] →
      (s.job j).runs = [] → (∀ e ∈ s.jobEntries j, s.noPrograms e.2.arcade = false) → Reaches (.tend a []) s fun t =>
        let x := s.job j
        (∃ q : JobRec, (t.job j).ready = [q] ∧ q.flags = p.flags ∧ q.formed = s.now ∧ q.seq = x.seq + 1
          ∧ q.rseq = (s.session x.session).rseqNext.toNat ∧ q.planGen = x.stepGen)
        ∧ (t.session x.session).rseqNext = (s.session x.session).rseqNext + 1 ∧ (t.job j).active = true ∧ ∀ i, i ≠ j → t.job i = s.job i)
    ∧ (∀ (s : State) (a : Arc) (rdesc : Fin 256) (part : Fin 16) (x : InPart) (v : List (BitVec 64)), s.Up →
      ((s.arcade a.val).inFlight.find? fun y => y.rdesc == rdesc.val && y.part == part.val) = some x →
      Reaches (.partArrival a rdesc part) s fun t =>
        t = { s with arc := t.arc } ∧ (∀ b, b ≠ a.val → t.arcade b = s.arcade b)
        ∧ (t.arcade a.val).inFlight = (s.arcade a.val).inFlight.erase x
        ∧ Tab.get false (t.arcade a.val).parts (partKey x.gen rdesc.val part.val) = true
        ∧ (t.arcade a.val).running = (s.arcade a.val).running
        ∧ (x.rows = [v] → v.length = 128 → (t.arcade a.val).accRow x.row = v
          ∧ (t.arcade a.val).accRowPoison x.row = (List.range 128).map fun j => (x.poison.getD 0 []).getD j false))
    ∧ (∀ (s : State) (a : Arc) (p : Prog) (comb : Bool), s.live = true → s.stuckAt a.val comb = some p →
      (s.session p.session).state = .keyed → (s.session p.session).faultAt = none →
      Reaches (if comb then .combTimeout a else .waitTimeout a) s fun t =>
        (t.arcade a.val).running = none ∧ (t.session p.session).state = .faulted ∧ (t.session p.session).faultAt = some s.now
        ∧ ∀ m, m ≠ p.session → t.session m = s.session m)
    ∧ (∀ (s : State) (a : Arc) (x : Start) (r : List Start), s.Up → (s.arcade a.val).running = none → (s.arcade a.val).queue = x :: r →
      Reaches (.queuedSlotStart a) s fun t => t = { s with arc := t.arc } ∧ (∀ b, b ≠ a.val → t.arcade b = s.arcade b)
        ∧ t.arcade a.val = { s.arcade a.val with running := some x.prog, queue := r })
    ∧ (∀ (s : State) (a : Arc) (x : Prog) (r : List Prog), s.Up → (s.arcade a.val).running = none → (s.arcade a.val).queue = [] →
      (s.arcade a.val).bulk = x :: r → Reaches (.bulkResume a) s fun t =>
        t = { s with arc := t.arc } ∧ (∀ b, b ≠ a.val → t.arcade b = s.arcade b)
        ∧ t.arcade a.val = { s.arcade a.val with running := some x, bulk := r })
    ∧ ∀ (s : State) (sc : Sc) (at0 : Nat), s.live = true → s.fm.state = .off → (s.session sc.val).state ≠ .free →
      (s.session sc.val).faultAt = some at0 → (s.allReleased sc.val = true ∨ at0 + 100000 ≤ s.now) →
      Reaches (.sessionFaultAbort sc) s fun t => (t.session sc.val).state = .closing ∧ (t.session sc.val).faultAt = none

/-- The checks of spans (R179 to R188, R191, R437): a capture brings the footprint to the checker, and in lockstep the partner's run
follows it; the check starts on an Arcade that is free and may check; equal signatures pass it; a referee that sides with the primary
leaves the checker to its repeat, one that sides with the checker the primary, and one that sides with neither, or cannot run, ends the
check; a repeat ends it; an overdue check is cancelled. -/
def Obligations.ChecksRun : Prop :=
  (∀ (s : State) (a : Arc) (k : Check), s.Up → ((s.arcade a.val).checks.find? fun x => x.stage == .capturing) = some k →
      (∀ c, c < 16 → (s.arcade c).integ ≠ .probation) →
      (k.checker < 16 → Reaches (.captureDone a []) s fun t =>
        t = { s with arc := t.arc, pz := t.pz, sess := t.sess, health := t.health, win := t.win }
        ∧ t.pz = (s.copyLines k.session k.plan k.schedule k.schedule (k.entryFor a.val k.checker) (s.footprint a.val k)).pz
        ∧ (∀ b, b ≠ a.val → t.arcade b = s.arcade b)
        ∧ t.arcade a.val = { s.arcade a.val with
            checks := (s.arcade a.val).checks.map fun x => if x.instCount = k.instCount then { x with stage := .queued } else x })
      ∧ (k.checker = 16 → s.checkOf a.val k.instCount = some k → (k.primarySig = none ∨ k.checkerSig = none) →
        Reaches (.captureDone a []) s fun t => t.checkOf a.val k.instCount = some { k with stage := .running }))
    ∧ (∀ (s : State) (a : Arc) (q : Nat × Nat) (r : List (Nat × Nat)) (k : Check), s.Up → (s.arcade a.val).checking = none →
      (s.arcade a.val).checkQueue = q :: r → (s.arcade a.val).atCheck = true → (s.arcade a.val).checks? = true →
      s.quarterOut a.val = false → s.checkOf q.1 q.2 = some k → k.stage = .queued →
      Reaches (.checkStart a) s fun t => t = { s with arc := t.arc } ∧ (t.arcade a.val).checking = some q
        ∧ (t.arcade a.val).checkQueue = r ∧ t.checkOf q.1 q.2 = some { k with stage := .running })
    ∧ (∀ (s : State) (a : Arc) (q : Nat × Nat) (k : Check), s.live = true → (s.arcade a.val).checking = some q →
      s.checkOf q.1 q.2 = some k → k.stage = .running → (s.arcade a.val).noControl = true → (s.arcade a.val).checks? = true →
      let x := (s.onArc a.val fun c => { c with checking := none }).runCheck q.1 a.val k []
      (x.2 = none → Reaches (.checkComplete a []) s fun t => t.checkOf q.1 q.2 = none)
      ∧ ∀ g, x.2 = some g → x.1.checkOf q.1 q.2 = some k →
        (k.primarySig = none → Reaches (.checkComplete a []) s fun t => t.checkOf q.1 q.2 = some { k with checkerSig := some g })
        ∧ (k.primarySig = some g → Reaches (.checkComplete a []) s fun t =>
            t.checkOf q.1 q.2 = none
              ∧ Tab.get 0 (t.arcade q.1).passInst k.session = max (Tab.get 0 (x.1.arcade q.1).passInst k.session) q.2))
    ∧ (∀ (s : State) (a : Arc) (k : Check) (r : Nat), s.live = true → s.checkAt a.val .refereeing = some k → k.referee = some r →
      (s.canRun r = false → Reaches (.refereeComplete a []) s fun t => t.checkOf a.val k.instCount = none) ∧
      ((s.arcade r).noControl = true → s.canRun r = true →
      let x := s.runCheck a.val r k []
      (x.2 = none → Reaches (.refereeComplete a []) s fun t => t.checkOf a.val k.instCount = none)
      ∧ ∀ g, x.2 = some g →
        (k.primarySig ≠ some g → k.checkerSig ≠ some g → Reaches (.refereeComplete a []) s fun t => t.checkOf a.val k.instCount = none)
        ∧ (k.primarySig = some g → 16 ≤ k.checker → Reaches (.refereeComplete a []) s fun t => t.checkOf a.val k.instCount = none)
        ∧ (k.primarySig = some g → k.checker < 16 → (x.1.arcade k.checker).integ = .inService →
            (∃ y, x.1.checkOf a.val k.instCount = some y) → Reaches (.refereeComplete a []) s fun t =>
              ∃ y, t.checkOf a.val k.instCount = some y ∧ y.stage = .repeating ∧ y.repeatOf = some (k.checker, g))
        ∧ (k.primarySig ≠ some g → k.checkerSig = some g → (x.1.arcade a.val).integ = .inService →
            (∃ y, x.1.checkOf a.val k.instCount = some y) → Reaches (.refereeComplete a []) s fun t =>
              ∃ y, t.checkOf a.val k.instCount = some y ∧ y.stage = .repeating ∧ y.repeatOf = some (a.val, g))))
    ∧ (∀ (s : State) (a : Arc) (k : Check) (x : Nat) (sig : BitVec 128), s.live = true → s.checkAt a.val .repeating = some k →
      k.repeatOf = some (x, sig) → s.quarterOut x = false → ((s.arcade x).noControl = true ∨ (s.arcade x).checks? = false) →
      Reaches (.repeatComplete a []) s fun t =>
        t.checkOf a.val k.instCount = none)
    ∧ ∀ (s : State) (e : EvIdx) (f : Firing) (fs : List Firing), s.live = true → s.ptu.firing = f :: fs → f.idx = e.val →
      f.kind = .checkWindow → Reaches (.checkWindow e) s fun t =>
        let a := (s.event e.val).target.toNat % 16
        t.ptu = { s.ptu with firing := fs, fired := s.ptu.fired + 1 } ∧ (∀ k ∈ (t.arcade a).checks, k ∈ (s.arcade a).checks ∧ k.late s.now = false)

/-- Dual runs (R193 to R196, R199): equal runs give the slot's record; different ones without a referee, runs whose inputs differ, or a
referee that sides with neither, leave it unresolved; a majority decides it; a shadow run counts toward an Arcade's return to service, or retires it. -/
def Obligations.DualRunsSettle : Prop :=
  (∀ (s : State) (cs : Cs) (x : SlotRun) (p : Plan), s.live = true → (s.plan (s.stream cs.val).win).running = some p →
      ((s.stream cs.val).slots.find? fun y =>
        y.dual == .waiting && !y.fault && y.rseq != 0 && y.groupDone 0 && (s.otherRun cs.val y).isSome) = some x →
      (∀ z ∈ (s.stream cs.val).slots, z.seq = x.seq → z = x) →
      let o := x.outcome x.len 0
      (s.otherRun cs.val x = some o → Reaches (.dualCompare cs []) s fun t =>
        ∃ y r, t.slotOf cs.val x.seq = some y ∧ y.dual = .equal ∧ y.computed = some r ∧ r.status = rsOk ∧ r.ready = false)
      ∧ (s.otherRun cs.val x ≠ some o → (x.runners.any fun r => r.2 == 2) = false → (s.runEntries p cs.val).2.2 = [] →
        Reaches (.dualCompare cs []) s fun t =>
          ∃ y, t.slotOf cs.val x.seq = some y ∧ y.dual = .mismatch
            ∧ (x.released = none → ∃ r, y.mismatch = some r ∧ r.status = rsMismatch))
      ∧ (s.otherRun cs.val x ≠ some o → (x.runners.any fun r => r.2 == 2) = true →
        let in0 := p.inputOf (s.entriesOf p cs.val x 0)
        let in1 := p.inputOf (s.entriesOf p cs.val x 1)
        (∀ b ∈ in0 ++ in1, s.bufferOk (0x10 + segOf b.base) (s.stream cs.val).session b = true) →
        (in1 = [] ∨ s.contents in0 = s.contents in1 → Reaches (.dualCompare cs []) s fun t =>
          ∃ y, t.slotOf cs.val x.seq = some y ∧ y.dual = .referee
            ∧ (x.released = none → ∃ r, y.mismatch = some r ∧ r.status = rsMismatch))
        ∧ (in1 ≠ [] → s.contents in0 ≠ s.contents in1 → Reaches (.dualCompare cs []) s fun t =>
          ∃ y, t.slotOf cs.val x.seq = some y ∧ y.dual = .mismatch
            ∧ (x.released = none → ∃ r, y.mismatch = some r ∧ r.status = rsMismatch))))
    ∧ (∀ (s : State) (cs : Cs) (x : SlotRun) (p : Plan), s.live = true → (s.plan (s.stream cs.val).win).running = some p →
      ((s.stream cs.val).slots.find? fun y => (y.dual == .referee || y.dual == .equal) && !y.fault && y.groupDone 2) = some x →
      (∀ z ∈ (s.stream cs.val).slots, z.seq = x.seq → z = x) →
      let o (g : Nat) : Outcome1 := x.outcome x.len g
      (x.dual = .equal → Reaches (.dualRefereeComplete cs []) s fun t => ∃ y, t.slotOf cs.val x.seq = some y ∧ y.dual = .equal)
      ∧ (x.dual = .referee → o 2 = o 0 → Reaches (.dualRefereeComplete cs []) s fun t =>
        ∃ y, t.slotOf cs.val x.seq = some y ∧ y.dual = .majority ((x.culprit 1 2).getD 16)
          ∧ (x.released = none → ∃ r, y.computed = some r ∧ r.status = rsOk))
      ∧ (x.dual = .referee → o 2 ≠ o 0 → s.otherRun cs.val x = some (o 2) → Reaches (.dualRefereeComplete cs []) s fun t =>
        ∃ y, t.slotOf cs.val x.seq = some y ∧ y.dual = .majority ((x.culprit 0 2).getD 16)
          ∧ (x.released = none → ∃ r, y.computed = some r ∧ r.status = rsOk))
      ∧ (x.dual = .referee → o 2 ≠ o 0 → s.otherRun cs.val x ≠ some (o 2) → Reaches (.dualRefereeComplete cs []) s fun t =>
        ∃ y, t.slotOf cs.val x.seq = some y ∧ y.dual = .mismatch))
    ∧ ∀ (s : State) (a : Arc) (x : Shadow) (cs seq : Nat), s.live = true →
      ((s.arcade a.val).shadowWork.find? fun y => y.want.isSome && (y.check.isSome || y.mine.isSome)) = some x →
      (s.arcade a.val).noControl = true → (s.arcade a.val).integ = .probation → x.check = none → x.slot = some (cs, seq) →
      (x.mine = x.want → (s.arcade a.val).trial + 1 < 10000 → Reaches (.shadowRunComplete a []) s fun t =>
        t.arcade a.val = { s.arcade a.val with
          shadowWork := (s.arcade a.val).shadowWork.erase x, trial := (s.arcade a.val).trial + 1 } ∧ ∀ b, b ≠ a.val → t.arcade b = s.arcade b)
      ∧ (x.mine = x.want → 10000 ≤ (s.arcade a.val).trial + 1 → Reaches (.shadowRunComplete a []) s fun t =>
        (t.arcade a.val).integ = .inService ∧ (t.arcade a.val).shadowWork = [] ∧ t.marked a.val = false ∧ ∀ b, b ≠ a.val → t.arcade b = s.arcade b)
      ∧ (x.mine ≠ x.want → Reaches (.shadowRunComplete a []) s fun t =>
        (t.arcade a.val).integ = .retired ∧ t.health.retiredArc = s.health.retiredArc ||| BitVec.ofNat 16 (2 ^ a.val))

/-- The stores (R97, R103, R104, R106, R108, R369): what an engine's order covers is zero when it ends, and an order on regions that
a program of the plan before still uses waits (R146); patrol advances and counts
a corrected error; a self-test orders the zeroise of the whole unit or retires it; an error in the Ownership Map is put right, or
resets the block. -/
def Obligations.StoresAreScrubbed : Prop :=
  (∀ (s : State) (u : Arc) (o : ZOrder) (r : List ZOrder), s.live = true → (s.segment u.val).engine = o :: r →
      Reaches (.zeroiseDone u false) s fun t =>
        ((s.segment u.val).state ≠ .inService ∨ (s.segment u.val).uePass = [] ∧ (s.segment u.val).retired + o.items.length ≤ 256 →
          (t.segment u.val).engine = r)
        ∧ ∀ page ∈ o.items, (s.omapOf page).scrub ≠ .retired → ∀ x, x / 1024 = page → Tab.get 0 t.pz.mem x = 0)
    ∧ (∀ (s : State) (u : Arc) (o : ZOrder) (r : List ZOrder), s.Up → (s.arcade u.val).engine = o :: r → s.orderWaits u.val o = true →
      exec (.zeroiseDone u true) s = .next s)
    ∧ (∀ (s : State) (u : Arc) (o : ZOrder) (r : List ZOrder), s.live = true → (s.arcade u.val).engine = o :: r →
      s.orderWaits u.val o = false →
      Reaches (.zeroiseDone u true) s fun t => (t.arcade u.val).engine = r
        ∧ (∀ g ∈ o.rows, ∀ x, g.1 * 8192 ≤ x → x < (g.2 + 1) * 8192 → Tab.get 0 (t.arcade u.val).als x = 0)
        ∧ ∀ d ∈ o.items, let g := Tab.get {} (s.arcade u.val).regions d
          ∀ x, g.firstRow * 8192 ≤ x → x < (g.lastRow + 1) * 8192 → Tab.get 0 (t.arcade u.val).als x = 0)
    ∧ (∀ (s : State) (u : Arc), s.Up → (s.segment u.val).state = .inService → (s.segment u.val).zeroised = true →
      let page := (s.segment u.val).patrolPage % 4096
      ((s.segment u.val).uePass = [] → (s.segment u.val).retired ≤ 256 → Reaches (.patrol u false []) s fun t =>
        t = { s with pz := { s.pz with segs := t.pz.segs } } ∧ (t.segment u.val).patrolPage = (page + 1) % 4096
        ∧ ∀ n, n ≠ u.val → t.segment n = s.segment n)
      ∧ (∀ line word : Nat, (s.segment u.val).uePass = [] → (s.segment u.val).retired ≤ 256 →
        Reaches (.patrol u false [{ line := line, word := word, ecc := .ce }]) s fun t =>
          t = { s with pz := { s.pz with segs := t.pz.segs }, health := t.health, win := t.win }
          ∧ (t.segment u.val).ce = (s.segment u.val).ce + 1 ∧ (t.segment u.val).patrolPage = (page + 1) % 4096
          ∧ t.health.correctedCnt = s.health.correctedCnt + 1)
      ∧ Reaches (.patrol u true []) s fun t => t = { s with arc := t.arc }
        ∧ (t.arcade u.val).patrolRow = ((s.arcade u.val).patrolRow % 256 + 1) % 256 ∧ (t.arcade u.val).als = (s.arcade u.val).als
        ∧ ∀ n, n ≠ u.val → t.arcade n = s.arcade n)
    ∧ (∀ (s : State) (u : Arc) (x : SelfTest), s.live = true → s.pm.ramping = some u.val → Tab.get UnitState.off s.pm.units u.val = .test →
      (s.segment u.val).engine = [] → x.badPages = [] →
      (x.pass = true → Reaches (.selfTestDone u x) s fun t =>
        (t.segment u.val).state = .test ∧ (t.segment u.val).engine = [{ items := segmentPages u.val, toPool := true }]
          ∧ (t.arcade u.val).engine = [{ items := [], rows := [(0, 255)], toPool := true }] ∧ (t.arcade u.val).badRows = x.badRows)
      ∧ (x.pass = false → Reaches (.selfTestDone u x) s fun t =>
        (t.segment u.val).state = .retired ∧ (t.arcade u.val).integ = .retired ∧ Tab.get UnitState.off t.pm.units u.val = .off
          ∧ t.pm.ramping = none))
    ∧ ∀ (s : State) (n : Arc) (e : Fin 4096),
      (s.Up → exec (.omapScrub n e none) s = .next s)
      ∧ (s.Up → Reaches (.omapScrub n e (some .ce)) s fun t =>
          t = { s with health := t.health, win := t.win } ∧ t.health.correctedCnt = s.health.correctedCnt + 1)
      ∧ (s.live = true → Reaches (.omapScrub n e (some .ue)) s fun t =>
          t.boot = {} ∧ t.sess = [] ∧ t.flash = s.flash ∧ t.fuses = s.fuses ∧ t.health.cause = 1 ∧ t.health.causeUnit = n.val
          ∧ t.health.causeEvent = 0x0601)

/-! Controllers, resets and the boot. -/

/-- Watchdogs, crashes and restarts (R267, R269, R285, R321, R333, R340, R374 to R379): a kick is noted; a lane that has held an item for 2 µs is reset and its item restarts; a
crash of the Forecourt ends its engines' work, and the fourth within 60 s resets the block; a Quarter's data region is zeroised and
it restarts, fails, is detached or comes back. -/
def Obligations.ControllersFailAndReturn : Prop :=
  (∀ s : State, s.Up → s.boot.step ≠ 0 → exec .fcWdogKick s = .next { s with health := { s.health with fcKick := s.now } })
    ∧ (∀ (s : State) (q : Fin 4), s.Up → (s.qcOf q.val).state = .running → Reaches (.qcWdogKick q) s fun t =>
        t = { s with health := { s.health with qc := t.health.qc } } ∧ t.qcOf q.val = { s.qcOf q.val with lastKick := s.now }
        ∧ ∀ p, p ≠ q.val → t.qcOf p = s.qcOf p)
    ∧ (∀ (s : State) (l : Lane), s.Up →
        (s.laneItem = none → exec (.laneWdogExpiry l) s = .next s)
        ∧ ∀ cs seq k since x, s.laneItem = some (cs, seq, k, since) → s.slotOf cs seq = some x →
          (∀ z ∈ (s.stream cs).slots, z.seq = x.seq → z = x) → Reaches (.laneWdogExpiry l) s fun t =>
            t = { s with streams := t.streams, health := t.health, win := t.win } ∧ t.slotOf cs seq = some (x.restart k s.now)
            ∧ t.health.unit = true ∧ t.health.unitCnt = s.health.unitCnt + 1)
    ∧ (∀ (s : State) (c : Instr) (trap : BitVec 32), s.live = true → 7 ≤ s.boot.step → s.health.fcRestarting = false →
        (c = .fcCrash trap ∨ (c = .fcWdogExpiry ∧ s.health.fcKick + 1000000 ≤ s.now)) →
        let recent := (s.health.fcCrashTimes.filter fun t => s.now ≤ t + 60000000000).length
        (recent < 3 → Reaches c s fun t => t.health.fcRestarting = true ∧ t.health.degraded = true ∧ t.keys.kreg = none
            ∧ t.de = [] ∧ t.pke.queue = [] ∧ t.pke.run = none ∧ t.pke.suspended = none ∧ t.plans = s.plans
            ∧ ∀ a, t.arcade a = { s.arcade a with reserve := (t.arcade a).reserve })
          ∧ (3 ≤ recent → Reaches c s fun t => t.ResetFrom s
            ∧ t.health.cause = 3 ∧ t.health.causeEvent = 0x0603))
    ∧ (∀ (s : State) (upset : Option (BitVec 19 × Byte)) (errs : List Bool), s.live = true → 7 ≤ s.boot.step →
        s.health.fcRestarting = true →
        let r : State := match upset with
          | some (a, e) => { s with fcSram := Tab.upd 0 s.fcSram a.toNat fun b => b ^^^ e }
          | none => s
        let back (t : State) : Prop := t.health.fcRestarting = false ∧ t.health.fcKick = s.now ∧ t.lc.fcHalted = false
          ∧ t.health.fcCrashes = min (s.health.fcCrashes + 1) (2 ^ 32 - 1)
        (s.boot.fcImage = none → Reaches (.fcRestartDone upset errs) s back)
        ∧ ∀ k, s.boot.fcImage = some k →
          let x := r.choose 0 [] errs 0 [r.candidate k.area k.offset (ksiHead + k.payloadBytes)]
          (r.copyGood 0 [] k = true ∨ x.1.isSome = true → Reaches (.fcRestartDone upset errs) s back)
          ∧ (r.copyGood 0 [] k = false → x.1 = none → Reaches (.fcRestartDone upset errs) s fun t =>
              t.health.fcRestarting = true ∧ t.health.fcCrashes = s.health.fcCrashes ∧ t.plans = s.plans))
    ∧ (∀ (s : State) (q : Fin 4) (c : Instr) (trap : BitVec 32) (ue : Bool), s.live = true → s.qcRuns q.val = true →
        (c = .qcCrash q trap ue ∨ (c = .qcWdogExpiry q ∧ ue = false ∧ (s.qcOf q.val).lastKick + 200000 ≤ s.now)) →
        let again := match (s.qcOf q.val).reattached with
          | some t => decide (s.now ≤ t + 10000000)
          | none => false
        Reaches c s fun t =>
          (t.qcOf q.val).state = (if ue || again then QcState.failed else QcState.restarting)
          ∧ ∀ x, 2 ^ 18 * q.val + (match Tab.get none s.boot.qcImage q.val with
              | some k => (k.place 1).1 + (k.place 1).2
              | none => 0) ≤ x → x < 2 ^ 18 * q.val + 0xC000 → Tab.get 0 t.qcMem x = 0)
    ∧ (∀ (s : State) (q : Fin 4), s.live = true →
        ((s.qcOf q.val).state = .restarting →
          (∀ e, Reaches (.qcReattach q e) s fun t => t = { s with health := t.health, win := t.win }
            ∧ t.qcOf q.val = { s.qcOf q.val with
                state := .running, crashes := min 255 ((s.qcOf q.val).crashes + 1), reattached := some s.now, lastKick := s.now }
            ∧ ∀ p, p ≠ q.val → t.qcOf p = s.qcOf p)
          ∧ ((s.qcOf q.val).lastKick / 4096 + 256 ≤ s.epoch → Reaches (.qcDetachExpiry q) s fun t => (t.qcOf q.val).state = .detached))
        ∧ ∀ k e, (s.qcOf q.val).state = .failed ∨ (s.qcOf q.val).state = .detached → s.fcUp = true →
          Tab.get none s.boot.qcImage q.val = some k →
          let x := s.choose 1 [q.val] [e] 0 [s.candidate k.area k.offset (ksiHead + k.payloadBytes)]
          Reaches (.qcReattach q e) s fun t =>
            (x.1.isSome = true → t.qcOf q.val = { s.qcOf q.val with
              state := .running, crashes := min 255 ((s.qcOf q.val).crashes + 1), reattached := some s.now, lastKick := s.now })
            ∧ (x.1 = none → t.qcOf q.val = s.qcOf q.val))
    ∧ ∀ (s : State) (q : Fin 4) (k : Ksi), s.Up → s.fcUp = true → Tab.get none s.boot.qcStaged q.val = some k → s.drained q.val = true →
        (s.qcOf q.val).state = .running →
        (∀ e, (s.stagedCandidates 1).head? = none → exec (.qcActivate q e) s = .next s)
        ∧ ∀ c e, (s.stagedCandidates 1).head? = some c →
          let x := State.choose 1 [q.val] { s with boot := { s.boot with qcStaged := Tab.set none s.boot.qcStaged q.val none } } [e] 0 [c]
          Reaches (.qcActivate q e) s fun t => Tab.get none t.boot.qcStaged q.val = none
            ∧ (x.1.isSome = true → t.qcOf q.val = { s.qcOf q.val with lastKick := s.now }
              ∧ Tab.get none t.boot.qcImage q.val = some c.ksi)
            ∧ (x.1 = none → x.2.copyGood 1 [q.val] c.ksi = true ∨ x.2.boot.failCode ≠ 8 → t.qcOf q.val = s.qcOf q.val)
            ∧ (x.1 = none → x.2.copyGood 1 [q.val] c.ksi = false → x.2.boot.failCode = 8 → (t.qcOf q.val).state = .failed)

/-- Resets (R302, R371, R373, R396, R397, R413, R414, R443 to R445): each reset boots the block from step 1 with its cause; one
hardened copy that differs is put right, three that differ reset the block; the supply and por_n hold the block; a power-loss
warning wipes the secrets and the memories, and halts it. -/
def Obligations.ResetsOfTheBlock : Prop :=
  (∀ (s : State) (e : BlockEvent), s.live = true → Reaches (.blockResetRequest e) s fun t =>
      t.ResetFrom s ∧ t.health.causeEvent = (match e with
        | .ctrlPoison _ _ => 0x0601
        | .hcSplit => 0x0602
        | .fcCrashLoop => 0x0603)
      ∧ t.health.cause = (match e with
        | .ctrlPoison _ _ => 1
        | .hcSplit => 2
        | .fcCrashLoop => 3))
    ∧ (∀ (s : State) (r : HcRef) (a b c : Word), s.live = true →
      (a ≠ b → b ≠ c → a ≠ c → Reaches (.hcCopyDisagreement r a b c) s fun t =>
        t.ResetFrom s ∧ t.health.cause = 2 ∧ t.health.causeEvent = 0x0602)
      ∧ (s.Synced → (a = b ∨ b = c ∨ a = c) → ¬ (a = b ∧ b = c) → Reaches (.hcCopyDisagreement r a b c) s fun t =>
        let v := if a = b ∨ a = c then a else b
        let u := if s.hcValue r = v then s else s.setHc r v
        t = { u with health := t.health, win := t.win } ∧ t.health.corrected = true
          ∧ t.health.correctedCnt = s.health.correctedCnt + 1
          ∧ match r with
            | .event _ _ | .region _ _ => True
            | _ => t.hcValue r = v))
    ∧ (∀ (s : State) (x : Straps), s.Synced → (s.top.porLow = true ∨ s.top.supply = false) →
      exec (.por x) s = .next { s with top := { s.top with supply := true, porLow := false, straps := x } })
    ∧ (∀ s : State, s.top.supply = true → s.top.porLow = false → Reaches .porNLow s fun t =>
      t.ResetFrom s ∧ t.top.porLow = true ∧ t.live = false ∧ t.health.ring = s.health.ring ∧ t.lc.grant = s.lc.grant)
    ∧ (∀ s : State, s.live = true → Reaches .sysRst s fun t => t.ResetFrom s ∧ t.health.cause = 7 ∧ t.lc.grant = s.lc.grant)
    ∧ (∀ s : State, s.top.supply = true → Reaches .supplyRemoved s fun t =>
      t.ResetFrom s ∧ t.top.supply = false ∧ t.live = false ∧ t.health = {} ∧ t.lc = {})
    ∧ (∀ (s : State) (at0 cause : Nat), s.live = true → s.lc.resetWait = some (at0, cause) → (at0 ≤ s.now ∨ s.waitDone = true) →
      Reaches .checkpointWaitExpiry s fun t => t.ResetFrom s ∧ t.health.cause = cause ∧ t.lc.grant = s.lc.grant)
    ∧ (∀ s : State, s.live = true → Reaches .pwrWarn s fun t =>
      t.top.halted = true ∧ t.live = false ∧ t.keys.ska = [] ∧ t.keys.kreg = none ∧ t.de = [] ∧ t.pke = {} ∧ t.fuses = s.fuses
        ∧ t.flash = s.flash ∧ (∀ x, x < 2 ^ 26 → Tab.get 0 t.pz.mem x = 0) ∧ (∀ a : Arc, (t.arcade a.val).als = [])
        ∧ ∀ n, (t.session n).keyx = none ∧ (t.session n).plantKey = none ∧ (t.session n).oldKeys = [])
    ∧ ∀ s : State, s.top.supply = true → s.top.porLow = false → s.top.halted = true → Reaches .pwrWarnClear s fun t =>
      t.ResetFrom s ∧ t.top.halted = false ∧ t.health.cause = 7 ∧ t.health.ring = s.health.ring

/-- The steps of a boot, their locks and the domains that ramp (R276, R282 to R286, R288, R289, R317, R345, R347, R399 to R401, R471,
R472). -/
def Obligations.BootStepsRun : Prop :=
  (∀ (s : State) (b : BootIn), s.live = true → s.stepReady = true → Reaches (.bootStepDone b) s fun t =>
      (s.boot.step = 1 → t.boot.step = 2 ∧ t.boot.stage = .rom ∧ t.top.blkRst = false ∧ t.lc.decoded = true
        ∧ t.pm.domains.getLsbD 32 = true ∧ t.pm.domains.getLsbD 33 = true)
      ∧ (s.boot.step = 2 → t.lc.grant = 0
        ∧ ((∀ x ∈ b.startup.take 3, startupPasses x = false) → t.boot.step = 0 ∧ t.boot.stage = .halted)
        ∧ ((∃ x ∈ b.startup.take 3, startupPasses x = true) → t.trng.state = .ok ∧ t.boot.step
          = (if t.lc.state = 0 ∨ t.lc.state = 2 ∨ 6 ≤ t.lc.state ∨ t.lc.pendingRecord ≠ none then 0 else 3)))
      ∧ (s.boot.step = 3 → (s.top.straps.recoveryReq = true → t.boot.step = 3 ∧ t.boot.stage = .serial ∧ t.uart.loader = 0)
        ∧ ((t.boot.step = 3 ∧ t.boot.stage = .serial) ∨ (t.boot.step = 4 ∧ t.boot.bl1Image.isSome = true)))
      ∧ (s.boot.step = 4 → s.Synced →
        (s.boot.serial = false → t = { s with boot := { s.boot with step := 5, stage := .bl1 } })
        ∧ (s.boot.serial = true → t = { s with
            boot := { s.boot with step := 5, stage := .serial }, uart := { s.uart with loader := 1, load := none } }))
      ∧ (s.boot.step = 5 → (t.boot.step = 6 ∧ t.boot.fcImage.isSome = true)
        ∨ (t.boot.step = 0 ∧ (t.boot.stage = .recovery ∨ t.boot.stage = .halted)))
      ∧ (s.boot.step = 6 → t.boot.step = 7 ∧ t.boot.stage = .fcInit
        ∧ t.boot.trayUntil = s.now + s.top.straps.traySlot.toNat * 20000000
        ∧ t.pm.domains = s.pm.domains ||| 0xC_0000_0000 ||| (if s.lc.openScopes = 0 then 0 else 0x20_0000_0000))
      ∧ (s.boot.step = 7 → t.boot.step = 8 ∧ t.boot.stage = .qcLoad)
      ∧ (s.boot.step = 8 → t.boot.step = 9 ∧ t.boot.stage = .subsys
        ∧ (s.stagedCandidates 1 = [] → ∀ q : Fin 4, (t.qcOf q.val).state = .failed))
      ∧ (s.boot.step = 9 → s.Synced → t = { s with boot := { s.boot with step := 10, stage := .identity } })
      ∧ (s.boot.step = 10 → t.boot.step = 11 ∧ t.boot.stage = .identity ∧ t.boot.mrLock = true)
      ∧ (s.boot.step = 11 → t.boot.step = 12 ∧ t.boot.stage = .ready ∧ t.boot.readyUs = BitVec.ofNat 32 b.us
        ∧ t.health.readyAt = some s.now ∧ t.health.fcKick = s.now))
    ∧ (∀ s : State, s.Up → s.boot.step = 4 → Reaches .romLock s fun t =>
      t = { s with boot := { s.boot with romLock := true }, keys := t.keys, trng := t.trng } ∧ t.slot 0 = {}
        ∧ ∀ n, n ≠ 0 → t.slot n = s.slot n)
    ∧ (∀ s : State, s.Up → s.boot.step = 6 → Reaches .bl1Lock s fun t =>
      t = { s with boot := { s.boot with bl1Lock := true }, keys := t.keys, trng := t.trng } ∧ t.keys.cdi0 = [] ∧ t.slot 1 = {}
        ∧ ∀ n, n ≠ 1 → t.slot n = s.slot n)
    ∧ (∀ (s : State) (d : Fin 38), s.Up →
      (s.rampingDomain = some d.val → Reaches (.domainGood d) s fun t =>
        t = { s with pm := { s.pm with domains := s.pm.domains ||| BitVec.ofNat 38 (2 ^ d.val), units := t.pm.units } }
          ∧ (d.val < 16 → Tab.get UnitState.off t.pm.units d.val = .test) ∧ (16 ≤ d.val → t.pm.units = s.pm.units))
      ∧ (s.rampingDomain ≠ some d.val → exec (.domainGood d) s = .next s))
    ∧ ∀ (s : State) (q : FwReq) (w : LoadWork) (k : Nat), s.Up → s.boot.fwReq = some q → s.boot.loads = [w] → w.line = some k →
      (q.grant = true → ∀ errs, Reaches (.fwAck true errs) s fun t =>
        t = { s with boot := t.boot } ∧ t.boot.fwReq = none ∧ t.boot.loads = [] ∧ t.boot.failed = s.boot.failed
          ∧ t.boot.held = s.boot.held &&& ~~~(BitVec.ofNat 32 (2 ^ k)) ∧ t.boot.step = s.boot.step)
      ∧ (w.fallback = none → ∀ c errs, (c = .fwAck false errs ∨ (c = .firewallTimeout errs ∧ q.asked + 10000 ≤ s.now)) → Reaches c s fun t =>
        t.boot.fwReq = none ∧ t.boot.loads = [] ∧ t.boot.held = s.boot.held
          ∧ t.boot.failed = s.boot.failed ||| BitVec.ofNat 32 (2 ^ k) ∧ t.boot.failCode = 0x0A)
      ∧ (q.grant = false → ∀ errs, errs.headD false = false → Reaches (.fwAck true errs) s fun t =>
        Config.sha384 (ksiPayload w.image (s.loadBytes w.image)) = w.image.payloadDigest →
          t = { s with boot := t.boot, out := t.out } ∧ t.boot.fwReq = some
            { grant := true, base := w.image.loadAddress / 4096, pages := regionPages w.image, line := k, asked := s.now })

/-! The ports of the lifecycle, entropy and power. -/

/-- The JTAG ports and the challenge (R95, R301, R302, R305, R306, R312, R324, R469): a transition that is not offered or not
authorised is refused, and one that is accepted writes its intent and resets the block, or ends with ST_FAULT where the word does not
take; the fuse port blows bits in the words it
may write and leaves every other word; a debug instruction acts where its scope is open. -/
def Obligations.LifecyclePorts : Prop :=
  (∀ (s : State) (target : BitVec 4) (value : Bytes), s.live = true → s.lc.decoded = true →
      (s.Synced → ∀ stuck, (s.lc.portBlocked = true → exec (.lifecyclePortRequest target value stuck) s = .next (s.emit (.jtag false [])))
        ∧ (s.lc.portBlocked = false → portTransition s.lc.state target.toNat = none →
          exec (.lifecyclePortRequest target value stuck) s = .next (s.emit (.jtag false [8, 9]))))
      ∧ ∀ how, s.lc.portBlocked = false → portTransition s.lc.state target.toNat = some how →
        (if target = 1 ∨ target = 2 then 5 else if target = 6 then 1 else 2) ≤ s.blankRecords → Reaches (.lifecyclePortRequest target value none) s fun t =>
          (s.portAuthorised how value = false → t.lc = { s.lc with portBlocked := true } ∧ t.boot = s.boot ∧ t.fuses = s.fuses)
          ∧ (s.portAuthorised how value = true → t.boot = {} ∧ t.health.cause = 4 ∧ t.flash = s.flash
            ∧ ∃ i, s.lowestBlank = some i ∧ Tab.get 0 t.fuses (3 * i) = intentWord target.toNat s.lc.state i
              ∧ ∀ w, w ≠ 3 * i → Tab.get 0 t.fuses w = Tab.get 0 s.fuses w)
          ∧ ∀ (i : Nat) (f : Fin 512), s.lowestBlank = some i → f.val = 3 * i → s.portAuthorised how value = true →
            intentWord target.toNat s.lc.state i &&& ~~~(s.fuse (3 * i)) ≠ 0 →
            Reaches (.lifecyclePortRequest target value (some f)) s fun t =>
              t.out.head? = some (.jtag false [10]) ∧ t.boot = s.boot ∧ t.health.fuseReports = s.health.fuseReports + 1
                ∧ ∀ w, w ≠ 3 * i → Tab.get 0 t.fuses w = Tab.get 0 s.fuses w)
    ∧ (∀ (s : State) (w : Fin 512) (bits : BitVec 32) (stuck : Option (Fin 512)), s.Up → s.lc.decoded = true →
      (fusePortOk s.lc.state w.val = false →
        exec (.fusePortWrite w bits stuck) s = .next (s.emit (.jtag false [8])))
      ∧ (fusePortOk s.lc.state w.val = true → Reaches (.fusePortWrite w bits stuck) s fun t =>
        t = { s with fuses := t.fuses, out := t.out, free := t.free, health := { s.health with fuseReports := t.health.fuseReports } }
          ∧ (∀ v, v ≠ w.val → t.fuse v = s.fuse v)
          ∧ t.fuse w.val ||| s.fuse w.val ||| bits = s.fuse w.val ||| bits ∧ t.fuse w.val &&& s.fuse w.val = s.fuse w.val
          ∧ (stuck ≠ some w ∨ bits &&& ~~~(s.fuse w.val) = 0 → t.fuse w.val = s.fuse w.val ||| bits
            ∧ t.out = .jtag true [] :: s.out ∧ t.health = s.health)
          ∧ (stuck = some w → bits &&& ~~~(s.fuse w.val) ≠ 0 → t.out = .jtag false [10] :: s.out
            ∧ t.health.fuseReports = s.health.fuseReports + 1)))
    ∧ (∀ (s : State) (d : DebugOp), s.Up → (2 ≤ s.boot.step ∨ s.boot.step = 0) →
      let scope : Nat := match d with
        | .fcHalt | .fcStep | .fcRun => 0
        | .qcHalt _ | .qcStep _ | .qcRun _ => 1
        | .trace _ => 2
        | .memRead _ _ | .memWrite _ _ => 3
        | .scan => 4
      (s.lc.openScopes.getLsbD scope = false → exec (.jtagDebugAccess d) s = .next (s.emit (.jtag false [])))
      ∧ (s.lc.openScopes.getLsbD scope = true → Reaches (.jtagDebugAccess d) s fun t => match d with
        | .fcHalt => t = { s with lc := { s.lc with fcHalted := true }, out := .jtag true [] :: s.out }
        | .fcRun => t = { s with lc := { s.lc with fcHalted := false }, out := .jtag true [] :: s.out }
        | .qcHalt q => t = { s with lc := { s.lc with qcHalted := t.lc.qcHalted }, out := .jtag true [] :: s.out }
            ∧ ∀ p : Fin 4, t.lc.qcHalted.getLsbD p.val = (s.lc.qcHalted.getLsbD p.val || p == q)
        | .qcRun q => t = { s with lc := { s.lc with qcHalted := t.lc.qcHalted }, out := .jtag true [] :: s.out }
            ∧ ∀ p : Fin 4, t.lc.qcHalted.getLsbD p.val = (s.lc.qcHalted.getLsbD p.val && p != q)
        | .trace on => t = { s with lc := { s.lc with trace := on }, out := .jtag true [] :: s.out }
        | .fcStep | .qcStep _ | .scan => t = { s with out := .jtag true [] :: s.out }
        | .memRead addr e => (s.debugPage (addr.toNat / 8 * 8) = false → t = s.emit (.jtag false []))
            ∧ (s.debugPage (addr.toNat / 8 * 8) = true →
              (e = none → t = s.emit (.jtag true (Tab.getMany 0 s.pz.mem (addr.toNat / 8 * 8) 8)))
              ∧ ∃ rest, t.out = .jtag true (Tab.getMany 0 s.pz.mem (addr.toNat / 8 * 8) 8) :: rest)
        | .memWrite addr data => t = { s with pz := t.pz, out := t.out }
            ∧ (s.debugPage (addr.toNat / 8 * 8) = true → Tab.getMany 0 t.pz.mem (addr.toNat / 8 * 8) 8 = Bytes.slice data 0 8
              ∧ t.out = .jtag true [] :: s.out)
            ∧ (s.debugPage (addr.toNat / 8 * 8) = false → t.pz = s.pz ∧ t.out = .jtag false [] :: s.out)
            ∧ ∀ x, x / 8 ≠ addr.toNat / 8 → Tab.get 0 t.pz.mem x = Tab.get 0 s.pz.mem x))
    ∧ ∀ s : State, s.Up → s.top.blkRst = false →
      exec .lcChallengeRead s = .next { s with lc := { s.lc with challengeRead := some s.now } }

/-- The entropy source (R342 to R345): a good block is the SHA-384 of its raw bits and is kept, the 64th in a row ends DEGRADED, a failed
test is counted and the third within 1 s fails the source; a reseed takes a good block into the CTR_DRBG, or is owed. The repetition
count test meets its cutoff where one bit stands 41 times running, and the adaptive proportion test where the first bit of a window
stands in it 794 times or more. -/
def Obligations.EntropyIsTested : Prop :=
  (∀ (s : State) (raw : Bytes), s.live = true → s.trng.state ≠ .startup →
      let r := (rawBits raw).foldl rctStep (s.trng.run, s.trng.last, false)
      let seen : Trng := { s.trng with run := r.1, last := r.2.1 }
      let rct := r.2.2
      let apt := aptFails (rawBits raw)
      let recent := (s.trng.failTimes.filter fun x => s.now ≤ x + 1000000000).length
      (rct = false → apt = false →
        (s.Synced → (s.trng.state = .ok ∨ s.trng.state = .failed) →
          exec (.trngBlock raw) s = .next { s with trng := { seen with block := some (Config.sha384 raw) } })
        ∧ (s.Synced → s.trng.state = .degraded → s.trng.passes < 63 → exec (.trngBlock raw) s
          = .next { s with trng := { seen with block := some (Config.sha384 raw), passes := s.trng.passes + 1 } })
        ∧ (s.trng.state = .degraded → 63 ≤ s.trng.passes → Reaches (.trngBlock raw) s fun t =>
          t.trng = { seen with block := some (Config.sha384 raw), state := .ok, passes := 0 }))
      ∧ (rct ≠ apt → Reaches (.trngBlock raw) s fun t =>
        t.trng.state = (if s.trng.state = .failed ∨ 2 ≤ recent then TrngState.failed else TrngState.degraded)
        ∧ t.trng.rctFail = (s.trng.rctFail || rct) ∧ t.trng.aptFail = (s.trng.aptFail || apt)
        ∧ t.trng.rctCnt = (if rct then s.trng.rctCnt + 1 else s.trng.rctCnt)
        ∧ t.trng.aptCnt = (if apt then s.trng.aptCnt + 1 else s.trng.aptCnt))
      ∧ (rct = true → apt = true → Reaches (.trngBlock raw) s fun t =>
        t.trng.state = (if s.trng.state = .failed ∨ 1 ≤ recent then TrngState.failed else TrngState.degraded)
        ∧ t.trng.rctFail = true ∧ t.trng.aptFail = true ∧ t.trng.rctCnt = s.trng.rctCnt + 1 ∧ t.trng.aptCnt = s.trng.aptCnt + 1)
      ∧ (rct = true ∨ apt = true → Reaches (.trngBlock raw) s fun t =>
        t = { s with trng := t.trng, health := t.health, win := t.win } ∧ t.trng.passes = 0 ∧ t.trng.block = s.trng.block
        ∧ t.health.degraded = true ∧ t.trng.requests = s.trng.requests ∧ t.trng.key = s.trng.key ∧ t.trng.v = s.trng.v))
    ∧ (∀ s : State, s.Up → (s.trng.state = .ok ∨ s.trng.state = .degraded) → s.reseedDueNow = true →
      (∀ b, s.trng.block = some b → exec .drbgReseed s = .next { s with trng := { s.trng with
        key := (drbgUpdate s.trng.key s.trng.v b).1, v := (drbgUpdate s.trng.key s.trng.v b).2
        requests := 0, reseedAt := s.now, block := none, reseedDue := false, reseeds := s.trng.reseeds + 1 } })
      ∧ (s.trng.block = none → exec .drbgReseed s = .next { s with trng := { s.trng with reseedDue := true } }))
    ∧ (∀ bits : List Bool, (bits.foldl rctStep (0, false, false)).2.2 = true
      ↔ ∃ (k : Nat) (b : Bool), ∀ i, i < 41 → bits[k + i]? = some b)
    ∧ ∀ (b : Bool) (l : List Bool), aptFails (b :: l) = true ↔ 794 ≤ (b :: l).count b

/-- A secret of a fused bank is read as it was written, whatever the permutation and the mask of the chip (R316); and what the block
seals under a key opens again under the same key, nonce and additional data, its ciphertext as long as the plaintext (R150, R212). -/
def Obligations.SecretsComeBack : Prop :=
  (∀ v : BitVec 256, unscramble (scramble v) = v)
    ∧ ∀ (key : BitVec 256) (nonce : BitVec 96) (aad plain : Bytes),
      let x := gcmSeal key nonce aad plain
      gcmUnseal key nonce aad x.1 x.2 = some plain ∧ x.1.length = plain.length ∧ x.2.length = 16

/-- The power manager and the Kerb (R403, R405 to R411, R415, R495): a boundary takes PM_POLICY up and lowers the operating point of a
step that was over its cap, or begins an upward step after enough calm ones; a critical sample takes the plane down and leaves its
memories zero; the plane and a waiting unit come back. -/
def Obligations.PowerLadder : Prop :=
  (∀ (s : State) (x : PowerSense), s.live = true → s.ptu.atStep = true → (∀ f ∈ s.ptu.firing, f.kind ≠ .commit) →
      let cap := capEff s.pm.policy x.derate
      let icc := s.pm.iccMax
      let quiet := s.pm.critical = false ∧ x.tj < 1050 ∧ (∀ a ∈ x.amps, a ≤ icc) ∧ s.pm.planeOff = false
      Reaches (.powerStepBoundary x) s fun t =>
        t.ptu = { s.ptu with atStep := false } ∧ t.pm.active = s.pm.policy ∧ t.pm.stepTick = some s.ptu.tick ∧ t.pm.derate = x.derate
        ∧ t.pm.powerDw = x.powerDw ∧ t.pm.tj = x.tj ∧ t.pm.hot = false ∧ t.pm.critical = false ∧ t.sess = s.sess
        ∧ (quiet → s.pm.rising = false → cap < x.powerDw * 10 → oppFloor s.pm.policy < s.pm.opp → s.pm.opp ≤ oppMax s.pm.policy →
            t.pm.opp = s.pm.opp - 1 ∧ t.pm.descents = s.pm.descents ++ [.opp] ∧ t.pm.overCap = true ∧ t.pm.calmSteps = 0)
        ∧ (quiet → s.pm.rising = false → s.boot.step = 12 → s.pm.planeOff = false → s.pm.descents = [] → s.pm.opp < oppMax s.pm.policy →
            x.powerDw * 100 < 9 * cap → s.pm.hot = false → s.pm.warm = false → x.tj < 930 → (∀ a ∈ x.amps, a * 10 < 9 * icc) →
            upDelay s.pm.policy ≤ s.pm.calmSteps + 1 → t.pm.opp = s.pm.opp ∧ t.pm.rising = true ∧ t.pm.calmSteps = 0)
        ∧ (quiet → s.pm.rising = true → s.pm.opp < oppMax s.pm.policy → x.powerDw * 10 ≤ cap → s.pm.hot = false → x.tj < 950 →
            (x.avsOk = true → t.pm.opp = s.pm.opp + 1) ∧ (x.avsOk = false → t.pm.opp = s.pm.opp))
        ∧ (∀ at0, s.pm.planeOff = true → s.pm.returning = false → s.pm.coolSince = some at0 → at0 + 1000000000 ≤ s.now →
            (∀ a ∈ x.amps, a ≤ icc) → t.pm.returning = true ∧ t.pm.opp = 0))
    ∧ (∀ (s : State) (k : KerbSense), s.live = true → Reaches (.kerbSample k) s fun t =>
        let hot (n : Int) : Bool := k.tj.any fun x => decide (n ≤ x)
        t.pm.sensors = k.tj ∧ t.pm.thermTrip = (s.pm.thermTrip || hot 1250)
        ∧ t.pm.kerbFlags.getLsbD 0 = (s.pm.kerbFlags.getLsbD 0 || hot 950)
        ∧ t.pm.kerbFlags.getLsbD 1 = (s.pm.kerbFlags.getLsbD 1 || hot 1050)
        ∧ t.pm.kerbFlags.getLsbD 2 = (s.pm.kerbFlags.getLsbD 2 || hot 1150)
        ∧ t.pm.kerbFlags.getLsbD 5 = (s.pm.kerbFlags.getLsbD 5 || decide (1900 < k.aclkMhz))
        ∧ ((hot 1150 = true ∨ 1900 < k.aclkMhz) → t.pm.planeOff = true ∧ t.pm.returning = false
          ∧ ∀ d : Fin 32, t.pm.domains.getLsbD d.val = false)
        ∧ ((hot 1150 = true ∨ 1900 < k.aclkMhz) → s.pm.planeOff = false → (∀ a : Arc, (t.arcade a.val).integ = .off ∧ (t.arcade a.val).als = [])
          ∧ ∀ x, x < 2 ^ 26 → Tab.get 0 t.pz.mem x = 0))
    ∧ (∀ (s : State) (ts : List SelfTest), s.live = true → s.pm.planeOff = true → s.pm.returning = true → s.planeDomain = none →
        Reaches (.planeReturn ts) s fun t => t.pm.planeOff = false ∧ t.pm.returning = false ∧ t.pm.coolSince = none ∧ t.pm.opp = s.pm.opp
          ∧ t.boot = s.boot ∧ t.sess = s.sess ∧ t.fuses = s.fuses)
    ∧ ∀ (s : State) (a : Arc), s.Up →
      (s.mayReadmit a.val = true → Reaches (.readmissionStart a) s fun t =>
        t = { s with pm := t.pm } ∧ t.pm = { s.pm with
            ramping := some a.val, readmit := s.pm.readmit.filter fun x => x != a.val, units := t.pm.units }
          ∧ Tab.get UnitState.off t.pm.units a.val = .ramping
          ∧ ∀ b, b ≠ a.val → Tab.get UnitState.off t.pm.units b = Tab.get UnitState.off s.pm.units b)
      ∧ (s.mayReadmit a.val = false → exec (.readmissionStart a) s = .next s)

/-! The Fumas link. -/

/-- The link (R426, R427, R430, R431, R439): a PAIR_JOIN whose link does not train in 50 ms ends with ST_FAULT 0x25; idle flits, a damaged flit and its NAK, a flit in order, replay, the link down, a partner that is
lost and a fault of its alive signal. -/
def Obligations.LinkRows : Prop :=
  (∀ s : State, s.Up → s.joined = true → s.silent 1000 = false → exec .aliveFault s
      = .next { s with fm := { s.fm with aliveFlag := true, aliveCnt := s.fm.aliveCnt + 1 } })
    ∧ (∀ s : State, s.live = true → s.fm.state = .joined → s.silent 2000 = true → Reaches .linkDown s fun t =>
      t.fm.state = .linkDown ∧ t.fm.linkDownFlag = true ∧ t.fm.linkDownCnt = s.fm.linkDownCnt + 1 ∧ t.fm.lostPartner = true
        ∧ t.fm.txKey = none ∧ t.pm.domains.getLsbD 36 = false ∧ t.health.degraded = true ∧ ∀ n, (t.session n).pair = .unpaired)
    ∧ (∀ (s : State) (w : Nat), s.live = true → (s.fm.state = .attesting ∨ s.fm.state = .syncing) → s.fm.joinWin = some w →
      s.silent 2000 = true → Reaches .linkDown s fun t => t.fm.state = .off ∧ t.fm.joinWin = none ∧ t.fm.linkDownFlag = true
        ∧ t.fm.linkDownCnt = s.fm.linkDownCnt + 1 ∧ t.Answers w { status := stFault } ∧ t.pm.domains.getLsbD 36 = false)
    ∧ (∀ (s : State) (w : Win) (d : DoneIn) (c : Cmd), s.live = true → s.fcUp = true → (s.window w.val).slot.running = some c →
      (s.window w.val).slot.result = none → c.opcode = 0xA0 → s.fm.state = .training → s.fm.joinWin = some w.val →
      s.fm.stepAt + 50000000 ≤ s.now → Reaches (.commandComplete w d) s fun t =>
        t.fm.state = .off ∧ t.fm.joinWin = none ∧ t.fm.lastDetail = 0x25 ∧ t.pm.domains.getLsbD 36 = false
        ∧ (t.window w.val).slot.running = none ∧ t.Replied w.val c.tag c.opcode { status := stFault, detail := 0x25 })
    ∧ (∀ s : State, s.Up → s.fm.linked = true → (s.fm.next = none ∨ 256 ≤ s.fm.replay.length) → s.fm.sentAt + 100 ≤ s.now →
      Reaches .idle s fun t => t = { s with fm := { s.fm with owed := t.fm.owed, sentAt := s.now }, out := t.out }
        ∧ t.out = .flit (flitBytes 0 0 s.fm.owing.1 s.fm.owing.2 (s.fm.txSeq - 1).toNat s.fm.rxSeq.toNat 0 []) :: s.out)
    ∧ (∀ (s : State) (ack : BitVec 16), s.Up → s.fm.state = .joined → s.fm.naks < 15 → Reaches (.nak ack) s fun t =>
      t = { s with fm := t.fm, out := t.out } ∧ t.fm.state = .joined ∧ t.fm.nakFlag = true ∧ t.fm.nakCnt = s.fm.nakCnt + 1
        ∧ t.fm.nakSeq = ack ∧ t.fm.replay = (s.fm.replay.filter fun x => seqAfter x.seq ack)
        ∧ t.out = ((t.fm.replay.map fun x => Out.flit x.bytes).reverse) ++ s.out)
    ∧ (∀ (s : State) (ack : BitVec 16), s.live = true → s.fm.state = .joined → s.fm.naks = 15 → s.fm.nakSeq = ack →
      (∀ x ∈ s.fm.replay, seqAfter x.seq ack = true) → Reaches (.nak ack) s fun t =>
        t.fm.state = .linkDown ∧ t.fm.linkDownFlag = true ∧ t.fm.linkDownCnt = s.fm.linkDownCnt + 1 ∧ t.fm.nakFlag = true
          ∧ t.fm.lostPartner = true ∧ t.health.degraded = true ∧ ∀ n, (t.session n).pair = .unpaired)
    ∧ (∀ (s : State) (b : Bytes), s.Up → s.fm.linked = true → b.length ≠ 64 → Reaches (.flitReceived b) s fun t =>
      t = { s with fm := t.fm, out := t.out } ∧ t.fm.nakFlag = true ∧ t.fm.nakCnt = s.fm.nakCnt + 1 ∧ t.fm.state = s.fm.state
        ∧ t.fm.rxSeq = s.fm.rxSeq
        ∧ t.out = .flit (flitBytes 2 0 s.fm.owing.1 s.fm.owing.2 (s.fm.txSeq - 1).toNat s.fm.rxSeq.toNat 0 []) :: s.out)
    ∧ (∀ (s : State) (c ret n ack : Nat) (frag : Byte) (payload : Bytes), s.Up → s.fm.state = .joined → c < 3 →
      ret < 3 → n < 16 →
      Reaches (.flitReceived (flitBytes 1 c ret n (s.fm.rxSeq + 1).toNat ack frag payload)) s fun t =>
        t = { s with fm := t.fm, out := t.out } ∧ t.fm.rxSeq = s.fm.rxSeq + 1 ∧ t.fm.state = .joined ∧ t.fm.nakCnt = s.fm.nakCnt)
    ∧ ∀ s : State, s.live = true → s.joined = true → s.silent 1000 = true → Reaches .partnerLost s fun t =>
      t.fm.state = .partnerLost ∧ t.fm.lostFlag = true ∧ t.fm.lostCnt = s.fm.lostCnt + 1 ∧ t.fm.lostPartner = true
        ∧ t.health.degraded = true ∧ t.fm.txKey = none ∧ t.pm.domains.getLsbD 36 = false

/-- The messages of the pair (R249, R365, R422, R424, R428, R430 to R440): one that fails its tag or whose counter does not rise is dropped
and counted; a notice, a session's changes, its key, reservations, folds and cuts reach the standby's copy; results, signatures, parts
and lines reach where they are compared or used; PAIR_JOIN leaves, or trains with its window waiting, and a join proceeds and ends. -/
def Obligations.PairMessages : Prop :=
  (∀ (s : State) (c : Instr) (h : LinkHead), s.Up → s.joined = true → pairHead c = some h →
      (h.tagOk = false ∨ h.counter ≤ s.fm.rxCounter) →
      exec c s = .next { s with fm := { s.fm with authFlag := true, authCnt := s.fm.authCnt + 1 } })
    ∧ (∀ (s : State) (h : LinkHead), s.Up → h.tagOk = true → s.fm.rxCounter < h.counter →
      let x := { s.fm with rxCounter := h.counter }
      (∀ code : Byte, s.joined = true →
        (code = 1 → Reaches (.notice h code) s fun t => t.fm.state = .partnerLost ∧ t.fm.lostPartner = true ∧ t.fm.txKey = none)
        ∧ (code = 2 → Reaches (.notice h code) s fun t =>
            t.fm.state = .off ∧ t.fm.txKey = none ∧ t.pm.domains.getLsbD 36 = false ∧ t.fm.lostPartner = s.fm.lostPartner)
        ∧ (code ≠ 1 → code ≠ 2 → exec (.notice h code) s = .next { s with fm := x }))
      ∧ (∀ (sc : Sc) (st : BitVec 3) (conf : Bool) (vi : Fin 64) (gen : BitVec 16), s.paired = true →
        (st ≠ 0 → st ≠ 3 → (s.session sc.val).state = .free → Reaches (.ctx h sc st conf vi gen) s fun t =>
          t = { s with fm := x, sess := t.sess }
          ∧ t.session sc.val = { state := .opened, conf := conf, vi := vi.val, keyxGen := gen, rseqNext := 1, pair := .standby }
          ∧ ∀ n, n ≠ sc.val → t.session n = s.session n)
        ∧ (st ≠ 0 → st ≠ 3 → (s.session sc.val).state ≠ .free → (s.session sc.val).pair = .standby →
          Reaches (.ctx h sc st conf vi gen) s fun t => t = { s with fm := x, sess := t.sess }
            ∧ t.session sc.val = { s.session sc.val with
                conf := conf, keyxGen := gen, state := if st = 4 then .faulted else (s.session sc.val).state }
            ∧ ∀ n, n ≠ sc.val → t.session n = s.session n)
        ∧ ((st = 0 ∨ st = 3) → (s.session sc.val).pair = .standby → Reaches (.ctx h sc st conf vi gen) s fun t => t.session sc.val = {}))
      ∧ (∀ (sc : Sc) (ep : BitVec 52) (v : BitVec 256), s.isStandby sc.val = true → s.fm.state ≠ .syncing →
        Reaches (.key h sc ep v) s fun t => t = { s with fm := x, sess := t.sess }
          ∧ t.session sc.val = { s.session sc.val with plantKey := some v, plantFrom := ep.toNat } ∧ ∀ n, n ≠ sc.val → t.session n = s.session n)
      ∧ (∀ (sc : Sc) (seq rseq : Word), s.isStandby sc.val = true → seq ≠ 0 → Reaches (.resv h sc 0xFFFF seq rseq) s fun t =>
        t = { s with fm := x, sess := t.sess }
          ∧ t.session sc.val = { s.session sc.val with rseqReservedMax := max (s.session sc.val).rseqReservedMax rseq.toNat }
          ∧ ∀ n, n ≠ sc.val → t.session n = s.session n)
      ∧ (∀ (sc : Sc) (cs : Cs) (seq rseq : Word), s.isStandby sc.val = true → (s.stream cs.val).bound = true →
        (s.stream cs.val).session = sc.val → (∀ y ∈ (s.stream cs.val).slots, y.rseq ≠ 0) →
        Reaches (.resv h sc (BitVec.ofNat 16 cs.val) seq rseq) s fun t => t = { s with fm := x, sess := t.sess, streams := t.streams }
          ∧ t.stream cs.val = { s.stream cs.val with resv := (s.stream cs.val).resv ++ [(seq.toNat, rseq.toNat)] })
      ∧ (∀ (sc : Sc) (cs : Cs) (seq rseq : Word) (y : SlotRun), s.isStandby sc.val = true → (s.stream cs.val).bound = true →
        (s.stream cs.val).session = sc.val → (s.stream cs.val).slots = [y] → y.seq = seq.toNat → y.rseq = 0 → y.released = none →
        y.missing = false → y.overrun = false → y.fired = false →
        Reaches (.resv h sc (BitVec.ofNat 16 cs.val) seq rseq) s fun t => t = { s with fm := x, sess := t.sess, streams := t.streams }
          ∧ (t.stream cs.val).slots = [{ y with rseq := rseq.toNat }])
      ∧ (∀ (sc : Sc) (rseq time : Word) (tag : BitVec 128) (void : Bool), s.isStandby sc.val = true →
        let y := { s.session sc.val with rseqFoldedMax := max (s.session sc.val).rseqFoldedMax rseq.toNat }
        Reaches (.foldMsg h sc rseq tag time void) s fun t => t = { s with fm := x, sess := t.sess, streams := t.streams }
          ∧ (void = false → t.session sc.val = { y with acc := y.acc ^^^ tag, releasedOpen := y.releasedOpen + 1 })
          ∧ (void = true → t.session sc.val = { y with voidedOpen := y.voidedOpen + 1, voids := addVoid rseq.toNat y.voids })
          ∧ (∀ n, n ≠ sc.val → t.session n = s.session n)
          ∧ ∀ cs, t.stream cs = (if (s.stream cs).session = sc.val then { s.stream cs with slots := (s.stream cs).slots.map fun z =>
              if z.rseq = rseq.toNat then { z with folded := true } else z } else s.stream cs))
      ∧ (∀ (sc : Sc) (no high : Word), s.isStandby sc.val = true → Reaches (.cut h sc no high) s fun t =>
        t = { s with fm := x, sess := t.sess }
          ∧ t.session sc.val = { (s.session sc.val).reopen .auto s.now with ckptNo := no.toNat - 1 }
          ∧ ∀ n, n ≠ sc.val → t.session n = s.session n)
      ∧ (∀ (cs : Cs) (seq : Word) (b : Bytes) (flags : BitVec 3) (sigs : List (BitVec 128)), s.partnerRuns cs.val = true →
        Reaches (.cmp h cs seq b flags sigs none) s fun t => t = { s with fm := x, streams := t.streams }
          ∧ t.stream cs.val = { s.stream cs.val with partner := some (seq.toNat, { payload := b, flags := flags, sigs := sigs }) }
          ∧ ∀ n, n ≠ cs.val → t.stream n = s.stream n)
      ∧ (∀ (cs : Cs) (seq : Word) (b : Bytes) (flags : BitVec 3) (sigs : List (BitVec 128)) (phase time : Word) (bits : BitVec 6)
        (y : SlotRun), s.partnerRuns cs.val = true → s.isStandby (s.stream cs.val).session = true → (s.stream cs.val).slots = [y] →
        y.seq = seq.toNat → Reaches (.cmp h cs seq b flags sigs (some (phase, time, bits))) s fun t =>
          t = { s with fm := x, streams := t.streams }
          ∧ (t.stream cs.val).partner = some (seq.toNat, { payload := b, flags := flags, sigs := sigs })
          ∧ (t.stream cs.val).slots = [{ y with
              icPhase := phase, icTime := time, flags := (y.flags &&& 0xFE07) ||| (bits.setWidth 16 <<< 3) }])
      ∧ (∀ (sc : Sc) (span : Word) (g : BitVec 128) (a : Arc) (k : Check), s.joined = true → (s.arcade a.val).checks = [k] →
        (∀ b, b < 16 → b ≠ a.val → (s.arcade b).checks = []) → k.session = sc.val → k.checker = 16 → k.instCount = span.toNat →
        k.checkerSig = none → k.primarySig = none → Reaches (.sig h sc span g) s fun t => t = { s with fm := x, arc := t.arc }
          ∧ t.arcade a.val = { s.arcade a.val with checks := [{ k with checkerSig := some g }] }
          ∧ ∀ b, b ≠ a.val → t.arcade b = s.arcade b)
      ∧ (∀ (rdesc : Fin 256) (p : Fin 16) (rows : List Bytes) (d : BitVec 128) (r : Reduction) (g : Nat), s.joined = true →
        s.partPlan rdesc.val p.val = some (r, g) → Reaches (.part h rdesc p rows d) s fun t => t = { s with fm := x, arc := t.arc }
          ∧ t.arcade r.dest = { s.arcade r.dest with inFlight := (s.arcade r.dest).inFlight ++
              [{ gen := g, rdesc := rdesc.val, part := p.val, row := r.recvRow + p.val * r.rows
                 rows := (rows.map readPartRow).map (·.1), digest := d, poison := (rows.map readPartRow).map (·.2) }] }
          ∧ ∀ b, b ≠ r.dest → t.arcade b = s.arcade b)
      ∧ (∀ (sc : Sc) (buffer : BitVec 16) (l : Bytes) (p : Plan) (b : Buffer), s.isStandby sc.val = true →
        (s.plan (s.session sc.val).window).running = some p → p.buffers[buffer.toNat]? = some b → 0 < b.pages →
        s.bufferOk 0x50 sc.val b = true →
        Reaches (.state h sc buffer [l]) s fun t => t = { s with fm := x, pz := t.pz }
          ∧ Tab.getMany 0 t.pz.mem (b.base / 64 * 64) 64 = Bytes.slice l 0 64
          ∧ ∀ a, a / 64 ≠ b.base / 64 → Tab.get 0 t.pz.mem a = Tab.get 0 s.pz.mem a)
      ∧ (∀ (w : Nat) (mode : Nat) (serial : BitVec 128), s.fm.joinWin = some w → s.fm.state = .attesting →
        (Bytes.toNat s.serial ≠ serial.toNat → exec (.join h (.version Config.pairVersionMajor mode serial)) s
          = .next { s with fm := { x with partnerSerial := serial, partnerMode := mode, partnerHere := true, stepAt := s.now } })
        ∧ Reaches (.join h (.version (Config.pairVersionMajor + 1) mode serial)) s fun t =>
            t.fm.state = .off ∧ t.fm.joinWin = none ∧ t.Answers w { status := stVersion })
      ∧ (∀ (w : Nat) (refused : List Sc), s.fm.joinWin = some w → s.fm.state = .syncing → Reaches (.join h (.synced refused)) s fun t =>
        t.fm.state = .joined ∧ t.fm.joinWin = none ∧ t.fm.lostPartner = false ∧ t.Answers w (.ok 0)
          ∧ ∀ sc ∈ refused, (s.session sc.val).pair = .home → (t.session sc.val).pair = .unpaired))
    ∧ ∀ (s : State) (w : Win) (c : Cmd), s.live = true → s.fcCmd w.val 0xA0 = some c → s.bodyDefined w.val msgPair = true →
    c.params.length = 48 → s.fm.joinWin = none → Reaches (.pairJoin w) s fun t =>
      (c.u 16 1 = 0 → t.Answers w.val (.ok 0) ∧ (s.joined = true → t.fm.state = .off ∧ t.fm.txKey = none ∧ t.pm.domains.getLsbD 36 = false)
        ∧ (s.joined = false → t.fm = s.fm))
      ∧ (c.u 16 1 ≠ 0 → s.joined = true → t.Answers w.val (.denied 0x28) ∧ t.fm = { s.fm with lastDetail := 0x28 })
      ∧ (2 < c.u 16 1 → s.joined = false → t.Answers w.val (.denied 0) ∧ t.fm = s.fm)
      ∧ ((c.u 16 1 = 1 ∨ c.u 16 1 = 2) → s.joined = false → s.drbgBlocked = true → t.Answers w.val (.denied 0x0F) ∧ t.fm = s.fm)
      ∧ ((c.u 16 1 = 1 ∨ c.u 16 1 = 2) → s.joined = false → s.drbgBlocked = false →
          t.fm.state = .training ∧ t.fm.joinWin = some w.val ∧ t.fm.wantMode = c.u 16 1 ∧ t.fm.expectDigest = c.params
            ∧ t.pm.domains.getLsbD 36 = true ∧ t.rb.fcQueue = s.rb.fcQueue.erase w.val ∧ t.fm.lostPartner = s.fm.lostPartner)

/-! The management port. -/

/-- Requests of SPDM, PLDM, MCTP and I3C (R356, R359, R361 to R364, R367, R391, R467, R468): the connection's phase and transcript, what is
answered, the signatures over the transcript, the certificates, the events exported, and the target's own registers. -/
def Obligations.ManagementAnswers : Prop :=
  (∀ (s : State) (p : SpdmPath), s.live = true → s.Asks p →
      (Reaches (.getVersion p) s fun t => t.phase p = 1)
      ∧ (Reaches (.getCapabilities p) s fun t => t.phase p = (if s.phase p = 1 then 2 else s.phase p))
      ∧ (Reaches (.negotiateAlgorithms p) s fun t => t.phase p = (if s.phase p = 2 then 3 else s.phase p)))
    ∧ (∀ (s : State), s.Up → s.mgmtUp = true → s.phase .mgmt = 3 →
      let sends (b : Bytes) : List Out := .mgmt b :: (if s.mgmt.i3cEvents.getLsbD 0 then .ibi :: s.out else s.out)
      let old := (s.spdmCtx .mgmt).transcript
      let replies (t base : State) (code : Nat) (req content : Bytes) : Prop :=
        let rsp := Config.spdmBody code req content
        t = { base with out := sends rsp, mgmt := { s.mgmt with spdm := t.mgmt.spdm } } ∧ t.phase .mgmt = 3
          ∧ (t.spdmCtx .mgmt).transcript = Config.spdmTranscript code (old ++ req ++ rsp)
      (Reaches (.getDigests .mgmt) s fun t => replies t s 0x01 []
          (Bytes.big (Config.sha384 (s.certChain 0)) ++ Bytes.big (Config.sha384 (s.certChain 1))))
      ∧ (∀ (k : Fin 8) (o n : BitVec 16), k.val < 2 → o.toNat < (s.certChain k.val).length →
        let part := ((s.certChain k.val).drop o.toNat).take n.toNat
        Reaches (.getCertificate .mgmt k o n) s fun t => replies t s 0x02
          (Bytes.ofNat 1 k.val ++ Bytes.ofNat 2 o.toNat ++ Bytes.ofNat 2 n.toNat)
          (Bytes.ofNat 2 ((s.certChain k.val).length - o.toNat - part.length) ++ part))
      ∧ (∀ (i : Byte) (nonce : BitVec 256) (b : Bytes), s.measured .mgmt i.toNat = some b →
        Reaches (.getMeasurements .mgmt i false nonce) s fun t => replies t s 0x60 (Bytes.ofNat 1 i.toNat) b)
      ∧ (s.noAlias = false → s.drbgBlocked = false → ∀ (k : Fin 8) (nonce : BitVec 256), k.val < 2 →
        let signed (t : State) (code : Nat) (req content : Bytes) : Prop := ∃ r rnd : Bytes, r.length = 32 ∧
          let body := content ++ Bytes.big nonce ++ r
          let sg := signBoth s.keys.cdiA s.lc.state (Bytes.big (Config.sha384 (Config.spdmTranscript code (old ++ req ++ body)))) rnd
          replies t { s with trng := t.trng, keys := { s.keys with slots := t.keys.slots } } code req (body ++ opaqueElement 3 sg.2 ++ sg.1)
        (s.aliasRefused = false →
          (Reaches (.challenge .mgmt k nonce) s fun t => signed t 0x03 (Bytes.ofNat 1 k.val ++ Bytes.big nonce)
            (Bytes.big (Config.sha384 (s.certChain k.val))))
          ∧ ∀ (i : Byte) (b : Bytes), s.measured .mgmt i.toNat = some b → Reaches (.getMeasurements .mgmt i true nonce) s fun t =>
            signed t 0x60 (Bytes.ofNat 1 i.toNat ++ Bytes.big nonce) b)
        ∧ ((s.lc.state = 3 ∨ s.lc.state = 4) → ∀ pfx : Bytes, pfx.length ≤ 0x7000 → Reaches (.setCertificate .mgmt k pfx) s fun t =>
          (Config.chainLeaf pfx = s.deviceKey k.val → t = { s with flash := t.flash, mgmt := t.mgmt, out := t.out }
            ∧ t.certPrefix k.val = pfx ∧ ∀ a, (a < certPlace k.val ∨ certPlace k.val + 0x8000 ≤ a) → Tab.get 0 t.flash a = Tab.get 0 s.flash a)
          ∧ (Config.chainLeaf pfx ≠ s.deviceKey k.val → t = { s with out := sends (Config.spdmBody 0x7F [] [1]) }))
        ∧ (s.useRefused (s.slot 2).attr 2 = false → Reaches (.getCsr .mgmt k) s fun t => ∃ g : Bytes,
          replies t { s with trng := t.trng, keys := { s.keys with slots := t.keys.slots } } 0x6D (Bytes.ofNat 1 k.val)
            (Config.certBytes (s.deviceKey k.val) (s.deviceKey k.val) g))))
    ∧ (∀ (s : State), s.Up → s.mgmtUp = true →
      (∀ r : PldmReq, r ≠ .eventDone → Reaches (.pldmRequest r) s fun t => t = { s with out := t.out }
        ∧ (r = .unsupported → t.out = .mgmtErr 5 :: s.out) ∧ (r ≠ .unsupported → ∃ b, t.out.head? = some (.mgmt b)))
      ∧ (∀ n : Nat, s.mgmt.outstanding = some n → n ≠ 0 → Reaches (.pldmRequest .eventDone) s fun t =>
        t = { s with mgmt := t.mgmt, health := t.health, out := t.out } ∧ t.mgmt.nextRec = n + 1
          ∧ (∀ r ∈ t.health.ring, r.recNo = n → r.exported = true) ∧ t.health.ring.length = s.health.ring.length)
      ∧ (∀ eid : Byte, Reaches (.setEventReceiver eid) s fun t => t = { s with mgmt := t.mgmt, out := t.out }
          ∧ t.mgmt.receiver = some eid ∧ t.mgmt.holding = false
          ∧ ∀ n b, s.nextExport = some (n, b) → t.mgmt.outstanding = some n ∧ t.mgmt.sends = 1 ∧ t.out.head? = some (.mgmt b))
      ∧ (s.mgmt.outstanding = none → Reaches .pollForPlatformEventMessage s fun t =>
        t = { s with mgmt := t.mgmt, health := t.health, out := t.out }
          ∧ (∀ n b, s.nextExport = some (n, b) → t.out.head? = some (.mgmt (Config.pldmBody 0x0B [] b)) ∧ (n ≠ 0 → t.mgmt.nextRec = n + 1))
          ∧ (s.nextExport = none → t.out.head? = some (.mgmt (Config.pldmBody 0x0B [] []))))
      ∧ (∀ n : Nat, s.mgmt.outstanding = some n → s.mgmt.sentAt + 100000000 ≤ s.now → Reaches .platformEventTimeout s fun t =>
        t = { s with mgmt := t.mgmt, out := t.out }
            ∧ (s.mgmt.sends < 4 → t.mgmt = { s.mgmt with sends := s.mgmt.sends + 1, sentAt := s.now } ∧ t.out.head? = some (.mgmt s.mgmt.message))
            ∧ (4 ≤ s.mgmt.sends → t.mgmt = { s.mgmt with outstanding := none, sends := 0, holding := true } ∧ t.out = s.out)))
    ∧ (∀ (s : State) (c : MctpCtl), s.Up → s.mctpUp = true → Reaches (.mctpControl c) s fun t =>
      t = { s with mgmt := { s.mgmt with eid := t.mgmt.eid }, out := t.out } ∧ (∃ b, t.out.head? = some (.mgmt b))
        ∧ (∀ e, c = .setEndpointId e → t.mgmt.eid = some e) ∧ ((∀ e, c ≠ .setEndpointId e) → t.mgmt.eid = s.mgmt.eid))
    ∧ ∀ (s : State) (c : Ccc), s.Up → s.top.blkRst = false → Reaches (.i3cCcc c) s fun t =>
      t = { s with mgmt := t.mgmt, out := t.out } ∧
      match c with
      | .enec b => t.mgmt = { s.mgmt with i3cEvents := s.mgmt.i3cEvents ||| b }
      | .disec b => t.mgmt = { s.mgmt with i3cEvents := s.mgmt.i3cEvents &&& ~~~b }
      | .rstdaa => t.mgmt = { s.mgmt with i3cAddr := 0 }
      | .entdaa a => t.mgmt = { s.mgmt with i3cAddr := if s.mgmt.i3cAddr = 0 then a else s.mgmt.i3cAddr }
      | .setdasa st dyn => t.mgmt = { s.mgmt with
          i3cAddr := if s.mgmt.i3cAddr = 0 ∧ st ≠ 0 ∧ st = s.top.straps.i3cAddr then dyn else s.mgmt.i3cAddr }
      | .setmwl n => t.mgmt = { s.mgmt with mwl := if s.mgmt.i3cAddr = 0 then s.mgmt.mwl else n }
      | .setmrl n => t.mgmt = { s.mgmt with mrl := if s.mgmt.i3cAddr = 0 then s.mgmt.mrl else n }
      | .getpid | .getbcr | .getdcr | .getstatus | .getmwl | .getmrl => t.mgmt = s.mgmt
          ∧ (s.mgmt.i3cAddr = 0 → t.out = .i3c false [] :: s.out) ∧ (s.mgmt.i3cAddr ≠ 0 → ∃ b, t.out = .i3c true b :: s.out)

/-! Health in flash, and reset. -/

/-- The health area is rewritten in the half not in use, and the rest of the flash stays; the record of its BLOCK event is flagged as
written there (R387); a window of 60 s ends with a signature for
each of its buckets (R389, R390). -/
def Obligations.HealthAreaIsKept : Prop :=
  (∀ s : State, s.Up → s.fcUp = true →
      ((s.health.dirty = true ∨ (s.health.newSigs = true ∧ s.health.areaAt + 3600000000000 ≤ s.now)) → s.health.sigs.length ≤ 4000 →
        Reaches .healthAreaRewrite s fun t =>
          t = { s with
            flash := t.flash, out := t.out
            health := { s.health with areaSeq := t.health.areaSeq, areaAt := s.now, dirty := false, newSigs := false, ring := t.health.ring } }
          ∧ (∀ r ∈ s.health.ring, (∀ b, s.health.lastBlock = some b → b.recNo ≠ r.recNo) → r ∈ t.health.ring)
          ∧ (∀ r ∈ s.health.ring, ∀ b, s.health.lastBlock = some b → b.recNo = r.recNo → { r with flags := r.flags ||| 1 } ∈ t.health.ring)
          ∧ t.health.ring.length = s.health.ring.length
          ∧ ∀ a, (a < areaBase (spareCopy s.areaCopy) ∨ areaBase (spareCopy s.areaCopy) + 0x40000 ≤ a) →
              Tab.get 0 t.flash a = Tab.get 0 s.flash a)
      ∧ (s.health.dirty = false → (s.health.newSigs = false ∨ s.now < s.health.areaAt + 3600000000000) →
        exec .healthAreaRewrite s = .next s))
    ∧ ∀ s : State, s.Up → s.fcUp = true →
      (s.health.windowAt + 60000000000 ≤ s.now → Reaches .signatureWindowEnd s fun t =>
        t = { s with
          health := { s.health with windowAt := s.now, sigs := t.health.sigs, newSigs := t.health.newSigs, buckets := [] }
          mgmt := { s.mgmt with sigQueue := s.mgmt.sigQueue ++ s.health.buckets } }
        ∧ t.health.sigs.length = min 4000 (s.health.sigs.length + s.health.buckets.length)
        ∧ t.health.newSigs = (s.health.newSigs || !s.health.buckets.isEmpty)
        ∧ (s.health.sigs.length + s.health.buckets.length ≤ 4000 → t.health.sigs = s.health.sigs ++ s.health.buckets))
      ∧ (s.now < s.health.windowAt + 60000000000 → exec .signatureWindowEnd s = .next s)

/-- What reset leaves where the spec gives the value (R235, R286, R289, R344, R374, R398, R402, R418, R420, R441, R444, R493). -/
def Obligations.ResetValues : Prop :=
  State.reset.boot.step = 1 ∧ State.reset.top.blkRst = true ∧ State.reset.boot.held = 0xFFFF_FFFF ∧ State.reset.boot.failed = 0
    ∧ State.reset.windowRead 64 0x3100 = 0x000A_59BE ∧ State.reset.windowRead 64 0x3108 = 0xFFFF ∧ State.reset.windowRead 64 0x3130 = 0x0960
    ∧ State.reset.windowRead 64 0x3120 = 0 ∧ State.reset.windowRead 64 0x3200 = 0 ∧ State.reset.windowRead 64 0x3000 = 0
    ∧ (∀ n : Fin 64, State.reset.windowRead 64 (0x3600 + 8 * n.val) = 0x2800)
    ∧ (∀ n : Nat, (State.reset.session n).state = .free) ∧ (∀ w : Nat, (State.reset.window w).slot.state = .idle)
    ∧ (∀ q : Nat, (State.reset.qcOf q).state = .running) ∧ State.reset.trng.state = .startup ∧ State.reset.fm.state = .off
    ∧ State.reset.pm.opp = 0 ∧ State.reset.pending = []
end

