-- ==== Sys2Proof/Laws/Tab.lean ====
section
/-! SUPPORT. The laws of sparse stores: what a read after a write gives, and that every operation keeps the canonical
form. -/

namespace Sys2Proof

variable {α : Type}

theorem Tab.get_insert_same (d v : α) (k : Nat) (t : Tab α) : Tab.get d (Tab.insert k v t) k = v := by
  induction t with
  | nil => simp [Tab.insert, Tab.get]
  | cons e r ih =>
    obtain ⟨j, w⟩ := e
    simp only [Tab.insert]
    split
    · simp [Tab.get]
    · split <;> simp_all [Tab.get]

theorem Tab.get_insert_other (d v : α) {k i : Nat} (h : i ≠ k) (t : Tab α) :
    Tab.get d (Tab.insert k v t) i = Tab.get d t i := by
  have h' : ¬k = i := fun e => h e.symm
  induction t with
  | nil => simp [Tab.insert, Tab.get, h']
  | cons e r ih =>
    obtain ⟨j, w⟩ := e
    simp only [Tab.insert]
    split
    · next hj => subst hj; simp [Tab.get, h']
    · split
      · simp [Tab.get, h']
      · simp [Tab.get, ih]

theorem Tab.get_erase_same (d : α) (t : Tab α) (k : Nat) : Tab.get d (t.erase k) k = d := by
  induction t with
  | nil => rfl
  | cons e r ih =>
    obtain ⟨j, w⟩ := e
    by_cases hj : j = k
    · simpa [Tab.erase, hj] using ih
    · simpa [Tab.erase, List.filter_cons, hj, Tab.get] using ih

theorem Tab.get_erase_other (d : α) (t : Tab α) {k i : Nat} (h : i ≠ k) : Tab.get d (t.erase k) i = Tab.get d t i := by
  induction t with
  | nil => rfl
  | cons e r ih =>
    obtain ⟨j, w⟩ := e
    by_cases hj : j = k
    · have hi : ¬k = i := fun e => h e.symm
      subst hj
      simpa [Tab.erase, Tab.get, hi] using ih
    · simp only [Tab.erase, ne_eq, hj, not_false_eq_true, decide_true, List.filter_cons_of_pos, Tab.get] at ih ⊢
      rw [ih]

/-- A read of the key just written gives the value written. -/
@[simp] theorem Tab.get_set_same [DecidableEq α] (d : α) (t : Tab α) (k : Nat) (v : α) :
    Tab.get d (Tab.set d t k v) k = v := by
  unfold Tab.set
  split
  · next h => rw [h, Tab.get_erase_same]
  · exact Tab.get_insert_same d v k t

/-- A read of any other key gives what it gave before the write. -/
theorem Tab.get_set_other [DecidableEq α] (d : α) (t : Tab α) {k i : Nat} (v : α) (h : i ≠ k) :
    Tab.get d (Tab.set d t k v) i = Tab.get d t i := by
  unfold Tab.set
  split
  · exact Tab.get_erase_other d t h
  · exact Tab.get_insert_other d v h t

@[simp] theorem Tab.get_upd_same [DecidableEq α] (d : α) (t : Tab α) (k : Nat) (f : α → α) :
    Tab.get d (Tab.upd d t k f) k = f (Tab.get d t k) := Tab.get_set_same d t k _

theorem Tab.get_upd_other [DecidableEq α] (d : α) (t : Tab α) {k i : Nat} (f : α → α) (h : i ≠ k) :
    Tab.get d (Tab.upd d t k f) i = Tab.get d t i := Tab.get_set_other d t _ h

@[simp] theorem Tab.get_nil (d : α) (k : Nat) : Tab.get d ([] : Tab α) k = d := rfl

/-- A function that keeps the default acts on what is read at every key. -/
theorem Tab.get_mapListed (d : α) (t : Tab α) (f : Nat → α → α) (k : Nat) (h : f k d = d) :
    Tab.get d (t.mapListed f) k = f k (Tab.get d t k) := by
  induction t with
  | nil => simp [Tab.mapListed, Tab.get, h]
  | cons e r ih =>
    obtain ⟨j, w⟩ := e
    simp only [Tab.mapListed, List.map_cons, Tab.get] at ih ⊢
    split
    · next hj => rw [hj]
    · exact ih

/-- What `lowestWith` finds is in range, passes, and nothing below it passes. -/
theorem lowestWith_some {p : Nat → Bool} {n lo i : Nat} (h : lowestWith p n lo = some i) :
    lo ≤ i ∧ i < lo + n ∧ p i = true ∧ ∀ j, lo ≤ j → j < i → p j = false := by
  induction n generalizing lo with
  | zero => simp [lowestWith] at h
  | succ n ih =>
    simp only [lowestWith] at h
    split at h
    · next hp => cases h; exact ⟨Nat.le_refl _, by omega, hp, fun j _ _ => by omega⟩
    · next hp =>
      obtain ⟨h1, h2, h3, h4⟩ := ih h
      refine ⟨by omega, by omega, h3, fun j hj hji => ?_⟩
      rcases Nat.lt_or_ge lo j with hl | hl
      · exact h4 j hl hji
      · have : j = lo := by omega
        simpa [this] using hp

/-- It finds a number where one in range passes. -/
theorem lowestWith_finds {p : Nat → Bool} {n lo i : Nat} (h1 : lo ≤ i) (h2 : i < lo + n) (hp : p i = true) :
    ∃ j, lowestWith p n lo = some j := by
  induction n generalizing lo with
  | zero => omega
  | succ n ih =>
    simp only [lowestWith]
    split
    · exact ⟨_, rfl⟩
    · next hn =>
      rcases Nat.lt_or_ge lo i with hl | hl
      · exact ih hl (by omega)
      · have : i = lo := by omega
        exact absurd (this ▸ hp) hn

/-! The canonical form. -/

variable [DecidableEq α] {d : α}

theorem Tab.wfFrom_mono {n m : Nat} (h : n ≤ m) {t : Tab α} (hw : Tab.wfFrom d m t = true) : Tab.wfFrom d n t = true := by
  cases t with
  | nil => rfl
  | cons e r =>
    simp only [Tab.wfFrom, Bool.and_eq_true, decide_eq_true_eq] at hw ⊢
    exact ⟨⟨Nat.le_trans h hw.1.1, hw.1.2⟩, hw.2⟩

theorem Tab.wfFrom_filter (p : Nat × α → Bool) {n : Nat} {t : Tab α} (hw : Tab.wfFrom d n t = true) :
    Tab.wfFrom d n (t.filter p) = true := by
  induction t generalizing n with
  | nil => rfl
  | cons e r ih =>
    simp only [Tab.wfFrom, Bool.and_eq_true, decide_eq_true_eq] at hw
    simp only [List.filter_cons]
    split
    · simp only [Tab.wfFrom, Bool.and_eq_true, decide_eq_true_eq]
      exact ⟨hw.1, ih hw.2⟩
    · exact Tab.wfFrom_mono (Nat.le_succ_of_le hw.1.1) (ih hw.2)

theorem Tab.wfFrom_insert {v : α} (hv : v ≠ d) {n k : Nat} (hk : n ≤ k) {t : Tab α} (hw : Tab.wfFrom d n t = true) :
    Tab.wfFrom d n (Tab.insert k v t) = true := by
  induction t generalizing n with
  | nil => simp [Tab.insert, Tab.wfFrom, hk, hv]
  | cons e r ih =>
    obtain ⟨j, w⟩ := e
    simp only [Tab.wfFrom, Bool.and_eq_true, decide_eq_true_eq] at hw
    simp only [Tab.insert]
    split
    · next hj =>
      subst hj
      simpa [Tab.wfFrom, hk, hv] using hw.2
    · split
      · simp only [Tab.wfFrom, Bool.and_eq_true, decide_eq_true_eq]
        refine ⟨⟨hk, hv⟩, ⟨⟨?_, hw.1.2⟩, hw.2⟩⟩
        omega
      · simp only [Tab.wfFrom, Bool.and_eq_true, decide_eq_true_eq]
        exact ⟨hw.1, ih (by omega) hw.2⟩

theorem Tab.wf_filter (p : Nat × α → Bool) {t : Tab α} (hw : t.wf d = true) : Tab.wf d (t.filter p) = true :=
  Tab.wfFrom_filter p hw

theorem Tab.wf_set (k : Nat) (v : α) {t : Tab α} (hw : t.wf d = true) : (Tab.set d t k v).wf d = true := by
  unfold Tab.set
  split
  · exact Tab.wf_filter _ hw
  · next h => exact Tab.wfFrom_insert h (Nat.zero_le k) hw

theorem Tab.wf_upd (k : Nat) (f : α → α) {t : Tab α} (hw : t.wf d = true) : (Tab.upd d t k f).wf d = true :=
  Tab.wf_set k _ hw

theorem Tab.wf_setMany (vs : List α) (k : Nat) {t : Tab α} (hw : t.wf d = true) : (Tab.setMany d t k vs).wf d = true := by
  induction vs generalizing t k with
  | nil => exact hw
  | cons v vs ih => exact ih (k + 1) (Tab.wf_set k v hw)

theorem Tab.wf_clear (lo hi : Nat) {t : Tab α} (hw : t.wf d = true) : (t.clear lo hi).wf d = true := Tab.wf_filter _ hw

theorem Tab.wfFrom_mapVals (f : Nat → α → α) {n : Nat} {t : Tab α} (hw : Tab.wfFrom d n t = true) :
    Tab.wfFrom d n (Tab.mapVals d t f) = true := by
  have key : Tab.wfFrom d n ((t.mapListed f).filter fun e => decide (e.2 ≠ d)) = true := by
    induction t generalizing n with
    | nil => rfl
    | cons e r ih =>
      simp only [Tab.wfFrom, Bool.and_eq_true, decide_eq_true_eq] at hw
      have hr := ih hw.2
      simp only [Tab.mapListed, List.map_cons, List.filter_cons] at hr ⊢
      split
      · next h =>
        simp only [Tab.wfFrom, Bool.and_eq_true, decide_eq_true_eq]
        exact ⟨⟨hw.1.1, by simpa using h⟩, hr⟩
      · exact Tab.wfFrom_mono (Nat.le_succ_of_le hw.1.1) hr
  have split : Tab.mapVals d t f = ((t.mapListed f).filter fun e => decide (e.2 ≠ d)).filter
      fun e => decide (Tab.get d (t.mapListed f) e.1 ≠ d) := by
    rw [List.filter_filter]
    simp only [Tab.mapVals, Tab.pack, Bool.and_comm]
  rw [split]
  exact Tab.wfFrom_filter _ key

theorem Tab.wf_mapVals (f : Nat → α → α) {t : Tab α} (hw : t.wf d = true) : (Tab.mapVals d t f).wf d = true :=
  Tab.wfFrom_mapVals f hw

/-- A filter that keeps whole keys or removes them. -/
theorem Tab.get_filter (p : Nat × α → Bool) (k : Nat) (t : Tab α)
    (h : Tab.get d t k ≠ d → p (k, Tab.get d t k) = true) (h' : Tab.get d t k = d → ∀ e ∈ t, e.1 = k → p e = false) :
    Tab.get d (t.filter p) k = Tab.get d t k := by
  by_cases hd : Tab.get d t k = d
  · rw [hd]
    have hp := h' hd
    clear h h' hd
    induction t with
    | nil => rfl
    | cons e r ih =>
      have ihr := ih fun x hx => hp x (List.mem_cons_of_mem e hx)
      rw [List.filter_cons]
      split
      · next he =>
        simp only [Tab.get]
        split
        · next hk => exact absurd (hp e List.mem_cons_self hk) (by simp [he])
        · exact ihr
      · exact ihr
  · have hp := h hd
    clear h h'
    induction t with
    | nil => rfl
    | cons e r ih =>
      obtain ⟨j, w⟩ := e
      by_cases hj : j = k
      · subst hj
        simp only [Tab.get, if_true] at hp hd ⊢
        simp [hp, Tab.get]
      · simp only [Tab.get, hj, if_false] at hp hd ih ⊢
        rw [List.filter_cons]
        split
        · simp only [Tab.get, hj, if_false]
          exact ih hd hp
        · exact ih hd hp

/-- A function that keeps the default acts on what is read at every key. -/
theorem Tab.get_mapVals (t : Tab α) (f : Nat → α → α) (k : Nat) (h : f k d = d) :
    Tab.get d (Tab.mapVals d t f) k = f k (Tab.get d t k) := by
  rw [← Tab.get_mapListed d t f k h]
  refine Tab.get_filter _ k _ (fun hd => by simp [hd]) fun hd e _ he => ?_
  subst he
  simp [hd]

theorem Tab.wfFrom_mapListed (f : Nat → α → α) (hf : ∀ k v, v ≠ d → f k v ≠ d) {n : Nat} {t : Tab α}
    (hw : Tab.wfFrom d n t = true) : Tab.wfFrom d n (t.mapListed f) = true := by
  induction t generalizing n with
  | nil => rfl
  | cons e r ih =>
    simp only [Tab.wfFrom, Bool.and_eq_true, decide_eq_true_eq] at hw
    simp only [Tab.mapListed, List.map_cons, Tab.wfFrom, Bool.and_eq_true, decide_eq_true_eq]
    exact ⟨⟨hw.1.1, hf _ _ hw.1.2⟩, ih hw.2⟩

theorem Tab.wf_nil : Tab.wf d ([] : Tab α) = true := rfl

/-- What a byte reads after bytes are stored from an address on: the stored byte there, and what it was elsewhere. -/
theorem Tab.get_setMany (vs : List α) (t : Tab α) (k x : Nat) :
    Tab.get d (Tab.setMany d t k vs) x = if k ≤ x ∧ x < k + vs.length then vs.getD (x - k) d else Tab.get d t x := by
  induction vs generalizing t k with
  | nil => simp [Tab.setMany]
  | cons v r ih =>
    rw [Tab.setMany, ih]
    by_cases h1 : k + 1 ≤ x ∧ x < k + 1 + r.length
    · have h2 : k ≤ x ∧ x < k + (v :: r).length := by simp only [List.length_cons]; omega
      rw [if_pos h1, if_pos h2]
      obtain ⟨n, hn⟩ : ∃ n, x - k = n + 1 := ⟨x - k - 1, by omega⟩
      rw [hn, List.getD_cons_succ]
      congr 1
      omega
    · rw [if_neg h1]
      by_cases hx : x = k
      · subst hx
        have h2 : x ≤ x ∧ x < x + (v :: r).length := by simp only [List.length_cons]; omega
        rw [if_pos h2]
        simp
      · have h2 : ¬ (k ≤ x ∧ x < k + (v :: r).length) := by simp only [List.length_cons]; omega
        rw [if_neg h2, Tab.get_set_other d t v hx]

end Sys2Proof
end

