-- ==== Sys2Proof/Laws/Memory.lean ====
section
/-! SUPPORT. Every operation on a memory keeps the canonical form, and the memories of the reset state have it. -/

namespace Sys2Proof.Machine

theorem reset_memory_wf : Memory.wf State.reset = true := rfl

/-! The Piazza. -/

@[simp] theorem Piazza.touch_mem (p : Piazza) (addr : Nat) (poison : Bool) : (p.touch addr poison).mem = p.mem := rfl

theorem Piazza.touches_mem (gs : List Nat) (p : Piazza) : (gs.foldl (fun p g => p.touch (g * 1024) false) p).mem = p.mem := by
  induction gs generalizing p with
  | nil => rfl
  | cons g r ih => rw [List.foldl_cons, ih, Piazza.touch_mem]

theorem Piazza.wf_writeLine {p : Piazza} (h : Tab.wf 0 p.mem = true) (addr : Nat) (b : Bytes) (poison : Bool) :
    Tab.wf 0 (p.writeLine addr b poison).mem = true := Tab.wf_setMany _ _ h

theorem Piazza.wf_writeBytes {p : Piazza} (h : Tab.wf 0 p.mem = true) (addr : Nat) (b : Bytes) :
    Tab.wf 0 (p.writeBytes addr b).mem = true := by
  unfold Piazza.writeBytes
  simp only [Piazza.touches_mem]
  exact Tab.wf_setMany _ _ h

theorem Piazza.wf_zeroPage {p : Piazza} (h : Tab.wf 0 p.mem = true) (page : Nat) : Tab.wf 0 (p.zeroPage page).mem = true :=
  Tab.wf_clear _ _ h

/-! The Local Stores. -/

theorem Arcade.wf_writeAls {c : Arcade} (h : Tab.wf 0 c.als = true) (addr : Nat) (b : Bytes) (poison : Bool) :
    Tab.wf 0 (c.writeAls addr b poison).als = true := Tab.wf_setMany _ _ h

theorem Arcade.wf_zeroRows {c : Arcade} (h : Tab.wf 0 c.als = true) (g : Tab.wf 0 c.side = true) (lo hi : Nat) :
    Tab.wf 0 (c.zeroRows lo hi).als = true ∧ Tab.wf 0 (c.zeroRows lo hi).side = true := ⟨Tab.wf_clear _ _ h, Tab.wf_clear _ _ g⟩

theorem Arcade.wf_writeImage {c : Arcade} (h : Tab.wf 0 c.als = true) (g : Tab.wf 0 c.side = true) (r : Region) (mx : Bool) (b : Bytes) :
    Tab.wf 0 (c.writeImage r mx b).als = true ∧ Tab.wf 0 (c.writeImage r mx b).side = true := by
  have z := Arcade.wf_zeroRows h g r.firstRow r.lastRow
  refine ⟨Tab.wf_setMany _ _ z.1, ?_⟩
  cases mx
  · exact z.2
  · exact Tab.wf_setMany _ _ z.2

/-! Flash, fuses and the controllers' memories. -/

@[simp] theorem State.xspiChange_flash (s : State) (op addr : Nat) (b : Bytes) : (s.xspiChange op addr b).flash = s.flash := rfl

/-- A run of xSPI commands leaves the flash's bytes: they are written beside the commands that are sent for them. -/
theorem State.xspiChanges_flash {α : Type} (f : State → α → State) (hf : ∀ s a, (f s a).flash = s.flash) (l : List α) (s : State) :
    (l.foldl f s).flash = s.flash := by
  induction l generalizing s with
  | nil => rfl
  | cons a l ih => simp [ih, hf]

theorem State.wf_flashWrite {s : State} (h : Tab.wf 0 s.flash = true) (addr : Nat) (b : Bytes) :
    Tab.wf 0 (s.flashWrite addr b).flash = true :=
  Tab.wf_setMany _ _ ((congrArg (Tab.wf 0) (State.xspiChanges_flash _ (fun _ _ => State.xspiChange_flash _ _ _ _) _ s)).trans h)

theorem State.wf_flashErase {s : State} (h : Tab.wf 0 s.flash = true) (lo hi : Nat) : Tab.wf 0 (s.flashErase lo hi).flash = true :=
  Tab.wf_clear _ _ ((congrArg (Tab.wf 0) (State.xspiChanges_flash _ (fun _ _ => State.xspiChange_flash _ _ _ _) _ s)).trans h)

theorem State.wf_wipeUser {s : State} (h : Tab.wf 0 s.flash = true) : Tab.wf 0 s.wipeUser.flash = true := Tab.wf_filter _ h

theorem State.wf_blow {s : State} (h : Tab.wf 0 s.fuses = true) (w : Nat) (bits : BitVec 32) : Tab.wf 0 (s.blow w bits).fuses = true := by
  unfold State.blow
  exact Tab.wf_upd w (fun v => v ||| bits) h

end Sys2Proof.Machine
end

