-- ==== Sys2Proof/Laws/State.lean ====
section
/-! SUPPORT. The laws of the updates of the state: what each leaves as it was, and what a read after it gives. -/

namespace Sys2Proof.Machine

variable (s : State)

@[simp] theorem State.emit_pending (o : Out) : (s.emit o).pending = s.pending := rfl
@[simp] theorem State.emit_free (o : Out) : (s.emit o).free = s.free := rfl
@[simp] theorem State.emit_top (o : Out) : (s.emit o).top = s.top := rfl
@[simp] theorem State.emit_ptu (o : Out) : (s.emit o).ptu = s.ptu := rfl
@[simp] theorem State.emit_win (o : Out) : (s.emit o).win = s.win := rfl
@[simp] theorem State.emit_rb (o : Out) : (s.emit o).rb = s.rb := rfl
@[simp] theorem State.emit_policy (o : Out) : (s.emit o).policy = s.policy := rfl
@[simp] theorem State.emit_banks (o : Out) : (s.emit o).banks = s.banks := rfl
@[simp] theorem State.emit_plans (o : Out) : (s.emit o).plans = s.plans := rfl
@[simp] theorem State.emit_sess (o : Out) : (s.emit o).sess = s.sess := rfl
@[simp] theorem State.emit_cuts (o : Out) : (s.emit o).cuts = s.cuts := rfl
@[simp] theorem State.emit_cutDue (o : Out) : (s.emit o).cutDue = s.cutDue := rfl
@[simp] theorem State.emit_cutWait (o : Out) : (s.emit o).cutWait = s.cutWait := rfl
@[simp] theorem State.emit_streams (o : Out) : (s.emit o).streams = s.streams := rfl
@[simp] theorem State.emit_results (o : Out) : (s.emit o).results = s.results := rfl
@[simp] theorem State.emit_si (o : Out) : (s.emit o).si = s.si := rfl
@[simp] theorem State.emit_se (o : Out) : (s.emit o).se = s.se := rfl
@[simp] theorem State.emit_jobs (o : Out) : (s.emit o).jobs = s.jobs := rfl
@[simp] theorem State.emit_arc (o : Out) : (s.emit o).arc = s.arc := rfl
@[simp] theorem State.emit_pz (o : Out) : (s.emit o).pz = s.pz := rfl
@[simp] theorem State.emit_health (o : Out) : (s.emit o).health = s.health := rfl
@[simp] theorem State.emit_boot (o : Out) : (s.emit o).boot = s.boot := rfl
@[simp] theorem State.emit_flash (o : Out) : (s.emit o).flash = s.flash := rfl
@[simp] theorem State.emit_fuses (o : Out) : (s.emit o).fuses = s.fuses := rfl
@[simp] theorem State.emit_lc (o : Out) : (s.emit o).lc = s.lc := rfl
@[simp] theorem State.emit_keys (o : Out) : (s.emit o).keys = s.keys := rfl
@[simp] theorem State.emit_de (o : Out) : (s.emit o).de = s.de := rfl
@[simp] theorem State.emit_pke (o : Out) : (s.emit o).pke = s.pke := rfl
@[simp] theorem State.emit_trng (o : Out) : (s.emit o).trng = s.trng := rfl
@[simp] theorem State.emit_uart (o : Out) : (s.emit o).uart = s.uart := rfl
@[simp] theorem State.emit_mgmt (o : Out) : (s.emit o).mgmt = s.mgmt := rfl
@[simp] theorem State.emit_pm (o : Out) : (s.emit o).pm = s.pm := rfl
@[simp] theorem State.emit_fm (o : Out) : (s.emit o).fm = s.fm := rfl
@[simp] theorem State.emit_msgs (o : Out) : (s.emit o).msgs = s.msgs := rfl
@[simp] theorem State.emit_fcSram (o : Out) : (s.emit o).fcSram = s.fcSram := rfl
@[simp] theorem State.emit_qcMem (o : Out) : (s.emit o).qcMem = s.qcMem := rfl

@[simp] theorem State.onWin_pending (w : Nat) (f : Window → Window) : (s.onWin w f).pending = s.pending := rfl
@[simp] theorem State.onWin_out (w : Nat) (f : Window → Window) : (s.onWin w f).out = s.out := rfl
@[simp] theorem State.onWin_free (w : Nat) (f : Window → Window) : (s.onWin w f).free = s.free := rfl
@[simp] theorem State.onWin_top (w : Nat) (f : Window → Window) : (s.onWin w f).top = s.top := rfl
@[simp] theorem State.onWin_ptu (w : Nat) (f : Window → Window) : (s.onWin w f).ptu = s.ptu := rfl
@[simp] theorem State.onWin_rb (w : Nat) (f : Window → Window) : (s.onWin w f).rb = s.rb := rfl
@[simp] theorem State.onWin_policy (w : Nat) (f : Window → Window) : (s.onWin w f).policy = s.policy := rfl
@[simp] theorem State.onWin_banks (w : Nat) (f : Window → Window) : (s.onWin w f).banks = s.banks := rfl
@[simp] theorem State.onWin_plans (w : Nat) (f : Window → Window) : (s.onWin w f).plans = s.plans := rfl
@[simp] theorem State.onWin_sess (w : Nat) (f : Window → Window) : (s.onWin w f).sess = s.sess := rfl
@[simp] theorem State.onWin_cuts (w : Nat) (f : Window → Window) : (s.onWin w f).cuts = s.cuts := rfl
@[simp] theorem State.onWin_cutDue (w : Nat) (f : Window → Window) : (s.onWin w f).cutDue = s.cutDue := rfl
@[simp] theorem State.onWin_cutWait (w : Nat) (f : Window → Window) : (s.onWin w f).cutWait = s.cutWait := rfl
@[simp] theorem State.onWin_streams (w : Nat) (f : Window → Window) : (s.onWin w f).streams = s.streams := rfl
@[simp] theorem State.onWin_results (w : Nat) (f : Window → Window) : (s.onWin w f).results = s.results := rfl
@[simp] theorem State.onWin_si (w : Nat) (f : Window → Window) : (s.onWin w f).si = s.si := rfl
@[simp] theorem State.onWin_se (w : Nat) (f : Window → Window) : (s.onWin w f).se = s.se := rfl
@[simp] theorem State.onWin_jobs (w : Nat) (f : Window → Window) : (s.onWin w f).jobs = s.jobs := rfl
@[simp] theorem State.onWin_arc (w : Nat) (f : Window → Window) : (s.onWin w f).arc = s.arc := rfl
@[simp] theorem State.onWin_pz (w : Nat) (f : Window → Window) : (s.onWin w f).pz = s.pz := rfl
@[simp] theorem State.onWin_health (w : Nat) (f : Window → Window) : (s.onWin w f).health = s.health := rfl
@[simp] theorem State.onWin_boot (w : Nat) (f : Window → Window) : (s.onWin w f).boot = s.boot := rfl
@[simp] theorem State.onWin_flash (w : Nat) (f : Window → Window) : (s.onWin w f).flash = s.flash := rfl
@[simp] theorem State.onWin_fuses (w : Nat) (f : Window → Window) : (s.onWin w f).fuses = s.fuses := rfl
@[simp] theorem State.onWin_lc (w : Nat) (f : Window → Window) : (s.onWin w f).lc = s.lc := rfl
@[simp] theorem State.onWin_keys (w : Nat) (f : Window → Window) : (s.onWin w f).keys = s.keys := rfl
@[simp] theorem State.onWin_de (w : Nat) (f : Window → Window) : (s.onWin w f).de = s.de := rfl
@[simp] theorem State.onWin_pke (w : Nat) (f : Window → Window) : (s.onWin w f).pke = s.pke := rfl
@[simp] theorem State.onWin_trng (w : Nat) (f : Window → Window) : (s.onWin w f).trng = s.trng := rfl
@[simp] theorem State.onWin_uart (w : Nat) (f : Window → Window) : (s.onWin w f).uart = s.uart := rfl
@[simp] theorem State.onWin_mgmt (w : Nat) (f : Window → Window) : (s.onWin w f).mgmt = s.mgmt := rfl
@[simp] theorem State.onWin_pm (w : Nat) (f : Window → Window) : (s.onWin w f).pm = s.pm := rfl
@[simp] theorem State.onWin_fm (w : Nat) (f : Window → Window) : (s.onWin w f).fm = s.fm := rfl
@[simp] theorem State.onWin_msgs (w : Nat) (f : Window → Window) : (s.onWin w f).msgs = s.msgs := rfl
@[simp] theorem State.onWin_fcSram (w : Nat) (f : Window → Window) : (s.onWin w f).fcSram = s.fcSram := rfl
@[simp] theorem State.onWin_qcMem (w : Nat) (f : Window → Window) : (s.onWin w f).qcMem = s.qcMem := rfl
@[simp] theorem State.window_of_onWin (w : Nat) (f : Window → Window) : (s.onWin w f).window w = f (s.window w) :=
  Tab.get_upd_same _ _ _ _
theorem State.window_of_onWin_other (f : Window → Window) {m n : Nat} (h : m ≠ n) : (s.onWin n f).window m = s.window m :=
  Tab.get_upd_other _ _ _ h

@[simp] theorem State.onSess_pending (n : Nat) (f : Session → Session) : (s.onSess n f).pending = s.pending := rfl
@[simp] theorem State.onSess_out (n : Nat) (f : Session → Session) : (s.onSess n f).out = s.out := rfl
@[simp] theorem State.onSess_free (n : Nat) (f : Session → Session) : (s.onSess n f).free = s.free := rfl
@[simp] theorem State.onSess_top (n : Nat) (f : Session → Session) : (s.onSess n f).top = s.top := rfl
@[simp] theorem State.onSess_ptu (n : Nat) (f : Session → Session) : (s.onSess n f).ptu = s.ptu := rfl
@[simp] theorem State.onSess_win (n : Nat) (f : Session → Session) : (s.onSess n f).win = s.win := rfl
@[simp] theorem State.onSess_rb (n : Nat) (f : Session → Session) : (s.onSess n f).rb = s.rb := rfl
@[simp] theorem State.onSess_policy (n : Nat) (f : Session → Session) : (s.onSess n f).policy = s.policy := rfl
@[simp] theorem State.onSess_banks (n : Nat) (f : Session → Session) : (s.onSess n f).banks = s.banks := rfl
@[simp] theorem State.onSess_plans (n : Nat) (f : Session → Session) : (s.onSess n f).plans = s.plans := rfl
@[simp] theorem State.onSess_cuts (n : Nat) (f : Session → Session) : (s.onSess n f).cuts = s.cuts := rfl
@[simp] theorem State.onSess_cutDue (n : Nat) (f : Session → Session) : (s.onSess n f).cutDue = s.cutDue := rfl
@[simp] theorem State.onSess_cutWait (n : Nat) (f : Session → Session) : (s.onSess n f).cutWait = s.cutWait := rfl
@[simp] theorem State.onSess_streams (n : Nat) (f : Session → Session) : (s.onSess n f).streams = s.streams := rfl
@[simp] theorem State.onSess_results (n : Nat) (f : Session → Session) : (s.onSess n f).results = s.results := rfl
@[simp] theorem State.onSess_si (n : Nat) (f : Session → Session) : (s.onSess n f).si = s.si := rfl
@[simp] theorem State.onSess_se (n : Nat) (f : Session → Session) : (s.onSess n f).se = s.se := rfl
@[simp] theorem State.onSess_jobs (n : Nat) (f : Session → Session) : (s.onSess n f).jobs = s.jobs := rfl
@[simp] theorem State.onSess_arc (n : Nat) (f : Session → Session) : (s.onSess n f).arc = s.arc := rfl
@[simp] theorem State.onSess_pz (n : Nat) (f : Session → Session) : (s.onSess n f).pz = s.pz := rfl
@[simp] theorem State.onSess_health (n : Nat) (f : Session → Session) : (s.onSess n f).health = s.health := rfl
@[simp] theorem State.onSess_boot (n : Nat) (f : Session → Session) : (s.onSess n f).boot = s.boot := rfl
@[simp] theorem State.onSess_flash (n : Nat) (f : Session → Session) : (s.onSess n f).flash = s.flash := rfl
@[simp] theorem State.onSess_fuses (n : Nat) (f : Session → Session) : (s.onSess n f).fuses = s.fuses := rfl
@[simp] theorem State.onSess_lc (n : Nat) (f : Session → Session) : (s.onSess n f).lc = s.lc := rfl
@[simp] theorem State.onSess_keys (n : Nat) (f : Session → Session) : (s.onSess n f).keys = s.keys := rfl
@[simp] theorem State.onSess_de (n : Nat) (f : Session → Session) : (s.onSess n f).de = s.de := rfl
@[simp] theorem State.onSess_pke (n : Nat) (f : Session → Session) : (s.onSess n f).pke = s.pke := rfl
@[simp] theorem State.onSess_trng (n : Nat) (f : Session → Session) : (s.onSess n f).trng = s.trng := rfl
@[simp] theorem State.onSess_uart (n : Nat) (f : Session → Session) : (s.onSess n f).uart = s.uart := rfl
@[simp] theorem State.onSess_mgmt (n : Nat) (f : Session → Session) : (s.onSess n f).mgmt = s.mgmt := rfl
@[simp] theorem State.onSess_pm (n : Nat) (f : Session → Session) : (s.onSess n f).pm = s.pm := rfl
@[simp] theorem State.onSess_fm (n : Nat) (f : Session → Session) : (s.onSess n f).fm = s.fm := rfl
@[simp] theorem State.onSess_msgs (n : Nat) (f : Session → Session) : (s.onSess n f).msgs = s.msgs := rfl
@[simp] theorem State.onSess_fcSram (n : Nat) (f : Session → Session) : (s.onSess n f).fcSram = s.fcSram := rfl
@[simp] theorem State.onSess_qcMem (n : Nat) (f : Session → Session) : (s.onSess n f).qcMem = s.qcMem := rfl
@[simp] theorem State.session_of_onSess (n : Nat) (f : Session → Session) : (s.onSess n f).session n = f (s.session n) :=
  Tab.get_upd_same _ _ _ _
theorem State.session_of_onSess_other (f : Session → Session) {m n : Nat} (h : m ≠ n) : (s.onSess n f).session m = s.session m :=
  Tab.get_upd_other _ _ _ h

@[simp] theorem State.onStream_pending (n : Nat) (f : Stream → Stream) : (s.onStream n f).pending = s.pending := rfl
@[simp] theorem State.onStream_out (n : Nat) (f : Stream → Stream) : (s.onStream n f).out = s.out := rfl
@[simp] theorem State.onStream_free (n : Nat) (f : Stream → Stream) : (s.onStream n f).free = s.free := rfl
@[simp] theorem State.onStream_top (n : Nat) (f : Stream → Stream) : (s.onStream n f).top = s.top := rfl
@[simp] theorem State.onStream_ptu (n : Nat) (f : Stream → Stream) : (s.onStream n f).ptu = s.ptu := rfl
@[simp] theorem State.onStream_win (n : Nat) (f : Stream → Stream) : (s.onStream n f).win = s.win := rfl
@[simp] theorem State.onStream_rb (n : Nat) (f : Stream → Stream) : (s.onStream n f).rb = s.rb := rfl
@[simp] theorem State.onStream_policy (n : Nat) (f : Stream → Stream) : (s.onStream n f).policy = s.policy := rfl
@[simp] theorem State.onStream_banks (n : Nat) (f : Stream → Stream) : (s.onStream n f).banks = s.banks := rfl
@[simp] theorem State.onStream_plans (n : Nat) (f : Stream → Stream) : (s.onStream n f).plans = s.plans := rfl
@[simp] theorem State.onStream_sess (n : Nat) (f : Stream → Stream) : (s.onStream n f).sess = s.sess := rfl
@[simp] theorem State.onStream_cuts (n : Nat) (f : Stream → Stream) : (s.onStream n f).cuts = s.cuts := rfl
@[simp] theorem State.onStream_cutDue (n : Nat) (f : Stream → Stream) : (s.onStream n f).cutDue = s.cutDue := rfl
@[simp] theorem State.onStream_cutWait (n : Nat) (f : Stream → Stream) : (s.onStream n f).cutWait = s.cutWait := rfl
@[simp] theorem State.onStream_results (n : Nat) (f : Stream → Stream) : (s.onStream n f).results = s.results := rfl
@[simp] theorem State.onStream_si (n : Nat) (f : Stream → Stream) : (s.onStream n f).si = s.si := rfl
@[simp] theorem State.onStream_se (n : Nat) (f : Stream → Stream) : (s.onStream n f).se = s.se := rfl
@[simp] theorem State.onStream_jobs (n : Nat) (f : Stream → Stream) : (s.onStream n f).jobs = s.jobs := rfl
@[simp] theorem State.onStream_arc (n : Nat) (f : Stream → Stream) : (s.onStream n f).arc = s.arc := rfl
@[simp] theorem State.onStream_pz (n : Nat) (f : Stream → Stream) : (s.onStream n f).pz = s.pz := rfl
@[simp] theorem State.onStream_health (n : Nat) (f : Stream → Stream) : (s.onStream n f).health = s.health := rfl
@[simp] theorem State.onStream_boot (n : Nat) (f : Stream → Stream) : (s.onStream n f).boot = s.boot := rfl
@[simp] theorem State.onStream_flash (n : Nat) (f : Stream → Stream) : (s.onStream n f).flash = s.flash := rfl
@[simp] theorem State.onStream_fuses (n : Nat) (f : Stream → Stream) : (s.onStream n f).fuses = s.fuses := rfl
@[simp] theorem State.onStream_lc (n : Nat) (f : Stream → Stream) : (s.onStream n f).lc = s.lc := rfl
@[simp] theorem State.onStream_keys (n : Nat) (f : Stream → Stream) : (s.onStream n f).keys = s.keys := rfl
@[simp] theorem State.onStream_de (n : Nat) (f : Stream → Stream) : (s.onStream n f).de = s.de := rfl
@[simp] theorem State.onStream_pke (n : Nat) (f : Stream → Stream) : (s.onStream n f).pke = s.pke := rfl
@[simp] theorem State.onStream_trng (n : Nat) (f : Stream → Stream) : (s.onStream n f).trng = s.trng := rfl
@[simp] theorem State.onStream_uart (n : Nat) (f : Stream → Stream) : (s.onStream n f).uart = s.uart := rfl
@[simp] theorem State.onStream_mgmt (n : Nat) (f : Stream → Stream) : (s.onStream n f).mgmt = s.mgmt := rfl
@[simp] theorem State.onStream_pm (n : Nat) (f : Stream → Stream) : (s.onStream n f).pm = s.pm := rfl
@[simp] theorem State.onStream_fm (n : Nat) (f : Stream → Stream) : (s.onStream n f).fm = s.fm := rfl
@[simp] theorem State.onStream_msgs (n : Nat) (f : Stream → Stream) : (s.onStream n f).msgs = s.msgs := rfl
@[simp] theorem State.onStream_fcSram (n : Nat) (f : Stream → Stream) : (s.onStream n f).fcSram = s.fcSram := rfl
@[simp] theorem State.onStream_qcMem (n : Nat) (f : Stream → Stream) : (s.onStream n f).qcMem = s.qcMem := rfl
@[simp] theorem State.stream_of_onStream (n : Nat) (f : Stream → Stream) : (s.onStream n f).stream n = f (s.stream n) :=
  Tab.get_upd_same _ _ _ _
theorem State.stream_of_onStream_other (f : Stream → Stream) {m n : Nat} (h : m ≠ n) : (s.onStream n f).stream m = s.stream m :=
  Tab.get_upd_other _ _ _ h

@[simp] theorem State.onArc_pending (n : Nat) (f : Arcade → Arcade) : (s.onArc n f).pending = s.pending := rfl
@[simp] theorem State.onArc_out (n : Nat) (f : Arcade → Arcade) : (s.onArc n f).out = s.out := rfl
@[simp] theorem State.onArc_free (n : Nat) (f : Arcade → Arcade) : (s.onArc n f).free = s.free := rfl
@[simp] theorem State.onArc_top (n : Nat) (f : Arcade → Arcade) : (s.onArc n f).top = s.top := rfl
@[simp] theorem State.onArc_ptu (n : Nat) (f : Arcade → Arcade) : (s.onArc n f).ptu = s.ptu := rfl
@[simp] theorem State.onArc_win (n : Nat) (f : Arcade → Arcade) : (s.onArc n f).win = s.win := rfl
@[simp] theorem State.onArc_rb (n : Nat) (f : Arcade → Arcade) : (s.onArc n f).rb = s.rb := rfl
@[simp] theorem State.onArc_policy (n : Nat) (f : Arcade → Arcade) : (s.onArc n f).policy = s.policy := rfl
@[simp] theorem State.onArc_banks (n : Nat) (f : Arcade → Arcade) : (s.onArc n f).banks = s.banks := rfl
@[simp] theorem State.onArc_plans (n : Nat) (f : Arcade → Arcade) : (s.onArc n f).plans = s.plans := rfl
@[simp] theorem State.onArc_sess (n : Nat) (f : Arcade → Arcade) : (s.onArc n f).sess = s.sess := rfl
@[simp] theorem State.onArc_cuts (n : Nat) (f : Arcade → Arcade) : (s.onArc n f).cuts = s.cuts := rfl
@[simp] theorem State.onArc_cutDue (n : Nat) (f : Arcade → Arcade) : (s.onArc n f).cutDue = s.cutDue := rfl
@[simp] theorem State.onArc_cutWait (n : Nat) (f : Arcade → Arcade) : (s.onArc n f).cutWait = s.cutWait := rfl
@[simp] theorem State.onArc_streams (n : Nat) (f : Arcade → Arcade) : (s.onArc n f).streams = s.streams := rfl
@[simp] theorem State.onArc_results (n : Nat) (f : Arcade → Arcade) : (s.onArc n f).results = s.results := rfl
@[simp] theorem State.onArc_si (n : Nat) (f : Arcade → Arcade) : (s.onArc n f).si = s.si := rfl
@[simp] theorem State.onArc_se (n : Nat) (f : Arcade → Arcade) : (s.onArc n f).se = s.se := rfl
@[simp] theorem State.onArc_jobs (n : Nat) (f : Arcade → Arcade) : (s.onArc n f).jobs = s.jobs := rfl
@[simp] theorem State.onArc_pz (n : Nat) (f : Arcade → Arcade) : (s.onArc n f).pz = s.pz := rfl
@[simp] theorem State.onArc_health (n : Nat) (f : Arcade → Arcade) : (s.onArc n f).health = s.health := rfl
@[simp] theorem State.onArc_boot (n : Nat) (f : Arcade → Arcade) : (s.onArc n f).boot = s.boot := rfl
@[simp] theorem State.onArc_flash (n : Nat) (f : Arcade → Arcade) : (s.onArc n f).flash = s.flash := rfl
@[simp] theorem State.onArc_fuses (n : Nat) (f : Arcade → Arcade) : (s.onArc n f).fuses = s.fuses := rfl
@[simp] theorem State.onArc_lc (n : Nat) (f : Arcade → Arcade) : (s.onArc n f).lc = s.lc := rfl
@[simp] theorem State.onArc_keys (n : Nat) (f : Arcade → Arcade) : (s.onArc n f).keys = s.keys := rfl
@[simp] theorem State.onArc_de (n : Nat) (f : Arcade → Arcade) : (s.onArc n f).de = s.de := rfl
@[simp] theorem State.onArc_pke (n : Nat) (f : Arcade → Arcade) : (s.onArc n f).pke = s.pke := rfl
@[simp] theorem State.onArc_trng (n : Nat) (f : Arcade → Arcade) : (s.onArc n f).trng = s.trng := rfl
@[simp] theorem State.onArc_uart (n : Nat) (f : Arcade → Arcade) : (s.onArc n f).uart = s.uart := rfl
@[simp] theorem State.onArc_mgmt (n : Nat) (f : Arcade → Arcade) : (s.onArc n f).mgmt = s.mgmt := rfl
@[simp] theorem State.onArc_pm (n : Nat) (f : Arcade → Arcade) : (s.onArc n f).pm = s.pm := rfl
@[simp] theorem State.onArc_fm (n : Nat) (f : Arcade → Arcade) : (s.onArc n f).fm = s.fm := rfl
@[simp] theorem State.onArc_msgs (n : Nat) (f : Arcade → Arcade) : (s.onArc n f).msgs = s.msgs := rfl
@[simp] theorem State.onArc_fcSram (n : Nat) (f : Arcade → Arcade) : (s.onArc n f).fcSram = s.fcSram := rfl
@[simp] theorem State.onArc_qcMem (n : Nat) (f : Arcade → Arcade) : (s.onArc n f).qcMem = s.qcMem := rfl
@[simp] theorem State.arcade_of_onArc (n : Nat) (f : Arcade → Arcade) : (s.onArc n f).arcade n = f (s.arcade n) :=
  Tab.get_upd_same _ _ _ _
theorem State.arcade_of_onArc_other (f : Arcade → Arcade) {m n : Nat} (h : m ≠ n) : (s.onArc n f).arcade m = s.arcade m :=
  Tab.get_upd_other _ _ _ h

@[simp] theorem State.onJob_pending (n : Nat) (f : Job → Job) : (s.onJob n f).pending = s.pending := rfl
@[simp] theorem State.onJob_out (n : Nat) (f : Job → Job) : (s.onJob n f).out = s.out := rfl
@[simp] theorem State.onJob_free (n : Nat) (f : Job → Job) : (s.onJob n f).free = s.free := rfl
@[simp] theorem State.onJob_top (n : Nat) (f : Job → Job) : (s.onJob n f).top = s.top := rfl
@[simp] theorem State.onJob_ptu (n : Nat) (f : Job → Job) : (s.onJob n f).ptu = s.ptu := rfl
@[simp] theorem State.onJob_win (n : Nat) (f : Job → Job) : (s.onJob n f).win = s.win := rfl
@[simp] theorem State.onJob_rb (n : Nat) (f : Job → Job) : (s.onJob n f).rb = s.rb := rfl
@[simp] theorem State.onJob_policy (n : Nat) (f : Job → Job) : (s.onJob n f).policy = s.policy := rfl
@[simp] theorem State.onJob_banks (n : Nat) (f : Job → Job) : (s.onJob n f).banks = s.banks := rfl
@[simp] theorem State.onJob_plans (n : Nat) (f : Job → Job) : (s.onJob n f).plans = s.plans := rfl
@[simp] theorem State.onJob_sess (n : Nat) (f : Job → Job) : (s.onJob n f).sess = s.sess := rfl
@[simp] theorem State.onJob_cuts (n : Nat) (f : Job → Job) : (s.onJob n f).cuts = s.cuts := rfl
@[simp] theorem State.onJob_cutDue (n : Nat) (f : Job → Job) : (s.onJob n f).cutDue = s.cutDue := rfl
@[simp] theorem State.onJob_cutWait (n : Nat) (f : Job → Job) : (s.onJob n f).cutWait = s.cutWait := rfl
@[simp] theorem State.onJob_streams (n : Nat) (f : Job → Job) : (s.onJob n f).streams = s.streams := rfl
@[simp] theorem State.onJob_results (n : Nat) (f : Job → Job) : (s.onJob n f).results = s.results := rfl
@[simp] theorem State.onJob_si (n : Nat) (f : Job → Job) : (s.onJob n f).si = s.si := rfl
@[simp] theorem State.onJob_se (n : Nat) (f : Job → Job) : (s.onJob n f).se = s.se := rfl
@[simp] theorem State.onJob_arc (n : Nat) (f : Job → Job) : (s.onJob n f).arc = s.arc := rfl
@[simp] theorem State.onJob_pz (n : Nat) (f : Job → Job) : (s.onJob n f).pz = s.pz := rfl
@[simp] theorem State.onJob_health (n : Nat) (f : Job → Job) : (s.onJob n f).health = s.health := rfl
@[simp] theorem State.onJob_boot (n : Nat) (f : Job → Job) : (s.onJob n f).boot = s.boot := rfl
@[simp] theorem State.onJob_flash (n : Nat) (f : Job → Job) : (s.onJob n f).flash = s.flash := rfl
@[simp] theorem State.onJob_fuses (n : Nat) (f : Job → Job) : (s.onJob n f).fuses = s.fuses := rfl
@[simp] theorem State.onJob_lc (n : Nat) (f : Job → Job) : (s.onJob n f).lc = s.lc := rfl
@[simp] theorem State.onJob_keys (n : Nat) (f : Job → Job) : (s.onJob n f).keys = s.keys := rfl
@[simp] theorem State.onJob_de (n : Nat) (f : Job → Job) : (s.onJob n f).de = s.de := rfl
@[simp] theorem State.onJob_pke (n : Nat) (f : Job → Job) : (s.onJob n f).pke = s.pke := rfl
@[simp] theorem State.onJob_trng (n : Nat) (f : Job → Job) : (s.onJob n f).trng = s.trng := rfl
@[simp] theorem State.onJob_uart (n : Nat) (f : Job → Job) : (s.onJob n f).uart = s.uart := rfl
@[simp] theorem State.onJob_mgmt (n : Nat) (f : Job → Job) : (s.onJob n f).mgmt = s.mgmt := rfl
@[simp] theorem State.onJob_pm (n : Nat) (f : Job → Job) : (s.onJob n f).pm = s.pm := rfl
@[simp] theorem State.onJob_fm (n : Nat) (f : Job → Job) : (s.onJob n f).fm = s.fm := rfl
@[simp] theorem State.onJob_msgs (n : Nat) (f : Job → Job) : (s.onJob n f).msgs = s.msgs := rfl
@[simp] theorem State.onJob_fcSram (n : Nat) (f : Job → Job) : (s.onJob n f).fcSram = s.fcSram := rfl
@[simp] theorem State.onJob_qcMem (n : Nat) (f : Job → Job) : (s.onJob n f).qcMem = s.qcMem := rfl
@[simp] theorem State.job_of_onJob (n : Nat) (f : Job → Job) : (s.onJob n f).job n = f (s.job n) :=
  Tab.get_upd_same _ _ _ _
theorem State.job_of_onJob_other (f : Job → Job) {m n : Nat} (h : m ≠ n) : (s.onJob n f).job m = s.job m :=
  Tab.get_upd_other _ _ _ h

@[simp] theorem State.onPlan_pending (w : Nat) (f : ViPlan → ViPlan) : (s.onPlan w f).pending = s.pending := rfl
@[simp] theorem State.onPlan_out (w : Nat) (f : ViPlan → ViPlan) : (s.onPlan w f).out = s.out := rfl
@[simp] theorem State.onPlan_free (w : Nat) (f : ViPlan → ViPlan) : (s.onPlan w f).free = s.free := rfl
@[simp] theorem State.onPlan_top (w : Nat) (f : ViPlan → ViPlan) : (s.onPlan w f).top = s.top := rfl
@[simp] theorem State.onPlan_ptu (w : Nat) (f : ViPlan → ViPlan) : (s.onPlan w f).ptu = s.ptu := rfl
@[simp] theorem State.onPlan_win (w : Nat) (f : ViPlan → ViPlan) : (s.onPlan w f).win = s.win := rfl
@[simp] theorem State.onPlan_rb (w : Nat) (f : ViPlan → ViPlan) : (s.onPlan w f).rb = s.rb := rfl
@[simp] theorem State.onPlan_policy (w : Nat) (f : ViPlan → ViPlan) : (s.onPlan w f).policy = s.policy := rfl
@[simp] theorem State.onPlan_banks (w : Nat) (f : ViPlan → ViPlan) : (s.onPlan w f).banks = s.banks := rfl
@[simp] theorem State.onPlan_sess (w : Nat) (f : ViPlan → ViPlan) : (s.onPlan w f).sess = s.sess := rfl
@[simp] theorem State.onPlan_cuts (w : Nat) (f : ViPlan → ViPlan) : (s.onPlan w f).cuts = s.cuts := rfl
@[simp] theorem State.onPlan_cutDue (w : Nat) (f : ViPlan → ViPlan) : (s.onPlan w f).cutDue = s.cutDue := rfl
@[simp] theorem State.onPlan_cutWait (w : Nat) (f : ViPlan → ViPlan) : (s.onPlan w f).cutWait = s.cutWait := rfl
@[simp] theorem State.onPlan_streams (w : Nat) (f : ViPlan → ViPlan) : (s.onPlan w f).streams = s.streams := rfl
@[simp] theorem State.onPlan_results (w : Nat) (f : ViPlan → ViPlan) : (s.onPlan w f).results = s.results := rfl
@[simp] theorem State.onPlan_si (w : Nat) (f : ViPlan → ViPlan) : (s.onPlan w f).si = s.si := rfl
@[simp] theorem State.onPlan_se (w : Nat) (f : ViPlan → ViPlan) : (s.onPlan w f).se = s.se := rfl
@[simp] theorem State.onPlan_jobs (w : Nat) (f : ViPlan → ViPlan) : (s.onPlan w f).jobs = s.jobs := rfl
@[simp] theorem State.onPlan_arc (w : Nat) (f : ViPlan → ViPlan) : (s.onPlan w f).arc = s.arc := rfl
@[simp] theorem State.onPlan_pz (w : Nat) (f : ViPlan → ViPlan) : (s.onPlan w f).pz = s.pz := rfl
@[simp] theorem State.onPlan_health (w : Nat) (f : ViPlan → ViPlan) : (s.onPlan w f).health = s.health := rfl
@[simp] theorem State.onPlan_boot (w : Nat) (f : ViPlan → ViPlan) : (s.onPlan w f).boot = s.boot := rfl
@[simp] theorem State.onPlan_flash (w : Nat) (f : ViPlan → ViPlan) : (s.onPlan w f).flash = s.flash := rfl
@[simp] theorem State.onPlan_fuses (w : Nat) (f : ViPlan → ViPlan) : (s.onPlan w f).fuses = s.fuses := rfl
@[simp] theorem State.onPlan_lc (w : Nat) (f : ViPlan → ViPlan) : (s.onPlan w f).lc = s.lc := rfl
@[simp] theorem State.onPlan_keys (w : Nat) (f : ViPlan → ViPlan) : (s.onPlan w f).keys = s.keys := rfl
@[simp] theorem State.onPlan_de (w : Nat) (f : ViPlan → ViPlan) : (s.onPlan w f).de = s.de := rfl
@[simp] theorem State.onPlan_pke (w : Nat) (f : ViPlan → ViPlan) : (s.onPlan w f).pke = s.pke := rfl
@[simp] theorem State.onPlan_trng (w : Nat) (f : ViPlan → ViPlan) : (s.onPlan w f).trng = s.trng := rfl
@[simp] theorem State.onPlan_uart (w : Nat) (f : ViPlan → ViPlan) : (s.onPlan w f).uart = s.uart := rfl
@[simp] theorem State.onPlan_mgmt (w : Nat) (f : ViPlan → ViPlan) : (s.onPlan w f).mgmt = s.mgmt := rfl
@[simp] theorem State.onPlan_pm (w : Nat) (f : ViPlan → ViPlan) : (s.onPlan w f).pm = s.pm := rfl
@[simp] theorem State.onPlan_fm (w : Nat) (f : ViPlan → ViPlan) : (s.onPlan w f).fm = s.fm := rfl
@[simp] theorem State.onPlan_msgs (w : Nat) (f : ViPlan → ViPlan) : (s.onPlan w f).msgs = s.msgs := rfl
@[simp] theorem State.onPlan_fcSram (w : Nat) (f : ViPlan → ViPlan) : (s.onPlan w f).fcSram = s.fcSram := rfl
@[simp] theorem State.onPlan_qcMem (w : Nat) (f : ViPlan → ViPlan) : (s.onPlan w f).qcMem = s.qcMem := rfl
@[simp] theorem State.plan_of_onPlan (w : Nat) (f : ViPlan → ViPlan) : (s.onPlan w f).plan w = f (s.plan w) :=
  Tab.get_upd_same _ _ _ _
theorem State.plan_of_onPlan_other (f : ViPlan → ViPlan) {m n : Nat} (h : m ≠ n) : (s.onPlan n f).plan m = s.plan m :=
  Tab.get_upd_other _ _ _ h

@[simp] theorem State.onBank_pending (w : Nat) (f : Bank → Bank) : (s.onBank w f).pending = s.pending := rfl
@[simp] theorem State.onBank_out (w : Nat) (f : Bank → Bank) : (s.onBank w f).out = s.out := rfl
@[simp] theorem State.onBank_free (w : Nat) (f : Bank → Bank) : (s.onBank w f).free = s.free := rfl
@[simp] theorem State.onBank_top (w : Nat) (f : Bank → Bank) : (s.onBank w f).top = s.top := rfl
@[simp] theorem State.onBank_ptu (w : Nat) (f : Bank → Bank) : (s.onBank w f).ptu = s.ptu := rfl
@[simp] theorem State.onBank_win (w : Nat) (f : Bank → Bank) : (s.onBank w f).win = s.win := rfl
@[simp] theorem State.onBank_rb (w : Nat) (f : Bank → Bank) : (s.onBank w f).rb = s.rb := rfl
@[simp] theorem State.onBank_policy (w : Nat) (f : Bank → Bank) : (s.onBank w f).policy = s.policy := rfl
@[simp] theorem State.onBank_plans (w : Nat) (f : Bank → Bank) : (s.onBank w f).plans = s.plans := rfl
@[simp] theorem State.onBank_sess (w : Nat) (f : Bank → Bank) : (s.onBank w f).sess = s.sess := rfl
@[simp] theorem State.onBank_cuts (w : Nat) (f : Bank → Bank) : (s.onBank w f).cuts = s.cuts := rfl
@[simp] theorem State.onBank_cutDue (w : Nat) (f : Bank → Bank) : (s.onBank w f).cutDue = s.cutDue := rfl
@[simp] theorem State.onBank_cutWait (w : Nat) (f : Bank → Bank) : (s.onBank w f).cutWait = s.cutWait := rfl
@[simp] theorem State.onBank_streams (w : Nat) (f : Bank → Bank) : (s.onBank w f).streams = s.streams := rfl
@[simp] theorem State.onBank_results (w : Nat) (f : Bank → Bank) : (s.onBank w f).results = s.results := rfl
@[simp] theorem State.onBank_si (w : Nat) (f : Bank → Bank) : (s.onBank w f).si = s.si := rfl
@[simp] theorem State.onBank_se (w : Nat) (f : Bank → Bank) : (s.onBank w f).se = s.se := rfl
@[simp] theorem State.onBank_jobs (w : Nat) (f : Bank → Bank) : (s.onBank w f).jobs = s.jobs := rfl
@[simp] theorem State.onBank_arc (w : Nat) (f : Bank → Bank) : (s.onBank w f).arc = s.arc := rfl
@[simp] theorem State.onBank_pz (w : Nat) (f : Bank → Bank) : (s.onBank w f).pz = s.pz := rfl
@[simp] theorem State.onBank_health (w : Nat) (f : Bank → Bank) : (s.onBank w f).health = s.health := rfl
@[simp] theorem State.onBank_boot (w : Nat) (f : Bank → Bank) : (s.onBank w f).boot = s.boot := rfl
@[simp] theorem State.onBank_flash (w : Nat) (f : Bank → Bank) : (s.onBank w f).flash = s.flash := rfl
@[simp] theorem State.onBank_fuses (w : Nat) (f : Bank → Bank) : (s.onBank w f).fuses = s.fuses := rfl
@[simp] theorem State.onBank_lc (w : Nat) (f : Bank → Bank) : (s.onBank w f).lc = s.lc := rfl
@[simp] theorem State.onBank_keys (w : Nat) (f : Bank → Bank) : (s.onBank w f).keys = s.keys := rfl
@[simp] theorem State.onBank_de (w : Nat) (f : Bank → Bank) : (s.onBank w f).de = s.de := rfl
@[simp] theorem State.onBank_pke (w : Nat) (f : Bank → Bank) : (s.onBank w f).pke = s.pke := rfl
@[simp] theorem State.onBank_trng (w : Nat) (f : Bank → Bank) : (s.onBank w f).trng = s.trng := rfl
@[simp] theorem State.onBank_uart (w : Nat) (f : Bank → Bank) : (s.onBank w f).uart = s.uart := rfl
@[simp] theorem State.onBank_mgmt (w : Nat) (f : Bank → Bank) : (s.onBank w f).mgmt = s.mgmt := rfl
@[simp] theorem State.onBank_pm (w : Nat) (f : Bank → Bank) : (s.onBank w f).pm = s.pm := rfl
@[simp] theorem State.onBank_fm (w : Nat) (f : Bank → Bank) : (s.onBank w f).fm = s.fm := rfl
@[simp] theorem State.onBank_msgs (w : Nat) (f : Bank → Bank) : (s.onBank w f).msgs = s.msgs := rfl
@[simp] theorem State.onBank_fcSram (w : Nat) (f : Bank → Bank) : (s.onBank w f).fcSram = s.fcSram := rfl
@[simp] theorem State.onBank_qcMem (w : Nat) (f : Bank → Bank) : (s.onBank w f).qcMem = s.qcMem := rfl
@[simp] theorem State.bank_of_onBank (w : Nat) (f : Bank → Bank) : (s.onBank w f).bank w = f (s.bank w) :=
  Tab.get_upd_same _ _ _ _
theorem State.bank_of_onBank_other (f : Bank → Bank) {m n : Nat} (h : m ≠ n) : (s.onBank n f).bank m = s.bank m :=
  Tab.get_upd_other _ _ _ h

@[simp] theorem State.onSeg_pending (n : Nat) (f : Segment → Segment) : (s.onSeg n f).pending = s.pending := rfl
@[simp] theorem State.onSeg_out (n : Nat) (f : Segment → Segment) : (s.onSeg n f).out = s.out := rfl
@[simp] theorem State.onSeg_free (n : Nat) (f : Segment → Segment) : (s.onSeg n f).free = s.free := rfl
@[simp] theorem State.onSeg_top (n : Nat) (f : Segment → Segment) : (s.onSeg n f).top = s.top := rfl
@[simp] theorem State.onSeg_ptu (n : Nat) (f : Segment → Segment) : (s.onSeg n f).ptu = s.ptu := rfl
@[simp] theorem State.onSeg_win (n : Nat) (f : Segment → Segment) : (s.onSeg n f).win = s.win := rfl
@[simp] theorem State.onSeg_rb (n : Nat) (f : Segment → Segment) : (s.onSeg n f).rb = s.rb := rfl
@[simp] theorem State.onSeg_policy (n : Nat) (f : Segment → Segment) : (s.onSeg n f).policy = s.policy := rfl
@[simp] theorem State.onSeg_banks (n : Nat) (f : Segment → Segment) : (s.onSeg n f).banks = s.banks := rfl
@[simp] theorem State.onSeg_plans (n : Nat) (f : Segment → Segment) : (s.onSeg n f).plans = s.plans := rfl
@[simp] theorem State.onSeg_sess (n : Nat) (f : Segment → Segment) : (s.onSeg n f).sess = s.sess := rfl
@[simp] theorem State.onSeg_cuts (n : Nat) (f : Segment → Segment) : (s.onSeg n f).cuts = s.cuts := rfl
@[simp] theorem State.onSeg_cutDue (n : Nat) (f : Segment → Segment) : (s.onSeg n f).cutDue = s.cutDue := rfl
@[simp] theorem State.onSeg_cutWait (n : Nat) (f : Segment → Segment) : (s.onSeg n f).cutWait = s.cutWait := rfl
@[simp] theorem State.onSeg_streams (n : Nat) (f : Segment → Segment) : (s.onSeg n f).streams = s.streams := rfl
@[simp] theorem State.onSeg_results (n : Nat) (f : Segment → Segment) : (s.onSeg n f).results = s.results := rfl
@[simp] theorem State.onSeg_si (n : Nat) (f : Segment → Segment) : (s.onSeg n f).si = s.si := rfl
@[simp] theorem State.onSeg_se (n : Nat) (f : Segment → Segment) : (s.onSeg n f).se = s.se := rfl
@[simp] theorem State.onSeg_jobs (n : Nat) (f : Segment → Segment) : (s.onSeg n f).jobs = s.jobs := rfl
@[simp] theorem State.onSeg_arc (n : Nat) (f : Segment → Segment) : (s.onSeg n f).arc = s.arc := rfl
@[simp] theorem State.onSeg_health (n : Nat) (f : Segment → Segment) : (s.onSeg n f).health = s.health := rfl
@[simp] theorem State.onSeg_boot (n : Nat) (f : Segment → Segment) : (s.onSeg n f).boot = s.boot := rfl
@[simp] theorem State.onSeg_flash (n : Nat) (f : Segment → Segment) : (s.onSeg n f).flash = s.flash := rfl
@[simp] theorem State.onSeg_fuses (n : Nat) (f : Segment → Segment) : (s.onSeg n f).fuses = s.fuses := rfl
@[simp] theorem State.onSeg_lc (n : Nat) (f : Segment → Segment) : (s.onSeg n f).lc = s.lc := rfl
@[simp] theorem State.onSeg_keys (n : Nat) (f : Segment → Segment) : (s.onSeg n f).keys = s.keys := rfl
@[simp] theorem State.onSeg_de (n : Nat) (f : Segment → Segment) : (s.onSeg n f).de = s.de := rfl
@[simp] theorem State.onSeg_pke (n : Nat) (f : Segment → Segment) : (s.onSeg n f).pke = s.pke := rfl
@[simp] theorem State.onSeg_trng (n : Nat) (f : Segment → Segment) : (s.onSeg n f).trng = s.trng := rfl
@[simp] theorem State.onSeg_uart (n : Nat) (f : Segment → Segment) : (s.onSeg n f).uart = s.uart := rfl
@[simp] theorem State.onSeg_mgmt (n : Nat) (f : Segment → Segment) : (s.onSeg n f).mgmt = s.mgmt := rfl
@[simp] theorem State.onSeg_pm (n : Nat) (f : Segment → Segment) : (s.onSeg n f).pm = s.pm := rfl
@[simp] theorem State.onSeg_fm (n : Nat) (f : Segment → Segment) : (s.onSeg n f).fm = s.fm := rfl
@[simp] theorem State.onSeg_msgs (n : Nat) (f : Segment → Segment) : (s.onSeg n f).msgs = s.msgs := rfl
@[simp] theorem State.onSeg_fcSram (n : Nat) (f : Segment → Segment) : (s.onSeg n f).fcSram = s.fcSram := rfl
@[simp] theorem State.onSeg_qcMem (n : Nat) (f : Segment → Segment) : (s.onSeg n f).qcMem = s.qcMem := rfl
@[simp] theorem State.segment_of_onSeg (n : Nat) (f : Segment → Segment) : (s.onSeg n f).segment n = f (s.segment n) :=
  Tab.get_upd_same _ _ _ _
theorem State.segment_of_onSeg_other (f : Segment → Segment) {m n : Nat} (h : m ≠ n) : (s.onSeg n f).segment m = s.segment m :=
  Tab.get_upd_other _ _ _ h

@[simp] theorem State.onSource_pending (n : Nat) (f : Source → Source) : (s.onSource n f).pending = s.pending := rfl
@[simp] theorem State.onSource_out (n : Nat) (f : Source → Source) : (s.onSource n f).out = s.out := rfl
@[simp] theorem State.onSource_free (n : Nat) (f : Source → Source) : (s.onSource n f).free = s.free := rfl
@[simp] theorem State.onSource_top (n : Nat) (f : Source → Source) : (s.onSource n f).top = s.top := rfl
@[simp] theorem State.onSource_win (n : Nat) (f : Source → Source) : (s.onSource n f).win = s.win := rfl
@[simp] theorem State.onSource_rb (n : Nat) (f : Source → Source) : (s.onSource n f).rb = s.rb := rfl
@[simp] theorem State.onSource_policy (n : Nat) (f : Source → Source) : (s.onSource n f).policy = s.policy := rfl
@[simp] theorem State.onSource_banks (n : Nat) (f : Source → Source) : (s.onSource n f).banks = s.banks := rfl
@[simp] theorem State.onSource_plans (n : Nat) (f : Source → Source) : (s.onSource n f).plans = s.plans := rfl
@[simp] theorem State.onSource_sess (n : Nat) (f : Source → Source) : (s.onSource n f).sess = s.sess := rfl
@[simp] theorem State.onSource_cuts (n : Nat) (f : Source → Source) : (s.onSource n f).cuts = s.cuts := rfl
@[simp] theorem State.onSource_cutDue (n : Nat) (f : Source → Source) : (s.onSource n f).cutDue = s.cutDue := rfl
@[simp] theorem State.onSource_cutWait (n : Nat) (f : Source → Source) : (s.onSource n f).cutWait = s.cutWait := rfl
@[simp] theorem State.onSource_streams (n : Nat) (f : Source → Source) : (s.onSource n f).streams = s.streams := rfl
@[simp] theorem State.onSource_results (n : Nat) (f : Source → Source) : (s.onSource n f).results = s.results := rfl
@[simp] theorem State.onSource_si (n : Nat) (f : Source → Source) : (s.onSource n f).si = s.si := rfl
@[simp] theorem State.onSource_se (n : Nat) (f : Source → Source) : (s.onSource n f).se = s.se := rfl
@[simp] theorem State.onSource_jobs (n : Nat) (f : Source → Source) : (s.onSource n f).jobs = s.jobs := rfl
@[simp] theorem State.onSource_arc (n : Nat) (f : Source → Source) : (s.onSource n f).arc = s.arc := rfl
@[simp] theorem State.onSource_pz (n : Nat) (f : Source → Source) : (s.onSource n f).pz = s.pz := rfl
@[simp] theorem State.onSource_health (n : Nat) (f : Source → Source) : (s.onSource n f).health = s.health := rfl
@[simp] theorem State.onSource_boot (n : Nat) (f : Source → Source) : (s.onSource n f).boot = s.boot := rfl
@[simp] theorem State.onSource_flash (n : Nat) (f : Source → Source) : (s.onSource n f).flash = s.flash := rfl
@[simp] theorem State.onSource_fuses (n : Nat) (f : Source → Source) : (s.onSource n f).fuses = s.fuses := rfl
@[simp] theorem State.onSource_lc (n : Nat) (f : Source → Source) : (s.onSource n f).lc = s.lc := rfl
@[simp] theorem State.onSource_keys (n : Nat) (f : Source → Source) : (s.onSource n f).keys = s.keys := rfl
@[simp] theorem State.onSource_de (n : Nat) (f : Source → Source) : (s.onSource n f).de = s.de := rfl
@[simp] theorem State.onSource_pke (n : Nat) (f : Source → Source) : (s.onSource n f).pke = s.pke := rfl
@[simp] theorem State.onSource_trng (n : Nat) (f : Source → Source) : (s.onSource n f).trng = s.trng := rfl
@[simp] theorem State.onSource_uart (n : Nat) (f : Source → Source) : (s.onSource n f).uart = s.uart := rfl
@[simp] theorem State.onSource_mgmt (n : Nat) (f : Source → Source) : (s.onSource n f).mgmt = s.mgmt := rfl
@[simp] theorem State.onSource_pm (n : Nat) (f : Source → Source) : (s.onSource n f).pm = s.pm := rfl
@[simp] theorem State.onSource_fm (n : Nat) (f : Source → Source) : (s.onSource n f).fm = s.fm := rfl
@[simp] theorem State.onSource_msgs (n : Nat) (f : Source → Source) : (s.onSource n f).msgs = s.msgs := rfl
@[simp] theorem State.onSource_fcSram (n : Nat) (f : Source → Source) : (s.onSource n f).fcSram = s.fcSram := rfl
@[simp] theorem State.onSource_qcMem (n : Nat) (f : Source → Source) : (s.onSource n f).qcMem = s.qcMem := rfl
@[simp] theorem State.source_of_onSource (n : Nat) (f : Source → Source) : (s.onSource n f).source n = f (s.source n) :=
  Tab.get_upd_same _ _ _ _
theorem State.source_of_onSource_other (f : Source → Source) {m n : Nat} (h : m ≠ n) : (s.onSource n f).source m = s.source m :=
  Tab.get_upd_other _ _ _ h

@[simp] theorem State.onEvent_pending (n : Nat) (f : Event → Event) : (s.onEvent n f).pending = s.pending := rfl
@[simp] theorem State.onEvent_out (n : Nat) (f : Event → Event) : (s.onEvent n f).out = s.out := rfl
@[simp] theorem State.onEvent_free (n : Nat) (f : Event → Event) : (s.onEvent n f).free = s.free := rfl
@[simp] theorem State.onEvent_top (n : Nat) (f : Event → Event) : (s.onEvent n f).top = s.top := rfl
@[simp] theorem State.onEvent_win (n : Nat) (f : Event → Event) : (s.onEvent n f).win = s.win := rfl
@[simp] theorem State.onEvent_rb (n : Nat) (f : Event → Event) : (s.onEvent n f).rb = s.rb := rfl
@[simp] theorem State.onEvent_policy (n : Nat) (f : Event → Event) : (s.onEvent n f).policy = s.policy := rfl
@[simp] theorem State.onEvent_banks (n : Nat) (f : Event → Event) : (s.onEvent n f).banks = s.banks := rfl
@[simp] theorem State.onEvent_plans (n : Nat) (f : Event → Event) : (s.onEvent n f).plans = s.plans := rfl
@[simp] theorem State.onEvent_sess (n : Nat) (f : Event → Event) : (s.onEvent n f).sess = s.sess := rfl
@[simp] theorem State.onEvent_cuts (n : Nat) (f : Event → Event) : (s.onEvent n f).cuts = s.cuts := rfl
@[simp] theorem State.onEvent_cutDue (n : Nat) (f : Event → Event) : (s.onEvent n f).cutDue = s.cutDue := rfl
@[simp] theorem State.onEvent_cutWait (n : Nat) (f : Event → Event) : (s.onEvent n f).cutWait = s.cutWait := rfl
@[simp] theorem State.onEvent_streams (n : Nat) (f : Event → Event) : (s.onEvent n f).streams = s.streams := rfl
@[simp] theorem State.onEvent_results (n : Nat) (f : Event → Event) : (s.onEvent n f).results = s.results := rfl
@[simp] theorem State.onEvent_si (n : Nat) (f : Event → Event) : (s.onEvent n f).si = s.si := rfl
@[simp] theorem State.onEvent_se (n : Nat) (f : Event → Event) : (s.onEvent n f).se = s.se := rfl
@[simp] theorem State.onEvent_jobs (n : Nat) (f : Event → Event) : (s.onEvent n f).jobs = s.jobs := rfl
@[simp] theorem State.onEvent_arc (n : Nat) (f : Event → Event) : (s.onEvent n f).arc = s.arc := rfl
@[simp] theorem State.onEvent_pz (n : Nat) (f : Event → Event) : (s.onEvent n f).pz = s.pz := rfl
@[simp] theorem State.onEvent_health (n : Nat) (f : Event → Event) : (s.onEvent n f).health = s.health := rfl
@[simp] theorem State.onEvent_boot (n : Nat) (f : Event → Event) : (s.onEvent n f).boot = s.boot := rfl
@[simp] theorem State.onEvent_flash (n : Nat) (f : Event → Event) : (s.onEvent n f).flash = s.flash := rfl
@[simp] theorem State.onEvent_fuses (n : Nat) (f : Event → Event) : (s.onEvent n f).fuses = s.fuses := rfl
@[simp] theorem State.onEvent_lc (n : Nat) (f : Event → Event) : (s.onEvent n f).lc = s.lc := rfl
@[simp] theorem State.onEvent_keys (n : Nat) (f : Event → Event) : (s.onEvent n f).keys = s.keys := rfl
@[simp] theorem State.onEvent_de (n : Nat) (f : Event → Event) : (s.onEvent n f).de = s.de := rfl
@[simp] theorem State.onEvent_pke (n : Nat) (f : Event → Event) : (s.onEvent n f).pke = s.pke := rfl
@[simp] theorem State.onEvent_trng (n : Nat) (f : Event → Event) : (s.onEvent n f).trng = s.trng := rfl
@[simp] theorem State.onEvent_uart (n : Nat) (f : Event → Event) : (s.onEvent n f).uart = s.uart := rfl
@[simp] theorem State.onEvent_mgmt (n : Nat) (f : Event → Event) : (s.onEvent n f).mgmt = s.mgmt := rfl
@[simp] theorem State.onEvent_pm (n : Nat) (f : Event → Event) : (s.onEvent n f).pm = s.pm := rfl
@[simp] theorem State.onEvent_fm (n : Nat) (f : Event → Event) : (s.onEvent n f).fm = s.fm := rfl
@[simp] theorem State.onEvent_msgs (n : Nat) (f : Event → Event) : (s.onEvent n f).msgs = s.msgs := rfl
@[simp] theorem State.onEvent_fcSram (n : Nat) (f : Event → Event) : (s.onEvent n f).fcSram = s.fcSram := rfl
@[simp] theorem State.onEvent_qcMem (n : Nat) (f : Event → Event) : (s.onEvent n f).qcMem = s.qcMem := rfl
@[simp] theorem State.event_of_onEvent (n : Nat) (f : Event → Event) : (s.onEvent n f).event n = f (s.event n) :=
  Tab.get_upd_same _ _ _ _
theorem State.event_of_onEvent_other (f : Event → Event) {m n : Nat} (h : m ≠ n) : (s.onEvent n f).event m = s.event m :=
  Tab.get_upd_other _ _ _ h

@[simp] theorem State.onQc_pending (q : Nat) (f : Qc → Qc) : (s.onQc q f).pending = s.pending := rfl
@[simp] theorem State.onQc_out (q : Nat) (f : Qc → Qc) : (s.onQc q f).out = s.out := rfl
@[simp] theorem State.onQc_free (q : Nat) (f : Qc → Qc) : (s.onQc q f).free = s.free := rfl
@[simp] theorem State.onQc_top (q : Nat) (f : Qc → Qc) : (s.onQc q f).top = s.top := rfl
@[simp] theorem State.onQc_ptu (q : Nat) (f : Qc → Qc) : (s.onQc q f).ptu = s.ptu := rfl
@[simp] theorem State.onQc_win (q : Nat) (f : Qc → Qc) : (s.onQc q f).win = s.win := rfl
@[simp] theorem State.onQc_rb (q : Nat) (f : Qc → Qc) : (s.onQc q f).rb = s.rb := rfl
@[simp] theorem State.onQc_policy (q : Nat) (f : Qc → Qc) : (s.onQc q f).policy = s.policy := rfl
@[simp] theorem State.onQc_banks (q : Nat) (f : Qc → Qc) : (s.onQc q f).banks = s.banks := rfl
@[simp] theorem State.onQc_plans (q : Nat) (f : Qc → Qc) : (s.onQc q f).plans = s.plans := rfl
@[simp] theorem State.onQc_sess (q : Nat) (f : Qc → Qc) : (s.onQc q f).sess = s.sess := rfl
@[simp] theorem State.onQc_cuts (q : Nat) (f : Qc → Qc) : (s.onQc q f).cuts = s.cuts := rfl
@[simp] theorem State.onQc_cutDue (q : Nat) (f : Qc → Qc) : (s.onQc q f).cutDue = s.cutDue := rfl
@[simp] theorem State.onQc_cutWait (q : Nat) (f : Qc → Qc) : (s.onQc q f).cutWait = s.cutWait := rfl
@[simp] theorem State.onQc_streams (q : Nat) (f : Qc → Qc) : (s.onQc q f).streams = s.streams := rfl
@[simp] theorem State.onQc_results (q : Nat) (f : Qc → Qc) : (s.onQc q f).results = s.results := rfl
@[simp] theorem State.onQc_si (q : Nat) (f : Qc → Qc) : (s.onQc q f).si = s.si := rfl
@[simp] theorem State.onQc_se (q : Nat) (f : Qc → Qc) : (s.onQc q f).se = s.se := rfl
@[simp] theorem State.onQc_jobs (q : Nat) (f : Qc → Qc) : (s.onQc q f).jobs = s.jobs := rfl
@[simp] theorem State.onQc_arc (q : Nat) (f : Qc → Qc) : (s.onQc q f).arc = s.arc := rfl
@[simp] theorem State.onQc_pz (q : Nat) (f : Qc → Qc) : (s.onQc q f).pz = s.pz := rfl
@[simp] theorem State.onQc_boot (q : Nat) (f : Qc → Qc) : (s.onQc q f).boot = s.boot := rfl
@[simp] theorem State.onQc_flash (q : Nat) (f : Qc → Qc) : (s.onQc q f).flash = s.flash := rfl
@[simp] theorem State.onQc_fuses (q : Nat) (f : Qc → Qc) : (s.onQc q f).fuses = s.fuses := rfl
@[simp] theorem State.onQc_lc (q : Nat) (f : Qc → Qc) : (s.onQc q f).lc = s.lc := rfl
@[simp] theorem State.onQc_keys (q : Nat) (f : Qc → Qc) : (s.onQc q f).keys = s.keys := rfl
@[simp] theorem State.onQc_de (q : Nat) (f : Qc → Qc) : (s.onQc q f).de = s.de := rfl
@[simp] theorem State.onQc_pke (q : Nat) (f : Qc → Qc) : (s.onQc q f).pke = s.pke := rfl
@[simp] theorem State.onQc_trng (q : Nat) (f : Qc → Qc) : (s.onQc q f).trng = s.trng := rfl
@[simp] theorem State.onQc_uart (q : Nat) (f : Qc → Qc) : (s.onQc q f).uart = s.uart := rfl
@[simp] theorem State.onQc_mgmt (q : Nat) (f : Qc → Qc) : (s.onQc q f).mgmt = s.mgmt := rfl
@[simp] theorem State.onQc_pm (q : Nat) (f : Qc → Qc) : (s.onQc q f).pm = s.pm := rfl
@[simp] theorem State.onQc_fm (q : Nat) (f : Qc → Qc) : (s.onQc q f).fm = s.fm := rfl
@[simp] theorem State.onQc_msgs (q : Nat) (f : Qc → Qc) : (s.onQc q f).msgs = s.msgs := rfl
@[simp] theorem State.onQc_fcSram (q : Nat) (f : Qc → Qc) : (s.onQc q f).fcSram = s.fcSram := rfl
@[simp] theorem State.onQc_qcMem (q : Nat) (f : Qc → Qc) : (s.onQc q f).qcMem = s.qcMem := rfl
@[simp] theorem State.qcOf_of_onQc (q : Nat) (f : Qc → Qc) : (s.onQc q f).qcOf q = f (s.qcOf q) :=
  Tab.get_upd_same _ _ _ _
theorem State.qcOf_of_onQc_other (f : Qc → Qc) {m n : Nat} (h : m ≠ n) : (s.onQc n f).qcOf m = s.qcOf m :=
  Tab.get_upd_other _ _ _ h

end Sys2Proof.Machine
end

