-- ==== Sys2Proof/Laws/Ops.lean ====
section
/-! SUPPORT. The laws of the shared operations: how a command ends, and what each operation can do. -/

namespace Sys2Proof.Machine

/-! How a command ends. -/

/-- DEVICE_DEGRADED is computed from the integrity states, the segments, the controllers, the restart, the source of
entropy and the lost partner alone. -/
theorem State.degradedNow_congr {s t : State} (ha : ∀ a, (t.arcade a).integ = (s.arcade a).integ)
    (hp : ∀ a, (t.segment a).state = (s.segment a).state) (hq : ∀ q, (t.qcOf q).state = (s.qcOf q).state)
    (hf : t.health.fcRestarting = s.health.fcRestarting) (ht : t.trng.state = s.trng.state)
    (hl : t.fm.lostPartner = s.fm.lostPartner) : t.degradedNow = s.degradedNow := by
  simp only [State.degradedNow, ha, hp, hq, hf, ht, hl]

theorem State.syncDegraded_of_synced {s : State} (h : s.Synced) : s.syncDegraded = s := by
  unfold State.syncDegraded
  rw [if_pos h.symm]

theorem State.syncDegraded_synced (s : State) : s.syncDegraded.Synced := by
  unfold State.syncDegraded
  split
  · next h => exact h.symm
  · rfl

theorem State.settle_synced (s t : State) : (s.settle t).Synced := State.syncDegraded_synced t

theorem State.settle_of_synced (s : State) {t : State} (h : t.Synced) : s.settle t = { t with pending := s.pending } := by
  unfold State.settle
  rw [State.syncDegraded_of_synced h]

/-- What the end of a command writes: the flag itself, its notices in the windows, and the queue. -/
theorem State.settle_frame (s t : State) :
    s.settle t = { t with
      pending := s.pending, health := { t.health with degraded := t.degradedNow }, win := (s.settle t).win } := by
  unfold State.settle State.syncDegraded
  split
  · next h => rw [h]
  · rfl

@[simp] theorem State.settle_pending (s t : State) : (s.settle t).pending = s.pending := rfl

theorem act_runs {g : Bool} {f : State → State} {s : State} (hl : s.live = true) (hg : g = true) :
    act g f s = .next (s.settle (f s)) := by
  simp [act, hl, hg]

theorem act_idle {g : Bool} {f : State → State} {s : State} (h : (s.live && g) = false) : act g f s = .next s := by
  simp [act, h]

/-- A command that acts ends either as it began or settled; it never stops. -/
theorem act_cases (g : Bool) (f : State → State) (s : State) : act g f s = .next s ∨ act g f s = .next (s.settle (f s)) := by
  unfold act
  split
  · exact .inr rfl
  · exact .inl rfl

theorem actPower_cases (g : Bool) (f : State → State) (s : State) :
    actPower g f s = .next s ∨ actPower g f s = .next (s.settle (f s)) := by
  unfold actPower
  split
  · exact .inr rfl
  · exact .inl rfl

/-- Where the effect leaves the conditions of R393 and the queue alone, a command ends in its effect itself. -/
theorem act_runs_synced {g : Bool} {f : State → State} {s : State} (hl : s.live = true) (hg : g = true)
    (h : (f s).Synced) (hp : (f s).pending = s.pending) : act g f s = .next (f s) := by
  rw [act_runs hl hg, State.settle_of_synced s h]
  congr 1
  cases hf : f s
  simp_all

/-! The replies, messages and records of the shared operations. -/

/-- A health record touches the health unit and the windows' notices alone. -/
theorem State.report_frame (s : State) (r : HRec) : s.report r = { s with health := (s.report r).health, win := (s.report r).win } := rfl

theorem State.message_frame (s : State) (vi v : Nat) : s.message vi v = { s with msgs := (s.message vi v).msgs } := by
  unfold State.message
  dsimp only
  split <;> rfl

theorem State.viMessage_frame (s : State) (w o : Nat) : s.viMessage w o = { s with msgs := (s.viMessage w o).msgs } := by
  unfold State.viMessage
  dsimp only
  split
  · exact State.message_frame s _ _
  · rfl

end Sys2Proof.Machine
end

