-- ==== Sys2Proof/WellFormed.lean ====
section
/-! DEFINITION. Which commands are well formed: the operands that the outside world hands the block have the sizes and
ranges that the rules of the chapters give them. The meanings are total on the others too. -/

namespace Sys2Proof

/-- An upset names a place that exists: rows, banks and words of an ALS (R83, R84), a Piazza address (R91), an accumulator
entry (R81), a column of the array (R16). -/
def Upset.wf : Upset → Bool
  | .als row bank word _ => decide (row < 256) && decide (bank < 128) && decide (word < 8)
  | .side row bank _ => decide (row < 256) && decide (bank < 128)
  | .piazza addr _ => decide (addr < 2 ^ 26)
  | .acc row col _ => decide (row < 128) && decide (col < 128)
  | .params _ => true
  | .array _ col _ => decide (col < 128)

/-- A unit that a record names (R386, R387). -/
def CtrlUpset.wf : CtrlUpset → Bool
  | .context _ => true
  | .ce k n => decide (k < 12) && decide (n < 256)

/-- The upset is in a word of the Piazza, which copies, captures, checkpoints and the link read. -/
def Upset.inPiazza : Upset → Bool
  | .piazza .. => true
  | _ => false

/-- The upset is in a word of an ALS or its scales, which a measurement reads. -/
def Upset.inAls : Upset → Bool
  | .als .. => true
  | .side .. => true
  | _ => false

/-- A patrol hit lies in the page or row patrolled (R104): 16 lines of 8 words in a page; 128 banks of 8 words and a side
word in a row. -/
def PatrolHit.wf (als : Bool) (h : PatrolHit) : Bool :=
  if als then decide (h.line < 128) && decide (h.word < 9) else decide (h.line < 16) && decide (h.word < 8)

/-- A self-test names pages of its segment and rows of its ALS (R91, R83, R106). -/
def SelfTest.wf (t : SelfTest) : Bool := t.badPages.all (fun p => decide (p < 4096)) && t.badRows.all fun r => decide (r < 256)

/-- A rail sample has 16 Arcade domains and three rails, and comes at least every 0.5 µs (R398, R405, R475). -/
def RailSense.wf (r : RailSense) : Bool :=
  decide (r.ns ≤ 500) && decide (r.arcMv.length = 16) && decide (r.railMv.length = 3) && decide (r.railDa.length = 3)

/-- A Kerb sample has 24 sensors (R405). -/
def KerbSense.wf (k : KerbSense) : Bool := decide (k.tj.length = 24) && k.rails.all RailSense.wf

/-- A boot step's contribution: a start-up test runs over 4,096 raw bits, and the DRBG is seeded from 1,024 (R342, R343, R345). -/
def BootIn.wf (b : BootIn) : Bool := b.startup.all (fun t => decide (t.raw.length = 512)) && decide (b.seed.length = 128)

/-- The operands of a command have the sizes and ranges of its rule. -/
def Instr.wf : Instr → Bool
  | .viOpen _ => true
  | .viClose _ => true
  | .sessionOpen _ => true
  | .sessionKeyx _ _ _ => true
  | .sessionClose _ => true
  | .leaseTake _ => true
  | .leaseDrop _ => true
  | .planLoad _ _ => true
  | .weightsLoad _ _ => true
  | .measure _ u => u.all Upset.wf && u.all Upset.inAls
  | .streamBind _ => true
  | .stageWrite _ => true
  | .stageCheck _ => true
  | .stageCommitAt _ => true
  | .jobSubmit _ _ => true
  | .jobCheckpoint _ _ u => u.all Upset.wf && u.all Upset.inPiazza
  | .jobResume _ _ _ => true
  | .abort _ => true
  | .resultAck _ => true
  | .integritySet _ => true
  | .evidenceGet _ => true
  | .receiptCheckpoint _ => true
  | .fwInfo _ => true
  | .fwStage _ _ _ => true
  | .errlogRead _ => true
  | .keyDestroy _ _ => true
  | .lifecycleRequest _ _ _ => true
  | .debugUnlock _ _ => true
  | .pairJoin _ => true
  | .provisionOwner _ _ _ => true
  | .revoke _ _ _ => true
  | .provisionFleet _ _ _ => true
  | .post _ => true
  | .flush _ => true
  | .paramAppend _ _ _ => true
  | .ckptFreeWrite _ _ => true
  | .registerWrite _ _ => true
  | .deOpen _ _ _ _ => true
  | .deFinal _ _ => true
  | .deExport _ => true
  | .deImport _ _ => true
  | .deFree _ => true
  | .pkeSubmit _ _ => true
  | .pkeJobStart _ _ => true
  | .pkeYieldPoint => true
  | .pkeJobEnd _ => true
  | .fcWdogKick => true
  | .qcWdogKick _ => true
  | .romLock => true
  | .bl1Lock => true
  | .ptuTick => true
  | .phaseSample _ _ _ => true
  | .sourceTimeout _ => true
  | .coastLimitExpiry _ => true
  | .dtStrobe _ _ => true
  | .dtInputTimeout => true
  | .commit _ => true
  | .inputClose _ c => c.all CtrlUpset.wf
  | .slotStart _ c u => c.all CtrlUpset.wf && u.all Upset.wf && u.all Upset.inPiazza
  | .release _ c _ => c.all CtrlUpset.wf
  | .checkWindow _ => true
  | .notify _ => true
  | .epochBoundary => true
  | .dispatchTick => true
  | .powerStepBoundary p => decide (p.amps.length = 3)
  | .ingressFrame _ _ => true
  | .inputWrite _ => true
  | .recordReady _ _ _ => true
  | .recordLeaves _ => true
  | .heldRecordLeaves _ => true
  | .checkpointWrite _ => true
  | .jobRecordWrite _ _ => true
  | .msgSend _ => true
  | .nop _ => true
  | .tile _ u => u.all Upset.wf
  | .out _ u => u.all Upset.wf
  | .seta _ => true
  | .loop _ => true
  | .endl _ => true
  | .send _ u => u.all Upset.wf
  | .comb _ u => u.all Upset.wf
  | .signal _ => true
  | .wait _ => true
  | .move _ u => u.all Upset.wf
  | .bound _ => true
  | .tend _ u => u.all Upset.wf && u.all Upset.inPiazza
  | .partArrival _ _ _ => true
  | .waitTimeout _ => true
  | .combTimeout _ => true
  | .sessionFaultAbort _ => true
  | .queuedSlotStart _ => true
  | .bulkResume _ => true
  | .captureDone _ u => u.all Upset.wf && u.all Upset.inPiazza
  | .checkStart _ => true
  | .checkComplete _ u => u.all Upset.wf
  | .refereeComplete _ u => u.all Upset.wf
  | .repeatComplete _ u => u.all Upset.wf
  | .dualCompare _ u => u.all Upset.wf && u.all Upset.inPiazza
  | .dualRefereeComplete _ u => u.all Upset.wf && u.all Upset.inPiazza
  | .shadowRunComplete _ u => u.all Upset.wf
  | .zeroiseDone _ _ => true
  | .patrol _ als hits => hits.all (PatrolHit.wf als)
  | .omapScrub _ _ _ => true
  | .fcWdogExpiry => true
  | .qcWdogExpiry _ => true
  | .laneWdogExpiry _ => true
  | .fcCrash _ => true
  | .qcCrash _ _ _ => true
  | .fcRestartDone _ _ => true
  | .qcReattach _ _ => true
  | .qcDetachExpiry _ => true
  | .qcActivate _ _ => true
  | .blockResetRequest _ => true
  | .por _ => true
  | .sysRst => true
  | .bootStepDone b => b.wf
  | .fwAck _ _ => true
  | .firewallTimeout _ => true
  | .hello => true
  | .speed _ _ => true
  | .loadBegin _ _ _ _ => true
  | .data _ _ bytes => decide (1 ≤ bytes.length) && decide (bytes.length ≤ 4096)
  | .loadEnd _ _ _ => true
  | .activate _ _ => true
  | .reboot _ => true
  | .lifecyclePortRequest _ value _ => decide (value.length ≤ 48)
  | .fusePortWrite _ _ _ => true
  | .trngBlock raw => decide (raw.length = 128)
  | .drbgReseed => true
  | .kregTimeout => true
  | .kerbSample k => k.wf
  | .planeReturn tests => decide (tests.length ≤ 16) && tests.all SelfTest.wf
  | .domainGood _ => true
  | .readmissionStart _ => true
  | .pwrWarn => true
  | .pwrWarnClear => true
  | .flitReceived flit => decide (flit.length = 64)
  | .nak _ => true
  | .linkDown => true
  | .idle => true
  | .notice _ _ => true
  | .ctx _ _ _ _ _ _ => true
  | .key _ _ _ _ => true
  | .resv _ _ _ _ _ => true
  | .foldMsg _ _ _ _ _ _ => true
  | .cmp _ _ _ payload _ _ _ => decide (payload.length ≤ 384)
  | .sig _ _ _ _ => true
  | .part _ _ _ rows _ => rows.all fun r => decide (r.length = 1040) || decide (r.length = 528)
  | .state _ _ _ lines => lines.all fun l => decide (l.length = 65)
  | .cut _ _ _ _ => true
  | .join _ _ => true
  | .partnerLost => true
  | .getVersion _ => true
  | .getCapabilities _ => true
  | .negotiateAlgorithms _ => true
  | .getDigests _ => true
  | .getCertificate _ _ _ _ => true
  | .challenge _ _ _ => true
  | .getMeasurements _ _ _ _ => true
  | .setCertificate _ _ _ => true
  | .getCsr _ _ => true
  | .pldmRequest _ => true
  | .setEventReceiver _ => true
  | .pollForPlatformEventMessage => true
  | .platformEventTimeout => true
  | .mctpControl _ => true
  | .i3cCcc _ => true
  | .healthAreaRewrite => true
  | .signatureWindowEnd => true
  | .commandComplete _ d => d.ctl.all CtrlUpset.wf
  | .supplyRemoved => true
  | .porNLow => true
  | .aliveFault => true
  | .jtagDebugAccess _ => true
  | .selfTestDone _ t => t.wf
  | .planIntervalCheckpoint _ _ u => u.all Upset.wf && u.all Upset.inPiazza
  | .checkpointWaitExpiry => true
  | .hcCopyDisagreement _ _ _ _ => true
  | .lcChallengeRead => true

end Sys2Proof
end

