-- ==== Sys2Proof/Tests/Slice0.lean ====
section
/-! SUPPORT. Tests: ill-formed commands that WellFormed refuses, behaviour that the spec's own examples and tables give, and for every
obligation with hypotheses small states that meet them. Expected values come from the spec, by hand. -/

namespace Sys2Proof.Tests

set_option Elab.async false

open Sys2Proof Sys2Proof.Machine

/-! Small states. -/

/-- A block that is READY. -/
def ready : State := { top := { blkRst := false }, boot := { step := 12, stage := .ready } }

/-- Inline fields of a packet: offset, bytes and value. -/
def fields (l : List (Nat × Nat × Nat)) : Bytes :=
  l.foldl (fun b f => b.take (f.1 - 16) ++ Bytes.ofNat f.2.1 f.2.2 ++ b.drop (f.1 - 16 + f.2.1)) (List.replicate 48 0)

def cmd (op : Nat) (l : List (Nat × Nat × Nat) := []) (params : Bytes := []) (sess : Nat := 0) : Cmd :=
  { opcode := op, tag := 7, session := sess, inl := fields l, params := params, g1 := false, epoch := 0, time := 0 }

/-- A window's slot runs a command, at the head of the Forecourt's queue. -/
def running (s : State) (w : Nat) (c : Cmd) (op : Bool := true) : State :=
  { s with
    win := Tab.set {} s.win w { isOpen := op, msgMajor := 2, vector := 5, slot := { state := .running, running := some c } }
    rb := { s.rb with fcQueue := [w] } }

def withSession (s : State) (n : Nat) (x : Session) : State := { s with sess := Tab.set {} s.sess n x }

def keyed : Session := { state := .keyed, vi := 1, ringEntries := 16 }

/-- A tenant's window 1 with a KEYED session 3. -/
def tenant : State := withSession ready 3 keyed

/-- The same state at a later device time. -/
def late (ns : Nat) (s : State) : State := { s with ptu := { s.ptu with dt := BitVec.ofNat 96 (ns * 2 ^ 32) } }

/-- The fixed slots that the boot leaves (R317). -/
def bootKeys : Keys := { cdiA := [1], slots := [(2, { attr := fixedAttr 2 }), (4, { attr := fixedAttr 4 }), (5, { attr := fixedAttr 5 })] }

theorem ready_ready : ready.Ready := ⟨⟨rfl, rfl⟩, rfl⟩

/-! Registers and the command slot. -/

def posted (st : SlotState) : State := ready.onWin 1 fun x => { x with slot := { x.slot with state := st } }

def runningAbort : State := running ready 1 { cmd 0x10 with opcode := 0x10 }

theorem witness_T0Responses : ready.Up ∧ ready.top.blkRst = false ∧ 0x42_0000 ≤ (0x42_0000 : BitVec 32).toNat
    ∧ (0x7F : BitVec 8) ≠ 0xFF ∧ 0x48 / 8 ≠ 0x50 / 8 ∧ writable 1 0x58 = false ∧ writable 64 0x3100 = false :=
  ⟨⟨rfl, rfl⟩, by decide⟩

theorem witness_T0Responses_boot : State.Up { top := { blkRst := false }, boot := { step := 11 } } ∧ (11 : Nat) ≠ 12 :=
  ⟨⟨rfl, rfl⟩, by decide⟩

theorem witness_WindowsBeforeReady : State.reset.boot.step ≠ 12 ∧ State.reset.Up := ⟨by decide, rfl, rfl⟩

theorem witness_PostByState :
    (posted .idle).Ready ∧ ((posted .idle).window 1).slot.state = .idle ∧ ((posted .posted).window 1).slot.state = .posted
      ∧ (posted .posted).Ready ∧ (posted .closed).Ready ∧ runningAbort.Ready ∧ (runningAbort.window 1).slot.state = .running
      ∧ (runningAbort.window 1).slot.behind = none ∧ (runningAbort.window 1).slot.abortCmd = none
      ∧ (parsePacket (runningAbort.window 1).slot.pkt).opcode ≠ 0x60 :=
  ⟨⟨⟨rfl, rfl⟩, rfl⟩, by decide, by decide, ⟨⟨rfl, rfl⟩, rfl⟩, ⟨⟨rfl, rfl⟩, rfl⟩, ⟨⟨rfl, rfl⟩, rfl⟩, by decide, by decide, by decide, by decide⟩

theorem witness_MailboxReadsBack : ready.Ready ∧ (ready.window 1).slot.state ≠ .closed ∧ (ready.window 1).slot.pkt.length = 64 :=
  ⟨⟨⟨rfl, rfl⟩, rfl⟩, by decide, by decide⟩

/-- A session 0 of window 1 with one checkpoint written and none freed. -/
def oneWritten : State := withSession ready 0 { keyed with written := 1 }

theorem witness_CheckpointEntriesFreed : oneWritten.Ready ∧ (oneWritten.session 0).state ≠ .free ∧ (oneWritten.session 0).window = 1
    ∧ ((1 : BitVec 32) - (oneWritten.session 0).freed).toNat ≤ ((oneWritten.session 0).written - (oneWritten.session 0).freed).toNat
    ∧ ¬ ((2 : BitVec 32) - (oneWritten.session 0).freed).toNat ≤ ((oneWritten.session 0).written - (oneWritten.session 0).freed).toNat :=
  ⟨⟨⟨rfl, rfl⟩, rfl⟩, by decide, by decide, by decide, by decide⟩

theorem witness_HaltedBlockIsStill : State.live { top := { halted := true } } = false ∧ actsHalted .fcWdogKick = false := by decide

/-! Host opcodes. -/

def enabled (s : State) : State := { s with policy := [(1, 0x2801)] }

def viOpenCmd : Cmd := cmd 0x01 [(16, 1, 2), (17, 1, 3), (18, 2, 5)]
def viOpening : State := running (enabled ready) 1 viOpenCmd false

theorem witness_ViOpens : viOpening.Up ∧ viOpening.fcCmd 1 0x01 = some viOpenCmd ∧ (viOpening.window 1).isOpen = false
    ∧ polEnable (viOpening.policyOf 1) = true ∧ viOpenCmd.u 16 1 = 2 :=
  ⟨⟨rfl, rfl⟩, by decide +kernel⟩

def viClosing : State := running tenant 1 (cmd 0x02)

theorem witness_ViCloses : viClosing.live = true ∧ viClosing.fcCmd 1 0x02 = some (cmd 0x02) ∧ (viClosing.window 1).isOpen = true := by
  decide +kernel

def sessOpenCmd : Cmd := cmd 0x10 [(24, 8, 0x4000), (32, 2, 16)]
def sessOpening : State := running { ready with policy := [(1, 0x4_2801)] } 1 sessOpenCmd
def sessOpenConf : Cmd := cmd 0x10 [(16, 1, 1), (24, 8, 0x4000), (32, 2, 4096)]
def sessOpeningConf : State := running { ready with lc := { state := 4 } } 64 sessOpenConf

theorem witness_SessionsOpenAndClose : sessOpening.Up ∧ sessOpening.fcCmd 1 0x10 = some sessOpenCmd ∧ sessOpening.joined = false
    ∧ sessOpening.fm.state = .off ∧ (sessOpening.session 0).state = .free
    ∧ (sessOpening.sessionsOf 1).length < polQuota (sessOpening.policyOf 1) ∧ Bits.bit (sessOpenCmd.u 16 1) 0 = false
    ∧ sessOpenCmd.u 24 8 % 64 = 0 ∧ 16 ≤ sessOpenCmd.u 32 2 ∧ sessOpenCmd.u 32 2 ≤ 4096 :=
  ⟨⟨rfl, rfl⟩, by decide +kernel⟩

theorem witness_SessionsOpenAndClose_conf : sessOpeningConf.Up ∧ sessOpeningConf.fcCmd 64 0x10 = some sessOpenConf ∧ sessOpeningConf.joined = false
    ∧ sessOpeningConf.fm.state = .off ∧ (sessOpeningConf.session 0).state = .free ∧ Bits.bit (sessOpenConf.u 16 1) 0 = true
    ∧ sessOpeningConf.debugOpen = false ∧ sessOpeningConf.keysLocked = false ∧ sessOpeningConf.lc.state = 4
    ∧ sessOpenConf.u 24 8 % 64 = 0 ∧ 16 ≤ sessOpenConf.u 32 2 ∧ sessOpenConf.u 32 2 ≤ 4096 :=
  ⟨⟨rfl, rfl⟩, by decide +kernel⟩

/-- An SPDM message of 16 bytes in a host buffer. -/
def spdmHost : HostRead := { bytes := [0, 2] ++ Bytes.ofNat 2 msgSpdm ++ Bytes.ofNat 4 8 ++ List.replicate 8 0 }
def keyxCmd : Cmd := cmd 0x11 [(24, 8, 0x8000), (32, 4, 16), (36, 4, 8192)] [] 3
def keyxing : State :=
  running { tenant with mgmt := { spdm := [(1, { phase := 3 })] }, keys := bootKeys, trng := { state := .ok } } 1 keyxCmd
def keyxWork : KeyxWork := { ecdhPub := [], mlkemEk := [], ephemeral := [], kemRandom := [], transcript := [] }
def keyxFinishing : State := running (withSession ready 3 { keyed with keyx := some keyxWork }) 1 keyxCmd
def keyxOpening : State := running (withSession ready 3 { keyed with state := .opened, keyx := some keyxWork }) 1 keyxCmd

theorem witness_KeyExchange : keyxing.Up ∧ keyxing.fcCmd 1 0x11 = some keyxCmd ∧ spdmHost.err = false ∧ spdmHost.poison = false
    ∧ keyxing.requestStatus 1 msgSpdm (keyxCmd.u 32 4) spdmHost.bytes = none ∧ keyxing.visible 1 keyxCmd.session = true
    ∧ (keyxing.session keyxCmd.session).state = .keyed ∧ keyxing.keysLocked = false
    ∧ keyxing.standbyRefuses keyxCmd.session = false ∧ 8192 ≤ keyxCmd.u 36 4 ∧ (Tab.get {} keyxing.mgmt.spdm 1).phase = 3
    ∧ keyxing.noAlias = false ∧ keyxing.aliasRefused = false ∧ keyxing.drbgBlocked = false ∧ kemInRange (List.replicate 1568 0) = true
    ∧ ((keyxing.session keyxCmd.session).keyx.all fun k => !k.keySent) = true
    ∧ pointRefusal (List.replicate 48 255 ++ List.replicate 48 0) ≠ 0 :=
  ⟨⟨rfl, rfl⟩, by decide +kernel⟩

theorem witness_KeyExchange_finish : keyxFinishing.Up ∧ keyxFinishing.fcCmd 1 0x11 = some keyxCmd
    ∧ keyxFinishing.requestStatus 1 msgSpdm (keyxCmd.u 32 4) spdmHost.bytes = none ∧ keyxFinishing.visible 1 keyxCmd.session = true
    ∧ (keyxFinishing.session keyxCmd.session).state = .keyed ∧ keyxFinishing.keysLocked = false
    ∧ keyxFinishing.keys.kreg = none ∧ keyxFinishing.keys.kregWaiting = [] ∧ keyxWork.keySent = false ∧ keyxFinishing.lc.state < 7 ∧ keyxFinishing.fm.state = .off ∧ 8192 ≤ keyxCmd.u 36 4 ∧ (keyxFinishing.session keyxCmd.session).keyx = some keyxWork :=
  ⟨⟨rfl, rfl⟩, by decide +kernel⟩

theorem witness_KeyExchange_first : keyxOpening.Up ∧ keyxOpening.fcCmd 1 0x11 = some keyxCmd ∧ keyxOpening.visible 1 keyxCmd.session = true
    ∧ keyxOpening.requestStatus 1 msgSpdm (keyxCmd.u 32 4) spdmHost.bytes = none
    ∧ keyxOpening.lc.state < 7 ∧ keyxOpening.keysLocked = false ∧ keyxOpening.keys.kreg = none ∧ keyxOpening.keys.kregWaiting = [] ∧ keyxOpening.fm.state = .off ∧ (keyxOpening.session keyxCmd.session).keyx = some keyxWork
    ∧ (keyxOpening.session keyxCmd.session).state = .opened ∧ (keyxOpening.session keyxCmd.session).pair = .unpaired :=
  ⟨⟨rfl, rfl⟩, by decide +kernel⟩

def sessClosing : State := running tenant 1 (cmd 0x12 [] [] 3)

theorem witness_SessionsOpenAndClose_close : sessClosing.live = true ∧ sessClosing.fcCmd 1 0x12 = some (cmd 0x12 [] [] 3) ∧ sessClosing.fm.state = .off
    ∧ sessClosing.visible 1 3 = true ∧ (sessClosing.session 3).state ≠ .closing := by decide +kernel

def takeCmd : Cmd := cmd 0x20 [(16, 8, 1)]
def taking : State := running ready 1 takeCmd
def takeLater : Cmd := cmd 0x20 [(16, 8, 1), (24, 8, 2)]
def dropCmd : Cmd := cmd 0x21 [(16, 8, 1)]
def dropping : State := running { ready with rb := { leases := [{ win := 1, res := { bits := 1 }, first := 0, last := none }] } } 1 dropCmd

theorem witness_LeaseRequestsHeld : taking.Up ∧ taking.rbCmd 1 0x20 = some takeCmd ∧ takeCmd.maskStatus = none
    ∧ takeCmd.resources.videoOk = true ∧ Bits.get (takeCmd.u 16 8) 48 16 = 0 ∧ takeCmd.u 24 8 = 0 ∧ takeLater.epoch + 2 ≤ takeLater.u 24 8
    ∧ takeCmd.u 32 8 = 0 :=
  ⟨⟨rfl, rfl⟩, by decide +kernel⟩

theorem witness_LeaseRequestsHeld_drop : dropping.Up ∧ dropping.rbCmd 1 0x21 = some dropCmd ∧ dropCmd.maskStatus = none
    ∧ dropCmd.u 24 8 = 0 ∧ dropCmd.resources.videoNamed = true
    ∧ dropCmd.resources.minus ((dropping.rb.heldAt 1 (dropCmd.epoch + 1)).or (dropping.rb.heldAt 1 dropCmd.epoch)) = {}
    ∧ dropCmd.resources.and (dropping.resourcesUsed 1) = {} :=
  ⟨⟨rfl, rfl⟩, by decide +kernel⟩

def loadCmd : Cmd := cmd 0x30 [(24, 4, 64)]
def planLoading : State := running ready 1 loadCmd
def zeroImage : HostRead := { bytes := List.replicate 64 0 }

theorem witness_PlanIsStagedOrNamed : planLoading.Up ∧ planLoading.fcCmd 1 0x30 = some loadCmd ∧ (planLoading.bank 1).armed = none
    ∧ loadCmd.u 24 4 ≤ 2 ^ 22 ∧ zeroImage.err = false ∧ zeroImage.poison = false
    ∧ (containerFail (Bytes.slice zeroImage.bytes 0 (loadCmd.u 24 4)) (loadCmd.u 24 4)).isSome = true :=
  ⟨⟨rfl, rfl⟩, by decide +kernel⟩

/-- The entry of the worked STAGE_WRITE of R495: the power cap lowered to 150 W and OPP8. -/
def stageCmd : Cmd := cmd 0x40 [] (Bytes.ofNat 4 0x3100 ++ [0, 0, 0, 0] ++ Bytes.ofNat 8 0x000A_5896)
def staging : State := running ready 64 stageCmd

theorem witness_ItemsAreStaged : staging.Up ∧ staging.rbCmd 64 0x40 = some stageCmd ∧ (staging.bank 64).armed = none
    ∧ stageCmd.params = Bytes.ofNat 4 0x3100 ++ [0, 0, 0, 0] ++ Bytes.ofNat 8 (0x000A_5896 : Word).toNat ∧ (0x3100 : Nat) < 2 ^ 32
    ∧ staging.stageRefusal 64 0x3100 (0x000A_5896 : Word).toNat = none ∧ (staging.bank 64).items.length < 256 ∧ (staging.bank 64).fits = true :=
  ⟨⟨rfl, rfl⟩, by decide +kernel⟩

def holder (s : State) (w : Nat) (r : Res) : State := { s with rb := { s.rb with leases := [{ win := w, res := r, first := 0, last := none }] } }

def integCmd : Cmd := cmd 0x62 [(16, 2, 4), (19, 1, 5)]
def integSetting : State := running (holder { ready with policy := [(1, 0x2800)] } 1 { cs := 0x10 }) 1 integCmd
def integModel : Cmd := cmd 0x62 [(16, 2, 1023), (18, 1, 1), (19, 1, 0)]

theorem witness_ItemsAreStaged_integ : integSetting.Up ∧ integSetting.fcCmd 1 0x62 = some integCmd ∧ (integSetting.bank 1).armed = none
    ∧ integCmd.u 18 1 < 2 ∧ integCmd.u 19 1 < 6 ∧ polFracMin (integSetting.policyOf 1) ≤ integCmd.u 19 1
    ∧ integCmd.u 19 1 ≤ polFracMax (integSetting.policyOf 1) ∧ integCmd.u 18 1 = 0 ∧ (integSetting.holdsEver 1).hasCs (integCmd.u 16 2) = true
    ∧ (integSetting.bank 1).items.length < 256 ∧ (integSetting.bank 1).fits = true ∧ integModel.u 18 1 = 1 ∧ integModel.u 16 2 < 1024 :=
  ⟨⟨rfl, rfl⟩, by decide +kernel⟩

def unbindCmd : Cmd := cmd 0x33 [(16, 2, 255), (23, 1, 1)] [] 3
def unbinding : State := running (holder tenant 1 { cs := BitVec.ofNat 256 (2 ^ 255) }) 1 unbindCmd
/-- The same with logical session 0 bound. -/
def unbindKnown : State := { unbinding with plans := [(1, { lsess := [(0, 4)] })] }

theorem witness_ItemsAreStaged_bind : unbinding.Up ∧ unbinding.fcCmd 1 0x33 = some unbindCmd ∧ (unbinding.bank 1).armed = none
    ∧ unbindCmd.u 16 2 < 256 ∧ unbindCmd.u 18 1 < 64 ∧ unbinding.lsessOf 1 (unbindCmd.u 18 1) = none
    ∧ (unbindKnown.lsessOf 1 (unbindCmd.u 18 1)) = some unbindCmd.session ∧ unbinding.bindable 1 unbindCmd.session = true ∧ (unbinding.holdsEver 1).hasCs (unbindCmd.u 16 2) = true
    ∧ Bits.bit (unbindCmd.u 23 1) 0 = true ∧ (unbinding.bank 1).items.length < 256 ∧ (unbinding.bank 1).fits = true :=
  ⟨⟨rfl, rfl⟩, by decide +kernel⟩

def commitCmd : Cmd := cmd 0x42 [(16, 8, 2000), (24, 1, 1)]
def commitEv : Event := { kind := .commit, target := 1, valid := true, owner := 1, device := true, instant := 2000 }
def committing : State := running { ready with banks := [(1, { items := [.integ 2 true 1] })] } 1 commitCmd
def checkingBank : State := running ready 1 (cmd 0x41)

theorem witness_CommitIsArmed : checkingBank.Up ∧ checkingBank.fcCmd 1 0x41 = some (cmd 0x41) ∧ committing.Up
    ∧ committing.fcCmd 1 0x42 = some commitCmd ∧ Bits.bit (commitCmd.u 32 1) 0 = false ∧ (committing.bank 1).armed = none
    ∧ (committing.bank 1).items ≠ [] ∧ commitEntry 1 (Bytes.slice commitCmd.inl 0 16) commitCmd.time commitCmd.epoch commitCmd.phases = some commitEv
    ∧ committing.checkBank 1 (committing.earliestEpoch 1) = none ∧ committing.freeEntry = some 0 :=
  ⟨⟨rfl, rfl⟩, by decide +kernel, ⟨rfl, rfl⟩, by decide +kernel⟩

/-- A plan of one weight of 512 bytes, one placement of it on Arcade 0 and one job entry. -/
def smallPlan : Plan :=
  { arcades := 1, planId := 1, measurement := 1
    models := [{ lsess := 0, kind := 1, actFmt := 0, wtFmt := 0, firstWeight := 0, nWeights := 1, kMax := 1, macs := 1 }]
    weights := [{ digest := 1, length := 512, model := 0, mx := false }]
    placements := [{ model := 0, arcade := 0, firstRow := 0, lastRow := 0, scratch := false, shared := false, second := false
                     lsess := 0, weight := 0 }]
    programs := [{ arcade := 0, control := false, accFirst := 0, accLast := 3, words := [0, 0x0C00_0000_0000_0000] }]
    schedules := [{ trigger := 0, kind := 2, arcade := 0, program := 0, region := 0, ads := [], lsess := 0, ckJob := false }] }

def withPlan (s : State) (st : RegionState) : State :=
  { holder s 1 { bits := 1 } with
    plans := [(1, { running := some smallPlan, regions := [(0, 5)], lsess := [(0, 4)] })]
    arc := [(0, { integ := .inService, regions := [(5, { firstRow := 0, lastRow := 0, valid := true, state := st, plan := some 1 })] })] }

def weightsCmd : Cmd := cmd 0x31 [(32, 4, 512)] [] 3
def weighing : State := running (withPlan tenant .empty) 1 weightsCmd
def measuring : State := running (withPlan tenant .measured) 1 (cmd 0x32)

theorem witness_WeightsAreMeasured : weighing.Up ∧ weighing.fcCmd 1 0x31 = some weightsCmd ∧ (weighing.plan 1).running = some smallPlan
    ∧ smallPlan.weights[weightsCmd.u 16 2]?.map (·.length) = some (weightsCmd.u 32 4) ∧ weighing.bindable 1 weightsCmd.session = true
    ∧ weightsCmd.u 18 1 < 64 ∧ weighing.loadRegions 1 (weightsCmd.u 16 2) = [(0, 5)]
    ∧ weighing.regionSession 1 (0, 5) = some weightsCmd.session
    ∧ weighing.lsessOf 1 (weightsCmd.u 18 1) = some weightsCmd.session ∧ (weighing.held 1).hasArc 0 = true
    ∧ (weighing.regionAt (0, 5)).state = .empty ∧ (weighing.regionAt (0, 5)).valid = true ∧ (weighing.regionAt (0, 5)).plan = some 1
    ∧ weighing.pm.planeOff = false :=
  ⟨⟨rfl, rfl⟩, by decide +kernel⟩

theorem witness_WeightsAreMeasured_measure : measuring.Up ∧ measuring.fcCmd 1 0x32 = some (cmd 0x32)
    ∧ (measuring.plan 1).running = some smallPlan ∧ (measuring.plan 1).regions[(cmd 0x32).u 16 2]? = some (0, 5)
    ∧ smallPlan.placements[(cmd 0x32).u 16 2]?.map (·.scratch) = some false ∧ (smallPlan.weights[0]?).isSome = true
    ∧ (measuring.held 1).hasArc 0 = true ∧ (measuring.regionAt (0, 5)).state = .measured ∧ (measuring.regionAt (0, 5)).plan = some 1 :=
  ⟨⟨rfl, rfl⟩, by decide +kernel⟩

def submitCmd : Cmd := cmd 0x50 [(32, 4, 16)] [] 3
def submitting : State := running (withPlan tenant .measured) 1 submitCmd
def resumeCmd : Cmd := cmd 0x52 [(32, 4, 16), (56, 4, 8)] [] 3
def resuming : State := running (withPlan tenant .measured) 1 resumeCmd

theorem witness_JobsStart : submitting.live = true ∧ submitting.fcCmd 1 0x50 = some submitCmd ∧ submitting.jobRefusal 1 submitCmd = none
    ∧ (submitting.plan 1).running = some smallPlan ∧ submitting.lsessOf 1 (submitCmd.u 18 1) = some submitCmd.session
    ∧ submitting.freeJob = some 0 ∧ (submitCmd.jobEntries (submitting.session submitCmd.session).conf).map (·.2) = some []
    ∧ (∀ e ∈ smallPlan.schedules, submitting.noPrograms e.arcade = false)
    ∧ submitting.pm.descents = [] ∧ submitting.jobPagesOk submitCmd.session smallPlan (submitCmd.u 16 2) [] = true := by decide +kernel

theorem witness_JobsStart_resume : resuming.live = true ∧ resuming.fcCmd 1 0x52 = some resumeCmd ∧ resuming.jobRefusal 1 resumeCmd = none
    ∧ (resuming.plan 1).running = some smallPlan ∧ resuming.lsessOf 1 (resumeCmd.u 18 1) = some resumeCmd.session
    ∧ resuming.freeJob = some 0 ∧ (resuming.session resumeCmd.session).conf = false
    ∧ (resumeCmd.jobEntries false).map (·.2) = some [] ∧ resuming.pm.descents = []
    ∧ resumeCmd.u 56 4 = 8 + 64 * (resuming.stateAddrs smallPlan (resumeCmd.u 16 2)).length
    ∧ (∀ e ∈ smallPlan.schedules, resuming.noPrograms e.arcade = false) ∧ resuming.jobPagesOk resumeCmd.session smallPlan (resumeCmd.u 16 2) [] = true := by decide +kernel

def ckptCmd : Cmd := cmd 0x51 [(16, 2, 1023), (32, 4, 8)]
def oneJob (s : State) (j : Nat) (x : Job) : State := { s with jobs := [(j, x)] }
def ckptJob : State := running (oneJob tenant 1023 { active := true, win := 1, session := 3 }) 1 ckptCmd

theorem witness_JobCheckpoints : ckptJob.Up ∧ ckptJob.fcUp = true ∧ ckptJob.fcCmd 1 0x51 = some ckptCmd ∧ ckptCmd.u 16 2 < 1024
    ∧ (ckptJob.job (ckptCmd.u 16 2)).active = true ∧ (ckptJob.job (ckptCmd.u 16 2)).win = 1 ∧ ckptJob.ckptReady (ckptCmd.u 16 2) = true ∧ ckptJob.jobStateOk (ckptCmd.u 16 2) = true
    ∧ (ckptJob.jobBlob (ckptJob.job (ckptCmd.u 16 2)).session 0 (ckptJob.jobState (ckptCmd.u 16 2))).length ≤ ckptCmd.u 32 4 :=
  ⟨⟨rfl, rfl⟩, by decide +kernel⟩

def abortStream : Cmd := cmd 0x60 [(20, 4, 255)]
def oneStream (s : State) (n : Nat) (x : Stream) : State := { s with streams := [(n, x)] }
def abortingStream : State := running (oneStream tenant 255 { bound := true, win := 1, session := 3 }) 1 abortStream
def abortSess : Cmd := cmd 0x60 [(16, 1, 2), (20, 4, 3)]
def abortingSess : State := running tenant 1 abortSess
def abortNone : Cmd := cmd 0x60 [(16, 1, 2), (20, 4, 4)]
def abortNoJob : Cmd := cmd 0x60 [(16, 1, 1), (20, 4, 4)]
def abortNoStream : Cmd := cmd 0x60 [(20, 4, 4)]

theorem witness_AbortEndsItsUnit : abortingStream.live = true ∧ (abortingStream.window 1).slot.abortCmd = none
    ∧ abortingStream.rbCmd 1 0x60 = some abortStream ∧ abortStream.u 16 1 = 0 ∧ abortStream.u 20 4 < 256
    ∧ (abortingStream.stream (abortStream.u 20 4)).bound = true ∧ (abortingStream.stream (abortStream.u 20 4)).win = 1
    ∧ abortingSess.live = true ∧ abortingSess.rbCmd 1 0x60 = some abortSess ∧ abortSess.u 16 1 = 2 ∧ abortSess.u 20 4 < 16384
    ∧ (abortingSess.session (abortSess.u 20 4)).state ≠ .free ∧ (abortingSess.session (abortSess.u 20 4)).window = 1
    ∧ abortingSess.fm.state = .off := by decide +kernel

theorem witness_AbortEndsItsUnit_none : (running tenant 1 abortNone).Up ∧ (running tenant 1 abortNone).rbCmd 1 0x60 = some abortNone
    ∧ abortNone.u 16 1 = 2 ∧ ((running tenant 1 abortNone).session (abortNone.u 20 4)).state = .free ∧ abortNoJob.u 16 1 = 1
    ∧ (tenant.job (abortNoJob.u 20 4)).active = false ∧ abortNoStream.u 16 1 = 0 ∧ (tenant.stream (abortNoStream.u 20 4)).bound = false :=
  ⟨⟨rfl, rfl⟩, by decide +kernel⟩

def ackCmd : Cmd := cmd 0x61 [] (Bytes.ofNat 2 255 ++ List.replicate 6 0 ++ Bytes.ofNat 8 2)
def acking : State :=
  running { oneStream tenant 255 { bound := true, win := 1, slot := 63 } with results := [(127, { latest := 2, acked := 1 })] } 1 ackCmd

theorem witness_ResultsAreAcknowledged : acking.Up ∧ acking.rbCmd 1 0x61 = some ackCmd
    ∧ ackCmd.params = Bytes.ofNat 2 255 ++ List.replicate 6 0 ++ Bytes.ofNat 8 2 ∧ (acking.stream 255).bound = true
    ∧ (acking.stream 255).win = 1 ∧ (Tab.get {} acking.results (64 * 1 + 63)).acked.toNat < 2
    ∧ 2 ≤ (Tab.get {} acking.results (64 * (acking.stream 255).win + (acking.stream 255).slot)).latest :=
  ⟨⟨rfl, rfl⟩, by decide +kernel⟩

def evidCmd : Cmd := cmd 0x70 [(16, 1, 1), (48, 8, 0x8000), (56, 4, 4552)] [] 3
def evidenced : State := running { tenant with keys := bootKeys, trng := { state := .ok } } 1 evidCmd
def fwInfoCmd : Cmd := cmd 0x80 [(24, 4, 4096)]
def errlogCmd : Cmd := cmd 0x82 [(32, 4, 552)]

theorem witness_BodiesAreWritten : evidenced.Up ∧ evidenced.fcCmd 1 0x70 = some evidCmd ∧ evidenced.bodyDefined 1 msgEvidence = true
    ∧ evidCmd.session ≠ 0xFFFF ∧ evidenced.visible 1 evidCmd.session = true ∧ (evidenced.session evidCmd.session).state = .keyed
    ∧ ((Bytes.slice evidCmd.inl 0 32).all fun b => b == 0) = false ∧ evidenced.drbgBlocked = false ∧ evidenced.noAlias = false
    ∧ 4552 ≤ evidCmd.u 56 4 :=
  ⟨⟨rfl, rfl⟩, by decide +kernel⟩

/-- A request for evidence that no claim tick has reached, one whose claims are taken, and one whose session has left. -/
def claiming (q : ClaimReq) : State := { evidenced with rb := { evidenced.rb with claims := [q] } }
def aClaim : ClaimReq := { win := 1, sess := some 3, audience := 1, nonce := [], begun := 0 }
def takenClaim : ClaimReq := { aClaim with token := some [1] }

theorem witness_BodiesAreWritten_claims : (evidenced.rb.claims.find? fun q => q.win == 1) = none ∧ (claiming takenClaim).Up
    ∧ ((claiming takenClaim).rb.claims.find? fun q => q.win == 1) = some takenClaim ∧ takenClaim.left = false ∧ takenClaim.token = some [1]
    ∧ (claiming takenClaim).fcCmd 1 0x70 = some evidCmd ∧ (claiming takenClaim).drbgBlocked = false
    ∧ (claiming takenClaim).aliasRefused = false ∧ tokenBytes takenClaim.sess + 8 ≤ evidCmd.u 56 4
    ∧ ((claiming { aClaim with left := true }).rb.claims.find? fun q => q.win == 1) = some { aClaim with left := true } := by
  refine ⟨?_, ⟨rfl, rfl⟩, ?_⟩
  all_goals decide +kernel

theorem witness_BodiesAreWritten_info : (running ready 1 fwInfoCmd).Up ∧ (running ready 1 fwInfoCmd).fcCmd 1 0x80 = some fwInfoCmd
    ∧ (running ready 64 errlogCmd).Up ∧ (running ready 64 errlogCmd).fcCmd 64 0x82 = some errlogCmd ∧ 552 ≤ errlogCmd.u 32 4
    ∧ ((running ready 1 fwInfoCmd).header 1 msgFwInfo 64 ++ List.replicate 64 (0 : Byte)).length ≤ fwInfoCmd.u 24 4 :=
  ⟨⟨rfl, rfl⟩, by decide +kernel, ⟨rfl, rfl⟩, by decide +kernel⟩

def receiptCmd : Cmd := cmd 0x71 [] [] 3
def receipting : State := running tenant 1 receiptCmd
def aCut : Cut :=
  { session := 3, kind := .command, keyxGen := 1, prevCut := 0, cut := 5, rseqHigh := 0, released := 0, voided := 0, acc := 0
    voids := [], plans := [], flags := 0, evidence := 0, waiter := some 1 }
def cutting : State := { receipting with cuts := [aCut], trng := { state := .ok } }

theorem witness_CheckpointsAreCut : receipting.Up ∧ receipting.fcCmd 1 0x71 = some receiptCmd ∧ receipting.visible 1 receiptCmd.session = true
    ∧ (receipting.session receiptCmd.session).state = .keyed ∧ receipting.fm.state = .off ∧ cutting.live = true ∧ cutting.fcUp = true
    ∧ cutting.drbgBlocked = false ∧ cutting.fm.state = .off ∧ cutting.nextCut = some aCut ∧ aCut.kind.final = false
    ∧ cutting.noAlias = true ∧ State.aliasRefused { cutting with keys := bootKeys } = false :=
  ⟨⟨rfl, rfl⟩, by decide +kernel⟩

def replied : State := (running tenant 1 (cmd 0x12)).result 1 (.ok 9)
def notifying : State :=
  { tenant with
    win := [(1, { isOpen := true, vector := 5 })]
    ptu := { firing := [{ idx := 9, kind := .notify }], events := [(9, { valid := true, kind := .notify, target := 33 })] } }

theorem witness_RepliesAndMessages : replied.Up ∧ replied.fcUp = true ∧ (replied.window 1).slot.running = some (cmd 0x12)
    ∧ (replied.window 1).slot.result = some (.ok 9) ∧ roundaboutOps.contains (cmd 0x12).opcode = false
    ∧ replied.rb.fcQueue.head? = some 1 ∧ State.Up { ready with msgs := [(1, 5)] } ∧ notifying.Up
    ∧ notifying.ptu.firing = [{ idx := 9, kind := .notify }] ∧ (notifying.window ((notifying.event 9).target.toNat / 32)).isOpen = true :=
  ⟨⟨rfl, rfl⟩, by decide +kernel, by decide +kernel, by decide +kernel, by decide, by decide +kernel, ⟨rfl, rfl⟩, ⟨rfl, rfl⟩, rfl,
    by decide +kernel⟩

/-! Tokens, keys and firmware. -/

/-- A token message of a kind: its header is otherwise zero, so that R310 refuses it. -/
def tokenMsg (kind : Nat) : HostRead :=
  { bytes := [0, 2] ++ Bytes.ofNat 2 msgToken ++ Bytes.ofNat 4 7680 ++ List.replicate 6 0 ++ [BitVec.ofNat 8 kind] ++ List.replicate 7673 0 }
def tokenCmd : Cmd := cmd 0x91 [(32, 4, 7688)]
def tokening : State := running { ready with trng := { state := .ok } } 64 tokenCmd
def unlockCmd : Cmd := cmd 0x92 [(32, 4, 7688)]
def unlocking : State := running { ready with trng := { state := .ok } } 64 unlockCmd

theorem witness_TokensAct : tokening.live = true ∧ tokening.fcCmd 64 0x91 = some tokenCmd
    ∧ tokening.requestStatus 64 msgToken (tokenCmd.u 32 4) (tokenMsg 1).bytes = none ∧ tokening.drbgBlocked = false
    ∧ tokenKind (tokenMsg 1) < 3 ∧ tokenKind (tokenMsg 3) = 3 ∧ tokenKind (tokenMsg 4) = 4 ∧ tokenKind (tokenMsg 5) = 5
    ∧ unlocking.live = true ∧ unlocking.fcCmd 64 0x92 = some unlockCmd
    ∧ tokening.tokenRefusal (Bytes.slice (tokenMsg 3).bytes 8 (tokenCmd.u 32 4 - 8)) [3] none false = some (.denied 0x0A)
    ∧ unlocking.confOpen = false ∧ (withSession unlocking 3 { keyed with conf := true }).confOpen = true
    ∧ (withSession unlocking 3 { keyed with conf := true }).live = true
    ∧ (withSession unlocking 3 { keyed with conf := true }).fcCmd 64 0x92 = some unlockCmd := by
  decide +kernel

def destroyCmd (n : Nat) : Cmd := cmd 0x90 [(16, 1, n)]
def aLoad : KregLoad := { key := 0, bytes := 32, attr := 0, user := 0 }
def kregFull (w : List KregLoad) : State := { ready with keys := { kreg := some aLoad, kregWaiting := w }, ptu := { dt := 2000000 * 2 ^ 32 } }

theorem witness_KeysAreDestroyed : (running ready 64 (destroyCmd 6)).Up ∧ (running ready 64 (destroyCmd 6)).fcCmd 64 0x90 = some (destroyCmd 6)
    ∧ (destroyCmd 6).u 16 1 = 6 ∧ (destroyCmd 63).u 16 1 = 63 ∧ (destroyCmd 5).u 16 1 = 5
    ∧ (running ready 64 (destroyCmd 5)).fcCmd 64 0x90 = some (destroyCmd 5) ∧ (kregFull []).Up ∧ (kregFull [aLoad]).Up
    ∧ (kregFull [aLoad]).keys.kregWaiting = [aLoad] ∧ aLoad.opens = none
    ∧ (kregFull [{ aLoad with opens := some (2, 0x30) }]).keys.kregWaiting = [{ aLoad with opens := some (2, 0x30) }]
    ∧ (kregFull []).keys.kregAt + 2000000 ≤ (kregFull []).now
    ∧ fusedBank ((destroyCmd 6).u 16 1) + 17 = 127 ∧ (running ready 64 (destroyCmd 6)).fuse 127 ≠ 0xFFFF_FFFF
    ∧ fusedBank ((destroyCmd 7).u 16 1) + 17 = 109 :=
  ⟨⟨rfl, rfl⟩, by decide +kernel, by decide +kernel, by decide +kernel, by decide +kernel, by decide +kernel, ⟨rfl, rfl⟩, ⟨rfl, rfl⟩,
    by decide +kernel, by decide +kernel, by decide +kernel, by decide +kernel⟩

def imageMsg : HostRead := { bytes := [0, 2] ++ Bytes.ofNat 2 msgImage ++ Bytes.ofNat 4 64 ++ List.replicate 64 0 }
def fwCmd : Cmd := cmd 0x81 [(16, 1, 33), (32, 4, 72)]
def fwStaging : State := running ready 64 fwCmd

theorem witness_FirmwareIsStaged : fwStaging.Up ∧ fwStaging.fcCmd 64 0x81 = some fwCmd
    ∧ fwStaging.requestStatus 64 msgImage (fwCmd.u 32 4) imageMsg.bytes = none ∧ fwCmd.u 16 1 < 34 :=
  ⟨⟨rfl, rfl⟩, by decide +kernel⟩

def uartLoader (n : Nat) (load : Option UartLoad) : State :=
  { ready with boot := { step := 0, stage := .recovery }, uart := { loader := n, load := load } }
def aHead : UartHead := { seq := 3 }
def shortLoad : UartLoad := { component := 0, dest := 1, length := 2, bytes := [7] }
def fullLoad : UartLoad := { component := 0, dest := 2, length := 1, bytes := [7] }

theorem witness_UartFramesAct : (uartLoader 2 none).Up ∧ (uartLoader 2 none).uartOn = true ∧ (uartLoader 2 none).uart.heard = false
    ∧ (uartLoader 2 none).helloDue = true ∧ ({ seq := 3, valid := false } : UartHead).valid = false
    ∧ aHead.valid = true ∧ (uartLoader 2 (some shortLoad)).uart.lastSeq ≠ some aHead.seq ∧ (uartLoader 2 (some shortLoad)).Up
    ∧ shortLoad.bytes.length < shortLoad.length ∧ fullLoad.bytes.length = fullLoad.length ∧ (uartLoader 2 none).uart.loader = 2
    ∧ (uartLoader 2 none).loadAccepted 0xF2 1 = true ∧ (uartLoader 0 none).loadAccepted 0 1 = false :=
  ⟨⟨rfl, rfl⟩, by decide +kernel, by decide, by decide +kernel, by decide, by decide, by decide, ⟨rfl, rfl⟩, by decide, by decide, by decide,
    by decide +kernel, by decide +kernel⟩

/-! Engines of the security subsystem. -/

def deState (n : Nat) (c : DeCtx) : State := { ready with de := [(n, c)], trng := { state := .ok } }
def opened : DeCtx := { state := .opened }

theorem witness_DigestContexts : ready.Up ∧ ready.boot.step ≠ 0 ∧ 8 ≤ ctrlFunc (ctrlKept 8) ∧ ctrlFunc (ctrlKept 7) < 8
    ∧ ctrlHmac (ctrlKept 7) = false ∧ ctrlSecretMsg (ctrlKept 7) = false ∧ destOk (ctrlKept 7) false 0 = true
    ∧ ctrlFunc (ctrlKept 0x32) < 3 ∧ ctrlHmac (ctrlKept 0x32) = true ∧ ctrlKreg (ctrlKept 0x32) = true ∧ ready.keys.kreg = none
    ∧ ctrlFunc (ctrlKept 0x12) < 3 ∧ ctrlHmac (ctrlKept 0x12) = true ∧ ctrlKreg (ctrlKept 0x12) = false
    ∧ ctrlSecretMsg (ctrlKept 0x12) = false ∧ destOk (ctrlKept 0x12) false 0 = true :=
  ⟨⟨rfl, rfl⟩, by decide +kernel⟩

/-- KS8 as boot step 4 leaves it (R317). -/
def keyed8 (s : State) : State := { s with keys := { s.keys with slots := [(8, { attr := fixedAttr 8 })] } }

theorem witness_DigestContexts_wrap : (keyed8 (deState 5 opened)).Up ∧ ((keyed8 (deState 5 opened)).ctx 5).state = .opened
    ∧ ctrlSecretMsg ((keyed8 (deState 5 opened)).ctx 5).ctrl = false ∧ ((keyed8 (deState 5 opened)).ctx 5).buf = []
    ∧ (keyed8 (deState 5 opened)).drbgBlocked = false ∧ (keyed8 (deState 5 opened)).boot.step ≠ 0
    ∧ ((keyed8 ready).ctx 0).state = .free ∧ (keyed8 ready).wrapRefused = false ∧ ready.wrapRefused = true ∧ (keyed8 ready).Up := by
  refine ⟨⟨rfl, rfl⟩, ?_, ?_, ?_, ?_, ?_, ?_, ?_, ?_, ⟨rfl, rfl⟩⟩
  all_goals decide +kernel

theorem witness_DigestContexts_ends : (deState 5 { opened with buf := [1] }).Up ∧ (deState 5 opened).Up
    ∧ ((deState 5 { opened with buf := [1] }).ctx 5).state = .opened ∧ ((deState 5 { opened with buf := [1] }).ctx 5).buf ≠ []
    ∧ ((deState 5 opened).ctx 5).state = .opened ∧ ((deState 5 opened).ctx 5).buf = []
    ∧ ctrlSecretMsg ((deState 5 opened).ctx 5).ctrl = false ∧ ctrlDest ((deState 5 opened).ctx 5).ctrl = 0
    ∧ (deState 5 opened).drbgBlocked = false ∧ (ready.ctx 0).state = .free ∧ (ready.ctx 0).state ≠ .opened
    ∧ (deState 5 opened).boot.step ≠ 0 ∧ (keyed8 (deState 5 opened)).wrapRefused = false ∧ (deState 5 { opened with ctrl := 0x100 }).Up
    ∧ ((deState 5 { opened with ctrl := 0x100 }).ctx 5).state = .opened ∧ ((deState 5 { opened with ctrl := 0x100 }).ctx 5).buf = []
    ∧ ctrlSecretMsg ((deState 5 { opened with ctrl := 0x100 }).ctx 5).ctrl = false
    ∧ ctrlDest ((deState 5 { opened with ctrl := 0x100 }).ctx 5).ctrl = 1 := by
  refine ⟨⟨rfl, rfl⟩, ⟨rfl, rfl⟩, ?_, ?_, ?_, ?_, ?_, ?_, ?_, ?_, ?_, ?_, ?_, ⟨rfl, rfl⟩, ?_⟩
  all_goals decide +kernel

/-- A descriptor of the queue: opcode, length and tag. -/
def pkeDesc (op len tag : Nat) : Bytes := Bytes.ofNat 1 op ++ Bytes.ofNat 1 len ++ [0, 0] ++ Bytes.ofNat 4 tag ++ List.replicate 56 0
def rsaJob : PkeJob := { op := 4, len := 64, flags := 0, slot := 0, tag := 9, msgBytes := 0 }
def signJob : PkeJob := { op := 0x11, len := 0, flags := 0, slot := 0, tag := 9, msgBytes := 0 }
def hashJob : PkeJob := { op := 0x21, len := 0, flags := 0, slot := 0, tag := 8, msgBytes := 0 }
/-- A verification whose signature is all zeros, out of range. -/
def verifyJob : PkeJob := { op := 0x12, len := 0, flags := 0, slot := 0, tag := 7, msgBytes := 0 }
def pkeState (p : Pke) : State := { ready with pke := p }

theorem witness_PkeJobs : (pkeState { queue := List.replicate 8 rsaJob }).Up ∧ ready.boot.step ≠ 0
    ∧ 8 ≤ (pkeState { queue := List.replicate 8 rsaJob }).pke.queue.length ∧ ready.pke.queue.length < 8
    ∧ (parsePke ((ready.fcStores [(0, pkeDesc 4 64 9)]).sramRead 0 64)).illegal = false
    ∧ (parsePke ((ready.fcStores [(0, pkeDesc 4 65 9)]).sramRead 0 64)).illegal = true
    ∧ (pkeState { queue := [rsaJob] }).live = true ∧ (pkeState { queue := [rsaJob] }).pke.queue = rsaJob :: [] ∧ rsaJob.msgBytes ≤ 4096
    ∧ (pkeState { queue := [rsaJob] }).keys.kreg = none ∧ bigOps.contains rsaJob.op = true :=
  ⟨⟨rfl, rfl⟩, by decide +kernel⟩

theorem witness_PkeJobs_running : (pkeState { queue := [hashJob], run := some { signJob with yields := 7 } }).Up
    ∧ signJob.points < signJob.yieldPoints ∧ { signJob with points := 10 }.points < signJob.yieldPoints ∧ rsaJob.points < rsaJob.yieldPoints
    ∧ ({ queue := [hashJob], run := some signJob } : Pke).passer signJob = some hashJob
    ∧ ({ queue := [hashJob], run := some signJob } : Pke).passer { signJob with points := 10 } = none
    ∧ (pkeState { run := some rsaJob, suspended := some { rsaJob with region := 1 } }).Up ∧ (pkeState { run := some verifyJob }).Up
    ∧ verifyJob.refused = 0 ∧ rndOps.contains verifyJob.op = false ∧ (verifyJob.compute []).verdict = some false :=
  ⟨⟨rfl, rfl⟩, by decide +kernel, by decide +kernel, by decide +kernel, by decide +kernel, by decide +kernel, ⟨rfl, rfl⟩, ⟨rfl, rfl⟩,
    by decide +kernel⟩

/-! The timebase, windows and slots. -/

theorem witness_TickAdvances : ready.live = true ∧ ready.tickDone = true ∧ ready.Synced ∧ ready.cutDue = [] ∧ ready.rb.claims = [] :=
  ⟨rfl, rfl, rfl, rfl, rfl⟩

def sealedSlot (pkt : Bytes) (op : Bool) : State :=
  { ready with
    win := [(1, { isOpen := op, gen := 0, slot := { state := .closed, pkt := pkt } })]
    ptu := { atDispatch := true } }

theorem witness_SlotsAreSealedAndTaken : State.live { ready with ptu := { atEpoch := true } } = true
    ∧ (sealedSlot (List.replicate 64 0) true).live = true ∧ (sealedSlot (List.replicate 64 0) true).ptu.atDispatch = true
    ∧ (sealedSlot (List.replicate 64 0) true).ptu.atEpoch = false
    ∧ ((sealedSlot (List.replicate 64 0) true).window 1).slot.state = .closed ∧ (sealedSlot (List.replicate 64 0) true).fcUp = true
    ∧ (sealedSlot (List.replicate 64 0) false).checkPacket 1 (parsePacket (List.replicate 64 0)) 0 = some (stVersion, 0) := by
  decide +kernel

def sourceState (c : Source) (tick : Nat) : State := { ready with ptu := { tick := tick, sources := [(15, c)] } }
/-- A word of a valid sample at position 7. -/
def sampleWord : Word := BitVec.ofNat 64 (7 + 2 ^ 49)
def trackingSource : Source :=
  { state := .tracking, acquired := 2, theta := BitVec.ofNat 96 (7 * 2 ^ 32), lastAccepted := some 100 }

def secondSource : Source := { state := .acquiring, acquired := 1, firstTick := 101, lastAccepted := some 100 }
/-- A word of a valid sample a quarter of the circle ahead. -/
def farWord : Word := BitVec.ofNat 64 (2 ^ 30 + 2 ^ 49)

theorem witness_PhaseSources : (sourceState { state := .acquiring } 0).Up ∧ ((sourceState { state := .acquiring } 0).source 15).state ≠ .off
    ∧ Bits.bit sampleWord.toNat 49 = true ∧ ((sourceState { state := .acquiring } 0).source 15).lastAccepted = none
    ∧ ((sourceState { state := .acquiring } 0).source 15).acquired = 0
    ∧ (sourceState trackingSource 501).live = true ∧ ((sourceState trackingSource 501).source 15).acquired = 2
    ∧ 100 + 400 < (sourceState trackingSource 501).ptu.tick
    ∧ (trackingSource.fix (Bits.get sampleWord.toNat 0 32) (latchTicks (Bits.get sampleWord.toNat 32 16))).e.natAbs
      ≤ trackingSource.jumpThreshold * 2 ^ 56 ∧ ((sourceState trackingSource 501).source 15).state = .tracking
    ∧ (sourceState trackingSource 500).ptu.tick ≤ 100 + 400 ∧ ((sourceState trackingSource 500).source 15).lastAccepted = some 100
    ∧ (sourceState secondSource 501).live = true ∧ ((sourceState secondSource 501).source 15).acquired = 1
    ∧ ((sourceState secondSource 501).source 15).state = .acquiring
    ∧ (400 : Int) ≤ (501 : Int) - latchTicks (Bits.get sampleWord.toNat 32 16) - secondSource.firstTick
    ∧ trackingSource.outRun = 0 ∧ 2 ≤ trackingSource.jumpConfirm ∧ Bits.bit farWord.toNat 49 = true
    ∧ trackingSource.jumpThreshold * 2 ^ 56
      < (trackingSource.fix (Bits.get farWord.toNat 0 32) (latchTicks (Bits.get farWord.toNat 32 16))).e.natAbs :=
  ⟨⟨rfl, rfl⟩, by decide +kernel⟩

theorem witness_PhaseSources_silent : (sourceState trackingSource 1000000).live = true
    ∧ (sourceState trackingSource 1000000).sourceSilent 15 = true
    ∧ (sourceState { state := .acquiring } 1000000).sourceSilent 15 = true
    ∧ (sourceState { state := .coasting } 1000000).live = true
    ∧ ((sourceState { state := .coasting } 1000000).source 15).enteredTick
      + cfgCoastUs ((sourceState { state := .coasting } 1000000).source 15).cfg * 400 < 1000000 := by
  decide +kernel

def strobed (p : Ptu) : State := { ready with ptu := p }

theorem witness_DeviceTimeFollows : ready.Up ∧ (strobed { everValid := true, inputValid := true, tick := 1200 }).Up
    ∧ (strobed { everValid := true, inputValid := true, tick := 1200 }).ptu.strobeTick + 1200 ≤ 1200
    ∧ ready.ptu.everValid = false ∧ ready.ptu.dt.toNat < (1 : Word).toNat * 2 ^ 32 ∧ ready.live = true
    ∧ (strobed { dt := 1 }).live = true ∧ (strobed { dt := 1 }).ptu.everValid = false ∧ (strobed { dt := 1 }).ptu.everLocked = false
    ∧ (0 : Word).toNat * 2 ^ 32 < (strobed { dt := 1 }).ptu.dt.toNat :=
  ⟨⟨rfl, rfl⟩, ⟨rfl, rfl⟩, by decide +kernel⟩

def fireWith (s : State) (f : Firing) (e : Event) : State :=
  { s with ptu := { s.ptu with tick := 50, firing := [f], events := [(f.idx, e)] } }
def commitFiring : Firing := { idx := 9, kind := .commit }
def commitEvent : Event := { kind := .commit, valid := true, target := 1 }
def committed (b : Bank) : State := fireWith { ready with banks := [(1, b)], policy := [(1, 0x2800)] } commitFiring commitEvent
def fractionBank : Bank := { items := [.integ 4 false 3], armed := some 9 }
def poorBank : Bank := { items := [.bind { cs := 3, session := 0, lsess := 0, slot := 0, fallback := 0, si := 0, se := 0, unbind := false }]
                         armed := some 9 }

theorem witness_CommitFires_boundary : (strobed { atEpoch := true }).Up ∧ (strobed { atEpoch := true }).ptu.atEpoch = true :=
  ⟨⟨rfl, rfl⟩, rfl⟩

theorem witness_CommitFires : (committed {}).Up ∧ (committed {}).ptu.firing = commitFiring :: [] ∧ (committed {}).ptu.atEpoch = false ∧ ((committed {}).bank 1).armed ≠ some 9
    ∧ (committed poorBank).Up ∧ ((committed poorBank).bank 1).armed = some 9
    ∧ (committed poorBank).downFail 1 ((committed poorBank).bank 1) = false
    ∧ ((committed poorBank).checkBank 1 (committed poorBank).epoch).isSome = true :=
  ⟨⟨rfl, rfl⟩, by decide +kernel, by decide +kernel, by decide +kernel, ⟨rfl, rfl⟩, by decide +kernel⟩

def committedFraction : State := holder (committed fractionBank) 1 { cs := 0x10 }

theorem witness_CommitFires_fraction : committedFraction.Up ∧ committedFraction.ptu.atEpoch = false ∧ (committedFraction.bank 1).armed = some 9
    ∧ (committedFraction.bank 1).items = [.integ 4 false 3] ∧ committedFraction.downFail 1 (committedFraction.bank 1) = false
    ∧ committedFraction.checkBank 1 committedFraction.epoch = none :=
  ⟨⟨rfl, rfl⟩, by decide +kernel⟩

def slotRun (seq : Nat) : SlotRun :=
  { seq := seq, rseq := 5, icTime := 0, icPhase := 0, flags := 0, input := .none, userTag := List.replicate 12 0, missing := true }
def aRecord : Record :=
  { header := List.replicate 64 0, payload := List.replicate 16 0, tag := 3, gcm := [], plain := List.replicate 16 0, status := 0, ready := true }
def streaming (slots : List SlotRun) : State :=
  oneStream tenant 255 { bound := true, win := 1, session := 3, seq := 6, se := 4, slots := slots }
def closeFiring : Firing := { idx := 9, kind := .inputClose }
def startFiring : Firing := { idx := 9, kind := .slotStart, slot := 6 }
def releaseFiring : Firing := { idx := 9, kind := .release, slot := 6 }
def streamEvent (k : EvKind) : Event := { kind := k, valid := true, target := 255 }
def closing : State := fireWith (streaming []) closeFiring (streamEvent .inputClose)
def starting (slots : List SlotRun) : State := fireWith (streaming slots) startFiring (streamEvent .slotStart)
def releasing (x : SlotRun) : State := fireWith (streaming [x]) releaseFiring (streamEvent .release)

theorem witness_SlotsOpenStartAndRelease : closing.live = true ∧ closing.ptu.firing = closeFiring :: [] ∧ closing.fm.state = .off
    ∧ (closing.event 9).target.toNat = 255 ∧ (closing.stream 255).bound = true
    ∧ (closing.session 3).state = .keyed ∧ (closing.session 3).faultAt = none
    ∧ (starting [slotRun 5, slotRun 6]).live = true ∧ (starting [slotRun 5, slotRun 6]).slotOf 255 6 = some (slotRun 6)
    ∧ (∀ z ∈ [slotRun 5, slotRun 6], z.seq = 6 → z = slotRun 6)
    ∧ ([slotRun 5, slotRun 6].any fun z => decide (z.seq < 6) && z.released.isNone) = true
    ∧ ((starting [slotRun 6]).stream 255).slots = [slotRun 6] ∧ (slotRun 6).missing = true ∧ (slotRun 6).rseq ≠ 0
    ∧ ((starting [slotRun 6]).session 3).state = .keyed ∧ (slotRun 6).released = none := by
  decide +kernel

theorem witness_SlotsOpenStartAndRelease_open : (fireWith tenant closeFiring (streamEvent .inputClose)).live = true
    ∧ ((fireWith tenant closeFiring (streamEvent .inputClose)).stream 255).bound = false
    ∧ (withSession closing 3 { keyed with state := .opened }).live = true
    ∧ (withSession closing 3 { keyed with state := .opened }).ptu.firing = closeFiring :: []
    ∧ ((withSession closing 3 { keyed with state := .opened }).session 3).state ≠ .keyed
    ∧ ((withSession closing 3 { keyed with faultAt := some 0 }).session 3).faultAt ≠ none := by
  decide +kernel

def complete : SlotRun := { slotRun 6 with missing := false }
def startingPlanned : State := withPlan (starting [complete]) .measured

theorem witness_SlotsOpenStartAndRelease_start : startingPlanned.live = true ∧ startingPlanned.ptu.firing = startFiring :: []
    ∧ startingPlanned.slotOf 255 6 = some complete ∧ complete.released = none ∧ complete.rseq ≠ 0
    ∧ (startingPlanned.session 3).faultAt = none ∧ (startingPlanned.session 3).state ≠ .faulted
    ∧ (startingPlanned.stream 255).slots = [complete] ∧ complete.missing = false ∧ (startingPlanned.stream 255).shed = false
    ∧ startingPlanned.fm.state = .off ∧ (startingPlanned.plan (startingPlanned.stream 255).win).running ≠ none := by
  decide +kernel

theorem witness_SlotsOpenStartAndRelease_release : (releasing { slotRun 6 with computed := some aRecord }).Up
    ∧ (releasing { slotRun 6 with computed := some aRecord }).releaseSlot 255 releaseFiring false
      = some { slotRun 6 with computed := some aRecord } ∧ aRecord.ready = true
    ∧ (releasing { slotRun 6 with fallback := some aRecord }).Up
    ∧ (releasing { slotRun 6 with fallback := some aRecord }).releaseSlot 255 releaseFiring false
      = some { slotRun 6 with fallback := some aRecord }
    ∧ (releasing { slotRun 6 with mismatch := some aRecord }).Up
    ∧ (releasing { slotRun 6 with mismatch := some aRecord }).releaseSlot 255 releaseFiring false
      = some { slotRun 6 with mismatch := some aRecord }
    ∧ ((releasing { slotRun 6 with fallback := some aRecord }).stream 255).bound = true
    ∧ ((releasing { slotRun 6 with fallback := some aRecord }).session 3).state = .keyed
    ∧ ((releasing { slotRun 6 with fallback := some aRecord }).session 3).faultAt = none
    ∧ ((releasing { slotRun 6 with fallback := some aRecord }).stream 255).slots = [{ slotRun 6 with fallback := some aRecord }]
    ∧ (slotRun 6).timed = false :=
  ⟨⟨rfl, rfl⟩, by decide +kernel, by decide +kernel, ⟨rfl, rfl⟩, by decide +kernel, ⟨rfl, rfl⟩, by decide +kernel⟩

/-- A raw frame of stream 255 with 64 bytes. -/
def aFrame : RawFrame := { bytes := [255, 0, 2, 0, 64, 0, 0, 0] ++ List.replicate 24 0 ++ List.replicate 64 1 }
def aCalendar : Calendar :=
  { cs := 255, phase := false, source := 0, timed := false, phaseRelease := false, nOrPitch := 0, anchor := 0, startDelay := 0
    release := 0, budget := 0, standstillPitch := 0, model := 0, input := 0, inputSecond := 0, windowBytes := 64 }
def framing (slots : List SlotRun) : State :=
  { holder (streaming slots) 1 { bits := 0x0101_0000 } with plans := [(1, { running := some { smallPlan with calendars := [aCalendar] } })] }

/-- The same, with an INPUT_CLOSE of the stream still to come in this tick. -/
def framingLate : State := fireWith (framing []) closeFiring (streamEvent .inputClose)

theorem witness_RecordsEnterAndLeave_frames : ready.Up ∧ ready.attributed 3 255 aFrame.bytes = false ∧ (framing []).Up
    ∧ (framing []).attributed 0 (Bytes.num aFrame.bytes 0 2) aFrame.bytes = true ∧ aFrame.bytes.length = 32 + Bytes.num aFrame.bytes 4 4
    ∧ (framing []).ingressUsed 0 + 64 ≤ 32768 ∧ (framing []).noSlots 255 = false ∧ (framing []).calendarOf 255 = some aCalendar
    ∧ aCalendar.windowBytes = Bytes.num aFrame.bytes 4 4 ∧ ((framing []).frameWindow 255).frame = none ∧ (framing []).closing 255 = false
    ∧ (framingLate.frameWindow 255).frame = none ∧ framingLate.closing 255 = true
    ∧ ((aFrame.ts.toNat : Int) - (framing []).now).natAbs ≤ 1000 ∧ ((framing []).stream 255).inFlight = false
    ∧ ((framing [slotRun 6]).stream 255).inFlight = true :=
  ⟨⟨rfl, rfl⟩, by decide +kernel, ⟨rfl, rfl⟩, by decide +kernel⟩

/-- A SAMPLE frame of stream 255 with 64 bytes, sealed under the session's key with counter 1. -/
def sampling : State := { framing [] with keys := { ska := [(3, { key := some 5 })] } }
def sampleHead : Bytes := [255, 0, 1, 0, 64, 0, 0, 0, 1, 0, 0, 0, 0, 0, 0, 0] ++ List.replicate 16 0
def sampleText : Bytes := List.replicate 64 3
def sampleKey : BitVec 256 := 5 ^^^ sampling.keys.mask 3 0
def sampleTag : Bytes := Bytes.big (gcmTag sampleKey (gcmNonce 1 255 1) sampleHead sampleText)
def sampleFrame : RawFrame := { bytes := sampleHead ++ sampleText ++ sampleTag }

theorem witness_RecordsEnterAndLeave_sample :
    (∃ u, sampling.openFrame 255 sampleFrame = some (gcmStream sampleKey (gcmNonce 1 255 1) sampleText, u))
      ∧ (gcmStream sampleKey (gcmNonce 1 255 1) sampleText).length = 64 ∧ sampleFrame.bytes.length = 48 + 64 := by
  have tag : sampleTag.length = 16 := by simp [sampleTag]
  have slice : Bytes.slice sampleFrame.bytes 96 16 = sampleTag := by
    simp [sampleFrame, Bytes.slice, sampleHead, sampleText, tag]
  refine ⟨?_, by simp [sampleText], by simp [sampleFrame, sampleHead, sampleText, tag]⟩
  have key : sampling.sessionKey 3 = some sampleKey := rfl
  have opens : gcmUnseal sampleKey (gcmNonce 1 255 1) (sampleFrame.bytes.take 32) (Bytes.slice sampleFrame.bytes 32 64)
      (Bytes.slice sampleFrame.bytes 96 16) = some (gcmStream sampleKey (gcmNonce 1 255 1) sampleText) := by
    rw [slice]; exact if_pos rfl
  have st : (sampling.stream 255).session = 3 := by decide +kernel
  have old : (sampling.session 3).oldKeys = [] := by decide +kernel
  have n : Bytes.num sampleFrame.bytes 4 4 = 64 := rfl
  have c : Bytes.num sampleFrame.bytes 8 8 = 1 := rfl
  have last : (sampling.stream 255).lastCounter = 0 := by decide +kernel
  have early : sampleFrame.early = false := rfl
  simp only [State.openFrame, st, old, key, n, c, last, early, Bool.false_and, Bool.false_eq_true, if_false, Nat.reduceAdd, opens]
  simp

def aGood : GoodFrame := { plaintext := [1], second := [1], userTag := [] }
def waitingFrame : State := oneStream tenant 255 { bound := true, win := 1, session := 3, waiting := [(6, aGood)], slots := [slotRun 6] }
def leavingRec : SlotRun := { slotRun 6 with computed := some aRecord, released := some (50, .computed) }
def leavingAt (at0 : Nat) : SlotRun := { leavingRec with released := some (at0, .computed), held := decide (at0 < 50) }
def leavingState (at0 : Nat) : State := { streaming [leavingAt at0] with ptu := { tick := 50 } }

theorem witness_RecordsEnterAndLeave : waitingFrame.Up ∧ (waitingFrame.stream 255).waiting = [(6, aGood)]
    ∧ (∀ x ∈ (waitingFrame.stream 255).slots, x.released ≠ none ∨ 6 ≤ x.seq)
    ∧ (leavingState 50).Up ∧ (leavingState 50).leaving 255 = some (leavingAt 50, aRecord, 50)
    ∧ (leavingState 49).leaving 255 = some (leavingAt 49, aRecord, 49) ∧ (leavingAt 49).held = true
    ∧ (leavingState 49).Up
    ∧ (leavingState 50).portFree 255 = true ∧ (leavingState 50).portTurn 255 (leavingAt 50) = true
    ∧ (leavingState 49).portTurn 255 (leavingAt 49) = true ∧ (leavingState 50).ptu.tick = 50 ∧ ((leavingState 50).session 3).state ≠ .closing
    ∧ (leavingAt 50).folded = false ∧ (leavingAt 49).folded = false
    ∧ ((streaming [{ slotRun 6 with computed := some { aRecord with ready := false } }]).stream 255).slots.find?
      (fun y => !y.left && y.unready .computed) = some { slotRun 6 with computed := some { aRecord with ready := false } } :=
  ⟨⟨rfl, rfl⟩, by decide +kernel, by decide +kernel, ⟨rfl, rfl⟩, by decide +kernel, by decide +kernel, by decide +kernel, ⟨rfl, rfl⟩,
    by decide +kernel⟩

def jobRec : JobRec := { payload := [1], flags := 0, formed := 7, seq := 1, rseq := 1, planGen := 0, keyxGen := 0, redo := false }
def writingJob : State :=
  { oneJob tenant 1023 { active := true, win := 1, session := 3, ringEntries := 16, ready := [jobRec] } with
    keys := { ska := [(3, { key := some 5 })] } }

theorem witness_RecordsEnterAndLeave_job : writingJob.Up ∧ (writingJob.job 1023).active = true
    ∧ (writingJob.job 1023).ready = jobRec :: [] ∧ (writingJob.job 1023).ringFull = false
    ∧ (writingJob.sessionKey 3).isSome = true ∧ writingJob.fm.state = .off :=
  ⟨⟨rfl, rfl⟩, by decide +kernel⟩

/-! Tile programs. -/

/-- A region descriptor of rows 0 and 1 of Arcade 15, and the page at the start of its segment, both owned by session 3. -/
def aRegion (scratch : Bool) : Region :=
  { firstRow := 0, lastRow := 1, session := 3, vi := 1, world := 2, scratch := scratch, valid := true
    state := if scratch then .empty else .measured }
def aPage : OmapEntry := { session := 3, vi := 1, world := 2, valid := true }

/-- A job's program of these words on Arcade 15, with its span issued. -/
def progOf (words : List Word) : Prog :=
  { role := .job 1, win := 1, session := 3
    plan := { smallPlan with
      programs := [{ arcade := 15, control := false, accFirst := 0, accLast := 3, words := words }]
      outputs := [{ fmt := 0, rounding := 0, satMode := true, act := 0, cols := 16, sh := 0, arcades := 0x8000, lut := 255, scale := 0
                    zeroPoint := 0, lo := 0, hi := 127, bias := List.replicate 16 0, scaleVec := [] }]
      reductions := [{ dest := 15, parts := 2, recvRow := 0, rows := 1, digest := false, sources := [14] }] }
    schedule := 0, program := 0, ads := 0x3C0_0000 :: List.replicate 15 0, atBoundary := false, valid := [0, 1] }
def word (op rest : Nat) : Word := BitVec.ofNat 64 (op * 2 ^ 58 + rest)
def tileProg (p : Prog) : State :=
  { tenant with arc := [(15, { running := some p, regions := [(0, aRegion false)] })], pz := { omap := [(61440, aPage)] } }
def tileState (words : List Word) : State := tileProg (progOf words)

/-- The fields of a TILE of INT8 (R129): no operand but the first row, one step of one group. -/
def tileWords : List Word := [word 1 (2 ^ 39), 0]
def theTile : TileInstr := .tile 0 0 0 0 true 0 1 1 0 0 0 0 0 0 0 0

theorem test_words_decode :
    decodeWords [word 0 0] = some (.nop, 1)
    ∧ decodeWords tileWords = some (theTile, 2)
    ∧ decodeWords [word 2 (3 * 2 ^ 51 + 1 * 2 ^ 44 + 5 * 2 ^ 36 + 2 * 2 ^ 32 + 1 * 2 ^ 30 + 9 * 2 ^ 18)] = some (.out 3 2 5 2 1 9, 1)
    ∧ decodeWords [word 3 (4 * 2 ^ 54 + 7 * 2 ^ 50 + 2 ^ 49 + 0xFFFF_FFFF)] = some (.seta 4 7 true 0xFFFF_FFFF, 1)
    ∧ decodeWords [word 4 (4095 * 2 ^ 46)] = some (.loop 4096, 1)
    ∧ decodeWords [word 5 0] = some (.endl, 1)
    ∧ decodeWords [word 6 (3 * 2 ^ 51 + 1 * 2 ^ 44 + 6 * 2 ^ 36 + 15 * 2 ^ 32 + 2 ^ 31)] = some (.send 3 2 6 15 true, 1)
    ∧ decodeWords [word 7 (6 * 2 ^ 36)] = some (.comb 6, 1)
    ∧ decodeWords [word 8 (14 * 2 ^ 54 + 13 * 2 ^ 50)] = some (.signal 14 13, 1)
    ∧ decodeWords [word 9 (3 * 2 ^ 54 + 4095 * 2 ^ 42 + 65535 * 2 ^ 26)] = some (.wait 3 4095 65535, 1)
    ∧ decodeWords [word 0xA (1 * 2 ^ 54 + 2 * 2 ^ 50 + 4095 * 2 ^ 38)] = some (.move 1 2 4096, 1)
    ∧ decodeWords [word 0xB 0] = some (.bound, 1) ∧ decodeWords [word 0xF 0] = some (.tend, 1) := by decide +kernel

/-- Reserved opcodes, reserved fields that are not zero, and field values out of range do not decode (R128, R129, R134, R135). -/
theorem test_words_refused :
    decodeWords [word 0xC 0] = none ∧ decodeWords [word 0x10 0] = none ∧ decodeWords [word 0 1] = none ∧ decodeWords [word 1 0] = none
    ∧ decodeWords [word 1 (5 * 2 ^ 47), 0] = none ∧ decodeWords [word 1 (4 * 2 ^ 54 + 15 * 2 ^ 35), 0] = none
    ∧ decodeWords [word 1 (2 * 2 ^ 24 + 2 ^ 13), 0] = none ∧ decodeWords [word 2 (3 * 2 ^ 30)] = none
    ∧ decodeWords [word 6 (6 * 2 ^ 36)] = none ∧ decodeWords [word 9 (2 ^ 26)] = none ∧ decodeWords [word 9 (2 ^ 42)] = none := by
  decide +kernel

theorem witness_TileControlWords : (tileState [word 0 0]).Up ∧ ((tileState [word 0 0]).arcade 15).running = some (progOf [word 0 0])
    ∧ (progOf [word 0 0]).atBoundary = false ∧ (progOf [word 0 0]).poisoned = false ∧ (progOf [word 0 0]).role ≠ .check
    ∧ (progOf [word 0 0]).instr = some (.nop, 1) ∧ (progOf [word 3 (15 * 2 ^ 54 + 2 ^ 49 + 64)]).instr = some (.seta 15 0 true 64, 1)
    ∧ (progOf [word 4 0]).instr = some (.loop 1, 1) ∧ (progOf [word 5 0]).instr = some (.endl, 1)
    ∧ ({ progOf [word 5 0] with loops := [(0, 2)] } : Prog).loops = (0, 2) :: []
    ∧ (progOf [word 8 (14 * 2 ^ 54)]).instr = some (.signal 14 0, 1)
    ∧ Tab.get 0 ((tileState []).arcade 14).sy 0 < 4095 ∧ (progOf [word 9 (2 ^ 42 + 2 ^ 26)]).instr = some (.wait 0 1 1, 1)
    ∧ Tab.get 0 ((tileState []).arcade 15).sy 0 < 1
    ∧ 1 ≤ Tab.get 0 (State.arcade { tenant with arc := [(15, { sy := [(0, 1)] })] } 15).sy 0
    ∧ (tileState [word 8 (14 * 2 ^ 54)]).sending 15 (progOf [word 8 (14 * 2 ^ 54)]) = false
    ∧ 4095 ≤ Tab.get 0 (State.arcade { tenant with arc := [(14, { sy := [(0, 4095)] })] } 14).sy (syKey (progOf []).gen 0)
    ∧ ({ progOf [word 8 0] with role := .check } : Prog).instr = some (.signal 0 0, 1)
    ∧ ({ progOf [word 9 (2 ^ 42 + 2 ^ 26)] with role := .check } : Prog).instr = some (.wait 0 1 1, 1) :=
  ⟨⟨rfl, rfl⟩, by decide +kernel⟩

def theOp : TileOp := { act := 0, wt := 0, fan := 0, accRow := 0, clear := true, ad := 0, steps := 1, kpr := 1, t0 := 0, aR := 0, aK := 0
                        aG := 0, wR := 0, wK := 0, sK := 0, sR := 0 }

theorem witness_TileDataWords : (tileState tileWords).Up ∧ (progOf tileWords).instr = some (theTile, 2) ∧ Mode.ofPair 0 0 = some .int8
    ∧ (tileState tileWords).pz.poison = [] ∧ ((tileState tileWords).arcade 15).alsPoison = []
    ∧ (tileState tileWords).sending 15 (progOf tileWords) = false ∧ ((tileState tileWords).arcade 15).sidePoison = [] ∧ ((tileState tileWords).arcade 15).accPoison = []
    ∧ (∀ x ∈ theOp.reads .int8 (progOf tileWords).address 0, segOf x = 15 ∧ (tileState tileWords).pageOk 31 3 x = true)
    ∧ (tileState tileWords).rowReadable 15 3 (0 + theOp.subtile 0 / theOp.subsPerRow .int8) = true :=
  ⟨⟨rfl, rfl⟩, by decide +kernel⟩

def anOut : List Word := [word 2 0]
def alsOut : List Word := [word 2 (2 ^ 32 + 2 ^ 30)]
def alsOutState : State :=
  { tenant with arc := [(15, { running := some (progOf alsOut), regions := [(0, aRegion true)] })] }
def recordOut : List Word := [word 2 (2 ^ 32 + 2 ^ 31)]
/-- The lines that the OUT of one row of 16 INT8 codes writes: one line, where the register points. -/
def outDesc : OutDesc :=
  { fmt := 0, rounding := 0, satMode := true, act := 0, cols := 16, sh := 0, arcades := 0x8000, lut := 255, scale := 0
    zeroPoint := 0, lo := 0, hi := 127, bias := List.replicate 16 0, scaleVec := [] }
def outAt (addr : Nat) : List (Nat × Bytes) :=
  outLines addr (outDesc.row none (List.replicate 128 0)).1 (outDesc.row none (List.replicate 128 0)).2.1

theorem witness_TileDataWords_lines : (progOf anOut).plan.outputs[0]? = some outDesc ∧ ((tileState anOut).arcade 15).accRow 0 = List.replicate 128 0
    ∧ (progOf anOut).plan.luts[outDesc.lut]? = none
    ∧ (∀ y ∈ outAt ((progOf anOut).address 0 + 0 * 0 * 64), segOf y.1 = 15 ∧ (tileState anOut).pageOk 31 3 y.1 = true)
    ∧ ∀ y ∈ outAt ((progOf alsOut).address 1 + 0 * 0 * 64), y.1 < 2 ^ 21 ∧ alsOutState.rowWritable 15 3 (y.1 / 8192) = true := by
  decide +kernel

theorem witness_TileDataWords_out : (tileState anOut).Up ∧ (progOf anOut).instr = some (.out 0 1 0 0 0 0, 1)
    ∧ alsOutState.Up ∧ (progOf alsOut).instr = some (.out 0 1 0 1 1 0, 1) ∧ (progOf recordOut).instr = some (.out 0 1 0 1 2 0, 1)
    ∧ ((progOf anOut).plan.outputs[0]?).isSome = true ∧ (∀ k, k < 1 → 0 + k ∈ (progOf anOut).valid)
    ∧ segOf ((progOf anOut).address 0) = 15 ∧ (tileState anOut).pageOk 31 3 ((progOf anOut).address 0 + 127) = true
    ∧ alsOutState.rowWritable 15 3 0 = true :=
  ⟨⟨rfl, rfl⟩, by decide +kernel, ⟨rfl, rfl⟩, by decide +kernel⟩

def aSend : List Word := [word 6 (2 ^ 32)]
def aComb : List Word := [word 7 0]
def combState : State := { tenant with arc := [(15, { running := some (progOf aComb), parts := [(partKey 0 0 1, true)] })] }
def aMove : List Word := [word 0xA (2 ^ 38)]

/-- A SEND whose part the partner block combines. -/
def farSend : Prog :=
  { progOf aSend with plan := { (progOf aSend).plan with remotes := [{ reduction := 0, mask := 2, destRemote := true }] } }

theorem witness_TileDataWords_far : (tileProg farSend).Up ∧ farSend.instr = some (.send 0 1 0 1 false, 1) ∧ farSend.plan.destRemote 0 = true
    ∧ (tileProg farSend).sending 15 farSend = false :=
  ⟨⟨rfl, rfl⟩, by decide +kernel⟩

theorem witness_TileDataWords_parts : (tileState aSend).Up ∧ (progOf aSend).instr = some (.send 0 1 0 1 false, 1)
    ∧ ((progOf aSend).plan.reductions[0]?).isSome = true ∧ (progOf aSend).plan.destRemote 0 = false
    ∧ (progOf aComb).instr = some (.comb 0, 1) ∧ ((tileState aComb).arcade 15).allArrived 0 0 2 = false ∧ combState.Up
    ∧ (combState.arcade 15).allArrived 0 0 2 = true
    ∧ (((progOf aComb).plan.reductions[0]?).all fun r => !(combState.arcade 15).badPart (progOf aComb) 0 0 r) = true ∧ (progOf aMove).instr = some (.move 0 0 2, 1)
    ∧ (∀ k, k < 2 → (tileState aMove).pageOk 31 3 ((progOf aMove).address 0 / 64 * 64 + 64 * k) = true) :=
  ⟨⟨rfl, rfl⟩, by decide +kernel, by decide +kernel, by decide +kernel, by decide +kernel, by decide +kernel, ⟨rfl, rfl⟩, by decide +kernel⟩

/-! The ends of programs, checks and dual runs. -/

def capturing : Check :=
  { checker := 14, session := 3, win := 1, plan := smallPlan, schedule := 0, origin := 1, isJob := true, pc := 0, loops := [], ads := []
    instCount := 4 }
def withChecks (ks : List Check) (s : State) : State := s.onArc 15 fun c => { c with checks := ks }
def boundProg : Prog := { progOf [word 0xB 0] with inst := 4 }
def endProg (r : RunRole) : Prog := { progOf [word 0xF 0] with role := r }
def endSlot : SlotRun := { slotRun 6 with missing := false, runners := [(15, 0)] }
def endingSlot : State := { streaming [endSlot] with arc := [(15, { running := some (endProg (.slot 255 6)) })] }
def endingJob : State :=
  { oneJob tenant 1 { active := true, win := 1, session := 3, runners := [15] } with arc := [(15, { running := some (endProg (.job 1)) })] }

theorem witness_ProgramsEndAndQueue : (withChecks [capturing] (tileProg boundProg)).Up
    ∧ ((withChecks [capturing] (tileProg boundProg)).arcade 15).running = some boundProg ∧ boundProg.atBoundary = false
    ∧ (withChecks [capturing] (tileProg boundProg)).sending 15 boundProg = false ∧ endingSlot.sending 15 (endProg (.slot 255 6)) = false
    ∧ endingJob.sending 15 (endProg (.job 1)) = false ∧ boundProg.ending = false ∧ boundProg.instr = some (.bound, 1)
    ∧ (∀ k ∈ ((withChecks [capturing] (tileProg boundProg)).arcade 15).checks, k.stage = .capturing)
    ∧ endingSlot.live = true ∧ endingSlot.fm.state = .off ∧ (endProg (.slot 255 6)).instr = some (.tend, 1)
    ∧ endingSlot.slotOf 255 6 = some endSlot ∧ (endSlot.runners.find? fun r => r.1 == 15) = some (15, 0) ∧ endSlot.dual = .single
    ∧ endingJob.live = true ∧ (endingJob.arcade 15).running = some (endProg (.job 1)) ∧ (endingJob.job 1).active = true
    ∧ (endingJob.job 1).ready = [] ∧ (endingJob.job 1).runners = [15] ∧ (endingJob.job 1).runs = [] ∧ (∀ e ∈ endingJob.jobEntries 1, endingJob.noPrograms e.2.arcade = false) ∧ (endProg (.job 1)).ending = false :=
  ⟨⟨rfl, rfl⟩, by decide +kernel⟩

def anInPart : InPart := { rdesc := 0, part := 1, row := 2, rows := [List.replicate 128 1], digest := 0 }
def arriving : State := { tenant with arc := [(15, { inFlight := [anInPart] })] }
def stuckProg (comb : Bool) : Prog := { progOf [] with waiting := some (if comb then .parts 0 0 else .counter 0 1 1 0) }
def queued : State := { tenant with arc := [(15, { queue := [{ prog := progOf [] }] })] }
def bulked : State := { tenant with arc := [(15, { bulk := [progOf []] })] }
def faultedSession (at0 : Nat) : State := withSession ready 16383 { keyed with faultAt := some at0 }

theorem witness_ProgramsEndAndQueue_rest : arriving.Up
    ∧ ((arriving.arcade 15).inFlight.find? fun y => y.rdesc == 0 && y.part == 1) = some anInPart
    ∧ (tileProg (stuckProg false)).live = true
    ∧ (late 1000000000 (tileProg (stuckProg false))).stuckAt 15 false = some (stuckProg false)
    ∧ (late 1000000000 (tileProg (stuckProg true))).stuckAt 15 true = some (stuckProg true)
    ∧ ((tileProg (stuckProg true)).session 3).state = .keyed ∧ ((tileProg (stuckProg true)).session 3).faultAt = none
    ∧ queued.Up ∧ (queued.arcade 15).running = none ∧ (queued.arcade 15).queue = { prog := progOf [] } :: [] ∧ bulked.Up
    ∧ (bulked.arcade 15).running = none ∧ (bulked.arcade 15).queue = [] ∧ (bulked.arcade 15).bulk = progOf [] :: []
    ∧ (faultedSession 0).live = true ∧ ((faultedSession 0).session 16383).faultAt = some 0
    ∧ (faultedSession 0).allReleased 16383 = true ∧ ((faultedSession 0).session 16383).state ≠ .free :=
  ⟨⟨rfl, rfl⟩, by decide +kernel, by decide +kernel, by decide +kernel, by decide +kernel, by decide +kernel, by decide +kernel,
    ⟨rfl, rfl⟩, by decide +kernel, by decide +kernel, ⟨rfl, rfl⟩, by decide +kernel⟩

def running1 : Check := { capturing with stage := .running }
def checkState (k : Check) : State :=
  { tenant with arc := [(15, { checks := [k] }), (14, { integ := .inService, checking := some (15, 4), checkQueue := [(15, 4)] })] }
def idleChecker (k : Check) : State :=
  { tenant with arc := [(15, { checks := [k] }), (14, { integ := .inService, checkQueue := [(15, 4)] })] }
/-- What the rerun of this check gives: its span is empty. -/
def rerunSig : BitVec 128 := (capturing.rerun 0).signature

theorem witness_ChecksRun : (checkState capturing).Up
    ∧ (((checkState capturing).arcade 15).checks.find? fun x => x.stage == .capturing) = some capturing ∧ capturing.checker < 16
    ∧ (∀ c, c < 16 → ((checkState capturing).arcade c).integ ≠ .probation)
    ∧ (idleChecker { capturing with stage := .queued }).Up ∧ ((idleChecker { capturing with stage := .queued }).arcade 14).checking = none
    ∧ ((idleChecker { capturing with stage := .queued }).arcade 14).checkQueue = (15, 4) :: []
    ∧ ((idleChecker { capturing with stage := .queued }).arcade 14).atCheck = true
    ∧ ((idleChecker { capturing with stage := .queued }).arcade 14).checks? = true ∧ (idleChecker { capturing with stage := .queued }).quarterOut 14 = false
    ∧ (checkState { capturing with checker := 16 }).checkOf 15 4 = some { capturing with checker := 16 } ∧ capturing.primarySig = none
    ∧ (idleChecker { capturing with stage := .queued }).checkOf 15 4 = some { capturing with stage := .queued } :=
  ⟨⟨rfl, rfl⟩, by decide +kernel, by decide +kernel, by decide +kernel, ⟨rfl, rfl⟩, by decide +kernel⟩

theorem witness_ChecksRun_complete : (checkState running1).live = true ∧ ((checkState running1).arcade 14).checking = some (15, 4)
    ∧ ((checkState running1).arcade 14).checks? = true ∧ (checkState running1).checkOf 15 4 = some running1 ∧ ((checkState running1).arcade 14).noControl = true
    ∧ (((checkState running1).onArc 14 fun c => { c with checking := none }).runCheck 15 14 running1 []).2 = some rerunSig
    ∧ (((checkState running1).onArc 14 fun c => { c with checking := none }).runCheck 15 14 running1 []).1.checkOf 15 4 = some running1
    ∧ (((checkState { running1 with primarySig := some rerunSig }).onArc 14 fun c => { c with checking := none }).runCheck 15 14
        { running1 with primarySig := some rerunSig } []).2 = some rerunSig := by
  decide +kernel

/-- A check whose rerun ends with a fault: its TILE reads a region that is not there. -/
def badCheck (st : CheckStage) : Check :=
  { capturing with stage := st, plan := { smallPlan with programs := [{ arcade := 15, control := false, accFirst := 0, accLast := 3, words := tileWords }] }
                   referee := some 13 }
def refereed (k : Check) : State := { tenant with arc := [(15, { integ := .inService, checks := [k] }), (14, { integ := .inService }), (13, { integ := .inService })] }
def refCheck (p c : Option (BitVec 128)) : Check :=
  { capturing with stage := .refereeing, referee := some 13, primarySig := p, checkerSig := c }

theorem witness_ChecksRun_referee :
    (((checkState (badCheck .running)).onArc 14 fun c => { c with checking := none }).runCheck 15 14 (badCheck .running) []).2 = none
    ∧ ((refereed (badCheck .refereeing)).runCheck 15 13 (badCheck .refereeing) []).2 = none
    ∧ (refereed (refCheck none none)).live = true ∧ (refereed (refCheck none none)).checkAt 15 .refereeing = some (refCheck none none)
    ∧ ((refereed (refCheck none none)).runCheck 15 13 (refCheck none none) []).2 = some rerunSig
    ∧ (refCheck none none).primarySig ≠ some rerunSig ∧ (refCheck (some rerunSig) none).primarySig = some rerunSig
    ∧ ((refereed (refCheck (some rerunSig) none)).runCheck 15 13 (refCheck (some rerunSig) none) []).2 = some rerunSig
    ∧ (((refereed (refCheck (some rerunSig) none)).runCheck 15 13 (refCheck (some rerunSig) none) []).1.arcade 14).integ = .inService
    ∧ (((refereed (refCheck (some rerunSig) none)).runCheck 15 13 (refCheck (some rerunSig) none) []).1.checkOf 15 4).isSome = true := by
  decide +kernel

/-- The referee sides with the checker, and with the primary against a checker in the partner block. -/
def primaryWrong : Check := refCheck none (some rerunSig)
def farWrong : Check := { refCheck (some rerunSig) none with checker := 16 }

theorem witness_ChecksRun_blame : ((refereed primaryWrong).runCheck 15 13 primaryWrong []).2 = some rerunSig
    ∧ primaryWrong.primarySig ≠ some rerunSig ∧ primaryWrong.checkerSig = some rerunSig
    ∧ (((refereed primaryWrong).runCheck 15 13 primaryWrong []).1.arcade 15).integ = .inService
    ∧ (((refereed primaryWrong).runCheck 15 13 primaryWrong []).1.checkOf 15 4).isSome = true ∧ ((refereed primaryWrong).arcade 13).noControl = true
    ∧ (refereed primaryWrong).canRun 13 = true
    ∧ State.canRun { refereed primaryWrong with health := { qc := [(3, { state := .failed })] } } 13 = false
    ∧ ((refereed farWrong).runCheck 15 13 farWrong []).2 = some rerunSig ∧ farWrong.primarySig = some rerunSig ∧ 16 ≤ farWrong.checker := by
  decide +kernel

def repeating : State := { tenant with arc := [(15, { checks := [{ capturing with stage := .repeating, repeatOf := some (14, 0) }] })] }
def windowFiring : Firing := { idx := 4095, kind := .checkWindow }
def windowState : State := fireWith (checkState capturing) windowFiring { kind := .checkWindow, valid := true, target := 15 }

theorem witness_ChecksRun_repeat : repeating.live = true
    ∧ repeating.checkAt 15 .repeating = some { capturing with stage := .repeating, repeatOf := some (14, 0) }
    ∧ (repeating.arcade 14).noControl = true ∧ repeating.quarterOut 14 = false ∧ windowState.live = true ∧ windowState.ptu.firing = windowFiring :: [] := by
  decide +kernel

def runOut (a g : Nat) : RunOut := { arcade := a, group := g, payload := [], flags := 0, sigs := [] }
def dualSlot (g1 : RunOut) : SlotRun :=
  { slotRun 6 with dual := .waiting, runners := [(0, 0), (1, 1)], runs := [runOut 0 0, g1] }
def otherOut : RunOut := { runOut 1 1 with sigs := [5] }
def dualState (x : SlotRun) : State :=
  { streaming [x] with plans := [(1, { running := some { smallPlan with schedules := [], calendars := [aCalendar] } })] }
def refSlot (g : RunOut) : SlotRun :=
  { slotRun 6 with dual := .referee, runners := [(0, 0), (1, 1), (2, 2)], runs := [runOut 0 0, otherOut, g] }

/-- Two equal runs whose third ends after them, and two that differ while the third still runs. -/
def equalThird : SlotRun := { refSlot (runOut 2 2) with dual := .equal }
def thirdWaits : SlotRun := { dualSlot otherOut with runners := [(0, 0), (1, 1), (2, 2)] }

/-- Three runs whose Arcades 0 and 1 have read windows of their own on pages 0 and 4096. -/
def inBuffer (page : Nat) : Buffer := { base := 1024 * page, pages := 1, lsess := 0, use := 1 }
def inputPlan : Plan :=
  let e (kind n : Nat) : Schedule := { trigger := 255, kind := kind, arcade := n, program := 0, region := 0, ads := [n, 0xFFFF], lsess := 0, ckJob := false }
  { smallPlan with schedules := [e 0 0, e 1 1], calendars := [aCalendar], buffers := [inBuffer 0, inBuffer 4096] }
def inputRuns (byte : Byte) : State :=
  { streaming [thirdWaits] with
    plans := [(1, { running := some inputPlan })], pz := { omap := [(0, aPage), (4096, aPage)], mem := if byte = 0 then [] else [(5, byte)] } }

theorem witness_DualRunsSettle_inputs : (inputRuns 0).live = true ∧ (inputRuns 7).live = true
    ∧ ((inputRuns 7).stream 255).slots = [thirdWaits]
    ∧ inputPlan.inputOf ((inputRuns 0).entriesOf inputPlan 255 thirdWaits 0) = [inBuffer 0]
    ∧ inputPlan.inputOf ((inputRuns 0).entriesOf inputPlan 255 thirdWaits 1) = [inBuffer 4096]
    ∧ (∀ b ∈ [inBuffer 0, inBuffer 4096], (inputRuns 7).bufferOk (0x10 + segOf b.base) 3 b = true)
    ∧ (inputRuns 0).contents [inBuffer 0] = (inputRuns 0).contents [inBuffer 4096]
    ∧ (inputRuns 7).contents [inBuffer 0] ≠ (inputRuns 7).contents [inBuffer 4096] := by decide +kernel

theorem witness_DualRunsSettle : (dualState (dualSlot (runOut 1 1))).live = true
    ∧ (((dualState (dualSlot (runOut 1 1))).stream 255).slots.find? fun y => y.dual == .waiting && !y.fault && y.rseq != 0 && y.groupDone 0
        && ((dualState (dualSlot (runOut 1 1))).otherRun 255 y).isSome) = some (dualSlot (runOut 1 1))
    ∧ (dualState (dualSlot (runOut 1 1))).otherRun 255 (dualSlot (runOut 1 1))
      = some ((dualSlot (runOut 1 1)).outcome (dualSlot (runOut 1 1)).len 0)
    ∧ (dualState (dualSlot otherOut)).otherRun 255 (dualSlot otherOut)
      ≠ some ((dualSlot otherOut).outcome (dualSlot otherOut).len 0)
    ∧ ((dualSlot otherOut).runners.any fun r => r.2 == 2) = false
    ∧ ((dualState (dualSlot otherOut)).runEntries { smallPlan with schedules := [], calendars := [aCalendar] } 255).2.2 = []
    ∧ ((dualState (refSlot (runOut 2 2))).stream 255).slots.find? (fun y => (y.dual == .referee || y.dual == .equal) && !y.fault && y.groupDone 2)
      = some (refSlot (runOut 2 2))
    ∧ (refSlot (runOut 2 2)).outcome 16 2 = (refSlot (runOut 2 2)).outcome 16 0
    ∧ (refSlot { runOut 2 2 with sigs := [9] }).outcome 16 2 ≠ (refSlot { runOut 2 2 with sigs := [9] }).outcome 16 0
    ∧ (dualState (refSlot { runOut 2 2 with sigs := [9] })).otherRun 255 (refSlot { runOut 2 2 with sigs := [9] })
      ≠ some ((refSlot { runOut 2 2 with sigs := [9] }).outcome 16 2)
    ∧ (dualState (refSlot { runOut 2 2 with sigs := [5] })).otherRun 255 (refSlot { runOut 2 2 with sigs := [5] })
      = some ((refSlot { runOut 2 2 with sigs := [5] }).outcome 16 2)
    ∧ (refSlot { runOut 2 2 with sigs := [5] }).outcome 16 2 ≠ (refSlot { runOut 2 2 with sigs := [5] }).outcome 16 0
    ∧ (refSlot (runOut 2 2)).len = 16
    ∧ ((dualState equalThird).stream 255).slots.find? (fun y => (y.dual == .referee || y.dual == .equal) && !y.fault && y.groupDone 2)
      = some equalThird
    ∧ ((thirdWaits.runners.any fun r => r.2 == 2) = true ∧ (dualState thirdWaits).otherRun 255 thirdWaits
      ≠ some (thirdWaits.outcome thirdWaits.len 0)) := by
  decide +kernel

def anOutcome : Outcome1 := { payload := [], flags := 0, sigs := [] }
def aShadow (mine : Outcome1) : Shadow := { slot := some (255, 6), mine := some mine, want := some anOutcome }
def shadowing (mine : Outcome1) (n : Nat) : State :=
  { tenant with arc := [(15, { integ := .probation, trial := n, shadowWork := [aShadow mine] })], health := { degraded := true } }

theorem witness_DualRunsSettle_shadow : (shadowing anOutcome 9998).live = true
    ∧ (((shadowing anOutcome 9998).arcade 15).shadowWork.find? fun y => y.want.isSome && (y.check.isSome || y.mine.isSome))
      = some (aShadow anOutcome) ∧ ((shadowing anOutcome 9998).arcade 15).noControl = true ∧ 9998 + 1 < 10000 ∧ 10000 ≤ 9999 + 1
    ∧ (((shadowing { anOutcome with flags := 1 } 0).arcade 15).shadowWork.find? fun y => y.want.isSome && (y.check.isSome || y.mine.isSome))
      = some (aShadow { anOutcome with flags := 1 }) ∧ (aShadow { anOutcome with flags := 1 }).mine ≠ (aShadow anOutcome).want := by
  decide +kernel

/-! Stores, controllers, resets and the boot. -/

def zorder : ZOrder := { items := [61440], toPool := true }
def alsOrder : ZOrder := { items := [], rows := [(0, 1)], toPool := true }
def zeroising : State :=
  { ready with pz := { segs := [(15, { engine := [zorder] })] }, arc := [(15, { engine := [alsOrder] })] }
def patrolled : State := { ready with pz := { segs := [(15, { state := .inService, zeroised := true, patrolPage := 4095 })] } }
def testing : State := { ready with pm := { ramping := some 15, units := [(15, .test)] } }

/-- An order on a region that a program of the plan before still reads. -/
def keptOrder : ZOrder := { items := [5], toPool := false, keep := [aRegion false], win := 1 }
def keptState (g : Nat) : State :=
  { tileProg { progOf [] with gen := g } with arc := [(15, { running := some { progOf [] with gen := g }, engine := [keptOrder] })] }

theorem witness_StoresAreScrubbed_waits : (keptState 1).Up ∧ ((keptState 1).arcade 15).engine = [keptOrder]
    ∧ (keptState 1).orderWaits 15 keptOrder = true ∧ (keptState 0).live = true ∧ (keptState 0).orderWaits 15 keptOrder = false
    ∧ zeroising.orderWaits 15 alsOrder = false :=
  ⟨⟨rfl, rfl⟩, by decide +kernel⟩

theorem witness_StoresAreScrubbed : zeroising.live = true ∧ (zeroising.segment 15).engine = zorder :: []
    ∧ (zeroising.arcade 15).engine = alsOrder :: [] ∧ (zeroising.omapOf 61440).scrub ≠ .retired
    ∧ patrolled.Up ∧ (patrolled.segment 15).state = .inService ∧ (patrolled.segment 15).zeroised = true
    ∧ (patrolled.segment 15).uePass = [] ∧ (patrolled.segment 15).retired ≤ 256 ∧ testing.live = true ∧ testing.pm.ramping = some 15
    ∧ Tab.get UnitState.off testing.pm.units 15 = .test ∧ (testing.segment 15).engine = [] ∧ ready.Up :=
  ⟨rfl, by decide +kernel, by decide +kernel, by decide +kernel, ⟨rfl, rfl⟩, by decide +kernel, by decide +kernel, by decide +kernel,
    by decide +kernel, rfl, rfl, by decide +kernel, by decide +kernel, ⟨rfl, rfl⟩⟩

def aKsi : Ksi :=
  { component := 0, keyClass := 0, keyIndex := 0, svn := 0, advance := false, states := 0, versionWord := 0, payloadBytes := 0, innerBytes := 0
    loadAddress := 0, entry := 0, payloadDigest := 0, measurement := 0 }
def healthState (h : Health) : State := { ready with health := h }

theorem witness_ControllersFailAndReturn : ready.Up ∧ ready.boot.step = 12 ∧ (ready.qcOf 3).state = .running
    ∧ (late 1000000 ready).live = true ∧ (late 1000000 ready).health.fcKick + 1000000 ≤ (late 1000000 ready).now
    ∧ (late 9 (healthState { fcCrashTimes := [1, 2, 3] })).health.fcCrashTimes.filter
      (fun t => decide ((late 9 (healthState { fcCrashTimes := [1, 2, 3] })).now ≤ t + 60000000000)) = [1, 2, 3]
    ∧ ready.health.fcRestarting = false ∧ (healthState { fcRestarting := true }).live = true
    ∧ (healthState { fcRestarting := true }).boot.fcImage = none ∧ ready.qcRuns 3 = true ∧ (ready.qcOf 3).reattached = none
    ∧ ((late 200000 ready).qcOf 3).lastKick + 200000 ≤ (late 200000 ready).now
    ∧ (healthState { qc := [(3, { state := .restarting })] }).live = true
    ∧ ((healthState { qc := [(3, { state := .restarting })] }).qcOf 3).state = .restarting
    ∧ 256 ≤ (late (256 * 4096) (healthState { qc := [(3, { state := .restarting })] })).epoch :=
  ⟨⟨rfl, rfl⟩, by decide +kernel⟩

def qcStagedState : State := { ready with boot := { ready.boot with qcStaged := [(3, some aKsi)] } }

theorem witness_ControllersFailAndReturn_activate : qcStagedState.Up ∧ qcStagedState.fcUp = true
    ∧ Tab.get none qcStagedState.boot.qcStaged 3 = some aKsi ∧ qcStagedState.drained 3 = true
    ∧ (qcStagedState.qcOf 3).state = .running ∧ (qcStagedState.stagedCandidates 1).head? = none :=
  ⟨⟨rfl, rfl⟩, by decide +kernel⟩

/-- A lane has held the provisional record of slot 6 for 2 µs. -/
def laneHolds : State := late 2000 (streaming [{ slotRun 6 with fallback := some { aRecord with ready := false } }])

theorem witness_ControllersFailAndReturn_lanes : ready.laneItem = none ∧ laneHolds.Up
    ∧ laneHolds.laneItem = some (255, 6, .fallback, 0) ∧ (laneHolds.stream 255).slots = [{ slotRun 6 with fallback := some { aRecord with ready := false } }]
    ∧ 7 ≤ (healthState { fcRestarting := true }).boot.step ∧ 7 ≤ ready.boot.step :=
  ⟨by decide +kernel, ⟨rfl, rfl⟩, by decide +kernel⟩

def porHeld : State := { ready with top := { porLow := true } }
def unplugged : State := { ready with top := { supply := false } }
def waitingReset (at0 : Nat) : State := { ready with lc := { resetWait := some (at0, 4) } }

theorem witness_ControllersFailAndReturn_images :
    State.live { healthState { fcRestarting := true } with boot := { ready.boot with fcImage := some aKsi } } = true
    ∧ State.live { healthState { qc := [(3, { state := .failed })] } with boot := { ready.boot with qcImage := [(3, some aKsi)] } } = true
    ∧ State.fcUp { healthState { qc := [(3, { state := .failed })] } with boot := { ready.boot with qcImage := [(3, some aKsi)] } } = true
    ∧ State.qcRuns (late 200000 (healthState { qc := [(3, { reattached := some 0 })] })) 3 = true
    ∧ ((late 200000 (healthState { qc := [(3, { reattached := some 0 })] })).now ≤ 0 + 10000000) := by
  decide +kernel

theorem witness_ResetsOfTheBlock : ready.live = true ∧ ready.Synced ∧ (1 : Word) ≠ 2 ∧ (2 : Word) ≠ 3 ∧ (1 : Word) ≠ 3 ∧ ¬ ((1 : Word) = 2 ∧ (2 : Word) = 1) ∧ porHeld.Synced
    ∧ porHeld.top.porLow = true ∧ unplugged.Synced ∧ unplugged.top.supply = false ∧ ready.top.supply = true ∧ ready.top.porLow = false
    ∧ (waitingReset 0).live = true ∧ (waitingReset 0).lc.resetWait = some (0, 4) ∧ 0 ≤ (waitingReset 0).now
    ∧ (waitingReset 9).waitDone = true ∧ State.top { ready with top := { halted := true } } = { supply := true, porLow := false, halted := true } :=
  ⟨rfl, rfl, by decide, by decide, by decide, by decide, rfl, rfl, rfl, rfl, rfl, rfl, rfl, rfl, by decide, by decide +kernel, rfl⟩

def atStep (n : Nat) (b : Boot := {}) : State := { State.reset with boot := { b with step := n } }

theorem witness_BootStepsRun : (atStep 1).live = true ∧ (atStep 1).stepReady = true ∧ (atStep 2).stepReady = true
    ∧ (atStep 3).stepReady = true ∧ (atStep 4 { romLock := true }).stepReady = true ∧ (atStep 4 { romLock := true }).Synced
    ∧ (atStep 4 { romLock := true, serial := true }).stepReady = true ∧ (atStep 5).stepReady = true
    ∧ (atStep 6 { bl1Lock := true }).stepReady = true
    ∧ State.stepReady { atStep 7 with health := { retiredArc := 0xFFFF } } = true
    ∧ (atStep 8).stepReady = true ∧ (atStep 8).stagedCandidates 1 = [] ∧ (atStep 9).stepReady = true ∧ (atStep 9).Synced
    ∧ (atStep 10).stepReady = true ∧ (atStep 11).stepReady = true ∧ (atStep 4).Up ∧ (atStep 6).Up ∧ (atStep 7).Up
    ∧ (atStep 7).rampingDomain = some 16 ∧ (atStep 7).rampingDomain ≠ some 37 := by
  refine ⟨rfl, rfl, rfl, rfl, rfl, rfl, rfl, rfl, rfl, ?_, rfl, ?_, rfl, rfl, rfl, rfl, ⟨rfl, rfl⟩, ⟨rfl, rfl⟩, ⟨rfl, rfl⟩, ?_, ?_⟩
  all_goals decide +kernel

def loadingState (g : Bool) (l : Nat) : State :=
  { State.reset with boot := { step := 9, fwReq := some { grant := g, base := 0, pages := 1, line := l }
                               loads := [{ line := some l, image := aKsi, fallback := none }] } }

theorem witness_BootStepsRun_firewall : (loadingState true 31).Up ∧ (loadingState false 31).Up
    ∧ (loadingState true 31).boot.fwReq = some { grant := true, base := 0, pages := 1, line := 31 }
    ∧ (loadingState true 31).boot.loads = [{ line := some 31, image := aKsi, fallback := none }]
    ∧ ({ line := some 31, image := aKsi, fallback := none } : LoadWork).fallback = none :=
  ⟨⟨rfl, rfl⟩, ⟨rfl, rfl⟩, rfl, rfl, rfl⟩

theorem witness_BootStepsRun_firewallLate : (late 10000 (loadingState true 31)).Up
    ∧ (late 10000 (loadingState true 31)).boot.fwReq = some { grant := true, base := 0, pages := 1, line := 31 }
    ∧ ({ grant := true, base := 0, pages := 1, line := 31 } : FwReq).asked + 10000 ≤ (late 10000 (loadingState true 31)).now :=
  ⟨⟨rfl, rfl⟩, rfl, by decide +kernel⟩

/-! The ports of the lifecycle, entropy and power. -/

def decoded (n : Nat) (blocked : Bool := false) : State := { ready with lc := { state := n, decoded := true, portBlocked := blocked } }

theorem witness_LifecyclePorts : (decoded 4).live = true ∧ (decoded 4).lc.decoded = true ∧ (decoded 4).Synced
    ∧ portTransition 4 6 = none ∧ (decoded 1 true).lc.portBlocked = true ∧ portTransition 1 2 = some 1 ∧ 5 ≤ (decoded 1).blankRecords
    ∧ (decoded 1).portAuthorised 1 [] = true ∧ (decoded 1).lowestBlank = some 0 ∧ (decoded 4).Up ∧ fusePortOk 4 0 = false
    ∧ (if (2 : BitVec 4) = 1 ∨ (2 : BitVec 4) = 2 then 5 else if (2 : BitVec 4) = 6 then 1 else 2) ≤ (decoded 1).blankRecords
    ∧ (decoded 4).lc.portBlocked = false
    ∧ intentWord 2 1 0 &&& ~~~((decoded 1).fuse 0) ≠ 0 ∧ (0x10 : BitVec 32) &&& ~~~((decoded 1).fuse 471) ≠ 0 ∧ fusePortOk 1 471 = true ∧ fusePortOk 1 48 = false ∧ (decoded 1).Up :=
  ⟨rfl, rfl, rfl, by decide, rfl, by decide, by decide +kernel, by decide +kernel, by decide +kernel, ⟨rfl, rfl⟩, by decide,
    by decide +kernel, rfl, by decide +kernel, by decide +kernel, by decide, by decide, ⟨rfl, rfl⟩⟩

/-- Of two digests in the fuses at most one authorises a value. -/
def fusedDigest (v : BitVec 32) : State := { decoded 1 with fuses := [(300, v)] }
theorem witness_LifecyclePorts_refused : portTransition 1 3 = some 300
    ∧ ((fusedDigest 1).portAuthorised 300 [] = false ∨ (fusedDigest 2).portAuthorised 300 [] = false) := by
  refine ⟨by decide, ?_⟩
  by_cases h : Bytes.big (Config.sha384 (Bytes.slice [] 0 32)) = (fusedDigest 1).fuseBytes 300 12
  · right
    have ne : (fusedDigest 1).fuseBytes 300 12 ≠ (fusedDigest 2).fuseBytes 300 12 := by decide +kernel
    simpa [State.portAuthorised, h] using ne
  · left
    simpa [State.portAuthorised] using h

/-- The JTAG debug port: every scope open, and page 61440 not confidential. -/
def debugging : State := { ready with lc := { openScopes := 31, decoded := true }, pz := { omap := [(61440, aPage)] } }

theorem witness_LifecyclePorts_debug : ready.Up ∧ (2 ≤ ready.boot.step ∨ ready.boot.step = 0) ∧ ready.lc.openScopes.getLsbD 4 = false
    ∧ debugging.Up ∧ (∀ n, n < 5 → debugging.lc.openScopes.getLsbD n = true) ∧ debugging.debugPage (0x3C0_0000 / 8 * 8) = true
    ∧ debugging.debugPage 0 = false ∧ ready.top.blkRst = false :=
  ⟨⟨rfl, rfl⟩, by decide, by decide, ⟨rfl, rfl⟩, by decide +kernel, by decide +kernel, by decide +kernel, rfl⟩

def entropy (t : Trng) (degraded : Bool) : State := { ready with trng := t, health := { degraded := degraded } }

/-- Raw bits that both tests pass, that the one or the other fails, and that both fail. -/
def goodRaw : Bytes := List.replicate 128 0x55
def rctRaw : Bytes := List.replicate 6 0xFF ++ List.replicate 122 0x55
def aptRaw : Bytes := List.replicate 128 0x7F

theorem test_raw_tests : ((rawBits goodRaw).foldl rctStep (0, false, false)).2.2 = false ∧ aptFails (rawBits goodRaw) = false
    ∧ ((rawBits rctRaw).foldl rctStep (0, false, false)).2.2 = true ∧ aptFails (rawBits rctRaw) = false
    ∧ ((rawBits aptRaw).foldl rctStep (0, false, false)).2.2 = false ∧ aptFails (rawBits aptRaw) = true := by decide +kernel

theorem test_raw_both : ((rawBits (List.replicate 128 0xFF)).foldl rctStep (0, false, false)).2.2 = true
    ∧ aptFails (rawBits (List.replicate 128 0xFF)) = true := by decide +kernel

/-- The cutoffs of R343: 40 bits in a row pass, 41 fail; 793 of a window pass, 794 fail. -/
theorem test_raw_cutoffs : ((List.replicate 40 true ++ [false]).foldl rctStep (0, false, false)).2.2 = false
    ∧ ((List.replicate 41 true).foldl rctStep (0, false, false)).2.2 = true
    ∧ aptFails (List.replicate 793 true ++ List.replicate 231 false) = false
    ∧ aptFails (List.replicate 794 true ++ List.replicate 230 false) = true := by decide +kernel

/-- A start-up test that every window passes, and one that the first fails. -/
theorem witness_BootStepsRun_startup : startupPasses { raw := [0x55] } = true
    ∧ startupPasses { raw := List.replicate 6 0xFF } = false := by decide +kernel

theorem witness_EntropyIsTested : (entropy { state := .ok } false).Up ∧ (entropy { state := .failed } true).Up
    ∧ (entropy { state := .degraded, passes := 62 } true).Up ∧ (entropy { state := .degraded, passes := 63 } true).Up
    ∧ (entropy { state := .ok } false).live = true ∧ TrngState.ok ≠ .startup
    ∧ (entropy { state := .ok, failTimes := [0, 1] } false).trng.failTimes.filter
      (fun x => decide ((entropy { state := .ok, failTimes := [0, 1] } false).now ≤ x + 1000000000)) = [0, 1]
    ∧ (entropy { state := .ok, requests := 1024 } false).reseedDueNow = true
    ∧ (entropy { state := .ok, requests := 1024 } false).Up
    ∧ (entropy { state := .degraded, requests := 1024, block := some 1 } true).reseedDueNow = true
    ∧ (entropy { state := .ok, requests := 1024, block := some 1 } false).Up :=
  ⟨⟨rfl, rfl⟩, ⟨rfl, rfl⟩, ⟨rfl, rfl⟩, ⟨rfl, rfl⟩, rfl, by decide, by decide +kernel, by decide +kernel, ⟨rfl, rfl⟩, by decide +kernel, ⟨rfl, rfl⟩⟩

def stepping (p : Power) : State := { ready with ptu := { atStep := true, tick := 400000 }, pm := p }
def sense (dw : Nat) : PowerSense := { powerDw := dw, amps := [0, 0, 0], tj := 400, derate := 0 }
def policyReset : Word := 0x0000_0000_000A_59BE

theorem witness_PowerLadder : (stepping { opp := 8 }).live = true ∧ (stepping { opp := 8 }).ptu.atStep = true
    ∧ (∀ f ∈ (stepping { opp := 8 }).ptu.firing, f.kind ≠ .commit) ∧ (sense 9999).tj < 1050
    ∧ (∀ a ∈ (sense 9999).amps, a ≤ (stepping { opp := 8 }).pm.iccMax) ∧ capEff policyReset 0 < (sense 9999).powerDw * 10
    ∧ oppFloor policyReset < 8 ∧ 8 ≤ oppMax policyReset
    ∧ (sense 0).powerDw * 100 < 9 * capEff policyReset 0 ∧ (sense 0).tj < 930
    ∧ (∀ a ∈ (sense 0).amps, a * 10 < 9 * (stepping { opp := 8 }).pm.iccMax) ∧ upDelay policyReset ≤ 254 + 1
    ∧ 7 < oppMax policyReset ∧ (sense 0).powerDw * 10 ≤ capEff policyReset 0
    ∧ State.Up { ready with pm := { readmit := [15], stepTick := some 0 } }
    ∧ State.mayReadmit { ready with pm := { readmit := [15], stepTick := some 0 } } 15 = true ∧ ready.mayReadmit 15 = false :=
  ⟨rfl, rfl, by decide, by decide, by decide, by decide +kernel, by decide +kernel, by decide +kernel, by decide +kernel, by decide,
    by decide +kernel, by decide +kernel, by decide +kernel, by decide +kernel, ⟨rfl, rfl⟩, by decide +kernel, by decide +kernel⟩

def aRail : RailSense := { ns := 500, arcMv := List.replicate 16 800, railMv := [800, 750, 750], railDa := [0, 0, 0] }
/-- The plane is down, and has been cool for 1 s. -/
def cooling : State := late 1000000000 (stepping { planeOff := true, coolSince := some 0 })

theorem witness_PowerLadder_cool : cooling.live = true ∧ cooling.ptu.atStep = true ∧ cooling.pm.returning = false
    ∧ cooling.pm.coolSince = some 0 ∧ 0 + 1000000000 ≤ cooling.now ∧ (∀ f ∈ cooling.ptu.firing, f.kind ≠ .commit)
    ∧ (∀ a ∈ (sense 0).amps, a ≤ cooling.pm.iccMax) ∧ (stepping { opp := 8 }).pm.hot = false ∧ (stepping { opp := 8 }).pm.warm = false
    ∧ (stepping { opp := 8 }).pm.critical = false := by decide +kernel

theorem witness_PowerLadder_plane : State.planeDomain { ready with pm := { planeOff := true, returning := true } } = none
    ∧ State.live { ready with pm := { planeOff := true, returning := true } } = true
    ∧ KerbSense.wf { tj := List.replicate 24 1150, rails := [aRail, aRail], aclkMhz := 1800 } = true := by
  decide +kernel

/-! The link, the pair and the management port. -/

def linkState (st : FmState) (f : Fumas := {}) : State := { ready with fm := { f with state := st, mode := 1 } }
def seqFlit (n : BitVec 16) : Flit := { seq := n, bytes := [] }

theorem witness_LinkRows : (linkState .joined).Up ∧ (linkState .joined).joined = true ∧ (linkState .joined).fm.linked = true
    ∧ (linkState .joined).silent 1000 = false ∧ (late 2000 (linkState .joined)).silent 1000 = true
    ∧ (late 2000 (linkState .joined)).silent 2000 = true ∧ (late 2000 (linkState .joined)).fm.next = none
    ∧ (late 2000 (linkState .joined)).fm.sentAt + 100 ≤ (late 2000 (linkState .joined)).now
    ∧ (linkState .joined).fm.naks < 15
    ∧ (linkState .syncing { joinWin := some 64 }).live = true ∧ (linkState .syncing { joinWin := some 64 }).fm.joinWin = some 64
    ∧ (linkState .joined { naks := 15, nakSeq := 3, replay := [seqFlit 4] }).Up
    ∧ (∀ x ∈ (linkState .joined { naks := 15, nakSeq := 3, replay := [seqFlit 4] }).fm.replay, seqAfter x.seq 3 = true)
    ∧ (linkState .joined { naks := 15, nakSeq := 3 }).live = true ∧ (linkState .joined { naks := 15, nakSeq := 3 }).fm.naks = 15
    ∧ (late 2000 (linkState .joined)).live = true ∧ (late 2000 (linkState .joined)).fm.state = .joined
    ∧ (linkState .linkDown).Up ∧ ([] : Bytes).length ≠ 64 :=
  ⟨⟨rfl, rfl⟩, by decide +kernel, by decide +kernel, by decide +kernel, by decide +kernel, by decide +kernel, by decide +kernel,
    by decide +kernel, by decide, rfl, rfl, ⟨rfl, rfl⟩, by decide +kernel, rfl, rfl, rfl, rfl, ⟨rfl, rfl⟩, by decide⟩

def aHeadOf (n : BitVec 64) : LinkHead := { counter := n }
def standbyState (f : Fumas := {}) : State := withSession (linkState .joined f) 16383 { keyed with state := .opened, pair := .standby }
/-- A stream of a session of the standby whose slot 6 waits for its rseq. -/
def waitingSlot : SlotRun := { slotRun 6 with rseq := 0, missing := false }
def waitingStandby : State := oneStream standbyState 255 { bound := true, win := 1, session := 16383, slots := [waitingSlot] }
def boundStandby : State := oneStream (standbyState) 255 { bound := true, win := 1, session := 16383 }
def partnered : State :=
  { withSession (linkState .joined) 16383 { keyed with pair := .home } with
    streams := [(255, { bound := true, win := 1, session := 16383 })]
    plans := [(1, { running := some { smallPlan with
      integrity := [{ target := 255, isModel := false, fraction := 5, partner := true, checkers := 0 }] } })] }
def partneredStandby : State :=
  { withSession partnered 16383 { keyed with pair := .standby } with
    streams := [(255, { bound := true, win := 1, session := 16383, slots := [slotRun 6] })] }
def remoteCheck : Check := { capturing with checker := 16, session := 16383 }
def remoteChecked : State := { linkState .joined with arc := [(15, { checks := [remoteCheck] })] }
def partPlanState : State :=
  { linkState .joined with plans := [(1, { running := some { smallPlan with
      reductions := [{ dest := 15, parts := 2, recvRow := 0, rows := 1, digest := false, sources := [14] }]
      remotes := [{ reduction := 0, mask := 2, destRemote := false }] } })] }
def bufferedStandby : State :=
  { standbyState with plans := [(1, { running := some { smallPlan with buffers := [{ base := 0x3C0_0000, pages := 1, lsess := 0, use := 0 }] } })]
                      pz := { omap := [(61440, { session := 16383, vi := 1, world := 2, valid := true })] } }

theorem witness_PairMessages_slots : waitingStandby.Up ∧ waitingStandby.isStandby 16383 = true
    ∧ (waitingStandby.stream 255).slots = [waitingSlot] ∧ waitingSlot.seq = (6 : Word).toNat ∧ waitingSlot.rseq = 0
    ∧ waitingSlot.released = none ∧ waitingSlot.missing = false ∧ waitingSlot.overrun = false ∧ waitingSlot.fired = false
    ∧ partneredStandby.Up ∧ partneredStandby.partnerRuns 255 = true ∧ partneredStandby.isStandby (partneredStandby.stream 255).session = true
    ∧ (partneredStandby.stream 255).slots = [slotRun 6] ∧ (slotRun 6).seq = (6 : Word).toNat
    ∧ (standbyState.session 16383).state ≠ .free ∧ (standbyState.session 16383).pair = .standby
    ∧ bufferedStandby.bufferOk 0x50 16383 { base := 0x3C0_0000, pages := 1, lsess := 0, use := 0 } = true := by
  refine ⟨⟨rfl, rfl⟩, ?_, ?_, ?_, ?_, ?_, ?_, ?_, ?_, ⟨rfl, rfl⟩, ?_⟩
  all_goals decide +kernel

theorem witness_PairMessages : (linkState .joined).Up ∧ (linkState .joined).joined = true
    ∧ pairHead (.notice { counter := 1, tagOk := false } 1) = some { counter := 1, tagOk := false }
    ∧ (aHeadOf 0).counter ≤ (linkState .joined).fm.rxCounter ∧ (linkState .joined).fm.rxCounter < (aHeadOf 1).counter ∧ (aHeadOf 1).tagOk = true
    ∧ (linkState .joined).paired = true ∧ ((linkState .joined).session 16383).state = .free ∧ standbyState.Up
    ∧ standbyState.isStandby 16383 = true ∧ standbyState.fm.state ≠ .syncing ∧ (standbyState.session 16383).pair = .standby ∧ boundStandby.Up
    ∧ boundStandby.isStandby 16383 = true ∧ (boundStandby.stream 255).bound = true ∧ (boundStandby.stream 255).session = 16383
    ∧ (∀ y ∈ (boundStandby.stream 255).slots, y.rseq ≠ 0) ∧ partnered.Up ∧ partnered.partnerRuns 255 = true ∧ remoteChecked.Up
    ∧ (remoteChecked.arcade 15).checks = [remoteCheck] ∧ (∀ b, b < 16 → b ≠ 15 → (remoteChecked.arcade b).checks = [])
    ∧ remoteCheck.instCount = (4 : Word).toNat ∧ partPlanState.Up ∧ (partPlanState.partPlan 0 1).isSome = true ∧ bufferedStandby.Up
    ∧ bufferedStandby.isStandby 16383 = true ∧ ((bufferedStandby.plan 1).running.bind fun p => p.buffers[(0 : BitVec 16).toNat]?).isSome = true :=
  ⟨⟨rfl, rfl⟩, by decide +kernel, rfl, by decide +kernel, by decide +kernel, rfl, by decide +kernel, by decide +kernel, ⟨rfl, rfl⟩,
    by decide +kernel, by decide +kernel, by decide +kernel, ⟨rfl, rfl⟩, by decide +kernel, by decide +kernel, by decide +kernel, by decide +kernel,
    ⟨rfl, rfl⟩, by decide +kernel, ⟨rfl, rfl⟩, by decide +kernel, by decide +kernel, by decide +kernel, ⟨rfl, rfl⟩, by decide +kernel,
    ⟨rfl, rfl⟩, by decide +kernel, by decide +kernel⟩

def joinCmd (mode : Nat) : Cmd := cmd 0xA0 [(16, 1, mode)] (List.replicate 48 0)
def joining (mode : Nat) : State := running ready 64 (joinCmd mode)

theorem witness_PairMessages_join : (linkState .attesting { joinWin := some 64 }).Up ∧ (linkState .syncing { joinWin := some 64 }).Up
    ∧ (linkState .attesting { joinWin := some 64 }).fm.state = .attesting
    ∧ Bytes.toNat (linkState .attesting { joinWin := some 64 }).serial ≠ (5 : BitVec 128).toNat
    ∧ (joining 2).live = true ∧ (joining 2).fcCmd 64 0xA0 = some (joinCmd 2) ∧ (joining 2).bodyDefined 64 msgPair = true
    ∧ (joinCmd 2).params.length = 48 ∧ (joining 2).fm.joinWin = none ∧ (joinCmd 0).u 16 1 = 0 ∧ (joinCmd 3).u 16 1 = 3
    ∧ (joining 2).drbgBlocked = false ∧ State.drbgBlocked { joining 2 with trng := { state := .failed } } = true ∧ (joining 2).joined = false ∧ State.joined { joining 2 with fm := { state := .joined, mode := 1 } } = true :=
  ⟨⟨rfl, rfl⟩, ⟨rfl, rfl⟩, rfl, by decide +kernel⟩

/-- A PAIR_JOIN whose link has not trained in 50 ms. -/
def untrained : State := late 50000000 { joining 2 with fm := { state := .training, joinWin := some 64 } }

theorem witness_LinkRows_overdue : untrained.live = true ∧ untrained.fcUp = true ∧ (untrained.window 64).slot.running = some (joinCmd 2)
    ∧ (untrained.window 64).slot.result = none ∧ (joinCmd 2).opcode = 0xA0 ∧ untrained.fm.state = .training
    ∧ untrained.fm.joinWin = some 64 ∧ untrained.fm.stepAt + 50000000 ≤ untrained.now := by decide +kernel

def managed (m : Mgmt) : State := { ready with mgmt := { m with i3cAddr := 8, eid := some 9 }, keys := bootKeys, trng := { state := .ok }, lc := { state := 3 } }
def exporting : State := { managed { outstanding := some 1, sends := 4 } with health := { ring := [{ recNo := 1 }] } }

theorem witness_ManagementAnswers : (managed {}).Up ∧ (managed {}).mgmtUp = true ∧ (managed {}).Asks .mgmt
    ∧ (managed { spdm := [(64, { phase := 3 })] }).phase .mgmt = 3 ∧ (managed {}).mctpUp = true ∧ (managed {}).noAlias = false
    ∧ (managed {}).aliasRefused = false ∧ (managed {}).useRefused ((managed {}).slot 2).attr 2 = false
    ∧ (managed {}).drbgBlocked = false ∧ (managed {}).lc.state = 3 ∧ ((managed {}).measured .mgmt 0x05).isSome = true
    ∧ exporting.Up ∧ exporting.mgmt.outstanding = some 1 ∧ exporting.nextExport.isSome = true
    ∧ (late 100000000 exporting).mgmt.sentAt + 100000000 ≤ (late 100000000 exporting).now
    ∧ (managed {}).mgmt.outstanding = none ∧ (managed {}).nextExport.isSome = false ∧ ready.top.blkRst = false :=
  ⟨⟨rfl, rfl⟩, by decide +kernel, (by decide +kernel : (managed {}).mgmtUp = true), by decide +kernel, by decide +kernel, by decide +kernel,
    by decide +kernel, by decide +kernel, by decide +kernel, rfl, by decide +kernel, ⟨rfl, rfl⟩, rfl, by decide +kernel, by decide +kernel, rfl, by decide +kernel, rfl⟩

def areaDirty : State := late 3600000000000 (healthState { dirty := true, newSigs := true })

theorem witness_HealthAreaIsKept : areaDirty.Up ∧ areaDirty.fcUp = true ∧ areaDirty.health.dirty = true ∧ areaDirty.health.sigs.length ≤ 4000
    ∧ areaDirty.health.areaAt + 3600000000000 ≤ areaDirty.now ∧ ready.health.dirty = false ∧ ready.health.newSigs = false
    ∧ areaDirty.health.windowAt + 60000000000 ≤ areaDirty.now ∧ ready.now < ready.health.windowAt + 60000000000 :=
  ⟨⟨rfl, rfl⟩, by decide +kernel⟩

/-! Ill-formed operands, each refused by its check of WellFormed. -/

theorem test_wf_ctrl : Instr.wf (.inputClose 0 [.ce 12 0]) = false ∧ Instr.wf (.slotStart 0 [.ce 0 256] []) = false
    ∧ Instr.wf (.release 0 [.ce 12 0] false) = false ∧ Instr.wf (.release 0 [.ce 11 255, .context .ue] false) = true := by decide

theorem test_wf_upsets : Instr.wf (.tile 0 [.als 256 0 0 .ce]) = false ∧ Instr.wf (.tile 0 [.als 0 128 0 .ce]) = false
    ∧ Instr.wf (.tile 0 [.als 0 0 8 .ce]) = false ∧ Instr.wf (.tile 0 [.side 256 0 .ue]) = false ∧ Instr.wf (.tile 0 [.side 0 128 .ue]) = false
    ∧ Instr.wf (.move 0 [.piazza (2 ^ 26) .ue]) = false ∧ Instr.wf (.out 0 [.acc 128 0 .ue]) = false ∧ Instr.wf (.send 0 [.acc 0 128 .ue]) = false
    ∧ Instr.wf (.comb 0 [.array 0 128 1]) = false ∧ Instr.wf (.checkComplete 0 [.als 256 0 0 .ce]) = false
    ∧ Instr.wf (.refereeComplete 0 [.als 256 0 0 .ce]) = false ∧ Instr.wf (.repeatComplete 0 [.als 256 0 0 .ce]) = false
    ∧ Instr.wf (.shadowRunComplete 0 [.als 256 0 0 .ce]) = false ∧ Instr.wf (.tile 0 [.als 255 127 7 .ce]) = true := by decide

theorem test_wf_lengths : Instr.wf (.trngBlock []) = false
    ∧ Instr.wf (.powerStepBoundary { powerDw := 0, amps := [], tj := 0, derate := 0 }) = false ∧ Instr.wf (.data { seq := 0 } 0 []) = false
    ∧ Instr.wf (.lifecyclePortRequest 1 (List.replicate 49 0) none) = false ∧ Instr.wf (.flitReceived []) = false
    ∧ Instr.wf (.part { counter := 0 } 0 0 [[]] 0) = false ∧ Instr.wf (.state { counter := 0 } 0 0 [[]]) = false
    ∧ Instr.wf (.cmp { counter := 0 } 0 0 (List.replicate 385 0) 0 [] none) = false
    ∧ Instr.wf (.bootStepDone { startup := [{ raw := [] }] }) = false ∧ Instr.wf (.bootStepDone { seed := [] }) = false ∧ Instr.wf (.planeReturn (List.replicate 17 {})) = false := by decide +kernel

theorem test_wf_units : Instr.wf (.patrol 0 false [{ line := 16, word := 0, ecc := .ce }]) = false
    ∧ Instr.wf (.patrol 0 false [{ line := 0, word := 8, ecc := .ce }]) = false ∧ Instr.wf (.patrol 0 true [{ line := 128, word := 0, ecc := .ce }]) = false
    ∧ Instr.wf (.patrol 0 true [{ line := 127, word := 9, ecc := .ce }]) = false ∧ Instr.wf (.patrol 0 true [{ line := 127, word := 8, ecc := .ce }]) = true
    ∧ Instr.wf (.selfTestDone 0 { badPages := [4096] }) = false ∧ Instr.wf (.selfTestDone 0 { badRows := [256] }) = false
    ∧ Instr.wf (.planeReturn [{ badRows := [256] }]) = false
    ∧ Instr.wf (.kerbSample { tj := [], rails := [], aclkMhz := 0 }) = false
    ∧ Instr.wf (.kerbSample { tj := List.replicate 24 0, rails := [{ aRail with ns := 501 }], aclkMhz := 0 }) = false := by decide

/-! The worked examples of the spec. -/

/-- What holds after a command. -/
def after (c : Instr) (s : State) (p : State → Bool) : Bool :=
  match exec c s with
  | .next t => p t
  | .fault _ => false
  | .refused _ => false

/-- Chapter "Number formats", one MXFP8 block: 448 × 448, 2⁻⁹ × 1.0 and 448 × −448 with scales 0x7A and 0x81 give 2⁻¹². -/
theorem test_mxfp8_block :
    columnSum .mxfp8 4 4 ([0x7E, 0x01, 0x7E] ++ List.replicate 61 0) ([0x7E, 0x38, 0xFE] ++ List.replicate 61 0) [0x7A, 0x7A] [0x81, 0x81]
      = .float [0x3980_0000, 0] := by decide +kernel

/-- Chapter "Virtual interfaces and commands", two VIs claim A6: at the boundary of epoch 1,000,002 VI3 is granted, and VI9 is told
epoch 1,000,245. -/
def twoClaims : State :=
  { ready with
    ptu := { dt := BitVec.ofNat 96 (4096008192 * 2 ^ 32), atEpoch := true }
    win := [(3, { isOpen := true, slot := { state := .running, running := some (cmd 0x20) } }),
            (9, { isOpen := true, slot := { state := .running, running := some (cmd 0x20) } })]
    rb := { held := [{ win := 9, res := { bits := 0x40 }, first := 1000003, last := none },
                     { win := 3, res := { bits := 0x40 }, first := 1000003, last := some 1000244 }] } }
theorem test_two_claims : after .epochBoundary twoClaims (fun t =>
    t.rb.leases == [{ win := 3, res := { bits := 0x40 }, first := 1000003, last := some 1000244 }]
      && (t.window 3).slot.result == some { status := stOk, epoch := 1000002 }
      && (t.window 9).slot.result == some { status := stBusy, epoch := 1000245 }) = true := by decide +kernel

/-- Chapter "Register reference", R495: the write is staged, and PM_POLICY still reads its committed value. -/
theorem test_stage_write : after (.stageWrite 64) staging (fun t =>
    (t.bank 64).items == [.write 0x3100 0x000A_5896] && t.windowRead 64 0x3100 == 0x000A_59BE) = true := by decide +kernel

/-- Chapter "Lifecycle, fuses and keys", power lost while a block enters ANALYSIS: the intent word of record 3. -/
theorem test_intent_word : intentWord 5 4 3 = 0x4C43_5345 := by decide

/-- Chapter "Digest and public-key engines", a key exchange passes a checkpoint signature: at the first yield point, with 550 µs of ECDSA_SIGN left, MLKEM_ENCAPS
passes, and MLDSA65_SIGN before it in the queue does not. -/
theorem test_passing_job :
    ({ queue := [{ rsaJob with op := 0x31 }, { rsaJob with op := 0x21, flags := 8 }] } : Pke).passer { rsaJob with op := 0x11 }
      = some { rsaJob with op := 0x21, flags := 8 } := by decide +kernel

end Sys2Proof.Tests
end

