-- ==== Sys2Proof/Proofs/WindowsBeforeReady.lean ====
section
/-! PROOFS. T0 accesses by window and offset, and the windows before READY (R287). -/

namespace Sys2Proof.Machine

/-! Where the address of a window's offset falls (R230): the access is to the word that holds it. -/

theorem t0Addr_toNat {w off : Nat} (hw : w ≤ 65) (ho : off < 0x10000) : (t0Addr w off).toNat = w * 0x10000 + off := by
  rw [t0Addr, BitVec.toNat_ofNat]
  exact Nat.mod_eq_of_lt (by omega)

theorem t0Place_windowOffset {w off : Nat} (hw : w ≤ 65) (ho : off < 0x10000) :
    t0Place ((w * 0x10000 + off) / 8 * 8) = some (w, off / 8 * 8) := by
  have hwin : (w * 0x10000 + off) / 8 * 8 / 0x10000 = w := by omega
  have hoff : (w * 0x10000 + off) / 8 * 8 % 0x10000 = off / 8 * 8 := by omega
  simp only [t0Place, hwin, hoff, hw, if_true]

/-! What an access does at an offset of a window (R447, R448). -/

theorem State.t0Write_windowOffset (s : State) {w off : Nat} (hw : w ≤ 65) (ho : off < 0x10000) (d : Word) (strb : BitVec 8) :
    s.t0Write (w * 0x10000 + off) d strb =
      if w = 65 then s.emit .busError
      else if strb != 0xFF && off / 8 * 8 != 0x50 then s.emit .busError
      else if s.boot.step != 12 then s
      else s.windowWrite w (off / 8 * 8) d strb := by
  simp only [State.t0Write, t0Place_windowOffset hw ho]

theorem State.t0Read_windowOffset (s : State) {w off : Nat} (hw : w ≤ 65) (ho : off < 0x10000) :
    s.t0Read (w * 0x10000 + off) =
      if w = 65 then some (BitVec.ofNat 64 (s.mgmtRead (off / 8 * 8)))
      else if s.boot.step != 12 then some 0
      else some (BitVec.ofNat 64 (s.windowRead w (off / 8 * 8))) := by
  simp only [State.t0Read, t0Place_windowOffset hw ho]

/-- The management window reads its registers, whether or not the block is READY. -/
theorem State.t0Read_management (s : State) {off : Nat} (ho : off < 0x10000) :
    s.t0Read (0x41_0000 + off) = some (BitVec.ofNat 64 (s.mgmtRead (off / 8 * 8))) := by
  simpa using s.t0Read_windowOffset (Nat.le_refl 65) ho

/-! The windows of the VIs and of the operator before READY (R287). -/

theorem State.t0Write_beforeReady {s : State} (hs : s.boot.step ≠ 12) (w : Win) {off : Nat} (ho : off < 0x10000) (d : Word) :
    s.t0Write (w.val * 0x10000 + off) d 0xFF = s := by
  have hw : w.val ≠ 65 := by omega
  simp [s.t0Write_windowOffset (by omega : w.val ≤ 65) ho, hw, hs]

theorem State.t0Read_beforeReady {s : State} (hs : s.boot.step ≠ 12) (w : Win) {off : Nat} (ho : off < 0x10000) :
    s.t0Read (w.val * 0x10000 + off) = some 0 := by
  have hw : w.val ≠ 65 := by omega
  simp [s.t0Read_windowOffset (by omega : w.val ≤ 65) ho, hw, hs]

/-- A row whose condition is READY does nothing before it. -/
theorem act_ready_idle {s : State} (hs : s.boot.step ≠ 12) (f : State → State) : act (s.boot.step == 12) f s = .next s :=
  act_idle (by simp [hs])

/-- An effect that changes nothing leaves a state whose DEVICE_DEGRADED already agrees with its conditions. -/
theorem act_fixed {s : State} {f : State → State} (h : s.Synced) (hf : f s = s) (g : Bool) : act g f s = .next s := by
  rcases act_cases g f s with hidle | hrun
  · exact hidle
  · rw [hrun, hf, State.settle_of_synced s h]

/-! The rows that write a window, by the condition under which each acts. -/

theorem exec_post (w : Win) (s : State) :
    exec (.post w) s = act (s.boot.step == 12) (fun s => s.onSlotOf w.val CmdSlot.post) s := rfl

theorem exec_flush (w : Win) (s : State) :
    exec (.flush w) s = act (s.boot.step == 12) (fun s => s.onSlotOf w.val CmdSlot.flush) s := rfl

theorem exec_paramAppend (w : Win) (d : Word) (strb : BitVec 8) (s : State) :
    exec (.paramAppend w d strb) s = act (s.boot.step == 12) (fun s => s.onSlotOf w.val fun c => c.append (strobed d strb)) s := rfl

theorem exec_ckptFreeWrite (w : Win) (d : Word) (s : State) :
    exec (.ckptFreeWrite w d) s = act (s.boot.step == 12) (fun s => s.ckptFree w.val d) s := rfl

theorem exec_registerWrite_t0 (a : BitVec 32) (strb : BitVec 8) (d : Word) (s : State) :
    exec (.registerWrite (.t0 a strb) d) s = act (!s.top.blkRst) (fun s => s.t0Write a.toNat d strb) s := rfl

theorem exec_t0Write_beforeReady {s : State} (hs : s.boot.step ≠ 12) (h : s.Synced) (w : Win) {off : Nat} (ho : off < 0x10000)
    (d : Word) : exec (.registerWrite (.t0 (t0Addr w.val off) 0xFF) d) s = .next s := by
  rw [exec_registerWrite_t0, t0Addr_toNat (by omega) ho]
  exact act_fixed h (State.t0Write_beforeReady hs w ho d) _

/-- Settles O8: the rows of a window wait for READY, and a T0 write that falls in a window of a VI or of the operator before
READY is ignored (R287). -/
theorem windowsBeforeReady : Obligations.WindowsBeforeReady := by
  intro s w off strb d hs ho
  refine ⟨?post, ?flush, ?append, ?free, ?write, ?read, ?management⟩
  case post => exact (exec_post w s).trans (act_ready_idle hs _)
  case flush => exact (exec_flush w s).trans (act_ready_idle hs _)
  case append => exact (exec_paramAppend w d strb s).trans (act_ready_idle hs _)
  case free => exact (exec_ckptFreeWrite w d s).trans (act_ready_idle hs _)
  case write => exact fun hup => exec_t0Write_beforeReady hs hup.2 w ho d
  case read => exact State.t0Read_beforeReady hs w ho
  case management => exact s.t0Read_management ho

end Sys2Proof.Machine
end

