-- ==== Sys2Proof/Proofs/T0Responses.lean ====
section
/-! PROOFS. The responses of the target port T0 (R448): errors, and ordinary responses without effect. -/

namespace Sys2Proof.Machine

/-! An error response: the outside is told, and nothing else changes. -/

theorem State.emit_synced {s : State} (h : s.Synced) (o : Out) : (s.emit o).Synced := h

/-- A T0 access that answers an error drops its write. -/
theorem exec_t0Write_error {s : State} (hs : s.Up) (hb : s.top.blkRst = false) {a : BitVec 32} {strb : BitVec 8} {d : Word}
    (h : s.t0Write a.toNat d strb = s.emit .busError) : exec (.registerWrite (.t0 a strb) d) s = .next (s.emit .busError) := by
  obtain ⟨hlive, hsync⟩ := hs
  rw [exec_registerWrite_t0, act_runs_synced hlive (by simp [hb]), h]
  · exact h ▸ State.emit_synced hsync _
  · exact h ▸ rfl

/-! Addresses past the management window (R230). -/

theorem t0Place_outside {addr : Nat} (h : 0x42_0000 ≤ addr) : t0Place (addr / 8 * 8) = none := by
  have hwin : ¬ addr / 8 * 8 / 0x10000 ≤ 65 := by omega
  simp only [t0Place, hwin, if_false]

theorem State.t0Write_outside (s : State) {addr : Nat} (h : 0x42_0000 ≤ addr) (d : Word) (strb : BitVec 8) :
    s.t0Write addr d strb = s.emit .busError := by
  simp only [State.t0Write, t0Place_outside h]

theorem State.t0Read_outside (s : State) {addr : Nat} (h : 0x42_0000 ≤ addr) : s.t0Read addr = none := by
  simp only [State.t0Read, t0Place_outside h]

/-! Writes in a window that answer an error. -/

theorem State.t0Write_management (s : State) {off : Nat} (ho : off < 0x10000) (d : Word) (strb : BitVec 8) :
    s.t0Write (65 * 0x10000 + off) d strb = s.emit .busError := by
  rw [s.t0Write_windowOffset (Nat.le_refl 65) ho, if_pos rfl]

/-- Partial strobes are an error at every offset but that of VI_PARAM_PORT, before READY too (log entry 77). -/
theorem State.t0Write_partialStrobes (s : State) {w off : Nat} (hw : w ≤ 64) (ho : off < 0x10000) (d : Word) {strb : BitVec 8}
    (hstrb : strb ≠ 0xFF) (hport : off / 8 ≠ 0x50 / 8) : s.t0Write (w * 0x10000 + off) d strb = s.emit .busError := by
  have hwin : w ≠ 65 := by omega
  have hoff : off / 8 * 8 ≠ 0x50 := by omega
  have hpartial : (strb != 0xFF && off / 8 * 8 != 0x50) = true :=
    Bool.and_eq_true_iff.mpr ⟨bne_iff_ne.mpr hstrb, bne_iff_ne.mpr hoff⟩
  rw [s.t0Write_windowOffset (by omega) ho, if_neg hwin, if_pos hpartial]

/-! Writes where no field may be written (R7, R480, R481). -/

theorem writable_eq_false_iff {w off : Nat} : writable w off = false ↔
    0x58 ≤ off ∧ off ∉ [0x1000, 0x1008, 0x1020, 0x1028] ∧ (w = 64 → off ∉ [0x3000, 0x3120, 0x3210, 0x6000]) := by
  simp [writable, and_assoc]

theorem State.operatorWrite_readOnly (s : State) {off : Nat} (h : off ∉ [0x3000, 0x3120, 0x3210, 0x6000]) (d : Word) :
    s.operatorWrite off d = s := by
  simp only [List.mem_cons, List.not_mem_nil, or_false, not_or] at h
  simp only [State.operatorWrite, h, if_false]

theorem State.windowWrite_readOnly (s : State) {w off : Nat} (h : writable w off = false) (d : Word) (strb : BitVec 8) :
    s.windowWrite w off d strb = s := by
  obtain ⟨hslot, hwin, hop⟩ := writable_eq_false_iff.mp h
  simp only [List.mem_cons, List.not_mem_nil, or_false, not_or] at hwin
  have hpkt : ¬ off < 0x40 := by omega
  have hctrl : off ≠ 0x40 ∧ off ≠ 0x48 ∧ off ≠ 0x50 := by omega
  simp only [State.windowWrite, hpkt, hctrl, hwin, if_false]
  split
  next h64 => exact s.operatorWrite_readOnly (hop h64) d
  next => rfl

theorem State.t0Write_readOnly (s : State) {w off : Nat} (hready : s.boot.step = 12) (hw : w ≤ 64) (ho : off < 0x10000)
    (halign : off % 8 = 0) (h : writable w off = false) (d : Word) : s.t0Write (w * 0x10000 + off) d 0xFF = s := by
  have hwin : w ≠ 65 := by omega
  have hoff : off / 8 * 8 = off := by omega
  simp [s.t0Write_windowOffset (by omega : w ≤ 65) ho, hwin, hready, hoff, s.windowWrite_readOnly h]

/-! Reads of VI_PARAM_PORT, which is write only (R238). -/

theorem State.windowRead_paramPort (s : State) (w : Nat) : s.windowRead w 0x50 = 0 := by
  simp [State.windowRead, State.operatorRead]

theorem State.t0Read_paramPort (s : State) {w : Nat} (hw : w ≤ 64) : s.t0Read (w * 0x10000 + 0x50) = some 0 := by
  have hwin : w ≠ 65 := by omega
  simp [s.t0Read_windowOffset (by omega : w ≤ 65) (by decide : 0x50 < 0x10000), hwin, s.windowRead_paramPort]

/-- Settles O7: an access takes the first response of R448 that applies to its place, strobes and register. -/
theorem t0Responses : Obligations.T0Responses := by
  refine ⟨?outside, ?management, ?strobes, ?readOnly, ?writeOnly, ?beforeReady⟩
  case outside =>
    exact fun s a strb d hup hb ha => ⟨exec_t0Write_error hup hb (s.t0Write_outside ha d strb), s.t0Read_outside ha⟩
  case management =>
    intro s off strb d hup hb ho
    apply exec_t0Write_error hup hb
    rw [t0Addr_toNat (Nat.le_refl 65) ho]
    exact s.t0Write_management ho d strb
  case strobes =>
    intro s w off strb d hup hb hw ho hstrb hport
    apply exec_t0Write_error hup hb
    rw [t0Addr_toNat (by omega) ho]
    exact s.t0Write_partialStrobes hw ho d hstrb hport
  case readOnly =>
    intro s w off d ⟨⟨_, hsync⟩, hready⟩ _ hw ho halign h
    rw [exec_registerWrite_t0, t0Addr_toNat (by omega) ho]
    exact act_fixed hsync (s.t0Write_readOnly hready hw ho halign h d) _
  case writeOnly => exact fun s w hw => s.t0Read_paramPort hw
  case beforeReady =>
    intro s w off d hup _ hs hw ho
    have hwin : w < 65 := by omega
    exact ⟨exec_t0Write_beforeReady hs hup.2 ⟨w, hwin⟩ ho d, State.t0Read_beforeReady hs ⟨w, hwin⟩ ho⟩

end Sys2Proof.Machine
end

