-- ==== Sys2Proof/Proofs/ViOpens.lean ====
section
/-! PROOFS. VI_OPEN of a window that is closed and enabled (R245, R482). -/

namespace Sys2Proof

variable {α : Type}

/-- A filter by the keys alone: a key that it removes reads as unlisted. -/
theorem Tab.get_filter_keys (d : α) (p : Nat → Bool) (k : Nat) (t : Tab α) :
    Tab.get d (t.filter fun e => p e.1) k = if p k then Tab.get d t k else d := by
  induction t with
  | nil => simp
  | cons e r ih =>
    obtain ⟨j, v⟩ := e
    by_cases hj : j = k
    · subst hj
      cases hp : p j
      case false => simpa [hp] using ih
      case true => simp [hp, Tab.get]
    · cases hp : p j <;> simp [hp, Tab.get, hj, ih]

/-- A cleared range reads as unlisted, and every other key as before. -/
theorem Tab.get_clear (d : α) (t : Tab α) (lo hi k : Nat) :
    Tab.get d (t.clear lo hi) k = if lo ≤ k ∧ k < hi then d else Tab.get d t k := by
  rw [Tab.clear, Tab.get_filter_keys d (fun k => decide (k < lo) || decide (hi ≤ k))]
  by_cases hin : lo ≤ k ∧ k < hi
  · have hp : (decide (k < lo) || decide (hi ≤ k)) = false := by simpa using hin
    simp [hp, hin]
  · have hp : (decide (k < lo) || decide (hi ≤ k)) = true := by simp; omega
    simp [hp, hin]

end Sys2Proof

namespace Sys2Proof.Machine

/-! How a row that executes a running command ends, and what its reply changes. -/

/-- A row with its command in front, whose effect leaves the conditions of R393 and the queue alone, ends in that effect. -/
theorem actCmd_runs_synced {s : State} {cmd : Option Cmd} {c : Cmd} {f : Cmd → State → State} (hl : s.live = true)
    (hc : cmd = some c) (h : (f c s).Synced) (hp : (f c s).pending = s.pending) : actCmd cmd f s = .next (f c s) := by
  subst hc
  exact act_runs_synced hl rfl h hp

theorem State.window_of_result (s : State) (w : Nat) (r : Reply) :
    (s.result w r).window w =
      { s.window w with slot := { (s.window w).slot with result := some r, begun := true } } :=
  s.window_of_onWin w _

theorem State.window_of_result_other (s : State) {v w : Nat} (h : v ≠ w) (r : Reply) :
    (s.result w r).window v = s.window v :=
  s.window_of_onWin_other _ h

/-! The window that VI_OPEN opens. -/

/-- The minor message version in use: the lower of the one asked for and the block's latest (R245). -/
def Cmd.openedMinor (c : Cmd) : Nat := min (c.u 17 1) (if c.u 16 1 = 1 then 4 else 2)

/-- Every register at its reset value, but for the fields that VI_OPEN sets; the slot holds the running command, and what
waits behind it (R482). -/
def Cmd.openedWindow (c : Cmd) (old : CmdSlot) : Window :=
  { isOpen := true, gen := if c.g1 then 1 else 2, msgMajor := c.u 16 1, msgMinor := c.openedMinor
    vector := BitVec.ofNat 16 (c.u 18 2), driver := BitVec.ofNat 64 (c.u 24 8)
    slot := { state := .running, running := some c, begun := true, behind := old.behind, behindPkt := old.behindPkt
              abortCmd := old.abortCmd } }

/-- The state with a window opened and its result slots cleared, before the reply. -/
def State.opened (s : State) (w : Nat) (c : Cmd) : State :=
  State.onWin { s with results := s.results.clear (64 * w) (64 * w + 64) } w fun _ => c.openedWindow (s.window w).slot

theorem State.window_of_opened (s : State) (w : Nat) (c : Cmd) :
    (s.opened w c).window w = c.openedWindow (s.window w).slot :=
  State.window_of_onWin _ w _

theorem State.window_of_opened_other (s : State) {v w : Nat} (h : v ≠ w) (c : Cmd) : (s.opened w c).window v = s.window v :=
  State.window_of_onWin_other _ _ h

/-- VI_OPEN opens a closed and enabled window in a message version that the block speaks. -/
theorem State.viOpen_opens {s : State} {w : Nat} {c : Cmd} (hclosed : (s.window w).isOpen = false)
    (henabled : w < 64 → polEnable (s.policyOf w) = true) (hmajor : c.u 16 1 = 1 ∨ c.u 16 1 = 2) :
    s.viOpen w c = (s.opened w c).result w (.ok (c.u 16 1 * 256 + c.openedMinor)) := by
  have hpermitted : ¬ ((s.window w).isOpen || (w < 64 && !polEnable (s.policyOf w))) = true := by
    simpa [hclosed] using henabled
  have hspoken : ¬ (c.u 16 1 ≠ 1 ∧ c.u 16 1 ≠ 2) := by omega
  rw [State.viOpen, if_neg hpermitted, if_neg hspoken]
  rfl

theorem exec_viOpen (w : Win) (s : State) :
    exec (.viOpen w) s = actCmd (s.fcCmd w.val 0x01) (fun c s => s.viOpen w.val c) s := rfl

/-- The opening leaves the conditions of R393 and the queue alone, so the command ends in it. -/
theorem exec_viOpen_opens {s : State} {w : Win} {c : Cmd} (hup : s.Up) (hc : s.fcCmd w.val 0x01 = some c)
    (hclosed : (s.window w.val).isOpen = false) (henabled : w.val < 64 → polEnable (s.policyOf w.val) = true)
    (hmajor : c.u 16 1 = 1 ∨ c.u 16 1 = 2) :
    exec (.viOpen w) s = .next ((s.opened w.val c).result w.val (.ok (c.u 16 1 * 256 + c.openedMinor))) := by
  have heffect := State.viOpen_opens hclosed henabled hmajor
  rw [exec_viOpen, actCmd_runs_synced hup.1 hc, heffect]
  · exact heffect ▸ hup.2
  · exact heffect ▸ rfl

/-- Settles O14: the opened window's registers are those of a fresh window but for what VI_OPEN sets (R482), and the operator's
window opens without an enable and is reset alike (log entry 60). -/
theorem viOpens : Obligations.ViOpens := by
  intro s w c hup hc hclosed henabled hmajor
  refine ⟨_, exec_viOpen_opens hup hc hclosed henabled hmajor, ?frame, ?others, ?window, ?cleared, ?kept⟩
  case frame => rfl
  case others => exact fun v hv => (State.window_of_result_other _ hv _).trans (s.window_of_opened_other hv c)
  case window => rw [State.window_of_result, State.window_of_opened]; rfl
  case cleared =>
    intro n
    have hin : 64 * w.val ≤ 64 * w.val + n.val ∧ 64 * w.val + n.val < 64 * w.val + 64 := by omega
    exact (Tab.get_clear _ _ _ _ _).trans (if_pos hin)
  case kept =>
    intro k hk
    have hout : ¬ (64 * w.val ≤ k ∧ k < 64 * w.val + 64) := by omega
    exact (Tab.get_clear _ _ _ _ _).trans (if_neg hout)

end Sys2Proof.Machine
end

