-- ==== Sys2Proof/Proofs/Rows.lean ====
section
/-! PROOFS. The machine as a whole: every row acts under a condition and settles, or leaves the state as it was. -/

namespace Sys2Proof.Machine

/-! The rows by the way they act (log entry 8). -/

/-- The outcome is that of a row which acts where the block runs and a condition holds. -/
def Guarded (s : State) (o : Host.Outcome State Fault Refusal) : Prop := ∃ g f, o = act g f s

theorem guarded_act (g : Bool) (f : State → State) (s : State) : Guarded s (act g f s) := ⟨g, f, rfl⟩

theorem guarded_actCmd (c : Option Cmd) (f : Cmd → State → State) (s : State) : Guarded s (actCmd c f s) := by
  cases c with
  | none => exact guarded_act _ _ s
  | some c => exact guarded_act _ _ s

theorem guarded_actSpdm (p : SpdmPath) (f : State → State) (s : State) : Guarded s (actSpdm p f s) := by
  cases p with
  | mgmt => exact guarded_act _ _ s
  | win w => exact guarded_actCmd _ _ s

theorem guarded_actFiring (n : Nat) (k : EvKind) (f : Firing → State → State) (s : State) : Guarded s (actFiring n k f s) := by
  unfold actFiring
  split <;> exact guarded_act _ _ s

theorem guarded_actMessage (ready : State → Bool) (h : LinkHead) (f : State → State) (s : State) :
    Guarded s (actMessage ready h f s) := guarded_act _ _ s

/-! The rows that first look for what they act on. -/

theorem guarded_commit (e : EvIdx) (s : State) : Guarded s (execCommit e s) := by
  unfold execCommit
  split
  · exact guarded_act _ _ s
  · exact guarded_actFiring _ _ _ s

theorem guarded_pkeJobStart (slot : Option (Fin 64)) (b : SramStores) (s : State) : Guarded s (execPkeJobStart slot b s) := by
  unfold execPkeJobStart
  split <;> exact guarded_act _ _ s

theorem guarded_checkStart (a : Arc) (s : State) : Guarded s (execCheckStart a s) := by
  simp only [execCheckStart]
  split <;> exact guarded_act _ _ s

theorem guarded_checkComplete (a : Arc) (u : List Upset) (s : State) : Guarded s (execCheckComplete a u s) := by
  simp only [execCheckComplete]
  split
  · exact guarded_act _ _ s
  · split <;> exact guarded_act _ _ s

theorem guarded_refereeComplete (a : Arc) (u : List Upset) (s : State) : Guarded s (execRefereeComplete a u s) := by
  unfold execRefereeComplete
  split
  · exact guarded_act _ _ s
  · split <;> exact guarded_act _ _ s

theorem guarded_repeatComplete (a : Arc) (u : List Upset) (s : State) : Guarded s (execRepeatComplete a u s) := by
  unfold execRepeatComplete
  split
  · exact guarded_act _ _ s
  · split <;> exact guarded_act _ _ s

theorem guarded_dualCompare (cs : Cs) (u : List Upset) (s : State) : Guarded s (execDualCompare cs u s) := by
  simp only [execDualCompare]
  split <;> exact guarded_act _ _ s

theorem guarded_dualRefereeComplete (cs : Cs) (u : List Upset) (s : State) : Guarded s (execDualRefereeComplete cs u s) := by
  simp only [execDualRefereeComplete]
  split <;> exact guarded_act _ _ s

theorem guarded_shadowRunComplete (a : Arc) (u : List Upset) (s : State) : Guarded s (execShadowRunComplete a u s) := by
  simp only [execShadowRunComplete]
  split <;> exact guarded_act _ _ s

theorem guarded_commandComplete (w : Win) (d : DoneIn) (s : State) : Guarded s (execCommandComplete w d s) := by
  simp only [execCommandComplete]
  split <;> exact guarded_act _ _ s

/-- Every row but those of the supply and the resets waits for a block that runs. -/
theorem exec_guarded {c : Instr} (hc : actsHalted c = false) (s : State) : Guarded s (exec c s) := by
  delta exec
  cases c <;> dsimp only
  case por | porNLow | supplyRemoved | pwrWarnClear => cases hc
  case viOpen | viClose | sessionOpen | sessionKeyx | sessionClose | leaseTake | leaseDrop | planLoad | weightsLoad | measure
      | streamBind | stageWrite | stageCheck | stageCommitAt | jobSubmit | jobCheckpoint | jobResume | abort | resultAck
      | integritySet | evidenceGet | receiptCheckpoint | fwInfo | fwStage | errlogRead | keyDestroy | lifecycleRequest
      | debugUnlock | pairJoin | provisionOwner | revoke | provisionFleet => exact guarded_actCmd _ _ s
  case getVersion | getCapabilities | negotiateAlgorithms | getDigests | getCertificate | challenge | getMeasurements
      | setCertificate | getCsr => exact guarded_actSpdm _ _ s
  case inputClose | slotStart | release | checkWindow | notify => exact guarded_actFiring _ _ _ s
  case notice | ctx | key | resv | foldMsg | cmp | sig | part | state | cut | join => exact guarded_actMessage _ _ _ s
  case commit => exact guarded_commit _ s
  case pkeJobStart => exact guarded_pkeJobStart _ _ s
  case checkStart => exact guarded_checkStart _ s
  case checkComplete => exact guarded_checkComplete _ _ s
  case refereeComplete => exact guarded_refereeComplete _ _ s
  case repeatComplete => exact guarded_repeatComplete _ _ s
  case dualCompare => exact guarded_dualCompare _ _ s
  case dualRefereeComplete => exact guarded_dualRefereeComplete _ _ s
  case shadowRunComplete => exact guarded_shadowRunComplete _ _ s
  case commandComplete => exact guarded_commandComplete _ _ s
  case recordReady cs k ue => unfold execRecordReady; split <;> exact guarded_act _ _ s
  case recordLeaves cs => unfold execRecordLeaves; split <;> exact guarded_act _ _ s
  case heldRecordLeaves cs => unfold execHeldRecordLeaves; split <;> exact guarded_act _ _ s
  case checkpointWrite e => unfold execCheckpointWrite; split <;> exact guarded_act _ _ s
  case partArrival a r p => unfold execPartArrival; split <;> exact guarded_act _ _ s
  case waitTimeout a => unfold execWaitTimeout; split <;> exact guarded_act _ _ s
  case combTimeout a => unfold execCombTimeout; split <;> exact guarded_act _ _ s
  case captureDone a u => unfold execCaptureDone; split <;> exact guarded_act _ _ s
  case laneWdogExpiry l => unfold execLaneWdogExpiry; split <;> exact guarded_act _ _ s
  case checkpointWaitExpiry => unfold execCheckpointWaitExpiry; split <;> exact guarded_act _ _ s
  case pkeYieldPoint => unfold execPkeYieldPoint; split <;> exact guarded_act _ _ s
  case pkeJobEnd f => unfold execPkeJobEnd; split <;> exact guarded_act _ _ s
  case coastLimitExpiry => unfold execCoastLimitExpiry; exact guarded_act _ _ s
  case inputWrite => unfold execInputWrite; exact guarded_act _ _ s
  case sessionFaultAbort => unfold execSessionFaultAbort; exact guarded_act _ _ s
  case queuedSlotStart => unfold execQueuedSlotStart; exact guarded_act _ _ s
  case bulkResume => unfold execBulkResume; exact guarded_act _ _ s
  case selfTestDone => unfold execSelfTestDone; exact guarded_act _ _ s
  all_goals exact guarded_act _ _ s


/-! The rows of the supply and the resets. -/

theorem exec_por (st : Straps) (s : State) : exec (.por st) s = actPower (s.top.porLow || !s.top.supply)
    (fun s => { s with top := { s.top with supply := true, porLow := false, straps := st } }) s := rfl

theorem exec_porNLow (s : State) : exec .porNLow s = actPower (s.top.supply && !s.top.porLow) State.holdReset s := rfl

theorem exec_supplyRemoved (s : State) : exec .supplyRemoved s = actPower s.top.supply State.powerOff s := rfl

theorem exec_pwrWarnClear (s : State) : exec .pwrWarnClear s = actPower (s.top.supply && !s.top.porLow && s.top.halted)
    (fun s => s.restart 7 0xFF 0 0 s.health.lastBlock) s := rfl

/-- The outcome is the state itself, or a state settled. -/
def IdleOrSettled (s : State) (o : Host.Outcome State Fault Refusal) : Prop := o = .next s ∨ ∃ t, o = .next (s.settle t)

theorem idleOrSettled_act (g : Bool) (f : State → State) (s : State) : IdleOrSettled s (act g f s) :=
  (act_cases g f s).imp_right fun hrun => ⟨_, hrun⟩

theorem idleOrSettled_actPower (g : Bool) (f : State → State) (s : State) : IdleOrSettled s (actPower g f s) :=
  (actPower_cases g f s).imp_right fun hrun => ⟨_, hrun⟩

/-- Every row leaves the state, or ends by settling; none stops the machine. -/
theorem exec_cases (c : Instr) (s : State) : IdleOrSettled s (exec c s) := by
  cases hc : actsHalted c
  case false =>
    obtain ⟨g, f, h⟩ := exec_guarded hc s
    exact h ▸ idleOrSettled_act g f s
  case true =>
    match c, hc with
    | .por st, _ => rw [exec_por]; exact idleOrSettled_actPower _ _ s
    | .porNLow, _ => rw [exec_porNLow]; exact idleOrSettled_actPower _ _ s
    | .supplyRemoved, _ => rw [exec_supplyRemoved]; exact idleOrSettled_actPower _ _ s
    | .pwrWarnClear, _ => rw [exec_pwrWarnClear]; exact idleOrSettled_actPower _ _ s

/-! The step (log entry 6). -/

theorem step_front {c : Instr} {rest : List Instr} {s : State} (h : s.pending = c :: rest) :
    step s = exec c { s with pending := rest } := by
  unfold step
  rw [h]

theorem step_empty {s : State} (h : s.pending = []) : step s = .next s := by
  unfold step
  rw [h]

/-! The statements. -/

/-- Settles O1. -/
theorem stepRunsFront : Obligations.StepRunsFront := ⟨fun _ _ _ h => step_front h, fun _ h => step_empty h⟩

/-- Settles O2: a row that acts ends by settling, which puts back the queue that it found. -/
theorem commandsKeepQueue : Obligations.CommandsKeepQueue := by
  intro c s t h
  rcases exec_cases c s with hidle | ⟨u, hrun⟩
  · cases hidle.symm.trans h; rfl
  · cases hrun.symm.trans h; exact s.settle_pending u

/-- Settles O3. -/
theorem nothingStops : Obligations.NothingStops := by
  intro c s
  rcases exec_cases c s with hidle | ⟨u, hrun⟩
  · exact ⟨_, hidle⟩
  · exact ⟨_, hrun⟩

/-- A command keeps the invariant: it changes nothing, or settles DEVICE_DEGRADED at its end (log entry 37). -/
theorem exec_synced {c : Instr} {s t : State} (hs : s.Synced) (h : exec c s = .next t) : t.Synced := by
  rcases exec_cases c s with hidle | ⟨u, hrun⟩
  · cases hidle.symm.trans h; exact hs
  · cases hrun.symm.trans h; exact s.settle_synced u

/-- Settles O4: the queue is no condition of R393, so taking a command from it leaves the invariant to that command. -/
theorem stepKeepsDegraded : Obligations.StepKeepsDegraded := by
  intro s t hs h
  cases hq : s.pending with
  | nil => cases (step_empty hq).symm.trans h; exact hs
  | cons c rest => exact exec_synced (s := { s with pending := rest }) hs ((step_front hq).symm.trans h)

/-- Settles O5. -/
theorem resetIsSynced : Obligations.ResetIsSynced := by
  unfold Obligations.ResetIsSynced State.Synced
  decide

/-- Settles O6. -/
theorem haltedBlockIsStill : Obligations.HaltedBlockIsStill := by
  intro c s hlive hc
  obtain ⟨g, f, h⟩ := exec_guarded hc s
  rw [h]
  exact act_idle (by simp [hlive])

/-- Settles O60. -/
theorem resetValues : Obligations.ResetValues := by
  unfold Obligations.ResetValues
  refine ⟨by decide, by decide, by decide, by decide, by decide, by decide, by decide, by decide, by decide, by decide,
    by decide, fun _ => rfl, fun _ => rfl, fun _ => rfl, rfl, rfl, rfl, rfl⟩

end Sys2Proof.Machine
end

