-- ==== Sys2Proof/Proofs/Effects.lean ====
section
/-! PROOFS. How a row that acts reaches its effect, and what the updates of a command slot give. -/

namespace Sys2Proof.Machine

/-! A row that acts reaches its effect settled; where the effect leaves the conditions of R393 alone, the effect itself. -/

theorem reaches_act {c : Instr} {s : State} {g : Bool} {f : State → State} {P : State → Prop} (he : exec c s = act g f s)
    (hl : s.live = true) (hg : g = true) (h : P (s.settle (f s))) : Reaches c s P :=
  ⟨_, he.trans (act_runs hl hg), h⟩

theorem exec_act_synced {c : Instr} {s : State} {g : Bool} {f : State → State} (he : exec c s = act g f s)
    (hl : s.live = true) (hg : g = true) (hs : (f s).Synced) (hq : (f s).pending = s.pending) : exec c s = .next (f s) :=
  he.trans (act_runs_synced hl hg hs hq)

theorem reaches_act_synced {c : Instr} {s : State} {g : Bool} {f : State → State} {P : State → Prop}
    (he : exec c s = act g f s) (hl : s.live = true) (hg : g = true) (hs : (f s).Synced) (hq : (f s).pending = s.pending)
    (h : P (f s)) : Reaches c s P :=
  ⟨_, exec_act_synced he hl hg hs hq, h⟩

theorem exec_idle_of_act {c : Instr} {s : State} {g : Bool} {f : State → State} (he : exec c s = act g f s) (hg : g = false) :
    exec c s = .next s :=
  he.trans (act_idle (by simp [hg]))

/-! Changes of a command slot alone. -/

theorem State.window_of_onSlotOf (s : State) (w : Nat) (f : CmdSlot → CmdSlot) :
    (s.onSlotOf w f).window w = { s.window w with slot := f (s.window w).slot } := s.window_of_onWin w _

theorem State.window_of_onSlotOf_other (s : State) {v w : Nat} (h : v ≠ w) (f : CmdSlot → CmdSlot) :
    (s.onSlotOf w f).window v = s.window v := s.window_of_onWin_other _ h

theorem State.slotOnly_refl (s : State) (w : Nat) : s.SlotOnly s w := ⟨fun _ _ => rfl, rfl⟩

theorem State.SlotOnly.trans {s t u : State} {w : Nat} (h : s.SlotOnly t w) (g : t.SlotOnly u w) : s.SlotOnly u w :=
  ⟨fun v hv => (g.1 v hv).trans (h.1 v hv), by rw [g.2, h.2]⟩

theorem State.slotOnly_of_win {s t : State} (h : t.win = s.win) (w : Nat) : s.SlotOnly t w := by
  unfold State.SlotOnly State.window
  rw [h]
  exact ⟨fun _ _ => rfl, rfl⟩

theorem State.slotOnly_onSlotOf (s : State) (w : Nat) (f : CmdSlot → CmdSlot) : s.SlotOnly (s.onSlotOf w f) w :=
  ⟨fun _ hv => s.window_of_onSlotOf_other hv f, by rw [s.window_of_onSlotOf]⟩

theorem State.SlotOnly.isOpen {s t : State} {w : Nat} (h : s.SlotOnly t w) (v : Nat) : (t.window v).isOpen = (s.window v).isOpen := by
  by_cases hv : v = w
  · rw [hv, h.2]
  · rw [h.1 v hv]

theorem State.SlotOnly.gen {s t : State} {w : Nat} (h : s.SlotOnly t w) (v : Nat) : (t.window v).gen = (s.window v).gen := by
  by_cases hv : v = w
  · rw [hv, h.2]
  · rw [h.1 v hv]

/-- The invariant goes over to a state in which the flag and the conditions of R393 stand as they were. -/
theorem State.Synced.congr {s t : State} (hs : s.Synced) (hd : t.health.degraded = s.health.degraded)
    (ha : ∀ a, (t.arcade a).integ = (s.arcade a).integ) (hp : ∀ a, (t.segment a).state = (s.segment a).state)
    (hq : ∀ q, (t.qcOf q).state = (s.qcOf q).state) (hf : t.health.fcRestarting = s.health.fcRestarting)
    (ht : t.trng.state = s.trng.state) (hl : t.fm.lostPartner = s.fm.lostPartner) : t.Synced := by
  unfold State.Synced
  rw [hd, hs, State.degradedNow_congr ha hp hq hf ht hl]

/-! A projection that every step of a fold keeps, the fold keeps. -/

theorem foldl_keeps {σ α β : Type} (p : σ → β) (f : σ → α → σ) (h : ∀ s a, p (f s a) = p s) (l : List α) (s : σ) :
    p (l.foldl f s) = p s := by
  induction l generalizing s with
  | nil => rfl
  | cons a l ih => rw [List.foldl_cons, ih, h]

/-! What the end of a command leaves: everything but the flag, its notices and the queue. -/

@[simp] theorem State.settle_out (s t : State) : (s.settle t).out = t.out := (congrArg State.out (s.settle_frame t)).trans rfl
@[simp] theorem State.settle_free (s t : State) : (s.settle t).free = t.free := (congrArg State.free (s.settle_frame t)).trans rfl
@[simp] theorem State.settle_top (s t : State) : (s.settle t).top = t.top := (congrArg State.top (s.settle_frame t)).trans rfl
@[simp] theorem State.settle_ptu (s t : State) : (s.settle t).ptu = t.ptu := (congrArg State.ptu (s.settle_frame t)).trans rfl
@[simp] theorem State.settle_rb (s t : State) : (s.settle t).rb = t.rb := (congrArg State.rb (s.settle_frame t)).trans rfl
@[simp] theorem State.settle_policy (s t : State) : (s.settle t).policy = t.policy := (congrArg State.policy (s.settle_frame t)).trans rfl
@[simp] theorem State.settle_banks (s t : State) : (s.settle t).banks = t.banks := (congrArg State.banks (s.settle_frame t)).trans rfl
@[simp] theorem State.settle_plans (s t : State) : (s.settle t).plans = t.plans := (congrArg State.plans (s.settle_frame t)).trans rfl
@[simp] theorem State.settle_sess (s t : State) : (s.settle t).sess = t.sess := (congrArg State.sess (s.settle_frame t)).trans rfl
@[simp] theorem State.settle_cuts (s t : State) : (s.settle t).cuts = t.cuts := (congrArg State.cuts (s.settle_frame t)).trans rfl
@[simp] theorem State.settle_cutDue (s t : State) : (s.settle t).cutDue = t.cutDue := (congrArg State.cutDue (s.settle_frame t)).trans rfl
@[simp] theorem State.settle_cutWait (s t : State) : (s.settle t).cutWait = t.cutWait := (congrArg State.cutWait (s.settle_frame t)).trans rfl
@[simp] theorem State.settle_streams (s t : State) : (s.settle t).streams = t.streams := (congrArg State.streams (s.settle_frame t)).trans rfl
@[simp] theorem State.settle_results (s t : State) : (s.settle t).results = t.results := (congrArg State.results (s.settle_frame t)).trans rfl
@[simp] theorem State.settle_si (s t : State) : (s.settle t).si = t.si := (congrArg State.si (s.settle_frame t)).trans rfl
@[simp] theorem State.settle_se (s t : State) : (s.settle t).se = t.se := (congrArg State.se (s.settle_frame t)).trans rfl
@[simp] theorem State.settle_jobs (s t : State) : (s.settle t).jobs = t.jobs := (congrArg State.jobs (s.settle_frame t)).trans rfl
@[simp] theorem State.settle_arc (s t : State) : (s.settle t).arc = t.arc := (congrArg State.arc (s.settle_frame t)).trans rfl
@[simp] theorem State.settle_pz (s t : State) : (s.settle t).pz = t.pz := (congrArg State.pz (s.settle_frame t)).trans rfl
@[simp] theorem State.settle_boot (s t : State) : (s.settle t).boot = t.boot := (congrArg State.boot (s.settle_frame t)).trans rfl
@[simp] theorem State.settle_flash (s t : State) : (s.settle t).flash = t.flash := (congrArg State.flash (s.settle_frame t)).trans rfl
@[simp] theorem State.settle_fuses (s t : State) : (s.settle t).fuses = t.fuses := (congrArg State.fuses (s.settle_frame t)).trans rfl
@[simp] theorem State.settle_lc (s t : State) : (s.settle t).lc = t.lc := (congrArg State.lc (s.settle_frame t)).trans rfl
@[simp] theorem State.settle_keys (s t : State) : (s.settle t).keys = t.keys := (congrArg State.keys (s.settle_frame t)).trans rfl
@[simp] theorem State.settle_de (s t : State) : (s.settle t).de = t.de := (congrArg State.de (s.settle_frame t)).trans rfl
@[simp] theorem State.settle_pke (s t : State) : (s.settle t).pke = t.pke := (congrArg State.pke (s.settle_frame t)).trans rfl
@[simp] theorem State.settle_trng (s t : State) : (s.settle t).trng = t.trng := (congrArg State.trng (s.settle_frame t)).trans rfl
@[simp] theorem State.settle_uart (s t : State) : (s.settle t).uart = t.uart := (congrArg State.uart (s.settle_frame t)).trans rfl
@[simp] theorem State.settle_mgmt (s t : State) : (s.settle t).mgmt = t.mgmt := (congrArg State.mgmt (s.settle_frame t)).trans rfl
@[simp] theorem State.settle_pm (s t : State) : (s.settle t).pm = t.pm := (congrArg State.pm (s.settle_frame t)).trans rfl
@[simp] theorem State.settle_fm (s t : State) : (s.settle t).fm = t.fm := (congrArg State.fm (s.settle_frame t)).trans rfl
@[simp] theorem State.settle_msgs (s t : State) : (s.settle t).msgs = t.msgs := (congrArg State.msgs (s.settle_frame t)).trans rfl
@[simp] theorem State.settle_fcSram (s t : State) : (s.settle t).fcSram = t.fcSram := (congrArg State.fcSram (s.settle_frame t)).trans rfl
@[simp] theorem State.settle_qcMem (s t : State) : (s.settle t).qcMem = t.qcMem := (congrArg State.qcMem (s.settle_frame t)).trans rfl
@[simp] theorem State.settle_session (s t : State) (n : Nat) : (s.settle t).session n = t.session n := by
  unfold State.session; rw [State.settle_sess]
@[simp] theorem State.settle_stream (s t : State) (n : Nat) : (s.settle t).stream n = t.stream n := by
  unfold State.stream; rw [State.settle_streams]
@[simp] theorem State.settle_arcade (s t : State) (n : Nat) : (s.settle t).arcade n = t.arcade n := by
  unfold State.arcade; rw [State.settle_arc]
@[simp] theorem State.settle_job (s t : State) (n : Nat) : (s.settle t).job n = t.job n := by
  unfold State.job; rw [State.settle_jobs]
@[simp] theorem State.settle_plan (s t : State) (n : Nat) : (s.settle t).plan n = t.plan n := by
  unfold State.plan; rw [State.settle_plans]
@[simp] theorem State.settle_bank (s t : State) (n : Nat) : (s.settle t).bank n = t.bank n := by
  unfold State.bank; rw [State.settle_banks]
@[simp] theorem State.settle_segment (s t : State) (n : Nat) : (s.settle t).segment n = t.segment n := by
  unfold State.segment; rw [State.settle_pz]
@[simp] theorem State.settle_source (s t : State) (n : Nat) : (s.settle t).source n = t.source n := by
  unfold State.source; rw [State.settle_ptu]
@[simp] theorem State.settle_event (s t : State) (n : Nat) : (s.settle t).event n = t.event n := by
  unfold State.event; rw [State.settle_ptu]

/-- What the notice of DEVICE_DEGRADED does not touch, a window keeps as a command ends (R395). -/
theorem State.settle_window_proj {α : Type} (p : Window → α)
    (hp : ∀ (w : Window) (d n : Bool) (k : BitVec 8), p { w with errDegraded := d, errDegradedCnt := k, errNotice := n } = p w)
    (s t : State) (w : Nat) : p ((s.settle t).window w) = p (t.window w) := by
  unfold State.settle State.syncDegraded State.window
  split
  · rfl
  · dsimp only
    rw [Tab.get_mapListed _ _ _ _ rfl]
    split
    · exact hp _ _ _ _
    · rfl

@[simp] theorem State.settle_window_slot (s t : State) (w : Nat) : ((s.settle t).window w).slot = (t.window w).slot :=
  State.settle_window_proj Window.slot (fun _ _ _ _ => rfl) s t w
@[simp] theorem State.settle_window_isOpen (s t : State) (w : Nat) : ((s.settle t).window w).isOpen = (t.window w).isOpen :=
  State.settle_window_proj Window.isOpen (fun _ _ _ _ => rfl) s t w
@[simp] theorem State.settle_window_gen (s t : State) (w : Nat) : ((s.settle t).window w).gen = (t.window w).gen :=
  State.settle_window_proj Window.gen (fun _ _ _ _ => rfl) s t w

@[simp] theorem State.answers_settle {s t : State} {w : Nat} {r : Reply} : (s.settle t).Answers w r ↔ t.Answers w r := by
  unfold State.Answers
  rw [State.settle_window_slot]

@[simp] theorem State.replied_settle {s t : State} {w : Nat} {tag : BitVec 16} {op : Nat} {r : Reply} :
    (s.settle t).Replied w tag op r ↔ t.Replied w tag op r := by
  unfold State.Replied
  rw [State.settle_window_slot]

/-! A result that awaits its reply. -/

theorem State.answers_result (s : State) (w : Nat) (r : Reply) : (s.result w r).Answers w r := by
  unfold State.Answers
  rw [State.window_of_result]

theorem State.slotOnly_result (s : State) (w : Nat) (r : Reply) : s.SlotOnly (s.result w r) w := s.slotOnly_onSlotOf w _

theorem State.slotOnly_result_of_win {s t : State} (h : t.win = s.win) (w : Nat) (r : Reply) : s.SlotOnly (t.result w r) w :=
  (State.slotOnly_of_win h w).trans (t.slotOnly_result w r)

@[simp] theorem State.result_session (s : State) (w n : Nat) (r : Reply) : (s.result w r).session n = s.session n := rfl
@[simp] theorem State.result_stream (s : State) (w n : Nat) (r : Reply) : (s.result w r).stream n = s.stream n := rfl
@[simp] theorem State.result_arcade (s : State) (w n : Nat) (r : Reply) : (s.result w r).arcade n = s.arcade n := rfl
@[simp] theorem State.result_job (s : State) (w n : Nat) (r : Reply) : (s.result w r).job n = s.job n := rfl
@[simp] theorem State.result_plan (s : State) (w n : Nat) (r : Reply) : (s.result w r).plan n = s.plan n := rfl
@[simp] theorem State.result_bank (s : State) (w n : Nat) (r : Reply) : (s.result w r).bank n = s.bank n := rfl
@[simp] theorem State.result_segment (s : State) (w n : Nat) (r : Reply) : (s.result w r).segment n = s.segment n := rfl
@[simp] theorem State.result_source (s : State) (w n : Nat) (r : Reply) : (s.result w r).source n = s.source n := rfl
@[simp] theorem State.result_event (s : State) (w n : Nat) (r : Reply) : (s.result w r).event n = s.event n := rfl

/-! Reads of an account that is another's with one entry changed. -/

theorem State.session_of_upd_other {s t : State} {n m : Nat} {f : Session → Session} (h : t.sess = Tab.upd {} s.sess n f) (hm : m ≠ n) :
    t.session m = s.session m := by
  unfold State.session
  rw [h, Tab.get_upd_other _ _ _ hm]

/-! The rows that execute a running command. -/

theorem reaches_actCmd {c : Instr} {s : State} {cmd : Option Cmd} {x : Cmd} {f : Cmd → State → State} {P : State → Prop}
    (he : exec c s = actCmd cmd f s) (hl : s.live = true) (hc : cmd = some x) (h : P (s.settle (f x s))) : Reaches c s P := by
  subst hc
  exact reaches_act (f := f x) he hl rfl h

theorem reaches_actCmd_synced {c : Instr} {s : State} {cmd : Option Cmd} {x : Cmd} {f : Cmd → State → State} {P : State → Prop}
    (he : exec c s = actCmd cmd f s) (hl : s.live = true) (hc : cmd = some x) (hs : (f x s).Synced)
    (hq : (f x s).pending = s.pending) (h : P (f x s)) : Reaches c s P := by
  subst hc
  exact reaches_act_synced (f := f x) he hl rfl hs hq h

/-! The same, with the effect given as a state. -/

theorem reaches_act_to {c : Instr} {s t : State} {g : Bool} {f : State → State} {P : State → Prop} (he : exec c s = act g f s)
    (hl : s.live = true) (hg : g = true) (ht : f s = t) (hs : t.Synced) (hq : t.pending = s.pending) (h : P t) : Reaches c s P := by
  subst ht
  exact reaches_act_synced he hl hg hs hq h

theorem reaches_actCmd_to {c : Instr} {s t : State} {cmd : Option Cmd} {x : Cmd} {f : Cmd → State → State} {P : State → Prop}
    (he : exec c s = actCmd cmd f s) (hl : s.live = true) (hc : cmd = some x) (ht : f x s = t) (hs : t.Synced)
    (hq : t.pending = s.pending) (h : P t) : Reaches c s P := by
  subst ht
  exact reaches_actCmd_synced he hl hc hs hq h

end Sys2Proof.Machine
end

