-- ==== Sys2Proof/Proofs/ByteLaws.lean ====
section
/-! PROOFS. Numbers as bytes and back (R3), and slices. -/

namespace Sys2Proof

theorem Bytes.toNat_ofNat (n v : Nat) : Bytes.toNat (Bytes.ofNat n v) = v % 256 ^ n := by
  induction n generalizing v with
  | zero => simp [Bytes.ofNat, Bytes.toNat, Nat.mod_one]
  | succ n ih =>
    have hsplit : v % 256 ^ (n + 1) = v % 256 + 256 * (v / 256 % 256 ^ n) := by rw [pow_succ', Nat.mod_mul]
    rw [Bytes.ofNat, Bytes.toNat, ih, BitVec.toNat_ofNat, hsplit]

theorem Bytes.toNat_ofNat_of_lt {n v : Nat} (h : v < 256 ^ n) : Bytes.toNat (Bytes.ofNat n v) = v := by
  rw [Bytes.toNat_ofNat, Nat.mod_eq_of_lt h]

/-- A byte of a number is the number shifted down to it. -/
theorem Bytes.getElem?_ofNat {n i : Nat} (h : i < n) (v : Nat) : (Bytes.ofNat n v)[i]? = some (BitVec.ofNat 8 (v / 256 ^ i)) := by
  induction n generalizing v i with
  | zero => omega
  | succ n ih =>
    cases i with
    | zero => simp [Bytes.ofNat]
    | succ i =>
      rw [Bytes.ofNat, List.getElem?_cons_succ, ih (by omega), Nat.div_div_eq_div_mul, Nat.pow_succ, Nat.mul_comm]

@[simp] theorem Bytes.slice_length (b : Bytes) (o n : Nat) : (Bytes.slice b o n).length = n := by
  simp only [Bytes.slice, List.length_append, List.length_replicate, List.length_take, List.length_drop]
  omega

/-- A byte of a slice is that of the bytes it is taken from, and zero past their end. -/
theorem Bytes.getElem?_slice (b : Bytes) {o n i : Nat} (h : i < n) : (Bytes.slice b o n)[i]? = some (b.getD (o + i) 0) := by
  rw [Bytes.slice, List.getElem?_append]
  split
  · next hi =>
    rw [List.length_take, List.length_drop] at hi
    have hlt : o + i < b.length := by omega
    simp [h, hlt]
  · next hi =>
    rw [List.length_take, List.length_drop] at hi
    have hge : b.length ≤ o + i := by omega
    rw [List.getElem?_replicate, if_pos (by simp only [List.length_take, List.length_drop]; omega)]
    simp [hge]

/-- Two slices of one length are equal where each byte is. -/
theorem Bytes.slice_congr {b c : Bytes} {o p n : Nat} (h : ∀ i < n, b.getD (o + i) 0 = c.getD (p + i) 0) :
    Bytes.slice b o n = Bytes.slice c p n := by
  apply List.ext_getElem?
  intro i
  rcases Nat.lt_or_ge i n with hi | hi
  · rw [Bytes.getElem?_slice b hi, Bytes.getElem?_slice c hi, h i hi]
  · rw [List.getElem?_eq_none (by simpa using hi), List.getElem?_eq_none (by simpa using hi)]

/-- A slice that spells the bytes of a list is that list. -/
theorem Bytes.slice_eq {b c : Bytes} {o : Nat} (h : ∀ i < c.length, b.getD (o + i) 0 = c.getD i 0) :
    Bytes.slice b o c.length = c := by
  apply List.ext_getElem?
  intro i
  rcases Nat.lt_or_ge i c.length with hi | hi
  · rw [Bytes.getElem?_slice b hi, h i hi, List.getD_eq_getElem?_getD, List.getElem?_eq_getElem hi]
    rfl
  · rw [List.getElem?_eq_none (by simpa using hi), List.getElem?_eq_none hi]

/-- A slice within the first of two lists. -/
theorem Bytes.slice_append_left {a b : Bytes} {o n : Nat} (h : o + n ≤ a.length) :
    Bytes.slice (a ++ b) o n = Bytes.slice a o n := by
  apply Bytes.slice_congr
  intro i hi
  rw [List.getD_append _ _ _ _ (by omega)]

/-- A slice within the second of two lists. -/
theorem Bytes.slice_append_right {a b : Bytes} {o n : Nat} (h : a.length ≤ o) :
    Bytes.slice (a ++ b) o n = Bytes.slice b (o - a.length) n := by
  apply Bytes.slice_congr
  intro i _
  rw [List.getD_append_right _ _ _ _ (by omega)]
  congr 1
  omega

theorem Bytes.slice_self (b : Bytes) : Bytes.slice b 0 b.length = b := Bytes.slice_eq fun i _ => by rw [Nat.zero_add]

/-- Bytes written from an offset on, as far as the list reaches. -/
theorem Bytes.getElem?_foldl_set (p : Bytes) (o : Nat) (f : Nat → Byte) (n i : Nat) (h : o + n ≤ p.length) :
    ((List.range n).foldl (fun (p : Bytes) k => p.set (o + k) (f k)) p)[i]?
      = if o ≤ i ∧ i < o + n then some (f (i - o)) else p[i]? := by
  induction n with
  | zero => simp
  | succ n ih =>
    have hlen (m : Nat) : ((List.range m).foldl (fun (p : Bytes) k => p.set (o + k) (f k)) p).length = p.length := by
      induction m with
      | zero => rfl
      | succ m ihm => rw [List.range_succ, List.foldl_append]; simpa using ihm
    rw [List.range_succ, List.foldl_append, List.foldl_cons, List.foldl_nil, List.getElem?_set, ih (by omega)]
    by_cases hi : o + n = i
    · have hlt : i < p.length := by omega
      simp only [hi, hlen, hlt, if_true]
      rw [if_pos (by omega), ← hi, Nat.add_sub_cancel_left]
    · rw [if_neg hi]
      have hiff : (o ≤ i ∧ i < o + n) ↔ (o ≤ i ∧ i < o + (n + 1)) := by omega
      simp only [hiff]

/-- The eight bytes of a word, least significant first, are its bytes as a number. -/
theorem Bytes.ofNat_word (d : Word) : Bytes.ofNat 8 d.toNat = (List.range 8).map fun i => (d >>> (8 * i)).setWidth 8 := by
  apply List.ext_getElem?
  intro i
  rcases Nat.lt_or_ge i 8 with hi | hi
  · rw [Bytes.getElem?_ofNat hi, List.getElem?_map, List.getElem?_range hi, Option.map_some]
    congr 1
    apply BitVec.eq_of_toNat_eq
    rw [BitVec.toNat_ofNat, BitVec.toNat_setWidth, BitVec.toNat_ushiftRight, Nat.shiftRight_eq_div_pow, Nat.pow_mul]
  · rw [List.getElem?_eq_none (by simpa using hi), List.getElem?_eq_none (by simpa using hi)]

end Sys2Proof
end

