-- ==== Sys2Proof/Proofs/Mailbox.lean ====
section
/-! PROOFS. Register writes of a window, the packet, post, flush, the parameter port and VI_CKPT_FREE. -/

namespace Sys2Proof.Machine

/-! A full T0 write in a window of a READY block reaches its register. -/

theorem State.t0Write_ready {s : State} (hready : s.boot.step = 12) {w off : Nat} (hw : w ≤ 64) (ho : off < 0x10000)
    (halign : off % 8 = 0) (d : Word) : s.t0Write (w * 0x10000 + off) d 0xFF = s.windowWrite w off d 0xFF := by
  have hwin : w ≠ 65 := by omega
  have hoff : off / 8 * 8 = off := by omega
  simp [s.t0Write_windowOffset (by omega : w ≤ 65) ho, hwin, hready, hoff]

theorem State.t0Read_ready {s : State} (hready : s.boot.step = 12) {w off : Nat} (hw : w ≤ 64) (ho : off < 0x10000)
    (halign : off % 8 = 0) : s.t0Read (w * 0x10000 + off) = some (BitVec.ofNat 64 (s.windowRead w off)) := by
  have hwin : w ≠ 65 := by omega
  have hoff : off / 8 * 8 = off := by omega
  simp [s.t0Read_windowOffset (by omega : w ≤ 65) ho, hwin, hready, hoff]

/-- The write's row ends in the register's own effect, where that leaves the conditions of R393 alone. -/
theorem exec_t0Write_ready {s : State} (hs : s.Ready) (hb : s.top.blkRst = false) {w off : Nat} (hw : w ≤ 64)
    (ho : off < 0x10000) (halign : off % 8 = 0) (d : Word) (hsync : (s.windowWrite w off d 0xFF).Synced)
    (hq : (s.windowWrite w off d 0xFF).pending = s.pending) :
    exec (.registerWrite (.t0 (t0Addr w off) 0xFF) d) s = .next (s.windowWrite w off d 0xFF) := by
  obtain ⟨⟨hlive, _⟩, hready⟩ := hs
  have he := exec_registerWrite_t0 (t0Addr w off) 0xFF d s
  have hwrite : s.t0Write (t0Addr w off).toNat d 0xFF = s.windowWrite w off d 0xFF := by
    rw [t0Addr_toNat (by omega) ho, State.t0Write_ready hready hw ho halign]
  rw [← hwrite] at hsync hq ⊢
  exact exec_act_synced he hlive (by simp [hb]) hsync hq

/-! Flags that a 1 clears (R7, R380). -/

/-- Settles O9. -/
theorem flagsClearByOne : Obligations.FlagsClearByOne := by
  intro s d hs hb
  refine ⟨?health, ?kerb, ?fumas, ?window⟩
  case health => exact exec_t0Write_ready hs hb (by decide) (by decide) (by decide) d hs.1.2 rfl
  case kerb => exact exec_t0Write_ready hs hb (by decide) (by decide) (by decide) d hs.1.2 rfl
  case fumas => exact exec_t0Write_ready hs hb (by decide) (by decide) (by decide) d hs.1.2 rfl
  case window =>
    intro w
    refine ⟨_, exec_t0Write_ready hs hb (by omega) (by decide) (by decide) d hs.1.2 rfl, rfl, ?_, ?_⟩
    · exact fun v hv => s.window_of_onWin_other _ hv
    · exact s.window_of_onWin w.val _

/-! The packet (R235). -/

/-- A full write of a packet word, where the slot is not sealed. -/
theorem CmdSlot.writePkt_open {c : CmdSlot} (h : c.state ≠ .closed) (off : Nat) (d : Word) :
    c.writePkt off d 0xFF
      = { c with pkt := (List.range 8).foldl (fun (p : Bytes) i => p.set (off + i) ((d >>> (8 * i)).setWidth 8)) c.pkt } := by
  have hstrobes : ∀ i ∈ List.range 8, (0xFF : BitVec 8).getLsbD i = true := by decide
  unfold CmdSlot.writePkt
  split
  · next hc => exact absurd hc h
  · have hpkt : (List.range 8).foldl (fun (p : Bytes) i =>
          if (0xFF : BitVec 8).getLsbD i then p.set (off + i) ((d >>> (8 * i)).setWidth 8) else p) c.pkt
        = (List.range 8).foldl (fun (p : Bytes) i => p.set (off + i) ((d >>> (8 * i)).setWidth 8)) c.pkt :=
      List.foldl_ext _ _ _ fun p i hi => if_pos (hstrobes i hi)
    rw [hpkt]

/-- The word just written reads back. -/
theorem packetWord_same (p : Bytes) (d : Word) {o : Nat} (h : o + 8 ≤ p.length) :
    Bytes.num ((List.range 8).foldl (fun (p : Bytes) i => p.set (o + i) ((d >>> (8 * i)).setWidth 8)) p) o 8 = d.toNat := by
  have hslice : Bytes.slice ((List.range 8).foldl (fun (p : Bytes) i => p.set (o + i) ((d >>> (8 * i)).setWidth 8)) p) o
      (Bytes.ofNat 8 d.toNat).length = Bytes.ofNat 8 d.toNat := by
    apply Bytes.slice_eq
    intro i hi
    rw [Bytes.ofNat_length] at hi
    rw [List.getD_eq_getElem?_getD, Bytes.getElem?_foldl_set p o (fun i => (d >>> (8 * i)).setWidth 8) 8 _ h,
      if_pos (by omega), Bytes.ofNat_word, List.getD_eq_getElem?_getD, List.getElem?_map, List.getElem?_range hi,
      Nat.add_sub_cancel_left]
    rfl
  rw [Bytes.ofNat_length] at hslice
  rw [Bytes.num, hslice, Bytes.toNat_ofNat_of_lt d.isLt]

/-- The other words of the packet stand. -/
theorem packetWord_other (p : Bytes) (d : Word) {o i : Nat} (h : o + 8 ≤ p.length) (hi : i + 8 ≤ o ∨ o + 8 ≤ i) :
    Bytes.num ((List.range 8).foldl (fun (p : Bytes) i => p.set (o + i) ((d >>> (8 * i)).setWidth 8)) p) i 8
      = Bytes.num p i 8 := by
  unfold Bytes.num
  congr 1
  apply Bytes.slice_congr
  intro k hk
  rw [List.getD_eq_getElem?_getD, Bytes.getElem?_foldl_set p o (fun i => (d >>> (8 * i)).setWidth 8) 8 _ h,
    if_neg (by omega), List.getD_eq_getElem?_getD]

theorem State.windowWrite_packet (s : State) (w : Nat) (k : Fin 8) (d : Word) (strb : BitVec 8) :
    s.windowWrite w (8 * k.val) d strb = s.onSlotOf w fun c => c.writePkt (8 * k.val) d strb := by
  have hk : 8 * k.val < 0x40 := by omega
  simp only [State.windowWrite, hk, if_true]

theorem State.windowRead_packet (s : State) (w : Nat) (k : Fin 8) :
    s.windowRead w (8 * k.val) = Bytes.num (s.window w).slot.pkt (8 * k.val) 8 := by
  have hk : 8 * k.val < 0x40 := by omega
  simp only [State.windowRead, hk, if_true]

theorem setWidth14_eq_and (d : Word) : BitVec.ofNat 64 (d.setWidth 14).toNat = d &&& 0x3FFF := by
  apply BitVec.eq_of_toNat_eq
  have hmask : (0x3FFF : Word).toNat = 2 ^ 14 - 1 := rfl
  rw [BitVec.toNat_ofNat, BitVec.toNat_setWidth, BitVec.toNat_and, hmask, Nat.and_two_pow_sub_one_eq_mod]
  omega

/-- Settles O10. -/
theorem mailboxReadsBack : Obligations.MailboxReadsBack := by
  refine ⟨?session, ?omap, ?packet⟩
  case session =>
    intro s w d hs hb
    have hw : w.val ≤ 64 := by omega
    refine ⟨_, exec_t0Write_ready hs hb hw (by decide) (by decide) d hs.1.2 rfl, rfl, fun v hv => ?others, ?reads⟩
    case others => exact s.window_of_onWin_other _ hv
    case reads =>
      rw [State.t0Read_ready (by exact hs.2) hw (by decide) (by decide)]
      have hsel : (s.windowWrite w.val 0x1008 d 0xFF).windowRead w.val 0x1008 = (d.setWidth 14).toNat :=
        congrArg (fun x : Window => x.sessSel.toNat) (s.window_of_onWin w.val fun x => { x with sessSel := d.setWidth 14 })
      rw [hsel, setWidth14_eq_and]
  case omap => exact fun s d hs hb => exec_t0Write_ready hs hb (by decide) (by decide) (by decide) d hs.1.2 rfl
  case packet =>
    intro s w k d hs hb hopen hlen
    have hw : w.val ≤ 64 := by omega
    have hword : 8 * k.val + 8 ≤ (s.window w.val).slot.pkt.length := by omega
    have hwrite := s.windowWrite_packet w.val k d 0xFF
    have hpkt : (s.windowWrite w.val (8 * k.val) d 0xFF).window w.val = _ :=
      (congrArg (fun t : State => t.window w.val) hwrite).trans (s.window_of_onSlotOf w.val _)
    rw [CmdSlot.writePkt_open hopen] at hpkt
    refine ⟨_, exec_t0Write_ready hs hb hw (by omega) (by omega) d (hwrite ▸ hs.1.2) (hwrite ▸ rfl), ?frame, ?slot, ?reads, ?others⟩
    case frame => rw [hwrite]; rfl
    case slot => rw [hwrite]; exact s.slotOnly_onSlotOf w.val _
    case reads =>
      rw [State.t0Read_ready (by rw [hwrite]; exact hs.2) hw (by omega) (by omega), State.windowRead_packet, hpkt,
        packetWord_same _ d hword, BitVec.ofNat_toNat, BitVec.setWidth_eq]
    case others =>
      intro j hj
      have hne : j.val ≠ k.val := fun h => hj (Fin.ext h)
      rw [State.t0Read_ready (by rw [hwrite]; exact hs.2) hw (by omega) (by omega), State.t0Read_ready hs.2 hw (by omega) (by omega),
        State.windowRead_packet, State.windowRead_packet, hpkt, packetWord_other _ d hword (by omega)]

/-! The rows that act on a slot of a READY block. -/

theorem reaches_onSlotOf {c : Instr} {s : State} {w : Nat} {f : CmdSlot → CmdSlot} {P : State → Prop}
    (he : exec c s = act (s.boot.step == 12) (fun s => s.onSlotOf w f) s) (hs : s.Ready)
    (h : P (s.onSlotOf w f)) : Reaches c s P :=
  reaches_act_synced he hs.1.1 (by simp [hs.2]) hs.1.2 rfl h

/-- Settles O11. -/
theorem postByState : Obligations.PostByState := by
  intro s w hs
  refine reaches_onSlotOf (exec_post w s) hs ⟨rfl, s.slotOnly_onSlotOf _ _, ?idle, ?unmoved, ?running⟩ <;>
    rw [s.window_of_onSlotOf]
  case idle => intro h; simp only [CmdSlot.post, h]
  case unmoved => rintro (h | h) <;> simp only [CmdSlot.post, h]
  case running =>
    intro h hbehind _
    refine ⟨fun hop => ?_, fun hop => ?_⟩
    · simp [CmdSlot.post, h, hbehind, hop]
    · simp [CmdSlot.post, h, hop, CmdSlot.refusePost]

theorem strobed_length (d : Word) (strb : BitVec 8) : (strobed d strb).length = 8 := by simp [strobed]

theorem strobed_getElem? (d : Word) (strb : BitVec 8) (i : Fin 8) :
    (strobed d strb)[i.val]? = some (if strb.getLsbD i.val then (d >>> (8 * i.val)).setWidth 8 else 0) := by
  rw [strobed, List.getElem?_map, List.getElem?_range i.isLt, Option.map_some]

/-- Settles O12. -/
theorem parametersAppendAndFlush : Obligations.ParametersAppendAndFlush := by
  intro s w d strb hs
  constructor
  · refine reaches_onSlotOf (exec_paramAppend w d strb s) hs ⟨rfl, s.slotOnly_onSlotOf _ _, ?taken, ?late⟩ <;>
      rw [s.window_of_onSlotOf]
    case taken =>
      intro h
      refine ⟨?_, strobed_length d strb, strobed_getElem? d strb⟩
      rcases h with h | h <;> simp only [CmdSlot.append, h]
    case late => rintro (h | h) <;> simp only [CmdSlot.append, h, CmdSlot.lateWriteNow]
  · refine reaches_onSlotOf (exec_flush w s) hs ⟨rfl, s.slotOnly_onSlotOf _ _, ?cleared, ?kept⟩ <;> rw [s.window_of_onSlotOf]
    case cleared => rintro (h | h) <;> simp only [CmdSlot.flush, h]
    case kept => rintro (h | h) <;> simp only [CmdSlot.flush, h]

/-! VI_CKPT_FREE (R487). -/

theorem State.visible_iff (s : State) (w sc : Nat) :
    s.visible w sc = true ↔ (s.session sc).state ≠ .free ∧ (s.session sc).window = w := by simp [State.visible]

/-- Settles O13; that the mark of an ignored write stays with its window is the model's reading (log entry 60). -/
theorem checkpointEntriesFreed : Obligations.CheckpointEntriesFreed := by
  intro s w d hs
  dsimp only
  have he := exec_ckptFreeWrite w d s
  by_cases htaken : (s.visible w.val (s.window w.val).sessSel.toNat && decide (((d.setWidth 32 : BitVec 32)
      - (s.session (s.window w.val).sessSel.toNat).freed).toNat ≤ ((s.session (s.window w.val).sessSel.toNat).written
      - (s.session (s.window w.val).sessSel.toNat).freed).toNat)) = true
  · have heffect : s.ckptFree w.val d = s.onSess (s.window w.val).sessSel.toNat fun x => { x with freed := d.setWidth 32 } := by
      rw [State.ckptFree, if_pos htaken]
    rw [Bool.and_eq_true, State.visible_iff, decide_eq_true_eq, and_assoc] at htaken
    refine reaches_act_synced he hs.1.1 (by simp [hs.2]) (heffect ▸ hs.1.2) (heffect ▸ rfl)
      ⟨fun _ => ?_, fun hnot => absurd htaken hnot⟩
    rw [heffect]
    exact ⟨rfl, s.session_of_onSess _ _, fun n hn => s.session_of_onSess_other _ hn⟩
  · have heffect : s.ckptFree w.val d
        = s.onWin w.val fun win => { win with freeBad := true, freeBadCnt := win.freeBadCnt + 1 } := by
      rw [State.ckptFree, if_neg htaken]
    rw [Bool.and_eq_true, State.visible_iff, decide_eq_true_eq, and_assoc] at htaken
    refine reaches_act_synced he hs.1.1 (by simp [hs.2]) (heffect ▸ hs.1.2) (heffect ▸ rfl)
      ⟨fun htake => absurd htake htaken, fun _ => ?_⟩
    rw [heffect]
    exact ⟨rfl, fun v hv => s.window_of_onWin_other _ hv, s.window_of_onWin _ _⟩

end Sys2Proof.Machine
end

