-- ==== Sys2Proof/Proofs/ViCloses.lean ====
section
/-! PROOFS. VI_CLOSE (R206, R249, R262). -/

namespace Sys2Proof.Machine

theorem exec_viClose (w : Win) (s : State) :
    exec (.viClose w) s = actCmd (s.fcCmd w.val 0x02) (fun c s => s.viClose w.val c) s := rfl

/-! The banks through the end of a VI's work. -/

theorem State.dropRetained_banks (s : State) (w mask : Nat) : (s.dropRetained w mask).banks = s.banks :=
  foldl_keeps State.banks _ (fun s x => by split <;> rfl) _ s

theorem State.bank_of_emptyBank (s : State) (w : Nat) : (s.emptyBank w).bank w = {} := by
  unfold State.bank State.emptyBank
  exact Tab.get_set_same (α := Bank) {} _ w {}

theorem State.bank_of_abortVi (s : State) (w : Nat) : (s.abortVi w).bank w = {} := by
  unfold State.abortVi State.bank
  rw [State.dropRetained_banks]
  exact State.bank_of_emptyBank _ w

/-- A closed VI: its plan and its bank are empty (log entry 59), and its window has no generation. -/
theorem State.closeVi_closes (s : State) (n : Nat) :
    ((s.closeVi n).window n).isOpen = false ∧ ((s.closeVi n).window n).gen = 0 ∧ (s.closeVi n).plan n = {}
      ∧ (s.closeVi n).bank n = {} := by
  have hwin : (s.closeVi n).window n = _ := State.window_of_onWin _ n _
  have hplan : (s.closeVi n).plan n = {} := by
    unfold State.plan State.closeVi
    exact Tab.get_set_same (α := ViPlan) {} _ n {}
  exact ⟨by rw [hwin], by rw [hwin], hplan, s.bank_of_abortVi n⟩

theorem State.viClose_open {s : State} {w n : Nat} {c : Cmd} (hn : (if w = 64 then c.u 16 1 else w) = n) (hle : n ≤ 64)
    (hopen : (s.window n).isOpen = true) :
    s.viClose w c = ((if n = w then s else s.endRunning n stAborted).closeVi n).result w (.ok 0) := by
  have hpermitted : ¬ (decide (64 < n) || !(s.window n).isOpen) = true := by
    rw [hopen]
    simpa using hle
  subst hn
  rw [State.viClose, if_neg hpermitted]

/-- Settles O15. -/
theorem viCloses : Obligations.ViCloses := by
  intro s w c hl hc
  dsimp only
  generalize hn : (if w.val = 64 then c.u 16 1 else w.val) = n
  intro hle hopen
  refine reaches_actCmd (exec_viClose w s) hl hc ?_
  rw [State.viClose_open hn hle hopen]
  generalize (if n = w.val then s else s.endRunning n stAborted) = u
  obtain ⟨hclosed, hgen, hplan, hbank⟩ := u.closeVi_closes n
  have hslot := (u.closeVi n).slotOnly_result w.val (.ok 0)
  simp only [State.settle_window_isOpen, State.settle_window_gen, State.settle_plan, State.settle_bank, State.answers_settle]
  exact ⟨(hslot.isOpen n).trans hclosed, (hslot.gen n).trans hgen, hplan, hbank, State.answers_result _ _ _⟩

end Sys2Proof.Machine
end

