-- ==== Sys2Proof/Proofs/EndingWork.lean ====
section
/-! PROOFS. What the end of streams, jobs and cuts leaves alone: everything but the work itself, the account of its sessions, the
messages and the link. -/

namespace Sys2Proof.Machine

/-! What a session keeps while its records fold, its voids count and its cuts are taken (R202, R210, R222, R488). -/

/-- A session without its open range, counters and old keys. -/
def Session.lasting (x : Session) : Session :=
  { x with
    voidedOpen := 0, voids := [], perf := [], oldKeys := [], acc := 0, releasedOpen := 0, lastReleased := 0, cutLast := 0
    openPlans := [], restartFlag := false, rangeKeyx := 0, closeCut := false }

/-- What stands beside the work: the state without what the end of work writes, the link's state, and the lasting part of each
session. -/
structure Beside where
  rest : State
  link : FmState
  mode : Nat
  lower : Bool
  sess : Nat → Session

def State.beside (s : State) : Beside where
  rest := { s with
    out := [], sess := [], cuts := [], cutDue := [], cutWait := [], streams := [], results := [], jobs := [], arc := [], pz := {}
    ptu := { s.ptu with events := [] }, pm := { s.pm with descents := [] }, msgs := [], fm := {}, keys := {}, de := [] }
  link := s.fm.state
  mode := s.fm.mode
  lower := s.fm.lower
  sess n := (s.session n).lasting

theorem State.beside_onSess (s : State) (sc : Nat) {f : Session → Session} (h : ∀ x, (f x).lasting = x.lasting) :
    (s.onSess sc f).beside = s.beside := by
  have hsess : ∀ n, ((s.onSess sc f).session n).lasting = (s.session n).lasting := by
    intro n
    by_cases hn : n = sc
    · rw [hn, State.session_of_onSess, h]
    · rw [State.session_of_onSess_other _ _ hn]
  simp only [State.beside, hsess]
  rfl

theorem State.beside_perf (s : State) (sc n k : Nat) : (s.perf sc n k).beside = s.beside := s.beside_onSess sc fun _ => rfl

/-! Messages on the link (R428). -/

theorem State.beside_pumpLink (n : Nat) (s : State) : (State.pumpLink n s).beside = s.beside := by
  induction n generalizing s with
  | zero => rfl
  | succ n ih =>
    rw [State.pumpLink]
    dsimp only
    split
    · rfl
    · split
      · rfl
      · exact ih _

theorem State.beside_sendMessage (s : State) (type chan : Nat) (body : Bytes) : (s.sendMessage type chan body).beside = s.beside := by
  unfold State.sendMessage
  split
  · rfl
  · exact State.beside_pumpLink _ _

theorem State.beside_sendCtx (s : State) (sc : Nat) : (s.sendCtx sc).beside = s.beside := by
  unfold State.sendCtx
  split
  · exact s.beside_sendMessage _ _ _
  · rfl

theorem State.beside_sendFold (s : State) (sc rseq : Nat) (tag : BitVec 128) (time : Nat) (void : Bool) :
    (s.sendFold sc rseq tag time void).beside = s.beside := by
  unfold State.sendFold
  split
  · exact s.beside_sendMessage _ _ _
  · rfl

theorem State.beside_sendCut (s : State) (sc no high : Nat) : (s.sendCut sc no high).beside = s.beside := by
  unfold State.sendCut
  split
  · exact s.beside_sendMessage _ _ _
  · rfl

/-! Cuts (R222). -/

theorem State.beside_takeCut (s : State) (sc : Nat) (k : CutKind) (nonce : BitVec 256) (waiter : Option Nat) :
    (s.takeCut sc k nonce waiter).beside = s.beside := by
  unfold State.takeCut
  split
  · rw [State.beside_sendCut, State.beside_onSess]
    · rfl
    · exact fun _ => rfl
  · split <;> rfl

theorem State.beside_takeDueCuts (s : State) (sel : Nat → Bool) : (s.takeDueCuts sel).beside = s.beside :=
  foldl_keeps State.beside _ (fun s _ => s.beside_takeCut _ _ _ _) _ _

theorem State.beside_cut (s : State) (sc : Nat) (k : CutKind) (nonce : BitVec 256) (waiter : Option Nat) :
    (s.cut sc k nonce waiter).beside = s.beside := by
  unfold State.cut
  split
  · rfl
  · split
    · rw [State.beside_takeCut, State.beside_takeDueCuts]
    · rfl

/-! Records without a release (R202). -/

/-- A void, before the cut that a long list of them asks for. -/
def State.voided (s : State) (sc rseq : Nat) : State :=
  State.sendFold (State.perf (s.onSess sc fun x => { x with voidedOpen := x.voidedOpen + 1, voids := addVoid rseq x.voids }) sc 12 1)
    sc rseq 0 0 true

theorem State.beside_voided (s : State) (sc rseq : Nat) : (s.voided sc rseq).beside = s.beside := by
  unfold State.voided
  rw [State.beside_sendFold, State.beside_perf, State.beside_onSess]
  exact fun _ => rfl

theorem State.void_cases (s : State) (sc rseq : Nat) :
    s.void sc rseq = s ∨ s.void sc rseq = s.voided sc rseq ∨ s.void sc rseq = (s.voided sc rseq).cut sc .plans := by
  unfold State.void
  split
  · exact .inl rfl
  · dsimp only
    split
    · exact .inr (.inr rfl)
    · exact .inr (.inl rfl)

theorem State.beside_void (s : State) (sc rseq : Nat) : (s.void sc rseq).beside = s.beside := by
  rcases s.void_cases sc rseq with h | h | h <;> rw [h]
  · exact s.beside_voided sc rseq
  · rw [State.beside_cut, State.beside_voided]

theorem State.beside_voids {α : Type} (l : List α) (sc rseq : α → Nat) (s : State) :
    (l.foldl (fun s x => s.void (sc x) (rseq x)) s).beside = s.beside :=
  foldl_keeps State.beside _ (fun s _ => s.beside_void _ _) _ _

/-! The end of a job, of a stream, and of a session's work. -/

theorem State.beside_message (s : State) (vi v : Nat) : (s.message vi v).beside = s.beside := by
  rw [State.message_frame]
  rfl

theorem State.beside_endJob (s : State) (j status : Nat) : (s.endJob j status).beside = s.beside := by
  unfold State.endJob
  dsimp only
  split
  · rfl
  · refine Eq.trans (b := State.beside (State.message _ _ _)) rfl ?_
    rw [State.beside_message, State.beside_voids]
    rfl

theorem State.beside_endJobs (l : List Nat) (status : Nat) (s : State) :
    (l.foldl (fun s j => s.endJob j status) s).beside = s.beside :=
  foldl_keeps State.beside _ (fun s _ => s.beside_endJob _ _) _ _

theorem State.beside_settleKeys (s : State) (sc : Nat) : (s.settleKeys sc).beside = s.beside := s.beside_onSess sc fun _ => rfl

theorem State.beside_dropWork (s : State) (f : Prog → Bool) (g : Check → Bool) : (s.dropWork f g).beside = s.beside := rfl

theorem State.beside_unbound (s : State) (x : Tab Stream) (r : Tab ResultSlot) (e : Tab Event) :
    State.beside { s with streams := x, results := r, ptu := { s.ptu with events := e } } = s.beside := rfl

theorem State.beside_endStream (s : State) (cs : Nat) : (s.endStream cs).beside = s.beside := by
  unfold State.endStream
  dsimp only
  split
  · rfl
  · rw [State.beside_settleKeys]
    rw [State.beside_unbound, State.beside_dropWork, State.beside_voids]

theorem State.beside_endStreams (l : List Nat) (s : State) : (l.foldl (fun s cs => s.endStream cs) s).beside = s.beside :=
  foldl_keeps State.beside _ (fun s _ => s.beside_endStream _) _ _

theorem State.beside_zeroisePages (s : State) (pages : List Nat) (toPool emergency : Bool) :
    (s.zeroisePages pages toPool emergency).beside = s.beside := by
  unfold State.zeroisePages
  dsimp only
  rw [foldl_keeps State.beside _ fun s n => by split <;> rfl]
  exact foldl_keeps State.beside _ (by intros; rfl) _ _

theorem State.beside_releaseRegions (s : State) (sc : Nat) : (s.releaseRegions sc).beside = s.beside := by
  unfold State.releaseRegions
  refine foldl_keeps State.beside _ (fun s x => ?_) _ _
  dsimp only
  split
  · rfl
  · split <;> rfl

theorem State.beside_keys (s : State) (k : Keys) : State.beside { s with keys := k } = s.beside := rfl

theorem State.beside_giveBack (s : State) (sc : Nat) : (s.giveBack sc).beside = s.beside := by
  unfold State.giveBack
  dsimp only
  rw [State.beside_keys, State.beside_onSess, State.beside_releaseRegions, State.beside_zeroisePages]
  exact fun _ => rfl

theorem State.beside_closeReady (s : State) (sc : Nat) : (s.closeReady sc).beside = s.beside := by
  unfold State.closeReady
  dsimp only
  split
  · rw [State.beside_cut, State.beside_giveBack, State.beside_dropWork, State.beside_endStreams]
  · rfl

/-! The key that waits in KREG (R321). -/

theorem State.beside_takeKreg (s : State) (l : KregLoad) : (s.takeKreg l).beside = s.beside := by
  unfold State.takeKreg
  dsimp only
  split <;> rfl

theorem State.beside_deOpenKeyed (s : State) (n : Nat) (ctrl : Word) (l : KregLoad) : (s.deOpenKeyed n ctrl l).beside = s.beside := by
  unfold State.deOpenKeyed
  split <;> rfl

theorem State.beside_nextLoad (l : List KregLoad) (s : State) : (State.nextLoad l s).beside = s.beside := by
  induction l generalizing s with
  | nil => rfl
  | cons l r ih =>
    rw [State.nextLoad]
    split
    · rw [ih, State.beside_deOpenKeyed]
    · rw [State.beside_takeKreg]
      rfl

theorem State.beside_emptyKreg (s : State) : s.emptyKreg.beside = s.beside := State.beside_nextLoad _ s

theorem State.beside_dropPlant (s : State) (sc : Nat) : (s.dropPlant sc).beside = s.beside := by
  unfold State.dropPlant
  dsimp only
  split
  · rw [State.beside_emptyKreg]
    rfl
  · rfl

/-! What equal surroundings give. -/

section
variable {s t : State} (h : t.beside = s.beside)
include h

theorem State.win_of_beside : t.win = s.win := congrArg (fun b : Beside => b.rest.win) h
theorem State.lasting_of_beside (n : Nat) : (t.session n).lasting = (s.session n).lasting :=
  congrArg (fun b : Beside => b.sess n) h
theorem State.sessState_of_beside (n : Nat) : (t.session n).state = (s.session n).state :=
  (congrArg Session.state (State.lasting_of_beside h n) :)
theorem State.keyx_of_beside (n : Nat) : (t.session n).keyx = (s.session n).keyx :=
  (congrArg Session.keyx (State.lasting_of_beside h n) :)
theorem State.plantKey_of_beside (n : Nat) : (t.session n).plantKey = (s.session n).plantKey :=
  (congrArg Session.plantKey (State.lasting_of_beside h n) :)

end

/-! A block outside a pair (R421). -/

theorem State.joined_off {s : State} (h : s.fm.state = .off) : s.joined = false := by simp [State.joined, h]
theorem State.paired_off {s : State} (h : s.fm.state = .off) : s.paired = false := by simp [State.paired, State.joined_off h, h]
theorem State.isHome_off {s : State} (h : s.fm.state = .off) (sc : Nat) : s.isHome sc = false := by simp [State.isHome, State.paired_off h]
theorem State.isStandby_off {s : State} (h : s.fm.state = .off) (sc : Nat) : s.isStandby sc = false := by
  simp [State.isStandby, State.paired_off h]
theorem State.sendCtx_off {s : State} (h : s.fm.state = .off) (sc : Nat) : s.sendCtx sc = s := by
  simp [State.sendCtx, State.paired_off h]

end Sys2Proof.Machine
end

