-- ==== Sys2Proof/Proofs/Sessions.lean ====
section
/-! PROOFS. SESSION_OPEN and SESSION_CLOSE (R206, R228). -/

namespace Sys2Proof.Machine

theorem exec_sessionOpen (w : Win) (s : State) :
    exec (.sessionOpen w) s = actCmd (s.fcCmd w.val 0x10) (fun c s => s.sessionOpen w.val c) s := rfl

theorem exec_sessionClose (w : Win) (s : State) :
    exec (.sessionClose w) s = actCmd (s.fcCmd w.val 0x12) (fun c s => s.sessionClose w.val c) s := rfl

/-- The session that SESSION_OPEN opens outside a pair. -/
def Cmd.openedSession (c : Cmd) (w : Nat) : Session :=
  { state := .opened, conf := Bits.bit (c.u 16 1) 0, vi := if w = 64 then 0 else w, operator := w == 64
    ringBase := c.u 24 8, ringEntries := c.u 32 2, ringVector := BitVec.ofNat 16 (c.u 34 2), rseqNext := 1 }

/-- Where nothing refuses it, a block outside a pair opens the lowest FREE context (log entry 44). -/
theorem State.sessionOpen_opens {s : State} {w n : Nat} {c : Cmd} (hjoin : s.joined = false) (hoff : s.fm.state = .off)
    (hfree : lowestWith (fun n => (s.session n).state == .free) 16384 0 = some n)
    (hquota : w < 64 → (s.sessionsOf w).length < polQuota (s.policyOf w))
    (hconf : Bits.bit (c.u 16 1) 0 = true → s.debugOpen = false ∧ s.keysLocked = false ∧ (s.lc.state = 3 ∨ s.lc.state = 4))
    (hbase : c.u 24 8 % 64 = 0) (hlo : 16 ≤ c.u 32 2) (hhi : c.u 32 2 ≤ 4096) :
    s.sessionOpen w c = (s.onSess n fun _ => c.openedSession w).result w (.ok n) := by
  have hpair : (s.joined && s.pairVi w) = false := by simp [hjoin]
  have hfull : (decide (w < 64) && decide (polQuota (s.policyOf w) ≤ (s.sessionsOf w).length)) = false := by
    simpa using hquota
  have hdenied : (Bits.bit (c.u 16 1) 0 && (s.debugOpen || s.keysLocked || !(s.lc.state = 3 || s.lc.state = 4))) = false := by
    cases hb : Bits.bit (c.u 16 1) 0
    · rfl
    · obtain ⟨hd, hk, hl⟩ := hconf hb
      rcases hl with hl | hl <;> simp [hd, hk, hl]
  have hring : ¬ (c.u 24 8 % 64 ≠ 0 || c.u 32 2 < 16 || 4096 < c.u 32 2) = true := by simp [hbase]; omega
  simp only [State.sessionOpen, hpair, hfree, hfull, hdenied, if_neg hring, Bool.false_eq_true, if_false]
  rw [State.sendCtx_off (by exact hoff)]
  rfl

/-- SESSION_CLOSE of a session that its window may name, outside a pair: its jobs end, and it closes. -/
theorem State.sessionClose_closes {s : State} {w : Nat} {c : Cmd} (hoff : s.fm.state = .off)
    (hvis : s.visible w c.session = true) (hopen : (s.session c.session).state ≠ .closing) :
    s.sessionClose w c = State.result ((((((s.jobsOf c.session).foldl (fun s j => s.endJob j stAborted) s).onSess c.session
      Session.closing).dropPlant c.session).sendCtx c.session).closeReady c.session) w (.ok 0) := by
  have hvisible : ¬ (!s.visible w c.session || (s.session c.session).state == .closing) = true := by simp [hvis, hopen]
  have hrole : ¬ s.standbyRefuses c.session = true := by simp [State.standbyRefuses, State.isStandby_off hoff]
  rw [State.sessionClose]
  simp only [if_neg hvisible, if_neg hrole]

/-- Settles O16; that the context taken is the lowest FREE one is the model's choice (log entry 44). -/
theorem sessionsOpenAndClose : Obligations.SessionsOpenAndClose := by
  constructor
  · intro s w c hs hc hjoin hoff ⟨m, hm, hmfree⟩ hquota hconf hbase hlo hhi
    obtain ⟨n, hn⟩ := lowestWith_finds (p := fun n => (s.session n).state == .free) (n := 16384) (lo := 0) (Nat.zero_le m)
      (by omega) (by simp [hmfree])
    obtain ⟨_, hlt, hfree, hlow⟩ := lowestWith_some hn
    have heffect := State.sessionOpen_opens (w := w.val) hjoin hoff hn hquota hconf hbase hlo hhi
    refine reaches_actCmd_synced (exec_sessionOpen w s) hs.1 hc (heffect ▸ hs.2) (heffect ▸ rfl)
      ⟨n, by omega, by simpa using hfree, fun k hk => by simpa using hlow k (Nat.zero_le k) hk, ?_⟩
    rw [heffect]
    refine ⟨rfl, State.slotOnly_result_of_win (by rfl) _ _, State.answers_result _ _ _, fun k hk => ?_, ?_⟩
    · rw [State.result_session, s.session_of_onSess_other _ hk]
    · rw [State.result_session, s.session_of_onSess]
      rfl
  · intro s w c hl hc hoff hvis hopen
    refine reaches_actCmd (exec_sessionClose w s) hl hc ?_
    rw [State.sessionClose_closes hoff hvis hopen]
    generalize (s.jobsOf c.session).foldl (fun s j => s.endJob j stAborted) s = u
    have hclose : ((((u.onSess c.session Session.closing).dropPlant c.session).sendCtx c.session).closeReady c.session).beside
        = (u.onSess c.session Session.closing).beside := by
      rw [State.beside_closeReady, State.beside_sendCtx, State.beside_dropPlant]
    have hclosed : (u.onSess c.session Session.closing).session c.session = Session.closing (u.session c.session) :=
      u.session_of_onSess _ _
    simp only [State.settle_session, State.answers_settle]
    refine ⟨?_, ?_, ?_, State.answers_result _ _ _⟩
    · exact (State.sessState_of_beside hclose _).trans (by rw [hclosed]; rfl)
    · exact (State.keyx_of_beside hclose _).trans (by rw [hclosed]; rfl)
    · exact (State.plantKey_of_beside hclose _).trans (by rw [hclosed]; rfl)

end Sys2Proof.Machine
end

