-- ==== Sys2Proof/Proofs/Transfers.lean ====
section
/-! PROOFS. What transfers, draws and uses of a key leave alone. -/

namespace Sys2Proof.Machine

/-! Transfers on the master ports (R450 to R453) are outputs alone. -/

theorem State.foldl_emit_frame {α : Type} (o : α → Out) (l : List α) (s : State) :
    l.foldl (fun s x => s.emit (o x)) s = { s with out := (l.foldl (fun s x => s.emit (o x)) s).out } := by
  induction l generalizing s with
  | nil => rfl
  | cons a l ih => rw [List.foldl_cons, ih]; rfl

theorem State.hostRead_frame (s : State) (wv : Nat × Nat) (addr n : Nat) :
    s.hostRead wv addr n = { s with out := (s.hostRead wv addr n).out } := State.foldl_emit_frame _ _ s

theorem State.hostWrite_frame (s : State) (wv : Nat × Nat) (addr : Nat) (b : Bytes) (bad : List (Nat × Nat)) :
    s.hostWrite wv addr b bad = { s with out := (s.hostWrite wv addr b bad).out } := State.foldl_emit_frame _ _ s

/-- A response is written and its length answered, or the buffer is too small. -/
theorem State.respond_eq (s : State) (w type addr size : Nat) (body : Bytes) :
    ∃ o r, s.respond w type addr size body = State.result { s with out := o } w r := by
  unfold State.respond
  dsimp only
  split
  · exact ⟨s.out, _, rfl⟩
  · rw [State.hostWrite_frame]
    exact ⟨_, _, rfl⟩

/-! Draws (R345) and uses of a key slot (R318). -/

theorem State.draw_frame (s : State) : s.draw.2 = { s with trng := s.draw.2.trng } := rfl

@[simp] theorem State.draw_trngState (s : State) : s.draw.2.trng.state = s.trng.state := rfl

theorem State.useSlot_frame (s : State) (n : Nat) :
    s.useSlot n = { s with keys := { s.keys with slots := (s.useSlot n).keys.slots }, trng := (s.useSlot n).trng } := by
  unfold State.useSlot
  dsimp only
  split <;> rfl

@[simp] theorem State.useSlot_trngState (s : State) (n : Nat) : (s.useSlot n).trng.state = s.trng.state := by
  unfold State.useSlot
  dsimp only
  split <;> rfl

@[simp] theorem State.useAlias_trngState (s : State) : s.useAlias.trng.state = s.trng.state := by
  unfold State.useAlias
  rw [State.useSlot_trngState, State.useSlot_trngState]

theorem State.useAlias_frame (s : State) :
    s.useAlias = { s with keys := { s.keys with slots := s.useAlias.keys.slots }, trng := s.useAlias.trng } := by
  unfold State.useAlias
  rw [State.useSlot_frame (s.useSlot 4) 5, State.useSlot_frame s 4]

end Sys2Proof.Machine
end

