-- ==== Sys2Proof/Proofs/KeyExchange.lean ====
section
/-! PROOFS. The key exchange of a session (R207, R208, R210, R321). -/

namespace Sys2Proof.Machine

theorem exec_sessionKeyx (w : Win) (hdr : HostRead) (req : KeyxReq) (s : State) :
    exec (.sessionKeyx w hdr req) s = actCmd (s.fcCmd w.val 0x11) (fun c s => match (s.session c.session).keyx with
      | some k => if k.keySent then s.keyxWait w.val c k else s.sessionKeyx w.val c hdr req
      | none => s.sessionKeyx w.val c hdr req) s := rfl

/-- The row runs the request where no FINISH waits for its KEY. -/
theorem reaches_sessionKeyx {s t : State} {w : Win} {hdr : HostRead} {req : KeyxReq} {c : Cmd} {P : State → Prop} (hs : s.Up)
    (hc : s.fcCmd w.val 0x11 = some c) (hsent : ((s.session c.session).keyx.all fun k => !k.keySent) = true)
    (ht : s.sessionKeyx w.val c hdr req = t) (hsync : t.Synced) (hq : t.pending = s.pending) (h : P t) :
    Reaches (.sessionKeyx w hdr req) s P := by
  refine reaches_actCmd_to (exec_sessionKeyx w hdr req s) hs.1 hc ?_ hsync hq h
  rw [← ht]
  cases hk : (s.session c.session).keyx with
  | none => rfl
  | some k =>
    rw [hk] at hsent
    have hunsent : k.keySent = false := by simpa using hsent
    simp [hunsent]

/-- What must hold for a request in SESSION_KEYX to reach its own row (R206, R207, R246, R424). -/
structure State.KeyxReady (s : State) (w : Nat) (c : Cmd) (hdr : HostRead) : Prop where
  good : hdr.err = false ∧ hdr.poison = false
  header : s.requestStatus w msgSpdm (c.u 32 4) hdr.bytes = none
  visible : s.visible w c.session = true
  open_ : (s.session c.session).state = .opened ∨ (s.session c.session).state = .keyed
  unlocked : s.keysLocked = false
  mine : s.standbyRefuses c.session = false
  room : 8192 ≤ c.u 36 4

/-- What a request does once SESSION_KEYX has passed its own checks (R207, R209). -/
def State.keyxServe (s : State) (w : Nat) (c : Cmd) : KeyxReq → State
  | .keyExchange pub ek =>
    if s.noAlias || (Tab.get {} s.mgmt.spdm w).phase = 3 then s.keyExchange w c pub ek else s.keyxRespond w c (Config.spdmBody 0x7F [] [4])
  | .finish ok => s.keyxFinish w c ok
  | .endSession => s.result w (.denied 0)
  | .other _ => s.keyxRespond w c (Config.spdmBody 0x7F [] [7])

/-- The request is served on the state that has read it. -/
theorem State.sessionKeyx_serves {s : State} {w : Nat} {c : Cmd} {hdr : HostRead} (h : s.KeyxReady w c hdr) (req : KeyxReq) :
    ∃ o, s.sessionKeyx w c hdr req = State.keyxServe { s with out := o } w c req := by
  obtain ⟨⟨herr, hpoison⟩, hheader, hvis, hopen, hlock, hmine, hroom⟩ := h
  have hfail : ¬ (hdr.err || hdr.poison) = true := by simp [herr, hpoison]
  have hstate : ((s.session c.session).state == .opened || (s.session c.session).state == .keyed) = true := by
    rcases hopen with h | h <;> simp [h]
  have hserved : ¬ (!s.visible w c.session || !((s.session c.session).state == .opened || (s.session c.session).state == .keyed)) = true := by
    rw [hvis, hstate]
    decide
  refine ⟨(s.hostRead (windowWorld w) (c.u 16 8) (c.u 32 4)).out, ?_⟩
  unfold State.sessionKeyx
  dsimp only
  rw [State.hostRead_frame, if_neg hfail]
  generalize (s.hostRead (windowWorld w) (c.u 16 8) (c.u 32 4)).out = o
  have hheader' : State.requestStatus { s with out := o } w msgSpdm (c.u 32 4) hdr.bytes = none := hheader
  have hserved' : ¬ (!State.visible { s with out := o } w c.session
    || !((s.session c.session).state == .opened || (s.session c.session).state == .keyed)) = true := hserved
  have hlock' : ¬ State.keysLocked { s with out := o } = true := by rw [show State.keysLocked { s with out := o } = false from hlock]; decide
  have hmine' : ¬ State.standbyRefuses { s with out := o } c.session = true := by
    rw [show State.standbyRefuses { s with out := o } c.session = false from hmine]; decide
  rw [hheader']
  dsimp only
  rw [if_neg hserved', if_neg hlock', if_neg hmine', if_neg (by omega)]
  cases req <;> rfl

/-! KEY_EXCHANGE (R207, R336, R337). -/

theorem State.keyExchange_refusesPoint {s : State} {w : Nat} {c : Cmd} {pub ek : Bytes} (halias : s.noAlias = false)
    (hdrbg : s.drbgBlocked = false) (huse : s.aliasRefused = false) (hpoint : pointRefusal pub ≠ 0) :
    s.keyExchange w c pub ek = s.result w { status := pointRefusal pub } := by
  simp only [State.keyExchange, halias, hdrbg, huse, hpoint, Bool.false_eq_true, if_false, ne_eq, not_false_eq_true, if_true]

/-- A response changes its window and the outputs. -/
theorem State.keyxRespond_eq (s : State) (w : Nat) (c : Cmd) (body : Bytes) :
    ∃ o r, s.keyxRespond w c body = State.result { s with out := o } w r := s.respond_eq _ _ _ _ _

/-- A use of the keys for evidence after a draw changes the random generator and the key slots. -/
theorem State.useAlias_of_trng {s u : State} {t : Trng} (hu : u = { s with trng := t }) (ht : t.state = s.trng.state) :
    ∃ trng slots, u.useAlias = { s with trng := trng, keys := { s.keys with slots := slots } } ∧ trng.state = s.trng.state := by
  subst hu
  exact ⟨_, _, State.useAlias_frame _, (State.useAlias_trngState _).trans ht⟩

/-- So do three draws before it. -/
theorem State.drawsAndSigns_frame (s : State) : ∃ trng slots,
    s.draw.2.draw.2.draw.2.useAlias = { s with trng := trng, keys := { s.keys with slots := slots } } ∧ trng.state = s.trng.state := by
  have hframe : s.draw.2.draw.2.draw.2 = { s with trng := s.draw.2.draw.2.draw.2.trng } := by
    rw [State.draw_frame s.draw.2.draw.2, State.draw_frame s.draw.2, State.draw_frame s]
  exact State.useAlias_of_trng hframe (by rw [State.draw_trngState, State.draw_trngState, State.draw_trngState])

/-- A good share: the ephemeral is the first draw's, the encapsulation's randomness the second's (log entries 2 and 98), and the
third signs. -/
theorem State.keyExchange_draws {s : State} {w : Nat} {c : Cmd} {pub ek : Bytes} (halias : s.noAlias = false)
    (hdrbg : s.drbgBlocked = false) (huse : s.aliasRefused = false) (hpoint : pointRefusal pub = 0) (hek : kemInRange ek = true) :
    ∃ (k : KeyxWork) (trng : Trng) (slots : Tab KeySlot) (o : List Out) (r : Reply),
      s.keyExchange w c pub ek = State.result (State.onSess { s with trng := trng, keys := { s.keys with slots := slots }, out := o }
        c.session fun x => { x with keyx := some k }) w r
      ∧ trng.state = s.trng.state ∧ k.ecdhPub = pub ∧ k.mlkemEk = ek ∧ k.ephemeral = (Bytes.big s.draw.1).take 48
      ∧ k.kemRandom = (Bytes.big s.draw.2.draw.1).take 32 := by
  obtain ⟨trng, slots, hframe, htrng⟩ := s.drawsAndSigns_frame
  simp only [State.keyExchange, halias, hdrbg, huse, hpoint, hek, Bool.false_eq_true, if_false, ne_eq, not_true_eq_false,
    Bool.not_true, hframe]
  generalize Config.spdmTranscript 0x64 _ = transcript
  obtain ⟨o, r, hrespond⟩ := State.keyxRespond_eq (State.onSess { s with trng := trng, keys := { s.keys with slots := slots } }
    c.session fun x => { x with keyx := some { ecdhPub := pub, mlkemEk := ek, ephemeral := (Bytes.big s.draw.1).take 48
                                               kemRandom := (Bytes.big s.draw.2.draw.1).take 32, transcript := transcript } })
    w c _
  exact ⟨_, _, _, _, _, hrespond, htrng, rfl, rfl, rfl, rfl⟩

/-! FINISH (R206, R208, R210, R321). -/

/-- K_d as it waits in KREG. -/
def dataKeyLoad (sc : Nat) (kd : BitVec 256) : KregLoad :=
  { key := kd.setWidth 512, bytes := 32, attr := attrOf 2 1 0x08 0x7F true 1 false, user := 0x41, sess := some sc }

theorem State.formKey_loads {s : State} (hlock : s.keysLocked = false) (hfree : s.keys.kreg = none) (sc : Nat) (kd : BitVec 256) :
    s.formKey sc kd = { s with keys := { s.keys with kreg := some (dataKeyLoad sc kd), kregAt := s.now, kmInput := [] } } := by
  have hlock' : State.keysLocked { s with keys := { s.keys with kmInput := [] } } = false := hlock
  unfold State.formKey State.loadKreg
  rw [hlock']
  simp only [hfree, Option.isSome_none, Bool.false_eq_true, if_false]
  rfl

/-- The planting of a session's key is an allowed use of K_d below END_OF_LIFE (R318, R320). -/
theorem dataKey_plantable {s : State} (hlock : s.keysLocked = false) (hlc : s.lc.state < 7) :
    s.useRefused (attrOf 2 1 0x08 0x7F true 1 false) 3 = false := by
  have hattr : ∀ n : Fin 7, Bits.bit (attrOf 2 1 0x08 0x7F true 1 false).toNat (16 + n.val) = true := by decide
  have hstate := hattr ⟨s.lc.state, hlc⟩
  have hkind : (attrKind (attrOf 2 1 0x08 0x7F true 1 false) == 0) = false := by decide
  have hworld : Bits.bit (attrOf 2 1 0x08 0x7F true 1 false).toNat 4 = true := by decide
  have huser : Bits.bit (attrOf 2 1 0x08 0x7F true 1 false).toNat (8 + 3) = true := by decide
  have hdebug : Bits.bit (attrOf 2 1 0x08 0x7F true 1 false).toNat 23 = true := by decide
  have hcount : Bits.bit (attrOf 2 1 0x08 0x7F true 1 false).toNat 25 = false := by decide
  simp only [State.useRefused, hkind, hworld, huser, hstate, hdebug, hcount, hlock, Bool.not_true, Bool.false_and, Bool.or_false]

/-- The first key of a session is planted from KREG, which empties (R208, R316). -/
theorem State.plant_first {s : State} {sc : Nat} {kd : BitVec 256} (hkreg : s.keys.kreg = some (dataKeyLoad sc kd))
    (hwait : s.keys.kregWaiting = []) (hkeyx : (s.session sc).keyx = none) (hopen : (s.session sc).state = .opened)
    (hlock : s.keysLocked = false) (hlc : s.lc.state < 7) (hoff : s.fm.state = .off) :
    ∃ (sess : Tab Session) (streams : Tab Stream) (entries : List (Nat × BitVec 384)),
      s.plant sc = { s with
        sess := sess, streams := streams, keys := { s.keys.plant sc kd with kreg := none, kregWaiting := [] } }
      ∧ (∀ m, m ≠ sc → Tab.get {} sess m = s.session m)
      ∧ Tab.get {} sess sc = { s.session sc with
          state := .keyed, keyxGen := (s.session sc).keyxGen + 1, plantKey := none, keyx := none, oldKeys := []
          plantEpoch := s.epoch, rangeKeyx := (s.session sc).keyxGen + 1, openPlans := entries, inHw := 0, chunkHw := 0 } := by
  have hkey : s.plantable sc = some kd := by
    have hwidth : ((kd.setWidth 512).setWidth 256) = kd := by
      apply BitVec.eq_of_toNat_eq
      simp only [BitVec.toNat_setWidth]
      omega
    simp [State.plantable, hkreg, hkeyx, dataKeyLoad, hwidth]
  have hallowed : s.plantRefused sc = false := by
    rw [State.plantRefused, hkreg]
    simp only [dataKeyLoad, beq_self_eq_true, if_true]
    exact dataKey_plantable hlock hlc
  have hmine : ((s.keys.plant sc kd).kreg.any fun l => l.sess == some sc) = true := by
    show (s.keys.kreg.any fun l => l.sess == some sc) = true
    rw [hkreg]
    simp [dataKeyLoad]
  have hempties : State.emptyKreg { s with keys := s.keys.plant sc kd }
      = { s with keys := { s.keys.plant sc kd with kreg := none, kregWaiting := [] } } := by
    show State.nextLoad s.keys.kregWaiting _ = _
    rw [hwait]
    rfl
  unfold State.plant
  simp only [hkey, hopen, hallowed, hmine, hempties, Bool.false_eq_true, if_false, if_true, bne_self_eq_false, Bool.false_and,
    reduceCtorEq, beq_iff_eq]
  rw [State.isHome_off (by exact hoff)]
  exact ⟨_, _, _, rfl, fun m hm => s.session_of_onSess_other _ hm, s.session_of_onSess sc _⟩

theorem KeyxReady.of_opened_or_keyed {s : State} {w : Nat} {c : Cmd} {hdr : HostRead} (herr : hdr.err = false)
    (hpoison : hdr.poison = false) (hheader : s.requestStatus w msgSpdm (c.u 32 4) hdr.bytes = none)
    (hvis : s.visible w c.session = true) (hlock : s.keysLocked = false) (hoff : s.fm.state = .off) (hroom : 8192 ≤ c.u 36 4)
    (hopen : (s.session c.session).state = .opened ∨ (s.session c.session).state = .keyed) : s.KeyxReady w c hdr :=
  ⟨⟨herr, hpoison⟩, hheader, hvis, hopen, hlock, State.isStandby_off hoff _, hroom⟩

/-- A FINISH that verifies, outside a pair with KREG free: K_d forms in KREG, the exchange is over, and FINISH_RSP goes out. -/
theorem State.keyxFinish_forms {s : State} {w : Nat} {c : Cmd} {k : KeyxWork} (hkeyx : (s.session c.session).keyx = some k)
    (hlock : s.keysLocked = false) (hfree : s.keys.kreg = none) (hoff : s.fm.state = .off) :
    s.keyxFinish w c true = State.keyxDone { s with keys := { s.keys with
      kreg := some (dataKeyLoad c.session (k.dataKey c.session ((s.session c.session).keyxGen.toNat + 1))), kregAt := s.now, kmInput := [] } }
      w c := by
  unfold State.keyxFinish
  simp only [hkeyx, Bool.not_true, Bool.false_eq_true, if_false]
  rw [State.formKey_loads hlock hfree, State.isHome_off (by exact hoff)]
  rfl

/-- The end of an exchange, before the first key of an unpaired session is planted. -/
theorem State.keyxDone_eq (s : State) (w : Nat) (c : Cmd) :
    ∃ o r, s.keyxDone w c =
      let u := State.result { s.onSess c.session fun x => { x with keyx := none } with out := o } w r
      if (s.session c.session).state == .opened && (s.session c.session).pair == .unpaired then u.plant c.session else u := by
  obtain ⟨o, r, h⟩ := (s.onSess c.session fun x => { x with keyx := none }).keyxRespond_eq w c (Config.spdmBody 0xE5 [] [])
  have hsess := s.session_of_onSess c.session fun x => { x with keyx := none }
  have hstate := congrArg Session.state hsess
  have hpair := congrArg Session.pair hsess
  refine ⟨o, r, ?_⟩
  unfold State.keyxDone
  dsimp only at hstate hpair ⊢
  rw [h, State.result_session, ← hstate, ← hpair]
  rfl

/-- FINISH_RSP has gone out, and K_d waits in KREG to be planted. -/
def State.awaitsPlant (s : State) (w : Nat) (c : Cmd) (kd : BitVec 256) (o : List Out) (r : Reply) : State :=
  State.result { s.onSess c.session fun x => { x with keyx := none } with
    out := o, keys := { s.keys with kreg := some (dataKeyLoad c.session kd), kregAt := s.now, kmInput := [] } } w r

theorem State.session_of_awaitsPlant (s : State) (w : Nat) (c : Cmd) (kd : BitVec 256) (o : List Out) (r : Reply) :
    (s.awaitsPlant w c kd o r).session c.session = { s.session c.session with keyx := none } :=
  s.session_of_onSess c.session fun x => { x with keyx := none }

theorem State.session_of_awaitsPlant_other (s : State) (w : Nat) (c : Cmd) (kd : BitVec 256) (o : List Out) (r : Reply) {m : Nat}
    (hm : m ≠ c.session) : (s.awaitsPlant w c kd o r).session m = s.session m :=
  s.session_of_onSess_other (fun x => { x with keyx := none }) hm

/-- The row of a FINISH that verifies, outside a pair with KREG free. -/
theorem State.sessionKeyx_finishes {s : State} {w : Nat} {c : Cmd} {hdr : HostRead} {k : KeyxWork} (h : s.KeyxReady w c hdr)
    (hkeyx : (s.session c.session).keyx = some k) (hfree : s.keys.kreg = none) (hoff : s.fm.state = .off) :
    ∃ o r, s.sessionKeyx w c hdr (.finish true) =
      let u := s.awaitsPlant w c (k.dataKey c.session ((s.session c.session).keyxGen.toNat + 1)) o r
      if (s.session c.session).state == .opened && (s.session c.session).pair == .unpaired then u.plant c.session else u := by
  obtain ⟨o, hserve⟩ := State.sessionKeyx_serves h (.finish true)
  obtain ⟨o', r, hdone⟩ := State.keyxDone_eq { s with out := o, keys := { s.keys with
    kreg := some (dataKeyLoad c.session (k.dataKey c.session ((s.session c.session).keyxGen.toNat + 1))), kregAt := s.now
    kmInput := [] } } w c
  exact ⟨o', r, hserve.trans ((State.keyxFinish_forms (s := { s with out := o }) hkeyx h.unlocked hfree hoff).trans hdone)⟩

/-- The key just planted is the session's key: it is stored under its mask (R316). -/
theorem State.sessionKey_planted {t : State} {k : Keys} {sc : Nat} {kd : BitVec 256} (hska : t.keys.ska = (k.plant sc kd).ska)
    (hmask : t.keys.maskKey = k.maskKey) : t.sessionKey sc = some kd := by
  have hsame : t.keys.mask = k.mask := by
    unfold Keys.mask
    rw [hmask]
  unfold State.sessionKey
  rw [hsame, hska]
  unfold Keys.plant
  rw [Tab.get_set_same]
  simp

/-- Settles O17; that the ephemeral is the first 48 bytes of one draw and the encapsulation's randomness the next draw's first 32 is
the model's choice (log entries 2 and 98). -/
theorem keyExchangeGivesKey : Obligations.KeyExchangeGivesKey := by
  constructor
  · intro s w c hdr pub ek hs hc herr hpoison hheader hvis hopen hlock hmine hroom hphase halias hdrbg huse hek hsent
    obtain ⟨o, hserve⟩ := State.sessionKeyx_serves (s := s) (w := w.val) (hdr := hdr)
      ⟨⟨herr, hpoison⟩, hheader, hvis, hopen, hlock, hmine, hroom⟩ (.keyExchange pub ek)
    have hreq : State.keyxServe { s with out := o } w.val c (.keyExchange pub ek)
        = State.keyExchange { s with out := o } w.val c pub ek := by
      simp only [State.keyxServe, hphase, decide_true, Bool.or_true, if_true]
    rw [hreq] at hserve
    by_cases hpoint : pointRefusal pub = 0
    · obtain ⟨k, trng, slots, o', r, hdraw, htrng, hpub, hekk, heph, hrand⟩ := State.keyExchange_draws (s := { s with out := o })
        (w := w.val) (c := c) halias hdrbg huse hpoint hek
      refine reaches_sessionKeyx hs hc hsent (hserve.trans hdraw)
        (hs.2.congr rfl (fun _ => rfl) (fun _ => rfl) (fun _ => rfl) rfl htrng rfl) rfl
        ⟨fun h => absurd hpoint h, fun _ => ⟨rfl, fun m hm => ?_, k, ?_, hpub, hekk, heph, hrand⟩⟩
      · rw [State.result_session, State.session_of_onSess_other _ _ hm]
        rfl
      · rw [State.result_session, State.session_of_onSess]
        rfl
    · have hrefuse := State.keyExchange_refusesPoint (s := { s with out := o }) (w := w.val) (c := c) (ek := ek) halias hdrbg huse hpoint
      rw [hrefuse] at hserve
      refine reaches_sessionKeyx hs hc hsent hserve hs.2 rfl ⟨fun _ => ?_, fun h => absurd h hpoint⟩
      exact ⟨State.answers_result _ _ _, rfl⟩
  · intro s w c hdr k hs hc herr hpoison hheader hvis hlock hfree hwait hoff hroom hkeyx hsent hlc
    have hunsent : ((s.session c.session).keyx.all fun k => !k.keySent) = true := by simp [hkeyx, hsent]
    have ready := KeyxReady.of_opened_or_keyed herr hpoison hheader hvis hlock hoff hroom
    refine ⟨fun hkeyed => ?_, fun hopened hunpaired => ?_⟩
    · obtain ⟨o, r, hserve⟩ := State.sessionKeyx_finishes (ready (.inr hkeyed)) hkeyx hfree hoff
      have hstays : ((s.session c.session).state == .opened && (s.session c.session).pair == .unpaired) = false := by simp [hkeyed]
      exact reaches_sessionKeyx hs hc hunsent (hserve.trans (if_neg (Bool.eq_false_iff.mp hstays))) hs.2 rfl
        ⟨rfl, fun m hm => s.session_of_awaitsPlant_other _ _ _ _ _ hm, s.session_of_awaitsPlant _ _ _ _ _, _, rfl, rfl, rfl⟩
    · obtain ⟨o, r, hserve⟩ := State.sessionKeyx_finishes (ready (.inl hopened)) hkeyx hfree hoff
      have hplants : ((s.session c.session).state == .opened && (s.session c.session).pair == .unpaired) = true := by
        simp [hopened, hunpaired]
      have hsess := s.session_of_awaitsPlant w.val c (k.dataKey c.session ((s.session c.session).keyxGen.toNat + 1)) o r
      obtain ⟨sess, streams, entries, hplanted, hother, hmine⟩ := State.plant_first (s := s.awaitsPlant w.val c _ o r)
        (sc := c.session) rfl hwait (by rw [hsess]) (by rw [hsess]; exact hopened) hlock hlc hoff
      have hkeyed : Tab.get {} sess c.session = _ := hmine.trans (by rw [hsess])
      have heffect := (hserve.trans (if_pos hplants)).trans hplanted
      refine reaches_sessionKeyx hs hc hunsent heffect hs.2 rfl ⟨rfl, fun m hm => ?_, ?_, ?_, ?_, ?_, ?_, ?_, ?_⟩
      · exact (hother m hm).trans (s.session_of_awaitsPlant_other _ _ _ _ _ hm)
      · exact (congrArg Session.state hkeyed :)
      · exact (congrArg Session.keyxGen hkeyed :)
      · exact (congrArg Session.keyx hkeyed :)
      · exact (congrArg Session.plantKey hkeyed :)
      · rfl
      · exact (congrArg Session.rseqNext hkeyed :)
      · exact State.sessionKey_planted (k := (s.awaitsPlant w.val c _ o r).keys) rfl rfl

end Sys2Proof.Machine
end

