-- ==== Sys2Proof/Proofs/Leases.lean ====
section
/-! PROOFS. LEASE_TAKE and LEASE_DROP (R255, R258). -/

namespace Sys2Proof.Machine

theorem exec_leaseTake (w : Win) (s : State) :
    exec (.leaseTake w) s = actCmd (s.rbCmd w.val 0x20) (fun c s => s.leaseTake w.val c) s := rfl

theorem exec_leaseDrop (w : Win) (s : State) :
    exec (.leaseDrop w) s = actCmd (s.rbCmd w.val 0x21) (fun c s => s.leaseDrop w.val c) s := rfl

/-- A running command of the Roundabout that the window's slot holds. -/
theorem State.running_of_rbCmd {s : State} {w op : Nat} {c : Cmd} (h : s.rbCmd w op = some c) :
    (s.window w).slot.running = some c ∧ (s.window w).slot.result = none ∧ (s.window w).slot.begun = false ∧ c.opcode = op := by
  unfold State.rbCmd at h
  dsimp only at h
  split at h
  · next x hx =>
    split at h
    · next hcond =>
      cases h
      simp only [Bool.and_eq_true, decide_eq_true_eq, Option.isNone_iff_eq_none, Bool.not_eq_true'] at hcond
      obtain ⟨⟨hop, hresult⟩, hbegun⟩ := hcond
      exact ⟨hx, hresult, hbegun, hop⟩
    · cases h
  · cases h

/-- A well-formed request without a last epoch is held from its first epoch on. -/
theorem State.leaseTake_holds {s : State} {w : Nat} {c : Cmd} (hmask : c.maskStatus = none) (hvideo : c.resources.videoOk = true)
    (hbits : Bits.get (c.u 16 8) 48 16 = 0) (hfirst : c.u 24 8 = 0 ∨ c.epoch + 2 ≤ c.u 24 8) (hlast : c.u 32 8 = 0) :
    s.leaseTake w c = State.onSlotOf { s with rb := { s.rb with held := s.rb.held
        ++ [{ win := w, res := c.resources, first := if c.u 24 8 = 0 then c.epoch + 2 else c.u 24 8, last := none }] } } w
      fun x => { x with begun := true } := by
  have hearly : ¬ (if c.u 24 8 = 0 then c.epoch + 2 else c.u 24 8) < c.epoch + 2 := by split <;> omega
  simp only [State.leaseTake, hmask, hvideo, hbits, hlast, ne_eq, not_true_eq_false, decide_false, Bool.not_true, Bool.or_false,
    Bool.false_and, Bool.false_eq_true, if_false, if_true, if_neg hearly]

/-- A drop of resources held and not used, for the next epoch, is noted. -/
theorem State.leaseDrop_notes {s : State} {w : Nat} {c : Cmd} (hmask : c.maskStatus = none) (hepoch : c.u 24 8 = 0)
    (hvideo : c.resources.videoNamed = true)
    (hown : c.resources.minus ((s.rb.heldAt w (c.epoch + 1)).or (s.rb.heldAt w c.epoch)) = {})
    (hused : c.resources.and (s.resourcesUsed w) = {}) :
    s.leaseDrop w c = State.onSlotOf { s with rb := { s.rb with drops := s.rb.drops ++ [(c.epoch + 1, w, c.resources)] } } w
      fun x => { x with begun := true } := by
  simp only [State.leaseDrop, hmask, hepoch, hvideo, hown, hused, ne_eq, not_true_eq_false, Bool.not_true, Bool.false_eq_true,
    if_false, if_true, lt_irrefl]

/-- Settles O18. -/
theorem leaseRequestsHeld : Obligations.LeaseRequestsHeld := by
  constructor
  · intro s w c hs hc hmask hvideo hbits hfirst hlast
    refine reaches_actCmd_to (exec_leaseTake w s) hs.1 hc (State.leaseTake_holds hmask hvideo hbits hfirst hlast) hs.2 rfl
      ⟨rfl, (State.slotOnly_of_win rfl _).trans (State.slotOnly_onSlotOf _ _ _), ?_, rfl⟩
    rw [State.window_of_onSlotOf]
    exact (State.running_of_rbCmd hc).1
  · intro s w c hs hc hmask hepoch hvideo hown hused
    exact reaches_actCmd_to (exec_leaseDrop w s) hs.1 hc (State.leaseDrop_notes hmask hepoch hvideo hown hused) hs.2 rfl
      ⟨rfl, (State.slotOnly_of_win rfl _).trans (State.slotOnly_onSlotOf _ _ _), rfl⟩

end Sys2Proof.Machine
end

