-- ==== Sys2Proof/Proofs/Staging.lean ====
section
/-! PROOFS. PLAN_LOAD, STAGE_WRITE, INTEGRITY_SET and STREAM_BIND stage their item (R142, R145, R146, R259). -/

namespace Sys2Proof.Machine

theorem exec_planLoad (w : Win) (img : HostRead) (s : State) :
    exec (.planLoad w img) s = actCmd (s.fcCmd w.val 0x30) (fun c s => s.planLoad w.val c img) s := rfl

theorem exec_stageWrite (w : Win) (s : State) :
    exec (.stageWrite w) s = actCmd (s.rbCmd w.val 0x40) (fun c s => s.stageWrite w.val c) s := rfl

theorem exec_integritySet (w : Win) (s : State) :
    exec (.integritySet w) s = actCmd (s.fcCmd w.val 0x62) (fun c s => s.integritySet w.val c) s := rfl

theorem exec_streamBind (w : Win) (s : State) :
    exec (.streamBind w) s = actCmd (s.fcCmd w.val 0x33) (fun c s => s.streamBind w.val c) s := rfl

/-! The bank. -/

theorem State.busyEpoch_none {s : State} {w : Nat} (h : (s.bank w).armed = none) : s.busyEpoch w = none := by
  unfold State.busyEpoch
  rw [h]

/-- One more item of any kind but a plan fits a bank of fewer than 256 items. -/
theorem Bank.fits_stage {b : Bank} (hfits : b.fits = true) (hlen : b.items.length < 256) {i : BankItem} (hi : i.kind ≠ 1) :
    (b.stage i).fits = true := by
  unfold Bank.fits at hfits ⊢
  rw [List.all_eq_true] at hfits ⊢
  intro k hk
  have hold := of_decide_eq_true (hfits k hk)
  have hfewer : ((b.items.filter fun j => !i.same j).filter fun j => j.kind == k).length
      ≤ (b.items.filter fun j => j.kind == k).length := by
    rw [List.filter_filter, ← List.countP_eq_length_filter, ← List.countP_eq_length_filter]
    exact List.countP_mono_left fun j _ h => (Bool.and_eq_true _ _ ▸ h : _ ∧ _).1
  have hkept := List.length_filter_le (fun j : BankItem => j.kind == k) b.items
  refine decide_eq_true ?_
  simp only [Bank.stage, List.filter_append, List.length_append]
  by_cases hik : i.kind = k
  · have hlimit : 256 ≤ itemLimit k := by
      unfold itemLimit
      split
      · omega
      · split <;> omega
    have hone := List.length_filter_le (fun j : BankItem => j.kind == k) [i]
    simp only [List.length_singleton] at hone
    omega
  · have hnone : ([i].filter fun j : BankItem => j.kind == k).length = 0 := by simp [hik]
    omega

theorem State.stageItems_one {s : State} {w : Nat} {i : BankItem} (h : ((s.bank w).stage i).fits = true) :
    s.stageItems w [i] = some (s.onBank w fun b => b.stage i) := by
  unfold State.stageItems
  simp only [List.foldl_cons, List.foldl_nil, h, if_true]
  rfl

/-! PLAN_LOAD (R142, R145, R146). -/

/-- What a placed plan writes: the pool's tables, the programs and schedules, and the stores of its Arcades. -/
theorem State.placePlan_frame (s : State) (w : Nat) (p : Plan) (b : Bytes) : (s.placePlan w p b).2 = { s with
    fcSram := (s.placePlan w p b).2.fcSram, qcMem := (s.placePlan w p b).2.qcMem, arc := (s.placePlan w p b).2.arc } := rfl

/-- The stores leave the integrity of every Arcade. -/
theorem State.placePlan_integ (s : State) (w : Nat) (p : Plan) (b : Bytes) (a : Nat) :
    ((s.placePlan w p b).2.arcade a).integ = (s.arcade a).integ := by
  refine foldl_keeps (fun t : Tab Arcade => (Tab.get {} t a).integ) _ (fun t n => ?_) _ s.arc
  dsimp only
  by_cases h : a = n
  · rw [h, Tab.get_upd_same]
  · rw [Tab.get_upd_other _ _ _ h]

theorem State.sramWrites_out (l : List (Nat × Bytes)) (s : State) (o : List Out) :
    l.foldl (fun (t : State) x => t.sramWrite x.1 x.2) { s with out := o }
      = { l.foldl (fun (t : State) x => t.sramWrite x.1 x.2) s with out := o } := by
  induction l generalizing s with
  | nil => rfl
  | cons x l ih => exact ih (s.sramWrite x.1 x.2)

/-- Where a plan is placed does not depend on what has left the block. -/
theorem State.placePlan_out (s : State) (w : Nat) (p : Plan) (b : Bytes) (o : List Out) :
    State.placePlan { s with out := o } w p b = ((s.placePlan w p b).1, { (s.placePlan w p b).2 with out := o }) := by
  unfold State.placePlan
  dsimp only
  rw [State.sramWrites_out]
  rfl

section
variable {s : State} {w : Nat} {c : Cmd} {img : HostRead} (hfree : (s.bank w).armed = none) (hlen : c.u 24 4 ≤ 2 ^ 22)
  (herr : img.err = false) (hpoison : img.poison = false)
include hfree hlen herr hpoison

/-- A container that fails a check is answered with it. -/
theorem State.planLoad_fails {r : Reply} (hfail : containerFail (Bytes.slice img.bytes 0 (c.u 24 4)) (c.u 24 4) = some r) :
    ∃ o, s.planLoad w c img = State.result { s with out := o } w r := by
  unfold State.planLoad
  simp only [State.busyEpoch_none hfree, Nat.not_lt.mpr hlen, herr, hpoison, hfail, Bool.or_self, Bool.false_eq_true, if_false]
  rw [State.hostRead_frame]
  exact ⟨_, rfl⟩

/-- One that passes is placed and staged, or is refused for want of room. -/
theorem State.planLoad_passes (hpass : containerFail (Bytes.slice img.bytes 0 (c.u 24 4)) (c.u 24 4) = none) :
    ∃ o,
      let p := parsePlan (Bytes.slice img.bytes 0 (c.u 24 4))
      let x := s.placePlan w p (Bytes.slice img.bytes 0 (c.u 24 4))
      s.planLoad w c img =
        if s.poolFits w p.poolKiB && ((s.bank w).stage (.plan x.1)).fits then
          State.result (State.onBank { x.2 with out := o } w fun b => b.stage (.plan x.1)) w (.ok 0)
        else State.result { s with out := o } w (if s.poolFits w p.poolKiB then .denied 7 else .denied 0x1A) := by
  refine ⟨(s.hostRead (windowWorld w) (c.u 16 8) (c.u 24 4)).out, ?_⟩
  unfold State.planLoad
  simp only [State.busyEpoch_none hfree, Nat.not_lt.mpr hlen, herr, hpoison, hpass, Bool.or_self, Bool.false_eq_true, if_false]
  rw [State.hostRead_frame]
  generalize (s.hostRead (windowWorld w) (c.u 16 8) (c.u 24 4)).out = o
  generalize parsePlan (Bytes.slice img.bytes 0 (c.u 24 4)) = p
  have hpool : State.poolFits { s with out := o } w p.poolKiB = s.poolFits w p.poolKiB := rfl
  rw [hpool, State.placePlan_out]
  cases s.poolFits w p.poolKiB with
  | false => rfl
  | true =>
    cases hfits : ((s.bank w).stage (.plan (s.placePlan w p (Bytes.slice img.bytes 0 (c.u 24 4))).1)).fits with
    | false =>
      have hnone : State.stageItems { (s.placePlan w p (Bytes.slice img.bytes 0 (c.u 24 4))).2 with out := o } w
          [.plan (s.placePlan w p (Bytes.slice img.bytes 0 (c.u 24 4))).1] = none := by
        unfold State.stageItems
        exact if_neg (Bool.eq_false_iff.mp hfits)
      simp only [Bool.not_true, Bool.false_eq_true, if_false, hnone]
      rfl
    | true =>
      have hsome := State.stageItems_one (s := { (s.placePlan w p (Bytes.slice img.bytes 0 (c.u 24 4))).2 with out := o }) hfits
      simp only [Bool.not_true, Bool.false_eq_true, if_false, hsome]
      rfl

end

/-- Settles O19; where the sections go, and the order of the checks, are the model's own (log entries 14, 43 and 95). -/
theorem planIsStagedOrNamed : Obligations.PlanIsStagedOrNamed := by
  intro s w c img hs hc hfree hlen herr hpoison
  dsimp only
  cases hfail : containerFail (Bytes.slice img.bytes 0 (c.u 24 4)) (c.u 24 4) with
  | some r =>
    obtain ⟨o, heffect⟩ := State.planLoad_fails hfree hlen herr hpoison hfail
    refine reaches_actCmd_to (exec_planLoad w img s) hs.1 hc heffect hs.2 rfl
      ⟨rfl, State.slotOnly_result_of_win rfl _ _, fun q hq => ?_, fun hnone => nomatch hnone⟩
    cases hq
    exact ⟨State.answers_result _ _ _, rfl⟩
  | none =>
    obtain ⟨o, heffect⟩ := State.planLoad_passes hfree hlen herr hpoison hfail
    dsimp only at heffect
    split at heffect
    · next hstaged =>
      rw [State.placePlan_frame] at heffect
      have hinteg := s.placePlan_integ w.val (parsePlan (Bytes.slice img.bytes 0 (c.u 24 4))) (Bytes.slice img.bytes 0 (c.u 24 4))
      generalize s.placePlan w.val (parsePlan (Bytes.slice img.bytes 0 (c.u 24 4))) (Bytes.slice img.bytes 0 (c.u 24 4)) = x at *
      refine reaches_actCmd_to (exec_planLoad w img s) hs.1 hc heffect
        (hs.2.congr rfl hinteg (fun _ => rfl) (fun _ => rfl) rfl rfl rfl) rfl
        ⟨rfl, State.slotOnly_result_of_win rfl _ _, fun _ hq => (nomatch hq), fun _ _ hempty => ?_⟩
      refine ⟨State.answers_result _ _ _, ?_, rfl, rfl, rfl⟩
      rw [State.result_bank, State.bank_of_onBank]
      show ((s.bank w.val).stage (.plan x.1)).items = _
      simp only [Bank.stage, hempty, List.filter_nil, List.nil_append]
    · next hstaged =>
      refine reaches_actCmd_to (exec_planLoad w img s) hs.1 hc heffect hs.2 rfl
        ⟨rfl, State.slotOnly_result_of_win rfl _ _, fun _ hq => (nomatch hq), fun _ hpool hempty => absurd ?_ hstaged⟩
      have hfits : ((s.bank w.val).stage (.plan (s.placePlan w.val (parsePlan (Bytes.slice img.bytes 0 (c.u 24 4)))
          (Bytes.slice img.bytes 0 (c.u 24 4))).1)).fits = true := by
        simp [Bank.fits, Bank.stage, hempty, List.range_succ, BankItem.kind, itemLimit]
      rw [hpool, hfits]
      rfl

end Sys2Proof.Machine
end

