-- ==== Sys2Proof/Proofs/Replies.lean ====
section
/-! PROOFS. The reply of a running command (R235, R242, R244). -/

namespace Sys2Proof.Machine

/-! The slot once its reply is written. -/

theorem CmdSlot.after_cases (c : CmdSlot) :
    c.after = { c with state := c.after.state, behind := c.after.behind, pkt := c.after.pkt } := by
  unfold CmdSlot.after
  split
  · rfl
  · split <;> rfl

theorem CmdSlot.after_running (c : CmdSlot) : c.after.running = c.running := by rw [CmdSlot.after_cases]
theorem CmdSlot.after_replies (c : CmdSlot) :
    c.after.replies = c.replies ∧ c.after.replyHead = c.replyHead ∧ c.after.replyCount = c.replyCount := by
  rw [CmdSlot.after_cases]
  exact ⟨rfl, rfl, rfl⟩

/-! The reply entry (R242). -/

/-- A slot with one more reply entry. -/
def CmdSlot.withReply (c : CmdSlot) (tag : BitVec 16) (op : Nat) (r : Reply) : CmdSlot :=
  { c with
    replies := Tab.set [] c.replies c.replyHead.toNat (r.bytes tag op (c.replyCount + 1).toNat)
    replyHead := c.replyHead + 1, replyCount := c.replyCount + 1 }

theorem State.writeReply_eq (s : State) (w : Nat) (tag : BitVec 16) (op : Nat) (r : Reply) :
    ∃ m, s.writeReply w tag op r = { s.onSlotOf w fun c => c.withReply tag op r with msgs := m } := by
  unfold State.writeReply
  dsimp only
  split
  · rw [State.message_frame]
    exact ⟨_, rfl⟩
  · rw [State.viMessage_frame]
    exact ⟨_, rfl⟩

/-- A slot's last reply entry. -/
theorem CmdSlot.lastReply_withReply (c : CmdSlot) (tag : BitVec 16) (op : Nat) (r : Reply) :
    Tab.get [] (c.withReply tag op r).replies ((c.withReply tag op r).replyHead - 1).toNat
      = r.bytes tag op (c.withReply tag op r).replyCount.toNat := by
  have hhead : (c.withReply tag op r).replyHead - 1 = c.replyHead := by simp [CmdSlot.withReply]
  rw [hhead]
  simp only [CmdSlot.withReply, Tab.get_set_same]

theorem State.replied_writeReply (s : State) (w : Nat) (tag : BitVec 16) (op : Nat) (r : Reply) :
    (s.writeReply w tag op r).Replied w tag op r := by
  obtain ⟨m, h⟩ := s.writeReply_eq w tag op r
  have hslot : ((s.writeReply w tag op r).window w).slot = (s.window w).slot.withReply tag op r := by
    rw [h]
    exact congrArg Window.slot (s.window_of_onSlotOf w fun c => c.withReply tag op r)
  unfold State.Replied
  rw [hslot]
  exact CmdSlot.lastReply_withReply _ _ _ _

/-! The end of a running command. -/

/-- The slot of a command that has been replied to. -/
def CmdSlot.finished (c : CmdSlot) (x : Cmd) (r : Reply) : CmdSlot :=
  CmdSlot.after (CmdSlot.withReply { c with running := none, result := none, begun := false, undo := .nothing } x.tag x.opcode r)

/-- The command leaves its slot and the Forecourt queue, and its reply the messages. -/
theorem State.finish_eq {s : State} {w : Nat} {c : Cmd} (h : (s.window w).slot.running = some c) (r : Reply) :
    ∃ win m, s.finish w r = { s with win := win, rb := { s.rb with fcQueue := s.rb.fcQueue.erase w }, msgs := m }
      ∧ Tab.get {} win w = { s.window w with slot := (s.window w).slot.finished c r }
      ∧ ∀ v, v ≠ w → Tab.get {} win v = s.window v := by
  let ended (x : CmdSlot) : CmdSlot := { x with running := none, result := none, begun := false, undo := .nothing }
  obtain ⟨m, hreply⟩ := State.writeReply_eq { s.onSlotOf w ended with rb := { s.rb with fcQueue := s.rb.fcQueue.erase w } }
    w c.tag c.opcode r
  have hfinish : s.finish w r = (State.writeReply { s.onSlotOf w ended with rb := { s.rb with fcQueue := s.rb.fcQueue.erase w } }
      w c.tag c.opcode r).onSlotOf w CmdSlot.after := by
    unfold State.finish
    rw [h]
    rfl
  rw [hfinish, hreply]
  refine ⟨(((s.onSlotOf w ended).onSlotOf w fun x => x.withReply c.tag c.opcode r).onSlotOf w CmdSlot.after).win, m, rfl, ?_,
    fun v hv => ?_⟩
  · refine (State.window_of_onSlotOf _ w _).trans ?_
    rw [State.window_of_onSlotOf, State.window_of_onSlotOf]
    rfl
  · refine (State.window_of_onSlotOf_other _ hv _).trans ?_
    rw [State.window_of_onSlotOf_other _ hv, State.window_of_onSlotOf_other _ hv]

/-- A slot that finished a command shows its reply last, and runs none. -/
theorem CmdSlot.lastReply_finished (c : CmdSlot) (x : Cmd) (r : Reply) :
    Tab.get [] (c.finished x r).replies ((c.finished x r).replyHead - 1).toNat
      = r.bytes x.tag x.opcode (c.finished x r).replyCount.toNat := by
  unfold CmdSlot.finished
  obtain ⟨hreplies, hhead, hcount⟩ := CmdSlot.after_replies
    (CmdSlot.withReply { c with running := none, result := none, begun := false, undo := .nothing } x.tag x.opcode r)
  rw [hreplies, hhead, hcount]
  exact CmdSlot.lastReply_withReply _ _ _ _

theorem CmdSlot.running_finished (c : CmdSlot) (x : Cmd) (r : Reply) : (c.finished x r).running = none := CmdSlot.after_running _

theorem State.replied_of_finished {t : State} {w : Nat} {c : CmdSlot} {x : Cmd} {r : Reply}
    (h : (t.window w).slot = c.finished x r) : t.Replied w x.tag x.opcode r := by
  unfold State.Replied
  rw [h]
  exact CmdSlot.lastReply_finished c x r

/-- What a command leaves that ends with its reply, where another change may come first. -/
theorem State.finish_replies {s : State} {w : Nat} {c : Cmd} (h : (s.window w).slot.running = some c) (r : Reply) :
    (s.finish w r).Replied w c.tag c.opcode r ∧ ((s.finish w r).window w).slot.running = none ∧ s.SlotOnly (s.finish w r) w := by
  obtain ⟨win, m, hfinish, hmine, hother⟩ := State.finish_eq h r
  rw [hfinish]
  refine ⟨State.replied_of_finished (congrArg Window.slot hmine), ?_, hother, ?_⟩
  · exact (congrArg (fun x : Window => x.slot.running) hmine).trans (CmdSlot.running_finished _ _ _)
  · exact hmine.trans (congrArg (fun x : Window => { s.window w with slot := x.slot }) hmine.symm)

end Sys2Proof.Machine
end

