-- ==== Sys2Proof/Proofs/StagedItems.lean ====
section
/-! PROOFS. STAGE_WRITE, INTEGRITY_SET and STREAM_BIND (R152, R185, R259). -/

namespace Sys2Proof.Machine

/-! STAGE_WRITE. -/

theorem Bytes.slice_ofNat (n v : Nat) : Bytes.slice (Bytes.ofNat n v) 0 n = Bytes.ofNat n v := by
  have hself := Bytes.slice_self (Bytes.ofNat n v)
  rwa [Bytes.ofNat_length] at hself

theorem Bytes.num_of_ofNat {n v : Nat} (h : v < 256 ^ n) (b : Bytes) : Bytes.num (Bytes.ofNat n v ++ b) 0 n = v := by
  unfold Bytes.num
  rw [Bytes.slice_append_left (by simp), Bytes.slice_ofNat, Bytes.toNat_ofNat_of_lt h]

/-- The one entry of a parameter list: a register's offset, a reserved word and a value (R249). -/
def stageEntry (off : Nat) (v : Word) : Bytes := Bytes.ofNat 4 off ++ [0, 0, 0, 0] ++ Bytes.ofNat 8 v.toNat

theorem stageEntry_length (off : Nat) (v : Word) : (stageEntry off v).length = 16 := by simp [stageEntry]

theorem stageEntry_offset {off : Nat} (h : off < 2 ^ 32) (v : Word) : Bytes.num (stageEntry off v) 0 4 = off := by
  unfold stageEntry
  rw [List.append_assoc]
  exact Bytes.num_of_ofNat (by omega) _

theorem stageEntry_reserved (off : Nat) (v : Word) : Bytes.num (stageEntry off v) 4 4 = 0 := by
  unfold stageEntry Bytes.num
  rw [List.append_assoc, Bytes.slice_append_right (by simp), Bytes.ofNat_length, Bytes.slice_append_left (by decide)]
  rfl

theorem stageEntry_value (off : Nat) (v : Word) : Bytes.num (stageEntry off v) 8 8 = v.toNat := by
  unfold stageEntry Bytes.num
  rw [Bytes.slice_append_right (by simp), List.length_append, Bytes.ofNat_length]
  show Bytes.toNat (Bytes.slice (Bytes.ofNat 8 v.toNat) 0 8) = _
  rw [Bytes.slice_ofNat, Bytes.toNat_ofNat_of_lt v.isLt]

theorem chunks_stageEntry (off : Nat) (v : Word) : Bytes.chunks 16 32 (stageEntry off v) = [stageEntry off v] := by
  have hlen := stageEntry_length off v
  have hdrop : (stageEntry off v).drop 16 = [] := List.drop_eq_nil_of_le (by omega)
  have htake : (stageEntry off v).take 16 = stageEntry off v := List.take_of_length_le (by omega)
  cases hb : stageEntry off v with
  | nil => rw [hb] at hlen; cases hlen
  | cons x r =>
    rw [← hb, show Bytes.chunks 16 32 (stageEntry off v) = (stageEntry off v).take 16 :: Bytes.chunks 16 31 ((stageEntry off v).drop 16)
      from by rw [hb]; rfl, hdrop, htake]
    rfl

/-- A list of one entry that passes its checks stages it, and the command ends with its reply. -/
theorem State.stageWrite_stages {s : State} {w off : Nat} {v : Word} {c : Cmd} (hfree : (s.bank w).armed = none)
    (hparams : c.params = stageEntry off v) (hoff : off < 2 ^ 32) (hreg : s.stageRefusal w off v.toNat = none)
    (hlen : (s.bank w).items.length < 256) (hfits : (s.bank w).fits = true) :
    s.stageWrite w c = (s.onBank w fun b => b.stage (.write off v)).finish w (.ok 0) := by
  have hitem : word64 (stageEntry off v) 8 = v := by
    unfold word64
    rw [stageEntry_value, BitVec.ofNat_toNat, BitVec.setWidth_eq]
  have hstage := State.stageItems_one (s := s) (w := w) (Bank.fits_stage hfits hlen (i := .write off v) (by decide : (0 : Nat) ≠ 1))
  unfold State.stageWrite
  simp only [State.busyEpoch_none hfree, hparams, stageEntry_length, chunks_stageEntry, List.mapIdx_cons, List.mapIdx_nil,
    stageEntry_reserved, stageEntry_offset hoff, stageEntry_value, hreg, List.map_cons, List.map_nil, hitem, hstage]
  rfl

/-! INTEGRITY_SET. -/

/-- A fraction that the policy of the window allows, of a model or of a stream that it holds, is staged. -/
theorem State.integritySet_stages {s : State} {w : Nat} {c : Cmd} (hfree : (s.bank w).armed = none) (hkind : c.u 18 1 < 2)
    (hfrac : c.u 19 1 < 6) (hpolicy : w < 64 → polFracMin (s.policyOf w) ≤ c.u 19 1 ∧ c.u 19 1 ≤ polFracMax (s.policyOf w))
    (hmodel : c.u 18 1 = 1 → c.u 16 2 < 1024) (hstream : c.u 18 1 = 0 → (s.holdsEver w).hasCs (c.u 16 2) = true)
    (hlen : (s.bank w).items.length < 256) (hfits : (s.bank w).fits = true) :
    s.integritySet w c
      = (s.onBank w fun b => b.stage (.integ (c.u 16 2) (c.u 18 1 = 1) (c.u 19 1))).result w (.ok 0) := by
  have hstage := State.stageItems_one (s := s) (w := w)
    (Bank.fits_stage hfits hlen (i := .integ (c.u 16 2) (c.u 18 1 = 1) (c.u 19 1)) (by decide : (3 : Nat) ≠ 1))
  have hallowed : ¬ (2 ≤ c.u 18 1 || 6 ≤ c.u 19 1
      || (w < 64 && (c.u 19 1 < polFracMin (s.policyOf w) || polFracMax (s.policyOf w) < c.u 19 1))) = true := by
    simp only [Bool.or_eq_true, Bool.and_eq_true, decide_eq_true_eq, not_or, not_and]
    refine ⟨⟨by omega, by omega⟩, fun hw => ?_⟩
    have := hpolicy hw
    omega
  unfold State.integritySet
  simp only [State.busyEpoch_none hfree, if_neg hallowed, hstage]
  by_cases hm : c.u 18 1 = 1
  · simp only [hm, Nat.not_le.mpr (hmodel hm), if_true, if_false]
  · simp only [hm, hstream (by omega), Bool.not_true, Bool.false_eq_true, if_false]

/-! STREAM_BIND. -/

/-- The item of a STREAM_BIND that unbinds. -/
def Cmd.unbindItem (c : Cmd) : BindItem :=
  { cs := c.u 16 2, session := c.session, lsess := c.u 18 1, slot := c.u 19 1, fallback := c.u 20 1
    si := c.u 21 1, se := c.u 22 1, unbind := true }

/-- An unbinding of a stream that the window holds stages its item on the state with its logical session bound. -/
theorem State.streamBind_unbinds {s t : State} {w : Nat} {c : Cmd} (hfree : (s.bank w).armed = none) (hcs : c.u 16 2 < 256)
    (hlsess : c.u 18 1 < 64) (hbindable : s.bindable w c.session = true) (hheld : (s.holdsEver w).hasCs (c.u 16 2) = true)
    (hunbind : Bits.bit (c.u 23 1) 0 = true) (hbind : s.bindLsess w (c.u 18 1) c.session = some t) (hbank : t.bank w = s.bank w)
    (hlen : (s.bank w).items.length < 256) (hfits : (s.bank w).fits = true) :
    s.streamBind w c = (t.onBank w fun b => b.stage (.bind c.unbindItem)).result w (.ok 0) := by
  have hstage := State.stageItems_one (s := t) (w := w)
    (i := .bind c.unbindItem) (by rw [hbank]; exact Bank.fits_stage hfits hlen (by decide : (2 : Nat) ≠ 1))
  unfold Cmd.unbindItem at hstage ⊢
  unfold State.streamBind
  simp only [State.busyEpoch_none hfree, Nat.not_le.mpr hcs, Nat.not_le.mpr hlsess, hbindable, hheld, hunbind, hbind, hstage,
    decide_false, Bool.not_true, Bool.false_and, Bool.or_false, Bool.false_eq_true, if_false]

/-- Binding a logical session that is bound to this one already changes nothing. -/
theorem State.bindLsess_bound {s : State} {w l sc : Nat} (h : s.lsessOf w l = some sc) : s.bindLsess w l sc = some s := by
  unfold State.bindLsess
  simp only [h, if_true]

theorem State.writeSchedules_frame (s : State) (w : Nat) : s.writeSchedules w = { s with qcMem := (s.writeSchedules w).qcMem } := by
  unfold State.writeSchedules
  split <;> rfl

/-- A plan's account with the logical session l bound, its waiting pages and regions given out. -/
def ViPlan.bound (n l : Nat) (vp : ViPlan) : ViPlan :=
  { vp with lsess := Tab.set 0 vp.lsess l n, waitPages := vp.waitPages.filter fun p => p.1 != l
            waitRegions := vp.waitRegions.filter fun r => r.1 != l }

/-- Binding a fresh one gives it the pages and regions that wait for it: the map, the Arcades' regions, the plan's account and the
schedules change. -/
theorem State.bindLsess_fresh {s : State} {w l sc : Nat} (h : s.lsessOf w l = none) :
    ∃ plans omap arc mem, s.bindLsess w l sc = some { s with
        plans := plans, pz := { s.pz with omap := omap }, arc := arc, qcMem := mem }
      ∧ (∀ a, (Tab.get {} arc a).integ = (s.arcade a).integ) ∧ Tab.get 0 (Tab.get {} plans w).lsess l = sc + 1 := by
  have hpages : ∀ (f : OmapEntry → OmapEntry) (l : List (Nat × Nat)) (s : State),
      ∃ omap, l.foldl (fun (s : State) p => s.onOmap p.2 f) s = { s with pz := { s.pz with omap := omap } } := by
    intro f l
    induction l with
    | nil => exact fun s => ⟨_, rfl⟩
    | cons p l ih =>
      intro s
      obtain ⟨omap, h⟩ := ih (s.onOmap p.2 f)
      exact ⟨omap, h⟩
  have hregions : ∀ (f : Region → Region) (l : List (Nat × Nat × Nat)) (s : State),
      ∃ arc, l.foldl (fun (s : State) r => s.onArc r.2.1 fun c => { c with regions := Tab.upd {} c.regions r.2.2 f }) s
          = { s with arc := arc } ∧ ∀ a, (Tab.get {} arc a).integ = (s.arcade a).integ := by
    intro f l
    induction l with
    | nil => exact fun s => ⟨_, rfl, fun _ => rfl⟩
    | cons r l ih =>
      intro s
      obtain ⟨arc, h, hinteg⟩ := ih (s.onArc r.2.1 fun c => { c with regions := Tab.upd {} c.regions r.2.2 f })
      refine ⟨arc, h, fun a => (hinteg a).trans ?_⟩
      by_cases ha : a = r.2.1
      · rw [ha, State.arcade_of_onArc]
      · rw [State.arcade_of_onArc_other _ _ ha]
  unfold State.bindLsess
  simp only [h]
  obtain ⟨omap, hp⟩ := hpages (fun e => e.own (s.session sc) sc) ((s.plan w).waitPages.filter fun p => p.1 == l) s
  rw [hp]
  obtain ⟨arc, hr, hinteg⟩ := hregions (fun g => g.own (s.session sc) sc) ((s.plan w).waitRegions.filter fun r => r.1 == l)
    { s with pz := { s.pz with omap := omap } }
  rw [hr, State.writeSchedules_frame]
  refine ⟨(s.onPlan w (ViPlan.bound (sc + 1) l)).plans, omap, arc, _, rfl, hinteg, ?_⟩
  have hplan := s.plan_of_onPlan w (ViPlan.bound (sc + 1) l)
  unfold State.plan at hplan
  rw [hplan]
  exact Tab.get_set_same (α := Nat) 0 (Tab.get {} s.plans w).lsess l (sc + 1)

/-- Settles O20: each command stages one item in its window's bank, on a state whose waiting pages and regions STREAM_BIND may have
given to the session. -/
theorem itemsAreStaged : Obligations.ItemsAreStaged := by
  refine ⟨?write, ?integrity, ?bind⟩
  case write =>
    intro s w c off v hs hc hfree hparams hoff hreg hlen hfits
    obtain ⟨hrunning, _⟩ := State.running_of_rbCmd hc
    obtain ⟨win, m, hfinish, hmine, hother⟩ := State.finish_eq (s := s.onBank w.val fun b => b.stage (.write off v)) hrunning (.ok 0)
    refine reaches_actCmd_to (exec_stageWrite w s) hs.1 hc
      ((State.stageWrite_stages hfree hparams hoff hreg hlen hfits).trans hfinish) hs.2 rfl ⟨rfl, ?_, ?_⟩
    · exact congrArg Bank.items (s.bank_of_onBank w.val fun b => b.stage (.write off v))
    · exact State.replied_of_finished (congrArg Window.slot hmine)
  case integrity =>
    intro s w c hs hc hfree hkind hfrac hpolicy hmodel hstream hlen hfits
    exact reaches_actCmd_to (exec_integritySet w s) hs.1 hc
      (State.integritySet_stages hfree hkind hfrac hpolicy hmodel hstream hlen hfits) hs.2 rfl
      ⟨rfl, State.slotOnly_result_of_win rfl _ _, State.answers_result _ _ _,
        s.bank_of_onBank w.val fun b => b.stage (.integ (c.u 16 2) (c.u 18 1 = 1) (c.u 19 1))⟩
  case bind =>
    intro s w c hs hc hfree hcs hlsess hbindable hheld hsame hunbind hlen hfits
    have hkeyed : (s.session c.session).state = .keyed := by
      unfold State.bindable at hbindable
      rw [Bool.and_eq_true] at hbindable
      exact eq_of_beq hbindable.2
    cases hl : s.lsessOf w.val (c.u 18 1) with
    | some n =>
      cases hsame n hl
      exact reaches_actCmd_to (exec_streamBind w s) hs.1 hc
        (State.streamBind_unbinds hfree hcs hlsess hbindable hheld hunbind (State.bindLsess_bound hl) rfl hlen hfits) hs.2 rfl
        ⟨rfl, State.slotOnly_result_of_win rfl _ _, State.answers_result _ _ _, hl, fun _ => rfl,
          s.bank_of_onBank w.val fun b => b.stage (.bind c.unbindItem)⟩
    | none =>
      obtain ⟨plans, omap, arc, mem, hbind, hinteg, hbound⟩ := State.bindLsess_fresh (sc := c.session) hl
      refine reaches_actCmd_to (exec_streamBind w s) hs.1 hc
        (State.streamBind_unbinds hfree hcs hlsess hbindable hheld hunbind hbind rfl hlen hfits)
        (hs.2.congr rfl hinteg (fun _ => rfl) (fun _ => rfl) rfl rfl rfl) rfl
        ⟨rfl, State.slotOnly_result_of_win rfl _ _, State.answers_result _ _ _, ?_,
          ?_, s.bank_of_onBank w.val fun b => b.stage (.bind c.unbindItem)⟩
      · unfold State.lsessOf State.plan
        dsimp only [State.result, State.onSlotOf, State.onWin, State.onBank]
        rw [hbound]
        exact if_pos (by rw [beq_iff_eq]; exact hkeyed)
      · intro h
        cases h

end Sys2Proof.Machine
end

