-- ==== Sys2Proof/Proofs/Secrets.lean ====
section
/-! PROOFS. What is scrambled or sealed comes back (R150, R212, R316). -/

namespace Sys2Proof.Machine

theorem getLsbD_twoPow_ofNat (i j : Fin 256) : (BitVec.ofNat 256 (2 ^ i.val)).getLsbD j.val = decide (i = j) := by
  rw [BitVec.getLsbD_ofNat, Nat.testBit_two_pow]
  simp [j.isLt, Fin.ext_iff]

/-- An exchange of two bits that differ flips both, so that they differ still: exchanged again they are back. -/
theorem swapBits_swapBits (v : BitVec 256) (x : Fin 256 × Fin 256) : swapBits (swapBits v x) x = v := by
  obtain ⟨i, j⟩ := x
  by_cases h : v.getLsbD i.val = v.getLsbD j.val
  · simp only [swapBits, h, beq_self_eq_true, if_true]
  · have hij : i ≠ j := fun e => h (by rw [e])
    have hflip : swapBits v (i, j) = v ^^^ (BitVec.ofNat 256 (2 ^ i.val) ^^^ BitVec.ofNat 256 (2 ^ j.val)) :=
      if_neg (by simpa using h)
    have hdiffer : ¬ (swapBits v (i, j)).getLsbD i.val = (swapBits v (i, j)).getLsbD j.val := by
      rw [hflip]
      simp only [BitVec.getLsbD_xor, getLsbD_twoPow_ofNat, hij, Ne.symm hij, decide_true, decide_false, Bool.xor_false, Bool.false_xor]
      simpa using h
    rw [show swapBits (swapBits v (i, j)) (i, j) = _ from if_neg (by simpa using hdiffer), hflip, BitVec.xor_assoc, BitVec.xor_self,
      BitVec.xor_zero]

theorem foldl_swapBits_reverse (l : List (Fin 256 × Fin 256)) (v : BitVec 256) : l.reverse.foldl swapBits (l.foldl swapBits v) = v := by
  induction l generalizing v with
  | nil => rfl
  | cons x l ih => rw [List.reverse_cons, List.foldl_append, List.foldl_cons, List.foldl_cons, List.foldl_nil, ih, swapBits_swapBits]

theorem unscramble_scramble (v : BitVec 256) : unscramble (scramble v) = v := by
  unfold unscramble scramble
  rw [BitVec.xor_assoc, BitVec.xor_self, BitVec.xor_zero, foldl_swapBits_reverse]

/-- The keystream put on twice takes itself off. -/
theorem gcmStream_gcmStream (key : BitVec 256) (nonce : BitVec 96) (b : Bytes) : gcmStream key nonce (gcmStream key nonce b) = b := by
  unfold gcmStream
  rw [List.mapIdx_mapIdx]
  simp only [Function.comp_def, BitVec.xor_assoc, BitVec.xor_self, BitVec.xor_zero]
  exact List.mapIdx_eq_iff.mpr fun i => by simp

/-- What is sealed opens under the same key, nonce and additional data. -/
theorem gcmUnseal_gcmSeal (key : BitVec 256) (nonce : BitVec 96) (aad plain : Bytes) :
    gcmUnseal key nonce aad (gcmSeal key nonce aad plain).1 (gcmSeal key nonce aad plain).2 = some plain :=
  (if_pos rfl).trans (congrArg some (gcmStream_gcmStream key nonce plain))

/-- Settles O54. -/
theorem secretsComeBack : Obligations.SecretsComeBack :=
  ⟨unscramble_scramble, fun key nonce aad plain =>
    ⟨gcmUnseal_gcmSeal key nonce aad plain, gcmStream_length key nonce plain, Bytes.big_length _⟩⟩

end Sys2Proof.Machine
end

