-- ==== Sys2Proof/Proofs/Flash.lean ====
section
/-! PROOFS. What an erase and a write of the flash leave (R389, R454), and the health area (R387, R389, R390). -/

namespace Sys2Proof.Machine

/-! Erases and writes of the flash. -/

theorem State.foldl_xspiChange_frame {α : Type} (op : Nat) (addr : α → Nat) (b : α → Bytes) (l : List α) (s : State) :
    ∃ o, l.foldl (fun (s : State) x => s.xspiChange op (addr x) (b x)) s = { s with out := o } := by
  induction l generalizing s with
  | nil => exact ⟨s.out, rfl⟩
  | cons x l ih =>
    obtain ⟨o, h⟩ := ih (s.xspiChange op (addr x) (b x))
    exact ⟨o, h⟩

theorem State.flashErase_eq (s : State) (lo hi : Nat) : ∃ o, s.flashErase lo hi = { s with flash := Tab.clear s.flash lo hi, out := o } := by
  obtain ⟨o, h⟩ := State.foldl_xspiChange_frame 0xDC (fun i => (lo / s.eraseBlock + i) * s.eraseBlock) (fun _ => [])
    (List.range ((hi + s.eraseBlock - 1) / s.eraseBlock - lo / s.eraseBlock)) s
  exact ⟨o, congrArg (fun t : State => { t with flash := Tab.clear t.flash lo hi }) h⟩

theorem State.flashWrite_eq (s : State) (addr : Nat) (b : Bytes) :
    ∃ o, s.flashWrite addr b = { s with flash := Tab.setMany 0 s.flash addr (b.map fun x => ~~~x), out := o } := by
  obtain ⟨o, h⟩ := State.foldl_xspiChange_frame 0x12 (fun p : Nat × Bytes => p.1) (fun p => p.2) (flashPages addr b) s
  exact ⟨o, congrArg (fun t : State => { t with flash := Tab.setMany 0 t.flash addr (b.map fun x => ~~~x) }) h⟩

/-- The flash after an erase of a range and a write from its start: what stood there is replaced. -/
def rewritten (flash : Tab Byte) (lo hi : Nat) (b : Bytes) : Tab Byte :=
  Tab.setMany 0 (Tab.clear flash lo hi) lo (b.map fun x => ~~~x)

theorem State.flashErase_flashWrite_eq (s : State) (lo hi : Nat) (b : Bytes) :
    ∃ o, (s.flashErase lo hi).flashWrite lo b = { s with flash := rewritten s.flash lo hi b, out := o } := by
  obtain ⟨o, he⟩ := State.flashErase_eq s lo hi
  rw [he]
  obtain ⟨o', hw⟩ := State.flashWrite_eq { s with flash := Tab.clear s.flash lo hi, out := o } lo b
  exact ⟨o', hw⟩

theorem get_rewritten_outside {flash : Tab Byte} {lo hi a : Nat} {b : Bytes} (hfits : lo + b.length ≤ hi) (ha : a < lo ∨ hi ≤ a) :
    Tab.get 0 (rewritten flash lo hi b) a = Tab.get 0 flash a := by
  unfold rewritten
  rw [Tab.get_setMany, Tab.get_clear, List.length_map, if_neg (by omega), if_neg (by omega)]

/-! The health area. -/

theorem Sig.toBytes_length (g : Sig) : g.toBytes.length = 64 := by simp [Sig.toBytes, int16]

theorem State.areaBytes_length (s : State) (seq : Nat) : (s.areaBytes seq).length = 576 + 64 * s.health.sigs.length := by
  simp [State.areaBytes, Bytes.slice_length, Sig.toBytes_length, Function.comp_def]
  omega

/-- The number of the next copy of the area. -/
def State.nextAreaSeq (s : State) : Nat :=
  match s.areaCopy with
  | some i => (s.areaHalf i).2.1 + 1
  | none => 1

/-- The health unit's account of the area once a copy with a number is written. -/
def State.noteArea (s : State) (seq : Nat) : State :=
  { s with health := { s.health with areaSeq := seq, areaAt := s.now, dirty := false, newSigs := false, ring := s.health.flagArea } }

theorem State.writeArea_noteArea (s : State) :
    s.writeArea = ((s.flashErase (areaBase (spareCopy s.areaCopy)) (areaBase (spareCopy s.areaCopy) + 0x40000)).flashWrite
      (areaBase (spareCopy s.areaCopy)) (s.areaBytes s.nextAreaSeq)).noteArea s.nextAreaSeq := by
  unfold State.writeArea State.noteArea State.nextAreaSeq
  rfl

/-- A rewrite of the area changes the flash, what went out to it, and the health unit's account of the area. -/
theorem State.writeArea_eq (s : State) :
    ∃ o seq, s.writeArea = State.noteArea { s with
      flash := rewritten s.flash (areaBase (spareCopy s.areaCopy)) (areaBase (spareCopy s.areaCopy) + 0x40000) (s.areaBytes seq)
      out := o } seq := by
  obtain ⟨o, h⟩ := State.flashErase_flashWrite_eq s (areaBase (spareCopy s.areaCopy)) (areaBase (spareCopy s.areaCopy) + 0x40000)
    (s.areaBytes s.nextAreaSeq)
  exact ⟨o, s.nextAreaSeq, s.writeArea_noteArea.trans (congrArg (fun t : State => t.noteArea s.nextAreaSeq) h)⟩

theorem Health.flagArea_keeps {h : Health} {r : HRec} (hr : r ∈ h.ring) (hother : ∀ b, h.lastBlock = some b → b.recNo ≠ r.recNo) :
    r ∈ h.flagArea := by
  refine List.mem_map.mpr ⟨r, hr, if_neg ?_⟩
  cases hl : h.lastBlock with
  | none => simp
  | some b => simpa using hother b hl

theorem Health.flagArea_flags {h : Health} {r b : HRec} (hr : r ∈ h.ring) (hb : h.lastBlock = some b) (hno : b.recNo = r.recNo) :
    r.inArea ∈ h.flagArea :=
  List.mem_map.mpr ⟨r, hr, if_pos (by simp [hb, hno])⟩

/-- The end of a window of 60 s moves its buckets into the signatures, of which the latest 4,000 stay. -/
theorem State.endWindow_eq (s : State) :
    ∃ all, s.endWindow = { s with
      health := { s.health with
        windowAt := s.now, sigs := all.drop (all.length - 4000), newSigs := s.health.newSigs || !s.health.buckets.isEmpty, buckets := [] }
      mgmt := { s.mgmt with sigQueue := s.mgmt.sigQueue ++ s.health.buckets } } ∧ all = s.health.sigs ++ s.health.buckets :=
  ⟨_, rfl, rfl⟩

theorem exec_healthAreaRewrite (s : State) : exec .healthAreaRewrite s
    = act (s.fcUp && (s.health.dirty || (s.health.newSigs && decide (s.health.areaAt + 3600000000000 ≤ s.now)))) State.writeArea s := rfl

theorem exec_signatureWindowEnd (s : State) : exec .signatureWindowEnd s
    = act (s.fcUp && decide (s.health.windowAt + 60000000000 ≤ s.now)) State.endWindow s := rfl

/-- Settles O59; that the ring's copy of the area's BLOCK record is flagged in the rewrite is log entry 86. -/
theorem healthAreaIsKept : Obligations.HealthAreaIsKept := by
  refine ⟨fun s hs hfc => ⟨fun hdue hsigs => ?rewrite, fun hclean hearly => ?idle⟩, fun s hs hfc => ⟨fun hend => ?window, fun hearly => ?early⟩⟩
  case rewrite =>
    obtain ⟨o, seq, heq⟩ := State.writeArea_eq s
    have hlen := State.areaBytes_length s seq
    generalize s.areaBytes seq = b at heq hlen
    generalize spareCopy s.areaCopy = i at heq ⊢
    exact reaches_act_to (exec_healthAreaRewrite s) hs.1 (by simpa [hfc] using hdue) heq hs.2 rfl
      ⟨rfl, fun _ hr hother => Health.flagArea_keeps hr hother, fun _ hr _ hb hno => Health.flagArea_flags hr hb hno,
        List.length_map _, fun _ ha => get_rewritten_outside (by omega) ha⟩
  case idle =>
    refine exec_idle_of_act (exec_healthAreaRewrite s) ?_
    rcases hearly with h | h
    · simp [hclean, h]
    · simp [hclean, Nat.not_le.mpr h]
  case window =>
    obtain ⟨all, heq, hall⟩ := s.endWindow_eq
    subst hall
    generalize hsigs : (s.health.sigs ++ s.health.buckets).drop ((s.health.sigs ++ s.health.buckets).length - 4000) = sigs at heq
    refine reaches_act_to (exec_signatureWindowEnd s) hs.1 (by simp [hfc, hend]) heq hs.2 rfl ⟨rfl, ?_, rfl, fun hfew => ?_⟩
    · show sigs.length = _
      rw [← hsigs, List.length_drop, List.length_append]
      omega
    · show sigs = _
      rw [← hsigs, List.length_append, Nat.sub_eq_zero_of_le hfew, List.drop_zero]
  case early => exact exec_idle_of_act (exec_signatureWindowEnd s) (by simp [Nat.not_le.mpr hearly])

end Sys2Proof.Machine
end

