-- ==== Sys2Proof/Proofs/Reports.lean ====
section
/-! PROOFS. What a record of the health unit leaves as it was (R368, R382, R394, R395). -/

namespace Sys2Proof.Machine

theorem Health.bucket_frame (h : Health) (r : HRec) (ops : Nat) : ∃ b, h.bucket r ops = { h with buckets := b } := by
  unfold Health.bucket
  dsimp only
  split
  · exact ⟨h.buckets, rfl⟩
  · split
    · split <;> exact ⟨_, rfl⟩
    · split <;> exact ⟨_, rfl⟩

theorem Health.insert_frame (h : Health) (r : HRec) :
    ∃ ring n l c, (h.insert r).1 = { h with ring := ring, nextRec := n, lost := l, lostCnt := c } := by
  unfold Health.insert
  dsimp only
  split
  · exact ⟨_, _, h.lost, h.lostCnt, rfl⟩
  · split
    · exact ⟨_, _, _, _, rfl⟩
    · exact ⟨h.ring, h.nextRec, _, _, rfl⟩

/-- A record leaves the health unit's flags as its class sets them, and changes the ring, its windows and buckets. -/
theorem Health.log_frame (h : Health) (r : HRec) : ∃ ring n ws b l c, (h.log r).1
    = { h.flag r.cls with ring := ring, nextRec := n, windows := ws, buckets := b, lost := l, lostCnt := c } := by
  unfold Health.log
  dsimp only
  obtain ⟨b, hb⟩ := (h.flag r.cls).bucket_frame r (h.operating r.detectTime)
  rw [hb]
  generalize h.flag r.cls = f
  split
  · obtain ⟨ring, n, l, c, hi⟩ := Health.insert_frame { f with buckets := b } r
    exact ⟨ring, n, f.windows, b, l, c, hi⟩
  · split
    · exact ⟨_, f.nextRec, f.windows, b, f.lost, f.lostCnt, rfl⟩
    · obtain ⟨ring, n, l, c, hi⟩ := Health.insert_frame { f with buckets := b, windows := _ } r
      exact ⟨ring, n, _, b, l, c, hi⟩

theorem State.report_health (s : State) (r : HRec) : ∃ ring n ws b l c, (s.report r).health
    = { s.health.flag (eventClass r.event) with ring := ring, nextRec := n, windows := ws, buckets := b, lost := l, lostCnt := c } :=
  Health.log_frame s.health (s.stamp r)

/-- What neither the flags nor the records touch, the health unit keeps. -/
theorem State.report_health_proj {α : Type} (p : Health → α)
    (hp : ∀ (h : Health) (ring : List HRec) (n : Nat) (ws : List (Nat × Nat × Nat × Nat)) (b : List Sig) (f1 f2 f3 f4 f5 f6 : Bool)
      (c1 c2 c3 c4 c5 c6 : BitVec 8), p { h with
        ring := ring, nextRec := n, windows := ws, buckets := b, corrected := f1, session := f2, integrity := f3, unit := f4, fc := f5
        lost := f6, correctedCnt := c1, sessionCnt := c2, integrityCnt := c3, unitCnt := c4, fcCnt := c5, lostCnt := c6 } = p h)
    (s : State) (r : HRec) : p (s.report r).health = p s.health := by
  have hflag : ∀ (h : Health) (c : Nat) (ring : List HRec) (n : Nat) (ws : List (Nat × Nat × Nat × Nat)) (b : List Sig) (l : Bool)
      (k : BitVec 8), p { h.flag c with ring := ring, nextRec := n, windows := ws, buckets := b, lost := l, lostCnt := k } = p h := by
    intro h c ring n ws b l k
    unfold Health.flag
    repeat' split
    all_goals exact hp h ring n ws b _ _ _ _ _ l _ _ _ _ _ k
  obtain ⟨ring, n, ws, b, l, c, h⟩ := State.report_health s r
  rw [h]
  exact hflag _ _ _ _ _ _ _ _

@[simp] theorem State.report_degraded (s : State) (r : HRec) : (s.report r).health.degraded = s.health.degraded :=
  State.report_health_proj Health.degraded (by intros; rfl) s r
@[simp] theorem State.report_fcRestarting (s : State) (r : HRec) : (s.report r).health.fcRestarting = s.health.fcRestarting :=
  State.report_health_proj Health.fcRestarting (by intros; rfl) s r
@[simp] theorem State.report_qc (s : State) (r : HRec) : (s.report r).health.qc = s.health.qc :=
  State.report_health_proj Health.qc (by intros; rfl) s r
@[simp] theorem State.report_qcOf (s : State) (r : HRec) (q : Nat) : (s.report r).qcOf q = s.qcOf q := by
  unfold State.qcOf
  rw [State.report_qc]

theorem State.report_synced {s : State} (h : s.Synced) (r : HRec) : (s.report r).Synced :=
  h.congr (State.report_degraded s r) (fun _ => rfl) (fun _ => rfl) (fun q => by rw [State.report_qcOf])
    (State.report_fcRestarting s r) rfl rfl

/-- What a change of the listed entries keeps of each, it keeps of what is read. -/
theorem Tab.get_mapListed_proj {α β : Type} (d : α) (p : α → β) {f : Nat → α → α} {k : Nat} (h : ∀ v, p (f k v) = p v) {t : Tab α} :
    p (Tab.get d (Tab.mapListed t f) k) = p (Tab.get d t k) := by
  induction t with
  | nil => rfl
  | cons e r ih =>
    obtain ⟨j, v⟩ := e
    simp only [Tab.mapListed, List.map_cons, Tab.get] at ih ⊢
    split
    · next hj => rw [hj]; exact h v
    · exact ih

/-- What the notices of a record do not touch, a window keeps. -/
theorem State.report_window_proj {α : Type} (p : Window → α)
    (hp : ∀ (w : Window) (e n : Bool) (k : BitVec 8) (l : BitVec 32),
      p { w with errRecord := e, errRecordCnt := k, lastRec := l, errNotice := n } = p w)
    (s : State) (r : HRec) (w : Nat) : p ((s.report r).window w) = p (s.window w) := by
  have hmoved : ∀ (t : Tab Window) (next no : Nat), p (Tab.get {} (Tab.mapListed t fun _ w =>
      if no ≤ w.lastRec.toNat && w.lastRec.toNat < next then { w with lastRec := w.lastRec + 1 } else w) w) = p (Tab.get {} t w) := by
    intro t next no
    refine Tab.get_mapListed_proj {} p fun v => ?_
    split
    · exact hp v v.errRecord v.errNotice v.errRecordCnt _
    · rfl
  have hwritten : ∀ (t : Tab Window) (n no : Nat),
      p (Tab.get {} (Tab.upd {} t n fun w => w.recordWritten no) w) = p (Tab.get {} t w) := by
    intro t n no
    by_cases hn : w = n
    · rw [hn, Tab.get_upd_same]
      exact hp _ _ _ _ _
    · rw [Tab.get_upd_other _ _ _ hn]
  unfold State.report State.window noted
  dsimp only
  split
  · rfl
  · split
    · rw [hwritten, hwritten]
      split
      · exact hmoved _ _ _
      · rfl
    · rw [hwritten]
      split
      · exact hmoved _ _ _
      · rfl

@[simp] theorem State.report_window_slot (s : State) (r : HRec) (w : Nat) : ((s.report r).window w).slot = (s.window w).slot :=
  State.report_window_proj Window.slot (fun _ _ _ _ _ => rfl) s r w
@[simp] theorem State.report_window_isOpen (s : State) (r : HRec) (w : Nat) : ((s.report r).window w).isOpen = (s.window w).isOpen :=
  State.report_window_proj Window.isOpen (fun _ _ _ _ _ => rfl) s r w
@[simp] theorem State.report_window_gen (s : State) (r : HRec) (w : Nat) : ((s.report r).window w).gen = (s.window w).gen :=
  State.report_window_proj Window.gen (fun _ _ _ _ _ => rfl) s r w

/-! The end of a command sets DEVICE_DEGRADED as its conditions stand. -/

theorem State.settle_degraded (s t : State) : (s.settle t).health.degraded = t.degradedNow :=
  congrArg (fun u : State => u.health.degraded) (s.settle_frame t)

theorem State.settle_health (s t : State) : (s.settle t).health = { t.health with degraded := t.degradedNow } :=
  congrArg State.health (s.settle_frame t)

theorem exec_act_to {c : Instr} {s t : State} {g : Bool} {f : State → State} (he : exec c s = act g f s) (hl : s.live = true)
    (hg : g = true) (ht : f s = t) (hs : t.Synced) (hq : t.pending = s.pending) : exec c s = .next t := by
  subst ht
  exact exec_act_synced he hl hg hs hq

end Sys2Proof.Machine
end

