-- ==== Sys2Proof/Proofs/Entropy.lean ====
section
/-! PROOFS. The entropy source, its tests and the reseed (R342 to R345). -/

namespace Sys2Proof.Machine

/-! The repetition count test: after any bits its counter is the length of the run that they end in. -/

/-- The length of the run of equal bits that a list begins with. -/
def leadingRun : List Bool → Nat
  | [] => 0
  | b :: l => if l.head? = some b then leadingRun l + 1 else 1

theorem leadingRun_eq_zero {l : List Bool} : leadingRun l = 0 ↔ l = [] := by
  cases l with
  | nil => exact ⟨fun _ => rfl, fun _ => rfl⟩
  | cons b l =>
    refine ⟨fun h => ?_, fun h => nomatch h⟩
    unfold leadingRun at h
    split at h <;> omega

theorem replicate_prefix_iff {n : Nat} {b : Bool} {l : List Bool} :
    List.replicate (n + 1) b <+: l ↔ l.head? = some b ∧ n + 1 ≤ leadingRun l := by
  induction l generalizing n with
  | nil => simp
  | cons c l ih =>
    rw [List.replicate_succ, List.cons_prefix_cons, List.head?_cons, Option.some_inj, leadingRun]
    cases n with
    | zero =>
      have hpos : 0 + 1 ≤ if l.head? = some c then leadingRun l + 1 else 1 := by split <;> omega
      exact ⟨fun h => ⟨h.1.symm, hpos⟩, fun h => ⟨h.1.symm, List.nil_prefix⟩⟩
    | succ n =>
      rw [ih]
      constructor
      · rintro ⟨rfl, hhead, hrun⟩
        exact ⟨rfl, by rw [if_pos hhead]; omega⟩
      · rintro ⟨rfl, hrun⟩
        split at hrun
        · next hhead => exact ⟨rfl, hhead, by omega⟩
        · omega

/-- Some bit stands 41 times running. -/
def Repeats (bits : List Bool) : Prop := ∃ b, List.replicate 41 b <:+: bits

theorem repeats_concat (bits : List Bool) (b : Bool) : Repeats (bits ++ [b]) ↔ Repeats bits ∨ 41 ≤ leadingRun (b :: bits.reverse) := by
  have hsuffix : ∀ c, List.replicate 41 c <:+ bits ++ [b] ↔ b = c ∧ 41 ≤ leadingRun (b :: bits.reverse) := by
    intro c
    rw [← List.reverse_prefix, List.reverse_replicate, List.reverse_concat, replicate_prefix_iff, List.head?_cons, Option.some_inj]
  unfold Repeats
  simp only [List.infix_concat_iff, hsuffix]
  constructor
  · rintro ⟨c, ⟨_, h⟩ | h⟩
    · exact .inr h
    · exact .inl ⟨c, h⟩
  · rintro (⟨c, h⟩ | h)
    · exact ⟨c, .inr h⟩
    · exact ⟨b, .inl ⟨rfl, h⟩⟩

/-- What the test holds after bits: the run that they end in, their last bit, and whether the cutoff was met. -/
theorem foldl_rctStep (bits : List Bool) : (bits.foldl rctStep (0, false, false)).1 = leadingRun bits.reverse
    ∧ (bits.foldl rctStep (0, false, false)).2.1 = bits.reverse.head?.getD false
    ∧ ((bits.foldl rctStep (0, false, false)).2.2 = true ↔ Repeats bits) := by
  induction bits using List.reverseRecOn with
  | nil => exact ⟨rfl, rfl, by simp [Repeats]⟩
  | append_singleton bits b ih =>
    rw [List.foldl_concat, List.reverse_concat, repeats_concat]
    generalize bits.foldl rctStep (0, false, false) = x at ih
    obtain ⟨hrun, hlast, hflag⟩ := ih
    have hstep : (rctStep x b).1 = leadingRun (b :: bits.reverse) := by
      unfold rctStep leadingRun
      dsimp only
      rw [hrun, hlast]
      cases hr : bits.reverse with
      | nil => rfl
      | cons c l =>
        have hne : leadingRun (c :: l) ≠ 0 := fun h => nomatch leadingRun_eq_zero.mp h
        simp [hne, eq_comm]
    rw [← hstep, ← hflag]
    refine ⟨rfl, rfl, ?_⟩
    unfold rctStep
    dsimp only
    rw [Bool.or_eq_true, decide_eq_true_eq]

theorem repeats_iff (bits : List Bool) : Repeats bits ↔ ∃ (k : Nat) (b : Bool), ∀ i, i < 41 → bits[k + i]? = some b := by
  unfold Repeats
  simp only [List.infix_iff_getElem?, List.length_replicate, List.getElem_replicate]
  constructor
  · rintro ⟨b, k, _, h⟩
    exact ⟨k, b, fun i hi => by rw [Nat.add_comm]; exact h i hi⟩
  · rintro ⟨k, b, h⟩
    obtain ⟨hlast, _⟩ := List.getElem?_eq_some_iff.mp (h 40 (by omega))
    exact ⟨b, k, by omega, fun i hi => by rw [Nat.add_comm]; exact h i hi⟩

theorem aptFails_cons (b : Bool) (l : List Bool) : aptFails (b :: l) = true ↔ 794 ≤ (b :: l).count b := by
  unfold aptFails List.count
  rw [List.countP_eq_length_filter, decide_eq_true_eq]

/-! A block of raw bits. -/

/-- The source once the tests have seen a block. -/
def Trng.seen (t : Trng) (raw : Bytes) : Trng :=
  { t with run := ((rawBits raw).foldl rctStep (t.run, t.last, false)).1
           last := ((rawBits raw).foldl rctStep (t.run, t.last, false)).2.1 }

/-- Whether the repetition count test fails on a block. -/
def Trng.rctFails (t : Trng) (raw : Bytes) : Bool := ((rawBits raw).foldl rctStep (t.run, t.last, false)).2.2

/-- The failures within 1 s. -/
def State.recentFailures (s : State) : List Nat := s.trng.failTimes.filter fun x => s.now ≤ x + 1000000000

/-- What one failed test leaves in the source. -/
def Trng.failed (t : Trng) (rct : Bool) (times : List Nat) : Trng :=
  { t with
    rctFail := t.rctFail || rct, aptFail := t.aptFail || !rct
    rctCnt := if rct then t.rctCnt + 1 else t.rctCnt
    aptCnt := if rct then t.aptCnt else t.aptCnt + 1
    passes := 0, failTimes := times
    state := if t.state == .failed || 3 ≤ times.length then .failed else .degraded }

theorem State.trngFailure_frame (s : State) (rct : Bool) : s.trngFailure rct
    = { s with trng := s.trng.failed rct (s.recentFailures ++ [s.now]), health := (s.trngFailure rct).health, win := (s.trngFailure rct).win } :=
  rfl

/-- A block that passes both tests is kept. -/
theorem State.trngBlock_good {s : State} {raw : Bytes} (hr : s.trng.rctFails raw = false) (ha : aptFails (rawBits raw) = false) :
    s.trngBlock raw = { s with trng := (s.trng.seen raw).pass (Config.sha384 raw) } := by
  unfold State.trngBlock
  exact if_pos (by rw [show ((rawBits raw).foldl rctStep (s.trng.run, s.trng.last, false)).2.2 = false from hr, ha]; rfl)

/-- A block that fails one test leaves one failure. -/
theorem State.trngBlock_one {s : State} {raw : Bytes} {rct : Bool} (hr : s.trng.rctFails raw = rct) (ha : aptFails (rawBits raw) = !rct) :
    s.trngBlock raw = State.trngFailure { s with trng := s.trng.seen raw } rct := by
  unfold State.trngBlock
  dsimp only
  rw [show ((rawBits raw).foldl rctStep (s.trng.run, s.trng.last, false)).2.2 = rct from hr, ha]
  cases rct <;> rfl

/-- A block that fails both tests leaves two. -/
theorem State.trngBlock_both {s : State} {raw : Bytes} (hr : s.trng.rctFails raw = true) (ha : aptFails (rawBits raw) = true) :
    s.trngBlock raw = (State.trngFailure { s with trng := s.trng.seen raw } true).trngFailure false := by
  unfold State.trngBlock
  dsimp only
  rw [show ((rawBits raw).foldl rctStep (s.trng.run, s.trng.last, false)).2.2 = true from hr, ha]
  rfl

theorem Trng.failed_state (t : Trng) (rct : Bool) (times : List Nat) : (t.failed rct times).state = .failed ∨ (t.failed rct times).state = .degraded := by
  unfold Trng.failed
  dsimp only
  split
  · exact .inl rfl
  · exact .inr rfl

theorem State.degradedNow_of_trng {s : State} (h : s.trng.state = .failed ∨ s.trng.state = .degraded) : s.degradedNow = true := by
  unfold State.degradedNow
  rcases h with h | h <;> simp [h]

/-- What a failed test leaves, whatever its kind: the source, the health unit and the windows' notices change, and DEVICE_DEGRADED is
set as the command ends. -/
def State.Failed (s : State) (t : State) : Prop :=
  t = { s with trng := t.trng, health := t.health, win := t.win } ∧ (t.trng.state = .failed ∨ t.trng.state = .degraded)
    ∧ t.trng.passes = 0 ∧ t.trng.block = s.trng.block ∧ t.trng.requests = s.trng.requests ∧ t.trng.key = s.trng.key ∧ t.trng.v = s.trng.v

theorem State.failed_trngFailure (s : State) (rct : Bool) : s.Failed (s.trngFailure rct) :=
  ⟨State.trngFailure_frame s rct, Trng.failed_state _ _ _, rfl, rfl, rfl, rfl, rfl⟩

theorem State.Failed.trans {s t u : State} (h : s.Failed t) (g : t.Failed u) : s.Failed u := by
  obtain ⟨ht, _, _, hb, hr, hk, hv⟩ := h
  obtain ⟨hu, hs', hp', hb', hr', hk', hv'⟩ := g
  refine ⟨hu.trans (by rw [ht]), hs', hp', hb'.trans hb, hr'.trans hr, hk'.trans hk, hv'.trans hv⟩

theorem exec_trngBlock (raw : Bytes) (s : State) :
    exec (.trngBlock raw) s = act (s.trng.state != .startup) (fun s => s.trngBlock raw) s := rfl

theorem exec_drbgReseed (s : State) :
    exec .drbgReseed s = act (s.reseedDueNow && s.trng.state != .startup && s.trng.state != .failed) State.reseed s := rfl

theorem Trng.pass_of_state {t : Trng} {b : BitVec 384} (h : t.state ≠ .degraded) : t.pass b = { t with block := some b } := by
  unfold Trng.pass
  exact if_neg (by simpa using h)

theorem Trng.pass_degraded {t : Trng} {b : BitVec 384} (h : t.state = .degraded) : t.pass b
    = if 63 ≤ t.passes then { t with block := some b, state := .ok, passes := 0 } else { t with block := some b, passes := t.passes + 1 } := by
  unfold Trng.pass
  exact if_pos (by simpa using h)

/-- After a failure at the present instant all that were within 1 s are so still. -/
theorem State.recentFailures_again {s t : State} (hnow : t.now = s.now) (ht : t.trng.failTimes = s.recentFailures ++ [s.now]) :
    t.recentFailures = s.recentFailures ++ [s.now] := by
  unfold State.recentFailures at ht ⊢
  rw [ht, hnow, List.filter_append, List.filter_filter]
  simp

theorem Trng.failed_state_eq (t : Trng) (rct : Bool) (times : List Nat) :
    (t.failed rct times).state = if t.state = .failed ∨ 3 ≤ times.length then TrngState.failed else TrngState.degraded := by
  simp [Trng.failed]

/-- Two failures at one instant: both kinds are flagged and counted, and the two count toward the three of 1 s. -/
theorem State.trngFailure_twice {s : State} : ((s.trngFailure true).trngFailure false).trng
    = (s.trng.failed true (s.recentFailures ++ [s.now])).failed false (s.recentFailures ++ [s.now] ++ [s.now]) := by
  rw [State.trngFailure_frame (s.trngFailure true) false]
  show (s.trng.failed true _).failed false ((s.trngFailure true).recentFailures ++ _) = _
  rw [State.recentFailures_again (s := s) (t := s.trngFailure true) rfl rfl]
  rfl

theorem State.failed_trngBlock {s : State} {raw : Bytes} (h : s.trng.rctFails raw = true ∨ aptFails (rawBits raw) = true) :
    s.Failed (s.trngBlock raw) := by
  have hseen (rct : Bool) : s.Failed (State.trngFailure { s with trng := s.trng.seen raw } rct) :=
    State.failed_trngFailure { s with trng := s.trng.seen raw } rct
  cases hr : s.trng.rctFails raw <;> cases ha : aptFails (rawBits raw)
  case false.false => simp [hr, ha] at h
  case false.true => rw [State.trngBlock_one hr ha]; exact hseen false
  case true.false => rw [State.trngBlock_one hr ha]; exact hseen true
  case true.true =>
    rw [State.trngBlock_both hr ha]
    exact (hseen true).trans (State.failed_trngFailure _ false)

theorem state_after_one (state : TrngState) (n : Nat) : (if state = .failed ∨ 3 ≤ n + 1 then TrngState.failed else .degraded)
    = if state = .failed ∨ 2 ≤ n then TrngState.failed else .degraded :=
  if_congr (or_congr_right (by omega)) rfl rfl

theorem state_after_two (state : TrngState) (n : Nat) :
    (if (if state = .failed ∨ 3 ≤ n + 1 then TrngState.failed else .degraded) = .failed ∨ 3 ≤ n + 1 + 1 then TrngState.failed else .degraded)
      = if state = .failed ∨ 1 ≤ n then TrngState.failed else .degraded := by
  by_cases hf : state = .failed ∨ 3 ≤ n + 1
  · rw [if_pos hf, if_pos (.inl rfl), if_pos (hf.imp_right (by omega))]
  · rw [if_neg hf]
    exact if_congr ⟨fun h => h.elim nofun fun h => .inr (by omega), fun h => h.elim (fun h => absurd (.inl h) hf) fun h => .inr (by omega)⟩
      rfl rfl

theorem State.reseed_some {s : State} {b : BitVec 384} (h : s.trng.block = some b) : s.reseed = { s with trng := { s.trng with
    key := (drbgUpdate s.trng.key s.trng.v b).1, v := (drbgUpdate s.trng.key s.trng.v b).2
    requests := 0, reseedAt := s.now, block := none, reseedDue := false, reseeds := s.trng.reseeds + 1 } } := by
  unfold State.reseed
  rw [h]
  rfl

theorem State.reseed_none {s : State} (h : s.trng.block = none) : s.reseed = { s with trng := { s.trng with reseedDue := true } } := by
  unfold State.reseed
  rw [h]

/-- Settles O53; one window of 1,024 bits a block is log entry 110. -/
theorem entropyIsTested : Obligations.EntropyIsTested := by
  refine ⟨fun s raw hl hstart => ?blocks, fun s hs hstate hdue => ?reseed, fun bits => (foldl_rctStep bits).2.2.trans (repeats_iff bits),
    aptFails_cons⟩
  case blocks =>
    have hg : (s.trng.state != .startup) = true := by simpa using hstart
    refine ⟨fun hr ha => ⟨fun hs hok => ?kept, fun hs hdeg hfew => ?counted, fun hdeg hlast => ?back⟩, fun hone => ?one, fun hr ha => ?both,
      fun hany => ?frame⟩
    case kept =>
      have hpass : (s.trng.seen raw).state ≠ .degraded := by rcases hok with h | h <;> simp [Trng.seen, h]
      have heq := State.trngBlock_good (s := s) hr ha
      rw [Trng.pass_of_state hpass] at heq
      exact exec_act_to (exec_trngBlock raw s) hl hg heq hs rfl
    case counted =>
      have heq := State.trngBlock_good (s := s) hr ha
      rw [Trng.pass_degraded (show (s.trng.seen raw).state = _ from hdeg),
        if_neg (show ¬ 63 ≤ (s.trng.seen raw).passes from Nat.not_le.mpr hfew)] at heq
      exact exec_act_to (exec_trngBlock raw s) hl hg heq hs rfl
    case back =>
      have heq := State.trngBlock_good (s := s) hr ha
      rw [Trng.pass_degraded (show (s.trng.seen raw).state = _ from hdeg), if_pos (show 63 ≤ (s.trng.seen raw).passes from hlast)] at heq
      refine reaches_act (exec_trngBlock raw s) hl hg ?_
      rw [State.settle_trng, heq]
      rfl
    case one =>
      have ha : aptFails (rawBits raw) = !s.trng.rctFails raw := Bool.eq_not.mpr fun h => hone h.symm
      refine reaches_act (exec_trngBlock raw s) hl hg ?_
      rw [State.settle_trng, State.trngBlock_one rfl ha, State.trngFailure_frame]
      refine ⟨?_, rfl, ?_, rfl, ?_⟩
      · show (Trng.failed _ _ _).state = _
        rw [Trng.failed_state_eq, List.length_append, List.length_singleton]
        exact state_after_one s.trng.state s.recentFailures.length
      · show (s.trng.aptFail || !s.trng.rctFails raw) = _
        rw [← ha]
      · show (if s.trng.rctFails raw then _ else _) = _
        rw [ha]
        cases s.trng.rctFails raw <;> rfl
    case both =>
      refine reaches_act (exec_trngBlock raw s) hl hg ?_
      rw [State.settle_trng, State.trngBlock_both hr ha, State.trngFailure_twice]
      refine ⟨?_, by simp [Trng.failed], by simp [Trng.failed], rfl, rfl⟩
      simp only [Trng.failed_state_eq, List.length_append, List.length_singleton]
      exact state_after_two s.trng.state s.recentFailures.length
    case frame =>
      obtain ⟨heq, hstate, hpasses, hblock, hrequests, hkey, hv⟩ := State.failed_trngBlock hany
      refine reaches_act (exec_trngBlock raw s) hl hg ?_
      simp only [State.settle_trng]
      refine ⟨?_, hpasses, hblock, ?_, hrequests, hkey, hv⟩
      · rw [State.settle_frame, heq]
      · exact (State.settle_degraded _ _).trans (State.degradedNow_of_trng hstate)
  case reseed =>
    have hg : (s.reseedDueNow && s.trng.state != .startup && s.trng.state != .failed) = true := by
      rcases hstate with h | h <;> simp [hdue, h]
    refine ⟨fun b hb => exec_act_to (exec_drbgReseed s) hs.1 hg (State.reseed_some hb) hs.2 rfl,
      fun hnone => exec_act_to (exec_drbgReseed s) hs.1 hg (State.reseed_none hnone) hs.2 rfl⟩

end Sys2Proof.Machine
end

