-- ==== Sys2Proof/Proofs/DeviceTime.lean ====
section
/-! PROOFS. Device time and its input (R36, R37, R462). -/

namespace Sys2Proof.Machine

/-! The step that a comparison leaves. -/

theorem slewStep_of_behind {e : Int} (h : e < 0) (v : BitVec 64) :
    nominalStep ≤ (slewStep e v).toNat ∧ (slewStep e v).toNat ≤ nominalStep + slewMax := by
  unfold slewStep
  rw [if_pos h, BitVec.toNat_ofNat]
  have hbound := Nat.mod_lt v.toNat (show 0 < slewMax + 1 by decide)
  unfold nominalStep slewMax at *
  omega

theorem slewStep_of_ahead {e : Int} (h : 0 < e) (v : BitVec 64) :
    (slewStep e v).toNat ≤ nominalStep ∧ nominalStep - slewMax ≤ (slewStep e v).toNat := by
  unfold slewStep
  rw [if_neg (by omega), if_pos h, BitVec.toNat_ofNat]
  have hbound := Nat.mod_lt v.toNat (show 0 < slewMax + 1 by decide)
  unfold nominalStep slewMax at *
  omega

theorem slewStep_of_equal {e : Int} (h : e = 0) (v : BitVec 64) : (slewStep e v).toNat = nominalStep := by
  unfold slewStep
  rw [h, if_neg (by omega), if_neg (by omega)]
  rfl

/-! The one step of device time changes what fires and the boundaries that it passes. -/

theorem Ptu.enqueue_frame (p : Ptu) (l : List Firing) :
    ∃ e f d k, p.enqueue l = { p with events := e, firing := f, deferred := d, late := k } := by
  unfold Ptu.enqueue Ptu.cap
  exact ⟨_, _, _, _, rfl⟩

theorem State.evaluate_frame (s : State) (sel : Nat → Bool) (late : Bool) :
    ∃ e f d k, s.evaluate sel late = { s with ptu := { s.ptu with events := e, firing := f, deferred := d, late := k } } := by
  unfold State.evaluate
  dsimp only
  generalize s.ptu.events.map _ = r
  obtain ⟨e, f, d, k, h⟩ := Ptu.enqueue_frame { s.ptu with events := (r.map (·.1)).filter fun e => e.2 != {} } (r.map (·.2)).flatten
  exact ⟨e, f, d, k, congrArg (fun p => { s with ptu := p }) h⟩

theorem Ptu.moveTime_frame (p : Ptu) (dt : BitVec 96) :
    ∃ a b c g, p.moveTime dt = { p with dt := dt, atEpoch := a, atDispatch := b, dispatch := c, atStep := g } :=
  ⟨_, _, _, _, rfl⟩

/-- Device time set to an instant, with the entries of device time that it passes fired. -/
def State.movedTo (s : State) (dt : BitVec 96) : State :=
  State.evaluate { s with ptu := s.ptu.moveTime dt } (fun i => (State.event { s with ptu := s.ptu.moveTime dt } i).device) true

theorem State.movedTo_frame (s : State) (dt : BitVec 96) : ∃ a b c g e f d k, s.movedTo dt = { s with ptu := { s.ptu with
      dt := dt, atEpoch := a, atDispatch := b, dispatch := c, atStep := g, events := e, firing := f, deferred := d, late := k } } := by
  unfold State.movedTo
  obtain ⟨a, b, c, g, hmove⟩ := s.ptu.moveTime_frame dt
  rw [hmove]
  obtain ⟨e, f, d, k, h⟩ := State.evaluate_frame
    { s with ptu := { s.ptu with dt := dt, atEpoch := a, atDispatch := b, dispatch := c, atStep := g } } _ true
  exact ⟨a, b, c, g, e, f, d, k, h⟩

theorem State.stepTime_eq (s : State) (ns : Word) : s.stepTime ns = s.movedTo (BitVec.ofNat 96 (ns.toNat * 2 ^ 32)) := by
  unfold State.stepTime State.movedTo
  rfl

/-- The state in which a valid strobe is compared. -/
def State.strobed (s : State) : State := { s with ptu := { s.ptu with strobeTick := s.ptu.tick, inputValid := true, everValid := true } }

/-- What a comparison leaves where device time is e ahead of the input: k comparisons in a row were within 10 ns, and v is free. -/
def State.compared (s : State) (ns : Word) (e : Int) (k : Nat) (v : BitVec 64) : State :=
  { s with
    free := s.free + 1
    health := { s.health with
      clockReports := s.health.clockReports + if s.ptu.everLocked && decide (1000000 * 2 ^ 32 < e.natAbs) then 1 else 0 }
    ptu := { s.ptu with
      close := k, everLocked := s.ptu.everLocked || decide (16 ≤ k), dtState := if 16 ≤ k then .locked else s.ptu.dtState
      offset := BitVec.ofInt 32 (dtOffset s.ptu.dt ns), step := slewStep e v } }

theorem State.compareTime_eq {s : State} {ns : Word} {e : Int} (he : (s.ptu.dt.toNat : Int) - (ns.toNat : Int) * 2 ^ 32 = e) :
    ∃ k v, k = (if e.natAbs ≤ 10 * 2 ^ 32 then s.ptu.close + 1 else 0) ∧ s.compareTime ns = s.compared ns e k v := by
  refine ⟨_, Config.freeValue s.free, rfl, ?_⟩
  unfold State.compareTime State.freeNext State.compared
  dsimp only
  rw [he]
  have hclose : (if decide (e.natAbs ≤ 10 * 2 ^ 32) = true then s.ptu.close + 1 else 0)
      = if e.natAbs ≤ 10 * 2 ^ 32 then s.ptu.close + 1 else 0 := if_congr decide_eq_true_iff rfl rfl
  rw [hclose]

theorem exec_dtStrobe_invalid (ns : Word) (s : State) : exec (.dtStrobe ns false) s
    = act true (fun s => { s with ptu := Ptu.inputLost { s.ptu with strobeTick := s.ptu.tick } }) s := rfl

/-- What a valid strobe does before its comparison: the first one steps device time forward, or reports that it is behind. -/
def State.firstStrobe (s : State) (ns : Word) : State :=
  if !(!s.ptu.everValid) then s.strobed
  else if s.ptu.dt.toNat < ns.toNat * 2 ^ 32 then s.strobed.stepTime ns
  else if ns.toNat * 2 ^ 32 < s.ptu.dt.toNat then
    { s.strobed with health := { s.health with clockReports := s.health.clockReports + 1 } }
  else s.strobed

theorem exec_dtStrobe_valid (ns : Word) (s : State) :
    exec (.dtStrobe ns true) s = act true (fun s => (s.firstStrobe ns).compareTime ns) s := rfl

theorem exec_dtInputTimeout (s : State) : exec .dtInputTimeout s
    = act (s.ptu.inputValid && decide (s.ptu.strobeTick + 1200 ≤ s.ptu.tick)) (fun s => { s with ptu := s.ptu.inputLost }) s := rfl

theorem Ptu.inputLost_eq (p : Ptu) : p.inputLost
    = { p with inputValid := false, close := 0, dtState := if p.dtState = .locked then .holdover else p.dtState } := by
  unfold Ptu.inputLost
  simp only [beq_iff_eq]

theorem State.compareTime_frame (s : State) (ns : Word) : ∃ e k v, s.compareTime ns = s.compared ns e k v := by
  obtain ⟨k, v, -, heq⟩ := State.compareTime_eq (s := s) (ns := ns) rfl
  exact ⟨_, k, v, heq⟩

/-- A comparison leaves device time itself, the tick and the sources. -/
theorem State.compareTime_keeps (s : State) (ns : Word) : (s.compareTime ns).ptu.dt = s.ptu.dt
    ∧ (s.compareTime ns).ptu.everValid = s.ptu.everValid ∧ (s.compareTime ns).ptu.tick = s.ptu.tick
    ∧ (s.compareTime ns).ptu.sources = s.ptu.sources := by
  obtain ⟨e, k, v, heq⟩ := s.compareTime_frame ns
  rw [heq]
  exact ⟨rfl, rfl, rfl, rfl⟩

theorem State.compareTime_clockReports {s : State} (h : s.ptu.everLocked = false) (ns : Word) :
    (s.compareTime ns).health.clockReports = s.health.clockReports := by
  obtain ⟨e, k, v, heq⟩ := s.compareTime_frame ns
  rw [heq]
  unfold State.compared
  rw [h]
  simp

theorem State.movedTo_keeps (s : State) (dt : BitVec 96) : (s.movedTo dt).ptu.dt = dt ∧ (s.movedTo dt).ptu.everValid = s.ptu.everValid
    ∧ (s.movedTo dt).ptu.tick = s.ptu.tick ∧ (s.movedTo dt).ptu.sources = s.ptu.sources := by
  obtain ⟨a, b, c, g, e, f, d, j, hframe⟩ := s.movedTo_frame dt
  rw [hframe]
  exact ⟨rfl, rfl, rfl, rfl⟩

theorem State.firstStrobe_ahead {s : State} {ns : Word} (hfirst : s.ptu.everValid = false)
    (hbehind : s.ptu.dt.toNat < ns.toNat * 2 ^ 32) :
    s.firstStrobe ns = s.strobed.movedTo (BitVec.ofNat 96 (ns.toNat * 2 ^ 32)) := by
  unfold State.firstStrobe
  rw [hfirst, if_neg (by decide), if_pos hbehind, State.stepTime_eq]

theorem State.firstStrobe_behind {s : State} {ns : Word} (hfirst : s.ptu.everValid = false)
    (hahead : ns.toNat * 2 ^ 32 < s.ptu.dt.toNat) : s.firstStrobe ns
      = { s.strobed with health := { s.health with clockReports := s.health.clockReports + 1 } } := by
  unfold State.firstStrobe
  rw [hfirst, if_neg (by decide), if_neg (Nat.lt_asymm hahead), if_pos hahead]

/-- Settles O39; how far the step goes within its bound is free (log entry 10), and the reports are counted (log entry 90). -/
theorem deviceTimeFollows : Obligations.DeviceTimeFollows := by
  refine ⟨fun s ns hs => ?invalid, fun s ns hs hvalid => ?follows, fun s ns hl hfirst hbehind => ?stepped,
    fun s ns hl hfirst hlock hahead => ?reported, fun s hs hvalid hsilent => ?silent⟩
  case invalid =>
    refine exec_act_to (exec_dtStrobe_invalid ns s) hs.1 rfl ?_ hs.2 rfl
    rw [Ptu.inputLost_eq]
  case follows =>
    have hstrobed : s.firstStrobe ns = s.strobed := if_pos (by rw [hvalid]; rfl)
    obtain ⟨e, he⟩ : ∃ e : Int, (s.ptu.dt.toNat : Int) - (ns.toNat : Int) * 2 ^ 32 = e := ⟨_, rfl⟩
    obtain ⟨k, v, hk, heq⟩ := State.compareTime_eq (s := s.strobed) he
    rw [← hstrobed] at heq
    refine reaches_act_to (exec_dtStrobe_valid ns s) hs.1 rfl heq ?_ ?_ ?_
    all_goals rw [hstrobed]
    · exact hs.2
    · rfl
    · dsimp only
      rw [he]
      refine ⟨?_, ?_, rfl, hk, rfl, rfl, fun h => slewStep_of_behind h v, fun h => slewStep_of_ahead h v, fun h => slewStep_of_equal h v⟩
      · unfold State.compared State.strobed
        rw [hvalid]
      · unfold State.compared
        simp [State.strobed]
  case stepped =>
    refine reaches_act (exec_dtStrobe_valid ns s) hl rfl ?_
    rw [State.settle_ptu, State.firstStrobe_ahead hfirst hbehind]
    obtain ⟨hdt, hvalid, htick, hsources⟩ := State.compareTime_keeps (s.strobed.movedTo (BitVec.ofNat 96 (ns.toNat * 2 ^ 32))) ns
    obtain ⟨hdt', hvalid', htick', hsources'⟩ := s.strobed.movedTo_keeps (BitVec.ofNat 96 (ns.toNat * 2 ^ 32))
    exact ⟨hdt.trans hdt', hvalid.trans hvalid', htick.trans htick', hsources.trans hsources'⟩
  case reported =>
    refine reaches_act (exec_dtStrobe_valid ns s) hl rfl ?_
    rw [State.settle_ptu, State.settle_health, State.firstStrobe_behind hfirst hahead]
    obtain ⟨hdt, hvalid, -, -⟩ := State.compareTime_keeps
      { s.strobed with health := { s.health with clockReports := s.health.clockReports + 1 } } ns
    exact ⟨hdt, hvalid, State.compareTime_clockReports
      (s := { s.strobed with health := { s.health with clockReports := s.health.clockReports + 1 } }) hlock ns⟩
  case silent =>
    refine exec_act_to (exec_dtInputTimeout s) hs.1 (by simp [hvalid, hsilent]) ?_ hs.2 rfl
    rw [Ptu.inputLost_eq]

end Sys2Proof.Machine
end

