-- ==== Sys2Proof/Proofs/PhaseSources.lean ====
section
/-! PROOFS. Samples of a phase source, its silence and its coasting (R21 to R26, R30, R34). -/

namespace Sys2Proof.Machine

/-! A change of a source's state. -/

theorem State.realignStream_sources (s : State) (cs : Nat) : (s.realignStream cs).ptu.sources = s.ptu.sources := rfl

theorem State.resumeStreams_sources (s : State) (n : Nat) : (s.resumeStreams n).ptu.sources = s.ptu.sources := by
  unfold State.resumeStreams
  refine foldl_keeps (fun t : State => t.ptu.sources) _ (fun s cs => ?_) _ s
  dsimp only
  split
  · split
    · split
      · exact State.realignStream_sources _ cs
      · rfl
    · rfl
  · rfl

theorem State.setSource_sources {s : State} {n : Nat} {st : SrcState} (h : (s.source n).state ≠ st) : ∃ f g al l,
    f (s.source n) = { s.source n with state := st, enteredTick := s.ptu.tick, good := g, alpha := al, leftAt := l }
      ∧ (s.setSource n st).ptu.sources = (s.onSource n f).ptu.sources := by
  unfold State.setSource
  dsimp only
  rw [if_neg (by simpa using h)]
  split
  · rw [State.resumeStreams_sources]
    split <;> exact ⟨_, _, _, _, rfl, rfl⟩
  · split <;> exact ⟨_, _, _, _, rfl, rfl⟩

/-- A change of state keeps the other sources and, of its own, all but the state and what goes with it. -/
theorem State.setSource_source (s : State) (n : Nat) (st : SrcState) : (∀ m, m ≠ n → (s.setSource n st).source m = s.source m)
    ∧ ∃ e g al l, (s.setSource n st).source n
      = { s.source n with state := st, enteredTick := e, good := g, alpha := al, leftAt := l } := by
  by_cases h : (s.source n).state = st
  · have hsame : s.setSource n st = s := if_pos (by simpa using h)
    rw [hsame]
    exact ⟨fun _ _ => rfl, _, _, _, _, by rw [← h]⟩
  · obtain ⟨f, g, al, l, hf, hsources⟩ := State.setSource_sources h
    have hsource : ∀ m, (s.setSource n st).source m = (s.onSource n f).source m :=
      fun m => by unfold State.source; rw [hsources]
    refine ⟨fun m hm => (hsource m).trans (State.source_of_onSource_other _ _ hm), s.ptu.tick, g, al, l, ?_⟩
    rw [hsource, State.source_of_onSource, hf]

theorem exec_phaseSample_bad (n : Src) (w : Word) (s : State) : exec (.phaseSample n w false) s
    = act (!((s.source n.val).state == .off)) (fun s => s.reportSource n.val 4 [0]) s := rfl

/-- What an accepted sample leaves, its index recorded. -/
def State.sampled (s : State) (n : Nat) (w : Word) : State :=
  let t := s.takeSample n (Bits.get w.toNat 0 32) (latchTicks (Bits.get w.toNat 32 16))
  if (t.source n).samples == (s.source n).samples then t else t.onSource n fun c => { c with index := Bits.bit w.toNat 48 }

/-- A sample within 1 µs of the last accepted one. -/
def State.tooSoon (s : State) (n : Nat) : Bool :=
  match (s.source n).lastAccepted with
  | some t => decide (s.ptu.tick ≤ t + 400)
  | none => false

theorem exec_phaseSample_good (n : Src) (w : Word) (s : State) : exec (.phaseSample n w true) s
    = act (!((s.source n.val).state == .off)) (fun s =>
      if !true || !Bits.bit w.toNat 49 then s.reportSource n.val 4 [0]
      else if s.tooSoon n.val then s.reportSource n.val 4 [1] else s.sampled n.val w) s := rfl

theorem exec_phaseSample {w : Word} (hw : Bits.bit w.toNat 49 = true) (n : Src) (s : State) : exec (.phaseSample n w true) s
    = act (!((s.source n.val).state == .off))
      (fun s => if s.tooSoon n.val then s.reportSource n.val 4 [1] else s.sampled n.val w) s := by
  rw [exec_phaseSample_good, hw]
  rfl

theorem exec_sourceTimeout (n : Src) (s : State) : exec (.sourceTimeout n) s = act (s.sourceSilent n.val) (fun s =>
    match (s.source n.val).state with
    | .tracking | .degraded => s.setSource n.val .coasting
    | .acquiring | .stopped => s.setSource n.val .lost
    | _ => s) s := rfl

theorem exec_coastLimitExpiry (n : Src) (s : State) : exec (.coastLimitExpiry n) s
    = act ((s.source n.val).state == .coasting
      && decide ((s.source n.val).enteredTick + cfgCoastUs (s.source n.val).cfg * 400 < s.ptu.tick)) (fun s => s.setSource n.val .lost) s := rfl

/-- A sample that was accepted leaves the other sources, and of its own what `takeSample` gives beside its index. -/
theorem State.sampled_source {s t : State} {n : Nat} {w : Word} (ht : s.takeSample n (Bits.get w.toNat 0 32) (latchTicks (Bits.get w.toNat 32 16)) = t)
    (hcount : (t.source n).samples = (s.source n).samples + 1) :
    (s.sampled n w).source n = { t.source n with index := Bits.bit w.toNat 48 }
      ∧ ∀ m, m ≠ n → (s.sampled n w).source m = t.source m := by
  have hne : ((t.source n).samples == (s.source n).samples) = false := by
    rw [hcount, beq_eq_false_iff_ne]
    bv_omega
  have hsampled : s.sampled n w = t.onSource n fun c => { c with index := Bits.bit w.toNat 48 } := by
    unfold State.sampled
    dsimp only
    rw [ht, hne]
    rfl
  rw [hsampled]
  exact ⟨State.source_of_onSource _ n _, fun m hm => State.source_of_onSource_other _ _ hm⟩

/-! What each kind of sample leaves. -/

/-- The first sample of an ACQUIRING source sets its phase. -/
theorem State.takeSample_first {s : State} {n : Nat} (hstate : (s.source n).state = .acquiring) (hnone : (s.source n).acquired = 0)
    (pos d : Nat) : s.takeSample n pos d = s.onSource n fun c => ({ c with
      theta := BitVec.ofNat 96 (pos * 2 ^ 32), omega := 0, alpha := 0, acquired := 1
      firstTick := (s.ptu.tick : Int) - d, firstPos := pos } : Source).accepted s.ptu.tick pos := by
  unfold State.takeSample State.firstSample
  dsimp only
  rw [hstate, hnone]
  rfl

/-- The second sets its speed. -/
theorem State.takeSample_second {s : State} {n : Nat} (hstate : (s.source n).state = .acquiring) (hone : (s.source n).acquired = 1)
    {pos d : Nat} (hspan : 400 ≤ (s.ptu.tick : Int) - d - (s.source n).firstTick) : ∃ th, s.takeSample n pos d = s.onSource n fun c =>
      ({ c with
        omega := BitVec.ofInt 64 (wrapInt (((s.source n).fix pos d).m - (s.source n).firstPos) 64 * 2 ^ 32
          / ((s.ptu.tick : Int) - d - (s.source n).firstTick))
        alpha := 0, acquired := 2, theta := th } : Source).accepted s.ptu.tick ((s.source n).fix pos d).m := by
  unfold State.takeSample State.secondSample
  dsimp only
  rw [hstate, hone, if_neg (by decide), if_pos (by decide), if_neg (by omega)]
  exact ⟨_, rfl⟩

/-- An outlier that no other confirms leaves the phase and the speed. -/
theorem State.takeSample_outlier {s : State} {n : Nat} (hstate : (s.source n).state ≠ .lost) (htwo : (s.source n).acquired = 2)
    {pos d : Nat} (hrun : (s.source n).outRun = 0) (hconfirm : 2 ≤ (s.source n).jumpConfirm)
    (hout : (s.source n).jumpThreshold * 2 ^ 56 < ((s.source n).fix pos d).e.natAbs) : ∃ t p, s.takeSample n pos d = s.onSource n fun c =>
      { c with samples := c.samples + 1, good := 0, outRun := 1, outTick := t, outPos := p } := by
  have hlost : ((s.source n).state == .lost) = false := by simpa using hstate
  unfold State.takeSample State.outlier
  dsimp only
  rw [hlost, htwo, if_neg (by decide), if_neg (by decide), if_pos hout, hrun, 
    if_neg (by simp only [Nat.lt_irrefl, decide_false, Bool.false_and, Bool.false_eq_true, if_false]; omega)]
  exact ⟨_, _, rfl⟩

/-- A filtered sample is corrected, accepted, and may move its source to another state. -/
theorem State.takeSample_filtered {s : State} {n : Nat} (hstate : (s.source n).state ≠ .lost) (htwo : (s.source n).acquired = 2)
    {pos d : Nat} (hin : ((s.source n).fix pos d).e.natAbs ≤ (s.source n).jumpThreshold * 2 ^ 56) :
    s.takeSample n pos d = s.filterSample n ((s.source n).fix pos d) := by
  have hlost : ((s.source n).state == .lost) = false := by simpa using hstate
  unfold State.takeSample
  dsimp only
  rw [hlost, htwo, if_neg (by decide), if_neg (by decide), if_neg (Nat.not_lt.mpr hin)]

theorem Source.accepted_keeps (c : Source) (tick : Nat) (m : Int) (r : Option Nat) : (c.accepted tick m r).theta = c.theta
    ∧ (c.accepted tick m r).omega = c.omega ∧ (c.accepted tick m r).acquired = c.acquired
    ∧ (c.accepted tick m r).samples = c.samples + 1 ∧ (c.accepted tick m r).lastAccepted = some tick :=
  ⟨rfl, rfl, rfl, rfl, rfl⟩

theorem State.filterSample_source (s : State) (n : Nat) (f : Fix) :
    (∀ m, m ≠ n → (s.filterSample n f).source m = s.source m)
      ∧ ((s.filterSample n f).source n).theta = ((s.source n).correct f).theta
      ∧ ((s.filterSample n f).source n).omega = ((s.source n).correct f).omega
      ∧ ((s.filterSample n f).source n).samples = (s.source n).samples + 1
      ∧ ((s.filterSample n f).source n).lastAccepted = some s.ptu.tick := by
  obtain ⟨htheta, homega, -, hsamples, hlast⟩ := ((s.source n).correct f).accepted_keeps s.ptu.tick f.m (some f.e.natAbs)
  have hcorrect : ((s.source n).correct f).samples = (s.source n).samples := rfl
  rw [← htheta, ← homega, ← hcorrect, ← hsamples, ← hlast]
  unfold State.filterSample
  dsimp only
  generalize ((s.source n).correct f).accepted s.ptu.tick f.m (some f.e.natAbs) = c
  generalize (if decide (c.errNs f.e.natAbs ≤ 15) && !c.slower (cfgVmin c.cfg) && !c.faster (cfgVmax c.cfg) then c.good + 1 else 0) = good
  obtain ⟨hother, e, g, al, l, hself⟩ := (s.onSource n fun _ => { c with good := good }).setSource_source n (c.after (c.errNs f.e.natAbs) good)
  rw [hself, State.source_of_onSource]
  exact ⟨fun m hm => (hother m hm).trans (State.source_of_onSource_other _ _ hm), rfl, rfl, rfl, rfl⟩

/-! The commands. -/

theorem State.tooSoon_false {s : State} {n : Nat} (h : ∀ k, (s.source n).lastAccepted = some k → k + 400 < s.ptu.tick) :
    s.tooSoon n = false := by
  unfold State.tooSoon
  split
  · next k hk => exact decide_eq_false (Nat.not_le.mpr (h k hk))
  · rfl

/-- A good word that does not come too soon ends in what its sample leaves. -/
theorem reaches_sample {s : State} {n : Src} {w : Word} {P : State → Prop} (hl : s.live = true) (hw : Bits.bit w.toNat 49 = true)
    (hoff : (s.source n.val).state ≠ .off) (hsoon : ∀ k, (s.source n.val).lastAccepted = some k → k + 400 < s.ptu.tick)
    (h : P (s.settle (s.sampled n.val w))) : Reaches (.phaseSample n w true) s P := by
  refine reaches_act (exec_phaseSample hw n s) hl (by simpa using hoff) ?_
  rw [State.tooSoon_false hsoon]
  exact h

/-- Settles O38. -/
theorem phaseSources : Obligations.PhaseSources := by
  refine ⟨?bad, ?soon, ?first, ?second, ?outlier, ?filtered, ?silent, ?coast⟩
  case bad =>
    intro s n w hs hoff
    exact reaches_act_synced (exec_phaseSample_bad n w s) hs.1 (by simpa using hoff) (State.report_synced hs.2 _) rfl rfl
  case soon =>
    intro s n w k hs hoff hw hk hsoon
    have htoo : s.tooSoon n.val = true := by
      unfold State.tooSoon
      rw [hk]
      exact decide_eq_true hsoon
    refine reaches_act_to (exec_phaseSample hw n s) hs.1 (by simpa using hoff) (t := s.reportSource n.val 4 [1]) ?_
      (State.report_synced hs.2 _) rfl rfl
    rw [htoo]
    rfl
  case first =>
    intro s n w hl hw hnone hstate hzero
    refine reaches_sample hl hw (by simp [hstate]) (by simp [hnone]) ?_
    obtain ⟨hself, hother⟩ := State.sampled_source (w := w) (State.takeSample_first hstate hzero _ _) (by rw [State.source_of_onSource]; rfl)
    rw [State.settle_source, hself, State.source_of_onSource]
    exact ⟨rfl, rfl, rfl, rfl, fun m hm => (State.settle_source _ _ m).trans ((hother m hm).trans (State.source_of_onSource_other _ _ hm))⟩
  case second =>
    intro s n w hl hw hsoon hone hstate c d span way hspan
    refine reaches_sample hl hw (by simp [hstate]) hsoon ?_
    obtain ⟨th, heq⟩ := State.takeSample_second hstate hone hspan
    obtain ⟨hself, hother⟩ := State.sampled_source (w := w) heq (by rw [State.source_of_onSource]; rfl)
    rw [State.settle_source, hself, State.source_of_onSource]
    exact ⟨rfl, rfl, rfl, fun m hm => (State.settle_source _ _ m).trans ((hother m hm).trans (State.source_of_onSource_other _ _ hm))⟩
  case outlier =>
    intro s n w hl hw hsoon htwo hoff hlost hrun hconfirm c hout
    refine reaches_sample hl hw hoff hsoon ?_
    obtain ⟨t, p, heq⟩ := State.takeSample_outlier hlost htwo hrun hconfirm hout
    obtain ⟨hself, hother⟩ := State.sampled_source (w := w) heq (by rw [State.source_of_onSource])
    rw [State.settle_source, hself, State.source_of_onSource]
    exact ⟨rfl, rfl, rfl, rfl, rfl, fun m hm => (State.settle_source _ _ m).trans ((hother m hm).trans (State.source_of_onSource_other _ _ hm))⟩
  case filtered =>
    intro s n w hl hw hsoon htwo hoff hlost c f hin
    refine reaches_sample hl hw hoff hsoon ?_
    obtain ⟨hkeep, htheta, homega, hsamples, hlast⟩ := s.filterSample_source n.val f
    obtain ⟨hself, hother⟩ := State.sampled_source (w := w) (State.takeSample_filtered hlost htwo hin) hsamples
    rw [State.settle_source, hself]
    exact ⟨htheta, homega, hsamples, hlast, fun m hm => (State.settle_source _ _ m).trans ((hother m hm).trans (hkeep m hm))⟩
  case silent =>
    intro s n hl hsilent
    have hto : ∀ st, ((s.settle (s.setSource n.val st)).source n.val).state = st
        ∧ ((s.settle (s.setSource n.val st)).source n.val).theta = (s.source n.val).theta
        ∧ ∀ m, m ≠ n.val → (s.settle (s.setSource n.val st)).source m = s.source m := by
      intro st
      obtain ⟨hother, e, g, al, l, hself⟩ := s.setSource_source n.val st
      rw [State.settle_source, hself]
      exact ⟨rfl, rfl, fun m hm => (State.settle_source _ _ m).trans (hother m hm)⟩
    refine reaches_act (exec_sourceTimeout n s) hl hsilent ?_
    have hsame : (s.settle s).source = s.source := funext fun m => State.settle_source s s m
    obtain ⟨hcoast, hcoastTheta, hcoastOther⟩ := hto .coasting
    obtain ⟨hlost, hlostTheta, hlostOther⟩ := hto .lost
    cases hst : (s.source n.val).state with
    | tracking => exact ⟨fun _ => hcoast, nofun, hcoastTheta, hcoastOther⟩
    | degraded => exact ⟨fun _ => hcoast, nofun, hcoastTheta, hcoastOther⟩
    | acquiring => exact ⟨nofun, fun _ => hlost, hlostTheta, hlostOther⟩
    | stopped => exact ⟨nofun, fun _ => hlost, hlostTheta, hlostOther⟩
    | _ => rw [hsame]; exact ⟨nofun, nofun, rfl, fun _ _ => rfl⟩
  case coast =>
    intro s n hl hstate hlimit
    obtain ⟨hother, e, g, al, l, hself⟩ := s.setSource_source n.val .lost
    refine reaches_act (exec_coastLimitExpiry n s) hl (by simp [hstate, hlimit]) ?_
    rw [State.settle_source, hself]
    exact ⟨rfl, rfl, fun m hm => (State.settle_source _ _ m).trans (hother m hm)⟩

end Sys2Proof.Machine
end

