-- ==== Sys2Proof/Proofs/Tick.lean ====
section
/-! PROOFS. What messages on the link and the cuts of a tick leave as it was (R222, R428), and the tick (R18, R25, R38, R158). -/

namespace Sys2Proof.Machine

/-! Messages on the link. -/

/-- What waits on the link is sent as far as its credits reach: the account of the transmitter and the output change. -/
theorem State.pumpLink_frame (n : Nat) (s : State) : ∃ q t r ow w c b o, State.pumpLink n s = { s with
    fm := { s.fm with txSeq := q, sentAt := t, replay := r, owed := ow, waiting := w, credits := c, sinceBulk := b }, out := o } := by
  induction n generalizing s with
  | zero => exact ⟨s.fm.txSeq, s.fm.sentAt, s.fm.replay, s.fm.owed, s.fm.waiting, s.fm.credits, s.fm.sinceBulk, s.out, rfl⟩
  | succ n ih =>
    have hsame : ∃ q t r ow w c b o, s = { s with
        fm := { s.fm with txSeq := q, sentAt := t, replay := r, owed := ow, waiting := w, credits := c, sinceBulk := b }, out := o } :=
      ⟨s.fm.txSeq, s.fm.sentAt, s.fm.replay, s.fm.owed, s.fm.waiting, s.fm.credits, s.fm.sinceBulk, s.out, rfl⟩
    rw [State.pumpLink]
    dsimp only
    split
    · exact hsame
    · split
      · exact hsame
      · next x _ =>
        obtain ⟨q, t, r, ow, w, c, b, o, h⟩ := ih (State.sendFlit { s with fm := { s.fm with
          waiting := s.fm.waiting.erase x
          credits := Tab.set 64 s.fm.credits x.chan (s.fm.credit x.chan - 1)
          sinceBulk := if x.chan = 2 then 0 else s.fm.sinceBulk + 1 } } 0x01 x.chan x.frag x.payload)
        exact ⟨q, t, r, ow, w, c, b, o, h⟩

/-- A message counts, and goes out as far as the credits reach. -/
theorem State.sendMessage_frame (s : State) (type chan : Nat) (body : Bytes) : ∃ k q t r ow w c b o, s.sendMessage type chan body = { s with
    fm := { s.fm with txCounter := k, txSeq := q, sentAt := t, replay := r, owed := ow, waiting := w, credits := c, sinceBulk := b }
    out := o } := by
  unfold State.sendMessage
  split
  · exact ⟨s.fm.txCounter, s.fm.txSeq, s.fm.sentAt, s.fm.replay, s.fm.owed, s.fm.waiting, s.fm.credits, s.fm.sinceBulk, s.out, rfl⟩
  · dsimp only
    obtain ⟨q, t, r, ow, w, c, b, o, h⟩ := State.pumpLink_frame (s.fm.waiting.length + (fragments chan _).length)
      { s with fm := { s.fm with txCounter := s.fm.txCounter + 1, waiting := s.fm.waiting ++ fragments chan _ } }
    exact ⟨s.fm.txCounter + 1, q, t, r, ow, w, c, b, o, h⟩

theorem State.sendCut_frame (s : State) (sc no high : Nat) : ∃ fm o, s.sendCut sc no high = { s with fm := fm, out := o } := by
  unfold State.sendCut
  split
  · obtain ⟨k, q, t, r, ow, w, c, b, o, h⟩ := s.sendMessage_frame 0x000A chanCtrl
      (Bytes.ofNat 2 sc ++ Bytes.ofNat 8 no ++ Bytes.ofNat 8 high)
    exact ⟨_, o, h⟩
  · exact ⟨s.fm, s.out, rfl⟩

/-- A cut changes the account of cuts, its session, and tells the partner. -/
theorem State.takeCut_frame (s : State) (sc : Nat) (k : CutKind) (nonce : BitVec 256) (waiter : Option Nat) :
    ∃ cuts sess wait fm o, s.takeCut sc k nonce waiter = { s with cuts := cuts, sess := sess, cutWait := wait, fm := fm, out := o } := by
  unfold State.takeCut
  split
  · obtain ⟨fm, o, h⟩ := State.sendCut_frame (State.onSess { s with cuts := s.cuts ++ [s.cutRecord sc k nonce waiter] } sc fun x => x.reopen k s.now)
      sc ((State.session (State.onSess { s with cuts := s.cuts ++ [s.cutRecord sc k nonce waiter] } sc fun x => x.reopen k s.now) sc).ckptNo + 1)
      (s.cutRecord sc k nonce waiter).rseqHigh.toNat
    exact ⟨_, _, s.cutWait, fm, o, h⟩
  · split <;> exact ⟨s.cuts, s.sess, _, s.fm, s.out, rfl⟩

theorem State.takeDueCuts_frame (s : State) (sel : Nat → Bool) : ∃ due cuts sess wait fm o, s.takeDueCuts sel
    = { s with cutDue := due, cuts := cuts, sess := sess, cutWait := wait, fm := fm, out := o } := by
  unfold State.takeDueCuts
  generalize (s.cutDue.filter fun c => sel c.1) = l
  generalize (s.cutDue.filter fun c => !sel c.1) = due
  have hfold : ∀ s : State, ∃ cuts sess wait fm o, l.foldl (fun s c => s.takeCut c.1 c.2.1 c.2.2.1 c.2.2.2) s
      = { s with cuts := cuts, sess := sess, cutWait := wait, fm := fm, out := o } := by
    induction l with
    | nil => exact fun s => ⟨s.cuts, s.sess, s.cutWait, s.fm, s.out, rfl⟩
    | cons x l ih =>
      intro s
      obtain ⟨cuts, sess, wait, fm, o, h⟩ := s.takeCut_frame x.1 x.2.1 x.2.2.1 x.2.2.2
      obtain ⟨cuts', sess', wait', fm', o', h'⟩ := ih (s.takeCut x.1 x.2.1 x.2.2.1 x.2.2.2)
      exact ⟨cuts', sess', wait', fm', o', h'.trans (by rw [h])⟩
  obtain ⟨cuts, sess, wait, fm, o, h⟩ := hfold { s with cutDue := due }
  exact ⟨due, cuts, sess, wait, fm, o, h⟩

/-! The tick. -/

/-- The state once the cuts and the claims of the tick that ends are taken. -/
def State.tickEnd (s : State) : State := (s.takeDueCuts fun _ => true).takeClaims

theorem State.tickEnd_frame (s : State) : s.tickEnd.ptu = s.ptu ∧ s.tickEnd.streams = s.streams := by
  obtain ⟨due, cuts, sess, wait, fm, o, h⟩ := s.takeDueCuts_frame fun _ => true
  unfold State.tickEnd
  rw [h]
  exact ⟨rfl, rfl⟩

theorem State.tickEnd_idle {s : State} (hcuts : s.cutDue = []) (hclaims : s.rb.claims = []) : s.tickEnd = s := by
  have hrest : s.takeDueCuts (fun _ => true) = s := by
    unfold State.takeDueCuts
    simp only [hcuts, List.filter_nil, List.foldl_nil]
    rw [← hcuts]
  unfold State.tickEnd State.takeClaims
  rw [hrest, hclaims, List.map_nil, ← hclaims]

/-- The unit's registers as the tick begins: the tick and the sources advanced, and what was put off to fire first. -/
def Ptu.advance (p : Ptu) : Ptu :=
  { p with tick := p.tick + 1, sources := Tab.mapVals {} p.sources fun _ c => c.advance, fired := 0, dispatch := false
           firing := p.deferred, deferred := [] }

theorem Ptu.cap_frame (p : Ptu) : ∃ e f d k, p.cap = { p with events := e, firing := f, deferred := d, late := k } := ⟨_, _, _, _, rfl⟩

/-- At most 64 firings of a tick are taken, fired ones included (R46). -/
theorem State.length_firing_evaluate (s : State) (sel : Nat → Bool) (late : Bool) :
    (s.evaluate sel late).ptu.firing.length ≤ 64 - s.ptu.fired :=
  List.length_take_le _ _

/-- The tick advances the unit's registers and moves the time of the state that its cuts and claims left. -/
theorem State.tick_eq (s : State) : ∃ firing, s.tick = State.evaluate { s.tickEnd with
    streams := Tab.mapVals {} s.tickEnd.streams fun _ (st : Stream) =>
      { st with slots := st.slots.map fun (x : SlotRun) => x.passInstant s.tickEnd.ptu.tick }
    ptu := Ptu.cap { s.tickEnd.ptu.advance.moveTime (s.tickEnd.ptu.dt + s.tickEnd.ptu.step.setWidth 96) with firing := firing } }
      (fun _ => true) :=
  ⟨_, rfl⟩

theorem State.tick_frame (s : State) : ∃ p, s.tick = { s.tickEnd with
      streams := Tab.mapVals {} s.streams fun _ (st : Stream) => { st with slots := st.slots.map fun (x : SlotRun) => x.passInstant s.ptu.tick }
      ptu := p }
    ∧ p.tick = s.ptu.tick + 1 ∧ p.dt = s.ptu.dt + s.ptu.step.setWidth 96
    ∧ p.sources = Tab.mapVals {} s.ptu.sources (fun _ c => c.advance) ∧ p.fired = 0 ∧ p.firing.length ≤ 64
    ∧ p.atEpoch = (s.ptu.atEpoch || passes s.ptu.dt p.dt 4096) ∧ p.atDispatch = (s.ptu.atDispatch || passes s.ptu.dt p.dt 1000)
    ∧ p.atStep = (s.ptu.atStep || passes s.ptu.dt p.dt 1000000) := by
  obtain ⟨firing, h⟩ := s.tick_eq
  obtain ⟨hptu, hstreams⟩ := s.tickEnd_frame
  rw [hptu, hstreams] at h
  generalize s.tickEnd = u at *
  generalize s.ptu.dt + s.ptu.step.setWidth 96 = dt at *
  obtain ⟨e, f, d, k, hcap⟩ := Ptu.cap_frame { s.ptu.advance.moveTime dt with firing := firing }
  rw [hcap] at h
  have hlen := State.length_firing_evaluate { u with
    streams := Tab.mapVals {} s.streams fun _ (st : Stream) => { st with slots := st.slots.map fun (x : SlotRun) => x.passInstant s.ptu.tick }
    ptu := { s.ptu.advance.moveTime dt with events := e, firing := f, deferred := d, late := k } } (fun _ => true) false
  obtain ⟨e', f', d', k', heval⟩ := State.evaluate_frame { u with
    streams := Tab.mapVals {} s.streams fun _ (st : Stream) => { st with slots := st.slots.map fun (x : SlotRun) => x.passInstant s.ptu.tick }
    ptu := { s.ptu.advance.moveTime dt with events := e, firing := f, deferred := d, late := k } } (fun _ => true) false
  rw [heval] at h hlen
  exact ⟨_, h, rfl, rfl, rfl, rfl, hlen, rfl, rfl, rfl⟩

theorem exec_ptuTick (s : State) : exec .ptuTick s = act s.tickDone State.tick s := rfl

/-- A tick begins with no boundary left from the one before. -/
theorem State.boundaries_of_tickDone {s : State} (h : s.tickDone = true) :
    s.ptu.atEpoch = false ∧ s.ptu.atDispatch = false ∧ s.ptu.atStep = false := by
  simp only [State.tickDone, Ptu.settled, Bool.and_eq_true, Bool.not_eq_true'] at h
  exact ⟨h.1.1.1.2, h.1.1.2, h.1.2⟩

/-- Settles O36. -/
theorem tickAdvances : Obligations.TickAdvances := by
  intro s hl hdone
  obtain ⟨hepoch, hdispatch, hstep⟩ := State.boundaries_of_tickDone hdone
  obtain ⟨p, h, htick, hdt, hsources, hfired, hlen, hatEpoch, hatDispatch, hatStep⟩ := s.tick_frame
  rw [hepoch, Bool.false_or] at hatEpoch
  rw [hdispatch, Bool.false_or] at hatDispatch
  rw [hstep, Bool.false_or] at hatStep
  have hptu : (s.settle s.tick).ptu = p := (State.settle_ptu s s.tick).trans (by rw [h])
  refine reaches_act (exec_ptuTick s) hl hdone ?_
  rw [hptu]
  refine ⟨htick, hdt, fun n => ?_, hatEpoch, hatDispatch, hatStep, hfired, hlen, fun cs => ?_, fun hs hcuts hclaims => ?_⟩
  · rw [State.settle_source, h]
    show Tab.get {} p.sources n = _
    rw [hsources, Tab.get_mapVals _ _ _ rfl]
    rfl
  · rw [State.settle_stream, h]
    exact Tab.get_mapVals _ _ _ rfl
  · rw [State.tickEnd_idle hcuts hclaims] at h
    rw [h, State.settle_of_synced s (show State.Synced { s with streams := _, ptu := p } from hs)]

end Sys2Proof.Machine
end

