-- ==== Sys2Proof/Proofs/Epochs.lean ====
section
/-! PROOFS. The epoch boundary and the dispatch tick (R234, R236, R241). -/

namespace Sys2Proof.Machine

/-! The end of a session leaves the windows, the time and whatever stands beside its work. -/

/-- What stands beside the end of sessions: the windows, the registers of the phase time unit but the event table. -/
def State.frontier (s : State) : Tab Window × Ptu := (s.win, { s.ptu with events := [] })

theorem State.frontier_of_beside {s t : State} (h : t.beside = s.beside) : t.frontier = s.frontier :=
  congrArg (fun b : Beside => (b.rest.win, b.rest.ptu)) h

theorem State.frontier_onSess (s : State) (sc : Nat) (f : Session → Session) : (s.onSess sc f).frontier = s.frontier := rfl
theorem State.frontier_dropWork (s : State) (f : Prog → Bool) (g : Check → Bool) : (s.dropWork f g).frontier = s.frontier :=
  State.frontier_of_beside (s.beside_dropWork f g)
theorem State.frontier_giveBack (s : State) (sc : Nat) : (s.giveBack sc).frontier = s.frontier :=
  State.frontier_of_beside (s.beside_giveBack sc)
theorem State.frontier_endStreams (l : List Nat) (s : State) : (l.foldl (fun s cs => s.endStream cs) s).frontier = s.frontier :=
  State.frontier_of_beside (State.beside_endStreams l s)
theorem State.frontier_endJobs (l : List Nat) (status : Nat) (s : State) :
    (l.foldl (fun s j => s.endJob j status) s).frontier = s.frontier :=
  State.frontier_of_beside (State.beside_endJobs l status s)
theorem State.frontier_dropPlant (s : State) (sc : Nat) : (s.dropPlant sc).frontier = s.frontier :=
  State.frontier_of_beside (s.beside_dropPlant sc)
theorem State.frontier_emptyKreg (s : State) : s.emptyKreg.frontier = s.frontier := State.frontier_of_beside s.beside_emptyKreg
theorem State.frontier_cut (s : State) (sc : Nat) (k : CutKind) : (s.cut sc k).frontier = s.frontier :=
  State.frontier_of_beside (s.beside_cut sc k 0 none)
theorem State.frontier_sendCtx (s : State) (sc : Nat) : (s.sendCtx sc).frontier = s.frontier :=
  State.frontier_of_beside (s.beside_sendCtx sc)
theorem State.frontier_dropFinal (s : State) (sc : Nat) : (s.dropFinal sc).frontier = s.frontier := rfl
theorem State.frontier_forgetSession (s : State) (sc : Nat) : (s.forgetSession sc).frontier = s.frontier := rfl

theorem State.frontier_abortJobs (s : State) (f : PkeJob → Bool) : (s.abortJobs f).frontier = s.frontier := by
  unfold State.abortJobs
  exact foldl_keeps State.frontier (fun (s : State) (j : PkeJob) => s.onCtx (regionCtx j.region) fun _ => {}) (fun _ _ => rfl) _ s

theorem State.frontier_abortPke (s : State) (w : Nat) : (s.abortPke w).frontier = s.frontier := by
  unfold State.abortPke
  dsimp only
  split
  · split
    · rw [State.frontier_onSess, State.frontier_dropPlant, State.frontier_abortJobs]
    · exact s.frontier_abortJobs _
  · exact s.frontier_abortJobs _

theorem State.frontier_abortKeyx (s : State) (sc : Nat) : (s.abortKeyx sc).frontier = s.frontier := by
  unfold State.abortKeyx
  refine foldl_keeps State.frontier _ (fun s w => ?_) _ s
  split
  · split
    · exact s.frontier_abortPke w
    · rfl
  · rfl

theorem State.frontier_withSess (s : State) (x : Tab Session) (p : Tab ViPlan) :
    State.frontier { s with sess := x, plans := p } = s.frontier := rfl

theorem State.frontier_withStreams (s : State) (x : Tab Stream) : State.frontier { s with streams := x } = s.frontier := rfl
theorem State.frontier_withKeys (s : State) (k : Keys) : State.frontier { s with keys := k } = s.frontier := rfl
theorem State.frontier_ite {c : Prop} [Decidable c] {x y : State} {f : Tab Window × Ptu} (hx : x.frontier = f) (hy : y.frontier = f) :
    (if c then x else y).frontier = f := by
  split
  · exact hx
  · exact hy

theorem State.frontier_endStandby (s : State) (sc : Nat) : (s.endStandby sc).frontier = s.frontier := by
  unfold State.endStandby
  rw [State.frontier_withSess, State.frontier_forgetSession, State.frontier_giveBack, State.frontier_dropWork, State.frontier_endStreams]

/-- The end of a session leaves the windows and the phase time unit's registers. -/
theorem State.frontier_abortSession (s : State) (sc status : Nat) : (s.abortSession sc status).frontier = s.frontier := by
  unfold State.abortSession
  dsimp only
  split
  · rfl
  · split
    · rw [State.frontier_endStandby, State.frontier_sendCtx, State.frontier_onSess]
    · rw [State.frontier_sendCtx]
      split
      · rw [State.frontier_dropPlant, State.frontier_onSess, State.frontier_giveBack, State.frontier_dropWork, State.frontier_endJobs,
          State.frontier_abortKeyx, State.frontier_endStreams]
      · rw [State.frontier_cut, State.frontier_dropFinal, State.frontier_dropPlant, State.frontier_onSess, State.frontier_giveBack,
          State.frontier_dropWork, State.frontier_endJobs, State.frontier_abortKeyx, State.frontier_endStreams]

/-- The slot of a reply that was written. -/
theorem State.slot_writeReply (s : State) (w : Nat) (tag : BitVec 16) (op : Nat) (r : Reply) :
    ((s.writeReply w tag op r).window w).slot = (s.window w).slot.withReply tag op r := by
  obtain ⟨m, h⟩ := s.writeReply_eq w tag op r
  rw [h]
  exact congrArg Window.slot (s.window_of_onSlotOf w fun c => c.withReply tag op r)

/-! The epoch boundary. -/

/-- The states of the command slots, and whether an epoch boundary has yet to act. -/
def State.slotStates (s : State) : (Nat → SlotState) × Bool := (fun w => (s.window w).slot.state, s.ptu.atEpoch)

theorem State.slotStates_fst (s : State) (w : Nat) : s.slotStates.1 w = (s.window w).slot.state := rfl
theorem State.slotStates_snd (s : State) : s.slotStates.2 = s.ptu.atEpoch := rfl

theorem State.slotStates_of_frontier {s t : State} (h : t.frontier = s.frontier) : t.slotStates = s.slotStates :=
  congrArg (fun f : Tab Window × Ptu => (fun w => (Tab.get ({} : Window) f.1 w).slot.state, f.2.atEpoch)) h

theorem State.slotStates_result (s : State) (w : Nat) (r : Reply) : (s.result w r).slotStates = s.slotStates := by
  refine Prod.ext (funext fun v => ?_) rfl
  show ((s.onSlotOf w _).window v).slot.state = _
  by_cases hv : v = w
  · rw [hv, State.window_of_onSlotOf]
    rfl
  · rw [State.window_of_onSlotOf_other _ hv]
    rfl

theorem State.slotStates_report (s : State) (r : HRec) : (s.report r).slotStates = s.slotStates :=
  Prod.ext (funext fun v => congrArg CmdSlot.state (State.report_window_slot s r v)) rfl

theorem State.frontier_dropRetained (s : State) (w mask : Nat) : (s.dropRetained w mask).frontier = s.frontier := by
  unfold State.dropRetained
  exact foldl_keeps State.frontier _ (fun s x => by split <;> rfl) _ s

theorem State.slotStates_applyDrops (s : State) : s.applyDrops.slotStates = s.slotStates := by
  unfold State.applyDrops
  refine foldl_keeps State.slotStates _ (fun s d => ?_) _ s
  rw [State.slotStates_result, State.slotStates_of_frontier (State.frontier_dropRetained _ _ _)]
  rfl

theorem State.slotStates_expireLeases (s : State) : s.expireLeases.slotStates = s.slotStates := by
  unfold State.expireLeases
  refine (foldl_keeps State.slotStates _ (fun s w => ?_) _ _).trans rfl
  dsimp only
  split
  · rfl
  · rw [State.slotStates_of_frontier (State.frontier_dropRetained _ _ _)]
    refine State.slotStates_of_frontier (foldl_keeps State.frontier _ (fun s sc => ?_) _ s)
    split
    · exact s.frontier_abortSession sc stAborted
    · rfl

theorem State.frontier_freshPorts (s : State) : s.freshPorts.frontier = s.frontier := by
  unfold State.freshPorts
  refine foldl_keeps State.frontier _ (fun s l => ?_) _ s
  refine foldl_keeps State.frontier _ (fun s k => ?_) _ s
  dsimp only
  split <;> split <;> rfl

theorem State.slotStates_arbitrate (s : State) : s.arbitrate.slotStates = s.slotStates := by
  unfold State.arbitrate
  refine foldl_keeps State.slotStates _ (fun s w => ?_) _ s
  split
  · rfl
  · dsimp only
    split
    · exact (State.slotStates_result _ _ _).trans rfl
    · exact (State.slotStates_result _ _ _).trans rfl

theorem State.slotStates_plant (s : State) (sc : Nat) : (s.plant sc).slotStates = s.slotStates := by
  unfold State.plant
  dsimp only
  split
  · rfl
  · split
    · exact State.slotStates_of_frontier (s.frontier_dropPlant sc)
    · split
      · refine (State.slotStates_of_frontier (State.frontier_dropPlant (s.logRefusedUse 0x3F) sc)).trans ?_
        exact s.slotStates_report _
      · refine State.slotStates_of_frontier (State.frontier_ite ((State.frontier_sendCtx _ _).trans ?_) ?_)
        all_goals
          rw [State.frontier_withStreams, State.frontier_onSess]
          refine State.frontier_ite ((State.frontier_emptyKreg _).trans ?_) ?_
          all_goals
            rw [State.frontier_withKeys]
            exact State.frontier_ite (s.frontier_cut sc .rekey) rfl

theorem State.slotStates_plantAll (s : State) : s.plantAll.slotStates = s.slotStates := by
  unfold State.plantAll
  dsimp only
  refine (foldl_keeps State.slotStates _ (fun s i => ?_) _ _).trans (foldl_keeps State.slotStates _ (fun s sc => ?_) _ s)
  · split
    · split
      · exact s.slotStates_plant _
      · rfl
    · rfl
  · split
    · exact s.slotStates_plant _
    · rfl

/-- The epoch boundary acts on the slots by sealing alone. -/
theorem State.slotStates_epochRow (s : State) :
    s.epochRow.slotStates = (fun w => (s.window w).slot.sealNow.state, false) := by
  have hsettle : ∀ (l : List Nat) (u : State), (l.foldl (fun s sc => s.settleKeys sc) u).slotStates = u.slotStates :=
    fun l u => foldl_keeps State.slotStates (fun (s : State) sc => s.settleKeys sc) (fun _ _ => rfl) l u
  unfold State.epochRow
  dsimp only
  rw [State.slotStates_plantAll, hsettle, State.slotStates_arbitrate, State.slotStates_of_frontier (State.frontier_freshPorts _),
    State.slotStates_expireLeases, State.slotStates_applyDrops]
  refine Prod.ext (funext fun w => ?_) rfl
  exact congrArg (fun x : Window => x.slot.state) (Tab.get_mapVals s.win (fun _ (x : Window) => { x with slot := x.slot.sealNow }) w rfl)

theorem exec_epochBoundary (s : State) : exec .epochBoundary s = act s.ptu.atEpoch State.epochRow s := rfl

/-! The dispatch tick: what is done for one window leaves another. -/

/-- Only windows, the Roundabout's account and messages change, and the window w does not. -/
def State.Spares (s t : State) (w : Nat) : Prop := t = { s with win := t.win, rb := t.rb, msgs := t.msgs } ∧ t.window w = s.window w

theorem State.spares_refl (s : State) (w : Nat) : s.Spares s w := ⟨rfl, rfl⟩

theorem State.Spares.trans {s t u : State} {w : Nat} (h : s.Spares t w) (g : t.Spares u w) : s.Spares u w := by
  obtain ⟨ht, hw⟩ := h
  obtain ⟨hu, hw'⟩ := g
  exact ⟨hu.trans (by rw [ht]), hw'.trans hw⟩

theorem State.spares_foldl {w : Nat} (f : State → Nat → State) (l : List Nat) (h : ∀ (s : State), ∀ v ∈ l, s.Spares (f s v) w) (s : State) :
    s.Spares (l.foldl f s) w := by
  induction l generalizing s with
  | nil => exact s.spares_refl w
  | cons v l ih =>
    exact (h s v List.mem_cons_self).trans (ih (fun s x hx => h s x (List.mem_cons_of_mem v hx)) _)

theorem State.spares_onSlotOf (s : State) {v w : Nat} (hw : w ≠ v) (f : CmdSlot → CmdSlot) : s.Spares (s.onSlotOf v f) w :=
  ⟨rfl, State.window_of_onSlotOf_other s hw f⟩

theorem State.spares_writeReply (s : State) {v w : Nat} (hw : w ≠ v) (tag : BitVec 16) (op : Nat) (r : Reply) :
    s.Spares (s.writeReply v tag op r) w := by
  obtain ⟨m, h⟩ := s.writeReply_eq v tag op r
  rw [h]
  exact ⟨rfl, State.window_of_onSlotOf_other s hw fun c => c.withReply tag op r⟩

theorem State.spares_finish (s : State) {v w : Nat} (hw : w ≠ v) (r : Reply) : s.Spares (s.finish v r) w := by
  cases hc : (s.window v).slot.running with
  | none =>
    have hsame : s.finish v r = s := by
      unfold State.finish
      rw [hc]
    rw [hsame]
    exact s.spares_refl w
  | some c =>
    obtain ⟨win, m, h, -, hother⟩ := State.finish_eq hc r
    rw [h]
    exact ⟨rfl, hother w hw⟩

/-- The replies of lease commands leave a window that runs none. -/
theorem State.spares_leaseReplies {s : State} {w : Nat} (h : (s.window w).slot.running = none) : s.Spares s.leaseReplies w := by
  unfold State.leaseReplies
  have hstep : ∀ (l : List Nat) (u : State), (u.window w).slot.running = none → u.Spares (l.foldl (fun s v =>
      match (s.window v).slot.running, (s.window v).slot.result with
      | some x, some r => if x.opcode = 0x20 || x.opcode = 0x21 then s.finish v r else s
      | _, _ => s) u) w := by
    intro l
    induction l with
    | nil => exact fun u _ => u.spares_refl w
    | cons v l ih =>
      intro u hu
      have hone : u.Spares (match (u.window v).slot.running, (u.window v).slot.result with
          | some x, some r => if x.opcode = 0x20 || x.opcode = 0x21 then u.finish v r else u
          | _, _ => u) w := by
        split
        · next x r hx _ =>
          split
          · refine u.spares_finish (fun hvw => ?_) r
            rw [← hvw, hu] at hx
            cases hx
          · exact u.spares_refl w
        · exact u.spares_refl w
      exact hone.trans (ih _ (by rw [hone.2]; exact hu))
  exact hstep _ s h

/-- The command that a packet asks for. -/
def Packet.command (p : Packet) (s : State) (params : Bytes) : Cmd :=
  { opcode := p.opcode, tag := p.tag, session := p.session, inl := p.inl, params := params, g1 := p.gen == 1, epoch := s.epoch
    time := s.now, phases := s.phases }

/-- The slot once its packet is refused, and once it is taken. -/
def CmdSlot.refused (x : CmdSlot) : CmdSlot := { x with state := .idle, params := [], appended := 0 }
def CmdSlot.taken (cmd : Cmd) (x : CmdSlot) : CmdSlot :=
  { x with state := .running, params := [], appended := 0, running := some cmd, result := none, begun := false }

theorem State.accept_refuses {s : State} {w st d : Nat} (hclosed : (s.window w).slot.state = .closed)
    (hup : s.fcUp = true ∨ roundaboutOps.contains (parsePacket (s.window w).slot.pkt).opcode = true)
    (hcheck : s.checkPacket w (parsePacket (s.window w).slot.pkt) (s.window w).slot.appended = some (st, d)) :
    (s.accept w).2 = (s.onSlotOf w CmdSlot.refused).writeReply w (parsePacket (s.window w).slot.pkt).tag
      (parsePacket (s.window w).slot.pkt).opcode { status := st, detail := d } := by
  have hdown : ¬ (!s.fcUp && !roundaboutOps.contains (parsePacket (s.window w).slot.pkt).opcode) = true := by
    rcases hup with h | h <;> rw [h] <;> simp
  unfold State.accept
  dsimp only
  rw [if_pos (by rw [hclosed]; rfl), if_neg hdown, hcheck]
  rfl

theorem State.accept_takes {s : State} {w : Nat} (hclosed : (s.window w).slot.state = .closed)
    (hup : s.fcUp = true ∨ roundaboutOps.contains (parsePacket (s.window w).slot.pkt).opcode = true)
    (hcheck : s.checkPacket w (parsePacket (s.window w).slot.pkt) (s.window w).slot.appended = none) :
    ∃ rb, (s.accept w).2 = { s.onSlotOf w (CmdSlot.taken ((parsePacket (s.window w).slot.pkt).command s
      ((s.window w).slot.params.take (parsePacket (s.window w).slot.pkt).paramLen))) with rb := rb } := by
  have hdown : ¬ (!s.fcUp && !roundaboutOps.contains (parsePacket (s.window w).slot.pkt).opcode) = true := by
    rcases hup with h | h <;> rw [h] <;> simp
  unfold State.accept
  dsimp only
  rw [if_pos (by rw [hclosed]; rfl), if_neg hdown, hcheck]
  dsimp only
  split
  · exact ⟨s.rb, rfl⟩
  · exact ⟨_, rfl⟩

/-- The slot of a window is looked at without another's being touched. -/
theorem State.spares_accept (s : State) {v w : Nat} (hw : w ≠ v) : s.Spares (s.accept v).2 w := by
  unfold State.accept
  dsimp only
  split
  · split
    · exact s.spares_refl w
    · split
      · exact (s.spares_onSlotOf hw CmdSlot.refused).trans (State.spares_writeReply _ hw _ _ _)
      · dsimp only
        split
        · exact s.spares_onSlotOf hw (CmdSlot.taken _)
        · exact ⟨rfl, State.window_of_onSlotOf_other s hw (CmdSlot.taken _)⟩
  · split
    · split
      · exact (s.spares_onSlotOf hw fun x => { x with behind := none }).trans (State.spares_writeReply _ hw _ _ _)
      · exact (s.spares_onSlotOf hw fun x => { x with behind := none }).trans
          (State.spares_onSlotOf (s.onSlotOf v fun x => { x with behind := none }) hw fun x => { x with abortCmd := some _ })
    · exact s.spares_refl w

/-- The windows in the order of a scan (R234). -/
def State.scanOrder (s : State) : List Nat := (List.range 65).map fun i => (s.rb.scanAfter + 1 + i) % 65

theorem State.scanOrder_nodup (s : State) : s.scanOrder.Nodup := by
  unfold State.scanOrder
  refine List.Nodup.map_on (fun i hi j hj h => ?_) List.nodup_range
  rw [List.mem_range] at hi hj
  omega

theorem State.mem_scanOrder (s : State) {w : Nat} (hw : w < 65) : w ∈ s.scanOrder := by
  refine List.mem_map.mpr ⟨(w + 65 - (s.rb.scanAfter + 1) % 65) % 65, List.mem_range.mpr (Nat.mod_lt _ (by omega)), ?_⟩
  omega

/-- One look of a scan, which remembers the first window that it took. -/
def scanLook (x : Option Nat × State) (w : Nat) : Option Nat × State :=
  (if (x.2.accept w).1 && x.1.isNone then some w else x.1, (x.2.accept w).2)

theorem scanLook_foldl (l : List Nat) (x : Option Nat × State) : (l.foldl scanLook x).2 = l.foldl (fun u v => (u.accept v).2) x.2 := by
  induction l generalizing x with
  | nil => rfl
  | cons w l ih => rw [List.foldl_cons, List.foldl_cons, ih, scanLook]

/-- A scan looks at each window once, in its order. -/
theorem State.scan_eq (s : State) : ∃ rb, s.scan = { s.scanOrder.foldl (fun u v => (u.accept v).2) s with rb := rb } := by
  have hlooks : s.scan = match s.scanOrder.foldl scanLook (none, s) with
      | (some w, t) => { t with rb := { t.rb with scanAfter := w } }
      | (none, t) => t := by
    unfold State.scan State.scanOrder
    rw [List.foldl_map]
    unfold scanLook
    dsimp only
    generalize List.foldl _ _ _ = r
    obtain ⟨o, t⟩ := r
    cases o <;> rfl
  have hlast := scanLook_foldl s.scanOrder (none, s)
  rw [hlooks]
  generalize s.scanOrder.foldl scanLook (none, s) = r at hlast ⊢
  obtain ⟨o, t⟩ := r
  rw [← hlast]
  cases o with
  | none => exact ⟨t.rb, rfl⟩
  | some w => exact ⟨_, rfl⟩

/-- What a scan leaves of a window is what it leaves when its turn comes; what comes before and after leaves it. -/
theorem State.scan_turn (s : State) {w : Nat} (hw : w < 65) : ∃ u, s.Spares u w ∧ (u.accept w).2.Spares s.scan w := by
  obtain ⟨rb, hscan⟩ := s.scan_eq
  obtain ⟨l, r, hsplit⟩ := List.append_of_mem (s.mem_scanOrder hw)
  have hnodup := s.scanOrder_nodup
  rw [hsplit] at hnodup hscan
  rw [List.nodup_append, List.nodup_cons] at hnodup
  obtain ⟨-, ⟨hr, -⟩, hlr⟩ := hnodup
  have hl : w ∉ l := fun h => hlr w h w List.mem_cons_self rfl
  rw [List.foldl_append, List.foldl_cons] at hscan
  have hbefore := State.spares_foldl (w := w) (fun u v => (u.accept v).2) l (fun u v hv => u.spares_accept (ne_of_mem_of_not_mem hv hl).symm) s
  have hafter := State.spares_foldl (w := w) (fun u v => (u.accept v).2) r (fun u v hv => u.spares_accept (ne_of_mem_of_not_mem hv hr).symm)
    ((l.foldl (fun u v => (u.accept v).2) s).accept w).2
  refine ⟨_, hbefore, hafter.trans ?_⟩
  rw [hscan]
  exact ⟨rfl, rfl⟩

/-! What the rest of the dispatch tick leaves. -/

theorem State.notices_keeps (s : State) (w : Nat) : ((s.notices).window w).slot = (s.window w).slot ∧ s.notices.ptu = s.ptu := by
  have hstep : ∀ (u : State) (v : Nat), (fun t : State => ((t.window w).slot, t.ptu)) (if (u.window v).errNotice then
      (u.viMessage v 2).onWin v fun x => { x with errNotice := false } else u) = ((u.window w).slot, u.ptu) := by
    intro u v
    split
    · rw [State.viMessage_frame]
      refine Prod.ext ?_ rfl
      by_cases hv : w = v
      · subst hv
        exact (congrArg Window.slot (Tab.get_upd_same ({} : Window) u.win w fun x => { x with errNotice := false }) :)
      · exact (congrArg Window.slot (Tab.get_upd_other ({} : Window) u.win (fun x => { x with errNotice := false }) hv) :)
    · rfl
  have h : (fun t : State => ((t.window w).slot, t.ptu)) s.notices = ((s.window w).slot, s.ptu) := by
    unfold State.notices
    exact foldl_keeps (fun t : State => ((t.window w).slot, t.ptu)) _ hstep _ s
  exact Prod.mk.inj h

theorem State.endChallengeRead_keeps (s : State) : s.endChallengeRead.win = s.win ∧ s.endChallengeRead.ptu = s.ptu := by
  unfold State.endChallengeRead
  split <;> exact ⟨rfl, rfl⟩

theorem State.pumpEvents_keeps (s : State) : s.pumpEvents.win = s.win ∧ s.pumpEvents.ptu = s.ptu := by
  have hsend : ∀ (u : State) (b : Bytes), (u.mgmtSend b).win = u.win ∧ (u.mgmtSend b).ptu = u.ptu := by
    intro u b
    unfold State.mgmtSend
    dsimp only
    split <;> exact ⟨rfl, rfl⟩
  unfold State.pumpEvents
  split
  · split
    · exact ⟨rfl, rfl⟩
    · split
      · exact ⟨rfl, rfl⟩
      · exact hsend _ _
  · exact ⟨rfl, rfl⟩

/-- The work of a dispatch tick, its boundary taken. -/
def State.dispatch (s : State) : State := s.leaseReplies.scan.notices.endChallengeRead.pumpEvents

theorem State.dispatch_keeps (s : State) (w : Nat) :
    (s.dispatch.window w).slot = (s.leaseReplies.scan.window w).slot ∧ s.dispatch.ptu = s.leaseReplies.scan.ptu := by
  obtain ⟨hslot, hptu⟩ := s.leaseReplies.scan.notices_keeps w
  obtain ⟨hwin, hptu'⟩ := s.leaseReplies.scan.notices.endChallengeRead_keeps
  obtain ⟨hwin', hptu''⟩ := s.leaseReplies.scan.notices.endChallengeRead.pumpEvents_keeps
  have hwindow : s.dispatch.window w = s.leaseReplies.scan.notices.window w :=
    congrArg (fun t : Tab Window => Tab.get ({} : Window) t w) (hwin'.trans hwin)
  exact ⟨(congrArg Window.slot hwindow).trans hslot, hptu''.trans (hptu'.trans hptu)⟩

theorem exec_dispatchTick (s : State) : exec .dispatchTick s = act (s.ptu.atDispatch && !s.ptu.atEpoch)
    (fun s => State.dispatch { s with ptu := { s.ptu with atDispatch := false } }) s := rfl

theorem State.accept_ptu (s : State) (w : Nat) : (s.accept w).2.ptu = s.ptu := by
  rw [(s.spares_accept (Nat.succ_ne_self w)).1]

theorem State.finish_ptu (s : State) (w : Nat) (r : Reply) : (s.finish w r).ptu = s.ptu := by
  rw [(s.spares_finish (Nat.succ_ne_self w) r).1]

theorem State.leaseReplies_ptu (s : State) : s.leaseReplies.ptu = s.ptu := by
  unfold State.leaseReplies
  refine foldl_keeps State.ptu _ (fun s w => ?_) _ s
  dsimp only
  split
  · split
    · exact s.finish_ptu w _
    · rfl
  · rfl

theorem State.scan_ptu (s : State) : s.scan.ptu = s.ptu := by
  obtain ⟨rb, h⟩ := s.scan_eq
  rw [h]
  generalize s.scanOrder = l
  exact foldl_keeps State.ptu (fun (u : State) v => (u.accept v).2) (fun u v => u.accept_ptu v) l s

/-- What a window's turn leaves of it, the dispatch tick leaves of it. -/
theorem State.dispatch_turn {s : State} {w : Nat} (hw : w < 65) (hrunning : (s.window w).slot.running = none) :
    ∃ u, s.Spares u w ∧ (s.dispatch.window w).slot = ((u.accept w).2.window w).slot := by
  obtain ⟨u, hbefore, hafter⟩ := s.leaseReplies.scan_turn hw
  obtain ⟨hslot, -⟩ := s.dispatch_keeps w
  exact ⟨u, (State.spares_leaseReplies hrunning).trans hbefore, hslot.trans (congrArg Window.slot hafter.2)⟩

/-- What decides on a packet is as it was when its turn comes. -/
theorem State.Spares.decides {s u : State} {w : Nat} (h : s.Spares u w) :
    u.window w = s.window w ∧ u.fcUp = s.fcUp ∧ u.epoch = s.epoch ∧ u.now = s.now ∧ u.phases = s.phases ∧ u.ptu = s.ptu := by
  obtain ⟨hu, hw⟩ := h
  refine ⟨hw, ?_⟩
  rw [hu]
  exact ⟨rfl, rfl, rfl, rfl, rfl⟩

theorem State.replied_of_slot {s t : State} {w : Nat} {tag : BitVec 16} {op : Nat} {r : Reply} (h : s.Replied w tag op r)
    (hslot : (t.window w).slot = (s.window w).slot) : t.Replied w tag op r := by
  unfold State.Replied at h ⊢
  rw [hslot]
  exact h

/-- Settles O37. -/
theorem slotsAreSealedAndTaken : Obligations.SlotsAreSealedAndTaken := by
  refine ⟨fun s hl hepoch => ?sealing, fun s hl hdispatch hepoch => ?taking⟩
  case sealing =>
    refine reaches_act (exec_epochBoundary s) hl hepoch ?_
    have h := s.slotStates_epochRow
    have hstate : ∀ w, (s.epochRow.window w).slot.state = (s.window w).slot.sealNow.state :=
      fun w => by rw [← State.slotStates_fst, h]
    have hepoch' : s.epochRow.ptu.atEpoch = false := by rw [← State.slotStates_snd, h]
    simp only [State.settle_ptu, State.settle_window_slot, hstate]
    refine ⟨hepoch', fun w => ⟨fun hp => ?_, fun hi => ?_⟩⟩
    · unfold CmdSlot.sealNow
      rw [hp]
    · unfold CmdSlot.sealNow
      rw [hi]
      exact hi
  case taking =>
    refine reaches_act (exec_dispatchTick s) hl (by simp [hdispatch, hepoch]) ?_
    generalize hd : ({ s with ptu := { s.ptu with atDispatch := false } } : State) = d
    have hptu : d.dispatch.ptu = { s.ptu with atDispatch := false } := by
      rw [(d.dispatch_keeps 0).2, State.scan_ptu, State.leaseReplies_ptu, ← hd]
    have hwin : ∀ w, d.window w = s.window w := fun w => by rw [← hd]; rfl
    have hsame : d.fcUp = s.fcUp ∧ d.epoch = s.epoch ∧ d.now = s.now ∧ d.phases = s.phases := by
      rw [← hd]
      exact ⟨rfl, rfl, rfl, rfl⟩
    obtain ⟨hfc, hepoch', hnow, hphases⟩ := hsame
    rw [State.settle_ptu]
    refine ⟨hptu, fun w hclosed hrunning habort hup => ?_⟩
    obtain ⟨u, hspares, hslot⟩ := State.dispatch_turn (s := d) w.isLt (by rw [hwin]; exact hrunning)
    obtain ⟨huw, hufc, huepoch, hunow, huphases, -⟩ := hspares.decides
    rw [hwin] at huw
    have hcheck : ∀ p n, u.checkPacket w.val p n = s.checkPacket w.val p n := fun p n => by
      unfold State.checkPacket
      rw [huw]
    rw [← huw] at hclosed hup ⊢
    rw [← hfc, ← hufc] at hup
    have hsettled : ((s.settle d.dispatch).window w.val).slot = ((u.accept w.val).2.window w.val).slot :=
      (State.settle_window_slot _ _ _).trans hslot
    refine ⟨fun st d hbad => ?_, fun hgood => ?_⟩
    · rw [State.accept_refuses hclosed hup ((hcheck _ _).trans hbad)] at hsettled
      refine ⟨?_, State.replied_of_slot (State.replied_writeReply _ _ _ _ _) hsettled⟩
      rw [hsettled, State.slot_writeReply, State.window_of_onSlotOf]
      rfl
    · obtain ⟨rb, htaken⟩ := State.accept_takes hclosed hup ((hcheck _ _).trans hgood)
      rw [htaken] at hsettled
      have hslot' := hsettled.trans (congrArg Window.slot (State.window_of_onSlotOf u w.val (CmdSlot.taken _)))
      rw [hslot', ← hepoch', ← huepoch, ← hnow, ← hunow, ← hphases, ← huphases]
      exact ⟨rfl, rfl⟩

end Sys2Proof.Machine
end

