-- ==== Sys2Proof/Proofs/Commits.lean ====
section
/-! PROOFS. STAGE_CHECK and STAGE_COMMIT_AT (R45, R260, R261). -/

namespace Sys2Proof.Machine

theorem exec_stageCheck (w : Win) (s : State) :
    exec (.stageCheck w) s = actCmd (s.fcCmd w.val 0x41) (fun _ s => s.stageCheck w.val) s := rfl

theorem exec_stageCommitAt (w : Win) (s : State) :
    exec (.stageCommitAt w) s = actCmd (s.fcCmd w.val 0x42) (fun c s => s.stageCommitAt w.val c) s := rfl

/-- The entry of a commit names its window's bank. -/
theorem commitEntry_some {w : Nat} {d : Bytes} {accepted epoch : Nat} {phases : List (BitVec 64)} {e : Event}
    (h : commitEntry w d accepted epoch phases = some e) :
    e.kind = .commit ∧ e.valid = true ∧ e.target = BitVec.ofNat 12 w := by
  unfold commitEntry at h
  dsimp only at h
  split at h
  · cases h
  · split at h
    · cases h
      exact ⟨rfl, rfl, rfl⟩
    · split at h
      · cases h
        exact ⟨rfl, rfl, rfl⟩
      · cases h
        exact ⟨rfl, rfl, rfl⟩

/-- The entry of an event once it is armed. -/
theorem State.event_of_arm (s : State) (i : Nat) (e : Event) (reached : Bool) :
    (s.arm i e reached).event i = { e with heldLate := !e.rel && reached } :=
  Tab.get_set_same ({} : Event) s.ptu.events i { e with heldLate := !e.rel && reached }

theorem State.event_of_arm_other (s : State) {i j : Nat} (h : j ≠ i) (e : Event) (reached : Bool) :
    (s.arm i e reached).event j = s.event j :=
  Tab.get_set_other ({} : Event) s.ptu.events { e with heldLate := !e.rel && reached } h

/-- A bank that passes its check is armed with its entry. -/
theorem State.stageCommitAt_arms {s : State} {w i : Nat} {c : Cmd} {e : Event} (hform : Bits.bit (c.u 32 1) 0 = false)
    (hfree : (s.bank w).armed = none) (hitems : (s.bank w).items ≠ [])
    (hentry : commitEntry w (Bytes.slice c.inl 0 16) c.time c.epoch c.phases = some e)
    (hcheck : s.checkBank w (s.earliestEpoch w) = none) (hidx : s.freeEntry = some i) :
    s.stageCommitAt w c
      = ((s.onBank w fun b => { b with armed := some i, armedEpoch := s.commitEpoch e }).arm i e (s.ptu.reached e)).result w
        { status := stOk, epoch := s.commitEpoch e } := by
  have hsome : (s.bank w).items.isEmpty = false := by simpa using hitems
  unfold State.stageCommitAt
  simp only [hform, Bool.false_eq_true, if_false, State.busyEpoch_none hfree, hsome, hentry, hcheck, hidx]
  rfl

/-- Settles O21; the entry is the lowest that is free (log entry 9). -/
theorem commitIsArmed : Obligations.CommitIsArmed := by
  refine ⟨fun s w c hs hc => ?check, fun s w c e i hs hc hform hfree hitems hentry hcheck hidx => ?commit⟩
  case check =>
    exact reaches_actCmd_synced (exec_stageCheck w s) hs.1 hc hs.2 rfl
      ⟨rfl, State.slotOnly_result_of_win rfl _ _, State.answers_result _ _ _⟩
  case commit =>
    obtain ⟨hkind, hvalid, htarget⟩ := commitEntry_some hentry
    generalize hn : s.commitEpoch e = n
    have heq := State.stageCommitAt_arms hform hfree hitems hentry hcheck hidx
    rw [hn] at heq
    have hevent := (s.onBank w.val fun b => { b with armed := some i, armedEpoch := n }).event_of_arm i e (s.ptu.reached e)
    have hother : ∀ j, j ≠ i → ((s.onBank w.val fun b => { b with armed := some i, armedEpoch := n }).arm i e (s.ptu.reached e)).event j
        = s.event j := fun j hj => State.event_of_arm_other _ hj e (s.ptu.reached e)
    generalize s.ptu.reached e = reached at *
    exact reaches_actCmd_to (exec_stageCommitAt w s) hs.1 hc heq hs.2 rfl
      ⟨rfl, State.slotOnly_result_of_win rfl _ _, s.bank_of_onBank w.val fun b => { b with armed := some i, armedEpoch := n },
        (congrArg Event.kind hevent).trans hkind, (congrArg Event.valid hevent).trans hvalid,
        (congrArg Event.target hevent).trans htarget, (congrArg Event.instant hevent :), hother, State.answers_result _ _ _⟩

end Sys2Proof.Machine
end

