-- ==== Sys2Proof/Proofs/Weights.lean ====
section
/-! PROOFS. WEIGHTS_LOAD and MEASURE (R86, R88, R117, R249). -/

namespace Sys2Proof.Machine

theorem exec_weightsLoad (w : Win) (img : HostRead) (s : State) :
    exec (.weightsLoad w img) s = actCmd (s.fcCmd w.val 0x31) (fun c s => s.weightsLoad w.val c img) s := rfl

theorem exec_measure (w : Win) (u : List Upset) (s : State) :
    exec (.measure w u) s = actCmd (s.fcCmd w.val 0x32) (fun c s => s.measureRow w.val c u) s := rfl

/-! Regions. -/

theorem State.arcade_of_onRegion (s : State) (k : Nat × Nat) (f : Region → Region) :
    (s.onRegion k f).arcade k.1 = { s.arcade k.1 with regions := Tab.upd {} (s.arcade k.1).regions k.2 f } :=
  s.arcade_of_onArc k.1 fun c => { c with regions := Tab.upd {} c.regions k.2 f }

theorem State.arcade_of_onRegion_other (s : State) {k : Nat × Nat} {a : Nat} (h : a ≠ k.1) (f : Region → Region) :
    (s.onRegion k f).arcade a = s.arcade a :=
  s.arcade_of_onArc_other (fun c => { c with regions := Tab.upd {} c.regions k.2 f }) h

theorem State.regionAt_of_onRegion (s : State) (k : Nat × Nat) (f : Region → Region) : (s.onRegion k f).regionAt k = f (s.regionAt k) := by
  unfold State.regionAt
  rw [State.arcade_of_onRegion]
  exact Tab.get_upd_same ({} : Region) _ k.2 f

theorem State.integ_of_onRegion (s : State) (k : Nat × Nat) (f : Region → Region) (a : Nat) :
    ((s.onRegion k f).arcade a).integ = (s.arcade a).integ := by
  by_cases ha : a = k.1
  · rw [ha, State.arcade_of_onRegion]
  · rw [State.arcade_of_onRegion_other s ha]

theorem State.als_of_onRegion (s : State) (k : Nat × Nat) (f : Region → Region) :
    ((s.onRegion k f).arcade k.1).als = (s.arcade k.1).als := by
  rw [State.arcade_of_onRegion]

/-- The change of a region that its image makes MEASURED. -/
def State.measuredRegion (s : State) (w : Nat) (k : Nat × Nat) (digest : BitVec 384) (r : Region) : Region :=
  { (match s.regionSession w k with
      | some sc => r.own (s.session sc) sc
      | none => r) with state := .measured, digest := digest }

theorem State.takeRegion_eq (s : State) (w : Nat) (k : Nat × Nat) (digest : BitVec 384) :
    s.takeRegion w k digest = s.onRegion k (s.measuredRegion w k digest) := by
  unfold State.takeRegion State.measuredRegion
  rfl

/-- A region while its image is written. -/
def State.filled (s : State) (k : Nat × Nat) (g : Weight) (img : Bytes) : State :=
  (s.onRegion k fun r => { r with state := .loading }).onArc k.1 fun c => c.writeImage (Tab.get {} c.regions k.2) g.mx img

theorem State.loadRegion_good {s : State} {w : Nat} {k : Nat × Nat} {g : Weight} {img : Bytes} (h : Config.sha384 img = g.digest) :
    s.loadRegion w k g img = (s.filled k g img).takeRegion w k g.digest :=
  if_pos h

/-- The Arcade of a region that is filled: the region is LOADING and its rows hold the image. -/
theorem State.arcade_of_filled (s : State) (k : Nat × Nat) (g : Weight) (img : Bytes) : (s.filled k g img).arcade k.1
    = Arcade.writeImage { s.arcade k.1 with regions := Tab.upd {} (s.arcade k.1).regions k.2 fun r => { r with state := .loading } }
        { s.regionAt k with state := .loading } g.mx img := by
  unfold State.filled
  rw [State.arcade_of_onArc, State.arcade_of_onRegion]
  dsimp only
  rw [Tab.get_upd_same]
  rfl

theorem State.arcade_of_filled_other (s : State) {k : Nat × Nat} {a : Nat} (h : a ≠ k.1) (g : Weight) (img : Bytes) :
    (s.filled k g img).arcade a = s.arcade a := by
  unfold State.filled
  rw [State.arcade_of_onArc_other _ _ h, State.arcade_of_onRegion_other s h]

theorem State.onArc_frame (s : State) (a : Nat) (f : Arcade → Arcade) : ∃ arc, s.onArc a f = { s with arc := arc } := ⟨_, rfl⟩

theorem State.filled_frame (s : State) (k : Nat × Nat) (g : Weight) (img : Bytes) : ∃ arc, s.filled k g img = { s with arc := arc } := by
  obtain ⟨x, hx⟩ := State.onArc_frame s k.1 fun c => { c with regions := Tab.upd {} c.regions k.2 fun r => { r with state := .loading } }
  obtain ⟨y, hy⟩ := State.onArc_frame (s.onRegion k fun r => { r with state := .loading }) k.1
    fun c => c.writeImage (Tab.get {} c.regions k.2) g.mx img
  refine ⟨y, hy.trans ?_⟩
  rw [show s.onRegion k (fun r => { r with state := .loading }) = { s with arc := x } from hx]

/-- The session a region serves is a matter of the plan and the sessions. -/
theorem State.regionSession_arc (s : State) (arc : Tab Arcade) (w : Nat) (k : Nat × Nat) :
    State.regionSession { s with arc := arc } w k = s.regionSession w k := rfl

theorem State.onRegion_filled_frame (s : State) (k : Nat × Nat) (g : Weight) (img : Bytes) (f : Region → Region) :
    ∃ arc, (s.filled k g img).onRegion k f = { s with arc := arc } := by
  obtain ⟨x, hx⟩ := State.onArc_frame (s.filled k g img) k.1 fun c => { c with regions := Tab.upd {} c.regions k.2 f }
  obtain ⟨y, hy⟩ := State.onArc_frame (s.onRegion k fun r => { r with state := .loading }) k.1
    fun c => c.writeImage (Tab.get {} c.regions k.2) g.mx img
  obtain ⟨z, hz⟩ := State.onArc_frame s k.1 fun c => { c with regions := Tab.upd {} c.regions k.2 fun r => { r with state := .loading } }
  unfold State.onRegion
  rw [hx]
  unfold State.filled
  rw [hy]
  unfold State.onRegion
  rw [hz]
  exact ⟨x, rfl⟩

/-- An image is written into the rows of its region, which are cleared first. -/
theorem Arcade.writeImage_als (c : Arcade) (r : Region) (mx : Bool) (img : Bytes) : (c.writeImage r mx img).als
    = Tab.setMany 0 (Tab.clear c.als (r.firstRow * 8192) ((r.lastRow + 1) * 8192)) (r.firstRow * 8192)
      (Bytes.slice img 0 ((r.lastRow + 1 - r.firstRow) * 8192)) := rfl

theorem Arcade.writeImage_integ (c : Arcade) (r : Region) (mx : Bool) (img : Bytes) : (c.writeImage r mx img).integ = c.integ := rfl

/-! WEIGHTS_LOAD. -/

/-- One empty region is filled with the image. -/
theorem State.fillRegions_one {s : State} {w : Nat} {g : Weight} {k : Nat × Nat} {img : Bytes} (h : (s.regionAt k).state = .empty) :
    s.fillRegions w g [k] img = ((s.loadRegion w k g img).onSlotOf w fun x => { x with undo := .regions [k] }).result w
      (if decide (Config.sha384 img = g.digest) then .ok 0 else .denied 0) := by
  unfold State.fillRegions
  simp [h]

/-- A command that nothing refuses fills the one region that takes the weight. -/
theorem State.weightsLoad_fills {s : State} {w : Nat} {c : Cmd} {img : HostRead} {p : Plan} {g : Weight} {k : Nat × Nat}
    (hplan : (s.plan w).running = some p) (hweight : p.weights[c.u 16 2]? = some g) (hbindable : s.bindable w c.session = true)
    (hl : c.u 18 1 < 64) (hregions : s.loadRegions w (c.u 16 2) = [k]) (hlsess : s.lsessOf w (c.u 18 1) = some c.session)
    (hheld : (s.held w).hasArc k.1 = true) (hlen : c.u 32 4 = g.length) (hstate : (s.regionAt k).state = .empty)
    (hvalid : (s.regionAt k).valid = true) (howner : (s.regionAt k).plan = some w) (hplane : s.pm.planeOff = false)
    (herr : img.err = false) (hpoison : img.poison = false) :
    s.weightsLoad w c img = (s.hostRead (windowWorld w) (c.u 24 8) g.length).fillRegions w g [k] (Bytes.slice img.bytes 0 g.length) := by
  unfold State.weightsLoad
  simp [hplan, hweight, hbindable, hregions, hplane, State.bindLsess_bound hlsess, hheld, hlen, herr, hpoison, Nat.not_le.mpr hl,
    Region.fillable, hvalid, howner, hstate]

theorem State.hostRead_out (s : State) (wv : Nat × Nat) (addr n : Nat) :
    ∃ o, s.hostRead wv addr n = { s with out := o } ∧ (s.hostRead wv addr n).out = o :=
  ⟨_, s.hostRead_frame wv addr n, rfl⟩

/-- A weight of one region with the plan's digest: the region is MEASURED, its Arcade holds the image, and nothing else changes. -/
theorem State.loadRegion_measures {s : State} {w sc : Nat} {k : Nat × Nat} {g : Weight} {img : Bytes} (h : Config.sha384 img = g.digest)
    (hsession : s.regionSession w k = some sc) : ∃ arc, s.loadRegion w k g img = { s with arc := arc }
      ∧ (∀ a, (Tab.get {} arc a).integ = (s.arcade a).integ) ∧ (∀ a, a ≠ k.1 → Tab.get {} arc a = s.arcade a)
      ∧ (Tab.get {} arc k.1).als = ((s.arcade k.1).writeImage (s.regionAt k) g.mx img).als
      ∧ (Tab.get {} (Tab.get {} arc k.1).regions k.2).state = .measured
      ∧ (Tab.get {} (Tab.get {} arc k.1).regions k.2).digest = g.digest
      ∧ (Tab.get {} (Tab.get {} arc k.1).regions k.2).session = sc := by
  have hown : (s.filled k g img).regionSession w k = some sc := by
    obtain ⟨arc, hfilled⟩ := s.filled_frame k g img
    rw [hfilled, State.regionSession_arc]
    exact hsession
  have hmeasured : ∀ r, ((s.filled k g img).measuredRegion w k g.digest r).state = .measured
      ∧ ((s.filled k g img).measuredRegion w k g.digest r).digest = g.digest
      ∧ ((s.filled k g img).measuredRegion w k g.digest r).session = sc := by
    intro r
    unfold State.measuredRegion
    rw [hown]
    exact ⟨rfl, rfl, rfl⟩
  rw [State.loadRegion_good h, State.takeRegion_eq]
  generalize (s.filled k g img).measuredRegion w k g.digest = f at hmeasured ⊢
  have hals := (s.filled k g img).als_of_onRegion k f
  have hinteg := (s.filled k g img).integ_of_onRegion k f k.1
  have hother : ∀ a, a ≠ k.1 → ((s.filled k g img).onRegion k f).arcade a = s.arcade a :=
    fun a ha => (State.arcade_of_onRegion_other _ ha _).trans (State.arcade_of_filled_other s ha g img)
  have hregion := (s.filled k g img).regionAt_of_onRegion k f
  rw [State.arcade_of_filled, Arcade.writeImage_als] at hals
  rw [State.arcade_of_filled, Arcade.writeImage_integ] at hinteg
  obtain ⟨hstate, hdigest, hsess⟩ := hmeasured ((s.filled k g img).regionAt k)
  rw [← hregion] at hstate hdigest hsess
  obtain ⟨arc, hframe⟩ := s.onRegion_filled_frame k g img f
  rw [hframe] at hals hinteg hother hstate hdigest hsess ⊢
  refine ⟨arc, rfl, fun a => ?_, hother, ?_, hstate, hdigest, hsess⟩
  · by_cases ha : a = k.1
    · rw [ha]
      exact hinteg
    · exact congrArg Arcade.integ (hother a ha)
  · rw [Arcade.writeImage_als]
    exact hals

/-! MEASURE. -/

/-- A measured region that the window holds is digested again. -/
theorem State.measureRow_eq {s : State} {w : Nat} {c : Cmd} {p : Plan} {x : Placement} {g : Weight} {k : Nat × Nat}
    (hplan : (s.plan w).running = some p) (hregion : (s.plan w).regions[c.u 16 2]? = some k)
    (hplace : p.placements[c.u 16 2]? = some x) (hscratch : x.scratch = false) (hweight : p.weights[x.weight]? = some g)
    (hheld : (s.held w).hasArc k.1 = true) (hstate : (s.regionAt k).state = .measured) (howner : (s.regionAt k).plan = some w) :
    s.measureRow w c [] = if !(s.arcade k.1).regionPoisoned (s.regionAt k)
        && decide (Config.sha384 ((s.arcade k.1).imageOf (s.regionAt k) g.mx) = g.digest) then s.result w (.ok 0)
      else (s.onRegion k fun r => { r with state := .broken, digest := 0 }).result w { status := stFault } := by
  unfold State.measureRow
  simp only [hplan, hregion, hplace, Option.bind_some, hscratch, Bool.false_eq_true, if_false, hweight, hheld, Bool.not_true, hstate, howner,
    bne_self_eq_false, Bool.or_self, State.applyUpsets, List.foldl_nil]
  rfl

/-- Settles O22; a digest that differs is answered ST_DENIED (log entry 63), the load is one row (85) and its read goes out at the data
movers' port (97). -/
theorem weightsAreMeasured : Obligations.WeightsAreMeasured := by
  refine ⟨?load, ?measure⟩
  case load =>
    intro s w c img p g k hs hc hplan hweight hbindable hl hregions hlsess hsession hheld hlen hstate hvalid howner hplane herr hpoison b
    have heq := State.weightsLoad_fills hplan hweight hbindable hl hregions hlsess hheld hlen hstate hvalid howner hplane herr hpoison
    obtain ⟨o, hread, hout⟩ := s.hostRead_out (windowWorld w.val) (c.u 24 8) g.length
    rw [hout]
    rw [hread, State.fillRegions_one (show (State.regionAt { s with out := o } k).state = .empty from hstate)] at heq
    by_cases hgood : Config.sha384 b = g.digest
    · obtain ⟨arc, hload, hinteg, hother, hals, hstate', hdigest, hsess⟩ :=
        State.loadRegion_measures (s := { s with out := o }) (w := w.val) hgood hsession
      rw [hload, if_pos (decide_eq_true hgood)] at heq
      refine reaches_actCmd_to (exec_weightsLoad w img s) hs.1 hc heq
        (hs.2.congr rfl hinteg (fun _ => rfl) (fun _ => rfl) rfl rfl rfl) rfl ⟨fun _ => ?_, fun h => absurd hgood h⟩
      refine ⟨rfl, ?_, State.answers_result _ _ _, hstate', hdigest, hsess, hals, hother⟩
      exact ((State.slotOnly_of_win rfl _).trans (State.slotOnly_onSlotOf { s with out := o, arc := arc } _ _)).trans (State.slotOnly_result _ _ _)
    · rw [if_neg (by simpa using hgood)] at heq
      refine reaches_actCmd (exec_weightsLoad w img s) hs.1 hc ⟨fun h => absurd h hgood, fun _ => ?_⟩
      rw [heq, State.answers_settle]
      exact State.answers_result _ _ _
  case measure =>
    intro s w c p x g k hs hc hplan hregion hplace hscratch hweight hheld hstate howner same
    have heq := State.measureRow_eq hplan hregion hplace hscratch hweight hheld hstate howner
    by_cases h : same
    · rw [if_pos (by simpa using h)] at heq
      exact reaches_actCmd_to (exec_measure w [] s) hs.1 hc heq hs.2 rfl ⟨rfl, State.slotOnly_result _ _ _,
        fun _ => ⟨State.answers_result _ _ _, rfl⟩, fun hn => absurd h hn⟩
    · rw [if_neg (by simpa [same] using h)] at heq
      exact reaches_actCmd_to (exec_measure w [] s) hs.1 hc heq
        (hs.2.congr rfl (State.integ_of_onRegion s k _) (fun _ => rfl) (fun _ => rfl) rfl rfl rfl) rfl
        ⟨rfl, State.slotOnly_result_of_win rfl _ _, fun hy => absurd hy h, fun _ => ⟨State.answers_result _ _ _,
          s.regionAt_of_onRegion k fun r => { r with state := .broken, digest := 0 }⟩⟩

end Sys2Proof.Machine
end

