-- ==== Sys2Proof/Proofs/JobCheckpoints.lean ====
section
/-! PROOFS. Checkpoints of jobs (R201, R212, R454). -/

namespace Sys2Proof.Machine

theorem exec_jobCheckpoint (w : Win) (writeErr : Bool) (u : List Upset) (s : State) : exec (.jobCheckpoint w writeErr u) s
    = actCmd (s.fcCmd w.val 0x51) (fun c s => s.jobCheckpoint w.val c writeErr u) s := rfl

theorem exec_planIntervalCheckpoint (j : Fin 1024) (writeErr : Bool) (u : List Upset) (s : State) :
    exec (.planIntervalCheckpoint j writeErr u) s
      = act (s.fcUp && (s.job j.val).active) (fun s => s.intervalCkpt j.val writeErr u) s := rfl

theorem State.piazzaReads_nil (s : State) : s.piazzaReads [] = s := rfl

theorem State.foldl_emit_congr {α : Type} (o : α → Out) (l : List α) {s t : State} (h : s.out = t.out) :
    (l.foldl (fun s x => s.emit (o x)) s).out = (l.foldl (fun s x => s.emit (o x)) t).out := by
  induction l generalizing s t with
  | nil => exact h
  | cons a l ih => exact ih (s := s.emit (o a)) (t := t.emit (o a)) (congrArg (List.cons (o a)) h)

/-- What a write sends does not depend on the rest of the state. -/
theorem State.hostWrite_out_congr {s t : State} (h : s.out = t.out) (wv : Nat × Nat) (addr : Nat) (b : Bytes) (bad : List (Nat × Nat)) :
    (s.hostWrite wv addr b bad).out = (t.hostWrite wv addr b bad).out := State.foldl_emit_congr _ _ h

theorem State.onSlotOf_out (s : State) (w : Nat) (f : CmdSlot → CmdSlot) : (s.onSlotOf w f).out = s.out := rfl

/-- Beats of poisoned lines are recorded (R454). -/
def State.recordBeats (s : State) (addr : Nat) : List (Nat × Nat) → State
  | [] => s
  | r :: _ => s.report { event := 0x0408, unitKind := 0, location := (addr + r.1) / 64 * 64 }

theorem State.recordBeats_frame (s : State) (addr : Nat) (bad : List (Nat × Nat)) :
    ∃ h win, s.recordBeats addr bad = { s with health := h, win := win } ∧ (bad = [] → h = s.health ∧ win = s.win)
      ∧ h.degraded = s.health.degraded ∧ h.fcRestarting = s.health.fcRestarting ∧ h.qc = s.health.qc := by
  cases bad with
  | nil => exact ⟨s.health, s.win, rfl, fun _ => ⟨rfl, rfl⟩, rfl, rfl, rfl⟩
  | cons r l => exact ⟨_, _, State.report_frame s _, nofun, State.report_degraded s _, State.report_fcRestarting s _, State.report_qc s _⟩

/-- The account of a job whose checkpoint is taken. -/
def Job.checkpointed (lines : List (Nat × Bytes × Bool)) (rseq : Nat) (z : Job) : Job :=
  { z with ckptSelect := false, ckpt := some (lines, z.seq + z.ready.length, rseq), since := 0, kept := z.ready.length }

theorem State.takeCkpt_recordBeats (s : State) (j addr : Nat) : s.takeCkpt j addr =
    let sc := (s.job j).session
    let blob := s.jobBlob sc ((s.session sc).jobCkptNo + 1) (s.jobState j)
    let bad := poisonedRanges (s.jobState j)
    let u := (((s.hostWrite (s.sessionWorld sc) addr blob bad).perf sc 15 blob.length).recordBeats addr bad).onSess sc fun y =>
      { y with jobCkptNo := (s.session sc).jobCkptNo + 1 }
    u.onJob j (Job.checkpointed (u.jobState j) (s.session sc).rseqNext.toNat) := by
  unfold State.takeCkpt State.recordBeats Job.checkpointed
  rfl

/-- The accounts of the session and of the job once the checkpoint has gone out. -/
theorem State.checkpointed_eq (s : State) (o : List Out) (h : Health) (win : Tab Window) (sc len n j rseq : Nat) :
    let u := State.onSess { State.perf { s with out := o } sc 15 len with health := h, win := win } sc fun y => { y with jobCkptNo := n }
    ∃ sess jobs, u.onJob j (Job.checkpointed (u.jobState j) rseq) = { s with out := o, health := h, win := win, sess := sess, jobs := jobs }
      ∧ (Tab.get {} sess sc).jobCkptNo = n ∧ (∀ m, m ≠ sc → Tab.get {} sess m = s.session m)
      ∧ (Tab.get {} jobs j).ckpt.map (·.1) = some (s.jobState j) ∧ ∀ i, i ≠ j → Tab.get {} jobs i = s.job i := by
  intro u
  have hstate : u.jobState j = s.jobState j := rfl
  rw [hstate]
  generalize s.jobState j = lines
  have hmine : u.session sc = { State.session (State.perf { s with out := o } sc 15 len) sc with jobCkptNo := n } :=
    State.session_of_onSess _ sc _
  have hother : ∀ m, m ≠ sc → u.session m = s.session m := fun m hm =>
    (State.session_of_upd_other (s := State.perf { s with out := o } sc 15 len) (f := fun y => { y with jobCkptNo := n }) rfl hm).trans
      (State.session_of_onSess_other { s with out := o } _ hm)
  have hjob := u.job_of_onJob j (Job.checkpointed lines rseq)
  have hjobs : ∀ i, i ≠ j → (u.onJob j (Job.checkpointed lines rseq)).job i = s.job i := fun i hi => State.job_of_onJob_other _ _ hi
  refine ⟨u.sess, (u.onJob j (Job.checkpointed lines rseq)).jobs, rfl, congrArg Session.jobCkptNo hmine, hother, ?_, hjobs⟩
  exact (congrArg (fun x : Job => x.ckpt.map (·.1)) hjob :)

/-- A checkpoint goes out at its address with the session's next number; the rest is the account of the session and of the job, and
the record of a poisoned beat. -/
theorem State.takeCkpt_eq (s : State) (j addr : Nat) : ∃ h win sess jobs, s.takeCkpt j addr = { s with
      out := (s.hostWrite (s.sessionWorld (s.job j).session) addr
        (s.jobBlob (s.job j).session ((s.session (s.job j).session).jobCkptNo + 1) (s.jobState j)) (poisonedRanges (s.jobState j))).out
      health := h, win := win, sess := sess, jobs := jobs }
    ∧ (poisonedRanges (s.jobState j) = [] → h = s.health ∧ win = s.win)
    ∧ (h.degraded = s.health.degraded ∧ h.fcRestarting = s.health.fcRestarting ∧ h.qc = s.health.qc)
    ∧ (Tab.get {} sess (s.job j).session).jobCkptNo = (s.session (s.job j).session).jobCkptNo + 1
    ∧ (∀ m, m ≠ (s.job j).session → Tab.get {} sess m = s.session m)
    ∧ (Tab.get {} jobs j).ckpt.map (·.1) = some (s.jobState j) ∧ ∀ i, i ≠ j → Tab.get {} jobs i = s.job i := by
  obtain ⟨h, win, hbeats, hgood, hkeep⟩ := State.recordBeats_frame
    ((s.hostWrite (s.sessionWorld (s.job j).session) addr
      (s.jobBlob (s.job j).session ((s.session (s.job j).session).jobCkptNo + 1) (s.jobState j)) (poisonedRanges (s.jobState j))).perf
        (s.job j).session 15 (s.jobBlob (s.job j).session ((s.session (s.job j).session).jobCkptNo + 1) (s.jobState j)).length)
    addr (poisonedRanges (s.jobState j))
  have hstep := s.takeCkpt_recordBeats j addr
  dsimp only at hstep
  rw [hbeats, State.hostWrite_frame] at hstep
  rw [State.hostWrite_frame] at hgood hkeep
  generalize s.jobBlob (s.job j).session ((s.session (s.job j).session).jobCkptNo + 1) (s.jobState j) = blob at *
  generalize (s.hostWrite _ addr blob (poisonedRanges (s.jobState j))).out = o at *
  obtain ⟨sess, jobs, hlast, hmine, hother, hjob, hjobs⟩ := State.checkpointed_eq s o h win (s.job j).session blob.length
    ((s.session (s.job j).session).jobCkptNo + 1) j (s.session (s.job j).session).rseqNext.toNat
  exact ⟨h, win, sess, jobs, hstep.trans hlast, hgood, hkeep, hmine, hother, hjob, hjobs⟩

/-- Settles O24; a checkpoint at the plan's interval goes to a free address (log entry 17). -/
theorem jobCheckpointsAreWritten : Obligations.JobCheckpointsAreWritten := by
  refine ⟨fun s w c hs hc hj hactive hwin hstate hready hlen => ?command, fun s j hs hfc hactive hstate hready => ?interval⟩
  case command =>
    have heq : s.jobCheckpoint w.val c false [] = State.result (State.takeCkpt (s.onSlotOf w.val fun y =>
        { y with undo := .ckpt (c.u 16 2) (s.job (c.u 16 2)).ckpt (s.job (c.u 16 2)).since (s.job (c.u 16 2)).kept }) (c.u 16 2) (c.u 24 8))
        w.val (.ok 0) := by
      unfold State.jobCheckpoint
      simp [hj, hactive, hwin, hstate, hready, Nat.not_lt.mpr hlen, State.piazzaReads_nil]
    obtain ⟨h, win, sess, jobs, hckpt, hgood, ⟨hdeg, hrestart, hqc⟩, hno, hsess, hlines, hjobs⟩ := State.takeCkpt_eq (s.onSlotOf w.val fun y =>
      { y with undo := .ckpt (c.u 16 2) (s.job (c.u 16 2)).ckpt (s.job (c.u 16 2)).since (s.job (c.u 16 2)).kept }) (c.u 16 2) (c.u 24 8)
    rw [hckpt, State.hostWrite_out_congr (s.onSlotOf_out w.val _)] at heq
    refine reaches_actCmd_to (exec_jobCheckpoint w false [] s) hs.1 hc heq ?_ rfl
      ⟨rfl, fun h => (hgood h).1, hlines, State.answers_result _ _ _, hno, hsess, hjobs⟩
    exact hs.2.congr hdeg (fun _ => rfl) (fun _ => rfl) (fun q => congrArg (fun t : Tab Qc => (Tab.get ({} : Qc) t q).state) hqc) hrestart rfl rfl
  case interval =>
    have heq : s.intervalCkpt j.val false [] = State.takeCkpt { s with free := s.free + 1 } j.val (Config.freeValue s.free).toNat := by
      unfold State.intervalCkpt State.freeNext
      simp [hstate, hready, State.piazzaReads_nil]
    obtain ⟨h, win, sess, jobs, hckpt, hgood, ⟨hdeg, hrestart, hqc⟩, hno, hsess, hlines, hjobs⟩ := State.takeCkpt_eq
      { s with free := s.free + 1 } j.val (Config.freeValue s.free).toNat
    rw [hckpt, State.hostWrite_out_congr (s := { s with free := s.free + 1 }) (t := s) rfl] at heq
    refine reaches_act_to (exec_planIntervalCheckpoint j false [] s) hs.1 (by simp [hfc, hactive]) heq ?_ rfl ⟨rfl, hgood, hno, hjobs⟩
    exact hs.2.congr hdeg (fun _ => rfl) (fun _ => rfl) (fun q => congrArg (fun t : Tab Qc => (Tab.get ({} : Qc) t q).state) hqc) hrestart rfl rfl

end Sys2Proof.Machine
end

