-- ==== Sys2Proof/Proofs/Jobs.lean ====
section
/-! PROOFS. The start of a job (R169, R214, R253). -/

namespace Sys2Proof.Machine

theorem exec_jobSubmit (w : Win) (inputs : List HostRead) (s : State) : exec (.jobSubmit w inputs) s
    = actCmd (s.fcCmd w.val 0x50) (fun c s => match s.jobRefusal w.val c with
      | some r => s.result w.val r
      | none => s.startJob w.val c inputs fun _ s => s) s := rfl

theorem exec_jobResume (w : Win) (blob : HostRead) (inputs : List HostRead) (s : State) : exec (.jobResume w blob inputs) s
    = actCmd (s.fcCmd w.val 0x52) (fun c s => s.jobResume w.val c blob inputs) s := rfl

/-- A fold whose steps change the Arcades alone changes them alone. -/
theorem foldl_arc {α : Type} (f : State → α → State) (h : ∀ s a, ∃ arc, f s a = { s with arc := arc }) (l : List α) (s : State) :
    ∃ arc, l.foldl f s = { s with arc := arc } := by
  induction l generalizing s with
  | nil => exact ⟨s.arc, rfl⟩
  | cons a l ih =>
    obtain ⟨x, hx⟩ := h s a
    obtain ⟨y, hy⟩ := ih (f s a)
    exact ⟨y, hy.trans (by rw [hx])⟩

/-- A step of a job whose programs may run starts them: the Arcades change, and the account of the job's step. -/
theorem State.startJobStep_eq {s : State} {j : Nat} {p : Plan} (hplan : (s.plan (s.job j).win).running = some p)
    (hrun : ∀ e ∈ s.jobEntries j, s.noPrograms e.2.arcade = false) : ∃ arc, s.startJobStep j = { s.onJob j fun x => { x with
      runners := (s.jobEntries j).map fun e => e.2.arcade, runs := [], steps := (s.job j).steps + 1
      stepGen := (s.session (s.job j).session).planGen } with arc := arc } := by
  have hany : ((s.jobEntries j).any fun e => s.noPrograms e.2.arcade) = false := by
    simpa using hrun
  unfold State.startJobStep
  simp only [hplan, hany, Bool.false_eq_true, if_false]
  refine foldl_arc _ (fun u e => ?_) _ _
  split
  · exact ⟨_, rfl⟩
  · exact ⟨u.arc, rfl⟩

/-- The entries of a job are schedule entries of its plan. -/
theorem State.mem_schedules_of_jobEntries {s : State} {j : Nat} {p : Plan} (hplan : (s.plan (s.job j).win).running = some p)
    {e : Nat × Schedule} (he : e ∈ s.jobEntries j) : e.2 ∈ p.schedules := by
  unfold State.jobEntries at he
  simp only [hplan, List.mem_filter, List.mem_filterMap, Option.map_eq_some_iff] at he
  obtain ⟨⟨i, -, y, hy, rfl⟩, -⟩ := he
  exact List.mem_of_getElem? hy

/-- The account with which a command starts its job. -/
def Cmd.newJob (c : Cmd) (w : Nat) : Job :=
  { active := true, win := w, session := c.session, lsess := c.u 18 1, entry := c.u 16 2, priority := c.u 19 1
    ringBase := c.u 24 8, ringEntries := c.u 32 4, vector := BitVec.ofNat 16 (c.u 36 2), coalesce := c.u 38 2 }

/-- What stays of a job's account while its programs start. -/
def Job.given (x : Job) : Job := { x with runners := [], runs := [], steps := 0, stepGen := 0, ckpt := none }

theorem State.job_of_newJob (s : State) (j : Nat) (x : Job) : (s.onJob j fun _ => x).job j = x := s.job_of_onJob j fun _ => x

/-- A job without inputs whose session is bound starts: its account is the command's, its number is answered, and beside it the
memories and the Arcades of its programs change. -/
theorem State.startJob_starts {s : State} {w j : Nat} {c : Cmd} {inputs : List HostRead} {restore : Nat → State → State} {p : Plan}
    (hrestore : ∀ (u : State), ∃ pz, restore j u = { u with pz := pz }) (hplan : (s.plan w).running = some p)
    (hlsess : s.lsessOf w (c.u 18 1) = some c.session) (hfree : s.freeJob = some j)
    (hins : (c.jobEntries (s.session c.session).conf).map (·.2) = some []) (hcalm : s.pm.descents = [])
    (hpages : s.jobPagesOk c.session p (c.u 16 2) [] = true) (hrun : ∀ e ∈ p.schedules, s.noPrograms e.arcade = false) :
    ∃ pz arc jobs, s.startJob w c inputs restore = State.result { s with pz := pz, arc := arc, jobs := jobs } w (.ok j)
      ∧ (Tab.get {} jobs j).given = (c.newJob w).given ∧ ∀ i, i ≠ j → Tab.get {} jobs i = s.job i := by
  obtain ⟨first, hentries⟩ : ∃ n, c.jobEntries (s.session c.session).conf = some (n, []) := by
    obtain ⟨⟨n, l⟩, hx, hl⟩ := Option.map_eq_some_iff.mp hins
    cases hl
    exact ⟨n, hx⟩
  have hshed : (s.onJob j fun _ => c.newJob w).shedNew j = s.onJob j fun _ => c.newJob w := by
    unfold State.shedNew
    rw [show (s.onJob j fun _ => c.newJob w).pm.descents = [] from hcalm]
    rfl
  obtain ⟨pz, hpz⟩ := hrestore ((s.onJob j fun _ => c.newJob w).result w (.ok j))
  have hstart : s.startJob w c inputs restore = State.startJobStep (State.onJob { (s.onJob j fun _ => c.newJob w).result w (.ok j) with pz := pz } j
      fun y => { y with ckpt := some (State.jobState { (s.onJob j fun _ => c.newJob w).result w (.ok j) with pz := pz } j, 0,
        (s.session c.session).rseqNext.toNat) }) j := by
    unfold State.startJob
    simp only [State.bindLsess_bound hlsess, hfree, hplan, hentries, Option.getD_some, hpages, Bool.not_true, Bool.false_eq_true, if_false]
    rw [show ∀ x : Job, x = c.newJob w → (s.onJob j fun _ => x).shedNew j = s.onJob j fun _ => c.newJob w from fun x hx => hx ▸ hshed]
    · simp only [State.bringInputs, hpz]
      rfl
    · rfl
  generalize hck : some (State.jobState { (s.onJob j fun _ => c.newJob w).result w (.ok j) with pz := pz } j, 0,
    (s.session c.session).rseqNext.toNat) = ck at hstart
  generalize hu : State.onJob { (s.onJob j fun _ => c.newJob w).result w (.ok j) with pz := pz } j (fun y => { y with ckpt := ck }) = u at hstart
  have hjob : u.job j = { c.newJob w with ckpt := ck } := by
    rw [← hu, State.job_of_onJob]
    exact congrArg (fun x : Job => { x with ckpt := ck }) (s.job_of_newJob j (c.newJob w))
  have hjobs : ∀ i, i ≠ j → u.job i = s.job i := fun i hi => by
    rw [← hu, State.job_of_onJob_other _ _ hi]
    exact State.job_of_onJob_other s (fun _ => c.newJob w) hi
  have huplan : (u.plan (u.job j).win).running = some p := by
    rw [hjob, ← hu]
    exact hplan
  have hurun : ∀ e ∈ u.jobEntries j, u.noPrograms e.2.arcade = false := fun e he => by
    have h := hrun e.2 (State.mem_schedules_of_jobEntries huplan he)
    rw [← hu]
    exact h
  obtain ⟨arc, hstep⟩ := State.startJobStep_eq huplan hurun
  generalize hf : (fun x : Job => ({ x with
    runners := (u.jobEntries j).map fun e : Nat × Schedule => e.2.arcade, runs := [], steps := (u.job j).steps + 1
    stepGen := (u.session (u.job j).session).planGen } : Job)) = f at hstep
  refine ⟨pz, arc, (u.onJob j f).jobs, hstart.trans (hstep.trans ?_), ?_, fun i hi => (State.job_of_onJob_other u f hi).trans (hjobs i hi)⟩
  · rw [← hu]
    rfl
  · have hlast := u.job_of_onJob j f
    rw [hjob] at hlast
    refine (congrArg Job.given hlast).trans ?_
    rw [← hf]
    rfl

/-- What is given of a job's account. -/
theorem Job.given_fields {x y : Job} (h : x.given = y.given) : x.active = y.active ∧ x.win = y.win ∧ x.session = y.session
    ∧ x.priority = y.priority ∧ x.ringBase = y.ringBase ∧ x.ringEntries = y.ringEntries ∧ x.vector = y.vector ∧ x.seq = y.seq
    ∧ x.shed = y.shed := by
  refine ⟨?_, ?_, ?_, ?_, ?_, ?_, ?_, ?_, ?_⟩
  · exact (congrArg Job.active h :)
  · exact (congrArg Job.win h :)
  · exact (congrArg Job.session h :)
  · exact (congrArg Job.priority h :)
  · exact (congrArg Job.ringBase h :)
  · exact (congrArg Job.ringEntries h :)
  · exact (congrArg Job.vector h :)
  · exact (congrArg Job.seq h :)
  · exact (congrArg Job.shed h :)

theorem State.openBlob_clear {s : State} {sc : Nat} (h : (s.session sc).conf = false) (b : Bytes) : s.openBlob sc b = some (b.drop 8) :=
  if_neg (by rw [h]; decide)

/-! A performance counter of a session changes nothing that decides on its work. -/

theorem State.session_of_perf {α : Type} {p : Session → α} (hp : ∀ (x : Session) (v : Tab Nat), p { x with perf := v } = p x)
    (s : State) (sc n k m : Nat) : p ((s.perf sc n k).session m) = p (s.session m) := by
  by_cases hm : m = sc
  · rw [hm]
    exact (congrArg p (s.session_of_onSess sc fun x => { x with perf := Tab.upd 0 x.perf n fun v => (v + k) % 2 ^ 64 })).trans (hp _ _)
  · exact congrArg p (State.session_of_onSess_other s _ hm)

theorem State.lsessOf_congr {s t : State} (hplans : t.plans = s.plans) (hstate : ∀ m, (t.session m).state = (s.session m).state) (w l : Nat) :
    t.lsessOf w l = s.lsessOf w l := by
  have hplan : t.plan w = s.plan w := by
    unfold State.plan
    rw [hplans]
  unfold State.lsessOf
  simp only [hplan, hstate]

theorem State.sessionWorld_perf (s : State) (sc n k m : Nat) : (s.perf sc n k).sessionWorld m = s.sessionWorld m :=
  State.session_of_perf (p := fun x => (x.world, if x.operator then 0 else x.vi)) (fun _ _ => rfl) s sc n k m

theorem State.pageOk_perf (s : State) (sc n k unit m addr : Nat) : (s.perf sc n k).pageOk unit m addr = s.pageOk unit m addr := by
  unfold State.pageOk
  rw [State.sessionWorld_perf]
  rfl

theorem State.jobPagesOk_perf (s : State) (sc n k m : Nat) (p : Plan) (entry : Nat) (ins : List Bytes) :
    (s.perf sc n k).jobPagesOk m p entry ins = s.jobPagesOk m p entry ins := by
  have hbuffer : ∀ b, (s.perf sc n k).bufferOk 0x28 m b = s.bufferOk 0x28 m b := fun b => by
    unfold State.bufferOk
    simp only [State.pageOk_perf]
  unfold State.jobPagesOk
  simp only [hbuffer]

/-- A checkpoint that comes in whole starts its job on the state it holds. -/
theorem State.jobResume_starts {s : State} {w : Nat} {c : Cmd} {blob : HostRead} {p : Plan} (hrefuse : s.jobRefusal w c = none)
    (hplan : (s.plan w).running = some p) (hclear : (s.session c.session).conf = false)
    (hlen : c.u 56 4 = 8 + 64 * (s.stateAddrs p (c.u 16 2)).length) (herr : blob.err = false) (hpoison : blob.poison = false)
    (inputs : List HostRead) : ∃ plain, s.jobResume w c blob inputs
      = State.startJob (State.perf (s.hostRead (windowWorld w) (c.u 48 8) (c.u 56 4)) c.session 14 (c.u 56 4)) w c inputs
        fun _ u => u.putState (s.stateAddrs p (c.u 16 2)) plain := by
  refine ⟨(Bytes.slice blob.bytes 0 (c.u 56 4)).drop 8, ?_⟩
  have hopen : (s.hostRead (windowWorld w) (c.u 48 8) (c.u 56 4)).openBlob c.session (Bytes.slice blob.bytes 0 (c.u 56 4))
      = some ((Bytes.slice blob.bytes 0 (c.u 56 4)).drop 8) := by
    rw [State.hostRead_frame]
    exact State.openBlob_clear hclear _
  unfold State.jobResume
  simp only [hrefuse, hplan, hclear, Bool.false_eq_true, if_false, Nat.add_zero, hlen, ne_eq, not_true_eq_false, herr, hpoison,
    Bool.or_self]
  rw [hlen] at hopen
  rw [hopen]

/-- Settles O23; the job is the lowest that is free (log entry 44). -/
theorem jobsStart : Obligations.JobsStart := by
  refine ⟨?submit, ?resume⟩
  case submit =>
    intro s w c p j hl hc hrefuse hplan hlsess hfree hins hcalm hpages hrun
    obtain ⟨pz, arc, jobs, hstart, hjob, hjobs⟩ := State.startJob_starts (inputs := []) (restore := fun _ s => s) (fun u => ⟨u.pz, rfl⟩) hplan
      hlsess hfree hins hcalm hpages hrun
    obtain ⟨hactive, hwin, hsess, hprio, hbase, hent, hvec, hseq, hshed⟩ := Job.given_fields hjob
    refine reaches_actCmd (exec_jobSubmit w [] s) hl hc ?_
    rw [hrefuse, hstart, State.answers_settle]
    simp only [State.settle_job]
    exact ⟨State.answers_result _ _ _, hactive, hwin, hsess, hprio, hbase, hent, hvec, hseq, hshed,
      fun i hi => congrArg Job.active (hjobs i hi)⟩
  case resume =>
    intro s w c p j blob hl hc hrefuse hplan hlsess hfree hclear hins hcalm hlen herr hpoison hpages hrun
    obtain ⟨plain, heq⟩ := State.jobResume_starts hrefuse hplan hclear hlen herr hpoison []
    obtain ⟨o, hread, -⟩ := s.hostRead_out (windowWorld w.val) (c.u 48 8) (c.u 56 4)
    rw [hread] at heq
    have hconf : ∀ m, ((State.perf { s with out := o } c.session 14 (c.u 56 4)).session m).conf = (s.session m).conf :=
      fun m => State.session_of_perf (fun _ _ => rfl) { s with out := o } c.session 14 (c.u 56 4) m
    have hkeyed : ∀ m, ((State.perf { s with out := o } c.session 14 (c.u 56 4)).session m).state = (s.session m).state :=
      fun m => State.session_of_perf (fun _ _ => rfl) { s with out := o } c.session 14 (c.u 56 4) m
    obtain ⟨pz, arc, jobs, hstart, hjob, -⟩ := State.startJob_starts (s := State.perf { s with out := o } c.session 14 (c.u 56 4))
      (w := w.val) (c := c) (p := p) (inputs := []) (restore := fun _ u => u.putState (s.stateAddrs p (c.u 16 2)) plain) (fun u => ⟨_, rfl⟩) hplan
      ((State.lsessOf_congr (s := s) (t := State.perf { s with out := o } c.session 14 (c.u 56 4)) rfl hkeyed _ _).trans hlsess) hfree (by rw [hconf, hclear]; exact hins) hcalm
      ((State.jobPagesOk_perf { s with out := o } _ _ _ _ _ _ _).trans hpages) hrun
    obtain ⟨hactive, hwin, hsess, -⟩ := Job.given_fields hjob
    refine reaches_actCmd (exec_jobResume w blob [] s) hl hc ?_
    rw [heq, hstart, State.answers_settle]
    simp only [State.settle_job]
    exact ⟨State.answers_result _ _ _, hactive, hwin, hsess⟩

end Sys2Proof.Machine
end

