-- ==== Sys2Proof/Proofs/ResultAcks.lean ====
section
/-! PROOFS. RESULT_ACK (R167). -/

namespace Sys2Proof.Machine

theorem exec_resultAck (w : Win) (s : State) : exec (.resultAck w) s = actCmd (s.rbCmd w.val 0x61) (fun c s => s.resultAck w.val c) s := rfl

theorem Bytes.chunks_nil {α : Type} (n m : Nat) : Bytes.chunks n m ([] : List α) = [] := by
  cases m <;> rfl

/-- A list as long as a chunk is one chunk. -/
theorem Bytes.chunks_one {α : Type} {n : Nat} {b : List α} (hlen : b.length = n) (hn : 0 < n) (m : Nat) : Bytes.chunks n (m + 1) b = [b] := by
  cases b with
  | nil => exact absurd (Nat.lt_of_lt_of_eq hn hlen.symm) (Nat.lt_irrefl 0)
  | cons x r =>
    show (x :: r).take n :: Bytes.chunks n m ((x :: r).drop n) = _
    rw [List.take_of_length_le (Nat.le_of_eq hlen), List.drop_eq_nil_of_le (Nat.le_of_eq hlen), Bytes.chunks_nil]

/-- The entry that acknowledges the records of a stream up to one number. -/
def ackEntry (o q : Nat) : Bytes := Bytes.ofNat 2 o ++ List.replicate 6 0 ++ Bytes.ofNat 8 q

theorem ackEntry_length (o q : Nat) : (ackEntry o q).length = 16 := by simp [ackEntry]

theorem ackEntry_origin {o : Nat} (h : o < 256) (q : Nat) : Bytes.num (ackEntry o q) 0 2 = o := by
  unfold ackEntry
  rw [List.append_assoc]
  exact Bytes.num_of_ofNat (by omega) _

theorem ackEntry_seq (o : Nat) {q : Nat} (h : q < 2 ^ 64) : Bytes.num (ackEntry o q) 8 8 = q := by
  unfold ackEntry Bytes.num
  rw [Bytes.slice_append_right (by simp), List.length_append, Bytes.ofNat_length]
  show Bytes.toNat (Bytes.slice (Bytes.ofNat 8 q) 0 8) = _
  rw [Bytes.slice_ofNat, Bytes.toNat_ofNat_of_lt h]

/-- The origin's kind and the reserved bytes are zero. -/
theorem ackEntry_kind (o q : Nat) : Bytes.num (ackEntry o q) 2 1 = 0 ∧ Bytes.num (ackEntry o q) 3 5 = 0 := by
  unfold ackEntry Bytes.num
  constructor <;>
    rw [List.append_assoc, Bytes.slice_append_right (by simp), Bytes.ofNat_length, Bytes.slice_append_left (by decide)] <;> rfl

/-- The acknowledged records of a result slot. -/
def ResultSlot.ackedTo (r : ResultSlot) (q : Nat) : ResultSlot := { r with acked := BitVec.ofNat 64 q, unacked := min 255 (r.latest - q) }

theorem State.ackOne_stream {s : State} {w o q : Nat} (ho : o < 256) (hq : q < 2 ^ 64) (hbound : (s.stream o).bound = true)
    (hwin : (s.stream o).win = w) (hafter : (Tab.get {} s.results (64 * (s.stream o).win + (s.stream o).slot)).acked.toNat < q)
    (hlatest : q ≤ (Tab.get {} s.results (64 * (s.stream o).win + (s.stream o).slot)).latest) :
    s.ackOne w (ackEntry o q) = some { s with
      results := Tab.upd {} s.results (64 * (s.stream o).win + (s.stream o).slot) fun r => r.ackedTo q } := by
  obtain ⟨hkind, hzero⟩ := ackEntry_kind o q
  unfold State.ackOne
  simp only [hkind, hzero, ackEntry_origin ho, ackEntry_seq o hq, ho, hbound, hwin, ne_eq, not_true_eq_false, if_false, if_true,
    decide_true, beq_self_eq_true, Bool.and_self, Bool.not_true, Bool.false_eq_true]
  rw [hwin] at hafter hlatest
  rw [if_neg (Nat.not_lt.mpr hlatest), if_neg (Nat.not_le.mpr hafter)]
  rfl

/-- A list of one entry that is taken is answered with OK. -/
theorem State.resultAck_one {s t : State} {w : Nat} {c : Cmd} (hlen : c.params.length = 16) (h : s.ackOne w c.params = some t) :
    s.resultAck w c = t.finish w (.ok 0) := by
  unfold State.resultAck
  simp only [hlen, Bytes.chunks_one hlen (by decide), List.foldl_cons, List.foldl_nil, h]
  rfl

/-- Settles O26. -/
theorem resultsAreAcknowledged : Obligations.ResultsAreAcknowledged := by
  intro s w c o q hs hc ho hq hparams hbound hwin k r hafter hlatest
  have hack : s.ackOne w.val c.params = some { s with results := Tab.upd {} s.results k fun r => r.ackedTo q } := by
    rw [hparams]
    exact State.ackOne_stream ho hq hbound hwin hafter hlatest
  have hlen : c.params.length = 16 := by
    rw [hparams]
    exact ackEntry_length o q
  obtain ⟨win, m, hfinish, hmine, -⟩ := State.finish_eq (s := { s with results := Tab.upd {} s.results k fun r => r.ackedTo q })
    (State.running_of_rbCmd hc).1 (.ok 0)
  exact reaches_actCmd_to (exec_resultAck w s) hs.1 hc ((State.resultAck_one hlen hack).trans hfinish) hs.2 rfl
    ⟨rfl, Tab.get_upd_same ({} : ResultSlot) s.results k fun r => r.ackedTo q, fun j hj => Tab.get_upd_other ({} : ResultSlot) s.results (fun r => r.ackedTo q) hj, State.replied_of_finished (congrArg Window.slot hmine)⟩

end Sys2Proof.Machine
end

