-- ==== Sys2Proof/Proofs/Aborts.lean ====
section
/-! PROOFS. ABORT of a stream and of a session (R262). -/

namespace Sys2Proof.Machine

theorem exec_abort (w : Win) (s : State) : exec (.abort w) s = actCmd (s.abortOf w.val) (fun c s => s.abortRow w.val c) s := rfl

theorem State.abortOf_running {s : State} {w : Nat} (h : (s.window w).slot.abortCmd = none) : s.abortOf w = s.rbCmd w 0x60 := by
  unfold State.abortOf
  rw [h]

theorem State.finishAbort_running {s : State} {w : Nat} (h : (s.window w).slot.abortCmd = none) (c : Cmd) (r : Reply) :
    s.finishAbort w c r = s.finish w r := by
  unfold State.finishAbort
  rw [h]
  rfl

/-! The units that ABORT ends, by scope. -/

theorem State.abortRow_stream {s : State} {w : Nat} {c : Cmd} (hscope : c.u 16 1 = 0) (hlt : c.u 20 4 < 256)
    (hbound : (s.stream (c.u 20 4)).bound = true) (hwin : w = 64 ∨ (s.stream (c.u 20 4)).win = w) :
    s.abortRow w c = (s.endStream (c.u 20 4)).finishAbort w c (.ok 1) := by
  have hknown : (decide (255 < c.u 20 4) || !(s.stream (c.u 20 4)).bound) = false := by simp [hbound]; omega
  have hmine : (decide (w ≠ 64) && decide ((s.stream (c.u 20 4)).win ≠ w)) = false := by simpa [Decidable.or_iff_not_imp_left] using hwin
  unfold State.abortRow
  dsimp only
  rw [if_pos hscope, if_neg (by rw [hknown]; decide), if_neg (by rw [hmine]; decide)]

theorem State.abortRow_session {s : State} {w : Nat} {c : Cmd} (hscope : c.u 16 1 = 2) (hlt : c.u 20 4 < 16384)
    (hstate : (s.session (c.u 20 4)).state ≠ .free) (hwin : w = 64 ∨ (s.session (c.u 20 4)).window = w) :
    s.abortRow w c = (s.abortSession (c.u 20 4) stAborted).finishAbort w c (.ok 1) := by
  have hknown : (decide (16383 < c.u 20 4) || (s.session (c.u 20 4)).state == .free) = false := by simp [hstate]; omega
  have hmine : (decide (w ≠ 64) && !s.visible w (c.u 20 4)) = false := by
    rw [Bool.and_eq_false_imp, decide_eq_true_eq]
    intro hw
    rw [(State.visible_iff s w _).mpr ⟨hstate, hwin.resolve_left hw⟩]
    rfl
  unfold State.abortRow
  dsimp only
  rw [if_neg (by omega), if_neg (by omega), if_pos hscope, if_neg (by rw [hknown]; decide), if_neg (by rw [hmine]; decide)]

theorem State.abortRow_absent {s : State} {w : Nat} {c : Cmd} (h : (c.u 16 1 = 0 ∧ (s.stream (c.u 20 4)).bound = false)
    ∨ (c.u 16 1 = 1 ∧ (s.job (c.u 20 4)).active = false) ∨ (c.u 16 1 = 2 ∧ (s.session (c.u 20 4)).state = .free)) :
    s.abortRow w c = s.finishAbort w c (.ok 0) := by
  unfold State.abortRow
  dsimp only
  rcases h with ⟨hscope, hu⟩ | ⟨hscope, hu⟩ | ⟨hscope, hu⟩
  · rw [if_pos hscope, if_pos (by simp [hu])]
  · rw [if_neg (by omega), if_pos hscope, if_pos (by simp [hu])]
  · rw [if_neg (by omega), if_neg (by omega), if_pos hscope, if_pos (by simp [hu])]

/-! What ends. -/

theorem State.stream_of_endStream (s : State) {cs : Nat} (h : (s.stream cs).bound = true) : (s.endStream cs).stream cs = {} := by
  unfold State.endStream
  dsimp only
  rw [if_neg (by rw [h]; decide)]
  exact Tab.get_set_same ({} : Stream) (State.dropWork _ _ _).streams cs {}

/-- A session of a block outside a pair that is ended is left CLOSING. -/
theorem State.abortSession_closing {s : State} {sc : Nat} (hstate : (s.session sc).state ≠ .free) (hoff : s.fm.state = .off) (status : Nat) :
    ((s.abortSession sc status).session sc).state = .closing := by
  unfold State.abortSession
  dsimp only
  rw [if_neg (by simpa using hstate), if_neg (by rw [State.isStandby_off hoff]; decide)]
  generalize State.giveBack _ sc = u
  have hclosing : ((u.onSess sc Session.closing).session sc).state = .closing := by
    rw [State.session_of_onSess]
    rfl
  rw [State.sessState_of_beside (State.beside_sendCtx _ sc)]
  split
  · rw [State.sessState_of_beside (State.beside_dropPlant _ sc), hclosing]
  · rw [State.sessState_of_beside (State.beside_cut _ sc _ _ _)]
    exact (State.sessState_of_beside (State.beside_dropPlant _ sc) sc).trans hclosing

/-- Once the unit is ended, a running ABORT is replied to. -/
theorem State.finishAbort_replies {s t : State} {w : Nat} {c : Cmd} (hnone : (s.window w).slot.abortCmd = none) (hc : s.rbCmd w 0x60 = some c)
    (hwin : t.win = s.win) (r : Reply) : ∃ win rb m, t.finishAbort w c r = { t with win := win, rb := rb, msgs := m }
      ∧ (t.finishAbort w c r).Replied w c.tag c.opcode r := by
  have hw : t.window w = s.window w := by
    unfold State.window
    rw [hwin]
  have hrunning : (t.window w).slot.running = some c := by
    rw [hw]
    exact (State.running_of_rbCmd hc).1
  rw [State.finishAbort_running (by rw [hw]; exact hnone)]
  obtain ⟨win, m, hfinish, -, -⟩ := State.finish_eq hrunning r
  exact ⟨_, _, _, hfinish, (State.finish_replies hrunning r).1⟩

/-- Settles O25; that a session counts as one unit in the reply is the model's reading (log entry 59). -/
theorem abortEndsItsUnit : Obligations.AbortEndsItsUnit := by
  refine ⟨?stream, ?session, ?absent⟩
  case stream =>
    intro s w c hl hnone hc hscope hlt hbound hwin
    obtain ⟨win, rb, m, hfinish, hreplied⟩ := State.finishAbort_replies (t := s.endStream (c.u 20 4)) hnone hc
      (State.win_of_beside (s.beside_endStream _)) (.ok 1)
    refine reaches_actCmd (exec_abort w s) hl ((State.abortOf_running hnone).trans hc) ?_
    rw [State.abortRow_stream hscope hlt hbound hwin]
    refine ⟨?_, State.replied_settle.mpr hreplied⟩
    rw [State.settle_stream, hfinish]
    exact s.stream_of_endStream hbound
  case session =>
    intro s w c hl hnone hc hscope hlt hstate hwin hoff
    obtain ⟨win, rb, m, hfinish, hreplied⟩ := State.finishAbort_replies (t := s.abortSession (c.u 20 4) stAborted) hnone hc
      (congrArg Prod.fst (s.frontier_abortSession _ _)) (.ok 1)
    refine reaches_actCmd (exec_abort w s) hl ((State.abortOf_running hnone).trans hc) ?_
    rw [State.abortRow_session hscope hlt hstate hwin]
    refine ⟨?_, State.replied_settle.mpr hreplied⟩
    rw [State.settle_session, hfinish]
    exact State.abortSession_closing hstate hoff stAborted
  case absent =>
    intro s w c hs hnone hc habsent
    obtain ⟨win, rb, m, hfinish, hreplied⟩ := State.finishAbort_replies (t := s) hnone hc rfl (.ok 0)
    rw [hfinish] at hreplied
    exact reaches_actCmd_to (exec_abort w s) hs.1 ((State.abortOf_running hnone).trans hc) ((State.abortRow_absent habsent).trans hfinish)
      hs.2 rfl ⟨rfl, hreplied⟩

end Sys2Proof.Machine
end

