-- ==== Sys2Proof/Proofs/Completions.lean ====
section
/-! PROOFS. COMMAND_COMPLETE, MSG_SEND and NOTIFY (R42, R242, R369, R454, R473). -/

namespace Sys2Proof.Machine

theorem exec_commandComplete {w : Win} {d : DoneIn} {s : State} {c : Cmd} {r : Reply} (hc : (s.window w.val).slot.running = some c)
    (hr : (s.window w.val).slot.result = some r) : exec (.commandComplete w d) s
    = act (s.fcUp && (!s.rb.fcQueue.contains w.val || s.rb.fcQueue.head? == some w.val) && !roundaboutOps.contains c.opcode)
        (fun s => State.finish (s.cmdReads c.session d.ctl) w.val (if d.writeErr then { status := stFault } else r)) s := by
  show execCommandComplete w d s = _
  unfold execCommandComplete
  simp only [hc, hr]

theorem exec_msgSend (ready : Bool) (s : State) : exec (.msgSend ready) s = act (ready && !s.msgs.isEmpty) (fun s =>
    match s.msgs with
    | m :: r => State.emit { s with msgs := r } (.msg m.1 m.2)
    | [] => s) s := rfl

theorem exec_notify (e : EvIdx) (s : State) : exec (.notify e) s = actFiring e.val .notify (fun f s =>
    State.viMessage s (notifyTarget (s.event f.idx).target).1 (8 + (notifyTarget (s.event f.idx).target).2)) s := rfl

/-! The reads of control structures by a command (R369). -/

theorem State.cmdReads_nil (s : State) (sc : Nat) : s.cmdReads sc [] = s := by
  unfold State.cmdReads
  rw [List.filter_nil, ite_self]
  rfl

theorem State.cmdReads_ce (s : State) (sc k n : Nat) : s.cmdReads sc [.ce k n] = s.report { event := 0x0105, unitKind := k, unit := n } := by
  unfold State.cmdReads
  split <;> rfl

theorem Health.correctedCnt_of_flag (h : Health) : (h.flag (eventClass 0x0105)).correctedCnt = h.correctedCnt + 1 := rfl

/-- A corrected error is counted. -/
theorem State.report_correctedCnt (s : State) (k n : Nat) :
    (s.report { event := 0x0105, unitKind := k, unit := n }).health.correctedCnt = s.health.correctedCnt + 1 := by
  obtain ⟨ring, m, ws, b, l, c, h⟩ := s.report_health { event := 0x0105, unitKind := k, unit := n }
  rw [h]
  dsimp only
  exact s.health.correctedCnt_of_flag

/-! Messages. -/

/-- An event that fires is taken off the queue before its effect. -/
theorem actFiring_fires {s : State} {f : Firing} {fs : List Firing} {idx : Nat} {k : EvKind} (h : s.ptu.firing = f :: fs) (hidx : f.idx = idx)
    (hk : f.kind = k) (g : Firing → State → State) : actFiring idx k g s = act true (fun s => g f s.takeFiring) s := by
  have hfire : s.firingOf idx k = some f := by
    unfold State.firingOf
    rw [h]
    exact if_pos (by simp [hidx, hk])
  unfold actFiring
  rw [hfire]

theorem State.takeFiring_eq {s : State} {f : Firing} {fs : List Firing} (h : s.ptu.firing = f :: fs) :
    s.takeFiring = { s with ptu := { s.ptu with firing := fs, fired := s.ptu.fired + 1 } } := by
  unfold State.takeFiring
  rw [h]
  rfl

theorem State.mem_msgs_message (s : State) (vi v : Nat) : (vi, v % 2 ^ 16) ∈ (s.message vi v).msgs := by
  unfold State.message
  dsimp only
  split
  · assumption
  · exact List.mem_append_right _ (List.mem_singleton_self _)

/-- Settles O29. -/
theorem repliesAndMessages : Obligations.RepliesAndMessages := by
  refine ⟨?complete, ?send, ?notify⟩
  case complete =>
    intro s w err c r hs hfc hc hr hop hfirst reply
    have hguard : (s.fcUp && (!s.rb.fcQueue.contains w.val || s.rb.fcQueue.head? == some w.val) && !roundaboutOps.contains c.opcode) = true := by
      simp only [hfc, hop, Bool.true_and, Bool.not_false, Bool.and_true, Bool.or_eq_true, Bool.not_eq_true', List.contains_eq_mem,
        decide_eq_false_iff_not, beq_iff_eq]
      exact Decidable.not_or_of_imp hfirst
    constructor
    · obtain ⟨win, m, hfinish, -, -⟩ := State.finish_eq hc reply
      obtain ⟨hreplied, hnone, hslot⟩ := State.finish_replies hc reply
      rw [hfinish] at hreplied hnone hslot
      exact reaches_act_to (exec_commandComplete (d := { writeErr := err }) hc hr) hs.1 hguard (by rw [State.cmdReads_nil]; exact hfinish)
        (t := { s with win := win, rb := { s.rb with fcQueue := s.rb.fcQueue.erase w.val }, msgs := m }) hs.2 rfl ⟨rfl, hslot, hnone, hreplied⟩
    · intro k n
      have hrunning : ((s.report { event := 0x0105, unitKind := k, unit := n }).window w.val).slot.running = some c := by
        rw [State.report_window_slot]
        exact hc
      obtain ⟨win, m, hfinish, -, -⟩ := State.finish_eq hrunning reply
      obtain ⟨hreplied, hnone, -⟩ := State.finish_replies hrunning reply
      refine reaches_act (exec_commandComplete hc hr) hs.1 hguard ?_
      rw [State.cmdReads_ce]
      refine ⟨?_, by rw [State.settle_window_slot]; exact hnone, State.replied_settle.mpr hreplied⟩
      rw [State.settle_health, hfinish]
      exact s.report_correctedCnt k n
  case send =>
    intro s m r hs hm
    constructor
    · exact exec_act_to (exec_msgSend true s) hs.1 (by rw [hm]; rfl) (t := { s with msgs := r, out := .msg m.1 m.2 :: s.out })
        (by rw [hm]; rfl) hs.2 rfl
    · exact exec_idle_of_act (exec_msgSend false s) rfl
  case notify =>
    intro s e f fs hs hf hidx hk
    let g := (s.event e.val).target.toNat
    have htake := State.takeFiring_eq hf
    have he := (exec_notify e s).trans (actFiring_fires hf hidx hk _)
    obtain ⟨m, heffect, hmem⟩ : ∃ m, State.viMessage s.takeFiring (g / 32) (8 + g % 32)
        = { s with ptu := { s.ptu with firing := fs, fired := s.ptu.fired + 1 }, msgs := m }
        ∧ ((s.window (g / 32)).isOpen = true → (g / 32, ((s.window (g / 32)).vector.toNat + 8 + g % 32) % 2 ^ 16) ∈ m) := by
      rw [htake]
      by_cases hopen : (s.window (g / 32)).isOpen = true
      · refine ⟨_, (if_pos hopen).trans (State.message_frame _ _ _), fun _ => ?_⟩
        rw [Nat.add_assoc]
        exact State.mem_msgs_message _ _ _
      · exact ⟨s.msgs, if_neg hopen, fun h => absurd h hopen⟩
    refine reaches_act_to he hs.1 rfl (t := { s with ptu := { s.ptu with firing := fs, fired := s.ptu.fired + 1 }, msgs := m }) ?_ hs.2 rfl
      ⟨rfl, hmem⟩
    rw [hidx]
    exact heffect

end Sys2Proof.Machine
end

