-- ==== Sys2Proof/Proofs/TileWords.lean ====
section
/-! PROOFS. The words of a tile program that compute nothing (R133, R135, R138, R182). -/

namespace Sys2Proof.Machine

/-! What a change of one Arcade keeps of each. -/

theorem State.onArc_proj {α : Type} {p : Arcade → α} {f : Arcade → Arcade} (hp : ∀ x, p (f x) = p x) (s : State) (a b : Nat) :
    p ((s.onArc a f).arcade b) = p (s.arcade b) := by
  by_cases h : b = a
  · rw [h, State.arcade_of_onArc, hp]
  · rw [State.arcade_of_onArc_other _ _ h]

theorem State.Synced.onArc {s : State} (hs : s.Synced) {a : Nat} {f : Arcade → Arcade} (hf : ∀ x, (f x).integ = x.integ) :
    (s.onArc a f).Synced :=
  hs.congr rfl (State.onArc_proj (p := Arcade.integ) hf s a) (fun _ => rfl) (fun _ => rfl) rfl rfl rfl

/-! The row of a tile word (R128, R138, R181). -/

/-- The sequencer of an Arcade goes on with a program. -/
def State.runs (s : State) (a : Nat) (q : Prog) : State := s.onArc a fun c => { c with running := some q }

theorem State.runs_synced {s : State} (hs : s.Synced) (a : Nat) (q : Prog) : (s.runs a q).Synced := hs.onArc fun _ => rfl

theorem State.arcade_runs (s : State) (a : Nat) (q : Prog) : (s.runs a q).arcade a = { s.arcade a with running := some q } :=
  s.arcade_of_onArc a _

theorem State.arcade_runs_other (s : State) {a b : Nat} (h : b ≠ a) (q : Prog) : (s.runs a q).arcade b = s.arcade b :=
  s.arcade_of_onArc_other _ h

theorem State.sy_runs (s : State) (a : Nat) (q : Prog) (b : Nat) : ((s.runs a q).arcade b).sy = (s.arcade b).sy :=
  State.onArc_proj (p := Arcade.sy) (f := fun c => { c with running := some q }) (fun _ => rfl) s a b

section
variable {s : State} {a n : Nat} {p : Prog} {i : TileInstr} (hrun : (s.arcade a).running = some p) (hissued : p.atBoundary = false)
  (hinstr : p.instr = some (i, n))
include hrun hissued hinstr

/-- In a span that has issued a word may go on unless it follows writes of its program that are on their way. -/
theorem State.tileReady_of_instr {f : TileInstr → Bool} (hf : f i = true) (hsent : (i.ordered && s.sending a p) = false) :
    s.tileReady a f = true := by
  unfold State.tileReady
  simp only [hrun, hinstr, hf, hissued, hsent, Bool.false_and, Bool.not_false, Bool.and_self]

/-- In a span that has issued the row of a word is that word alone. -/
theorem State.tileRow_of_instr : s.tileRow a [] = State.afterInstr a (s.runInstr a p i n []) := by
  unfold State.tileRow
  simp only [hrun, hinstr]
  rw [if_neg (by decide)]
  unfold State.enterSpan
  rw [if_neg (by rw [hissued]; decide)]
  rfl

/-- A word that does not stop leaves its program at the Arcade. -/
theorem State.tileRow_runs {t : State} {q : Prog} {b : Bool} (h : s.runInstr a p i n [] = { s := t, p := q, wait := b }) :
    s.tileRow a [] = t.runs a q := by
  rw [State.tileRow_of_instr hrun hissued hinstr, h]
  rfl

end

theorem Ran.pass_sound {t : State} {q : Prog} (h : q.poisoned = false) (n : Nat) :
    Ran.pass { s := t, p := q } n = { s := t, p := { q with pc := q.pc + n } } := by
  unfold Ran.pass
  rw [if_neg fun hstop => hstop rfl, if_neg (by rw [h]; decide)]

/-! The rows, by the word they take. -/

theorem exec_nop (a : Arc) (s : State) : exec (.nop a) s = act (s.tileReady a.val fun i => i == .nop) (fun s => s.tileRow a.val []) s := rfl
theorem exec_seta (a : Arc) (s : State) : exec (.seta a) s = act (s.tileReady a.val TileInstr.isSeta) (fun s => s.tileRow a.val []) s := rfl
theorem exec_loop (a : Arc) (s : State) : exec (.loop a) s = act (s.tileReady a.val TileInstr.isLoop) (fun s => s.tileRow a.val []) s := rfl
theorem exec_endl (a : Arc) (s : State) : exec (.endl a) s = act (s.tileReady a.val fun i => i == .endl) (fun s => s.tileRow a.val []) s :=
  rfl
theorem exec_signal (a : Arc) (s : State) : exec (.signal a) s = act (s.tileReady a.val TileInstr.isSignal) (fun s => s.tileRow a.val []) s :=
  rfl
theorem exec_wait (a : Arc) (s : State) : exec (.wait a) s = act (s.tileReady a.val TileInstr.isWait) (fun s => s.tileRow a.val []) s := rfl

section
variable {s : State} {a : Arc} {n : Nat} {p : Prog} {i : TileInstr} {c : Instr} {f : TileInstr → Bool}
  (hs : s.Up) (hrun : (s.arcade a.val).running = some p) (hissued : p.atBoundary = false)
  (he : exec c s = act (s.tileReady a.val f) (fun s => s.tileRow a.val []) s) (hinstr : p.instr = some (i, n)) (hf : f i = true)
  (hsent : (i.ordered && s.sending a.val p) = false)
include hs hrun hissued he hinstr hf hsent

/-- A word that changes no more than its program's registers. -/
theorem reaches_registers {q : Prog} {b : Bool} (h : s.runInstr a.val p i n [] = { s := s, p := q, wait := b }) : Reaches c s fun t =>
    t = { s with arc := t.arc } ∧ t.arcade a.val = { s.arcade a.val with running := some q } ∧ ∀ b, b ≠ a.val → t.arcade b = s.arcade b :=
  reaches_act_to he hs.1 (State.tileReady_of_instr hrun hissued hinstr hf hsent) (State.tileRow_runs hrun hissued hinstr h)
    (State.runs_synced hs.2 _ _) rfl ⟨rfl, s.arcade_runs _ _, fun _ hb => s.arcade_runs_other hb _⟩

/-- A word that changes the state too. -/
theorem reaches_runs {t : State} {q : Prog} {b : Bool} (h : s.runInstr a.val p i n [] = { s := t, p := q, wait := b }) (ht : t.Synced)
    (hq : t.pending = s.pending) {P : State → Prop} (hp : P (t.runs a.val q)) : Reaches c s P :=
  reaches_act_to he hs.1 (State.tileReady_of_instr hrun hissued hinstr hf hsent) (State.tileRow_runs hrun hissued hinstr h)
    (State.runs_synced ht _ _) hq hp

end

/-! Counters (R135). -/

/-- A counter of an Arcade takes a value. -/
def State.counted (s : State) (a k v : Nat) : State := s.onArc a fun c => { c with sy := Tab.set 0 c.sy k v }

theorem State.counted_synced {s : State} (hs : s.Synced) (a k v : Nat) : (s.counted a k v).Synced := hs.onArc fun _ => rfl

theorem State.sy_counted (s : State) (a k v : Nat) : Tab.get 0 ((s.counted a k v).arcade a).sy k = v := by
  unfold State.counted
  rw [State.arcade_of_onArc]
  exact Tab.get_set_same 0 _ _ _

theorem State.sy_counted_other (s : State) (a k v : Nat) {d e : Nat} (h : d ≠ a ∨ e ≠ k) :
    Tab.get 0 ((s.counted a k v).arcade d).sy e = Tab.get 0 (s.arcade d).sy e := by
  unfold State.counted
  by_cases hd : d = a
  · rw [hd, State.arcade_of_onArc]
    exact Tab.get_set_other 0 _ _ (h.resolve_left fun hn => hn hd)
  · rw [State.arcade_of_onArc_other _ _ hd]

theorem State.signal_counts {s : State} {gen b k : Nat} (h : Tab.get 0 (s.arcade b).sy (syKey gen k) < 4095) :
    s.signal gen b k = s.counted b (syKey gen k) (Tab.get 0 (s.arcade b).sy (syKey gen k) + 1) := if_pos h

theorem State.signal_full {s : State} {gen b k : Nat} (h : 4095 ≤ Tab.get 0 (s.arcade b).sy (syKey gen k)) :
    s.signal gen b k = s.report { event := 0x0006, unitKind := 1, unit := b, detail := [BitVec.ofNat 8 k] } := if_neg (Nat.not_lt.mpr h)

theorem State.runInstr_signal {s : State} {p : Prog} (hsound : p.poisoned = false) (hrole : p.role ≠ .check) (a b k n : Nat) :
    s.runInstr a p (.signal b k) n [] = { s := s.signal p.gen b k, p := { p with pc := p.pc + n } } := by
  unfold State.runInstr
  dsimp only
  rw [if_neg (by simpa using hrole)]
  exact Ran.pass_sound hsound n

theorem State.runInstr_signal_check {s : State} {p : Prog} (hsound : p.poisoned = false) (hrole : p.role = .check) (a b k n : Nat) :
    s.runInstr a p (.signal b k) n [] = { s := s, p := { p with pc := p.pc + n } } := by
  unfold State.runInstr
  dsimp only
  rw [if_pos (by rw [hrole]; rfl)]
  exact Ran.pass_sound hsound n

theorem State.runInstr_wait_check {s : State} {p : Prog} (hsound : p.poisoned = false) (hrole : p.role = .check) (a c v tm n : Nat) :
    s.runInstr a p (.wait c v tm) n [] = { s := s, p := { p with pc := p.pc + n } } :=
  (if_pos (by rw [hrole]; rfl)).trans (Ran.pass_sound hsound n)

theorem State.runInstr_wait_met {s : State} {p : Prog} (hsound : p.poisoned = false) (hrole : p.role ≠ .check) {a c v : Nat}
    (h : v ≤ Tab.get 0 (s.arcade a).sy (syKey p.gen c)) (tm n : Nat) : s.runInstr a p (.wait c v tm) n []
      = { s := s.counted a (syKey p.gen c) (Tab.get 0 (s.arcade a).sy (syKey p.gen c) - v), p := { p with waiting := none, pc := p.pc + n } } :=
  (if_neg (by simpa using hrole)).trans ((if_pos h).trans (Ran.pass_sound (by exact hsound) n))

theorem State.runInstr_wait_unmet {s : State} {p : Prog} (hrole : p.role ≠ .check) {a c v : Nat}
    (h : Tab.get 0 (s.arcade a).sy (syKey p.gen c) < v) (tm n : Nat) : s.runInstr a p (.wait c v tm) n []
      = { s := s, p := { p with waiting := some (.counter c v tm (p.since s.now)) }, wait := true } :=
  (if_neg (by simpa using hrole)).trans (if_neg (Nat.not_le.mpr h))

/-- Settles O43. -/
theorem tileControlWords : Obligations.TileControlWords := by
  intro s a p n hs hrun hissued hsound goes
  refine ⟨?nop, ?seta, ?loop, ?endl, ?signal, ?wait⟩
  case nop =>
    intro hi
    exact reaches_registers hs hrun hissued (exec_nop a s) hi rfl rfl (Ran.pass_sound (by exact hsound) n)
  case seta =>
    intro ad src add imm hi
    exact reaches_registers hs hrun hissued (exec_seta a s) hi rfl rfl (Ran.pass_sound (by exact hsound) n)
  case loop =>
    intro c hi
    exact reaches_registers hs hrun hissued (exec_loop a s) hi rfl rfl (Ran.pass_sound (by exact hsound) n)
  case endl =>
    intro start left r hi hloops
    constructor <;> intro hleft
    · refine reaches_registers hs hrun hissued (exec_endl a s) hi rfl rfl (b := false) ?_
      unfold State.runInstr
      simp only [hloops, hleft, if_true]
    · refine reaches_registers hs hrun hissued (exec_endl a s) hi rfl rfl (b := false) ?_
      unfold State.runInstr
      simp only [hloops, Nat.not_lt.mpr hleft, if_false]
      exact Ran.pass_sound (by exact hsound) n
  case signal =>
    intro b c hi hsending v
    have hsent : (TileInstr.ordered (.signal b c) && s.sending a.val p) = false := by rw [hsending]; rfl
    refine ⟨fun hrole => ?_, fun hrole hv => ?_, fun hrole hv => ?_⟩
    · exact reaches_registers hs hrun hissued (exec_signal a s) hi rfl hsent (State.runInstr_signal_check hsound hrole _ _ _ _)
    · refine reaches_runs hs hrun hissued (exec_signal a s) hi rfl hsent (State.runInstr_signal hsound hrole _ _ _ _)
        (by rw [State.signal_counts hv]; exact State.counted_synced hs.2 _ _ _) (by rw [State.signal_counts hv]; rfl) ?_
      rw [State.signal_counts hv]
      refine ⟨rfl, ?_, fun d e h => ?_, by rw [State.arcade_runs]⟩
      · rw [State.sy_runs, State.sy_counted]
      · rw [State.sy_runs, State.sy_counted_other _ _ _ _ h]
    · refine reaches_runs hs hrun hissued (exec_signal a s) hi rfl hsent (State.runInstr_signal hsound hrole _ _ _ _)
        (by rw [State.signal_full hv]; exact State.report_synced hs.2 _) (by rw [State.signal_full hv]; rfl) ?_
      rw [State.signal_full hv]
      refine ⟨fun d e => ?_, by rw [State.arcade_runs], rfl⟩
      rw [State.sy_runs]
      rfl
  case wait =>
    intro c v tm hi
    refine ⟨fun hrole => ?_, fun hrole hv => ?_, fun hrole hv => ?_⟩
    · exact reaches_registers hs hrun hissued (exec_wait a s) hi rfl rfl (State.runInstr_wait_check hsound hrole _ _ _ _ _)
    · refine reaches_runs hs hrun hissued (exec_wait a s) hi rfl rfl (State.runInstr_wait_met hsound hrole hv _ _)
        (State.counted_synced hs.2 _ _ _) rfl ⟨rfl, ?_, fun e h => ?_, by rw [State.arcade_runs], fun b hb => ?_⟩
      · rw [State.sy_runs, State.sy_counted]
      · rw [State.sy_runs, State.sy_counted_other _ _ _ _ (.inr h)]
      · rw [State.arcade_runs_other _ hb]
        exact State.arcade_of_onArc_other _ _ hb
    · exact reaches_registers hs hrun hissued (exec_wait a s) hi rfl rfl (State.runInstr_wait_unmet hrole hv _ _)

end Sys2Proof.Machine
end

