-- ==== Sys2Proof/Proofs/Commits.lean ====
section
/-! PROOFS. COMMIT (R45, R257, R261). -/

namespace Sys2Proof.Machine

theorem exec_commit_epoch {e : EvIdx} {s : State} (h : s.ptu.atEpoch = true) : exec (.commit e) s = act false id s :=
  show execCommit e s = _ from if_pos h

/-- The phase time unit once a commit has fired: its entry has left the queue and the table. -/
def State.committed (s : State) (e : Nat) (fs : List Firing) : State :=
  { s with ptu := { s.ptu with firing := fs, fired := s.ptu.fired + 1, events := Tab.set {} s.ptu.events e {} } }

/-- What the commit of a firing entry does. -/
def State.commitEffect (f : Firing) (s : State) : State :=
  let w := (s.event f.idx).target.toNat
  let s := { s with ptu := { s.ptu with events := Tab.set {} s.ptu.events f.idx {} } }
  if (s.bank w).armed = some f.idx then s.commitRow w else s

theorem exec_commit {e : EvIdx} {s : State} {f : Firing} {fs : List Firing} (hepoch : s.ptu.atEpoch = false) (hf : s.ptu.firing = f :: fs)
    (hidx : f.idx = e.val) (hk : f.kind = .commit) : exec (.commit e) s = act true (fun s => s.takeFiring.commitEffect f) s :=
  (show execCommit e s = _ from if_neg (by rw [hepoch]; decide)).trans (actFiring_fires hf hidx hk _)

theorem State.commitEffect_eq {s : State} {f : Firing} {fs : List Firing} {e : Nat} (hf : s.ptu.firing = f :: fs) (hidx : f.idx = e) :
    s.takeFiring.commitEffect f = if (s.bank (s.event e).target.toNat).armed = some e
      then (s.committed e fs).commitRow (s.event e).target.toNat else s.committed e fs := by
  rw [State.takeFiring_eq hf]
  subst hidx
  rfl

/-! The outcome of a commit. -/

/-- The window's last outcome. -/
def Window.outcome (x : Window) (r : Reply) (e : Nat) : Window := { x with lastStatus := r.status, lastDetail := r.detail, lastEpoch := e }

/-- The last effect of a commit: the window's outcome and its message. -/
def State.recordCommit (s : State) (w : Nat) (r : Reply) (e : Nat) : State := (s.onWin w fun x => x.outcome r e).viMessage w 1

theorem State.recordCommit_eq (s : State) (w : Nat) (r : Reply) (e : Nat) :
    ∃ win m, s.recordCommit w r e = { s with win := win, msgs := m } ∧ Tab.get {} win w = (s.window w).outcome r e := by
  refine ⟨(s.onWin w fun x => x.outcome r e).win, (s.recordCommit w r e).msgs, ?_, s.window_of_onWin w _⟩
  unfold State.recordCommit
  rw [State.viMessage_frame]
  rfl

/-- The bank that a failed commit leaves. -/
def Bank.unarmed (b : Bank) (e : Nat) : Bank := { b with armed := none, armedEpoch := e }

theorem State.commitRow_fails {s : State} {w : Nat} {x : Reply} (hup : s.downFail w (s.bank w) = false)
    (hcheck : s.checkBank w s.epoch = some x) :
    s.commitRow w = (s.onBank w fun b => b.unarmed s.epoch).recordCommit w x s.epoch := by
  unfold State.commitRow
  simp only [hup, hcheck, Bool.false_eq_true, if_false]
  rfl

theorem State.commitRow_passes {s : State} {w : Nat} (hup : s.downFail w (s.bank w) = false) (hcheck : s.checkBank w s.epoch = none) :
    s.commitRow w = ((((s.onBank w fun b => b.unarmed s.epoch).onBank w fun b => { b with items := [] }).applyBank w (s.bank w)).measureCommit w
      (s.bank w)).recordCommit w (.ok 0) s.epoch := by
  unfold State.commitRow
  simp only [hup, hcheck, Bool.false_eq_true, if_false]
  rfl

/-! A bank of one fraction (R175). -/

theorem State.beside_onStream (s : State) (cs : Nat) (f : Stream → Stream) : (s.onStream cs f).beside = s.beside := rfl
theorem State.beside_onResult (s : State) (cs : Nat) (f : ResultSlot → ResultSlot) : (s.onResult cs f).beside = s.beside := rfl
theorem State.beside_withStreams (s : State) (x : Tab Stream) : State.beside { s with streams := x } = s.beside := rfl

theorem State.beside_keepWindow (s : State) (cs : Nat) : (s.keepWindow cs).beside = s.beside := by
  unfold State.keepWindow
  dsimp only
  split
  · rfl
  · rw [State.beside_onStream]
    split
    · rw [State.beside_perf, State.beside_onResult]
    · rfl

/-- No VI is disabled by a bank without register items. -/
theorem State.disabled_none {s : State} {b : Bank} (h : b.writes = []) : s.disabled b = [] := by
  unfold State.disabled
  rw [List.filter_eq_nil_iff]
  intro n _
  have hpolicy : s.policyAfter b n = s.policyOf n := by
    unfold State.policyAfter
    rw [h]
    rfl
  rw [hpolicy, Bool.and_assoc, Bool.and_not_self]
  simp

/-- A bank of one fraction writes it to the plan, and beside that changes no more than work. -/
theorem State.applyBank_fraction {s : State} {w k n : Nat} {m : Bool} {b : Bank} (h : b.items = [.integ k m n]) :
    (s.applyBank w b).beside = (s.commitInteg w (k, m, n)).beside := by
  have hwrites : b.writes = [] := by unfold Bank.writes; rw [h]; rfl
  have hplan : b.planOf = none := by unfold Bank.planOf; rw [h]; rfl
  have hbinds : b.binds = [] := by unfold Bank.binds; rw [h]; rfl
  have hintegs : b.integs = [(k, m, n)] := by unfold Bank.integs; rw [h]; rfl
  unfold State.applyBank
  simp only [State.disabled_none hwrites, hwrites, hplan, hbinds, hintegs, List.foldl_nil, List.foldl_cons, List.isEmpty_cons,
    Bool.false_eq_true, if_false]
  rw [foldl_keeps State.beside _ fun s sc => ?_]
  · unfold State.coverStreams
    rw [State.beside_withStreams, foldl_keeps State.beside _ State.beside_keepWindow]
  · split
    · exact s.beside_sendCtx sc
    · rfl

theorem State.measureCommit_frame (s : State) (w : Nat) (b : Bank) : ∃ x, s.measureCommit w b = { s with boot := x } := by
  unfold State.measureCommit
  split
  · exact ⟨_, rfl⟩
  · exact ⟨s.boot, rfl⟩

/-- Settles O40. -/
theorem commitFires : Obligations.CommitFires := by
  refine ⟨fun s e hs hepoch => (exec_commit_epoch hepoch).trans (act_idle (by simp)), ?_⟩
  intro s e f fs hs hepoch hf hidx hk w r
  have he := exec_commit hepoch hf hidx hk
  have hr : s.committed e.val fs = r := rfl
  have heffect := State.commitEffect_eq hf hidx
  rw [hr] at heffect
  refine ⟨fun hother => ?_, fun harmed hup x hcheck => ?_, fun k m n harmed hitems hup hcheck => ?_⟩
  · exact exec_act_to he hs.1 rfl (heffect.trans (if_neg hother)) hs.2 rfl
  · obtain ⟨banks, hbanks, hbank⟩ : ∃ banks, r.onBank w (fun b => b.unarmed s.epoch) = { r with banks := banks }
        ∧ Tab.get {} banks w = (s.bank w).unarmed s.epoch := ⟨_, rfl, State.bank_of_onBank r w fun b => b.unarmed s.epoch⟩
    obtain ⟨win, msgs, hrecord, houtcome⟩ := State.recordCommit_eq { r with banks := banks } w x s.epoch
    refine reaches_act_to he hs.1 rfl (t := { r with win := win, banks := banks, msgs := msgs }) ?_ hs.2 rfl ⟨rfl, ?_, ?_, ?_, ?_, ?_⟩
    · rw [heffect, if_pos harmed, State.commitRow_fails hup hcheck]
      exact (congrArg (fun u : State => u.recordCommit w x s.epoch) hbanks).trans hrecord
    · exact (congrArg Bank.items hbank :)
    · exact (congrArg Bank.armed hbank :)
    · exact congrArg Window.lastStatus houtcome
    · exact congrArg Window.lastDetail houtcome
    · exact congrArg Window.lastEpoch houtcome
  · refine reaches_act he hs.1 rfl ?_
    rw [heffect, if_pos harmed, State.commitRow_passes hup hcheck, show r.epoch = s.epoch from rfl]
    generalize hu : (r.onBank w fun b => b.unarmed s.epoch).onBank w (fun b => { b with items := [] }) = u
    have hbank : u.bank w = { (s.bank w).unarmed s.epoch with items := [] } := by
      rw [← hu, State.bank_of_onBank, State.bank_of_onBank]
      rfl
    have hbeside := State.applyBank_fraction (s := u) (w := w) hitems
    have hbanks : (u.applyBank w (r.bank w)).bank w = u.bank w := (congrArg (fun b : Beside => b.rest.bank w) hbeside :)
    have hplans : (u.applyBank w (r.bank w)).plan w = (u.commitInteg w (k, m, n)).plan w :=
      (congrArg (fun b : Beside => b.rest.plan w) hbeside :)
    generalize u.applyBank w (r.bank w) = v at hbanks hplans
    obtain ⟨boot, hmeasure⟩ := v.measureCommit_frame w (r.bank w)
    obtain ⟨win, msgs, hrecord, houtcome⟩ := State.recordCommit_eq { v with boot := boot } w (.ok 0) s.epoch
    rw [hmeasure, hrecord]
    refine ⟨?_, ?_, ?_, ?_, ?_⟩
    · rw [State.settle_bank]
      exact congrArg Bank.items (hbanks.trans hbank)
    · rw [State.settle_bank]
      exact congrArg Bank.armed (hbanks.trans hbank)
    · rw [State.settle_window_proj Window.lastStatus fun _ _ _ _ => rfl]
      exact congrArg Window.lastStatus houtcome
    · rw [State.settle_window_proj Window.lastEpoch fun _ _ _ _ => rfl]
      exact congrArg Window.lastEpoch houtcome
    · rw [State.settle_plan]
      refine (congrArg (fun x : ViPlan => (k, m, n) ∈ x.fractions) (hplans.trans (u.plan_of_onPlan w _))).mpr ?_
      exact List.mem_append_right _ (List.mem_singleton_self _)

end Sys2Proof.Machine
end

