-- ==== Sys2Proof/Proofs/LinkAccount.lean ====
section
/-! PROOFS. What the end of work, the start of programs and a takeover leave of the link: all but its transmitter (R427, R439). -/

namespace Sys2Proof.Machine

/-- The link without the account of its transmitter. -/
def Fumas.standing (f : Fumas) : Fumas :=
  { f with txCounter := 0, txSeq := 0, sentAt := 0, replay := [], owed := [], waiting := [], credits := [], sinceBulk := 0 }

def State.standing (s : State) : Fumas := s.fm.standing

/-! Messages and cuts. -/

theorem State.standing_sendMessage (s : State) (type chan : Nat) (body : Bytes) : (s.sendMessage type chan body).standing = s.standing := by
  obtain ⟨k, q, t, r, ow, w, c, b, o, h⟩ := s.sendMessage_frame type chan body
  rw [h]
  rfl

theorem State.standing_onSess (s : State) (sc : Nat) (f : Session → Session) : (s.onSess sc f).standing = s.standing := rfl
theorem State.standing_onSlot (s : State) (cs seq : Nat) (f : SlotRun → SlotRun) : (s.onSlot cs seq f).standing = s.standing := rfl
theorem State.standing_dropWork (s : State) (f : Prog → Bool) (g : Check → Bool) : (s.dropWork f g).standing = s.standing := rfl
theorem State.standing_settleKeys (s : State) (sc : Nat) : (s.settleKeys sc).standing = s.standing := rfl

theorem State.standing_ite {c : Prop} [Decidable c] {x y : State} {f : Fumas} (hx : x.standing = f) (hy : y.standing = f) :
    (if c then x else y).standing = f := by
  split
  · exact hx
  · exact hy

theorem State.standing_sendFold (s : State) (sc rseq : Nat) (tag : BitVec 128) (time : Nat) (void : Bool) :
    (s.sendFold sc rseq tag time void).standing = s.standing :=
  State.standing_ite (s.standing_sendMessage _ _ _) rfl

theorem State.standing_sendCut (s : State) (sc no high : Nat) : (s.sendCut sc no high).standing = s.standing :=
  State.standing_ite (s.standing_sendMessage _ _ _) rfl

theorem State.standing_takeCut (s : State) (sc : Nat) (k : CutKind) (nonce : BitVec 256) (waiter : Option Nat) :
    (s.takeCut sc k nonce waiter).standing = s.standing := by
  unfold State.takeCut
  split
  · exact State.standing_sendCut _ _ _ _
  · exact State.standing_ite rfl rfl

theorem State.standing_takeDueCuts (s : State) (sel : Nat → Bool) : (s.takeDueCuts sel).standing = s.standing :=
  foldl_keeps State.standing _ (fun s _ => s.standing_takeCut _ _ _ _) _ _

theorem State.standing_cut (s : State) (sc : Nat) (k : CutKind) (nonce : BitVec 256) (waiter : Option Nat) :
    (s.cut sc k nonce waiter).standing = s.standing := by
  unfold State.cut
  refine State.standing_ite rfl (State.standing_ite ?_ rfl)
  rw [State.standing_takeCut, State.standing_takeDueCuts]

/-! The end of work. -/

theorem State.standing_void (s : State) (sc rseq : Nat) : (s.void sc rseq).standing = s.standing := by
  have hvoided : (s.voided sc rseq).standing = s.standing := State.standing_sendFold _ _ _ _ _ _
  rcases s.void_cases sc rseq with h | h | h <;> rw [h]
  · exact hvoided
  · rw [State.standing_cut, hvoided]

theorem State.standing_unbound (s : State) (x : Tab Stream) (r : Tab ResultSlot) (e : Tab Event) :
    State.standing { s with streams := x, results := r, ptu := { s.ptu with events := e } } = s.standing := rfl

theorem State.standing_endStream (s : State) (cs : Nat) : (s.endStream cs).standing = s.standing := by
  unfold State.endStream
  dsimp only
  split
  · rfl
  · rw [State.standing_settleKeys, State.standing_unbound, State.standing_dropWork]
    exact foldl_keeps State.standing _ (fun s _ => s.standing_void _ _) _ s

theorem State.standing_endStreams (l : List Nat) (s : State) : (l.foldl (fun s cs => s.endStream cs) s).standing = s.standing :=
  foldl_keeps State.standing _ (fun s _ => s.standing_endStream _) _ _

theorem State.standing_zeroisePages (s : State) (pages : List Nat) (toPool emergency : Bool) :
    (s.zeroisePages pages toPool emergency).standing = s.standing := by
  unfold State.zeroisePages
  dsimp only
  rw [foldl_keeps State.standing _ fun s n => by split <;> rfl]
  exact foldl_keeps State.standing _ (by intros; rfl) _ _

theorem State.standing_releaseRegions (s : State) (sc : Nat) : (s.releaseRegions sc).standing = s.standing := by
  unfold State.releaseRegions
  refine foldl_keeps State.standing _ (fun s x => ?_) _ _
  dsimp only
  split
  · rfl
  · split <;> rfl

theorem State.standing_keys (s : State) (k : Keys) : State.standing { s with keys := k } = s.standing := rfl

theorem State.standing_giveBack (s : State) (sc : Nat) : (s.giveBack sc).standing = s.standing := by
  unfold State.giveBack
  rw [State.standing_keys, State.standing_onSess, State.standing_releaseRegions, State.standing_zeroisePages]

theorem State.standing_forgotten (s : State) (sc : Nat) (x : Tab Session) (p : Tab ViPlan) :
    State.standing { s.forgetSession sc with sess := x, plans := p } = s.standing := rfl

theorem State.standing_endStandby (s : State) (sc : Nat) : (s.endStandby sc).standing = s.standing := by
  unfold State.endStandby
  rw [State.standing_forgotten, State.standing_giveBack, State.standing_dropWork, State.standing_endStreams]

/-! The start of programs. -/

theorem State.standing_startGroup (s : State) (cs seq g : Nat) (p : Plan) (es : List Nat) :
    (s.startGroup cs seq g p es).standing = s.standing := by
  refine foldl_keeps State.standing _ (fun s e => ?_) _ _
  split <;> rfl

theorem State.standing_sessionFault (s : State) (sc : Nat) (r : HRec) : (s.sessionFault sc r).standing = s.standing :=
  State.standing_ite rfl rfl

theorem State.standing_copyBuffer (s : State) (sc : Nat) (src dst : Buffer) : (s.copyBuffer sc src dst).standing = s.standing :=
  State.standing_ite (foldl_keeps State.standing _ (by intros; rfl) _ _) (s.standing_sessionFault _ _)

theorem State.standing_copyBuffers (s : State) (sc : Nat) (src dst : List Buffer) : (s.copyBuffers sc src dst).standing = s.standing :=
  foldl_keeps State.standing _ (fun s _ => State.standing_ite rfl (s.standing_copyBuffer _ _ _)) _ _

theorem State.standing_startRuns (s : State) (cs seq : Nat) : (s.startRuns cs seq).standing = s.standing := by
  unfold State.startRuns
  dsimp only
  split
  · rfl
  · split
    · split
      · rw [State.standing_startGroup, State.standing_onSlot]
      · split
        · rw [State.standing_startGroup, State.standing_onSlot]
        · rfl
    · rw [foldl_keeps State.standing _ fun s es => ?_]
      · have hwindow : ∀ (c : Prop) [Decidable c] (u : State) (src dst : List Buffer) (sc : Nat), u.standing = s.standing →
            (if c then u.copyBuffers sc src dst else u).standing = s.standing :=
          fun _ _ u src dst sc h => State.standing_ite ((u.standing_copyBuffers sc src dst).trans h) h
        split
        · split
          · split
            · split
              · rw [State.standing_startGroup, State.standing_startGroup]
                exact hwindow _ _ _ _ _ rfl
              · rw [State.standing_startGroup]
                exact hwindow _ _ _ _ _ rfl
            · rw [State.standing_startGroup]
              exact hwindow _ _ _ _ _ rfl
          · exact hwindow _ _ _ _ _ rfl
        · split
          · split
            · split
              · rw [State.standing_startGroup, State.standing_startGroup, State.standing_startGroup]
                exact hwindow _ _ _ _ _ rfl
              · rw [State.standing_startGroup, State.standing_startGroup]
                exact hwindow _ _ _ _ _ rfl
            · rw [State.standing_startGroup, State.standing_startGroup]
              exact hwindow _ _ _ _ _ rfl
          · exact hwindow _ _ _ _ _ rfl
      · rw [foldl_keeps State.standing _ fun s e => ?_, State.standing_copyBuffers, State.standing_copyBuffers]
        split <;> rfl

/-! A takeover (R439). -/

theorem State.standing_formFallback (s : State) (cs seq status : Nat) : (s.formFallback cs seq status).standing = s.standing := by
  unfold State.formFallback
  split <;> rfl

theorem State.standing_formDecided (s : State) (cs seq status : Nat) : (s.formDecided cs seq status).standing = s.standing := by
  unfold State.formDecided
  split
  · rfl
  · exact State.standing_ite rfl rfl

theorem State.standing_reserveOpen (s : State) (cs : Nat) : (s.reserveOpen cs).standing = s.standing := by
  refine foldl_keeps State.standing _ (fun s y => ?_) _ _
  dsimp only
  split
  · exact (State.standing_formDecided _ _ _ _).trans rfl
  · split
    · exact (State.standing_formFallback _ _ _ _).trans rfl
    · split
      · exact (State.standing_formFallback _ _ _ _).trans rfl
      · rfl

theorem State.standing_runCovered (s : State) (sc : Nat) : (s.runCovered sc).standing = s.standing := by
  refine foldl_keeps State.standing _ (fun s cs => ?_) _ _
  dsimp only
  split
  · exact s.standing_endStream cs
  · split
    · exact s.standing_reserveOpen cs
    · exact (foldl_keeps State.standing _ (fun s _ => s.standing_startRuns _ _) _ _).trans (s.standing_reserveOpen cs)

theorem State.standing_takeOver (s : State) (sc : Nat) : (s.takeOver sc).standing = s.standing := by
  unfold State.takeOver
  rw [State.standing_runCovered, State.standing_cut]
  exact foldl_keeps State.standing _ (fun s _ => s.standing_void _ _) _ _

/-! Leaving the pair (R432). -/

theorem State.onKeySlot_frame (s : State) (n : Nat) (f : KeySlot → KeySlot) : ∃ k, s.onKeySlot n f = { s with keys := k } := ⟨_, rfl⟩

theorem State.draws_frame (s : State) : ∃ t, s.draw.2.draw.2 = { s with trng := t } := by
  obtain ⟨t, ht⟩ : ∃ t, s.draw.2 = { s with trng := t } := ⟨_, s.draw_frame⟩
  obtain ⟨v, hv⟩ : ∃ v, s.draw.2.draw.2 = { s.draw.2 with trng := v } := ⟨_, s.draw.2.draw_frame⟩
  exact ⟨v, hv.trans (by rw [ht])⟩

/-- A key slot is overwritten from the generator, and cleared. -/
theorem State.clearSlot_frame (s : State) (n : Nat) : ∃ k t, s.clearSlot n = { s with keys := k, trng := t } := by
  unfold State.clearSlot
  split
  · obtain ⟨k, h⟩ := s.onKeySlot_frame n fun _ => {}
    exact ⟨k, s.trng, h⟩
  · obtain ⟨t, ht⟩ := s.draws_frame
    obtain ⟨k, h⟩ := s.draw.2.draw.2.onKeySlot_frame n fun _ => {}
    exact ⟨k, t, h.trans (by rw [ht])⟩

theorem State.dropPairKey_frame (s : State) : ∃ k t, s.dropPairKey = { s with keys := k, trng := t } := by
  unfold State.dropPairKey
  split
  · exact s.clearSlot_frame _
  · exact ⟨s.keys, s.trng, rfl⟩

theorem State.standing_unpaired (s : State) (x : Tab Session) : (State.uncover { s with sess := x }).standing = s.standing := rfl

theorem State.standing_dropPairKey (s : State) : s.dropPairKey.standing = s.standing := by
  obtain ⟨k, t, h⟩ := s.dropPairKey_frame
  rw [h]
  rfl

theorem State.linkOff_fm (s : State) (st : FmState) : (s.linkOff st).fm = s.standing.unjoined st := rfl

/-- What stands of a link that is left. -/
theorem State.leavePair_fm (s : State) (st : FmState) : (s.leavePair st).fm = s.fm.unjoined st := by
  unfold State.leavePair
  dsimp only
  rw [State.linkOff_fm, State.standing_dropPairKey, State.standing_unpaired, foldl_keeps State.standing _ State.standing_endStandby]
  rfl

theorem State.linkOff_domain (s : State) (st : FmState) : (s.linkOff st).pm.domains.getLsbD 36 = false := by
  simp only [State.linkOff, BitVec.getLsbD_and]
  rw [show (~~~(BitVec.ofNat 38 (2 ^ 36))).getLsbD 36 = false by decide, Bool.and_false]

theorem State.leavePair_domain (s : State) (st : FmState) : (s.leavePair st).pm.domains.getLsbD 36 = false := State.linkOff_domain _ st

/-- No session stands in a role once the pair is left. -/
theorem State.leavePair_unpaired (s : State) (st : FmState) (n : Nat) : ((s.leavePair st).session n).pair = .unpaired := by
  unfold State.leavePair
  dsimp only
  generalize List.foldl _ s _ = u
  obtain ⟨k, t, h⟩ := (State.uncover { u with sess := Tab.mapVals {} u.sess fun _ x => x.unpair }).dropPairKey_frame
  rw [h]
  exact congrArg Session.pair (Tab.get_mapVals (d := ({} : Session)) u.sess (fun _ x => x.unpair) n rfl)

theorem State.leavePair_win (s : State) (st : FmState) : (s.leavePair st).win = s.win := by
  have hwin : ∀ (s : State) (sc : Nat), (s.endStandby sc).win = s.win := fun s sc => congrArg Prod.fst (s.frontier_endStandby sc)
  have hends := foldl_keeps State.win _ hwin (s.inRole .standby) s
  unfold State.leavePair
  dsimp only
  generalize List.foldl _ s _ = u at hends
  obtain ⟨k, t, h⟩ := (State.uncover { u with sess := Tab.mapVals {} u.sess fun _ x => x.unpair }).dropPairKey_frame
  rw [h]
  exact hends

end Sys2Proof.Machine
end

