-- ==== Sys2Proof/Proofs/Link.lean ====
section
/-! PROOFS. The rows of the Fumas link (R426, R427, R430, R431, R439). -/

namespace Sys2Proof.Machine

theorem exec_aliveFault (s : State) : exec .aliveFault s = act (s.joined && !s.silent 1000)
    (fun s => { s with fm := { s.fm with aliveFlag := true, aliveCnt := s.fm.aliveCnt + 1 } }) s := rfl
theorem exec_linkDown (s : State) : exec .linkDown s = act (s.fm.up && s.silent 2000) State.linkFails s := rfl
theorem exec_nak (ack : BitVec 16) (s : State) : exec (.nak ack) s = act s.fm.up (fun s => s.nakRow ack) s := rfl
theorem exec_idle (s : State) : exec .idle s
    = act (s.fm.linked && (s.fm.next.isNone || decide (256 ≤ s.fm.replay.length)) && decide (s.fm.sentAt + 100 ≤ s.now)) (fun s => s.sendBare 0) s :=
  rfl
theorem exec_flitReceived (b : Bytes) (s : State) : exec (.flitReceived b) s = act s.fm.linked (fun s => s.flitRow b) s := rfl
theorem exec_partnerLost (s : State) : exec .partnerLost s = act (s.joined && s.silent 1000) State.failover s := rfl

theorem exec_joinTimeout {w : Win} {d : DoneIn} {s : State} {c : Cmd} (hc : (s.window w.val).slot.running = some c)
    (hr : (s.window w.val).slot.result = none) : exec (.commandComplete w d) s = act (s.fcUp && c.opcode == 0xA0 && s.joinOverdue)
      (fun s => State.finish (State.leavePair { s with fm := { s.fm with lastDetail := BitVec.ofNat 8 s.fm.joinBound.2 } } .off) w.val
        { status := stFault, detail := s.fm.joinBound.2 }) s := by
  show execCommandComplete w d s = _
  unfold execCommandComplete
  simp only [hc, hr]

/-! A pair that is lost (R393). -/

/-- A block that has lost its partner is degraded. -/
theorem State.degradedNow_of_lost {s : State} (h : s.fm.lostPartner = true) : s.degradedNow = true := by
  unfold State.degradedNow
  rw [h, Bool.or_true]

theorem State.settle_degraded_of_lost {t : State} (s : State) (h : t.fm.lostPartner = true) : (s.settle t).health.degraded = true :=
  (State.settle_degraded s t).trans (State.degradedNow_of_lost h)

/-- The link as it stands down. -/
def State.downed (s : State) : State := { s with fm := { s.fm with linkDownFlag := true, linkDownCnt := s.fm.linkDownCnt + 1 } }

/-- A joined block whose link is down leaves its pair, and its partner is lost. -/
theorem State.linkFails_joined {s : State} (h : s.fm.state = .joined) :
    s.linkFails = State.leavePair { s.downed with fm := { s.downed.fm with lostPartner := true } } .linkDown := if_pos (by rw [beq_iff_eq]; exact h)

theorem State.joinFails_eq {s : State} {w : Nat} (h : s.fm.joinWin = some w) (r : Reply) :
    s.joinFails r = (State.leavePair { s with fm := { s.fm with lastDetail := BitVec.ofNat 8 r.detail } } .off).result w r := by
  unfold State.joinFails
  rw [h]

/-- A join whose link is down ends. -/
theorem State.linkFails_joining {s : State} {w : Nat} (h : s.fm.state = .attesting ∨ s.fm.state = .syncing) (hw : s.fm.joinWin = some w) :
    s.linkFails = (State.leavePair { s.downed with fm := { s.downed.fm with lastDetail := 0 } } .off).result w { status := stFault } := by
  have hne : ¬(s.downed.fm.state == .joined) = true := by
    show ¬(s.fm.state == .joined) = true
    rcases h with h | h <;> rw [h] <;> decide
  exact (if_neg hne).trans (State.joinFails_eq (s := s.downed) hw _)

/-- What the end of a command leaves of a pair that is left. -/
theorem State.settle_leavePair (s u : State) (st : FmState) : (s.settle (u.leavePair st)).fm = u.fm.unjoined st
    ∧ (s.settle (u.leavePair st)).pm.domains.getLsbD 36 = false ∧ ∀ n, ((s.settle (u.leavePair st)).session n).pair = .unpaired := by
  rw [State.settle_fm, State.settle_pm, State.leavePair_fm]
  exact ⟨rfl, State.leavePair_domain u st, fun n => by rw [State.settle_session]; exact u.leavePair_unpaired st n⟩

/-- The block without its partner. -/
def State.bereft (s : State) : State :=
  { s with fm := { s.fm with lostFlag := true, lostCnt := s.fm.lostCnt + 1, lostPartner := true } }

/-- A failover leaves the pair with the partner lost. -/
theorem State.failover_left (s : State) : s.failover.fm = s.bereft.fm.unjoined .partnerLost ∧ s.failover.pm.domains.getLsbD 36 = false := by
  have hfailover : s.failover = ((s.inRole .standby).foldl (fun (s : State) sc => s.takeOver sc) s.bereft).leavePair .partnerLost := rfl
  have hstanding := foldl_keeps State.standing _ State.standing_takeOver (s.inRole .standby) s.bereft
  rw [hfailover]
  generalize List.foldl (fun (s : State) sc => s.takeOver sc) s.bereft (s.inRole .standby) = v at hstanding
  rw [State.leavePair_fm]
  exact ⟨(congrArg (fun f : Fumas => f.unjoined .partnerLost) hstanding :), v.leavePair_domain _⟩

/-! Flits without payload. -/

theorem State.sendBare_eq (s : State) (kind : Nat) : ∃ ow, s.sendBare kind = { s with
    fm := { s.fm with sentAt := s.now, owed := ow }
    out := .flit (flitBytes kind 0 s.fm.owing.1 s.fm.owing.2 (s.fm.txSeq - 1).toNat s.fm.rxSeq.toNat 0 []) :: s.out } := ⟨_, rfl⟩

/-! A NAK (R427). -/

theorem State.emits_flits (l : List Flit) (s : State) :
    l.foldl (fun (s : State) x => s.emit (.flit x.bytes)) s = { s with out := (l.map fun x => Out.flit x.bytes).reverse ++ s.out } := by
  induction l generalizing s with
  | nil => rfl
  | cons x l ih =>
    rw [List.foldl_cons, ih]
    simp only [State.emit, List.map_cons, List.reverse_cons, List.append_assoc, List.singleton_append]

/-- The flits after an acknowledged one. -/
def Fumas.unacked (f : Fumas) (ack : BitVec 16) : List Flit := f.replay.filter fun x => seqAfter x.seq ack

/-- The NAKs of the flit that a NAK names. -/
def State.nakCount (s : State) (ack : BitVec 16) : Nat := if s.fm.nakSeq = ack then (s.takeAck ack 0 0).fm.naks + 1 else 1

/-- The link once a NAK has been taken. -/
def State.naked (s : State) (ack : BitVec 16) : State :=
  { (s.takeAck ack 0 0).nakSeen with fm := { (s.takeAck ack 0 0).nakSeen.fm with naks := s.nakCount ack, nakSeq := ack } }

theorem State.naked_frame (s : State) (ack : BitVec 16) : ∃ cr, s.naked ack = { s with fm := { s.fm with
    replay := s.fm.unacked ack, credits := cr, naks := s.nakCount ack, nakSeq := ack, nakFlag := true, nakCnt := s.fm.nakCnt + 1 } } :=
  ⟨_, rfl⟩

theorem State.nakRow_replays {s : State} {ack : BitVec 16} (h : s.nakCount ack < 16) : s.nakRow ack = { s.naked ack with
    out := ((s.fm.unacked ack).map fun x => Out.flit x.bytes).reverse ++ s.out } := by
  have hreplay : s.nakRow ack = (s.naked ack).replayFrom ack := if_neg (Nat.not_le.mpr h)
  have hleft : (s.naked ack).fm.replay.filter (fun x => seqAfter x.seq ack) = s.fm.unacked ack := by
    show (s.fm.unacked ack).filter (fun x => seqAfter x.seq ack) = s.fm.unacked ack
    unfold Fumas.unacked
    rw [List.filter_filter]
    simp only [Bool.and_self]
  rw [hreplay]
  unfold State.replayFrom
  rw [hleft, State.emits_flits]
  rfl

theorem State.takeAck_naks_le (s : State) (ack : BitVec 16) (chan k : Nat) : (s.takeAck ack chan k).fm.naks ≤ s.fm.naks := by
  show (if _ then 0 else s.fm.naks) ≤ s.fm.naks
  split
  · exact Nat.zero_le _
  · exact Nat.le_refl _

theorem State.nakCount_lt {s : State} (h : s.fm.naks < 15) (ack : BitVec 16) : s.nakCount ack < 16 := by
  have hle := s.takeAck_naks_le ack 0 0
  unfold State.nakCount
  split <;> omega

/-- Where nothing is acknowledged, the count of NAKs goes on. -/
theorem State.takeAck_naks {s : State} {ack : BitVec 16} (h : ∀ x ∈ s.fm.replay, seqAfter x.seq ack = true) (chan k : Nat) :
    (s.takeAck ack chan k).fm.naks = s.fm.naks := by
  have hall : s.fm.replay.filter (fun x => seqAfter x.seq ack) = s.fm.replay := List.filter_eq_self.mpr h
  show (if (s.fm.replay.filter fun x => seqAfter x.seq ack).length < s.fm.replay.length then 0 else s.fm.naks) = s.fm.naks
  rw [hall, if_neg (Nat.lt_irrefl _)]

/-! A flit in order. -/

/-- A flit is a kind, a byte of channels, its numbers and its payload, and the check over them. -/
theorem flitBytes_eq (kind chan retChan ret seq ack : Nat) (frag : Byte) (payload : Bytes) : ∃ rest : Bytes,
    flitBytes kind chan retChan ret seq ack frag payload = BitVec.ofNat 8 kind :: BitVec.ofNat 8 (chan + 4 * retChan + 16 * ret)
      :: (Bytes.ofNat 2 seq ++ rest) :=
  ⟨Bytes.ofNat 2 ack ++ [frag, 0] ++ Bytes.slice payload 0 52 ++ Bytes.ofNat 4 (crc32 ([BitVec.ofNat 8 kind, BitVec.ofNat 8 (chan + 4 * retChan + 16 * ret)] ++ Bytes.ofNat 2 seq
    ++ Bytes.ofNat 2 ack ++ [frag, 0] ++ Bytes.slice payload 0 52)).toNat, by simp [flitBytes]⟩

/-- What is sent as a flit has its length and its check. -/
theorem flitBytes_sound (kind chan retChan ret seq ack : Nat) (frag : Byte) (payload : Bytes) :
    let b := flitBytes kind chan retChan ret seq ack frag payload
    b.length = 64 ∧ (crc32 (b.take 60)).toNat = Bytes.num b 60 4 := by
  intro b
  obtain ⟨body, hlen, hb⟩ : ∃ body : Bytes, body.length = 60 ∧ b = body ++ Bytes.ofNat 4 (crc32 body).toNat :=
    ⟨_, by simp, rfl⟩
  rw [hb]
  refine ⟨by simp [hlen], ?_⟩
  rw [List.take_left' hlen]
  unfold Bytes.num
  rw [Bytes.slice_append_right (by omega), hlen]
  show _ = Bytes.toNat (Bytes.slice (Bytes.ofNat 4 (crc32 body).toNat) 0 4)
  rw [Bytes.slice_ofNat, Bytes.toNat_ofNat_of_lt (crc32 body).isLt]

theorem flitBytes_kind (chan retChan ret seq ack : Nat) (frag : Byte) (payload : Bytes) :
    Bytes.num (flitBytes 1 chan retChan ret seq ack frag payload) 0 1 = 1 := by
  obtain ⟨rest, h⟩ := flitBytes_eq 1 chan retChan ret seq ack frag payload
  rw [h]
  rfl

theorem flitBytes_seq (kind chan retChan ret ack : Nat) (n : BitVec 16) (frag : Byte) (payload : Bytes) :
    Bytes.num (flitBytes kind chan retChan ret n.toNat ack frag payload) 2 2 = n.toNat := by
  obtain ⟨rest, h⟩ := flitBytes_eq kind chan retChan ret n.toNat ack frag payload
  rw [h]
  show Bytes.num (Bytes.ofNat 2 n.toNat ++ rest) 0 2 = _
  exact Bytes.num_of_ofNat n.isLt rest

theorem State.flitRow_bad {s : State} {b : Bytes} (h : b.length ≠ 64) : s.flitRow b = (s.sendBare 2).nakSeen :=
  if_pos (by simp [h])

theorem State.linkGood_joined {s : State} (h : s.fm.state = .joined) : s.linkGood = s :=
  if_neg (by rw [h]; decide)

/-- A data flit in order on a joined link. -/
theorem State.flitRow_data {s : State} {b : Bytes} (hstate : s.fm.state = .joined) (hlen : b.length = 64)
    (hcrc : (crc32 (b.take 60)).toNat = Bytes.num b 60 4) (hkind : Bytes.num b 0 1 = 1)
    (hseq : BitVec.ofNat 16 (Bytes.num b 2 2) = s.fm.rxSeq + 1) : ∃ ack chan k,
    s.flitRow b = ((State.takeAck { s with fm := { s.fm with goodAt := s.now } } ack chan k).takeData b).pump := by
  refine ⟨BitVec.ofNat 16 (Bytes.num b 4 2), Bits.get (Bytes.num b 1 1) 2 2, Bits.get (Bytes.num b 1 1) 4 4, ?_⟩
  unfold State.flitRow
  simp only [hlen, hcrc, hkind, hseq, beq_self_eq_true, Bool.and_self, Nat.reduceLeDiff, decide_true, Bool.not_true, Bool.false_eq_true,
    if_false, if_true]
  exact congrArg (fun u : State => (u.takeData b).pump) (State.linkGood_joined (by exact hstate))

/-- Settles O56; that bare flits take no sequence number is the model's choice (log entry 30). -/
theorem linkRows : Obligations.LinkRows := by
  refine ⟨?alive, ?down, ?downJoining, ?overdue, ?idle, ?nak, ?nak16, ?bad, ?data, ?lost⟩
  case alive =>
    intro s hs hjoined hquiet
    exact exec_act_to (exec_aliveFault s) hs.1 (by rw [hjoined, hquiet]; rfl) rfl hs.2 rfl
  case down =>
    intro s hl hstate hsilent
    refine reaches_act (exec_linkDown s) hl (by simp [Fumas.up, hstate, hsilent]) ?_
    rw [State.linkFails_joined hstate]
    generalize hu : ({ s.downed with fm := { s.downed.fm with lostPartner := true } } : State) = u
    obtain ⟨hfm, hdomain, hunpaired⟩ := State.settle_leavePair s u .linkDown
    rw [hfm, State.settle_degraded_of_lost s (by rw [State.leavePair_fm, ← hu]; rfl)]
    subst hu
    exact ⟨rfl, rfl, rfl, rfl, rfl, hdomain, rfl, hunpaired⟩
  case downJoining =>
    intro s w hl hstate hwin hsilent
    refine reaches_act (exec_linkDown s) hl (by rcases hstate with h | h <;> simp [Fumas.up, h, hsilent]) ?_
    rw [State.linkFails_joining hstate hwin, State.answers_settle, State.settle_fm, State.settle_pm]
    have hfm := State.leavePair_fm { s.downed with fm := { s.downed.fm with lastDetail := 0 } } .off
    have hdomain := State.leavePair_domain { s.downed with fm := { s.downed.fm with lastDetail := 0 } } .off
    generalize State.leavePair { s.downed with fm := { s.downed.fm with lastDetail := 0 } } .off = v at hfm hdomain
    show v.fm.state = _ ∧ v.fm.joinWin = _ ∧ v.fm.linkDownFlag = _ ∧ v.fm.linkDownCnt = _ ∧ _ ∧ v.pm.domains.getLsbD 36 = _
    rw [hfm]
    exact ⟨rfl, rfl, rfl, rfl, State.answers_result _ _ _, hdomain⟩
  case overdue =>
    intro s w d c hl hfc hc hr hop hstate hwin hlate
    have hbound : s.fm.joinBound = (50000000, 0x25) := by unfold Fumas.joinBound; rw [hstate]; rfl
    have hoverdue : s.joinOverdue = true := by
      unfold State.joinOverdue
      rw [hwin, hbound]
      simpa using hlate
    have hfm := State.leavePair_fm { s with fm := { s.fm with lastDetail := 0x25 } } .off
    have hdomain := State.leavePair_domain { s with fm := { s.fm with lastDetail := 0x25 } } .off
    have hwins := State.leavePair_win { s with fm := { s.fm with lastDetail := 0x25 } } .off
    refine reaches_act (exec_joinTimeout hc hr) hl (by rw [hfc, hop, hoverdue]; rfl) ?_
    rw [hbound]
    generalize State.leavePair { s with fm := { s.fm with lastDetail := 0x25 } } .off = v at hfm hdomain hwins
    have hrunning : (v.window w.val).slot.running = some c := by
      unfold State.window
      rw [hwins]
      exact hc
    obtain ⟨win, m, hfinish, hmine, -⟩ := State.finish_eq hrunning { status := stFault, detail := 0x25 }
    obtain ⟨hreplied, hnone, -⟩ := State.finish_replies hrunning { status := stFault, detail := 0x25 }
    show (s.settle (v.finish w.val { status := stFault, detail := 0x25 })).fm.state = _ ∧ _
    rw [State.replied_settle, State.settle_window_slot, State.settle_fm, State.settle_pm]
    refine ⟨?_, ?_, ?_, ?_, hnone, hreplied⟩
    all_goals rw [hfinish]
    · exact (congrArg Fumas.state hfm).trans rfl
    · exact (congrArg Fumas.joinWin hfm).trans rfl
    · exact (congrArg Fumas.lastDetail hfm).trans rfl
    · exact hdomain
  case idle =>
    intro s hs hlinked hnext hsent
    obtain ⟨ow, h⟩ := s.sendBare_eq 0
    refine reaches_act_to (exec_idle s) hs.1 ?_ h hs.2 rfl ⟨rfl, rfl⟩
    have hquiet : (s.fm.next.isNone || decide (256 ≤ s.fm.replay.length)) = true := by
      rcases hnext with h | h <;> simp [h]
    rw [hlinked, hquiet]
    simpa using hsent
  case nak =>
    intro s ack hs hstate hnaks
    obtain ⟨cr, h⟩ := s.naked_frame ack
    have hrow := State.nakRow_replays (State.nakCount_lt hnaks ack)
    rw [h] at hrow
    exact reaches_act_to (exec_nak ack s) hs.1 (by simp [Fumas.up, hstate]) hrow hs.2 rfl ⟨rfl, hstate, rfl, rfl, rfl, rfl, rfl⟩
  case nak16 =>
    intro s ack hl hstate hnaks hseq hall
    obtain ⟨cr, h⟩ := s.naked_frame ack
    have hcount : 16 ≤ s.nakCount ack := by
      unfold State.nakCount
      rw [if_pos hseq, State.takeAck_naks hall, hnaks]
    have hrow : s.nakRow ack = (s.naked ack).linkFails := if_pos hcount
    refine reaches_act (exec_nak ack s) hl (by simp [Fumas.up, hstate]) ?_
    rw [hrow, State.linkFails_joined (by rw [h]; exact hstate)]
    generalize hu : ({ (s.naked ack).downed with fm := { (s.naked ack).downed.fm with lostPartner := true } } : State) = u
    obtain ⟨hfm, -, hunpaired⟩ := State.settle_leavePair s u .linkDown
    rw [hfm, State.settle_degraded_of_lost s (by rw [State.leavePair_fm, ← hu]; rfl), ← hu, h]
    rw [← hu, h] at hunpaired
    exact ⟨rfl, rfl, rfl, rfl, rfl, rfl, hunpaired⟩
  case bad =>
    intro s b hs hlinked hlen
    obtain ⟨ow, h⟩ := s.sendBare_eq 2
    exact reaches_act_to (exec_flitReceived b s) hs.1 hlinked ((State.flitRow_bad hlen).trans (congrArg State.nakSeen h)) hs.2 rfl
      ⟨rfl, rfl, rfl, rfl, rfl, rfl⟩
  case data =>
    intro s c ret n ack frag payload hs hstate hc hret hn
    obtain ⟨hlen, hcrc⟩ := flitBytes_sound 1 c ret n (s.fm.rxSeq + 1).toNat ack frag payload
    obtain ⟨ack', chan, k, h⟩ := State.flitRow_data hstate hlen hcrc (flitBytes_kind _ _ _ _ _ _ _)
      (by rw [flitBytes_seq, BitVec.ofNat_toNat, BitVec.setWidth_eq])
    generalize hu : (State.takeAck { s with fm := { s.fm with goodAt := s.now } } ack' chan k).takeData
      (flitBytes 1 c ret n (s.fm.rxSeq + 1).toNat ack frag payload) = u at h
    obtain ⟨q, t, r, ow, w, cr, bu, o, hpump⟩ := u.pumpLink_frame u.fm.waiting.length
    refine reaches_act_to (exec_flitReceived _ s) hs.1 (by simp [Fumas.linked, hstate]) (h.trans hpump) ?_ ?_ ?_
    · rw [← hu]; exact hs.2
    · rw [← hu]; rfl
    · rw [← hu]
      exact ⟨rfl, rfl, hstate, rfl⟩
  case lost =>
    intro s hl hjoined hsilent
    refine reaches_act (exec_partnerLost s) hl (by rw [hjoined, hsilent]; rfl) ?_
    obtain ⟨hfm, hdomain⟩ := s.failover_left
    have hlost : s.failover.fm.lostPartner = true := by
      rw [hfm]
      rfl
    rw [State.settle_fm, State.settle_pm, State.settle_degraded_of_lost s hlost, hfm]
    exact ⟨rfl, rfl, rfl, rfl, rfl, rfl, hdomain⟩

end Sys2Proof.Machine
end

