-- ==== Sys2Proof/Proofs/PairMessages.lean ====
section
/-! PROOFS. The messages of the pair (R249, R365, R424, R428, R430 to R440). -/

namespace Sys2Proof.Machine

/-! A message that is taken, and one that is not (R428). -/

/-- The block once it has heard a message of some number. -/
def State.heard (s : State) (n : BitVec 64) : State := { s with fm := { s.fm with rxCounter := n } }

theorem State.onMessage_takes {s : State} {h : LinkHead} (htag : h.tagOk = true) (hnew : s.fm.rxCounter < h.counter) (f : State → State) :
    s.onMessage h f = f (s.heard h.counter) :=
  if_pos (by rw [htag, decide_eq_true hnew]; rfl)

section
variable {s : State} {c : Instr} {h : LinkHead} {ready : State → Bool} {f : State → State} (he : exec c s = actMessage ready h f s)
include he

theorem exec_message_drops (hs : s.Up) (hready : ready s = true) (hbad : h.tagOk = false ∨ h.counter ≤ s.fm.rxCounter) :
    exec c s = .next { s with fm := { s.fm with authFlag := true, authCnt := s.fm.authCnt + 1 } } := by
  refine exec_act_to he hs.1 hready (if_neg ?_) hs.2 rfl
  rcases hbad with hbad | hbad
  · simp [hbad]
  · simp [BitVec.not_lt.mpr hbad]

variable (htag : h.tagOk = true) (hnew : s.fm.rxCounter < h.counter)
include htag hnew

theorem reaches_message (hl : s.live = true) (hready : ready s = true) {P : State → Prop} (hp : P (s.settle (f (s.heard h.counter)))) :
    Reaches c s P :=
  reaches_act he hl hready (by rw [State.onMessage_takes htag hnew]; exact hp)

theorem exec_message_to {t : State} (hl : s.live = true) (hready : ready s = true) (ht : f (s.heard h.counter) = t) (hs : t.Synced)
    (hq : t.pending = s.pending) : exec c s = .next t :=
  exec_act_to he hl hready ((State.onMessage_takes htag hnew f).trans ht) hs hq

theorem reaches_message_to {t : State} {P : State → Prop} (hl : s.live = true) (hready : ready s = true) (ht : f (s.heard h.counter) = t)
    (hs : t.Synced) (hq : t.pending = s.pending) (hp : P t) : Reaches c s P :=
  ⟨t, exec_message_to he htag hnew hl hready ht hs hq, hp⟩

/-- A message that changes one session. -/
theorem reaches_heard_session (hs : s.Up) (hready : ready s = true) {sc : Nat} {g : Session → Session}
    (ht : f (s.heard h.counter) = (s.heard h.counter).onSess sc g) : Reaches c s fun t =>
      t = { s with fm := { s.fm with rxCounter := h.counter }, sess := t.sess } ∧ t.session sc = g (s.session sc)
      ∧ ∀ n, n ≠ sc → t.session n = s.session n :=
  reaches_message_to he htag hnew hs.1 hready ht hs.2 rfl
    ⟨rfl, (s.heard h.counter).session_of_onSess sc g, fun _ hn => (s.heard h.counter).session_of_onSess_other g hn⟩

end

theorem exec_notice (h : LinkHead) (code : Byte) (s : State) : exec (.notice h code) s
    = actMessage (fun s => s.fm.linked) h (fun s => s.noticeRow code.toNat) s := rfl
theorem exec_ctx (h : LinkHead) (sc : Sc) (st : BitVec 3) (conf : Bool) (vi : Fin 64) (gen : BitVec 16) (s : State) :
    exec (.ctx h sc st conf vi gen) s = actMessage State.paired h (fun s => s.ctxRow sc.val st.toNat conf vi.val gen) s := rfl
theorem exec_key (h : LinkHead) (sc : Sc) (ep : BitVec 52) (v : BitVec 256) (s : State) :
    exec (.key h sc ep v) s = actMessage State.paired h (fun s => s.keyRow sc.val ep.toNat v) s := rfl
theorem exec_resv (h : LinkHead) (sc : Sc) (origin : BitVec 16) (seq rseq : Word) (s : State) :
    exec (.resv h sc origin seq rseq) s = actMessage State.paired h (fun s => s.resvRow sc.val origin.toNat seq.toNat rseq.toNat) s := rfl
theorem exec_foldMsg (h : LinkHead) (sc : Sc) (rseq : Word) (tag : BitVec 128) (time : Word) (void : Bool) (s : State) :
    exec (.foldMsg h sc rseq tag time void) s = actMessage State.paired h (fun s => s.foldRow sc.val rseq.toNat tag void) s := rfl
theorem exec_cut (h : LinkHead) (sc : Sc) (no high : Word) (s : State) :
    exec (.cut h sc no high) s = actMessage State.paired h (fun s => s.cutRow sc.val no.toNat) s := rfl
theorem exec_state (h : LinkHead) (sc : Sc) (buffer : BitVec 16) (lines : List Bytes) (s : State) :
    exec (.state h sc buffer lines) s = actMessage State.paired h (fun s => s.stateRow sc.val buffer.toNat lines) s := rfl
theorem exec_cmp (h : LinkHead) (cs : Cs) (seq : Word) (b : Bytes) (flags : BitVec 3) (sigs : List (BitVec 128))
    (hdr : Option (Word × Word × BitVec 6)) (s : State) : exec (.cmp h cs seq b flags sigs hdr) s
      = actMessage State.joined h (fun s => s.cmpRow cs.val seq.toNat { payload := b, flags := flags, sigs := sigs } hdr) s := rfl
theorem exec_sig (h : LinkHead) (sc : Sc) (span : Word) (g : BitVec 128) (s : State) :
    exec (.sig h sc span g) s = actMessage State.joined h (fun s => s.sigRow sc.val span.toNat g) s := rfl
theorem exec_part (h : LinkHead) (rdesc : Fin 256) (p : Fin 16) (rows : List Bytes) (d : BitVec 128) (s : State) :
    exec (.part h rdesc p rows d) s = actMessage State.joined h (fun s => s.partRow rdesc.val p.val rows d) s := rfl
theorem exec_join (h : LinkHead) (m : JoinMsg) (s : State) : exec (.join h m) s = actMessage (fun s => s.fm.joinWin.isSome
    && (s.fm.state == .attesting || s.fm.state == .syncing)) h (fun s => s.joinRow m) s := rfl
theorem exec_pairJoin (w : Win) (s : State) : exec (.pairJoin w) s = actCmd (s.fcCmd w.val 0xA0) (fun c s => s.pairJoin w.val c) s := rfl

theorem State.linked_joined {s : State} (h : s.joined = true) : s.fm.linked = true := by
  unfold State.joined at h
  rw [Bool.and_eq_true, beq_iff_eq] at h
  simp [Fumas.linked, h.1]

theorem State.paired_joined {s : State} (h : s.joined = true) : s.paired = true := by
  unfold State.paired
  rw [h]
  rfl

theorem State.paired_standby {s : State} {sc : Nat} (h : s.isStandby sc = true) : s.paired = true := by
  unfold State.isStandby at h
  rw [Bool.and_eq_true] at h
  exact h.1

theorem State.isStandby_heard (s : State) (n : BitVec 64) (sc : Nat) : (s.heard n).isStandby sc = s.isStandby sc := rfl
theorem State.partnerRuns_heard (s : State) (n : BitVec 64) (cs : Nat) : (s.heard n).partnerRuns cs = s.partnerRuns cs := rfl

/-- What does not pass its tag or its number is dropped. -/
theorem pairMessage_drops {s : State} {c : Instr} {h : LinkHead} (hs : s.Up) (hjoined : s.joined = true) (hc : pairHead c = some h)
    (hbad : h.tagOk = false ∨ h.counter ≤ s.fm.rxCounter) :
    exec c s = .next { s with fm := { s.fm with authFlag := true, authCnt := s.fm.authCnt + 1 } } := by
  cases c
  case notice => cases hc; exact exec_message_drops (exec_notice _ _ s) hs (State.linked_joined hjoined) hbad
  case ctx => cases hc; exact exec_message_drops (exec_ctx _ _ _ _ _ _ s) hs (State.paired_joined hjoined) hbad
  case key => cases hc; exact exec_message_drops (exec_key _ _ _ _ s) hs (State.paired_joined hjoined) hbad
  case resv => cases hc; exact exec_message_drops (exec_resv _ _ _ _ _ s) hs (State.paired_joined hjoined) hbad
  case foldMsg => cases hc; exact exec_message_drops (exec_foldMsg _ _ _ _ _ _ s) hs (State.paired_joined hjoined) hbad
  case cmp => cases hc; exact exec_message_drops (exec_cmp _ _ _ _ _ _ _ s) hs hjoined hbad
  case sig => cases hc; exact exec_message_drops (exec_sig _ _ _ _ s) hs hjoined hbad
  case part => cases hc; exact exec_message_drops (exec_part _ _ _ _ _ s) hs hjoined hbad
  case state => cases hc; exact exec_message_drops (exec_state _ _ _ _ s) hs (State.paired_joined hjoined) hbad
  case cut => cases hc; exact exec_message_drops (exec_cut _ _ _ _ s) hs (State.paired_joined hjoined) hbad
  all_goals exact absurd hc nofun

theorem ctx_goesOn {st : BitVec 3} (hfree : st ≠ 0) (hclosing : st ≠ 3) : ¬(st.toNat = 0 ∨ st.toNat = 3) := by
  rintro (h | h)
  · exact hfree (BitVec.eq_of_toNat_eq h)
  · exact hclosing (BitVec.eq_of_toNat_eq h)

/-! What reservations and folds do (R433). -/

/-- The reservation of a number by the home. -/
def Session.reserved (x : Session) (rseq : Nat) : Session := { x with rseqReservedMax := max x.rseqReservedMax rseq }

theorem State.resvRow_session {s : State} {sc origin seq rseq : Nat} (hstandby : s.isStandby sc = true) (hat0 : (origin == 0xFFFF && seq == 0) = false) :
    s.resvRow sc origin seq rseq = if decide (origin < 256) && (s.stream origin).bound && (s.stream origin).session == sc
      then (s.onSess sc fun x => x.reserved rseq).resvSlot origin seq rseq else s.onSess sc fun x => x.reserved rseq := by
  unfold State.resvRow
  simp only [hstandby, hat0, Bool.not_true, Bool.false_eq_true, if_false]
  rfl

/-- A reservation for a stream that no slot waits for. -/
theorem State.resvSlot_keeps {s : State} {cs : Nat} (h : ∀ y ∈ (s.stream cs).slots, y.rseq ≠ 0) (seq rseq : Nat) :
    s.resvSlot cs seq rseq = s.onStream cs fun st => { st with resv := st.resv ++ [(seq, rseq)] } := by
  have hbare : (s.stream cs).slots.filter (fun y => y.rseq == 0 && y.released.isNone) = [] :=
    List.filter_eq_nil_iff.mpr fun y hy => by simp [h y hy]
  unfold State.resvSlot
  rw [hbare]
  rfl

/-- A reservation for the slot that waits for it. -/
theorem State.resvSlot_numbers {s : State} {cs : Nat} {y : SlotRun} (h : (s.stream cs).slots = [y]) (hbare : y.rseq = 0)
    (hopen : y.released = none) (hmissing : y.missing = false) (hoverrun : y.overrun = false) (hfired : y.fired = false) (rseq : Nat) :
    s.resvSlot cs y.seq rseq = s.onSlot cs y.seq fun z => { z with rseq := rseq } := by
  have hwaits : (s.stream cs).slots.filter (fun y => y.rseq == 0 && y.released.isNone) = [y] := by
    rw [h]
    simp [hbare, hopen]
  unfold State.resvSlot
  rw [hwaits]
  simp only [List.find?_cons, beq_self_eq_true, List.head?_cons, hmissing, hoverrun, hfired, Bool.false_eq_true, if_false]
  rw [show s.renumber cs y.seq y.seq = s from if_pos rfl]

/-- What a fold leaves in the slots of its session's streams. -/
def Stream.foldedAt (x : Stream) (sc rseq : Nat) : Stream :=
  if x.session == sc then { x with slots := x.slots.map fun (y : SlotRun) => if y.rseq = rseq then { y with folded := true } else y } else x

/-- What a fold leaves in its session. -/
def Session.foldedBy (x : Session) (rseq : Nat) (tag : BitVec 128) (void : Bool) : Session :=
  let x := { x with rseqFoldedMax := max x.rseqFoldedMax rseq }
  if void then { x with voidedOpen := x.voidedOpen + 1, voids := addVoid rseq x.voids }
  else { x with acc := x.acc ^^^ tag, releasedOpen := x.releasedOpen + 1 }

theorem State.foldRow_standby {s : State} {sc : Nat} (h : s.isStandby sc = true) (rseq : Nat) (tag : BitVec 128) (void : Bool) :
    s.foldRow sc rseq tag void = { s with streams := Tab.mapVals {} s.streams fun _ x => x.foldedAt sc rseq }.onSess sc
      fun x => x.foldedBy rseq tag void :=
  if_neg (by rw [h]; decide)

theorem Stream.foldedAt_empty (sc rseq : Nat) : ({} : Stream).foldedAt sc rseq = {} := by
  unfold Stream.foldedAt
  split <;> rfl

section
variable {s : State} {h : LinkHead} (hs : s.Up) (htag : h.tagOk = true) (hnew : s.fm.rxCounter < h.counter)
include hs htag hnew

/-! Notices (R432, R439). -/

theorem notice_lost (hjoined : s.joined = true) : Reaches (.notice h 1) s fun t =>
    t.fm.state = .partnerLost ∧ t.fm.lostPartner = true ∧ t.fm.txKey = none := by
  refine reaches_message (exec_notice h 1 s) htag hnew hs.1 (State.linked_joined hjoined) ?_
  have hrow : (s.heard h.counter).noticeRow (1 : Byte).toNat = (s.heard h.counter).failover := if_pos hjoined
  rw [hrow, State.settle_fm, (State.failover_left _).1]
  exact ⟨rfl, rfl, rfl⟩

theorem notice_leave (hjoined : s.joined = true) : Reaches (.notice h 2) s fun t =>
    t.fm.state = .off ∧ t.fm.txKey = none ∧ t.pm.domains.getLsbD 36 = false ∧ t.fm.lostPartner = s.fm.lostPartner := by
  refine reaches_message (exec_notice h 2 s) htag hnew hs.1 (State.linked_joined hjoined) ?_
  have hrow : (s.heard h.counter).noticeRow (2 : Byte).toNat = (s.heard h.counter).leavePair .off := if_pos hjoined
  obtain ⟨hfm, hdomain, -⟩ := State.settle_leavePair s (s.heard h.counter) .off
  rw [hrow, hfm]
  exact ⟨rfl, rfl, hdomain, rfl⟩

theorem notice_other {code : Byte} (hjoined : s.joined = true) (hlost : code ≠ 1) (hleave : code ≠ 2) :
    exec (.notice h code) s = .next { s with fm := { s.fm with rxCounter := h.counter } } := by
  refine exec_message_to (exec_notice h code s) htag hnew hs.1 (State.linked_joined hjoined) ?_ hs.2 rfl
  have h1 : code.toNat ≠ 1 := fun hc => hlost (BitVec.eq_of_toNat_eq hc)
  have h2 : code.toNat ≠ 2 := fun hc => hleave (BitVec.eq_of_toNat_eq hc)
  exact (if_neg h1).trans (if_neg (by simp [h2]))

/-! The changes of a session (R424, R434). -/

theorem ctx_opens {sc : Sc} {st : BitVec 3} {conf : Bool} {vi : Fin 64} {gen : BitVec 16} (hpaired : s.paired = true) (hfree : st ≠ 0)
    (hclosing : st ≠ 3) (hstate : (s.session sc.val).state = .free) : Reaches (.ctx h sc st conf vi gen) s fun t =>
      t = { s with fm := { s.fm with rxCounter := h.counter }, sess := t.sess }
      ∧ t.session sc.val = { state := .opened, conf := conf, vi := vi.val, keyxGen := gen, rseqNext := 1, pair := .standby }
      ∧ ∀ n, n ≠ sc.val → t.session n = s.session n := by
  refine reaches_heard_session (exec_ctx h sc st conf vi gen s) htag hnew hs hpaired (g := fun _ => _) ?_
  unfold State.ctxRow
  dsimp only
  rw [if_neg (ctx_goesOn hfree hclosing), if_pos (beq_iff_eq.mpr (by exact hstate))]
  rfl

theorem ctx_changes {sc : Sc} {st : BitVec 3} {conf : Bool} {vi : Fin 64} {gen : BitVec 16} (hpaired : s.paired = true) (hfree : st ≠ 0)
    (hclosing : st ≠ 3) (hstate : (s.session sc.val).state ≠ .free) (hpair : (s.session sc.val).pair = .standby) :
    Reaches (.ctx h sc st conf vi gen) s fun t => t = { s with fm := { s.fm with rxCounter := h.counter }, sess := t.sess }
      ∧ t.session sc.val = { s.session sc.val with conf := conf, keyxGen := gen, state := if st = 4 then .faulted else (s.session sc.val).state }
      ∧ ∀ n, n ≠ sc.val → t.session n = s.session n := by
  have hfault : (st.toNat = 4) = (st = 4) := propext ⟨fun h => BitVec.eq_of_toNat_eq h, fun h => h ▸ rfl⟩
  refine reaches_heard_session (exec_ctx h sc st conf vi gen s) htag hnew hs hpaired
    (g := fun x => { x with conf := conf, keyxGen := gen, state := if st = 4 then .faulted else x.state }) ?_
  unfold State.ctxRow
  dsimp only
  rw [if_neg (ctx_goesOn hfree hclosing), if_neg (by rw [beq_iff_eq]; exact hstate), if_pos (beq_iff_eq.mpr (by exact hpair))]
  simp only [hfault]

theorem ctx_ends {sc : Sc} {st : BitVec 3} {conf : Bool} {vi : Fin 64} {gen : BitVec 16} (hpaired : s.paired = true)
    (hends : st = 0 ∨ st = 3) (hpair : (s.session sc.val).pair = .standby) :
    Reaches (.ctx h sc st conf vi gen) s fun t => t.session sc.val = {} := by
  refine reaches_message (exec_ctx h sc st conf vi gen s) htag hnew hs.1 hpaired ?_
  have hrow : (s.heard h.counter).ctxRow sc.val st.toNat conf vi.val gen = (s.heard h.counter).endStandby sc.val := by
    unfold State.ctxRow
    dsimp only
    rw [if_pos (by rcases hends with h | h <;> subst h <;> decide), if_pos (beq_iff_eq.mpr (by exact hpair))]
  rw [hrow, State.settle_session]
  exact Tab.get_set_same ({} : Session) _ sc.val {}

theorem key_waits {sc : Sc} {ep : BitVec 52} {v : BitVec 256} (hstandby : s.isStandby sc.val = true) (hstate : s.fm.state ≠ .syncing) :
    Reaches (.key h sc ep v) s fun t => t = { s with fm := { s.fm with rxCounter := h.counter }, sess := t.sess }
      ∧ t.session sc.val = { s.session sc.val with plantKey := some v, plantFrom := ep.toNat }
      ∧ ∀ n, n ≠ sc.val → t.session n = s.session n := by
  have hsync : ((s.heard h.counter).fm.state == .syncing) = false := beq_eq_false_iff_ne.mpr hstate
  refine reaches_heard_session (exec_key h sc ep v s) htag hnew hs (State.paired_standby hstandby)
    (g := fun x => { x with plantKey := some v, plantFrom := ep.toNat }) ?_
  refine (if_pos hstandby).trans ?_
  simp only [hsync, Bool.false_and, Bool.false_eq_true, if_false]

/-! Reservations, folds and cuts (R433). -/

theorem resv_notes {sc : Sc} {seq rseq : Word} (hstandby : s.isStandby sc.val = true) (hseq : seq ≠ 0) :
    Reaches (.resv h sc 0xFFFF seq rseq) s fun t => t = { s with fm := { s.fm with rxCounter := h.counter }, sess := t.sess }
      ∧ t.session sc.val = { s.session sc.val with rseqReservedMax := max (s.session sc.val).rseqReservedMax rseq.toNat }
      ∧ ∀ n, n ≠ sc.val → t.session n = s.session n := by
  refine reaches_heard_session (exec_resv h sc 0xFFFF seq rseq s) htag hnew hs (State.paired_standby hstandby)
    (g := fun x => x.reserved rseq.toNat) ?_
  have hne : seq.toNat ≠ 0 := fun h => hseq (BitVec.eq_of_toNat_eq h)
  exact (State.resvRow_session (s := s.heard h.counter) hstandby (by simp [hne])).trans (if_neg (by simp))

section
variable {sc : Sc} {cs : Cs} {seq rseq : Word} (hstandby : s.isStandby sc.val = true) (hbound : (s.stream cs.val).bound = true)
  (hsession : (s.stream cs.val).session = sc.val)
include hstandby hbound hsession

/-- A reservation for a stream of the session reaches it. -/
theorem resv_reaches_stream {P : State → Prop} {f : Stream → Stream}
    (hslot : ((s.heard h.counter).onSess sc.val fun x => x.reserved rseq.toNat).resvSlot cs.val seq.toNat rseq.toNat
      = ((s.heard h.counter).onSess sc.val fun x => x.reserved rseq.toNat).onStream cs.val f)
    (hp : ∀ t : State, t = { s with fm := { s.fm with rxCounter := h.counter }, sess := t.sess, streams := t.streams } →
      t.stream cs.val = f (s.stream cs.val) → P t) : Reaches (.resv h sc (BitVec.ofNat 16 cs.val) seq rseq) s P := by
  have horigin : (BitVec.ofNat 16 cs.val).toNat = cs.val := by
    have := cs.isLt
    simp only [BitVec.toNat_ofNat]
    omega
  have hmine : (decide (cs.val < 256) && ((s.heard h.counter).stream cs.val).bound && ((s.heard h.counter).stream cs.val).session == sc.val) = true := by
    have hb : ((s.heard h.counter).stream cs.val).bound = true := hbound
    have hse : ((s.heard h.counter).stream cs.val).session = sc.val := hsession
    simp [hb, hse, cs.isLt]
  have hne : (cs.val == 0xFFFF && seq.toNat == 0) = false := by
    have := cs.isLt
    simp; omega
  have hrow := State.resvRow_session (s := s.heard h.counter) (origin := cs.val) (rseq := rseq.toNat) hstandby hne
  rw [if_pos hmine, hslot] at hrow
  exact reaches_message_to (t := ((s.heard h.counter).onSess sc.val fun x => x.reserved rseq.toNat).onStream cs.val f)
    (exec_resv h sc (BitVec.ofNat 16 cs.val) seq rseq s) htag hnew hs.1 (State.paired_standby hstandby)
    (by rw [horigin]; exact hrow) hs.2 rfl (hp _ rfl (State.stream_of_onStream _ cs.val f))

theorem resv_keeps (hnumbered : ∀ y ∈ (s.stream cs.val).slots, y.rseq ≠ 0) : Reaches (.resv h sc (BitVec.ofNat 16 cs.val) seq rseq) s fun t =>
    t = { s with fm := { s.fm with rxCounter := h.counter }, sess := t.sess, streams := t.streams }
    ∧ t.stream cs.val = { s.stream cs.val with resv := (s.stream cs.val).resv ++ [(seq.toNat, rseq.toNat)] } :=
  resv_reaches_stream hs htag hnew hstandby hbound hsession (f := fun st => { st with resv := st.resv ++ [(seq.toNat, rseq.toNat)] })
    (State.resvSlot_keeps (s := (s.heard h.counter).onSess sc.val fun x => x.reserved rseq.toNat) hnumbered _ _) fun _ ht hst => ⟨ht, hst⟩

theorem resv_numbers {y : SlotRun} (hslots : (s.stream cs.val).slots = [y]) (hseq : y.seq = seq.toNat) (hbare : y.rseq = 0)
    (hopen : y.released = none) (hmissing : y.missing = false) (hoverrun : y.overrun = false) (hfired : y.fired = false) :
    Reaches (.resv h sc (BitVec.ofNat 16 cs.val) seq rseq) s fun t =>
      t = { s with fm := { s.fm with rxCounter := h.counter }, sess := t.sess, streams := t.streams }
      ∧ (t.stream cs.val).slots = [{ y with rseq := rseq.toNat }] := by
  have hslot := State.resvSlot_numbers (s := (s.heard h.counter).onSess sc.val fun x => x.reserved rseq.toNat) hslots hbare hopen hmissing
    hoverrun hfired rseq.toNat
  rw [hseq] at hslot
  refine resv_reaches_stream hs htag hnew hstandby hbound hsession hslot fun t ht hst => ⟨ht, ?_⟩
  rw [hst]
  dsimp only
  rw [hslots]
  simp only [List.map_cons, List.map_nil, hseq, if_true]

end

theorem fold_counts {sc : Sc} {rseq time : Word} {tag : BitVec 128} {void : Bool} (hstandby : s.isStandby sc.val = true) :
    Reaches (.foldMsg h sc rseq tag time void) s fun t =>
      t = { s with fm := { s.fm with rxCounter := h.counter }, sess := t.sess, streams := t.streams }
      ∧ t.session sc.val = (s.session sc.val).foldedBy rseq.toNat tag void ∧ (∀ n, n ≠ sc.val → t.session n = s.session n)
      ∧ ∀ cs, t.stream cs = (s.stream cs).foldedAt sc.val rseq.toNat :=
  reaches_message_to (exec_foldMsg h sc rseq tag time void s) htag hnew hs.1 (State.paired_standby hstandby)
    (State.foldRow_standby (s := s.heard h.counter) hstandby _ _ _) hs.2 rfl
    ⟨rfl, State.session_of_onSess _ _ _, fun _ hn => State.session_of_onSess_other _ _ hn,
      fun cs => Tab.get_mapVals (d := ({} : Stream)) s.streams (fun _ x => x.foldedAt sc.val rseq.toNat) cs (Stream.foldedAt_empty _ _)⟩

theorem cut_restarts {sc : Sc} {no high : Word} (hstandby : s.isStandby sc.val = true) : Reaches (.cut h sc no high) s fun t =>
    t = { s with fm := { s.fm with rxCounter := h.counter }, sess := t.sess }
      ∧ t.session sc.val = { (s.session sc.val).reopen .auto s.now with ckptNo := no.toNat - 1 }
      ∧ ∀ n, n ≠ sc.val → t.session n = s.session n :=
  reaches_heard_session (exec_cut h sc no high s) htag hnew hs (State.paired_standby hstandby)
    (g := fun x => { x.reopen .auto s.now with ckptNo := no.toNat - 1 }) (if_neg (by
      rw [State.isStandby_heard, hstandby]
      decide))

end

end Sys2Proof.Machine
end

