-- ==== Sys2Proof/Proofs/PairResults.lean ====
section
/-! PROOFS. Results across the pair, a join's messages and PAIR_JOIN (R365, R430 to R440). -/

namespace Sys2Proof.Machine

/-! A line of the Piazza (R89). -/

theorem Bytes.getD_slice (b : Bytes) {o n i : Nat} (h : i < n) : (Bytes.slice b o n).getD i 0 = b.getD (o + i) 0 := by
  rw [List.getD_eq_getElem?_getD, Bytes.getElem?_slice b h]
  rfl

/-- A line that is stored changes its own 64 bytes. -/
theorem Piazza.mem_writeLine (p : Piazza) (addr : Nat) (b : Bytes) (poison : Bool) (x : Nat) :
    Tab.get 0 (p.writeLine addr b poison).mem x = if x / 64 = addr / 64 then b.getD (x % 64) 0 else Tab.get 0 p.mem x := by
  unfold Piazza.writeLine
  rw [Piazza.touch_mem, Tab.get_setMany, Bytes.slice_length]
  by_cases h : x / 64 = addr / 64
  · rw [if_pos h, if_pos (by omega), Bytes.getD_slice _ (by omega), Nat.zero_add]
    congr 1
    omega
  · rw [if_neg h, if_neg (by omega)]

/-- The line that was stored reads back. -/
theorem Piazza.getMany_writeLine (p : Piazza) (addr : Nat) (b : Bytes) (poison : Bool) :
    Tab.getMany 0 (p.writeLine addr b poison).mem (addr / 64 * 64) 64 = Bytes.slice b 0 64 := by
  refine List.ext_getElem? fun i => ?_
  unfold Tab.getMany
  by_cases h : i < 64
  · rw [List.getElem?_map, List.getElem?_range h, Bytes.getElem?_slice b h]
    simp only [Option.map_some, Option.some.injEq]
    rw [Piazza.mem_writeLine, if_pos (by omega), Nat.zero_add]
    congr 1
    omega
  · rw [List.getElem?_eq_none (by simp; omega), List.getElem?_eq_none (by simp; omega)]

/-! Signatures of the partner (R437). -/

/-- The one element of a range that a test admits is found. -/
theorem List.find?_range_of_unique {n a : Nat} {p : Nat → Bool} (ha : a < n) (hp : p a = true) (hother : ∀ b, b < n → b ≠ a → p b = false) :
    (List.range n).find? p = some a := by
  cases hf : (List.range n).find? p with
  | none => exact absurd hp (List.find?_eq_none.mp hf a (List.mem_range.mpr ha))
  | some b =>
    by_cases hb : b = a
    · rw [hb]
    · have hfalse := hother b (List.mem_range.mp (List.mem_of_find?_eq_some hf)) hb
      rw [List.find?_some hf] at hfalse
      cases hfalse

theorem State.onArc_congr {s : State} {a : Nat} {f g : Arcade → Arcade} (h : f (s.arcade a) = g (s.arcade a)) : s.onArc a f = s.onArc a g :=
  congrArg (fun c => ({ s with arc := Tab.set {} s.arc a c } : State)) h

/-- A comparison waits while the primary's signature is not known. -/
theorem State.compareSpan_waits {s : State} {a : Nat} (h : ∀ k ∈ (s.arcade a).checks, k.primarySig = none) (inst : Nat) :
    s.compareSpan a inst = s := by
  unfold State.compareSpan
  split
  · rfl
  · next k hk => rw [h k (List.mem_of_find?_eq_some hk)]

/-- The check that waits for the partner's signature takes it, and goes on waiting for its own. -/
theorem State.sigRow_takes {s : State} {sc span a : Nat} {k : Check} (ha : a < 16) (hmine : (s.arcade a).checks = [k])
    (hothers : ∀ b, b < 16 → b ≠ a → (s.arcade b).checks = []) (hsession : k.session = sc) (hchecker : k.checker = 16)
    (hspan : k.instCount = span) (hwaits : k.checkerSig = none) (hprimary : k.primarySig = none) (g : BitVec 128) :
    s.sigRow sc span g = s.onArc a fun c => { c with checks := [{ k with checkerSig := some g }] } := by
  have hk : (k.session == sc && k.checker == 16 && k.instCount == span && k.checkerSig.isNone) = true := by
    simp [hsession, hchecker, hspan, hwaits]
  have hfind : (List.range 16).find? (fun a => (s.arcade a).checks.any fun k =>
      k.session == sc && k.checker == 16 && k.instCount == span && k.checkerSig.isNone) = some a := by
    refine List.find?_range_of_unique ha ?_ fun b hb hne => ?_
    · rw [hmine]
      simp only [List.any_cons, hk, Bool.true_or]
    · rw [hothers b hb hne]
      rfl
  have htake : (s.onCheck a span fun k => if k.session == sc && k.checker == 16 && k.instCount == span && k.checkerSig.isNone
      then { k with checkerSig := some g } else k) = s.onArc a fun c => { c with checks := [{ k with checkerSig := some g }] } := by
    refine State.onArc_congr ?_
    dsimp only
    rw [hmine]
    rw [List.map_singleton, if_pos hspan, if_pos hk]
  unfold State.sigRow
  simp only [hfind]
  rw [htake]
  refine State.compareSpan_waits (fun x hx => ?_) span
  rw [State.arcade_of_onArc, List.mem_singleton] at hx
  rw [hx]
  exact hprimary

theorem State.joined_of_partnerRuns {s : State} {cs : Nat} (h : s.partnerRuns cs = true) : s.joined = true := by
  unfold State.partnerRuns at h
  rw [Bool.and_eq_true, Bool.and_eq_true] at h
  exact h.1.1

theorem Bytes.slice_take (b : Bytes) (n : Nat) : Bytes.slice (b.take n) 0 n = Bytes.slice b 0 n := by
  unfold Bytes.slice
  rw [List.drop_zero, List.drop_zero, List.take_take, Nat.min_self]

/-- One line of a STATE message is stored at the head of its buffer. -/
theorem State.stateRow_line {s : State} {sc buffer : Nat} {p : Plan} {b : Buffer} (hstandby : s.isStandby sc = true)
    (hplan : (s.plan (s.session sc).window).running = some p) (hbuffer : p.buffers[buffer]? = some b) (hpages : 0 < b.pages)
    (hok : s.bufferOk 0x50 sc b = true) (l : Bytes) :
    s.stateRow sc buffer [l] = { s with pz := s.pz.writeLine b.base (l.take 64) (l.getD 64 0 != 0) } := by
  have hfits : (s.isStandby sc && decide ([l].length ≤ b.pages * 16)) = true := by
    rw [hstandby, Bool.true_and, decide_eq_true_eq, List.length_singleton]
    omega
  unfold State.stateRow
  simp only [hplan, hbuffer, hfits, hok, if_true, Bool.not_true, Bool.false_eq_true, if_false]
  rfl

/-- Sessions that the partner could not take. -/
def State.alone (s : State) (l : List Nat) : State :=
  l.foldl (fun (s : State) sc => s.onSess sc fun x => { x.unpair with alone := true }) s

theorem State.pair_alone (l : List Nat) (s : State) (n : Nat) (h : n ∈ l ∨ (s.session n).pair = .unpaired) :
    ((s.alone l).session n).pair = .unpaired := by
  unfold State.alone
  induction l generalizing s with
  | nil => exact h.resolve_left (List.not_mem_nil)
  | cons m l ih =>
    refine ih _ ?_
    by_cases hm : n = m
    · right
      rw [hm, State.session_of_onSess]
      rfl
    · rw [State.session_of_onSess_other _ _ hm]
      exact h.imp_left fun hn => (List.mem_cons.mp hn).resolve_left hm

theorem State.joinDone_refused {s : State} {l : List Nat} {n : Nat} (hn : n ∈ l) (hhome : (s.session n).pair = .home) :
    ((s.joinDone l).session n).pair = .unpaired := by
  refine State.pair_alone (l.filter fun sc => (s.session sc).pair == .home) s n (.inl ?_)
  rw [List.mem_filter, hhome]
  exact ⟨hn, rfl⟩

theorem State.joinRow_synced {s : State} {w : Nat} {refused : List Sc} (hwin : s.fm.joinWin = some w) (hstate : s.fm.state = .syncing) :
    s.joinRow (.synced refused) = (s.joinDone (refused.map (·.val))).result w (.ok 0) := by
  unfold State.joinRow
  dsimp only
  rw [if_pos (beq_iff_eq.mpr hstate), hwin]

section
variable {s : State} {h : LinkHead} (hs : s.Up) (htag : h.tagOk = true) (hnew : s.fm.rxCounter < h.counter)
include hs htag hnew

theorem cmp_reaches {cs : Cs} {seq : Word} {b : Bytes} {flags : BitVec 3} {sigs : List (BitVec 128)} (hruns : s.partnerRuns cs.val = true) :
    Reaches (.cmp h cs seq b flags sigs none) s fun t => t = { s with fm := { s.fm with rxCounter := h.counter }, streams := t.streams }
      ∧ t.stream cs.val = { s.stream cs.val with partner := some (seq.toNat, { payload := b, flags := flags, sigs := sigs }) }
      ∧ ∀ n, n ≠ cs.val → t.stream n = s.stream n :=
  reaches_message_to (exec_cmp h cs seq b flags sigs none s) htag hnew hs.1 (State.joined_of_partnerRuns hruns)
    (if_neg (by rw [State.partnerRuns_heard, hruns]; decide)) hs.2 rfl
    ⟨rfl, State.stream_of_onStream _ _ _, fun _ hn => State.stream_of_onStream_other _ _ hn⟩

theorem cmp_header_reaches {cs : Cs} {seq : Word} {b : Bytes} {flags : BitVec 3} {sigs : List (BitVec 128)} {phase time : Word}
    {bits : BitVec 6} {y : SlotRun} (hruns : s.partnerRuns cs.val = true) (hstandby : s.isStandby (s.stream cs.val).session = true)
    (hslots : (s.stream cs.val).slots = [y]) (hseq : y.seq = seq.toNat) :
    Reaches (.cmp h cs seq b flags sigs (some (phase, time, bits))) s fun t =>
      t = { s with fm := { s.fm with rxCounter := h.counter }, streams := t.streams }
      ∧ (t.stream cs.val).partner = some (seq.toNat, { payload := b, flags := flags, sigs := sigs })
      ∧ (t.stream cs.val).slots = [{ y with icPhase := phase, icTime := time, flags := (y.flags &&& 0xFE07) ||| (bits.setWidth 16 <<< 3) }] := by
  let heads (y : SlotRun) : SlotRun := { y with
    icPhase := phase, icTime := time, flags := (y.flags &&& 0xFE07) ||| (bits.setWidth 16 <<< 3) }
  generalize hu : (s.heard h.counter).onStream cs.val (fun st => { st with
    partner := some (seq.toNat, { payload := b, flags := flags, sigs := sigs }) }) = u
  have hst : u.stream cs.val = { s.stream cs.val with partner := some (seq.toNat, { payload := b, flags := flags, sigs := sigs }) } := by
    rw [← hu]
    exact State.stream_of_onStream _ _ _
  have hrow : (s.heard h.counter).cmpRow cs.val seq.toNat { payload := b, flags := flags, sigs := sigs } (some (phase, time, bits))
      = u.onSlot cs.val seq.toNat heads := by
    unfold State.cmpRow
    rw [if_neg (by rw [State.partnerRuns_heard, hruns]; decide)]
    dsimp only
    rw [hu, hst, if_pos (by rw [← hu]; exact hstandby)]
  refine reaches_message_to (exec_cmp h cs seq b flags sigs _ s) htag hnew hs.1 (State.joined_of_partnerRuns hruns) hrow
    (by rw [← hu]; exact hs.2) (by rw [← hu]; rfl) ⟨by rw [← hu]; rfl, ?_, ?_⟩
  · exact (congrArg Stream.partner (State.stream_of_onStream u cs.val _)).trans (congrArg Stream.partner hst)
  · refine (congrArg Stream.slots (State.stream_of_onStream u cs.val _)).trans ?_
    rw [hst]
    dsimp only
    rw [hslots, List.map_singleton, if_pos hseq]

theorem sig_reaches {sc : Sc} {span : Word} {g : BitVec 128} {a : Arc} {k : Check} (hjoined : s.joined = true)
    (hmine : (s.arcade a.val).checks = [k]) (hothers : ∀ b, b < 16 → b ≠ a.val → (s.arcade b).checks = []) (hsession : k.session = sc.val)
    (hchecker : k.checker = 16) (hspan : k.instCount = span.toNat) (hwaits : k.checkerSig = none) (hprimary : k.primarySig = none) :
    Reaches (.sig h sc span g) s fun t => t = { s with fm := { s.fm with rxCounter := h.counter }, arc := t.arc }
      ∧ t.arcade a.val = { s.arcade a.val with checks := [{ k with checkerSig := some g }] } ∧ ∀ b, b ≠ a.val → t.arcade b = s.arcade b :=
  reaches_message_to (exec_sig h sc span g s) htag hnew hs.1 hjoined
    (State.sigRow_takes (s := s.heard h.counter) a.isLt hmine hothers hsession hchecker hspan hwaits hprimary g)
    (State.Synced.onArc (s := s.heard h.counter) hs.2 fun _ => rfl) rfl
    ⟨rfl, State.arcade_of_onArc _ _ _, fun _ hb => State.arcade_of_onArc_other _ _ hb⟩

theorem part_reaches {rdesc : Fin 256} {p : Fin 16} {rows : List Bytes} {d : BitVec 128} {r : Reduction} {g : Nat} (hjoined : s.joined = true)
    (hplan : s.partPlan rdesc.val p.val = some (r, g)) : Reaches (.part h rdesc p rows d) s fun t =>
      t = { s with fm := { s.fm with rxCounter := h.counter }, arc := t.arc }
      ∧ t.arcade r.dest = { s.arcade r.dest with inFlight := (s.arcade r.dest).inFlight ++
          [{ gen := g, rdesc := rdesc.val, part := p.val, row := r.recvRow + p.val * r.rows
             rows := (rows.map readPartRow).map (·.1), digest := d, poison := (rows.map readPartRow).map (·.2) }] }
      ∧ ∀ b, b ≠ r.dest → t.arcade b = s.arcade b := by
  have hknown : (s.heard h.counter).partPlan rdesc.val p.val = some (r, g) := hplan
  refine reaches_message_to (exec_part h rdesc p rows d s) htag hnew hs.1 hjoined
    (t := (s.heard h.counter).onArc r.dest fun c => { c with inFlight := c.inFlight ++
      [{ gen := g, rdesc := rdesc.val, part := p.val, row := r.recvRow + p.val * r.rows
         rows := (rows.map readPartRow).map (·.1), digest := d, poison := (rows.map readPartRow).map (·.2) }] })
    ?_ (State.Synced.onArc (s := s.heard h.counter) hs.2 fun _ => rfl) rfl
    ⟨rfl, State.arcade_of_onArc _ _ _, fun _ hb => State.arcade_of_onArc_other _ _ hb⟩
  unfold State.partRow
  rw [hknown]

theorem state_reaches {sc : Sc} {buffer : BitVec 16} {l : Bytes} {p : Plan} {b : Buffer} (hstandby : s.isStandby sc.val = true)
    (hplan : (s.plan (s.session sc.val).window).running = some p) (hbuffer : p.buffers[buffer.toNat]? = some b) (hpages : 0 < b.pages)
    (hok : s.bufferOk 0x50 sc.val b = true) : Reaches (.state h sc buffer [l]) s fun t =>
      t = { s with fm := { s.fm with rxCounter := h.counter }, pz := t.pz }
      ∧ Tab.getMany 0 t.pz.mem (b.base / 64 * 64) 64 = Bytes.slice l 0 64
      ∧ ∀ a, a / 64 ≠ b.base / 64 → Tab.get 0 t.pz.mem a = Tab.get 0 s.pz.mem a := by
  refine reaches_message_to (exec_state h sc buffer [l] s) htag hnew hs.1 (State.paired_standby hstandby)
    (State.stateRow_line (s := s.heard h.counter) hstandby hplan hbuffer hpages hok l) hs.2 rfl ⟨rfl, ?_, fun a ha => ?_⟩
  · exact (Piazza.getMany_writeLine _ _ _ _).trans (Bytes.slice_take l 64)
  · exact (Piazza.mem_writeLine _ _ _ _ a).trans (if_neg ha)

/-! A join's messages (R430). -/

theorem join_version {w : Nat} {mode : Nat} {serial : BitVec 128} (hwin : s.fm.joinWin = some w) (hstate : s.fm.state = .attesting)
    (hserial : Bytes.toNat s.serial ≠ serial.toNat) : exec (.join h (.version Config.pairVersionMajor mode serial)) s
      = .next { s with fm := { { s.fm with rxCounter := h.counter } with
          partnerSerial := serial, partnerMode := mode, partnerHere := true, stepAt := s.now } } :=
  exec_message_to (exec_join h _ s) htag hnew hs.1 (by rw [hwin, hstate]; rfl) ((if_neg fun hne => hne rfl).trans (if_neg hserial)) hs.2 rfl

theorem join_refused {w : Nat} {mode : Nat} {serial : BitVec 128} (hwin : s.fm.joinWin = some w) (hstate : s.fm.state = .attesting) :
    Reaches (.join h (.version (Config.pairVersionMajor + 1) mode serial)) s fun t =>
      t.fm.state = .off ∧ t.fm.joinWin = none ∧ t.Answers w { status := stVersion } := by
  refine reaches_message (exec_join h _ s) htag hnew hs.1 (by rw [hwin, hstate]; rfl) ?_
  have hrow : (s.heard h.counter).joinRow (.version (Config.pairVersionMajor + 1) mode serial)
      = (s.heard h.counter).joinFails { status := stVersion } := if_pos (Nat.succ_ne_self _)
  rw [hrow, State.joinFails_eq (s := s.heard h.counter) hwin, State.answers_settle, State.settle_fm]
  refine ⟨?_, ?_, State.answers_result _ _ _⟩
  · exact (congrArg Fumas.state (State.leavePair_fm _ .off)).trans rfl
  · exact (congrArg Fumas.joinWin (State.leavePair_fm _ .off)).trans rfl

theorem join_synced {w : Nat} {refused : List Sc} (hwin : s.fm.joinWin = some w) (hstate : s.fm.state = .syncing) :
    Reaches (.join h (.synced refused)) s fun t =>
      t.fm.state = .joined ∧ t.fm.joinWin = none ∧ t.fm.lostPartner = false ∧ t.Answers w (.ok 0)
      ∧ ∀ sc ∈ refused, (s.session sc.val).pair = .home → (t.session sc.val).pair = .unpaired := by
  refine reaches_message (exec_join h _ s) htag hnew hs.1 (by rw [hwin, hstate]; rfl) ?_
  rw [State.joinRow_synced (s := s.heard h.counter) hwin hstate, State.answers_settle, State.settle_fm]
  refine ⟨rfl, rfl, rfl, State.answers_result _ _ _, fun sc hsc hhome => ?_⟩
  rw [State.settle_session]
  exact State.joinDone_refused (s := s.heard h.counter) (List.mem_map.mpr ⟨sc, hsc, rfl⟩) hhome

end

/-! PAIR_JOIN (R430 to R432). -/

/-- The link trains, and the window of its PAIR_JOIN waits outside the queue. -/
def State.training (s : State) (w : Nat) (c : Cmd) : State :=
  let s := s.onSlotOf w fun y => { y with begun := true }
  let s := s.domainUp 36
  let f := s.fm.unjoined .training
  State.sendBare { s with
    rb := { s.rb with fcQueue := s.rb.fcQueue.erase w }
    fm := { f with wantMode := c.u 16 1, joinWin := some w, expectDigest := c.params, goodAt := s.now, stepAt := s.now } } 3

theorem State.domainUp_getLsbD (s : State) (d : Nat) (h : d < 38) : (s.domainUp d).pm.domains.getLsbD d = true := by
  simp only [State.domainUp, BitVec.getLsbD_or, BitVec.getLsbD_ofNat, Nat.testBit_two_pow_self, h, decide_true, Bool.and_self, Bool.or_true]

section
variable {s : State} {w : Nat} {c : Cmd} (hbody : s.bodyDefined w msgPair = true) (hlen : c.params.length = 48) (hidle : s.fm.joinWin = none)
include hbody hlen hidle

/-- A well-formed PAIR_JOIN on a link that no other joins acts by its mode. -/
theorem State.pairJoin_byMode : s.pairJoin w c =
    if c.u 16 1 = 0 then (if s.joined then (s.sendNotice 2).leavePair .off else s).result w (.ok 0)
    else if s.joined then State.result { s with fm := { s.fm with lastDetail := 0x28 } } w (.denied 0x28)
    else if 2 < c.u 16 1 then s.result w (.denied 0)
    else if s.drbgBlocked then s.result w (.denied 0x0F)
    else s.training w c := by
  unfold State.pairJoin
  simp only [hbody, hlen, hidle, Bool.not_true, Bool.false_eq_true, if_false, Nat.lt_irrefl, Option.isSome_none]
  rfl

end

theorem Reaches.mono {c : Instr} {s : State} {P Q : State → Prop} (h : Reaches c s P) (hq : ∀ t, P t → Q t) : Reaches c s Q := by
  obtain ⟨t, he, hp⟩ := h
  exact ⟨t, he, hq t hp⟩

/-- Settles O57; that PAIR_JOIN leaves the Forecourt queue while it waits is the model's reading (log entry 61), as are the window that takes a
part (31), the answers for a mode out of range (63, 71), and the choices of log entries 29 and 32. -/
theorem pairMessages : Obligations.PairMessages := by
  refine ⟨fun s c h hs hjoined hc hbad => pairMessage_drops hs hjoined hc hbad, ?messages, ?join⟩
  case messages =>
    intro s h hs htag hnew x
    refine ⟨?notice, ?ctx, ?key, ?resv, ?resvStream, ?resvSlot, ?fold, ?cut, ?cmp, ?cmpHeader, ?sig, ?part, ?state, ?version, ?synced⟩
    case notice =>
      intro code hjoined
      exact ⟨fun hc => hc ▸ notice_lost hs htag hnew hjoined, fun hc => hc ▸ notice_leave hs htag hnew hjoined,
        notice_other hs htag hnew hjoined⟩
    case ctx =>
      intro sc st conf vi gen hpaired
      exact ⟨ctx_opens hs htag hnew hpaired, ctx_changes hs htag hnew hpaired, ctx_ends hs htag hnew hpaired⟩
    case key => exact fun sc ep v => key_waits hs htag hnew
    case resv => exact fun sc seq rseq => resv_notes hs htag hnew
    case resvStream => exact fun sc cs seq rseq hstandby hbound hsession => resv_keeps hs htag hnew hstandby hbound hsession
    case resvSlot =>
      intro sc cs seq rseq y hstandby hbound hsession hslots hseq hbare hopen hmissing hoverrun hfired
      exact resv_numbers hs htag hnew hstandby hbound hsession hslots hseq hbare hopen hmissing hoverrun hfired
    case fold =>
      intro sc rseq time tag void hstandby y
      refine Reaches.mono (fold_counts hs htag hnew hstandby) fun t ⟨hframe, hsession, hothers, hstreams⟩ => ⟨hframe, ?_, ?_, hothers, ?_⟩
      · rintro rfl
        exact hsession
      · rintro rfl
        exact hsession
      · intro cs
        rw [hstreams]
        unfold Stream.foldedAt
        simp only [beq_iff_eq]
    case cut => exact fun sc no high => cut_restarts hs htag hnew
    case cmp => exact fun cs seq b flags sigs => cmp_reaches hs htag hnew
    case cmpHeader => exact fun cs seq b flags sigs phase time bits y => cmp_header_reaches hs htag hnew
    case sig => exact fun sc span g a k => sig_reaches hs htag hnew
    case part => exact fun rdesc p rows d r g => part_reaches hs htag hnew
    case state => exact fun sc buffer l p b => state_reaches hs htag hnew
    case version => exact fun w mode serial hwin hstate => ⟨join_version hs htag hnew hwin hstate, join_refused hs htag hnew hwin hstate⟩
    case synced => exact fun w refused => join_synced hs htag hnew
  case join =>
    intro s w c hl hc hbody hlen hidle
    refine reaches_actCmd (exec_pairJoin w s) hl hc ?_
    rw [State.pairJoin_byMode hbody hlen hidle]
    refine ⟨fun hmode => ?_, fun hmode hjoined => ?_, fun hmode hjoined => ?_, fun hmode hjoined hblocked => ?_, fun hmode hjoined hready => ?_⟩
    · rw [if_pos hmode, State.answers_settle, State.settle_fm, State.settle_pm]
      refine ⟨State.answers_result _ _ _, fun hjoined => ?_, fun hjoined => ?_⟩
      · rw [if_pos hjoined]
        exact ⟨(congrArg Fumas.state (State.leavePair_fm _ .off)).trans rfl, (congrArg Fumas.txKey (State.leavePair_fm _ .off)).trans rfl,
          State.leavePair_domain _ .off⟩
      · rw [if_neg (by rw [hjoined]; decide)]
        rfl
    · rw [if_neg hmode, if_pos hjoined, State.answers_settle, State.settle_fm]
      exact ⟨State.answers_result _ _ _, rfl⟩
    · rw [if_neg (by omega), if_neg (by rw [hjoined]; decide), if_pos hmode, State.answers_settle, State.settle_fm]
      exact ⟨State.answers_result _ _ _, rfl⟩
    · rw [if_neg (by omega), if_neg (by rw [hjoined]; decide), if_neg (by omega), if_pos hblocked, State.answers_settle, State.settle_fm]
      exact ⟨State.answers_result _ _ _, rfl⟩
    · rw [if_neg (by omega), if_neg (by rw [hjoined]; decide), if_neg (by omega), if_neg (by rw [hready]; decide), State.settle_fm,
        State.settle_pm, State.settle_rb]
      refine ⟨rfl, rfl, rfl, rfl, ?_, rfl, rfl⟩
      exact State.domainUp_getLsbD _ 36 (by decide)

end Sys2Proof.Machine
end

