-- ==== Sys2Proof/Proofs/Management.lean ====
section
/-! PROOFS. Requests at the management port (R391): an event of the present nanosecond is not exported at once. -/

namespace Sys2Proof.Machine

theorem exec_setEventReceiver (eid : Byte) (s : State) : exec (.setEventReceiver eid) s = act s.mgmtUp (fun s => s.setReceiver eid) s := rfl

/-- A running block whose management port is up, with a record of the present time to send. -/
def State.justLogged : State :=
  { State.reset with
    boot := { State.reset.boot with step := 12 }
    mgmt := { State.reset.mgmt with i3cAddr := 1, eid := some 0, nextRec := 1 }
    health := { State.reset.health with ring := [{ recNo := 1 }] } }

theorem State.justLogged_up : State.justLogged.Up ∧ State.justLogged.mgmtUp = true := by
  refine ⟨⟨rfl, ?_⟩, rfl⟩
  exact resetIsSynced

/-- Its record is the next that is exported. -/
theorem State.justLogged_nextExport : ∃ b, State.justLogged.nextExport = some (1, b) := ⟨_, rfl⟩

/-- A record that is not yet past waits. -/
theorem State.pumpEvents_waits {s : State} {n : Nat} {b : Bytes} (hnext : s.nextExport = some (n, b))
    (hnow : (s.health.ring.any fun r => r.recNo == n && s.now ≤ r.detectTime) = true) : s.pumpEvents = s := by
  unfold State.pumpEvents
  split
  · rw [hnext]
    exact if_pos hnow
  · rfl

theorem State.mgmtSend_frame (s : State) (b : Bytes) : ∃ o, s.mgmtSend b = { s with out := o } := by
  unfold State.mgmtSend
  split <;> exact ⟨_, rfl⟩

/-- Its record is not yet past, and so no message is sent for it. -/
theorem State.justLogged_holds (eid : Byte) : (State.justLogged.setReceiver eid).mgmt.outstanding = none := by
  have hnow : (State.justLogged.health.ring.any fun r => r.recNo == 1 && State.justLogged.now ≤ r.detectTime) = true := rfl
  obtain ⟨b, hb⟩ := State.justLogged_nextExport
  unfold State.setReceiver
  obtain ⟨o, ho⟩ := State.justLogged.mgmtSend_frame (Config.pldmBody 0x04 [eid] [])
  rw [ho]
  exact congrArg (fun u : State => u.mgmt.outstanding) (State.pumpEvents_waits (n := 1) (b := b) (by exact hb) (by exact hnow))

/-- Refutes O58: where the next record to send was detected in the present nanosecond, SET_EVENT_RECEIVER does not send it at once, as the
statement says of every next record. -/
theorem not_managementAnswers : ¬ Obligations.ManagementAnswers := by
  intro h
  obtain ⟨-, -, hevents, -, -⟩ := h
  obtain ⟨hup, hmgmt⟩ := State.justLogged_up
  obtain ⟨-, -, hreceiver, -, -⟩ := hevents State.justLogged hup hmgmt
  obtain ⟨t, he, -, -, -, hexport⟩ := hreceiver 0
  obtain ⟨b, hb⟩ := State.justLogged_nextExport
  obtain ⟨hout, -, -⟩ := hexport 1 b hb
  rw [exec_setEventReceiver, act_runs hup.1 hmgmt] at he
  cases he
  rw [State.settle_mgmt, State.justLogged_holds] at hout
  cases hout

end Sys2Proof.Machine
end

