-- ==== Sys2Proof/Proofs/Zeroise.lean ====
section
/-! PROOFS. The emergency zeroise (R103, R106) and the block reset (R371, R381, R413, R444). -/

namespace Sys2Proof.Machine

/-- What every step of a fold keeps, the fold keeps. -/
theorem foldl_holds {σ α : Type} {P : σ → Prop} {f : σ → α → σ} (h : ∀ s a, P s → P (f s a)) (l : List α) {s : σ} (hs : P s) :
    P (l.foldl f s) := by
  induction l generalizing s with
  | nil => exact hs
  | cons a l ih => exact ih (h s a hs)

/-- The state beside its memories, Arcades, health unit and windows. -/
def State.beyond (s : State) : State := { s with pz := {}, arc := [], health := {}, win := [] }

theorem State.beyond_rowReport (s : State) (a r : Nat) : (s.rowReport a r).beyond = s.beyond := rfl
theorem State.beyond_onArc (s : State) (a : Nat) (f : Arcade → Arcade) : (s.onArc a f).beyond = s.beyond := rfl
theorem State.beyond_onSeg (s : State) (n : Nat) (f : Segment → Segment) : (s.onSeg n f).beyond = s.beyond := rfl
theorem State.beyond_onOmap (s : State) (p : Nat) (f : OmapEntry → OmapEntry) : (s.onOmap p f).beyond = s.beyond := rfl
theorem State.beyond_pz (s : State) (pz : Piazza) : State.beyond { s with pz := pz } = s.beyond := rfl

theorem State.beyond_retirePage (s : State) (p : Nat) : (s.retirePage p).beyond = s.beyond := rfl

theorem State.beyond_pageDone (s : State) (toPool : Bool) (p : Nat) : (s.pageDone toPool p).beyond = s.beyond := by
  unfold State.pageDone
  dsimp only
  split
  · rfl
  · split
    · split
      · rw [State.beyond_onOmap, State.beyond_onSeg, State.beyond_pz]
      · rw [State.beyond_retirePage, State.beyond_onSeg, State.beyond_pz]
    · rw [State.beyond_onOmap, State.beyond_onSeg, State.beyond_pz]

theorem State.beyond_endPagesOrder (s : State) (o : ZOrder) : (s.endPagesOrder o).beyond = s.beyond :=
  foldl_keeps State.beyond _ (fun s p => s.beyond_pageDone o.toPool p) _ s

theorem State.beyond_endRegionsOrder (s : State) (a : Nat) (o : ZOrder) : (s.endRegionsOrder a o).beyond = s.beyond := by
  unfold State.endRegionsOrder
  dsimp only
  rw [foldl_keeps State.beyond _ fun s r => s.beyond_rowReport a r, State.beyond_onArc]

theorem State.beyond_zeroiseUnit (s : State) (n : Nat) : (s.zeroiseUnit n).beyond = s.beyond := by
  unfold State.zeroiseUnit
  dsimp only
  rw [State.beyond_onArc, foldl_keeps State.beyond _ fun s o => s.beyond_endRegionsOrder n o, State.beyond_onSeg,
    foldl_keeps State.beyond _ State.beyond_endPagesOrder, State.beyond_pz]

theorem State.beyond_zeroiseAll (s : State) : s.zeroiseAll.beyond = s.beyond :=
  foldl_keeps State.beyond _ State.beyond_zeroiseUnit _ s

/-! What is zero stays zero. -/

/-- A byte of the Piazza reads zero. -/
def State.Zero (s : State) (x : Nat) : Prop := Tab.get 0 s.pz.mem x = 0

theorem Tab.get_clear_zero {t : Tab Byte} {x : Nat} (h : Tab.get 0 t x = 0) (lo hi : Nat) : Tab.get 0 (t.clear lo hi) x = 0 := by
  rw [Tab.get_clear, h, ite_self]

theorem State.zero_pageDone {s : State} {x : Nat} (h : s.Zero x) (toPool : Bool) (p : Nat) : (s.pageDone toPool p).Zero x := by
  have hpage : Tab.get 0 (s.pz.zeroPage p).mem x = 0 := Tab.get_clear_zero h _ _
  unfold State.pageDone
  dsimp only
  split
  · exact h
  · split
    · split <;> exact hpage
    · exact hpage

theorem State.zero_endRegionsOrder {s : State} {x : Nat} (h : s.Zero x) (a : Nat) (o : ZOrder) : (s.endRegionsOrder a o).Zero x := by
  unfold State.endRegionsOrder
  dsimp only
  exact foldl_holds (P := fun u : State => u.Zero x) (f := fun s r => s.rowReport a r) (fun _ _ h => h) _ h

/-- After the unit's emergency order its segment is zero, and no other byte is written. -/
theorem State.zero_zeroiseUnit {s : State} {n x : Nat} (h : s.Zero x ∨ x / 2 ^ 22 = n) : (s.zeroiseUnit n).Zero x := by
  have hclear : Tab.get 0 (Tab.clear s.pz.mem (n * 2 ^ 22) ((n + 1) * 2 ^ 22)) x = 0 := by
    rcases h with h | h
    · exact Tab.get_clear_zero h _ _
    · rw [Tab.get_clear, if_pos (by omega)]
  unfold State.zeroiseUnit
  dsimp only
  generalize hu : ({ s with pz := { s.pz with
    mem := Tab.clear s.pz.mem (n * 2 ^ 22) ((n + 1) * 2 ^ 22)
    poison := Tab.clear s.pz.poison (n * 2 ^ 19) ((n + 1) * 2 ^ 19)
    omap := Tab.mapVals {} s.pz.omap fun p (e : OmapEntry) =>
      if p / 4096 = n && e.scrub != Scrub.retired then { e with scrub := .clean, poison := false } else e } } : State) = u
  have hzero : u.Zero x := by
    rw [← hu]
    exact hclear
  have hpages : ((s.segment n).engine.foldl (fun s o => s.endPagesOrder o) u).Zero x :=
    foldl_holds (P := fun u : State => u.Zero x) (fun _ o h => foldl_holds (P := fun u : State => u.Zero x) (fun _ p h => State.zero_pageDone h o.toPool p) _ h) _ hzero
  exact foldl_holds (P := fun u : State => u.Zero x) (fun _ o h => State.zero_endRegionsOrder h n o) _ hpages

theorem State.zero_zeroiseAll (s : State) {x : Nat} (h : x < 2 ^ 26) : s.zeroiseAll.Zero x := by
  have hunits : ∀ (l : List Nat) (u : State), u.Zero x ∨ x / 2 ^ 22 ∈ l → (l.foldl (fun s n => s.zeroiseUnit n) u).Zero x := by
    intro l
    induction l with
    | nil => exact fun u h => h.resolve_right List.not_mem_nil
    | cons n l ih =>
      intro u h
      refine ih _ ?_
      by_cases hn : x / 2 ^ 22 = n
      · exact .inl (State.zero_zeroiseUnit (.inr hn))
      · exact h.imp (fun hz => State.zero_zeroiseUnit (.inl hz)) fun hm => (List.mem_cons.mp hm).resolve_left hn
  exact hunits _ s (.inr (List.mem_range.mpr (by omega)))

/-! The Arcades. -/

theorem State.arc_pageDone (s : State) (toPool : Bool) (p : Nat) : (s.pageDone toPool p).arc = s.arc := by
  unfold State.pageDone
  dsimp only
  split
  · rfl
  · split
    · split <;> rfl
    · rfl

theorem State.arc_endPagesOrder (s : State) (o : ZOrder) : (s.endPagesOrder o).arc = s.arc :=
  foldl_keeps State.arc _ (fun s p => s.arc_pageDone o.toPool p) _ s

theorem State.arcade_endRegionsOrder_other (s : State) {a b : Nat} (h : b ≠ a) (o : ZOrder) :
    (s.endRegionsOrder a o).arcade b = s.arcade b := by
  unfold State.endRegionsOrder
  dsimp only
  rw [foldl_keeps (fun u : State => u.arcade b) _ fun u r => (rfl : (u.rowReport a r).arcade b = u.arcade b), State.arcade_of_onArc_other _ _ h]

/-- What no zeroise of a region changes of an Arcade is what its whole-unit order keeps. -/
theorem State.arcade_zeroiseUnit_other (s : State) {n a : Nat} (h : a ≠ n) : (s.zeroiseUnit n).arcade a = s.arcade a := by
  unfold State.zeroiseUnit
  dsimp only
  rw [State.arcade_of_onArc_other _ _ h, foldl_keeps (fun u : State => u.arcade a) _ fun u o => u.arcade_endRegionsOrder_other h o]
  unfold State.arcade
  exact congrArg (fun t : Tab Arcade => Tab.get {} t a) (foldl_keeps State.arc _ State.arc_endPagesOrder _ _)

theorem State.als_zeroiseUnit (s : State) (n : Nat) : ((s.zeroiseUnit n).arcade n).als = [] := by
  unfold State.zeroiseUnit
  dsimp only
  rw [State.arcade_of_onArc]

theorem State.als_zeroiseAll (s : State) {a : Nat} (h : a < 16) : (s.zeroiseAll.arcade a).als = [] := by
  have hunits : ∀ (l : List Nat) (u : State), (u.arcade a).als = [] ∨ a ∈ l → ((l.foldl (fun s n => s.zeroiseUnit n) u).arcade a).als = [] := by
    intro l
    induction l with
    | nil => exact fun u h => h.resolve_right List.not_mem_nil
    | cons n l ih =>
      intro u h
      refine ih _ ?_
      by_cases hn : a = n
      · exact .inl (hn ▸ u.als_zeroiseUnit n)
      · rw [State.arcade_zeroiseUnit_other _ hn]
        exact h.imp_right fun hm => (List.mem_cons.mp hm).resolve_left hn
  exact hunits _ s (.inr (List.mem_range.mpr h))

/-! The block reset. -/

/-- What a reset leaves to the next boot: the flash and the fuses, and of the lifecycle unit the grant. -/
def State.nonvolatile (s : State) : Tab Byte × Tab (BitVec 32) × Lifecycle := (s.flash, s.fuses, s.lc)

theorem State.nonvolatile_of_beyond {s t : State} (h : t.beyond = s.beyond) : t.nonvolatile = s.nonvolatile :=
  (congrArg State.nonvolatile h :)

theorem State.nonvolatile_cutRecords (s : State) : s.cutRecords.nonvolatile = s.nonvolatile :=
  foldl_keeps State.nonvolatile _ (fun s k => by dsimp only; split <;> rfl) _ s

theorem State.nonvolatile_sendNotice (s : State) (n : Nat) : (s.sendNotice n).nonvolatile = s.nonvolatile := by
  obtain ⟨k, q, t, r, ow, w, c, b, o, h⟩ := s.sendMessage_frame 0x0001 chanCtrl [BitVec.ofNat 8 n]
  exact (congrArg State.nonvolatile h).trans rfl

/-- A block reset boots the block from what it leaves. -/
theorem State.blockReset_restarts (s : State) (cause unit event : Nat) (r : Option HRec) : ∃ (u : State) (kind : Nat) (last : Option HRec),
    s.blockReset cause unit event r = u.restart cause unit event kind last ∧ u.nonvolatile = s.nonvolatile := by
  have hzeroised : (s.sendNotice 1).cutRecords.zeroiseAll.nonvolatile = s.nonvolatile := by
    rw [State.nonvolatile_of_beyond (State.beyond_zeroiseAll _), State.nonvolatile_cutRecords, State.nonvolatile_sendNotice]
  unfold State.blockReset
  generalize (s.sendNotice 1).cutRecords.zeroiseAll = v at hzeroised
  cases r with
  | none => exact ⟨v, 0, v.health.lastBlock, rfl, hzeroised⟩
  | some r => exact ⟨v.report r, r.unitKind, (v.report r).health.ring.getLast?, rfl, hzeroised⟩

theorem State.settle_win_nil {t : State} (h : t.win = []) (s : State) : (s.settle t).win = [] := by
  unfold State.settle State.syncDegraded
  split
  · exact h
  · dsimp only
    rw [h]
    rfl

/-- What holds of a block at the start of a boot. -/
theorem State.settle_resetFrom {s t : State} (hboot : t.boot = {}) (hsess : t.sess = []) (hwin : t.win = []) (harc : t.arc = [])
    (hpz : t.pz = {}) (hkeys : t.keys = {}) (hflash : t.flash = s.flash) (hfuses : t.fuses = s.fuses) : (s.settle t).ResetFrom s := by
  unfold State.ResetFrom
  rw [State.settle_boot, State.settle_sess, State.settle_arc, State.settle_pz, State.settle_keys, State.settle_flash, State.settle_fuses]
  exact ⟨hboot, hsess, State.settle_win_nil hwin s, harc, hpz, hkeys, hflash, hfuses, s.settle_pending t⟩

/-- What the end of a block reset leaves. -/
theorem State.settle_blockReset (s u : State) (cause unit event : Nat) (r : Option HRec) (hu : u.nonvolatile = s.nonvolatile) :
    (s.settle (u.blockReset cause unit event r)).ResetFrom s ∧ (s.settle (u.blockReset cause unit event r)).health.cause = cause
    ∧ (s.settle (u.blockReset cause unit event r)).health.causeEvent = event
    ∧ (s.settle (u.blockReset cause unit event r)).lc.grant = s.lc.grant := by
  obtain ⟨v, kind, last, hreset, hv⟩ := u.blockReset_restarts cause unit event r
  have hkept := hv.trans hu
  rw [hreset, State.settle_health, State.settle_lc]
  refine ⟨State.settle_resetFrom rfl rfl rfl rfl rfl rfl ?_ ?_, rfl, rfl, ?_⟩
  · exact congrArg Prod.fst hkept
  · exact congrArg (fun x => x.2.1) hkept
  · exact congrArg (fun x => x.2.2.grant) hkept

end Sys2Proof.Machine
end

