-- ==== Sys2Proof/Proofs/Resets.lean ====
section
/-! PROOFS. The resets of the block (R302, R369, R371, R373, R396, R413, R444, R474). -/

namespace Sys2Proof.Machine

theorem exec_blockResetRequest (e : BlockEvent) (s : State) : exec (.blockResetRequest e) s = act true (fun s => s.blockEvent e) s := rfl
theorem exec_sysRst (s : State) : exec .sysRst s = act true (fun s => s.selfReset 7) s := rfl
theorem exec_pwrWarn (s : State) : exec .pwrWarn s = act true State.powerLoss s := rfl

theorem exec_checkpointWaitExpiry {s : State} {x : Nat × Nat} (h : s.lc.resetWait = some x) :
    exec .checkpointWaitExpiry s = act (decide (x.1 ≤ s.now) || s.waitDone) (fun s => s.selfReset x.2) s := by
  show execCheckpointWaitExpiry s = _
  unfold execCheckpointWaitExpiry
  rw [h]

/-- What the vote of three copies does. -/
def State.voted (r : HcRef) (c0 c1 c2 : Word) (s : State) : State :=
  if c0 != c1 && c1 != c2 && c0 != c2 then
    s.blockReset 2 (hcUnit r).2 0x0602 (some { event := 0x0602, unitKind := (hcUnit r).1, unit := (hcUnit r).2 })
  else
    let v := if c0 == c1 || c0 == c2 then c0 else c1
    let s := if s.hcValue r == v then s else s.setHc r v
    s.report { event := 0x0104, unitKind := (hcUnit r).1, unit := (hcUnit r).2 }

theorem exec_hcCopyDisagreement (r : HcRef) (a b c : Word) (s : State) :
    exec (.hcCopyDisagreement r a b c) s = act (!(a == b && b == c)) (State.voted r a b c) s := rfl

theorem reaches_actPower {c : Instr} {s : State} {g : Bool} {f : State → State} {P : State → Prop} (he : exec c s = actPower g f s)
    (hg : g = true) (h : P (s.settle (f s))) : Reaches c s P :=
  ⟨_, he.trans (congrArg Host.Outcome.next (if_pos hg)), h⟩

/-! Hardened registers (R373). -/

/-- The value that a majority of copies gives a field. -/
def State.restored (s : State) (r : HcRef) (v : Word) : State := if s.hcValue r = v then s else s.setHc r v

theorem State.setHc_synced {s : State} (h : s.Synced) (r : HcRef) (v : Word) : (s.setHc r v).Synced := by
  cases r
  case region a k =>
    refine State.Synced.onArc (f := fun c => { c with regions := Tab.upd {} c.regions k.val fun x => x.setHcWord v }) h fun _ => rfl
  all_goals exact h

theorem State.hcValue_setHc (s : State) (r : HcRef) (v : Word) : match r with
    | .event _ _ | .region _ _ => True
    | _ => (s.setHc r v).hcValue r = v := by
  cases r
  case psCfg n => exact congrArg Source.cfg (Tab.get_upd_same ({} : Source) s.ptu.sources n.val fun c => { c with cfg := v })
  case psGain n => exact congrArg Source.gain (Tab.get_upd_same ({} : Source) s.ptu.sources n.val fun c => { c with gain := v })
  case psLim n => exact congrArg Source.lim (Tab.get_upd_same ({} : Source) s.ptu.sources n.val fun c => { c with lim := v })
  case pmPolicy => rfl
  case pmUnitCtrl => rfl
  case pairVi => rfl
  case viPolicy n =>
    show BitVec.ofNat 64 (Tab.get policyReset (Tab.set policyReset s.policy n.val v) n.val).toNat = v
    rw [Tab.get_set_same, BitVec.ofNat_toNat, BitVec.setWidth_eq]
  case event => trivial
  case region => trivial

theorem State.voted_split {a b c : Word} (hab : a ≠ b) (hbc : b ≠ c) (hac : a ≠ c) (r : HcRef) (s : State) : State.voted r a b c s
    = s.blockReset 2 (hcUnit r).2 0x0602 (some { event := 0x0602, unitKind := (hcUnit r).1, unit := (hcUnit r).2 }) :=
  if_pos (by simp [hab, hbc, hac])

/-- Two copies that agree give the field their value. -/
theorem State.voted_majority {a b c : Word} (h : a = b ∨ b = c ∨ a = c) (r : HcRef) (s : State) : State.voted r a b c s
    = (s.restored r (if a = b ∨ a = c then a else b)).report { event := 0x0104, unitKind := (hcUnit r).1, unit := (hcUnit r).2 } := by
  refine (if_neg ?_).trans ?_
  · rcases h with h | h | h <;> simp [h]
  · unfold State.restored
    simp only [Bool.or_eq_true, beq_iff_eq]

theorem State.restored_synced {s : State} (h : s.Synced) (r : HcRef) (v : Word) : (s.restored r v).Synced := by
  unfold State.restored
  split
  · exact h
  · exact State.setHc_synced h r v

theorem State.pending_restored (s : State) (r : HcRef) (v : Word) : (s.restored r v).pending = s.pending := by
  unfold State.restored
  split
  · rfl
  · cases r <;> rfl

theorem State.correctedCnt_restored (s : State) (r : HcRef) (v : Word) : (s.restored r v).health.correctedCnt = s.health.correctedCnt := by
  unfold State.restored
  split
  · rfl
  · cases r <;> rfl

theorem State.hcValue_restored (s : State) (r : HcRef) (v : Word) : match r with
    | .event _ _ | .region _ _ => True
    | _ => (s.restored r v).hcValue r = v := by
  unfold State.restored
  by_cases h : s.hcValue r = v
  · rw [if_pos h]
    cases r with
    | event | region => trivial
    | _ => exact h
  · rw [if_neg h]
    exact s.hcValue_setHc r v

/-- A record changes no field whose copies the block compares. -/
theorem State.hcValue_report (s : State) (r : HcRef) (x : HRec) : (s.report x).hcValue r = s.hcValue r := by cases r <;> rfl

theorem Health.flag_corrected (h : Health) :
    (h.flag (eventClass 0x0104)).corrected = true ∧ (h.flag (eventClass 0x0104)).correctedCnt = h.correctedCnt + 1 := ⟨rfl, rfl⟩

theorem State.report_corrected (s : State) (k n : Nat) : (s.report { event := 0x0104, unitKind := k, unit := n }).health.corrected = true
    ∧ (s.report { event := 0x0104, unitKind := k, unit := n }).health.correctedCnt = s.health.correctedCnt + 1 := by
  obtain ⟨ring, m, ws, b, l, c, h⟩ := s.report_health { event := 0x0104, unitKind := k, unit := n }
  rw [h]
  dsimp only
  exact s.health.flag_corrected
/-! What starts and ends with the supply. -/

theorem State.live_of_porLow {t : State} (h : t.top.porLow = true) : t.live = false := by simp [State.live, h]
theorem State.live_of_off {t : State} (h : t.top.supply = false) : t.live = false := by simp [State.live, h]
theorem State.live_of_halted {t : State} (h : t.top.halted = true) : t.live = false := by simp [State.live, h]

theorem State.blockEvent_ctrlPoison (s : State) (k u : Nat) :
    s.blockEvent (.ctrlPoison k u) = s.blockReset 1 u 0x0601 (some { event := 0x0601, unitKind := k, unit := u }) := rfl
theorem State.blockEvent_hcSplit (s : State) : s.blockEvent .hcSplit = s.blockReset 2 0xFF 0x0602 (some { event := 0x0602 }) := rfl
theorem State.blockEvent_fcCrashLoop (s : State) :
    s.blockEvent .fcCrashLoop = s.blockReset 3 0 0x0603 (some { event := 0x0603, unitKind := 4, unit := 0 }) := rfl

theorem reaches_blockReset {c : Instr} {s u : State} {g : Bool} {f : State → State} {P : State → Prop} {cause unit event : Nat} {r : Option HRec}
    (he : exec c s = act g f s) (hl : s.live = true) (hg : g = true) (hf : f s = u.blockReset cause unit event r) (hu : u.nonvolatile = s.nonvolatile)
    (hP : ∀ t : State, t.ResetFrom s → t.health.cause = cause → t.health.causeEvent = event → t.lc.grant = s.lc.grant → P t) : Reaches c s P := by
  obtain ⟨hreset, hcause, hevent, hgrant⟩ := State.settle_blockReset s u cause unit event r hu
  refine reaches_act he hl hg ?_
  rw [hf]
  exact hP _ hreset hcause hevent hgrant

theorem State.ring_cutRecords (s : State) : s.cutRecords.health.ring = s.health.ring :=
  foldl_keeps (fun u : State => u.health.ring) _ (fun s k => by dsimp only; split <;> rfl) _ s

theorem State.settle_holdReset (s : State) : (s.settle s.holdReset).ResetFrom s ∧ (s.settle s.holdReset).top.porLow = true
    ∧ (s.settle s.holdReset).health.ring = s.health.ring ∧ (s.settle s.holdReset).lc.grant = s.lc.grant := by
  have hkept := s.nonvolatile_cutRecords
  have hring := s.ring_cutRecords
  unfold State.holdReset
  generalize s.cutRecords = u at hkept hring
  dsimp only
  refine ⟨State.settle_resetFrom rfl rfl rfl rfl rfl rfl ?_ ?_, ?_, ?_, ?_⟩
  · exact congrArg Prod.fst hkept
  · exact congrArg (fun x => x.2.1) hkept
  · rw [State.settle_top]
  · rw [State.settle_health]
    exact hring
  · rw [State.settle_lc]
    exact congrArg (fun x => x.2.2.grant) hkept

theorem State.settle_powerOff (s : State) : (s.settle s.powerOff).ResetFrom s ∧ (s.settle s.powerOff).top.supply = false
    ∧ (s.settle s.powerOff).health = {} ∧ (s.settle s.powerOff).lc = {} := by
  refine ⟨State.settle_resetFrom rfl rfl rfl rfl rfl rfl rfl rfl, ?_, ?_, ?_⟩
  · rw [State.settle_top]
    rfl
  · rw [State.settle_health]
    have hoff : s.powerOff.degradedNow = State.reset.degradedNow := rfl
    rw [hoff, ← (show State.reset.health.degraded = _ from resetIsSynced)]
    rfl
  · rw [State.settle_lc]
    rfl

theorem State.settle_restart_clear (s : State) (cause unit event kind : Nat) (last : Option HRec) :
    (s.settle (s.restart cause unit event kind last)).ResetFrom s ∧ (s.settle (s.restart cause unit event kind last)).top.halted = false
    ∧ (s.settle (s.restart cause unit event kind last)).health.cause = cause
    ∧ (s.settle (s.restart cause unit event kind last)).health.ring = s.health.ring := by
  refine ⟨State.settle_resetFrom rfl rfl rfl rfl rfl rfl rfl rfl, ?_, ?_, ?_⟩
  · rw [State.settle_top]
    rfl
  · rw [State.settle_health]
    rfl
  · rw [State.settle_health]
    rfl

/-- What a power-loss warning wipes before the memories are zeroised (R413). -/
def State.Wiped (v s : State) : Prop := v.keys.ska = [] ∧ v.keys.kreg = none ∧ v.de = [] ∧ v.pke = {} ∧ v.fuses = s.fuses ∧ v.flash = s.flash
  ∧ ∀ n, (v.session n).keyx = none ∧ (v.session n).plantKey = none ∧ (v.session n).oldKeys = []

theorem State.Wiped.of_beyond {u v s : State} (h : v.Wiped s) (hu : u.beyond = v.beyond) : u.Wiped s := by
  obtain ⟨hska, hkreg, hde, hpke, hfuses, hflash, hsess⟩ := h
  have hkeys : u.keys = v.keys := (congrArg State.keys hu :)
  refine ⟨by rw [hkeys, hska], by rw [hkeys, hkreg], (congrArg State.de hu :).trans hde, (congrArg State.pke hu :).trans hpke,
    (congrArg State.fuses hu :).trans hfuses, (congrArg State.flash hu :).trans hflash, fun n => ?_⟩
  have hn : u.session n = v.session n := (congrArg (fun w : State => w.session n) hu :)
  rw [hn]
  exact hsess n

/-- What a power-loss warning finds of the plane's stores and of the power manager. -/
def State.planeSide (s : State) : Tab Arcade × Power := (s.arc, s.pm)

theorem State.planeSide_cutRecords (s : State) : s.cutRecords.planeSide = s.planeSide :=
  foldl_keeps State.planeSide _ (fun s k => by dsimp only; split <;> rfl) _ s

theorem State.planeSide_sendNotice (s : State) (n : Nat) : (s.sendNotice n).planeSide = s.planeSide := by
  obtain ⟨k, q, t, r, ow, w, c, b, o, h⟩ := s.sendMessage_frame 0x0001 chanCtrl [BitVec.ofNat 8 n]
  exact (congrArg State.planeSide h).trans rfl

theorem State.powerLoss_wipes (s : State) : ∃ v : State,
    s.powerLoss = { v.zeroiseAll with top := { v.zeroiseAll.top with halted := true } } ∧ v.Wiped s ∧ v.planeSide = s.planeSide := by
  have hkept : (s.sendNotice 1).cutRecords.nonvolatile = s.nonvolatile :=
    (State.nonvolatile_cutRecords _).trans (s.nonvolatile_sendNotice 1)
  have hplane : (s.sendNotice 1).cutRecords.planeSide = s.planeSide := (State.planeSide_cutRecords _).trans (s.planeSide_sendNotice 1)
  unfold State.powerLoss
  generalize (s.sendNotice 1).cutRecords = u at hkept hplane
  obtain ⟨m, w, hdraw, hw, hwplane⟩ : ∃ (m : BitVec 512) (w : State), (if u.drbgBlocked then ((0 : BitVec 512), u) else u.draw) = (m, w)
      ∧ w.nonvolatile = u.nonvolatile ∧ w.planeSide = u.planeSide := by
    split
    · exact ⟨_, _, rfl, rfl, rfl⟩
    · exact ⟨_, _, rfl, (congrArg State.nonvolatile u.draw_frame :).trans rfl, (congrArg State.planeSide u.draw_frame :).trans rfl⟩
  dsimp only
  rw [hdraw]
  refine ⟨_, rfl, ⟨rfl, rfl, rfl, rfl, ?_, ?_, fun n => ?_⟩, hwplane.trans hplane⟩
  · exact congrArg (fun x => x.2.1) (hw.trans hkept)
  · exact congrArg Prod.fst (hw.trans hkept)
  · unfold State.session
    dsimp only
    rw [Tab.get_mapVals (d := ({} : Session)) _ _ n rfl]
    exact ⟨rfl, rfl, rfl⟩

theorem State.Wiped.settle_halted {u s : State} (h : u.Wiped s) (hzero : ∀ x, x < 2 ^ 26 → u.Zero x) (hals : ∀ a : Arc, (u.arcade a.val).als = []) :
    let t := s.settle { u with top := { u.top with halted := true } }
    t.top.halted = true ∧ t.live = false ∧ t.keys.ska = [] ∧ t.keys.kreg = none ∧ t.de = [] ∧ t.pke = {} ∧ t.fuses = s.fuses
      ∧ t.flash = s.flash ∧ (∀ x, x < 2 ^ 26 → Tab.get 0 t.pz.mem x = 0) ∧ (∀ a : Arc, (t.arcade a.val).als = [])
      ∧ ∀ n, (t.session n).keyx = none ∧ (t.session n).plantKey = none ∧ (t.session n).oldKeys = [] := by
  obtain ⟨hska, hkreg, hde, hpke, hfuses, hflash, hsess⟩ := h
  have hhalted : (s.settle { u with top := { u.top with halted := true } }).top.halted = true := by rw [State.settle_top]
  dsimp only
  refine ⟨hhalted, State.live_of_halted hhalted, ?_⟩
  simp only [State.settle_keys, State.settle_de, State.settle_pke, State.settle_fuses, State.settle_flash, State.settle_pz,
    State.settle_arcade, State.settle_session]
  exact ⟨hska, hkreg, hde, hpke, hfuses, hflash, hzero, hals, hsess⟩

/-- Settles O50, from the laws of the emergency zeroise and the restart; that a reset which waits for a checkpoint comes
when what it waits for is done is log entry 56. -/
theorem resetsOfTheBlock : Obligations.ResetsOfTheBlock := by
  unfold Obligations.ResetsOfTheBlock
  refine ⟨fun s e hl => ?_, fun s r a b c hl => ⟨fun hab hbc hac => ?_, fun hs hm hd => ?_⟩, fun s x hs hp => ?_, fun s hsup hpor => ?_,
    fun s hl => ?_, fun s hsup => ?_, fun s at0 cause hl hwait hdue => ?_, fun s hl => ?_, fun s hsup hpor hhalt => ?_⟩
  case refine_1 =>
    cases e with
    | ctrlPoison k u => exact reaches_blockReset (exec_blockResetRequest _ s) hl rfl (s.blockEvent_ctrlPoison k u) rfl fun t hr hc he _ => ⟨hr, he, hc⟩
    | hcSplit => exact reaches_blockReset (exec_blockResetRequest _ s) hl rfl s.blockEvent_hcSplit rfl fun t hr hc he _ => ⟨hr, he, hc⟩
    | fcCrashLoop => exact reaches_blockReset (exec_blockResetRequest _ s) hl rfl s.blockEvent_fcCrashLoop rfl fun t hr hc he _ => ⟨hr, he, hc⟩
  case refine_2 =>
    exact reaches_blockReset (exec_hcCopyDisagreement r a b c s) hl (by simp [hab]) (State.voted_split hab hbc hac r s) rfl
      fun t hr hc he _ => ⟨hr, hc, he⟩
  case refine_3 =>
    obtain ⟨hflag, hcount⟩ := (s.restored r (if a = b ∨ a = c then a else b)).report_corrected (hcUnit r).1 (hcUnit r).2
    refine reaches_act_to (exec_hcCopyDisagreement r a b c s) hl (by simpa [imp_iff_not_or] using hd) (State.voted_majority hm r s)
      (State.report_synced (State.restored_synced hs r _) _) (s.pending_restored r _) ⟨State.report_frame _ _, hflag, ?_, ?_⟩
    · rw [hcount, State.correctedCnt_restored]
    · have hv := s.hcValue_restored r (if a = b ∨ a = c then a else b)
      cases r with
      | event | region => trivial
      | _ => exact (State.hcValue_report _ _ _).trans hv
  case refine_4 =>
    exact (congrArg Host.Outcome.next (if_pos (by rcases hp with hp | hp <;> simp [hp]))).trans
      (congrArg Host.Outcome.next (State.settle_of_synced s (t := { s with top := { s.top with supply := true, porLow := false, straps := x } }) hs))
  case refine_5 =>
    obtain ⟨hreset, hlow, hring, hgrant⟩ := s.settle_holdReset
    exact reaches_actPower (exec_porNLow s) (by simp [hsup, hpor]) ⟨hreset, hlow, State.live_of_porLow hlow, hring, hgrant⟩
  case refine_6 =>
    exact reaches_blockReset (exec_sysRst s) hl rfl rfl rfl fun t hr hc _ hg => ⟨hr, hc, hg⟩
  case refine_7 =>
    obtain ⟨hreset, hoff, hhealth, hlc⟩ := s.settle_powerOff
    exact reaches_actPower (exec_supplyRemoved s) hsup ⟨hreset, hoff, State.live_of_off hoff, hhealth, hlc⟩
  case refine_8 =>
    exact reaches_blockReset (exec_checkpointWaitExpiry hwait) hl (by simpa using hdue) rfl rfl fun t hr hc _ hg => ⟨hr, hc, hg⟩
  case refine_9 =>
    obtain ⟨v, hloss, hwiped, -⟩ := s.powerLoss_wipes
    have hwiped := hwiped.of_beyond v.beyond_zeroiseAll
    have hzero := fun x => v.zero_zeroiseAll (x := x)
    have hals := fun a : Arc => v.als_zeroiseAll a.isLt
    refine reaches_act (exec_pwrWarn s) hl rfl ?_
    rw [hloss]
    generalize v.zeroiseAll = u at hwiped hzero hals
    exact hwiped.settle_halted hzero hals
  case refine_10 =>
    obtain ⟨hreset, hhalted, hcause, hring⟩ := s.settle_restart_clear 7 0xFF 0 0 s.health.lastBlock
    exact reaches_actPower (exec_pwrWarnClear s) (by simp [hsup, hpor, hhalt]) ⟨hreset, hhalted, hcause, hring⟩

end Sys2Proof.Machine
end

