-- ==== Sys2Proof/Proofs/LifecyclePorts.lean ====
section
/-! PROOFS. The JTAG ports of the lifecycle (R95, R301, R305, R312, R324, R469). -/

namespace Sys2Proof.Machine

theorem exec_lifecyclePortRequest (target : BitVec 4) (value : Bytes) (stuck : Option (Fin 512)) (s : State) :
    exec (.lifecyclePortRequest target value stuck) s = act s.lc.decoded (fun s => s.portRequest target.toNat value stuck) s := rfl
theorem exec_fusePortWrite (w : Fin 512) (bits : BitVec 32) (stuck : Option (Fin 512)) (s : State) :
    exec (.fusePortWrite w bits stuck) s = act s.lc.decoded (fun s => s.fusePort w.val bits stuck) s := rfl
theorem exec_jtagDebugAccess (d : DebugOp) (s : State) :
    exec (.jtagDebugAccess d) s = act (decide (2 ≤ s.boot.step) || s.boot.step == 0) (fun s => s.debugAccess d) s := rfl

/-! One fuse word (R305). -/

theorem State.get_blow (s : State) (w : Nat) (bits : BitVec 32) (v : Nat) :
    Tab.get 0 (s.blow w bits).fuses v = if v = w then Tab.get 0 s.fuses w ||| bits else Tab.get 0 s.fuses v := by
  unfold State.blow
  by_cases h : v = w
  · rw [if_pos h, h, Tab.get_upd_same (0 : BitVec 32)]
  · rw [if_neg h, Tab.get_upd_other (0 : BitVec 32) _ _ h]

/-- A word that the write-back does not miss takes its bits. -/
theorem State.blowList_took {s : State} {w : Nat} {bits : BitVec 32} {stuck : Option (Fin 512)}
    (h : (stuck.any fun x => x.val == w) = false ∨ bits &&& ~~~(Tab.get 0 s.fuses w) = 0) :
    s.blowList [(w, bits)] stuck = (true, s.blow w bits) :=
  if_neg (by
    rcases h with h | h
    · simp [h]
    · rw [h]
      simp)

/-- A word that does not take keeps some of its bits, and the health unit counts it. -/
theorem State.blowList_stuck {s : State} {w : Nat} {bits : BitVec 32} {f : Fin 512} (hf : f.val = w)
    (hbits : bits &&& ~~~(Tab.get 0 s.fuses w) ≠ 0) : ∃ v : BitVec 32, s.blowList [(w, bits)] (some f) = (false,
      State.blow { s with free := s.free + 1, health := { s.health with fuseReports := s.health.fuseReports + 1 } } w (bits &&& v)) :=
  ⟨_, if_pos ((Bool.and_eq_true _ _).mpr ⟨by simp [hf], bne_iff_ne.mpr hbits⟩)⟩

/-- No word that the fuse port writes is one that only the boot ROM reads. -/
theorem romOnly_of_fusePortOk {state w : Nat} (h : fusePortOk state w = true) : romOnly w = false := by
  unfold fusePortOk at h
  unfold romOnly
  simp only [Bool.and_eq_false_iff, decide_eq_false_iff_not, not_le, not_lt]
  by_contra hw
  simp only [not_or, not_lt, not_le] at hw
  split at h
  · simp only [Bool.or_eq_true, Bool.and_eq_true, decide_eq_true_eq, beq_iff_eq] at h
    omega
  · split at h
    · simp only [Bool.or_eq_true, Bool.and_eq_true, decide_eq_true_eq, beq_iff_eq] at h
      omega
    · cases h

theorem State.fuse_eq {s : State} {w : Nat} (h : romOnly w = false) : s.fuse w = Tab.get 0 s.fuses w :=
  if_neg (by simp [h])

theorem State.fuse_of_other {s t : State} {v : Nat} (hb : t.boot = s.boot)
    (h : Tab.get 0 t.fuses v = Tab.get 0 s.fuses v) : t.fuse v = s.fuse v := by
  unfold State.fuse
  rw [hb, h]

/-! The lifecycle port (R301, R302). -/

theorem romOnly_record {i : Nat} (h : i < 16) : romOnly (3 * i) = false := by
  unfold romOnly
  simp only [Bool.and_eq_false_iff, decide_eq_false_iff_not, not_le, not_lt]
  omega

/-- Where a record is blank there is a lowest one, and its intent word is blank. -/
theorem State.lowestBlank_of_blankRecords {s : State} (h : 1 ≤ s.blankRecords) :
    ∃ i, s.lowestBlank = some i := by
  obtain ⟨i, hi⟩ := List.exists_mem_of_length_pos (Nat.lt_of_lt_of_le Nat.zero_lt_one h)
  obtain ⟨hmem, hblank⟩ := List.mem_filter.mp hi
  cases hf : s.lowestBlank with
  | some j => exact ⟨j, rfl⟩
  | none =>
    simp only [Bool.and_eq_true] at hblank
    exact absurd hblank.1.1 (List.find?_eq_none.mp hf i hmem)

theorem State.lowestBlank_spec {s : State} {i : Nat} (h : s.lowestBlank = some i) : i < 16 ∧ Tab.get 0 s.fuses (3 * i) = 0 := by
  have hi : i < 16 := List.mem_range.mp (List.mem_of_find?_eq_some h)
  refine ⟨hi, ?_⟩
  rw [← State.fuse_eq (s := s) (romOnly_record hi)]
  exact beq_iff_eq.mp (List.find?_some h :)

/-- What an accepted request leads to. -/
theorem State.portRequest_blocked {s : State} (h : s.lc.portBlocked = true) (target : Nat) (value : Bytes) (stuck : Option (Fin 512)) :
    s.portRequest target value stuck = s.emit (.jtag false []) := if_pos h

theorem State.portRequest_denied {s : State} {target : Nat} (h : s.lc.portBlocked = false) (hp : portTransition s.lc.state target = none)
    (value : Bytes) (stuck : Option (Fin 512)) : s.portRequest target value stuck = s.emit (.jtag false [8, 9]) := by
  unfold State.portRequest
  simp [h, hp, stDenied]

theorem State.portRequest_eq {s : State} {target how i : Nat} (h : s.lc.portBlocked = false)
    (hp : portTransition s.lc.state target = some how)
    (hn : (if target = 1 ∨ target = 2 then 5 else if target = 6 then 1 else 2) ≤ s.blankRecords) (hi : s.lowestBlank = some i)
    (value : Bytes) (stuck : Option (Fin 512)) : s.portRequest target value stuck =
      if s.portAuthorised how value then
        let (ok, s) := s.writeIntent target stuck
        if ok then (s.emit (.jtag true [])).selfReset 4 else s.emit (.jtag false [BitVec.ofNat 8 stFault])
      else State.emit { s with lc := { s.lc with portBlocked := true } } (.jtag false []) := by
  have hneed : ¬ (s.blankRecords < if target = 1 ∨ target = 2 then 5 else if target = 6 then 0 else 2) := by
    split at hn
    · next h => rw [if_pos h]; omega
    · next h =>
      rw [if_neg h]
      split at hn
      · next h => rw [if_pos h]; omega
      · next h => rw [if_neg h]; omega
  unfold State.portRequest
  simp only [h, hp, hi, Option.isNone_some, Bool.or_false, decide_eq_true_eq, if_neg hneed, Bool.false_eq_true, if_false]
  by_cases ha : s.portAuthorised how value = true
  · simp [ha]
  · simp [ha]

theorem State.writeIntent_took {s : State} {i : Nat} (hi : s.lowestBlank = some i) (target : Nat) : s.writeIntent target none
    = (true, { s.blow (3 * i) (intentWord target s.lc.state i) with lc := { s.lc with pendingRecord := some i } }) := by
  unfold State.writeIntent
  rw [hi]
  dsimp only
  rw [State.blowList_took (.inl rfl)]
  rfl

theorem State.writeIntent_stuck {s : State} {i target : Nat} {f : Fin 512} (hi : s.lowestBlank = some i) (hf : f.val = 3 * i)
    (hbits : intentWord target s.lc.state i &&& ~~~(Tab.get 0 s.fuses (3 * i)) ≠ 0) : ∃ v : BitVec 32, s.writeIntent target (some f)
      = (false, State.blow { s with free := s.free + 1, health := { s.health with fuseReports := s.health.fuseReports + 1 } }
          (3 * i) (intentWord target s.lc.state i &&& v)) := by
  obtain ⟨v, hv⟩ := State.blowList_stuck (s := s) hf hbits
  refine ⟨v, ?_⟩
  unfold State.writeIntent
  rw [hi]
  dsimp only
  rw [hv]
  rfl

/-- A stuck intent word ends the request with ST_FAULT and begins no transition. -/
theorem State.settle_stuckIntent (s : State) {i target : Nat} {f : Fin 512} {value : Bytes} {how : Nat} (h : s.lc.portBlocked = false)
    (hp : portTransition s.lc.state target = some how)
    (hn : (if target = 1 ∨ target = 2 then 5 else if target = 6 then 1 else 2) ≤ s.blankRecords) (hi : s.lowestBlank = some i)
    (ha : s.portAuthorised how value = true) (hf : f.val = 3 * i)
    (hbits : intentWord target s.lc.state i &&& ~~~(s.fuse (3 * i)) ≠ 0) :
    let t := s.settle (s.portRequest target value (some f))
    t.out.head? = some (.jtag false [10]) ∧ t.boot = s.boot ∧ t.health.fuseReports = s.health.fuseReports + 1
      ∧ ∀ w, w ≠ 3 * i → Tab.get 0 t.fuses w = Tab.get 0 s.fuses w := by
  rw [State.fuse_eq (romOnly_record (State.lowestBlank_spec hi).1)] at hbits
  obtain ⟨v, hv⟩ := State.writeIntent_stuck hi hf hbits
  rw [State.portRequest_eq h hp hn hi, if_pos ha, hv]
  dsimp only
  rw [State.settle_out, State.settle_boot, State.settle_health, State.settle_fuses]
  refine ⟨rfl, rfl, rfl, fun w hw => ?_⟩
  exact (State.get_blow _ _ _ _).trans (if_neg hw)

theorem State.settle_from (s u t : State) : s.settle t = { u.settle t with pending := s.pending } := by
  unfold State.settle
  generalize t.syncDegraded = v
  rfl

theorem State.settle_selfReset (s u : State) (cause : Nat) : (s.settle (u.selfReset cause)).boot = {}
    ∧ (s.settle (u.selfReset cause)).health.cause = cause ∧ (s.settle (u.selfReset cause)).flash = u.flash
    ∧ (s.settle (u.selfReset cause)).fuses = u.fuses := by
  obtain ⟨⟨hboot, _, _, _, _, _, hf, hw, _⟩, hcause, _, _⟩ := State.settle_blockReset u u cause 0xFF 0 none rfl
  unfold State.selfReset
  rw [State.settle_from s u]
  generalize u.settle (u.blockReset cause 0xFF 0 none) = t at hboot hf hw hcause
  exact ⟨hboot, hcause, hf, hw⟩

/-- An intent word that takes resets the block with the cause of a transition. -/
theorem State.settle_takenIntent (s : State) {i target : Nat} {value : Bytes} {how : Nat} (h : s.lc.portBlocked = false)
    (hp : portTransition s.lc.state target = some how)
    (hn : (if target = 1 ∨ target = 2 then 5 else if target = 6 then 1 else 2) ≤ s.blankRecords) (hi : s.lowestBlank = some i)
    (ha : s.portAuthorised how value = true) :
    let t := s.settle (s.portRequest target value none)
    t.boot = {} ∧ t.health.cause = 4 ∧ t.flash = s.flash ∧ Tab.get 0 t.fuses (3 * i) = intentWord target s.lc.state i
      ∧ ∀ w, w ≠ 3 * i → Tab.get 0 t.fuses w = Tab.get 0 s.fuses w := by
  have hblank := (State.lowestBlank_spec hi).2
  rw [State.portRequest_eq h hp hn hi, if_pos ha, State.writeIntent_took hi]
  dsimp only
  rw [if_pos rfl]
  generalize hu : State.emit { s.blow (3 * i) (intentWord target s.lc.state i) with lc := { s.lc with pendingRecord := some i } } (.jtag true []) = u
  have hflash : u.flash = s.flash := by
    rw [← hu]
    rfl
  have hfuses : u.fuses = (s.blow (3 * i) (intentWord target s.lc.state i)).fuses := by
    rw [← hu]
    rfl
  obtain ⟨hboot, hcause, hf, hw⟩ := s.settle_selfReset u 4
  rw [hf, hw, hfuses]
  refine ⟨hboot, hcause, hflash, ?_, fun w hne => ?_⟩
  · rw [State.get_blow, if_pos rfl, hblank]
    exact BitVec.zero_or
  · rw [State.get_blow, if_neg hne]

/-! Debug accesses (R312). -/

theorem Piazza.segs_writeBytes (p : Piazza) (addr : Nat) (b : Bytes) : (p.writeBytes addr b).segs = p.segs := by
  unfold Piazza.writeBytes
  dsimp only
  rw [foldl_keeps Piazza.segs _ fun p g => (rfl : (p.touch (g * 1024) false).segs = p.segs)]

theorem Piazza.mem_writeBytes (p : Piazza) (addr : Nat) (b : Bytes) : (p.writeBytes addr b).mem = Tab.setMany 0 p.mem addr b := by
  unfold Piazza.writeBytes
  simp only [Piazza.touches_mem]

/-- Bytes that are stored read back. -/
theorem Piazza.getMany_writeBytes (p : Piazza) (addr : Nat) (b : Bytes) : Tab.getMany 0 (p.writeBytes addr b).mem addr b.length = b := by
  rw [Piazza.mem_writeBytes]
  refine List.ext_getElem (by simp [Tab.getMany]) fun i h1 h2 => ?_
  simp only [Tab.getMany, List.getElem_map, List.getElem_range]
  rw [Tab.get_setMany, if_pos (by omega), Nat.add_sub_cancel_left, List.getD_eq_getElem _ _ h2]

/-- The scope of the debug grant that a debug operation needs. -/
def debugScope : DebugOp → Nat
  | .fcHalt | .fcStep | .fcRun => 0
  | .qcHalt _ | .qcStep _ | .qcRun _ => 1
  | .trace _ => 2
  | .memRead _ _ | .memWrite _ _ => 3
  | .scan => 4

theorem State.debugAccess_closed {s : State} {d : DebugOp} (h : s.lc.openScopes.getLsbD (debugScope d) = false) :
    s.debugAccess d = s.emit (.jtag false []) := by
  have hclosed : ¬ (s.lc.openScopes.getLsbD _ = true) := Bool.eq_false_iff.mp h
  cases d <;> exact if_neg hclosed

theorem qcHalted_or (x : BitVec 4) (q p : Fin 4) :
    (x ||| BitVec.ofNat 4 (2 ^ q.val)).getLsbD p.val = (x.getLsbD p.val || p == q) := by
  revert x q p
  decide

theorem qcHalted_and (x : BitVec 4) (q p : Fin 4) :
    (x &&& ~~~(BitVec.ofNat 4 (2 ^ q.val))).getLsbD p.val = (x.getLsbD p.val && p != q) := by
  revert x q p
  decide

theorem State.reaches_fusePort {s : State} {w : Fin 512} (hup : s.Up) (hdec : s.lc.decoded = true) (hw : fusePortOk s.lc.state w.val = true)
    (bits : BitVec 32) (stuck : Option (Fin 512)) : Reaches (.fusePortWrite w bits stuck) s fun t =>
        t = { s with fuses := t.fuses, out := t.out, free := t.free, health := { s.health with fuseReports := t.health.fuseReports } }
          ∧ (∀ v, v ≠ w.val → t.fuse v = s.fuse v)
          ∧ t.fuse w.val ||| s.fuse w.val ||| bits = s.fuse w.val ||| bits ∧ t.fuse w.val &&& s.fuse w.val = s.fuse w.val
          ∧ (stuck ≠ some w ∨ bits &&& ~~~(s.fuse w.val) = 0 → t.fuse w.val = s.fuse w.val ||| bits
            ∧ t.out = .jtag true [] :: s.out ∧ t.health = s.health)
          ∧ (stuck = some w → bits &&& ~~~(s.fuse w.val) ≠ 0 → t.out = .jtag false [10] :: s.out
            ∧ t.health.fuseReports = s.health.fuseReports + 1) := by
  have hrom := romOnly_of_fusePortOk hw
  rw [State.fuse_eq (s := s) hrom]
  by_cases htook : stuck ≠ some w ∨ bits &&& ~~~(Tab.get 0 s.fuses w.val) = 0
  · have hblow : s.fusePort w.val bits stuck = (s.blow w.val bits).emit (.jtag true []) := by
      refine (if_neg (by simp [hw])).trans ?_
      rw [State.blowList_took (htook.imp_left fun h => by
        cases stuck with
        | none => rfl
        | some f => simpa [Fin.ext_iff] using h)]
      rfl
    have hword : ((s.blow w.val bits).emit (.jtag true [])).fuse w.val = Tab.get 0 s.fuses w.val ||| bits :=
      (State.fuse_eq hrom).trans ((s.get_blow _ _ _).trans (if_pos rfl))
    refine reaches_act_to (exec_fusePortWrite w bits stuck s) hup.1 hdec hblow hup.2 rfl ⟨rfl, fun v hv => ?_, ?_, ?_, ?_, ?_⟩
    · exact State.fuse_of_other rfl ((s.get_blow _ _ _).trans (if_neg hv))
    · rw [hword]
      ext i
      simp
      grind
    · rw [hword]
      ext i
      simp
      grind
    · exact fun _ => ⟨hword, rfl, rfl⟩
    · exact fun hstuck hbits => absurd htook (by simp only [hstuck, not_or]; exact ⟨by simp, hbits⟩)
  · simp only [ne_eq, not_or, not_not] at htook
    obtain ⟨hstuck, hbits⟩ := htook
    subst hstuck
    obtain ⟨v, hv⟩ := State.blowList_stuck (s := s) rfl hbits
    have hblow : s.fusePort w.val bits (some w) = State.emit (State.blow { s with
        free := s.free + 1, health := { s.health with fuseReports := s.health.fuseReports + 1 } } w.val (bits &&& v)) (.jtag false [10]) := by
      refine (if_neg (by simp [hw])).trans ?_
      rw [hv]
      rfl
    have hword : (State.emit (State.blow { s with free := s.free + 1, health := { s.health with fuseReports := s.health.fuseReports + 1 } }
        w.val (bits &&& v)) (.jtag false [10])).fuse w.val = Tab.get 0 s.fuses w.val ||| bits &&& v :=
      (State.fuse_eq hrom).trans ((State.get_blow _ _ _ _).trans (if_pos rfl))
    refine reaches_act_to (exec_fusePortWrite w bits (some w) s) hup.1 hdec hblow hup.2 rfl ⟨rfl, fun u hu => ?_, ?_, ?_, ?_, ?_⟩
    · exact State.fuse_of_other rfl ((State.get_blow _ _ _ _).trans (if_neg hu))
    · rw [hword]
      ext i
      simp
      grind
    · rw [hword]
      ext i
      simp
      grind
    · exact fun h => absurd h (by simp only [ne_eq, not_true_eq_false, false_or]; exact hbits)
    · exact fun _ _ => ⟨rfl, rfl⟩

/-- What a debug operation leaves where its scope is open (R95, R312). -/
def State.Debugged (s : State) (d : DebugOp) (t : State) : Prop :=
  match d with
        | .fcHalt => t = { s with lc := { s.lc with fcHalted := true }, out := .jtag true [] :: s.out }
        | .fcRun => t = { s with lc := { s.lc with fcHalted := false }, out := .jtag true [] :: s.out }
        | .qcHalt q => t = { s with lc := { s.lc with qcHalted := t.lc.qcHalted }, out := .jtag true [] :: s.out }
            ∧ ∀ p : Fin 4, t.lc.qcHalted.getLsbD p.val = (s.lc.qcHalted.getLsbD p.val || p == q)
        | .qcRun q => t = { s with lc := { s.lc with qcHalted := t.lc.qcHalted }, out := .jtag true [] :: s.out }
            ∧ ∀ p : Fin 4, t.lc.qcHalted.getLsbD p.val = (s.lc.qcHalted.getLsbD p.val && p != q)
        | .trace on => t = { s with lc := { s.lc with trace := on }, out := .jtag true [] :: s.out }
        | .fcStep | .qcStep _ | .scan => t = { s with out := .jtag true [] :: s.out }
        | .memRead addr e => (s.debugPage (addr.toNat / 8 * 8) = false → t = s.emit (.jtag false []))
            ∧ (s.debugPage (addr.toNat / 8 * 8) = true →
              (e = none → t = s.emit (.jtag true (Tab.getMany 0 s.pz.mem (addr.toNat / 8 * 8) 8)))
              ∧ ∃ rest, t.out = .jtag true (Tab.getMany 0 s.pz.mem (addr.toNat / 8 * 8) 8) :: rest)
        | .memWrite addr data => t = { s with pz := t.pz, out := t.out }
            ∧ (s.debugPage (addr.toNat / 8 * 8) = true → Tab.getMany 0 t.pz.mem (addr.toNat / 8 * 8) 8 = Bytes.slice data 0 8
              ∧ t.out = .jtag true [] :: s.out)
            ∧ (s.debugPage (addr.toNat / 8 * 8) = false → t.pz = s.pz ∧ t.out = .jtag false [] :: s.out)
            ∧ ∀ x, x / 8 ≠ addr.toNat / 8 → Tab.get 0 t.pz.mem x = Tab.get 0 s.pz.mem x

theorem State.reaches_debugAccess {s : State} {d : DebugOp} (hup : s.Up) (hg : (decide (2 ≤ s.boot.step) || s.boot.step == 0) = true)
    (hopen : s.lc.openScopes.getLsbD (debugScope d) = true) : Reaches (.jtagDebugAccess d) s (s.Debugged d) := by
  obtain ⟨hl, hs⟩ := hup
  have he := exec_jtagDebugAccess d s
  have hreach : ∀ (t : State) {P : State → Prop}, s.debugAccess d = t → t.Synced → t.pending = s.pending → P t → Reaches (.jtagDebugAccess d) s P :=
    fun t _ ht hts hq hP => reaches_act_to he hl hg ht hts hq hP
  cases d with
  | fcHalt => exact hreach { s with lc := { s.lc with fcHalted := true }, out := .jtag true [] :: s.out } (if_pos hopen) hs rfl rfl
  | fcRun => exact hreach { s with lc := { s.lc with fcHalted := false }, out := .jtag true [] :: s.out } (if_pos hopen) hs rfl rfl
  | trace on => exact hreach { s with lc := { s.lc with trace := on }, out := .jtag true [] :: s.out } (if_pos hopen) hs rfl rfl
  | qcHalt q =>
    exact hreach { s with lc := { s.lc with qcHalted := s.lc.qcHalted ||| BitVec.ofNat 4 (2 ^ q.val) }, out := .jtag true [] :: s.out }
      (if_pos hopen) hs rfl ⟨rfl, qcHalted_or _ q⟩
  | qcRun q =>
    exact hreach { s with lc := { s.lc with qcHalted := s.lc.qcHalted &&& ~~~(BitVec.ofNat 4 (2 ^ q.val)) }, out := .jtag true [] :: s.out }
      (if_pos hopen) hs rfl ⟨rfl, qcHalted_and _ q⟩
  | fcStep | qcStep _ | scan => exact hreach (s.emit (.jtag true [])) (if_pos hopen) hs rfl rfl
  | memRead addr e =>
    by_cases hpage : s.debugPage (addr.toNat / 8 * 8) = true
    · cases e with
      | none =>
        exact hreach (s.emit (.jtag true (Tab.getMany 0 s.pz.mem (addr.toNat / 8 * 8) 8))) ((if_pos hopen).trans (if_pos hpage)) hs rfl
          ⟨fun h => absurd hpage (by simp [h]), fun _ => ⟨fun _ => rfl, s.out, rfl⟩⟩
      | some e =>
        refine reaches_act he hl hg ?_
        unfold State.Debugged
        dsimp only
        rw [show s.debugAccess (.memRead addr (some e)) = _ from (if_pos hopen).trans (if_pos hpage), State.settle_out]
        exact ⟨fun h => absurd hpage (by simp [h]), fun _ => ⟨fun h => absurd h (by simp), _, rfl⟩⟩
    · exact hreach (s.emit (.jtag false [])) ((if_pos hopen).trans (if_neg hpage)) hs rfl ⟨fun _ => rfl, fun h => absurd h hpage⟩
  | memWrite addr data =>
    by_cases hpage : s.debugPage (addr.toNat / 8 * 8) = true
    · have hlen : (Bytes.slice data 0 8).length = 8 := Bytes.slice_length data 0 8
      refine hreach { s with pz := s.pz.writeBytes (addr.toNat / 8 * 8) (Bytes.slice data 0 8), out := .jtag true [] :: s.out }
        ((if_pos hopen).trans (if_pos hpage)) (hs.congr rfl (fun _ => rfl) (fun a => ?_) (fun _ => rfl) rfl rfl rfl) rfl
        ⟨rfl, fun _ => ⟨?_, rfl⟩, fun h => absurd hpage (by simp [h]), fun x hx => ?_⟩
      · unfold State.segment
        dsimp only
        rw [Piazza.segs_writeBytes]
      · have hread := s.pz.getMany_writeBytes (addr.toNat / 8 * 8) (Bytes.slice data 0 8)
        rw [hlen] at hread
        exact hread
      · refine (congrArg (fun m => Tab.get 0 m x) (s.pz.mem_writeBytes _ _)).trans ?_
        rw [Tab.get_setMany, hlen, if_neg (by omega)]
    · exact hreach (s.emit (.jtag false [])) ((if_pos hopen).trans (if_neg hpage)) hs rfl
        ⟨rfl, fun h => absurd h hpage, fun _ => ⟨rfl, rfl⟩, fun _ _ => rfl⟩

/-- Settles O52; which bits of a write that does not take are blown is the free value of log entry 48. -/
theorem lifecyclePorts : Obligations.LifecyclePorts := by
  unfold Obligations.LifecyclePorts
  refine ⟨fun s target value hl hdec => ⟨fun hs stuck => ⟨fun hb => ?_, fun hb hp => ?_⟩, fun how hb hp hn => ?_⟩,
    fun s w bits stuck hup hdec => ⟨fun hw => ?_, fun hw => ?_⟩, fun s d hup hstep => ?_, fun s hup hrst => ?_⟩
  case refine_1 =>
    exact exec_act_to (exec_lifecyclePortRequest target value stuck s) hl hdec (State.portRequest_blocked hb _ _ _) hs rfl
  case refine_2 =>
    exact exec_act_to (exec_lifecyclePortRequest target value stuck s) hl hdec (State.portRequest_denied hb hp _ _) hs rfl
  case refine_3 =>
    have hnum : ∀ n : BitVec 4, (target = n) = (target.toNat = n.toNat) := fun n => propext BitVec.toNat_inj.symm
    have hn : (if target.toNat = 1 ∨ target.toNat = 2 then 5 else if target.toNat = 6 then 1 else 2) ≤ s.blankRecords := by
      simp only [hnum 1, hnum 2, hnum 6] at hn
      exact hn
    obtain ⟨i, hi⟩ := State.lowestBlank_of_blankRecords (s := s) (by split_ifs at hn <;> omega)
    refine reaches_act (exec_lifecyclePortRequest target value none s) hl hdec ⟨fun ha => ?_, fun ha => ?_, fun j f hj hf ha hbits => ?_⟩
    · rw [State.portRequest_eq hb hp hn hi, if_neg (by simp [ha]), State.settle_lc, State.settle_boot, State.settle_fuses]
      exact ⟨rfl, rfl, rfl⟩
    · obtain ⟨hboot, hcause, hflash, hword, hother⟩ := s.settle_takenIntent hb hp hn hi ha
      exact ⟨hboot, hcause, hflash, i, hi, hword, hother⟩
    · exact reaches_act (exec_lifecyclePortRequest target value (some f) s) hl hdec (s.settle_stuckIntent hb hp hn hj ha hf hbits)
  case refine_4 =>
    exact exec_act_to (exec_fusePortWrite w bits stuck s) hup.1 hdec (if_pos (by simp [hw])) hup.2 rfl
  case refine_5 =>
    exact State.reaches_fusePort hup hdec hw bits stuck
  case refine_6 =>
    have hg : (decide (2 ≤ s.boot.step) || s.boot.step == 0) = true := by simpa using hstep
    refine ⟨fun hclosed => ?_, fun hopen => ?_⟩
    · exact exec_act_to (exec_jtagDebugAccess d s) hup.1 hg (State.debugAccess_closed (by cases d <;> exact hclosed)) hup.2 rfl
    · have hscope : s.lc.openScopes.getLsbD (debugScope d) = true := by cases d <;> exact hopen
      exact State.reaches_debugAccess hup hg hscope
  case refine_7 =>
    exact exec_act_to (f := fun s => { s with lc := { s.lc with challengeRead := some s.now } }) rfl hup.1 (by simp [hrst]) rfl hup.2 rfl

end Sys2Proof.Machine
end

