-- ==== Sys2Proof/Proofs/PowerSteps.lean ====
section
/-! PROOFS. The step boundary of the power manager (R402 to R404, R408 to R411, R495). -/

namespace Sys2Proof.Machine

theorem exec_powerStepBoundary (x : PowerSense) (s : State) : exec (.powerStepBoundary x) s
    = act (s.ptu.atStep && !(s.ptu.firing.any fun f => f.kind == .commit)) (fun s => s.powerStep x) s := rfl

/-! The stages of a boundary. -/

/-- The state in which a boundary looks at its step: the rise that began is over, and the policy is in force. -/
def State.begun (s : State) (x : PowerSense) : State := (s.finishRise x.avsOk).adoptPolicy

def State.overCurrents (s : State) (x : PowerSense) : Nat := (x.amps.filter fun a => decide (s.pm.iccMax < a)).length
def State.isHot (s : State) (x : PowerSense) : Bool := s.pm.hot || decide (950 ≤ x.tj)
def State.isOver (s : State) (x : PowerSense) : Bool :=
  decide (capEff s.pm.active x.derate < x.powerDw * 10) || s.isHot x || decide (0 < s.overCurrents x)

def State.alarmed (s : State) (x : PowerSense) : State :=
  if decide (0 < s.overCurrents x) then
    let t := s.kerbEvents [0, 0, 0, 0, 0, 0, s.overCurrents x]
    { t with pm := { t.pm with coolSince := none } }
  else s

def State.lowered (s : State) (x : PowerSense) : Bool × State :=
  (s.alarmed x).descents (s.pm.critical || decide (1050 ≤ x.tj)) (s.isOver x) (decide (0 < s.overCurrents x))

def State.isCalm (s : State) (x : PowerSense) : Bool :=
  decide (x.powerDw * 100 < 9 * capEff s.pm.active x.derate) && !s.isHot x && !(s.lowered x).2.pm.warm && decide (x.tj < 930)
    && (x.amps.all fun a => decide (a * 10 < 9 * s.pm.iccMax)) && !(s.lowered x).1

def State.stepEnded (s : State) (x : PowerSense) : State :=
  let t := if s.isOver x then (s.lowered x).2.abandonReadmission else (s.lowered x).2
  { t with pm := t.pm.endStep x t.ptu.tick (s.isOver x) (s.isCalm x), ptu := { t.ptu with atStep := false } }

def State.ascended (s : State) : State :=
  if s.boot.step = 12 && !s.pm.planeOff && decide (upDelay s.pm.active ≤ s.pm.calmSteps) then
    let (up, t) := s.ascend
    if up then { t with pm := { t.pm with calmSteps := 0 } } else t
  else s

def Power.isCool (p : Power) (now : Nat) : Bool := match p.coolSince with
  | some t => decide (t + 1000000000 ≤ now)
  | none => false

def State.recalled (s : State) : State :=
  if s.pm.planeOff && s.pm.isCool s.now && !s.pm.returning then
    ({ s with pm := { s.pm with returning := true, rising := false } }.setOpp 0).requestRail 0
  else s

theorem State.powerStep_eq (s : State) (x : PowerSense) : s.powerStep x = (((s.begun x).stepEnded x).ascended.recalled).boostSuspects := rfl

/-! What the ladder acts on: the power manager beside the voltage it asked for, the units and the Kerb's flags. -/

def Power.ladder (p : Power) : Power :=
  { p with
    requested := 0, ramping := none, readmit := [], units := [], domains := 0, kerbFlags := 0, kerbCounts := [], kerbHit := false
    kerbSteps := 0 }

def State.ladder (s : State) : State := { boot := s.boot, sess := s.sess, ptu := s.ptu, pm := s.pm.ladder }

theorem State.ladder_requestRail (s : State) (n : Nat) : (s.requestRail n).ladder = s.ladder := by
  unfold State.requestRail
  dsimp only
  split <;> rfl

theorem State.ladder_setOpp (s : State) (n : Nat) : (s.setOpp n).ladder = { s.ladder with pm := { s.ladder.pm with opp := n } } := rfl

theorem State.ladder_boostSuspects (s : State) : s.boostSuspects.ladder = s.ladder := by
  unfold State.boostSuspects
  dsimp only
  rw [State.ladder_requestRail]
  rfl

theorem State.ladder_onUnit (s : State) (a : Nat) (u : UnitState) : (s.onUnit a u).ladder = s.ladder := rfl

theorem State.ladder_unitDown (s : State) (a : Nat) (i : IntegState) : (s.unitDown a i).ladder = s.ladder := by
  have h : (s.zeroiseUnit a).ladder = s.ladder := (congrArg State.ladder (s.beyond_zeroiseUnit a) :)
  unfold State.unitDown
  generalize s.zeroiseUnit a = u at h
  exact h

theorem State.ladder_abandonReadmission (s : State) : s.abandonReadmission.ladder = s.ladder := by
  unfold State.abandonReadmission
  split
  · rfl
  · dsimp only
    rw [State.ladder_onUnit, State.ladder_unitDown]
    rfl

/-! What holds of every boundary. -/

/-- The part of the ladder that neither an ascent nor a descent touches. -/
def State.steady (s : State) : State :=
  { s.ladder with pm := { s.ladder.pm with
    opp := 0, rising := false, descents := [], calmSteps := 0, overCap := false } }

theorem State.steady_of_ladder {s t : State} (h : t.ladder = s.ladder) : t.steady = s.steady :=
  (congrArg (fun u : State => ({ u with pm := { u.pm with
    opp := 0, rising := false, descents := [], calmSteps := 0, overCap := false } } : State)) h :)

theorem State.steady_requestRail (s : State) (n : Nat) : (s.requestRail n).steady = s.steady := State.steady_of_ladder (s.ladder_requestRail n)
theorem State.steady_setOpp (s : State) (n : Nat) : (s.setOpp n).steady = s.steady := rfl

theorem State.steady_withDescents (s : State) (d : List Descent) : State.steady { s with pm := { s.pm with descents := d } } = s.steady := rfl

/-- The state once a rise is over. -/
def State.riseOver (s : State) : State := { s with pm := { s.pm with rising := false } }

/-- The operating point has risen: where the last descent lowered it, that is reversed. -/
def State.raised (s : State) : State :=
  if s.pm.descents.getLast? = some .opp then { s with pm := { s.pm with descents := s.pm.descents.dropLast } } else s

theorem State.finishRise_idle {s : State} (h : s.pm.rising = false) (ok : Bool) : s.finishRise ok = s := if_pos (by simp [h])

theorem State.finishRise_fails {s : State} (h : s.pm.rising = true) : s.finishRise false = s.riseOver.requestRail s.pm.opp :=
  if_neg (by simp [h])

theorem State.finishRise_rises {s : State} (h : s.pm.rising = true) : s.finishRise true = (s.riseOver.setOpp (s.pm.opp + 1)).raised :=
  if_neg (by simp [h])

theorem State.steady_raised (s : State) : s.raised.steady = s.steady := by
  unfold State.raised
  split
  · exact s.steady_withDescents _
  · rfl

theorem State.steady_finishRise (s : State) (ok : Bool) : (s.finishRise ok).steady = s.steady := by
  cases h : s.pm.rising with
  | false => rw [State.finishRise_idle h]
  | true =>
    cases ok with
    | false =>
      rw [State.finishRise_fails h, State.steady_requestRail]
      rfl
    | true =>
      rw [State.finishRise_rises h, State.steady_raised, State.steady_setOpp]
      rfl

theorem State.steady_adoptPolicy (s : State) : s.adoptPolicy.steady = { s.steady with pm := { s.steady.pm with active := s.pm.policy } } := by
  unfold State.adoptPolicy
  dsimp only
  split
  · rw [State.steady_requestRail, State.steady_setOpp]
    rfl
  · rfl

theorem State.steady_lowerOpp (s : State) : s.lowerOpp.steady = s.steady := by
  unfold State.lowerOpp
  refine Eq.trans (b := (State.requestRail _ _).steady) rfl ?_
  rw [State.steady_requestRail, State.steady_setOpp]

theorem State.steady_shedJobs (s : State) (l : List Nat) : (s.shedJobs l).steady = s.steady :=
  (State.steady_of_ladder (foldl_keeps State.ladder _ (fun u j => (rfl : (u.onJob j fun x => { x with shed := true }).ladder = u.ladder)) l s) :)

theorem State.steady_shedStreams (s : State) (l : List Nat) : (s.shedStreams l).steady = s.steady :=
  (State.steady_of_ladder (foldl_keeps State.ladder _ (fun u j => (rfl : (u.onStream j fun x => { x with shed := true }).ladder = u.ladder)) l s) :)

theorem State.steady_descendWork {s t : State} (h : s.descendWork = some t) : t.steady = s.steady := by
  unfold State.descendWork at h
  split at h
  · cases h; exact s.steady_lowerOpp
  · split at h
    · cases h; exact s.steady_shedJobs _
    · split at h
      · cases h; exact s.steady_lowerOpp
      · cases h

theorem State.steady_descend (s : State) : s.descend.2.steady = s.steady := by
  unfold State.descend
  split
  · next t h => exact State.steady_descendWork h
  · split
    · rfl
    · exact s.steady_shedStreams _

theorem State.steady_descendAll (n : Nat) (b : Bool) (s : State) : (State.descendAll n b s).2.steady = s.steady := by
  induction n generalizing b s with
  | zero => rfl
  | succ n ih =>
    unfold State.descendAll
    split
    · next t h => rw [ih, State.steady_descendWork h]
    · rfl

theorem State.steady_descents (s : State) (c e i : Bool) : (s.descents c e i).2.steady = s.steady := by
  have hall : (if c then State.descendAll 48 false s else (false, s)).2.steady = s.steady := by
    split
    · exact State.steady_descendAll 48 false s
    · rfl
  unfold State.descents
  generalize (if c then State.descendAll 48 false s else (false, s)) = v at hall
  obtain ⟨a, u⟩ := v
  dsimp only at hall ⊢
  split
  · exact hall
  · split
    · split
      · rw [State.steady_descend, State.steady_descend, hall]
      · rw [State.steady_descend, hall]
    · exact hall

theorem State.steady_beginRise (s : State) : s.beginRise.steady = s.steady := by
  unfold State.beginRise
  rw [State.steady_requestRail]
  rfl

theorem State.steady_ascend (s : State) : s.ascend.2.steady = s.steady := by
  unfold State.ascend
  dsimp only
  split
  · split
    · exact State.steady_beginRise _
    · rfl
  · exact State.steady_beginRise _
  · exact (State.steady_of_ladder (foldl_keeps State.ladder _
      (fun u j => (rfl : (u.onJob j fun x => { x with shed := false }).ladder = u.ladder)) _ _) :)
  · exact (State.steady_of_ladder (foldl_keeps State.ladder _
      (fun u j => (rfl : (u.onStream j fun x => { x with shed := false }).ladder = u.ladder)) _ _) :)

/-- What a boundary leaves of the steady part: the policy, the step's readings and the tick. -/
theorem State.steady_begun (s : State) (x : PowerSense) :
    (s.begun x).steady = { s.steady with pm := { s.steady.pm with active := s.pm.policy } } := by
  have hrise := s.steady_finishRise x.avsOk
  have hpolicy : (s.finishRise x.avsOk).pm.policy = s.pm.policy := (congrArg (fun u : State => u.pm.policy) hrise :)
  unfold State.begun
  rw [State.steady_adoptPolicy, hrise, hpolicy]

theorem State.steady_alarmed (s : State) (x : PowerSense) : (s.alarmed x).steady = { s.steady with pm := { s.steady.pm with
    coolSince := if 0 < s.overCurrents x then none else s.pm.coolSince } } := by
  unfold State.alarmed
  by_cases h : 0 < s.overCurrents x
  · rw [if_pos (decide_eq_true h), if_pos h]
    rfl
  · rw [if_neg (by simpa using h), if_neg h]
    rfl

theorem State.ladder_stepEnded (s : State) (x : PowerSense) : (s.stepEnded x).ladder = { (s.lowered x).2.ladder with
    ptu := { (s.lowered x).2.ptu with atStep := false }
    pm := { (s.lowered x).2.ladder.pm with
      derate := x.derate, overCap := s.isOver x, hot := false, warm := false, critical := false, powerDw := x.powerDw, tj := x.tj
      calmSteps := if s.isCalm x then (s.lowered x).2.pm.calmSteps + 1 else 0, stepTick := some (s.lowered x).2.ptu.tick } } := by
  have hkept : (if s.isOver x then (s.lowered x).2.abandonReadmission else (s.lowered x).2).ladder = (s.lowered x).2.ladder := by
    split
    · exact State.ladder_abandonReadmission _
    · rfl
  unfold State.stepEnded
  generalize (if s.isOver x then (s.lowered x).2.abandonReadmission else (s.lowered x).2) = u at hkept
  have hptu : u.ptu = (s.lowered x).2.ptu := (congrArg State.ptu hkept :)
  have hcalm : u.pm.calmSteps = (s.lowered x).2.pm.calmSteps := (congrArg (fun v : State => v.pm.calmSteps) hkept :)
  rw [← hkept, ← hptu, ← hcalm]
  rfl

theorem State.steady_stepEnded (s : State) (x : PowerSense) : (s.stepEnded x).steady = { s.steady with
    ptu := { s.ptu with atStep := false }
    pm := { s.steady.pm with
      derate := x.derate, hot := false, warm := false, critical := false, powerDw := x.powerDw, tj := x.tj, stepTick := some s.ptu.tick
      coolSince := if 0 < s.overCurrents x then none else s.pm.coolSince } } := by
  have hlowered : (s.lowered x).2.steady = _ := (State.steady_descents _ _ _ _).trans (s.steady_alarmed x)
  have hladder := s.ladder_stepEnded x
  generalize (s.lowered x).2 = u at hlowered hladder
  have hptu : u.ptu = s.ptu := (congrArg State.ptu hlowered :)
  rw [hptu] at hladder
  have hsteady : (s.stepEnded x).steady = { u.steady with
      ptu := { s.ptu with atStep := false }
      pm := { u.steady.pm with
        derate := x.derate, hot := false, warm := false, critical := false, powerDw := x.powerDw, tj := x.tj
        stepTick := some s.ptu.tick } } :=
    (congrArg (fun v : State => ({ v with pm := { v.pm with opp := 0, rising := false, descents := [], calmSteps := 0, overCap := false } } : State)) hladder :)
  rw [hsteady, hlowered]

theorem State.ascended_cases (s : State) : s.ascended = s ∨ s.ascended = s.ascend.2
    ∨ s.ascended = { s.ascend.2 with pm := { s.ascend.2.pm with calmSteps := 0 } } := by
  unfold State.ascended
  generalize s.ascend = v
  obtain ⟨up, t⟩ := v
  cases up <;> dsimp only <;> split
  · exact .inr (.inl rfl)
  · exact .inl rfl
  · exact .inr (.inr rfl)
  · exact .inl rfl

theorem State.ascended_idle {s : State} (h : s.pm.planeOff = true ∨ s.pm.calmSteps = 0) : s.ascended = s := by
  refine if_neg ?_
  rcases h with h | h
  · simp [h]
  · simp [h, upDelay]

theorem State.steady_ascended (s : State) : s.ascended.steady = s.steady := by
  rcases s.ascended_cases with h | h | h <;> rw [h]
  · exact s.steady_ascend
  · exact s.steady_ascend

theorem State.recalled_idle {s : State} (h : s.pm.planeOff = false) : s.recalled = s := if_neg (by simp [h])

theorem State.recalled_returns {s : State} (hoff : s.pm.planeOff = true) (hcool : s.pm.isCool s.now = true) (hret : s.pm.returning = false) :
    s.recalled.ladder = { s.ladder with pm := { s.ladder.pm with returning := true, rising := false, opp := 0 } } := by
  refine (congrArg State.ladder (if_pos (by simp [hoff, hcool, hret]))).trans ?_
  rw [State.ladder_requestRail, State.ladder_setOpp]
  rfl

/-- What every boundary leaves: the policy, the step's readings and the tick. -/
theorem State.steady_powerStep (s : State) (x : PowerSense) : ∃ c r, (s.powerStep x).steady = { s.steady with
    ptu := { s.ptu with atStep := false }
    pm := { s.steady.pm with
      active := s.pm.policy, derate := x.derate, hot := false, warm := false, critical := false, powerDw := x.powerDw, tj := x.tj
      stepTick := some s.ptu.tick, coolSince := c, returning := r } } := by
  have hbegun := s.steady_begun x
  have hptu : (s.begun x).ptu = s.ptu := (congrArg State.ptu hbegun :)
  obtain ⟨r, hrecalled⟩ : ∃ r, ((s.begun x).stepEnded x).ascended.recalled.steady
      = { ((s.begun x).stepEnded x).steady with pm := { ((s.begun x).stepEnded x).steady.pm with returning := r } } := by
    have hascended := ((s.begun x).stepEnded x).steady_ascended
    rw [← hascended]
    generalize ((s.begun x).stepEnded x).ascended = u
    unfold State.recalled
    split
    · refine ⟨true, ?_⟩
      rw [State.steady_requestRail, State.steady_setOpp]
      rfl
    · exact ⟨u.pm.returning, rfl⟩
  refine ⟨if 0 < (s.begun x).overCurrents x then none else (s.begun x).pm.coolSince, r, ?_⟩
  rw [State.powerStep_eq, State.steady_of_ladder (State.ladder_boostSuspects _), hrecalled, State.steady_stepEnded, hptu, hbegun]

/-! A quiet boundary: nothing is critical and no rail's current is over its limit. -/

theorem State.overCurrents_none {s : State} {x : PowerSense} (h : ∀ a ∈ x.amps, a ≤ s.pm.iccMax) : s.overCurrents x = 0 := by
  unfold State.overCurrents
  rw [List.length_eq_zero_iff, List.filter_eq_nil_iff]
  intro a ha
  simpa using h a ha

theorem State.alarmed_quiet {s : State} {x : PowerSense} (h : s.overCurrents x = 0) : s.alarmed x = s := if_neg (by simp [h])

theorem State.lowered_quiet {s : State} {x : PowerSense} (h : s.overCurrents x = 0) (hc : s.pm.critical = false) (ht : x.tj < 1050) :
    s.lowered x = if s.isOver x then s.descend else (false, s) := by
  have hcrit : (s.pm.critical || decide (1050 ≤ x.tj)) = false := by simpa [hc] using ht
  unfold State.lowered State.descents
  rw [State.alarmed_quiet h, hcrit, h]
  simp

theorem State.isOver_false {s : State} {x : PowerSense} (h : s.overCurrents x = 0) (hcap : x.powerDw * 10 ≤ capEff s.pm.active x.derate)
    (hhot : s.pm.hot = false) (ht : x.tj < 950) : s.isOver x = false := by
  unfold State.isOver State.isHot
  simp [h, hhot, hcap, ht]

theorem State.isOver_cap {s : State} {x : PowerSense} (hcap : capEff s.pm.active x.derate < x.powerDw * 10) : s.isOver x = true := by
  unfold State.isOver
  simp [hcap]

/-- The policy is in force. -/
def State.ruled (s : State) : State := { s with pm := { s.pm with active := s.pm.policy } }

theorem State.adoptPolicy_kept {s : State} (h : s.pm.opp ≤ oppMax s.pm.policy) : s.adoptPolicy = s.ruled := if_neg (Nat.not_lt.mpr h)

theorem State.begun_quiet {s : State} (hr : s.pm.rising = false) (h : s.pm.opp ≤ oppMax s.pm.policy) (x : PowerSense) :
    s.begun x = s.ruled := by
  unfold State.begun
  rw [State.finishRise_idle hr, State.adoptPolicy_kept h]

theorem State.ladder_lowerOpp (s : State) : s.lowerOpp.ladder
    = { s.ladder with pm := { s.ladder.pm with opp := s.pm.opp - 1, descents := s.pm.descents ++ [.opp] } } := by
  have hrail := (s.setOpp (s.pm.opp - 1)).ladder_requestRail (s.pm.opp - 1)
  unfold State.lowerOpp
  generalize (s.setOpp (s.pm.opp - 1)).requestRail (s.pm.opp - 1) = u at hrail
  have hu : u.ladder = { s.ladder with pm := { s.ladder.pm with opp := s.pm.opp - 1 } } := hrail.trans (s.ladder_setOpp _)
  have hdescents : u.pm.descents = s.pm.descents := (congrArg (fun v : State => v.pm.descents) hu :)
  exact (congrArg (fun v : State => ({ v with pm := { v.pm with descents := u.pm.descents ++ [.opp] } } : State)) hu :).trans
    (by rw [hdescents])

theorem State.descend_lowers {s : State} (h : oppFloor s.pm.active < s.pm.opp) : s.descend = (true, s.lowerOpp) := by
  unfold State.descend State.descendWork
  rw [if_pos h]

/-- A step over its cap lowers the operating point. -/
theorem State.powerStep_over {s : State} {x : PowerSense} (hamps : ∀ a ∈ x.amps, a ≤ s.pm.iccMax) (hcrit : s.pm.critical = false)
    (htj : x.tj < 1050) (hoff : s.pm.planeOff = false) (hrise : s.pm.rising = false) (hcap : capEff s.pm.policy x.derate < x.powerDw * 10)
    (hfloor : oppFloor s.pm.policy < s.pm.opp) (hmax : s.pm.opp ≤ oppMax s.pm.policy) :
    (s.powerStep x).pm.opp = s.pm.opp - 1 ∧ (s.powerStep x).pm.descents = s.pm.descents ++ [.opp] ∧ (s.powerStep x).pm.overCap = true
      ∧ (s.powerStep x).pm.calmSteps = 0 := by
  have hnone : s.ruled.overCurrents x = 0 := State.overCurrents_none hamps
  have hover : s.ruled.isOver x = true := State.isOver_cap hcap
  have hlowered : s.ruled.lowered x = (true, s.ruled.lowerOpp) := by
    rw [State.lowered_quiet hnone hcrit htj, if_pos hover, State.descend_lowers hfloor]
  have hcalm : s.ruled.isCalm x = false := by
    unfold State.isCalm
    rw [hlowered]
    simp
  have hended := s.ruled.ladder_stepEnded x
  rw [hlowered, hcalm, hover, State.ladder_lowerOpp] at hended
  have hladder : (s.powerStep x).ladder = (s.ruled.stepEnded x).ladder := by
    have hsteps : (s.ruled.stepEnded x).pm.calmSteps = 0 := (congrArg (fun v : State => v.pm.calmSteps) hended :)
    have hplane : (s.ruled.stepEnded x).pm.planeOff = false := (congrArg (fun v : State => v.pm.planeOff) hended :).trans hoff
    rw [State.powerStep_eq, State.ladder_boostSuspects, State.begun_quiet hrise hmax, State.ascended_idle (.inr hsteps), State.recalled_idle hplane]
  rw [hended] at hladder
  exact ⟨(congrArg (fun v : State => v.pm.opp) hladder :), (congrArg (fun v : State => v.pm.descents) hladder :),
    (congrArg (fun v : State => v.pm.overCap) hladder :), (congrArg (fun v : State => v.pm.calmSteps) hladder :)⟩

/-- A calm step begins a rise where enough calm ones went before. -/
theorem State.powerStep_calm {s : State} {x : PowerSense} (hamps : ∀ a ∈ x.amps, a ≤ s.pm.iccMax) (hcrit : s.pm.critical = false)
    (hoff : s.pm.planeOff = false) (hrise : s.pm.rising = false) (hboot : s.boot.step = 12) (hdescents : s.pm.descents = [])
    (hmax : s.pm.opp < oppMax s.pm.policy) (hcap : x.powerDw * 100 < 9 * capEff s.pm.policy x.derate) (hhot : s.pm.hot = false)
    (hwarm : s.pm.warm = false) (htj : x.tj < 930) (hcool : ∀ a ∈ x.amps, a * 10 < 9 * s.pm.iccMax)
    (hdelay : upDelay s.pm.policy ≤ s.pm.calmSteps + 1) :
    (s.powerStep x).pm.opp = s.pm.opp ∧ (s.powerStep x).pm.rising = true ∧ (s.powerStep x).pm.calmSteps = 0 := by
  have hnone : s.ruled.overCurrents x = 0 := State.overCurrents_none hamps
  have hover : s.ruled.isOver x = false := by
    refine State.isOver_false hnone ?_ hhot (by omega)
    show x.powerDw * 10 ≤ capEff s.pm.policy x.derate
    omega
  have hlowered : s.ruled.lowered x = (false, s.ruled) := by
    rw [State.lowered_quiet hnone hcrit (by omega), if_neg (by simp [hover])]
  have hcalm : s.ruled.isCalm x = true := by
    unfold State.isCalm State.isHot
    rw [hlowered]
    have hcap' : x.powerDw * 100 < 9 * capEff s.ruled.pm.active x.derate := hcap
    have hhot' : s.ruled.pm.hot = false := hhot
    have hwarm' : s.ruled.pm.warm = false := hwarm
    have hcool' : ∀ a ∈ x.amps, a * 10 < 9 * s.ruled.pm.iccMax := hcool
    simp only [hcap', hhot', hwarm', htj, Bool.and_eq_true, decide_eq_true_eq, List.all_eq_true, Bool.not_eq_true', Bool.or_eq_false_iff,
      decide_eq_false_iff_not, true_and, and_true, Bool.not_false]
    exact ⟨by omega, hcool'⟩
  have hended := s.ruled.ladder_stepEnded x
  rw [hlowered, hcalm, hover] at hended
  generalize hu : s.ruled.stepEnded x = u at hended
  have hascend : u.ascend = (true, ({ u with pm := { u.pm with descents := [] } } : State).beginRise) := by
    have hdesc : u.pm.descents = [] := (congrArg (fun v : State => v.pm.descents) hended :).trans hdescents
    have hopp : u.pm.opp < oppMax u.pm.active := by
      have h1 : u.pm.opp = s.pm.opp := (congrArg (fun v : State => v.pm.opp) hended :)
      have h2 : u.pm.active = s.pm.policy := (congrArg (fun v : State => v.pm.active) hended :)
      rw [h1, h2]
      exact hmax
    unfold State.ascend
    rw [hdesc]
    exact if_pos hopp
  have hascended : u.ascended = { ({ u with pm := { u.pm with descents := [] } } : State).beginRise with
      pm := { ({ u with pm := { u.pm with descents := [] } } : State).beginRise.pm with calmSteps := 0 } } := by
    have h1 : u.boot.step = 12 := (congrArg (fun v : State => v.boot.step) hended :).trans hboot
    have h2 : u.pm.planeOff = false := (congrArg (fun v : State => v.pm.planeOff) hended :).trans hoff
    have h3 : u.pm.calmSteps = s.pm.calmSteps + 1 := (congrArg (fun v : State => v.pm.calmSteps) hended :)
    have h4 : u.pm.active = s.pm.policy := (congrArg (fun v : State => v.pm.active) hended :)
    refine (if_pos (by simp [h1, h2, h3, h4, hdelay])).trans ?_
    rw [hascend]
    rfl
  have hrisen : ({ u with pm := { u.pm with descents := [] } } : State).beginRise.ladder
      = { u.ladder with pm := { u.ladder.pm with descents := [], rising := true } } := by
    unfold State.beginRise
    rw [State.ladder_requestRail]
    rfl
  rw [hended] at hrisen
  generalize ({ u with pm := { u.pm with descents := [] } } : State).beginRise = v at hascended hrisen
  have hplane : u.ascended.pm.planeOff = false := by
    rw [hascended]
    exact (congrArg (fun v : State => v.pm.planeOff) hrisen :).trans hoff
  have hladder : (s.powerStep x).ladder = u.ascended.ladder := by
    rw [State.powerStep_eq, State.ladder_boostSuspects, State.begun_quiet hrise hmax.le, hu, State.recalled_idle hplane]
  rw [hascended] at hladder
  refine ⟨(congrArg (fun v : State => v.pm.opp) hladder :).trans ?_, (congrArg (fun v : State => v.pm.rising) hladder :).trans ?_,
    (congrArg (fun v : State => v.pm.calmSteps) hladder :)⟩
  · exact (congrArg (fun v : State => v.pm.opp) hrisen :)
  · exact (congrArg (fun v : State => v.pm.rising) hrisen :)

/-! The end of a rise. -/

theorem State.opp_ascend (s : State) : s.ascend.2.pm.opp = s.pm.opp := by
  have hrise : ∀ u : State, u.beginRise.pm.opp = u.pm.opp := fun u =>
    (congrArg (fun v : State => v.pm.opp) (State.ladder_requestRail { u with pm := { u.pm with rising := true } } (u.pm.opp + 1)) :)
  unfold State.ascend
  dsimp only
  split
  · split
    · exact hrise _
    · rfl
  · exact hrise _
  · exact foldl_keeps (fun u : State => u.pm.opp) _ (fun u j => (rfl : (u.onJob j fun x => { x with shed := false }).pm.opp = u.pm.opp)) _ _
  · exact foldl_keeps (fun u : State => u.pm.opp) _ (fun u j => (rfl : (u.onStream j fun x => { x with shed := false }).pm.opp = u.pm.opp)) _ _

theorem State.opp_ascended (s : State) : s.ascended.pm.opp = s.pm.opp := by
  rcases s.ascended_cases with h | h | h <;> rw [h]
  · exact s.opp_ascend
  · exact s.opp_ascend

/-- The steady part and what a rise leaves of the rest. -/
theorem State.begun_rising {s : State} (hr : s.pm.rising = true) (hmax : s.pm.opp < oppMax s.pm.policy) (x : PowerSense) :
    (s.begun x).pm.opp = if x.avsOk then s.pm.opp + 1 else s.pm.opp := by
  have hpolicy : (s.finishRise x.avsOk).pm.policy = s.pm.policy := (congrArg (fun u : State => u.pm.policy) (s.steady_finishRise x.avsOk) :)
  have hopp : (s.finishRise x.avsOk).pm.opp = if x.avsOk then s.pm.opp + 1 else s.pm.opp := by
    cases x.avsOk with
    | false =>
      rw [State.finishRise_fails hr]
      exact (congrArg (fun v : State => v.pm.opp) (s.riseOver.ladder_requestRail s.pm.opp) :)
    | true =>
      rw [State.finishRise_rises hr]
      unfold State.raised
      split <;> rfl
  unfold State.begun
  rw [State.adoptPolicy_kept (by rw [hpolicy, hopp]; split <;> omega)]
  exact hopp

theorem State.powerStep_rising {s : State} {x : PowerSense} (hamps : ∀ a ∈ x.amps, a ≤ s.pm.iccMax) (hcrit : s.pm.critical = false)
    (hoff : s.pm.planeOff = false) (hr : s.pm.rising = true) (hmax : s.pm.opp < oppMax s.pm.policy)
    (hcap : x.powerDw * 10 ≤ capEff s.pm.policy x.derate) (hhot : s.pm.hot = false) (htj : x.tj < 950) :
    (s.powerStep x).pm.opp = if x.avsOk then s.pm.opp + 1 else s.pm.opp := by
  have hopp := State.begun_rising hr hmax x
  have hbegun := s.steady_begun x
  generalize hb : s.begun x = b at hopp hbegun
  have hicc : b.pm.iccMax = s.pm.iccMax := (congrArg (fun v : State => v.pm.iccMax) hbegun :)
  have hactive : b.pm.active = s.pm.policy := (congrArg (fun v : State => v.pm.active) hbegun :)
  have hbhot : b.pm.hot = false := (congrArg (fun v : State => v.pm.hot) hbegun :).trans hhot
  have hbcrit : b.pm.critical = false := (congrArg (fun v : State => v.pm.critical) hbegun :).trans hcrit
  have hboff : b.pm.planeOff = false := (congrArg (fun v : State => v.pm.planeOff) hbegun :).trans hoff
  have hnone : b.overCurrents x = 0 := State.overCurrents_none (by rw [hicc]; exact hamps)
  have hover : b.isOver x = false := State.isOver_false hnone (by rw [hactive]; exact hcap) hbhot htj
  have hlowered : b.lowered x = (false, b) := by
    rw [State.lowered_quiet hnone hbcrit (by omega), if_neg (by simp [hover])]
  have hended := b.ladder_stepEnded x
  rw [hlowered] at hended
  have hplane : (b.stepEnded x).ascended.pm.planeOff = false := by
    refine (congrArg (fun v : State => v.pm.planeOff) (b.stepEnded x).steady_ascended :).trans ?_
    exact (congrArg (fun v : State => v.pm.planeOff) hended :).trans hboff
  rw [← hopp]
  have hladder : (s.powerStep x).ladder = (b.stepEnded x).ascended.ladder := by
    rw [State.powerStep_eq, State.ladder_boostSuspects, hb, State.recalled_idle hplane]
  have hstep : (b.stepEnded x).pm.opp = b.pm.opp := (congrArg (fun v : State => v.pm.opp) hended :)
  exact (congrArg (fun v : State => v.pm.opp) hladder :).trans ((State.opp_ascended _).trans hstep)

/-- A plane that has been cool for 1 s is to return, at OPP 0. -/
theorem State.powerStep_recalls {s : State} {x : PowerSense} {at0 : Nat} (hamps : ∀ a ∈ x.amps, a ≤ s.pm.iccMax)
    (hoff : s.pm.planeOff = true) (hret : s.pm.returning = false) (hsince : s.pm.coolSince = some at0) (hdue : at0 + 1000000000 ≤ s.now) :
    (s.powerStep x).pm.returning = true ∧ (s.powerStep x).pm.opp = 0 := by
  have hbegun := s.steady_begun x
  have hended := (s.begun x).steady_stepEnded x
  have hnone : (s.begun x).overCurrents x = 0 := by
    have hicc : (s.begun x).pm.iccMax = s.pm.iccMax := (congrArg (fun v : State => v.pm.iccMax) hbegun :)
    exact State.overCurrents_none (by rw [hicc]; exact hamps)
  rw [hnone, hbegun] at hended
  have hptu : (s.begun x).ptu = s.ptu := (congrArg State.ptu hbegun :)
  have hcs : (s.begun x).pm.coolSince = s.pm.coolSince := (congrArg (fun v : State => v.pm.coolSince) hbegun :)
  rw [hptu, hcs] at hended
  generalize hu : (s.begun x).stepEnded x = u at hended
  have huoff : u.pm.planeOff = true := (congrArg (fun v : State => v.pm.planeOff) hended :).trans hoff
  have huret : u.pm.returning = false := (congrArg (fun v : State => v.pm.returning) hended :).trans hret
  have hucool : u.pm.isCool u.now = true := by
    have h1 : u.pm.coolSince = some at0 := (congrArg (fun v : State => v.pm.coolSince) hended :).trans hsince
    have h2 : u.now = s.now := (congrArg State.now hended :)
    unfold Power.isCool
    rw [h1, h2]
    exact decide_eq_true hdue
  have hladder : (s.powerStep x).ladder = { u.ladder with pm := { u.ladder.pm with returning := true, rising := false, opp := 0 } } := by
    rw [State.powerStep_eq, State.ladder_boostSuspects, hu, State.ascended_idle (.inl huoff), State.recalled_returns huoff hucool huret]
  exact ⟨(congrArg (fun v : State => v.pm.returning) hladder :), (congrArg (fun v : State => v.pm.opp) hladder :)⟩

end Sys2Proof.Machine
end

