-- ==== Sys2Proof/Proofs/Plane.lean ====
section
/-! PROOFS. The Kerb, the trip and the return of the plane, and readmission (R405 to R407, R415, R416, R420). -/

namespace Sys2Proof.Machine

theorem exec_kerbSample (k : KerbSense) (s : State) : exec (.kerbSample k) s = act true (fun s => s.kerb k) s := rfl
theorem exec_planeReturn (ts : List SelfTest) (s : State) : exec (.planeReturn ts) s
    = act (s.pm.planeOff && s.pm.returning && s.planeDomain.isNone) (fun s => s.planeBack ts) s := rfl
theorem exec_readmissionStart (a : Arc) (s : State) : exec (.readmissionStart a) s
    = act (s.mayReadmit a.val) (fun s => s.startReadmission a.val) s := rfl

/-! What a sample finds. -/

theorem testBit_kerbSum (b0 b1 b2 b3 b4 b5 b6 b7 : Bool) : let n := (if b0 then 0 else 1) + ((if b1 then 0 else 2) + ((if b2 then 0 else 4)
      + ((if b3 then 0 else 8) + ((if b4 then 0 else 16) + ((if b5 then 0 else 32) + ((if b6 then 0 else 64) + (if b7 then 0 else 128)))))))
    (BitVec.ofNat 8 n).getLsbD 0 = !b0 ∧ (BitVec.ofNat 8 n).getLsbD 1 = !b1 ∧ (BitVec.ofNat 8 n).getLsbD 2 = !b2
      ∧ (BitVec.ofNat 8 n).getLsbD 5 = !b5 := by
  revert b0 b1 b2 b3 b4 b5 b6 b7
  decide

theorem kerbBits_spec (l : List Nat) : (kerbBits l).getLsbD 0 = decide (l.getD 0 0 ≠ 0) ∧ (kerbBits l).getLsbD 1 = decide (l.getD 1 0 ≠ 0)
    ∧ (kerbBits l).getLsbD 2 = decide (l.getD 2 0 ≠ 0) ∧ (kerbBits l).getLsbD 5 = decide (l.getD 5 0 ≠ 0) := by
  have h := testBit_kerbSum (decide (l.getD 0 0 = 0)) (decide (l.getD 1 0 = 0)) (decide (l.getD 2 0 = 0)) (decide (l.getD 3 0 = 0))
    (decide (l.getD 4 0 = 0)) (decide (l.getD 5 0 = 0)) (decide (l.getD 6 0 = 0)) (decide (l.getD 7 0 = 0))
  simp only [decide_eq_true_eq] at h
  simpa [kerbBits, List.range_succ] using h

/-- A sample of the rails changes the times of the limits, and finds nothing of the flags that the sensors raise. -/
def Sampled (s : State) (found : List Nat) (y : List Nat × State) : Prop :=
  (∃ v, y.2 = { s with pm := { s.pm with viol := v } }) ∧ y.1.getD 0 0 = found.getD 0 0 ∧ y.1.getD 1 0 = found.getD 1 0
    ∧ y.1.getD 2 0 = found.getD 2 0 ∧ y.1.getD 5 0 = found.getD 5 0

theorem Sampled.railSample {s : State} {found : List Nat} {y : List Nat × State} (h : Sampled s found y) (k : RailSense) :
    Sampled s found (State.railSample y k) := by
  obtain ⟨⟨v, hv⟩, h0, h1, h2, h5⟩ := h
  obtain ⟨l, u⟩ := y
  dsimp only at hv h0 h1 h2 h5
  subst hv
  refine ⟨⟨_, rfl⟩, ?_, ?_, ?_, ?_⟩
  · rw [← h0]
    rfl
  · rw [← h1]
    rfl
  · rw [← h2]
    rfl
  · rw [← h5]
    rfl

theorem sampled_rails (s : State) (found : List Nat) (l : List RailSense) : Sampled s found (l.foldl State.railSample (found, s)) :=
  foldl_holds (P := Sampled s found) (fun _ k h => h.railSample k) l ⟨⟨s.pm.viol, rfl⟩, rfl, rfl, rfl, rfl⟩

/-! What a trip of the plane keeps of the power manager. -/

/-- The power manager beside the plane, the units and the descents. -/
def Power.kerbView (p : Power) : Power :=
  { p with
    descents := [], ramping := none, readmit := [], units := [], domains := 0, planeOff := false, coolSince := none, returning := false
    rising := false }

theorem State.pm_of_beyond {s t : State} (h : t.beyond = s.beyond) : t.pm = s.pm := (congrArg State.pm h :)
theorem State.pm_of_beside {s t : State} (h : t.beside = s.beside) : { t.pm with descents := [] } = { s.pm with descents := [] } :=
  (congrArg (fun b : Beside => b.rest.pm) h :)

theorem State.pm_zeroiseAll (s : State) : s.zeroiseAll.pm = s.pm := State.pm_of_beyond s.beyond_zeroiseAll

/-- A unit that goes down changes the power manager's units and domains. -/
theorem State.unitDown_pm (s : State) (a : Nat) (i : IntegState) :
    ∃ u d, (s.unitDown a i).pm = { s.pm with units := u, domains := d } := by
  have h : (s.zeroiseUnit a).pm = s.pm := State.pm_of_beyond (s.beyond_zeroiseUnit a)
  unfold State.unitDown State.onUnit
  generalize s.zeroiseUnit a = v at h
  dsimp only
  rw [h]
  exact ⟨_, _, rfl⟩

theorem State.abandonReadmission_pm (s : State) :
    ∃ r l u d, s.abandonReadmission.pm = { s.pm with ramping := r, readmit := l, units := u, domains := d } := by
  unfold State.abandonReadmission
  split
  · exact ⟨s.pm.ramping, s.pm.readmit, s.pm.units, s.pm.domains, rfl⟩
  · next a ha =>
    dsimp only
    generalize hv : (State.onSeg { s with pm := { s.pm with ramping := none, readmit := s.pm.readmit ++ [a] } } a fun g =>
      { g with state := if s.health.retiredSeg.getLsbD a then .retired else .off }) = v
    have hpm : v.pm = { s.pm with ramping := none, readmit := s.pm.readmit ++ [a] } := by
      rw [← hv]
      rfl
    obtain ⟨u, d, hdown⟩ := v.unitDown_pm a (if State.marked s a then .retired else .off)
    refine ⟨none, s.pm.readmit ++ [a], Tab.set .off u a .waiting, d, ?_⟩
    unfold State.onUnit
    rw [hpm] at hdown
    exact congrArg (fun p : Power => { p with units := Tab.set .off p.units a .waiting }) hdown

theorem Arcade.integ_spareRows (c : Arcade) (lo hi : Nat) : (c.spareRows lo hi).integ = c.integ :=
  foldl_keeps Arcade.integ _ (fun c l => by dsimp only; split <;> rfl) _ c

theorem Arcade.integ_spared (c : Arcade) (lo hi : Nat) : ((c.zeroRows lo hi).spareRows lo hi).integ = c.integ :=
  Arcade.integ_spareRows _ lo hi

theorem Arcade.integ_regionDone (c : Arcade) (free : Bool) (r : Nat) : (c.regionDone free r).integ = c.integ := c.integ_spared _ _

theorem Arcade.integ_endOrder (o : ZOrder) (c : Arcade) : (o.items.foldl (fun c r => c.regionDone o.toPool r)
    (o.rows.foldl (fun (c : Arcade) r => (c.zeroRows r.1 r.2).spareRows r.1 r.2) c)).integ = c.integ :=
  (foldl_keeps Arcade.integ _ (fun c r => c.integ_regionDone o.toPool r) _ _).trans
    (foldl_keeps Arcade.integ (fun (c : Arcade) (r : Nat × Nat) => (c.zeroRows r.1 r.2).spareRows r.1 r.2) (fun c r => c.integ_spared r.1 r.2) _ c)

theorem State.integ_zeroiseUnit (s : State) (n a : Nat) : ((s.zeroiseUnit n).arcade a).integ = (s.arcade a).integ := by
  by_cases h : a = n
  · subst h
    have hrows : ∀ (u : State) (o : ZOrder), ((u.endRegionsOrder a o).arcade a).integ = (u.arcade a).integ := by
      intro u o
      unfold State.endRegionsOrder
      dsimp only
      rw [foldl_keeps (fun u : State => u.arcade a) _ fun v r => (rfl : (v.rowReport a r).arcade a = v.arcade a), State.arcade_of_onArc]
      exact Arcade.integ_endOrder o _
    unfold State.zeroiseUnit
    dsimp only
    rw [State.arcade_of_onArc]
    dsimp only
    rw [foldl_keeps (fun u : State => (u.arcade a).integ) _ hrows]
    unfold State.arcade
    exact congrArg (fun t : Tab Arcade => (Tab.get {} t a).integ) (foldl_keeps State.arc _ State.arc_endPagesOrder _ _)
  · rw [State.arcade_zeroiseUnit_other _ h]

theorem State.integ_zeroiseAll (s : State) (a : Nat) : (s.zeroiseAll.arcade a).integ = (s.arcade a).integ :=
  foldl_keeps (fun u : State => (u.arcade a).integ) _ (fun u n => u.integ_zeroiseUnit n a) _ s

/-- A power-loss warning leaves the power manager and the integrity states, and zeroises the plane's stores. -/
theorem State.powerLoss_plane (s : State) : s.powerLoss.pm = s.pm ∧ (∀ a, a < 16 → (s.powerLoss.arcade a).als = [])
    ∧ (∀ a, (s.powerLoss.arcade a).integ = (s.arcade a).integ) ∧ ∀ x, x < 2 ^ 26 → s.powerLoss.Zero x := by
  obtain ⟨v, hloss, -, hside⟩ := s.powerLoss_wipes
  have hpm : v.pm = s.pm := congrArg Prod.snd hside
  have harc : ∀ a, v.arcade a = s.arcade a := fun a => congrArg (fun x : Tab Arcade × Power => Tab.get ({} : Arcade) x.1 a) hside
  have hzpm := v.pm_zeroiseAll
  have hals := fun a (ha : a < 16) => v.als_zeroiseAll ha
  have hinteg := v.integ_zeroiseAll
  have hzero := fun x (hx : x < 2 ^ 26) => v.zero_zeroiseAll hx
  rw [hloss]
  generalize v.zeroiseAll = u at hzpm hals hinteg hzero
  exact ⟨hzpm.trans hpm, hals, fun a => (hinteg a).trans (congrArg Arcade.integ (harc a)), hzero⟩

/-- A trip with the plane up: what is left of it is off and empty. -/
theorem State.kerbTrip_down {s : State} (h : s.pm.planeOff = false) : s.kerbTrip.pm.kerbView = s.pm.kerbView
    ∧ s.kerbTrip.pm.planeOff = true ∧ s.kerbTrip.pm.returning = false ∧ (∃ d, s.kerbTrip.pm.domains = d &&& 0x3F_0000_0000)
    ∧ (∀ a, a < 16 → (s.kerbTrip.arcade a).integ = .off ∧ (s.kerbTrip.arcade a).als = []) ∧ ∀ x, x < 2 ^ 26 → s.kerbTrip.Zero x := by
  unfold State.kerbTrip
  rw [if_neg (by simp [h])]
  dsimp only
  generalize hu : State.dropWork _ _ _ = u
  have hview : u.pm.kerbView = s.pm.kerbView := by
    obtain ⟨r, l, w, d, hleft⟩ := s.abandonReadmission_pm
    have hends : u.beside = s.abandonReadmission.beside := by
      rw [← hu, State.beside_dropWork, State.beside_endJobs]
    refine (congrArg Power.kerbView (State.pm_of_beside hends) :).trans ?_
    rw [hleft]
    rfl
  have hpm := u.pm_zeroiseAll
  have hals := fun a (ha : a < 16) => u.als_zeroiseAll ha
  have hzero := fun x (hx : x < 2 ^ 26) => u.zero_zeroiseAll hx
  generalize u.zeroiseAll = v at hpm hals hzero
  refine ⟨?_, rfl, rfl, ⟨_, rfl⟩, fun a ha => ?_, hzero⟩
  · rw [← hview, ← hpm]
    rfl
  · unfold State.arcade
    dsimp only
    rw [Tab.get_mapVals (d := ({} : Arcade)) _ _ a rfl]
    exact ⟨rfl, hals a ha⟩

theorem State.kerbTrip_off {s : State} (h : s.pm.planeOff = true) : s.kerbTrip = { s with pm := { s.pm with
    domains := s.pm.domains &&& 0x3F_0000_0000, coolSince := none, returning := false } } := if_pos h

/-! A sample of the Kerb (R405 to R407). -/

/-- What a sample leaves before it trips the plane. -/
def State.kerbSampled (s : State) (k : KerbSense) (found : List Nat) : State :=
  let cool := (k.tj.all fun t => decide (t < 900)) && kerbBits found == 0
  let s := s.kerbEvents found
  { s with pm := { s.pm with
    hot := s.pm.hot || decide (0 < found.getD 0 0), warm := s.pm.warm || (k.tj.any fun t => decide (930 ≤ t))
    critical := s.pm.critical || decide (0 < found.getD 1 0), thermTrip := s.pm.thermTrip || (k.tj.any fun t => decide (1250 ≤ t))
    coolSince := if s.pm.planeOff && cool then some (s.pm.coolSince.getD s.now) else none
    returning := s.pm.returning && cool } }

def isTrip (found : List Nat) : Bool :=
  decide (0 < found.getD 2 0 + found.getD 3 0 + (found.getD 4 0 - found.getD 8 0) + found.getD 5 0 + found.getD 7 0)

def State.protect (s : State) (found : List Nat) : State :=
  if isTrip found then s.kerbTrip else if kerbBits found != 0 then s.abandonReadmission else s

theorem State.kerb_eq (s : State) (k : KerbSense) : ∃ found v, found.getD 0 0 = (kerbFound k).getD 0 0 ∧ found.getD 1 0 = (kerbFound k).getD 1 0
    ∧ found.getD 2 0 = (kerbFound k).getD 2 0 ∧ found.getD 5 0 = (kerbFound k).getD 5 0
    ∧ s.kerb k = let t := (State.kerbSampled { s with pm := { s.pm with tj := kerbTop k, sensors := k.tj, viol := v } } k found).protect found
        if 0 < found.getD 8 0 then t.powerLoss else t := by
  obtain ⟨⟨v, hv⟩, h0, h1, h2, h5⟩ := sampled_rails { s with pm := { s.pm with tj := kerbTop k, sensors := k.tj } } (kerbFound k) k.rails
  unfold State.kerb
  dsimp only
  generalize k.rails.foldl State.railSample (kerbFound k, { s with pm := { s.pm with tj := kerbTop k, sensors := k.tj } }) = y at hv h0 h1 h2 h5
  obtain ⟨found, u⟩ := y
  dsimp only at hv h0 h1 h2 h5 ⊢
  subst hv
  exact ⟨found, v, h0, h1, h2, h5, rfl⟩

theorem State.protect_view (s : State) (found : List Nat) : (s.protect found).pm.kerbView = s.pm.kerbView := by
  unfold State.protect
  split
  · cases h : s.pm.planeOff with
    | false => exact (State.kerbTrip_down h).1
    | true => rw [State.kerbTrip_off h]; rfl
  · split
    · obtain ⟨r, l, u, d, h⟩ := s.abandonReadmission_pm
      rw [h]
      rfl
    · rfl

/-- Protecting the plane takes it down where the sample trips it. -/
theorem State.protect_trips {s : State} {found : List Nat} (h : isTrip found = true) : (s.protect found).pm.planeOff = true
    ∧ (s.protect found).pm.returning = false ∧ ∃ d, (s.protect found).pm.domains = d &&& 0x3F_0000_0000 := by
  unfold State.protect
  rw [if_pos h]
  cases hoff : s.pm.planeOff with
  | false =>
    obtain ⟨-, h1, h2, h3, -⟩ := State.kerbTrip_down hoff
    exact ⟨h1, h2, h3⟩
  | true =>
    rw [State.kerbTrip_off hoff]
    exact ⟨hoff, rfl, _, rfl⟩

theorem domains_masked (d : BitVec 38) (i : Fin 32) : (d &&& 0x3F_0000_0000).getLsbD i.val = false := by
  have h : ∀ i : Fin 32, (0x3F_0000_0000 : BitVec 38).getLsbD i.val = false := by decide
  rw [BitVec.getLsbD_and, h, Bool.and_false]

theorem hot_iff (k : KerbSense) (n : Int) : decide ((k.tj.filter fun t => decide (n ≤ t)).length ≠ 0) = k.tj.any fun t => decide (n ≤ t) := by
  exact Bool.eq_iff_iff.mpr (by simp [List.filter_eq_nil_iff])

theorem isTrip_of {found : List Nat} (h : 0 < found.getD 2 0 ∨ 0 < found.getD 5 0) : isTrip found = true :=
  decide_eq_true (by omega)

/-- What a look of the Kerb leaves. -/
theorem State.kerb_leaves (s : State) (k : KerbSense) : let t := s.kerb k; let hot (n : Int) : Bool := k.tj.any fun x => decide (n ≤ x)
    t.pm.sensors = k.tj ∧ t.pm.thermTrip = (s.pm.thermTrip || hot 1250)
      ∧ t.pm.kerbFlags.getLsbD 0 = (s.pm.kerbFlags.getLsbD 0 || hot 950)
      ∧ t.pm.kerbFlags.getLsbD 1 = (s.pm.kerbFlags.getLsbD 1 || hot 1050)
      ∧ t.pm.kerbFlags.getLsbD 2 = (s.pm.kerbFlags.getLsbD 2 || hot 1150)
      ∧ t.pm.kerbFlags.getLsbD 5 = (s.pm.kerbFlags.getLsbD 5 || decide (1900 < k.aclkMhz))
      ∧ ((hot 1150 = true ∨ 1900 < k.aclkMhz) → t.pm.planeOff = true ∧ t.pm.returning = false
        ∧ ∀ d : Fin 32, t.pm.domains.getLsbD d.val = false)
      ∧ ((hot 1150 = true ∨ 1900 < k.aclkMhz) → s.pm.planeOff = false → (∀ a : Arc, (t.arcade a.val).integ = .off ∧ (t.arcade a.val).als = [])
        ∧ ∀ x, x < 2 ^ 26 → Tab.get 0 t.pz.mem x = 0) := by
  obtain ⟨found, v, h0, h1, h2, h5, hk⟩ := s.kerb_eq k
  obtain ⟨b0, b1, b2, b5⟩ := kerbBits_spec found
  have hoff : (State.kerbSampled { s with pm := { s.pm with tj := kerbTop k, sensors := k.tj, viol := v } } k found).pm.planeOff = s.pm.planeOff := rfl
  have hview := State.protect_view (State.kerbSampled { s with pm := { s.pm with tj := kerbTop k, sensors := k.tj, viol := v } } k found) found
  have hprotect : isTrip found = true → _ := fun h => State.protect_trips
    (s := State.kerbSampled { s with pm := { s.pm with tj := kerbTop k, sensors := k.tj, viol := v } } k found) h
  have hdown : isTrip found = true → s.pm.planeOff = false → _ := fun h hp => by
    have := State.kerbTrip_down (hoff.trans hp)
    rw [show State.kerbTrip _ = State.protect _ found from (if_pos h).symm] at this
    exact this
  generalize (State.kerbSampled { s with pm := { s.pm with tj := kerbTop k, sensors := k.tj, viol := v } } k found).protect found = t
    at hk hview hprotect hdown
  obtain ⟨hpm, hals, hinteg, hzero⟩ := t.powerLoss_plane
  have hkpm : (s.kerb k).pm = t.pm := by
    rw [hk]
    dsimp only
    split
    · exact hpm
    · rfl
  have hsensors : t.pm.sensors = k.tj := (congrArg Power.sensors hview :)
  have htherm : t.pm.thermTrip = (s.pm.thermTrip || k.tj.any fun t => decide (1250 ≤ t)) := (congrArg Power.thermTrip hview :)
  have hflags : t.pm.kerbFlags = s.pm.kerbFlags ||| kerbBits found := (congrArg Power.kerbFlags hview :)
  have htrip : ((k.tj.any fun x => decide (1150 ≤ x)) = true ∨ 1900 < k.aclkMhz) → isTrip found = true := by
    rintro (h | h)
    · refine isTrip_of (.inl (Nat.pos_of_ne_zero ?_))
      rw [h2]
      exact of_decide_eq_true ((hot_iff k 1150).trans h)
    · refine isTrip_of (.inr ?_)
      rw [h5]
      simp [kerbFound, h]
  dsimp only
  rw [hkpm]
  refine ⟨hsensors, htherm, ?_, ?_, ?_, ?_, fun h => ?_, fun h hp => ?_⟩
  · rw [hflags, BitVec.getLsbD_or, b0, h0, ← hot_iff]
    rfl
  · rw [hflags, BitVec.getLsbD_or, b1, h1, ← hot_iff]
    rfl
  · rw [hflags, BitVec.getLsbD_or, b2, h2, ← hot_iff]
    rfl
  · rw [hflags, BitVec.getLsbD_or, b5, h5]
    by_cases h : 1900 < k.aclkMhz <;> simp [kerbFound, h]
  · obtain ⟨hplane, hret, d, hd⟩ := hprotect (htrip h)
    refine ⟨hplane, hret, fun i => ?_⟩
    rw [hd]
    exact domains_masked d i
  · obtain ⟨-, -, -, -, harc, hz⟩ := hdown (htrip h) hp
    rw [hk]
    dsimp only
    split
    · exact ⟨fun a => ⟨(hinteg a.val).trans (harc a.val a.isLt).1, hals a.val a.isLt⟩, hzero⟩
    · exact ⟨fun a => harc a.val a.isLt, hz⟩

/-! The return of the plane (R407). -/

/-- What the return of the plane leaves: the operating point, the boot, the sessions and the fuses. -/
def State.abiding (s : State) : Nat × Boot × Tab Session × Tab (BitVec 32) := (s.pm.opp, s.boot, s.sess, s.fuses)

theorem State.abiding_eq {s t : State} (h : t.abiding = s.abiding) :
    t.pm.opp = s.pm.opp ∧ t.boot = s.boot ∧ t.sess = s.sess ∧ t.fuses = s.fuses :=
  ⟨congrArg Prod.fst h, congrArg (fun x => x.2.1) h, congrArg (fun x => x.2.2.1) h, congrArg (fun x => x.2.2.2) h⟩

theorem State.abiding_of_beyond {s t : State} (h : t.beyond = s.beyond) : t.abiding = s.abiding := (congrArg State.abiding h :)

theorem State.abiding_onUnit (s : State) (a : Nat) (u : UnitState) : (s.onUnit a u).abiding = s.abiding := rfl
theorem State.abiding_onArc (s : State) (a : Nat) (f : Arcade → Arcade) : (s.onArc a f).abiding = s.abiding := rfl
theorem State.abiding_onSeg (s : State) (a : Nat) (f : Segment → Segment) : (s.onSeg a f).abiding = s.abiding := rfl
theorem State.abiding_pz (s : State) (pz : Piazza) : State.abiding { s with pz := pz } = s.abiding := rfl
theorem State.abiding_unitZeroised (s : State) (a : Nat) : (s.unitZeroised a).abiding = s.abiding := rfl

theorem State.abiding_unitDown (s : State) (a : Nat) (i : IntegState) : (s.unitDown a i).abiding = s.abiding := by
  have h := State.abiding_of_beyond (s.beyond_zeroiseUnit a)
  unfold State.unitDown
  generalize s.zeroiseUnit a = v at h
  exact h

theorem State.beyond_selfTest (s : State) (a : Nat) (t : SelfTest) : (s.selfTest a t).2.beyond = s.beyond := by
  unfold State.selfTest
  dsimp only
  rw [foldl_keeps State.beyond _ fun u p => u.beyond_retirePage _, foldl_keeps State.beyond _ fun u r => u.beyond_rowReport a r,
    State.beyond_onArc, State.beyond_onSeg, State.beyond_pz]

theorem State.abiding_failUnit (s : State) (a : Nat) : (s.failUnit a).abiding = s.abiding := by
  unfold State.failUnit
  dsimp only
  rw [State.abiding_unitDown]
  rfl

theorem State.abiding_returnUnit (s : State) (a : Nat) (t : SelfTest) : (s.returnUnit a t).abiding = s.abiding := by
  have htest := State.abiding_of_beyond (s.beyond_selfTest a t)
  unfold State.returnUnit
  dsimp only
  split
  · rfl
  · split
    · rw [State.abiding_onUnit, State.abiding_onArc, State.abiding_onSeg, State.abiding_pz, State.abiding_unitZeroised]
      exact htest
    · rw [State.abiding_failUnit]
      generalize (s.selfTest a t).2 = u at htest
      exact htest

theorem State.planeBack_leaves (s : State) (ts : List SelfTest) : (s.planeBack ts).pm.planeOff = false ∧ (s.planeBack ts).pm.returning = false
    ∧ (s.planeBack ts).pm.coolSince = none ∧ (s.planeBack ts).abiding = s.abiding := by
  have hfold := foldl_keeps State.abiding (fun (u : State) a => u.returnUnit a (ts.getD a {})) (fun u a => u.abiding_returnUnit a _) (List.range 16) s
  unfold State.planeBack
  generalize (List.range 16).foldl (fun (u : State) a => u.returnUnit a (ts.getD a {})) s = v at hfold
  exact ⟨rfl, rfl, rfl, hfold⟩

/-- Settles O55, from the ladder's stages, the trip and the return of the plane. -/
theorem powerLadder : Obligations.PowerLadder := by
  unfold Obligations.PowerLadder
  refine ⟨fun s x hl hstep hfire => ?_, fun s k hl => ?_, fun s ts hl hoff hret hdom => ?_, fun s a hup => ⟨fun hmay => ?_, fun hmay => ?_⟩⟩
  case refine_1 =>
    have hcommit : (s.ptu.firing.any fun f => f.kind == .commit) = false := by
      simpa [List.any_eq_false] using hfire
    obtain ⟨c, r, hsteady⟩ := s.steady_powerStep x
    refine reaches_act (exec_powerStepBoundary x s) hl (by simp [hstep, hcommit]) ?_
    rw [State.settle_ptu, State.settle_pm, State.settle_sess]
    refine ⟨(congrArg State.ptu hsteady :), (congrArg (fun v : State => v.pm.active) hsteady :), (congrArg (fun v : State => v.pm.stepTick) hsteady :),
      (congrArg (fun v : State => v.pm.derate) hsteady :), (congrArg (fun v : State => v.pm.powerDw) hsteady :),
      (congrArg (fun v : State => v.pm.tj) hsteady :), (congrArg (fun v : State => v.pm.hot) hsteady :),
      (congrArg (fun v : State => v.pm.critical) hsteady :), (congrArg State.sess hsteady :), ?_, ?_, ?_, ?_⟩
    · rintro ⟨hcrit, htj, hamps, hoff⟩ hrise hcap hfloor hmax
      exact State.powerStep_over hamps hcrit htj hoff hrise hcap hfloor hmax
    · rintro ⟨hcrit, -, hamps, hoff⟩ hrise hboot - hdescents hmax hcap hhot hwarm htj hcool hdelay
      exact State.powerStep_calm hamps hcrit hoff hrise hboot hdescents hmax hcap hhot hwarm htj hcool hdelay
    · rintro ⟨hcrit, -, hamps, hoff⟩ hrise hmax hcap hhot htj
      have hopp := State.powerStep_rising hamps hcrit hoff hrise hmax hcap hhot htj
      exact ⟨fun h => by rw [hopp, if_pos h], fun h => by rw [hopp, if_neg (by simp [h])]⟩
    · exact fun at0 hoff hret hsince hdue hamps => State.powerStep_recalls hamps hoff hret hsince hdue
  case refine_2 =>
    refine reaches_act (exec_kerbSample k s) hl rfl ?_
    simp only [State.settle_pm, State.settle_arcade, State.settle_pz]
    exact s.kerb_leaves k
  case refine_3 =>
    obtain ⟨hplane, hreturning, hcool, habiding⟩ := s.planeBack_leaves ts
    refine reaches_act (exec_planeReturn ts s) hl (by simp [hoff, hret, hdom]) ?_
    rw [State.settle_pm, State.settle_boot, State.settle_sess, State.settle_fuses]
    obtain ⟨hopp, hboot, hsess, hfuses⟩ := State.abiding_eq habiding
    exact ⟨hplane, hreturning, hcool, hopp, hboot, hsess, hfuses⟩
  case refine_4 =>
    exact reaches_act_to (t := s.startReadmission a.val) (exec_readmissionStart a s) hup.1 hmay rfl hup.2 rfl
      ⟨rfl, rfl, Tab.get_set_same UnitState.off s.pm.units a.val .ramping, fun b hb => Tab.get_set_other UnitState.off s.pm.units .ramping hb⟩
  case refine_5 =>
    exact exec_idle_of_act (exec_readmissionStart a s) hmay

end Sys2Proof.Machine
end

