-- ==== Sys2Proof/Proofs/BootParts.lean ====
section
/-! PROOFS. What the parts of a boot leave as it was (R274 to R291, R299 to R306, R316 to R318, R347). -/

namespace Sys2Proof.Machine

/-- What the parts of a boot step leave to the step itself. -/
def Boot.fixed (b : Boot) : Boot :=
  { step := b.step, stage := b.stage, bl1Image := b.bl1Image, fcImage := b.fcImage, mrLock := b.mrLock, held := b.held
    trayUntil := b.trayUntil }

/-- The state as the parts of a boot step leave it. -/
def State.bootView (s : State) : State :=
  { top := s.top, ptu := s.ptu, pm := s.pm, lc := { grant := s.lc.grant }, trng := { state := s.trng.state }
    health := { qc := s.health.qc }, boot := s.boot.fixed }

theorem State.bootView_report (s : State) (r : HRec) : (s.report r).bootView = s.bootView := by
  have hqc := s.report_qc r
  have hframe : (s.report r).bootView = { s.bootView with health := { qc := (s.report r).health.qc } } := rfl
  rw [hframe, hqc]
  rfl

/-! Draws and key slots. -/

theorem State.bootView_draw (s : State) : s.draw.2.bootView = s.bootView := rfl
theorem State.bootView_onKeySlot (s : State) (n : Nat) (f : KeySlot → KeySlot) : (s.onKeySlot n f).bootView = s.bootView := rfl
theorem State.bootView_keys (s : State) (k : Keys) : State.bootView { s with keys := k } = s.bootView := rfl
theorem State.bootView_fixSlot (s : State) (n : Nat) (b : Bytes) : (s.fixSlot n b).bootView = s.bootView := rfl

theorem State.bootView_useSlot (s : State) (n : Nat) : (s.useSlot n).bootView = s.bootView := by
  unfold State.useSlot
  dsimp only
  split <;> rfl

theorem State.bootView_clearSlot (s : State) (n : Nat) : (s.clearSlot n).bootView = s.bootView := by
  unfold State.clearSlot
  dsimp only
  rw [State.bootView_onKeySlot]
  split
  · rfl
  · rw [State.bootView_draw, State.bootView_draw]

/-! Fuses. -/

theorem State.bootView_blow (s : State) (w : Nat) (bits : BitVec 32) : (s.blow w bits).bootView = s.bootView := rfl

theorem State.bootView_blowList (l : List (Nat × BitVec 32)) (stuck : Option (Fin 512)) (s : State) :
    (s.blowList l stuck).2.bootView = s.bootView := by
  induction l generalizing s with
  | nil => rfl
  | cons x l ih =>
    obtain ⟨w, b⟩ := x
    unfold State.blowList
    split
    · rfl
    · exact (ih _).trans (s.bootView_blow w b)

theorem State.bootView_blowAll (s : State) (w n : Nat) (stuck : Option (Fin 512)) : (s.blowAll w n stuck).bootView = s.bootView :=
  foldl_keeps State.bootView _ (fun u _ => u.bootView_blowList _ stuck) _ s

theorem State.bootView_fillBank (n w : Nat) (stuck : Option (Fin 512)) (s : State) :
    (State.fillBank n w stuck s).2.bootView = s.bootView := by
  induction n generalizing s with
  | zero => rfl
  | succ n ih =>
    unfold State.fillBank
    dsimp only
    split
    · exact ih _
    · exact State.bootView_blowList _ stuck _

theorem State.bootView_makeUds (s : State) (stuck : Option (Fin 512)) : (s.makeUds stuck).bootView = s.bootView := by
  unfold State.makeUds
  split
  · rfl
  · split
    · exact s.bootView_blowAll _ _ _
    · split
      · exact State.bootView_fillBank _ _ _ _
      · split
        · exact (State.bootView_fillBank _ _ _ _).trans (s.bootView_blowAll _ _ _)
        · rfl

theorem State.bootView_finishKills (s : State) (stuck : Option (Fin 512)) : (s.finishKills stuck).bootView = s.bootView :=
  foldl_keeps State.bootView _ (fun u w => by split; exacts [u.bootView_blowAll _ _ _, rfl]) _ s

theorem State.bootView_raiseCounter (s : State) (n v : Nat) (stuck : Option (Fin 512)) : (s.raiseCounter n v stuck).bootView = s.bootView := by
  unfold State.raiseCounter
  split
  · rfl
  · exact foldl_keeps (fun x : Bool × State => x.2.bootView) _ (fun x i => by
      dsimp only
      split
      · exact State.bootView_blowList _ stuck _
      · rfl) _ _

theorem State.bootView_decodeRecord (s : State) (i : Nat) (stuck : Option (Fin 512)) : (s.decodeRecord i stuck).2.bootView = s.bootView := by
  unfold State.decodeRecord
  dsimp only
  split
  · rfl
  · split
    · rfl
    · split
      · split <;> rfl
      · exact s.bootView_blowAll _ _ _

theorem State.bootView_decodeLifecycle (s : State) (stuck : Option (Fin 512)) : (s.decodeLifecycle stuck).bootView = s.bootView := by
  have hfold := foldl_keeps (fun x : Bool × State => x.2.bootView) (fun (x : Bool × State) i => if x.1 then x else x.2.decodeRecord i stuck)
    (fun x i => by
      split
      · rfl
      · exact x.2.bootView_decodeRecord i stuck) (List.range 16) (false, { s with lc := { s.lc with state := 0, record := 0, pendingRecord := none } })
  unfold State.decodeLifecycle
  dsimp only
  generalize List.foldl _ _ _ = x at hfold
  exact hfold

/-! The flash. -/

theorem State.bootView_hostWrite (s : State) (wv : Nat × Nat) (addr : Nat) (b : Bytes) (bad : List (Nat × Nat)) :
    (s.hostWrite wv addr b bad).bootView = s.bootView := by
  rw [State.hostWrite_frame]
  rfl

theorem State.bootView_flashWrite (s : State) (addr : Nat) (b : Bytes) : (s.flashWrite addr b).bootView = s.bootView := by
  obtain ⟨o, h⟩ := s.flashWrite_eq addr b
  rw [h]
  rfl

theorem State.bootView_flashErase (s : State) (lo hi : Nat) : (s.flashErase lo hi).bootView = s.bootView := by
  obtain ⟨o, h⟩ := s.flashErase_eq lo hi
  rw [h]
  rfl

theorem State.bootView_xspiStart (s : State) : s.xspiStart.bootView = s.bootView := by
  unfold State.xspiStart
  dsimp only
  split
  · rfl
  · split <;> rfl

theorem State.bootView_writeBootRecord (s : State) (a t : Bool) (n : Nat) : (s.writeBootRecord a t n).bootView = s.bootView := by
  refine Eq.trans (b := (State.flashWrite _ _ _).bootView) rfl ?_
  exact s.bootView_flashWrite _ _

theorem State.bootView_setCertPrefix (s : State) (k : Nat) (b : Bytes) : (s.setCertPrefix k b).bootView = s.bootView :=
  (State.bootView_flashWrite _ _ _).trans (s.bootView_flashErase _ _)

theorem State.bootView_ownCertificates (s : State) : s.ownCertificates.bootView = s.bootView := by
  unfold State.ownCertificates
  dsimp only
  split
  · rw [State.bootView_setCertPrefix, State.bootView_setCertPrefix, State.bootView_draw, State.bootView_useSlot]
  · rfl

/-! Images. -/

theorem State.bootView_askAdvance (s : State) (k : Ksi) (p : Bool) : (s.askAdvance k p).bootView = s.bootView := by
  unfold State.askAdvance
  split
  · split <;> rfl
  · rfl

theorem Boot.fixed_extend (b : Boot) (mr comp flags index svn word : Nat) (m : BitVec 384) :
    (b.extend mr comp flags index svn word m).fixed = b.fixed := by
  unfold Boot.extend
  dsimp only
  split
  · rfl
  · split
    · rfl
    · split <;> rfl

theorem State.bootView_extendMr (s : State) (mr comp flags index svn word : Nat) (m : BitVec 384) :
    (s.extendMr mr comp flags index svn word m).bootView = s.bootView :=
  congrArg (fun b => ({ s.bootView with boot := b } : State)) (s.boot.fixed_extend mr comp flags index svn word m)

theorem State.bootView_extendImage (s : State) (mr index : Nat) (k : Ksi) (fb fl : Bool) : (s.extendImage mr index k fb fl).bootView = s.bootView :=
  s.bootView_extendMr _ _ _ _ _ _ _

theorem State.bootView_copyIn (s : State) (want : Nat) (qs : List Nat) (c : Candidate) : (s.copyIn want qs c).bootView = s.bootView := by
  unfold State.copyIn
  dsimp only
  split <;> rfl

/-! The layers of the identity. -/

theorem State.bootView_deriveFirst (s : State) (bl1 : BitVec 384) : (s.deriveFirst bl1).bootView = s.bootView := by
  unfold State.deriveFirst
  split
  · rfl
  · dsimp only
    rw [State.bootView_fixSlot, State.bootView_fixSlot, State.bootView_useSlot, State.bootView_useSlot, State.bootView_fixSlot]
    rfl

theorem State.bootView_deriveSecond (s : State) (fc : BitVec 384) : (s.deriveSecond fc).bootView = s.bootView := by
  unfold State.deriveSecond
  split
  · rfl
  · dsimp only
    rw [State.bootView_fixSlot, State.bootView_keys, State.bootView_useSlot]

theorem State.bootView_deriveAlias (s : State) : s.deriveAlias.bootView = s.bootView := by
  unfold State.deriveAlias
  split
  · rfl
  · dsimp only
    rw [State.bootView_clearSlot, State.bootView_keys, State.bootView_fixSlot, State.bootView_fixSlot, State.bootView_useSlot,
      State.bootView_keys]

theorem State.bootView_fleet (s : State) (b : Bool) : State.bootView { s with lc := { s.lc with fleet := b } } = s.bootView := rfl
theorem State.bootView_bootKeys (s : State) (i c : BitVec 128) (k : Keys) : State.bootView { s with
    boot := { s.boot with bootId := i }, lc := { s.lc with challenge := c }, keys := k } = s.bootView := rfl

/-- The fused secrets take their slots where their banks are usable. -/
def State.fusedSlots (s : State) (fleet : Bool) : State :=
  let s := { s with lc := { s.lc with fleet := fleet } }
  let s := if fleet then s.fixSlot 6 (s.bankSecret 110) else s
  if s.bankUsable 92 then s.fixSlot 7 (s.bankSecret 92) else s

theorem State.bootView_ite {s t u : State} {c : Prop} [Decidable c] (ht : t.bootView = s.bootView) (hu : u.bootView = s.bootView) :
    (if c then t else u).bootView = s.bootView := by
  split
  · exact ht
  · exact hu

theorem State.bootView_fusedSlots (s : State) (fleet : Bool) : (s.fusedSlots fleet).bootView = s.bootView := by
  have hinner := State.bootView_ite (c := fleet = true) ((State.bootView_fixSlot _ 6 (State.bankSecret { s with lc := { s.lc with fleet := fleet } } 110)).trans
    (s.bootView_fleet fleet)) (s.bootView_fleet fleet)
  exact State.bootView_ite ((State.bootView_fixSlot _ _ _).trans hinner) hinner

theorem State.bootView_drawBootKeys (s : State) : s.drawBootKeys.bootView = s.bootView := by
  have hdrawn : s.draw.2.draw.2.draw.2.draw.2.bootView = s.bootView := by
    rw [State.bootView_draw, State.bootView_draw, State.bootView_draw, State.bootView_draw]
  unfold State.drawBootKeys
  dsimp only
  generalize s.draw.2.draw.2.draw.2.draw.2 = u at hdrawn
  rw [← hdrawn]
  refine Eq.trans (b := (State.fusedSlots _ _).bootView) rfl ?_
  rw [State.bootView_fusedSlots, State.bootView_fixSlot, State.bootView_bootKeys]

/-! Loads. -/

theorem State.bootView_streamPayload (s : State) (k : Ksi) : (s.streamPayload k).2.bootView = s.bootView :=
  (State.bootView_hostWrite _ _ _ _ _).trans rfl

theorem State.bootView_fillRegion (s : State) (w : LoadWork) (errs : List Bool) : (s.fillRegion w errs).2.2.bootView = s.bootView := by
  have hstream := s.bootView_streamPayload w.image
  unfold State.fillRegion
  generalize s.streamPayload w.image = x at hstream
  obtain ⟨ok, u⟩ := x
  dsimp only at hstream ⊢
  split
  · rfl
  · split
    · exact hstream
    · split
      · exact hstream
      · exact hstream

theorem State.bootView_openRegion (s : State) (w : LoadWork) (errs : List Bool) : (s.openRegion w errs).2.2.bootView = s.bootView := by
  unfold State.openRegion
  split
  · rfl
  · split
    · exact s.bootView_fillRegion w errs
    · rfl

theorem State.bootView_startLoad (s : State) (w : LoadWork) (errs : List Bool) : (s.startLoad w errs).2.2.bootView = s.bootView := by
  unfold State.startLoad
  dsimp only
  split
  · rfl
  · split
    · split
      · exact (State.bootView_openRegion _ w _).trans rfl
      · rfl
    · exact (State.bootView_openRegion _ w _).trans rfl

theorem State.bootView_holdFailed (s : State) (w : LoadWork) (code : Nat) : (s.holdFailed w code).bootView = s.bootView := by
  unfold State.holdFailed
  split
  · rfl
  · exact State.bootView_report _ _

theorem State.bootView_runLoads (n : Nat) (errs : List Bool) (s : State) : (State.runLoads n errs s).bootView = s.bootView := by
  induction n generalizing errs s with
  | zero => rfl
  | succ n ih =>
    unfold State.runLoads
    cases hl : s.boot.loads with
    | nil => rfl
    | cons w r =>
      have hstart := s.bootView_startLoad w errs
      dsimp only
      generalize s.startLoad w errs = x at hstart
      split
      · next u => exact hstart
      · next code e u _ =>
        have hgiven : ∀ l : List LoadWork, (State.holdFailed { u.noteFail code w.component with
            boot := { (u.noteFail code w.component).boot with loads := l } } w code).bootView = s.bootView :=
          fun l => (State.bootView_holdFailed _ w _).trans hstart
        split
        · split
          · exact (ih _ _).trans (hgiven r)
          · exact (ih _ _).trans hstart
        · exact (ih _ _).trans (hgiven r)

/-! The health area at the start of the runtime. -/

theorem State.bootView_health (s : State) {h : Health} (hq : h.qc = s.health.qc) : State.bootView { s with health := h } = s.bootView :=
  congrArg (fun q => ({ s.bootView with health := { qc := q } } : State)) hq

theorem State.bootView_readArea (s : State) : s.readArea.bootView = s.bootView := by
  unfold State.readArea
  split
  · rfl
  · exact s.bootView_health rfl

theorem State.bootView_noteOmapReset (s : State) : s.noteOmapReset.bootView = s.bootView := by
  unfold State.noteOmapReset
  dsimp only
  split
  · split
    · rw [State.bootView_report, State.bootView_report]
      exact s.bootView_health rfl
    · exact s.bootView_health rfl
  · rfl

theorem State.bootView_keepRetired (s : State) : s.keepRetired.bootView = s.bootView :=
  foldl_keeps State.bootView (fun (s : State) a => (s.onSeg a fun g => { g with state := .retired }).onArc a fun c => { c with integ := .retired })
    (fun _ _ => rfl) _ s

end Sys2Proof.Machine
end

