-- ==== Sys2Proof/Proofs/BootSteps.lean ====
section
/-! PROOFS. The steps of a boot, their locks, domains and the firewall's answers (R282 to R291, R318, R347, R399 to R401, R471, R472). -/

namespace Sys2Proof.Machine

theorem exec_bootStepDone (b : BootIn) (s : State) : exec (.bootStepDone b) s = act s.stepReady (fun s => s.bootStep b) s := rfl
theorem exec_romLock (s : State) : exec .romLock s = act (s.boot.step == 4) State.setRomLock s := rfl
theorem exec_bl1Lock (s : State) : exec .bl1Lock s = act (s.boot.step == 6) State.setBl1Lock s := rfl
theorem exec_domainGood (d : Fin 38) (s : State) : exec (.domainGood d) s = act (s.rampingDomain == some d.val) (fun s =>
    if d.val < 16 then (s.domainUp d.val).onUnit d.val .test else s.domainUp d.val) s := rfl
theorem exec_fwAck (ok : Bool) (errs : List Bool) (s : State) :
    exec (.fwAck ok errs) s = act s.boot.fwReq.isSome (fun s => s.firewallAnswer ok errs) s := rfl
theorem exec_firewallTimeout (errs : List Bool) (s : State) : exec (.firewallTimeout errs) s
    = act (s.boot.fwReq.any fun q => decide (q.asked + 10000 ≤ s.now)) (fun s => s.firewallAnswer false errs) s := rfl

/-! The steps. -/

theorem State.bootHardware_leaves (s : State) (stuck : Option (Fin 512)) : let t := s.bootHardware stuck
    t.boot.step = 2 ∧ t.boot.stage = .rom ∧ t.top.blkRst = false ∧ t.lc.decoded = true ∧ t.pm.domains.getLsbD 32 = true
      ∧ t.pm.domains.getLsbD 33 = true := by
  have hview := State.bootView_decodeLifecycle
    { s with top := { s.top with blkRst := false }, pm := { s.pm with domains := s.pm.domains ||| 0x3_0000_0000 } } stuck
  have hdecoded : (State.decodeLifecycle
    { s with top := { s.top with blkRst := false }, pm := { s.pm with domains := s.pm.domains ||| 0x3_0000_0000 } } stuck).lc.decoded = true := rfl
  unfold State.bootHardware
  dsimp only
  generalize State.decodeLifecycle _ stuck = u at hview hdecoded
  have hdomains : u.pm.domains = s.pm.domains ||| 0x3_0000_0000 := (congrArg (fun v : State => v.pm.domains) hview :)
  have hbit32 : (0x3_0000_0000 : BitVec 38).getLsbD 32 = true := by decide
  have hbit33 : (0x3_0000_0000 : BitVec 38).getLsbD 33 = true := by decide
  refine ⟨rfl, rfl, (congrArg (fun v : State => v.top.blkRst) hview :), hdecoded, ?_, ?_⟩
  · show u.pm.domains.getLsbD 32 = true
    rw [hdomains, BitVec.getLsbD_or, hbit32, Bool.or_true]
  · show u.pm.domains.getLsbD 33 = true
    rw [hdomains, BitVec.getLsbD_or, hbit33, Bool.or_true]

/-- The state of step 2 once its transition is over and its grant is read. -/
def State.romBegun (s : State) (b : BootIn) : State :=
  let s := if b.ringBad || s.health.nextRec == 0 then { s with health := s.health.rebuilt } else s
  let s := State.resumeAll 16 b.stuck s
  { s with lc := { s.lc with openScopes := s.scopesOf, grant := 0 } }

/-- The state of step 2 once its keys are drawn. -/
def State.romKeyed (s : State) (b : BootIn) : State :=
  let person : BitVec 384 := BitVec.ofNat 384 (Bytes.bigNat (s.serial ++ List.replicate 32 0))
  let s := { s with trng := Trng.seed { state := .ok, reseedAt := s.now } (Config.sha384 b.seed ^^^ person) }
  let s := (s.finishKills b.stuck).drawBootKeys
  s.report { event := 0x0001, detail := Bytes.ofNat 4 (s.resetCause % 2 ^ 32) }

theorem State.bootRom_eq (s : State) (b : BootIn) : s.bootRom b = if !(b.startup.take 3).any startupPasses then (s.romBegun b).haltBoot
    else let u := (s.romBegun b).romKeyed b
      if u.lc.state = 0 ∨ u.lc.state = 2 ∨ 6 ≤ u.lc.state ∨ u.lc.pendingRecord.isSome then u.haltBoot else u.atStep 3 .rom := by
  unfold State.bootRom State.romBegun State.romKeyed
  rfl

theorem State.romKeyed_view (s : State) (b : BootIn) : (s.romKeyed b).lc.grant = s.lc.grant ∧ (s.romKeyed b).trng.state = .ok := by
  unfold State.romKeyed
  dsimp only
  generalize hu : ({ s with trng := Trng.seed { state := .ok, reseedAt := s.now } (Config.sha384 b.seed ^^^
       BitVec.ofNat 384 (Bytes.bigNat (s.serial ++ List.replicate 32 0))) } : State) = u
  have hgrant : u.lc.grant = s.lc.grant := by rw [← hu]
  have hstate : u.trng.state = .ok := by
    rw [← hu]
    rfl
  have hview := (State.bootView_report (u.finishKills b.stuck).drawBootKeys
    { event := 0x0001, detail := Bytes.ofNat 4 ((u.finishKills b.stuck).drawBootKeys.resetCause % 2 ^ 32) }).trans
    ((State.bootView_drawBootKeys _).trans (u.bootView_finishKills b.stuck))
  generalize State.report _ _ = v at hview
  exact ⟨(congrArg (fun v : State => v.lc.grant) hview :).trans hgrant, (congrArg (fun v : State => v.trng.state) hview :).trans hstate⟩

theorem State.bootRom_leaves (s : State) (b : BootIn) : let t := s.bootRom b
    t.lc.grant = 0 ∧ ((∀ x ∈ b.startup.take 3, startupPasses x = false) → t.boot.step = 0 ∧ t.boot.stage = .halted)
      ∧ ((∃ x ∈ b.startup.take 3, startupPasses x = true) → t.trng.state = .ok
        ∧ t.boot.step = (if t.lc.state = 0 ∨ t.lc.state = 2 ∨ 6 ≤ t.lc.state ∨ t.lc.pendingRecord ≠ none then 0 else 3)) := by
  obtain ⟨hgrant, htrng⟩ := (s.romBegun b).romKeyed_view b
  have hzero : (s.romBegun b).lc.grant = 0 := rfl
  dsimp only
  rw [State.bootRom_eq]
  by_cases hany : (b.startup.take 3).any startupPasses = true
  · rw [if_neg (by simp [hany])]
    generalize (s.romBegun b).romKeyed b = u at hgrant htrng
    dsimp only
    have hpass : ¬ ∀ x ∈ b.startup.take 3, startupPasses x = false := by
      obtain ⟨x, hx, hp⟩ := List.any_eq_true.mp hany
      exact fun h => by rw [h x hx] at hp; cases hp
    by_cases hstop : u.lc.state = 0 ∨ u.lc.state = 2 ∨ 6 ≤ u.lc.state ∨ u.lc.pendingRecord.isSome = true
    · have hlc : u.haltBoot.lc = u.lc := rfl
      rw [if_pos hstop, hlc]
      refine ⟨hgrant.trans hzero, fun h => absurd h hpass, fun _ => ⟨htrng, (if_pos ?_).symm⟩⟩
      simpa [Option.isSome_iff_ne_none] using hstop
    · have hlc : (u.atStep 3 .rom).lc = u.lc := rfl
      rw [if_neg hstop, hlc]
      refine ⟨hgrant.trans hzero, fun h => absurd h hpass, fun _ => ⟨htrng, (if_neg ?_).symm⟩⟩
      simpa [Option.isSome_iff_ne_none] using hstop
  · rw [if_pos (by simpa using hany)]
    refine ⟨hzero, fun _ => ⟨rfl, rfl⟩, fun ⟨x, hx, hp⟩ => absurd (List.any_eq_true.mpr ⟨x, hx, hp⟩) hany⟩

theorem State.serialLoad_leaves (s : State) : (s.serialLoad 0).boot.step = 3 ∧ (s.serialLoad 0).boot.stage = .serial
    ∧ (s.serialLoad 0).uart.loader = 0 := ⟨rfl, rfl, rfl⟩

theorem State.bl1Image_of_view {s t : State} (h : t.bootView = s.bootView) : t.boot.bl1Image = s.boot.bl1Image :=
  (congrArg (fun x : State => x.boot.bl1Image) h :)

/-- BL1 is noted as the image that was taken. -/
def State.bl1Noted (s : State) (c : Candidate) (failed : Bool) : State :=
  let s := s.markUnverified failed
  { s with boot := { s.boot with
    bl1Image := some c.ksi, bl1Failed := failed, bl1Fallback := c.area != 4 && (c.area == 1) != s.boot.active, serial := c.area == 4 } }

theorem State.takeBl1_eq (s : State) (c : Candidate) (failed : Bool) (stuck : Option (Fin 512)) : ∃ (m r : BitVec 384) (fb p : Bool),
    s.takeBl1 c failed stuck = ((((State.deriveFirst (if (s.bl1Noted c failed).lc.state = 4 then (s.bl1Noted c failed).makeUds stuck
      else s.bl1Noted c failed) m).extendMr 0 0xFE 0 0 0 0 r).extendImage 0 0 c.ksi fb failed).askAdvance c.ksi p).atStep 4 .rom :=
  ⟨_, _, _, _, rfl⟩

theorem State.takeBl1_leaves (s : State) (c : Candidate) (failed : Bool) (stuck : Option (Fin 512)) :
    (s.takeBl1 c failed stuck).boot.step = 4 ∧ (s.takeBl1 c failed stuck).boot.bl1Image.isSome = true := by
  obtain ⟨m, r, fb, p, h⟩ := s.takeBl1_eq c failed stuck
  have himage : (s.bl1Noted c failed).boot.bl1Image = some c.ksi := rfl
  rw [h]
  generalize s.bl1Noted c failed = u at himage
  refine ⟨rfl, ?_⟩
  have hview := (State.bootView_askAdvance _ c.ksi p).trans ((State.bootView_extendImage _ 0 0 c.ksi fb failed).trans
    ((State.bootView_extendMr _ 0 0xFE 0 0 0 0 r).trans ((State.bootView_deriveFirst _ m).trans
      (State.bootView_ite (c := u.lc.state = 4) (u.bootView_makeUds stuck) rfl))))
  exact (congrArg Option.isSome ((State.bl1Image_of_view hview).trans himage) :)

theorem State.bootSelect_leaves (s : State) (errs : List Bool) (stuck : Option (Fin 512)) : let t := s.bootSelect errs stuck
    (s.top.straps.recoveryReq = true → t.boot.step = 3 ∧ t.boot.stage = .serial ∧ t.uart.loader = 0)
      ∧ ((t.boot.step = 3 ∧ t.boot.stage = .serial) ∨ (t.boot.step = 4 ∧ t.boot.bl1Image.isSome = true)) := by
  have htop : (((s.xspiStart.xspiRead 0 64).xspiRead 0x1000 64).xspiRead (slotBase s.bootRecord.active) 0x2000).top = s.top :=
    (congrArg State.top s.bootView_xspiStart :)
  unfold State.bootSelect
  dsimp only
  generalize ((s.xspiStart.xspiRead 0 64).xspiRead 0x1000 64).xspiRead (slotBase s.bootRecord.active) 0x2000 = u at htop
  by_cases hreq : s.top.straps.recoveryReq = true
  · rw [if_pos (by rw [htop]; exact hreq)]
    exact ⟨fun _ => State.serialLoad_leaves _, .inl ⟨rfl, rfl⟩⟩
  · rw [if_neg (by rw [htop]; exact hreq)]
    refine ⟨fun h => absurd h hreq, ?_⟩
    split
    · exact .inl ⟨rfl, rfl⟩
    · exact .inr (State.takeBl1_leaves _ _ _ _)

theorem State.takeFc_leaves (s : State) (t : Taken) : (s.takeFc t).boot.step = 6 ∧ (s.takeFc t).boot.fcImage.isSome = true := by
  refine ⟨rfl, ?_⟩
  unfold State.takeFc
  dsimp only
  generalize hu : ({ s.markUnverified t.failed with boot := { (s.markUnverified t.failed).boot with
    fcImage := some t.cand.ksi, fcFallback := (t.cand.area == 1) != s.boot.active, runningSlot := t.cand.area == 1 } } : State) = u
  have himage : u.boot.fcImage = some t.cand.ksi := by rw [← hu]
  have hview := (State.bootView_askAdvance ((u.deriveSecond t.cand.ksi.measurement).extendImage 1 0 t.cand.ksi ((t.cand.area == 1) != s.boot.active) t.failed)
    t.cand.ksi (!((t.cand.area == 1) != s.boot.active))).trans ((State.bootView_extendImage _ _ _ _ _ _).trans (u.bootView_deriveSecond _))
  have hw : _ = u.boot.fcImage := (congrArg (fun x : State => x.boot.fcImage) hview :)
  rw [himage] at hw
  exact (congrArg Option.isSome hw :)

theorem State.bootLoader_leaves (s : State) (errs : List Bool) : let t := s.bootLoader errs
    (t.boot.step = 6 ∧ t.boot.fcImage.isSome = true) ∨ (t.boot.step = 0 ∧ (t.boot.stage = .recovery ∨ t.boot.stage = .halted)) := by
  unfold State.bootLoader
  dsimp only
  split
  · exact .inl (State.takeFc_leaves _ _)
  · split
    · exact .inr ⟨rfl, .inl rfl⟩
    · exact .inr ⟨rfl, .inr rfl⟩

theorem State.bootRuntime_leaves (s : State) : let t := s.bootRuntime
    t.boot.step = 7 ∧ t.boot.stage = .fcInit ∧ t.boot.trayUntil = s.now + s.top.straps.traySlot.toNat * 20000000
      ∧ t.pm.domains = s.pm.domains ||| 0xC_0000_0000 ||| (if s.lc.openScopes = 0 then 0 else 0x20_0000_0000) := by
  have hpm : ∀ u : State, u.readArea.noteOmapReset.keepRetired.pm = u.pm := fun u =>
    (congrArg State.pm ((State.bootView_keepRetired _).trans ((State.bootView_noteOmapReset _).trans u.bootView_readArea)) :)
  have htray : ∀ u : State, u.readArea.noteOmapReset.keepRetired.boot.trayUntil = u.boot.trayUntil := fun u =>
    (congrArg (fun x : State => x.boot.trayUntil)
      ((State.bootView_keepRetired _).trans ((State.bootView_noteOmapReset _).trans u.bootView_readArea)) :)
  unfold State.bootRuntime
  dsimp only
  refine ⟨rfl, rfl, ?_, ?_⟩
  · refine Eq.trans (b := (State.readArea _).noteOmapReset.keepRetired.boot.trayUntil) rfl ?_
    rw [htray]
    rfl
  · refine Eq.trans (b := (State.readArea _).noteOmapReset.keepRetired.pm.domains) rfl ?_
    rw [hpm]
    dsimp only
    rw [BitVec.or_assoc]
    by_cases h : s.lc.openScopes = 0 <;> simp [h]

theorem State.failedQuarters {q : Nat} (l : List Nat) {s : State} (h : q ∈ l ∨ (s.qcOf q).state = .failed) :
    ((l.foldl (fun (s : State) q => s.onQc q fun c => { c with state := .failed }) s).qcOf q).state = .failed := by
  induction l generalizing s with
  | nil => exact h.resolve_left List.not_mem_nil
  | cons k l ih =>
    refine ih ?_
    by_cases hk : q = k
    · refine .inr ?_
      rw [hk]
      exact congrArg Qc.state (Tab.get_upd_same ({} : Qc) s.health.qc k fun c => { c with state := .failed })
    · refine h.imp (fun hm => (List.mem_cons.mp hm).resolve_left hk) fun hf => ?_
      exact (congrArg Qc.state (Tab.get_upd_other ({} : Qc) s.health.qc (fun c => { c with state := .failed }) hk)).trans hf

/-- The Quarters take their image, or have failed without one. -/
def State.quartersTaken (s : State) (errs : List Bool) : State :=
  match s.choose 1 [0, 1, 2, 3] errs 0 (s.stagedCandidates 1) with
  | (none, s) => (List.range 4).foldl (fun (s : State) q => s.onQc q fun c => { c with state := .failed }) s
  | (some t, s) =>
    let k := t.cand.ksi
    let s := (s.markUnverified t.failed).askAdvance k (t.index == 0)
    (List.range 4).foldl (fun (s : State) q =>
      (s.extendImage 2 q k (t.index != 0) t.failed).releaseQc q k) s

/-- Step 9 begins with its loads. -/
def State.loadsBegun (s : State) : State :=
  let s := s.atStep 9 .subsys
  { s with boot := { s.boot with loads := s.allLoads } }

theorem State.bootQuarters_eq (s : State) (errs : List Bool) : s.bootQuarters errs
    = State.runLoads 128 (errs.drop (s.stagedCandidates 1).length) (s.quartersTaken errs).loadsBegun := by
  unfold State.bootQuarters State.quartersTaken State.loadsBegun
  generalize s.choose 1 [0, 1, 2, 3] errs 0 (s.stagedCandidates 1) = x
  obtain ⟨t, u⟩ := x
  cases t <;> dsimp only

theorem State.quartersTaken_none {s : State} (h : s.stagedCandidates 1 = []) (errs : List Bool) : s.quartersTaken errs
    = (List.range 4).foldl (fun (s : State) q => s.onQc q fun c => { c with state := .failed }) s := by
  unfold State.quartersTaken
  rw [h]
  rfl

theorem State.qcOf_of_view {s t : State} (h : t.bootView = s.bootView) (q : Nat) : t.qcOf q = s.qcOf q :=
  (congrArg (fun x : State => x.qcOf q) h :)

theorem State.step_of_view {s t : State} (h : t.bootView = s.bootView) : t.boot.step = s.boot.step ∧ t.boot.stage = s.boot.stage :=
  ⟨(congrArg (fun x : State => x.boot.step) h :), (congrArg (fun x : State => x.boot.stage) h :)⟩

theorem State.qcOf_loadsBegun (s : State) (q : Nat) : s.loadsBegun.qcOf q = s.qcOf q := rfl

theorem State.bootQuarters_leaves (s : State) (errs : List Bool) : let t := s.bootQuarters errs
    t.boot.step = 9 ∧ t.boot.stage = .subsys ∧ (s.stagedCandidates 1 = [] → ∀ q : Fin 4, (t.qcOf q.val).state = .failed) := by
  have hview := State.bootView_runLoads 128 (errs.drop (s.stagedCandidates 1).length) (s.quartersTaken errs).loadsBegun
  dsimp only
  rw [State.bootQuarters_eq]
  generalize State.runLoads 128 _ (s.quartersTaken errs).loadsBegun = t at hview
  obtain ⟨hstep, hstage⟩ := State.step_of_view hview
  refine ⟨hstep.trans rfl, hstage.trans rfl, fun hnone q => ?_⟩
  rw [State.qcOf_of_view hview, State.qcOf_loadsBegun, State.quartersTaken_none hnone]
  exact State.failedQuarters _ (.inl (List.mem_range.mpr q.isLt))

theorem State.bootIdentity_leaves (s : State) : s.bootIdentity.boot.step = 11 ∧ s.bootIdentity.boot.stage = .identity ∧ s.bootIdentity.boot.mrLock = true := by
  refine ⟨rfl, rfl, ?_⟩
  unfold State.bootIdentity
  dsimp only
  refine Eq.trans (b := (State.deriveAlias _).boot.mrLock) rfl ?_
  exact (congrArg (fun x : State => x.boot.mrLock) (State.bootView_deriveAlias _) :).trans rfl

theorem State.bootView_raiseAll (s : State) (l : List (Nat × Nat)) (stuck : Option (Fin 512)) :
    (l.foldl (fun (s : State) x => s.raiseCounter x.1 x.2 stuck) s).bootView = s.bootView :=
  foldl_keeps State.bootView (fun (s : State) (x : Nat × Nat) => s.raiseCounter x.1 x.2 stuck) (fun u x => u.bootView_raiseCounter x.1 x.2 stuck) l s

theorem State.bootReady_leaves (s : State) (us : Nat) (stuck : Option (Fin 512)) : let t := s.bootReady us stuck
    t.boot.step = 12 ∧ t.boot.stage = .ready ∧ t.boot.readyUs = BitVec.ofNat 32 us ∧ t.health.readyAt = some s.now ∧ t.health.fcKick = s.now := by
  have hraised : (if s.boot.trial then s else s.boot.advances.foldl (fun (s : State) x => s.raiseCounter x.1 x.2 stuck) s).bootView = s.bootView :=
    State.bootView_ite rfl (s.bootView_raiseAll _ stuck)
  unfold State.bootReady
  generalize (if s.boot.trial then s else s.boot.advances.foldl (fun (s : State) x => s.raiseCounter x.1 x.2 stuck) s) = u at hraised
  have hrecord : (if u.boot.trial && u.boot.runningSlot == u.boot.active then u.writeBootRecord u.boot.active false 0 else u).bootView = s.bootView :=
    State.bootView_ite ((u.bootView_writeBootRecord _ _ _).trans hraised) hraised
  dsimp only
  generalize (if u.boot.trial && u.boot.runningSlot == u.boot.active then u.writeBootRecord u.boot.active false 0 else u) = v at hrecord
  have hcerts := v.bootView_ownCertificates.trans hrecord
  generalize v.ownCertificates = w at hcerts
  have hnow : w.now = s.now := (congrArg State.now hcerts :)
  rw [hnow]
  exact ⟨rfl, rfl, rfl, rfl, rfl⟩

/-! The firewall's answers. -/

theorem State.runLoads_nil {s : State} (h : s.boot.loads = []) (errs : List Bool) (n : Nat) : State.runLoads n errs s = s := by
  cases n with
  | zero => rfl
  | succ n =>
    unfold State.runLoads
    rw [h]

theorem State.askAdvance_frame (s : State) (k : Ksi) (p : Bool) :
    ∃ l, s.askAdvance k p = { s with boot := { s.boot with advances := l } } := by
  unfold State.askAdvance
  split
  · split
    · exact ⟨_, rfl⟩
    · exact ⟨s.boot.advances, rfl⟩
  · exact ⟨s.boot.advances, rfl⟩

theorem Boot.extend_frame (b : Boot) (mr comp flags index svn word : Nat) (m : BitVec 384) : ∃ t l r n e,
    b.extend mr comp flags index svn word m = { b with mr := t, bootLog := l, runtimeLog := r, runtimeTrunc := n, runtimeEvents := e } := by
  unfold Boot.extend
  split
  · exact ⟨b.mr, b.bootLog, b.runtimeLog, b.runtimeTrunc, b.runtimeEvents, rfl⟩
  · dsimp only
    split
    · exact ⟨_, _, b.runtimeLog, b.runtimeTrunc, b.runtimeEvents, rfl⟩
    · split
      · exact ⟨_, b.bootLog, _, b.runtimeTrunc, _, rfl⟩
      · exact ⟨_, b.bootLog, _, true, _, rfl⟩

/-- A measurement and the counters it asks to raise change the boot's own account. -/
theorem State.measured_frame (s : State) (mr index : Nat) (k : Ksi) (fb fl p : Bool) : ∃ t l r n e a,
    (s.extendImage mr index k fb fl).askAdvance k p = { s with boot := { s.boot with
      mr := t, bootLog := l, runtimeLog := r, runtimeTrunc := n, runtimeEvents := e, advances := a } } := by
  unfold State.extendImage State.extendMr
  obtain ⟨t, l, r, n, e, h⟩ := s.boot.extend_frame mr k.component ((if fb then 1 else 0) + (if fl then 2 else 0)) index k.svn
    k.versionWord.toNat k.measurement
  rw [h]
  obtain ⟨a, ha⟩ := State.askAdvance_frame
    { s with boot := { s.boot with mr := t, bootLog := l, runtimeLog := r, runtimeTrunc := n, runtimeEvents := e } } k p
  exact ⟨t, l, r, n, e, a, ha⟩

/-- The boot's account once a region is granted, before its measurement. -/
def State.granted (s : State) (q : FwReq) (k : Nat) : State := { s with boot := { s.boot with
  fwReq := none, loads := []
  fwRegions := (s.boot.fwRegions.filter fun (x : Nat × Nat × Nat × Bool) => !(x.1 == q.line && x.2.1 == q.base)) ++ [(q.line, q.base, q.pages, true)]
  held := s.boot.held &&& ~~~(BitVec.ofNat 32 (2 ^ k)) } }

/-- A grant releases its line; with no load after it nothing else begins. -/
theorem State.loadGranted_last (s : State) (w : LoadWork) {k : Nat} (q : FwReq) (errs : List Bool) (hk : w.line = some k) : ∃ b : Boot,
    s.loadGranted w [] q errs = { s with boot := b } ∧ b.fwReq = none ∧ b.loads = [] ∧ b.failed = s.boot.failed
      ∧ b.held = s.boot.held &&& ~~~(BitVec.ofNat 32 (2 ^ k)) ∧ b.step = s.boot.step := by
  have hmeasured : ∀ bad p, ∃ b : Boot, State.runLoads 128 errs (((s.granted q k).extendImage 3 k w.image w.onFallback bad).askAdvance w.image p)
      = { s with boot := b } ∧ b.fwReq = none ∧ b.loads = [] ∧ b.failed = s.boot.failed
        ∧ b.held = s.boot.held &&& ~~~(BitVec.ofNat 32 (2 ^ k)) ∧ b.step = s.boot.step := fun bad p => by
    obtain ⟨t, l, r, n, e, a, h⟩ := (s.granted q k).measured_frame 3 k w.image w.onFallback bad p
    rw [h, State.runLoads_nil rfl]
    exact ⟨_, rfl, rfl, rfl, rfl, rfl, rfl⟩
  unfold State.loadGranted
  rw [hk]
  exact hmeasured _ _

/-- A load that fails without a fallback holds its line for good. -/
theorem State.settle_loadFailed (s : State) {w : LoadWork} {k code : Nat} (errs : List Bool) (hk : w.line = some k) (hf : w.fallback = none) :
    let t := s.settle (s.loadFailed w [] code errs)
    t.boot.fwReq = none ∧ t.boot.loads = [] ∧ t.boot.held = s.boot.held ∧ t.boot.failed = s.boot.failed ||| BitVec.ofNat 32 (2 ^ k)
      ∧ t.boot.failCode = BitVec.ofNat 8 code := by
  unfold State.loadFailed State.holdFailed
  rw [hf, hk]
  dsimp only
  rw [State.runLoads_nil rfl, State.settle_boot]
  exact ⟨rfl, rfl, rfl, rfl, rfl⟩

/-- A region that is closed is filled, and asked for again as a grant. -/
theorem State.fillRegion_good {s : State} {w : LoadWork} {errs : List Bool} (he : errs.headD false = false)
    (hgood : Config.sha384 (ksiPayload w.image (s.loadBytes w.image)) = w.image.payloadDigest) : ∃ o, s.fillRegion w errs = (0, errs.drop 1,
      { s with out := o, boot := { s.boot with fwReq := some {
          grant := true, base := w.image.loadAddress / 4096, pages := regionPages w.image, line := w.code, asked := s.now } } }) := by
  have hwrite := State.hostWrite_frame (s.xspiRead (w.image.offset + ksiHead) w.image.payloadBytes) (0, 0) w.image.loadAddress
    (ksiPayload w.image (s.loadBytes w.image)) []
  unfold State.fillRegion State.streamPayload
  rw [if_neg (by rw [he]; simp)]
  dsimp only
  rw [if_pos (by simp [hgood]), hwrite]
  exact ⟨_, rfl⟩

theorem State.settle_qcStates (s t : State) : (∀ q : Fin 4, ((s.settle t).qcOf q.val).state = .failed) = ∀ q : Fin 4, (t.qcOf q.val).state = .failed := by
  unfold State.qcOf
  rw [State.settle_health]

/-- What the end of each step leaves (R282 to R287, R296, R343, R399, R401). -/
def State.Stepped (s : State) (b : BootIn) (t : State) : Prop :=
  (s.boot.step = 1 → t.boot.step = 2 ∧ t.boot.stage = .rom ∧ t.top.blkRst = false ∧ t.lc.decoded = true
        ∧ t.pm.domains.getLsbD 32 = true ∧ t.pm.domains.getLsbD 33 = true)
      ∧ (s.boot.step = 2 → t.lc.grant = 0
        ∧ ((∀ x ∈ b.startup.take 3, startupPasses x = false) → t.boot.step = 0 ∧ t.boot.stage = .halted)
        ∧ ((∃ x ∈ b.startup.take 3, startupPasses x = true) → t.trng.state = .ok ∧ t.boot.step
          = (if t.lc.state = 0 ∨ t.lc.state = 2 ∨ 6 ≤ t.lc.state ∨ t.lc.pendingRecord ≠ none then 0 else 3)))
      ∧ (s.boot.step = 3 → (s.top.straps.recoveryReq = true → t.boot.step = 3 ∧ t.boot.stage = .serial ∧ t.uart.loader = 0)
        ∧ ((t.boot.step = 3 ∧ t.boot.stage = .serial) ∨ (t.boot.step = 4 ∧ t.boot.bl1Image.isSome = true)))
      ∧ (s.boot.step = 4 → s.Synced →
        (s.boot.serial = false → t = { s with boot := { s.boot with step := 5, stage := .bl1 } })
        ∧ (s.boot.serial = true → t = { s with
            boot := { s.boot with step := 5, stage := .serial }, uart := { s.uart with loader := 1, load := none } }))
      ∧ (s.boot.step = 5 → (t.boot.step = 6 ∧ t.boot.fcImage.isSome = true)
        ∨ (t.boot.step = 0 ∧ (t.boot.stage = .recovery ∨ t.boot.stage = .halted)))
      ∧ (s.boot.step = 6 → t.boot.step = 7 ∧ t.boot.stage = .fcInit
        ∧ t.boot.trayUntil = s.now + s.top.straps.traySlot.toNat * 20000000
        ∧ t.pm.domains = s.pm.domains ||| 0xC_0000_0000 ||| (if s.lc.openScopes = 0 then 0 else 0x20_0000_0000))
      ∧ (s.boot.step = 7 → t.boot.step = 8 ∧ t.boot.stage = .qcLoad)
      ∧ (s.boot.step = 8 → t.boot.step = 9 ∧ t.boot.stage = .subsys
        ∧ (s.stagedCandidates 1 = [] → ∀ q : Fin 4, (t.qcOf q.val).state = .failed))
      ∧ (s.boot.step = 9 → s.Synced → t = { s with boot := { s.boot with step := 10, stage := .identity } })
      ∧ (s.boot.step = 10 → t.boot.step = 11 ∧ t.boot.stage = .identity ∧ t.boot.mrLock = true)
      ∧ (s.boot.step = 11 → t.boot.step = 12 ∧ t.boot.stage = .ready ∧ t.boot.readyUs = BitVec.ofNat 32 b.us
        ∧ t.health.readyAt = some s.now ∧ t.health.fcKick = s.now)

theorem State.reaches_bootStepDone {s : State} {b : BootIn} (hl : s.live = true) (hready : s.stepReady = true) :
    Reaches (.bootStepDone b) s (s.Stepped b) := by
  refine reaches_act (exec_bootStepDone b s) hl hready ⟨fun h => ?_, fun h => ?_, fun h => ?_, fun h hs => ?_, fun h => ?_, fun h => ?_,
    fun h => ?_, fun h => ?_, fun h hs => ?_, fun h => ?_, fun h => ?_⟩
  case refine_1 =>
    have hstep : s.bootStep b = s.bootHardware b.stuck := by simp only [State.bootStep, h]
    rw [hstep, State.settle_boot, State.settle_top, State.settle_lc, State.settle_pm]
    exact s.bootHardware_leaves b.stuck
  case refine_2 =>
    have hstep : s.bootStep b = s.bootRom b := by simp only [State.bootStep, h]
    rw [hstep, State.settle_boot, State.settle_lc, State.settle_trng]
    exact s.bootRom_leaves b
  case refine_3 =>
    have hstep : s.bootStep b = s.bootSelect b.flashErrs b.stuck := by simp only [State.bootStep, h]
    rw [hstep, State.settle_boot, State.settle_uart]
    exact s.bootSelect_leaves b.flashErrs b.stuck
  case refine_4 =>
    have hstep : s.bootStep b = if s.boot.serial then s.serialLoad 1 else s.atStep 5 .bl1 := by simp only [State.bootStep, h]
    rw [hstep]
    refine ⟨fun hserial => ?_, fun hserial => ?_⟩
    · rw [if_neg (by simp [hserial]), State.settle_of_synced s (by exact hs)]
      rfl
    · rw [if_pos hserial, State.settle_of_synced s (by exact hs)]
      rfl
  case refine_5 =>
    have hstep : s.bootStep b = s.bootLoader b.flashErrs := by simp only [State.bootStep, h]
    rw [hstep, State.settle_boot]
    exact s.bootLoader_leaves b.flashErrs
  case refine_6 =>
    have hstep : s.bootStep b = s.bootRuntime := by simp only [State.bootStep, h]
    rw [hstep, State.settle_boot, State.settle_pm]
    exact s.bootRuntime_leaves
  case refine_7 =>
    have hstep : s.bootStep b = s.atStep 8 .qcLoad := by simp only [State.bootStep, h]
    rw [hstep, State.settle_boot]
    exact ⟨rfl, rfl⟩
  case refine_8 =>
    have hstep : s.bootStep b = s.bootQuarters b.flashErrs := by simp only [State.bootStep, h]
    rw [hstep, State.settle_boot, State.settle_qcStates]
    exact s.bootQuarters_leaves b.flashErrs
  case refine_9 =>
    have hstep : s.bootStep b = s.atStep 10 .identity := by simp only [State.bootStep, h]
    rw [hstep, State.settle_of_synced s (by exact hs)]
    rfl
  case refine_10 =>
    have hstep : s.bootStep b = s.bootIdentity := by simp only [State.bootStep, h]
    rw [hstep, State.settle_boot]
    exact s.bootIdentity_leaves
  case refine_11 =>
    have hstep : s.bootStep b = s.bootReady b.us b.stuck := by simp only [State.bootStep, h]
    rw [hstep, State.settle_boot, State.settle_health]
    exact s.bootReady_leaves b.us b.stuck

/-- A slot is cleared, and no other slot and nothing but the generator changes. -/
theorem State.clearSlot_slots (s : State) (n : Nat) : ∃ t : Trng, s.clearSlot n = { s with
      keys := { s.keys with slots := Tab.upd {} s.keys.slots n fun _ => {} }, trng := t } ∧ t.state = s.trng.state := by
  have hdraws : ∃ t : Trng, (if s.drbgBlocked then s else s.draw.2.draw.2) = { s with trng := t } ∧ t.state = s.trng.state := by
    split
    · exact ⟨s.trng, rfl, rfl⟩
    · have hfirst := s.draw_frame
      have hstate := s.draw_trngState
      generalize s.draw.2 = u at hfirst hstate
      refine ⟨u.draw.2.trng, ?_, u.draw_trngState.trans hstate⟩
      rw [u.draw_frame, hfirst]
  obtain ⟨t, ht, hstate⟩ := hdraws
  unfold State.clearSlot
  rw [ht]
  exact ⟨t, rfl, hstate⟩

theorem State.slot_cleared (s : State) (k : Keys) (n : Nat) :
    State.slot { s with keys := { k with slots := Tab.upd {} s.keys.slots n fun _ => {} } } n = {} := by
  unfold State.slot
  rw [Tab.get_upd_same ({} : KeySlot)]

theorem State.slot_cleared_other (s : State) (k : Keys) (n : Nat) {m : Nat} (h : m ≠ n) :
    State.slot { s with keys := { k with slots := Tab.upd {} s.keys.slots n fun _ => {} } } m = s.slot m := by
  unfold State.slot
  rw [Tab.get_upd_other ({} : KeySlot) _ _ h]

theorem State.setRomLock_eq (s : State) : s.setRomLock = State.clearSlot { s with boot := { s.boot with romLock := true } } 0 := rfl
theorem State.setBl1Lock_eq (s : State) : s.setBl1Lock
    = State.clearSlot { s with boot := { s.boot with bl1Lock := true }, keys := { s.keys with cdi0 := [] } } 1 := rfl

theorem State.reaches_close {s : State} {q : FwReq} {w : LoadWork} {k : Nat} (hup : s.Up) (hq : s.boot.fwReq = some q) (hw : s.boot.loads = [w])
    (hk : w.line = some k) (hg : q.grant = false) {errs : List Bool} (he : errs.headD false = false) : Reaches (.fwAck true errs) s fun t =>
        Config.sha384 (ksiPayload w.image (s.loadBytes w.image)) = w.image.payloadDigest →
          t = { s with boot := t.boot, out := t.out } ∧ t.boot.fwReq = some
            { grant := true, base := w.image.loadAddress / 4096, pages := regionPages w.image, line := k, asked := s.now } := by
  by_cases hgood : Config.sha384 (ksiPayload w.image (s.loadBytes w.image)) = w.image.payloadDigest
  · have hcode : w.code = k := by
      unfold LoadWork.code
      rw [hk]
      rfl
    obtain ⟨o, hfill⟩ := State.fillRegion_good (s := { s with boot := { s.boot with
      fwReq := none, loads := [{ w with isClosed := true }], fwRegions := s.boot.fwRegions ++ [(q.line, q.base, q.pages, false)] } })
      (w := { w with isClosed := true }) he hgood
    rw [← hcode]
    refine reaches_act_to (t := { s with
        boot := { s.boot with
          fwReq := some { grant := true, base := w.image.loadAddress / 4096, pages := regionPages w.image, line := w.code, asked := s.now }
          loads := [{ w with isClosed := true }], fwRegions := s.boot.fwRegions ++ [(q.line, q.base, q.pages, false)] }
        out := o }) (exec_fwAck true errs s) hup.1 (by simp [hq]) ?_ hup.2 rfl fun _ => ⟨rfl, rfl⟩
    unfold State.firewallAnswer
    rw [hq, hw]
    dsimp only
    rw [if_neg (by simp), if_neg (by simp [hg]), hfill]
    rfl
  · exact reaches_act (exec_fwAck true errs s) hup.1 (by simp [hq]) fun h => absurd h hgood

/-- Settles O51, from what the parts of a boot leave. -/
theorem bootStepsRun : Obligations.BootStepsRun := by
  unfold Obligations.BootStepsRun
  refine ⟨fun s b hl hready => ?_, fun s hup hstep => ?_, fun s hup hstep => ?_, fun s d hup => ⟨fun hd => ?_, fun hd => ?_⟩,
    fun s q w k hup hq hw hk => ⟨fun hg errs => ?_, fun hf c errs hc => ?_, fun hg errs he => ?_⟩⟩
  case refine_1 => exact State.reaches_bootStepDone hl hready
  case refine_2 =>
    obtain ⟨r, hframe, hstate⟩ := State.clearSlot_slots { s with boot := { s.boot with romLock := true } } 0
    have hlock := (State.setRomLock_eq s).trans hframe
    exact reaches_act_to (exec_romLock s) hup.1 (by simp [hstep]) hlock (hup.2.congr rfl (fun _ => rfl) (fun _ => rfl) (fun _ => rfl) rfl hstate rfl) rfl
      ⟨rfl, State.slot_cleared _ _ _, fun n hn => State.slot_cleared_other _ _ _ hn⟩
  case refine_3 =>
    obtain ⟨r, hframe, hstate⟩ := State.clearSlot_slots { s with boot := { s.boot with bl1Lock := true }, keys := { s.keys with cdi0 := [] } } 1
    have hlock := (State.setBl1Lock_eq s).trans hframe
    exact reaches_act_to (exec_bl1Lock s) hup.1 (by simp [hstep]) hlock (hup.2.congr rfl (fun _ => rfl) (fun _ => rfl) (fun _ => rfl) rfl hstate rfl) rfl
      ⟨rfl, rfl, State.slot_cleared _ _ _, fun n hn => State.slot_cleared_other _ _ _ hn⟩
  case refine_4 =>
    by_cases h16 : d.val < 16
    · refine reaches_act_to (t := (s.domainUp d.val).onUnit d.val .test) (exec_domainGood d s) hup.1 (by simp [hd]) (if_pos h16) hup.2 rfl
        ⟨rfl, fun _ => Tab.get_set_same UnitState.off s.pm.units d.val .test, fun h => absurd h16 (Nat.not_lt.mpr h)⟩
    · exact reaches_act_to (t := s.domainUp d.val) (exec_domainGood d s) hup.1 (by simp [hd]) (if_neg h16) hup.2 rfl
        ⟨rfl, fun h => absurd h h16, fun _ => rfl⟩
  case refine_5 =>
    exact exec_idle_of_act (exec_domainGood d s) (by simpa using hd)
  case refine_6 =>
    obtain ⟨b, hgranted, hrest⟩ := s.loadGranted_last w q errs hk
    refine reaches_act_to (t := { s with boot := b }) (exec_fwAck true errs s) hup.1 (by simp [hq]) ?_ hup.2 rfl ⟨rfl, hrest⟩
    refine Eq.trans ?_ hgranted
    unfold State.firewallAnswer
    rw [hq, hw]
    simp [hg]
  case refine_7 =>
    have hanswer : s.firewallAnswer false errs = s.loadFailed { w with isClosed := w.isClosed || q.grant } [] 0x0A errs := by
      unfold State.firewallAnswer
      rw [hq, hw]
      rfl
    have hfailed := s.settle_loadFailed (w := { w with isClosed := w.isClosed || q.grant }) (code := 0x0A) errs hk hf
    have hfailed : let t := s.settle (s.firewallAnswer false errs)
        t.boot.fwReq = none ∧ t.boot.loads = [] ∧ t.boot.held = s.boot.held ∧ t.boot.failed = s.boot.failed ||| BitVec.ofNat 32 (2 ^ k)
          ∧ t.boot.failCode = 0x0A := by
      rw [hanswer]
      exact hfailed
    rcases hc with rfl | ⟨rfl, hlate⟩
    · exact reaches_act (exec_fwAck false errs s) hup.1 (by simp [hq]) hfailed
    · exact reaches_act (exec_firewallTimeout errs s) hup.1 (by simp [hq, hlate]) hfailed
  case refine_8 =>
    refine State.reaches_close hup hq hw hk hg he

end Sys2Proof.Machine
end

