-- ==== Sys2Proof/Proofs/CheckpointRows.lean ====
section
/-! PROOFS. Checkpoints that are cut and written (R206, R222 to R224, R454, R487). -/

namespace Sys2Proof.Machine

theorem exec_receiptCheckpoint (w : Win) (s : State) : exec (.receiptCheckpoint w) s
    = actCmd (s.fcCmd w.val 0x71) (fun c s => s.receiptCheckpoint w.val c) s := rfl

theorem exec_checkpointWrite {s : State} {k : Cut} (h : s.nextCut = some k) (err : Bool) : exec (.checkpointWrite err) s
    = act (s.fcUp && !s.drbgBlocked) (fun s =>
      if err then s.onSess k.session fun x => { x with ckptRetryAt := s.now + 100000000 } else s.checkpointWritten k) s := by
  show execCheckpointWrite err s = _
  unfold execCheckpointWrite
  rw [h]

/-! Outside a pair no cut is told to a partner. -/

theorem State.paired_of_off {s : State} (h : s.fm.state = .off) : s.paired = false := by
  unfold State.paired State.joined
  rw [h]
  rfl

theorem State.isStandby_of_off {s : State} (h : s.fm.state = .off) (sc : Nat) : s.isStandby sc = false := by
  unfold State.isStandby
  rw [State.paired_of_off h, Bool.false_and]

theorem State.sendCut_of_off {s : State} (h : s.fm.state = .off) (sc no high : Nat) : s.sendCut sc no high = s := by
  unfold State.sendCut State.isHome
  rw [State.paired_of_off h]
  exact if_neg (by simp)

/-- What a cut that is taken leaves: the outputs, the windows, and the numbers of every session's checkpoints. -/
def State.ckptView (s : State) (n : Nat) : List Out × Tab Window × Nat × BitVec 32 :=
  (s.out, s.win, (s.session n).ckptNo, (s.session n).written)

theorem State.ckptView_onSess (s : State) (sc : Nat) {f : Session → Session} (h : ∀ x, (f x).ckptNo = x.ckptNo ∧ (f x).written = x.written)
    (n : Nat) : (s.onSess sc f).ckptView n = s.ckptView n := by
  unfold State.ckptView
  by_cases hn : n = sc
  · rw [hn, State.session_of_onSess, (h _).1, (h _).2]
    rfl
  · rw [State.session_of_onSess_other _ _ hn]
    rfl

theorem State.ckptView_takeCut {s : State} (h : s.fm.state = .off) (sc : Nat) (k : CutKind) (nonce : BitVec 256) (w : Option Nat) (n : Nat) :
    (s.takeCut sc k nonce w).ckptView n = s.ckptView n := by
  unfold State.takeCut
  split
  · dsimp only
    rw [State.sendCut_of_off (by exact h), State.ckptView_onSess]
    · rfl
    · exact fun _ => ⟨rfl, rfl⟩
  · split <;> rfl

theorem State.ckptView_takeDeferred {s : State} (h : s.fm.state = .off) (n : Nat) : s.takeDeferred.ckptView n = s.ckptView n := by
  unfold State.takeDeferred
  split
  · rfl
  · next c r _ =>
    split
    · exact State.ckptView_takeCut (s := { s with cutWait := r }) h c.1 c.2.1 c.2.2.1 c.2.2.2 n
    · rfl

theorem State.ckptView_eq {s t : State} {n : Nat} (h : t.ckptView n = s.ckptView n) : t.out = s.out ∧ t.win = s.win
    ∧ (t.session n).ckptNo = (s.session n).ckptNo ∧ (t.session n).written = (s.session n).written :=
  ⟨congrArg Prod.fst h, congrArg (fun x => x.2.1) h, congrArg (fun x => x.2.2.1) h, congrArg (fun x => x.2.2.2) h⟩

theorem State.cut_due {s : State} (h : s.fm.state = .off) (sc : Nat) (nonce : BitVec 256) (w : Option Nat) :
    s.cut sc .command nonce w = { s with cutDue := s.cutDue ++ [(sc, .command, nonce, w)] } := by
  unfold State.cut
  rw [State.isStandby_of_off h, if_neg (by simp), if_neg (by simp)]

theorem State.rbCmd_of_fcCmd {s : State} {w op : Nat} {c : Cmd} (h : s.fcCmd w op = some c) : s.rbCmd w op = some c := by
  unfold State.fcCmd at h
  split at h
  · exact h
  · cases h

/-- The checkpoint has left for its ring and is signed. -/
def State.checkpointSent (s : State) (k : Cut) : State :=
  let no := (s.session k.session).ckptNo + 1
  let t := s.draw.2.hostWrite (s.draw.2.sessionWorld k.session) ((s.session k.session).ringAddr k.session no)
    (s.draw.2.checkpoint k no ((Bytes.big s.draw.1).take 32))
  if !s.noAlias && s.aliasRefused then t.logRefusedUse 4 else if t.noAlias then t else t.useAlias

theorem State.checkpointSent_frame {s : State} {k : Cut} (h : s.noAlias = true ∨ s.aliasRefused = false) : ∃ t c o,
    s.checkpointSent k = { s with trng := t, keys := c, out := o } ∧ o = (s.hostWrite (s.sessionWorld k.session)
      ((s.session k.session).ringAddr k.session ((s.session k.session).ckptNo + 1))
      (s.draw.2.checkpoint k ((s.session k.session).ckptNo + 1) ((Bytes.big s.draw.1).take 32))).out := by
  have hrefused : (!s.noAlias && s.aliasRefused) = false := by rcases h with h | h <;> simp [h]
  have hout := State.hostWrite_out_congr (s := s.draw.2) (t := s) rfl (s.sessionWorld k.session)
    ((s.session k.session).ringAddr k.session ((s.session k.session).ckptNo + 1))
    (s.draw.2.checkpoint k ((s.session k.session).ckptNo + 1) ((Bytes.big s.draw.1).take 32)) []
  have hworld : s.draw.2.sessionWorld k.session = s.sessionWorld k.session := rfl
  unfold State.checkpointSent
  rw [hrefused, if_neg (by simp), hworld, State.hostWrite_frame, hout]
  generalize (s.hostWrite (s.sessionWorld k.session) _ _ []).out = o
  split
  · exact ⟨s.draw.2.trng, s.keys, o, rfl, rfl⟩
  · exact ⟨_, _, o, State.useAlias_frame { s with trng := s.draw.2.trng, out := o }, rfl⟩

/-- The cut is written: its number is the session's, and a command that waits for it is answered. -/
def State.checkpointNumbered (s : State) (k : Cut) (no win vec : Nat) (r : Reply) : State :=
  let s := { s with cuts := s.cuts.erase k }
  let s := s.onSess k.session fun x => { x with ckptNo := no, written := x.written + 1 }
  let s := s.message win vec
  match k.waiter with
  | some w => s.result w r
  | none => s

theorem State.checkpointWritten_eq {s : State} {k : Cut} (h : s.noAlias = true ∨ s.aliasRefused = false) (hk : k.kind.final = false) :
    s.checkpointWritten k = ((s.checkpointSent k).checkpointNumbered k ((s.session k.session).ckptNo + 1) (s.session k.session).window
      (s.session k.session).ringVector.toNat (.ok ((s.session k.session).ckptNo + 1))).takeDeferred := by
  have hrefused : (!s.noAlias && s.aliasRefused) = false := by rcases h with h | h <;> simp [h]
  have hkind : (k.kind == .close || k.kind == .abort) = false := by
    cases hc : k.kind with
    | close | abort => rw [hc] at hk; cases hk
    | _ => rfl
  unfold State.checkpointWritten State.checkpointSent State.checkpointNumbered
  rw [hkind, hrefused]
  rfl

theorem State.checkpointNumbered_leaves (s : State) (k : Cut) (no win vec : Nat) (r : Reply) :
    ((s.checkpointNumbered k no win vec r).session k.session).ckptNo = no
      ∧ ((s.checkpointNumbered k no win vec r).session k.session).written = (s.session k.session).written + 1
      ∧ (∀ n, k.waiter = some n → (s.checkpointNumbered k no win vec r).Answers n r)
      ∧ (s.checkpointNumbered k no win vec r).out = s.out ∧ (s.checkpointNumbered k no win vec r).fm = s.fm := by
  have hmessage := State.message_frame ({ s with cuts := s.cuts.erase k }.onSess k.session fun x => { x with ckptNo := no, written := x.written + 1 })
    win vec
  unfold State.checkpointNumbered
  dsimp only
  rw [hmessage]
  generalize (State.message _ win vec).msgs = m
  have hsess := State.session_of_onSess { s with cuts := s.cuts.erase k, msgs := m } k.session
    fun x => { x with ckptNo := no, written := x.written + 1 }
  cases k.waiter with
  | none => exact ⟨(congrArg Session.ckptNo hsess :), (congrArg Session.written hsess :), (fun _ h => by cases h), rfl, rfl⟩
  | some w =>
    refine ⟨(congrArg Session.ckptNo hsess :), (congrArg Session.written hsess :), fun n h => ?_, rfl, rfl⟩
    cases h
    exact State.answers_result _ _ _

/-- Settles O28; that RECEIPT_CHECKPOINT leaves the Forecourt queue while it waits is log entry 61, the time of the retry log
entry 26. -/
theorem checkpointsAreCutAndWritten : Obligations.CheckpointsAreCutAndWritten := by
  unfold Obligations.CheckpointsAreCutAndWritten
  refine ⟨fun s w c hup hc hvis hst hoff => ?_, fun s k hl hfc hdrbg hoff hk hfinal halias => ?_, fun s k hup hfc hdrbg hk => ?_⟩
  case refine_1 =>
    have hreceipt : s.receiptCheckpoint w.val c = { s.onSlotOf w.val fun y => { y with begun := true } with
        rb := { s.rb with fcQueue := s.rb.fcQueue.erase w.val }
        cutDue := s.cutDue ++ [(c.session, .command, BitVec.ofNat 256 (Bytes.bigNat (Bytes.slice c.inl 0 32)), some w.val)] } := by
      have hstate : ((s.session c.session).state == .keyed || (s.session c.session).state == .faulted) = true := by
        rcases hst with h | h <;> simp [h]
      unfold State.receiptCheckpoint State.standbyRefuses
      rw [if_neg (by simp [hvis, hstate]), State.isStandby_of_off hoff, if_neg (by simp)]
      exact State.cut_due (by exact hoff) _ _ _
    refine reaches_actCmd_to (exec_receiptCheckpoint w s) hup.1 hc hreceipt hup.2 rfl ⟨rfl, (s.slotOnly_onSlotOf w.val fun y => { y with begun := true } :), ?_⟩
    exact (congrArg (fun x : Window => x.slot.running) (s.window_of_onSlotOf w.val fun y => { y with begun := true }) :).trans
      (State.running_of_rbCmd (State.rbCmd_of_fcCmd hc)).1
  case refine_2 =>
    obtain ⟨t, c, o, hsent, ho⟩ := State.checkpointSent_frame (k := k) halias
    refine reaches_act (exec_checkpointWrite hk false) hl (by simp [hfc, hdrbg]) ?_
    rw [if_neg (by simp), State.checkpointWritten_eq halias hfinal]
    obtain ⟨hno, hwritten, hanswers, hout, hfm⟩ := (s.checkpointSent k).checkpointNumbered_leaves k ((s.session k.session).ckptNo + 1)
      (s.session k.session).window (s.session k.session).ringVector.toNat (.ok ((s.session k.session).ckptNo + 1))
    generalize (s.checkpointSent k).checkpointNumbered k ((s.session k.session).ckptNo + 1) (s.session k.session).window
      (s.session k.session).ringVector.toNat (.ok ((s.session k.session).ckptNo + 1)) = u at hno hwritten hanswers hout hfm
    rw [hsent] at hwritten hout hfm
    have hfm : u.fm.state = .off := (congrArg Fumas.state hfm :).trans hoff
    obtain ⟨hvout, hvwin, hvno, hvwritten⟩ := State.ckptView_eq (State.ckptView_takeDeferred hfm k.session)
    rw [State.settle_session, State.settle_out]
    refine ⟨hvno.trans hno, hvwritten.trans hwritten, fun n hn => ?_, (hvout.trans hout).trans ho⟩
    rw [State.answers_settle]
    unfold State.Answers State.window
    rw [hvwin]
    exact hanswers n hn
  case refine_3 =>
    refine reaches_act_to (exec_checkpointWrite hk true) hup.1 (by simp [hfc, hdrbg]) (if_pos rfl) hup.2 rfl
      ⟨rfl, State.session_of_onSess _ _ _, fun n hn => State.session_of_onSess_other _ _ hn⟩

end Sys2Proof.Machine
end

