-- ==== Sys2Proof/Proofs/RecoveryUart.lean ====
section
/-! PROOFS. Images that are staged (R266, R292), and the frames of the recovery UART (R293 to R295). -/

namespace Sys2Proof.Machine

/-! Staging. -/

theorem State.writeDirectory_frame (s : State) (base : Nat) (es : List DirEntry) :
    ∃ f o, s.writeDirectory base es = { s with flash := f, out := o } := by
  unfold State.writeDirectory
  obtain ⟨copy, q, _⟩ := s.directory base
  dsimp only
  obtain ⟨o, h⟩ := s.flashWrite_eq (base + 0x1000 * spareCopy copy) _
  exact ⟨_, o, h⟩

theorem State.unlist_frame (s : State) (slot : Bool) (comp : Nat) : ∃ f o, s.unlist slot comp = { s with flash := f, out := o } := by
  unfold State.unlist
  dsimp only
  split
  · exact s.writeDirectory_frame _ _
  · exact ⟨s.flash, s.out, rfl⟩

theorem State.writeBootRecord_frame (s : State) (a t : Bool) (n : Nat) : ∃ f o, s.writeBootRecord a t n
    = { s with flash := f, out := o, boot := { s.boot with active := a, trial := t, tries := n } } := by
  unfold State.writeBootRecord
  dsimp only
  generalize Bytes.ofNat 4 _ ++ _ ++ _ ++ _ = body
  obtain ⟨o, h⟩ := s.flashWrite_eq (0x1000 * spareCopy s.bootRecord.copy) (body ++ Bytes.ofNat 4 (crc32 body).toNat)
  rw [h]
  exact ⟨_, o, rfl⟩

/-- Staging an image changes the flash, the boot's own account and the ports. -/
theorem State.stageImage_frame {s u : State} {slot : Bool} {comp k : Nat} {img : Bytes} (h : s.stageImage slot comp img = some (k, u)) :
    ∃ f b o, u = { s with flash := f, boot := b, out := o } := by
  unfold State.stageImage at h
  split at h
  · cases h
  · next o _ =>
    obtain ⟨o1, hw⟩ := s.flashWrite_eq (slotBase slot + o) img
    dsimp only at h
    rw [hw] at h
    generalize Tab.setMany 0 s.flash _ _ = f at h
    split at h
    · next code _ =>
      obtain ⟨rfl, rfl⟩ := Prod.mk.inj (Option.some.inj h)
      obtain ⟨f', o', hu⟩ := State.unlist_frame (State.noteFail { s with flash := f, out := o1 } code comp) slot comp
      rw [hu]
      exact ⟨f', _, o', rfl⟩
    · obtain ⟨f', o', hd⟩ := State.writeDirectory_frame { s with flash := f, out := o1 } (slotBase slot)
        (((State.directory { s with flash := f, out := o1 } (slotBase slot)).2.2.filter fun e => e.component != comp)
          ++ [{ component := comp, stageSeq := State.topSeq { s with flash := f, out := o1 } + 1, offset := o, length := img.length }])
      rw [hd] at h
      cases h
      split
      · obtain ⟨f'', o'', hb⟩ := State.writeBootRecord_frame { s with flash := f', out := o' } slot true 0
        exact ⟨f'', _, o'', hb⟩
      · exact ⟨f', s.boot, o', rfl⟩

/-! Frames. -/

theorem exec_hello (s : State) : exec .hello s = act (s.uartOn && !s.uart.heard && s.helloDue) State.sendHello s := rfl
theorem exec_speed (h : UartHead) (code : Byte) (s : State) : exec (.speed h code) s = act s.uartOn (fun s => s.hostFrame h fun s =>
    match code.toNat with
    | 0 => (stOk, { s with uart := { s.uart with baud := 115200 } })
    | 1 => (stOk, { s with uart := { s.uart with baud := 921600 } })
    | 2 => (stOk, { s with uart := { s.uart with baud := 3000000 } })
    | _ => (stDenied, s)) s := rfl
theorem exec_loadBegin (h : UartHead) (comp dest : Byte) (n : BitVec 32) (s : State) : exec (.loadBegin h comp dest n) s
    = act s.uartOn (fun s => s.hostFrame h fun s =>
      if s.loadAccepted comp.toNat dest.toNat then
        (stOk, { s with uart := { s.uart with
          load := some { component := comp.toNat, dest := dest.toNat, length := n.toNat, bytes := [] } } })
      else (stDenied, s)) s := rfl
theorem exec_data (h : UartHead) (o : BitVec 32) (b : Bytes) (s : State) : exec (.data h o b) s = act s.uartOn (fun s => s.hostFrame h fun s =>
    match s.uart.load with
    | none => (stDenied, s)
    | some l =>
      if o.toNat ≠ l.bytes.length || b.isEmpty || 4096 < b.length then (stDenied, s.dropLoad)
      else if l.length < l.bytes.length + b.length then (stLenLong, s.dropLoad)
      else (stOk, { s with uart := { s.uart with load := some { l with bytes := l.bytes ++ b } } })) s := rfl
theorem exec_loadEnd (h : UartHead) (e : Bool) (stuck : Option (Fin 512)) (s : State) : exec (.loadEnd h e stuck) s
    = act s.uartOn (fun s => s.hostFrame h fun s =>
      match s.uart.load with
      | none => (stDenied, s)
      | some l => if l.bytes.length < l.length then (stLenShort, s.dropLoad) else s.dropLoad.endLoad l e stuck) s := rfl
theorem exec_activate (h : UartHead) (slot : Byte) (s : State) : exec (.activate h slot) s = act s.uartOn (fun s => s.hostFrame h fun s =>
    if s.uart.loader = 2 && slot.toNat ≤ 1 then (stOk, s.writeBootRecord (slot == 1) true 0) else (stDenied, s)) s := rfl
theorem exec_reboot (h : UartHead) (s : State) : exec (.reboot h) s = act s.uartOn (fun s => s.uartReboot h) s := rfl

theorem State.hostFrame_damaged {s : State} {h : UartHead} (hv : h.valid = false) (f : State → Nat × State) : s.hostFrame h f = s :=
  if_pos (by simp [hv])

/-- The state in which a fresh frame is heard. -/
def State.heardFrame (s : State) (h : UartHead) : State := { s with uart := { s.uart with heard := true, lastSeq := some h.seq } }

/-- A fresh frame has its action's effect and its STATUS. -/
theorem State.hostFrame_fresh {s : State} {h : UartHead} (hv : h.valid = true) (hq : s.uart.lastSeq ≠ some h.seq) (f : State → Nat × State) :
    s.hostFrame h f = (f (s.heardFrame h)).2.uartStatus h.seq (f (s.heardFrame h)).1 := by
  unfold State.hostFrame
  rw [if_neg (by simp [hv]), if_neg (by simpa using hq)]
  rfl

theorem State.framed_synced {s : State} (hs : s.Synced) (h : UartHead) (u : Uart) (st : Nat) : (s.framed h u st).Synced := hs

/-- A fresh frame whose action changes the UART alone. -/
theorem exec_frame {c : Instr} {s : State} {h : UartHead} {f : State → Nat × State} {u : Uart} {st : Nat}
    (he : exec c s = act s.uartOn (fun s => s.hostFrame h f) s) (hup : s.Up) (hon : s.uartOn = true) (hv : h.valid = true)
    (hq : s.uart.lastSeq ≠ some h.seq)
    (hf : f (s.heardFrame h) = (st, { s with uart := { u with heard := true, lastSeq := some h.seq } })) : exec c s = .next (s.framed h u st) := by
  refine exec_act_to he hup.1 hon ?_ (State.framed_synced hup.2 h u st) rfl
  rw [State.hostFrame_fresh hv hq, hf]
  rfl

theorem exec_damaged {c : Instr} {s : State} {h : UartHead} {f : State → Nat × State}
    (he : exec c s = act s.uartOn (fun s => s.hostFrame h f) s) (hup : s.Up) (hv : h.valid = false) : exec c s = .next s :=
  he.trans (act_fixed hup.2 (State.hostFrame_damaged hv f) _)

theorem exec_uartReboot_damaged {s : State} {h : UartHead} (hup : s.Up) (hv : h.valid = false) : exec (.reboot h) s = .next s := by
  refine (exec_reboot h s).trans (act_fixed hup.2 ?_ _)
  unfold State.uartReboot
  rw [State.hostFrame_damaged hv, hv]
  rfl

theorem State.flashWrite_uart (s : State) (x : Uart) (addr : Nat) (b : Bytes) :
    State.flashWrite { s with uart := x } addr b = { s.flashWrite addr b with uart := x } := by
  have hpages : (flashPages addr b).foldl (fun (s : State) p => s.xspiChange 0x12 p.1 p.2) { s with uart := x }
      = { (flashPages addr b).foldl (fun (s : State) p => s.xspiChange 0x12 p.1 p.2) s with uart := x } :=
    List.foldl_hom (fun s : State => { s with uart := x }) fun _ _ => rfl
  unfold State.flashWrite
  rw [hpages]

/-- A write of the boot record is the same whatever the UART holds. -/
theorem State.writeBootRecord_uart (s : State) (x : Uart) (a t : Bool) (n : Nat) :
    State.writeBootRecord { s with uart := x } a t n = { s.writeBootRecord a t n with uart := x } := by
  have hrecord : State.bootRecord { s with uart := x } = s.bootRecord := by
    have hread : ∀ a n, State.flashRead { s with uart := x } a n = s.flashRead a n := fun _ _ => rfl
    unfold State.bootRecord
    simp only [hread]
  unfold State.writeBootRecord
  dsimp only
  rw [hrecord]
  generalize Bytes.ofNat 4 _ ++ _ ++ _ ++ _ = body
  rw [State.flashWrite_uart]

theorem exec_activate_accepted {s : State} {h : UartHead} (hup : s.Up) (hon : s.uartOn = true) (hv : h.valid = true)
    (hq : s.uart.lastSeq ≠ some h.seq) {b : Byte} (hloader : s.uart.loader = 2) (hb : b.toNat ≤ 1) :
    Reaches (.activate h b) s fun t => t = (s.writeBootRecord (b == 1) true 0).framed h s.uart stOk
      ∧ t.boot = { s.boot with active := b == 1, trial := true, tries := 0 } := by
  obtain ⟨f, o, hw⟩ := s.writeBootRecord_frame (b == 1) true 0
  have hact : s.hostFrame h (fun s => if s.uart.loader = 2 && b.toNat ≤ 1 then (stOk, s.writeBootRecord (b == 1) true 0) else (stDenied, s))
      = (s.writeBootRecord (b == 1) true 0).framed h s.uart stOk := by
    rw [State.hostFrame_fresh hv hq, if_pos (by simp [State.heardFrame, hloader, hb]), State.heardFrame, State.writeBootRecord_uart]
    generalize s.writeBootRecord (b == 1) true 0 = v
    rfl
  have hboot : (s.writeBootRecord (b == 1) true 0).boot = { s.boot with active := b == 1, trial := true, tries := 0 } := by rw [hw]
  have hsynced : (s.writeBootRecord (b == 1) true 0).Synced := by
    rw [hw]
    exact hup.2
  have hpending : (s.writeBootRecord (b == 1) true 0).pending = s.pending := by rw [hw]
  exact reaches_act_to (exec_activate h b s) hup.1 hon hact (State.framed_synced hsynced h _ _) hpending ⟨rfl, hboot⟩

/-- The end of a load for a slot stages its image. -/
theorem State.endLoad_slot {l : UartLoad} (hdest : l.dest = 1 ∨ l.dest = 2) (r : State) (stuck : Option (Fin 512)) :
    r.endLoad l false stuck = match r.stageImage (l.dest == 2) l.component l.bytes with
      | none => (stDenied, r)
      | some (0, s) => (stOk, s)
      | some (_, s) => (stDenied, s) := by
  unfold State.endLoad
  exact (if_neg (by omega)).trans ((if_neg (by simp)).trans (if_neg (by omega)))

/-- The state in which the image of a load is staged. -/
def State.loaded (s : State) (h : UartHead) : State := { s with uart := { s.uart with heard := true, lastSeq := some h.seq, load := none } }

theorem exec_loadEnd_to {s t : State} {h : UartHead} {l : UartLoad} {st : Nat} (hup : s.Up) (hon : s.uartOn = true) (hv : h.valid = true)
    (hq : s.uart.lastSeq ≠ some h.seq) (hl : s.uart.load = some l) (hlen : l.bytes.length = l.length)
    (hend : (s.loaded h).endLoad l false none = (st, t)) (ht : ∃ f b o, t = { s.loaded h with flash := f, boot := b, out := o }) :
    exec (.loadEnd h false none) s = .next (t.framed h t.uart st) := by
  obtain ⟨f, b, o, rfl⟩ := ht
  refine exec_act_to (exec_loadEnd h false none s) hup.1 hon ?_ hup.2 rfl
  rw [State.hostFrame_fresh hv hq]
  have hload : (s.heardFrame h).uart.load = some l := hl
  have hdrop : (s.heardFrame h).dropLoad = s.loaded h := rfl
  rw [hload, hdrop]
  dsimp only
  rw [if_neg (by omega), hend]
  rfl

/-- A whole image for a slot is staged there. -/
theorem exec_loadEnd_staged {s : State} {h : UartHead} (hup : s.Up) (hon : s.uartOn = true) (hv : h.valid = true)
    (hq : s.uart.lastSeq ≠ some h.seq) {l : UartLoad} (hl : s.uart.load = some l) (hlen : l.bytes.length = l.length)
    (hdest : l.dest = 1 ∨ l.dest = 2) : Reaches (.loadEnd h false none) s fun t =>
      match (s.loaded h).stageImage (l.dest == 2) l.component l.bytes with
      | none => t = s.framed h { s.uart with load := none } stDenied
      | some (0, u) => t = u.framed h u.uart stOk
      | some (_, u) => t = u.framed h u.uart stDenied := by
  have hend := State.endLoad_slot hdest (s.loaded h) none
  cases hstaged : (s.loaded h).stageImage (l.dest == 2) l.component l.bytes with
  | none =>
    rw [hstaged] at hend
    exact ⟨_, exec_loadEnd_to hup hon hv hq hl hlen hend ⟨_, _, _, rfl⟩, rfl⟩
  | some x =>
    obtain ⟨code, u⟩ := x
    rw [hstaged] at hend
    have hframe := State.stageImage_frame hstaged
    cases code with
    | zero => exact ⟨_, exec_loadEnd_to hup hon hv hq hl hlen hend hframe, rfl⟩
    | succ n => exact ⟨_, exec_loadEnd_to hup hon hv hq hl hlen hend hframe, rfl⟩

theorem reaches_uartReboot {s : State} {h : UartHead} (hup : s.Up) (hon : s.uartOn = true) (hv : h.valid = true)
    (hq : s.uart.lastSeq ≠ some h.seq) (hloader : s.uart.loader = 2) : Reaches (.reboot h) s fun t =>
      t.boot = {} ∧ t.health.cause = 6 ∧ t.flash = s.flash ∧ t.fuses = s.fuses ∧ t.sess = [] ∧ t.uart = {} := by
  have hact : s.uartReboot h = (s.framed h s.uart stOk).blockReset 6 0xFF 0 none := by
    unfold State.uartReboot
    have hframe : s.hostFrame h (fun s => (if s.uart.loader = 2 then stOk else stDenied, s)) = s.framed h s.uart stOk := by
      rw [State.hostFrame_fresh hv hq, if_pos (show (s.heardFrame h).uart.loader = 2 from hloader)]
      rfl
    rw [hframe]
    exact if_pos (by simp [hv, hq, hloader])
  obtain ⟨u, kind, last, hreset, hkept⟩ := State.blockReset_restarts (s.framed h s.uart stOk) 6 0xFF 0 none
  refine reaches_act (exec_reboot h s) hup.1 hon ?_
  rw [hact, hreset, State.settle_boot, State.settle_health, State.settle_flash, State.settle_fuses, State.settle_sess, State.settle_uart]
  exact ⟨rfl, rfl, congrArg Prod.fst hkept, congrArg (fun x => x.2.1) hkept, rfl, rfl⟩

/-- Settles O33. That HELLO carries the sequence number 0 is log entry 53. -/
theorem uartFramesAct : Obligations.UartFramesAct := by
  unfold Obligations.UartFramesAct
  refine ⟨fun s hup hon hheard hdue => ?_, fun s h b c n x e hup hv => ?_, fun s h hup hon hv hq => ?_⟩
  · exact reaches_act_to (exec_hello s) hup.1 (by rw [hon, hheard, hdue]; rfl) rfl hup.2 rfl ⟨_, rfl, rfl⟩
  · exact ⟨exec_damaged (exec_speed h b s) hup hv, exec_damaged (exec_loadBegin h b c n s) hup hv, exec_damaged (exec_data h n x s) hup hv,
      exec_damaged (exec_loadEnd h e none s) hup hv, exec_damaged (exec_activate h b s) hup hv, exec_uartReboot_damaged hup hv⟩
  · refine ⟨?_, fun c hc => ?_, fun c d n => ?_, fun l o b hl => ⟨fun ho hb hb' hlen => ?_, fun ho => ?_⟩, fun l e hl hshort => ?_,
      fun l hl hlen hdest => exec_loadEnd_staged hup hon hv hq hl hlen hdest, fun b hloader hb => exec_activate_accepted hup hon hv hq hloader hb,
      reaches_uartReboot hup hon hv hq⟩
    · exact exec_frame (exec_speed h 1 s) hup hon hv hq rfl
    · refine exec_frame (exec_speed h c s) hup hon hv hq ?_
      obtain ⟨n, hn⟩ : ∃ n, c.toNat = n + 3 := ⟨c.toNat - 3, by omega⟩
      simp only [hn]
      rfl
    · have he := exec_loadBegin h c d n s
      split
      · next ha => exact exec_frame he hup hon hv hq (if_pos ha)
      · next ha => exact exec_frame he hup hon hv hq (if_neg ha)
    · refine exec_frame (exec_data h o b s) hup hon hv hq ?_
      simp only [State.heardFrame, hl]
      rw [if_neg (by simp [ho, hb', List.ne_nil_of_length_pos hb]), if_neg (by omega)]
    · refine exec_frame (exec_data h o b s) hup hon hv hq ?_
      simp only [State.heardFrame, hl]
      rw [if_pos (by simp [ho])]
      rfl
    · refine exec_frame (exec_loadEnd h e none s) hup hon hv hq ?_
      simp only [State.heardFrame, hl]
      rw [if_pos hshort]
      rfl

end Sys2Proof.Machine
end

