-- ==== Sys2Proof/Proofs/FirmwareStaging.lean ====
section
/-! PROOFS. FW_STAGE (R246, R266, R292). -/

namespace Sys2Proof.Machine

theorem exec_fwStage (w : Win) (img : HostRead) (flashErr : Bool) (s : State) : exec (.fwStage w img flashErr) s
    = actCmd (s.fcCmd w.val 0x81) (fun c s => s.fwStage w.val c img flashErr) s := rfl

/-- The image of an FW_STAGE request. -/
def stagedImage (c : Cmd) (img : HostRead) : Bytes := Bytes.slice img.bytes 8 (c.u 32 4 - 8)

/-- The account that a staged image leaves for an ABORT (R262). -/
def State.stagedUndo (s : State) (component : Nat) : Undo :=
  .staged component (!s.boot.runningSlot) s.boot.active s.boot.trial s.boot.tries

section
variable {s : State} {w : Nat} {c : Cmd} {img : HostRead} (herr : img.err = false) (hpoison : img.poison = false)
  (hreq : s.requestStatus w msgImage (c.u 32 4) img.bytes = none) (hcomp : c.u 16 1 < 34)
include herr hpoison hreq hcomp

/-- A good request is staged, or meets the error of the flash. -/
theorem State.fwStage_taken (flashErr : Bool) : s.fwStage w c img flashErr =
    let r := s.hostRead (windowWorld w) (c.u 24 8) (c.u 32 4)
    if flashErr then r.result w { status := stFault }
    else match r.stageImage (!s.boot.runningSlot) (c.u 16 1) (stagedImage c img) with
      | none => r.result w (.denied 0)
      | some (0, t) =>
        State.result ((if c.u 16 1 = 1 then t.setQcStaged (some (parseKsi (stagedImage c img))) else t).onSlotOf w
          fun x => { x with undo := r.stagedUndo (c.u 16 1) }) w (.ok 0)
      | some (_, t) => (if c.u 16 1 = 1 then t.setQcStaged none else t).result w (.denied 0) := by
  unfold State.fwStage
  rw [State.hostRead_frame]
  generalize (s.hostRead (windowWorld w) (c.u 24 8) (c.u 32 4)).out = o
  have hreq' : State.requestStatus { s with out := o } w msgImage (c.u 32 4) img.bytes = none := hreq
  dsimp only
  rw [herr, hpoison, if_neg (by simp), hreq']
  dsimp only
  rw [if_neg (Nat.not_le.mpr hcomp)]
  rfl

end

theorem Tab.get_foldl_set_range {α : Type} [DecidableEq α] (d : α) (v : α) {n q : Nat} (h : q < n) (t : Tab α) :
    Tab.get d ((List.range n).foldl (fun t i => Tab.set d t i v) t) q = v := by
  induction n with
  | zero => omega
  | succ n ih =>
    rw [List.range_succ, List.foldl_append, List.foldl_cons, List.foldl_nil]
    by_cases hq : q = n
    · rw [hq, Tab.get_set_same]
    · rw [Tab.get_set_other _ _ _ hq, ih (by omega)]

/-- The staged image of the Quarters is that of all four (R267). -/
theorem State.qcStaged_setQcStaged (s : State) (k : Option Ksi) (q : Fin 4) : Tab.get none (s.setQcStaged k).boot.qcStaged q.val = k :=
  Tab.get_foldl_set_range none k q.isLt _

/-- What staging may change: the flash, the boot's account, what goes out and the command slot of its window. -/
def State.StagedFrom (t s : State) (w : Nat) : Prop :=
  t = { s with win := t.win, flash := t.flash, boot := t.boot, out := t.out } ∧ s.SlotOnly t w

theorem State.stagedFrom_stageImage {s r u : State} {slot : Bool} {comp k : Nat} {img : Bytes}
    (hr : ∃ o, r = { s with out := o }) (h : r.stageImage slot comp img = some (k, u)) (w : Nat) : u.StagedFrom s w := by
  obtain ⟨o, rfl⟩ := hr
  obtain ⟨f, b, o', rfl⟩ := State.stageImage_frame h
  exact ⟨rfl, s.slotOnly_refl w⟩

theorem State.StagedFrom.setQcStaged {t s : State} {w : Nat} (h : t.StagedFrom s w) (k : Option Ksi) : (t.setQcStaged k).StagedFrom s w :=
  ⟨congrArg (fun u : State => u.setQcStaged k) h.1, h.2⟩

theorem State.StagedFrom.onSlotOf {t s : State} {w : Nat} (h : t.StagedFrom s w) (g : CmdSlot → CmdSlot) :
    (t.onSlotOf w g).StagedFrom s w := by
  obtain ⟨he, hslot⟩ := h
  exact ⟨congrArg (fun u : State => u.onSlotOf w g) he, hslot.trans (t.slotOnly_onSlotOf w g)⟩

/-- The command is answered in the state that staging left. -/
theorem exec_fwStage_answered {s t : State} {f : Tab Byte} {o : List Out} {w : Win} {c : Cmd} {img : HostRead} {flashErr : Bool} {r : Reply}
    (hup : s.Up) (hc : s.fcCmd w.val 0x81 = some c) (ht : s.fwStage w.val c img flashErr = t.result w.val r)
    (hstaged : t.StagedFrom s w.val) (hf : t.flash = f) (ho : t.out = o) : Reaches (.fwStage w img flashErr) s fun v =>
      v = { s with win := v.win, flash := f, boot := v.boot, out := o } ∧ s.SlotOnly v w.val ∧ v.Answers w.val r ∧ v.boot = t.boot := by
  obtain ⟨he, hslot⟩ := hstaged
  have hslot' : s.SlotOnly (t.result w.val r) w.val := hslot.trans (State.slotOnly_result _ _ _)
  have hans : State.Answers (t.result w.val r) w.val r := State.answers_result _ _ _
  rw [hf, ho] at he
  generalize t.win = x, t.boot = b at he
  subst he
  exact reaches_actCmd_to (exec_fwStage w img flashErr s) hup.1 hc ht hup.2 rfl ⟨rfl, hslot', hans, rfl⟩

/-- Settles O32. -/
theorem firmwareIsStaged : Obligations.FirmwareIsStaged := by
  unfold Obligations.FirmwareIsStaged
  intro s w c img hup hc herr hpoison hreq hcomp
  have htaken := fun e => State.fwStage_taken herr hpoison hreq hcomp e
  have hread : ∃ o, s.hostRead (windowWorld w.val) (c.u 24 8) (c.u 32 4) = { s with out := o } := ⟨_, s.hostRead_frame _ _ _⟩
  dsimp only at htaken ⊢
  generalize s.hostRead (windowWorld w.val) (c.u 24 8) (c.u 32 4) = r at htaken hread
  have hplain : r.StagedFrom s w.val := by
    obtain ⟨o, rfl⟩ := hread
    exact ⟨rfl, s.slotOnly_refl _⟩
  have hboot : r.boot = s.boot := by
    obtain ⟨o, rfl⟩ := hread
    rfl
  have hflash : r.flash = s.flash := by
    obtain ⟨o, rfl⟩ := hread
    rfl
  have hrefused : ∀ (e : Bool) (x : Reply), s.fwStage w.val c img e = r.result w.val x → Reaches (.fwStage w img e) s fun t =>
      t = { s with win := t.win, out := r.out } ∧ s.SlotOnly t w.val ∧ t.Answers w.val x := fun e x he => by
    obtain ⟨v, hv, hframe, hslot, hans, hb⟩ := exec_fwStage_answered hup hc he hplain hflash rfl
    rw [hb, hboot] at hframe
    exact ⟨v, hv, hframe, hslot, hans⟩
  refine ⟨fun u hu => ?_, fun k u hu hk => ?_, fun hnone => ?_, hrefused true _ ((htaken true).trans (if_pos rfl))⟩
  · have hstaged := State.stagedFrom_stageImage hread hu w.val
    have ht := htaken false
    simp only [stagedImage, hu] at ht
    by_cases h1 : c.u 16 1 = 1
    · rw [if_neg (by simp), if_pos h1] at ht
      obtain ⟨v, hv, hframe, hslot, hans, hb⟩ := exec_fwStage_answered hup hc ht ((hstaged.setQcStaged _).onSlotOf _) rfl rfl
      refine ⟨v, hv, hframe, hslot, hans, fun h => absurd h1 h, fun _ q => ?_⟩
      rw [hb]
      exact State.qcStaged_setQcStaged u _ q
    · rw [if_neg (by simp), if_neg h1] at ht
      obtain ⟨v, hv, hframe, hslot, hans, hb⟩ := exec_fwStage_answered hup hc ht (hstaged.onSlotOf _) rfl rfl
      exact ⟨v, hv, hframe, hslot, hans, fun _ => hb, fun h => absurd h h1⟩
  · have hstaged := State.stagedFrom_stageImage hread hu w.val
    have ht := htaken false
    obtain ⟨k, rfl⟩ := Nat.exists_eq_succ_of_ne_zero hk
    simp only [stagedImage, hu] at ht
    rw [if_neg (by simp)] at ht
    by_cases h1 : c.u 16 1 = 1
    · rw [if_pos h1] at ht
      obtain ⟨v, hv, hframe, hslot, hans, -⟩ := exec_fwStage_answered hup hc ht (hstaged.setQcStaged none) rfl rfl
      exact ⟨v, hv, hframe, hslot, hans⟩
    · rw [if_neg h1] at ht
      obtain ⟨v, hv, hframe, hslot, hans, -⟩ := exec_fwStage_answered hup hc ht hstaged rfl rfl
      exact ⟨v, hv, hframe, hslot, hans⟩
  · refine hrefused false _ ((htaken false).trans ?_)
    rw [if_neg (by simp)]
    simp only [stagedImage, hnone]

end Sys2Proof.Machine
end

