-- ==== Sys2Proof/Proofs/KeyDestroy.lean ====
section
/-! PROOFS. KEY_DESTROY (R322) and the timeout of KREG (R321). -/

namespace Sys2Proof.Machine

theorem exec_keyDestroy (w : Win) (stuck : Option (Fin 512)) (s : State) : exec (.keyDestroy w stuck) s
    = actCmd (s.fcCmd w.val 0x90) (fun c s => s.keyDestroy w.val c stuck) s := rfl
theorem exec_kregTimeout (s : State) : exec .kregTimeout s
    = act (s.keys.kreg.isSome && decide (s.keys.kregAt + 2000000 ≤ s.now)) State.emptyKreg s := rfl

/-! KREG. -/

theorem State.takeKreg_frame (s : State) (l : KregLoad) :
    ∃ de, s.takeKreg l = { s with keys := { s.keys with kreg := some l, kregAt := s.now }, de := de } := by
  unfold State.takeKreg
  dsimp only
  split
  · exact ⟨_, rfl⟩
  · exact ⟨s.de, rfl⟩

theorem State.deOpenKeyed_frame (s : State) (n : Nat) (ctrl : Word) (l : KregLoad) :
    s.deOpenKeyed n ctrl l = { s with de := (s.deOpenKeyed n ctrl l).de } := by
  unfold State.deOpenKeyed
  split
  · rfl
  · rfl

/-- Loads change KREG and the digest contexts, and no key slot. -/
theorem State.nextLoad_frame (l : List KregLoad) (s : State) :
    ∃ k de, s.nextLoad l = { s with keys := k, de := de } ∧ k.slots = s.keys.slots := by
  induction l generalizing s with
  | nil => exact ⟨_, s.de, rfl, rfl⟩
  | cons x l ih =>
    unfold State.nextLoad
    split
    · next y _ =>
      have hopened := s.deOpenKeyed_frame y.1 y.2 x
      generalize (s.deOpenKeyed y.1 y.2 x).de = d at hopened
      rw [hopened]
      exact ih { s with de := d }
    · obtain ⟨de, h⟩ := State.takeKreg_frame { s with keys := { s.keys with kregWaiting := l } } x
      exact ⟨_, de, h, rfl⟩

/-! Slots. -/

theorem State.abortJobs_frame (s : State) (mine : PkeJob → Bool) : ∃ de, s.abortJobs mine = { s with pke := s.pke.abort mine, de := de } := by
  unfold State.abortJobs
  have hctx : ∀ (l : List PkeJob) (u : State),
      ∃ de, l.foldl (fun (u : State) j => u.onCtx (regionCtx j.region) fun _ => {}) u = { u with de := de } := fun l => by
    induction l with
    | nil => exact fun u => ⟨u.de, rfl⟩
    | cons j l ih => exact fun u => ih (u.onCtx (regionCtx j.region) fun _ => {})
  obtain ⟨de, h⟩ := hctx ((s.pke.run.toList ++ s.pke.suspended.toList).filter mine) s
  exact ⟨de, congrArg (fun u : State => { u with pke := u.pke.abort mine }) h⟩

theorem State.endSlotJobs_frame (s : State) (n : Nat) :
    ∃ k p de, s.endSlotJobs n = { s with keys := k, pke := p, de := de } ∧ k.slots = s.keys.slots := by
  unfold State.endSlotJobs
  obtain ⟨de, h⟩ := s.abortJobs_frame fun j => j.keySlot.any fun x => x.val == n
  dsimp only
  rw [h]
  exact ⟨_, _, _, rfl, rfl⟩

/-- What the end of a slot's contents leaves (R322). -/
theorem State.destroySlot_frame (s : State) (n : Nat) : ∃ k lc p de t, s.destroySlot n
      = { s with keys := k, lc := lc, pke := p, de := de, trng := t } ∧ t.state = s.trng.state
    ∧ k.slots = Tab.upd {} s.keys.slots n fun _ => {} := by
  have hfleet : ∃ lc k, (if n = 6 then { s with lc := { s.lc with fleet := false }, keys := { s.keys with prkFleet := [] } } else s)
      = { s with lc := lc, keys := k } ∧ k.slots = s.keys.slots := by
    split
    · exact ⟨_, _, rfl, rfl⟩
    · exact ⟨s.lc, s.keys, rfl, rfl⟩
  obtain ⟨lc, k0, hfleet, hk0⟩ := hfleet
  unfold State.destroySlot
  dsimp only
  rw [hfleet]
  obtain ⟨k1, p, de, hjobs, hk1⟩ := State.endSlotJobs_frame { s with lc := lc, keys := k0 } n
  rw [hjobs]
  have hkreg : ∃ k d, (if k1.kreg.any fun l => l.slot.any fun x => x.val == n then
        State.emptyKreg { s with lc := lc, keys := k1, pke := p, de := de } else { s with lc := lc, keys := k1, pke := p, de := de })
      = { s with lc := lc, keys := k, pke := p, de := d } ∧ k.slots = k1.slots := by
    split
    · obtain ⟨k, d, h, hk⟩ := State.nextLoad_frame k1.kregWaiting { s with lc := lc, keys := k1, pke := p, de := de }
      exact ⟨k, d, h, hk⟩
    · exact ⟨k1, de, rfl, rfl⟩
  obtain ⟨k, d, hempty, hk⟩ := hkreg
  rw [hempty]
  obtain ⟨t, hclear, ht⟩ := State.clearSlot_slots { s with lc := lc, keys := k, pke := p, de := d } n
  rw [hclear]
  have hslots : k.slots = s.keys.slots := hk.trans (hk1.trans hk0)
  refine ⟨_, lc, p, d, t, rfl, ht, ?_⟩
  dsimp only
  rw [hslots]

/-! Fused banks. -/

/-- Words that all take are blown one after another. -/
theorem State.blowList_none (l : List (Nat × BitVec 32)) (s : State) :
    s.blowList l none = (true, l.foldl (fun (u : State) x => u.blow x.1 x.2) s) := by
  induction l generalizing s with
  | nil => rfl
  | cons x l ih => exact ih (s.blow x.1 x.2)

theorem State.blows_frame (l : List (Nat × BitVec 32)) (s : State) : ∃ f, l.foldl (fun (u : State) x => u.blow x.1 x.2) s = { s with fuses := f } := by
  induction l generalizing s with
  | nil => exact ⟨s.fuses, rfl⟩
  | cons x l ih => exact ih (s.blow x.1 x.2)

/-- A word that is blown whole stays so. -/
theorem State.blow_keeps_whole {s : State} {v : Nat} (h : Tab.get 0 s.fuses v = 0xFFFF_FFFF) (w : Nat) (bits : BitVec 32) :
    Tab.get 0 (s.blow w bits).fuses v = 0xFFFF_FFFF := by
  rw [State.get_blow]
  split
  · next hw =>
    rw [← hw, h]
    exact BitVec.allOnes_or
  · exact h

/-- The kill word of a fused slot's bank takes, and nothing but the fuses changes. -/
theorem State.killBank_none (s : State) (n : Nat) : ∃ f, s.killBank n none = (true, { s with fuses := f })
    ∧ Tab.get 0 f (fusedBank n + 17) = 0xFFFF_FFFF := by
  have hkill : s.killBank n none = (true, ((List.range 18).map fun i => (fusedBank n + i, (0xFFFF_FFFF : BitVec 32))).foldl
      (fun (u : State) x => u.blow x.1 x.2) (s.blow (fusedBank n + 17) 0xFFFF_FFFF)) := by
    unfold State.killBank
    simp only [State.blowList_none, if_true]
    rfl
  have hwhole : Tab.get 0 (((List.range 18).map fun i => (fusedBank n + i, (0xFFFF_FFFF : BitVec 32))).foldl
      (fun (u : State) x => u.blow x.1 x.2) (s.blow (fusedBank n + 17) 0xFFFF_FFFF)).fuses (fusedBank n + 17) = 0xFFFF_FFFF := by
    refine foldl_holds (P := fun u : State => Tab.get 0 u.fuses (fusedBank n + 17) = 0xFFFF_FFFF)
      (fun u x h => u.blow_keeps_whole h x.1 x.2) _ ?_
    rw [State.get_blow, if_pos rfl]
    exact BitVec.or_allOnes
  obtain ⟨f, hf⟩ := State.blows_frame ((List.range 18).map fun i => (fusedBank n + i, (0xFFFF_FFFF : BitVec 32)))
    (s.blow (fusedBank n + 17) 0xFFFF_FFFF)
  rw [hf] at hkill hwhole
  exact ⟨f, hkill, hwhole⟩

theorem eq_ones_of_not_and_ones {x : BitVec 32} (h : 0xFFFF_FFFF &&& ~~~x = 0) : x = 0xFFFF_FFFF := by
  have hones : (0xFFFF_FFFF : BitVec 32) = BitVec.allOnes 32 := rfl
  rw [hones, BitVec.allOnes_and] at h
  rw [← BitVec.not_not (b := x), h]
  rfl

/-- The state in which a word has taken no more than the bits v. -/
def State.killMissed (s : State) (w : Nat) (v : BitVec 32) : State :=
  State.blow { s with free := s.free + 1, health := { s.health with fuseReports := s.health.fuseReports + 1 } } w (0xFFFF_FFFF &&& v)

/-! The command. -/

theorem exec_keyDestroy_takes {s : State} {w : Win} {c : Cmd} {f : Tab (BitVec 32)} (hup : s.Up) (hc : s.fcCmd w.val 0x90 = some c)
    (hlo : 6 ≤ c.u 16 1) (hhi : c.u 16 1 < 64)
    (hbank : (if c.u 16 1 = 6 ∨ c.u 16 1 = 7 then s.killBank (c.u 16 1) none else (true, s)) = (true, { s with fuses := f })) :
    Reaches (.keyDestroy w none) s fun t =>
      t = { s with win := t.win, keys := t.keys, fuses := t.fuses, lc := t.lc, pke := t.pke, de := t.de, trng := t.trng }
      ∧ t.slot (c.u 16 1) = {} ∧ (∀ n, n ≠ c.u 16 1 → t.slot n = s.slot n) ∧ t.Answers w.val (.ok 0) ∧ t.fuses = f ∧ t.boot = s.boot := by
  obtain ⟨k, lc, p, de, t, hdestroyed, hstate, hslots⟩ := State.destroySlot_frame { s with fuses := f } (c.u 16 1)
  have hact : s.keyDestroy w.val c none
      = State.result { s with fuses := f, keys := k, lc := lc, pke := p, de := de, trng := t } w.val (.ok 0) := by
    unfold State.keyDestroy
    dsimp only
    rw [if_neg (by simp; omega), hbank]
    dsimp only
    rw [if_pos rfl, hdestroyed]
  have hsynced : State.Synced { s with fuses := f, keys := k, lc := lc, pke := p, de := de, trng := t } :=
    hup.2.congr rfl (fun _ => rfl) (fun _ => rfl) (fun _ => rfl) rfl hstate rfl
  have hans := State.answers_result { s with fuses := f, keys := k, lc := lc, pke := p, de := de, trng := t } w.val (.ok 0)
  refine reaches_actCmd_to (exec_keyDestroy w none s) hup.1 hc hact hsynced rfl ⟨rfl, ?_, fun n hn => ?_, hans, rfl, rfl⟩
  · show Tab.get ({} : KeySlot) k.slots (c.u 16 1) = {}
    rw [hslots]
    exact Tab.get_upd_same ({} : KeySlot) _ _ _
  · show Tab.get ({} : KeySlot) k.slots n = s.slot n
    rw [hslots]
    exact Tab.get_upd_other ({} : KeySlot) _ _ hn

/-- A fuse word that is not the boot ROM's alone reads as it is. -/
theorem State.fuse_whole {t : State} {f : Tab (BitVec 32)} {n : Nat} (ht : t.fuses = f) (hrom : romOnly n = false)
    (h : Tab.get 0 f n = 0xFFFF_FFFF) : t.fuse n = 0xFFFF_FFFF := by
  rw [State.fuse_eq hrom, ht, h]

/-- Settles O31. What becomes of a kill word that does not take is log entry 102; that KEY_DESTROY clears the lock of the slot with
its descriptor, also of KS8, is log entries 22 and 111. -/
theorem keysAreDestroyed : Obligations.KeysAreDestroyed := by
  unfold Obligations.KeysAreDestroyed
  refine ⟨fun s w c hup hc hlo hhi => ?_, fun s w c f hup hc hn hf hbits => ?_, fun s w c f hup hc hlow => ?_,
    fun s l hup hkreg hdue => ?_⟩
  · by_cases hfused : c.u 16 1 = 6 ∨ c.u 16 1 = 7
    · obtain ⟨f, hkill, hwhole⟩ := s.killBank_none (c.u 16 1)
      obtain ⟨t, ht, hframe, hslot, hother, hans, hfuses, -⟩ :=
        exec_keyDestroy_takes hup hc hlo hhi ((if_pos hfused).trans hkill)
      refine ⟨t, ht, hframe, hslot, hother, hans, fun h6 => ?_, fun h7 => ?_, fun h8 => ?_⟩
      · rw [h6] at hwhole
        exact State.fuse_whole hfuses rfl hwhole
      · rw [h7] at hwhole
        exact State.fuse_whole hfuses rfl hwhole
      · omega
    · obtain ⟨t, ht, hframe, hslot, hother, hans, hfuses, -⟩ := exec_keyDestroy_takes (f := s.fuses) hup hc hlo hhi (if_neg hfused)
      exact ⟨t, ht, hframe, hslot, hother, hans, fun h => absurd (.inl h) hfused, fun h => absurd (.inr h) hfused, fun _ => hfuses⟩
  · have hbank : fusedBank (c.u 16 1) + 17 = 127 ∨ fusedBank (c.u 16 1) + 17 = 109 := by
      rcases hn with h | h <;> rw [h]
      · exact .inl rfl
      · exact .inr rfl
    have hrom : ∀ j, j = 127 ∨ j = 109 → romOnly j = false := by
      rintro j (rfl | rfl) <;> rfl
    rw [← hf] at hbank
    rw [State.fuse_eq (hrom _ hbank)] at hbits
    obtain ⟨v, hv⟩ := State.blowList_stuck (s := s) hf (fun h => hbits (by rw [hf]; exact eq_ones_of_not_and_ones h))
    have hact : s.keyDestroy w.val c (some f) = (s.killMissed (fusedBank (c.u 16 1) + 17) v).result w.val { status := stFault } := by
      unfold State.keyDestroy State.killBank
      dsimp only
      rw [if_neg (by simp; omega), if_pos hn, hv]
      rfl
    have hans := State.answers_result (s.killMissed (fusedBank (c.u 16 1) + 17) v) w.val { status := stFault }
    refine reaches_actCmd_to (exec_keyDestroy w (some f) s) hup.1 hc hact hup.2 rfl ⟨rfl, hans, rfl, fun j hj => ?_⟩
    have hother : Tab.get 0 (s.killMissed (fusedBank (c.u 16 1) + 17) v).fuses j = Tab.get 0 s.fuses j :=
      (State.get_blow _ _ _ j).trans (if_neg (by rw [← hf]; exact hj))
    unfold State.fuse
    exact congrArg (fun x => if s.boot.romLock && romOnly j then 0 else x) hother
  · have hact : s.keyDestroy w.val c f = s.result w.val (.denied 0) := by
      unfold State.keyDestroy
      exact if_pos (by simp [hlow])
    exact reaches_actCmd_to (exec_keyDestroy w f s) hup.1 hc hact hup.2 rfl ⟨rfl, State.answers_result _ _ _⟩
  · have hguard : (s.keys.kreg.isSome && decide (s.keys.kregAt + 2000000 ≤ s.now)) = true := by simp [hkreg, hdue]
    refine ⟨fun hw => ?_, fun x r hw hopens => ?_, fun x n ctrl hw hopens => ?_⟩
    · refine exec_act_to (exec_kregTimeout s) hup.1 hguard ?_ hup.2 rfl
      unfold State.emptyKreg
      rw [hw, State.nextLoad, ← hw]
    · have hact : s.emptyKreg = State.takeKreg { s with keys := { s.keys with kregWaiting := r } } x := by
        unfold State.emptyKreg
        rw [hw, State.nextLoad]
        simp only [hopens]
      obtain ⟨de, hde⟩ := State.takeKreg_frame { s with keys := { s.keys with kregWaiting := r } } x
      exact reaches_act_to (exec_kregTimeout s) hup.1 hguard (hact.trans hde) hup.2 rfl rfl
    · have hact : s.emptyKreg = { s with keys := { s.keys with kreg := none, kregWaiting := [] }, de := (s.deOpenKeyed n ctrl x).de } := by
        unfold State.emptyKreg
        rw [hw, State.nextLoad]
        simp only [hopens, State.nextLoad]
        have hopened := s.deOpenKeyed_frame n ctrl x
        generalize (s.deOpenKeyed n ctrl x).de = d at hopened
        rw [hopened]
      exact reaches_act_to (exec_kregTimeout s) hup.1 hguard hact hup.2 rfl rfl

end Sys2Proof.Machine
end

