-- ==== Sys2Proof/Proofs/Bodies.lean ====
section
/-! PROOFS. The bodies that EVIDENCE_GET, FW_INFO and ERRLOG_READ write (R246, R355, R384). -/

namespace Sys2Proof.Machine

theorem exec_evidenceGet (w : Win) (s : State) : exec (.evidenceGet w) s = actCmd (s.fcCmd w.val 0x70) (fun c s => s.evidenceRow w.val c) s := rfl
theorem exec_fwInfo (w : Win) (s : State) : exec (.fwInfo w) s = actCmd (s.fcCmd w.val 0x80) (fun c s => s.fwInfo w.val c) s := rfl
theorem exec_errlogRead (w : Win) (s : State) : exec (.errlogRead w) s = actCmd (s.fcCmd w.val 0x82) (fun c s => s.errlogRead w.val c) s := rfl

theorem State.header_length (s : State) (w type n : Nat) : (s.header w type n).length = 8 := by
  unfold State.header
  simp

/-- A response that its buffer holds is written behind its header, and its length answered. -/
theorem State.respond_fits {s : State} {w type addr size : Nat} {body : Bytes} (h : body.length + 8 ≤ size) :
    s.respond w type addr size body = State.result { s with
      out := (s.hostWrite (windowWorld w) addr (s.header w type body.length ++ body)).out } w (.ok (body.length + 8)) := by
  have hlen : (s.header w type body.length ++ body).length = body.length + 8 := by
    rw [List.length_append, State.header_length, Nat.add_comm]
  unfold State.respond
  dsimp only
  rw [hlen, if_neg (Nat.not_lt.mpr h), State.hostWrite_frame]

/-- Such a response is all that a command leaves. -/
theorem reaches_response {i : Instr} {s u : State} {w : Nat} {cmd : Option Cmd} {c : Cmd} {f : Cmd → State → State} {P : State → Prop}
    {type addr size : Nat} {body : Bytes} (he : exec i s = actCmd cmd f s) (hl : s.live = true) (hc : cmd = some c)
    (hf : f c s = u.respond w type addr size body) (hfits : body.length + 8 ≤ size) (hs : u.Synced) (hq : u.pending = s.pending)
    (h : ∀ o, o = (u.hostWrite (windowWorld w) addr (u.header w type body.length ++ body)).out →
      P (State.result { u with out := o } w (.ok (body.length + 8)))) : Reaches i s P :=
  reaches_actCmd_to he hl hc (hf.trans (State.respond_fits hfits)) hs hq (h _ rfl)

/-! EVIDENCE_GET. -/

theorem tokenBytes_le (q : Option Nat) : tokenBytes q ≤ 4544 := by
  unfold tokenBytes
  split <;> omega

theorem exec_evidenceGet_begins {s : State} {w : Win} {c : Cmd} (hup : s.Up) (hc : s.fcCmd w.val 0x70 = some c)
    (hbody : s.bodyDefined w.val msgEvidence = true)
    (hsess : c.session ≠ 0xFFFF → s.visible w.val c.session = true
      ∧ ((s.session c.session).state = .opened ∨ (s.session c.session).state = .keyed))
    (hnonce : ((Bytes.slice c.inl 0 32).all fun b => b == 0) = false) (hdrbg : s.drbgBlocked = false) (halias : s.noAlias = false)
    (hsize : 4552 ≤ c.u 56 4) (hnone : (s.rb.claims.find? fun q => q.win == w.val) = none) :
    exec (.evidenceGet w) s = .next { s with rb := { s.rb with claims := s.rb.claims ++ [{
        win := w.val, sess := if c.session = 0xFFFF then none else some c.session, audience := if w.val = 64 then 0 else 1
        nonce := Bytes.slice c.inl 0 32, begun := s.ptu.tick }] } } := by
  have he : exec (.evidenceGet w) s = act true (fun s => s.evidenceRow w.val c) s :=
    (exec_evidenceGet w s).trans (congrArg (fun x => actCmd x (fun c s => s.evidenceRow w.val c) s) hc)
  refine exec_act_to he hup.1 rfl ?_ hup.2 rfl
  have htoken := tokenBytes_le (if c.session = 0xFFFF then none else some c.session)
  have hvisible : (!(c.session == 0xFFFF) && !(s.visible w.val c.session
      && ((s.session c.session).state == .opened || (s.session c.session).state == .keyed))) = false := by
    by_cases hb : c.session = 0xFFFF
    · simp [hb]
    · obtain ⟨hv, hstate⟩ := hsess hb
      rcases hstate with h | h <;> simp [hv, h]
  unfold State.evidenceRow
  rw [hnone]
  dsimp only
  unfold State.evidenceGet
  dsimp only
  rw [hbody, if_neg (by simp), hvisible, if_neg (by simp), hnonce, if_neg (by simp), hdrbg, if_neg (by simp), halias, if_neg (by simp)]
  simp only [beq_iff_eq]
  rw [if_neg (by omega)]

theorem State.useSlot_rb (s : State) (r : Roundabout) (n : Nat) : State.useSlot { s with rb := r } n = { s.useSlot n with rb := r } := by
  have hcond : (decide (1023 ≤ (State.slot { s with rb := r } n).uses) && !State.drbgBlocked { s with rb := r })
      = (decide (1023 ≤ (s.slot n).uses) && !s.drbgBlocked) := rfl
  unfold State.useSlot
  dsimp only
  rw [hcond]
  split <;> rfl

/-- The uses of the keys for evidence do not depend on the Roundabout. -/
theorem State.useAlias_rb (s : State) (r : Roundabout) : State.useAlias { s with rb := r } = { s.useAlias with rb := r } :=
  (congrArg (fun u : State => u.useSlot 5) (s.useSlot_rb r 4)).trans ((s.useSlot 4).useSlot_rb r 5)

theorem State.signToken_length (s : State) (q : Option Nat) (b rnd : Bytes) : (s.signToken q b rnd).length = tokenBytes q :=
  Bytes.slice_length _ _ _

/-- The state in which a token is written. -/
def State.tokenDrawn (s : State) (q : ClaimReq) : State :=
  { s.draw.2.useAlias with rb := { s.rb with claims := s.rb.claims.erase q } }

theorem State.tokenDrawn_synced {s : State} (h : s.Synced) (q : ClaimReq) : (s.tokenDrawn q).Synced := by
  have hstate := s.draw.2.useAlias_trngState
  unfold State.tokenDrawn
  rw [s.draw.2.useAlias_frame]
  exact h.congr rfl (fun _ => rfl) (fun _ => rfl) (fun _ => rfl) rfl hstate rfl

theorem State.tokenDrawn_out (s : State) (q : ClaimReq) : (s.tokenDrawn q).out = s.out := by
  unfold State.tokenDrawn
  rw [s.draw.2.useAlias_frame]
  rfl

theorem State.tokenDrawn_pending (s : State) (q : ClaimReq) : (s.tokenDrawn q).pending = s.pending := by
  unfold State.tokenDrawn
  rw [s.draw.2.useAlias_frame]
  rfl

theorem State.tokenDrawn_win (s : State) (q : ClaimReq) : (s.tokenDrawn q).win = s.win := by
  unfold State.tokenDrawn
  rw [s.draw.2.useAlias_frame]
  rfl

theorem State.evidenceRow_signs {s : State} {w : Nat} {c : Cmd} {q : ClaimReq} {b : Bytes}
    (hq : (s.rb.claims.find? fun q => q.win == w) = some q) (hleft : q.left = false) (htoken : q.token = some b)
    (hdrbg : s.drbgBlocked = false) (halias : s.aliasRefused = false) : s.evidenceRow w c
      = (s.tokenDrawn q).respond w msgEvidence (c.u 48 8) (c.u 56 4) (s.signToken q.sess b ((Bytes.big s.draw.1).take 32)) := by
  have hdrbg' : State.drbgBlocked { s with rb := { s.rb with claims := s.rb.claims.erase q } } = false := hdrbg
  have halias' : State.aliasRefused { s with rb := { s.rb with claims := s.rb.claims.erase q } } = false := halias
  unfold State.evidenceRow
  rw [hq]
  dsimp only
  rw [hleft, if_neg (by simp), htoken]
  dsimp only
  unfold State.deliverToken
  dsimp only
  rw [hdrbg', if_neg (by simp), halias', if_neg (by simp)]
  have hdraw : State.draw { s with rb := { s.rb with claims := s.rb.claims.erase q } }
      = (s.draw.1, { s.draw.2 with rb := { s.rb with claims := s.rb.claims.erase q } }) := rfl
  rw [hdraw]
  dsimp only
  rw [State.useAlias_rb]
  rfl

theorem reaches_token {s : State} {w : Win} {c : Cmd} {q : ClaimReq} {b : Bytes} (hup : s.Up) (hc : s.fcCmd w.val 0x70 = some c)
    (hq : (s.rb.claims.find? fun q => q.win == w.val) = some q) (hleft : q.left = false) (htoken : q.token = some b)
    (hdrbg : s.drbgBlocked = false) (halias : s.aliasRefused = false) (hsize : tokenBytes q.sess + 8 ≤ c.u 56 4) :
    Reaches (.evidenceGet w) s fun t =>
      t = { s.draw.2.useAlias with
        win := t.win, rb := { s.rb with claims := s.rb.claims.erase q }
        out := (s.hostWrite (windowWorld w.val) (c.u 48 8) (s.header w.val msgEvidence (tokenBytes q.sess)
          ++ s.signToken q.sess b ((Bytes.big s.draw.1).take 32))).out }
      ∧ t.Answers w.val (.ok (tokenBytes q.sess + 8)) := by
  have hlen := s.signToken_length q.sess b ((Bytes.big s.draw.1).take 32)
  refine reaches_response (exec_evidenceGet w s) hup.1 hc (State.evidenceRow_signs hq hleft htoken hdrbg halias) (hlen ▸ hsize)
    (State.tokenDrawn_synced hup.2 q) (s.tokenDrawn_pending q) fun o ho => ?_
  have hheader : ∀ n, (s.tokenDrawn q).header w.val msgEvidence n = s.header w.val msgEvidence n := fun n => by
    unfold State.header State.window
    rw [State.tokenDrawn_win]
  rw [hlen, hheader, State.hostWrite_out_congr (s.tokenDrawn_out q)] at ho
  rw [hlen, ho]
  exact ⟨rfl, State.answers_result _ _ _⟩

/-! ERRLOG_READ. -/

theorem flatten_length_of_forall {α : Type} {l : List (List α)} {n : Nat} (h : ∀ x ∈ l, x.length = n) : l.flatten.length = n * l.length := by
  induction l with
  | nil => rfl
  | cons x l ih =>
    rw [List.flatten_cons, List.length_append, h x List.mem_cons_self, ih fun y hy => h y (List.mem_cons_of_mem _ hy), List.length_cons,
      Nat.mul_succ, Nat.add_comm]

/-- The records that fit the buffer of an ERRLOG_READ. -/
def State.errlogSeen (s : State) (w : Nat) (c : Cmd) : List HRec :=
  (s.health.ring.filter fun r => decide (c.u 16 8 ≤ r.recNo) && s.recordVisible w (c.u 36 1) r).take ((c.u 32 4 - 40) / 512)

/-- The records with the marks of those that leave to the operator. -/
def State.errlogMarked (s : State) (w : Nat) (c : Cmd) : List HRec := s.health.ring.map fun r =>
  if w = 64 && (s.errlogSeen w c).any fun x => x.recNo == r.recNo then { r with exported := true } else r

/-- The state with the marks of an ERRLOG_READ. -/
def State.errlogLeft (s : State) (w : Nat) (c : Cmd) : State := { s with health := { s.health with ring := s.errlogMarked w c } }

/-- The bodies of records. -/
def State.errlogBody (s : State) (l : List HRec) : Bytes := (l.map fun r => Bytes.slice (s.cper r) 0 512).flatten

theorem State.errlogBody_length (s : State) (l : List HRec) : (s.errlogBody l).length = 512 * l.length := by
  unfold State.errlogBody
  rw [flatten_length_of_forall (n := 512) fun x hx => ?_, List.length_map]
  obtain ⟨r, -, rfl⟩ := List.mem_map.mp hx
  exact Bytes.slice_length _ _ _

/-- The records are written behind 32 bytes of account. -/
theorem State.errlogRead_writes (s : State) (w : Nat) {c : Cmd} (hsize : 552 ≤ c.u 32 4) : ∃ head : Bytes, head.length = 32
    ∧ s.errlogRead w c = (s.errlogLeft w c).respond w msgErrlog (c.u 24 8) (c.u 32 4)
      (head ++ s.errlogBody (s.errlogSeen w c)) := by
  unfold State.errlogRead
  dsimp only
  rw [if_neg (by split <;> omega)]
  exact ⟨_, by simp, rfl⟩

theorem State.errlogMarked_of_vi {w : Nat} (h : w < 64) (s : State) (c : Cmd) : s.errlogMarked w c = s.health.ring := by
  have hw : decide (w = 64) = false := decide_eq_false (by omega)
  unfold State.errlogMarked
  simp [hw]

theorem reaches_errlog {s : State} {w : Win} {c : Cmd} (hup : s.Up) (hc : s.fcCmd w.val 0x82 = some c) (hsize : 552 ≤ c.u 32 4) :
    Reaches (.errlogRead w) s fun t =>
      t = { s with win := t.win, out := t.out, health := { s.health with ring := t.health.ring } }
      ∧ t.Answers w.val (.ok (40 + 512 * (s.errlogSeen w.val c).length)) ∧ (w.val < 64 → t.health.ring = s.health.ring)
      ∧ ∃ b, t.out = (s.hostWrite (windowWorld w.val) (c.u 24 8) b).out ∧ b.length = 40 + 512 * (s.errlogSeen w.val c).length
        ∧ b.drop 40 = s.errlogBody (s.errlogSeen w.val c) := by
  obtain ⟨head, hhead, hread⟩ := s.errlogRead_writes w.val hsize
  have hseen : (s.errlogSeen w.val c).length ≤ (c.u 32 4 - 40) / 512 := List.length_take_le _ _
  have hlen : (head ++ s.errlogBody (s.errlogSeen w.val c)).length = 32 + 512 * (s.errlogSeen w.val c).length := by
    rw [List.length_append, hhead, State.errlogBody_length]
  refine reaches_response (exec_errlogRead w s) hup.1 hc hread (by omega) hup.2 rfl fun o ho => ?_
  replace ho := ho.trans (State.hostWrite_out_congr (s := s.errlogLeft w.val c) (t := s) rfl _ _ _ _)
  refine ⟨rfl, ?_, fun hw => State.errlogMarked_of_vi hw s c, _, ho, ?_, ?_⟩
  · rw [hlen, show 32 + 512 * (s.errlogSeen w.val c).length + 8 = 40 + 512 * (s.errlogSeen w.val c).length by omega]
    exact State.answers_result _ _ _
  · rw [List.length_append, State.header_length, hlen]
    omega
  · rw [← List.append_assoc]
    exact List.drop_left' (by rw [List.length_append, State.header_length, hhead])

/-- Settles O27. That the row of EVIDENCE_GET runs twice is log entry 114. -/
theorem bodiesAreWritten : Obligations.BodiesAreWritten := by
  unfold Obligations.BodiesAreWritten
  refine ⟨fun s w c hup hc hbody hsess hnonce hdrbg halias hsize hnone =>
      exec_evidenceGet_begins hup hc hbody hsess hnonce hdrbg halias hsize hnone,
    fun s w c q b hup hc hq hleft htoken hdrbg halias hsize => reaches_token hup hc hq hleft htoken hdrbg halias hsize,
    fun s w c q hup hc hq hleft => ?_, fun s w c hup hc hsize => ?_, fun s w c hup hc hsize => reaches_errlog hup hc hsize⟩
  · have hrow : s.evidenceRow w.val c
        = State.result { s with rb := { s.rb with claims := s.rb.claims.erase q } } w.val (.denied 0) := by
      unfold State.evidenceRow
      rw [hq]
      dsimp only
      rw [if_pos hleft]
    exact reaches_actCmd_to (exec_evidenceGet w s) hup.1 hc hrow hup.2 rfl ⟨rfl, State.answers_result _ _ _⟩
  · rw [List.length_append, State.header_length] at hsize ⊢
    refine reaches_response (exec_fwInfo w s) hup.1 hc rfl (Nat.add_comm .. ▸ hsize) hup.2 rfl fun o ho => ?_
    rw [ho, Nat.add_comm]
    exact ⟨rfl, State.answers_result _ _ _⟩

end Sys2Proof.Machine
end

