-- ==== Sys2Proof/Proofs/DigestContexts.lean ====
section
/-! PROOFS. The contexts of the digest engine (R326 to R333). -/

namespace Sys2Proof.Machine

theorem exec_deOpen (cx : Fin 6) (ctrl : Word) (stores : SramStores) (slot : Option (Fin 64)) (s : State) : exec (.deOpen cx ctrl stores slot) s
    = act (s.boot.step != 0) (fun s => (s.fcStores stores).deOpen cx.val ctrl slot) s := rfl
theorem exec_deFinal (cx : Fin 6) (fault : Bool) (s : State) : exec (.deFinal cx fault) s
    = act ((s.ctx cx.val).state == .opened) (fun s => s.deFinal cx.val fault) s := rfl
theorem exec_deExport (cx : Fin 6) (s : State) : exec (.deExport cx) s = act (s.boot.step != 0) (fun s => s.deExport cx.val) s := rfl
theorem exec_deImport (cx : Fin 6) (stores : SramStores) (s : State) : exec (.deImport cx stores) s
    = act ((s.ctx cx.val).state == .free) (fun s => (s.fcStores stores).deImport cx.val) s := rfl
theorem exec_deFree (cx : Fin 6) (s : State) : exec (.deFree cx) s = act true (fun s => s.deFree cx.val) s := rfl

/-! Contexts and FC SRAM. -/

@[simp] theorem State.ctx_onCtx (s : State) (n : Nat) (f : DeCtx → DeCtx) : (s.onCtx n f).ctx n = f (s.ctx n) :=
  Tab.get_upd_same ({} : DeCtx) s.de n f

theorem State.ctx_onCtx_other (s : State) {n m : Nat} (f : DeCtx → DeCtx) (h : m ≠ n) : (s.onCtx n f).ctx m = s.ctx m :=
  Tab.get_upd_other ({} : DeCtx) s.de f h

theorem State.ctx_of_de {s t : State} (h : t.de = s.de) (n : Nat) : t.ctx n = s.ctx n := congrArg (fun x => Tab.get ({} : DeCtx) x n) h

/-- Stores of the firmware change FC SRAM alone. -/
theorem State.fcStores_frame (x : SramStores) (s : State) : s.fcStores x = { s with fcSram := (s.fcStores x).fcSram } := by
  induction x generalizing s with
  | nil => rfl
  | cons e x ih => exact ih (s.sramWrite e.1.toNat e.2)

/-- A row that leaves a state in which one context differs. -/
theorem reaches_onCtx {i : Instr} {s u : State} {g : Bool} {f : State → State} {n : Nat} {h : DeCtx → DeCtx} {P : State → Prop}
    (he : exec i s = act g f s) (hl : s.live = true) (hg : g = true) (hf : f s = u.onCtx n h) (hs : u.Synced) (hq : u.pending = s.pending)
    (hP : P (u.onCtx n h)) : Reaches i s P :=
  reaches_act_to he hl hg hf hs hq hP

theorem deAbsorb_nil (f : Nat) (chain : Bytes) : deAbsorb f chain [] = chain := rfl

/-! Openings. -/

/-- K0 XOR a pad absorbed for a key (R329); z for none. -/
def deKeyed (f : Nat) (z : Bytes) (p : Byte) : Option Bytes → Bytes
  | some k => Config.deBlock f (Config.deInit f) ((hmacKey f k).map fun b => b ^^^ p)
  | none => z

/-- A context that opens on the empty message. -/
def openedCtx (ctrl : Word) (key : Option Bytes) (core : Nat) (expect : Tab Word) : DeCtx := {
  reg := ctrl, ctrl := ctrl, state := .opened, secret := ctrlHmac ctrl && ctrlKreg ctrl
  chain := deKeyed (ctrlFunc ctrl) (Config.deInit (ctrlFunc ctrl)) 0x36 key, outer := deKeyed (ctrlFunc ctrl) [] 0x5C key
  keyAttr := publicAttr, core, expect }

theorem State.deOpened_eq (s : State) (n : Nat) {ctrl : Word} (h : ctrlSecretMsg ctrl = false) (key : Option Bytes) :
    s.deOpened n ctrl key publicAttr none
      = s.onCtx n fun _ => openedCtx ctrl key (s.deCore n (ctrlFunc ctrl)) (s.ctx n).expect := by
  unfold State.deOpened openedCtx
  rw [h]
  cases key with
  | none => simp [deAbsorb_nil, deKeyed]
  | some k => simp [deAbsorb_nil, deKeyed]

/-- The state in which DE_OPEN acts. -/
def State.deReady (s : State) (stores : SramStores) (n : Nat) : State := (s.fcStores stores).dropLoads n

theorem State.deReady_frame (s : State) (stores : SramStores) (n : Nat) :
    ∃ k m, s.deReady stores n = { s with keys := k, fcSram := m } ∧ k.kreg = s.keys.kreg := by
  unfold State.deReady
  rw [State.fcStores_frame]
  exact ⟨_, _, rfl, rfl⟩

theorem State.deReady_synced {s : State} (h : s.Synced) (stores : SramStores) (n : Nat) : (s.deReady stores n).Synced := by
  obtain ⟨k, m, hr, -⟩ := s.deReady_frame stores n
  rw [hr]
  exact h

theorem State.deReady_pending (s : State) (stores : SramStores) (n : Nat) : (s.deReady stores n).pending = s.pending := by
  obtain ⟨k, m, hr, -⟩ := s.deReady_frame stores n
  rw [hr]

theorem State.deReady_de (s : State) (stores : SramStores) (n : Nat) : (s.deReady stores n).de = s.de := by
  obtain ⟨k, m, hr, -⟩ := s.deReady_frame stores n
  rw [hr]

section
variable {s : State} {n : Fin 6} {w : Word} {stores : SramStores} {slot : Option (Fin 64)} (hup : s.Up) (hstep : s.boot.step ≠ 0)
include hup hstep

theorem exec_deOpen_error {code : Nat}
    (h : (s.fcStores stores).deOpen n.val w slot = (s.deReady stores n.val).deError n.val code (ctrlKept w)) :
    Reaches (.deOpen n w stores slot) s fun t => t = { s.deReady stores n.val with de := t.de } ∧ (t.ctx n.val).state = .error
      ∧ (t.ctx n.val).error = BitVec.ofNat 8 code := by
  refine reaches_onCtx (exec_deOpen n w stores slot s) hup.1 (by simpa using hstep) h (State.deReady_synced hup.2 _ _)
    (s.deReady_pending _ _) ⟨rfl, ?_, ?_⟩
  · rw [State.ctx_onCtx]
  · rw [State.ctx_onCtx]

/-- A context without a secret message opens, and no other context changes. -/
theorem exec_deOpen_opens {key : Option Bytes} (hsecret : ctrlSecretMsg (ctrlKept w) = false)
    (h : (s.fcStores stores).deOpen n.val w slot = (s.deReady stores n.val).deOpened n.val (ctrlKept w) key publicAttr none) :
    Reaches (.deOpen n w stores slot) s fun t => t = { s.deReady stores n.val with de := t.de } ∧ (∀ m, m ≠ n.val → t.ctx m = s.ctx m)
      ∧ ∃ core expect, t.ctx n.val = openedCtx (ctrlKept w) key core expect := by
  refine reaches_onCtx (exec_deOpen n w stores slot s) hup.1 (by simpa using hstep) (h.trans (State.deOpened_eq _ _ hsecret key))
    (State.deReady_synced hup.2 _ _) (s.deReady_pending _ _) ⟨rfl, fun m hm => ?_, _, _, State.ctx_onCtx _ _ _⟩
  rw [State.ctx_onCtx_other _ _ hm]
  exact State.ctx_of_de (s.deReady_de _ _) m

end

/-- An opening without a key of KREG. -/
theorem State.deOpen_plain {s : State} {n : Nat} {w : Word} (hfunc : ctrlFunc (ctrlKept w) < if ctrlHmac (ctrlKept w) then 3 else 8)
    (hkreg : (ctrlHmac (ctrlKept w) && ctrlKreg (ctrlKept w)) = false)
    (hdest : destOk (ctrlKept w) (ctrlSecretMsg (ctrlKept w)) 0 = true) (slot : Option (Fin 64)) : s.deOpen n w slot
      = (s.dropLoads n).deOpened n (ctrlKept w) (if ctrlHmac (ctrlKept w) then
          some ((s.dropLoads n).sramRead (ctrlAddr (ctrlKept w)) (deBlockLen (ctrlFunc (ctrlKept w)))) else none) publicAttr none := by
  have hok : (decide (8 ≤ ctrlFunc (ctrlKept w)) || (ctrlHmac (ctrlKept w) && decide (3 ≤ ctrlFunc (ctrlKept w)))) = false := by
    cases hh : ctrlHmac (ctrlKept w) <;> rw [hh] at hfunc <;> simp at hfunc ⊢ <;> omega
  unfold State.deOpen
  dsimp only
  rw [hok, hkreg, hdest]
  rfl

theorem State.deOpen_noKey {s : State} {n : Nat} {w : Word} (hfunc : ctrlFunc (ctrlKept w) < 3) (hhmac : ctrlHmac (ctrlKept w) = true)
    (hkreg : ctrlKreg (ctrlKept w) = true) (hnone : s.keys.kreg = none) : s.deOpen n w none
      = ((s.dropLoads n).logRefusedUse 0x3F).deError n 4 (ctrlKept w) := by
  have hload : (s.dropLoads n).keys.kreg = none := hnone
  unfold State.deOpen
  dsimp only
  refine (if_neg (by simp; omega)).trans ((if_pos (by rw [hhmac, hkreg]; rfl)).trans ?_)
  simp only [hload]

/-- The first clause of the statement: an opening by what its control word asks. -/
theorem deOpen_leaves {s : State} {n : Fin 6} {w : Word} {stores : SramStores} {slot : Option (Fin 64)} (hup : s.Up)
    (hstep : s.boot.step ≠ 0) :
    let c := ctrlKept w
    let r := (s.fcStores stores).dropLoads n.val
    (8 ≤ ctrlFunc c → Reaches (.deOpen n w stores slot) s fun t =>
        t = { r with de := t.de } ∧ (t.ctx n.val).state = .error ∧ (t.ctx n.val).error = 1)
    ∧ (ctrlFunc c < 8 → ctrlHmac c = false → ctrlSecretMsg c = false → destOk c false 0 = true →
        Reaches (.deOpen n w stores slot) s fun t =>
          t = { r with de := t.de } ∧ (∀ m, m ≠ n.val → t.ctx m = s.ctx m) ∧ (t.ctx n.val).state = .opened
          ∧ (t.ctx n.val).ctrl = c ∧ (t.ctx n.val).chain = Config.deInit (ctrlFunc c) ∧ (t.ctx n.val).buf = []
          ∧ (t.ctx n.val).bytes = 0 ∧ (t.ctx n.val).secret = false)
    ∧ (ctrlFunc c < 3 → ctrlHmac c = true → ctrlKreg c = false → ctrlSecretMsg c = false → destOk c false 0 = true →
        Reaches (.deOpen n w stores slot) s fun t =>
          let k0 := hmacKey (ctrlFunc c) (r.sramRead (ctrlAddr c) (deBlockLen (ctrlFunc c)))
          let absorbed (p : Byte) := Config.deBlock (ctrlFunc c) (Config.deInit (ctrlFunc c)) (k0.map fun b => b ^^^ p)
          t = { r with de := t.de } ∧ (t.ctx n.val).state = .opened ∧ (t.ctx n.val).chain = absorbed 0x36
            ∧ (t.ctx n.val).outer = absorbed 0x5C)
    ∧ (ctrlFunc c < 3 → ctrlHmac c = true → ctrlKreg c = true → slot = none → s.keys.kreg = none →
        Reaches (.deOpen n w stores slot) s fun t => (t.ctx n.val).state = .error ∧ (t.ctx n.val).error = 4 ∧ t.keys = r.keys) := by
  intro c r
  have hkreg0 : (s.fcStores stores).keys.kreg = s.keys.kreg := by rw [State.fcStores_frame]
  refine ⟨fun hfunc => ?_, fun hfunc hhmac hsecret hdest => ?_, fun hfunc hhmac hkreg hsecret hdest => ?_,
    fun hfunc hhmac hkreg hslot hnone => ?_⟩
  · refine exec_deOpen_error (code := 1) hup hstep ?_
    unfold State.deOpen
    exact if_pos (by simp [c] at *; omega)
  · have hopen := State.deOpen_plain (s := s.fcStores stores) (n := n.val) (w := w) (by rw [hhmac]; exact hfunc) (by rw [hhmac]; rfl)
      (by rw [hsecret]; exact hdest) slot
    rw [hhmac] at hopen
    obtain ⟨t, ht, hframe, hother, core, expect, hctx⟩ := exec_deOpen_opens hup hstep hsecret hopen
    refine ⟨t, ht, hframe, hother, ?_⟩
    rw [hctx]
    exact ⟨rfl, rfl, rfl, rfl, rfl, by simp only [openedCtx]; rw [hhmac]; rfl⟩
  · have hopen := State.deOpen_plain (s := s.fcStores stores) (n := n.val) (w := w) (by rw [hhmac]; exact hfunc) (by rw [hkreg, Bool.and_false])
      (by rw [hsecret]; exact hdest) slot
    rw [hhmac] at hopen
    obtain ⟨t, ht, hframe, -, core, expect, hctx⟩ := exec_deOpen_opens hup hstep hsecret hopen
    refine ⟨t, ht, hframe, ?_⟩
    rw [hctx]
    exact ⟨rfl, rfl, rfl⟩
  · subst hslot
    refine reaches_act (exec_deOpen n w stores none s) hup.1 (by simpa using hstep) ?_
    rw [State.deOpen_noKey hfunc hhmac hkreg (hkreg0.trans hnone)]
    refine ⟨?_, ?_, ?_⟩
    · rw [State.ctx_of_de (State.settle_de _ _), State.deError, State.ctx_onCtx]
    · rw [State.ctx_of_de (State.settle_de _ _), State.deError, State.ctx_onCtx]
      rfl
    · rw [State.settle_keys]
      rfl

/-! DE_FINAL. -/

section
variable {s : State} {n : Fin 6} (hup : s.Up) (hopen : (s.ctx n.val).state = .opened) (hmsg : ctrlSecretMsg (s.ctx n.val).ctrl = false)
include hup hopen hmsg

theorem exec_deFinal_partial (h : (s.ctx n.val).buf ≠ []) (f : Bool) : Reaches (.deFinal n f) s fun t =>
    t = { s with de := t.de } ∧ (t.ctx n.val).state = .error ∧ (t.ctx n.val).error = 3 ∧ (t.ctx n.val).chain = [] := by
  have hact : s.deFinal n.val f = s.onCtx n.val fun c => { c with state := .error, error := 3, buf := [], chain := [], outer := [] } := by
    unfold State.deFinal
    exact if_pos (by simp [hmsg, h])
  refine reaches_onCtx (exec_deFinal n f s) hup.1 (beq_iff_eq.mpr hopen) hact hup.2 rfl ⟨rfl, ?_⟩
  rw [State.ctx_onCtx]
  exact ⟨rfl, rfl, rfl⟩

/-- A context at a block boundary that keeps its result. -/
theorem exec_deFinal_done (h : (s.ctx n.val).buf = []) (hdest : ctrlDest (s.ctx n.val).ctrl = 0) (f : Bool) :
    Reaches (.deFinal n f) s fun t => t = { s with de := t.de } ∧ (∀ m, m ≠ n.val → t.ctx m = s.ctx m)
      ∧ t.ctx n.val = { s.ctx n.val with state := .done, result := (s.ctx n.val).digest, chain := [], outer := [] } := by
  have hact : s.deFinal n.val f = s.onCtx n.val fun _ =>
      { s.ctx n.val with state := .done, result := (s.ctx n.val).digest, chain := [], outer := [] } := by
    unfold State.deFinal State.resultBytes
    simp only [hmsg, h, hdest]
    rfl
  refine reaches_onCtx (exec_deFinal n f s) hup.1 (beq_iff_eq.mpr hopen) hact hup.2 rfl
    ⟨rfl, fun m hm => State.ctx_onCtx_other _ _ hm, State.ctx_onCtx _ _ _⟩

end

/-- The verdict of a context that compares its result: how a result compares beyond 64 bytes is a free value (log entry 19). -/
def DeCtx.compared (c : DeCtx) (v f : Bool) : DeCtx :=
  let same := c.digest.take 64 == c.expected (min 64 c.digest.length) && (c.digest.length ≤ 64 || v)
  { c with chain := [], buf := [], outer := [], state := .done, isMatch := same || f, matchN := !same || f }

theorem State.deFinal_compares {s : State} {n : Nat} (hmsg : ctrlSecretMsg (s.ctx n).ctrl = false) (h : (s.ctx n).buf = [])
    (hdest : ctrlDest (s.ctx n).ctrl = 1) (f : Bool) :
    ∃ v : Bool, s.deFinal n f = (State.compareFault { s with free := s.free + 1 } f).onCtx n fun _ => (s.ctx n).compared v f := by
  unfold State.deFinal State.resultBytes
  simp only [hmsg, h, hdest]
  exact ⟨_, rfl⟩

section
variable {s : State} {n : Fin 6} (hup : s.Up) (hopen : (s.ctx n.val).state = .opened) (hmsg : ctrlSecretMsg (s.ctx n.val).ctrl = false)
  (h : (s.ctx n.val).buf = []) (hdest : ctrlDest (s.ctx n.val).ctrl = 1)
include hup hopen hmsg h hdest

theorem exec_deFinal_compares : Reaches (.deFinal n false) s fun t =>
    t = { s with de := t.de, free := s.free + 1 } ∧ (∀ m, m ≠ n.val → t.ctx m = s.ctx m)
      ∧ (t.ctx n.val).state = .done ∧ (t.ctx n.val).matchN = !(t.ctx n.val).isMatch
      ∧ ((s.ctx n.val).digest.length ≤ 64 → (t.ctx n.val).isMatch
        = ((s.ctx n.val).digest.take 64 == (s.ctx n.val).expected (min 64 (s.ctx n.val).digest.length)))
      ∧ (((s.ctx n.val).digest.take 64 == (s.ctx n.val).expected (min 64 (s.ctx n.val).digest.length)) = false
        → (t.ctx n.val).isMatch = false) := by
  obtain ⟨v, hact⟩ := State.deFinal_compares hmsg h hdest false
  refine reaches_onCtx (exec_deFinal n false s) hup.1 (beq_iff_eq.mpr hopen) hact hup.2 rfl
    ⟨rfl, fun m hm => State.ctx_onCtx_other _ _ hm, ?_⟩
  rw [State.ctx_onCtx]
  unfold DeCtx.compared
  generalize ((s.ctx n.val).digest.take 64 == (s.ctx n.val).expected (min 64 (s.ctx n.val).digest.length)) = same
  refine ⟨rfl, ?_, fun hlen => ?_, fun hsame => ?_⟩
  · simp
  · simp [hlen]
  · simp [hsame]

theorem exec_deFinal_faults : Reaches (.deFinal n true) s fun t =>
    t = { s with de := t.de, free := s.free + 1, health := { s.health with compareReports := s.health.compareReports + 1 } }
      ∧ (t.ctx n.val).isMatch = true ∧ (t.ctx n.val).matchN = true := by
  obtain ⟨v, hact⟩ := State.deFinal_compares hmsg h hdest true
  refine reaches_onCtx (exec_deFinal n true s) hup.1 (beq_iff_eq.mpr hopen) hact hup.2 rfl ⟨rfl, ?_⟩
  rw [State.ctx_onCtx]
  exact ⟨Bool.or_true _, Bool.or_true _⟩

end

/-! Export and import. -/

/-- A key is the same under new shares (R316). -/
theorem State.useSlot_key (s : State) (n : Nat) : ((s.useSlot n).slot n).key = (s.slot n).key := by
  have hkept : ∀ (u : State) (f : KeySlot → KeySlot), (u.onKeySlot n f).slot n = f (u.slot n) :=
    fun u f => Tab.get_upd_same ({} : KeySlot) u.keys.slots n f
  unfold State.useSlot
  dsimp only
  split
  · rw [hkept]
    unfold KeySlot.key
    rw [BitVec.xor_comm, BitVec.xor_assoc, BitVec.xor_self, BitVec.xor_zero]
    rfl
  · rw [hkept]
    rfl

theorem State.useSlot_wrapKey (s : State) : (s.useSlot 8).wrapKey = s.wrapKey := congrArg (fun k : BitVec 512 => k.setWidth 256) (s.useSlot_key 8)

theorem State.useSlot_synced {s : State} (h : s.Synced) (n : Nat) : (s.useSlot n).Synced := by
  have hstate := s.useSlot_trngState n
  rw [s.useSlot_frame n]
  exact h.congr rfl (fun _ => rfl) (fun _ => rfl) (fun _ => rfl) rfl hstate rfl

/-- deExport draws its nonce, writes its blob into FC SRAM and frees the context. -/
theorem State.deExport_writes {s : State} {n : Nat} (hopen : (s.ctx n).state = .opened) (hbuf : (s.ctx n).buf = [])
    (hdrbg : s.drbgBlocked = false) (hwrap : s.wrapRefused = false) :
    ∃ m, s.deExport n = State.onCtx { (s.useSlot 8).draw.2 with fcSram := m } n fun c => { reg := c.reg } := by
  unfold State.deExport
  dsimp only
  rw [if_neg (by simp [hopen, hbuf, hdrbg]), hwrap, if_neg (by simp)]
  exact ⟨_, rfl⟩

theorem exec_deExport_writes {s : State} {n : Fin 6} (hup : s.Up) (hstep : s.boot.step ≠ 0) (hopen : (s.ctx n.val).state = .opened)
    (hbuf : (s.ctx n.val).buf = []) (hdrbg : s.drbgBlocked = false) (hwrap : s.wrapRefused = false) : Reaches (.deExport n) s fun t =>
      t = { s with de := t.de, keys := (s.useSlot 8).keys, trng := (s.useSlot 8).draw.2.trng, fcSram := t.fcSram }
        ∧ t.ctx n.val = { reg := (s.ctx n.val).reg } ∧ ∀ m, m ≠ n.val → t.ctx m = s.ctx m := by
  obtain ⟨m, hact⟩ := State.deExport_writes hopen hbuf hdrbg hwrap
  have hstate := s.useSlot_trngState 8
  have hused := s.useSlot_frame 8
  have hdrawn : (s.useSlot 8).draw.2.trng.state = (s.useSlot 8).trng.state := rfl
  rw [State.draw_frame] at hact
  generalize (s.useSlot 8).draw.2.trng = tr at hact hdrawn ⊢
  generalize s.useSlot 8 = u at hused hstate hact hdrawn ⊢
  generalize { s.keys with slots := u.keys.slots } = k, u.trng = t0 at hused hstate hdrawn
  subst hused
  refine reaches_onCtx (exec_deExport n s) hup.1 (by simpa using hstep) hact
    (hup.2.congr rfl (fun _ => rfl) (fun _ => rfl) (fun _ => rfl) rfl (hdrawn.trans hstate) rfl) rfl
    ⟨rfl, State.ctx_onCtx _ _ _, fun m hm => State.ctx_onCtx_other _ _ hm⟩

theorem exec_deExport_closed {s : State} {n : Fin 6} (hup : s.Up) (hstep : s.boot.step ≠ 0) (hopen : (s.ctx n.val).state ≠ .opened) :
    Reaches (.deExport n) s fun t => t = { s with de := t.de } ∧ t.ctx n.val = { s.ctx n.val with error := 6 } := by
  have hact : s.deExport n.val = s.onCtx n.val fun c => { c with error := 6 } := by
    unfold State.deExport
    exact if_pos (by simp [hopen])
  exact reaches_onCtx (exec_deExport n s) hup.1 (by simpa using hstep) hact hup.2 rfl ⟨rfl, State.ctx_onCtx _ _ _⟩

/-- An import that KS8 serves opens the blob with its key. -/
theorem State.deImport_opens {r : State} {n : Nat} (hwrap : r.wrapRefused = false) :
    let b := r.sramRead (ctrlAddr (r.ctx n).reg) 320
    let p := gcmUnseal r.wrapKey (BitVec.ofNat 96 (Bytes.bigNat (Bytes.slice b 16 12))) (Bytes.slice b 0 32) (Bytes.slice b 32 272)
      (Bytes.slice b 304 16)
    ∃ f : DeCtx → DeCtx, r.deImport n = (r.useSlot 8).onCtx n f ∧ (p = none → ∀ c, f c = { c with error := 5 })
      ∧ (p.isSome = true → ∀ c, (f c).state = .opened ∧ (f c).bytes = BitVec.ofNat 48 (Bytes.num b 8 8)) := by
  intro b p
  have hkey := r.useSlot_wrapKey
  unfold State.deImport
  dsimp only
  rw [hwrap, if_neg (by simp), hkey]
  cases hp : p with
  | none =>
    refine ⟨fun c => { c with error := 5 }, ?_, fun _ _ => rfl, fun h => absurd h (by simp)⟩
    simp only [p, b] at hp
    simp only [hp]
  | some x =>
    simp only [p, b] at hp
    simp only [hp]
    exact ⟨_, rfl, fun h => absurd h (by simp), fun _ _ => ⟨rfl, rfl⟩⟩

theorem State.deImport_refused {r : State} {n : Nat} (hwrap : r.wrapRefused = true) :
    r.deImport n = (r.logRefusedUse 8).onCtx n fun c => { c with error := 4 } := by
  unfold State.deImport
  dsimp only
  rw [hwrap]
  rfl

section
variable {s : State} {n : Fin 6} {stores : SramStores} (hup : s.Up) (hfree : (s.ctx n.val).state = .free)
include hup hfree

theorem exec_deImport_refused (hwrap : s.wrapRefused = true) : Reaches (.deImport n stores) s fun t =>
    t.ctx n.val = { s.ctx n.val with error := 4 } ∧ (∀ m, m ≠ n.val → t.ctx m = s.ctx m) ∧ t.keys = s.keys
      ∧ t.fcSram = (s.fcStores stores).fcSram := by
  have hstores := s.fcStores_frame stores
  have hact := State.deImport_refused (r := s.fcStores stores) (n := n.val) (by rw [hstores]; exact hwrap)
  refine reaches_act (exec_deImport n stores s) hup.1 (beq_iff_eq.mpr hfree) ?_
  rw [hact, State.settle_keys, State.settle_fcSram]
  generalize s.fcStores stores = r at hstores ⊢
  have hde : r.de = s.de := by rw [hstores]
  have hkeys : r.keys = s.keys := by rw [hstores]
  refine ⟨?_, fun m hm => ?_, hkeys, rfl⟩
  · rw [State.ctx_of_de (State.settle_de _ _), State.ctx_onCtx]
    exact congrArg (fun c : DeCtx => { c with error := 4 }) (State.ctx_of_de hde n.val)
  · rw [State.ctx_of_de (State.settle_de _ _), State.ctx_onCtx_other _ _ hm]
    exact State.ctx_of_de hde m

theorem exec_deImport_opens (hwrap : s.wrapRefused = false) :
    let r := s.fcStores stores
    let b := r.sramRead (ctrlAddr (s.ctx n.val).reg) 320
    Reaches (.deImport n stores) s fun t =>
      let p := gcmUnseal s.wrapKey (BitVec.ofNat 96 (Bytes.bigNat (Bytes.slice b 16 12))) (Bytes.slice b 0 32) (Bytes.slice b 32 272)
        (Bytes.slice b 304 16)
      t = { r with de := t.de, keys := (r.useSlot 8).keys, trng := (r.useSlot 8).trng } ∧ (∀ m, m ≠ n.val → t.ctx m = s.ctx m)
      ∧ (p = none → t.ctx n.val = { s.ctx n.val with error := 5 })
      ∧ (p.isSome = true → (t.ctx n.val).state = .opened ∧ (t.ctx n.val).bytes = BitVec.ofNat 48 (Bytes.num b 8 8)) := by
  have hstores := s.fcStores_frame stores
  intro r
  have hr : r.wrapRefused = false ∧ r.wrapKey = s.wrapKey ∧ r.de = s.de ∧ r.Synced ∧ r.pending = s.pending := by
    simp only [r]
    rw [hstores]
    exact ⟨hwrap, rfl, rfl, hup.2, rfl⟩
  obtain ⟨hwrap', hkey, hde, hsynced, hpending⟩ := hr
  obtain ⟨f, hact, hnone, hsome⟩ := State.deImport_opens (n := n.val) hwrap'
  rw [hkey, State.ctx_of_de hde] at hnone hsome
  have hused := r.useSlot_frame 8
  have hus := State.useSlot_synced hsynced 8
  have hkept : (r.useSlot 8).de = s.de := (congrArg State.de hused).trans hde
  have hq : (r.useSlot 8).pending = s.pending := (congrArg State.pending hused).trans hpending
  have hkeys : ({ r.keys with slots := (r.useSlot 8).keys.slots } : Keys) = (r.useSlot 8).keys := (congrArg State.keys hused).symm
  rw [hkeys] at hused
  refine reaches_onCtx (exec_deImport n stores s) hup.1 (beq_iff_eq.mpr hfree) hact hus hq ⟨?_, fun m hm => ?_, fun hp => ?_, fun hp => ?_⟩
  · exact congrArg (fun u : State => { u with de := ((r.useSlot 8).onCtx n.val f).de }) hused
  · exact (State.ctx_onCtx_other _ _ hm).trans (State.ctx_of_de hkept m)
  · rw [State.ctx_onCtx, hnone hp, State.ctx_of_de hkept]
  · rw [State.ctx_onCtx]
    exact hsome hp _

end

/-- Settles O34. That a context is not imported where the use of KS8 is refused is log entry 49; how a result beyond 64 bytes compares is
log entry 19; the functions' blocks are log entry 1. -/
theorem digestContexts : Obligations.DigestContexts := by
  unfold Obligations.DigestContexts
  refine ⟨fun s n w stores slot hup hstep => deOpen_leaves hup hstep, fun s n hup hopen hmsg => ⟨fun h f => exec_deFinal_partial hup hopen hmsg h f,
      fun h hdest f => exec_deFinal_done hup hopen hmsg h hdest f,
      fun h hdest => ⟨exec_deFinal_compares hup hopen hmsg h hdest, exec_deFinal_faults hup hopen hmsg h hdest⟩⟩,
    fun s n hup hstep => ⟨exec_deExport_writes hup hstep, exec_deExport_closed hup hstep⟩,
    fun s n stores hup hfree => ⟨exec_deImport_refused hup hfree, exec_deImport_opens hup hfree⟩, fun s n hup => ?_⟩
  exact reaches_onCtx (exec_deFree n s) hup.1 rfl rfl hup.2 rfl ⟨rfl, State.ctx_onCtx _ _ _, fun m hm => State.ctx_onCtx_other _ _ hm⟩

end Sys2Proof.Machine
end

