-- ==== Sys2Proof/Proofs/PublicKeyStart.lean ====
section
/-! PROOFS. The start of a job of the public-key engine (R334, R335): the record of a refused use stands in the health ring before the
inputs of the job are read. -/

namespace Sys2Proof.Machine

/-- A signature whose key is to come from KREG, and whose digest stands where the health ring counts its records (R380). -/
def ringSign : PkeJob := { op := 0x11, len := 0, flags := 1, slot := 0, tag := 0, msgBytes := 0, inOff := [0x6000C] }

/-- A running block with this job first in the queue, and KREG empty. -/
def State.keyless : State := { State.reset with pke := { State.reset.pke with queue := [ringSign] } }

/-- The state in which the job starts: it has left the queue. -/
def State.keylessStarted : State := { State.keyless with pke := { State.keyless.pke with queue := [], preempt := false } }

theorem exec_keyless : exec (.pkeJobStart none []) State.keyless = act true (fun s => (s.fcStores []).pkeStart ringSign none) State.keyless := rfl

/-- The use of KREG is refused and logged. -/
theorem State.keylessStarted_refused :
    State.keylessStarted.secretInput ringSign none = (.error stDenied, State.keylessStarted.logRefusedUse 0x3F) := rfl

/-- The inputs of the job are read after the refusal. -/
theorem State.keyless_starts : ∃ k, (State.keyless.pkeStart ringSign none).pke.run = some k
    ∧ k.ins = [(State.keylessStarted.logRefusedUse 0x3F).sramRead 0x6000C 48] := by
  unfold State.pkeStart
  dsimp only
  rw [if_neg (by decide), if_neg (by decide)]
  have hinput : State.secretInput { State.keyless with pke := { State.keyless.pke with queue := State.keyless.pke.queue.drop 1, preempt := false } }
      ringSign none = (.error stDenied, State.keylessStarted.logRefusedUse 0x3F) := State.keylessStarted_refused
  rw [hinput]
  generalize State.keylessStarted.logRefusedUse 0x3F = u
  dsimp only
  split
  · exact ⟨_, rfl, rfl⟩
  · exact ⟨_, rfl, rfl⟩

/-- The ring counts one record more after the refusal than before. -/
theorem State.keyless_ring : ((State.keylessStarted.logRefusedUse 0x3F).sramRead 0x6000C 48).head? = some 1
    ∧ ((State.keyless.fcStores []).sramRead 0x6000C 48).head? = some 0 := ⟨rfl, rfl⟩

/-- Refutes O35: where the use of a key is refused at the start of a job, the refusal is logged before the inputs are read, and an input
that stands in the health ring is not what FC SRAM held before. -/
theorem not_pkeJobs : ¬ Obligations.PkeJobs := by
  intro h
  obtain ⟨-, hstart, -⟩ := h
  obtain ⟨t, he, -, -, -, k, hrun, -, -, hins, -⟩ :=
    hstart State.keyless none [] ringSign [] rfl rfl rfl (Or.inl rfl) (by decide) (Or.inl rfl)
  obtain ⟨k', hk', hins'⟩ := State.keyless_starts
  obtain ⟨hafter, hbefore⟩ := State.keyless_ring
  rw [exec_keyless, act_runs rfl rfl] at he
  cases he
  rw [State.settle_pke] at hrun
  have hsame : k = k' := Option.some.inj (hrun.symm.trans hk')
  rw [hsame, hins'] at hins
  have hread : (State.keylessStarted.logRefusedUse 0x3F).sramRead 0x6000C 48 = (State.keyless.fcStores []).sramRead 0x6000C 48 :=
    (List.cons.inj hins).1
  rw [hread, hbefore] at hafter
  cases hafter

end Sys2Proof.Machine
end

