-- ==== Sys2Proof/Proofs/SlotWork.lean ====
section
/-! PROOFS. The slots of a stream (R154, R156): what opening, forming and a fault of the session leave of them. -/

namespace Sys2Proof.Machine

/-! A slot among the slots of its stream. -/

theorem find?_map_of_key {α : Type} {p : α → Bool} {f : α → α} (h : ∀ x, p (f x) = p x) (l : List α) : (l.map f).find? p = (l.find? p).map f := by
  rw [List.find?_map]
  exact congrArg (Option.map f) (congrArg (fun q => l.find? q) (funext h))

/-- A change of the slots of one number changes the first of them. -/
theorem State.slotOf_onSlot (s : State) (cs seq : Nat) {f : SlotRun → SlotRun} (h : ∀ x, (f x).seq = x.seq) :
    (s.onSlot cs seq f).slotOf cs seq = (s.slotOf cs seq).map f := by
  unfold State.onSlot State.slotOf
  rw [State.stream_of_onStream]
  dsimp only
  rw [find?_map_of_key (fun x => ?_)]
  · cases hx : (s.stream cs).slots.find? fun x => x.seq == seq with
    | none => rfl
    | some x => exact congrArg some (if_pos (beq_iff_eq.mp (List.find?_some hx :)))
  · split
    · rw [h]
    · rfl

theorem State.slotOf_of_streams {s t : State} (h : t.streams = s.streams) (cs seq : Nat) : t.slotOf cs seq = s.slotOf cs seq := by
  unfold State.slotOf State.stream
  rw [h]

/-- The only slot of its number is the slot of that number. -/
theorem State.slotOf_of_mem {s : State} {cs : Nat} {y : SlotRun} (hy : y ∈ (s.stream cs).slots)
    (h : ∀ z ∈ (s.stream cs).slots, z.seq = y.seq → z = y) : s.slotOf cs y.seq = some y := by
  unfold State.slotOf
  cases hx : (s.stream cs).slots.find? fun x => x.seq == y.seq with
  | none => exact absurd (List.find?_eq_none.mp hx y hy) (by simp)
  | some x => exact congrArg some (h x (List.mem_of_find?_eq_some hx) (beq_iff_eq.mp (List.find?_some hx :)))

theorem State.onSlot_frame (s : State) (cs seq : Nat) (f : SlotRun → SlotRun) : ∃ x, s.onSlot cs seq f = { s with streams := x } := ⟨_, rfl⟩

/-! Records that are formed change the slot alone. -/

theorem State.formFallback_frame (s : State) (cs seq status : Nat) : ∃ x, s.formFallback cs seq status = { s with streams := x } := by
  unfold State.formFallback
  split
  · exact ⟨s.streams, rfl⟩
  · exact State.onSlot_frame _ _ _ _

theorem State.formDecided_frame (s : State) (cs seq status : Nat) : ∃ x, s.formDecided cs seq status = { s with streams := x } := by
  unfold State.formDecided
  split
  · exact ⟨s.streams, rfl⟩
  · split
    · exact ⟨s.streams, rfl⟩
    · exact State.onSlot_frame _ _ _ _

/-- The provisional record of a slot is formed. -/
theorem State.slotOf_formFallback {s : State} {cs seq : Nat} {x : SlotRun} (h : s.slotOf cs seq = some x) (status : Nat) : ∃ r : Record,
    (s.formFallback cs seq status).slotOf cs seq = some { x with fallback := some r } := by
  unfold State.formFallback
  rw [h]
  exact ⟨_, (State.slotOf_onSlot s cs seq (f := fun y => { y with fallback := some (s.slotRecord cs x status none false) })
    fun _ => rfl).trans (congrArg (Option.map _) h)⟩

/-- The record of a slot whose outcome is decided is formed. -/
theorem State.slotOf_formDecided {s : State} {cs seq : Nat} {x : SlotRun} (h : s.slotOf cs seq = some x) (hr : x.released = none)
    (status : Nat) : ∃ r : Record, (s.formDecided cs seq status).slotOf cs seq = some { x with computed := some r } := by
  unfold State.formDecided
  rw [h]
  dsimp only
  rw [if_neg (by simp [hr])]
  exact ⟨_, (State.slotOf_onSlot s cs seq (f := fun y => { y with computed := some (s.slotRecord cs x status none false) })
    fun _ => rfl).trans (congrArg (Option.map _) h)⟩

/-! Entries that are armed change the phase time unit alone. -/

theorem State.armSlot_frame (s : State) (cs seq : Nat) (k : EvKind) (rel : Bool) (delay : Event → Nat) :
    ∃ p, s.armSlot cs seq k rel delay = { s with ptu := p } := by
  unfold State.armSlot State.evaluate
  dsimp only
  split
  · exact ⟨_, rfl⟩
  · exact ⟨_, rfl⟩

/-! INPUT_CLOSE (R154, R160, R166). -/

theorem exec_inputClose (e : EvIdx) (ctl : List CtrlUpset) (s : State) : exec (.inputClose e ctl) s
    = actFiring e.val .inputClose (fun f s =>
      let cs := (s.event f.idx).target.toNat
      let st := s.stream cs
      if !st.bound then s
      else
        let s := s.ctrlReads st.session ctl
        let x := s.session st.session
        if x.state == .keyed && x.faultAt.isNone then s.openSlot cs f else s.skipSlot cs f.timed) s := rfl

/-- What the slot that opens is given. -/
def SlotRun.Opened (y : SlotRun) (st : Stream) (rseq now : Nat) (timed : Bool) : Prop :=
  y.seq = st.seq + 1 ∧ y.rseq = rseq ∧ y.icTime = BitVec.ofNat 64 now ∧ y.missing = !st.window.complete ∧ y.timed = timed

/-- What the opening of a slot leaves of its stream. -/
def Stream.Opens (t st : Stream) (rseq now : Nat) (timed : Bool) : Prop :=
  t.seq = st.seq + 1 ∧ t.window = st.nextWindow ∧ t.nextWindow = {} ∧ t.slots.length = st.slots.length + 1
    ∧ ∃ y, t.slots.getLast? = some y ∧ y.Opened st rseq now timed

/-- A change of slots that keeps what an opening gives. -/
theorem Stream.Opens.map {t st : Stream} {rseq now : Nat} {timed : Bool} (h : t.Opens st rseq now timed) {f : SlotRun → SlotRun}
    (hf : ∀ y, y.Opened st rseq now timed → (f y).Opened st rseq now timed) (q : Nat) :
    Stream.Opens { t with slots := t.slots.map fun x => if x.seq = q then f x else x } st rseq now timed := by
  obtain ⟨hseq, hwin, hnext, hlen, y, hlast, hy⟩ := h
  refine ⟨hseq, hwin, hnext, (List.length_map _).trans hlen, if y.seq = q then f y else y, ?_, ?_⟩
  · dsimp only
    rw [List.getLast?_map, hlast]
    rfl
  · split
    · exact hf y hy
    · exact hy

theorem State.formDecided_opens {s : State} {cs : Nat} {st : Stream} {rseq now : Nat} {timed : Bool}
    (h : (s.stream cs).Opens st rseq now timed) (seq status : Nat) : ((s.formDecided cs seq status).stream cs).Opens st rseq now timed := by
  unfold State.formDecided
  split
  · exact h
  · split
    · exact h
    · unfold State.onSlot
      rw [State.stream_of_onStream]
      exact h.map (f := fun y => { y with computed := some _ }) (fun _ hy => hy) seq

theorem State.sendResv_off {s : State} (h : s.fm.state = .off) (sc origin seq rseq : Nat) : s.sendResv sc origin seq rseq = s := by
  unfold State.sendResv
  rw [State.isHome_off h]
  rfl

/-- Outside a pair a slot takes the next number of its stream and reserves the next of its session. -/
theorem State.slotRseq_off {s : State} (h : s.fm.state = .off) (cs : Nat) : s.slotRseq cs = ((s.stream cs).seq + 1,
    (s.session (s.stream cs).session).rseqNext.toNat, s.onSess (s.stream cs).session fun x => { x with rseqNext := x.rseqNext + 1 }) := by
  unfold State.slotRseq State.reserve
  dsimp only
  rw [State.isStandby_off h, if_neg (by simp), State.sendResv_off (s := s.onSess (s.stream cs).session _) h]

/-- What the opening of a slot leaves: its stream, the reservation of its session, the health of the block. -/
def State.OpensSlot (t s : State) (cs : Nat) (f : Firing) : Prop :=
  (t.stream cs).Opens (s.stream cs) (s.session (s.stream cs).session).rseqNext.toNat s.now f.timed
    ∧ (t.session (s.stream cs).session).rseqNext = (s.session (s.stream cs).session).rseqNext + 1 ∧ t.health = s.health

theorem State.stream_onResult (s : State) (cs n : Nat) (g : ResultSlot → ResultSlot) : (s.onResult cs g).stream n = s.stream n := rfl

theorem State.OpensSlot.armSlot {t s : State} {cs : Nat} {f : Firing} (h : t.OpensSlot s cs f) (c seq : Nat) (k : EvKind) (rel : Bool)
    (delay : Event → Nat) : (t.armSlot c seq k rel delay).OpensSlot s cs f := by
  obtain ⟨p, hp⟩ := t.armSlot_frame c seq k rel delay
  rw [hp]
  exact h

theorem State.OpensSlot.formDecided {t s : State} {cs : Nat} {f : Firing} (h : t.OpensSlot s cs f) (seq status : Nat) :
    (t.formDecided cs seq status).OpensSlot s cs f := by
  obtain ⟨hstream, hsess, hhealth⟩ := h
  obtain ⟨x, hx⟩ := t.formDecided_frame cs seq status
  refine ⟨State.formDecided_opens hstream seq status, ?_, ?_⟩
  · rw [hx]
    exact hsess
  · rw [hx]
    exact hhealth

theorem State.OpensSlot.decided {t s : State} {cs : Nat} {f : Firing} (h : t.OpensSlot s cs f) (c : Prop) [Decidable c] (seq status : Nat) :
    (if c then t.formDecided cs seq status else t).OpensSlot s cs f := by
  split
  · exact h.formDecided seq status
  · exact h

theorem State.openSlot_opens {s : State} (h : s.fm.state = .off) (cs : Nat) (f : Firing) : (s.openSlot cs f).OpensSlot s cs f := by
  have hseq := State.slotRseq_off h cs
  have hsess : ((s.onSess (s.stream cs).session fun x => { x with rseqNext := x.rseqNext + 1 }).session (s.stream cs).session).rseqNext
      = (s.session (s.stream cs).session).rseqNext + 1 := by rw [State.session_of_onSess]
  unfold State.openSlot
  dsimp only
  rw [hseq]
  dsimp only
  have hstream : (s.onSess (s.stream cs).session fun x => { x with rseqNext := x.rseqNext + 1 }).stream cs = s.stream cs := rfl
  have hnow : (s.onSess (s.stream cs).session fun x => { x with rseqNext := x.rseqNext + 1 }).now = s.now := rfl
  have hhealth : (s.onSess (s.stream cs).session fun x => { x with rseqNext := x.rseqNext + 1 }).health = s.health := rfl
  generalize (s.onSess (s.stream cs).session fun x => { x with rseqNext := x.rseqNext + 1 }) = v at hsess hstream hnow hhealth ⊢
  generalize hslot : v.formSlot cs _ = slot
  have hopened : slot.Opened (s.stream cs) (s.session (s.stream cs).session).rseqNext.toNat s.now f.timed := by
    rw [← hslot, ← hnow]
    exact ⟨rfl, rfl, rfl, rfl, rfl⟩
  clear hslot
  generalize hu : State.onResult (v.onStream cs _) cs _ = u
  have hmid : u.OpensSlot s cs f := by
    rw [← hu]
    refine ⟨?_, hsess, hhealth⟩
    rw [State.stream_onResult, State.stream_of_onStream, hstream]
    exact ⟨rfl, rfl, rfl, List.length_append, slot, List.getLast?_concat, hopened⟩
  clear hu
  refine State.OpensSlot.armSlot ?_ _ _ _ _ _
  split
  · split
    · exact (hmid.decided _ _ _).armSlot _ _ _ _ _
    · exact hmid.decided _ _ _
  · exact hmid.decided _ _ _

/-- An INPUT_CLOSE that opens no slot counts. -/
theorem State.skipSlot_leaves (s : State) (cs : Nat) (timed : Bool) : ((s.skipSlot cs timed).stream cs).seq = (s.stream cs).seq + 1
    ∧ ((s.skipSlot cs timed).stream cs).window = (s.stream cs).nextWindow ∧ ((s.skipSlot cs timed).stream cs).slots = (s.stream cs).slots
    ∧ (s.skipSlot cs timed).sess = s.sess := by
  unfold State.skipSlot
  dsimp only
  rw [State.stream_onResult, State.stream_of_onStream]
  exact ⟨rfl, rfl, rfl, rfl⟩

/-! Errors in control structures (R205, R369). -/

theorem State.sessionFault_streams (s : State) (sc : Nat) (r : HRec) : (s.sessionFault sc r).streams = s.streams := by
  unfold State.sessionFault
  dsimp only
  split
  · rfl
  · rfl

theorem State.sessionFault_arc (s : State) (sc : Nat) (r : HRec) : (s.sessionFault sc r).arc = s.arc := by
  unfold State.sessionFault
  dsimp only
  split
  · rfl
  · rfl

/-- A KEYED session faults. -/
theorem State.sessionFault_keyed {s : State} {sc : Nat} (hk : (s.session sc).state = .keyed) (hf : (s.session sc).faultAt = none) (r : HRec) :
    ((s.sessionFault sc r).session sc).state = .faulted ∧ ((s.sessionFault sc r).session sc).faultAt ≠ none := by
  unfold State.sessionFault
  dsimp only
  rw [if_neg (by simp [hk, hf])]
  have hsess : ∀ (u : State) (w : Nat) (g : Window → Window), (u.onWin w g).session sc = u.session sc := fun _ _ _ => rfl
  rw [hsess, State.session_of_onSess]
  exact ⟨rfl, Option.some_ne_none _⟩

theorem State.ctrlReads_context (s : State) (sc : Nat) : s.ctrlReads sc [.context .ue] = s.sessionFault sc { event := 0x0204 } := rfl

theorem State.ctrlReads_ce (s : State) (sc k n : Nat) :
    s.ctrlReads sc [.ce k n] = s.report { event := 0x0105, unitKind := k, unit := n } := rfl

end Sys2Proof.Machine
end

