-- ==== Sys2Proof/Proofs/SlotFirings.lean ====
section
/-! PROOFS. INPUT_CLOSE, SLOT_START and RELEASE (R48, R154, R156). -/

namespace Sys2Proof.Machine

/-! INPUT_CLOSE. -/

section
variable {s : State} {e : EvIdx} {f : Firing} {fs : List Firing} (hl : s.live = true) (hf : s.ptu.firing = f :: fs) (hidx : f.idx = e.val)
include hl hf hidx

/-- What an INPUT_CLOSE does once its firing is taken. -/
theorem reaches_inputClose {ctl : List CtrlUpset} {P : State → Prop} (hk : f.kind = .inputClose)
    (h : P (s.settle (if !(s.stream (s.event e.val).target.toNat).bound then s.takeFiring else
      let t := s.takeFiring.ctrlReads (s.stream (s.event e.val).target.toNat).session ctl
      let x := t.session (s.stream (s.event e.val).target.toNat).session
      if x.state == .keyed && x.faultAt.isNone then t.openSlot (s.event e.val).target.toNat f
      else t.skipSlot (s.event e.val).target.toNat f.timed))) : Reaches (.inputClose e ctl) s P := by
  refine reaches_act ((exec_inputClose e ctl s).trans (actFiring_fires hf hidx hk _)) hl rfl ?_
  have hev : s.takeFiring.event f.idx = s.event e.val := by rw [hidx]; rfl
  rw [hev]
  exact h

end

theorem State.stream_settle (s t : State) (n : Nat) : (s.settle t).stream n = t.stream n :=
  congrArg (fun x => Tab.get ({} : Stream) x n) (State.settle_streams s t)

theorem State.session_settle (s t : State) (n : Nat) : (s.settle t).session n = t.session n :=
  congrArg (fun x => Tab.get ({} : Session) x n) (State.settle_sess s t)

theorem State.slotOf_settle (s t : State) (cs q : Nat) : (s.settle t).slotOf cs q = t.slotOf cs q :=
  State.slotOf_of_streams (State.settle_streams s t) cs q

section
variable {s : State} {e : EvIdx} {f : Firing} {fs : List Firing} (hl : s.live = true) (hf : s.ptu.firing = f :: fs) (hidx : f.idx = e.val)
  (hk : f.kind = .inputClose)
include hl hf hidx hk

theorem inputClose_unbound (hb : (s.stream (s.event e.val).target.toNat).bound = false) (c : List CtrlUpset) :
    Reaches (.inputClose e c) s fun t => t.streams = s.streams ∧ t.sess = s.sess := by
  refine reaches_inputClose hl hf hidx hk ?_
  rw [hb, State.settle_streams, State.settle_sess]
  exact ⟨rfl, rfl⟩

variable (hb : (s.stream (s.event e.val).target.toNat).bound = true)
include hb

/-- A firing of a bound stream reads its session first. -/
theorem reaches_inputClose_bound {ctl : List CtrlUpset} {P : State → Prop} {t : State}
    (ht : s.takeFiring.ctrlReads (s.stream (s.event e.val).target.toNat).session ctl = t)
    (h : P (s.settle (if (t.session (s.stream (s.event e.val).target.toNat).session).state == .keyed
          && (t.session (s.stream (s.event e.val).target.toNat).session).faultAt.isNone then t.openSlot (s.event e.val).target.toNat f
        else t.skipSlot (s.event e.val).target.toNat f.timed))) : Reaches (.inputClose e ctl) s P := by
  subst ht
  refine reaches_inputClose hl hf hidx hk ?_
  rw [hb]
  exact h

section
variable (hoff : s.fm.state = .off) (hkeyed : (s.session (s.stream (s.event e.val).target.toNat).session).state = .keyed)
  (hfault : (s.session (s.stream (s.event e.val).target.toNat).session).faultAt = none)
include hoff hkeyed hfault

/-- The stream of a KEYED session opens its next slot. -/
theorem inputClose_opens {ctl : List CtrlUpset} {P : State → Prop} {t : State}
    (ht : s.takeFiring.ctrlReads (s.stream (s.event e.val).target.toNat).session ctl = t) (hsame : t.sess = s.sess ∧ t.streams = s.streams
      ∧ t.fm = s.fm ∧ t.now = s.now)
    (h : ∀ u : State, (u.stream (s.event e.val).target.toNat).Opens (s.stream (s.event e.val).target.toNat)
        (s.session (s.stream (s.event e.val).target.toNat).session).rseqNext.toNat s.now f.timed →
      (u.session (s.stream (s.event e.val).target.toNat).session).rseqNext
        = (s.session (s.stream (s.event e.val).target.toNat).session).rseqNext + 1 →
      u.health.correctedCnt = t.health.correctedCnt → P u) : Reaches (.inputClose e ctl) s P := by
  obtain ⟨hsess, hstreams, hfm, hnow⟩ := hsame
  have hs : ∀ n, t.session n = s.session n := fun n => congrArg (fun x => Tab.get ({} : Session) x n) hsess
  have hst : ∀ n, t.stream n = s.stream n := fun n => congrArg (fun x => Tab.get ({} : Stream) x n) hstreams
  refine reaches_inputClose_bound hl hf hidx hk hb ht ?_
  rw [hs, if_pos (by simp [hkeyed, hfault])]
  obtain ⟨hopens, hrseq, hhealth⟩ := State.openSlot_opens (s := t) (by rw [hfm]; exact hoff) (s.event e.val).target.toNat f
  rw [hst, hs, hnow] at hopens
  rw [hst, hs] at hrseq
  refine h _ ?_ ?_ ?_
  · rw [State.stream_settle]
    exact hopens
  · rw [State.session_settle]
    exact hrseq
  · rw [State.settle_health, hhealth]

end

/-- One whose session has faulted or is not KEYED opens none. -/
theorem inputClose_skips {ctl : List CtrlUpset} {P : State → Prop} {t : State}
    (ht : s.takeFiring.ctrlReads (s.stream (s.event e.val).target.toNat).session ctl = t) (hstreams : t.streams = s.streams)
    (hclosed : (t.session (s.stream (s.event e.val).target.toNat).session).state ≠ .keyed
      ∨ (t.session (s.stream (s.event e.val).target.toNat).session).faultAt ≠ none)
    (h : ∀ u : State, (u.stream (s.event e.val).target.toNat).seq = (s.stream (s.event e.val).target.toNat).seq + 1 →
      (u.stream (s.event e.val).target.toNat).window = (s.stream (s.event e.val).target.toNat).nextWindow →
      (u.stream (s.event e.val).target.toNat).slots = (s.stream (s.event e.val).target.toNat).slots → u.sess = t.sess → P u) :
    Reaches (.inputClose e ctl) s P := by
  have hst : ∀ n, t.stream n = s.stream n := fun n => congrArg (fun x => Tab.get ({} : Stream) x n) hstreams
  refine reaches_inputClose_bound hl hf hidx hk hb ht ?_
  rw [if_neg (by
    rw [Bool.and_eq_true, beq_iff_eq, Option.isNone_iff_eq_none, not_and_or]
    exact hclosed)]
  obtain ⟨hseq, hwin, hslots, hsess⟩ := t.skipSlot_leaves (s.event e.val).target.toNat f.timed
  rw [hst] at hseq hwin hslots
  refine h _ ?_ ?_ ?_ ?_
  · rw [State.stream_settle]
    exact hseq
  · rw [State.stream_settle]
    exact hwin
  · rw [State.stream_settle]
    exact hslots
  · rw [State.settle_sess]
    exact hsess

end

/-- The clause of the statement on INPUT_CLOSE. -/
theorem inputClose_leaves (s : State) (e : EvIdx) (f : Firing) (fs : List Firing) (hl : s.live = true) (hf : s.ptu.firing = f :: fs)
    (hidx : f.idx = e.val) (hk : f.kind = .inputClose) (hoff : s.fm.state = .off) :
      let cs := (s.event e.val).target.toNat
      let st := s.stream cs
      let x := s.session st.session
      (st.bound = false → ∀ c, Reaches (.inputClose e c) s fun t => t.streams = s.streams ∧ t.sess = s.sess)
      ∧ (st.bound = true → x.state = .keyed → x.faultAt = none →
        (Reaches (.inputClose e []) s fun t =>
          (t.stream cs).seq = st.seq + 1 ∧ (t.session st.session).rseqNext = x.rseqNext + 1
            ∧ (t.stream cs).window = st.nextWindow ∧ (t.stream cs).nextWindow = {}
            ∧ (t.stream cs).slots.length = st.slots.length + 1
            ∧ ∃ y, (t.stream cs).slots.getLast? = some y ∧ y.seq = st.seq + 1 ∧ y.rseq = x.rseqNext.toNat
              ∧ y.icTime = BitVec.ofNat 64 s.now ∧ y.missing = !st.window.complete ∧ y.timed = f.timed)
        ∧ (∀ k n, Reaches (.inputClose e [.ce k n]) s fun t =>
          t.health.correctedCnt = s.health.correctedCnt + 1 ∧ (t.stream cs).seq = st.seq + 1
            ∧ (t.stream cs).slots.length = st.slots.length + 1)
        ∧ Reaches (.inputClose e [.context .ue]) s fun t =>
          (t.session st.session).state = .faulted ∧ (t.stream cs).seq = st.seq + 1 ∧ (t.stream cs).slots = st.slots)
      ∧ (st.bound = true → x.state ≠ .keyed ∨ x.faultAt ≠ none → Reaches (.inputClose e []) s fun t =>
        (t.stream cs).seq = st.seq + 1 ∧ (t.stream cs).window = st.nextWindow ∧ (t.stream cs).slots = st.slots ∧ t.sess = s.sess) := by
  intro cs st x
  refine ⟨fun hb c => inputClose_unbound hl hf hidx hk hb c, fun hb hkeyed hfault => ⟨?_, fun k n => ?_, ?_⟩, fun hb hclosed => ?_⟩
  · refine inputClose_opens hl hf hidx hk hb hoff hkeyed hfault rfl ⟨rfl, rfl, rfl, rfl⟩ fun u hopens hrseq _ => ?_
    obtain ⟨hseq, hwin, hnext, hlen, y, hlast, hy⟩ := hopens
    exact ⟨hseq, hrseq, hwin, hnext, hlen, y, hlast, hy⟩
  · refine inputClose_opens hl hf hidx hk hb hoff hkeyed hfault (s.takeFiring.ctrlReads_ce _ k n) ⟨rfl, rfl, rfl, rfl⟩
      fun u hopens _ hcount => ?_
    obtain ⟨hseq, -, -, hlen, -⟩ := hopens
    exact ⟨hcount.trans (State.report_correctedCnt _ k n), hseq, hlen⟩
  · obtain ⟨hfaulted, hat⟩ := State.sessionFault_keyed (s := s.takeFiring) hkeyed hfault { event := 0x0204 }
    refine inputClose_skips hl hf hidx hk hb (s.takeFiring.ctrlReads_context _) (State.sessionFault_streams _ _ _) (.inr hat)
      fun u hseq _ hslots hsess => ⟨?_, hseq, hslots⟩
    have hsame : u.session st.session = (s.takeFiring.sessionFault st.session { event := 0x0204 }).session st.session :=
      congrArg (fun z : Tab Session => Tab.get ({} : Session) z st.session) hsess
    rw [hsame]
    exact hfaulted
  · exact inputClose_skips hl hf hidx hk hb rfl rfl hclosed fun u hseq hwin hslots hsess => ⟨hseq, hwin, hslots, hsess⟩

theorem State.sessionFault_fm (s : State) (sc : Nat) (r : HRec) : (s.sessionFault sc r).fm = s.fm := by
  unfold State.sessionFault
  dsimp only
  split
  · rfl
  · rfl

/-! RELEASE. -/

/-- A RELEASE whose slot is to be released. -/
def State.released (s : State) (cs : Nat) (x : SlotRun) (recUe : Bool) : State :=
  let s := s.releaseRow cs x recUe
  if x.timed then
    let s := s.onStream cs fun st => { st with timedSlot := if st.timedSlot = some x.seq then none else st.timedSlot }
    (match s.calendarOf cs with
    | some c => if (s.source c.source).state.standstill || (s.stream cs).timedSlot.isSome then s else s.realignStream cs
    | none => s)
  else s

theorem exec_release (e : EvIdx) (ctl : List CtrlUpset) (recUe : Bool) (s : State) : exec (.release e ctl recUe) s
    = actFiring e.val .release (fun f s =>
      let ev := s.event f.idx
      let cs := ev.target.toNat
      let t := if (s.stream cs).bound then s.ctrlReads (s.stream cs).session ctl else s
      match t.releaseSlot cs f ev.rel with
      | none => t
      | some x => if x.released.isSome then t else t.released cs x recUe) s := rfl

theorem State.released_untimed {s : State} {cs : Nat} {x : SlotRun} (h : x.timed = false) (recUe : Bool) :
    s.released cs x recUe = s.releaseRow cs x recUe := by
  unfold State.released
  rw [h]
  rfl

/-- What becomes of the timed slot of the stream leaves the slots. -/
theorem State.slotOf_released (s : State) (cs : Nat) (x : SlotRun) (recUe : Bool) (q : Nat) :
    (s.released cs x recUe).slotOf cs q = (s.releaseRow cs x recUe).slotOf cs q := by
  have hkept : ∀ (u : State) (g : Stream → Stream), (∀ st, (g st).slots = st.slots) → (u.onStream cs g).slotOf cs q = u.slotOf cs q :=
    fun u g hg => by
      unfold State.slotOf
      rw [State.stream_of_onStream, hg]
  unfold State.released
  dsimp only
  generalize s.releaseRow cs x recUe = u
  split
  · have hu := hkept u (fun st => { st with timedSlot := if st.timedSlot = some x.seq then none else st.timedSlot }) fun _ => rfl
    split
    · split
      · exact hu
      · exact hu
    · exact hu
  · rfl

theorem State.sess_released (s : State) (cs : Nat) (x : SlotRun) (recUe : Bool) :
    (s.released cs x recUe).sess = (s.releaseRow cs x recUe).sess := by
  unfold State.released
  dsimp only
  generalize s.releaseRow cs x recUe = u
  split
  · split
    · split
      · rfl
      · rfl
    · rfl
  · rfl

/-- A slot that is named is among those of its stream. -/
theorem State.mem_of_releaseSlot {s : State} {cs : Nat} {f : Firing} {rel : Bool} {y : SlotRun} (h : s.releaseSlot cs f rel = some y) :
    y ∈ (s.stream cs).slots := by
  unfold State.releaseSlot State.slotOf at h
  split at h
  · exact List.mem_of_find?_eq_some h
  · exact List.mem_of_find?_eq_some h

/-- The slots whose record a RELEASE decides, outside a pair: the state and the number of the firing. -/
def State.releasing (s : State) : State := { s with ptu := { s.ptu with releases := s.ptu.releases + 1 } }

/-- A record that may be released: it is ready, and the read of it met no error. -/
def recordReady (ue : Bool) (r : Option Record) : Bool := r.any (fun r => r.ready) && !ue

theorem recordReady_unready {ue : Bool} {r : Option Record} (h : ue = true ∨ ∀ q, r = some q → q.ready = false) : recordReady ue r = false := by
  unfold recordReady
  rcases h with rfl | h
  · exact Bool.and_false _
  · cases r with
    | none => rfl
    | some q => simp [h q rfl]

/-- A slot whose RELEASE decides on a kind of record. -/
def SlotRun.decided (y : SlotRun) (tick n : Nat) : RecordKind → SlotRun
  | .computed => { y with released := some (tick, .computed), mismatch := none, fallback := none, order := n }
  | .mismatch => { y with released := some (tick, .mismatch), computed := none, fallback := none, order := n }
  | .fallback => { y with released := some (tick, .fallback), computed := none, mismatch := none, order := n }

theorem SlotRun.decided_seq (y : SlotRun) (tick n : Nat) (k : RecordKind) : (y.decided tick n k).seq = y.seq := by
  cases k <;> rfl

/-- Outside a pair the RELEASE of a slot takes the first of its records that is ready, else the provisional one. -/
theorem State.releaseRow_off {s : State} (hoff : s.fm.state = .off) (cs : Nat) (y : SlotRun) (ue : Bool) : s.releaseRow cs y ue =
    let d (t : State) (k : RecordKind) : State := t.onSlot cs y.seq fun x => x.decided (s.ptu.tick + 16) s.ptu.releases k
    if recordReady ue y.computed then d s.releasing .computed
    else if recordReady ue y.mismatch then d s.releasing .mismatch
    else d (if y.fallback.isNone then s.releasing.formFallback cs y.seq rsNotReady else s.releasing) .fallback := by
  have hstandby := State.isStandby_off (s := s.releasing) hoff (s.stream cs).session
  unfold State.releasing at hstandby
  unfold State.releaseRow
  dsimp only
  rw [hstandby, if_neg (by simp)]
  cases y.computed <;> cases y.mismatch <;> rfl

/-- What a RELEASE changes: the number of the firing, and the slots. -/
theorem State.releaseRow_frame {s : State} (hoff : s.fm.state = .off) (cs : Nat) (y : SlotRun) (ue : Bool) :
    ∃ x, s.releaseRow cs y ue = { s.releasing with streams := x } := by
  rw [State.releaseRow_off hoff]
  dsimp only
  split
  · exact ⟨_, rfl⟩
  · split
    · exact ⟨_, rfl⟩
    · split
      · obtain ⟨x, hx⟩ := s.releasing.formFallback_frame cs y.seq rsNotReady
        rw [hx]
        exact ⟨_, rfl⟩
      · exact ⟨_, rfl⟩

theorem State.slotOf_decided {s : State} {cs : Nat} {y : SlotRun} (hy : s.slotOf cs y.seq = some y) (k : RecordKind) :
    (s.releasing.onSlot cs y.seq fun x => x.decided (s.ptu.tick + 16) s.ptu.releases k).slotOf cs y.seq
      = some (y.decided (s.ptu.tick + 16) s.ptu.releases k) := by
  rw [State.slotOf_onSlot _ _ _ fun x => x.decided_seq _ _ _]
  exact congrArg (Option.map _) hy

section
variable {s : State} {cs : Nat} {y : SlotRun} (hoff : s.fm.state = .off) (hy : s.slotOf cs y.seq = some y)
include hoff hy

/-- The computed record is released where it is ready. -/
theorem State.releaseRow_computed {r : Record} (hr : y.computed = some r) (hready : r.ready = true) :
    (s.releaseRow cs y false).slotOf cs y.seq = some (y.decided (s.ptu.tick + 16) s.ptu.releases .computed) := by
  rw [State.releaseRow_off hoff]
  dsimp only
  rw [if_pos (by simp [recordReady, hr, hready])]
  exact State.slotOf_decided hy _

/-- Else that of a MISMATCH. -/
theorem State.releaseRow_mismatch {r : Record} (hc : ∀ q, y.computed = some q → q.ready = false) (hr : y.mismatch = some r)
    (hready : r.ready = true) :
    (s.releaseRow cs y false).slotOf cs y.seq = some (y.decided (s.ptu.tick + 16) s.ptu.releases .mismatch) := by
  rw [State.releaseRow_off hoff]
  dsimp only
  rw [recordReady_unready (.inr hc), if_neg (by simp), if_pos (by simp [recordReady, hr, hready])]
  exact State.slotOf_decided hy _

/-- Every RELEASE decides the record of its slot. -/
theorem State.releaseRow_decides (ue : Bool) : ∃ z, (s.releaseRow cs y ue).slotOf cs y.seq = some z ∧ z.released.isSome = true := by
  rw [State.releaseRow_off hoff]
  dsimp only
  split
  · exact ⟨_, State.slotOf_decided hy _, rfl⟩
  · split
    · exact ⟨_, State.slotOf_decided hy _, rfl⟩
    · have hy' : s.releasing.slotOf cs y.seq = some y := hy
      rw [State.slotOf_onSlot _ _ _ fun x => x.decided_seq _ _ _]
      split
      · obtain ⟨r, hr⟩ := State.slotOf_formFallback hy' rsNotReady
        rw [hr]
        exact ⟨_, rfl, rfl⟩
      · rw [hy']
        exact ⟨_, rfl, rfl⟩

/-- Else the provisional one, which is formed where there is none. -/
theorem State.releaseRow_fallback {ue : Bool}
    (h : ue = true ∨ (∀ q, y.computed = some q → q.ready = false) ∧ ∀ q, y.mismatch = some q → q.ready = false) :
    ∃ r, (s.releaseRow cs y ue).slotOf cs y.seq = some { y.decided (s.ptu.tick + 16) s.ptu.releases .fallback with fallback := some r }
      ∧ ∀ q, y.fallback = some q → r = q := by
  rw [State.releaseRow_off hoff]
  dsimp only
  rw [recordReady_unready (h.imp_right And.left), if_neg (by simp), recordReady_unready (h.imp_right And.right), if_neg (by simp),
    State.slotOf_onSlot _ _ _ fun x => x.decided_seq _ _ _]
  have hy' : s.releasing.slotOf cs y.seq = some y := hy
  cases hfb : y.fallback with
  | none =>
    obtain ⟨r, hr⟩ := State.slotOf_formFallback hy' rsNotReady
    refine ⟨r, ?_, fun q hq => absurd hq (by simp)⟩
    rw [if_pos Option.isNone_none, hr]
    rfl
  | some q =>
    refine ⟨q, ?_, fun q' hq => Option.some.inj hq⟩
    rw [if_neg (by simp), hy']
    exact congrArg some (congrArg (fun z => { y.decided (s.ptu.tick + 16) s.ptu.releases .fallback with fallback := z }) hfb)

end

section
variable {s : State} {e : EvIdx} {f : Firing} {fs : List Firing} {y : SlotRun} (hf : s.ptu.firing = f :: fs) (hidx : f.idx = e.val)
  (hk : f.kind = .release) (hrel : s.releaseSlot (s.event e.val).target.toNat f (s.event e.val).rel = some y) (hopen : y.released = none)
include hf hidx hk hrel hopen

/-- A RELEASE once its firing is taken and the control structures are read. -/
theorem reaches_release {ctl : List CtrlUpset} {ue : Bool} {t : State} {P : State → Prop} (hl : s.live = true)
    (ht : (if (s.stream (s.event e.val).target.toNat).bound then
        s.takeFiring.ctrlReads (s.stream (s.event e.val).target.toNat).session ctl else s.takeFiring) = t) (hstreams : t.streams = s.streams)
    (h : P (s.settle (t.released (s.event e.val).target.toNat y ue))) : Reaches (.release e ctl ue) s P := by
  refine reaches_act ((exec_release e ctl ue s).trans (actFiring_fires hf hidx hk _)) hl rfl ?_
  have hev : s.takeFiring.event f.idx = s.event e.val := by rw [hidx]; rfl
  have hst : t.releaseSlot (s.event e.val).target.toNat f (s.event e.val).rel = some y := by
    rw [← hrel]
    unfold State.releaseSlot State.slotOf State.stream
    rw [hstreams]
  dsimp only
  rw [hev]
  have hread : (if (s.takeFiring.stream (s.event e.val).target.toNat).bound then s.takeFiring.ctrlReads
      (s.takeFiring.stream (s.event e.val).target.toNat).session ctl else s.takeFiring) = t := ht
  rw [hread, hst]
  dsimp only
  rw [hopen]
  exact h

variable (hup : s.Up) (hoff : s.fm.state = .off)
include hup hoff

/-- A RELEASE without an error in the control structures decides the record of its slot alone. -/
theorem reaches_release_plain {ue : Bool} {P : State → Prop}
    (h : ∀ t : State, (y.timed = false → t = { s with
        ptu := { s.ptu with firing := fs, fired := s.ptu.fired + 1, releases := s.ptu.releases + 1 }, streams := t.streams }) →
      t.slotOf (s.event e.val).target.toNat y.seq
        = (s.takeFiring.releaseRow (s.event e.val).target.toNat y ue).slotOf (s.event e.val).target.toNat y.seq → P t) :
    Reaches (.release e [] ue) s P := by
  have hread : (if (s.stream (s.event e.val).target.toNat).bound then
      s.takeFiring.ctrlReads (s.stream (s.event e.val).target.toNat).session [] else s.takeFiring) = s.takeFiring := by
    split
    · rfl
    · rfl
  refine reaches_release hf hidx hk hrel hopen hup.1 hread rfl (h _ (fun htimed => ?_) ?_)
  · obtain ⟨x, hx⟩ := State.releaseRow_frame (s := s.takeFiring) hoff (s.event e.val).target.toNat y ue
    have hset := State.settle_of_synced s (t := { s.takeFiring.releasing with streams := x }) (by exact hup.2)
    rw [State.released_untimed htimed, hx, hset, State.takeFiring_eq hf]
    rfl
  · rw [State.slotOf_settle, State.slotOf_released]

end

/-- The clause of the statement on RELEASE. -/
theorem release_leaves (s : State) (e : EvIdx) (f : Firing) (fs : List Firing) (y : SlotRun) (hup : s.Up) (hf : s.ptu.firing = f :: fs)
    (hidx : f.idx = e.val) (hk : f.kind = .release) (hoff : s.fm.state = .off) :
      let cs := (s.event e.val).target.toNat
      let p := { s.ptu with firing := fs, fired := s.ptu.fired + 1, releases := s.ptu.releases + 1 }
      let at16 := s.ptu.tick + 16
      let n := s.ptu.releases
      let fits (t : State) : Prop := y.timed = false → t = { s with ptu := p, streams := t.streams }
      let unready (r : Option Record) : Prop := ∀ q, r = some q → q.ready = false
      s.releaseSlot cs f (s.event e.val).rel = some y → y.released = none →
      (∀ z ∈ (s.stream cs).slots, z.seq = y.seq → z = y) →
      (∀ r, y.computed = some r → r.ready = true → Reaches (.release e [] false) s fun t => fits t
        ∧ t.slotOf cs y.seq = some { y with released := some (at16, .computed), mismatch := none, fallback := none, order := n })
      ∧ (∀ r, unready y.computed → y.mismatch = some r → r.ready = true → Reaches (.release e [] false) s fun t => fits t
        ∧ t.slotOf cs y.seq = some { y with released := some (at16, .mismatch), computed := none, fallback := none, order := n })
      ∧ (∀ ue, (ue = true ∨ unready y.computed ∧ unready y.mismatch) → Reaches (.release e [] ue) s fun t => fits t
        ∧ ∃ r, t.slotOf cs y.seq = some { y with
            released := some (at16, .fallback), computed := none, mismatch := none, fallback := some r, order := n }
          ∧ ∀ q, y.fallback = some q → r = q)
      ∧ ((s.stream cs).bound = true → (s.session (s.stream cs).session).state = .keyed →
        (s.session (s.stream cs).session).faultAt = none → ∀ ue, Reaches (.release e [.context .ue] ue) s fun t =>
          (t.session (s.stream cs).session).state = .faulted ∧ ∃ z, t.slotOf cs y.seq = some z ∧ z.released.isSome = true) := by
  intro cs p at16 n fits unready hrel hopen hmem
  have hslot : s.slotOf cs y.seq = some y := State.slotOf_of_mem (State.mem_of_releaseSlot hrel) hmem
  have hslot' : s.takeFiring.slotOf cs y.seq = some y := hslot
  have hoff' : s.takeFiring.fm.state = .off := hoff
  refine ⟨fun r hr hready => ?_, fun r hc hr hready => ?_, fun ue h => ?_, fun hb hkeyed hfault ue => ?_⟩
  · exact reaches_release_plain hf hidx hk hrel hopen hup hoff fun t hfits ht =>
      ⟨hfits, ht.trans (State.releaseRow_computed hoff' hslot' hr hready)⟩
  · exact reaches_release_plain hf hidx hk hrel hopen hup hoff fun t hfits ht =>
      ⟨hfits, ht.trans (State.releaseRow_mismatch hoff' hslot' hc hr hready)⟩
  · obtain ⟨r, hrow, hsame⟩ := State.releaseRow_fallback hoff' hslot' h
    exact reaches_release_plain hf hidx hk hrel hopen hup hoff fun t hfits ht => ⟨hfits, r, ht.trans hrow, hsame⟩
  · have hread : (if (s.stream cs).bound then s.takeFiring.ctrlReads (s.stream cs).session [.context .ue] else s.takeFiring)
        = s.takeFiring.sessionFault (s.stream cs).session { event := 0x0204 } := by
      rw [if_pos hb]
      rfl
    have hstreams := s.takeFiring.sessionFault_streams (s.stream cs).session { event := 0x0204 }
    obtain ⟨hfaulted, -⟩ := State.sessionFault_keyed (s := s.takeFiring) hkeyed hfault { event := 0x0204 }
    have hfm : (s.takeFiring.sessionFault (s.stream cs).session { event := 0x0204 }).fm.state = .off := by
      rw [State.sessionFault_fm]
      exact hoff
    refine reaches_release hf hidx hk hrel hopen hup.1 hread hstreams ?_
    rw [State.session_settle, State.slotOf_settle, State.slotOf_released]
    obtain ⟨x, hx⟩ := State.releaseRow_frame hfm cs y ue
    refine ⟨?_, State.releaseRow_decides hfm ((State.slotOf_of_streams hstreams _ _).trans hslot') ue⟩
    have hsess := State.sess_released (s.takeFiring.sessionFault (s.stream cs).session { event := 0x0204 }) cs y ue
    rw [hx] at hsess
    exact (congrArg (fun z : Tab Session => (Tab.get ({} : Session) z (s.stream cs).session).state) hsess).trans hfaulted

/-! SLOT_START. -/

/-- What the start of a slot reads: the Arcades, the plans, the pair, the slots of the stream and its window. -/
def State.startView (cs : Nat) (t : State) : Tab Arcade × Tab ViPlan × Fumas × List SlotRun × Nat :=
  (t.arc, t.plans, t.fm, (t.stream cs).slots, (t.stream cs).win)

theorem State.startView_sessionFault (cs : Nat) (s : State) (sc : Nat) (r : HRec) : (s.sessionFault sc r).startView cs = s.startView cs := by
  unfold State.sessionFault
  dsimp only
  split
  · rfl
  · rfl

theorem State.startView_writeInput (cs : Nat) (s : State) (c : Nat) (g : GoodFrame) : (s.writeInput c g).startView cs = s.startView cs := by
  unfold State.writeInput
  split
  · refine foldl_keeps (State.startView cs) _ (fun u x => ?_) _ s
    split
    · split
      · rfl
      · exact u.startView_sessionFault cs _ _
    · rfl
  · rfl

theorem State.startView_onStream (s : State) (cs : Nat) {f : Stream → Stream} (h : ∀ st, (f st).slots = st.slots ∧ (f st).win = st.win) :
    (s.onStream cs f).startView cs = s.startView cs := by
  unfold State.startView
  rw [State.stream_of_onStream, (h _).1, (h _).2]
  rfl

theorem State.startView_drainUpTo (s : State) (cs seq : Nat) : (s.drainUpTo cs seq).startView cs = s.startView cs := by
  refine foldl_keeps (State.startView cs) (fun (t : State) _ => t.drainInput cs) (fun u _ => ?_) _ s
  unfold State.drainInput
  split
  · next g _ _ =>
    exact ((u.writeInput cs g.2).startView_onStream cs (f := fun st => { st with waiting := st.waiting.drop 1 }) fun _ => ⟨rfl, rfl⟩).trans (u.startView_writeInput cs cs g.2)
  · rfl

/-- How far a slot has come. -/
def SlotRun.begun (z : SlotRun) : Bool × Bool × Bool × Bool := (z.overrun, z.fired, z.started, z.fallback.isSome)

def State.begunAt (cs q : Nat) (t : State) : Option (Bool × Bool × Bool × Bool) := (t.slotOf cs q).map SlotRun.begun

theorem State.begunAt_of_streams {s t : State} (h : t.streams = s.streams) (cs q : Nat) : t.begunAt cs q = s.begunAt cs q :=
  congrArg (Option.map SlotRun.begun) (State.slotOf_of_streams h cs q)

theorem State.begunAt_onSlot (s : State) (cs q : Nat) {f : SlotRun → SlotRun} (h : ∀ z, (f z).seq = z.seq ∧ (f z).begun = z.begun) :
    (s.onSlot cs q f).begunAt cs q = s.begunAt cs q := by
  unfold State.begunAt
  rw [State.slotOf_onSlot _ _ _ fun z => (h z).1, Option.map_map]
  exact congrArg (fun g => Option.map g (s.slotOf cs q)) (funext fun z => (h z).2)

theorem State.begunAt_startGroup (s : State) (cs q g : Nat) (p : Plan) (es : List Nat) :
    (s.startGroup cs q g p es).begunAt cs q = s.begunAt cs q := by
  refine foldl_keeps (State.begunAt cs q) _ (fun u e => ?_) _ s
  dsimp only
  split
  · rfl
  · exact (State.begunAt_of_streams (s := u.onSlot cs q fun y => { y with runners := y.runners ++ [(p.arcadeOf e, g)] }) rfl cs q).trans
      (u.begunAt_onSlot cs q fun _ => ⟨rfl, rfl⟩)

theorem State.streams_copyBuffers (s : State) (sc : Nat) (src dst : List Buffer) : (s.copyBuffers sc src dst).streams = s.streams := by
  refine foldl_keeps State.streams _ (fun u x => ?_) _ s
  split
  · rfl
  · unfold State.copyBuffer
    dsimp only
    split
    · exact foldl_keeps State.streams _ (by exact fun _ _ => rfl) _ u
    · exact State.sessionFault_streams _ _ _

theorem State.begunAt_copyBuffers (s : State) (cs q sc : Nat) (src dst : List Buffer) :
    (s.copyBuffers sc src dst).begunAt cs q = s.begunAt cs q := State.begunAt_of_streams (s.streams_copyBuffers sc src dst) cs q

/-- The runs of a slot that start leave the slot started. -/
theorem State.begunAt_startRuns {s : State} {cs q : Nat} {z : SlotRun} (hz : s.slotOf cs q = some z)
    (hplan : (s.plan (s.stream cs).win).running ≠ none) :
    (s.startRuns cs q).begunAt cs q = some (z.overrun, z.fired, true, z.fallback.isSome) := by
  have hstarted : ∀ d : DualState, (s.onSlot cs q fun x => { x with started := true, dual := d }).begunAt cs q
      = some (z.overrun, z.fired, true, z.fallback.isSome) := fun d => by
    unfold State.begunAt
    rw [State.slotOf_onSlot s cs q (f := fun x => { x with started := true, dual := d }) fun _ => rfl, hz]
    rfl
  unfold State.startRuns
  dsimp only
  split
  · next h => exact absurd h hplan
  · next p _ =>
    have hu := hstarted (if s.isDual cs = true then .waiting else .single)
    generalize (s.onSlot cs q fun x => { x with started := true, dual := if s.isDual cs = true then .waiting else .single }) = u at hu ⊢
    rw [← hu]
    clear hu hstarted
    split
    · split
      · exact u.begunAt_startGroup cs q _ _ _
      · split
        · exact u.begunAt_startGroup cs q _ _ _
        · rfl
    · refine (foldl_keeps (State.begunAt cs q) _ (fun v es => ?_) _ _).trans ?_
      · refine (foldl_keeps (State.begunAt cs q) _ (fun v e => ?_) _ _).trans ?_
        · split
          · rfl
          · rfl
        · rw [State.begunAt_copyBuffers, State.begunAt_copyBuffers]
      · have hcopied : ∀ (b : Bool) (sc : Nat) (src dst : List Buffer),
            (if b = true then u.copyBuffers sc src dst else u).begunAt cs q = u.begunAt cs q := fun b sc src dst => by
          split
          · exact u.begunAt_copyBuffers cs q _ _ _
          · rfl
        split
        · split
          · split
            · split
              · rw [State.begunAt_startGroup, State.begunAt_startGroup, hcopied]
              · rw [State.begunAt_startGroup, hcopied]
            · rw [State.begunAt_startGroup, hcopied]
          · exact hcopied _ _ _ _
        · split
          · split
            · split
              · rw [State.begunAt_startGroup, State.begunAt_startGroup, State.begunAt_startGroup, hcopied]
              · rw [State.begunAt_startGroup, State.begunAt_startGroup, hcopied]
            · rw [State.begunAt_startGroup, State.begunAt_startGroup, hcopied]
          · exact hcopied _ _ _ _

/-- A slot whose SLOT_START fires. -/
def SlotRun.readied (y : SlotRun) (s : State) (cs : Nat) (f : Firing) : SlotRun :=
  let y := if y.missing then y else s.formSlot cs y
  { y with fired := true, flags := y.flags ||| BitVec.ofNat 16 (s.firingFlags cs f false) }

theorem SlotRun.readied_kept (y : SlotRun) (s : State) (cs : Nat) (f : Firing) : (y.readied s cs f).seq = y.seq
    ∧ (y.readied s cs f).released = y.released ∧ (y.readied s cs f).rseq = y.rseq ∧ (y.readied s cs f).missing = y.missing
    ∧ (y.readied s cs f).overrun = y.overrun ∧ (y.readied s cs f).fired = true := by
  unfold SlotRun.readied
  dsimp only
  split
  · exact ⟨rfl, rfl, rfl, rfl, rfl, rfl⟩
  · exact ⟨rfl, rfl, rfl, rfl, rfl, rfl⟩

theorem exec_slotStart (e : EvIdx) (ctl : List CtrlUpset) (u : List Upset) (s : State) : exec (.slotStart e ctl u) s
    = actFiring e.val .slotStart (fun f s =>
      let cs := (s.event f.idx).target.toNat
      let t := (if (s.stream cs).bound then s.ctrlReads (s.stream cs).session ctl else s).piazzaReads u
      let v := (t.onSlot cs f.slot fun y => y.readied t cs f).armSlot cs f.slot .release true Event.pitch
      match v.slotOf cs f.slot with
      | some x => v.startSlot cs x
      | none => v) s := rfl

section
variable {v : State} {cs : Nat} {x : SlotRun} (hx : v.slotOf cs x.seq = some x) (hopen : x.released = none)
include hx hopen

/-- A slot of a session that has faulted takes its fault as its outcome. -/
theorem State.startSlot_faulted (hfault : (v.session (v.stream cs).session).state = .faulted) :
    (∃ r : Record, (v.startSlot cs x).slotOf cs x.seq = some { x with fault := true, computed := some r })
      ∧ ∃ y, v.startSlot cs x = { v with streams := y } := by
  have hrow : v.startSlot cs x = (v.onSlot cs x.seq fun y => { y with fault := true }).formDecided cs x.seq rsFault := by
    unfold State.startSlot
    dsimp only
    rw [hopen, if_neg (by simp), if_pos (by simp [hfault])]
    rfl
  have hmarked : (v.onSlot cs x.seq fun y => { y with fault := true }).slotOf cs x.seq = some { x with fault := true } :=
    (State.slotOf_onSlot v cs x.seq (f := fun y => { y with fault := true }) fun _ => rfl).trans (congrArg (Option.map _) hx)
  obtain ⟨y, hy⟩ := State.formDecided_frame (v.onSlot cs x.seq fun y => { y with fault := true }) cs x.seq rsFault
  rw [hrow]
  exact ⟨State.slotOf_formDecided hmarked hopen _, y, hy⟩

variable (hrseq : x.rseq ≠ 0) (hfault : (v.session (v.stream cs).session).faultAt = none)
  (hstate : (v.session (v.stream cs).session).state ≠ .faulted)
include hrseq hfault hstate

/-- A slot before which another is not released is an overrun. -/
theorem State.startSlot_overrun (hbefore : ((v.stream cs).slots.any fun y => decide (y.seq < x.seq) && y.released.isNone) = true) :
    (∃ r : Record, (v.startSlot cs x).slotOf cs x.seq = some { x with overrun := true, fallback := some r })
      ∧ (v.startSlot cs x).arc = v.arc := by
  have hrow : v.startSlot cs x = (v.onSlot cs x.seq fun y => { y with overrun := true }).formFallback cs x.seq rsOverrun := by
    unfold State.startSlot
    dsimp only
    rw [hopen, if_neg (by simp), if_neg (by simp [hfault, hstate]), hbefore, if_pos rfl]
    exact if_neg hrseq
  have hmarked : (v.onSlot cs x.seq fun y => { y with overrun := true }).slotOf cs x.seq = some { x with overrun := true } :=
    (State.slotOf_onSlot v cs x.seq (f := fun y => { y with overrun := true }) fun _ => rfl).trans (congrArg (Option.map _) hx)
  obtain ⟨y, hy⟩ := State.formFallback_frame (v.onSlot cs x.seq fun y => { y with overrun := true }) cs x.seq rsOverrun
  obtain ⟨r, hr⟩ := State.slotOf_formFallback hmarked rsOverrun
  rw [hrow]
  exact ⟨⟨r, hr⟩, by rw [hy]; rfl⟩

/-- A slot that stands alone has its provisional record, and its input where one waits. -/
theorem State.startSlot_alone (halone : (v.stream cs).slots = [x]) : ∃ (u : State) (r : Record),
    u.slotOf cs x.seq = some { x with fallback := some r } ∧ u.arc = v.arc ∧ u.plans = v.plans ∧ u.fm = v.fm
      ∧ (u.stream cs).win = (v.stream cs).win
      ∧ v.startSlot cs x = if x.missing || (v.stream cs).shed || !u.runsHere cs then u else u.startRuns cs x.seq := by
  have hsettled : v.settleOld cs x.seq = v.onStream cs fun st => { st with slots := st.slots.filter fun y => !(y.left && decide (y.seq < x.seq)) } := by
    unfold State.settleOld
    dsimp only
    rw [halone, List.filter_cons_of_neg (by simp)]
    rfl
  have hstream : (v.settleOld cs x.seq).stream cs = v.stream cs := by
    rw [hsettled, State.stream_of_onStream]
    have hfilter : (v.stream cs).slots.filter (fun y => !(y.left && decide (y.seq < x.seq))) = (v.stream cs).slots := by
      rw [halone]
      exact List.filter_cons_of_pos (by simp)
    rw [hfilter]
  have hslot : (v.settleOld cs x.seq).slotOf cs x.seq = some x := by
    unfold State.slotOf
    rw [hstream]
    exact hx
  have hrest : (v.settleOld cs x.seq).arc = v.arc ∧ (v.settleOld cs x.seq).plans = v.plans ∧ (v.settleOld cs x.seq).fm = v.fm := by
    rw [hsettled]
    exact ⟨rfl, rfl, rfl⟩
  obtain ⟨r, hr⟩ := State.slotOf_formFallback hslot rsNotReady
  have hformed : ((v.settleOld cs x.seq).formFallback cs x.seq rsNotReady).startView cs
      = (v.arc, v.plans, v.fm, (((v.settleOld cs x.seq).formFallback cs x.seq rsNotReady).stream cs).slots, (v.stream cs).win) := by
    obtain ⟨harc, hplans, hfm⟩ := hrest
    have hwin : (((v.settleOld cs x.seq).formFallback cs x.seq rsNotReady).stream cs).win = (v.stream cs).win := by
      unfold State.formFallback
      rw [hslot]
      dsimp only
      unfold State.onSlot
      rw [State.stream_of_onStream, hstream]
    obtain ⟨y, hy⟩ := State.formFallback_frame (v.settleOld cs x.seq) cs x.seq rsNotReady
    unfold State.startView
    rw [hwin, hy, ← harc, ← hplans, ← hfm]
  have hview := (State.startView_drainUpTo ((v.settleOld cs x.seq).formFallback cs x.seq rsNotReady) cs x.seq).trans hformed
  obtain ⟨harc, hplans, hfm, hslots, hwin⟩ : _ ∧ _ ∧ _ ∧ _ ∧ _ := by
    simpa only [State.startView, Prod.mk.injEq] using hview
  refine ⟨_, r, ?_, harc, hplans, hfm, hwin, ?_⟩
  · unfold State.slotOf at hr ⊢
    rw [hslots]
    exact hr
  · unfold State.startSlot
    dsimp only
    rw [hopen, if_neg (by simp), if_neg (by simp [hfault, hstate]), if_neg (by simp [halone])]
    simp only [if_neg hrseq]

end

/-- A state in which a slot of a stream is to start. -/
structure State.Starts (v t : State) (cs : Nat) (f : Firing) (x : SlotRun) : Prop where
  slot : v.slotOf cs x.seq = some x
  arc : v.arc = t.arc
  plans : v.plans = t.plans
  fm : v.fm = t.fm
  sess : v.sess = t.sess
  stream : v.stream cs = { t.stream cs with
    slots := (t.stream cs).slots.map fun z => if z.seq = f.slot then z.readied t cs f else z }

theorem State.Starts.session {v t : State} {cs : Nat} {f : Firing} {x : SlotRun} (h : v.Starts t cs f x) :
    v.session (v.stream cs).session = t.session (t.stream cs).session := by
  rw [h.stream]
  exact congrArg (fun z : Tab Session => Tab.get ({} : Session) z (t.stream cs).session) h.sess

section
variable {s : State} {e : EvIdx} {f : Firing} {fs : List Firing} {y : SlotRun} (hl : s.live = true) (hf : s.ptu.firing = f :: fs)
  (hidx : f.idx = e.val) (hk : f.kind = .slotStart) (hy : s.slotOf (s.event e.val).target.toNat f.slot = some y)
include hl hf hidx hk hy

/-- A SLOT_START once its firing is taken and the control structures are read. -/
theorem reaches_slotStart {ctl : List CtrlUpset} {t : State} {P : State → Prop}
    (ht : (if (s.stream (s.event e.val).target.toNat).bound then
        s.takeFiring.ctrlReads (s.stream (s.event e.val).target.toNat).session ctl else s.takeFiring) = t) (hstreams : t.streams = s.streams)
    (h : ∀ v : State, v.Starts t (s.event e.val).target.toNat f (y.readied t (s.event e.val).target.toNat f) →
      P (s.settle (v.startSlot (s.event e.val).target.toNat (y.readied t (s.event e.val).target.toNat f)))) :
    Reaches (.slotStart e ctl []) s P := by
  refine reaches_act ((exec_slotStart e ctl [] s).trans (actFiring_fires hf hidx hk _)) hl rfl ?_
  have hev : s.takeFiring.event f.idx = s.event e.val := by rw [hidx]; rfl
  dsimp only
  rw [hev]
  have hread : (if (s.takeFiring.stream (s.event e.val).target.toNat).bound then s.takeFiring.ctrlReads
      (s.takeFiring.stream (s.event e.val).target.toNat).session ctl else s.takeFiring).piazzaReads [] = t := ht
  rw [hread]
  generalize (s.event e.val).target.toNat = cs at *
  have hyt : t.slotOf cs f.slot = some y := (State.slotOf_of_streams hstreams _ _).trans hy
  have hseq : y.seq = f.slot := beq_iff_eq.mp (List.find?_some hy :)
  obtain ⟨p, hp⟩ := (t.onSlot cs f.slot fun y => y.readied t cs f).armSlot_frame cs f.slot .release true Event.pitch
  have hslot : (t.onSlot cs f.slot fun y => y.readied t cs f).slotOf cs f.slot = some (y.readied t cs f) :=
    (State.slotOf_onSlot t cs f.slot (f := fun y => y.readied t cs f) fun z => (z.readied_kept t cs f).1).trans (congrArg (Option.map _) hyt)
  rw [hp]
  have hslot' : State.slotOf { t.onSlot cs f.slot (fun y => y.readied t cs f) with ptu := p } cs f.slot = some (y.readied t cs f) := hslot
  rw [hslot']
  refine h _ ⟨?_, rfl, rfl, rfl, rfl, ?_⟩
  · rw [(y.readied_kept t cs f).1, hseq]
    exact hslot'
  · exact t.stream_of_onStream cs fun st => { st with slots := st.slots.map fun z => if z.seq = f.slot then z.readied t cs f else z }

end

/-- The slots before one that starts are as they were. -/
theorem State.Starts.before {v t : State} {cs : Nat} {f : Firing} {x : SlotRun} (h : v.Starts t cs f x) (hx : x.seq = f.slot) :
    ((v.stream cs).slots.any fun y => decide (y.seq < x.seq) && y.released.isNone)
      = (t.stream cs).slots.any fun y => decide (y.seq < f.slot) && y.released.isNone := by
  rw [h.stream, List.any_map, hx]
  refine congrArg (fun g => (t.stream cs).slots.any g) (funext fun z => ?_)
  dsimp only [Function.comp]
  split
  · obtain ⟨hseq, hreleased, -⟩ := z.readied_kept t cs f
    rw [hseq, hreleased]
  · rfl

/-- The clause of the statement on SLOT_START. -/
theorem slotStart_leaves (s : State) (e : EvIdx) (f : Firing) (fs : List Firing) (y : SlotRun) (hl : s.live = true)
    (hf : s.ptu.firing = f :: fs) (hidx : f.idx = e.val) (hk : f.kind = .slotStart) :
      let cs := (s.event e.val).target.toNat
      let st := s.stream cs
      s.slotOf cs f.slot = some y → y.released = none → (s.session st.session).faultAt = none →
      (s.session st.session).state ≠ .faulted → y.rseq ≠ 0 →
      ((st.slots.any fun z => decide (z.seq < f.slot) && z.released.isNone) = true → Reaches (.slotStart e [] []) s fun t =>
        ∃ z, t.slotOf cs f.slot = some z ∧ z.overrun = true ∧ z.fired = true ∧ z.fallback.isSome = true ∧ t.arc = s.arc)
      ∧ (st.slots = [y] → y.missing = true → Reaches (.slotStart e [] []) s fun t =>
        ∃ z, t.slotOf cs f.slot = some z ∧ z.overrun = y.overrun ∧ z.fired = true ∧ z.fallback.isSome = true ∧ t.arc = s.arc)
      ∧ (st.slots = [y] → y.missing = false → st.shed = false → s.fm.state = .off → (s.plan st.win).running ≠ none →
        Reaches (.slotStart e [] []) s fun t =>
          ∃ z, t.slotOf cs f.slot = some z ∧ z.overrun = y.overrun ∧ z.fired = true ∧ z.started = true ∧ z.fallback.isSome = true)
      ∧ (st.bound = true → (s.session st.session).state = .keyed → Reaches (.slotStart e [.context .ue] []) s fun t =>
        (t.session st.session).state = .faulted ∧ t.arc = s.arc
          ∧ ∃ z, t.slotOf cs f.slot = some z ∧ z.fired = true ∧ z.fault = true ∧ z.computed.isSome = true) := by
  intro cs st hy hopen hfault hstate hrseq
  have hseq : y.seq = f.slot := beq_iff_eq.mp (List.find?_some hy :)
  have hread : (if st.bound then s.takeFiring.ctrlReads st.session [] else s.takeFiring) = s.takeFiring := by
    split
    · rfl
    · rfl
  have hkept : ∀ t : State, _ := fun t => y.readied_kept t cs f
  refine ⟨fun hbefore => ?_, fun halone hmissing => ?_, fun halone hmissing hshed hoff hplan => ?_, fun hb hkeyed => ?_⟩
  · refine reaches_slotStart hl hf hidx hk hy hread rfl fun v hv => ?_
    obtain ⟨kseq, kreleased, krseq, kmissing, koverrun, kfired⟩ := hkept s.takeFiring
    have hsess := hv.session
    obtain ⟨⟨r, hr⟩, harc⟩ := State.startSlot_overrun hv.slot (kreleased.trans hopen) (by rw [krseq]; exact hrseq)
      ((congrArg Session.faultAt hsess).trans hfault) (by rw [hsess]; exact hstate) ((hv.before (kseq.trans hseq)).trans hbefore)
    rw [kseq, hseq] at hr
    exact ⟨_, (State.slotOf_settle _ _ _ _).trans hr, rfl, kfired, rfl, (State.settle_arc _ _).trans (harc.trans hv.arc)⟩
  · refine reaches_slotStart hl hf hidx hk hy hread rfl fun v hv => ?_
    obtain ⟨kseq, kreleased, krseq, kmissing, koverrun, kfired⟩ := hkept s.takeFiring
    have hsess := hv.session
    have honly : (v.stream cs).slots = [y.readied s.takeFiring cs f] := by
      rw [hv.stream]
      show ((s.stream cs).slots.map fun z => if z.seq = f.slot then z.readied s.takeFiring cs f else z) = _
      rw [halone, List.map_singleton, if_pos hseq]
    obtain ⟨u, r, hslot, harc, hplans, hfm, hwin, hrow⟩ := State.startSlot_alone hv.slot (kreleased.trans hopen)
      (by rw [krseq]; exact hrseq) ((congrArg Session.faultAt hsess).trans hfault) (by rw [hsess]; exact hstate) honly
    rw [kmissing, hmissing, Bool.true_or, Bool.true_or, if_pos rfl] at hrow
    rw [kseq, hseq] at hslot
    rw [hrow]
    exact ⟨_, (State.slotOf_settle _ _ _ _).trans hslot, koverrun, kfired, rfl, (State.settle_arc _ _).trans (harc.trans hv.arc)⟩
  · refine reaches_slotStart hl hf hidx hk hy hread rfl fun v hv => ?_
    obtain ⟨kseq, kreleased, krseq, kmissing, koverrun, kfired⟩ := hkept s.takeFiring
    have hsess := hv.session
    have hstream : v.stream cs = { s.stream cs with
        slots := (s.stream cs).slots.map fun z => if z.seq = f.slot then z.readied s.takeFiring cs f else z } := hv.stream
    have honly : (v.stream cs).slots = [y.readied s.takeFiring cs f] := by
      rw [hstream]
      dsimp only
      rw [halone, List.map_singleton, if_pos hseq]
    have hshed' : (v.stream cs).shed = false := by
      rw [hstream]
      exact hshed
    obtain ⟨u, r, hslot, harc, hplans, hfm, hwin, hrow⟩ := State.startSlot_alone hv.slot (kreleased.trans hopen)
      (by rw [krseq]; exact hrseq) ((congrArg Session.faultAt hsess).trans hfault) (by rw [hsess]; exact hstate) honly
    have hoff' : u.fm.state = .off := by
      rw [hfm, hv.fm]
      exact hoff
    have hhere : u.runsHere cs = true := by
      unfold State.runsHere
      dsimp only
      rw [State.isStandby_off hoff']
      rfl
    rw [kmissing, hmissing, hshed', hhere] at hrow
    have hplan' : (u.plan (u.stream cs).win).running ≠ none := by
      have hsame : u.plan (u.stream cs).win = s.plan st.win := by
        have hw : (u.stream cs).win = st.win := by
          rw [hwin, hstream]
        rw [hw]
        exact congrArg (fun z : Tab ViPlan => Tab.get ({} : ViPlan) z st.win) (hplans.trans hv.plans)
      rw [hsame]
      exact hplan
    have hbegun := State.begunAt_startRuns hslot hplan'
    rw [hrow, ← hseq, ← kseq]
    have hstarted : (s.settle (u.startRuns cs (y.readied s.takeFiring cs f).seq)).begunAt cs (y.readied s.takeFiring cs f).seq
        = some ((y.readied s.takeFiring cs f).overrun, (y.readied s.takeFiring cs f).fired, true, true) :=
      (State.begunAt_of_streams (State.settle_streams _ _) _ _).trans hbegun
    unfold State.begunAt at hstarted
    obtain ⟨z, hz, hzb⟩ := Option.map_eq_some_iff.mp hstarted
    obtain ⟨hzo, hzf, hzs, hzfb⟩ : _ ∧ _ ∧ _ ∧ _ := by
      simpa only [SlotRun.begun, Prod.mk.injEq] using hzb
    exact ⟨z, hz, hzo.trans koverrun, hzf.trans kfired, hzs, hzfb⟩
  · have hread' : (if st.bound then s.takeFiring.ctrlReads st.session [.context .ue] else s.takeFiring)
        = s.takeFiring.sessionFault st.session { event := 0x0204 } := by
      rw [if_pos hb]
      rfl
    have hstreams := s.takeFiring.sessionFault_streams st.session { event := 0x0204 }
    have harc := s.takeFiring.sessionFault_arc st.session { event := 0x0204 }
    obtain ⟨hfaulted, -⟩ := State.sessionFault_keyed (s := s.takeFiring) hkeyed hfault { event := 0x0204 }
    refine reaches_slotStart hl hf hidx hk hy hread' hstreams fun v hv => ?_
    obtain ⟨kseq, kreleased, krseq, kmissing, koverrun, kfired⟩ := hkept (s.takeFiring.sessionFault st.session { event := 0x0204 })
    have hst : (s.takeFiring.sessionFault st.session { event := 0x0204 }).stream cs = st :=
      congrArg (fun z : Tab Stream => Tab.get ({} : Stream) z cs) hstreams
    have hsess := hv.session
    rw [hst] at hsess
    obtain ⟨⟨r, hr⟩, x, hx⟩ := State.startSlot_faulted hv.slot (kreleased.trans hopen) (by rw [hsess]; exact hfaulted)
    rw [kseq, hseq] at hr
    refine ⟨?_, ?_, _, (State.slotOf_settle _ _ _ _).trans hr, kfired, rfl, rfl⟩
    · rw [State.session_settle, hx]
      exact (congrArg (fun z : Tab Session => (Tab.get ({} : Session) z st.session).state) hv.sess).trans hfaulted
    · rw [State.settle_arc, hx]
      exact hv.arc.trans harc

/-- Settles O41. -/
theorem slotsOpenStartAndRelease : Obligations.SlotsOpenStartAndRelease := by
  unfold Obligations.SlotsOpenStartAndRelease
  refine ⟨fun s e f fs hl hf hidx hk hoff => inputClose_leaves s e f fs hl hf hidx hk hoff,
    fun s e f fs y hl hf hidx hk => ?_, fun s e f fs y hup hf hidx hk hoff => release_leaves s e f fs y hup hf hidx hk hoff⟩
  intro cs st hy hopen hfault hstate hrseq _
  exact slotStart_leaves s e f fs y hl hf hidx hk hy hopen hfault hstate hrseq

end Sys2Proof.Machine
end


-- ==== Sys2Proof/Proofs/RecordsEnterRefuted.lean ====
section
/-! PROOFS. O42 fails at SAMPLE frames on a stream table whose numbers do not rise. -/

namespace Sys2Proof.Machine
open Sys2Proof.Tests

theorem State.closing_onStream (s : State) (n m : Nat) (f : Stream → Stream) : (s.onStream n f).closing m = s.closing m := rfl

theorem State.frameWindow_onStream (s : State) (cs : Nat) (f : Stream → Stream) :
    (s.onStream cs f).frameWindow cs = if s.closing cs then (f (s.stream cs)).nextWindow else (f (s.stream cs)).window := by
  have h : (s.onStream cs f).stream cs = f (s.stream cs) := Tab.get_upd_same ({} : Stream) s.streams cs f
  rw [State.frameWindow, State.closing_onStream, h]

theorem State.frameWindow_of_streams {s t : State} (cs : Nat) (hs : t.streams = s.streams) (hc : t.closing cs = s.closing cs) :
    t.frameWindow cs = s.frameWindow cs := by
  have h : t.stream cs = s.stream cs := congrArg (fun z => Tab.get ({} : Stream) z cs) hs
  rw [State.frameWindow, State.frameWindow, h, hc]

theorem State.frameWindow_settle (s t : State) (cs : Nat) : (s.settle t).frameWindow cs = t.frameWindow cs :=
  State.frameWindow_of_streams cs (State.settle_streams s t) (by simp only [State.closing, State.settle_ptu, State.settle_event])

/-- A bad frame leaves its window without a frame. -/
theorem State.frameWindow_badFrame (s : State) (k cs : Nat) :
    ((s.badFrame k cs false).frameWindow cs).frame = (s.frameWindow cs).frame := by
  by_cases hn : s.noSlots cs = true
  · have hb : s.badFrame k cs false = (s.onSi k fun p => { p with malformed := p.malformed + 1 }).onResult cs
        fun r => { r with dup := r.dup + 1 } := if_pos hn
    rw [hb]
    exact congrArg SampleWin.frame (State.frameWindow_of_streams cs rfl rfl)
  · have hb : s.badFrame k cs false = ((s.onSi k fun p => { p with malformed := p.malformed + 1 }).onResult cs
        fun r => { r with auth := r.auth + 1 }).onFrameWindow cs
          fun x => { x with sawAuth := x.sawAuth || false, sawMalformed := x.sawMalformed || true } := if_neg hn
    rw [hb]
    refine (congrArg SampleWin.frame (State.frameWindow_onStream _ cs _)).trans ?_
    unfold State.frameWindow
    have hc : State.closing (State.onResult (s.onSi k fun p => { p with malformed := p.malformed + 1 }) cs
      fun r => { r with auth := r.auth + 1 }) cs = s.closing cs := rfl
    rw [hc]
    cases s.closing cs <;> rfl

/-- A good frame that no longer fits the ingress buffer leaves its window without a frame (R153). -/
theorem State.frameWindow_goodFrame_full {s : State} {cs : Nat} {g : GoodFrame} (hi : (s.stream cs).inFlight = true)
    (hf : (s.frameWindow cs).frame = none) (hu : 32768 < s.ingressUsed (s.stream cs).si + g.plaintext.length) :
    ((s.goodFrame cs g).frameWindow cs).frame = none := by
  unfold State.goodFrame
  by_cases hn : s.noSlots cs = true
  · simp only [hn, Bool.true_or, if_true]
    exact (congrArg SampleWin.frame (State.frameWindow_of_streams cs rfl rfl)).trans hf
  · simp only [hn, hf, hi, hu, Option.isSome_none, Bool.or_false, Bool.true_or, Bool.true_and, decide_true, if_true,
      Bool.false_eq_true, if_false]
    exact (State.frameWindow_badFrame s _ cs).trans hf

/-- A frame of 20,000 bytes. -/
def largeFrame : GoodFrame := { plaintext := List.replicate 20000 0, second := [], userTag := [] }

theorem largeFrame_length : largeFrame.plaintext.length = 20000 := List.length_replicate

def largeStream : Stream :=
  { bound := true, win := 1, session := 3, seq := 6, se := 4, slots := [slotRun 6], waiting := [(7, largeFrame)] }

/-- Stream 255 with a frame of 20,000 bytes in its port's buffer, in a table whose numbers fall: an update of the stream puts a
second entry before it, and the buffer is then counted twice. -/
def twoLarge : State :=
  { holder sampling 1 { bits := 0x0001_0000 } with streams := [(300, {}), (255, largeStream)] }

theorem twoLarge_openFrame (s : State) (h1 : s.sessionKey (s.stream 255).session = some sampleKey)
    (h2 : (s.session (s.stream 255).session).oldKeys = []) (h3 : (s.stream 255).lastCounter = 0) :
    s.openFrame 255 sampleFrame = some (gcmStream sampleKey (gcmNonce 1 255 1) sampleText,
      (s.onStream 255 fun st => { st with lastCounter := 1 }).onSess (s.stream 255).session
        fun x => { x with inHw := if x.inHw.toNat < 1 then 1 else x.inHw }) := by
  have tag : sampleTag.length = 16 := by simp [sampleTag]
  have slice : Bytes.slice sampleFrame.bytes 96 16 = sampleTag := by
    simp [sampleFrame, Bytes.slice, sampleHead, sampleText, tag]
  have opens : gcmUnseal sampleKey (gcmNonce 1 255 1) (sampleFrame.bytes.take 32) (Bytes.slice sampleFrame.bytes 32 64)
      (Bytes.slice sampleFrame.bytes 96 16) = some (gcmStream sampleKey (gcmNonce 1 255 1) sampleText) := by
    rw [slice]; exact if_pos rfl
  have n : Bytes.num sampleFrame.bytes 4 4 = 64 := rfl
  have c : Bytes.num sampleFrame.bytes 8 8 = 1 := rfl
  have early : sampleFrame.early = false := rfl
  simp only [State.openFrame, h1, h2, h3, n, c, early, Bool.false_and, Bool.false_eq_true, if_false, Nat.reduceAdd, opens]
  simp

/-- The state that the frame's key and counter leave. -/
def twoLargeOpened : State :=
  (twoLarge.onStream 255 fun st => { st with lastCounter := 1 }).onSess 3
    fun x => { x with inHw := if x.inHw.toNat < 1 then 1 else x.inHw }

theorem twoLarge_fits : twoLarge.ingressUsed 0 + 64 ≤ 32768 := by
  simp [State.ingressUsed, twoLarge, largeStream, largeFrame_length]

theorem twoLargeOpened_full : 32768 < twoLargeOpened.ingressUsed 0 + 64 := by
  have h : twoLargeOpened.streams = (255, { largeStream with lastCounter := 1 }) :: twoLarge.streams := rfl
  simp [State.ingressUsed, h, twoLarge, largeStream, largeFrame_length]

/-- The frame of the refutation as it goes to the checks of its length. -/
def sampleGood : GoodFrame :=
  { plaintext := gcmStream sampleKey (gcmNonce 1 255 1) sampleText
    second := otherLane (gcmStream sampleKey (gcmNonce 1 255 1) sampleText) sampleFrame.lane
    userTag := Bytes.slice sampleFrame.bytes 20 12 }

theorem sampleFrame_length : sampleFrame.bytes.length = 48 + 64 := by
  have tag : sampleTag.length = 16 := by simp [sampleTag]
  simp [sampleFrame, sampleHead, sampleText, tag]

theorem sampleGood_length : sampleGood.plaintext.length = 64 := by
  simp [sampleGood, sampleText]

theorem twoLarge_takeFrame : twoLarge.takeFrame 0 255 sampleFrame = twoLargeOpened.goodFrame 255 sampleGood := by
  have hl : sampleFrame.bytes.length = 32 + Bytes.num sampleFrame.bytes 4 4 + 16 := sampleFrame_length
  have hs : (sampleFrame.bytes.getD 2 0 == 1) = true := rfl
  have hp : (sampleFrame.poison != 0) = false := rfl
  have hf : sampleFrame.framing = false := rfl
  have hc : twoLargeOpened.calendarOf 255 = some aCalendar := by decide +kernel
  have ho : twoLarge.openFrame 255 sampleFrame = some (sampleGood.plaintext, twoLargeOpened) := twoLarge_openFrame twoLarge rfl rfl rfl
  have hw : sampleGood.plaintext.length = aCalendar.windowBytes := sampleGood_length
  have he : (twoLarge.takeFrame 0 255 sampleFrame)
      = twoLargeOpened.checkLength 255 sampleGood.plaintext sampleGood.second sampleGood.userTag := by
    simp only [State.takeFrame, hs, hp, hf, hl, ho, if_true, ne_eq, not_true_eq_false, decide_false, Bool.or_false,
      Bool.false_eq_true, if_false]
    rfl
  rw [he]
  simp only [State.checkLength, hc, hw, if_true]

/-- INGRESS_FRAME of an attributed frame within the skew of R457 and without poison. -/
theorem exec_ingressFrame_attributed {s : State} {k : Fin 4} {f : RawFrame} (hl : s.live = true)
    (hk : ((f.ts.toNat : Int) - s.now).natAbs ≤ 1000) (hp : f.poison = 0)
    (ha : s.attributed k.val (Bytes.num f.bytes 0 2) f.bytes = true) :
    exec (.ingressFrame k f) s = .next (s.settle (s.takeFrame k.val (Bytes.num f.bytes 0 2) f)) := by
  rw [show exec (.ingressFrame k f) s = execIngressFrame k f s from rfl, execIngressFrame, act_runs hl rfl]
  have hs : decide (1000 < ((f.ts.toNat : Int) - s.now).natAbs) = false := decide_eq_false (by omega)
  simp only [hs, hp, ha, Bool.false_eq_true, if_false, List.range_zero, List.foldl_nil, if_true]

/-- Refutes O42: in a stream table whose numbers do not rise the update of the frame's counter gives the stream a second
entry, so that its waiting plaintext counts twice against the buffer of R153, and a good SAMPLE frame is discarded. -/
theorem not_recordsEnterAndLeave : ¬ Obligations.RecordsEnterAndLeave := by
  intro h
  have hu : twoLarge.Up := ⟨rfl, rfl⟩
  have ha : twoLarge.attributed 0 255 sampleFrame.bytes = true := by decide +kernel
  have ho : twoLarge.openFrame (Bytes.num sampleFrame.bytes 0 2) sampleFrame = some (sampleGood.plaintext, twoLargeOpened) :=
    twoLarge_openFrame twoLarge rfl rfl rfl
  have hc : twoLarge.calendarOf 255 = some aCalendar := by decide +kernel
  have hn : twoLarge.noSlots 255 = false := by decide +kernel
  have hw : (twoLarge.frameWindow 255).frame = none := by decide +kernel
  have hf : twoLarge.ingressUsed (0 : Fin 4).val + Bytes.num sampleFrame.bytes 4 4 ≤ 32768 := by
    rw [show Bytes.num sampleFrame.bytes 4 4 = 64 from rfl, show (0 : Fin 4).val = 0 from rfl]
    exact twoLarge_fits
  obtain ⟨t, he, -, hg, -⟩ := ((h.1 twoLarge 0 sampleFrame hu rfl (by decide +kernel)).2 aCalendar ha rfl hf hn hc rfl hw).2 _ _ rfl
    sampleFrame_length ho sampleGood_length
  have hr : exec (.ingressFrame 0 sampleFrame) twoLarge = .next (twoLarge.settle (twoLargeOpened.goodFrame 255 sampleGood)) :=
    (exec_ingressFrame_attributed rfl (by decide +kernel) rfl ha).trans
      (congrArg (fun z => Host.Outcome.next (twoLarge.settle z)) twoLarge_takeFrame)
  have ht : t = twoLarge.settle (twoLargeOpened.goodFrame 255 sampleGood) := by simpa [hr] using he.symm
  have hv : (twoLargeOpened.frameWindow 255).frame = none := by decide +kernel
  have hd := State.frameWindow_goodFrame_full (s := twoLargeOpened) (cs := 255) (g := sampleGood) (by decide +kernel) hv
    (by rw [sampleGood_length]; exact twoLargeOpened_full)
  subst ht
  have hk : (twoLarge.settle (twoLargeOpened.goodFrame 255 sampleGood)).frameWindow 255
      = (twoLargeOpened.goodFrame 255 sampleGood).frameWindow 255 :=
    State.frameWindow_settle _ _ 255
  rw [show Bytes.num sampleFrame.bytes 0 2 = 255 from rfl, hk, hd] at hg
  exact nomatch hg

end Sys2Proof.Machine
end


-- ==== Sys2Proof/Proofs/EndedWork.lean ====
section
/-! PROOFS. What the end of jobs and the retirement of an Arcade leave alone of the streams and the stores. -/

namespace Sys2Proof.Machine

/-- The state without what messages, voids and cuts write. -/
def State.calm (s : State) : State :=
  { s with out := [], sess := [], cuts := [], cutDue := [], cutWait := [], msgs := [], fm := {} }

theorem State.calm_sendMessage (s : State) (type chan : Nat) (body : Bytes) : (s.sendMessage type chan body).calm = s.calm := by
  obtain ⟨k, q, t, r, ow, w, c, b, o, h⟩ := s.sendMessage_frame type chan body
  exact (congrArg State.calm h).trans rfl

theorem State.calm_takeCut (s : State) (sc : Nat) (k : CutKind) (nonce : BitVec 256) (waiter : Option Nat) :
    (s.takeCut sc k nonce waiter).calm = s.calm := by
  unfold State.takeCut
  split
  · dsimp only
    obtain ⟨fm, o, h⟩ := State.sendCut_frame (State.onSess { s with cuts := s.cuts ++ [s.cutRecord sc k nonce waiter] } sc
      fun x => x.reopen k s.now) sc (((State.onSess { s with cuts := s.cuts ++ [s.cutRecord sc k nonce waiter] } sc
        fun x => x.reopen k s.now).session sc).ckptNo + 1) (s.cutRecord sc k nonce waiter).rseqHigh.toNat
    exact (congrArg State.calm h).trans rfl
  · split <;> rfl

theorem State.calm_cut (s : State) (sc : Nat) (k : CutKind) (nonce : BitVec 256) (waiter : Option Nat) :
    (s.cut sc k nonce waiter).calm = s.calm := by
  unfold State.cut
  split
  · rfl
  · split
    · rw [State.calm_takeCut]
      exact foldl_keeps State.calm _ (fun s _ => s.calm_takeCut _ _ _ _) _ _
    · rfl

theorem State.calm_voided (s : State) (sc rseq : Nat) : (s.voided sc rseq).calm = s.calm := by
  unfold State.voided State.sendFold
  split
  · exact State.calm_sendMessage _ _ _ _
  · rfl

theorem State.calm_void (s : State) (sc rseq : Nat) : (s.void sc rseq).calm = s.calm := by
  rcases s.void_cases sc rseq with h | h | h <;> rw [h]
  · exact s.calm_voided sc rseq
  · rw [State.calm_cut, State.calm_voided]

theorem State.calm_message (s : State) (vi v : Nat) : (s.message vi v).calm = s.calm := by
  rw [State.message_frame]
  rfl

/-- The state without what the end of a job writes. -/
def State.ground (s : State) : State := { s.calm with jobs := [], arc := [], pm := { s.pm with descents := [] } }

theorem State.ground_of_calm {s t : State} (h : t.calm = s.calm) : t.ground = s.ground := (congrArg State.ground h :)

theorem State.calm_voids {α : Type} (l : List α) (sc rseq : α → Nat) (s : State) :
    (l.foldl (fun s x => s.void (sc x) (rseq x)) s).calm = s.calm :=
  foldl_keeps State.calm _ (fun s _ => s.calm_void _ _) _ _

theorem State.ground_endJob (s : State) (j status : Nat) : (s.endJob j status).ground = s.ground := by
  unfold State.endJob
  dsimp only
  split
  · rfl
  · refine Eq.trans (b := State.ground (State.message _ _ _)) rfl ?_
    rw [State.ground_of_calm (State.calm_message _ _ _), State.ground_of_calm (State.calm_voids _ _ _ _)]
    rfl

theorem State.ground_endJobs (l : List Nat) (status : Nat) (s : State) : (l.foldl (fun s j => s.endJob j status) s).ground = s.ground :=
  foldl_keeps State.ground _ (fun s _ => s.ground_endJob _ _) _ _

/-- The end of a job changes no Arcade's state of integrity. -/
theorem State.integ_endJob (s : State) (j status a : Nat) : ((s.endJob j status).arcade a).integ = (s.arcade a).integ := by
  unfold State.endJob
  dsimp only
  split
  · rfl
  · refine Eq.trans (b := ((State.message _ _ _).arcade a).integ) rfl ?_
    have hcalm : ∀ {u v : State}, u.calm = v.calm → u.arcade a = v.arcade a := fun h => (congrArg (fun w : State => w.arcade a) h :)
    rw [hcalm (State.calm_message _ _ _), hcalm (State.calm_voids _ _ _ _)]
    unfold State.dropChecks State.arcade
    dsimp only
    rw [Tab.get_mapVals (d := ({} : Arcade)) _ _ a rfl, Tab.get_mapVals (d := ({} : Arcade)) _ _ a rfl]
    rfl

theorem State.integ_endJobs (l : List Nat) (status a : Nat) (s : State) :
    ((l.foldl (fun s j => s.endJob j status) s).arcade a).integ = (s.arcade a).integ :=
  foldl_keeps (fun u : State => (u.arcade a).integ) _ (fun s j => s.integ_endJob j status a) _ _

/-! The retirement of an Arcade (R191). -/

/-- The same without the Arcades' stores, the health unit and the windows, which the retirement writes too. -/
def State.under (s : State) : State :=
  { s.ground with pz := { s.pz with omap := [], segs := [] }, health := {}, win := [] }

theorem State.under_onSeg (s : State) (n : Nat) (f : Segment → Segment) : (s.onSeg n f).under = s.under := rfl
theorem State.under_onOmap (s : State) (p : Nat) (f : OmapEntry → OmapEntry) : (s.onOmap p f).under = s.under := rfl

theorem State.under_zeroisePages (s : State) (pages : List Nat) (toPool emergency : Bool) :
    (s.zeroisePages pages toPool emergency).under = s.under := by
  unfold State.zeroisePages
  dsimp only
  rw [foldl_keeps State.under]
  · exact foldl_keeps State.under _ (fun s n => s.under_onOmap n _) _ _
  · intro s n
    split
    · rfl
    · exact s.under_onSeg n _

theorem State.under_releaseUnit (s : State) (a : Nat) : (s.releaseUnit a).under = s.under := by
  unfold State.releaseUnit
  dsimp only
  rw [foldl_keeps State.under]
  · exact s.under_zeroisePages _ _ _
  · intro s r
    split <;> rfl

theorem State.under_arc (s : State) (x : Tab Arcade) : State.under { s with arc := x } = s.under := rfl
theorem State.under_health (s : State) (h : Health) : State.under { s with health := h } = s.under := rfl
theorem State.under_report (s : State) (r : HRec) : (s.report r).under = s.under := rfl
theorem State.under_cancelChecks (s : State) (a : Nat) (f : Check → Bool) : (s.cancelChecks a f).under = s.under := rfl

theorem State.under_of_ground {s t : State} (h : t.ground = s.ground) : t.under = s.under :=
  (congrArg State.under h :)

theorem State.under_retireUnit (s : State) (a : Nat) : (s.retireUnit a).under = s.under := by
  unfold State.retireUnit
  dsimp only
  rw [State.under_report, State.under_health, State.under_releaseUnit, State.under_cancelChecks, State.under_arc,
    State.under_of_ground (State.ground_endJobs _ _ _)]
  rfl

theorem State.under_laneCheck (s : State) (a : Nat) : (s.laneCheck a).under = s.under := by
  unfold State.laneCheck
  dsimp only
  split
  · unfold State.retireSegment
    exact State.under_retireUnit _ a
  · rfl

end Sys2Proof.Machine
end


-- ==== Sys2Proof/Proofs/Scrubs.lean ====
section
/-! PROOFS. The scrub engines, patrol, the self-test and the scrubber of the Ownership Map (R97, R103, R104, R106, R108, R146). -/

namespace Sys2Proof.Machine

theorem exec_zeroiseDone (u : Arc) (als : Bool) (s : State) : exec (.zeroiseDone u als) s
    = act (if als then (s.arcade u.val).engine.head?.any (fun o => !s.orderWaits u.val o) else !(s.segment u.val).engine.isEmpty)
      (fun s => s.zeroiseRow u.val als) s := rfl
theorem exec_patrol (u : Arc) (als : Bool) (hits : List PatrolHit) (s : State) : exec (.patrol u als hits) s
    = act ((s.segment u.val).state == .inService && (s.segment u.val).zeroised)
      (fun s => if als then s.patrolAls u.val hits else s.patrolSegment u.val hits) s := rfl
theorem exec_selfTestDone (u : Arc) (t : SelfTest) (s : State) : exec (.selfTestDone u t) s
    = act (Tab.get UnitState.off s.pm.units u.val == .test
        && ((s.pm.ramping == some u.val && (s.segment u.val).engine.isEmpty) || s.boot.step == 7))
      (fun z => if s.pm.ramping == some u.val && (s.segment u.val).engine.isEmpty then z.selfTestRow u.val t else z.bootUnit u.val t) s := rfl

/-! The end of a zeroise of pages (R103, R107). -/

/-- A segment after at most k more of its pages are retired: its state, engine and pass are as they were. -/
def Segment.After (g h : Segment) (k : Nat) : Prop :=
  g.state = h.state ∧ g.uePass = h.uePass ∧ g.engine = h.engine ∧ g.retired ≤ h.retired + k

theorem Segment.After.trans {f g h : Segment} {j k : Nat} (hfg : f.After g j) (hgh : g.After h k) : f.After h (k + j) := by
  obtain ⟨h1, h2, h3, h4⟩ := hfg
  obtain ⟨g1, g2, g3, g4⟩ := hgh
  exact ⟨h1.trans g1, h2.trans g2, h3.trans g3, by omega⟩

theorem Segment.After.refl (g : Segment) (k : Nat) : g.After g k := ⟨rfl, rfl, rfl, Nat.le_add_right _ _⟩

theorem Segment.spareRows_after (g : Segment) (page : Nat) : (g.spareRows page).1.After g 0 := by
  unfold Segment.spareRows
  dsimp only
  refine foldl_holds (P := fun x : Segment × List Nat => x.1.After g 0) (fun x l h => ?_) _ (Segment.After.refl g 0)
  split
  · exact h
  · exact h

theorem State.segment_retirePage_after (s : State) (p n : Nat) : ((s.retirePage p).segment n).After (s.segment n) 1 := by
  show ((State.onSeg _ (p / 4096) fun g => { g with retired := min (g.retired + 1) 4095 }).segment n).After _ 1
  by_cases h : n = p / 4096
  · rw [h, State.segment_of_onSeg]
    exact ⟨rfl, rfl, rfl, Nat.min_le_left _ _⟩
  · rw [State.segment_of_onSeg_other _ _ h]
    exact Segment.After.refl _ 1

/-- The page's bytes are zero and its marked rows spared. -/
def State.pageZeroed (s : State) (page : Nat) : State :=
  State.onSeg { s with pz := s.pz.zeroPage page } (page / 4096)
    fun _ => ((State.segment { s with pz := s.pz.zeroPage page } (page / 4096)).spareRows page).1

theorem State.segment_pageZeroed_after (s : State) (p n : Nat) : ((s.pageZeroed p).segment n).After (s.segment n) 0 := by
  unfold State.pageZeroed
  by_cases h : n = p / 4096
  · rw [h, State.segment_of_onSeg]
    exact Segment.spareRows_after _ p
  · rw [State.segment_of_onSeg_other _ _ h]
    exact Segment.After.refl _ 0

theorem State.pageDone_cases (s : State) (toPool : Bool) (p : Nat) : ((s.omapOf p).scrub = .retired ∧ s.pageDone toPool p = s)
    ∨ ((s.omapOf p).scrub ≠ .retired ∧ ((∃ f : OmapEntry → OmapEntry, s.pageDone toPool p = (s.pageZeroed p).onOmap p f)
      ∨ s.pageDone toPool p = (s.pageZeroed p).retirePage p)) := by
  by_cases h : (s.omapOf p).scrub = .retired
  · exact .inl ⟨h, if_pos (by rw [h]; rfl)⟩
  · refine .inr ⟨h, ?_⟩
    unfold State.pageDone
    rw [if_neg (by simpa using h)]
    dsimp only
    split
    · split
      · exact .inl ⟨_, rfl⟩
      · exact .inr rfl
    · exact .inl ⟨_, rfl⟩

theorem State.segment_pageDone_after (s : State) (toPool : Bool) (p n : Nat) : ((s.pageDone toPool p).segment n).After (s.segment n) 1 := by
  rcases s.pageDone_cases toPool p with ⟨-, h⟩ | ⟨-, ⟨f, h⟩ | h⟩ <;> rw [h]
  · exact Segment.After.refl _ 1
  · exact (State.segment_pageZeroed_after s p n).trans (Segment.After.refl _ 1)
  · exact (State.segment_retirePage_after _ p n).trans (State.segment_pageZeroed_after s p n)

theorem State.segment_endPagesOrder_after (s : State) (o : ZOrder) (n : Nat) :
    ((s.endPagesOrder o).segment n).After (s.segment n) o.items.length := by
  unfold State.endPagesOrder
  generalize o.items = l
  induction l generalizing s with
  | nil => exact Segment.After.refl _ 0
  | cons p l ih =>
    rw [List.length_cons, Nat.add_comm]
    exact (ih _).trans (s.segment_pageDone_after o.toPool p n)

/-! The pages that it covers. -/

theorem State.omapOf_retired_iff (s : State) (p : Nat) : (s.omapOf p).scrub = .retired ↔ (Tab.get {} s.pz.omap p).scrub = .retired := by
  unfold State.omapOf
  dsimp only
  split
  · rfl
  · next h =>
    have hentry : (Tab.get {} s.pz.omap p).scrub ≠ .retired := by
      intro hr
      exact h ((Bool.or_eq_true _ _).mpr (.inr (beq_iff_eq.mpr hr)))
    constructor
    · intro hr
      split at hr <;> cases hr
    · exact fun hr => absurd hr hentry

theorem State.omap_pageDone_other (s : State) (toPool : Bool) {p q : Nat} (h : q ≠ p) :
    Tab.get {} (s.pageDone toPool p).pz.omap q = Tab.get {} s.pz.omap q := by
  have hpage : Tab.get {} (s.pageZeroed p).pz.omap q = Tab.get {} s.pz.omap q :=
    Tab.get_upd_other ({} : OmapEntry) s.pz.omap (fun e => { e with poison := false }) h
  rcases s.pageDone_cases toPool p with ⟨-, hd⟩ | ⟨-, ⟨f, hd⟩ | hd⟩ <;> rw [hd]
  · exact (Tab.get_upd_other ({} : OmapEntry) _ f h).trans hpage
  · exact (Tab.get_upd_other ({} : OmapEntry) _ (fun _ => { scrub := .retired }) h).trans hpage

theorem State.zero_pageZeroed (s : State) (x : Nat) : (s.pageZeroed (x / 1024)).Zero x := by
  show Tab.get 0 (Tab.clear s.pz.mem _ _) x = 0
  rw [Tab.get_clear, if_pos (by omega)]

/-- A page of the order that is not RETIRED is zero at its end. -/
theorem State.zero_endPages (toPool : Bool) (x : Nat) (l : List Nat) (s : State)
    (h : s.Zero x ∨ x / 1024 ∈ l ∧ (s.omapOf (x / 1024)).scrub ≠ .retired) : (l.foldl (fun s p => s.pageDone toPool p) s).Zero x := by
  induction l generalizing s with
  | nil => exact h.resolve_right fun hm => List.not_mem_nil hm.1
  | cons p l ih =>
    refine ih (s.pageDone toPool p) ?_
    rcases h with h | ⟨hm, hr⟩
    · exact .inl (State.zero_pageDone h toPool p)
    · by_cases hp : x / 1024 = p
      · subst hp
        have hz := s.zero_pageZeroed x
        rcases s.pageDone_cases toPool (x / 1024) with ⟨ho, -⟩ | ⟨-, ⟨f, hd⟩ | hd⟩
        · exact absurd ho hr
        · rw [hd]
          exact .inl hz
        · rw [hd]
          exact .inl hz
      · refine .inr ⟨(List.mem_cons.mp hm).resolve_left hp, ?_⟩
        rw [Ne, State.omapOf_retired_iff] at hr ⊢
        rwa [s.omap_pageDone_other toPool hp]

/-! What the end of its last order means for a unit (R188, R399, R415). -/

theorem State.mem_laneCheck (s : State) (a : Nat) : (s.laneCheck a).pz.mem = s.pz.mem :=
  (congrArg (fun t : State => t.pz.mem) (s.under_laneCheck a) :)

theorem State.laneCheck_quiet {s : State} {a : Nat}
    (h : (s.segment a).state ≠ .inService ∨ (s.segment a).uePass = [] ∧ (s.segment a).retired ≤ 256) : s.laneCheck a = s := by
  unfold State.laneCheck
  refine if_neg ?_
  rcases h with h | ⟨hu, hr⟩
  · simp [h]
  · simp [hu, hr]

/-- A unit under readmission whose zeroise has ended enters PROBATION. -/
def State.readmitted (s : State) (a : Nat) : State :=
  let s := (s.unitZeroised a).onSeg a fun g => { g with state := .inService }
  let s := s.onArc a fun c => { c with integ := .probation, trial := 0, boost := false, slowed := false }
  State.onUnit { s with pm := { s.pm with ramping := none } } a .on

theorem State.unitIdle_cases (s : State) (a : Nat) : s.unitIdle a = s ∨ ((s.segment a).engine = [] ∧ (s.arcade a).engine = []
    ∧ (s.unitIdle a = s.readmitted a ∨ s.unitIdle a = s.unitDown a .retired)) := by
  unfold State.unitIdle
  split
  · next h =>
    obtain ⟨hg, ha⟩ := (Bool.and_eq_true _ _).mp h
    split
    · exact .inr ⟨List.isEmpty_iff.mp hg, List.isEmpty_iff.mp ha, .inl rfl⟩
    · split
      · exact .inr ⟨List.isEmpty_iff.mp hg, List.isEmpty_iff.mp ha, .inr rfl⟩
      · exact .inl rfl
  · exact .inl rfl

theorem State.zero_unitIdle {s : State} {x : Nat} (h : s.Zero x) (a : Nat) : (s.unitIdle a).Zero x := by
  rcases s.unitIdle_cases a with hi | ⟨-, -, hi | hi⟩ <;> rw [hi]
  · exact h
  · exact Tab.get_clear_zero h _ _
  · exact State.zero_zeroiseUnit (.inl h)

theorem State.segment_readmitted (s : State) (a : Nat) : (s.readmitted a).segment a = { s.segment a with zeroised := true, state := .inService } := by
  show ((s.unitZeroised a).onSeg a fun g => { g with state := .inService }).segment a = _
  rw [State.segment_of_onSeg]
  have hz : (s.unitZeroised a).segment a = { s.segment a with zeroised := true } :=
    Tab.get_upd_same ({} : Segment) s.pz.segs a fun g => { g with zeroised := true }
  rw [hz]

theorem State.arcade_readmitted (s : State) (a : Nat) : (s.readmitted a).arcade a
    = { s.arcade a with integ := .probation, trial := 0, boost := false, slowed := false } :=
  State.arcade_of_onArc ((s.unitZeroised a).onSeg a fun g => { g with state := .inService }) a
    fun c => { c with integ := .probation, trial := 0, boost := false, slowed := false }

theorem State.unitDown_segment (s : State) (a : Nat) (i : IntegState) : ((s.unitDown a i).segment a).engine = [] := by
  have h : (s.unitDown a i).segment a = _ := Tab.get_upd_same ({} : Segment) (s.zeroiseUnit a).pz.segs a
    fun (g : Segment) => { state := if g.state == SegState.retired then SegState.retired else SegState.off, retired := g.retired, ce := g.ce, ue := g.ue }
  rw [h]

theorem State.unitDown_arcade (s : State) (a : Nat) (i : IntegState) : ((s.unitDown a i).arcade a).engine = []
    ∧ ((s.unitDown a i).arcade a).als = [] := by
  have h : (s.unitDown a i).arcade a = _ := Tab.get_upd_same ({} : Arcade) (s.zeroiseUnit a).arc a fun (c : Arcade) =>
    { integ := i, transients := c.transients, checksDone := c.checksDone, mismatches := c.mismatches
      instCount := c.instCount, instBase := c.instBase, lfsr := c.lfsr, reserve := c.reserve }
  rw [h]
  exact ⟨rfl, rfl⟩

theorem State.segEngine_unitIdle (s : State) (a : Nat) : ((s.unitIdle a).segment a).engine = (s.segment a).engine := by
  rcases s.unitIdle_cases a with hi | ⟨hg, -, hi | hi⟩ <;> rw [hi]
  · rw [State.segment_readmitted]
  · rw [State.unitDown_segment, hg]

theorem State.arcEngine_unitIdle (s : State) (a : Nat) : ((s.unitIdle a).arcade a).engine = (s.arcade a).engine := by
  rcases s.unitIdle_cases a with hi | ⟨-, ha, hi | hi⟩ <;> rw [hi]
  · rw [State.arcade_readmitted]
  · rw [(State.unitDown_arcade s a _).1, ha]

theorem State.als_unitIdle {s : State} {a x : Nat} (h : Tab.get 0 (s.arcade a).als x = 0) : Tab.get 0 ((s.unitIdle a).arcade a).als x = 0 := by
  rcases s.unitIdle_cases a with hi | ⟨-, -, hi | hi⟩ <;> rw [hi]
  · exact h
  · rw [State.arcade_readmitted]
    exact h
  · rw [(State.unitDown_arcade s a _).2]
    rfl

/-! An order on the pages of a segment. -/

theorem State.zeroiseRow_pages {s : State} {a : Nat} {o : ZOrder} {r : List ZOrder} (h : (s.segment a).engine = o :: r) :
    s.zeroiseRow a false = (((s.endPagesOrder o).onSeg a fun g => { g with engine := r }).laneCheck a).unitIdle a := by
  unfold State.zeroiseRow
  dsimp only
  rw [if_neg (by decide), h]

theorem State.zeroiseRow_regions {s : State} {a : Nat} {o : ZOrder} {r : List ZOrder} (h : (s.arcade a).engine = o :: r) :
    s.zeroiseRow a true = ((s.endRegionsOrder a o).onArc a fun c => { c with engine := r }).unitIdle a := by
  unfold State.zeroiseRow
  dsimp only
  rw [if_pos rfl, h]

/-- The next order of a segment in service whose pass found no error comes to the front. -/
theorem State.segEngine_zeroiseRow {s : State} {a : Nat} {o : ZOrder} {r : List ZOrder} (h : (s.segment a).engine = o :: r)
    (hq : (s.segment a).state ≠ .inService ∨ (s.segment a).uePass = [] ∧ (s.segment a).retired + o.items.length ≤ 256) :
    ((s.zeroiseRow a false).segment a).engine = r := by
  obtain ⟨hstate, hpass, -, hretired⟩ := s.segment_endPagesOrder_after o a
  have hseg := (s.endPagesOrder o).segment_of_onSeg a fun g => { g with engine := r }
  rw [State.zeroiseRow_pages h, State.segEngine_unitIdle, State.laneCheck_quiet, hseg]
  rw [hseg]
  refine hq.imp (fun hs => ?_) fun ⟨hu, hr⟩ => ⟨?_, ?_⟩
  · rwa [← hstate] at hs
  · rwa [← hpass] at hu
  · exact hretired.trans hr

theorem State.zero_zeroiseRow {s : State} {a x : Nat} {o : ZOrder} {r : List ZOrder} (h : (s.segment a).engine = o :: r)
    (hx : x / 1024 ∈ o.items) (hr : (s.omapOf (x / 1024)).scrub ≠ .retired) : (s.zeroiseRow a false).Zero x := by
  have hz : (s.endPagesOrder o).Zero x := State.zero_endPages o.toPool x o.items s (.inr ⟨hx, hr⟩)
  rw [State.zeroiseRow_pages h]
  refine State.zero_unitIdle ?_ a
  show Tab.get 0 (State.laneCheck _ a).pz.mem x = 0
  rw [State.mem_laneCheck]
  exact hz

/-! An order on the regions of an Arcade. -/

theorem Arcade.als_spareRows (c : Arcade) (lo hi : Nat) : (c.spareRows lo hi).als = c.als ∧ (c.spareRows lo hi).regions = c.regions := by
  unfold Arcade.spareRows
  dsimp only
  refine foldl_holds (P := fun x : Arcade => x.als = c.als ∧ x.regions = c.regions) (fun x l h => ?_) _ ⟨rfl, rfl⟩
  split <;> exact h

/-- Rows lo to hi of the ALS end zero, and what was zero is. -/
theorem Arcade.als_cleared {c : Arcade} {lo hi x : Nat} (h : Tab.get 0 c.als x = 0 ∨ lo * 8192 ≤ x ∧ x < (hi + 1) * 8192) :
    Tab.get 0 ((c.zeroRows lo hi).spareRows lo hi).als x = 0 := by
  rw [(Arcade.als_spareRows _ _ _).1]
  show Tab.get 0 (Tab.clear c.als _ _) x = 0
  rcases h with h | h
  · exact Tab.get_clear_zero h _ _
  · rw [Tab.get_clear, if_pos h]

theorem Arcade.als_regionDone {c : Arcade} {d x : Nat} (free : Bool) (h : Tab.get 0 c.als x = 0
    ∨ (Tab.get {} c.regions d).firstRow * 8192 ≤ x ∧ x < ((Tab.get {} c.regions d).lastRow + 1) * 8192) :
    Tab.get 0 (c.regionDone free d).als x = 0 := Arcade.als_cleared h

theorem Arcade.regions_regionDone_other (c : Arcade) {d e : Nat} (free : Bool) (h : e ≠ d) :
    Tab.get {} (c.regionDone free d).regions e = Tab.get {} c.regions e := by
  have hr := (Arcade.als_spareRows (c.zeroRows (Tab.get {} c.regions d).firstRow (Tab.get {} c.regions d).lastRow)
    (Tab.get {} c.regions d).firstRow (Tab.get {} c.regions d).lastRow).2
  unfold Arcade.regionDone
  dsimp only
  rw [Tab.get_set_other ({} : Region) _ _ h, hr]
  rfl

theorem Arcade.als_regionsDone (free : Bool) (d x : Nat) (l : List Nat) (c : Arcade) (h : Tab.get 0 c.als x = 0
    ∨ d ∈ l ∧ (Tab.get {} c.regions d).firstRow * 8192 ≤ x ∧ x < ((Tab.get {} c.regions d).lastRow + 1) * 8192) :
    Tab.get 0 (l.foldl (fun c r => c.regionDone free r) c).als x = 0 := by
  induction l generalizing c with
  | nil => exact h.resolve_right fun hm => List.not_mem_nil hm.1
  | cons e l ih =>
    refine ih (c.regionDone free e) ?_
    rcases h with h | ⟨hm, hx⟩
    · exact .inl (Arcade.als_regionDone free (.inl h))
    · by_cases he : d = e
      · subst he
        exact .inl (Arcade.als_regionDone free (.inr hx))
      · rw [Arcade.regions_regionDone_other c free he]
        exact .inr ⟨(List.mem_cons.mp hm).resolve_left he, hx⟩

theorem Arcade.als_rowsDone (x : Nat) (l : List (Nat × Nat)) (c : Arcade)
    (h : Tab.get 0 c.als x = 0 ∨ ∃ g ∈ l, g.1 * 8192 ≤ x ∧ x < (g.2 + 1) * 8192) :
    Tab.get 0 (l.foldl (fun (c : Arcade) r => (c.zeroRows r.1 r.2).spareRows r.1 r.2) c).als x = 0 := by
  induction l generalizing c with
  | nil => exact h.resolve_right fun ⟨g, hm, _⟩ => List.not_mem_nil hm
  | cons e l ih =>
    refine ih ((c.zeroRows e.1 e.2).spareRows e.1 e.2) ?_
    rcases h with h | ⟨g, hm, hx⟩
    · exact .inl (Arcade.als_cleared (.inl h))
    · rcases List.mem_cons.mp hm with rfl | hm
      · exact .inl (Arcade.als_cleared (.inr hx))
      · exact .inr ⟨g, hm, hx⟩

theorem Arcade.regions_rowsDone (l : List (Nat × Nat)) (c : Arcade) :
    (l.foldl (fun (c : Arcade) r => (c.zeroRows r.1 r.2).spareRows r.1 r.2) c).regions = c.regions :=
  foldl_keeps Arcade.regions _ (fun (c : Arcade) (r : Nat × Nat) => (Arcade.als_spareRows (c.zeroRows r.1 r.2) r.1 r.2).2) _ _

/-- The stores of an Arcade as its engine's order leaves them. -/
def Arcade.orderDone (c : Arcade) (o : ZOrder) : Arcade :=
  o.items.foldl (fun c r => c.regionDone o.toPool r) (o.rows.foldl (fun (c : Arcade) r => (c.zeroRows r.1 r.2).spareRows r.1 r.2) c)

theorem State.arcade_endRegionsOrder (s : State) (a : Nat) (o : ZOrder) : (s.endRegionsOrder a o).arcade a = (s.arcade a).orderDone o := by
  unfold State.endRegionsOrder
  dsimp only
  rw [foldl_keeps (fun u : State => u.arcade a) _ fun u r => (rfl : (u.rowReport a r).arcade a = u.arcade a)]
  exact s.arcade_of_onArc a fun c => c.orderDone o

theorem State.arcade_zeroiseRow {s : State} {a : Nat} {o : ZOrder} {r : List ZOrder} :
    (((s.endRegionsOrder a o).onArc a fun c => { c with engine := r }).arcade a) = { (s.arcade a).orderDone o with engine := r } := by
  rw [State.arcade_of_onArc, State.arcade_endRegionsOrder]

theorem Arcade.als_orderDone {c : Arcade} {o : ZOrder} {x : Nat} (h : (∃ g ∈ o.rows, g.1 * 8192 ≤ x ∧ x < (g.2 + 1) * 8192)
    ∨ ∃ d ∈ o.items, (Tab.get {} c.regions d).firstRow * 8192 ≤ x ∧ x < ((Tab.get {} c.regions d).lastRow + 1) * 8192) :
    Tab.get 0 (c.orderDone o).als x = 0 := by
  unfold Arcade.orderDone
  rcases h with h | ⟨d, hd, hx⟩
  · exact Arcade.als_regionsDone o.toPool 0 x _ _ (.inl (Arcade.als_rowsDone x _ c (.inr h)))
  · refine Arcade.als_regionsDone o.toPool d x _ _ (.inr ⟨hd, ?_⟩)
    rwa [Arcade.regions_rowsDone]

/-! Patrol (R104). -/

theorem State.Synced.onSeg {s : State} (hs : s.Synced) {a : Nat} {f : Segment → Segment} (hf : ∀ g, (f g).state = g.state) :
    (s.onSeg a f).Synced := by
  refine hs.congr rfl (fun _ => rfl) (fun n => ?_) (fun _ => rfl) rfl rfl rfl
  by_cases h : n = a
  · rw [h, State.segment_of_onSeg, hf]
  · rw [State.segment_of_onSeg_other _ _ h]

/-- A segment at the start of the patrol of its next page: a new pass has found no error. -/
def Segment.newPass (g : Segment) : Segment := if g.patrolPage % 4096 = 0 then { g with uePass := [] } else g

theorem Segment.newPass_fields (g : Segment) : g.newPass.state = g.state ∧ g.newPass.retired = g.retired ∧ g.newPass.ce = g.ce
    ∧ (g.uePass = [] → g.newPass.uePass = []) := by
  unfold Segment.newPass
  split
  · exact ⟨rfl, rfl, rfl, fun _ => rfl⟩
  · exact ⟨rfl, rfl, rfl, id⟩

/-- The segment's pass begins. -/
def State.patrolStart (s : State) (a : Nat) : State :=
  if (s.segment a).patrolPage % 4096 = 0 then s.onSeg a fun g => { g with uePass := [] } else s

theorem State.patrolStart_frame (s : State) (a : Nat) : ∃ g, s.patrolStart a = { s with pz := { s.pz with segs := g } } := by
  unfold State.patrolStart
  split
  · exact ⟨_, rfl⟩
  · exact ⟨s.pz.segs, rfl⟩

theorem State.segment_patrolStart (s : State) (a : Nat) : (s.patrolStart a).segment a = (s.segment a).newPass := by
  unfold State.patrolStart Segment.newPass
  split
  · exact s.segment_of_onSeg a _
  · rfl

theorem State.segment_patrolStart_other (s : State) {a n : Nat} (h : n ≠ a) : (s.patrolStart a).segment n = s.segment n := by
  unfold State.patrolStart
  split
  · exact State.segment_of_onSeg_other _ _ h
  · rfl

theorem State.patrolStart_synced {s : State} (hs : s.Synced) (a : Nat) : (s.patrolStart a).Synced := by
  unfold State.patrolStart
  split
  · exact hs.onSeg fun _ => rfl
  · exact hs

/-- A segment once its page is patrolled: the lines that gave corrected errors are marked, and the next page is due. -/
def Segment.patrolled (page : Nat) (ce : List Nat) (g : Segment) : Segment :=
  let m := patrolMarks g.spareMarks g.ceLast ce fun l => l / 16 == page
  { g with spareMarks := m.1, ceLast := m.2, patrolPage := (page + 1) % 4096 }

theorem State.patrolSegment_nil (s : State) (a : Nat) : s.patrolSegment a []
    = ((s.patrolStart a).onSeg a (Segment.patrolled ((s.segment a).patrolPage % 4096) [])).laneCheck a := rfl

/-- The error that patrol found in a word of a page. -/
def State.pageHit (s : State) (a page line word : Nat) (e : Ecc) : State :=
  s.piazzaError (a * 2 ^ 22 + (page * 16 + line % 16) * 64 + word % 8 * 8) e

theorem State.patrolSegment_ce (s : State) (a line word : Nat) : s.patrolSegment a [{ line := line, word := word, ecc := .ce }]
    = (((s.patrolStart a).pageHit a ((s.segment a).patrolPage % 4096) line word .ce).onSeg a
        (Segment.patrolled ((s.segment a).patrolPage % 4096) [(s.segment a).patrolPage % 4096 * 16 + line % 16])).laneCheck a := rfl

theorem segOf_hit {a page line word : Nat} (ha : a < 16) (hp : page < 4096) :
    segOf (a * 2 ^ 22 + (page * 16 + line % 16) * 64 + word % 8 * 8) = a := by
  unfold segOf
  omega

/-- A corrected error counts in its segment and is recorded. -/
theorem State.pageHit_ce (s : State) {a page : Nat} (ha : a < 16) (hp : page < 4096) (line word : Nat) :
    ∃ r : HRec, r.event = 0x0101 ∧ s.pageHit a page line word .ce = (s.onSeg a fun g => { g with ce := g.ce + 1 }).report r := by
  unfold State.pageHit State.piazzaError
  rw [segOf_hit ha hp]
  refine ⟨_, ?_, rfl⟩
  unfold State.pageOwner
  dsimp only
  split <;> rfl

theorem State.report_counts_corrected (s : State) {r : HRec} (h : eventClass r.event = 1) :
    (s.report r).health.correctedCnt = s.health.correctedCnt + 1 := by
  obtain ⟨ring, m, ws, b, l, c, hr⟩ := s.report_health r
  rw [hr, h]
  rfl

theorem State.segment_report (s : State) (r : HRec) (n : Nat) : (s.report r).segment n = s.segment n := rfl

/-- Patrol finds the segment fit to stay in service. -/
theorem State.laneCheck_patrolled {s : State} {a : Nat} (page : Nat) (ce : List Nat) (hu : (s.segment a).uePass = [])
    (hr : (s.segment a).retired ≤ 256) :
    (s.onSeg a (Segment.patrolled page ce)).laneCheck a = s.onSeg a (Segment.patrolled page ce) := by
  refine State.laneCheck_quiet (.inr ?_)
  rw [State.segment_of_onSeg]
  exact ⟨hu, hr⟩

theorem reaches_patrolSegment_nil {u : Arc} {s : State} (hs : s.Up) (hservice : (s.segment u.val).state = .inService)
    (hz : (s.segment u.val).zeroised = true) (hpass : (s.segment u.val).uePass = []) (hr : (s.segment u.val).retired ≤ 256) :
    Reaches (.patrol u false []) s fun t => t = { s with pz := { s.pz with segs := t.pz.segs } }
      ∧ (t.segment u.val).patrolPage = ((s.segment u.val).patrolPage % 4096 + 1) % 4096 ∧ ∀ n, n ≠ u.val → t.segment n = s.segment n := by
  obtain ⟨-, hretired, -, hue⟩ := (s.segment u.val).newPass_fields
  rw [← s.segment_patrolStart u.val] at hretired hue
  have hp := (s.patrolSegment_nil u.val).trans (State.laneCheck_patrolled _ _ (hue hpass) (hretired.trans_le hr))
  have hsync := (State.patrolStart_synced hs.2 u.val).onSeg (a := u.val)
    (f := Segment.patrolled ((s.segment u.val).patrolPage % 4096) []) fun _ => rfl
  obtain ⟨g, hframe⟩ := s.patrolStart_frame u.val
  refine reaches_act_to (exec_patrol u false [] s) hs.1 (by simp [hservice, hz]) hp hsync (by rw [hframe]; rfl) ⟨?_, ?_, fun n hn => ?_⟩
  · rw [hframe]
    rfl
  · rw [State.segment_of_onSeg]
    rfl
  · rw [State.segment_of_onSeg_other _ _ hn, State.segment_patrolStart_other _ hn]

theorem reaches_patrolSegment_ce {u : Arc} {s : State} (hs : s.Up) (hservice : (s.segment u.val).state = .inService)
    (hz : (s.segment u.val).zeroised = true) (hpass : (s.segment u.val).uePass = []) (hr : (s.segment u.val).retired ≤ 256) (line word : Nat) :
    Reaches (.patrol u false [{ line := line, word := word, ecc := .ce }]) s fun t =>
      t = { s with pz := { s.pz with segs := t.pz.segs }, health := t.health, win := t.win }
      ∧ (t.segment u.val).ce = (s.segment u.val).ce + 1
      ∧ (t.segment u.val).patrolPage = ((s.segment u.val).patrolPage % 4096 + 1) % 4096
      ∧ t.health.correctedCnt = s.health.correctedCnt + 1 := by
  obtain ⟨-, hretired, hce, hue⟩ := (s.segment u.val).newPass_fields
  obtain ⟨r, hevent, hhit⟩ := (s.patrolStart u.val).pageHit_ce u.isLt (Nat.mod_lt (s.segment u.val).patrolPage (by decide : 0 < 4096)) line word
  obtain ⟨g, hframe⟩ := s.patrolStart_frame u.val
  have hseg : ((((s.patrolStart u.val).onSeg u.val fun g => { g with ce := g.ce + 1 }).report r).segment u.val)
      = { (s.segment u.val).newPass with ce := (s.segment u.val).newPass.ce + 1 } := by
    rw [State.segment_report, State.segment_of_onSeg, State.segment_patrolStart]
  have hp := s.patrolSegment_ce u.val line word
  rw [hhit, State.laneCheck_patrolled _ _ (by rw [hseg]; exact hue hpass) (by rw [hseg]; exact hretired.trans_le hr)] at hp
  have hsync := (State.report_synced ((State.patrolStart_synced hs.2 u.val).onSeg (a := u.val)
    (f := fun g => { g with ce := g.ce + 1 }) fun _ => rfl) r).onSeg (a := u.val)
      (f := Segment.patrolled ((s.segment u.val).patrolPage % 4096) [(s.segment u.val).patrolPage % 4096 * 16 + line % 16]) fun _ => rfl
  refine reaches_act_to (exec_patrol u false _ s) hs.1 (by simp [hservice, hz]) hp hsync (by rw [hframe]; rfl) ⟨?_, ?_, ?_, ?_⟩
  · rw [hframe]
    rfl
  · rw [State.segment_of_onSeg, hseg]
    exact congrArg (· + 1) hce
  · rw [State.segment_of_onSeg]
    rfl
  · have hcount := State.report_counts_corrected ((s.patrolStart u.val).onSeg u.val fun g => { g with ce := g.ce + 1 }) (r := r)
      (by rw [hevent]; rfl)
    rw [hframe] at hcount ⊢
    exact hcount

/-- An Arcade once a row of its ALS is patrolled without an error. -/
def Arcade.patrolled (c : Arcade) (row : Nat) : Arcade :=
  let m := patrolMarks c.spareMarks c.ceLast [] fun l => l / 128 == row
  let hit (r : Region) : Bool := false && r.valid && !r.scratch && r.state == .measured
    && decide (r.firstRow ≤ row) && decide (row ≤ r.lastRow)
  { c with spareMarks := m.1, ceLast := m.2, patrolRow := (row + 1) % 256
           regions := Tab.mapVals {} c.regions fun _ (r : Region) => if hit r then { r with state := .broken, digest := 0 } else r }

theorem State.patrolAls_nil (s : State) (a : Nat) :
    s.patrolAls a [] = s.onArc a fun c => c.patrolled ((s.arcade a).patrolRow % 256) := rfl

theorem reaches_patrolAls_nil {u : Arc} {s : State} (hs : s.Up) (hservice : (s.segment u.val).state = .inService)
    (hz : (s.segment u.val).zeroised = true) : Reaches (.patrol u true []) s fun t => t = { s with arc := t.arc }
      ∧ (t.arcade u.val).patrolRow = ((s.arcade u.val).patrolRow % 256 + 1) % 256 ∧ (t.arcade u.val).als = (s.arcade u.val).als
      ∧ ∀ n, n ≠ u.val → t.arcade n = s.arcade n := by
  refine reaches_act_to (exec_patrol u true [] s) hs.1 (by simp [hservice, hz]) (s.patrolAls_nil u.val)
    (State.Synced.onArc hs.2 fun _ => rfl) rfl ⟨rfl, ?_, ?_, fun n hn => s.arcade_of_onArc_other _ hn⟩
  · rw [State.arcade_of_onArc]
    rfl
  · rw [State.arcade_of_onArc]
    rfl

/-! The self-test of a unit (R106, R108, R416). -/

theorem State.selfTest_passes (s : State) (a : Nat) {x : SelfTest} (hb : x.badPages = []) : (s.selfTest a x).1 = x.pass
    ∧ ((s.selfTest a x).2.segment a).state = .test ∧ ((s.selfTest a x).2.arcade a).badRows = x.badRows := by
  unfold State.selfTest
  dsimp only
  rw [hb, List.foldl_nil]
  have hseg : ∀ (l : List Nat) (u : State), (l.foldl (fun (s : State) r => s.rowReport a r) u).segment a = u.segment a := fun l u =>
    foldl_keeps (fun u : State => u.segment a) (fun (s : State) r => s.rowReport a r) (fun _ _ => rfl) l u
  have harc : ∀ (l : List Nat) (u : State), (l.foldl (fun (s : State) r => s.rowReport a r) u).arcade a = u.arcade a := fun l u =>
    foldl_keeps (fun u : State => u.arcade a) (fun (s : State) r => s.rowReport a r) (fun _ _ => rfl) l u
  refine ⟨?_, ?_, ?_⟩
  · rw [hseg]
    show (x.pass && decide (((State.onSeg _ a _).segment a).retired ≤ 256)) = x.pass
    rw [State.segment_of_onSeg]
    exact Bool.and_true _
  · rw [hseg]
    show ((State.onSeg _ a _).segment a).state = _
    rw [State.segment_of_onSeg]
  · rw [harc, State.arcade_of_onArc]

theorem State.segState_zeroiseUnit (s : State) (n a : Nat) : ((s.zeroiseUnit n).segment a).state = (s.segment a).state := by
  have hregions : ∀ (u : State) (o : ZOrder), (u.endRegionsOrder n o).segment a = u.segment a := by
    intro u o
    unfold State.endRegionsOrder
    dsimp only
    exact foldl_keeps (fun u : State => u.segment a) (fun s r => s.rowReport n r) (fun _ _ => rfl) _ _
  have hpages : ∀ (u : State) (o : ZOrder), ((u.endPagesOrder o).segment a).state = (u.segment a).state := fun u o =>
    (u.segment_endPagesOrder_after o a).1
  have hengine : ∀ u : State, ((u.onSeg n fun g => { g with engine := [] }).segment a).state = (u.segment a).state := by
    intro u
    by_cases h : a = n
    · rw [h, State.segment_of_onSeg]
    · rw [State.segment_of_onSeg_other _ _ h]
  unfold State.zeroiseUnit
  dsimp only
  refine Eq.trans (b := (State.segment (List.foldl _ _ _) a).state) rfl ?_
  rw [foldl_keeps (fun u : State => (u.segment a).state) _ fun u o => congrArg Segment.state (hregions u o), hengine,
    foldl_keeps (fun u : State => (u.segment a).state) _ hpages]
  rfl

/-- A unit that is RETIRED goes down as one. -/
theorem State.unitDown_retired {s : State} {a : Nat} (h : (s.segment a).state = .retired) : ((s.unitDown a .retired).segment a).state = .retired
    ∧ ((s.unitDown a .retired).arcade a).integ = .retired ∧ Tab.get UnitState.off (s.unitDown a .retired).pm.units a = .off := by
  refine ⟨?_, ?_, Tab.get_set_same UnitState.off (s.zeroiseUnit a).pm.units a .off⟩
  · have hg : (s.unitDown a .retired).segment a = _ := Tab.get_upd_same ({} : Segment) (s.zeroiseUnit a).pz.segs a
      fun (g : Segment) => { state := if g.state == SegState.retired then SegState.retired else SegState.off, retired := g.retired, ce := g.ce, ue := g.ue }
    have hz : (Tab.get ({} : Segment) (s.zeroiseUnit a).pz.segs a).state = .retired := (s.segState_zeroiseUnit a a).trans h
    rw [hg, hz]
    rfl
  · have hc : (s.unitDown a .retired).arcade a = _ := Tab.get_upd_same ({} : Arcade) (s.zeroiseUnit a).arc a fun (c : Arcade) =>
      { integ := .retired, transients := c.transients, checksDone := c.checksDone, mismatches := c.mismatches
        instCount := c.instCount, instBase := c.instBase, lfsr := c.lfsr, reserve := c.reserve }
    rw [hc]

/-- A unit that its self-test leaves unusable, before it goes down. -/
def State.unitMarked (s : State) (a : Nat) : State :=
  let s := (s.onSeg a fun g => { g with state := .retired }).report { event := 0x0403, unitKind := 2, unit := a }
  let s := { s with health := { s.health with
    retiredSeg := s.health.retiredSeg ||| BitVec.ofNat 16 (2 ^ a)
    retiredArc := s.health.retiredArc ||| BitVec.ofNat 16 (2 ^ a), dirty := true } }
  s.report { event := 0x0402, unitKind := 1, unit := a }

theorem State.failUnit_eq (s : State) (a : Nat) : s.failUnit a = (s.unitMarked a).unitDown a .retired := rfl

theorem State.segment_unitMarked (s : State) (a : Nat) : ((s.unitMarked a).segment a).state = .retired :=
  congrArg Segment.state (s.segment_of_onSeg a fun g => { g with state := .retired })

theorem State.failUnit_retires (s : State) (a : Nat) : ((s.failUnit a).segment a).state = .retired
    ∧ ((s.failUnit a).arcade a).integ = .retired ∧ Tab.get UnitState.off (s.failUnit a).pm.units a = .off
    ∧ (s.failUnit a).pm.ramping = s.pm.ramping := by
  have hseg := s.segment_unitMarked a
  have hpm : (s.unitMarked a).pm = s.pm := rfl
  rw [State.failUnit_eq]
  generalize s.unitMarked a = u at hseg hpm
  obtain ⟨h1, h2, h3⟩ := State.unitDown_retired hseg
  obtain ⟨x, d, hd⟩ := u.unitDown_pm a .retired
  refine ⟨h1, h2, h3, ?_⟩
  rw [hd, hpm]

theorem State.selfTestRow_passes {s : State} {a : Nat} {x : SelfTest} (hp : x.pass = true) (hb : x.badPages = []) :
    ((s.selfTestRow a x).segment a).state = .test
    ∧ ((s.selfTestRow a x).segment a).engine = [{ items := segmentPages a, toPool := true }]
    ∧ ((s.selfTestRow a x).arcade a).engine = [{ items := [], rows := [(0, 255)], toPool := true }]
    ∧ ((s.selfTestRow a x).arcade a).badRows = x.badRows := by
  obtain ⟨hok, hstate, hrows⟩ := s.selfTest_passes a hb
  unfold State.selfTestRow
  generalize s.selfTest a x = y at hok hstate hrows
  obtain ⟨ok, u⟩ := y
  dsimp only at hok hstate hrows ⊢
  rw [hok, hp, if_pos rfl]
  have hseg : ((State.onArc (u.onSeg a fun g => { g with engine := [{ items := segmentPages a, toPool := true }] }) a fun c =>
      { c with engine := [{ items := [], rows := [(0, 255)], toPool := true }] }).segment a)
        = { u.segment a with engine := [{ items := segmentPages a, toPool := true }] } :=
    u.segment_of_onSeg a fun g => { g with engine := [{ items := segmentPages a, toPool := true }] }
  rw [hseg, State.arcade_of_onArc]
  exact ⟨hstate, rfl, rfl, hrows⟩

theorem State.selfTestRow_fails {s : State} {a : Nat} {x : SelfTest} (hp : x.pass = false) (hb : x.badPages = []) :
    ((s.selfTestRow a x).segment a).state = .retired ∧ ((s.selfTestRow a x).arcade a).integ = .retired
    ∧ Tab.get UnitState.off (s.selfTestRow a x).pm.units a = .off ∧ (s.selfTestRow a x).pm.ramping = none := by
  obtain ⟨hok, -, -⟩ := s.selfTest_passes a hb
  unfold State.selfTestRow
  generalize s.selfTest a x = y at hok
  obtain ⟨ok, u⟩ := y
  dsimp only at hok ⊢
  rw [hok, hp, if_neg (by decide)]
  exact State.failUnit_retires { u with pm := { u.pm with ramping := none } } a

/-! The scrubber of the Ownership Map (R97, R369). -/

/-- What the scrubber does with what it found in an entry. -/
def State.omapScrubbed (n : Arc) (e : Fin 4096) (s : State) : Option Ecc → State
  | none => s
  | some .ce => s.report { event := 0x0105, unitKind := 8, unit := n.val, location := e.val }
  | some .ue => s.blockReset 1 n.val 0x0601 (some { event := 0x0601, unitKind := 8, unit := n.val, location := e.val })

theorem exec_omapScrub (n : Arc) (e : Fin 4096) (x : Option Ecc) (s : State) :
    exec (.omapScrub n e x) s = act true (fun s => s.omapScrubbed n e x) s := by
  cases x with
  | none => rfl
  | some x => cases x <;> rfl

theorem State.settle_blockReset_unit (s u : State) (cause unit event : Nat) (r : Option HRec) :
    (s.settle (u.blockReset cause unit event r)).health.causeUnit = unit := by
  obtain ⟨v, kind, last, hreset, -⟩ := u.blockReset_restarts cause unit event r
  rw [hreset, State.settle_health]
  rfl

/-- Settles O48, from what the end of an order leaves of the unit's stores and engine. -/
theorem storesAreScrubbed : Obligations.StoresAreScrubbed := by
  unfold Obligations.StoresAreScrubbed
  refine ⟨fun s u o r hl he => ?_, fun s u o r hs he hw => ?_, fun s u o r hl he hw => ?_, fun s u hs hservice hz => ?_,
    fun s u x hl hramp htest he hb => ?_, fun s n e => ?_⟩
  case refine_1 =>
    refine reaches_act (exec_zeroiseDone u false s) hl (by simp [he]) ⟨fun hq => ?_, fun page hp hr x hx => ?_⟩
    · rw [State.settle_segment]
      exact State.segEngine_zeroiseRow he hq
    · rw [State.settle_pz]
      subst hx
      exact State.zero_zeroiseRow he hp hr
  case refine_2 =>
    exact (exec_zeroiseDone u true s).trans (act_idle (by simp [he, hw]))
  case refine_3 =>
    have hrow := State.zeroiseRow_regions he
    have hdone := State.arcade_zeroiseRow (s := s) (a := u.val) (o := o) (r := r)
    have hals : ∀ x, Tab.get 0 ((s.arcade u.val).orderDone o).als x = 0 → Tab.get 0 ((s.zeroiseRow u.val true).arcade u.val).als x = 0 := by
      intro x hx
      rw [hrow]
      refine State.als_unitIdle ?_
      rw [hdone]
      exact hx
    refine reaches_act (exec_zeroiseDone u true s) hl (by simp [he, hw]) ⟨?_, fun g hg x hlo hhi => ?_, fun d hd x hlo hhi => ?_⟩
    · rw [State.settle_arcade, hrow, State.arcEngine_unitIdle, hdone]
    · rw [State.settle_arcade]
      exact hals x (Arcade.als_orderDone (.inl ⟨g, hg, hlo, hhi⟩))
    · rw [State.settle_arcade]
      exact hals x (Arcade.als_orderDone (.inr ⟨d, hd, hlo, hhi⟩))
  case refine_4 =>
    exact ⟨fun hpass hr => reaches_patrolSegment_nil hs hservice hz hpass hr,
      fun line word hpass hr => reaches_patrolSegment_ce hs hservice hz hpass hr line word, reaches_patrolAls_nil hs hservice hz⟩
  case refine_5 =>
    have hrow : (if s.pm.ramping == some u.val && (s.segment u.val).engine.isEmpty then s.selfTestRow u.val x else s.bootUnit u.val x)
        = s.selfTestRow u.val x := if_pos (by simp [hramp, he])
    refine ⟨fun hp => reaches_act (exec_selfTestDone u x s) hl (by simp [htest, hramp, he]) ?_,
      fun hp => reaches_act (exec_selfTestDone u x s) hl (by simp [htest, hramp, he]) ?_⟩
    · rw [hrow, State.settle_segment, State.settle_arcade]
      exact State.selfTestRow_passes hp hb
    · rw [hrow, State.settle_segment, State.settle_arcade, State.settle_pm]
      exact State.selfTestRow_fails hp hb
  case refine_6 =>
    refine ⟨fun hs => exec_act_to (exec_omapScrub n e none s) hs.1 rfl rfl hs.2 rfl, fun hs => ?_, fun hl => ?_⟩
    · exact reaches_act_to (exec_omapScrub n e (some .ce) s) hs.1 rfl rfl (State.report_synced hs.2 _) rfl
        ⟨rfl, s.report_counts_corrected (show eventClass 0x0105 = 1 from rfl)⟩
    · refine reaches_act (exec_omapScrub n e (some .ue) s) hl rfl ?_
      have hcause := s.settle_blockReset_unit s 1 n.val 0x0601 (some { event := 0x0601, unitKind := 8, unit := n.val, location := e.val })
      obtain ⟨⟨hboot, hsess, -, -, -, -, hflash, hfuses, -⟩, h1, h2, -⟩ := s.settle_blockReset s 1 n.val 0x0601
        (some { event := 0x0601, unitKind := 8, unit := n.val, location := e.val }) rfl
      exact ⟨hboot, hsess, hflash, hfuses, h1, hcause, h2⟩

end Sys2Proof.Machine
end


-- ==== Sys2Proof/Proofs/Controllers.lean ====
section
/-! PROOFS. Watchdogs, crashes and restarts of the controllers (R267, R269, R285, R374 to R379). -/

namespace Sys2Proof.Machine

theorem exec_fcWdogKick (s : State) :
    exec .fcWdogKick s = act (s.boot.step != 0) (fun s => { s with health := { s.health with fcKick := s.now } }) s := rfl
theorem exec_qcWdogKick (q : Fin 4) (s : State) : exec (.qcWdogKick q) s
    = act ((s.qcOf q.val).state == .running) (fun s => s.onQc q.val fun c => { c with lastKick := s.now }) s := rfl
theorem exec_fcCrash (trap : BitVec 32) (s : State) :
    exec (.fcCrash trap) s = act (s.fcRuntime && !s.health.fcRestarting) (fun s => s.fcCrashed trap) s := rfl
theorem exec_fcWdogExpiry (s : State) : exec .fcWdogExpiry s
    = act (s.fcRuntime && !s.health.fcRestarting && decide (s.health.fcKick + 1000000 ≤ s.now)) (fun s => s.fcCrashed 0) s := rfl
theorem exec_qcCrash (q : Fin 4) (trap : BitVec 32) (ue : Bool) (s : State) :
    exec (.qcCrash q trap ue) s = act (s.qcRuns q.val) (fun s => s.qcCrashed q.val trap ue) s := rfl
theorem exec_qcWdogExpiry (q : Fin 4) (s : State) : exec (.qcWdogExpiry q) s
    = act (s.qcRuns q.val && decide ((s.qcOf q.val).lastKick + 200000 ≤ s.now)) (fun s => s.qcCrashed q.val 0 false) s := rfl
theorem exec_qcDetachExpiry (q : Fin 4) (s : State) : exec (.qcDetachExpiry q) s
    = act ((s.qcOf q.val).state == .restarting && decide ((s.qcOf q.val).lastKick / 4096 + 256 ≤ s.epoch)) (fun s => s.qcFails q.val .detached) s :=
  rfl
theorem exec_qcReattach (q : Fin 4) (e : Bool) (s : State) : exec (.qcReattach q e) s
    = act ((s.qcOf q.val).state == .restarting || ((s.qcOf q.val).state != .running && s.fcUp)) (fun s => s.qcReattach q.val e) s := rfl
theorem exec_qcActivate (q : Fin 4) (e : Bool) (s : State) : exec (.qcActivate q e) s
    = act (s.fcUp && (Tab.get none s.boot.qcStaged q.val).isSome && s.drained q.val && (s.qcOf q.val).state == .running)
      (fun s => s.qcActivate q.val e) s := rfl

theorem exec_laneWdogExpiry_none {s : State} (l : Lane) (h : s.laneItem = none) : exec (.laneWdogExpiry l) s = act false id s := by
  show execLaneWdogExpiry l s = _
  unfold execLaneWdogExpiry
  rw [h]

theorem exec_laneWdogExpiry_some {s : State} {cs seq since : Nat} {k : RecordKind} (l : Lane) (h : s.laneItem = some (cs, seq, k, since)) :
    exec (.laneWdogExpiry l) s = act true (fun s =>
      (s.onSlot cs seq fun y => y.restart k s.now).report { event := 0x0407, unitKind := 5, unit := l.val }) s := by
  show execLaneWdogExpiry l s = _
  unfold execLaneWdogExpiry
  rw [h]

/-! Kicks and the lanes (R217, R374). -/

theorem State.Synced.onQc {s : State} (hs : s.Synced) {q : Nat} {f : Qc → Qc} (hf : ∀ c, (f c).state = c.state) : (s.onQc q f).Synced := by
  refine hs.congr rfl (fun _ => rfl) (fun _ => rfl) (fun n => ?_) rfl rfl rfl
  by_cases h : n = q
  · rw [h, State.qcOf_of_onQc, hf]
  · rw [State.qcOf_of_onQc_other _ _ h]

theorem State.report_unit (s : State) {r : HRec} (h : eventClass r.event = 4) :
    (s.report r).health.unit = true ∧ (s.report r).health.unitCnt = s.health.unitCnt + 1 := by
  obtain ⟨ring, m, ws, b, l, c, hr⟩ := s.report_health r
  rw [hr, h]
  exact ⟨rfl, rfl⟩

theorem SlotRun.seq_restart (x : SlotRun) (k : RecordKind) (now : Nat) : (x.restart k now).seq = x.seq := by cases k <;> rfl

theorem State.slotOf_report (s : State) (r : HRec) (cs seq : Nat) : (s.report r).slotOf cs seq = s.slotOf cs seq := rfl

/-! The crash of the Forecourt (R177, R378, R379). -/

/-- The reserves of the check units are filled from the generator, and nothing else changes. -/
def State.Refilled (s t : State) : Prop :=
  (∃ x y, t = { s with trng := x, arc := y }) ∧ ∀ b, ∃ r, t.arcade b = { s.arcade b with reserve := r }

theorem State.Refilled.refl (s : State) : s.Refilled s := ⟨⟨s.trng, s.arc, rfl⟩, fun b => ⟨(s.arcade b).reserve, rfl⟩⟩

theorem State.Refilled.trans {s t u : State} (h : s.Refilled t) (k : t.Refilled u) : s.Refilled u := by
  obtain ⟨⟨x, y, rfl⟩, hr⟩ := h
  obtain ⟨⟨v, w, rfl⟩, kr⟩ := k
  refine ⟨⟨v, w, rfl⟩, fun b => ?_⟩
  obtain ⟨r, hb⟩ := hr b
  obtain ⟨r', kb⟩ := kr b
  exact ⟨r', kb.trans (by rw [hb])⟩

theorem State.refilled_draw (s : State) : s.Refilled s.draw.2 := ⟨⟨s.draw.2.trng, s.arc, rfl⟩, fun b => ⟨(s.arcade b).reserve, rfl⟩⟩

theorem State.refilled_onArc (s : State) (a : Nat) (f : List Byte → List Byte) :
    s.Refilled (s.onArc a fun c => { c with reserve := f c.reserve }) := by
  refine ⟨⟨s.trng, _, rfl⟩, fun b => ?_⟩
  by_cases h : b = a
  · exact ⟨f (s.arcade b).reserve, by rw [h, State.arcade_of_onArc]⟩
  · exact ⟨(s.arcade b).reserve, by rw [State.arcade_of_onArc_other _ _ h]⟩

theorem State.refilled_refill (a n : Nat) (s : State) : s.Refilled (State.refill a n s) := by
  induction n generalizing s with
  | zero => exact .refl s
  | succ n ih =>
    unfold State.refill
    dsimp only
    split
    · exact .refl s
    · exact (s.refilled_draw.trans (State.refilled_onArc _ a fun l => l ++ _)).trans (ih _)

theorem State.refilled_refillAll (s : State) : s.Refilled s.refillAll := by
  unfold State.refillAll
  split
  · exact foldl_holds (P := fun u : State => s.Refilled u) (fun u x h => h.trans (State.refilled_refill x.1 8 u)) _ (.refl s)
  · exact .refl s

/-- The state as a crash of the Forecourt is recorded. -/
def State.crashNoted (s : State) (trap : BitVec 32) : State :=
  State.report { s with health := { s.health with
    fcCrashTimes := (s.health.fcCrashTimes.filter fun t => s.now ≤ t + 60000000000) ++ [s.now], fcRestarting := true } }
    { event := 0x0501, unitKind := 4, unit := 0, detail := Bytes.ofNat 4 trap.toNat }

/-- The crashes of the last 60 s before this one. -/
def State.recentCrashes (s : State) : Nat := (s.health.fcCrashTimes.filter fun t => s.now ≤ t + 60000000000).length

theorem State.fcCrashed_eq (s : State) (trap : BitVec 32) : s.fcCrashed trap = if 4 ≤ s.refillAll.recentCrashes + 1
    then (s.refillAll.crashNoted trap).blockReset 3 0 0x0603 (some { event := 0x0603, unitKind := 4, unit := 0 })
    else (s.refillAll.crashNoted trap).fcLost := by
  unfold State.fcCrashed State.recentCrashes
  dsimp only
  rw [List.length_append]
  rfl

theorem State.recentCrashes_refillAll (s : State) : s.refillAll.recentCrashes = s.recentCrashes := by
  obtain ⟨⟨x, y, h⟩, -⟩ := s.refilled_refillAll
  rw [h]
  rfl

theorem State.fcRestarting_crashNoted (s : State) (trap : BitVec 32) : (s.crashNoted trap).health.fcRestarting = true :=
  State.report_health_proj Health.fcRestarting (fun _ _ _ _ _ _ _ _ _ _ _ _ _ _ _ _ _ => rfl) _ _

theorem State.degradedNow_restarting {s : State} (h : s.health.fcRestarting = true) : s.degradedNow = true := by
  unfold State.degradedNow
  simp [h]

/-- What a crash of the Forecourt leaves. -/
theorem reaches_fcCrashed {c : Instr} {s : State} {g : Bool} {f : State → State} {trap : BitVec 32} (he : exec c s = act g f s)
    (hl : s.live = true) (hg : g = true) (hf : f s = s.fcCrashed trap) :
    (s.recentCrashes < 3 → Reaches c s fun t => t.health.fcRestarting = true ∧ t.health.degraded = true ∧ t.keys.kreg = none
      ∧ t.de = [] ∧ t.pke.queue = [] ∧ t.pke.run = none ∧ t.pke.suspended = none ∧ t.plans = s.plans
      ∧ ∀ a, t.arcade a = { s.arcade a with reserve := (t.arcade a).reserve })
    ∧ (3 ≤ s.recentCrashes → Reaches c s fun t => t.ResetFrom s ∧ t.health.cause = 3 ∧ t.health.causeEvent = 0x0603) := by
  obtain ⟨⟨x, y, hframe⟩, harc⟩ := s.refilled_refillAll
  have hcount := s.recentCrashes_refillAll
  have hrow := s.fcCrashed_eq trap
  generalize s.refillAll = u at hframe harc hcount hrow
  refine ⟨fun hfew => ?_, fun hmany => ?_⟩
  · have hrestarting : (u.crashNoted trap).fcLost.health.fcRestarting = true := u.fcRestarting_crashNoted trap
    refine reaches_act he hl hg ?_
    rw [hf, hrow, if_neg (by omega)]
    simp only [State.settle_health, State.settle_keys, State.settle_de, State.settle_pke, State.settle_plans, State.settle_arcade]
    refine ⟨hrestarting, State.degradedNow_restarting hrestarting, rfl, rfl, rfl, rfl, rfl, ?_, fun a => ?_⟩
    · rw [hframe]
      rfl
    · obtain ⟨r, ha⟩ := harc a
      have hkept : (u.crashNoted trap).fcLost.arcade a = u.arcade a := rfl
      rw [hkept, ha]
  · refine reaches_blockReset he hl hg (hf.trans (hrow.trans (if_pos (by omega)))) ?_ fun t hr hc hev _ => ⟨hr, hc, hev⟩
    rw [hframe]
    rfl

/-! The restart of the Forecourt (R269, R285). -/

/-- What the health and lifecycle units hold. -/
def State.watch (s : State) : Health × Lifecycle := (s.health, s.lc)

theorem State.watch_eq {s t : State} (h : t.watch = s.watch) : t.health = s.health ∧ t.lc = s.lc := Prod.mk.inj h

theorem State.watch_of_beside {s t : State} (h : t.beside = s.beside) : t.watch = s.watch :=
  (congrArg (fun b : Beside => b.rest.watch) h :)

theorem State.watch_undoStage (s : State) (w : Nat) : (s.undoStage w).watch = s.watch := by
  unfold State.undoStage
  split
  · next comp slot active trial tries _ =>
    obtain ⟨f, o, hu⟩ := s.unlist_frame slot comp
    dsimp only
    rw [hu]
    obtain ⟨f', o', hb⟩ := State.writeBootRecord_frame { s with flash := f, out := o } active trial tries
    rw [hb]
    split <;> split <;> rfl
  · rfl

theorem State.watch_undoCkpt (s : State) (w : Nat) (c : Cmd) : (s.undoCkpt w c).watch = s.watch := by
  have hselect : (if c.u 16 2 < 1024 && (s.job (c.u 16 2)).active && (s.job (c.u 16 2)).win == w
      then s.onJob (c.u 16 2) fun x => { x with ckptSelect := false } else s).watch = s.watch := by
    split <;> rfl
  unfold State.undoCkpt
  dsimp only
  generalize (if (decide (c.u 16 2 < 1024) && (s.job (c.u 16 2)).active && (s.job (c.u 16 2)).win == w) = true
      then s.onJob (c.u 16 2) fun x => { x with ckptSelect := false } else s) = u at hselect
  rw [← hselect]
  split
  · split <;> rfl
  · rfl

theorem State.watch_undo (s : State) (w : Nat) (c : Cmd) (r : Option Reply) : (s.undo w c r).watch = s.watch := by
  unfold State.undo
  split
  · rfl
  split
  · exact s.watch_undoCkpt w c
  split
  · rfl
  split
  · rfl
  split
  · split
    · exact foldl_keeps State.watch _ (fun (u : State) (x : Nat × Nat) => (rfl : (u.zeroiseRegion x.1 x.2 false false).watch = u.watch)) _ _
    · rfl
  split
  · exact s.watch_undoStage w
  split
  · split
    · split
      · exact State.watch_of_beside (s.beside_endJob _ _)
      · rfl
    · rfl
  · rfl

theorem State.watch_abortPke (s : State) (w : Nat) : (s.abortPke w).watch = s.watch := by
  obtain ⟨de, h⟩ := s.abortJobs_frame fun j => j.win == some w
  unfold State.abortPke
  dsimp only
  rw [h]
  split
  · split
    · exact (State.watch_of_beside (State.beside_dropPlant _ _)).trans rfl
    · rfl
  · rfl

theorem State.watch_finish (s : State) (w : Nat) (r : Reply) : (s.finish w r).watch = s.watch := by
  cases h : (s.window w).slot.running with
  | none =>
    unfold State.finish
    rw [h]
  | some c =>
    obtain ⟨win, m, hf, -, -⟩ := State.finish_eq h r
    rw [hf]
    rfl

theorem State.watch_endRunning (s : State) (w status : Nat) : (s.endRunning w status).watch = s.watch := by
  unfold State.endRunning
  dsimp only
  split
  · rfl
  · next c _ =>
    rw [State.watch_finish]
    exact (State.watch_abortPke _ w).trans (s.watch_undo w c _)

theorem State.watch_endForecourt (s : State) : s.endForecourt.watch = s.watch := by
  unfold State.endForecourt
  refine foldl_keeps State.watch _ (fun s w => ?_) _ _
  split
  · split
    · rfl
    · exact s.watch_endRunning w stFault
  · rfl

/-- The health unit and the controller's halt as the Forecourt returns. -/
def State.forecourtBack (s : State) : State :=
  { s with
    health := { s.health with fcRestarting := false, fcKick := s.now, fcCrashes := min (s.health.fcCrashes + 1) (2 ^ 32 - 1) }
    lc := { s.lc with fcHalted := false } }

theorem State.fcReturned_eq (s : State) : s.fcReturned = s.forecourtBack.endForecourt.markRestart := rfl
theorem State.watch_markRestart (s : State) : s.markRestart.watch = s.watch := rfl

theorem State.watch_fcReturned (s : State) : s.fcReturned.watch = s.forecourtBack.watch := by
  rw [State.fcReturned_eq, State.watch_markRestart, State.watch_endForecourt]

/-- What the check of an image may change: the copy, the boot's failure and the reads at the flash port. -/
theorem State.choose_frame (want : Nat) (qs : List Nat) (cs : List Candidate) (s : State) (errs : List Bool) (i : Nat) :
    ∃ o m f c d, (State.choose want qs s errs i cs).2
      = { s with out := o, qcMem := m, fcSram := f, boot := { s.boot with failCode := c, failComponent := d } } := by
  have hkeep : ∀ u : State, ∃ o m f c d, u = { u with out := o, qcMem := m, fcSram := f, boot := { u.boot with failCode := c, failComponent := d } } :=
    fun u => ⟨u.out, u.qcMem, u.fcSram, u.boot.failCode, u.boot.failComponent, rfl⟩
  have hcopy : ∀ (u : State) (c : Candidate), ∃ m f, u.copyIn want qs c = { u with qcMem := m, fcSram := f } := by
    intro u c
    unfold State.copyIn
    dsimp only
    split
    · exact ⟨_, u.fcSram, rfl⟩
    · exact ⟨u.qcMem, _, rfl⟩
  have hcheck : ∀ (u : State) (force : Bool) (c : Candidate), ∃ m f, (u.checkImage want qs force c).2 = { u with qcMem := m, fcSram := f } := by
    intro u force c
    unfold State.checkImage
    split
    · dsimp only
      split
      · exact hcopy u c
      · exact ⟨u.qcMem, u.fcSram, rfl⟩
    · exact hcopy u c
  induction cs generalizing s errs i with
  | nil => exact hkeep s
  | cons c r ih =>
    obtain ⟨o, hread⟩ : ∃ o, s.readCandidate c = { s with out := o } := by
      unfold State.readCandidate
      split
      · exact ⟨_, rfl⟩
      · exact ⟨s.out, rfl⟩
    have htry : ∃ m f, (if errs.headD false then (some 9, s.readCandidate c)
        else (s.readCandidate c).checkImage want qs ((s.readCandidate c).runsAnyway want c) c).2 = { s with out := o, qcMem := m, fcSram := f } := by
      rw [hread]
      split
      · exact ⟨s.qcMem, s.fcSram, rfl⟩
      · exact hcheck _ _ c
    unfold State.choose
    dsimp only
    generalize (if errs.headD false then (some 9, s.readCandidate c)
        else (s.readCandidate c).checkImage want qs ((s.readCandidate c).runsAnyway want c) c) = x at htry
    obtain ⟨code, u⟩ := x
    obtain ⟨m, f, hu⟩ := htry
    dsimp only at hu ⊢
    subst hu
    cases code with
    | none => exact ⟨o, m, f, s.boot.failCode, s.boot.failComponent, rfl⟩
    | some code =>
      dsimp only
      split
      · exact ⟨o, m, f, _, _, rfl⟩
      · obtain ⟨o', m', f', c', d', h⟩ := ih (State.noteFail { s with out := o, qcMem := m, fcSram := f } code want) (errs.drop 1) (i + 1)
        exact ⟨o', m', f', c', d', h⟩

theorem State.fcRestart_unchecked {s : State} (h : s.boot.fcImage = none) (errs : List Bool) : s.fcRestart errs = s.fcReturned := by
  unfold State.fcRestart
  rw [h]

theorem State.fcRestart_intact {s : State} {k : Ksi} (h : s.boot.fcImage = some k) (hg : s.copyGood 0 [] k = true) (errs : List Bool) :
    s.fcRestart errs = s.fcReturned := by
  unfold State.fcRestart
  rw [h]
  exact if_pos hg

theorem State.fcRestart_copied {s u : State} {k : Ksi} {t : Taken} {errs : List Bool} (h : s.boot.fcImage = some k) (hg : s.copyGood 0 [] k = false)
    (hc : s.choose 0 [] errs 0 [s.candidate k.area k.offset (ksiHead + k.payloadBytes)] = (some t, u)) :
    s.fcRestart errs = (u.markUnverified t.failed).fcReturned := by
  unfold State.fcRestart
  rw [h]
  exact (if_neg (by rw [hg]; decide)).trans (by rw [hc])

theorem State.fcRestart_fails {s u : State} {k : Ksi} {errs : List Bool} (h : s.boot.fcImage = some k) (hg : s.copyGood 0 [] k = false)
    (hc : s.choose 0 [] errs 0 [s.candidate k.area k.offset (ksiHead + k.payloadBytes)] = (none, u)) : s.fcRestart errs = u := by
  unfold State.fcRestart
  rw [h]
  exact (if_neg (by rw [hg]; decide)).trans (by rw [hc])

/-- The state in which the restart reads its code, after an error has changed a byte of it. -/
def State.upsetBy (s : State) : Option (BitVec 19 × Byte) → State
  | some (a, e) => { s with fcSram := Tab.upd 0 s.fcSram a.toNat fun b => b ^^^ e }
  | none => s

theorem State.upsetBy_frame (s : State) (u : Option (BitVec 19 × Byte)) : ∃ m, s.upsetBy u = { s with fcSram := m } := by
  cases u with
  | none => exact ⟨s.fcSram, rfl⟩
  | some x => exact ⟨_, rfl⟩

theorem exec_fcRestartDone (u : Option (BitVec 19 × Byte)) (errs : List Bool) (s : State) : exec (.fcRestartDone u errs) s
    = act (s.fcRuntime && s.health.fcRestarting) (fun s => (s.upsetBy u).fcRestart errs) s := by
  cases u <;> rfl

/-- A restart that a good copy allows brings the Forecourt back. -/
theorem State.back_settle {s t u : State} (h : t = u.fcReturned) (hu : u.watch = s.watch) (hnow : u.now = s.now) :
    (s.settle t).health.fcRestarting = false ∧ (s.settle t).health.fcKick = s.now ∧ (s.settle t).lc.fcHalted = false
      ∧ (s.settle t).health.fcCrashes = min (s.health.fcCrashes + 1) (2 ^ 32 - 1) := by
  obtain ⟨h1, h2⟩ := State.watch_eq u.watch_fcReturned
  have hhealth : u.health = s.health := (State.watch_eq hu).1
  subst h
  rw [State.settle_health, State.settle_lc]
  dsimp only
  rw [h1, h2, ← hnow, ← hhealth]
  exact ⟨rfl, rfl, rfl, rfl⟩

/-! The Quarters (R267, R376, R377). -/

/-- What a crash and the failure of a Quarter set: its account and its memory. -/
def State.quarters (s : State) : Tab Qc × Tab Byte := (s.health.qc, s.qcMem)

theorem State.quarters_eq {s t : State} (h : t.quarters = s.quarters) : t.health.qc = s.health.qc ∧ t.qcMem = s.qcMem := Prod.mk.inj h

theorem State.quarters_report (s : State) (r : HRec) : (s.report r).quarters = s.quarters :=
  Prod.ext (s.report_qc r) rfl

theorem State.quarters_endJobs (l : List Nat) (status : Nat) (s : State) :
    (l.foldl (fun s j => s.endJob j status) s).quarters = s.quarters :=
  (congrArg State.quarters (State.ground_endJobs l status s) :)

/-- Beside its account the failure of a Quarter changes neither the Quarters nor their memories. -/
theorem State.quarters_qcFails (s : State) (q : Nat) (st : QcState) :
    (s.qcFails q st).quarters = (s.onQc q fun c => { c with state := st }).quarters := by
  unfold State.qcFails
  dsimp only
  rw [State.quarters_report]
  refine (foldl_keeps State.quarters _ (fun u a => ?_) _ _).trans rfl
  exact Eq.trans rfl (State.quarters_endJobs (u.jobsOn a) stFault u)

theorem State.qcOf_qcFails (s : State) (q : Nat) (st : QcState) : (s.qcFails q st).qcOf q = { s.qcOf q with state := st } := by
  refine Eq.trans ?_ (s.qcOf_of_onQc q fun c => { c with state := st })
  exact congrArg (fun x => Tab.get ({} : Qc) x q) (State.quarters_eq (s.quarters_qcFails q st)).1

/-- Where a Quarter's code ends in its memory. -/
def State.qcCodeEnd (s : State) (q : Nat) : Nat := match Tab.get none s.boot.qcImage q with
  | some k => (k.place 1).1 + (k.place 1).2
  | none => 0

/-- A Quarter that was reattached in the last 10 s. -/
def State.qcAgain (s : State) (q : Nat) : Bool := match (s.qcOf q).reattached with
  | some t => decide (s.now ≤ t + 10000000)
  | none => false

/-- The crash of a Quarter as it is recorded, its data region zero. -/
def State.qcNoted (s : State) (q : Nat) (trap : BitVec 32) : State :=
  State.report { s with qcMem := Tab.clear s.qcMem (2 ^ 18 * q + s.qcCodeEnd q) (2 ^ 18 * q + 0xC000) }
    { event := 0x0405, unitKind := 3, unit := q, detail := Bytes.ofNat 4 trap.toNat }

theorem State.qcCrashed_eq (s : State) (q : Nat) (trap : BitVec 32) (ue : Bool) : s.qcCrashed q trap ue
    = if ue || s.qcAgain q then (s.qcNoted q trap).qcFails q .failed else (s.qcNoted q trap).onQc q fun c => { c with state := .restarting } := rfl

theorem State.qcMem_qcNoted (s : State) (q : Nat) (trap : BitVec 32) {x : Nat} (hlo : 2 ^ 18 * q + s.qcCodeEnd q ≤ x)
    (hhi : x < 2 ^ 18 * q + 0xC000) : Tab.get 0 (s.qcNoted q trap).qcMem x = 0 := by
  show Tab.get 0 (Tab.clear s.qcMem _ _) x = 0
  rw [Tab.get_clear, if_pos ⟨hlo, hhi⟩]

theorem State.settle_qcOf (s t : State) (q : Nat) : (s.settle t).qcOf q = t.qcOf q := by
  unfold State.qcOf
  rw [State.settle_health]

theorem reaches_qcCrashed {c : Instr} {s : State} {g : Bool} {f : State → State} {trap : BitVec 32} {q : Nat} {ue : Bool}
    (he : exec c s = act g f s) (hl : s.live = true) (hg : g = true) (hf : f s = s.qcCrashed q trap ue) : Reaches c s fun t =>
      (t.qcOf q).state = (if ue || s.qcAgain q then QcState.failed else QcState.restarting)
      ∧ ∀ x, 2 ^ 18 * q + s.qcCodeEnd q ≤ x → x < 2 ^ 18 * q + 0xC000 → Tab.get 0 t.qcMem x = 0 := by
  refine reaches_act he hl hg ?_
  rw [hf, State.settle_qcOf, State.settle_qcMem, State.qcCrashed_eq]
  split
  · rw [State.qcOf_qcFails, (State.quarters_eq (State.quarters_qcFails _ q _)).2]
    exact ⟨rfl, fun x => s.qcMem_qcNoted q trap⟩
  · rw [State.qcOf_of_onQc]
    exact ⟨rfl, fun x => s.qcMem_qcNoted q trap⟩

theorem State.qcOf_of_choose {want : Nat} {qs : List Nat} {cs : List Candidate} {s u : State} {errs : List Bool} {i : Nat} {t : Option Taken}
    (h : State.choose want qs s errs i cs = (t, u)) (q : Nat) : u.qcOf q = s.qcOf q ∧ u.now = s.now ∧ u.watch = s.watch
      ∧ u.boot.qcStaged = s.boot.qcStaged ∧ u.plans = s.plans := by
  obtain ⟨o, m, f, c, d, hu⟩ := State.choose_frame want qs cs s errs i
  rw [h] at hu
  dsimp only at hu
  rw [hu]
  exact ⟨rfl, rfl, rfl, rfl, rfl⟩

theorem State.qcReattach_loads {s u : State} {q : Nat} {e : Bool} {k : Ksi} {t : Taken} (hstate : (s.qcOf q).state ≠ .restarting)
    (hk : Tab.get none s.boot.qcImage q = some k)
    (hc : s.choose 1 [q] [e] 0 [s.candidate k.area k.offset (ksiHead + k.payloadBytes)] = (some t, u)) :
    s.qcReattach q e = (u.markUnverified t.failed).qcBack q := by
  unfold State.qcReattach
  rw [if_neg (by simpa using hstate), hk]
  dsimp only
  rw [hc]

theorem State.qcReattach_fails {s u : State} {q : Nat} {e : Bool} {k : Ksi} (hstate : (s.qcOf q).state ≠ .restarting)
    (hk : Tab.get none s.boot.qcImage q = some k)
    (hc : s.choose 1 [q] [e] 0 [s.candidate k.area k.offset (ksiHead + k.payloadBytes)] = (none, u)) : s.qcReattach q e = u := by
  unfold State.qcReattach
  rw [if_neg (by simpa using hstate), hk]
  dsimp only
  rw [hc]

theorem State.qcOf_qcBack (s : State) (q : Nat) : (s.qcBack q).qcOf q = { s.qcOf q with
    state := .running, crashes := min 255 ((s.qcOf q).crashes + 1), reattached := some s.now, lastKick := s.now } :=
  s.qcOf_of_onQc q fun c => { c with state := .running, crashes := min 255 (c.crashes + 1), reattached := some s.now, lastKick := s.now }

/-- A Quarter whose staged image is taken up. -/
def State.unstaged (s : State) (q : Nat) : State := { s with boot := { s.boot with qcStaged := Tab.set none s.boot.qcStaged q none } }

theorem State.qcActivate_none {s : State} {q : Nat} (h : (s.stagedCandidates 1).head? = none) (e : Bool) : s.qcActivate q e = s := by
  unfold State.qcActivate
  rw [h]

theorem State.qcActivate_loads {s u : State} {q : Nat} {e : Bool} {c : Candidate} {t : Taken} (h : (s.stagedCandidates 1).head? = some c)
    (hc : (s.unstaged q).choose 1 [q] [e] 0 [c] = (some t, u)) :
    s.qcActivate q e = ((u.markUnverified t.failed).extendImage 6 q c.ksi false t.failed).releaseQc q c.ksi := by
  unfold State.unstaged at hc
  unfold State.qcActivate
  rw [h]
  dsimp only
  rw [hc]

theorem State.qcActivate_fails {s u : State} {q : Nat} {e : Bool} {c : Candidate} (h : (s.stagedCandidates 1).head? = some c)
    (hc : (s.unstaged q).choose 1 [q] [e] 0 [c] = (none, u)) :
    s.qcActivate q e = if u.copyGood 1 [q] c.ksi || u.boot.failCode != 8 then u else u.qcFails q .failed := by
  unfold State.unstaged at hc
  unfold State.qcActivate
  rw [h]
  dsimp only
  rw [hc]

theorem Boot.qcStaged_extend (b : Boot) (mr component flags index svn word : Nat) (m : BitVec 384) :
    (b.extend mr component flags index svn word m).qcStaged = b.qcStaged := by
  unfold Boot.extend
  split
  · rfl
  · dsimp only
    split
    · rfl
    · split <;> rfl

theorem State.qcStaged_qcFails (s : State) (q : Nat) (st : QcState) : (s.qcFails q st).boot.qcStaged = s.boot.qcStaged := by
  unfold State.qcFails
  dsimp only
  refine Eq.trans (b := (State.boot (List.foldl _ _ _)).qcStaged) rfl ?_
  refine (foldl_keeps (fun u : State => u.boot.qcStaged) _ (fun u a => ?_) _ _).trans rfl
  exact (congrArg (fun v : State => v.boot.qcStaged) (State.ground_endJobs (u.jobsOn a) stFault u) :)

/-- The Forecourt runs again from this device time. -/
def State.Back (s t : State) : Prop := t.health.fcRestarting = false ∧ t.health.fcKick = s.now ∧ t.lc.fcHalted = false
  ∧ t.health.fcCrashes = min (s.health.fcCrashes + 1) (2 ^ 32 - 1)

theorem reaches_fcRestartDone {s : State} (upset : Option (BitVec 19 × Byte)) (errs : List Bool) (hl : s.live = true) (hstep : 7 ≤ s.boot.step)
    (hdown : s.health.fcRestarting = true) : (s.boot.fcImage = none → Reaches (.fcRestartDone upset errs) s s.Back)
    ∧ ∀ k, s.boot.fcImage = some k →
      let x := (s.upsetBy upset).choose 0 [] errs 0 [(s.upsetBy upset).candidate k.area k.offset (ksiHead + k.payloadBytes)]
      ((s.upsetBy upset).copyGood 0 [] k = true ∨ x.1.isSome = true → Reaches (.fcRestartDone upset errs) s s.Back)
      ∧ ((s.upsetBy upset).copyGood 0 [] k = false → x.1 = none → Reaches (.fcRestartDone upset errs) s fun t =>
          t.health.fcRestarting = true ∧ t.health.fcCrashes = s.health.fcCrashes ∧ t.plans = s.plans) := by
  have hg : (s.fcRuntime && s.health.fcRestarting) = true := by simp [State.fcRuntime, hstep, hdown]
  have he := exec_fcRestartDone upset errs s
  obtain ⟨m, hm⟩ := s.upsetBy_frame upset
  have himage : (s.upsetBy upset).boot.fcImage = s.boot.fcImage := by rw [hm]
  have hwatch : (s.upsetBy upset).watch = s.watch := by rw [hm]; rfl
  have hnow : (s.upsetBy upset).now = s.now := by rw [hm]; rfl
  have hplans : (s.upsetBy upset).plans = s.plans := by rw [hm]
  have hback : ∀ u : State, (s.upsetBy upset).fcRestart errs = u.fcReturned → u.watch = s.watch → u.now = s.now →
      Reaches (.fcRestartDone upset errs) s s.Back := fun u hu hw hn =>
    reaches_act he hl hg (State.back_settle hu hw hn)
  refine ⟨fun hnone => hback _ (State.fcRestart_unchecked (himage.trans hnone) errs) hwatch hnow, fun k hk => ?_⟩
  dsimp only
  obtain ⟨x, u, hc⟩ : ∃ x u, (s.upsetBy upset).choose 0 [] errs 0
      [(s.upsetBy upset).candidate k.area k.offset (ksiHead + k.payloadBytes)] = (x, u) := ⟨_, _, rfl⟩
  obtain ⟨-, hunow, huwatch, -, huplans⟩ := State.qcOf_of_choose hc 0
  rw [hc]
  cases hgood : (s.upsetBy upset).copyGood 0 [] k with
  | true =>
    exact ⟨fun _ => hback _ (State.fcRestart_intact (himage.trans hk) hgood errs) hwatch hnow, fun h => nomatch h⟩
  | false =>
    cases x with
    | some t =>
      dsimp only
      refine ⟨fun _ => hback (u.markUnverified t.failed) (State.fcRestart_copied (himage.trans hk) hgood hc) ?_ ?_, fun _ h => (nomatch h)⟩
      · exact Eq.trans rfl (huwatch.trans hwatch)
      · exact Eq.trans rfl (hunow.trans hnow)
    | none =>
      dsimp only
      refine ⟨fun h => h.elim (fun h => (nomatch h)) fun h => (nomatch h), fun _ _ => reaches_act he hl hg ?_⟩
      rw [State.fcRestart_fails (himage.trans hk) hgood hc, State.settle_health, State.settle_plans]
      obtain ⟨hh, -⟩ := State.watch_eq (huwatch.trans hwatch)
      dsimp only
      rw [hh]
      exact ⟨hdown, rfl, huplans.trans hplans⟩

theorem State.settle_qcBack (s : State) (q : Nat) :
    s.settle (s.qcBack q) = { s with health := (s.settle (s.qcBack q)).health, win := (s.settle (s.qcBack q)).win } := by
  refine (s.settle_frame (s.qcBack q)).trans ?_
  rw [State.settle_health]
  rfl

theorem reaches_qcReattach_running {s : State} {q : Fin 4} (hl : s.live = true) (hq : (s.qcOf q.val).state = .restarting) (e : Bool) :
    Reaches (.qcReattach q e) s fun t => t = { s with health := t.health, win := t.win }
      ∧ t.qcOf q.val = { s.qcOf q.val with
          state := .running, crashes := min 255 ((s.qcOf q.val).crashes + 1), reattached := some s.now, lastKick := s.now }
      ∧ ∀ p, p ≠ q.val → t.qcOf p = s.qcOf p := by
  have hrow : s.qcReattach q.val e = s.qcBack q.val := if_pos (by simp [hq])
  refine reaches_act (exec_qcReattach q e s) hl (by simp [hq]) ?_
  rw [hrow]
  refine ⟨?_, ?_, fun p hp => ?_⟩
  · exact s.settle_qcBack q.val
  · rw [State.settle_qcOf, State.qcOf_qcBack]
  · rw [State.settle_qcOf]
    exact s.qcOf_of_onQc_other _ hp

theorem reaches_qcReattach_lost {s : State} {q : Fin 4} (hl : s.live = true) (hq : (s.qcOf q.val).state = .failed ∨ (s.qcOf q.val).state = .detached)
    (hfc : s.fcUp = true) {k : Ksi} (hk : Tab.get none s.boot.qcImage q.val = some k) (e : Bool) :
    let x := s.choose 1 [q.val] [e] 0 [s.candidate k.area k.offset (ksiHead + k.payloadBytes)]
    Reaches (.qcReattach q e) s fun t =>
      (x.1.isSome = true → t.qcOf q.val = { s.qcOf q.val with
        state := .running, crashes := min 255 ((s.qcOf q.val).crashes + 1), reattached := some s.now, lastKick := s.now })
      ∧ (x.1 = none → t.qcOf q.val = s.qcOf q.val) := by
  have hstate : (s.qcOf q.val).state ≠ .restarting ∧ (s.qcOf q.val).state ≠ .running := by rcases hq with h | h <;> rw [h] <;> decide
  have hg : ((s.qcOf q.val).state == .restarting || ((s.qcOf q.val).state != .running && s.fcUp)) = true := by simp [hstate.2, hfc]
  dsimp only
  obtain ⟨x, u, hc⟩ : ∃ x u, s.choose 1 [q.val] [e] 0 [s.candidate k.area k.offset (ksiHead + k.payloadBytes)] = (x, u) := ⟨_, _, rfl⟩
  obtain ⟨hqc, hnow, -, -, -⟩ := State.qcOf_of_choose hc q.val
  rw [hc]
  refine reaches_act (exec_qcReattach q e s) hl hg ?_
  rw [State.settle_qcOf]
  cases x with
  | some t =>
    dsimp only
    have hmark : (u.markUnverified t.failed).qcOf q.val = s.qcOf q.val := hqc
    have hmarkNow : (u.markUnverified t.failed).now = s.now := hnow
    rw [State.qcReattach_loads hstate.1 hk hc, State.qcOf_qcBack, hmark, hmarkNow]
    exact ⟨fun _ => rfl, fun h => nomatch h⟩
  | none =>
    dsimp only
    rw [State.qcReattach_fails hstate.1 hk hc]
    exact ⟨fun h => (nomatch h), fun _ => hqc⟩

theorem reaches_qcActivate {s : State} {q : Fin 4} (hl : s.live = true)
    (hg : (s.fcUp && (Tab.get none s.boot.qcStaged q.val).isSome && s.drained q.val && (s.qcOf q.val).state == .running) = true)
    {c : Candidate} (hc : (s.stagedCandidates 1).head? = some c) (e : Bool) :
    let x := (s.unstaged q.val).choose 1 [q.val] [e] 0 [c]
    Reaches (.qcActivate q e) s fun t => Tab.get none t.boot.qcStaged q.val = none
      ∧ (x.1.isSome = true → t.qcOf q.val = { s.qcOf q.val with lastKick := s.now } ∧ Tab.get none t.boot.qcImage q.val = some c.ksi)
      ∧ (x.1 = none → x.2.copyGood 1 [q.val] c.ksi = true ∨ x.2.boot.failCode ≠ 8 → t.qcOf q.val = s.qcOf q.val)
      ∧ (x.1 = none → x.2.copyGood 1 [q.val] c.ksi = false → x.2.boot.failCode = 8 → (t.qcOf q.val).state = .failed) := by
  dsimp only
  obtain ⟨x, u, hx⟩ : ∃ x u, (s.unstaged q.val).choose 1 [q.val] [e] 0 [c] = (x, u) := ⟨_, _, rfl⟩
  obtain ⟨hqc, hnow, -, hstaged, -⟩ := State.qcOf_of_choose hx q.val
  have hnone : Tab.get none u.boot.qcStaged q.val = none := by
    rw [hstaged]
    exact Tab.get_set_same none s.boot.qcStaged q.val none
  rw [hx]
  refine reaches_act (exec_qcActivate q e s) hl hg ?_
  rw [State.settle_boot, State.settle_qcOf]
  cases x with
  | some t =>
    dsimp only
    rw [State.qcActivate_loads hc hx]
    refine ⟨?_, fun _ => ⟨?_, Tab.get_set_same (none : Option Ksi) _ q.val (some c.ksi)⟩, fun h => (nomatch h), fun h => nomatch h⟩
    · show Tab.get none (Boot.extend _ _ _ _ _ _ _ _).qcStaged q.val = none
      rw [Boot.qcStaged_extend]
      exact hnone
    · refine (State.qcOf_of_onQc _ q.val fun c => { c with lastKick := u.now }).trans ?_
      have hkept : State.qcOf { ((u.markUnverified t.failed).extendImage 6 q.val c.ksi false t.failed) with
          boot := { ((u.markUnverified t.failed).extendImage 6 q.val c.ksi false t.failed).boot with
            qcRunning := Tab.set 0 ((u.markUnverified t.failed).extendImage 6 q.val c.ksi false t.failed).boot.qcRunning q.val c.ksi.versionWord
            qcImage := Tab.set none ((u.markUnverified t.failed).extendImage 6 q.val c.ksi false t.failed).boot.qcImage q.val (some c.ksi) } }
          q.val = u.qcOf q.val := rfl
      rw [hkept, hqc, hnow]
      rfl
  | none =>
    dsimp only
    rw [State.qcActivate_fails hc hx]
    refine ⟨?_, fun h => (nomatch h), fun _ h => ?_, fun _ hbad hcode => ?_⟩
    · split
      · exact hnone
      · rw [State.qcStaged_qcFails]
        exact hnone
    · rw [if_pos (by simpa using h)]
      exact hqc
    · rw [if_neg (by simp [hbad, hcode]), State.qcOf_qcFails]

/-- Settles O49; the restart of a Forecourt whose code is copied again is log entry 28, the Quarters' choice of image 101 and
the lanes' choice of record 108. -/
theorem controllersFailAndReturn : Obligations.ControllersFailAndReturn := by
  unfold Obligations.ControllersFailAndReturn
  refine ⟨fun s hs hstep => ?_, fun s q hs hq => ?_, fun s l hs => ⟨fun hnone => ?_, fun cs seq k since x hitem hx hone => ?_⟩,
    fun s c trap hl hstep hup hc => ?_, fun s upset errs hl hstep hdown => ?_, fun s q c trap ue hl hq hc => ?_, fun s q hl => ⟨fun hq => ?_, ?_⟩,
    fun s q k hs hfc hk hd hq => ⟨fun e hnone => ?_, fun c e hc => ?_⟩⟩
  case refine_1 => exact exec_act_to (exec_fcWdogKick s) hs.1 (by simpa using hstep) rfl hs.2 rfl
  case refine_2 =>
    exact reaches_act_to (exec_qcWdogKick q s) hs.1 (by simpa using hq) rfl (hs.2.onQc fun _ => rfl) rfl
      ⟨rfl, s.qcOf_of_onQc q.val _, fun p hp => s.qcOf_of_onQc_other _ hp⟩
  case refine_3 => exact (exec_laneWdogExpiry_none l hnone).trans (act_idle (Bool.and_false _))
  case refine_4 =>
    have hslot := s.slotOf_onSlot cs seq (f := fun y => y.restart k s.now) fun y => y.seq_restart k s.now
    obtain ⟨hflag, hcount⟩ := (s.onSlot cs seq fun y => y.restart k s.now).report_unit
      (r := { event := 0x0407, unitKind := 5, unit := l.val }) (show eventClass 0x0407 = 4 from rfl)
    refine reaches_act_to (exec_laneWdogExpiry_some l hitem) hs.1 rfl rfl (State.report_synced hs.2 _) rfl ⟨rfl, ?_, hflag, hcount⟩
    rw [State.slotOf_report, hslot, hx]
    rfl
  case refine_5 =>
    rcases hc with rfl | ⟨rfl, hkick⟩
    · exact reaches_fcCrashed (exec_fcCrash trap s) hl (by simp [State.fcRuntime, hstep, hup]) rfl
    · exact reaches_fcCrashed (exec_fcWdogExpiry s) hl (by simp [State.fcRuntime, hstep, hup, hkick]) rfl
  case refine_6 => exact reaches_fcRestartDone upset errs hl hstep hdown
  case refine_7 =>
    rcases hc with rfl | ⟨rfl, rfl, hkick⟩
    · exact reaches_qcCrashed (exec_qcCrash q trap ue s) hl hq rfl
    · exact reaches_qcCrashed (exec_qcWdogExpiry q s) hl (by simp [hq, hkick]) rfl
  case refine_8 =>
    refine ⟨fun e => reaches_qcReattach_running hl hq e, fun hdue => reaches_act (exec_qcDetachExpiry q s) hl (by simp [hq, hdue]) ?_⟩
    rw [State.settle_qcOf, State.qcOf_qcFails]
  case refine_9 => exact fun k e hq hfc hk => reaches_qcReattach_lost hl hq hfc hk e
  case refine_10 =>
    exact exec_act_to (exec_qcActivate q e s) hs.1 (by simp [hfc, hk, hd, hq]) (State.qcActivate_none hnone e) hs.2 rfl
  case refine_11 => exact reaches_qcActivate hs.1 (by simp [hfc, hk, hd, hq]) hc e

end Sys2Proof.Machine
end


-- ==== Sys2Proof/Proofs/DualRuns.lean ====
section
/-! PROOFS. Dual runs, their referee, and the shadow runs of PROBATION (R191, R193 to R196, R199). -/

namespace Sys2Proof.Machine

theorem exec_dualCompare {s : State} {cs : Cs} {x : SlotRun} {p : Plan} (hp : (s.plan (s.stream cs.val).win).running = some p)
    (hx : ((s.stream cs.val).slots.find? fun y =>
      y.dual == .waiting && !y.fault && y.rseq != 0 && y.groupDone 0 && (s.otherRun cs.val y).isSome) = some x) :
    exec (.dualCompare cs []) s = act true (fun s =>
      if s.otherRun cs.val x = some (x.outcome x.len 0) then s.dualEqual cs.val p x (x.outcome x.len 0) else s.dualDiffer cs.val p x) s := by
  show execDualCompare cs [] s = _
  unfold execDualCompare
  dsimp only
  rw [hx, hp]
  rfl

theorem exec_dualRefereeComplete {s : State} {cs : Cs} {x : SlotRun} {p : Plan} (hp : (s.plan (s.stream cs.val).win).running = some p)
    (hx : ((s.stream cs.val).slots.find? fun y => (y.dual == .referee || y.dual == .equal) && !y.fault && y.groupDone 2) = some x) :
    exec (.dualRefereeComplete cs []) s = act true (fun s => s.refereeSlot cs.val p x) s := by
  show execDualRefereeComplete cs [] s = _
  unfold execDualRefereeComplete
  dsimp only
  rw [hx, hp]
  rfl

theorem exec_shadowRunComplete {s : State} {a : Arc} {x : Shadow}
    (hx : ((s.arcade a.val).shadowWork.find? fun y => y.want.isSome && (y.check.isSome || y.mine.isSome)) = some x) :
    exec (.shadowRunComplete a []) s = act ((s.arcade a.val).noControl && (s.arcade a.val).integ == .probation)
      (fun s => s.shadowRan a.val x []) s := by
  show execShadowRunComplete a [] s = _
  unfold execShadowRunComplete
  dsimp only
  rw [hx]

/-! Records of a slot. -/

theorem State.slotRecord_new (s : State) (cs : Nat) (x : SlotRun) (status : Nat) (c : Option (Bytes × BitVec 3)) (b : Bool) :
    (s.slotRecord cs x status c b).status = status ∧ (s.slotRecord cs x status c b).ready = false := by
  unfold State.slotRecord State.sealRecord
  dsimp only
  split <;> exact ⟨rfl, rfl⟩

theorem State.slotOf_formComputed {s : State} {cs seq : Nat} {x : SlotRun} (h : s.slotOf cs seq = some x) (b : Bytes) (f : BitVec 3) (c : Bool) :
    ∃ r : Record, (s.formComputed cs seq b f c).slotOf cs seq = some { x with computed := some r } ∧ r.status = rsOk ∧ r.ready = false := by
  unfold State.formComputed
  rw [h]
  exact ⟨_, (State.slotOf_onSlot s cs seq (f := fun y => { y with computed := some (s.slotRecord cs x rsOk (some (b, f)) c) })
    fun _ => rfl).trans (congrArg (Option.map _) h), s.slotRecord_new cs x rsOk _ _⟩

theorem State.slotOf_formMismatch {s : State} {cs seq : Nat} {x : SlotRun} (h : s.slotOf cs seq = some x) :
    ∃ m, (s.formMismatch cs seq).slotOf cs seq = some { x with mismatch := m }
      ∧ (x.released = none → ∃ r : Record, m = some r ∧ r.status = rsMismatch) := by
  unfold State.formMismatch
  rw [h]
  dsimp only
  split
  · next hr => exact ⟨x.mismatch, h, fun hn => by simp [hn] at hr⟩
  · exact ⟨_, (State.slotOf_onSlot s cs seq (f := fun y => { y with mismatch := some (s.slotRecord cs x rsMismatch none false) })
      fun _ => rfl).trans (congrArg (Option.map _) h), fun _ => ⟨_, rfl, (s.slotRecord_new cs x rsMismatch none false).1⟩⟩

/-! What keeps the slots of a stream. -/

/-- A change of a stream that keeps its slots. -/
theorem State.slotOf_onStream (s : State) (cs seq : Nat) {f : Stream → Stream} (h : ∀ st, (f st).slots = st.slots) :
    (s.onStream cs f).slotOf cs seq = s.slotOf cs seq := by
  unfold State.slotOf
  rw [State.stream_of_onStream, h]

theorem State.win_onSlot (s : State) (cs seq : Nat) (f : SlotRun → SlotRun) : ((s.onSlot cs seq f).stream cs).win = (s.stream cs).win :=
  (congrArg Stream.win (s.stream_of_onStream cs fun st => { st with slots := st.slots.map fun x => if x.seq = seq then f x else x })).trans rfl

theorem State.streams_zeroBuffer (s : State) (sc : Nat) (b : Buffer) : (s.zeroBuffer sc b).streams = s.streams := by
  unfold State.zeroBuffer
  split
  · rfl
  · exact State.sessionFault_streams _ _ _

theorem State.streams_reportInteg (s : State) (r : IntegRec) : (s.reportInteg r).streams = s.streams := rfl
theorem State.streams_settleSlotShadow (s : State) (cs seq : Nat) (w : Option Outcome1) : (s.settleSlotShadow cs seq w).streams = s.streams := rfl

theorem State.streams_checkPass (s : State) (c : Nat) : (s.checkPass c).streams = s.streams := by
  unfold State.checkPass
  dsimp only
  split
  · split <;> rfl
  · rfl

theorem State.streams_checkPasses (l : List Nat) (s : State) : (l.foldl (fun s c => s.checkPass c) s).streams = s.streams :=
  foldl_keeps State.streams _ State.streams_checkPass l s

theorem State.streams_verdict (s : State) (c : Nat) (t : Bool) : (s.verdict c t).streams = s.streams := by
  unfold State.verdict
  dsimp only
  split
  · split
    · split <;> rfl
    · split <;> rfl
  · split <;> rfl

theorem State.streams_of_under {s t : State} (h : t.under = s.under) : t.streams = s.streams := (congrArg State.streams h :)

theorem State.streams_retireUnit (s : State) (a : Nat) : (s.retireUnit a).streams = s.streams := State.streams_of_under (s.under_retireUnit a)

/-! An unresolved slot (R195). -/

theorem State.slotOf_unresolved {s : State} {cs kind : Nat} {x y : SlotRun} {p : Plan} (hp : (s.plan (s.stream cs).win).running = some p)
    (hy : s.slotOf cs x.seq = some y) : ∃ z, (s.unresolved cs x kind).slotOf cs x.seq = some z ∧ z.dual = .mismatch
      ∧ (x.dual ≠ .referee → y.released = none → ∃ r, z.mismatch = some r ∧ r.status = rsMismatch) := by
  obtain ⟨m, hm, hmis⟩ : ∃ m, (if x.dual == .referee then s else s.formMismatch cs x.seq).slotOf cs x.seq = some { y with mismatch := m }
      ∧ (x.dual ≠ .referee → y.released = none → ∃ r : Record, m = some r ∧ r.status = rsMismatch) := by
    split
    · next h => exact ⟨y.mismatch, hy, fun hne => absurd (beq_iff_eq.mp h) hne⟩
    · obtain ⟨m, hm, hr⟩ := State.slotOf_formMismatch hy
      exact ⟨m, hm, fun _ => hr⟩
  unfold State.unresolved
  rw [hp]
  dsimp only
  generalize (if x.dual == .referee then s else s.formMismatch cs x.seq) = u at hm
  obtain ⟨z, hz, hdual, hrec⟩ : ∃ z, (u.onSlot cs x.seq fun y => { y with dual := .mismatch, runners := y.runners.filter fun r => r.2 != 2 }).slotOf
      cs x.seq = some z ∧ z.dual = .mismatch ∧ z.mismatch = m :=
    ⟨_, (State.slotOf_onSlot u cs x.seq (f := fun y => { y with dual := .mismatch, runners := y.runners.filter fun r => r.2 != 2 })
      fun _ => rfl).trans (congrArg (Option.map _) hm), rfl, rfl⟩
  generalize (u.onSlot cs x.seq fun y => { y with dual := .mismatch, runners := y.runners.filter fun r => r.2 != 2 }) = v at hz
  subst hrec
  refine ⟨z, ?_, hdual, hmis⟩
  generalize v.runEntries p cs = e
  obtain ⟨r0, r1, ref⟩ := e
  dsimp only
  refine (State.slotOf_of_streams (State.streams_reportInteg _ _) cs x.seq).trans ?_
  refine (State.slotOf_of_streams (State.streams_settleSlotShadow _ cs x.seq none) cs x.seq).trans ?_
  refine (State.slotOf_onStream _ cs x.seq (f := fun st => { st with tainted := st.tainted || v.hasState cs }) fun _ => rfl).trans ?_
  refine (State.slotOf_of_streams (foldl_keeps State.streams _ (fun w b => w.streams_zeroBuffer _ b) _ v) cs x.seq).trans ?_
  exact hz

/-! The comparison of two runs (R193, R195). -/

theorem State.slotOf_dualEqual {s : State} {cs : Nat} {x y : SlotRun} (hy : s.slotOf cs x.seq = some y) (p : Plan) (o : Outcome1) :
    ∃ z r, (s.dualEqual cs p x o).slotOf cs x.seq = some z ∧ z.dual = .equal ∧ z.computed = some r ∧ r.status = rsOk ∧ r.ready = false := by
  have hset := State.slotOf_onSlot s cs x.seq (f := fun y => { y with dual := .equal }) fun _ => rfl
  rw [hy] at hset
  obtain ⟨r, hr, hstatus, hready⟩ := State.slotOf_formComputed hset o.payload o.flags true
  refine ⟨_, r, Eq.trans ?_ hr, rfl, rfl, hstatus, hready⟩
  unfold State.dualEqual
  dsimp only
  generalize (State.formComputed _ cs x.seq o.payload o.flags true) = u
  split
  · exact State.slotOf_of_streams (State.streams_settleSlotShadow _ cs x.seq _) cs x.seq
  · refine State.slotOf_of_streams ((State.streams_checkPasses _ _).trans ?_) cs x.seq
    exact (State.streams_settleSlotShadow _ cs x.seq _).trans (State.streams_copyBuffers _ _ _ _)

/-- A slot whose runs differ, with the time of the detection. -/
def State.detected (s : State) (cs : Nat) (x : SlotRun) : State := s.onSlot cs x.seq fun y => { y with detect := s.now }

theorem State.slotOf_detected {s : State} {cs : Nat} {x y : SlotRun} (hy : s.slotOf cs x.seq = some y) :
    (s.detected cs x).slotOf cs x.seq = some { y with detect := s.now } :=
  (State.slotOf_onSlot s cs x.seq (f := fun y => { y with detect := s.now }) fun _ => rfl).trans (congrArg (Option.map _) hy)

theorem State.runEntries_detected (s : State) (cs : Nat) (x : SlotRun) (p : Plan) : (s.detected cs x).runEntries p cs = s.runEntries p cs := by
  have hwin : ((s.detected cs x).stream cs).win = (s.stream cs).win := s.win_onSlot cs x.seq _
  unfold State.runEntries State.streamMask
  rw [hwin]
  rfl

theorem State.bufferOk_detected (s : State) (cs : Nat) (x : SlotRun) (unit sc : Nat) (b : Buffer) :
    (s.detected cs x).bufferOk unit sc b = s.bufferOk unit sc b := rfl

theorem State.entriesOf_detected (s : State) (cs : Nat) (x y : SlotRun) (hr : y.runners = x.runners) (p : Plan) (g : Nat) :
    (s.detected cs x).entriesOf p cs y g = s.entriesOf p cs x g := by
  unfold State.entriesOf
  rw [s.runEntries_detected cs x p, hr]

/-- With no referee to run, runs that differ leave the slot unresolved. -/
theorem State.dualDiffer_alone {s : State} {cs : Nat} {x : SlotRun} {p : Plan} (h3 : (x.runners.any fun r => r.2 == 2) = false)
    (href : (s.runEntries p cs).2.2 = []) :
    s.dualDiffer cs p x = (s.detected cs x).unresolved cs { x with detect := (s.detected cs x).now } 7 := by
  have hentries := congrArg (fun e => e.2.2) (s.runEntries_detected cs x p)
  unfold State.dualDiffer
  refine if_pos ?_
  show (!(x.runners.any fun r => r.2 == 2) && (!((s.detected cs x).allUsable p cs ((s.detected cs x).runEntries p cs).2.2) || _)) = true
  rw [h3, hentries, href]
  rfl

/-- A referee that runs already goes on where both runs had the same inputs. -/
theorem State.dualDiffer_three {s : State} {cs : Nat} {x : SlotRun} {p : Plan} (h3 : (x.runners.any fun r => r.2 == 2) = true)
    (hok : ∀ b ∈ p.inputOf (s.entriesOf p cs x 0) ++ p.inputOf (s.entriesOf p cs x 1),
      s.bufferOk (0x10 + segOf b.base) (s.stream cs).session b = true) :
    s.dualDiffer cs p x = if !(p.inputOf (s.entriesOf p cs x 1)).isEmpty
        && s.contents (p.inputOf (s.entriesOf p cs x 0)) != s.contents (p.inputOf (s.entriesOf p cs x 1))
      then (s.detected cs x).unresolved cs { x with detect := (s.detected cs x).now } 8
      else ((s.detected cs x).formMismatch cs x.seq).onSlot cs x.seq fun y => { y with dual := .referee } := by
  have hin : ∀ g, (s.detected cs x).entriesOf p cs { x with detect := (s.detected cs x).now } g = s.entriesOf p cs x g :=
    s.entriesOf_detected cs x _ rfl p
  have hnone : (p.inputOf (s.entriesOf p cs x 0) ++ p.inputOf (s.entriesOf p cs x 1)).find?
      (fun b => !(s.detected cs x).bufferOk (0x10 + segOf b.base) (s.stream cs).session b) = none := by
    rw [List.find?_eq_none]
    intro b hb
    rw [State.bufferOk_detected, hok b hb]
    decide
  have hfirst : (!(x.runners.any fun r => r.2 == 2) && (!((s.detected cs x).allUsable p cs ((s.detected cs x).runEntries p cs).2.2)
      || ((s.detected cs x).runEntries p cs).2.2.any fun e => x.runners.any fun r => r.1 == p.arcadeOf e)) = false := by
    rw [h3]
    rfl
  unfold State.dualDiffer
  refine (if_neg (by exact ne_true_of_eq_false hfirst)).trans ?_
  dsimp only
  rw [show (s.onSlot cs x.seq fun y => { y with detect := s.now }) = s.detected cs x from rfl, hin, hin, hnone]
  dsimp only
  rw [h3, if_pos rfl]
  rfl

theorem State.slotOf_referee {s : State} {cs seq : Nat} {x : SlotRun} (h : s.slotOf cs seq = some x) :
    ∃ z, ((s.formMismatch cs seq).onSlot cs seq fun y => { y with dual := .referee }).slotOf cs seq = some z ∧ z.dual = .referee
      ∧ (x.released = none → ∃ r, z.mismatch = some r ∧ r.status = rsMismatch) := by
  obtain ⟨m, hm, hmis⟩ := State.slotOf_formMismatch h
  have hset := State.slotOf_onSlot (s.formMismatch cs seq) cs seq (f := fun y => { y with dual := .referee }) fun _ => rfl
  rw [hm] at hset
  exact ⟨_, hset, rfl, hmis⟩

/-! The referee's run ends (R195, R196). -/

theorem State.slotOf_settleRepeat (s : State) (cs : Nat) (x : SlotRun) (out : Option Nat) (seq : Nat) :
    (s.settleRepeat cs x out).slotOf cs seq = s.slotOf cs seq := by
  unfold State.settleRepeat
  split
  · rfl
  · next a0 seq0 ic0 found _ =>
    dsimp only
    have hverdict : (if (s.stream cs).repeatDue then
        ((s.verdict a0 (out != some a0)).onStream cs fun st => { st with repeatDue := false }).reportInteg
          (((s.verdict a0 (out != some a0)).onStream cs fun st => { st with repeatDue := false }).slotInteg cs seq0 ic0 6
            (if (out != some a0) = true then 1 else 2) a0 { x with detect := found } false) else s).slotOf cs seq = s.slotOf cs seq := by
      split
      · refine (State.slotOf_of_streams (State.streams_reportInteg _ _) cs seq).trans ?_
        refine (State.slotOf_onStream _ cs seq (f := fun st => { st with repeatDue := false }) fun _ => rfl).trans ?_
        exact State.slotOf_of_streams (State.streams_verdict s _ _) cs seq
      · rfl
    generalize (if (s.stream cs).repeatDue then
        ((s.verdict a0 (out != some a0)).onStream cs fun st => { st with repeatDue := false }).reportInteg
          (((s.verdict a0 (out != some a0)).onStream cs fun st => { st with repeatDue := false }).slotInteg cs seq0 ic0 6
            (if (out != some a0) = true then 1 else 2) a0 { x with detect := found } false) else s) = u at hverdict
    split
    · exact hverdict
    · exact (State.slotOf_onStream u cs seq (f := fun st => { st with triple := none }) fun _ => rfl).trans hverdict

theorem State.slotOf_blameRun (s : State) (cs : Nat) (x : SlotRun) (a seq : Nat) : (s.blameRun cs x a).slotOf cs seq = s.slotOf cs seq := by
  have hretired : (State.reportInteg (((s.outvoted a).retireUnit a).onStream cs fun st => { st with triple := none })
      ((((s.outvoted a).retireUnit a).onStream cs fun st => { st with triple := none }).slotInteg cs x.seq x.icTime.toNat 6 2 a x false)).slotOf
        cs seq = s.slotOf cs seq := by
    refine (State.slotOf_of_streams (State.streams_reportInteg _ _) cs seq).trans ?_
    refine (State.slotOf_onStream _ cs seq (f := fun st => { st with triple := none }) fun _ => rfl).trans ?_
    exact State.slotOf_of_streams (State.streams_retireUnit _ a) cs seq
  have hrepeat : ((s.outvoted a).onStream cs fun st =>
      { st with triple := some (a, x.seq, x.icTime.toNat, x.detect), repeatDue := true }).slotOf cs seq = s.slotOf cs seq :=
    State.slotOf_onStream (s.outvoted a) cs seq (f := fun st =>
      { st with triple := some (a, x.seq, x.icTime.toNat, x.detect), repeatDue := true }) fun _ => rfl
  have hcases : ∀ again was : Bool, State.slotOf (if again then s.outvoted a else if was then
      State.reportInteg (((s.outvoted a).retireUnit a).onStream cs fun st => { st with triple := none })
        ((((s.outvoted a).retireUnit a).onStream cs fun st => { st with triple := none }).slotInteg cs x.seq x.icTime.toNat 6 2 a x false)
      else (s.outvoted a).onStream cs fun st => { st with triple := some (a, x.seq, x.icTime.toNat, x.detect), repeatDue := true }) cs seq
        = s.slotOf cs seq := by
    intro again was
    cases again
    · cases was
      · exact hrepeat
      · exact hretired
    · rfl
  exact hcases _ _

/-- What follows for the Arcades once a majority is known leaves the slot as it is. -/
theorem State.slotOf_blame (s : State) (cs : Nat) (x : SlotRun) (out : Nat) (who : Option Nat) (seq : Nat) :
    State.slotOf (let due := (s.stream cs).repeatDue
      let prior := (s.stream cs).triple.map (·.1)
      let s := if due then s.settleRepeat cs x who else s
      match who with
      | some a => if due && prior == some a then s.outvoted a else s.blameRun cs x a
      | none =>
        let s := if out < 3 then s.reportInteg (s.slotInteg cs x.seq x.icTime.toNat 6 0 0xFF x false) else s
        if due then s else s.settleRepeat cs x none) cs seq = s.slotOf cs seq := by
  dsimp only
  generalize (s.stream cs).repeatDue = due
  generalize (s.stream cs).triple.map (·.1) = prior
  have hrepeat : (if due then s.settleRepeat cs x who else s).slotOf cs seq = s.slotOf cs seq := by
    split
    · exact s.slotOf_settleRepeat cs x who seq
    · rfl
  generalize (if due then s.settleRepeat cs x who else s) = u at hrepeat
  rw [← hrepeat]
  cases who with
  | some a =>
    dsimp only
    split
    · rfl
    · exact u.slotOf_blameRun cs x a seq
  | none =>
    dsimp only
    have hreport : (if out < 3 then u.reportInteg (u.slotInteg cs x.seq x.icTime.toNat 6 0 0xFF x false) else u).slotOf cs seq
        = u.slotOf cs seq := by
      split <;> rfl
    split
    · exact hreport
    · exact (State.slotOf_settleRepeat _ cs x none seq).trans hreport

/-- The slot of a settled comparison. -/
theorem State.slotOf_majority {s : State} {cs : Nat} {x : SlotRun} (hx : s.slotOf cs x.seq = some x) (p : Plan) (out : Nat) (o : Outcome1) :
    ∃ z, (s.majority cs p x out o).slotOf cs x.seq = some z
      ∧ z.dual = (if x.dual == .referee then .majority ((if out < 3 then x.culprit out (if out = 2 then 0 else 2) else none).getD 16) else x.dual)
      ∧ (x.dual = .referee → x.released = none → ∃ r, z.computed = some r ∧ r.status = rsOk) := by
  obtain ⟨d, hd⟩ : ∃ d, (if x.detect = 0 then { x with detect := s.now } else x) = { x with detect := d } := by
    split
    · exact ⟨_, rfl⟩
    · exact ⟨x.detect, rfl⟩
  unfold State.majority
  dsimp only
  rw [hd]
  have hpass : (((List.range 3).filter fun g => decide (g ≠ out)).foldl
      (fun s g => (SlotRun.arcs { x with detect := d } g).foldl (fun s c => s.checkPass c) s) s).streams = s.streams :=
    foldl_keeps State.streams _ (fun u g => State.streams_checkPasses _ u) _ s
  generalize (((List.range 3).filter fun g => decide (g ≠ out)).foldl
      (fun s g => (SlotRun.arcs { x with detect := d } g).foldl (fun s c => s.checkPass c) s) s) = u at hpass
  have hcopied : (if out < 3 then u.copyBuffers (u.stream cs).session
        (p.stateOf (u.entriesOf p cs { x with detect := d } (if out = 2 then 0 else 2)))
        (p.stateOf (u.entriesOf p cs { x with detect := d } out)) else u).streams = s.streams := by
    split
    · exact (State.streams_copyBuffers _ _ _ _).trans hpass
    · exact hpass
  generalize (if out < 3 then u.copyBuffers (u.stream cs).session
        (p.stateOf (u.entriesOf p cs { x with detect := d } (if out = 2 then 0 else 2)))
        (p.stateOf (u.entriesOf p cs { x with detect := d } out)) else u) = v at hcopied
  have hv := (State.slotOf_of_streams hcopied cs x.seq).trans hx
  obtain ⟨c, hformed, hok⟩ : ∃ c, (if x.dual == .referee && x.released.isNone then v.formComputed cs x.seq o.payload o.flags true else v).slotOf
      cs x.seq = some { x with computed := c } ∧ (x.dual = .referee → x.released = none → ∃ r : Record, c = some r ∧ r.status = rsOk) := by
    split
    · obtain ⟨r, hr, hstatus, -⟩ := State.slotOf_formComputed hv o.payload o.flags true
      exact ⟨some r, hr, fun _ _ => ⟨r, rfl, hstatus⟩⟩
    · next h => exact ⟨x.computed, hv, fun hdual hnone => absurd (by rw [hdual, hnone]; rfl) h⟩
  generalize (if x.dual == .referee && x.released.isNone then v.formComputed cs x.seq o.payload o.flags true else v) = w at hformed
  have hshadow := (State.slotOf_of_streams (w.streams_settleSlotShadow cs x.seq (some o)) cs x.seq).trans hformed
  generalize w.settleSlotShadow cs x.seq (some o) = w at hshadow
  have hwho : SlotRun.culprit { x with detect := d } out (if out = 2 then 0 else 2) = x.culprit out (if out = 2 then 0 else 2) := rfl
  rw [hwho]
  generalize (if out < 3 then x.culprit out (if out = 2 then 0 else 2) else none) = who
  obtain ⟨z, hz, hdual, hcomputed⟩ : ∃ z, (w.onSlot cs x.seq fun y => { y with
      runners := y.runners.filter fun r => r.2 != 2
      dual := if y.dual == .referee then .majority (who.getD 16) else y.dual }).slotOf cs x.seq = some z
      ∧ z.dual = (if x.dual == .referee then .majority (who.getD 16) else x.dual) ∧ z.computed = c :=
    ⟨_, (State.slotOf_onSlot w cs x.seq (f := fun y => { y with
      runners := y.runners.filter fun r => r.2 != 2
      dual := if y.dual == .referee then .majority (who.getD 16) else y.dual }) fun _ => rfl).trans (congrArg (Option.map _) hshadow), rfl, rfl⟩
  generalize (w.onSlot cs x.seq fun y => { y with
      runners := y.runners.filter fun r => r.2 != 2
      dual := if y.dual == .referee then .majority (who.getD 16) else y.dual }) = t at hz
  subst hcomputed
  exact ⟨z, (t.slotOf_blame cs { x with detect := d } out who x.seq).trans hz, hdual, hok⟩

/-! Shadow runs (R191, R199). -/

theorem State.integ_cancelChecks (s : State) (a : Nat) (f : Check → Bool) (b : Nat) : ((s.cancelChecks a f).arcade b).integ = (s.arcade b).integ := by
  refine Eq.trans ?_ (State.onArc_proj (p := Arcade.integ) (f := fun c => { c with checks := c.checks.filter fun k => !f k }) (fun _ => rfl) s a b)
  unfold State.cancelChecks State.arcade
  dsimp only
  rw [Tab.get_mapVals (d := ({} : Arcade)) _ _ b rfl]

theorem State.arc_zeroisePages (s : State) (pages : List Nat) (toPool emergency : Bool) :
    (s.zeroisePages pages toPool emergency).arc = s.arc := by
  unfold State.zeroisePages
  dsimp only
  rw [foldl_keeps State.arc]
  · exact foldl_keeps State.arc _ (fun s n => (rfl : (s.onOmap n _).arc = s.arc)) _ _
  · intro s n
    split
    · rfl
    · rfl

theorem State.health_zeroisePages (s : State) (pages : List Nat) (toPool emergency : Bool) :
    (s.zeroisePages pages toPool emergency).health = s.health := by
  unfold State.zeroisePages
  dsimp only
  rw [foldl_keeps State.health]
  · exact foldl_keeps State.health _ (fun s n => (rfl : (s.onOmap n _).health = s.health)) _ _
  · intro s n
    split
    · rfl
    · rfl

theorem State.integ_releaseUnit (s : State) (a b : Nat) : ((s.releaseUnit a).arcade b).integ = (s.arcade b).integ := by
  unfold State.releaseUnit
  dsimp only
  rw [foldl_keeps (fun u : State => (u.arcade b).integ)]
  · exact congrArg (fun t => (Tab.get ({} : Arcade) t b).integ) (s.arc_zeroisePages _ _ _)
  · intro u r
    split
    · exact State.onArc_proj (p := Arcade.integ) (f := fun c => { c with
        regions := Tab.upd {} c.regions r.1 fun g => { g with state := .scrubbing, plan := if true then none else g.plan }
        engine := c.engine ++ [{ items := [r.1], toPool := true, emergency := false }] }) (fun _ => rfl) u a b
    · rfl

/-- What the retirement of an Arcade does before its stores are released. -/
def State.retiring (s : State) (a : Nat) : State :=
  let s := s.onArc a fun c => { c with integ := .retired, trial := 0 }
  let s := (s.jobsOn a).foldl (fun s j => s.endJob j stFault) s
  let s := { s with arc := Tab.upd {} s.arc a fun (c : Arcade) => { c with running := none, bulk := [], queue := [] } }
  s.cancelChecks a fun k => k.endTime.isNone

theorem State.integ_retiring (s : State) (a : Nat) : ((s.retiring a).arcade a).integ = .retired := by
  unfold State.retiring
  dsimp only
  rw [State.integ_cancelChecks]
  rw [State.arcade, Tab.get_upd_same]
  refine Eq.trans (State.integ_endJobs _ stFault a _) ?_
  rw [State.arcade_of_onArc]

theorem State.health_retiring (s : State) (a : Nat) : (s.retiring a).health = s.health :=
  (congrArg State.health (State.ground_endJobs _ stFault (s.onArc a fun c => { c with integ := .retired, trial := 0 })) :)

theorem State.health_releaseUnit (s : State) (a : Nat) : (s.releaseUnit a).health = s.health := by
  unfold State.releaseUnit
  dsimp only
  rw [foldl_keeps State.health]
  · exact s.health_zeroisePages _ _ _
  · intro u r
    split <;> rfl

/-- A retired Arcade, marked in the health area. -/
def State.retiredMark (s : State) (a : Nat) : State :=
  { s with health := { s.health with retiredArc := s.health.retiredArc ||| BitVec.ofNat 16 (2 ^ a), dirty := true } }

theorem State.retireUnit_eq (s : State) (a : Nat) :
    s.retireUnit a = (((s.retiring a).releaseUnit a).retiredMark a).report { event := 0x0402, unitKind := 1, unit := a } := by
  unfold State.retireUnit State.retiring State.retiredMark
  dsimp only

theorem State.retireUnit_retires (s : State) (a : Nat) : ((s.retireUnit a).arcade a).integ = .retired
    ∧ (s.retireUnit a).health.retiredArc = s.health.retiredArc ||| BitVec.ofNat 16 (2 ^ a) := by
  have hhealth : ((s.retiring a).releaseUnit a).health = s.health := (State.health_releaseUnit _ a).trans (s.health_retiring a)
  have hinteg : (((s.retiring a).releaseUnit a).arcade a).integ = .retired := (State.integ_releaseUnit _ a a).trans (s.integ_retiring a)
  rw [State.retireUnit_eq]
  generalize (s.retiring a).releaseUnit a = u at hhealth hinteg
  refine ⟨hinteg, ?_⟩
  rw [State.report_health_proj Health.retiredArc (fun _ _ _ _ _ _ _ _ _ _ _ _ _ _ _ _ _ => rfl)]
  show u.health.retiredArc ||| _ = _
  rw [hhealth]

/-- A shadow run whose outcome is established has left the Arcade's list. -/
def State.shadowDone (s : State) (a : Nat) (x : Shadow) : State := s.onArc a fun c => { c with shadowWork := c.shadowWork.erase x }

theorem State.shadowRan_agrees {s : State} {a cs seq : Nat} {x : Shadow} (hc : x.check = none) (hx : x.slot = some (cs, seq)) (hw : x.mine = x.want) :
    s.shadowRan a x [] = (s.shadowDone a x).shadowPass a := by
  unfold State.shadowRan
  rw [if_neg (by decide)]
  dsimp only
  rw [hc, hx]
  exact if_pos hw

theorem State.shadowRan_differs {s : State} {a cs seq : Nat} {x : Shadow} (hc : x.check = none) (hx : x.slot = some (cs, seq)) (hw : x.mine ≠ x.want) :
    ∃ r, s.shadowRan a x [] = (s.shadowDone a x).shadowFail a r := by
  unfold State.shadowRan
  rw [if_neg (by decide)]
  dsimp only
  rw [hc, hx]
  exact ⟨_, if_neg hw⟩

theorem State.arcade_shadowDone (s : State) (a : Nat) (x : Shadow) :
    (s.shadowDone a x).arcade a = { s.arcade a with shadowWork := (s.arcade a).shadowWork.erase x } := s.arcade_of_onArc a _

theorem State.shadowPass_counts {s : State} {a : Nat} (h : (s.arcade a).trial + 1 < 10000) :
    s.shadowPass a = s.onArc a fun c => { c with trial := c.trial + 1 } := if_neg (by omega)

theorem State.shadowPass_returns {s : State} {a : Nat} (h : 10000 ≤ (s.arcade a).trial + 1) :
    s.shadowPass a = (s.onArc a fun c => { c with integ := .inService, trial := 0, shadowWork := [] }).clearMark a := if_pos h

theorem State.marked_clearMark (s : State) {a : Nat} (h : a < 16) : (s.clearMark a).marked a = false := by
  have hbit : ∀ v : BitVec 16, (v &&& ~~~(BitVec.ofNat 16 (2 ^ a))).getLsbD a = false := by
    intro v
    have htwo : (BitVec.ofNat 16 (2 ^ a)).getLsbD a = true := by
      rw [BitVec.getLsbD_ofNat, Nat.testBit_two_pow_self, decide_eq_true h]
      rfl
    rw [BitVec.getLsbD_and, BitVec.getLsbD_not, htwo]
    simp
  show ((s.health.retiredArc &&& _).getLsbD a || (s.health.retiredSeg &&& _).getLsbD a) = false
  rw [hbit, hbit]
  rfl

theorem State.shadowFail_retires (s : State) (a : Nat) (r : IntegRec) : ((s.shadowFail a r).arcade a).integ = .retired
    ∧ (s.shadowFail a r).health.retiredArc = s.health.retiredArc ||| BitVec.ofNat 16 (2 ^ a) := by
  obtain ⟨hinteg, hmark⟩ := (s.onArc a fun c => { c with shadowWork := [] }).retireUnit_retires a
  unfold State.shadowFail
  dsimp only
  generalize (s.onArc a fun c => { c with shadowWork := [] }).retireUnit a = u at hinteg hmark
  refine ⟨hinteg, ?_⟩
  unfold State.reportInteg
  dsimp only
  rw [State.report_health_proj Health.retiredArc (fun _ _ _ _ _ _ _ _ _ _ _ _ _ _ _ _ _ => rfl)]
  exact hmark

/-- Settles O47, from what the comparison and the referee leave of the slot and the retirement of the Arcade. -/
theorem dualRunsSettle : Obligations.DualRunsSettle := by
  unfold Obligations.DualRunsSettle
  refine ⟨fun s cs x p hl hp hx hone => ?_, fun s cs x p hl hp hx hone => ?_, fun s a x cs seq hl hx hfree hinteg hcheck hslot => ?_⟩
  case refine_1 =>
    have hexec := exec_dualCompare hp hx
    have hself := State.slotOf_of_mem (List.mem_of_find?_eq_some hx) hone
    have hdet := State.slotOf_detected (cs := cs.val) (x := x) hself
    have hplan : ((s.detected cs.val x).plan ((s.detected cs.val x).stream cs.val).win).running = some p := by
      rw [show ((s.detected cs.val x).stream cs.val).win = _ from s.win_onSlot cs.val x.seq _]
      exact hp
    have hwait : x.dual ≠ .referee := by
      have h := List.find?_some hx
      intro hr
      rw [hr] at h
      exact absurd h (by simp)
    have hunresolved : ∀ kind, s.dualDiffer cs.val p x = (s.detected cs.val x).unresolved cs.val { x with detect := (s.detected cs.val x).now } kind →
        s.otherRun cs.val x ≠ some (x.outcome x.len 0) → Reaches (.dualCompare cs []) s fun t =>
          ∃ y, t.slotOf cs.val x.seq = some y ∧ y.dual = .mismatch
            ∧ (x.released = none → ∃ r, y.mismatch = some r ∧ r.status = rsMismatch) := by
      intro kind hdiffer hne
      obtain ⟨z, hz, hdual, hrec⟩ := State.slotOf_unresolved (kind := kind) (x := { x with detect := (s.detected cs.val x).now }) hplan hdet
      refine reaches_act hexec hl rfl ?_
      rw [if_neg hne, hdiffer]
      exact ⟨z, (State.slotOf_settle _ _ _ _).trans hz, hdual, hrec hwait⟩
    refine ⟨fun heq => ?_, fun hne h3 href => ?_, fun hne h3 hok => ⟨fun hsame => ?_, fun hin hdiff => ?_⟩⟩
    · obtain ⟨z, r, hz, hdual, hr, hstatus, hready⟩ := State.slotOf_dualEqual hself p (x.outcome x.len 0)
      refine reaches_act hexec hl rfl ?_
      rw [if_pos heq]
      exact ⟨z, r, (State.slotOf_settle _ _ _ _).trans hz, hdual, hr, hstatus, hready⟩
    · exact hunresolved 7 (State.dualDiffer_alone h3 href) hne
    · obtain ⟨z, hz, hdual, hrec⟩ := State.slotOf_referee hdet
      refine reaches_act hexec hl rfl ?_
      rw [if_neg hne, State.dualDiffer_three h3 hok, if_neg (by rcases hsame with h | h <;> simp [h])]
      exact ⟨z, (State.slotOf_settle _ _ _ _).trans hz, hdual, hrec⟩
    · exact hunresolved 8 ((State.dualDiffer_three h3 hok).trans (if_pos (by simp [hin, hdiff]))) hne
  case refine_2 =>
    have hexec := exec_dualRefereeComplete hp hx
    have hself := State.slotOf_of_mem (List.mem_of_find?_eq_some hx) hone
    have hmajority : ∀ out o, s.refereeSlot cs.val p x = s.majority cs.val p x out o → Reaches (.dualRefereeComplete cs []) s fun t =>
        ∃ z, t.slotOf cs.val x.seq = some z
          ∧ z.dual = (if x.dual == .referee then .majority ((if out < 3 then x.culprit out (if out = 2 then 0 else 2) else none).getD 16) else x.dual)
          ∧ (x.dual = .referee → x.released = none → ∃ r, z.computed = some r ∧ r.status = rsOk) := by
      intro out o hrow
      obtain ⟨z, hz, h⟩ := State.slotOf_majority hself p out o
      refine reaches_act hexec hl rfl ?_
      rw [hrow]
      exact ⟨z, (State.slotOf_settle _ _ _ _).trans hz, h⟩
    refine ⟨fun heq => ?_, fun href hsame => ?_, fun href hne hother => ?_, fun href hne hother => ?_⟩
    · obtain ⟨t, ht, z, hz, hdual, -⟩ := hmajority _ _ (if_pos (by rw [heq]; rfl))
      exact ⟨t, ht, z, hz, hdual.trans ((if_neg (by rw [heq]; decide)).trans heq)⟩
    · obtain ⟨t, ht, z, hz, hdual, hrec⟩ := hmajority 1 _ ((if_neg (by rw [href]; decide)).trans (if_pos hsame))
      exact ⟨t, ht, z, hz, hdual.trans (if_pos (by rw [href]; rfl)), hrec href⟩
    · obtain ⟨t, ht, z, hz, hdual, hrec⟩ := hmajority 0 _ ((if_neg (by rw [href]; decide)).trans ((if_neg hne).trans (if_pos hother)))
      exact ⟨t, ht, z, hz, hdual.trans (if_pos (by rw [href]; rfl)), hrec href⟩
    · have hrow : s.refereeSlot cs.val p x = s.unresolved cs.val x 7 :=
        (if_neg (by rw [href]; decide)).trans ((if_neg hne).trans (if_neg hother))
      obtain ⟨z, hz, hdual, -⟩ := State.slotOf_unresolved (kind := 7) hp hself
      refine reaches_act hexec hl rfl ?_
      rw [hrow]
      exact ⟨z, (State.slotOf_settle _ _ _ _).trans hz, hdual⟩
  case refine_3 =>
    have hexec := exec_shadowRunComplete hx
    have hg : ((s.arcade a.val).noControl && (s.arcade a.val).integ == .probation) = true := by simp [hfree, hinteg]
    have hdone := s.arcade_shadowDone a.val x
    have hothers : ∀ b, b ≠ a.val → (s.shadowDone a.val x).arcade b = s.arcade b := fun b hb => s.arcade_of_onArc_other _ hb
    refine ⟨fun hw hfew => ?_, fun hw hmany => ?_, fun hw => ?_⟩
    · refine reaches_act hexec hl hg ?_
      rw [State.shadowRan_agrees hcheck hslot hw, State.shadowPass_counts (by rw [hdone]; exact hfew)]
      refine ⟨?_, fun b hb => ?_⟩
      · rw [State.settle_arcade, State.arcade_of_onArc, hdone]
      · rw [State.settle_arcade, State.arcade_of_onArc_other _ _ hb, hothers b hb]
    · refine reaches_act hexec hl hg ?_
      rw [State.shadowRan_agrees hcheck hslot hw, State.shadowPass_returns (by rw [hdone]; exact hmany)]
      have harc : ∀ b, (((s.shadowDone a.val x).onArc a.val fun c => { c with integ := .inService, trial := 0, shadowWork := [] }).clearMark a.val).arcade b
          = ((s.shadowDone a.val x).onArc a.val fun c => { c with integ := .inService, trial := 0, shadowWork := [] }).arcade b := fun _ => rfl
      refine ⟨?_, ?_, ?_, fun b hb => ?_⟩
      · rw [State.settle_arcade, harc, State.arcade_of_onArc]
      · rw [State.settle_arcade, harc, State.arcade_of_onArc]
      · have hmark := State.marked_clearMark ((s.shadowDone a.val x).onArc a.val fun c => { c with integ := .inService, trial := 0, shadowWork := [] }) a.isLt
        generalize ((s.shadowDone a.val x).onArc a.val fun c => { c with integ := .inService, trial := 0, shadowWork := [] }).clearMark a.val = u at hmark
        unfold State.marked at hmark ⊢
        rw [State.settle_health]
        exact hmark
      · rw [State.settle_arcade, harc, State.arcade_of_onArc_other _ _ hb, hothers b hb]
    · obtain ⟨r, hrow⟩ := State.shadowRan_differs (s := s) hcheck hslot hw (a := a.val)
      obtain ⟨h1, h2⟩ := (s.shadowDone a.val x).shadowFail_retires a.val r
      refine reaches_act hexec hl hg ?_
      rw [hrow, State.settle_arcade, State.settle_health]
      exact ⟨h1, h2⟩

end Sys2Proof.Machine
end

