-- ==== Sys2Proof/Proofs/ProgramEnds.lean ====
section
/-! PROOFS. The ends of spans and programs, the parts that arrive, and the programs that wait (R82, R134 to R139, R156, R370). -/

namespace Sys2Proof.Machine

/-! The rows. -/

theorem exec_bound (a : Arc) (s : State) : exec (.bound a) s = act (s.tileReady a.val fun i => i == .bound) (fun s => s.boundRow a.val) s := rfl

theorem exec_tend (a : Arc) (s : State) : exec (.tend a []) s
    = act ((s.tileReady a.val fun i => i == .tend) && !s.endPaused a.val) (fun s => s.endRow a.val) s := rfl

theorem exec_timeout {s : State} {a : Arc} {comb : Bool} {p : Prog} (h : s.stuckAt a.val comb = some p) :
    exec (if comb then .combTimeout a else .waitTimeout a) s = act true (fun s => s.programFault a.val p 0x0203) s := by
  cases comb with
  | true =>
    show execCombTimeout a s = _
    unfold execCombTimeout
    rw [h]
  | false =>
    show execWaitTimeout a s = _
    unfold execWaitTimeout
    rw [h]

theorem exec_queuedSlotStart (a : Arc) (s : State) : exec (.queuedSlotStart a) s
    = act ((s.arcade a.val).running.isNone && !(s.arcade a.val).queue.isEmpty) (fun s => s.onArc a.val fun c => match c.queue with
      | x :: r => { c with running := some x.prog, queue := r }
      | [] => c) s := rfl

theorem exec_bulkResume (a : Arc) (s : State) : exec (.bulkResume a) s
    = act ((s.arcade a.val).running.isNone && (s.arcade a.val).queue.isEmpty && !(s.arcade a.val).bulk.isEmpty) (fun s => s.onArc a.val fun c =>
      match c.bulk with
      | x :: r => { c with running := some x, bulk := r }
      | [] => c) s := rfl

theorem exec_sessionFaultAbort {s : State} {sc : Sc} {at0 : Nat} (h : (s.session sc.val).faultAt = some at0) :
    exec (.sessionFaultAbort sc) s
      = act (s.allReleased sc.val || decide (at0 + 100000 ≤ s.now)) (fun s => s.abortSession sc.val stFault) s := by
  show execSessionFaultAbort sc s = _
  unfold execSessionFaultAbort
  rw [h]

/-! Programs that waited go on (R82). -/

/-- A row that changes one Arcade to what is given. -/
theorem reaches_onArc {c : Instr} {s : State} {a : Nat} {g : Bool} {f : Arcade → Arcade} (he : exec c s = act g (fun s => s.onArc a f) s)
    (hs : s.Up) (hg : g = true) (hf : ∀ x, (f x).integ = x.integ) {P : State → Prop} (hp : P (s.onArc a f)) : Reaches c s P :=
  reaches_act_to he hs.1 hg rfl (hs.2.onArc hf) rfl hp

theorem State.queuedSlotStart_starts {s : State} {a : Arc} {x : Start} {r : List Start} (hs : s.Up) (hidle : (s.arcade a.val).running = none)
    (hq : (s.arcade a.val).queue = x :: r) : Reaches (.queuedSlotStart a) s fun t => t = { s with arc := t.arc }
      ∧ (∀ b, b ≠ a.val → t.arcade b = s.arcade b) ∧ t.arcade a.val = { s.arcade a.val with running := some x.prog, queue := r } := by
  refine reaches_onArc (exec_queuedSlotStart a s) hs (by simp [hidle, hq]) (fun c => ?_) ⟨rfl, fun b hb => s.arcade_of_onArc_other _ hb, ?_⟩
  · cases c.queue <;> rfl
  · rw [State.arcade_of_onArc, hq]

theorem State.bulkResume_resumes {s : State} {a : Arc} {x : Prog} {r : List Prog} (hs : s.Up) (hidle : (s.arcade a.val).running = none)
    (hq : (s.arcade a.val).queue = []) (hb : (s.arcade a.val).bulk = x :: r) : Reaches (.bulkResume a) s fun t => t = { s with arc := t.arc }
      ∧ (∀ b, b ≠ a.val → t.arcade b = s.arcade b) ∧ t.arcade a.val = { s.arcade a.val with running := some x, bulk := r } := by
  refine reaches_onArc (exec_bulkResume a s) hs (by simp [hidle, hq, hb]) (fun c => ?_) ⟨rfl, fun b hb => s.arcade_of_onArc_other _ hb, ?_⟩
  · cases c.bulk <;> rfl
  · rw [State.arcade_of_onArc, hb]

/-! A part arrives (R134). -/

/-- A row of a part as it is stored. -/
def Arcade.setPart (c : Arcade) (x : InPart) (i : Nat) : Arcade :=
  (c.setAccRow (x.row + i) (x.rows.getD i [])).setAccPoison (x.row + i) (x.poison.getD i [])

/-- What the rows of a part leave of their Arcade. -/
theorem Arcade.setParts_eq (x : InPart) (l : List Nat) (c : Arcade) : ∃ acc poison, l.foldl (fun c i => c.setPart x i) c
    = { c with acc := acc, accPoison := poison } := by
  induction l generalizing c with
  | nil => exact ⟨c.acc, c.accPoison, rfl⟩
  | cons i l ih =>
    obtain ⟨acc, poison, h⟩ := ih (c.setPart x i)
    exact ⟨acc, poison, h⟩

/-- The Arcade that combines a part takes it. -/
def Arcade.takePart (c : Arcade) (x : InPart) : Arcade :=
  let u := (List.range x.rows.length).foldl (fun c i => c.setPart x i) c
  { u with
    inFlight := u.inFlight.erase x
    parts := Tab.set false u.parts (partKey x.gen x.rdesc x.part) true
    partDigest := Tab.set 0 u.partDigest (partKey x.gen x.rdesc x.part) x.digest }

theorem Arcade.takePart_keeps (c : Arcade) (x : InPart) : (c.takePart x).integ = c.integ ∧ (c.takePart x).running = c.running
    ∧ (c.takePart x).inFlight = c.inFlight.erase x := by
  obtain ⟨acc, poison, he⟩ := Arcade.setParts_eq x (List.range x.rows.length) c
  unfold Arcade.takePart
  rw [he]
  exact ⟨rfl, rfl, rfl⟩

theorem Arcade.takePart_marks (c : Arcade) (x : InPart) : Tab.get false (c.takePart x).parts (partKey x.gen x.rdesc x.part) = true := by
  unfold Arcade.takePart
  exact Tab.get_set_same false _ _ true

theorem Tab.getMany_setMany {α : Type} [DecidableEq α] (d : α) (t : Tab α) (k : Nat) (v : List α) :
    Tab.getMany d (Tab.setMany d t k v) k v.length = v := by
  unfold Tab.getMany
  refine List.ext_getElem (by simp) fun i h _ => ?_
  have hi : i < v.length := by simpa using h
  rw [List.getElem_map, List.getElem_range, Tab.get_setMany, if_pos (by omega), Nat.add_sub_cancel_left, List.getD_eq_getElem _ _ hi]

theorem Arcade.accRow_setPart {c : Arcade} {x : InPart} {v : List AccEntry} (hrows : x.rows = [v]) (hlen : v.length = 128) :
    (c.setPart x 0).accRow x.row = v := by
  have h := Tab.getMany_setMany 0 c.acc (x.row * 128) v
  rw [hlen] at h
  unfold Arcade.setPart Arcade.setAccRow Arcade.setAccPoison Arcade.accRow
  rw [hrows]
  exact h

theorem Arcade.accRowPoison_setPart (c : Arcade) (x : InPart) :
    (c.setPart x 0).accRowPoison x.row = (List.range 128).map fun j => (x.poison.getD 0 []).getD j false := by
  have h := Tab.getMany_setMany false c.accPoison (x.row * 128) ((List.range 128).map fun j => (x.poison.getD 0 []).getD j false)
  rw [List.length_map, List.length_range] at h
  exact h

theorem exec_partArrival {s : State} {a : Arc} {rdesc : Fin 256} {part : Fin 16} {x : InPart}
    (h : ((s.arcade a.val).inFlight.find? fun y => y.rdesc == rdesc.val && y.part == part.val) = some x) :
    exec (.partArrival a rdesc part) s = act true (fun s => s.onArc a.val fun c => c.takePart x) s := by
  show execPartArrival a rdesc part s = _
  unfold execPartArrival
  rw [h]
  rfl

theorem State.partArrival_marks {s : State} {a : Arc} {rdesc : Fin 256} {part : Fin 16} {x : InPart} (v : List (BitVec 64)) (hs : s.Up)
    (h : ((s.arcade a.val).inFlight.find? fun y => y.rdesc == rdesc.val && y.part == part.val) = some x) :
    Reaches (.partArrival a rdesc part) s fun t =>
      t = { s with arc := t.arc } ∧ (∀ b, b ≠ a.val → t.arcade b = s.arcade b)
      ∧ (t.arcade a.val).inFlight = (s.arcade a.val).inFlight.erase x
      ∧ Tab.get false (t.arcade a.val).parts (partKey x.gen rdesc.val part.val) = true
      ∧ (t.arcade a.val).running = (s.arcade a.val).running
      ∧ (x.rows = [v] → v.length = 128 → (t.arcade a.val).accRow x.row = v
        ∧ (t.arcade a.val).accRowPoison x.row = (List.range 128).map fun j => (x.poison.getD 0 []).getD j false) := by
  have hkey : x.rdesc = rdesc.val ∧ x.part = part.val := by simpa using List.find?_some h
  refine reaches_onArc (exec_partArrival h) hs rfl (fun c => (c.takePart_keeps x).1) ⟨rfl, fun b hb => s.arcade_of_onArc_other _ hb, ?_⟩
  rw [State.arcade_of_onArc]
  obtain ⟨-, hrunning, hflight⟩ := (s.arcade a.val).takePart_keeps x
  refine ⟨hflight, ?_, hrunning, fun hrows hlen => ?_⟩
  · rw [← hkey.1, ← hkey.2]
    exact Arcade.takePart_marks _ x
  · have hone : (List.range x.rows.length) = [0] := by rw [hrows]; rfl
    unfold Arcade.takePart
    rw [hone]
    exact ⟨Arcade.accRow_setPart hrows hlen, Arcade.accRowPoison_setPart _ x⟩

/-! The end of a span (R137, R183). -/

/-- A program at the end of a span. -/
def Prog.spanEnded (p : Prog) : Prog :=
  { p with atBoundary := true, valid := [], sigs := p.sigs ++ [polyFinish p.otherAcc p.otherBlocks], selected := false }

/-- A check on a primary where a span of a program ends at a time. -/
def Check.spanEnded (k : Check) (p : Prog) (now : Nat) : Check :=
  if k.instCount = p.inst then { k with primarySig := some p.signature, endTime := some now }
  else if k.session = p.session && k.endTime.isSome then { k with spansSince := k.spansSince + 1 }
  else k

theorem Check.spanEnded_stage (k : Check) (p : Prog) (now : Nat) : (k.spanEnded p now).stage = k.stage := by
  unfold Check.spanEnded
  split
  · rfl
  · split <;> rfl

theorem Check.spanEnded_of_inst {k : Check} {p : Prog} {now : Nat} (h : (k.spanEnded p now).instCount = p.inst) :
    (k.spanEnded p now).primarySig = some p.signature ∧ (k.spanEnded p now).endTime = some now := by
  unfold Check.spanEnded at h ⊢
  by_cases hk : k.instCount = p.inst
  · rw [if_pos hk]
    exact ⟨rfl, rfl⟩
  · rw [if_neg hk] at h
    split at h <;> exact absurd h hk

/-- The Arcade where a span of a program ends. -/
def Arcade.spanEnded (c : Arcade) (p : Prog) (now : Nat) : Arcade :=
  { c with spanEnd := Tab.set 0 c.spanEnd p.session p.inst, checks := c.checks.map fun k => k.spanEnded p now }

/-- Outside a pair the end of a span changes the program and its Arcade. -/
theorem State.endSpan_off {s : State} (h : s.fm.state = .off) (a : Nat) (p : Prog) :
    s.endSpan a p = (s.onArc a fun c => c.spanEnded p s.now, p.spanEnded) := by
  unfold State.endSpan
  dsimp only
  rw [State.isStandby_off (by exact h), if_neg (by simp)]
  rfl

theorem State.compareSpan_capturing {s : State} {a : Nat} (h : ∀ k ∈ (s.arcade a).checks, k.stage = .capturing) (inst : Nat) :
    s.compareSpan a inst = s := by
  unfold State.compareSpan
  rw [List.find?_eq_none.mpr fun k hk => by simp [h k hk]]

theorem State.enterSpan_issued {p : Prog} (h : p.atBoundary = false) (s : State) (a : Nat) : s.enterSpan a p = (s, p) := by
  unfold State.enterSpan
  rw [if_neg (by simp [h])]

theorem State.boundRow_ends {s : State} {a : Nat} {p : Prog} (hoff : s.fm.state = .off) (hrun : (s.arcade a).running = some p)
    (hissued : p.atBoundary = false) (hgoes : p.ending = false) (hcap : ∀ k ∈ (s.arcade a).checks, k.stage = .capturing) :
    s.boundRow a = (s.onArc a fun c => c.spanEnded { p with pc := p.pc + 1 } s.now).runs a ({ p with pc := p.pc + 1 } : Prog).spanEnded := by
  unfold State.boundRow
  simp only [hrun, State.enterSpan_issued hissued, State.endSpan_off hoff]
  rw [if_neg (by simp [Prog.spanEnded, hgoes])]
  refine State.compareSpan_capturing (fun k hk => ?_) _
  rw [State.arcade_of_onArc, State.arcade_of_onArc] at hk
  obtain ⟨x, hx, rfl⟩ := List.mem_map.mp hk
  rw [Check.spanEnded_stage, hcap x hx]

theorem State.bound_ends {s : State} {a : Arc} {p : Prog} {n : Nat} (hs : s.Up) (hoff : s.fm.state = .off)
    (hrun : (s.arcade a.val).running = some p) (hissued : p.atBoundary = false) (hgoes : p.ending = false)
    (hinstr : p.instr = some (.bound, n)) (hsent : s.sending a.val p = false) (hcap : ∀ k ∈ (s.arcade a.val).checks, k.stage = .capturing) :
    Reaches (.bound a) s fun t =>
      t = { s with arc := t.arc } ∧ (∀ b, b ≠ a.val → t.arcade b = s.arcade b)
      ∧ (t.arcade a.val).running = some { p with
          pc := p.pc + 1, atBoundary := true, valid := [], sigs := p.sigs ++ [polyFinish p.otherAcc p.otherBlocks], selected := false }
      ∧ (t.arcade a.val).checks.length = (s.arcade a.val).checks.length
      ∧ ∀ k ∈ (t.arcade a.val).checks, k.instCount = p.inst → k.primarySig = some p.signature ∧ k.endTime = some s.now := by
  have hsync := hs.2.onArc (a := a.val) (f := fun c => c.spanEnded { p with pc := p.pc + 1 } s.now) fun _ => rfl
  refine reaches_act_to (exec_bound a s) hs.1 (State.tileReady_of_instr hrun hissued hinstr rfl (by simp [hsent]))
    (State.boundRow_ends hoff hrun hissued hgoes hcap) (State.runs_synced hsync _ _) rfl
    ⟨rfl, fun b hb => (State.arcade_runs_other _ hb _).trans (s.arcade_of_onArc_other _ hb), ?_⟩
  rw [State.arcade_runs, State.arcade_of_onArc]
  refine ⟨rfl, List.length_map _, fun k hk hinst => ?_⟩
  obtain ⟨x, -, rfl⟩ := List.mem_map.mp hk
  exact Check.spanEnded_of_inst (p := { p with pc := p.pc + 1 }) hinst

/-! The end of a slot's program (R137, R156, R193). -/

/-- A program has left its Arcade at the end of its last span. -/
def State.programLeft (s : State) (a : Nat) (p : Prog) : State := (s.onArc a fun c => c.spanEnded p s.now).leaveArcade a

theorem State.programLeft_arcade (s : State) (a : Nat) (p : Prog) :
    (s.programLeft a p).arcade a = { (s.arcade a).spanEnded p s.now with running := none } := by
  unfold State.programLeft State.leaveArcade
  rw [State.arcade_of_onArc, State.arcade_of_onArc]

theorem State.endRow_leaves {s : State} {a : Nat} {p : Prog} (hoff : s.fm.state = .off) (hrun : (s.arcade a).running = some p)
    (hissued : p.atBoundary = false) (hnone : (s.arcade a).checks = []) : s.endRow a = match p.role with
      | .slot cs seq => (s.programLeft a p).slotRunEnded a cs seq p.spanEnded
      | .shadow cs seq => (s.programLeft a p).shadowEnded a cs seq p.spanEnded
      | .job j => if p.ending then (s.programLeft a p).programGone p.spanEnded else (s.programLeft a p).jobRunEnded a j p.spanEnded
      | .check => s.programLeft a p := by
  have hchecks : ∀ k ∈ ((s.programLeft a p).arcade a).checks, k.stage = .capturing := by
    rw [State.programLeft_arcade]
    intro k hk
    obtain ⟨x, hx, -⟩ := List.mem_map.mp hk
    exact absurd (hnone ▸ hx) List.not_mem_nil
  have hcompare := State.compareSpan_capturing hchecks p.inst
  unfold State.programLeft at hcompare ⊢
  unfold State.endRow
  simp only [hrun, State.enterSpan_issued hissued, State.endSpan_off hoff]
  rw [show p.spanEnded.inst = p.inst from rfl, hcompare]
  rfl

theorem State.noteFormed_arcade (s : State) (a sc inst rseq b : Nat) : ∃ f, (s.noteFormed a sc inst rseq).arcade b = { s.arcade b with formed := f } := by
  unfold State.noteFormed
  by_cases hb : b = a
  · rw [hb, State.arcade_of_onArc]
    split
    · exact ⟨_, rfl⟩
    · exact ⟨_, rfl⟩
  · exact ⟨_, s.arcade_of_onArc_other _ hb⟩

theorem State.tellPartner_off {s : State} (h : s.fm.state = .off) (cs seq : Nat) : s.tellPartner cs seq = s := by
  unfold State.tellPartner State.partnerRuns
  split
  · rfl
  · dsimp only
    simp only [State.joined_off h, State.isHome_off h, Bool.false_and, Bool.and_false, Bool.false_eq_true, if_false]

/-- Outside a pair a slot keeps the outcome of a program that ends; where that was its only program and it is not compared, its record is
formed. -/
theorem State.slotRunEnded_keeps {s : State} {a cs seq g : Nat} {x : SlotRun} (hoff : s.fm.state = .off) (hx : s.slotOf cs seq = some x)
    (hrunner : (x.runners.find? fun r => r.1 == a) = some (a, g)) (p : Prog) :
    let o : RunOut := { arcade := a, group := g, payload := p.payload, flags := p.flags, sigs := p.sigs, inst := p.inst }
    ((s.slotRunEnded a cs seq p).arcade a).running = (s.arcade a).running
    ∧ ∃ c, (s.slotRunEnded a cs seq p).slotOf cs seq = some { x with runs := x.runs ++ [o], computed := c }
      ∧ (g = 0 → x.runners = [(a, 0)] → x.dual = .single → x.fault = false → ∃ r : Record, c = some r ∧ r.status = rsOk ∧ r.ready = false) := by
  intro o
  have hset : ((s.onSlot cs seq fun y => { y with runs := y.runs ++ [o] }).noteFormed a p.session p.inst x.rseq).slotOf cs seq
      = some { x with runs := x.runs ++ [o] } :=
    (s.slotOf_onSlot cs seq (f := fun y => { y with runs := y.runs ++ [o] }) fun _ => rfl).trans (congrArg (Option.map _) hx)
  have hfm : ((s.onSlot cs seq fun y => { y with runs := y.runs ++ [o] }).noteFormed a p.session p.inst x.rseq).fm.state = .off := hoff
  have harc : (((s.onSlot cs seq fun y => { y with runs := y.runs ++ [o] }).noteFormed a p.session p.inst x.rseq).arcade a).running
      = (s.arcade a).running := by
    obtain ⟨f, hf⟩ := State.noteFormed_arcade (s.onSlot cs seq fun y => { y with runs := y.runs ++ [o] }) a p.session p.inst x.rseq a
    rw [hf]
    rfl
  unfold State.slotRunEnded
  simp only [hx, hrunner]
  generalize State.noteFormed _ a p.session p.inst x.rseq = u at hset hfm harc ⊢
  simp only [hset, State.tellPartner_off hfm]
  split
  · split
    · obtain ⟨r, hr, hok, hready⟩ := State.slotOf_formComputed hset
        (SlotRun.outcome { x with runs := x.runs ++ [o] } x.len 0).payload (SlotRun.outcome { x with runs := x.runs ++ [o] } x.len 0).flags false
      refine ⟨?_, _, hr, fun _ _ _ _ => ⟨r, rfl, hok, hready⟩⟩
      unfold State.formComputed
      rw [hset]
      exact harc
    · next hcompared =>
      exact ⟨harc, x.computed, hset, fun _ _ hd hf => absurd (by simp [hd, hf]) hcompared⟩
  · next hwait =>
    refine ⟨harc, x.computed, hset, fun hg hr _ _ => absurd ?_ hwait⟩
    simp [hg, SlotRun.groupDone, hr, o]

theorem State.tend_slot_ends {s : State} {a : Arc} {p : Prog} {n cs seq g : Nat} {x : SlotRun} (hl : s.live = true) (hoff : s.fm.state = .off)
    (hrun : (s.arcade a.val).running = some p) (hissued : p.atBoundary = false) (hinstr : p.instr = some (.tend, n))
    (hrole : p.role = .slot cs seq) (hsent : s.sending a.val p = false) (hnone : (s.arcade a.val).checks = [])
    (hx : s.slotOf cs seq = some x) (hrunner : (x.runners.find? fun r => r.1 == a.val) = some (a.val, g)) :
    Reaches (.tend a []) s fun t =>
      (t.arcade a.val).running = none ∧ ∃ y, t.slotOf cs seq = some y
      ∧ y.runs = x.runs ++ [{ arcade := a.val, group := g, payload := p.payload, flags := p.flags, inst := p.inst
                              sigs := p.sigs ++ [polyFinish p.otherAcc p.otherBlocks] }]
      ∧ (g = 0 → x.runners = [(a.val, 0)] → x.dual = .single → x.fault = false →
          ∃ r, y.computed = some r ∧ r.status = rsOk ∧ r.ready = false) := by
  have hpaused : s.endPaused a.val = false := by
    unfold State.endPaused
    simp only [hrun, hrole]
  have heq := State.endRow_leaves hoff hrun hissued hnone
  rw [hrole] at heq
  obtain ⟨harc, c, hslot, hrec⟩ := State.slotRunEnded_keeps (s := s.programLeft a.val p) (by exact hoff) hx hrunner p.spanEnded
  refine reaches_act (exec_tend a s) hl (by rw [State.tileReady_of_instr hrun hissued hinstr rfl (by simp [hsent]), hpaused]; rfl) ?_
  rw [heq, State.settle_arcade, State.slotOf_settle, harc, hslot, State.programLeft_arcade]
  exact ⟨rfl, _, rfl, rfl, hrec⟩

/-! The end of a job's program (R169, R219, R253). -/

theorem State.startJobStep_keeps {s : State} {j : Nat} (h : ∀ e ∈ s.jobEntries j, s.noPrograms e.2.arcade = false) :
    ((s.startJobStep j).job j).ready = (s.job j).ready ∧ ((s.startJobStep j).job j).active = (s.job j).active
      ∧ (∀ i, i ≠ j → (s.startJobStep j).job i = s.job i) ∧ ∀ m, (s.startJobStep j).session m = s.session m := by
  cases hplan : (s.plan (s.job j).win).running with
  | none =>
    have heq : s.startJobStep j = s := by
      unfold State.startJobStep
      simp only [hplan]
    rw [heq]
    exact ⟨rfl, rfl, fun _ _ => rfl, fun _ => rfl⟩
  | some plan =>
    obtain ⟨arc, heq⟩ := State.startJobStep_eq hplan h
    have hjob : ∀ i, (s.startJobStep j).job i = (s.onJob j fun x => { x with
        runners := (s.jobEntries j).map fun e => e.2.arcade, runs := [], steps := (s.job j).steps + 1
        stepGen := (s.session (s.job j).session).planGen }).job i := by
      intro i
      rw [heq]
      rfl
    refine ⟨?_, ?_, fun i hi => (hjob i).trans (s.job_of_onJob_other _ hi), fun m => ?_⟩
    · rw [hjob, State.job_of_onJob]
    · rw [hjob, State.job_of_onJob]
    · rw [heq]
      rfl

/-- The outcome of a job's program that ends. -/
def Prog.runOut (p : Prog) (a : Nat) : RunOut :=
  { arcade := a, group := 0, payload := p.payload, flags := p.flags, sigs := p.sigs, inst := p.inst }

theorem State.noPrograms_of {s t : State} (hqc : t.health = s.health) (hinteg : ∀ b, (t.arcade b).integ = (s.arcade b).integ) (hpm : t.pm = s.pm)
    (b : Nat) : t.noPrograms b = s.noPrograms b := by
  unfold State.noPrograms State.quarterOut State.qcOf
  rw [hqc, hinteg, hpm]

theorem State.jobEntries_of {s t : State} {j : Nat} (hplans : t.plans = s.plans) (hwin : (t.job j).win = (s.job j).win)
    (hentry : (t.job j).entry = (s.job j).entry) : t.jobEntries j = s.jobEntries j := by
  unfold State.jobEntries State.plan
  simp only [hplans, hwin, hentry]

theorem State.programLeft_noPrograms (s : State) (a : Nat) (p : Prog) (b : Nat) : (s.programLeft a p).noPrograms b = s.noPrograms b := by
  refine State.noPrograms_of (s := s) (t := s.programLeft a p) rfl (fun n => ?_) rfl b
  by_cases hn : n = a
  · rw [hn, State.programLeft_arcade]
    rfl
  · exact congrArg Arcade.integ ((State.arcade_of_onArc_other _ _ hn).trans (s.arcade_of_onArc_other _ hn))

/-- A record is formed and its job and session take their next numbers; what formed it is noted. -/
def State.jobRecord (s : State) (a j : Nat) (r : JobRec) (inst : Nat) : State :=
  ((s.onSess (s.job j).session fun x => { x with rseqNext := x.rseqNext + 1 }).noteFormed a (s.job j).session inst r.rseq).onJob j
    fun x => { x with ready := x.ready ++ [r], redo := x.redo - 1 }

theorem State.jobRecord_entries (s : State) (a j : Nat) (r : JobRec) (inst : Nat) :
    (s.jobRecord a j r inst).jobEntries j = s.jobEntries j := by
  have hjob : (s.jobRecord a j r inst).job j = { s.job j with ready := (s.job j).ready ++ [r], redo := (s.job j).redo - 1 } := by
    unfold State.jobRecord
    rw [State.job_of_onJob]
    rfl
  exact State.jobEntries_of rfl ((congrArg Job.win hjob).trans rfl) ((congrArg Job.entry hjob).trans rfl)

theorem State.jobRecord_rseqNext (s : State) (a j : Nat) (r : JobRec) (inst : Nat) :
    ((s.jobRecord a j r inst).session (s.job j).session).rseqNext = (s.session (s.job j).session).rseqNext + 1 :=
  congrArg Session.rseqNext (s.session_of_onSess (s.job j).session fun x => { x with rseqNext := x.rseqNext + 1 })

theorem State.jobRecord_noPrograms (s : State) (a j : Nat) (r : JobRec) (inst b : Nat) :
    (s.jobRecord a j r inst).noPrograms b = s.noPrograms b := by
  refine State.noPrograms_of (s := s) (t := s.jobRecord a j r inst) rfl (fun n => ?_) rfl b
  obtain ⟨f, hf⟩ := State.noteFormed_arcade (s.onSess (s.job j).session fun x => { x with rseqNext := x.rseqNext + 1 }) a
    (s.job j).session inst r.rseq n
  exact (congrArg Arcade.integ hf).trans rfl

/-- The record of a step that one program made. -/
theorem State.jobStepEnded_eq {s : State} {a j : Nat} {o : RunOut} (hoff : s.fm.state = .off) (hready : (s.job j).ready = [])
    (hrunners : (s.job j).runners = [a]) (hruns : (s.job j).runs = [o]) (ho : o.arcade = a) : ∃ r : JobRec,
      s.jobStepEnded j = (s.jobRecord a j r o.inst).startJobStep j ∧ r.flags = o.flags ∧ r.formed = s.now ∧ r.seq = (s.job j).seq + 1
      ∧ r.rseq = (s.session (s.job j).session).rseqNext.toNat ∧ r.planGen = (s.job j).stepGen := by
  subst ho
  unfold State.jobStepEnded State.reserve
  simp only [hrunners, hruns, hready]
  rw [State.sendResv_off (by exact hoff)]
  have hfound : [o.arcade].filterMap (fun b => [o].find? fun y => y.arcade == b) = [o] := by simp
  rw [hfound]
  refine ⟨_, rfl, ?_, rfl, rfl, rfl, rfl⟩
  show (0 ||| o.flags) = o.flags
  simp

/-- Outside a pair, the last program of a job's step forms the step's record, with the next numbers of the job and its session. -/
theorem State.jobRunEnded_forms {s : State} {a j : Nat} (hoff : s.fm.state = .off) (hactive : (s.job j).active = true)
    (hready : (s.job j).ready = []) (hrunners : (s.job j).runners = [a]) (hruns : (s.job j).runs = [])
    (hstart : ∀ e ∈ s.jobEntries j, s.noPrograms e.2.arcade = false) (p : Prog) :
    let x := s.job j
    let t := s.jobRunEnded a j p
    (∃ q : JobRec, (t.job j).ready = [q] ∧ q.flags = p.flags ∧ q.formed = s.now ∧ q.seq = x.seq + 1
      ∧ q.rseq = (s.session x.session).rseqNext.toNat ∧ q.planGen = x.stepGen)
    ∧ (t.session x.session).rseqNext = (s.session x.session).rseqNext + 1 ∧ (t.job j).active = true ∧ ∀ i, i ≠ j → t.job i = s.job i := by
  intro x t
  have hjob : (s.onJob j fun y => { y with runs := y.runs ++ [p.runOut a] }).job j = { x with runs := [p.runOut a] } := by
    rw [State.job_of_onJob, hruns]
    rfl
  have hended : t = (s.onJob j fun y => { y with runs := y.runs ++ [p.runOut a] }).jobStepEnded j := by
    show s.jobRunEnded a j p = _
    unfold State.jobRunEnded
    simp only
    rw [show ({ arcade := a, group := 0, payload := p.payload, flags := p.flags, sigs := p.sigs, inst := p.inst } : RunOut) = p.runOut a
      from rfl, hjob, if_pos (by simp [x, hactive, hrunners, Prog.runOut])]
  obtain ⟨r, heq, hflags, hformed, hseq, hrseq, hgen⟩ := State.jobStepEnded_eq
    (s := s.onJob j fun y => { y with runs := y.runs ++ [p.runOut a] }) (a := a) (j := j) (o := p.runOut a) hoff (by rw [hjob]; exact hready)
    (by rw [hjob]; exact hrunners) (by rw [hjob]) rfl
  have hentries : ((s.onJob j fun y => { y with runs := y.runs ++ [p.runOut a] }).jobRecord a j r (p.runOut a).inst).jobEntries j = s.jobEntries j :=
    (State.jobRecord_entries _ a j r _).trans
      (State.jobEntries_of rfl ((congrArg Job.win hjob).trans rfl) ((congrArg Job.entry hjob).trans rfl))
  obtain ⟨hlist, hact, hothers, hsess⟩ := State.startJobStep_keeps fun e he =>
    (State.jobRecord_noPrograms (s.onJob j fun y => { y with runs := y.runs ++ [p.runOut a] }) a j r (p.runOut a).inst e.2.arcade).trans
      (hstart e (hentries ▸ he))
  rw [hjob] at hseq hrseq hgen
  rw [hended, heq]
  refine ⟨⟨r, hlist.trans ?_, hflags, hformed, hseq, hrseq, hgen⟩, ?_, hact.trans ?_, fun i hi => (hothers i hi).trans ?_⟩
  · unfold State.jobRecord
    rw [State.job_of_onJob]
    show ((s.onJob j fun y => { y with runs := y.runs ++ [p.runOut a] }).job j).ready ++ [r] = [r]
    rw [hjob]
    simp [x, hready]
  · have hnext := State.jobRecord_rseqNext (s.onJob j fun y => { y with runs := y.runs ++ [p.runOut a] }) a j r (p.runOut a).inst
    rw [hjob] at hnext
    rw [hsess]
    exact hnext
  · unfold State.jobRecord
    rw [State.job_of_onJob]
    show ((s.onJob j fun y => { y with runs := y.runs ++ [p.runOut a] }).job j).active = true
    rw [hjob]
    exact hactive
  · exact (State.job_of_onJob_other _ _ hi).trans (s.job_of_onJob_other (fun y => { y with runs := y.runs ++ [p.runOut a] }) hi)

theorem State.tend_job_ends {s : State} {a : Arc} {p : Prog} {n j : Nat} (hl : s.live = true) (hoff : s.fm.state = .off)
    (hrun : (s.arcade a.val).running = some p) (hissued : p.atBoundary = false) (hgoes : p.ending = false) (hinstr : p.instr = some (.tend, n))
    (hrole : p.role = .job j) (hsent : s.sending a.val p = false) (hnone : (s.arcade a.val).checks = []) (hactive : (s.job j).active = true)
    (hready : (s.job j).ready = []) (hrunners : (s.job j).runners = [a.val]) (hruns : (s.job j).runs = [])
    (hstart : ∀ e ∈ s.jobEntries j, s.noPrograms e.2.arcade = false) : Reaches (.tend a []) s fun t =>
      let x := s.job j
      (∃ q : JobRec, (t.job j).ready = [q] ∧ q.flags = p.flags ∧ q.formed = s.now ∧ q.seq = x.seq + 1
        ∧ q.rseq = (s.session x.session).rseqNext.toNat ∧ q.planGen = x.stepGen)
      ∧ (t.session x.session).rseqNext = (s.session x.session).rseqNext + 1 ∧ (t.job j).active = true ∧ ∀ i, i ≠ j → t.job i = s.job i := by
  have hpaused : s.endPaused a.val = false := by
    unfold State.endPaused
    simp only [hrun, hrole, hready, List.isEmpty_nil, Bool.not_true, Bool.false_and]
  have heq := State.endRow_leaves hoff hrun hissued hnone
  rw [hrole] at heq
  dsimp only at heq
  rw [if_neg (by simp [hgoes])] at heq
  have hforms := State.jobRunEnded_forms (s := s.programLeft a.val p) (a := a.val) (j := j) (by exact hoff) hactive hready hrunners hruns
    (fun e he => (s.programLeft_noPrograms a.val p e.2.arcade).trans (hstart e he)) p.spanEnded
  refine reaches_act (exec_tend a s) hl (by rw [State.tileReady_of_instr hrun hissued hinstr rfl (by simp [hsent]), hpaused]; rfl) ?_
  rw [heq]
  simp only [State.settle_job, State.session_settle]
  exact hforms

/-! A program that waits beyond its bound (R134, R135, R370). -/

theorem State.cancelChecks_running (s : State) (a : Nat) (f : Check → Bool) (b : Nat) :
    ((s.cancelChecks a f).arcade b).running = (s.arcade b).running := by
  refine Eq.trans ?_ (State.onArc_proj (p := Arcade.running) (f := fun c => { c with checks := c.checks.filter fun k => !f k }) (fun _ => rfl) s a b)
  unfold State.cancelChecks State.arcade
  dsimp only
  rw [Tab.get_mapVals (d := ({} : Arcade)) _ _ b rfl]

theorem State.cancelSpan_running (s : State) (a : Nat) (p : Prog) (b : Nat) : ((s.cancelSpan a p).arcade b).running = (s.arcade b).running := by
  unfold State.cancelSpan
  split
  · exact s.cancelChecks_running a _ b
  · rfl

theorem State.cancelSpan_arc (s : State) (a : Nat) (p : Prog) : ∃ arc, s.cancelSpan a p = { s with arc := arc } := by
  unfold State.cancelSpan
  split
  · exact ⟨_, rfl⟩
  · exact ⟨s.arc, rfl⟩

/-- A KEYED session without a fault faults now; the others stay. -/
theorem State.sessionFault_now {s : State} {sc : Nat} (hk : (s.session sc).state = .keyed) (hf : (s.session sc).faultAt = none) (r : HRec) :
    ((s.sessionFault sc r).session sc).state = .faulted ∧ ((s.sessionFault sc r).session sc).faultAt = some s.now
      ∧ ∀ m, m ≠ sc → (s.sessionFault sc r).session m = s.session m := by
  unfold State.sessionFault
  dsimp only
  rw [if_neg (by simp [hk, hf])]
  have hsess : ∀ (u : State) (w : Nat) (g : Window → Window) (m : Nat), (u.onWin w g).session m = u.session m := fun _ _ _ _ => rfl
  rw [hsess, State.session_of_onSess]
  exact ⟨rfl, rfl, fun m hm => (hsess _ _ _ m).trans (State.session_of_onSess_other _ _ hm)⟩

theorem State.slotFault_frame (s : State) (cs seq : Nat) : ∃ x, s.slotFault cs seq = { s with streams := x } := by
  unfold State.slotFault
  obtain ⟨x, hx⟩ := State.formDecided_frame (s.onSlot cs seq fun y => { y with fault := true }) cs seq rsFault
  exact ⟨x, hx⟩

theorem State.programFault_faults {s : State} {a event : Nat} {p : Prog} (hk : (s.session p.session).state = .keyed)
    (hf : (s.session p.session).faultAt = none) :
    ((s.programFault a p event).arcade a).running = none ∧ ((s.programFault a p event).session p.session).state = .faulted
      ∧ ((s.programFault a p event).session p.session).faultAt = some s.now
      ∧ ∀ m, m ≠ p.session → (s.programFault a p event).session m = s.session m := by
  have hidle : (((s.leaveArcade a).cancelSpan a p).arcade a).running = none := by
    rw [State.cancelSpan_running]
    exact congrArg Arcade.running (s.arcade_of_onArc a _)
  obtain ⟨arc, hleft⟩ := State.cancelSpan_arc (s.leaveArcade a) a p
  obtain ⟨hstate, hat, hothers⟩ := State.sessionFault_now (s := (s.leaveArcade a).cancelSpan a p) (sc := p.session)
    (by rw [hleft]; exact hk) (by rw [hleft]; exact hf) { event := event, unitKind := 1, unit := a, origin := p.role.origin }
  have hfault : ∃ x, s.programFault a p event = { ((s.leaveArcade a).cancelSpan a p).sessionFault p.session
      { event := event, unitKind := 1, unit := a, origin := p.role.origin } with streams := x } := by
    unfold State.programFault
    dsimp only
    split
    · exact State.slotFault_frame _ _ _
    · exact ⟨_, rfl⟩
  obtain ⟨x, hx⟩ := hfault
  rw [hx]
  refine ⟨?_, hstate, hat.trans ?_, fun m hm => (hothers m hm).trans ?_⟩
  · rw [← hidle]
    exact congrArg (fun arc => (Tab.get ({} : Arcade) arc a).running) (State.sessionFault_arc _ _ _)
  · rw [hleft]
    rfl
  · rw [hleft]
    rfl

/-! A faulted session is ended (R262, R370). -/

theorem State.faultAt_of_beside {s t : State} (h : t.beside = s.beside) (n : Nat) : (t.session n).faultAt = (s.session n).faultAt :=
  congrArg (fun b : Beside => (b.sess n).faultAt) h

/-- A session of a block outside a pair that is ended has no fault pending. -/
theorem State.abortSession_faultAt {s : State} {sc : Nat} (hstate : (s.session sc).state ≠ .free) (hoff : s.fm.state = .off) (status : Nat) :
    ((s.abortSession sc status).session sc).faultAt = none := by
  unfold State.abortSession
  dsimp only
  rw [if_neg (by simpa using hstate), if_neg (by rw [State.isStandby_off hoff]; decide)]
  generalize State.giveBack _ sc = u
  have hclosing : ((u.onSess sc Session.closing).session sc).faultAt = none := by
    rw [State.session_of_onSess]
    rfl
  rw [State.faultAt_of_beside (State.beside_sendCtx _ sc)]
  split
  · rw [State.faultAt_of_beside (State.beside_dropPlant _ sc), hclosing]
  · rw [State.faultAt_of_beside (State.beside_cut _ sc _ _ _)]
    exact (State.faultAt_of_beside (State.beside_dropPlant _ sc) sc).trans hclosing

/-- Settles O45. -/
theorem programsEndAndQueue : Obligations.ProgramsEndAndQueue := by
  refine ⟨?bound, ?slot, ?job, ?part, ?timeout, ?queued, ?bulk, ?abort⟩
  case bound =>
    intro s a p n hs hoff hrun hissued hgoes hinstr hsent hcap
    exact State.bound_ends hs hoff hrun hissued hgoes hinstr hsent hcap
  case slot =>
    intro s a p n cs seq g x hl hoff hrun hissued hinstr hrole hsent hnone hx hrunner
    exact State.tend_slot_ends hl hoff hrun hissued hinstr hrole hsent hnone hx hrunner
  case job =>
    intro s a p n j hl hoff hrun hissued hgoes hinstr hrole hsent hnone hactive hready hrunners hruns hstart
    exact State.tend_job_ends hl hoff hrun hissued hgoes hinstr hrole hsent hnone hactive hready hrunners hruns hstart
  case part =>
    intro s a rdesc part x v hs hx
    exact State.partArrival_marks v hs hx
  case timeout =>
    intro s a p comb hl hstuck hk hf
    obtain ⟨hidle, hstate, hat, hothers⟩ := State.programFault_faults (a := a.val) (event := 0x0203) hk hf
    refine reaches_act (exec_timeout hstuck) hl rfl ?_
    simp only [State.settle_arcade, State.session_settle]
    exact ⟨hidle, hstate, hat, hothers⟩
  case queued =>
    intro s a x r hs hidle hq
    exact State.queuedSlotStart_starts hs hidle hq
  case bulk =>
    intro s a x r hs hidle hq hb
    exact State.bulkResume_resumes hs hidle hq hb
  case abort =>
    intro s sc at0 hl hoff hstate hat hdue
    refine reaches_act (exec_sessionFaultAbort hat) hl (by simpa using hdue) ?_
    simp only [State.session_settle]
    exact ⟨State.abortSession_closing hstate hoff stFault, State.abortSession_faultAt hstate hoff stFault⟩

end Sys2Proof.Machine
end

