-- ==== Sys2Proof/Proofs/TileMoves.lean ====
section
/-! PROOFS. The words of a tile program that move data: MOVE and OUT (R95, R100, R132, R136). -/

namespace Sys2Proof.Machine

/-! Stores that hold no poison (R98, R100). -/

/-- No entry of a poison table is set. -/
def Tab.sound (t : Tab Bool) : Prop := ∀ k, Tab.get false t k = false

theorem Tab.sound_nil : Tab.sound [] := fun _ => rfl

theorem Tab.sound_setMany {t : Tab Bool} (h : Tab.sound t) {v : List Bool} (hv : ∀ b ∈ v, b = false) (k : Nat) :
    Tab.sound (Tab.setMany false t k v) := by
  intro x
  rw [Tab.get_setMany]
  split
  · next hx =>
    rw [List.getD_eq_getElem _ _ (by omega)]
    exact hv _ (List.getElem_mem _)
  · exact h x

theorem Tab.sound_getMany {t : Tab Bool} (h : Tab.sound t) (k n : Nat) : ∀ b ∈ Tab.getMany false t k n, b = false := by
  intro b hb
  obtain ⟨i, -, rfl⟩ := List.mem_map.mp hb
  exact h _

theorem getD_of_sound {l : List Bool} (h : ∀ b ∈ l, b = false) (k : Nat) : l.getD k false = false := by
  rw [List.getD_eq_getElem?_getD]
  cases hk : l[k]? with
  | none => rfl
  | some b => exact h b (List.mem_of_getElem? hk)

theorem Tab.sound_any {t : Tab Bool} (h : Tab.sound t) (k n : Nat) : (Tab.getMany false t k n).any id = false :=
  List.any_eq_false.mpr fun b hb => by simp [Tab.sound_getMany h k n b hb]

theorem Piazza.line_sound {z : Piazza} (h : Tab.sound z.poison) (x : Nat) : (z.line x).2 = false := Tab.sound_any h _ _

theorem Piazza.writeLine_sound {z : Piazza} (h : Tab.sound z.poison) (y : Nat) (b : Bytes) : Tab.sound (z.writeLine y b false).poison :=
  Tab.sound_setMany h (fun _ hx => List.eq_of_mem_replicate hx) _

/-! Lines stored in the Piazza: what stays of the account of its pages and segments. -/

/-- What of an Ownership Map entry says who may reach its page. -/
def OmapEntry.grants (e : OmapEntry) : OmapEntry := { e with poison := false, scrub := if e.scrub == .dirty then .clean else e.scrub }

theorem OmapEntry.grants_touched (e : OmapEntry) (poison : Bool) :
    ({ e with scrub := if e.scrub == .clean then .dirty else e.scrub, poison := e.poison || poison } : OmapEntry).grants = e.grants := by
  obtain ⟨session, vi, world, conf, was, scrub, valid⟩ := e
  cases scrub <;> rfl

theorem Piazza.grants_writeLine (z : Piazza) (y : Nat) (b : Bytes) (poison : Bool) (page : Nat) :
    (Tab.get {} (z.writeLine y b poison).omap page).grants = (Tab.get {} z.omap page).grants := by
  unfold Piazza.writeLine Piazza.touch
  dsimp only
  by_cases h : page = pageOf y
  · rw [h, Tab.get_upd_same]
    exact OmapEntry.grants_touched _ poison
  · rw [Tab.get_upd_other _ _ _ h]

/-- An entry before and after its page's lines are stored reads alike, but for DIRTY. -/
theorem State.grants_omapOf {s t : State} {page : Nat} (h : (Tab.get {} t.pz.omap page).grants = (Tab.get {} s.pz.omap page).grants)
    (hsegs : t.pz.segs = s.pz.segs) : (t.omapOf page).grants = (s.omapOf page).grants := by
  have hretired : ∀ e : OmapEntry, (e.scrub == .retired) = (e.grants.scrub == .retired) := by
    intro e
    cases hscrub : e.scrub <;> simp [OmapEntry.grants, hscrub]
  have hover : ∀ (e : OmapEntry) (x : Scrub), ({ e with scrub := x } : OmapEntry).grants = ({ e.grants with scrub := x } : OmapEntry).grants :=
    fun _ _ => rfl
  unfold State.omapOf State.segment
  simp only [hsegs]
  rw [hretired, hretired (Tab.get {} s.pz.omap page), h]
  split
  · exact h
  · rw [hover, h, ← hover]

/-- Who may reach a page is what its entry grants. -/
theorem State.pageAllows_of_grants {s t : State} {addr : Nat} (h : (t.omapOf (pageOf addr)).grants = (s.omapOf (pageOf addr)).grants)
    (id : BitVec 16) (sc : Nat) : t.pageAllows id sc addr = s.pageAllows id sc addr := by
  have hscrub : ∀ e : OmapEntry, (e.scrub == .clean || e.scrub == .dirty) = (e.grants.scrub == .clean) := by
    intro e
    cases hs : e.scrub <;> simp [OmapEntry.grants, hs]
  have hvalid := congrArg OmapEntry.valid h
  have hconf := congrArg OmapEntry.conf h
  have hworld := congrArg OmapEntry.world h
  have hsession := congrArg OmapEntry.session h
  have hvi := congrArg OmapEntry.vi h
  simp only [OmapEntry.grants] at hvalid hconf hworld hsession hvi
  unfold State.pageAllows
  simp only [hscrub, h, hvalid, hconf, hworld, hsession, hvi]

/-- A state whose pages are granted as in another. -/
structure State.SamePages (s t : State) : Prop where
  grants : ∀ page, (Tab.get {} t.pz.omap page).grants = (Tab.get {} s.pz.omap page).grants
  segs : t.pz.segs = s.pz.segs
  world : ∀ sc, t.sessionWorld sc = s.sessionWorld sc

theorem State.SamePages.pageOk {s t : State} (h : s.SamePages t) (unit sc addr : Nat) : t.pageOk unit sc addr = s.pageOk unit sc addr := by
  unfold State.pageOk
  rw [h.world]
  exact State.pageAllows_of_grants (State.grants_omapOf (h.grants _) h.segs) _ _

theorem State.SamePages.refl (s : State) : s.SamePages s := ⟨fun _ => rfl, rfl, fun _ => rfl⟩

theorem State.SamePages.writeLine {s t : State} (h : s.SamePages t) (y : Nat) (b : Bytes) (poison : Bool) :
    s.SamePages { t with pz := t.pz.writeLine y b poison } :=
  ⟨fun page => (t.pz.grants_writeLine y b poison page).trans (h.grants page), h.segs, h.world⟩

/-! The rows of a word, in order (R65). -/

/-- Rows that all go on: what each leaves holds after the last. -/
theorem runRows_leaves {f : State → Prog → Nat → Ran} {s : State} {p : Prog} (I : Nat → State → Prog → Prop) (h0 : I 0 s p) {n : Nat}
    (hstep : ∀ k, k < n → ∀ t q, I k t q → ∃ u r, f t q k = { s := u, p := r } ∧ I (k + 1) u r) :
    ∃ t q, runRows n f s p = { s := t, p := q } ∧ I n t q := by
  induction n with
  | zero => exact ⟨s, p, rfl, h0⟩
  | succ n ih =>
    obtain ⟨t, q, hrun, hI⟩ := ih fun k hk => hstep k (Nat.lt_succ_of_lt hk)
    obtain ⟨u, r, hlast, hend⟩ := hstep n (Nat.lt_succ_self n) t q hI
    refine ⟨u, r, ?_, hend⟩
    unfold runRows at hrun ⊢
    rw [List.range_succ, List.foldl_append, hrun]
    simp only [List.foldl_cons, List.foldl_nil, ne_eq, not_true_eq_false, if_false, hlast]

/-! What a word of data keeps of its program. -/

/-- A program without its signatures, its record and its flags. -/
def Prog.course (p : Prog) : Prog := { p with sigAcc := 0, sigBlocks := 0, otherAcc := 0, otherBlocks := 0, flags := 0, payload := [] }

theorem Prog.course_sign (p : Prog) (kind binding flags offset : Nat) (data : Bytes) :
    (p.sign kind binding flags offset data).course = p.course := by
  unfold Prog.sign
  dsimp only
  split <;> rfl

theorem Prog.flags_sign (p : Prog) (kind binding flags offset : Nat) (data : Bytes) : (p.sign kind binding flags offset data).flags = p.flags := by
  unfold Prog.sign
  dsimp only
  split <;> rfl

theorem Prog.payload_sign (p : Prog) (kind binding flags offset : Nat) (data : Bytes) :
    (p.sign kind binding flags offset data).payload = p.payload := by
  unfold Prog.sign
  dsimp only
  split <;> rfl

theorem Prog.of_course {α : Type} (f : Prog → α) (hf : ∀ x, f x.course = f x) {p q : Prog} (h : q.course = p.course) : f q = f p := by
  rw [← hf, h, hf]

theorem Prog.address_of_course {p q : Prog} (h : q.course = p.course) (k : Nat) : q.address k = p.address k :=
  Prog.of_course (fun x => x.address k) (fun _ => rfl) h
theorem Prog.session_of_course {p q : Prog} (h : q.course = p.course) : q.session = p.session := Prog.of_course _ (fun _ => rfl) h
theorem Prog.plan_of_course {p q : Prog} (h : q.course = p.course) : q.plan = p.plan := Prog.of_course _ (fun _ => rfl) h
theorem Prog.valid_of_course {p q : Prog} (h : q.course = p.course) : q.valid = p.valid := Prog.of_course _ (fun _ => rfl) h
theorem Prog.role_of_course {p q : Prog} (h : q.course = p.course) : q.role = p.role := Prog.of_course _ (fun _ => rfl) h
theorem Prog.poisoned_of_course {p q : Prog} (h : q.course = p.course) : q.poisoned = p.poisoned := Prog.of_course _ (fun _ => rfl) h

/-- The program past a word of n words goes on. -/
theorem Prog.goes_of_course {p q : Prog} (h : q.course = p.course) (n : Nat) : q.pc + n = p.pc + n ∧ q.ads = p.ads ∧ q.loops = p.loops :=
  ⟨Prog.of_course (fun x => x.pc + n) (fun _ => rfl) h, Prog.of_course _ (fun _ => rfl) h, Prog.of_course _ (fun _ => rfl) h⟩

/-! MOVE (R136). -/

/-- The Piazza after the first lines of a MOVE. -/
def Piazza.moved (z : Piazza) (x y : Nat → Nat) (n : Nat) : Piazza :=
  (List.range n).foldl (fun z k => z.writeLine (y k) (z.line (x k)).1 false) z

theorem Piazza.moved_succ (z : Piazza) (x y : Nat → Nat) (n : Nat) :
    z.moved x y (n + 1) = (z.moved x y n).writeLine (y n) ((z.moved x y n).line (x n)).1 false := by
  unfold Piazza.moved
  rw [List.range_succ, List.foldl_append]
  rfl

theorem Piazza.mem_moved (z : Piazza) (x y : Nat → Nat) {n w : Nat} (h : ∀ k, k < n → w / 64 ≠ y k / 64) :
    Tab.get 0 (z.moved x y n).mem w = Tab.get 0 z.mem w := by
  induction n with
  | zero => rfl
  | succ n ih =>
    rw [Piazza.moved_succ, Piazza.mem_writeLine, if_neg (h n (Nat.lt_succ_self n)), ih fun k hk => h k (Nat.lt_succ_of_lt hk)]

/-- A good line that the program's unit may read and write is copied. -/
theorem State.moveLine_copies {s : State} {a src dst n : Nat} {p : Prog} (hsound : Tab.sound s.pz.poison)
    (hread : s.pageOk (0x10 + a) p.session (p.address src / 64 * 64 + 64 * n) = true)
    (hwrite : s.pageOk (0x10 + a) p.session (p.address dst / 64 * 64 + 64 * n) = true) :
    let x := p.address src / 64 * 64 + 64 * n
    let y := p.address dst / 64 * 64 + 64 * n
    ∃ q : Prog, s.moveLine a p src dst n = { s := { s with pz := s.pz.writeLine y (s.pz.line x).1 false }, p := q } ∧ q.course = p.course := by
  have hgood := Piazza.line_sound hsound (p.address src / 64 * 64 + 64 * n)
  unfold State.moveLine
  dsimp only
  rw [if_pos (by rw [hread, hwrite]; rfl), hgood]
  refine ⟨_, rfl, ?_⟩
  have hsigned := p.course_sign 0 (p.plan.bindingOf p.schedule (p.address dst / 64 * 64 + 64 * n)).1 0
    (p.plan.bindingOf p.schedule (p.address dst / 64 * 64 + 64 * n)).2 (s.pz.line (p.address src / 64 * 64 + 64 * n)).1
  rw [Bool.or_false, ← Prog.poisoned_of_course hsigned]
  exact hsigned

theorem State.move_runs {s : State} {a src dst lines : Nat} {p : Prog} (hsound : s.pz.poison = [])
    (hpages : ∀ k, k < lines → s.pageOk (0x10 + a) p.session (p.address src / 64 * 64 + 64 * k) = true
      ∧ s.pageOk (0x10 + a) p.session (p.address dst / 64 * 64 + 64 * k) = true) :
    let x := fun k => p.address src / 64 * 64 + 64 * k
    let y := fun k => p.address dst / 64 * 64 + 64 * k
    ∃ q : Prog, runRows lines (fun s p k => s.moveLine a p src dst k) s p = { s := { s with pz := s.pz.moved x y lines }, p := q }
      ∧ q.course = p.course := by
  intro x y
  obtain ⟨t, q, hrun, ⟨ht, -, -⟩, hq⟩ := runRows_leaves (f := fun s p k => s.moveLine a p src dst k) (s := s) (p := p) (n := lines)
    (fun k t q => (t = { s with pz := s.pz.moved x y k }
      ∧ s.SamePages t ∧ Tab.sound t.pz.poison) ∧ q.course = p.course)
    ⟨⟨rfl, State.SamePages.refl s, hsound ▸ Tab.sound_nil⟩, rfl⟩ fun k hk t q hI => by
      obtain ⟨⟨ht, hsame, hgood⟩, hq⟩ := hI
      obtain ⟨hread, hwrite⟩ := hpages k hk
      obtain ⟨r, hmove, hr⟩ := State.moveLine_copies (s := t) (a := a) (src := src) (dst := dst) (n := k) (p := q) hgood
        (by rw [hsame.pageOk, Prog.session_of_course hq, Prog.address_of_course hq]; exact hread)
        (by rw [hsame.pageOk, Prog.session_of_course hq, Prog.address_of_course hq]; exact hwrite)
      refine ⟨_, r, hmove, ⟨?_, hsame.writeLine _ _ _, Piazza.writeLine_sound hgood _ _⟩, hr.trans hq⟩
      rw [Prog.address_of_course hq, Prog.address_of_course hq, ht, Piazza.moved_succ]
  exact ⟨q, hrun.trans (by rw [ht]), hq⟩

theorem exec_move (a : Arc) (s : State) : exec (.move a []) s = act (s.tileReady a.val TileInstr.isMove) (fun s => s.tileRow a.val []) s := rfl

/-- Lines stored in the Piazza leave the conditions of DEVICE_DEGRADED. -/
theorem State.Synced.withPz {s : State} (hs : s.Synced) {z : Piazza} (h : z.segs = s.pz.segs) : State.Synced { s with pz := z } :=
  hs.congr rfl (fun _ => rfl) (fun n => congrArg (fun t => (Tab.get ({} : Segment) t n).state) h) (fun _ => rfl) rfl rfl rfl

theorem Piazza.segs_moved (z : Piazza) (x y : Nat → Nat) (n : Nat) : (z.moved x y n).segs = z.segs :=
  foldl_keeps Piazza.segs (fun z k => z.writeLine (y k) (z.line (x k)).1 false) (fun _ _ => rfl) _ _

theorem State.move_moves {s : State} {a : Arc} {p : Prog} {n src dst lines : Nat} (hs : s.Up) (hrun : (s.arcade a.val).running = some p)
    (hissued : p.atBoundary = false) (hgood : p.poisoned = false) (hsent : s.sending a.val p = false) (hsound : s.pz.poison = [])
    (hinstr : p.instr = some (.move src dst lines, n)) :
    let x (k : Nat) : Nat := p.address src / 64 * 64 + 64 * k
    let y (k : Nat) : Nat := p.address dst / 64 * 64 + 64 * k
    (∀ k, k < lines → s.pageOk (0x10 + a.val) p.session (x k) = true ∧ s.pageOk (0x10 + a.val) p.session (y k) = true) →
    Reaches (.move a []) s fun t =>
      t = { s with arc := t.arc, pz := t.pz }
      ∧ (∃ q, (t.arcade a.val).running = some q ∧ q.pc = p.pc + n ∧ q.ads = p.ads ∧ q.loops = p.loops)
      ∧ (t.arcade a.val).als = (s.arcade a.val).als
      ∧ t.pz = (List.range lines).foldl (fun z k => z.writeLine (y k) (z.line (x k)).1 false) s.pz
      ∧ ∀ w, (∀ k, k < lines → w / 64 ≠ y k / 64) → Tab.get 0 t.pz.mem w = Tab.get 0 s.pz.mem w := by
  intro x y hpages
  obtain ⟨q, hmove, hq⟩ := State.move_runs hsound hpages
  have hrow : s.runInstr a.val p (.move src dst lines) n [] = { s := { s with pz := s.pz.moved x y lines }, p := { q with pc := q.pc + n } } := by
    show (runRows lines (fun s p k => s.moveLine a.val p src dst k) s p).pass n = _
    rw [hmove]
    exact Ran.pass_sound ((Prog.poisoned_of_course hq).trans hgood) n
  obtain ⟨hpc, hads, hloops⟩ := Prog.goes_of_course hq n
  refine reaches_runs hs hrun hissued (exec_move a s) hinstr rfl (by simp [hsent]) hrow (hs.2.withPz (s.pz.segs_moved x y lines)) rfl
    ⟨rfl, ?_, ?_, rfl, fun w hw => s.pz.mem_moved x y hw⟩
  · rw [State.arcade_runs]
    exact ⟨_, rfl, hpc, hads, hloops⟩
  · rw [State.arcade_runs]
    rfl

end Sys2Proof.Machine
end

