-- ==== Sys2Proof/Proofs/TileDrains.lean ====
section
/-! PROOFS. OUT: the rows of an accumulator leave for the Piazza, the Local Store or a record (R132). -/

namespace Sys2Proof.Machine

/-! Good lines stored one after the other. -/

def Piazza.stored (z : Piazza) (lines : List (Nat × Bytes)) : Piazza := lines.foldl (fun z y => z.writeLine y.1 y.2 false) z

def Arcade.stored (c : Arcade) (lines : List (Nat × Bytes)) : Arcade := lines.foldl (fun c y => c.writeAls y.1 y.2 false) c

theorem Piazza.segs_stored (z : Piazza) (lines : List (Nat × Bytes)) : (z.stored lines).segs = z.segs := by
  induction lines generalizing z with
  | nil => rfl
  | cons y r ih => exact ih (z.writeLine y.1 y.2 false)

theorem Piazza.grants_stored (z : Piazza) (lines : List (Nat × Bytes)) (page : Nat) :
    (Tab.get {} (z.stored lines).omap page).grants = (Tab.get {} z.omap page).grants := by
  induction lines generalizing z with
  | nil => rfl
  | cons y r ih => exact (ih (z.writeLine y.1 y.2 false)).trans (z.grants_writeLine y.1 y.2 false page)

theorem Piazza.mem_stored (z : Piazza) {lines : List (Nat × Bytes)} {x : Nat} (h : ∀ y ∈ lines, x / 64 ≠ y.1 / 64) :
    Tab.get 0 (z.stored lines).mem x = Tab.get 0 z.mem x := by
  induction lines generalizing z with
  | nil => rfl
  | cons y r ih =>
    refine (ih (z.writeLine y.1 y.2 false) fun w hw => h w (List.mem_cons_of_mem _ hw)).trans ?_
    rw [Piazza.mem_writeLine, if_neg (h y List.mem_cons_self)]

theorem Arcade.stored_eq (c : Arcade) (lines : List (Nat × Bytes)) : ∃ als poison, c.stored lines = { c with als := als, alsPoison := poison } := by
  induction lines generalizing c with
  | nil => exact ⟨c.als, c.alsPoison, rfl⟩
  | cons y r ih =>
    obtain ⟨als, poison, h⟩ := ih (c.writeAls y.1 y.2 false)
    exact ⟨als, poison, h⟩

theorem Arcade.als_writeAls (c : Arcade) {addr x : Nat} (h : x / 64 ≠ addr / 64) (b : Bytes) (poison : Bool) :
    Tab.get 0 (c.writeAls addr b poison).als x = Tab.get 0 c.als x := by
  unfold Arcade.writeAls
  dsimp only
  rw [Tab.get_setMany, Bytes.slice_length, if_neg (by omega)]

theorem Arcade.als_stored (c : Arcade) {lines : List (Nat × Bytes)} {x : Nat} (h : ∀ y ∈ lines, x / 64 ≠ y.1 / 64) :
    Tab.get 0 (c.stored lines).als x = Tab.get 0 c.als x := by
  induction lines generalizing c with
  | nil => rfl
  | cons y r ih =>
    exact (ih (c.writeAls y.1 y.2 false) fun w hw => h w (List.mem_cons_of_mem _ hw)).trans
      (c.als_writeAls (h y List.mem_cons_self) y.2 false)

/-! Rows of lines. -/

def Piazza.storedRows (z : Piazza) (lines : Nat → List (Nat × Bytes)) (n : Nat) : Piazza :=
  (List.range n).foldl (fun z k => z.stored (lines k)) z

def Arcade.storedRows (c : Arcade) (lines : Nat → List (Nat × Bytes)) (n : Nat) : Arcade :=
  (List.range n).foldl (fun c k => c.stored (lines k)) c

theorem Piazza.storedRows_succ (z : Piazza) (lines : Nat → List (Nat × Bytes)) (n : Nat) :
    z.storedRows lines (n + 1) = (z.storedRows lines n).stored (lines n) := by
  unfold Piazza.storedRows
  rw [List.range_succ, List.foldl_append]
  rfl

theorem Arcade.storedRows_succ (c : Arcade) (lines : Nat → List (Nat × Bytes)) (n : Nat) :
    c.storedRows lines (n + 1) = (c.storedRows lines n).stored (lines n) := by
  unfold Arcade.storedRows
  rw [List.range_succ, List.foldl_append]
  rfl

theorem Piazza.segs_storedRows (z : Piazza) (lines : Nat → List (Nat × Bytes)) (n : Nat) : (z.storedRows lines n).segs = z.segs :=
  foldl_keeps Piazza.segs (fun z k => z.stored (lines k)) (fun z k => z.segs_stored (lines k)) _ _

theorem Piazza.grants_storedRows (z : Piazza) (lines : Nat → List (Nat × Bytes)) (n page : Nat) :
    (Tab.get {} (z.storedRows lines n).omap page).grants = (Tab.get {} z.omap page).grants :=
  foldl_keeps (fun z : Piazza => (Tab.get {} z.omap page).grants) (fun z k => z.stored (lines k))
    (fun z k => z.grants_stored (lines k) page) _ _

theorem Piazza.mem_storedRows (z : Piazza) {lines : Nat → List (Nat × Bytes)} {n x : Nat}
    (h : ∀ k, k < n → ∀ y ∈ lines k, x / 64 ≠ y.1 / 64) : Tab.get 0 (z.storedRows lines n).mem x = Tab.get 0 z.mem x := by
  induction n with
  | zero => rfl
  | succ n ih =>
    rw [Piazza.storedRows_succ, Piazza.mem_stored _ (h n (Nat.lt_succ_self n)), ih fun k hk => h k (Nat.lt_succ_of_lt hk)]

theorem Arcade.als_storedRows (c : Arcade) {lines : Nat → List (Nat × Bytes)} {n x : Nat}
    (h : ∀ k, k < n → ∀ y ∈ lines k, x / 64 ≠ y.1 / 64) : Tab.get 0 (c.storedRows lines n).als x = Tab.get 0 c.als x := by
  induction n with
  | zero => rfl
  | succ n ih =>
    rw [Arcade.storedRows_succ, Arcade.als_stored _ (h n (Nat.lt_succ_self n)), ih fun k hk => h k (Nat.lt_succ_of_lt hk)]

theorem Arcade.storedRows_eq (c : Arcade) (lines : Nat → List (Nat × Bytes)) (n : Nat) :
    ∃ als poison, c.storedRows lines n = { c with als := als, alsPoison := poison } := by
  induction n with
  | zero => exact ⟨c.als, c.alsPoison, rfl⟩
  | succ n ih =>
    obtain ⟨als, poison, h⟩ := ih
    rw [Arcade.storedRows_succ, h]
    exact Arcade.stored_eq _ _

/-! One row leaves (R132). -/

section
variable {s : State} {a addr fl : Nat} {p : Prog} {data scales : Bytes}

theorem State.outRow_piazza (h : ∀ y ∈ outLines addr data scales, segOf y.1 = a ∧ s.pageOk (0x10 + a) p.session y.1 = true) :
    ∃ q : Prog, s.outRow a p 0 addr data scales fl false = some ({ s with pz := s.pz.stored (outLines addr data scales) }, q)
      ∧ q.course = p.course ∧ q.flags = p.flags ∧ q.payload = p.payload := by
  have hall : ((outLines addr data scales).all fun x => segOf x.1 == a && s.pageOk (0x10 + a) p.session x.1) = true :=
    List.all_eq_true.mpr fun y hy => by simp [h y hy]
  unfold State.outRow
  dsimp only
  rw [if_pos rfl, if_pos hall]
  exact ⟨_, rfl, p.course_sign _ _ _ _ _, p.flags_sign _ _ _ _ _, p.payload_sign _ _ _ _ _⟩

theorem State.outRow_scratch (hrole : p.role ≠ .check)
    (h : ∀ y ∈ outLines addr data scales, y.1 < 2 ^ 21 ∧ s.rowWritable a p.session (y.1 / 8192) = true) :
    ∃ q : Prog, s.outRow a p 1 addr data scales fl false = some (s.onArc a fun c => c.stored (outLines addr data scales), q)
      ∧ q.course = p.course ∧ q.flags = p.flags ∧ q.payload = p.payload := by
  have hall : ((outLines addr data scales).all fun x => decide (x.1 < 2 ^ 21) && s.progWrites a p (x.1 / 8192)) = true := by
    refine List.all_eq_true.mpr fun y hy => ?_
    obtain ⟨hlt, hrow⟩ := h y hy
    unfold State.progWrites
    rw [hrow, decide_eq_true hlt]
    rfl
  unfold State.outRow
  dsimp only
  rw [if_neg (by decide), if_pos rfl, if_neg (by simpa using hrole), if_pos hall]
  exact ⟨_, rfl, p.course_sign _ _ _ _ _, p.flags_sign _ _ _ _ _, p.payload_sign _ _ _ _ _⟩

theorem State.outRow_record {dst : Nat} (hrole : p.role ≠ .check) (h0 : dst ≠ 0) (h1 : dst ≠ 1) :
    ∃ q : Prog, s.outRow a p dst addr data scales fl false = some (s, q)
      ∧ q.course = p.course ∧ q.flags = p.flags ∧ q.payload = Tab.setMany 0 p.payload addr (padTo 16 data) := by
  unfold State.outRow
  dsimp only
  rw [if_neg h0, if_neg h1, if_neg (by simpa using hrole)]
  refine ⟨_, rfl, p.course_sign _ _ _ _ _, p.flags_sign _ _ _ _ _, ?_⟩
  dsimp only
  rw [Prog.payload_sign]

end

/-- A good row whose entries are good leaves as its destination takes it. -/
theorem State.drainRow_of {s t : State} {a accRow odesc dstAd dst stride k : Nat} {p q : Prog} {d : OutDesc}
    (hd : p.plan.outputs[odesc]? = some d) (hvalid : accRow + k ∈ p.valid) (hgood : Tab.sound (s.arcade a).accPoison)
    {x : Bytes × Bytes × Flags} (hx : d.row p.plan.luts[d.lut]? ((s.arcade a).accRow (accRow + k)) = x)
    (h : s.outRow a { p with flags := p.flags ||| x.2.2.bits } dst (p.address dstAd + k * stride * if dst = 2 then 16 else 64)
      (if dst = 2 then x.1 ++ x.2.1 else x.1) (if dst = 2 then [] else x.2.1) x.2.2.bits.toNat false = some (t, q)) :
    s.drainRow a p accRow odesc dstAd dst stride k = { s := t, p := q } := by
  have hpoison : ((List.range d.cols).any fun j => (s.arcade a).accPoisoned (accRow + k) j) = false :=
    List.any_eq_false.mpr fun j _ => by simp [Arcade.accPoisoned, hgood _]
  obtain ⟨data, scales, fl⟩ := x
  unfold State.drainRow
  simp only [hd, hx, hpoison, Bool.or_false, recordBytes]
  rw [if_neg (by simpa using hvalid)]
  dsimp only at h
  rw [h]

/-- The bytes that a row brings to the record. -/
def Prog.recorded (p : Prog) (t : Tab Byte) (dstAd dst stride : Nat) (x : Bytes × Bytes × Flags) (k : Nat) : Tab Byte :=
  Tab.setMany 0 t (p.address dstAd + k * stride * (if dst = 2 then 16 else 64)) (padTo 16 (x.1 ++ if dst = 2 then x.2.1 else []))

/-- What the first rows of an OUT leave. -/
structure State.Drained (s : State) (a : Nat) (p : Prog) (dstAd dst stride : Nat) (row : Nat → Bytes × Bytes × Flags)
    (lines : Nat → List (Nat × Bytes)) (n : Nat) (t : State) (q : Prog) : Prop where
  frame : t = { s with arc := t.arc, pz := t.pz }
  piazza : t.pz = if dst = 0 then s.pz.storedRows lines n else s.pz
  arcade : t.arcade a = if dst = 1 then (s.arcade a).storedRows lines n else s.arcade a
  others : ∀ b, (t.arcade b).integ = (s.arcade b).integ
  course : q.course = p.course
  flags : q.flags = (List.range n).foldl (fun f k => f ||| (row k).2.2.bits) p.flags
  payload : q.payload = if dst = 0 ∨ dst = 1 then p.payload
    else (List.range n).foldl (fun z k => p.recorded z dstAd dst stride (row k) k) p.payload

section
variable {s : State} {a accRow rows odesc dstAd dst stride : Nat} {p : Prog} {d : OutDesc} {row : Nat → Bytes × Bytes × Flags}
  {lines : Nat → List (Nat × Bytes)}

theorem State.Drained.none (s : State) (a : Nat) (p : Prog) (dstAd dst stride : Nat) (row : Nat → Bytes × Bytes × Flags)
    (lines : Nat → List (Nat × Bytes)) : s.Drained a p dstAd dst stride row lines 0 s p where
  frame := rfl
  piazza := (ite_self _).symm
  arcade := (ite_self _).symm
  others := fun _ => rfl
  course := rfl
  flags := rfl
  payload := (ite_self _).symm

variable {n : Nat} {t : State} {q : Prog} (h : s.Drained a p dstAd dst stride row lines n t q)
include h

theorem State.Drained.keeps : ∃ als poison, t.arcade a = { s.arcade a with als := als, alsPoison := poison } := by
  rw [h.arcade]
  split
  · exact (s.arcade a).storedRows_eq lines n
  · exact ⟨_, _, rfl⟩

theorem State.Drained.session (m : Nat) : t.session m = s.session m := by
  rw [h.frame]
  rfl

theorem State.Drained.samePages : s.SamePages t where
  grants page := by
    rw [h.piazza]
    split
    · exact s.pz.grants_storedRows lines n page
    · rfl
  segs := by
    rw [h.piazza]
    split
    · exact s.pz.segs_storedRows lines n
    · rfl
  world sc := by
    unfold State.sessionWorld
    rw [h.session]

theorem State.Drained.rowWritable (sc w : Nat) : t.rowWritable a sc w = s.rowWritable a sc w := by
  obtain ⟨als, poison, harc⟩ := h.keeps
  unfold State.rowWritable Arcade.regionAt State.regionMine
  rw [harc]
  simp only [h.session]

end

/-- An OUT that nothing stops: its rows are valid and good, and its lines lie where its unit may write them. -/
structure State.Drains (s : State) (a : Nat) (p : Prog) (accRow rows odesc dstAd dst stride : Nat) (d : OutDesc)
    (row : Nat → Bytes × Bytes × Flags) (lines : Nat → List (Nat × Bytes)) : Prop where
  desc : p.plan.outputs[odesc]? = some d
  role : p.role ≠ .check
  valid : ∀ k, k < rows → accRow + k ∈ p.valid
  good : (s.arcade a).accPoison = []
  row_eq : ∀ k, d.row p.plan.luts[d.lut]? ((s.arcade a).accRow (accRow + k)) = row k
  lines_eq : ∀ k, outLines (p.address dstAd + k * stride * 64) (row k).1 (row k).2.1 = lines k
  pages : dst = 0 → ∀ k, k < rows → ∀ y ∈ lines k, segOf y.1 = a ∧ s.pageOk (0x10 + a) p.session y.1 = true
  scratch : dst = 1 → ∀ k, k < rows → ∀ y ∈ lines k, y.1 < 2 ^ 21 ∧ s.rowWritable a p.session (y.1 / 8192) = true

section
variable {s : State} {a accRow rows odesc dstAd dst stride : Nat} {p : Prog} {d : OutDesc} {row : Nat → Bytes × Bytes × Flags}
  {lines : Nat → List (Nat × Bytes)} (ho : s.Drains a p accRow rows odesc dstAd dst stride d row lines)
include ho

theorem State.Drains.step {n : Nat} (hn : n < rows) {t : State} {q : Prog} (h : s.Drained a p dstAd dst stride row lines n t q) :
    ∃ u r, t.drainRow a q accRow odesc dstAd dst stride n = { s := u, p := r }
      ∧ s.Drained a p dstAd dst stride row lines (n + 1) u r := by
  obtain ⟨als, poison, harc⟩ := h.keeps
  have hplan := Prog.plan_of_course h.course
  have hsession := Prog.session_of_course h.course
  have haddr := Prog.address_of_course h.course dstAd
  have hrow : d.row q.plan.luts[d.lut]? ((t.arcade a).accRow (accRow + n)) = row n := by
    rw [hplan, harc]
    exact ho.row_eq n
  have hdrain := fun u r => State.drainRow_of (s := t) (t := u) (a := a) (dstAd := dstAd) (dst := dst) (stride := stride) (q := r)
    (hplan ▸ ho.desc) (Prog.valid_of_course h.course ▸ ho.valid n hn) (by rw [harc]; exact ho.good ▸ Tab.sound_nil) hrow
  have hflags : ((List.range (n + 1)).foldl (fun f k => f ||| (row k).2.2.bits) p.flags) = q.flags ||| (row n).2.2.bits := by
    rw [List.range_succ, List.foldl_append, ← h.flags]
    rfl
  have hrole : q.role ≠ .check := Prog.role_of_course h.course ▸ ho.role
  by_cases h0 : dst = 0
  · subst h0
    obtain ⟨r, hout, hcourse, hfl, hpay⟩ := State.outRow_piazza (s := t) (a := a) (p := { q with flags := q.flags ||| (row n).2.2.bits })
      (addr := q.address dstAd + n * stride * 64) (fl := (row n).2.2.bits.toNat) (data := (row n).1) (scales := (row n).2.1) fun y hy => by
        rw [haddr, ho.lines_eq] at hy
        obtain ⟨hseg, hok⟩ := ho.pages rfl n hn y hy
        refine ⟨hseg, ?_⟩
        rw [h.samePages.pageOk]
        exact hsession ▸ hok
    refine ⟨_, r, hdrain _ r hout, ⟨?_, ?_, ?_, h.others, hcourse.trans h.course, hfl.trans hflags.symm, hpay.trans h.payload⟩⟩
    · rw [h.frame]
    · rw [haddr, ho.lines_eq, h.piazza, if_pos rfl, if_pos rfl, Piazza.storedRows_succ]
    · exact h.arcade
  · by_cases h1 : dst = 1
    · subst h1
      obtain ⟨r, hout, hcourse, hfl, hpay⟩ := State.outRow_scratch (s := t) (a := a) (p := { q with flags := q.flags ||| (row n).2.2.bits })
        (addr := q.address dstAd + n * stride * 64) (fl := (row n).2.2.bits.toNat) (data := (row n).1) (scales := (row n).2.1) hrole
        fun y hy => by
          rw [haddr, ho.lines_eq] at hy
          obtain ⟨hlt, hok⟩ := ho.scratch rfl n hn y hy
          refine ⟨hlt, ?_⟩
          rw [h.rowWritable]
          exact hsession ▸ hok
      refine ⟨_, r, hdrain _ r hout, ⟨?_, h.piazza, ?_, fun b => ?_, hcourse.trans h.course, hfl.trans hflags.symm, hpay.trans h.payload⟩⟩
      · rw [h.frame]
        rfl
      · rw [State.arcade_of_onArc, haddr, ho.lines_eq, h.arcade, if_pos rfl, if_pos rfl, Arcade.storedRows_succ]
      · rw [← h.others b]
        refine State.onArc_proj (p := Arcade.integ) (f := fun c => c.stored (outLines (q.address dstAd + n * stride * 64) (row n).1 (row n).2.1))
          (fun c => ?_) t a b
        obtain ⟨als, poison, hc⟩ := c.stored_eq (outLines (q.address dstAd + n * stride * 64) (row n).1 (row n).2.1)
        rw [hc]
    · obtain ⟨r, hout, hcourse, hfl, hpay⟩ := State.outRow_record (s := t) (a := a) (p := { q with flags := q.flags ||| (row n).2.2.bits })
        (addr := q.address dstAd + n * stride * if dst = 2 then 16 else 64) (fl := (row n).2.2.bits.toNat)
        (data := if dst = 2 then (row n).1 ++ (row n).2.1 else (row n).1) (scales := if dst = 2 then [] else (row n).2.1) hrole h0 h1
      refine ⟨_, r, hdrain _ r hout, ⟨h.frame, ?_, ?_, h.others, hcourse.trans h.course, hfl.trans hflags.symm, hpay.trans ?_⟩⟩
      · rw [h.piazza, if_neg h0, if_neg h0]
      · rw [h.arcade, if_neg h1, if_neg h1]
      · have hbeside : ¬ (dst = 0 ∨ dst = 1) := fun hor => hor.elim h0 h1
        have hpayload := h.payload
        rw [if_neg hbeside] at hpayload
        rw [if_neg hbeside, List.range_succ, List.foldl_append, ← hpayload, haddr]
        show _ = p.recorded q.payload dstAd dst stride (row n) n
        unfold Prog.recorded
        by_cases h2 : dst = 2
        · simp only [if_pos h2]
        · simp only [if_neg h2, List.append_nil]

theorem State.Drains.runs : ∃ t q, runRows rows (fun s p k => s.drainRow a p accRow odesc dstAd dst stride k) s p = { s := t, p := q }
    ∧ s.Drained a p dstAd dst stride row lines rows t q :=
  runRows_leaves (s.Drained a p dstAd dst stride row lines) (State.Drained.none s a p dstAd dst stride row lines)
    fun _ hk _ _ h => ho.step hk h

end

theorem exec_out (a : Arc) (s : State) : exec (.out a []) s = act (s.tileReady a.val TileInstr.isOut) (fun s => s.tileRow a.val []) s := rfl

theorem State.out_drains {s : State} {a : Arc} {p : Prog} {n accRow rows odesc dstAd dst stride : Nat} {d : OutDesc} (hs : s.Up)
    (hrun : (s.arcade a.val).running = some p) (hissued : p.atBoundary = false) (hgood : p.poisoned = false)
    (hrole : p.role ≠ .check) (hacc : (s.arcade a.val).accPoison = [])
    (hinstr : p.instr = some (.out accRow rows odesc dstAd dst stride, n)) (hd : p.plan.outputs[odesc]? = some d)
    (hvalid : ∀ k, k < rows → accRow + k ∈ p.valid) :
    let c := s.arcade a.val
    let row (k : Nat) : Bytes × Bytes × Flags := d.row p.plan.luts[d.lut]? (c.accRow (accRow + k))
    let lines (k : Nat) : List (Nat × Bytes) := outLines (p.address dstAd + k * stride * 64) (row k).1 (row k).2.1
    (dst = 0 → ∀ k, k < rows → ∀ y ∈ lines k, segOf y.1 = a.val ∧ s.pageOk (0x10 + a.val) p.session y.1 = true) →
    (dst = 1 → ∀ k, k < rows → ∀ y ∈ lines k, y.1 < 2 ^ 21 ∧ s.rowWritable a.val p.session (y.1 / 8192) = true) →
    Reaches (.out a []) s fun t =>
      t = { s with arc := t.arc, pz := t.pz }
      ∧ (∃ q, (t.arcade a.val).running = some q ∧ q.pc = p.pc + n ∧ q.ads = p.ads ∧ q.loops = p.loops)
      ∧ (t.arcade a.val).acc = c.acc
      ∧ (dst ≠ 0 → t.pz = s.pz) ∧ (dst ≠ 1 → (t.arcade a.val).als = c.als)
      ∧ (dst = 0 → ∀ x, (∀ k, k < rows → ∀ y ∈ lines k, x / 64 ≠ y.1 / 64) → Tab.get 0 t.pz.mem x = Tab.get 0 s.pz.mem x)
      ∧ (dst = 1 → ∀ x, (∀ k, k < rows → ∀ y ∈ lines k, x / 64 ≠ y.1 / 64) →
          Tab.get 0 (t.arcade a.val).als x = Tab.get 0 c.als x)
      ∧ (dst = 0 → t.pz = (List.range rows).foldl (fun z k => (lines k).foldl (fun z y => z.writeLine y.1 y.2 false) z) s.pz)
      ∧ (dst = 1 → (t.arcade a.val).als
          = ((List.range rows).foldl (fun z k => (lines k).foldl (fun z y => z.writeAls y.1 y.2 false) z) c).als)
      ∧ ∃ q, (t.arcade a.val).running = some q
        ∧ q.flags = (List.range rows).foldl (fun f k => f ||| (row k).2.2.bits) p.flags
        ∧ q.payload = (if dst = 0 ∨ dst = 1 then p.payload else (List.range rows).foldl (fun z k =>
            Tab.setMany 0 z (p.address dstAd + k * stride * (if dst = 2 then 16 else 64))
              (padTo 16 ((row k).1 ++ if dst = 2 then (row k).2.1 else []))) p.payload) := by
  intro c row lines hpages hscratch
  obtain ⟨t, q, hout, h⟩ := State.Drains.runs (s := s) (a := a.val) (row := row) (lines := lines)
    ⟨hd, hrole, hvalid, hacc, fun _ => rfl, fun _ => rfl, hpages, hscratch⟩
  have hrow : s.runInstr a.val p (.out accRow rows odesc dstAd dst stride) n [] = { s := t, p := { q with pc := q.pc + n } } := by
    show (runRows rows (fun s p k => s.drainRow a.val p accRow odesc dstAd dst stride k) s p).pass n = _
    rw [hout]
    exact Ran.pass_sound ((Prog.poisoned_of_course h.course).trans hgood) n
  obtain ⟨hpc, hads, hloops⟩ := Prog.goes_of_course h.course n
  obtain ⟨als, poison, harc⟩ := h.keeps
  have hsync : t.Synced := hs.2.congr (by rw [h.frame]) h.others
    (fun b => congrArg (fun x => (Tab.get ({} : Segment) x b).state) h.samePages.segs) (fun b => by rw [h.frame]; rfl)
    (by rw [h.frame]) (by rw [h.frame]) (by rw [h.frame])
  have hpend : t.pending = s.pending := by rw [h.frame]
  refine reaches_runs hs hrun hissued (exec_out a s) hinstr rfl rfl hrow hsync hpend ?_
  rw [State.arcade_runs]
  refine ⟨?_, ⟨_, rfl, hpc, hads, hloops⟩, (congrArg Arcade.acc harc :), fun h0 => h.piazza.trans (if_neg h0),
    fun h1 => (congrArg Arcade.als (h.arcade.trans (if_neg h1)) :), fun h0 x hx => ?_, fun h1 x hx => ?_,
    fun h0 => h.piazza.trans (if_pos h0), fun h1 => (congrArg Arcade.als (h.arcade.trans (if_pos h1)) :), _, rfl, h.flags, h.payload⟩
  · rw [h.frame]
    rfl
  · show Tab.get 0 t.pz.mem x = _
    rw [h.piazza, if_pos h0]
    exact s.pz.mem_storedRows hx
  · show Tab.get 0 (t.arcade a.val).als x = _
    rw [h.arcade, if_pos h1]
    exact (s.arcade a.val).als_storedRows hx

end Sys2Proof.Machine
end

