-- ==== Sys2Proof/Proofs/TileParts.lean ====
section
/-! PROOFS. The parts of a split reduction: SEND and COMB (R67, R134, R200, R438). -/

namespace Sys2Proof.Machine

theorem exec_send (a : Arc) (s : State) : exec (.send a []) s = act (s.tileReady a.val TileInstr.isSend) (fun s => s.tileRow a.val []) s := rfl
theorem exec_comb (a : Arc) (s : State) : exec (.comb a []) s = act (s.tileReady a.val TileInstr.isComb) (fun s => s.tileRow a.val []) s := rfl

/-! SEND. -/

section
variable {s : State} {a accRow rows rdesc part : Nat} {dg : Bool} {p : Prog} {r : Reduction}

/-- The part that a SEND gives to an Arcade. -/
def State.partOf (s : State) (a : Nat) (p : Prog) (r : Reduction) (accRow rows rdesc part : Nat) (digest : BitVec 128) : InPart :=
  { gen := p.gen, rdesc := rdesc, part := part, row := r.recvRow + part * r.rows
    rows := (List.range rows).map fun k => (s.arcade a).accRow (accRow + k)
    source := some (a, p.role), poison := (List.range rows).map fun k => (s.arcade a).accRowPoison (accRow + k), digest := digest }

/-- The digest of a part under a key. -/
def State.partDigestOf (s : State) (a : Nat) (p : Prog) (accRow rows rdesc part : Nat) (dg : Bool) (key : BitVec 128) : BitVec 128 :=
  if dg then collectiveDigest key rdesc part p.count ((List.range rows).map fun k => (s.arcade a).accRow (accRow + k)) else 0

/-- What a SEND leaves beside its program: the part on its way to the Arcade that combines, or over the link. -/
def State.sent (s : State) (a : Nat) (p : Prog) (r : Reduction) (accRow rows rdesc part : Nat) (dg : Bool) : State :=
  if p.plan.destRemote rdesc then
    s.sendPartMsg rdesc part
      ((List.range rows).map fun k => partRowBytes ((s.arcade a).accRow (accRow + k)) ((s.arcade a).accRowPoison (accRow + k)))
      (s.partDigestOf a p accRow rows rdesc part dg s.fm.collectiveKey)
  else s.onArc r.dest fun c => { c with
    inFlight := c.inFlight ++ [s.partOf a p r accRow rows rdesc part (s.partDigestOf a p accRow rows rdesc part dg p.plan.hcKey)] }

variable (hr : p.plan.reductions[rdesc]? = some r) (hrole : p.role ≠ .check) (hacc : (s.arcade a).accPoison = [])
  (hvalid : ∀ k, k < rows → accRow + k ∈ p.valid)
include hr hrole hacc hvalid

/-- Good rows of a program leave. -/
theorem State.sendPart_sends : ∃ q : Prog, q.course = p.course
    ∧ s.sendPart a p accRow rows rdesc part dg = { s := s.sent a p r accRow rows rdesc part dg, p := q } := by
  have hgood : (((List.range rows).map fun i => accRow + i).map (s.arcade a).accRowPoison).any (fun x => x.any id) = false := by
    refine List.any_eq_false.mpr fun x hx => ?_
    obtain ⟨k, -, rfl⟩ := List.mem_map.mp hx
    rw [Arcade.accRowPoison, hacc, Tab.sound_any Tab.sound_nil]
    decide
  have hall : (((List.range rows).map fun i => accRow + i).any fun x => !p.valid.contains x) = false := by
    refine List.any_eq_false.mpr fun x hx => ?_
    obtain ⟨k, hk, rfl⟩ := List.mem_map.mp hx
    simpa using hvalid k (List.mem_range.mp hk)
  have hzip : ((((List.range rows).map fun i => accRow + i).map (s.arcade a).accRow).zip
      (((List.range rows).map fun i => accRow + i).map (s.arcade a).accRowPoison)).map (fun x => partRowBytes x.1 x.2)
      = (List.range rows).map fun k => partRowBytes ((s.arcade a).accRow (accRow + k)) ((s.arcade a).accRowPoison (accRow + k)) := by
    simp [List.zip_map', List.map_map, Function.comp_def]
  unfold State.sendPart
  rw [hr]
  dsimp only
  rw [if_neg (by rw [hall]; decide), hgood, Bool.or_false]
  generalize hz : p.sign 3 part 0 (r.recvRow + part * r.rows) _ = z
  have hcourse : z.course = p.course := hz ▸ p.course_sign _ _ _ _ _
  rw [← Prog.poisoned_of_course hcourse, if_neg (by simpa [Prog.role_of_course hcourse] using hrole)]
  refine ⟨z, hcourse, ?_⟩
  unfold State.sent State.partOf State.partDigestOf
  rw [hzip, List.map_map, List.map_map, ← Prog.of_course Prog.gen (fun _ => rfl) hcourse, ← Prog.of_course Prog.count (fun _ => rfl) hcourse,
    ← Prog.role_of_course hcourse]
  cases hfar : p.plan.destRemote rdesc
  · simp only [Bool.false_eq_true, if_false]
    rfl
  · simp only [if_true]
    rfl

end

theorem State.sendMessage_synced {s : State} (hs : s.Synced) (type chan : Nat) (body : Bytes) : (s.sendMessage type chan body).Synced := by
  obtain ⟨k, q, t, r, ow, w, c, b, o, h⟩ := s.sendMessage_frame type chan body
  rw [h]
  exact hs.congr rfl (fun _ => rfl) (fun _ => rfl) (fun _ => rfl) rfl rfl rfl

theorem State.sendMessage_arc (s : State) (type chan : Nat) (body : Bytes) :
    (s.sendMessage type chan body).arc = s.arc ∧ (s.sendMessage type chan body).pending = s.pending := by
  obtain ⟨k, q, t, r, ow, w, c, b, o, h⟩ := s.sendMessage_frame type chan body
  rw [h]
  exact ⟨rfl, rfl⟩

section
variable {s : State} {a : Arc} {p : Prog} {n accRow rows rdesc part : Nat} {dg : Bool} {r : Reduction} (hs : s.Up)
  (hrun : (s.arcade a.val).running = some p) (hissued : p.atBoundary = false) (hgood : p.poisoned = false)
  (hrole : p.role ≠ .check) (hsent : s.sending a.val p = false) (hacc : (s.arcade a.val).accPoison = [])
  (hinstr : p.instr = some (.send accRow rows rdesc part dg, n)) (hr : p.plan.reductions[rdesc]? = some r)
  (hvalid : ∀ k, k < rows → accRow + k ∈ p.valid)
include hs hrun hissued hgood hrole hsent hacc hinstr hr hvalid

/-- A SEND that nothing stops goes on with its part on its way. -/
theorem State.send_reaches {u : State} (hu : s.sent a.val p r accRow rows rdesc part dg = u) (hsync : u.Synced)
    (hpend : u.pending = s.pending) {P : State → Prop}
    (hP : ∀ q : Prog, q.pc = p.pc + n → q.ads = p.ads → q.loops = p.loops → P (u.runs a.val q)) : Reaches (.send a []) s P := by
  subst hu
  obtain ⟨q, hcourse, hsend⟩ := State.sendPart_sends (a := a.val) (part := part) (dg := dg) hr hrole hacc hvalid
  obtain ⟨hpc, hads, hloops⟩ := Prog.goes_of_course hcourse n
  have hrow : s.runInstr a.val p (.send accRow rows rdesc part dg) n []
      = { s := s.sent a.val p r accRow rows rdesc part dg, p := { q with pc := q.pc + n } } := by
    show (s.sendPart a.val p accRow rows rdesc part dg).pass n = _
    rw [hsend]
    exact Ran.pass_sound ((Prog.poisoned_of_course hcourse).trans hgood) n
  exact reaches_runs hs hrun hissued (exec_send a s) hinstr rfl (by simp [hsent]) hrow hsync hpend (hP _ hpc hads hloops)

theorem State.send_near (hnear : p.plan.destRemote rdesc = false) : Reaches (.send a []) s fun t =>
    t = { s with arc := t.arc }
    ∧ (∃ q, (t.arcade a.val).running = some q ∧ q.pc = p.pc + n ∧ q.ads = p.ads ∧ q.loops = p.loops)
    ∧ (t.arcade r.dest).inFlight = (s.arcade r.dest).inFlight
        ++ [s.partOf a.val p r accRow rows rdesc part (s.partDigestOf a.val p accRow rows rdesc part dg p.plan.hcKey)]
    ∧ ∀ b, b ≠ r.dest → (t.arcade b).inFlight = (s.arcade b).inFlight := by
  refine State.send_reaches hs hrun hissued hgood hrole hsent hacc hinstr hr hvalid (if_neg (by simp [hnear])) (hs.2.onArc fun _ => rfl) rfl
    fun q hpc hads hloops => ?_
  have hflight : ∀ (u : State) (b : Nat), ((u.runs a.val q).arcade b).inFlight = (u.arcade b).inFlight := fun u b =>
    State.onArc_proj (p := Arcade.inFlight) (f := fun c => { c with running := some q }) (fun _ => rfl) u a.val b
  refine ⟨rfl, ⟨q, congrArg Arcade.running (State.arcade_runs _ _ _), hpc, hads, hloops⟩, ?_, fun b hb => ?_⟩
  · rw [hflight, State.arcade_of_onArc]
  · rw [hflight, State.arcade_of_onArc_other _ _ hb]

theorem State.send_far (hfar : p.plan.destRemote rdesc = true) : Reaches (.send a []) s fun t =>
    let u := s.sendPartMsg rdesc part
      ((List.range rows).map fun k => partRowBytes ((s.arcade a.val).accRow (accRow + k)) ((s.arcade a.val).accRowPoison (accRow + k)))
      (s.partDigestOf a.val p accRow rows rdesc part dg s.fm.collectiveKey)
    t = { u with arc := t.arc }
    ∧ (∃ q, (t.arcade a.val).running = some q ∧ q.pc = p.pc + n ∧ q.ads = p.ads ∧ q.loops = p.loops)
    ∧ ∀ b, (t.arcade b).inFlight = (s.arcade b).inFlight := by
  obtain ⟨harc, hpend⟩ := s.sendMessage_arc 0x0008 chanBulk (Bytes.ofNat 2 rdesc ++ [BitVec.ofNat 8 part, BitVec.ofNat 8
    ((List.range rows).map fun k => partRowBytes ((s.arcade a.val).accRow (accRow + k)) ((s.arcade a.val).accRowPoison (accRow + k))).length]
    ++ ((List.range rows).map fun k => partRowBytes ((s.arcade a.val).accRow (accRow + k)) ((s.arcade a.val).accRowPoison (accRow + k))).flatten
    ++ Bytes.big (s.partDigestOf a.val p accRow rows rdesc part dg s.fm.collectiveKey))
  refine State.send_reaches hs hrun hissued hgood hrole hsent hacc hinstr hr hvalid (if_pos hfar) (State.sendMessage_synced hs.2 _ _ _) hpend
    fun q hpc hads hloops => ⟨rfl, ⟨q, congrArg Arcade.running (State.arcade_runs _ _ _), hpc, hads, hloops⟩, fun b => ?_⟩
  refine (State.onArc_proj (p := Arcade.inFlight) (f := fun c => { c with running := some q }) (fun _ => rfl) _ a.val b).trans ?_
  exact congrArg (fun arc => (Tab.get ({} : Arcade) arc b).inFlight) harc

end

/-! COMB. -/

/-- Good entries fold to good entries, and nothing else of the Arcade changes. -/
theorem Arcade.foldRow_eq {c : Arcade} (h : Tab.sound c.accPoison) (r : Reduction) (x : Nat) :
    ∃ acc poison, c.foldRow r x = { c with acc := acc, accPoison := poison } ∧ Tab.sound poison := by
  refine ⟨_, _, rfl, Tab.sound_setMany h (fun b hb => ?_) _⟩
  obtain ⟨j, -, rfl⟩ := List.mem_map.mp hb
  refine getD_of_sound (fun b hb => ?_) j
  obtain ⟨i, -, rfl⟩ := List.mem_map.mp hb
  exact List.any_eq_false.mpr fun y _ => by simp [Arcade.accPoisoned, h _]

theorem Arcade.foldRows_eq (r : Reduction) (l : List Nat) {c : Arcade} (h : Tab.sound c.accPoison) :
    ∃ acc poison, l.foldl (fun c x => c.foldRow r x) c = { c with acc := acc, accPoison := poison } ∧ Tab.sound poison := by
  induction l generalizing c with
  | nil => exact ⟨c.acc, c.accPoison, rfl, h⟩
  | cons x l ih =>
    obtain ⟨acc, poison, hone, hgood⟩ := Arcade.foldRow_eq h r x
    obtain ⟨acc', poison', hrest, hgood'⟩ := ih (c := c.foldRow r x) (by rw [hone]; exact hgood)
    exact ⟨acc', poison', hrest.trans (by rw [hone]), hgood'⟩

/-- The arrival mark of a part and its digest go. -/
def Arcade.clearMark (c : Arcade) (gen rdesc k : Nat) : Arcade :=
  { c with parts := Tab.set false c.parts (partKey gen rdesc (k + 1)) false
           partDigest := Tab.set 0 c.partDigest (partKey gen rdesc (k + 1)) 0 }

theorem Arcade.clearMarks_eq (gen rdesc : Nat) (l : List Nat) (c : Arcade) :
    ∃ parts digest, l.foldl (fun c k => c.clearMark gen rdesc k) c = { c with parts := parts, partDigest := digest } := by
  induction l generalizing c with
  | nil => exact ⟨c.parts, c.partDigest, rfl⟩
  | cons k l ih =>
    obtain ⟨parts, digest, h⟩ := ih (c.clearMark gen rdesc k)
    exact ⟨parts, digest, h⟩

theorem Arcade.clearMark_clears (c : Arcade) (gen rdesc k : Nat) {key : Nat}
    (h : Tab.get false c.parts key = false ∨ key = partKey gen rdesc (k + 1)) : Tab.get false (c.clearMark gen rdesc k).parts key = false := by
  show Tab.get false (Tab.set false c.parts (partKey gen rdesc (k + 1)) false) key = false
  by_cases hk : key = partKey gen rdesc (k + 1)
  · rw [hk]
    exact Tab.get_set_same false _ _ _
  · exact (Tab.get_set_other false _ _ hk).trans (h.resolve_right hk)

/-- The arrival marks that are cleared read clear. -/
theorem Arcade.clearMarks_clear (gen rdesc : Nat) {l : List Nat} {key : Nat} {c : Arcade}
    (h : Tab.get false c.parts key = false ∨ ∃ k ∈ l, key = partKey gen rdesc (k + 1)) :
    Tab.get false (l.foldl (fun c k => c.clearMark gen rdesc k) c).parts key = false := by
  induction l generalizing c with
  | nil => exact h.resolve_right fun ⟨k, hk, _⟩ => absurd hk List.not_mem_nil
  | cons k l ih =>
    refine ih ?_
    rcases h with h | ⟨i, hi, hkey⟩
    · exact .inl (c.clearMark_clears gen rdesc k (.inl h))
    · rcases List.mem_cons.mp hi with rfl | hi
      · exact .inl (c.clearMark_clears gen rdesc i (.inr hkey))
      · exact .inr ⟨i, hi, hkey⟩

/-- The Arcade after a COMB. -/
def Arcade.combined (c : Arcade) (p : Prog) (rdesc : Nat) (r : Reduction) : Arcade :=
  (List.range (r.parts - 1)).foldl (fun c k => c.clearMark p.gen rdesc k) ((List.range r.rows).foldl (fun c x => c.foldRow r x) c)

theorem Arcade.combined_eq {c : Arcade} (h : c.accPoison = []) (p : Prog) (rdesc : Nat) (r : Reduction) :
    ∃ poison parts digest, c.combined p rdesc r = { c with
      acc := ((List.range r.rows).foldl (fun c x => c.foldRow r x) c).acc, accPoison := poison, parts := parts, partDigest := digest }
      ∧ Tab.sound poison := by
  obtain ⟨acc, poison, hfold, hgood⟩ := Arcade.foldRows_eq r (List.range r.rows) (c := c) (h ▸ Tab.sound_nil)
  obtain ⟨parts, digest, hclear⟩ := Arcade.clearMarks_eq p.gen rdesc (List.range (r.parts - 1))
    ((List.range r.rows).foldl (fun c x => c.foldRow r x) c)
  refine ⟨poison, parts, digest, ?_, hgood⟩
  unfold Arcade.combined
  rw [hclear, hfold]

theorem State.combine_combines {s : State} {a : Nat} (hacc : (s.arcade a).accPoison = []) (p : Prog) (rdesc : Nat) (r : Reduction) :
    ∃ valid, s.combine a p rdesc r = { s := s.onArc a fun _ => (s.arcade a).combined p rdesc r
                                       p := { p with valid := valid, waiting := none } } := by
  obtain ⟨poison, parts, digest, heq, hgood⟩ := Arcade.combined_eq hacc p rdesc r
  have hrows : (((List.range r.rows).map fun x => r.recvRow + x).any fun x =>
      (((s.arcade a).combined p rdesc r).accRowPoison x).any id) = false := by
    refine List.any_eq_false.mpr fun x _ => ?_
    rw [Arcade.accRowPoison, heq, Tab.sound_any hgood]
    decide
  let rows := (List.range r.rows).map fun x => r.recvRow + x
  have hdef : s.combine a p rdesc r = { s := s.onArc a fun _ => (s.arcade a).combined p rdesc r, p := { p with
      valid := rows ++ p.valid.filter (fun x => !rows.contains x), waiting := none
      poisoned := p.poisoned || rows.any fun x => (((s.arcade a).combined p rdesc r).accRowPoison x).any id } } := rfl
  rw [hdef, hrows, Bool.or_false]
  exact ⟨_, rfl⟩

section
variable {s : State} {a : Arc} {p : Prog} {n rdesc : Nat} {r : Reduction} (hs : s.Up) (hrun : (s.arcade a.val).running = some p)
  (hissued : p.atBoundary = false) (hinstr : p.instr = some (.comb rdesc, n)) (hr : p.plan.reductions[rdesc]? = some r)
include hs hrun hissued hinstr hr

theorem State.comb_waits (hmissing : (s.arcade a.val).allArrived p.gen rdesc r.parts = false) : Reaches (.comb a []) s fun t =>
    t = { s with arc := t.arc }
    ∧ t.arcade a.val = { s.arcade a.val with running := some { p with waiting := some (.parts rdesc (p.since s.now)) } } := by
  have hrow : s.runInstr a.val p (.comb rdesc) n []
      = { s := s, p := { p with waiting := some (.parts rdesc (p.since s.now)) }, wait := true } := by
    unfold State.runInstr
    simp only [hr, hmissing, Bool.not_false, if_true]
  refine reaches_runs hs hrun hissued (exec_comb a s) hinstr rfl rfl hrow hs.2 rfl ⟨rfl, ?_⟩
  rw [State.arcade_runs]

theorem State.comb_combines (hgood : p.poisoned = false) (hacc : (s.arcade a.val).accPoison = [])
    (hall : (s.arcade a.val).allArrived p.gen rdesc r.parts = true)
    (hdigest : (s.arcade a.val).badPart p s.fm.collectiveKey rdesc r = false) : Reaches (.comb a []) s fun t =>
    t = { s with arc := t.arc }
    ∧ (∃ q, (t.arcade a.val).running = some q ∧ q.pc = p.pc + n ∧ q.ads = p.ads ∧ q.loops = p.loops)
    ∧ (t.arcade a.val).als = (s.arcade a.val).als
    ∧ (∀ k, 1 ≤ k → k < r.parts → Tab.get false (t.arcade a.val).parts (partKey p.gen rdesc k) = false)
    ∧ (t.arcade a.val).acc = ((List.range r.rows).foldl (fun c x => c.foldRow r x) (s.arcade a.val)).acc := by
  obtain ⟨valid, hcombine⟩ := State.combine_combines (s := s) hacc p rdesc r
  obtain ⟨poison, parts, digest, heq, -⟩ := Arcade.combined_eq hacc p rdesc r
  have hrow : s.runInstr a.val p (.comb rdesc) n [] = { s := s.onArc a.val fun _ => (s.arcade a.val).combined p rdesc r
                                                        p := { p with valid := valid, waiting := none, pc := p.pc + n } } := by
    unfold State.runInstr
    simp only [hr, hall, hdigest, Bool.not_true, Bool.false_eq_true, if_false]
    rw [hcombine]
    exact Ran.pass_sound (by exact hgood) n
  have hsync : (s.onArc a.val fun _ => (s.arcade a.val).combined p rdesc r).Synced := by
    refine hs.2.congr rfl (fun b => ?_) (fun _ => rfl) (fun _ => rfl) rfl rfl rfl
    by_cases hb : b = a.val
    · rw [hb, State.arcade_of_onArc, heq]
    · rw [State.arcade_of_onArc_other _ _ hb]
  refine reaches_runs hs hrun hissued (exec_comb a s) hinstr rfl rfl hrow hsync rfl ⟨rfl, ?_⟩
  rw [State.arcade_runs, State.arcade_of_onArc]
  refine ⟨⟨_, rfl, rfl, rfl, rfl⟩, (congrArg Arcade.als heq :), fun k hk hlt => ?_, (congrArg Arcade.acc heq :)⟩
  exact Arcade.clearMarks_clear p.gen rdesc (.inr ⟨k - 1, List.mem_range.mpr (by omega), by rw [Nat.sub_add_cancel hk]⟩)

end

end Sys2Proof.Machine
end

