-- ==== Sys2Proof/Proofs/TileArray.lean ====
section
/-! PROOFS. TILE: the steps of the array (R83, R100, R129 to R131). -/

namespace Sys2Proof.Machine

/-! Columns of good operands. -/

theorem Arcade.column_good {c : Arcade} (hals : Tab.sound c.alsPoison) (hside : Tab.sound c.sidePoison) (t : TileOp) (m : Mode) (row v : Nat)
    {vecs : List (Bytes × Bool)} (hvecs : ∀ x ∈ vecs, x.2 = false) {sc : Bytes × Bool} (hsc : sc.2 = false) (j : Nat) :
    (c.column t m row v vecs sc j).2 = false := by
  have hact : ∀ g, (vecs.getD g ([], false)).2 = false := by
    intro g
    rw [List.getD_eq_getElem?_getD]
    cases hg : vecs[g]? with
    | none => rfl
    | some x => exact hvecs x (List.mem_of_getElem? hg)
  unfold Arcade.column Arcade.bankWord
  dsimp only
  rw [hact, Tab.sound_any hals, hside, hsc]
  simp

/-! What the columns of a step leave of a row. -/

/-- The Arcade after its columns have added into a row, which starts from zero where it is cleared. -/
def Arcade.added (c : Arcade) (row : Nat) (clear : Bool) (m : Mode) (cols : List (Sum × Bool)) : Arcade :=
  let old := if clear then List.replicate 128 m.zero else c.accRow row
  let new := cols.mapIdx fun j x => (old.getD j 0).accumulate x.1
  let was := if clear then [] else c.accRowPoison row
  let bad := cols.any fun x => x.2
  let poison := cols.mapIdx fun j _ => bad || was.getD j false
  (c.setAccRow row (new ++ old.drop m.columns)).setAccPoison row (poison ++ was.drop m.columns)

theorem Arcade.added_eq (c : Arcade) (row : Nat) (clear : Bool) (m : Mode) (cols : List (Sum × Bool)) :
    ∃ acc poison, c.added row clear m cols = { c with acc := acc, accPoison := poison } := ⟨_, _, rfl⟩

theorem Mode.columns_le (m : Mode) : m.columns ≤ 128 := by
  cases m <;> decide

/-- The sums of good columns. -/
def goodColumns (m : Mode) (x : Nat → Sum) : List (Sum × Bool) := (List.range m.columns).map fun j => (x j, false)

theorem Arcade.accRow_length (c : Arcade) (row : Nat) : (c.accRow row).length = 128 := by
  simp [Arcade.accRow, Tab.getMany]

/-- The entries that a step adds into. -/
def Arcade.base (c : Arcade) (row : Nat) (clear : Bool) (m : Mode) : List AccEntry := if clear then List.replicate 128 m.zero else c.accRow row

theorem Arcade.base_length (c : Arcade) (row : Nat) (clear : Bool) (m : Mode) : (c.base row clear m).length = 128 := by
  cases clear
  · exact c.accRow_length row
  · exact List.length_replicate

theorem Arcade.base_getD (c : Arcade) (row : Nat) (clear : Bool) (m : Mode) {j : Nat} (hj : j < 128) :
    (c.base row clear m).getD j 0 = if clear then m.zero else Tab.get 0 c.acc (row * 128 + j) := by
  cases clear
  · show (c.accRow row).getD j 0 = Tab.get 0 c.acc (row * 128 + j)
    rw [List.getD_eq_getElem _ _ (by rw [c.accRow_length]; exact hj)]
    simp [Arcade.accRow, Tab.getMany]
  · show (List.replicate 128 m.zero).getD j 0 = m.zero
    rw [List.getD_eq_getElem _ _ (by rw [List.length_replicate]; exact hj), List.getElem_replicate]

/-- The entries of a row after a step. -/
def Arcade.sums (c : Arcade) (row : Nat) (clear : Bool) (m : Mode) (x : Nat → Sum) : List AccEntry :=
  ((goodColumns m x).mapIdx fun j y => ((c.base row clear m).getD j 0).accumulate y.1) ++ (c.base row clear m).drop m.columns

theorem Arcade.sums_length (c : Arcade) (row : Nat) (clear : Bool) (m : Mode) (x : Nat → Sum) : (c.sums row clear m x).length = 128 := by
  have h := m.columns_le
  unfold Arcade.sums goodColumns
  rw [List.length_append, List.length_mapIdx, List.length_map, List.length_range, List.length_drop, c.base_length]
  omega

theorem Arcade.sums_getD (c : Arcade) (row : Nat) (clear : Bool) (m : Mode) (x : Nat → Sum) (j : Nat) :
    (c.sums row clear m x).getD j 0 = if j < m.columns then ((c.base row clear m).getD j 0).accumulate (x j) else (c.base row clear m).getD j 0 := by
  have hlen : ((goodColumns m x).mapIdx fun j y => ((c.base row clear m).getD j 0).accumulate y.1).length = m.columns := by
    simp [goodColumns]
  unfold Arcade.sums
  split
  · next h =>
    rw [List.getD_append _ _ _ _ (by rw [hlen]; exact h), List.getD_eq_getElem _ _ (by rw [hlen]; exact h), List.getElem_mapIdx]
    simp [goodColumns]
  · next h =>
    rw [List.getD_append_right _ _ _ _ (by rw [hlen]; omega), hlen, List.getD_eq_getElem?_getD, List.getElem?_drop,
      Nat.add_sub_cancel' (by omega), ← List.getD_eq_getElem?_getD]

theorem Arcade.acc_added (c : Arcade) (row : Nat) (clear : Bool) (m : Mode) (x : Nat → Sum) {r j : Nat} (hj : j < 128) :
    Tab.get 0 (c.added row clear m (goodColumns m x)).acc (r * 128 + j) = if r = row then
      (if j < m.columns then (if clear then m.zero else Tab.get 0 c.acc (r * 128 + j)).accumulate (x j)
        else if clear then m.zero else Tab.get 0 c.acc (r * 128 + j))
    else Tab.get 0 c.acc (r * 128 + j) := by
  have hacc : (c.added row clear m (goodColumns m x)).acc = Tab.setMany 0 c.acc (row * 128) (c.sums row clear m x) := rfl
  rw [hacc, Tab.get_setMany, c.sums_length]
  by_cases hr : r = row
  · rw [if_pos (by omega), if_pos hr, hr, Nat.add_sub_cancel_left, c.sums_getD row clear m x j, c.base_getD row clear m hj]
  · rw [if_neg (by omega), if_neg hr]

/-- Good columns leave good entries good. -/
theorem goodColumns_poison (m : Mode) (x : Nat → Sum) {was : List Bool} (h : ∀ b ∈ was, b = false) :
    ∀ b ∈ (goodColumns m x).mapIdx (fun j _ => (goodColumns m x).any (fun y => y.2) || was.getD j false), b = false := by
  have hgood : ((goodColumns m x).any fun y => y.2) = false := by
    refine List.any_eq_false.mpr fun y hy => ?_
    obtain ⟨j, -, rfl⟩ := List.mem_map.mp hy
    exact Bool.false_ne_true
  intro b hb
  obtain ⟨j, -, rfl⟩ := List.mem_mapIdx.mp hb
  rw [hgood, Bool.false_or, getD_of_sound h]

theorem Arcade.wasPoison_good {c : Arcade} (h : Tab.sound c.accPoison) (row : Nat) (clear : Bool) :
    ∀ b ∈ (if clear then [] else c.accRowPoison row), b = false := by
  cases clear
  · exact Tab.sound_getMany h (row * 128) 128
  · exact fun b hb => absurd hb List.not_mem_nil

theorem Arcade.accPoison_added {c : Arcade} (h : Tab.sound c.accPoison) (row : Nat) (clear : Bool) (m : Mode) (x : Nat → Sum) :
    Tab.sound (c.added row clear m (goodColumns m x)).accPoison := by
  have hwas := c.wasPoison_good h row clear
  have hall : ∀ b ∈ (goodColumns m x).mapIdx (fun j _ => (goodColumns m x).any (fun y => y.2)
      || (if clear then [] else c.accRowPoison row).getD j false) ++ (if clear then [] else c.accRowPoison row).drop m.columns, b = false := by
    intro b hb
    rcases List.mem_append.mp hb with hb | hb
    · exact goodColumns_poison m x hwas b hb
    · exact hwas b (List.mem_of_mem_drop hb)
  refine Tab.sound_setMany h (fun b hb => ?_) _
  obtain ⟨j, -, rfl⟩ := List.mem_map.mp hb
  exact getD_of_sound hall j

/-! One step of the array (R130). -/

section
variable {s : State} {a i : Nat} {p : Prog} {t : TileOp} {m : Mode}

/-- The sum that column j adds at a step. -/
def State.tileSum (s : State) (a : Nat) (p : Prog) (t : TileOp) (m : Mode) (i j : Nat) : Sum :=
  ((s.arcade a).column t m (p.baseRow + t.subtile i / t.subsPerRow m) (t.subtile i % t.subsPerRow m)
    (((t.reads m p.address i).take t.b).map s.pz.line) (((t.reads m p.address i).drop t.b).head?.elim ([], false) s.pz.line) j).1

/-- The columns of a step, with whether an operand was poisoned. -/
def State.tileColumns (s : State) (a : Nat) (p : Prog) (t : TileOp) (m : Mode) (i : Nat) : List (Sum × Bool) :=
  (List.range m.columns).map fun j => (s.arcade a).column t m (p.baseRow + t.subtile i / t.subsPerRow m) (t.subtile i % t.subsPerRow m)
    (((t.reads m p.address i).take t.b).map s.pz.line) (((t.reads m p.address i).drop t.b).head?.elim ([], false) s.pz.line) j

/-- The program after a step: its row is valid. -/
def Prog.tiled (p : Prog) (row : Nat) : Prog := { p with valid := if p.valid.contains row then p.valid else row :: p.valid }

theorem Prog.mem_tiled {p : Prog} {row r : Nat} : r ∈ (p.tiled row).valid ↔ r ∈ p.valid ∨ r = row := by
  unfold Prog.tiled
  dsimp only
  split
  · next h =>
    have hmem : row ∈ p.valid := by simpa using h
    exact ⟨.inl, fun hr => hr.elim id fun he => he ▸ hmem⟩
  · rw [List.mem_cons, or_comm]

theorem State.tileStep_adds (hlines : ∀ y ∈ t.reads m p.address i, segOf y = a ∧ s.pageOk (0x10 + a) p.session y = true)
    (hread : s.rowReadable a p.session (p.baseRow + t.subtile i / t.subsPerRow m) = true)
    (hvalid : (t.clear && i % t.kpr == 0) = true ∨ t.row i ∈ p.valid) (hpz : Tab.sound s.pz.poison)
    (hals : Tab.sound (s.arcade a).alsPoison) (hside : Tab.sound (s.arcade a).sidePoison) (hacc : Tab.sound (s.arcade a).accPoison) :
    s.tileStep a p t m [] i = { p := p.tiled (t.row i), s := (s.onArc a fun _ =>
      (s.arcade a).added (t.row i) (t.clear && i % t.kpr == 0) m (goodColumns m (s.tileSum a p t m i))).perf p.session 0 1 } := by
  have hallowed : ((t.reads m p.address i).any fun x => segOf x != a || !s.pageOk (0x10 + a) p.session x) = false :=
    List.any_eq_false.mpr fun y hy => by simp [hlines y hy]
  have hreads : s.progReads a p (p.baseRow + t.subtile i / t.subsPerRow m) = true := by
    unfold State.progReads
    rw [hread, Bool.true_or]
  have hcols : s.tileColumns a p t m i = goodColumns m (s.tileSum a p t m i) := by
    refine List.map_congr_left fun j _ => Prod.ext rfl (Arcade.column_good hals hside _ _ _ _ (fun x hx => ?_) ?_ j)
    · obtain ⟨y, -, rfl⟩ := List.mem_map.mp hx
      exact Piazza.line_sound hpz y
    · cases ((t.reads m p.address i).drop t.b).head? with
      | none => rfl
      | some y => exact Piazza.line_sound hpz y
  have hpoison : ((goodColumns m (s.tileSum a p t m i)).mapIdx fun j _ => (goodColumns m (s.tileSum a p t m i)).any (fun y => y.2)
      || (if (t.clear && i % t.kpr == 0) = true then [] else (s.arcade a).accRowPoison (t.row i)).getD j false).any id = false :=
    List.any_eq_false.mpr fun b hb => by
      simp [goodColumns_poison m _ ((s.arcade a).wasPoison_good hacc (t.row i) (t.clear && i % t.kpr == 0)) b hb]
  have hstep : s.tileStep a p t m [] i = { s := (s.onArc a fun _ =>
      (s.arcade a).added (t.row i) (t.clear && i % t.kpr == 0) m (s.tileColumns a p t m i)).perf p.session 0 1, p := { p.tiled (t.row i) with
        poisoned := p.poisoned || ((s.tileColumns a p t m i).mapIdx fun j _ => (s.tileColumns a p t m i).any (fun y => y.2)
          || (if (t.clear && i % t.kpr == 0) = true then [] else (s.arcade a).accRowPoison (t.row i)).getD j false).any id } } := by
    unfold State.tileStep
    dsimp only
    rw [if_neg (by rw [hallowed, hreads]; decide), if_neg (by rcases hvalid with h | h <;> simp [h])]
    unfold State.tileColumns
    cases (t.reads m p.address i).drop t.b <;> rfl
  rw [hstep, hcols, hpoison, Bool.or_false]
  rfl

end

/-- What a session keeps while its counters change. -/
theorem Session.of_lasting {α : Type} (f : Session → α) (hf : ∀ x, f x.lasting = f x) {x y : Session} (h : y.lasting = x.lasting) : f y = f x := by
  rw [← hf, h, hf]

/-! The steps in order (R65, R83, R130). -/

/-- A step is the first of its row where its number is a multiple of the steps of a row. -/
theorem TileOp.first_iff (t : TileOp) (i : Nat) : i % t.kpr = 0 ↔ ∀ k, k < i → t.row k ≠ t.row i := by
  unfold TileOp.row
  rcases Nat.eq_zero_or_pos t.kpr with h0 | hpos
  · simp only [h0, Nat.mod_zero, Nat.div_zero]
    constructor
    · intro hi k hk
      omega
    · intro h
      by_contra hi
      exact h 0 (Nat.pos_of_ne_zero hi) rfl
  · have hi := Nat.div_add_mod i t.kpr
    constructor
    · intro h k hk he
      have hdiv : k / t.kpr = i / t.kpr := by omega
      have hle := Nat.div_mul_le_self k t.kpr
      rw [hdiv, Nat.mul_comm] at hle
      omega
    · intro h
      by_contra hne
      refine h (i - 1) (by omega) ?_
      have hdiv : (i - 1) / t.kpr = i / t.kpr := by
        rw [Nat.div_eq_iff hpos]
        have hlt := Nat.mod_lt i hpos
        rw [Nat.mul_comm] at hi
        omega
      rw [hdiv]

/-- The steps that add into a column of a row, with one more. -/
theorem TileOp.adds_succ (t : TileOp) (m : Mode) (n row j : Nat) :
    (List.range (n + 1)).filter (fun i => t.row i == row && decide (j < m.columns))
      = (List.range n).filter (fun i => t.row i == row && decide (j < m.columns))
        ++ if t.row n = row then (if j < m.columns then [n] else []) else [] := by
  rw [List.range_succ, List.filter_append]
  congr 1
  by_cases hrow : t.row n = row <;> by_cases hj : j < m.columns <;> simp [hrow, hj]

section
variable (s : State) (a : Nat) (p : Prog) (t : TileOp) (m : Mode)

/-- What the first n steps leave in column j of a row. -/
def State.tileEntry (n row j : Nat) : AccEntry :=
  if ∃ i, i < n ∧ row = t.row i then
    (((List.range n).filter fun i => t.row i == row && decide (j < m.columns)).map fun i => s.tileSum a p t m i j).foldl AccEntry.accumulate
      (if t.clear then m.zero else Tab.get 0 (s.arcade a).acc (row * 128 + j))
  else Tab.get 0 (s.arcade a).acc (row * 128 + j)

/-- One more step adds into its row, which it clears where it is the first there. -/
theorem State.tileEntry_succ (n row j : Nat) : s.tileEntry a p t m (n + 1) row j = if row = t.row n then
    (if j < m.columns then
        (if t.clear && n % t.kpr == 0 then m.zero else s.tileEntry a p t m n row j).accumulate (s.tileSum a p t m n j)
      else if t.clear && n % t.kpr == 0 then m.zero else s.tileEntry a p t m n row j)
    else s.tileEntry a p t m n row j := by
  by_cases hrow : row = t.row n
  · have hnow : ∃ i, i < n + 1 ∧ row = t.row i := ⟨n, Nat.lt_succ_self n, hrow⟩
    rw [if_pos hrow]
    unfold State.tileEntry
    rw [if_pos hnow, t.adds_succ m, if_pos hrow.symm, List.map_append, List.foldl_append]
    by_cases hseen : ∃ i, i < n ∧ row = t.row i
    · have hlater : ¬ n % t.kpr = 0 := fun h => by
        obtain ⟨i, hi, he⟩ := hseen
        exact (t.first_iff n).mp h i hi (he.symm.trans hrow)
      rw [if_pos hseen]
      by_cases hj : j < m.columns <;> simp [hj, hlater]
    · have hfirst : n % t.kpr = 0 := (t.first_iff n).mpr fun i hi he => hseen ⟨i, hi, hrow.trans he.symm⟩
      have hnone : (List.range n).filter (fun i => t.row i == row && decide (j < m.columns)) = [] :=
        List.filter_eq_nil_iff.mpr fun i hi h => hseen ⟨i, List.mem_range.mp hi, by simp at h; exact h.1.symm⟩
      rw [if_neg hseen, hnone]
      by_cases hj : j < m.columns <;> simp [hj, hfirst]
  · have hseen : (∃ i, i < n + 1 ∧ row = t.row i) ↔ ∃ i, i < n ∧ row = t.row i := by
      constructor
      · rintro ⟨i, hi, he⟩
        refine ⟨i, lt_of_le_of_ne (Nat.lt_succ_iff.mp hi) fun hin => hrow (hin ▸ he), he⟩
      · rintro ⟨i, hi, he⟩
        exact ⟨i, Nat.lt_succ_of_lt hi, he⟩
    rw [if_neg hrow]
    unfold State.tileEntry
    rw [t.adds_succ m, if_neg (c := t.row n = row) fun h => hrow h.symm, List.append_nil]
    simp only [hseen]

/-- What the first n steps of a TILE leave. -/
structure State.Tiled (n : Nat) (u : State) (q : Prog) : Prop where
  frame : u = { s with arc := u.arc, sess := u.sess }
  lasting : ∀ sc, (u.session sc).lasting = (s.session sc).lasting
  arcade : ∃ acc poison, u.arcade a = { s.arcade a with acc := acc, accPoison := poison }
  good : Tab.sound (u.arcade a).accPoison
  others : ∀ b, (u.arcade b).integ = (s.arcade b).integ
  prog : q = { p with valid := q.valid }
  valid : ∀ r, r ∈ p.valid ∨ (∃ i, i < n ∧ r = t.row i) → r ∈ q.valid
  entry : ∀ row j, j < 128 → Tab.get 0 (u.arcade a).acc (row * 128 + j) = s.tileEntry a p t m n row j

/-- A TILE that nothing stops: its lines and rows may be read, its accumulator rows hold a value, and what it reads is good. -/
structure State.Tiles : Prop where
  lines : ∀ i, i < t.steps → ∀ y ∈ t.reads m p.address i, segOf y = a ∧ s.pageOk (0x10 + a) p.session y = true
  weights : ∀ i, i < t.steps → s.rowReadable a p.session (p.baseRow + t.subtile i / t.subsPerRow m) = true
  started : ∀ i, i < t.steps → t.clear = true ∨ t.row i ∈ p.valid
  pz : Tab.sound s.pz.poison
  als : Tab.sound (s.arcade a).alsPoison
  side : Tab.sound (s.arcade a).sidePoison
  acc : Tab.sound (s.arcade a).accPoison

end

section
variable {s : State} {a : Nat} {p : Prog} {t : TileOp} {m : Mode}

theorem State.Tiles.none (h : s.Tiles a p t m) : s.Tiled a p t m 0 s p where
  frame := rfl
  lasting _ := rfl
  arcade := ⟨_, _, rfl⟩
  good := h.acc
  others _ := rfl
  prog := rfl
  valid _ hr := hr.resolve_right fun ⟨i, hi, _⟩ => absurd hi (Nat.not_lt_zero i)
  entry _ _ _ := (if_neg fun ⟨i, hi, _⟩ => absurd hi (Nat.not_lt_zero i)).symm

variable {n : Nat} {u : State} {q : Prog} (h : s.Tiled a p t m n u q)
include h

theorem State.Tiled.samePages : s.SamePages u where
  grants _ := by rw [h.frame]
  segs := by rw [h.frame]
  world sc := Session.of_lasting (fun x => (x.world, if x.operator then 0 else x.vi)) (fun _ => rfl) (h.lasting sc)

theorem State.Tiled.rowReadable (sc row : Nat) : u.rowReadable a sc row = s.rowReadable a sc row := by
  have hmine : ∀ r b, u.regionMine sc r b = s.regionMine sc r b := fun r b =>
    Session.of_lasting (fun x => (if x.operator then r.world == 1 else r.world == 2 && r.vi == x.vi) && (r.session == sc || (b && r.shared)))
      (fun _ => rfl) (h.lasting sc)
  obtain ⟨acc, poison, harc⟩ := h.arcade
  unfold State.rowReadable Arcade.regionAt
  rw [harc]
  simp only [hmine]

theorem State.Tiled.tileSum (i : Nat) : u.tileSum a q t m i = s.tileSum a p t m i := by
  obtain ⟨acc, poison, harc⟩ := h.arcade
  unfold State.tileSum
  rw [harc, h.prog, h.frame]
  rfl

theorem State.Tiled.step (ht : s.Tiles a p t m) (hn : n < t.steps) :
    ∃ v r, u.tileStep a q t m [] n = { s := v, p := r } ∧ s.Tiled a p t m (n + 1) v r := by
  have hsession : q.session = p.session := (congrArg Prog.session h.prog :)
  have haddress : q.address = p.address := (congrArg Prog.address h.prog :)
  have hbase : q.baseRow = p.baseRow := (congrArg Prog.baseRow h.prog :)
  have hvalid : (t.clear && n % t.kpr == 0) = true ∨ t.row n ∈ q.valid := by
    rcases ht.started n hn with hclear | hrow
    · by_cases hfirst : n % t.kpr = 0
      · exact .inl (by simp [hclear, hfirst])
      · have hseen : ∃ i, i < n ∧ t.row n = t.row i := by
          by_contra hnone
          exact hfirst ((t.first_iff n).mpr fun i hi he => hnone ⟨i, hi, he.symm⟩)
        exact .inr (h.valid _ (.inr hseen))
    · exact .inr (h.valid _ (.inl hrow))
  obtain ⟨acc, poison, harc⟩ := h.arcade
  have hstep := State.tileStep_adds (s := u) (a := a) (i := n) (p := q) (t := t) (m := m)
    (by rw [haddress, hsession]; simp only [h.samePages.pageOk]; exact ht.lines n hn)
    (by rw [hbase, hsession, h.rowReadable]; exact ht.weights n hn) hvalid (by rw [h.frame]; exact ht.pz) (by rw [harc]; exact ht.als)
    (by rw [harc]; exact ht.side) h.good
  rw [show u.tileSum a q t m n = s.tileSum a p t m n from h.tileSum n, hsession] at hstep
  have hframe : ∀ x y, ({ u with arc := x, sess := y } : State) = { s with arc := x, sess := y } := fun x y => by rw [h.frame]
  have hprog : ∀ x, ({ q with valid := x } : Prog) = { p with valid := x } := fun x => by rw [h.prog]
  have hnew : ∀ c, ((u.onArc a fun _ => c).perf p.session 0 1).arcade a = c := fun c => u.arcade_of_onArc a fun _ => c
  have hother : ∀ c b, b ≠ a → ((u.onArc a fun _ => c).perf p.session 0 1).arcade b = u.arcade b := fun c _ hb =>
    u.arcade_of_onArc_other (fun _ => c) hb
  refine ⟨_, _, hstep, hframe _ _, fun sc => ?_, ?_, ?_, fun b => ?_, hprog _, fun r hr => ?_, fun row j hj => ?_⟩
  · exact (State.session_of_perf (p := Session.lasting) (fun _ _ => rfl) _ p.session 0 1 sc).trans (h.lasting sc)
  · rw [hnew]
    obtain ⟨acc', poison', he⟩ := (u.arcade a).added_eq (t.row n) (t.clear && n % t.kpr == 0) m (goodColumns m (s.tileSum a p t m n))
    exact ⟨acc', poison', he.trans (by rw [harc])⟩
  · rw [hnew]
    exact Arcade.accPoison_added h.good _ _ m _
  · rw [← h.others b]
    by_cases hb : b = a
    · rw [hb, hnew]
      rfl
    · rw [hother _ b hb]
  · refine Prog.mem_tiled.mpr ?_
    rcases hr with hr | ⟨i, hi, he⟩
    · exact .inl (h.valid r (.inl hr))
    · by_cases hin : i = n
      · exact .inr (hin ▸ he)
      · exact .inl (h.valid r (.inr ⟨i, by omega, he⟩))
  · rw [hnew, Arcade.acc_added _ _ _ m _ hj, State.tileEntry_succ, h.entry row j hj]

end

/-- The steps of a TILE that nothing stops all add. -/
theorem State.Tiles.steps {s : State} {a : Nat} {p : Prog} {t : TileOp} {m : Mode} (ht : s.Tiles a p t m) :
    ∃ u q, s.tileSteps a p t m [] = { s := u, p := q } ∧ s.Tiled a p t m t.steps u q :=
  runRows_leaves (f := fun s p i => s.tileStep a p t m [] i) (s.Tiled a p t m) ht.none fun _ hk _ _ h => h.step ht hk

theorem State.Tiled.synced {s u : State} {a n : Nat} {p q : Prog} {t : TileOp} {m : Mode} (h : s.Tiled a p t m n u q) (hs : s.Synced) :
    u.Synced ∧ u.pending = s.pending :=
  ⟨hs.congr (by rw [h.frame]) h.others (fun b => by rw [h.frame]; rfl) (fun b => by rw [h.frame]; rfl) (by rw [h.frame]) (by rw [h.frame])
    (by rw [h.frame]), by rw [h.frame]⟩

theorem exec_tile (a : Arc) (s : State) : exec (.tile a []) s = act (s.tileReady a.val TileInstr.isTile) (fun s => s.tileRow a.val []) s := rfl

/-- The row of TILE runs its steps. -/
theorem State.runInstr_tile (s : State) (a : Nat) (p : Prog) {m : Mode} (o : TileOp) (h : Mode.ofPair o.act o.wt = some m) (n : Nat) :
    s.runInstr a p (.tile o.act o.wt o.fan o.accRow o.clear o.ad o.steps o.kpr o.t0 o.aR o.aK o.aG o.wR o.wK o.sK o.sR) n []
      = (s.tileSteps a p o m []).pass n := by
  unfold State.runInstr
  simp only [h]

theorem State.tile_adds {s : State} {a : Arc} {p : Prog} {n : Nat} {m : Mode} (o : TileOp) (hs : s.Up)
    (hrun : (s.arcade a.val).running = some p) (hissued : p.atBoundary = false) (hgood : p.poisoned = false)
    (hsent : s.sending a.val p = false)
    (hinstr : p.instr
      = some (.tile o.act o.wt o.fan o.accRow o.clear o.ad o.steps o.kpr o.t0 o.aR o.aK o.aG o.wR o.wK o.sK o.sR, n))
    (hmode : Mode.ofPair o.act o.wt = some m) (ht : s.Tiles a.val p o m) : Reaches (.tile a []) s fun t =>
      t = { s with arc := t.arc, sess := t.sess }
      ∧ (∃ q, (t.arcade a.val).running = some q ∧ q.pc = p.pc + n ∧ q.ads = p.ads ∧ q.loops = p.loops)
      ∧ (t.arcade a.val).als = (s.arcade a.val).als ∧ (t.arcade a.val).side = (s.arcade a.val).side
      ∧ ∀ row j, j < 128 → Tab.get 0 (t.arcade a.val).acc (row * 128 + j) = s.tileEntry a.val p o m o.steps row j := by
  obtain ⟨u, q, hsteps, h⟩ := ht.steps
  have hrow : s.runInstr a.val p
      (.tile o.act o.wt o.fan o.accRow o.clear o.ad o.steps o.kpr o.t0 o.aR o.aK o.aG o.wR o.wK o.sK o.sR) n []
      = { s := u, p := { q with pc := q.pc + n } } := by
    rw [State.runInstr_tile s a.val p o hmode, hsteps]
    exact Ran.pass_sound ((congrArg Prog.poisoned h.prog).trans hgood) n
  obtain ⟨hsync, hpend⟩ := h.synced hs.2
  obtain ⟨acc, poison, harc⟩ := h.arcade
  refine reaches_runs hs hrun hissued (exec_tile a s) hinstr rfl (by simp [hsent]) hrow hsync hpend ?_
  rw [State.arcade_runs]
  refine ⟨?_, ⟨_, rfl, ?_, (congrArg Prog.ads h.prog :), (congrArg Prog.loops h.prog :)⟩, (congrArg Arcade.als harc :),
    (congrArg Arcade.side harc :), h.entry⟩
  · rw [h.frame]
    rfl
  · exact (congrArg (fun x : Prog => x.pc + n) h.prog :)

/-- Settles O44. That an operand of MOVE or OUT that is no multiple of 64 stands for its line, and that void rows of a reduction keep
their entries, are the model's choices (log entry 104), as is the layout of MX lines and of the half modes' columns (log entries 89 and
91); sums that the formats do not fix are free (log entry 2). -/
theorem tileDataWords : Obligations.TileDataWords := by
  intro s a p n hs hrun hissued hgood hrole hsent hpz hals hside hacc c unit goes
  refine ⟨?tile, ?out, ?send, ?comb, ?move⟩
  case tile =>
    intro act wt fan accRow clear ad steps kpr t0 aR aK aG wR wK sK sR m hinstr hmode o wrow x hok
    have ht : s.Tiles a.val p o m := ⟨fun i hi => (hok i hi).1, fun i hi => (hok i hi).2.1, fun i hi => (hok i hi).2.2,
      hpz ▸ Tab.sound_nil, hals ▸ Tab.sound_nil, hside ▸ Tab.sound_nil, hacc ▸ Tab.sound_nil⟩
    have hx : ∀ i j, s.tileSum a.val p o m i j = x i j := by
      intro i j
      unfold State.tileSum
      show _ = (c.column o m (wrow i) _ _ _ j).1
      cases (o.reads m p.address i).drop o.b <;> rfl
    obtain ⟨t, ht', hframe, hgoes, hkeepAls, hkeepSide, hentry⟩ := State.tile_adds o hs hrun hissued hgood hsent hinstr hmode ht
    refine ⟨t, ht', hframe, hgoes, hkeepAls, hkeepSide, fun row j hj hnone => ?_, fun row j hj hsome => ?_⟩
    · rw [hentry row j hj]
      exact if_neg fun ⟨i, hi, he⟩ => hnone i hi he
    · rw [hentry row j hj]
      refine (if_pos hsome).trans ?_
      simp only [hx]
      rfl
  case out =>
    intro accRow rows odesc dstAd dst stride d hinstr hd hvalid
    exact State.out_drains hs hrun hissued hgood hrole hacc hinstr hd hvalid
  case send =>
    intro accRow rows rdesc part dg r hinstr hr hvalid data digest
    exact ⟨fun hnear => State.send_near hs hrun hissued hgood hrole hsent hacc hinstr hr hvalid hnear,
      fun hfar => State.send_far hs hrun hissued hgood hrole hsent hacc hinstr hr hvalid hfar⟩
  case comb =>
    intro rdesc r hinstr hr
    exact ⟨fun hmissing => State.comb_waits hs hrun hissued hinstr hr hmissing,
      fun hall hdigest => State.comb_combines hs hrun hissued hinstr hr hgood hacc hall hdigest⟩
  case move =>
    intro src dst lines hinstr x y hpages
    exact State.move_moves hs hrun hissued hgood hsent hpz hinstr hpages

end Sys2Proof.Machine
end

