-- ==== Sys2Proof/Proofs/ChecksRunRefuted.lean ====
section
/-! PROOFS. O46 fails where a primary holds two checks of one number. -/

namespace Sys2Proof.Machine
open Sys2Proof.Tests

theorem exec_refereeComplete {s : State} {a : Arc} {k : Check} {r : Nat} (hk : s.checkAt a.val .refereeing = some k) (hr : k.referee = some r) :
    exec (.refereeComplete a []) s
      = act ((s.arcade r).noControl || !s.canRun r) (fun s => if s.canRun r then s.refereeRan a.val r k [] else s.inconclusive a.val k) s := by
  show execRefereeComplete a [] s = _
  unfold execRefereeComplete
  rw [hk]
  dsimp only
  rw [hr]

/-- A check by Arcade 14 whose referee agrees with the primary. -/
def outvotedCheck : Check := refCheck (some rerunSig) none

/-- A check of the same number by Arcade 12. -/
def namesakeCheck : Check := { capturing with checker := 12 }

/-- Arcade 15 holds both, the one by Arcade 12 first. -/
def namesakes : State :=
  { tenant with arc := [(15, { integ := .inService, checks := [namesakeCheck, outvotedCheck] }), (14, { integ := .inService }),
                        (13, { integ := .inService })] }

/-- The referee's verdict on the one sends both to be repeated, each by its own checker. -/
theorem namesakes_refereed : ((namesakes.refereeRan 15 13 outvotedCheck []).checkOf 15 4).map (fun y => y.repeatOf)
    = some (some (12, rerunSig)) := by
  decide +kernel

theorem namesakes_exec : exec (.refereeComplete 15 []) namesakes = .next (namesakes.settle (namesakes.refereeRan 15 13 outvotedCheck [])) := by
  have hcan : namesakes.canRun 13 = true := by decide +kernel
  refine (exec_refereeComplete (a := 15) (k := outvotedCheck) (r := 13) (by decide +kernel) rfl).trans ((act_runs rfl (by decide +kernel)).trans ?_)
  rw [if_pos hcan]
  rfl

/-- Refutes O46: a referee that sides with the primary against the checker of one check leaves another check of the same span number, which
stands before it on the primary, to be repeated by that other check's own checker. The statement takes states whose checks of a primary may
share a number; the model's readings of log entries 43 and 107 play no part. -/
theorem not_checksRun : ¬ Obligations.ChecksRun := by
  intro h
  obtain ⟨-, -, -, hreferee, -⟩ := h
  have hside := (hreferee namesakes 15 outvotedCheck 13 rfl (by decide +kernel) rfl).2 (by decide +kernel) (by decide +kernel)
  obtain ⟨-, -, hrepeat, -⟩ := hside.2 rerunSig (by decide +kernel)
  have hheld : ((namesakes.runCheck 15 13 outvotedCheck []).1.checkOf 15 4).isSome = true := by decide +kernel
  obtain ⟨t, hexec, y, hy, -, hof⟩ := hrepeat rfl (by decide) (by decide +kernel) (Option.isSome_iff_exists.mp hheld)
  have ht : t = namesakes.settle (namesakes.refereeRan 15 13 outvotedCheck []) := by simpa [namesakes_exec] using hexec.symm
  have hkept : t.checkOf 15 4 = (namesakes.refereeRan 15 13 outvotedCheck []).checkOf 15 4 := by
    rw [ht]
    unfold State.checkOf
    rw [State.settle_arcade]
  have hother := namesakes_refereed
  rw [← hkept, show t.checkOf 15 4 = some y from hy, Option.map_some, hof] at hother
  exact absurd hother (by decide)

end Sys2Proof.Machine
end
